-- ==== Sys2Proof/Word.lean ====
section
/-! DEFINITION. The word types of the Lawell (R4, R50, R51, R54, R58) and the table type that holds sparse data. -/

namespace Sys2Proof

/-- One byte; memory is little-endian in bytes (R4). -/
abbrev Byte := BitVec 8
/-- A scalar register, a virtual address, a program counter (R35, R50, R96). -/
abbrev Word := BitVec 64
/-- One lane's slice of a lane register (R51). -/
abbrev LWord := BitVec 32
/-- A mask over the 128 lanes of a group; bit i is lane i (R41). -/
abbrev Mask := BitVec 128
/-- A lane register: the slices of lanes 0, 1, … in order (R51). -/
abbrev LaneVec := List LWord
/-- A predicate register: the four bits 4i to 4i + 3 of lanes i = 0, 1, … in order (R54). -/
abbrev PredVec := List (BitVec 4)
/-- A tile register's 128-bit descriptor (R58). -/
abbrev TileDesc := BitVec 128
/-- Sparse data by a natural key: keys rise, and no entry equals the default its reader gives. -/
abbrev Tab (α : Type) := List (Nat × α)

end Sys2Proof
end

