-- ==== Sys2Proof/Syntax.lean ====
section
/-! DEFINITION. The instructions and events of the Lawell: one constructor of `Instr` for each row of the opcode table. Operand forms are structures, so that the machine sees no encoded field. -/

namespace Sys2Proof

/-- A scalar register number s0 to s63 (R50). -/
abbrev SReg := BitVec 6
/-- A lane register or long-accumulator number as its operand field holds it (R152, R153). -/
abbrev VReg := BitVec 8
/-- A predicate register m0 to m7 (R54). -/
abbrev PReg := BitVec 3
/-- A tile register t0 to t15 (R58). -/
abbrev TReg := BitVec 4
/-- A completion counter k0 to k15 (R62). -/
abbrev KReg := BitVec 4
/-- A scope operand (R25). -/
abbrev Scope := BitVec 4
/-- A captured scalar source s0 to s15 of a lane instruction (R37, R153). -/
abbrev CReg := BitVec 4
/-- A lane-written scalar destination: n stands for s(40 + n) (R39, R153). -/
abbrev LDst := BitVec 3
/-- A conversion type code (R214). -/
abbrev TCode := BitVec 4

/-- The fields every lane word shares: predicate, negate, repeat and step (R152, R154, R155). -/
structure LaneCtl where
  neg : Bool
  pred : PReg
  rep : BitVec 6
  stepD : Bool
  stepA : Bool
  stepB : Bool
  stepC : Bool
  deriving DecidableEq, Repr

/-- Operand b of a lane instruction (R157, R170). -/
inductive SrcB where
  | reg (r : VReg)
  | scal (r : CReg)
  | imm (v : BitVec 32)
  deriving DecidableEq, Repr

/-- Width of packed integer sub-elements (R207). -/
inductive PWidth where
  | w4 | w8 | w16
  deriving DecidableEq, Repr

/-- Ordering and space of a scalar atomic (R183). -/
structure SAmo where
  d : SReg
  a : SReg
  acq : Bool
  rel : Bool
  scope : Scope
  wide : Bool
  sp : Bool
  deriving DecidableEq, Repr

/-- 32- or 64-bit integer lane operation of two sources (R206); `sat` for vadd and vsub only. -/
structure IntBin where
  c : LaneCtl
  wide : Bool
  sg : Bool
  sat : Bool
  d : VReg
  a : VReg
  b : SrcB
  deriving DecidableEq, Repr
/-- vmad (R206). -/
structure IntTern where
  c : LaneCtl
  wide : Bool
  sg : Bool
  d : VReg
  a : VReg
  b : SrcB
  e : VReg
  deriving DecidableEq, Repr
/-- vclz, vpopc (R206). -/
structure IntUn where
  c : LaneCtl
  wide : Bool
  sg : Bool
  d : VReg
  a : VReg
  deriving DecidableEq, Repr
/-- vcmp on integers; `cc` 0 to 5 is eq, ne, lt, le, gt, ge (R206). -/
structure IntCmp where
  c : LaneCtl
  wide : Bool
  sg : Bool
  cc : BitVec 3
  d : PReg
  a : VReg
  b : SrcB
  deriving DecidableEq, Repr
/-- Packed integer operation (R207). -/
structure PackBin where
  c : LaneCtl
  w : PWidth
  sg : Bool
  sat : Bool
  d : VReg
  a : VReg
  b : SrcB
  deriving DecidableEq, Repr
/-- Packed integer compare (R207). -/
structure PackCmp where
  c : LaneCtl
  w : PWidth
  sg : Bool
  d : PReg
  a : VReg
  b : SrcB
  deriving DecidableEq, Repr
/-- vdot (R208). -/
structure DotArgs where
  c : LaneCtl
  w : PWidth
  sgA : Bool
  sgB : Bool
  sat : Bool
  d : VReg
  a : VReg
  b : SrcB
  e : VReg
  deriving DecidableEq, Repr
/-- vmov.n32, vmov.n64 (R209). -/
structure MovArgs where
  c : LaneCtl
  sg : Bool
  d : VReg
  b : SrcB
  deriving DecidableEq, Repr
/-- vsel.n32, vsel.n64 (R209). -/
structure SelArgs where
  c : LaneCtl
  sg : Bool
  d : VReg
  a : VReg
  b : SrcB
  k : PReg
  deriving DecidableEq, Repr
/-- vcoord (R209). -/
structure CoordArgs where
  c : LaneCtl
  sg : Bool
  d : VReg
  n : BitVec 12
  deriving DecidableEq, Repr
/-- FP32 or FP64 operation of two sources (R210). -/
structure FpBin where
  c : LaneCtl
  dbl : Bool
  mode : BitVec 2
  sat : Bool
  ftz : Bool
  d : VReg
  a : VReg
  b : SrcB
  deriving DecidableEq, Repr
/-- vfma, vfms, vfnma (R210). -/
structure FpTern where
  c : LaneCtl
  dbl : Bool
  mode : BitVec 2
  sat : Bool
  ftz : Bool
  d : VReg
  a : VReg
  b : SrcB
  e : VReg
  deriving DecidableEq, Repr
/-- vsqrt (R210). -/
structure FpUn where
  c : LaneCtl
  dbl : Bool
  mode : BitVec 2
  sat : Bool
  ftz : Bool
  d : VReg
  a : VReg
  deriving DecidableEq, Repr
/-- Floating compare; `cc` 0 to 6 is eq, ne, lt, le, gt, ge, un (R211). -/
structure FpCmp where
  c : LaneCtl
  dbl : Bool
  cc : BitVec 3
  d : PReg
  a : VReg
  b : SrcB
  deriving DecidableEq, Repr
/-- Floating vmin, vmax, vcsgn (R212). -/
structure FpSel where
  c : LaneCtl
  dbl : Bool
  d : VReg
  a : VReg
  b : SrcB
  deriving DecidableEq, Repr
/-- vneg, vabs, vclass (R212). -/
structure FpBits where
  c : LaneCtl
  dbl : Bool
  d : VReg
  a : VReg
  deriving DecidableEq, Repr
/-- Packed FP16 or BF16 operation of two sources (R213). -/
structure HBin where
  c : LaneCtl
  bf : Bool
  mode : BitVec 2
  sat : Bool
  d : VReg
  a : VReg
  b : SrcB
  deriving DecidableEq, Repr
/-- Packed vfma and vdot2 (R213). -/
structure HTern where
  c : LaneCtl
  bf : Bool
  mode : BitVec 2
  sat : Bool
  d : VReg
  a : VReg
  b : SrcB
  e : VReg
  deriving DecidableEq, Repr
/-- Packed vmin, vmax (R213). -/
structure HSel where
  c : LaneCtl
  bf : Bool
  d : VReg
  a : VReg
  b : SrcB
  deriving DecidableEq, Repr
/-- Packed floating compare (R213). -/
structure HCmp where
  c : LaneCtl
  bf : Bool
  d : PReg
  a : VReg
  b : SrcB
  deriving DecidableEq, Repr
/-- vcvt (R215). -/
structure CvtArgs where
  c : LaneCtl
  dt : TCode
  st : TCode
  dpos : BitVec 4
  spos : BitVec 4
  mode : BitVec 2
  sat : Bool
  d : VReg
  a : VReg
  deriving DecidableEq, Repr
/-- vcvtp (R216). -/
structure CvtpArgs where
  c : LaneCtl
  bf : Bool
  mode : BitVec 2
  sat : Bool
  d : VReg
  a : VReg
  b : VReg
  deriving DecidableEq, Repr
/-- Special function (R217). -/
structure SfArgs where
  c : LaneCtl
  d : VReg
  a : VReg
  deriving DecidableEq, Repr
/-- vpand, vpor, vpxor, vpandn (R219). -/
structure PredBin where
  c : LaneCtl
  d : PReg
  a : PReg
  b : PReg
  deriving DecidableEq, Repr
/-- vpnot (R219). -/
structure PredUn where
  c : LaneCtl
  d : PReg
  a : PReg
  deriving DecidableEq, Repr
/-- vpset (R219). -/
structure PredSet where
  c : LaneCtl
  d : PReg
  n : BitVec 4
  deriving DecidableEq, Repr
/-- vpget (R219). -/
structure PredGet where
  c : LaneCtl
  d : VReg
  a : PReg
  deriving DecidableEq, Repr
/-- vpmov, vpnz (R219). -/
structure PredMov where
  c : LaneCtl
  d : PReg
  a : VReg
  deriving DecidableEq, Repr
/-- mpush (R220). -/
structure PushArgs where
  neg : Bool
  pred : PReg
  deriving DecidableEq, Repr
/-- vtest (R221). -/
structure TestArgs where
  neg : Bool
  pred : PReg
  d : LDst
  deriving DecidableEq, Repr
/-- vmaskm (R222). -/
structure MaskmArgs where
  c : LaneCtl
  d : PReg
  deriving DecidableEq, Repr
/-- Shuffle; `w` is log2 W when given, `k` the out-of-range predicate when given (R223, R224). -/
structure ShflArgs where
  c : LaneCtl
  pair : Bool
  w : Option (BitVec 3)
  k : Option PReg
  d : VReg
  a : VReg
  b : SrcB
  deriving DecidableEq, Repr
/-- Destination of vlred and vballot (R225, R228). -/
inductive CrossDst where
  | lanes (d : VReg)
  | scalar (d : LDst)
  deriving DecidableEq, Repr
/-- vlred; `op` 0 to 8 counts opcodes from 0x220 (R225). -/
structure LredArgs where
  c : LaneCtl
  op : BitVec 4
  sg : Bool
  w : Option (BitVec 3)
  d : CrossDst
  a : VReg
  deriving DecidableEq, Repr
/-- vscan; `op` 0 to 5 counts opcodes from 0x230 (R226). -/
structure ScanArgs where
  c : LaneCtl
  op : BitVec 3
  sg : Bool
  excl : Bool
  w : Option (BitVec 3)
  d : VReg
  a : VReg
  deriving DecidableEq, Repr
/-- vbcast (R227). -/
structure BcastArgs where
  c : LaneCtl
  pair : Bool
  w : Option (BitVec 3)
  d : VReg
  a : VReg
  b : SrcB
  deriving DecidableEq, Repr
/-- vballot; `h` is the half of the scalar form (R228). -/
structure BallotArgs where
  c : LaneCtl
  negSrc : Bool
  w : Option (BitVec 3)
  h : Bool
  d : CrossDst
  k : PReg
  deriving DecidableEq, Repr
/-- vmatch (R229). -/
structure MatchArgs where
  c : LaneCtl
  pair : Bool
  flt : Bool
  bits : Bool
  w : Option (BitVec 3)
  d : VReg
  a : VReg
  deriving DecidableEq, Repr

/-- Space and ordering of a lane memory instruction (R230, R235). -/
structure MemCtl where
  sp : Bool
  ro : Bool
  acq : Bool
  rel : Bool
  scope : Scope
  deriving DecidableEq, Repr
/-- Contiguous access: vld, vst, vldq, vstq; `kind` counts opcodes from the base opcode (R233). -/
structure ContArgs where
  c : LaneCtl
  kind : BitVec 3
  m : MemCtl
  r : VReg
  base : CReg
  off : BitVec 32
  deriving DecidableEq, Repr
/-- Indexed access: vldx, vstx (R230, R233). -/
structure IdxArgs where
  c : LaneCtl
  kind : BitVec 3
  m : MemCtl
  a64 : Bool
  scale : BitVec 2
  r : VReg
  a : VReg
  base : CReg
  deriving DecidableEq, Repr
/-- vamo; `op` is the operation of R183 (R238). -/
structure VAmoArgs where
  c : LaneCtl
  op : BitVec 4
  wide : Bool
  m : MemCtl
  nr : Bool
  a64 : Bool
  scale : BitVec 2
  d : VReg
  a : VReg
  base : CReg
  x : VReg
  deriving DecidableEq, Repr
/-- vqatom.add and vqatom.merge; `t` is zero for merge (R240). -/
structure QatomArgs where
  c : LaneCtl
  t : TCode
  m : MemCtl
  a64 : Bool
  scale : BitVec 2
  a : VReg
  base : CReg
  x : VReg
  deriving DecidableEq, Repr
/-- vpref (R241). -/
structure PrefArgs where
  c : LaneCtl
  ro : Bool
  base : CReg
  off : BitVec 32
  deriving DecidableEq, Repr
/-- vprefx (R241). -/
structure PrefxArgs where
  c : LaneCtl
  ro : Bool
  a64 : Bool
  scale : BitVec 2
  a : VReg
  base : CReg
  deriving DecidableEq, Repr
/-- vbput, vbtake (R249). -/
structure VBoothArgs where
  neg : Bool
  pred : PReg
  r : VReg
  base : CReg
  d : LDst
  deriving DecidableEq, Repr

/-- qzero, qnorm (R256). -/
structure QOne where
  c : LaneCtl
  d : VReg
  deriving DecidableEq, Repr
/-- qmov, qmerge, qstat (R256). -/
structure QTwo where
  c : LaneCtl
  d : VReg
  a : VReg
  deriving DecidableEq, Repr
/-- qadd (R257). -/
structure QAddArgs where
  c : LaneCtl
  t : TCode
  d : VReg
  a : VReg
  deriving DecidableEq, Repr
/-- qmac; `b` is a register or a captured scalar (R257). -/
structure QMacArgs where
  c : LaneCtl
  t : TCode
  d : VReg
  a : VReg
  b : SrcB
  deriving DecidableEq, Repr
/-- qred (R258). -/
structure QRedArgs where
  c : LaneCtl
  w : Option (BitVec 3)
  d : VReg
  a : VReg
  deriving DecidableEq, Repr
/-- qrnd (R259). -/
structure QRndArgs where
  c : LaneCtl
  t : TCode
  dpos : BitVec 4
  mode : BitVec 2
  sat : Bool
  d : VReg
  a : VReg
  deriving DecidableEq, Repr
/-- qseg (R256). -/
structure QSegArgs where
  c : LaneCtl
  d : VReg
  a : VReg
  n : BitVec 4
  deriving DecidableEq, Repr
/-- qspill, qfill; `norm` for qspill only (R260). -/
structure QMemArgs where
  c : LaneCtl
  sp : Bool
  norm : Bool
  q : VReg
  base : CReg
  off : BitVec 32
  deriving DecidableEq, Repr

/-- Counter, ordering and scope of a class 111 instruction (R263). -/
structure TileCtl where
  kc : Option KReg
  acq : Bool
  rel : Bool
  scope : Scope
  deriving DecidableEq, Repr
/-- tmma, tcsum, tconv: C, A, the checksum tile (tcsum) and the scalar source (tconv) in `x`, B fields (R263). -/
structure MulArgs where
  c : TileCtl
  ta : TCode
  tb : TCode
  tc : TReg
  a : TReg
  x : BitVec 4
  rec4 : BitVec 4
  nb : BitVec 10
  kb : BitVec 10
  deriving DecidableEq, Repr
/-- tload, tstore, tasum, tstage, tzero: two tile registers and the flags of their immediate (R263). -/
structure MoveArgs where
  c : TileCtl
  d : TReg
  a : TReg
  add : Bool
  n : Bool
  deriving DecidableEq, Repr
/-- tepi; `scale` 0 none, 1 row, 2 column (R277). -/
structure EpiArgs where
  c : TileCtl
  d : TReg
  a : TReg
  ts : TReg
  scale : BitVec 2
  clr : Bool
  n : Bool
  sat : Bool
  mode : BitVec 2
  deriving DecidableEq, Repr
/-- tres (R268). -/
structure ResArgs where
  d : LDst
  a : CReg
  b : CReg
  n : BitVec 4
  deriving DecidableEq, Repr

/-- What a request of another chip asks of its home here (R335, R337, R382). -/
inductive RemoteOp where
  | load (n : Nat)
  | store (bs : List Byte)
  | atomic (op n : Nat) (x y : Word)
  | merge (slot : List Byte)
  | map (template : Word)
  | inv (sel : Word)
  deriving DecidableEq, Repr
/-- A request of another chip: its source chip, the launch's partition and asn, the untranslated address (R382). -/
structure RemoteReq where
  chip : Nat
  part : Nat
  asn : BitVec 8
  va : Word
  op : RemoteOp
  deriving DecidableEq, Repr
/-- What the home of another chip answers to what waits there: the leaf of the page, a page-fault cause, the result of a `pmap`, or that a `tlbinv` is done (R334, R335, R337, R382). -/
inductive FarReply where
  | leaf (leaf : Word) (level : Nat)
  | fault (cause : Nat)
  | mapped (r : Nat)
  | done
  deriving DecidableEq, Repr
/-- What the chips of a launch tell one another of a pre-emption (R29, R320, R352, log 11): a request with its deadline, whether all of a chip's teams beneath a node have yielded, and that the save of a node has begun. -/
inductive FarPreempt where
  | request (deadline : Nat)
  | yielded (chip node : Nat) (all : Bool)
  | save (node : Nat)
  deriving DecidableEq, Repr

/-- On whose behalf a request is sent or a walk is waited for (R122). The last six are of the traffic between chips (R29, R382, log 11): a request of another chip under way here, its arrival, the answer of another chip's home to what waits on a walk there, a change of another chip's memory, the loss of another die's translations, what another chip tells of the pre-emption of a partition's launch. -/
inductive Agent where
  | scalar (g : Nat)
  | lane (g : Nat)
  | fetchS (g : Nat)
  | fetchL (g : Nat)
  | vec (g : Nat)
  | tile (g : Nat)
  | copy (t c : Nat)
  | coll (c : Nat)
  | queue (q : Nat)
  | qcopy (q : Nat)
  | save (l n : Nat)
  | sink (p d : Nat)
  | complete (l : Nat)
  | pref (core l : Nat) (va : Word)
  | remote (n : Nat)
  | arrival (r : RemoteReq)
  | answer (w : Nat) (r : FarReply)
  | far (flat : Nat) (bs : List Byte)
  | forget (die : Nat)
  | preempt (part id : Nat) (m : FarPreempt)
  deriving DecidableEq, Repr

/-- What a soft error strikes (R359); a cell of an accumulator tile is poisoned, or a bit of its live or shadow slot is inverted (R298, R299). `link` is a die-to-die link on which the running package detects failures (R14, R408). -/
inductive SoftUnit where
  | lane (g r i : Nat)
  | scalar (g r : Nat)
  | tile (g r : Nat)
  | pred (g r : Nat)
  | acc (g r i : Nat)
  | slot (t tile cell : Nat)
  | flip (t tile cell bit : Nat) (shadow : Bool)
  | scratch (t granule : Nat)
  | memory (granule : Nat)
  | link (die n : Nat)
  deriving DecidableEq, Repr

/-- The instructions (R147 to R277, R308 to R351) and events of the opcode table. -/
inductive Instr where
  -- integer ALU (R176, R177)
  | sadd (d a b : SReg) | ssub (d a b : SReg) | sseq (d a b : SReg) | ssne (d a b : SReg) | sslt (d a b : SReg)
  | ssltu (d a b : SReg) | smin (d a b : SReg) | sminu (d a b : SReg) | smax (d a b : SReg) | smaxu (d a b : SReg)
  | sand (d a b : SReg) | sor (d a b : SReg) | sxor (d a b : SReg) | sandn (d a b : SReg) | sshl (d a b : SReg)
  | sshr (d a b : SReg) | ssra (d a b : SReg) | srol (d a b : SReg) | sror (d a b : SReg) | smul (d a b : SReg)
  | smulh (d a b : SReg) | smulhu (d a b : SReg) | sdiv (d a b : SReg) | sdivu (d a b : SReg) | srem (d a b : SReg)
  | sremu (d a b : SReg) | sclz (d a : SReg) | sctz (d a : SReg) | spopc (d a : SReg) | sbswap (d a : SReg)
  | ssx8 (d a : SReg) | ssx16 (d a : SReg) | ssx32 (d a : SReg) | szx32 (d a : SReg)
  -- immediates (R178, R179)
  | saddi (d a : SReg) (i : BitVec 14) | sandi (d a : SReg) (i : BitVec 14) | sori (d a : SReg) (i : BitVec 14)
  | sxori (d a : SReg) (i : BitVec 14) | sslti (d a : SReg) (i : BitVec 14) | sshli (d a : SReg) (n : BitVec 6)
  | sshri (d a : SReg) (n : BitVec 6) | ssrai (d a : SReg) (n : BitVec 6) | srori (d a : SReg) (n : BitVec 6)
  | slui (d : SReg) (i : BitVec 20) | sshlo (d : SReg) (i : BitVec 20)
  -- loads, stores, atomics, fences (R180 to R185)
  | sld (d a : SReg) (k : BitVec 3) (sp : Bool) (o : BitVec 10) | sst (d a : SReg) (k : BitVec 2) (sp : Bool) (o : BitVec 10)
  | sldX (d a b : SReg) (k : BitVec 3) (sp : Bool) | sstX (d a b : SReg) (k : BitVec 2) (sp : Bool)
  | sldAcq (d a : SReg) (k : BitVec 3) (sp : Bool) (c : Scope) | sstRel (d a : SReg) (k : BitVec 2) (sp : Bool) (c : Scope)
  | sldRo (d a b : SReg) (k : BitVec 3)
  | samoSwap (x : SAmo) | samoAdd (x : SAmo) | samoAnd (x : SAmo) | samoOr (x : SAmo) | samoXor (x : SAmo)
  | samoMinI (x : SAmo) | samoMaxI (x : SAmo) | samoMinN (x : SAmo) | samoMaxN (x : SAmo) | samoCas (x : SAmo)
  | sfence (c : Scope) | sfenceAcq (c : Scope) | sfenceRel (c : Scope)
  -- control flow (R186, R187), release (R189, R190), status and waits (R191, R192)
  | sbr (a : SReg) (c : BitVec 4) (o : BitVec 16) | sjmp (o : BitVec 26) | scall (o : BitVec 26)
  | sjr (a : SReg) | scallr (a : SReg) | sret | sexit
  | lrun (n : BitVec 10) | ljmp (o : BitVec 25) | lrunr (a : SReg) | ljmpr (a : SReg) | lsync
  | lmask (d : SReg) (w : BitVec 2) | lsumm (d : SReg) | sget (d : SReg) (n : BitVec 12)
  | kwait (d a : SReg) (k : KReg) | waitLd (d a : SReg) | waitSt (d a : SReg) | waitCp (d a : SReg) | waitTl (d a : SReg)
  -- barriers, yields (R194 to R198), booths (R245 to R248), copies (R242)
  | barInit (a b : SReg) | barFree (a : SReg) | barArrive (d a b : SReg) | barWait (a : SReg)
  | sbarArrive (d : SReg) (c : Scope) | sbarWait (a : SReg) (c : Scope) | yieldc (a b : SReg) (o : BitVec 14)
  | bdecl (a b : SReg) | bput (d a b : SReg) | bputw (d a b : SReg) | btake (d a : SReg) | bdrop (a : SReg)
  | xcopy (a : SReg)
  -- tile registers, shapes (R199, R200), coherence objects (R251 to R254), collectives (R280), trace (R201)
  | tset (t : TReg) (a b : SReg) | tsetb (t : TReg) (a : SReg) | tsets (t : TReg) (a : SReg)
  | tgetl (d : SReg) (t : TReg) | tgeth (d : SReg) (t : TReg)
  | shalloc (d a : SReg) | shfree (a : SReg) | shtest (d a : SReg)
  | cobjDecl (d a b : SReg) | cobjMode (k : KReg) (a b : SReg) | cobjFree (a : SReg) | cobjQuery (d a : SReg)
  | creduce (d a b : SReg) | callred (d a b : SReg) | credscat (d a b : SReg) | callgath (d a b : SReg)
  | calltoall (d a b : SReg) | cbcast (d a b : SReg) | cabort (d a : SReg)
  | tmark (a b : SReg) | tsync | tsamp (a : SReg)
  -- privileged (R310, R331, R348)
  | spget (d a : SReg) | spset (a b : SReg) | sslotw (a b : SReg) | sslotr (d a : SReg) | sslotx (a : SReg)
  | spreq (d a b : SReg) | sgpl (d : SReg)
  | tlbroot (a b : SReg) | tlbinv (a b : SReg) | carve (d a : SReg) (k : KReg) | pmap (d a b : SReg) | pgive (d a b : SReg)
  | wldp (d a : SReg) | wcasp (d a b : SReg) | tlbfill (a b : SReg) | wentry (a b : SReg)
  | eret | ekill (a : SReg) | efget (d a : SReg) | efset (a b : SReg)
  -- lane integer (R206 to R209)
  | vadd (x : IntBin) | vsub (x : IntBin) | vmul (x : IntBin) | vmulh (x : IntBin) | vmad (x : IntTern) | vmin (x : IntBin)
  | vmax (x : IntBin) | vdiv (x : IntBin) | vrem (x : IntBin) | vand (x : IntBin) | vor (x : IntBin) | vxor (x : IntBin)
  | vandn (x : IntBin) | vshl (x : IntBin) | vshr (x : IntBin) | vclz (x : IntUn) | vpopc (x : IntUn) | vcmp (x : IntCmp)
  | vaddPacked (x : PackBin) | vsubPacked (x : PackBin) | vminPacked (x : PackBin) | vmaxPacked (x : PackBin)
  | vmulPacked (x : PackBin) | vcmpEqPacked (x : PackCmp) | vcmpLtPacked (x : PackCmp) | vcmpLePacked (x : PackCmp)
  | vdot (x : DotArgs) | vmovN32 (x : MovArgs) | vselN32 (x : SelArgs) | vselN64 (x : SelArgs) | vcoord (x : CoordArgs)
  | vmovN64 (x : MovArgs)
  -- lane float (R210 to R213), conversions (R215, R216), special functions (R217)
  | vaddFp (x : FpBin) | vsubFp (x : FpBin) | vmulFp (x : FpBin) | vfma (x : FpTern) | vfms (x : FpTern) | vfnma (x : FpTern)
  | vdivFp (x : FpBin) | vsqrt (x : FpUn) | vcmpFp (x : FpCmp) | vminFp (x : FpSel) | vmaxFp (x : FpSel)
  | vneg (x : FpBits) | vabs (x : FpBits) | vcsgn (x : FpSel) | vclass (x : FpBits)
  | vaddF16 (x : HBin) | vsubF16 (x : HBin) | vmulF16 (x : HBin) | vfmaF16 (x : HTern) | vminF16 (x : HSel) | vmaxF16 (x : HSel)
  | vcmpEqF16 (x : HCmp) | vcmpLtF16 (x : HCmp) | vdot2 (x : HTern) | vcvt (x : CvtArgs) | vcvtp (x : CvtpArgs)
  | vfrsqe (x : SfArgs) | vfrcpe (x : SfArgs) | vfexp2 (x : SfArgs) | vflog2 (x : SfArgs) | vfsinpi (x : SfArgs) | vfcospi (x : SfArgs)
  -- predicates, mask, cross-lane (R219 to R229)
  | vpand (x : PredBin) | vpor (x : PredBin) | vpxor (x : PredBin) | vpandn (x : PredBin) | vpnot (x : PredUn)
  | vpset (x : PredSet) | vpget (x : PredGet) | vpmov (x : PredMov) | vpnz (x : PredMov)
  | mpush (x : PushArgs) | melse | mpop | vtest (x : TestArgs) | vmaskm (x : MaskmArgs)
  | vshflIdx (x : ShflArgs) | vshflUp (x : ShflArgs) | vshflDown (x : ShflArgs) | vshflXor (x : ShflArgs)
  | vlred (x : LredArgs) | vscan (x : ScanArgs) | vbcast (x : BcastArgs) | vballot (x : BallotArgs) | vmatch (x : MatchArgs)
  -- lane memory (R233 to R241, R249)
  | vld (x : ContArgs) | vldq (x : ContArgs) | vldx (x : IdxArgs) | vst (x : ContArgs) | vstq (x : ContArgs) | vstx (x : IdxArgs)
  | vamo (x : VAmoArgs) | vqatomAdd (x : QatomArgs) | vqatomMerge (x : QatomArgs) | vpref (x : PrefArgs) | vprefx (x : PrefxArgs)
  | vbput (x : VBoothArgs) | vbtake (x : VBoothArgs)
  -- long accumulators (R256 to R260)
  | qzero (x : QOne) | qmov (x : QTwo) | qadd (x : QAddArgs) | qmac (x : QMacArgs) | qmerge (x : QTwo) | qnorm (x : QOne)
  | qred (x : QRedArgs) | qrnd (x : QRndArgs) | qstat (x : QTwo) | qseg (x : QSegArgs) | qspill (x : QMemArgs) | qfill (x : QMemArgs)
  -- tiles (R263 to R277)
  | tmma (x : MulArgs) | tcsum (x : MulArgs) | tconv (x : MulArgs) | tasum (x : MoveArgs) | tzero (x : MoveArgs)
  | tload (x : MoveArgs) | tstore (x : MoveArgs) | tepi (x : EpiArgs) | tstage (x : MoveArgs) | tres (x : ResArgs) | trel (n : BitVec 4)
  -- events of the group and its engines
  | tileQueueEntry (g : Nat) | tileTurn (g : Nat) | tileCommit (g : Nat) | laneJumpRecord (g : Nat) | waitRetire (g : Nat)
  | scalarReply (g : Nat) | laneLoadReturn (g : Nat) | storePerformed (g : Nat) | homeRequest (a : Agent)
  | walkStart (w : Nat) | walkLimitExpiry (w : Nat) | copyWrite (t c : Nat) | copyComplete (t c : Nat)
  | boothReservation (g : Nat) | boothFillComplete (g : Nat) | bputwReserve (g : Nat)
  | collectiveHandover (t : Nat) | collectiveStep (c : Nat) | collectiveEnd (c : Nat)
  | cobjModeDone (die entry : Nat) | carveDone (die : Nat) | vector (g : Nat)
  | pdeadExpiry (t : Nat) | cooperativeSave (l n : Nat) | nodeRestore (l n : Nat) | teamPlacement (l : Nat) | launchEnd (l : Nat)
  | slotTableWrap (core : Nat)
  -- events of the front ends (R370 to R373)
  | packetNop (q : Nat) | packetLaunch (q : Nat) | packetWait (q : Nat) | semaphoreSatisfied (q : Nat) | packetSignal (q : Nat)
  | packetCopy (q : Nat) | packetCopyDone (q : Nat) | packetFence (q : Nat) | packetMark (q : Nat) | packetJump (q : Nat)
  | frontEndBind (q : Nat) | frontEndRelease (q : Nat)
  -- messages between chips (R375): the chip, the generation, and what the message carries
  | launchJoinRequest (chip gen part priv : Nat) (desc : List Byte) | joinReply (chip gen : Nat) (ok : Bool) (status cause : Byte)
  | downbeat (chip gen : Nat) | abort (chip gen status : Nat) (cause : Nat × Nat) | startedReply (chip gen : Nat) | downbeatTimeout (l : Nat)
  | joinResendTimeout (chip gen : Nat) | joinDropTimeout (chip gen : Nat) | startedTimeout (l : Nat)
  -- host writes (R6, R312, R369, R383, R391, R399, R411): fn 0 is the manager interface, p + 1 partition p's
  | doorbell (fn q : Nat) (v : Word) | haltClear (fn q : Nat) (v : Word) | pctlWrite (p : Nat) (v : Word)
  | ptraceWrite (p : Nat) (v : Word) | csctlWrite (p d : Nat) (v : Word) | csrdWrite (p d : Nat) (v : Word)
  | podcfgWrite (v : Word) | fwlenWrite (v : Word) | registerWindowWrite (fn off : Nat) (v : Word)
  | tdispStop (p : Nat) | functionLevelReset (p : Nat) | spdmRequest (index : Nat)
  | hostMemAccess (fn addr : Nat) (write : Bool) (data : List Byte)
  -- pod, links, time, clocks, physics, bring-up
  | podAnnouncement (chip : Nat) (dup : Bool) | ualinkLaneFailure (port : Nat) | remoteRequestTimeout (a : Agent)
  | ptpInputLoss | ptpInputRestore (offset : Option Int) | holdoverExpiry | timeBaseTimer (p d : Nat) | heldRecordEmit (p d : Nat)
  | clockLimit (die mhz : Nat) | clockRestart (die : Nat) | softError (u : SoftUnit) (repeated : Bool)
  | coldStart (result unit detail : Nat) | tdispLockInterface (p : Nat) | tdispStartInterface (p : Nat)
  | clockStop (die : Nat) | clockRaise (die mhz : Nat) | powerLoss (torn : Bool) | chipUnreachable (chip : Nat)
  | launchKillArrival (part id status code chip team group : Nat)
  deriving DecidableEq, Repr

end Sys2Proof
end

