-- ==== Sys2Proof/WellFormed.lean ====
section
/-! DEFINITION. Which terms of `Instr` are instructions: the forbidden combinations of R149, R154 to R158, R180 to R185 and the lane definitions, as far as they do not depend on the state. -/

namespace Sys2Proof

/-- Width in bits of a conversion type (R214). -/
def tcodeBits (t : TCode) : Nat :=
  match t.toNat with
  | 0x0 => 4 | 0x1 => 8 | 0x2 => 16 | 0x3 => 32 | 0x4 => 64 | 0x5 => 8 | 0x6 => 16 | 0x7 => 32
  | 0x8 => 64 | 0x9 => 64 | 0xA => 32 | 0xB => 16 | 0xC => 16 | 0xD => 8 | 0xE => 8 | _ => 4

/-- A position names an element of a register of 32 bits; wider types have position 0 only (R215, R259). -/
def posOk (t : TCode) (p : BitVec 4) : Bool := p.toNat ≤ 32 / tcodeBits t - 1

/-- Operand b is a lane register, and so may be stepped (R155). -/
def SrcB.isReg : SrcB → Bool
  | .reg _ => true
  | _ => false

/-- Operand b is the immediate. -/
def SrcB.isImm : SrcB → Bool
  | .imm _ => true
  | _ => false

/-- An immediate fits a packed sub-element of width w (R157, R158). -/
def SrcB.fits (b : SrcB) (w : Nat) : Bool :=
  match b with
  | .imm v => v.toNat < 2 ^ w
  | _ => true

/-- R154 and R155: predicate, repeat and steps; a step bit only where the flag of its field allows it. -/
def LaneCtl.ok (c : LaneCtl) (d a b e : Bool) : Bool :=
  !(c.neg && c.pred == 0) && (c.rep != 0 || !(c.stepD || c.stepA || c.stepB || c.stepC)) &&
  (d || !c.stepD) && (a || !c.stepA) && (b || !c.stepB) && (e || !c.stepC)

/-- Width in bits of a packed element. -/
def PWidth.bits : PWidth → Nat
  | .w4 => 4
  | .w8 => 8
  | .w16 => 16

/-- R156: a scope needs an ordering. -/
def scopeUsed (acq rel : Bool) (scope : Scope) : Bool := acq || rel || scope == 0

/-- R235 for loads and gathers. -/
def MemCtl.okLoad (m : MemCtl) : Bool :=
  !m.rel && !(m.ro && (m.acq || m.sp)) && scopeUsed m.acq m.rel m.scope
/-- R235 for stores and scatters. -/
def MemCtl.okStore (m : MemCtl) : Bool := !m.acq && !m.ro && scopeUsed m.acq m.rel m.scope
/-- R235 for atomics. -/
def MemCtl.okAtomic (m : MemCtl) : Bool := !m.ro && scopeUsed m.acq m.rel m.scope

/-- R231: what an indexed form may not combine. -/
def idxOk (a64 : Bool) (scale : BitVec 2) (base : CReg) (sp four : Bool) : Bool :=
  (!a64 || (base == 0 && scale == 0 && !sp && !four)) && (!four || scale == 0)

/-- Classes of R271: 16-, 8- and 4-bit operand types of the matrix engine; 0 for a type in no class. -/
def mulClass (t : TCode) : Nat :=
  match t.toNat with
  | 0xC => 16 | 0xB => 16 | 0x1 => 8 | 0x5 => 8 | 0xD => 8 | 0xE => 8 | 0x0 => 4 | 0xF => 4 | _ => 0

/-- Types of `vqatom.add` (R240). -/
def qatomType (t : TCode) : Bool := [3, 4, 7, 8, 9, 10].contains t.toNat

/-- Class 111: what an instruction accepts of .acq and .rel (R263). -/
def TileCtl.ok (c : TileCtl) (acq rel : Bool) : Bool :=
  (acq || !c.acq) && (rel || !c.rel) && scopeUsed c.acq c.rel c.scope

/-- Integer operation of two sources; `.sat` where `st` (R204, R206). -/
def IntBin.ok (x : IntBin) (st : Bool) : Bool := x.c.ok true true x.b.isReg false && (st || !x.sat)
/-- Packed integer operation (R207). -/
def PackBin.ok (x : PackBin) (st : Bool) : Bool :=
  x.c.ok true true x.b.isReg false && (st || !x.sat) && x.b.fits x.w.bits
/-- Packed compare (R207). -/
def PackCmp.ok (x : PackCmp) : Bool := x.c.ok false true x.b.isReg false && x.b.fits x.w.bits
/-- FP32 and FP64 arithmetic (R204, R210). -/
def FpBin.ok (x : FpBin) : Bool := x.c.ok true true x.b.isReg false && !(x.dbl && x.ftz)
/-- Fused forms (R204, R210). -/
def FpTern.ok (x : FpTern) : Bool := x.c.ok true true x.b.isReg true && !(x.dbl && x.ftz)
/-- Packed FP16 and BF16 operation (R213). -/
def HBin.ok (x : HBin) : Bool := x.c.ok true true x.b.isReg false && x.b.fits 16
/-- Packed vfma and vdot2 (R213). -/
def HTern.ok (x : HTern) : Bool := x.c.ok true true x.b.isReg true && x.b.fits 16
/-- Floating vmin, vmax, vcsgn (R212). -/
def FpSel.ok (x : FpSel) : Bool := x.c.ok true true x.b.isReg false
/-- Packed vmin, vmax (R213). -/
def HSel.ok (x : HSel) : Bool := x.c.ok true true x.b.isReg false && x.b.fits 16
/-- Packed floating compare (R213). -/
def HCmp.ok (x : HCmp) : Bool := x.c.ok false true x.b.isReg false && x.b.fits 16
/-- Shuffles (R224): the out-of-range predicate is no step field. -/
def ShflArgs.ok (x : ShflArgs) : Bool := x.c.ok true true x.b.isReg false
/-- vlred (R225). -/
def LredArgs.ok (x : LredArgs) : Bool :=
  x.op.toNat ≤ 8 && !(x.sg && [1, 4, 5].contains x.op.toNat) &&
  match x.d with
  | .lanes _ => x.c.ok true true false false
  | .scalar _ => x.c.ok false true false false && x.w == none && x.c.rep == 0
/-- vscan (R226). -/
def ScanArgs.ok (x : ScanArgs) : Bool :=
  x.op.toNat ≤ 5 && !(x.sg && [1, 4, 5].contains x.op.toNat) && x.c.ok true true false false
/-- W given and 32 or less (R228, R229). -/
def laneWidthOk (w : Option (BitVec 3)) : Bool :=
  match w with
  | some k => k.toNat ≤ 5
  | none => false
/-- vballot (R228). -/
def BallotArgs.ok (x : BallotArgs) : Bool :=
  match x.d with
  | .lanes _ => x.c.ok true false false false && laneWidthOk x.w && !x.h
  | .scalar _ => x.c.ok false false false false && x.w == none && x.c.rep == 0
/-- vmatch (R229). -/
def MatchArgs.ok (x : MatchArgs) : Bool :=
  x.c.ok true true false false && (!x.bits || x.flt) && laneWidthOk x.w
/-- vamo (R238). -/
def VAmoArgs.ok (x : VAmoArgs) : Bool :=
  x.op.toNat ≤ 9 && x.c.ok (!x.nr) true false true && (!x.nr || x.d == 0) && x.m.okAtomic &&
  idxOk x.a64 x.scale x.base x.m.sp false
/-- vqatom (R240). -/
def QatomArgs.ok (x : QatomArgs) : Bool :=
  x.c.ok false true false true && x.m.okAtomic && idxOk x.a64 x.scale x.base x.m.sp false
/-- Multiplies (R263, R271). -/
def MulArgs.ok (x : MulArgs) (acq rel : Bool) : Bool :=
  x.c.ok acq rel && mulClass x.ta != 0 && mulClass x.ta == mulClass x.tb
/-- Moves (R263, R275). -/
def MoveArgs.ok (x : MoveArgs) (acq rel add n : Bool) : Bool :=
  x.c.ok acq rel && (add || !x.add) && (n || !x.n)
/-- Atomics of the scalar stream (R183). -/
def SAmo.ok (x : SAmo) : Bool := scopeUsed x.acq x.rel x.scope

/-- An operand of 64 bits names an even register (R52). -/
def evenIf (wide : Bool) (r : VReg) : Bool := !wide || !r.getLsbD 0
/-- The same for operand b, where it is a register. -/
def SrcB.even (wide : Bool) : SrcB → Bool
  | .reg r => evenIf wide r
  | _ => true
/-- A conversion type that fills a pair (R52, R215). -/
def wideType (t : TCode) : Bool := tcodeBits t == 64
/-- Even pairs of an integer operation. -/
def IntBin.even (x : IntBin) : Bool := evenIf x.wide x.d && evenIf x.wide x.a && x.b.even x.wide
/-- Even pairs of FP64 arithmetic. -/
def FpBin.even (x : FpBin) : Bool := evenIf x.dbl x.d && evenIf x.dbl x.a && x.b.even x.dbl
/-- Even pairs of the fused forms. -/
def FpTern.even (x : FpTern) : Bool := evenIf x.dbl x.d && evenIf x.dbl x.a && x.b.even x.dbl && evenIf x.dbl x.e
/-- Even pairs of floating vmin, vmax, vcsgn. -/
def FpSel.even (x : FpSel) : Bool := evenIf x.dbl x.d && evenIf x.dbl x.a && x.b.even x.dbl
/-- Even pairs of a shuffle. -/
def ShflArgs.even (x : ShflArgs) : Bool := evenIf x.pair x.d && evenIf x.pair x.a

/-- Every operand and destination of 64 bits names the even register of its pair (R52, R153). -/
def Instr.pairsEven : Instr → Bool
  | .vadd x => x.even
  | .vsub x => x.even
  | .vmul x => x.even
  | .vmulh x => x.even
  | .vmad x => evenIf x.wide x.d && evenIf x.wide x.a && x.b.even x.wide && evenIf x.wide x.e
  | .vmin x => x.even
  | .vmax x => x.even
  | .vdiv x => x.even
  | .vrem x => x.even
  | .vand x => x.even
  | .vor x => x.even
  | .vxor x => x.even
  | .vandn x => x.even
  | .vshl x => x.even
  | .vshr x => x.even
  | .vclz x => evenIf x.wide x.d && evenIf x.wide x.a
  | .vpopc x => evenIf x.wide x.d && evenIf x.wide x.a
  | .vcmp x => evenIf x.wide x.a && x.b.even x.wide
  | .vselN64 x => evenIf true x.d && evenIf true x.a && x.b.even true
  | .vmovN64 x => evenIf true x.d && x.b.even true
  | .vaddFp x => x.even
  | .vsubFp x => x.even
  | .vmulFp x => x.even
  | .vfma x => x.even
  | .vfms x => x.even
  | .vfnma x => x.even
  | .vdivFp x => x.even
  | .vsqrt x => evenIf x.dbl x.d && evenIf x.dbl x.a
  | .vcmpFp x => evenIf x.dbl x.a && x.b.even x.dbl
  | .vminFp x => x.even
  | .vmaxFp x => x.even
  | .vcsgn x => x.even
  | .vneg x => evenIf x.dbl x.d && evenIf x.dbl x.a
  | .vabs x => evenIf x.dbl x.d && evenIf x.dbl x.a
  | .vclass x => evenIf x.dbl x.a
  | .vcvt x => evenIf (wideType x.dt) x.d && evenIf (wideType x.st) x.a
  | .vshflIdx x => x.even
  | .vshflUp x => x.even
  | .vshflDown x => x.even
  | .vshflXor x => x.even
  | .vbcast x => evenIf x.pair x.d && evenIf x.pair x.a
  | .vmatch x => evenIf x.pair x.a
  | .vld x => evenIf (x.kind == 7) x.r
  | .vldx x => evenIf (x.kind == 7) x.r && evenIf x.a64 x.a
  | .vst x => evenIf (x.kind == 4) x.r
  | .vstx x => evenIf (x.kind == 4) x.r && evenIf x.a64 x.a
  | .vamo x => evenIf x.wide x.d && evenIf x.wide x.x && evenIf x.a64 x.a
  | .vqatomAdd x => evenIf (wideType x.t) x.x && evenIf x.a64 x.a
  | .vqatomMerge x => evenIf x.a64 x.a
  | .vprefx x => evenIf x.a64 x.a
  | .qadd x => evenIf (wideType x.t) x.a
  | .qmac x => evenIf (wideType x.t) x.a && x.b.even (wideType x.t)
  | .qrnd x => evenIf (wideType x.t) x.d
  | .qstat x => evenIf true x.d
  | .qseg x => evenIf true x.d
  | _ => true

/-- The forbidden combinations of bits: every operand at a value its encoding admits. An event has no encoding and has none. -/
def Instr.formOk : Instr → Bool
  | .sld _ _ k _ _ => k != 7
  | .sldX _ _ _ k _ => k != 7
  | .sldAcq _ _ k _ _ => k != 7
  | .sldRo _ _ _ k => k != 7
  | .samoSwap x => x.ok
  | .samoAdd x => x.ok
  | .samoAnd x => x.ok
  | .samoOr x => x.ok
  | .samoXor x => x.ok
  | .samoMinI x => x.ok
  | .samoMaxI x => x.ok
  | .samoMinN x => x.ok
  | .samoMaxN x => x.ok
  | .samoCas x => x.ok && x.d != 63
  | .sbr _ c _ => c.toNat ≤ 9
  | .vadd x => x.ok true
  | .vsub x => x.ok true
  | .vmul x => x.ok false
  | .vmulh x => x.ok false
  | .vmad x => x.c.ok true true x.b.isReg true
  | .vmin x => x.ok false
  | .vmax x => x.ok false
  | .vdiv x => x.ok false
  | .vrem x => x.ok false
  | .vand x => x.ok false
  | .vor x => x.ok false
  | .vxor x => x.ok false
  | .vandn x => x.ok false
  | .vshl x => x.ok false
  | .vshr x => x.ok false
  | .vclz x => x.c.ok true true false false
  | .vpopc x => x.c.ok true true false false
  | .vcmp x => x.c.ok false true x.b.isReg false && x.cc.toNat ≤ 5
  | .vaddPacked x => x.ok true
  | .vsubPacked x => x.ok true
  | .vminPacked x => x.ok false
  | .vmaxPacked x => x.ok false
  | .vmulPacked x => x.ok false
  | .vcmpEqPacked x => x.ok
  | .vcmpLtPacked x => x.ok
  | .vcmpLePacked x => x.ok
  | .vdot x => x.c.ok true true x.b.isReg true && x.b.fits x.w.bits
  | .vmovN32 x => x.c.ok true false x.b.isReg false
  | .vmovN64 x => x.c.ok true false x.b.isReg false
  | .vselN32 x => x.c.ok true true x.b.isReg false
  | .vselN64 x => x.c.ok true true x.b.isReg false
  | .vcoord x => x.c.ok true false false false
  | .vaddFp x => x.ok
  | .vsubFp x => x.ok
  | .vmulFp x => x.ok
  | .vfma x => x.ok
  | .vfms x => x.ok
  | .vfnma x => x.ok
  | .vdivFp x => x.ok
  | .vsqrt x => x.c.ok true true false false && !(x.dbl && x.ftz)
  | .vcmpFp x => x.c.ok false true x.b.isReg false && x.cc.toNat ≤ 6
  | .vminFp x => x.ok
  | .vmaxFp x => x.ok
  | .vcsgn x => x.ok
  | .vneg x => x.c.ok true true false false
  | .vabs x => x.c.ok true true false false
  | .vclass x => x.c.ok true true false false
  | .vaddF16 x => x.ok
  | .vsubF16 x => x.ok
  | .vmulF16 x => x.ok
  | .vfmaF16 x => x.ok
  | .vminF16 x => x.ok
  | .vmaxF16 x => x.ok
  | .vcmpEqF16 x => x.ok
  | .vcmpLtF16 x => x.ok
  | .vdot2 x => x.ok
  | .vcvt x => x.c.ok true true false false && x.dt != x.st && posOk x.dt x.dpos && posOk x.st x.spos
  | .vcvtp x => x.c.ok true true true false
  | .vfrsqe x => x.c.ok true true false false
  | .vfrcpe x => x.c.ok true true false false
  | .vfexp2 x => x.c.ok true true false false
  | .vflog2 x => x.c.ok true true false false
  | .vfsinpi x => x.c.ok true true false false
  | .vfcospi x => x.c.ok true true false false
  | .vpand x => x.c.ok false false false false
  | .vpor x => x.c.ok false false false false
  | .vpxor x => x.c.ok false false false false
  | .vpandn x => x.c.ok false false false false
  | .vpnot x => x.c.ok false false false false
  | .vpset x => x.c.ok false false false false
  | .vpget x => x.c.ok true false false false
  | .vpmov x => x.c.ok false true false false
  | .vpnz x => x.c.ok false true false false
  | .mpush x => !(x.neg && x.pred == 0)
  | .vtest x => !(x.neg && x.pred == 0)
  | .vmaskm x => x.c.ok false false false false && x.c.pred == 0
  | .vshflIdx x => x.ok
  | .vshflUp x => x.ok
  | .vshflDown x => x.ok
  | .vshflXor x => x.ok
  | .vlred x => x.ok
  | .vscan x => x.ok
  | .vbcast x => x.c.ok true true false false && !x.b.isReg
  | .vballot x => x.ok
  | .vmatch x => x.ok
  | .vld x => x.c.ok true false false false && x.m.okLoad
  | .vldq x => x.c.ok true false false false && x.m.okLoad && x.kind == 0
  | .vldx x => x.c.ok true true false false && x.m.okLoad && idxOk x.a64 x.scale x.base x.m.sp (x.kind.toNat ≤ 1)
  | .vst x => x.c.ok false false false true && x.m.okStore && x.kind.toNat ≤ 4
  | .vstq x => x.c.ok false false false true && x.m.okStore && x.kind == 0
  | .vstx x => x.c.ok false true false true && x.m.okStore && x.kind.toNat ≤ 4 &&
      idxOk x.a64 x.scale x.base x.m.sp (x.kind == 0)
  | .vamo x => x.ok
  | .vqatomAdd x => x.ok && qatomType x.t
  | .vqatomMerge x => x.ok && x.t == 0
  | .vpref x => x.c.ok false false false false
  | .vprefx x => x.c.ok false true false false && idxOk x.a64 x.scale x.base false false
  | .vbput x => !(x.neg && x.pred == 0)
  | .vbtake x => !(x.neg && x.pred == 0)
  | .qzero x => x.c.ok true false false false
  | .qnorm x => x.c.ok true false false false
  | .qmov x => x.c.ok true true false false
  | .qmerge x => x.c.ok true true false false
  | .qstat x => x.c.ok true true false false
  | .qadd x => x.c.ok true true false false
  | .qmac x => x.c.ok true true x.b.isReg false && !x.b.isImm
  | .qred x => x.c.ok true true false false && x.c.rep == 0
  | .qrnd x => x.c.ok true true false false && posOk x.t x.dpos
  | .qseg x => x.c.ok true true false false && x.n.toNat ≤ 9
  | .qspill x => x.c.ok false true false false
  | .qfill x => x.c.ok true false false false && !x.norm
  | .tmma x => x.ok true false && x.x == 0
  | .tcsum x => x.ok true true
  | .tconv x => x.ok true false
  | .tasum x => x.ok false true false false
  | .tzero x => x.ok false false false false && x.a == 0
  | .tload x => x.ok true false true true
  | .tstore x => x.ok false true false true
  | .tstage x => x.ok true false false false
  | .tepi x => x.c.ok true true && x.scale != 3 && (x.scale != 0 || x.ts == 0)
  | _ => true

/-- Whether a term is an instruction: no forbidden combination (R154 to R158), and 64-bit operands in even pairs (R52). -/
def Instr.wf (i : Instr) : Bool := i.formOk && i.pairsEven

end Sys2Proof
end

