-- ==== Sys2Proof/Decode.lean ====
section
/-! DEFINITION. The scalar word (R147 to R151), the lane word (R152 to R159), the encoding of every instruction and the decoder, which takes a word as an instruction exactly when the word encodes a well-formed one, and otherwise names the cause code of R343. -/

namespace Sys2Proof

/-- The fields of format SR (R147); the other formats are spans of these fields. -/
structure ScalarWord where
  major : BitVec 6
  sd : BitVec 6
  sa : BitVec 6
  sb : BitVec 6
  func : BitVec 8
  deriving DecidableEq, Repr

/-- The fields of the 96-bit lane word (R152); mods [39:36] stand as four bits, mods [35:32] as a nibble (R156). -/
structure LaneWord where
  op : BitVec 10
  vd : BitVec 8
  va : BitVec 8
  vb : BitVec 8
  vc : BitVec 8
  neg : Bool
  pred : BitVec 3
  rep : BitVec 6
  stepD : Bool
  stepA : Bool
  stepB : Bool
  stepC : Bool
  m7 : Bool
  m6 : Bool
  m5 : Bool
  m4 : Bool
  lo : BitVec 4
  imm : BitVec 32
  deriving DecidableEq, Repr

/-- The fields of a 32-bit word (R147). -/
def scalarFields (w : BitVec 32) : ScalarWord :=
  ⟨w.extractLsb' 26 6, w.extractLsb' 20 6, w.extractLsb' 14 6, w.extractLsb' 8 6, w.extractLsb' 0 8⟩
/-- The word that holds the fields (R147). -/
def scalarBits (w : ScalarWord) : BitVec 32 := w.major ++ w.sd ++ w.sa ++ w.sb ++ w.func

/-- The fields of a 96-bit word (R152). -/
def laneFields (w : BitVec 96) : LaneWord :=
  ⟨w.extractLsb' 86 10, w.extractLsb' 78 8, w.extractLsb' 70 8, w.extractLsb' 62 8, w.extractLsb' 54 8,
   w.getLsbD 53, w.extractLsb' 50 3, w.extractLsb' 44 6, w.getLsbD 43, w.getLsbD 42, w.getLsbD 41, w.getLsbD 40,
   w.getLsbD 39, w.getLsbD 38, w.getLsbD 37, w.getLsbD 36, w.extractLsb' 32 4, w.extractLsb' 0 32⟩
/-- The word that holds the fields (R152). -/
def laneBits (w : LaneWord) : BitVec 96 :=
  w.op ++ w.vd ++ w.va ++ w.vb ++ w.vc ++ BitVec.ofBool w.neg ++ w.pred ++ w.rep ++
  BitVec.ofBool w.stepD ++ BitVec.ofBool w.stepA ++ BitVec.ofBool w.stepB ++ BitVec.ofBool w.stepC ++
  BitVec.ofBool w.m7 ++ BitVec.ofBool w.m6 ++ BitVec.ofBool w.m5 ++ BitVec.ofBool w.m4 ++ w.lo ++ w.imm

/-- imm [13:0] of formats SI and SX (R147). -/
def imm14 (w : ScalarWord) : BitVec 14 := w.sb ++ w.func
/-- imm [19:0] of format SU (R147). -/
def imm20 (w : ScalarWord) : BitVec 20 := w.sa ++ w.sb ++ w.func
/-- offset [25:0] of format SJ (R147). -/
def imm26 (w : ScalarWord) : BitVec 26 := w.sd ++ w.sa ++ w.sb ++ w.func
/-- A tile or counter number in the sd field. -/
def sd4 (w : ScalarWord) : BitVec 4 := w.sd.extractLsb' 0 4
/-- A tile number in the sa field. -/
def sa4 (w : ScalarWord) : BitVec 4 := w.sa.extractLsb' 0 4
/-- A counter or scope in the sb field. -/
def sb4 (w : ScalarWord) : BitVec 4 := w.sb.extractLsb' 0 4

/-- Major 0x13 (R183): operation in func [5:2], size in [1], space in [0]; ordering and scope in sb. -/
def samoWord (op : BitVec 4) (x : SAmo) : ScalarWord :=
  ⟨0x13, x.d, x.a, BitVec.ofBool x.rel ++ BitVec.ofBool x.acq ++ x.scope,
   (0 : BitVec 2) ++ op ++ BitVec.ofBool x.wide ++ BitVec.ofBool x.sp⟩

/-- The operands of a scalar atomic (R183). -/
def samoArgs (w : ScalarWord) : SAmo :=
  ⟨w.sd, w.sa, w.sb.getLsbD 4, w.sb.getLsbD 5, sb4 w, w.func.getLsbD 1, w.func.getLsbD 0⟩

/-- The fields of a scalar instruction, from the encoding tables of R147 to R201, R242 to R251, R280, R310, R331 and R348; none for a lane instruction or an event. -/
def encodeScalar : Instr → Option ScalarWord
  | .sadd d a b => some ⟨0x1, d, a, b, 0x0⟩
  | .ssub d a b => some ⟨0x1, d, a, b, 0x1⟩
  | .sseq d a b => some ⟨0x1, d, a, b, 0x2⟩
  | .ssne d a b => some ⟨0x1, d, a, b, 0x3⟩
  | .sslt d a b => some ⟨0x1, d, a, b, 0x4⟩
  | .ssltu d a b => some ⟨0x1, d, a, b, 0x5⟩
  | .smin d a b => some ⟨0x1, d, a, b, 0x6⟩
  | .sminu d a b => some ⟨0x1, d, a, b, 0x7⟩
  | .smax d a b => some ⟨0x1, d, a, b, 0x8⟩
  | .smaxu d a b => some ⟨0x1, d, a, b, 0x9⟩
  | .sand d a b => some ⟨0x1, d, a, b, 0x40⟩
  | .sor d a b => some ⟨0x1, d, a, b, 0x41⟩
  | .sxor d a b => some ⟨0x1, d, a, b, 0x42⟩
  | .sandn d a b => some ⟨0x1, d, a, b, 0x43⟩
  | .sshl d a b => some ⟨0x1, d, a, b, 0x44⟩
  | .sshr d a b => some ⟨0x1, d, a, b, 0x45⟩
  | .ssra d a b => some ⟨0x1, d, a, b, 0x46⟩
  | .srol d a b => some ⟨0x1, d, a, b, 0x47⟩
  | .sror d a b => some ⟨0x1, d, a, b, 0x48⟩
  | .smul d a b => some ⟨0x1, d, a, b, 0x80⟩
  | .smulh d a b => some ⟨0x1, d, a, b, 0x81⟩
  | .smulhu d a b => some ⟨0x1, d, a, b, 0x82⟩
  | .sdiv d a b => some ⟨0x1, d, a, b, 0x83⟩
  | .sdivu d a b => some ⟨0x1, d, a, b, 0x84⟩
  | .srem d a b => some ⟨0x1, d, a, b, 0x85⟩
  | .sremu d a b => some ⟨0x1, d, a, b, 0x86⟩
  | .sclz d a => some ⟨0x1, d, a, 0, 0xa0⟩
  | .sctz d a => some ⟨0x1, d, a, 0, 0xa1⟩
  | .spopc d a => some ⟨0x1, d, a, 0, 0xa2⟩
  | .sbswap d a => some ⟨0x1, d, a, 0, 0xa3⟩
  | .ssx8 d a => some ⟨0x1, d, a, 0, 0xa4⟩
  | .ssx16 d a => some ⟨0x1, d, a, 0, 0xa5⟩
  | .ssx32 d a => some ⟨0x1, d, a, 0, 0xa6⟩
  | .szx32 d a => some ⟨0x1, d, a, 0, 0xa7⟩
  | .saddi d a i => some ⟨0x2, d, a, (i.extractLsb' 8 6), (i.extractLsb' 0 8)⟩
  | .sandi d a i => some ⟨0x3, d, a, (i.extractLsb' 8 6), (i.extractLsb' 0 8)⟩
  | .sori d a i => some ⟨0x4, d, a, (i.extractLsb' 8 6), (i.extractLsb' 0 8)⟩
  | .sxori d a i => some ⟨0x5, d, a, (i.extractLsb' 8 6), (i.extractLsb' 0 8)⟩
  | .sslti d a i => some ⟨0x6, d, a, (i.extractLsb' 8 6), (i.extractLsb' 0 8)⟩
  | .sshli d a n => some ⟨7, d, a, 0, ((0 : BitVec 2) ++ n)⟩
  | .sshri d a n => some ⟨7, d, a, 0, ((1 : BitVec 2) ++ n)⟩
  | .ssrai d a n => some ⟨7, d, a, 0, ((2 : BitVec 2) ++ n)⟩
  | .srori d a n => some ⟨7, d, a, 0, ((3 : BitVec 2) ++ n)⟩
  | .slui d i => some ⟨0x8, d, (i.extractLsb' 14 6), (i.extractLsb' 8 6), (i.extractLsb' 0 8)⟩
  | .sshlo d i => some ⟨0x9, d, (i.extractLsb' 14 6), (i.extractLsb' 8 6), (i.extractLsb' 0 8)⟩
  | .sjr a => some ⟨0x1b, 0, a, 0, 0x0⟩
  | .scallr a => some ⟨0x1b, 0, a, 0, 0x1⟩
  | .sret => some ⟨0x1b, 0, 0, 0, 0x2⟩
  | .sexit => some ⟨0x1b, 0, 0, 0, 0x3⟩
  | .lrunr a => some ⟨0x21, 0, a, 0, 0x0⟩
  | .ljmpr a => some ⟨0x21, 0, a, 0, 0x1⟩
  | .lsync => some ⟨0x21, 0, 0, 0, 0x2⟩
  | .lsumm d => some ⟨0x21, d, 0, 0, 0xc⟩
  | .waitLd d a => some ⟨0x28, d, a, 0, 0x10⟩
  | .waitSt d a => some ⟨0x28, d, a, 0, 0x11⟩
  | .waitCp d a => some ⟨0x28, d, a, 0, 0x12⟩
  | .waitTl d a => some ⟨0x28, d, a, 0, 0x13⟩
  | .barInit a b => some ⟨0x29, 0, a, b, 0x0⟩
  | .barFree a => some ⟨0x29, 0, a, 0, 0x1⟩
  | .barArrive d a b => some ⟨0x29, d, a, b, 0x2⟩
  | .barWait a => some ⟨0x29, 0, a, 0, 0x3⟩
  | .sbarArrive d c => some ⟨0x29, d, 0, (c.zeroExtend 6), 0x8⟩
  | .sbarWait a c => some ⟨0x29, 0, a, (c.zeroExtend 6), 0x9⟩
  | .bdecl a b => some ⟨0x2b, 0, a, b, 0x0⟩
  | .bput d a b => some ⟨0x2b, d, a, b, 0x1⟩
  | .bputw d a b => some ⟨0x2b, d, a, b, 0x2⟩
  | .btake d a => some ⟨0x2b, d, a, 0, 0x3⟩
  | .bdrop a => some ⟨0x2b, 0, a, 0, 0x4⟩
  | .xcopy a => some ⟨0x30, 0, a, 0, 0x0⟩
  | .tset t a b => some ⟨0x31, (t.zeroExtend 6), a, b, 0x0⟩
  | .tsetb t a => some ⟨0x31, (t.zeroExtend 6), a, 0, 0x1⟩
  | .tsets t a => some ⟨0x31, (t.zeroExtend 6), a, 0, 0x2⟩
  | .tgetl d t => some ⟨0x31, d, (t.zeroExtend 6), 0, 0x10⟩
  | .tgeth d t => some ⟨0x31, d, (t.zeroExtend 6), 0, 0x11⟩
  | .shalloc d a => some ⟨0x32, d, a, 0, 0x0⟩
  | .shfree a => some ⟨0x32, 0, a, 0, 0x1⟩
  | .shtest d a => some ⟨0x32, d, a, 0, 0x2⟩
  | .cobjDecl d a b => some ⟨0x33, d, a, b, 0x0⟩
  | .cobjMode k a b => some ⟨0x33, (k.zeroExtend 6), a, b, 0x1⟩
  | .cobjFree a => some ⟨0x33, 0, a, 0, 0x2⟩
  | .cobjQuery d a => some ⟨0x33, d, a, 0, 0x3⟩
  | .creduce d a b => some ⟨0x34, d, a, b, 0x0⟩
  | .callred d a b => some ⟨0x34, d, a, b, 0x1⟩
  | .credscat d a b => some ⟨0x34, d, a, b, 0x2⟩
  | .callgath d a b => some ⟨0x34, d, a, b, 0x3⟩
  | .calltoall d a b => some ⟨0x34, d, a, b, 0x4⟩
  | .cbcast d a b => some ⟨0x34, d, a, b, 0x5⟩
  | .cabort d a => some ⟨0x34, d, a, 0, 0x6⟩
  | .tmark a b => some ⟨0x38, 0, a, b, 0x0⟩
  | .tsync => some ⟨0x38, 0, 0, 0, 0x1⟩
  | .tsamp a => some ⟨0x38, 0, a, 0, 0x2⟩
  | .spget d a => some ⟨0x3c, d, a, 0, 0x0⟩
  | .spset a b => some ⟨0x3c, 0, a, b, 0x1⟩
  | .sslotw a b => some ⟨0x3c, 0, a, b, 0x8⟩
  | .sslotr d a => some ⟨0x3c, d, a, 0, 0x9⟩
  | .sslotx a => some ⟨0x3c, 0, a, 0, 0xa⟩
  | .spreq d a b => some ⟨0x3c, d, a, b, 0x10⟩
  | .sgpl d => some ⟨0x3c, d, 0, 0, 0x11⟩
  | .tlbroot a b => some ⟨0x3d, 0, a, b, 0x0⟩
  | .tlbinv a b => some ⟨0x3d, 0, a, b, 0x1⟩
  | .carve d a k => some ⟨0x3d, d, a, (k.zeroExtend 6), 0x2⟩
  | .pmap d a b => some ⟨0x3d, d, a, b, 0x3⟩
  | .pgive d a b => some ⟨0x3d, d, a, b, 0x4⟩
  | .wldp d a => some ⟨0x3d, d, a, 0, 0x8⟩
  | .wcasp d a b => some ⟨0x3d, d, a, b, 0x9⟩
  | .tlbfill a b => some ⟨0x3d, 0, a, b, 0xa⟩
  | .wentry a b => some ⟨0x3d, 0, a, b, 0x10⟩
  | .eret => some ⟨0x3e, 0, 0, 0, 0x0⟩
  | .ekill a => some ⟨0x3e, 0, a, 0, 0x1⟩
  | .efget d a => some ⟨0x3e, d, a, 0, 0x2⟩
  | .efset a b => some ⟨0x3e, 0, a, b, 0x3⟩
  | .sld d a k p o => some ⟨0x10, d, a, k ++ BitVec.ofBool p ++ o.extractLsb' 8 2, o.extractLsb' 0 8⟩
  | .sst d a k p o => some ⟨0x11, d, a, (0 : BitVec 1) ++ k ++ BitVec.ofBool p ++ o.extractLsb' 8 2, o.extractLsb' 0 8⟩
  | .sldX d a b k p => some ⟨0x12, d, a, b, (0 : BitVec 3) ++ BitVec.ofBool p ++ (0 : BitVec 1) ++ k⟩
  | .sstX d a b k p => some ⟨0x12, d, a, b, (0 : BitVec 3) ++ BitVec.ofBool p ++ (2 : BitVec 2) ++ k⟩
  | .sldAcq d a k p c => some ⟨0x12, d, a, (0 : BitVec 1) ++ BitVec.ofBool p ++ c, (0b00100 : BitVec 5) ++ k⟩
  | .sstRel d a k p c => some ⟨0x12, d, a, (0 : BitVec 1) ++ BitVec.ofBool p ++ c, (0b001010 : BitVec 6) ++ k⟩
  | .sldRo d a b k => some ⟨0x12, d, a, b, (0b00110 : BitVec 5) ++ k⟩
  | .samoSwap x => some (samoWord 0x0 x)
  | .samoAdd x => some (samoWord 0x1 x)
  | .samoAnd x => some (samoWord 0x2 x)
  | .samoOr x => some (samoWord 0x3 x)
  | .samoXor x => some (samoWord 0x4 x)
  | .samoMinI x => some (samoWord 0x5 x)
  | .samoMaxI x => some (samoWord 0x6 x)
  | .samoMinN x => some (samoWord 0x7 x)
  | .samoMaxN x => some (samoWord 0x8 x)
  | .samoCas x => some (samoWord 0x9 x)
  | .sfence c => some ⟨0x14, c ++ (0 : BitVec 2), 0, 0, 0⟩
  | .sfenceAcq c => some ⟨0x14, c ++ (1 : BitVec 2), 0, 0, 0⟩
  | .sfenceRel c => some ⟨0x14, c ++ (2 : BitVec 2), 0, 0, 0⟩
  | .sbr a c o => some ⟨0x18, a, c ++ o.extractLsb' 14 2, o.extractLsb' 8 6, o.extractLsb' 0 8⟩
  | .sjmp o => some ⟨0x19, o.extractLsb' 20 6, o.extractLsb' 14 6, o.extractLsb' 8 6, o.extractLsb' 0 8⟩
  | .scall o => some ⟨0x1A, o.extractLsb' 20 6, o.extractLsb' 14 6, o.extractLsb' 8 6, o.extractLsb' 0 8⟩
  | .lrun n => some ⟨0x20, 0, 0, (0 : BitVec 4) ++ n.extractLsb' 8 2, n.extractLsb' 0 8⟩
  | .ljmp o => some ⟨0x20, (1 : BitVec 1) ++ o.extractLsb' 20 5, o.extractLsb' 14 6, o.extractLsb' 8 6, o.extractLsb' 0 8⟩
  | .lmask d n => some ⟨0x21, d, 0, 0, (0b000010 : BitVec 6) ++ n⟩
  | .sget d n => some ⟨0x22, d, 0, (0 : BitVec 2) ++ n.extractLsb' 8 4, n.extractLsb' 0 8⟩
  | .kwait d a k => some ⟨0x28, d, a, 0, (0 : BitVec 4) ++ k⟩
  | .yieldc a b o => some ⟨0x2A, a, b, o.extractLsb' 8 6, o.extractLsb' 0 8⟩
  | _ => none

/-- Major 0x01 (R176). -/
def readAlu (w : ScalarWord) : Option Instr :=
  match w.func.toNat with
  | 0x0 => some (.sadd w.sd w.sa w.sb)
  | 0x1 => some (.ssub w.sd w.sa w.sb)
  | 0x2 => some (.sseq w.sd w.sa w.sb)
  | 0x3 => some (.ssne w.sd w.sa w.sb)
  | 0x4 => some (.sslt w.sd w.sa w.sb)
  | 0x5 => some (.ssltu w.sd w.sa w.sb)
  | 0x6 => some (.smin w.sd w.sa w.sb)
  | 0x7 => some (.sminu w.sd w.sa w.sb)
  | 0x8 => some (.smax w.sd w.sa w.sb)
  | 0x9 => some (.smaxu w.sd w.sa w.sb)
  | 0x40 => some (.sand w.sd w.sa w.sb)
  | 0x41 => some (.sor w.sd w.sa w.sb)
  | 0x42 => some (.sxor w.sd w.sa w.sb)
  | 0x43 => some (.sandn w.sd w.sa w.sb)
  | 0x44 => some (.sshl w.sd w.sa w.sb)
  | 0x45 => some (.sshr w.sd w.sa w.sb)
  | 0x46 => some (.ssra w.sd w.sa w.sb)
  | 0x47 => some (.srol w.sd w.sa w.sb)
  | 0x48 => some (.sror w.sd w.sa w.sb)
  | 0x80 => some (.smul w.sd w.sa w.sb)
  | 0x81 => some (.smulh w.sd w.sa w.sb)
  | 0x82 => some (.smulhu w.sd w.sa w.sb)
  | 0x83 => some (.sdiv w.sd w.sa w.sb)
  | 0x84 => some (.sdivu w.sd w.sa w.sb)
  | 0x85 => some (.srem w.sd w.sa w.sb)
  | 0x86 => some (.sremu w.sd w.sa w.sb)
  | 0xa0 => some (.sclz w.sd w.sa)
  | 0xa1 => some (.sctz w.sd w.sa)
  | 0xa2 => some (.spopc w.sd w.sa)
  | 0xa3 => some (.sbswap w.sd w.sa)
  | 0xa4 => some (.ssx8 w.sd w.sa)
  | 0xa5 => some (.ssx16 w.sd w.sa)
  | 0xa6 => some (.ssx32 w.sd w.sa)
  | 0xa7 => some (.szx32 w.sd w.sa)
  | _ => none

/-- Major 0x07 (R178): imm [7:6] selects the shift. -/
def readShift (w : ScalarWord) : Option Instr :=
  let n := w.func.extractLsb' 0 6
  match (w.func.extractLsb' 6 2).toNat with
  | 0 => some (.sshli w.sd w.sa n)
  | 1 => some (.sshri w.sd w.sa n)
  | 2 => some (.ssrai w.sd w.sa n)
  | _ => some (.srori w.sd w.sa n)

/-- Major 0x10: a load with an immediate offset (R180); kind 0b111 is not an instruction. -/
def readLoad (w : ScalarWord) : Option Instr :=
  let k := w.sb.extractLsb' 3 3
  if k = 7 then none else some (.sld w.sd w.sa k (w.sb.getLsbD 2) (w.sb.extractLsb' 0 2 ++ w.func))
/-- Major 0x11: a store with an immediate offset (R180); kinds 0b1xx are not instructions. -/
def readStore (w : ScalarWord) : Option Instr :=
  if w.sb.getLsbD 5 then none
  else some (.sst w.sd w.sa (w.sb.extractLsb' 3 2) (w.sb.getLsbD 2) (w.sb.extractLsb' 0 2 ++ w.func))
/-- Major 0x12 (R181): func [5:4] the form, func [3] store, func [2:0] the kind. -/
def readIndexed (w : ScalarWord) : Option Instr :=
  let k := w.func.extractLsb' 0 3
  let k2 := w.func.extractLsb' 0 2
  let form := (w.func.extractLsb' 4 2).toNat
  if w.func.extractLsb' 6 2 ≠ 0 then none
  else if w.func.getLsbD 3 then
    if w.func.getLsbD 2 then none
    else match form with
      | 0 => some (.sstX w.sd w.sa w.sb k2 false)
      | 1 => some (.sstX w.sd w.sa w.sb k2 true)
      | 2 => some (.sstRel w.sd w.sa k2 (w.sb.getLsbD 4) (sb4 w))
      | _ => none
  else if k = 7 then none
  else match form with
    | 0 => some (.sldX w.sd w.sa w.sb k false)
    | 1 => some (.sldX w.sd w.sa w.sb k true)
    | 2 => some (.sldAcq w.sd w.sa k (w.sb.getLsbD 4) (sb4 w))
    | _ => some (.sldRo w.sd w.sa w.sb k)
/-- Major 0x13 (R183). -/
def readAtomic (w : ScalarWord) : Option Instr :=
  let x := samoArgs w
  match (w.func.extractLsb' 2 6).toNat with
  | 0x0 => some (.samoSwap x)
  | 0x1 => some (.samoAdd x)
  | 0x2 => some (.samoAnd x)
  | 0x3 => some (.samoOr x)
  | 0x4 => some (.samoXor x)
  | 0x5 => some (.samoMinI x)
  | 0x6 => some (.samoMaxI x)
  | 0x7 => some (.samoMinN x)
  | 0x8 => some (.samoMaxN x)
  | 0x9 => some (.samoCas x)
  | _ => none
/-- Major 0x14 (R185): scope in [25:22], form in [21:20]. -/
def readFence (w : ScalarWord) : Option Instr :=
  let c := w.sd.extractLsb' 2 4
  match (w.sd.extractLsb' 0 2).toNat with
  | 0 => some (.sfence c)
  | 1 => some (.sfenceAcq c)
  | 2 => some (.sfenceRel c)
  | _ => none
/-- Major 0x18 (R186, R149): conditions 0xA to 0xF are reserved. -/
def readBranch (w : ScalarWord) : Option Instr :=
  let c := w.sa.extractLsb' 2 4
  if c.toNat ≤ 9 then some (.sbr w.sd c (w.sa.extractLsb' 0 2 ++ w.sb ++ w.func)) else none
/-- Major 0x20 (R189): bit [25] selects the jump record. -/
def readRelease (w : ScalarWord) : Option Instr :=
  if w.sd.getLsbD 5 then some (.ljmp (w.sd.extractLsb' 0 5 ++ w.sa ++ w.sb ++ w.func))
  else some (.lrun (w.sb.extractLsb' 0 2 ++ w.func))
/-- Major 0x1B (R187). -/
def readRegJump (w : ScalarWord) : Option Instr :=
  match w.func.toNat with
  | 0x0 => some (.sjr w.sa)
  | 0x1 => some (.scallr w.sa)
  | 0x2 => some (.sret)
  | 0x3 => some (.sexit)
  | _ => none

/-- Major 0x21 (R190). -/
def readLaneControl (w : ScalarWord) : Option Instr :=
  match w.func.toNat with
  | 0x0 => some (.lrunr w.sa)
  | 0x1 => some (.ljmpr w.sa)
  | 0x2 => some (.lsync)
  | 0x8 => some (.lmask w.sd (w.func.extractLsb' 0 2))
  | 0x9 => some (.lmask w.sd (w.func.extractLsb' 0 2))
  | 0xa => some (.lmask w.sd (w.func.extractLsb' 0 2))
  | 0xb => some (.lmask w.sd (w.func.extractLsb' 0 2))
  | 0xc => some (.lsumm w.sd)
  | _ => none
/-- Major 0x28 (R192): codes 0x00 to 0x0F are kwait on counter func [3:0]. -/
def readWait (w : ScalarWord) : Option Instr :=
  if w.func.extractLsb' 4 4 = 0 then some (.kwait w.sd w.sa (w.func.extractLsb' 0 4))
  else match w.func.toNat with
    | 0x10 => some (.waitLd w.sd w.sa)
    | 0x11 => some (.waitSt w.sd w.sa)
    | 0x12 => some (.waitCp w.sd w.sa)
    | 0x13 => some (.waitTl w.sd w.sa)
    | _ => none
/-- Major 0x29 (R195). -/
def readBarrier (w : ScalarWord) : Option Instr :=
  match w.func.toNat with
  | 0x0 => some (.barInit w.sa w.sb)
  | 0x1 => some (.barFree w.sa)
  | 0x2 => some (.barArrive w.sd w.sa w.sb)
  | 0x3 => some (.barWait w.sa)
  | 0x8 => some (.sbarArrive w.sd (sb4 w))
  | 0x9 => some (.sbarWait w.sa (sb4 w))
  | _ => none

/-- Major 0x2B (R245). -/
def readBooth (w : ScalarWord) : Option Instr :=
  match w.func.toNat with
  | 0x0 => some (.bdecl w.sa w.sb)
  | 0x1 => some (.bput w.sd w.sa w.sb)
  | 0x2 => some (.bputw w.sd w.sa w.sb)
  | 0x3 => some (.btake w.sd w.sa)
  | 0x4 => some (.bdrop w.sa)
  | _ => none

/-- Major 0x30 (R242). -/
def readCopy (w : ScalarWord) : Option Instr :=
  match w.func.toNat with
  | 0x0 => some (.xcopy w.sa)
  | _ => none

/-- Major 0x31 (R199). -/
def readTileReg (w : ScalarWord) : Option Instr :=
  match w.func.toNat with
  | 0x0 => some (.tset (sd4 w) w.sa w.sb)
  | 0x1 => some (.tsetb (sd4 w) w.sa)
  | 0x2 => some (.tsets (sd4 w) w.sa)
  | 0x10 => some (.tgetl w.sd (sa4 w))
  | 0x11 => some (.tgeth w.sd (sa4 w))
  | _ => none

/-- Major 0x32 (R200). -/
def readShape (w : ScalarWord) : Option Instr :=
  match w.func.toNat with
  | 0x0 => some (.shalloc w.sd w.sa)
  | 0x1 => some (.shfree w.sa)
  | 0x2 => some (.shtest w.sd w.sa)
  | _ => none

/-- Major 0x33 (R251). -/
def readObject (w : ScalarWord) : Option Instr :=
  match w.func.toNat with
  | 0x0 => some (.cobjDecl w.sd w.sa w.sb)
  | 0x1 => some (.cobjMode (sd4 w) w.sa w.sb)
  | 0x2 => some (.cobjFree w.sa)
  | 0x3 => some (.cobjQuery w.sd w.sa)
  | _ => none

/-- Major 0x34 (R280). -/
def readCollective (w : ScalarWord) : Option Instr :=
  match w.func.toNat with
  | 0x0 => some (.creduce w.sd w.sa w.sb)
  | 0x1 => some (.callred w.sd w.sa w.sb)
  | 0x2 => some (.credscat w.sd w.sa w.sb)
  | 0x3 => some (.callgath w.sd w.sa w.sb)
  | 0x4 => some (.calltoall w.sd w.sa w.sb)
  | 0x5 => some (.cbcast w.sd w.sa w.sb)
  | 0x6 => some (.cabort w.sd w.sa)
  | _ => none

/-- Major 0x38 (R201). -/
def readTrace (w : ScalarWord) : Option Instr :=
  match w.func.toNat with
  | 0x0 => some (.tmark w.sa w.sb)
  | 0x1 => some (.tsync)
  | 0x2 => some (.tsamp w.sa)
  | _ => none

/-- Major 0x3C (R310). -/
def readPartition (w : ScalarWord) : Option Instr :=
  match w.func.toNat with
  | 0x0 => some (.spget w.sd w.sa)
  | 0x1 => some (.spset w.sa w.sb)
  | 0x8 => some (.sslotw w.sa w.sb)
  | 0x9 => some (.sslotr w.sd w.sa)
  | 0xa => some (.sslotx w.sa)
  | 0x10 => some (.spreq w.sd w.sa w.sb)
  | 0x11 => some (.sgpl w.sd)
  | _ => none

/-- Major 0x3D (R331). -/
def readTranslation (w : ScalarWord) : Option Instr :=
  match w.func.toNat with
  | 0x0 => some (.tlbroot w.sa w.sb)
  | 0x1 => some (.tlbinv w.sa w.sb)
  | 0x2 => some (.carve w.sd w.sa (sb4 w))
  | 0x3 => some (.pmap w.sd w.sa w.sb)
  | 0x4 => some (.pgive w.sd w.sa w.sb)
  | 0x8 => some (.wldp w.sd w.sa)
  | 0x9 => some (.wcasp w.sd w.sa w.sb)
  | 0xa => some (.tlbfill w.sa w.sb)
  | 0x10 => some (.wentry w.sa w.sb)
  | _ => none

/-- Major 0x3E (R348). -/
def readTrap (w : ScalarWord) : Option Instr :=
  match w.func.toNat with
  | 0x0 => some (.eret)
  | 0x1 => some (.ekill w.sa)
  | 0x2 => some (.efget w.sd w.sa)
  | 0x3 => some (.efset w.sa w.sb)
  | _ => none

/-- The instruction a scalar word's major and codes name (R150); none for an unallocated one. -/
def readScalar (w : ScalarWord) : Option Instr :=
  match w.major.toNat with
  | 0x01 => readAlu w
  | 0x02 => some (.saddi w.sd w.sa (imm14 w))
  | 0x03 => some (.sandi w.sd w.sa (imm14 w))
  | 0x04 => some (.sori w.sd w.sa (imm14 w))
  | 0x05 => some (.sxori w.sd w.sa (imm14 w))
  | 0x06 => some (.sslti w.sd w.sa (imm14 w))
  | 0x07 => readShift w
  | 0x08 => some (.slui w.sd (imm20 w))
  | 0x09 => some (.sshlo w.sd (imm20 w))
  | 0x10 => readLoad w
  | 0x11 => readStore w
  | 0x12 => readIndexed w
  | 0x13 => readAtomic w
  | 0x14 => readFence w
  | 0x18 => readBranch w
  | 0x19 => some (.sjmp (imm26 w))
  | 0x1A => some (.scall (imm26 w))
  | 0x1B => readRegJump w
  | 0x20 => readRelease w
  | 0x21 => readLaneControl w
  | 0x22 => some (.sget w.sd (w.sb.extractLsb' 0 4 ++ w.func))
  | 0x28 => readWait w
  | 0x29 => readBarrier w
  | 0x2A => some (.yieldc w.sd w.sa (imm14 w))
  | 0x2B => readBooth w
  | 0x30 => readCopy w
  | 0x31 => readTileReg w
  | 0x32 => readShape w
  | 0x33 => readObject w
  | 0x34 => readCollective w
  | 0x38 => readTrace w
  | 0x3C => readPartition w
  | 0x3D => readTranslation w
  | 0x3E => readTrap w
  | _ => none

/-- The decoder of the scalar stream (R147 to R150, R160): the instruction, or the cause code of R343, 0 for an unallocated code and 1 for nonzero unused bits or a forbidden combination. -/
def decodeScalar (b : BitVec 32) : Except Nat Instr :=
  let w := scalarFields b
  match readScalar w with
  | none => .error 0
  | some i => if i.wf && encodeScalar i == some w then .ok i else .error 1

/-- A lane word of an opcode with the common fields of R152 and every other field zero. -/
def laneWord (op : Nat) (c : LaneCtl) : LaneWord :=
  ⟨BitVec.ofNat 10 op, 0, 0, 0, 0, c.neg, c.pred, c.rep, c.stepD, c.stepA, c.stepB, c.stepC, false, false, false, false, 0, 0⟩
/-- Predicate, negate, repeat and steps of a lane word (R152). -/
def ctlOf (w : LaneWord) : LaneCtl := ⟨w.neg, w.pred, w.rep, w.stepD, w.stepA, w.stepB, w.stepC⟩
/-- The common fields of an instruction that has none. -/
def noCtl : LaneCtl := ⟨false, 0, 0, false, false, false, false⟩
/-- The common fields of an instruction that is only predicated. -/
def predCtl (neg : Bool) (pred : PReg) : LaneCtl := ⟨neg, pred, 0, false, false, false, false⟩

/-- Operand b in vb, sb, ib and imm (R156, R157, R170). -/
def putB (b : SrcB) (w : LaneWord) : LaneWord :=
  match b with
  | .reg r => { w with vb := r }
  | .scal r => { w with m7 := true, vb := r.zeroExtend 8 }
  | .imm v => { w with m6 := true, imm := v }
/-- Operand b of a lane word (R156, R157). -/
def bOf (w : LaneWord) : SrcB :=
  if w.m6 then .imm w.imm else if w.m7 then .scal (w.vb.extractLsb' 0 4) else .reg w.vb

/-- mods [35:32] of classes 000 to 010: .ftz, .sat and the rounding mode (R156). -/
def roundBits (ftz sat : Bool) (mode : BitVec 2) : BitVec 4 := BitVec.ofBool ftz ++ BitVec.ofBool sat ++ mode
/-- .ftz of a lane word. -/
def ftzOf (w : LaneWord) : Bool := w.lo.getLsbD 3
/-- .sat of a lane word. -/
def satOf (w : LaneWord) : Bool := w.lo.getLsbD 2
/-- The rounding mode of a lane word. -/
def modeOf (w : LaneWord) : BitVec 2 := w.lo.extractLsb' 0 2
/-- mods [35:32] of class 100: W given, and log2 W (R223). -/
def widthBits : Option (BitVec 3) → BitVec 4
  | some k => (1 : BitVec 1) ++ k
  | none => 0
/-- The sub-group width of a class 100 word (R223). -/
def widthOf (w : LaneWord) : Option (BitVec 3) := if w.lo.getLsbD 3 then some (w.lo.extractLsb' 0 3) else none
/-- A predicate number in a field. -/
def preg (f : BitVec 8) : PReg := f.extractLsb' 0 3
/-- A tile register, counter or captured scalar number in a field. -/
def reg4 (f : BitVec 8) : BitVec 4 := f.extractLsb' 0 4
/-- A lane-written scalar's field value (R39, R153). -/
def ldstBits (d : LDst) : BitVec 8 := (0b00101 : BitVec 5) ++ d
/-- A lane-written scalar in a field. -/
def ldst (f : BitVec 8) : LDst := f.extractLsb' 0 3

/-- Integer instruction word: the 64-bit codes are the 32-bit ones plus 0x20 (R206). -/
def intWord (n : Nat) (wide sg : Bool) (c : LaneCtl) (d a : BitVec 8) : LaneWord :=
  { laneWord (n + if wide then 0x20 else 0) c with vd := d, va := a, m4 := sg }
/-- Integer operation of two sources (R204, R206). -/
def intBinWord (n : Nat) (x : IntBin) : LaneWord :=
  putB x.b { intWord n x.wide x.sg x.c x.d x.a with lo := roundBits false x.sat 0 }
/-- Integer operation of one source (R206). -/
def intUnWord (n : Nat) (x : IntUn) : LaneWord := intWord n x.wide x.sg x.c x.d x.a
/-- Offset of a packed width from 0x040 (R207). -/
def packBase : PWidth → Nat
  | .w4 => 0x040
  | .w8 => 0x048
  | .w16 => 0x050
/-- Packed integer operation (R207). -/
def packWord (n : Nat) (x : PackBin) : LaneWord :=
  putB x.b { laneWord (packBase x.w + n) x.c with vd := x.d, va := x.a, m4 := x.sg, lo := roundBits false x.sat 0 }
/-- Packed compare (R207). -/
def packCmpWord (n : Nat) (x : PackCmp) : LaneWord :=
  putB x.b { laneWord (packBase x.w + n) x.c with vd := x.d.zeroExtend 8, va := x.a, m4 := x.sg }
/-- Opcode of vdot by width (R208). -/
def dotOp : PWidth → Nat
  | .w8 => 0x058
  | .w16 => 0x059
  | .w4 => 0x05A
/-- FP32 or FP64 arithmetic (R210). -/
def fpBinWord (n : Nat) (x : FpBin) : LaneWord :=
  putB x.b { laneWord (n + if x.dbl then 0x20 else 0) x.c with vd := x.d, va := x.a, lo := roundBits x.ftz x.sat x.mode }
/-- Fused FP32 or FP64 arithmetic (R210). -/
def fpTernWord (n : Nat) (x : FpTern) : LaneWord :=
  putB x.b { laneWord (n + if x.dbl then 0x20 else 0) x.c with
    vd := x.d, va := x.a, vc := x.e, lo := roundBits x.ftz x.sat x.mode }
/-- vmin, vmax and vcsgn (R212). -/
def fpSelWord (n n64 : Nat) (x : FpSel) : LaneWord :=
  putB x.b { laneWord (if x.dbl then n64 else n) x.c with vd := x.d, va := x.a }
/-- vneg, vabs and vclass (R212). -/
def fpBitsWord (n n64 : Nat) (x : FpBits) : LaneWord :=
  { laneWord (if x.dbl then n64 else n) x.c with vd := x.d, va := x.a }
/-- Packed FP16 or BF16 opcode (R213). -/
def hOp (n : Nat) (bf : Bool) : Nat := n + if bf then 0x0E8 else 0x0E0
/-- Packed FP16 or BF16 arithmetic (R213). -/
def hBinWord (n : Nat) (x : HBin) : LaneWord :=
  putB x.b { laneWord (hOp n x.bf) x.c with vd := x.d, va := x.a, lo := roundBits false x.sat x.mode }
/-- Packed vfma and vdot2 (R213). -/
def hTernWord (op : Nat) (x : HTern) : LaneWord :=
  putB x.b { laneWord op x.c with vd := x.d, va := x.a, vc := x.e, lo := roundBits false x.sat x.mode }
/-- Packed vmin, vmax (R213). -/
def hSelWord (n : Nat) (x : HSel) : LaneWord :=
  putB x.b { laneWord (hOp n x.bf) x.c with vd := x.d, va := x.a }
/-- Packed compare (R213). -/
def hCmpWord (n : Nat) (x : HCmp) : LaneWord :=
  putB x.b { laneWord (hOp n x.bf) x.c with vd := x.d.zeroExtend 8, va := x.a }
/-- Special function (R217). -/
def sfWord (op : Nat) (x : SfArgs) : LaneWord := { laneWord op x.c with vd := x.d, va := x.a }
/-- Predicate operation of two sources (R219). -/
def predBinWord (op : Nat) (x : PredBin) : LaneWord :=
  { laneWord op x.c with vd := x.d.zeroExtend 8, va := x.a.zeroExtend 8, vb := x.b.zeroExtend 8 }
/-- vpmov, vpnz (R219). -/
def predMovWord (op : Nat) (x : PredMov) : LaneWord := { laneWord op x.c with vd := x.d.zeroExtend 8, va := x.a }
/-- Shuffle (R224). -/
def shflWord (n : Nat) (x : ShflArgs) : LaneWord :=
  putB x.b { laneWord (n + if x.pair then 4 else 0) x.c with
    vd := x.d, va := x.a, vc := (x.k.getD 0).zeroExtend 8, m5 := x.k.isSome, lo := widthBits x.w }
/-- Destination of vlred and vballot: the field value, and mods [37] (R225, R228). -/
def putCross (d : CrossDst) (w : LaneWord) : LaneWord :=
  match d with
  | .lanes r => { w with vd := r }
  | .scalar r => { w with vd := ldstBits r, m5 := true }
/-- mods [39:32] of a class 101 word: .sp, .ro, .rel, .acq and the scope (R156, R230). -/
def putMem (m : MemCtl) (w : LaneWord) : LaneWord :=
  { w with m7 := m.sp, m6 := m.ro, m5 := m.rel, m4 := m.acq, lo := m.scope }
/-- The immediate of the indexed forms (R230). -/
def idxImm (t : TCode) (nr a64 : Bool) (scale : BitVec 2) : BitVec 32 :=
  (0 : BitVec 20) ++ t ++ (0 : BitVec 3) ++ BitVec.ofBool nr ++ (0 : BitVec 1) ++ BitVec.ofBool a64 ++ scale
/-- Contiguous load (R233). -/
def contLoadWord (op : Nat) (x : ContArgs) : LaneWord :=
  putMem x.m { laneWord (op + x.kind.toNat) x.c with vd := x.r, vb := x.base.zeroExtend 8, imm := x.off }
/-- Contiguous store (R233). -/
def contStoreWord (op : Nat) (x : ContArgs) : LaneWord :=
  putMem x.m { laneWord (op + x.kind.toNat) x.c with vc := x.r, vb := x.base.zeroExtend 8, imm := x.off }
/-- Gather (R233). -/
def gatherWord (x : IdxArgs) : LaneWord :=
  putMem x.m { laneWord (0x290 + x.kind.toNat) x.c with
    vd := x.r, va := x.a, vb := x.base.zeroExtend 8, imm := idxImm 0 false x.a64 x.scale }
/-- Scatter (R233). -/
def scatterWord (x : IdxArgs) : LaneWord :=
  putMem x.m { laneWord (0x2A8 + x.kind.toNat) x.c with
    vc := x.r, va := x.a, vb := x.base.zeroExtend 8, imm := idxImm 0 false x.a64 x.scale }
/-- vqatom (R240). -/
def qatomWord (op : Nat) (x : QatomArgs) : LaneWord :=
  putMem x.m { laneWord op x.c with
    va := x.a, vb := x.base.zeroExtend 8, vc := x.x, imm := idxImm x.t false x.a64 x.scale }
/-- Long-accumulator instruction of two operands (R256). -/
def qTwoWord (op : Nat) (x : QTwo) : LaneWord := { laneWord op x.c with vd := x.d, va := x.a }
/-- Source type in imm [7:4] (R255). -/
def typeImm (t : TCode) : BitVec 32 := (0 : BitVec 24) ++ t ++ (0 : BitVec 4)
/-- The modifier byte and vc of class 111 (R263). -/
def putTile (c : TileCtl) (w : LaneWord) : LaneWord :=
  { w with m7 := c.kc.isSome, m6 := c.acq, m5 := c.rel, lo := c.scope, vc := (c.kc.getD 0).zeroExtend 8 }
/-- The B fields of a multiply (R263). -/
def mulImm (x : MulArgs) : BitVec 32 := x.ta ++ x.tb ++ x.rec4 ++ x.nb ++ x.kb
/-- Multiply (R263). -/
def mulWord (op : Nat) (x : MulArgs) : LaneWord :=
  putTile x.c { laneWord op noCtl with
    vd := x.tc.zeroExtend 8, va := x.a.zeroExtend 8, vb := x.x.zeroExtend 8, imm := mulImm x }
/-- Move (R263): imm [1] .add, imm [0] .n or .norm. -/
def moveWord (op : Nat) (x : MoveArgs) : LaneWord :=
  putTile x.c { laneWord op noCtl with
    vd := x.d.zeroExtend 8, va := x.a.zeroExtend 8,
    imm := (0 : BitVec 30) ++ BitVec.ofBool x.add ++ BitVec.ofBool x.n }

/-- The fields of a lane instruction, from the encoding tables of chapters 7 and 9 to 11; none for a scalar instruction or an event. -/
def encodeLane : Instr → Option LaneWord
  | .vadd x => some (intBinWord 0x001 x)
  | .vsub x => some (intBinWord 0x002 x)
  | .vmul x => some (intBinWord 0x003 x)
  | .vmulh x => some (intBinWord 0x004 x)
  | .vmad x => some (putB x.b { intWord 0x005 x.wide x.sg x.c x.d x.a with vc := x.e })
  | .vmin x => some (intBinWord 0x006 x)
  | .vmax x => some (intBinWord 0x007 x)
  | .vdiv x => some (intBinWord 0x008 x)
  | .vrem x => some (intBinWord 0x009 x)
  | .vand x => some (intBinWord 0x00A x)
  | .vor x => some (intBinWord 0x00B x)
  | .vxor x => some (intBinWord 0x00C x)
  | .vandn x => some (intBinWord 0x00D x)
  | .vshl x => some (intBinWord 0x00E x)
  | .vshr x => some (intBinWord 0x00F x)
  | .vclz x => some (intUnWord 0x010 x)
  | .vpopc x => some (intUnWord 0x011 x)
  | .vcmp x => some (putB x.b (intWord (0x018 + x.cc.toNat) x.wide x.sg x.c (x.d.zeroExtend 8) x.a))
  | .vaddPacked x => some (packWord 0 x)
  | .vsubPacked x => some (packWord 1 x)
  | .vminPacked x => some (packWord 2 x)
  | .vmaxPacked x => some (packWord 3 x)
  | .vmulPacked x => some (packWord 4 x)
  | .vcmpEqPacked x => some (packCmpWord 5 x)
  | .vcmpLtPacked x => some (packCmpWord 6 x)
  | .vcmpLePacked x => some (packCmpWord 7 x)
  | .vdot x => some (putB x.b { laneWord (dotOp x.w) x.c with
      vd := x.d, va := x.a, vc := x.e, m4 := x.sgA, m5 := x.sgB, lo := roundBits false x.sat 0 })
  | .vmovN32 x => some (putB x.b { laneWord 0x060 x.c with vd := x.d, m4 := x.sg })
  | .vselN32 x => some (putB x.b { laneWord 0x061 x.c with vd := x.d, va := x.a, vc := x.k.zeroExtend 8, m4 := x.sg })
  | .vselN64 x => some (putB x.b { laneWord 0x062 x.c with vd := x.d, va := x.a, vc := x.k.zeroExtend 8, m4 := x.sg })
  | .vcoord x => some { laneWord 0x063 x.c with vd := x.d, m4 := x.sg, imm := x.n.zeroExtend 32 }
  | .vmovN64 x => some (putB x.b { laneWord 0x065 x.c with vd := x.d, m4 := x.sg })
  | .vaddFp x => some (fpBinWord 0x080 x)
  | .vsubFp x => some (fpBinWord 0x081 x)
  | .vmulFp x => some (fpBinWord 0x082 x)
  | .vfma x => some (fpTernWord 0x083 x)
  | .vfms x => some (fpTernWord 0x084 x)
  | .vfnma x => some (fpTernWord 0x085 x)
  | .vdivFp x => some (fpBinWord 0x086 x)
  | .vsqrt x => some { laneWord (0x087 + if x.dbl then 0x20 else 0) x.c with
      vd := x.d, va := x.a, lo := roundBits x.ftz x.sat x.mode }
  | .vcmpFp x => some (putB x.b { laneWord ((if x.dbl then 0x0C8 else 0x0C0) + x.cc.toNat) x.c with
      vd := x.d.zeroExtend 8, va := x.a })
  | .vminFp x => some (fpSelWord 0x0D0 0x0D2 x)
  | .vmaxFp x => some (fpSelWord 0x0D1 0x0D3 x)
  | .vneg x => some (fpBitsWord 0x0D4 0x0D7 x)
  | .vabs x => some (fpBitsWord 0x0D5 0x0D8 x)
  | .vcsgn x => some (fpSelWord 0x0D6 0x0D9 x)
  | .vclass x => some (fpBitsWord 0x0DA 0x0DB x)
  | .vaddF16 x => some (hBinWord 0 x)
  | .vsubF16 x => some (hBinWord 1 x)
  | .vmulF16 x => some (hBinWord 2 x)
  | .vfmaF16 x => some (hTernWord (hOp 3 x.bf) x)
  | .vminF16 x => some (hSelWord 4 x)
  | .vmaxF16 x => some (hSelWord 5 x)
  | .vcmpEqF16 x => some (hCmpWord 6 x)
  | .vcmpLtF16 x => some (hCmpWord 7 x)
  | .vdot2 x => some (hTernWord (if x.bf then 0x0F0 else 0x0F1) x)
  | .vcvt x => some { laneWord 0x100 x.c with
      vd := x.d, va := x.a, lo := roundBits false x.sat x.mode,
      imm := (0 : BitVec 16) ++ x.dpos ++ x.spos ++ x.st ++ x.dt }
  | .vcvtp x => some { laneWord 0x101 x.c with
      vd := x.d, va := x.a, vb := x.b, lo := roundBits false x.sat x.mode, imm := if x.bf then 0xAC else 0xAB }
  | .vfrsqe x => some (sfWord 0x140 x)
  | .vfrcpe x => some (sfWord 0x141 x)
  | .vfexp2 x => some (sfWord 0x142 x)
  | .vflog2 x => some (sfWord 0x143 x)
  | .vfsinpi x => some (sfWord 0x144 x)
  | .vfcospi x => some (sfWord 0x145 x)
  | .vpand x => some (predBinWord 0x180 x)
  | .vpor x => some (predBinWord 0x181 x)
  | .vpxor x => some (predBinWord 0x182 x)
  | .vpandn x => some (predBinWord 0x183 x)
  | .vpnot x => some { laneWord 0x184 x.c with vd := x.d.zeroExtend 8, va := x.a.zeroExtend 8 }
  | .vpset x => some { laneWord 0x185 x.c with vd := x.d.zeroExtend 8, imm := x.n.zeroExtend 32 }
  | .vpget x => some { laneWord 0x186 x.c with vd := x.d, va := x.a.zeroExtend 8 }
  | .vpmov x => some (predMovWord 0x187 x)
  | .vpnz x => some (predMovWord 0x188 x)
  | .mpush x => some (laneWord 0x1A0 (predCtl x.neg x.pred))
  | .melse => some (laneWord 0x1A1 noCtl)
  | .mpop => some (laneWord 0x1A2 noCtl)
  | .vtest x => some { laneWord 0x1A8 (predCtl x.neg x.pred) with vd := ldstBits x.d }
  | .vmaskm x => some { laneWord 0x1A9 x.c with vd := x.d.zeroExtend 8 }
  | .vshflIdx x => some (shflWord 0x200 x)
  | .vshflUp x => some (shflWord 0x201 x)
  | .vshflDown x => some (shflWord 0x202 x)
  | .vshflXor x => some (shflWord 0x203 x)
  | .vlred x => some (putCross x.d { laneWord (0x220 + x.op.toNat) x.c with va := x.a, m4 := x.sg, lo := widthBits x.w })
  | .vscan x => some { laneWord (0x230 + x.op.toNat) x.c with
      vd := x.d, va := x.a, m4 := x.sg, m5 := x.excl, lo := widthBits x.w }
  | .vbcast x => some (putB x.b { laneWord (if x.pair then 0x241 else 0x240) x.c with
      vd := x.d, va := x.a, lo := widthBits x.w })
  | .vballot x => some (putCross x.d { laneWord 0x242 x.c with
      va := x.k.zeroExtend 8, m4 := x.negSrc, lo := widthBits x.w, imm := (0 : BitVec 31) ++ BitVec.ofBool x.h })
  | .vmatch x => some { laneWord (if x.pair then 0x245 else 0x244) x.c with
      vd := x.d, va := x.a, m4 := x.flt, m5 := x.bits, lo := widthBits x.w }
  | .vld x => some (contLoadWord 0x280 x)
  | .vldq x => some (contLoadWord 0x288 x)
  | .vldx x => some (gatherWord x)
  | .vst x => some (contStoreWord 0x2A0 x)
  | .vstq x => some (contStoreWord 0x2A5 x)
  | .vstx x => some (scatterWord x)
  | .vamo x => some (putMem x.m { laneWord ((if x.wide then 0x2C0 else 0x2B0) + x.op.toNat) x.c with
      vd := x.d, va := x.a, vb := x.base.zeroExtend 8, vc := x.x, imm := idxImm 0 x.nr x.a64 x.scale })
  | .vqatomAdd x => some (qatomWord 0x2BC x)
  | .vqatomMerge x => some (qatomWord 0x2BD x)
  | .vpref x => some { laneWord 0x2D0 x.c with m6 := x.ro, vb := x.base.zeroExtend 8, imm := x.off }
  | .vprefx x => some { laneWord 0x2D1 x.c with
      m6 := x.ro, va := x.a, vb := x.base.zeroExtend 8, imm := idxImm 0 false x.a64 x.scale }
  | .vbput x => some { laneWord 0x2D8 (predCtl x.neg x.pred) with
      va := x.r, vb := x.base.zeroExtend 8, vc := ldstBits x.d }
  | .vbtake x => some { laneWord 0x2D9 (predCtl x.neg x.pred) with
      vd := x.r, vb := x.base.zeroExtend 8, vc := ldstBits x.d }
  | .qzero x => some { laneWord 0x300 x.c with vd := x.d }
  | .qmov x => some (qTwoWord 0x301 x)
  | .qadd x => some { laneWord 0x302 x.c with vd := x.d, va := x.a, imm := typeImm x.t }
  | .qmac x => some (putB x.b { laneWord 0x303 x.c with vd := x.d, va := x.a, imm := typeImm x.t })
  | .qmerge x => some (qTwoWord 0x304 x)
  | .qnorm x => some { laneWord 0x305 x.c with vd := x.d }
  | .qred x => some { laneWord 0x306 x.c with vd := x.d, va := x.a, imm := (widthBits x.w).zeroExtend 32 }
  | .qrnd x => some { laneWord 0x307 x.c with
      vd := x.d, va := x.a, lo := roundBits false x.sat x.mode, imm := (0 : BitVec 16) ++ x.dpos ++ (0 : BitVec 8) ++ x.t }
  | .qstat x => some (qTwoWord 0x308 x)
  | .qseg x => some { laneWord 0x309 x.c with vd := x.d, va := x.a, imm := x.n.zeroExtend 32 }
  | .qspill x => some { laneWord 0x30A x.c with
      va := x.q, vb := x.base.zeroExtend 8, m7 := x.sp, m4 := x.norm, imm := x.off }
  | .qfill x => some { laneWord 0x30B x.c with
      vd := x.q, vb := x.base.zeroExtend 8, m7 := x.sp, m4 := x.norm, imm := x.off }
  | .tmma x => some (mulWord 0x380 x)
  | .tcsum x => some (mulWord 0x381 x)
  | .tconv x => some (mulWord 0x382 x)
  | .tasum x => some (moveWord 0x383 x)
  | .tzero x => some (moveWord 0x388 x)
  | .tload x => some (moveWord 0x389 x)
  | .tstore x => some (moveWord 0x38A x)
  | .tepi x => some (putTile x.c { laneWord 0x38B noCtl with
      vd := x.d.zeroExtend 8, va := x.a.zeroExtend 8, vb := x.ts.zeroExtend 8,
      imm := (0 : BitVec 24) ++ x.scale ++ BitVec.ofBool x.clr ++ BitVec.ofBool x.n ++ BitVec.ofBool x.sat ++
        (0 : BitVec 1) ++ x.mode })
  | .tstage x => some (moveWord 0x38C x)
  | .tres x => some { laneWord 0x390 noCtl with
      vd := ldstBits x.d, va := x.a.zeroExtend 8, vb := x.b.zeroExtend 8, imm := x.n.zeroExtend 32 }
  | .trel n => some { laneWord 0x391 noCtl with imm := n.zeroExtend 32 }
  | _ => none

/-- Operands of a two-source integer operation. -/
def intBinOf (w : LaneWord) (wide : Bool) : IntBin := ⟨ctlOf w, wide, w.m4, satOf w, w.vd, w.va, bOf w⟩
/-- Opcodes 0x001 to 0x03F (R206): the code below 0x20, and whether it is a 64-bit form. -/
def readInteger (w : LaneWord) (n : Nat) (wide : Bool) : Option Instr :=
  let x := intBinOf w wide
  match n with
  | 0x01 => some (.vadd x)
  | 0x02 => some (.vsub x)
  | 0x03 => some (.vmul x)
  | 0x04 => some (.vmulh x)
  | 0x05 => some (.vmad ⟨ctlOf w, wide, w.m4, w.vd, w.va, bOf w, w.vc⟩)
  | 0x06 => some (.vmin x)
  | 0x07 => some (.vmax x)
  | 0x08 => some (.vdiv x)
  | 0x09 => some (.vrem x)
  | 0x0A => some (.vand x)
  | 0x0B => some (.vor x)
  | 0x0C => some (.vxor x)
  | 0x0D => some (.vandn x)
  | 0x0E => some (.vshl x)
  | 0x0F => some (.vshr x)
  | 0x10 => some (.vclz ⟨ctlOf w, wide, w.m4, w.vd, w.va⟩)
  | 0x11 => some (.vpopc ⟨ctlOf w, wide, w.m4, w.vd, w.va⟩)
  | 0x18 => some (.vcmp ⟨ctlOf w, wide, w.m4, 0, preg w.vd, w.va, bOf w⟩)
  | 0x19 => some (.vcmp ⟨ctlOf w, wide, w.m4, 1, preg w.vd, w.va, bOf w⟩)
  | 0x1A => some (.vcmp ⟨ctlOf w, wide, w.m4, 2, preg w.vd, w.va, bOf w⟩)
  | 0x1B => some (.vcmp ⟨ctlOf w, wide, w.m4, 3, preg w.vd, w.va, bOf w⟩)
  | 0x1C => some (.vcmp ⟨ctlOf w, wide, w.m4, 4, preg w.vd, w.va, bOf w⟩)
  | 0x1D => some (.vcmp ⟨ctlOf w, wide, w.m4, 5, preg w.vd, w.va, bOf w⟩)
  | _ => none
/-- Opcodes 0x040 to 0x057 (R207): the offset within a width. -/
def readPacked (w : LaneWord) (n : Nat) (p : PWidth) : Option Instr :=
  let x : PackBin := ⟨ctlOf w, p, w.m4, satOf w, w.vd, w.va, bOf w⟩
  let y : PackCmp := ⟨ctlOf w, p, w.m4, preg w.vd, w.va, bOf w⟩
  match n with
  | 0 => some (.vaddPacked x)
  | 1 => some (.vsubPacked x)
  | 2 => some (.vminPacked x)
  | 3 => some (.vmaxPacked x)
  | 4 => some (.vmulPacked x)
  | 5 => some (.vcmpEqPacked y)
  | 6 => some (.vcmpLtPacked y)
  | _ => some (.vcmpLePacked y)
/-- Opcodes 0x058 to 0x07F (R208, R209). -/
def readMoves (w : LaneWord) (n : Nat) : Option Instr :=
  match n with
  | 0x58 => some (.vdot ⟨ctlOf w, .w8, w.m4, w.m5, satOf w, w.vd, w.va, bOf w, w.vc⟩)
  | 0x59 => some (.vdot ⟨ctlOf w, .w16, w.m4, w.m5, satOf w, w.vd, w.va, bOf w, w.vc⟩)
  | 0x5A => some (.vdot ⟨ctlOf w, .w4, w.m4, w.m5, satOf w, w.vd, w.va, bOf w, w.vc⟩)
  | 0x60 => some (.vmovN32 ⟨ctlOf w, w.m4, w.vd, bOf w⟩)
  | 0x61 => some (.vselN32 ⟨ctlOf w, w.m4, w.vd, w.va, bOf w, preg w.vc⟩)
  | 0x62 => some (.vselN64 ⟨ctlOf w, w.m4, w.vd, w.va, bOf w, preg w.vc⟩)
  | 0x63 => some (.vcoord ⟨ctlOf w, w.m4, w.vd, w.imm.extractLsb' 0 12⟩)
  | 0x65 => some (.vmovN64 ⟨ctlOf w, w.m4, w.vd, bOf w⟩)
  | _ => none
/-- Class 000. -/
def readClass0 (w : LaneWord) (o : Nat) : Option Instr :=
  if o < 0x20 then readInteger w o false
  else if o < 0x40 then readInteger w (o - 0x20) true
  else if o < 0x48 then readPacked w (o - 0x40) .w4
  else if o < 0x50 then readPacked w (o - 0x48) .w8
  else if o < 0x58 then readPacked w (o - 0x50) .w16
  else readMoves w o
/-- FP32 (0x080) and FP64 (0x0A0) arithmetic (R210). -/
def readFp (w : LaneWord) (n : Nat) (dbl : Bool) : Option Instr :=
  let x : FpBin := ⟨ctlOf w, dbl, modeOf w, satOf w, ftzOf w, w.vd, w.va, bOf w⟩
  let y : FpTern := ⟨ctlOf w, dbl, modeOf w, satOf w, ftzOf w, w.vd, w.va, bOf w, w.vc⟩
  match n with
  | 0 => some (.vaddFp x)
  | 1 => some (.vsubFp x)
  | 2 => some (.vmulFp x)
  | 3 => some (.vfma y)
  | 4 => some (.vfms y)
  | 5 => some (.vfnma y)
  | 6 => some (.vdivFp x)
  | 7 => some (.vsqrt ⟨ctlOf w, dbl, modeOf w, satOf w, ftzOf w, w.vd, w.va⟩)
  | _ => none
/-- Opcodes 0x0D0 to 0x0DF (R212). -/
def readSign (w : LaneWord) (n : Nat) : Option Instr :=
  let x (dbl : Bool) : FpSel := ⟨ctlOf w, dbl, w.vd, w.va, bOf w⟩
  let y (dbl : Bool) : FpBits := ⟨ctlOf w, dbl, w.vd, w.va⟩
  match n with
  | 0x0 => some (.vminFp (x false))
  | 0x1 => some (.vmaxFp (x false))
  | 0x2 => some (.vminFp (x true))
  | 0x3 => some (.vmaxFp (x true))
  | 0x4 => some (.vneg (y false))
  | 0x5 => some (.vabs (y false))
  | 0x6 => some (.vcsgn (x false))
  | 0x7 => some (.vneg (y true))
  | 0x8 => some (.vabs (y true))
  | 0x9 => some (.vcsgn (x true))
  | 0xA => some (.vclass (y false))
  | 0xB => some (.vclass (y true))
  | _ => none
/-- Opcodes 0x0E0 to 0x0F1 (R213). -/
def readHalf (w : LaneWord) (n : Nat) (bf : Bool) : Option Instr :=
  let x : HBin := ⟨ctlOf w, bf, modeOf w, satOf w, w.vd, w.va, bOf w⟩
  match n with
  | 0 => some (.vaddF16 x)
  | 1 => some (.vsubF16 x)
  | 2 => some (.vmulF16 x)
  | 3 => some (.vfmaF16 ⟨ctlOf w, bf, modeOf w, satOf w, w.vd, w.va, bOf w, w.vc⟩)
  | 4 => some (.vminF16 ⟨ctlOf w, bf, w.vd, w.va, bOf w⟩)
  | 5 => some (.vmaxF16 ⟨ctlOf w, bf, w.vd, w.va, bOf w⟩)
  | 6 => some (.vcmpEqF16 ⟨ctlOf w, bf, preg w.vd, w.va, bOf w⟩)
  | _ => some (.vcmpLtF16 ⟨ctlOf w, bf, preg w.vd, w.va, bOf w⟩)
/-- Class 001. -/
def readClass1 (w : LaneWord) (o : Nat) : Option Instr :=
  if o < 0xA0 then readFp w (o - 0x80) false
  else if o < 0xC0 then readFp w (o - 0xA0) true
  else if o < 0xC7 then some (.vcmpFp ⟨ctlOf w, false, BitVec.ofNat 3 (o - 0xC0), preg w.vd, w.va, bOf w⟩)
  else if o < 0xC8 then none
  else if o < 0xCF then some (.vcmpFp ⟨ctlOf w, true, BitVec.ofNat 3 (o - 0xC8), preg w.vd, w.va, bOf w⟩)
  else if o < 0xD0 then none
  else if o < 0xE0 then readSign w (o - 0xD0)
  else if o < 0xE8 then readHalf w (o - 0xE0) false
  else if o < 0xF0 then readHalf w (o - 0xE8) true
  else if o < 0xF2 then some (.vdot2 ⟨ctlOf w, o == 0xF0, modeOf w, satOf w, w.vd, w.va, bOf w, w.vc⟩)
  else none
/-- Class 010 (R215 to R217). -/
def readClass2 (w : LaneWord) (o : Nat) : Option Instr :=
  let x : SfArgs := ⟨ctlOf w, w.vd, w.va⟩
  match o with
  | 0x100 => some (.vcvt ⟨ctlOf w, w.imm.extractLsb' 0 4, w.imm.extractLsb' 4 4, w.imm.extractLsb' 12 4,
      w.imm.extractLsb' 8 4, modeOf w, satOf w, w.vd, w.va⟩)
  | 0x101 => some (.vcvtp ⟨ctlOf w, w.imm == 0xAC, modeOf w, satOf w, w.vd, w.va, w.vb⟩)
  | 0x140 => some (.vfrsqe x)
  | 0x141 => some (.vfrcpe x)
  | 0x142 => some (.vfexp2 x)
  | 0x143 => some (.vflog2 x)
  | 0x144 => some (.vfsinpi x)
  | 0x145 => some (.vfcospi x)
  | _ => none
/-- Class 011 (R219 to R222). -/
def readClass3 (w : LaneWord) (o : Nat) : Option Instr :=
  let x : PredBin := ⟨ctlOf w, preg w.vd, preg w.va, preg w.vb⟩
  match o with
  | 0x180 => some (.vpand x)
  | 0x181 => some (.vpor x)
  | 0x182 => some (.vpxor x)
  | 0x183 => some (.vpandn x)
  | 0x184 => some (.vpnot ⟨ctlOf w, preg w.vd, preg w.va⟩)
  | 0x185 => some (.vpset ⟨ctlOf w, preg w.vd, w.imm.extractLsb' 0 4⟩)
  | 0x186 => some (.vpget ⟨ctlOf w, w.vd, preg w.va⟩)
  | 0x187 => some (.vpmov ⟨ctlOf w, preg w.vd, w.va⟩)
  | 0x188 => some (.vpnz ⟨ctlOf w, preg w.vd, w.va⟩)
  | 0x1A0 => some (.mpush ⟨w.neg, w.pred⟩)
  | 0x1A1 => some .melse
  | 0x1A2 => some .mpop
  | 0x1A8 => some (.vtest ⟨w.neg, w.pred, ldst w.vd⟩)
  | 0x1A9 => some (.vmaskm ⟨ctlOf w, preg w.vd⟩)
  | _ => none
/-- Destination of vlred and vballot, by mods [37]. -/
def crossOf (w : LaneWord) : CrossDst := if w.m5 then .scalar (ldst w.vd) else .lanes w.vd
/-- Class 100 (R223 to R229). -/
def readClass4 (w : LaneWord) (o : Nat) : Option Instr :=
  let s (pair : Bool) : ShflArgs :=
    ⟨ctlOf w, pair, widthOf w, if w.m5 then some (preg w.vc) else none, w.vd, w.va, bOf w⟩
  if o < 0x229 ∧ 0x220 ≤ o then
    some (.vlred ⟨ctlOf w, BitVec.ofNat 4 (o - 0x220), w.m4, widthOf w, crossOf w, w.va⟩)
  else if o < 0x236 ∧ 0x230 ≤ o then
    some (.vscan ⟨ctlOf w, BitVec.ofNat 3 (o - 0x230), w.m4, w.m5, widthOf w, w.vd, w.va⟩)
  else match o with
  | 0x200 => some (.vshflIdx (s false))
  | 0x201 => some (.vshflUp (s false))
  | 0x202 => some (.vshflDown (s false))
  | 0x203 => some (.vshflXor (s false))
  | 0x204 => some (.vshflIdx (s true))
  | 0x205 => some (.vshflUp (s true))
  | 0x206 => some (.vshflDown (s true))
  | 0x207 => some (.vshflXor (s true))
  | 0x240 => some (.vbcast ⟨ctlOf w, false, widthOf w, w.vd, w.va, bOf w⟩)
  | 0x241 => some (.vbcast ⟨ctlOf w, true, widthOf w, w.vd, w.va, bOf w⟩)
  | 0x242 => some (.vballot ⟨ctlOf w, w.m4, widthOf w, w.imm.getLsbD 0, crossOf w, preg w.va⟩)
  | 0x244 => some (.vmatch ⟨ctlOf w, false, w.m4, w.m5, widthOf w, w.vd, w.va⟩)
  | 0x245 => some (.vmatch ⟨ctlOf w, true, w.m4, w.m5, widthOf w, w.vd, w.va⟩)
  | _ => none
/-- Space and ordering of a class 101 word. -/
def memOf (w : LaneWord) : MemCtl := ⟨w.m7, w.m6, w.m4, w.m5, w.lo⟩
/-- Indexed operands of a class 101 word. -/
def idxOf (w : LaneWord) (kind : Nat) (r : VReg) : IdxArgs :=
  ⟨ctlOf w, BitVec.ofNat 3 kind, memOf w, w.imm.getLsbD 2, w.imm.extractLsb' 0 2, r, w.va, reg4 w.vb⟩
/-- Contiguous operands of a class 101 word. -/
def contOf (w : LaneWord) (kind : Nat) (r : VReg) : ContArgs :=
  ⟨ctlOf w, BitVec.ofNat 3 kind, memOf w, r, reg4 w.vb, w.imm⟩
/-- Operands of a vamo word. -/
def vamoOf (w : LaneWord) (op : Nat) (wide : Bool) : VAmoArgs :=
  ⟨ctlOf w, BitVec.ofNat 4 op, wide, memOf w, w.imm.getLsbD 4, w.imm.getLsbD 2, w.imm.extractLsb' 0 2, w.vd, w.va,
   reg4 w.vb, w.vc⟩
/-- Operands of a vqatom word. -/
def qatomOf (w : LaneWord) : QatomArgs :=
  ⟨ctlOf w, w.imm.extractLsb' 8 4, memOf w, w.imm.getLsbD 2, w.imm.extractLsb' 0 2, w.va, reg4 w.vb, w.vc⟩
/-- Class 101 (R233 to R249). -/
def readClass5 (w : LaneWord) (o : Nat) : Option Instr :=
  if o < 0x288 then some (.vld (contOf w (o - 0x280) w.vd))
  else if o = 0x288 then some (.vldq (contOf w 0 w.vd))
  else if o < 0x290 then none
  else if o < 0x298 then some (.vldx (idxOf w (o - 0x290) w.vd))
  else if o < 0x2A0 then none
  else if o < 0x2A5 then some (.vst (contOf w (o - 0x2A0) w.vc))
  else if o = 0x2A5 then some (.vstq (contOf w 0 w.vc))
  else if o < 0x2A8 then none
  else if o < 0x2AD then some (.vstx (idxOf w (o - 0x2A8) w.vc))
  else if o < 0x2B0 then none
  else if o < 0x2BA then some (.vamo (vamoOf w (o - 0x2B0) false))
  else if o = 0x2BC then some (.vqatomAdd (qatomOf w))
  else if o = 0x2BD then some (.vqatomMerge (qatomOf w))
  else if o < 0x2C0 then none
  else if o < 0x2CA then some (.vamo (vamoOf w (o - 0x2C0) true))
  else match o with
  | 0x2D0 => some (.vpref ⟨ctlOf w, w.m6, reg4 w.vb, w.imm⟩)
  | 0x2D1 => some (.vprefx ⟨ctlOf w, w.m6, w.imm.getLsbD 2, w.imm.extractLsb' 0 2, w.va, reg4 w.vb⟩)
  | 0x2D8 => some (.vbput ⟨w.neg, w.pred, w.va, reg4 w.vb, ldst w.vc⟩)
  | 0x2D9 => some (.vbtake ⟨w.neg, w.pred, w.vd, reg4 w.vb, ldst w.vc⟩)
  | _ => none
/-- Operand b of qmac: a register, or a captured scalar with sb (R257). -/
def qbOf (w : LaneWord) : SrcB := if w.m7 then .scal (reg4 w.vb) else .reg w.vb
/-- Class 110 (R256). -/
noncomputable def readClass6 (w : LaneWord) (o : Nat) : Option Instr :=
  let x : QTwo := ⟨ctlOf w, w.vd, w.va⟩
  let t := w.imm.extractLsb' 4 4
  match o with
  | 0x300 => some (.qzero ⟨ctlOf w, w.vd⟩)
  | 0x301 => some (.qmov x)
  | 0x302 => some (.qadd ⟨ctlOf w, t, w.vd, w.va⟩)
  | 0x303 => some (.qmac ⟨ctlOf w, t, w.vd, w.va, qbOf w⟩)
  | 0x304 => some (.qmerge x)
  | 0x305 => some (.qnorm ⟨ctlOf w, w.vd⟩)
  | 0x306 => some (.qred ⟨ctlOf w, if w.imm.getLsbD 3 then some (w.imm.extractLsb' 0 3) else none, w.vd, w.va⟩)
  | 0x307 => some (.qrnd ⟨ctlOf w, w.imm.extractLsb' 0 4, w.imm.extractLsb' 12 4, modeOf w, satOf w, w.vd, w.va⟩)
  | 0x308 => some (.qstat x)
  | 0x309 => some (.qseg ⟨ctlOf w, w.vd, w.va, w.imm.extractLsb' 0 4⟩)
  | 0x30A => some (.qspill ⟨ctlOf w, w.m7, w.m4, w.va, reg4 w.vb, w.imm⟩)
  | 0x30B => some (.qfill ⟨ctlOf w, w.m7, w.m4, w.vd, reg4 w.vb, w.imm⟩)
  | _ => none
/-- Counter, ordering and scope of a class 111 word (R263). -/
def tileOf (w : LaneWord) : TileCtl := ⟨if w.m7 then some (reg4 w.vc) else none, w.m6, w.m5, w.lo⟩
/-- Class 111 (R263). -/
noncomputable def readClass7 (w : LaneWord) (o : Nat) : Option Instr :=
  let m : MulArgs := ⟨tileOf w, w.imm.extractLsb' 28 4, w.imm.extractLsb' 24 4, reg4 w.vd, reg4 w.va, reg4 w.vb,
    w.imm.extractLsb' 20 4, w.imm.extractLsb' 10 10, w.imm.extractLsb' 0 10⟩
  let v : MoveArgs := ⟨tileOf w, reg4 w.vd, reg4 w.va, w.imm.getLsbD 1, w.imm.getLsbD 0⟩
  match o with
  | 0x380 => some (.tmma m)
  | 0x381 => some (.tcsum m)
  | 0x382 => some (.tconv m)
  | 0x383 => some (.tasum v)
  | 0x388 => some (.tzero v)
  | 0x389 => some (.tload v)
  | 0x38A => some (.tstore v)
  | 0x38B => some (.tepi ⟨tileOf w, reg4 w.vd, reg4 w.va, reg4 w.vb, w.imm.extractLsb' 6 2, w.imm.getLsbD 5,
      w.imm.getLsbD 4, w.imm.getLsbD 3, w.imm.extractLsb' 0 2⟩)
  | 0x38C => some (.tstage v)
  | 0x390 => some (.tres ⟨ldst w.vd, reg4 w.va, reg4 w.vb, w.imm.extractLsb' 0 4⟩)
  | 0x391 => some (.trel (w.imm.extractLsb' 0 4))
  | _ => none

/-- The instruction a lane opcode names (R159); none for an unallocated one. -/
noncomputable def readLane (w : LaneWord) : Option Instr :=
  let o := w.op.toNat
  match o / 0x80 with
  | 0 => readClass0 w o
  | 1 => readClass1 w o
  | 2 => readClass2 w o
  | 3 => readClass3 w o
  | 4 => readClass4 w o
  | 5 => readClass5 w o
  | 6 => readClass6 w o
  | _ => readClass7 w o

/-- Which of the fields vd, va, vb and vc hold an operand with a limit of its own in the word: a predicate, a scalar, a tile or a counter (R153). -/
structure Limits where
  d : Bool
  a : Bool
  b : Bool
  c : Bool
  deriving DecidableEq, Repr

/-- Operand b is a captured scalar, whose field has a limit (R153). -/
def SrcB.isLimited (b : SrcB) : Bool := !b.isReg && !b.isImm
/-- The destination is a scalar, whose field has a limit (R153). -/
def CrossDst.isScalar : CrossDst → Bool
  | .scalar _ => true
  | .lanes _ => false

/-- Limited fields of an instruction (R153): a value beyond the limit is cause 2, a nonzero unused field cause 1 (R343). -/
def limitsOf : Instr → Limits
  | .vcmp x => ⟨true, false, x.b.isLimited, false⟩
  | .vcmpEqPacked x => ⟨true, false, x.b.isLimited, false⟩
  | .vcmpLtPacked x => ⟨true, false, x.b.isLimited, false⟩
  | .vcmpLePacked x => ⟨true, false, x.b.isLimited, false⟩
  | .vcmpFp x => ⟨true, false, x.b.isLimited, false⟩
  | .vcmpEqF16 x => ⟨true, false, x.b.isLimited, false⟩
  | .vcmpLtF16 x => ⟨true, false, x.b.isLimited, false⟩
  | .vselN32 x => ⟨false, false, x.b.isLimited, true⟩
  | .vselN64 x => ⟨false, false, x.b.isLimited, true⟩
  | .vadd x => ⟨false, false, x.b.isLimited, false⟩
  | .vsub x => ⟨false, false, x.b.isLimited, false⟩
  | .vmul x => ⟨false, false, x.b.isLimited, false⟩
  | .vmulh x => ⟨false, false, x.b.isLimited, false⟩
  | .vmad x => ⟨false, false, x.b.isLimited, false⟩
  | .vmin x => ⟨false, false, x.b.isLimited, false⟩
  | .vmax x => ⟨false, false, x.b.isLimited, false⟩
  | .vdiv x => ⟨false, false, x.b.isLimited, false⟩
  | .vrem x => ⟨false, false, x.b.isLimited, false⟩
  | .vand x => ⟨false, false, x.b.isLimited, false⟩
  | .vor x => ⟨false, false, x.b.isLimited, false⟩
  | .vxor x => ⟨false, false, x.b.isLimited, false⟩
  | .vandn x => ⟨false, false, x.b.isLimited, false⟩
  | .vshl x => ⟨false, false, x.b.isLimited, false⟩
  | .vshr x => ⟨false, false, x.b.isLimited, false⟩
  | .vaddPacked x => ⟨false, false, x.b.isLimited, false⟩
  | .vsubPacked x => ⟨false, false, x.b.isLimited, false⟩
  | .vminPacked x => ⟨false, false, x.b.isLimited, false⟩
  | .vmaxPacked x => ⟨false, false, x.b.isLimited, false⟩
  | .vmulPacked x => ⟨false, false, x.b.isLimited, false⟩
  | .vdot x => ⟨false, false, x.b.isLimited, false⟩
  | .vmovN32 x => ⟨false, false, x.b.isLimited, false⟩
  | .vmovN64 x => ⟨false, false, x.b.isLimited, false⟩
  | .vaddFp x => ⟨false, false, x.b.isLimited, false⟩
  | .vsubFp x => ⟨false, false, x.b.isLimited, false⟩
  | .vmulFp x => ⟨false, false, x.b.isLimited, false⟩
  | .vfma x => ⟨false, false, x.b.isLimited, false⟩
  | .vfms x => ⟨false, false, x.b.isLimited, false⟩
  | .vfnma x => ⟨false, false, x.b.isLimited, false⟩
  | .vdivFp x => ⟨false, false, x.b.isLimited, false⟩
  | .vminFp x => ⟨false, false, x.b.isLimited, false⟩
  | .vmaxFp x => ⟨false, false, x.b.isLimited, false⟩
  | .vcsgn x => ⟨false, false, x.b.isLimited, false⟩
  | .vaddF16 x => ⟨false, false, x.b.isLimited, false⟩
  | .vsubF16 x => ⟨false, false, x.b.isLimited, false⟩
  | .vmulF16 x => ⟨false, false, x.b.isLimited, false⟩
  | .vfmaF16 x => ⟨false, false, x.b.isLimited, false⟩
  | .vminF16 x => ⟨false, false, x.b.isLimited, false⟩
  | .vmaxF16 x => ⟨false, false, x.b.isLimited, false⟩
  | .vdot2 x => ⟨false, false, x.b.isLimited, false⟩
  | .vbcast x => ⟨false, false, x.b.isLimited, false⟩
  | .qmac x => ⟨false, false, x.b.isLimited, false⟩
  | .vpand _ => ⟨true, true, true, false⟩
  | .vpor _ => ⟨true, true, true, false⟩
  | .vpxor _ => ⟨true, true, true, false⟩
  | .vpandn _ => ⟨true, true, true, false⟩
  | .vpnot _ => ⟨true, true, false, false⟩
  | .vpset _ => ⟨true, false, false, false⟩
  | .vpmov _ => ⟨true, false, false, false⟩
  | .vpnz _ => ⟨true, false, false, false⟩
  | .vtest _ => ⟨true, false, false, false⟩
  | .vmaskm _ => ⟨true, false, false, false⟩
  | .vpget _ => ⟨false, true, false, false⟩
  | .vshflIdx x => ⟨false, false, x.b.isLimited, x.k.isSome⟩
  | .vshflUp x => ⟨false, false, x.b.isLimited, x.k.isSome⟩
  | .vshflDown x => ⟨false, false, x.b.isLimited, x.k.isSome⟩
  | .vshflXor x => ⟨false, false, x.b.isLimited, x.k.isSome⟩
  | .vlred x => ⟨x.d.isScalar, false, false, false⟩
  | .vballot x => ⟨x.d.isScalar, true, false, false⟩
  | .vamo x => ⟨false, false, !x.a64, false⟩
  | .vldx x => ⟨false, false, !x.a64, false⟩
  | .vstx x => ⟨false, false, !x.a64, false⟩
  | .vqatomAdd x => ⟨false, false, !x.a64, false⟩
  | .vqatomMerge x => ⟨false, false, !x.a64, false⟩
  | .vprefx x => ⟨false, false, !x.a64, false⟩
  | .vpref _ => ⟨false, false, true, false⟩
  | .vld _ => ⟨false, false, true, false⟩
  | .vldq _ => ⟨false, false, true, false⟩
  | .vst _ => ⟨false, false, true, false⟩
  | .vstq _ => ⟨false, false, true, false⟩
  | .qspill _ => ⟨false, false, true, false⟩
  | .qfill _ => ⟨false, false, true, false⟩
  | .vbput _ => ⟨false, false, true, true⟩
  | .vbtake _ => ⟨false, false, true, true⟩
  | .tmma x => ⟨true, true, false, x.c.kc.isSome⟩
  | .tasum x => ⟨true, true, false, x.c.kc.isSome⟩
  | .tload x => ⟨true, true, false, x.c.kc.isSome⟩
  | .tstore x => ⟨true, true, false, x.c.kc.isSome⟩
  | .tstage x => ⟨true, true, false, x.c.kc.isSome⟩
  | .tcsum x => ⟨true, true, true, x.c.kc.isSome⟩
  | .tconv x => ⟨true, true, true, x.c.kc.isSome⟩
  | .tzero x => ⟨true, false, false, x.c.kc.isSome⟩
  | .tepi x => ⟨true, true, x.scale != 0, x.c.kc.isSome⟩
  | .tres _ => ⟨true, true, true, false⟩
  | _ => ⟨false, false, false, false⟩

/-- The word with the limited fields taken from another, so that only unlimited bits are compared. -/
def withLimited (l : Limits) (from_ w : LaneWord) : LaneWord :=
  { w with vd := if l.d then from_.vd else w.vd, va := if l.a then from_.va else w.va,
           vb := if l.b then from_.vb else w.vb, vc := if l.c then from_.vc else w.vc }

/-- The word without mods [36] in class 001, whose results depend on no signedness, so that either suffix is accepted there (R203; DEDUCED, log 25); in class 000 the instruction keeps its suffix. -/
def eitherSuffix (w : LaneWord) : LaneWord := if w.op.toNat / 0x80 = 1 then { w with m4 := false } else w
/-- The decoder of the lane stream (R152 to R160): the instruction, or the cause code of R343, 0 for an unallocated opcode, 1 for nonzero unused bits or a forbidden combination, 2 for an operand beyond a limit that the word alone decides. -/
noncomputable def decodeLane (b : BitVec 96) : Except Nat Instr :=
  let w := eitherSuffix (laneFields b)
  match readLane w with
  | none => .error 0
  | some i =>
    match i.formOk, encodeLane i with
    | true, some e => if e = w then (if i.pairsEven then .ok i else .error 2) else if withLimited (limitsOf i) w e = w then .error 2 else .error 1
    | _, _ => .error 1

/-- The encoding of an instruction as 32-bit words, lowest address first (R147, R152); none for an event. -/
def encode (i : Instr) : List (BitVec 32) :=
  match encodeScalar i, encodeLane i with
  | some w, _ => [scalarBits w]
  | none, some w => let b := laneBits w; [b.extractLsb' 0 32, b.extractLsb' 32 32, b.extractLsb' 64 32]
  | none, none => []

/-- A result as an option. -/
def okOf : Except Nat Instr → Option Instr
  | .ok i => some i
  | .error _ => none

/-- The instruction that the decoder reads from a word numbered as the opcode table numbers it: up to 32 bits a scalar word, more a lane word. -/
noncomputable def decodeTableWord (nbits w : Nat) : Option Instr :=
  if nbits ≤ 32 then okOf (decodeScalar (BitVec.ofNat 32 w)) else okOf (decodeLane (BitVec.ofNat 96 w))

end Sys2Proof
end

