-- ==== Sys2Proof/Config.lean ====
section
/-! DEFINITION. What the Lawell fixes among the implementation-chosen quantities (R1, R15), and the values the manual leaves open, as constants without a body. -/

namespace Sys2Proof.Config

open Sys2Proof

/-- The factory section of the module record (R410): trims, the factory spare map, Brynsen's firmware public key, the signature of Brynsen's module key. -/
structure Factory where
  trims : List Byte
  spareMap : List Byte
  fwKey : List Byte
  sig : List Byte
  deriving DecidableEq, Repr

/-- The field section of the module record (R407, R410): re-mapped channels by stack, repaired rows with their step, the SRAM rate of each die (0, 1, 2 for 100%, 87.5%, 75%), the die links at half width, the spare lanes that they use, the retired sites in order, each port's lanes (1 for the spare in use, 2 for a port left down), the lowest accepted firmware version, the signature of the identity key. Units are those of the journal (R408). -/
structure FieldSection where
  channels : List (Nat × Nat)
  rows : List (Nat × Nat × Nat)
  rates : List (Nat × Nat)
  halves : List Nat
  lanes : List (Nat × Nat)
  sites : List Nat
  ports : List (Nat × Nat)
  version : Nat
  sig : List Byte
  deriving DecidableEq, Repr

/-- Group width in lanes on the Lawell (R15, R65). -/
def gwidth : Nat := 128
/-- Slots of a partition's shape-record table on the Lawell (R120). -/
def shapeSlots : Nat := 65536
/-- Entries of a die's coherence object table (R251, R338). -/
def objEntries : Nat := 4096
/-- Records a release queue holds (R36). -/
def queueDepth : Nat := 16
/-- Entries a mask stack holds (R44). -/
def maskDepth : Nat := 16
/-- Entries of a core's tile queue (R261). -/
def tileQueueDepth : Nat := 8
/-- Copies of a core in flight (R242). -/
def copyLimit : Nat := 32
/-- Collectives of a team in flight (R279). -/
def collLimit : Nat := 4
/-- Rows of a rank's receive queue; the manual gives no number (R291, log 22). -/
def receiveRows : Nat := 64
/-- Bytes of a row of a receive queue (R291). -/
def receiveBytes : Nat := 512
/-- Walk contexts of a die with no vacant position (R329). -/
def walkContexts : Nat := 512
/-- Cycles after which a walk ends with a walker error (R330). -/
def walkLimit : Nat := 65536
/-- Cycles after which an unsatisfied semaphore wait releases its front end (R370). -/
def semaphoreLimit : Nat := 65536
/-- Bytes of HBM of one die (R323). -/
def hbmBytes : Nat := 0x1800000000
/-- Operand-buffer bytes of a core (R104). -/
def operandBytes : Nat := 262144
/-- The most scratchpad bytes of a core (R100). -/
def scratchMax : Nat := 1572864
/-- Accumulator-store slots of a core (R103). -/
def accSlots : Nat := 16384
/-- Work queues of a package (R368). -/
def queues : Nat := 32768
/-- Frames a first-touch pool holds (R336). -/
def poolFrames : Nat := 16384
/-- Core sites of a die (R8). -/
def sitesPerDie : Nat := 72
/-- Active core positions of a die (R8). -/
def positions : Nat := 64
/-- Spare core sites of a die (R8). -/
def spareSites : Nat := 8
/-- Units of 2^-8 ns in one nominal core cycle of 0.625 ns (R3). -/
def cycleTicks : Nat := 160

/-- FREE VALUE. What the manual leaves open and a run may see: the n-th such value, for the counter `fresh` of the state (log 20). -/
opaque freeWord : Nat → BitVec 64
/-- OPEN. What an offset of the host's register window on the slot tables names (R308), for which R367 gives no window: an entry of a core's table, or with no entry the order to copy of R316 (log 24). -/
opaque slotWindow : Nat → Option (Nat × Option Nat)
/-- OPEN. SHAKE256 over a byte string, to the given number of bytes (R385, R408, R411); the manual names the function and does not define it (log 13). -/
opaque shake256 : List (BitVec 8) → Nat → List (BitVec 8)
/-- OPEN. Ed448 verification, against a public key, of the signature of a byte string (R410, R411); the manual gives no key (log 13). -/
opaque ed448Verify (key bytes sig : List (BitVec 8)) : Bool
/-- OPEN. Brynsen's module key, which signs the factory section (R410, log 13). -/
opaque moduleKey : List (BitVec 8)
/-- OPEN. The bytes of a factory section that are signed (R410): the manual gives no layout (log 13). -/
opaque factoryBytes : Factory → List (BitVec 8)
/-- OPEN. The bytes of a field section that are signed (R410): the manual gives no layout (log 13). -/
opaque fieldBytes : FieldSection → List (BitVec 8)
/-- OPEN. Ed448 signature by the identity key over a byte string (R385, R409); the key rests on the PUF (log 13). -/
opaque ed448Sign : List (BitVec 8) → List (BitVec 8)

end Sys2Proof.Config
end

