-- ==== Sys2Proof/Machine/State.lean ====
section
/-! DEFINITION. The state of one package, everything the manual gives it (R49 to R69 and the chapters of Book Two), as plain data; the reasons a step can stop; the state at cold start. -/

namespace Sys2Proof.Machine

open Sys2Proof

/-- A long accumulator as held (R86, R91): ten digits, ten carries, the four status bits and low. -/
structure LA where
  d : List (BitVec 64)
  c : List Int
  n : Bool
  p : Bool
  m : Bool
  x : Bool
  low : BitVec 32
  deriving DecidableEq, Repr

/-- A fault record (R344); for class 0 `aux` and `addr` hold the offending word. -/
structure FaultRec where
  cls : Nat
  cause : Nat
  access : Byte
  lane : Byte
  aux : LWord
  addr : Word
  deriving DecidableEq, Repr

/-- A record of the release queue (R36): a run with its remaining count and its captured s1 to s15, or a jump. -/
inductive RqRec where
  | run (count : Nat) (cap : List Word)
  | jump (target : Word)
  deriving DecidableEq, Repr

/-- The registers of a group (R50 to R61); an unlisted one holds its starting value. -/
structure Regs where
  s : Tab Word
  v : Tab LaneVec
  m : Tab PredVec
  q : Tab (List LA)
  t : Tab TileDesc
  deriving DecidableEq, Repr

/-- Parked lanes (R45, R47, R48): fmask and the replay point; the release queue as it stood there, with what was appended since; the issues from the replay point to the stop point; while the lanes are replayed, the stop point and the replayed issues so far; the lane records. `first` gives a lane that faulted later in the region the index of its own issue (log 7); `drop` gives a lane parked at a store the nibbles of its access that a higher lane of that issue has written (R234). -/
structure Park where
  fmask : Mask
  lpc : Word
  rep : Nat
  full : List RqRec
  units : Nat
  replaying : Bool
  index : Nat
  stopLpc : Word
  stopRep : Nat
  stopRq : List RqRec
  first : Tab Nat
  drop : Tab (List Nat)
  recs : Tab FaultRec
  deriving DecidableEq, Repr

/-- The lane stream of a group (R35 to R48): LPC and repeat index, lane section base (R189), masks, mask stack, release queue, parked lanes, whether a fault, a save or a kill has stopped it, the lanes whose writes an instruction had suppressed and that are not reported yet, each with its lowest suppressed byte (R237). -/
structure LaneCtx where
  lpc : Word
  rep : Nat
  base : Word
  mask : Mask
  start : Mask
  stack : List Mask
  rq : List RqRec
  park : Park
  stopped : Bool
  clob : Tab Word
  deriving DecidableEq, Repr

/-- Counters (R62, R63): each completion counter as its outstanding operations in issue order, each with whether it has completed (R193); the outstanding counters; lane accesses performed and not yet counted down. -/
structure Counters where
  k : Tab (List (Nat × Bool))
  loads : Nat
  stores : Nat
  copies : Nat
  tiles : Nat
  loadsDue : Nat
  storesDue : Nat
  deriving DecidableEq, Repr

/-- What a scalar access asks of its home (R180 to R184). -/
inductive AccKind where
  | load (d : SReg) (k : BitVec 3)
  | loadRo (d : SReg) (k : BitVec 3)
  | store (data : Word)
  | atomic (op : Nat) (wide : Bool) (d : SReg) (x y : Word)
  deriving DecidableEq, Repr

/-- A home's reply to a scalar access (R175). -/
inductive Reply where
  | value (raw : Word)
  | clobber (addr : Word)
  | trap (r : FaultRec)
  deriving DecidableEq, Repr

/-- A scalar access sent and not yet retired (R175). A `.ro` load keeps memory as it was at its issue (R106, log 9). -/
structure ScalarAcc where
  kind : AccKind
  addr : Word
  size : Nat
  reply : Option Reply
  snap : Option (List Host.Cell)
  deriving DecidableEq, Repr

/-- What the accesses of a lane memory instruction do at their home (R233 to R240, R260). -/
inductive LaneKind where
  | load (sg : Bool)
  | store
  | atomic (op : Nat)
  | qadd (t : TCode)
  | qmerge
  | spill (norm : Bool)
  | fill
  deriving DecidableEq, Repr

/-- One issue of a lane memory instruction: repeat field, space, `.ro`, `.acq`, bits of a lane's access, registers loaded and read, each lane's byte address and whether it takes the high nibble, the nibbles that each lane leaves to a higher one (R230 to R234). -/
structure LaneMem where
  kind : LaneKind
  n : Nat
  sp : Bool
  ro : Bool
  acq : Bool
  bits : Nat
  dst : List Nat
  src : List Nat
  addrs : List (Word × Bool)
  drop : Tab (List Nat)
  deriving DecidableEq, Repr

/-- The lane accesses of one issue that their homes have not all served (R230 to R241): the issue, its executing lanes, those still to serve, the faults and suppressed writes met so far, the memory written (for R359), the time of issue, the lane whose data returned last (R400); for `.ro` memory as it was at the issue (R106). -/
structure LaneAcc where
  op : LaneMem
  exec : Mask
  left : Mask
  faults : Tab FaultRec
  clobbers : Tab Word
  wrote : List (Nat × Nat)
  time : Nat
  last : Nat
  snap : Option (List Host.Cell)
  deriving DecidableEq, Repr

/-- Where a tile instruction stands (R261 to R265). -/
inductive TilePhase where
  | waiting
  | queued
  | running
  | abandoned
  deriving DecidableEq, Repr

/-- The tile instructions (R263). -/
inductive TileIns where
  | tmma (x : MulArgs) | tcsum (x : MulArgs) | tconv (x : MulArgs) | tasum (x : MoveArgs) | tzero (x : MoveArgs)
  | tload (x : MoveArgs) | tstore (x : MoveArgs) | tepi (x : EpiArgs) | tstage (x : MoveArgs) | tres (x : ResArgs)
  | trel (n : BitVec 4)
  deriving DecidableEq, Repr

/-- A tile instruction entered or waiting for entry (R261): captured tile registers and scalars, whether its counters are raised and the operation by which they fall, since when it waits, the tiles that its turn produced with their slots for the commit, the suppressed write that it has to report, the shape record that its handle named at its issue (R120). -/
structure TileOp where
  ins : TileIns
  tc : TileDesc
  ta : TileDesc
  ts : TileDesc
  x : Word
  y : Word
  phase : TilePhase
  raised : Bool
  op : Nat
  since : Nat
  swaps : List (Nat × List LA)
  clobber : Option FaultRec
  shape : Option (List Byte)
  deriving DecidableEq, Repr

/-- A booth request between its issue and its retirement (R247, R249): owner team, header, source bytes, row reserved, whether its booth was removed while it was parked. `lane` tells vbput. -/
structure BoothOp where
  owner : Nat
  header : Nat
  source : List Byte
  dst : Nat
  wait : Bool
  lane : Bool
  row : Option (Nat × Nat)
  gone : Bool
  deriving DecidableEq, Repr

/-- Operations of a group in progress: a waiting scalar instruction (R175), a scalar access, a lane access, a tile instruction, a booth request, whether a waiting `yieldc` has parked (R198), or a waiting `sslotx`, `bdecl` or `pmap` has made its request (R246, R316, R337). -/
structure InFlight where
  waiting : Option Instr
  scalar : Option ScalarAcc
  lane : Option LaneAcc
  tile : Option TileOp
  booth : Option BoothOp
  yielded : Bool
  deriving DecidableEq, Repr

/-- A poisoned unit of a group (R359): kind as in R344 (0 scalar, 1 lane, 2 predicate, 3 long accumulator, 4 tile), register and lane. -/
structure PoisonUnit where
  kind : Nat
  reg : Nat
  lane : Nat
  deriving DecidableEq, Repr

/-- The trap frame (R346): the interrupted context, the handler mask, v0 to v3 of its lanes, its tile instruction, which runs on if it was in flight (R347), the poison of the framed registers (R359). -/
structure Frame where
  spc : Word
  lane : LaneCtx
  level : BitVec 2
  hmask : Mask
  s56 : List Word
  v0 : List LaneVec
  tile : Option TileOp
  poison : List PoisonUnit
  deriving DecidableEq, Repr

/-- Pending group records (R345, R357): one of the group's own streams, one of its tile instruction; `order` keeps the order of report with the codes of offset 0x0EA0. -/
structure Pending where
  stream : Option FaultRec
  tile : Option FaultRec
  order : List Nat
  deriving DecidableEq, Repr

/-- A sampled issue that some lane has not completed (R400): LPC, repeat index, time of issue, number of executing lanes, those not complete, 32-byte sectors touched, replays, last lane that returned data, flags. -/
structure Sample where
  lpc : Word
  rep : Nat
  time : Nat
  lanes : Nat
  left : Mask
  sectors : List Nat
  replays : Nat
  last : Nat
  flags : Nat
  deriving DecidableEq, Repr

/-- Trace state of a group (R65, R397, R398, R400): trace bit, a change to take at the next retirement, sampling setting and count, sampled issues not complete, pending branch map bits and the time of the last, branches since the last sync, the stamp of the last record (R396), the time at which the bit last went on (R399). -/
structure TraceCtx where
  bit : Bool
  next : Option Bool
  every : Nat
  count : Nat
  samples : List Sample
  map : List Bool
  mapTime : Nat
  branches : Nat
  stamp : Nat
  since : Nat
  deriving DecidableEq, Repr

/-- A group (R67). `live` is false for an id that no group has. -/
structure Group where
  live : Bool
  team : Nat
  no : Nat
  phys : Nat
  r : Regs
  spc : Word
  lane : LaneCtx
  cnt : Counters
  level : BitVec 2
  handler : Option Frame
  pend : Pending
  fly : InFlight
  trace : TraceCtx
  poison : List PoisonUnit
  age : Nat × Nat
  deriving DecidableEq, Repr

/-- A bulk copy in flight (R117, R118, R243, R244): the issuing group, the record's offset and bytes, the bytes written or suppressed and counted, whether it is suspended at a page fault and the record of that until it is delivered, the first fault whose bytes it suppressed, whether that is reported, whether the handler that runs has issued it (R347). -/
structure Copy where
  group : Nat
  off : Nat
  req : List Byte
  ops : List (Nat × Nat)
  done : Nat
  suspended : Bool
  susp : Option FaultRec
  record : Option FaultRec
  reported : Bool
  hand : Bool
  deriving DecidableEq, Repr

/-- A team (R68). The scratchpad's tags are those of R358 for each 16-byte granule. -/
structure Team where
  live : Bool
  launch : Nat
  no : Nat
  core : Nat
  cluster : Nat
  index : Nat
  groups : List Nat
  scratch : Tab Byte
  tags : Tab Nat
  filling : List (Nat × Nat)
  parked : List (Nat × Nat)
  acc : Tab LA
  shadow : Tab LA
  recs : Tab (Word × Word)
  obuf : Tab Byte
  copies : Tab (Option Copy)
  seq : Tab Nat
  preq : Bool
  pdead : Nat
  poison : List Nat
  deriving DecidableEq, Repr

/-- One rank of a collective (R279, R284): its team, function, operands and descriptors, whether its object was armed and in which phase, the destination bytes it gets, the bytes written, the page fault at which its step is suspended, its fault record, the groups still to be told of either, those that issued it in their handler (R347), whether its record waits for its barrier phase (R288), whether its part has ended. -/
structure CollRank where
  team : Nat
  fn : Nat
  a : Word
  b : Word
  src : TileDesc
  dst : TileDesc
  armed : Bool
  phase : Nat
  bytes : Nat
  written : Nat
  susp : Option FaultRec
  record : Option FaultRec
  toTell : List Nat
  hand : List Nat
  late : Bool
  done : Bool
  deriving DecidableEq, Repr

/-- A row of a receive queue (R291): receiving rank, its tags (the sender's rank and the row's number within the sender's block), the place that they fix in the destination, its bytes. -/
structure RecvRow where
  dst : Nat
  src : Nat
  seq : Nat
  place : Nat
  bytes : List Byte
  deriving DecidableEq, Repr

/-- A collective (R278 to R293): its launch, scope and sequence number, ranks, the step reached, the results being written, its outcome once decided, the rows reserved in the ranks' receive queues and those that wait for one (R291). -/
structure Coll where
  launch : Nat
  level : Nat
  node : Nat
  seq : Nat
  ranks : Tab (Option CollRank)
  size : Nat
  step : Nat
  sums : Tab LA
  best : Tab Word
  writing : Bool
  suspended : Bool
  outcome : Option Nat
  low : BitVec 32
  queue : List RecvRow
  senders : List RecvRow
  deriving DecidableEq, Repr

/-- A node barrier (R197): phase and arrived groups by team number and group number. -/
structure NodeBar where
  phase : BitVec 16
  arrived : List (Nat × Nat)
  deriving DecidableEq, Repr

/-- One declared level (R17): fan-out, binding, name. -/
structure Level where
  fan : Nat
  bind : Nat
  name : List Byte
  deriving DecidableEq, Repr

/-- A launch descriptor (R374). -/
structure Desc where
  id : BitVec 32
  h : Nat
  asn : BitVec 8
  v : Nat
  q : Nat
  t : Nat
  s : Nat
  mask : BitVec 64
  spc : Word
  lpc : Word
  stackBase : Word
  stackSize : Nat
  timeout : Nat
  save : Word
  completion : Word
  args : List Word
  levels : List Level
  deriving DecidableEq, Repr

/-- How a launch stands (R374 to R379); `refused` is a launch of another chip that this one has refused and of which it awaits the end (R376). -/
inductive LaunchPhase where
  | joining
  | joined
  | refused
  | running
  | ending
  deriving DecidableEq, Repr

/-- A saved team (R353 to R358): its name, its own record and those of its groups, of which a restore takes only what the save area does not hold (log 7). -/
structure SavedTeam where
  name : Nat
  t : Team
  groups : List (Nat × Group)
  deriving DecidableEq, Repr

/-- A node of level H that is being saved or is saved (R353, R355). -/
structure SavedNode where
  node : Nat
  teams : List SavedTeam
  complete : Bool
  deriving DecidableEq, Repr

/-- The end of a launch (R377): status, cause, code, chip, team and group of the completion record. -/
structure EndInfo where
  status : Nat
  cause : Nat
  code : Nat
  chip : Nat
  team : Nat
  group : Nat
  deriving DecidableEq, Repr

/-- A launch (R374 to R379): descriptor, partition, level, the queue that submitted it (none for one submitted by another chip), placement progress, node barriers, saved nodes, a request to yield, the nodes of which other chips have said that their teams have yielded, those of which this one has (R320, R352), the trace setting, join replies, its end and when that was (R377). -/
structure Launch where
  live : Bool
  d : Desc
  part : Nat
  priv : BitVec 2
  chip : Nat
  gen : Nat
  queue : Option Nat
  irq : Bool
  phase : LaunchPhase
  started : List Nat
  ended : List Nat
  bars : Tab NodeBar
  saved : List SavedNode
  request : Option Nat
  yields : List (Nat × Nat)
  told : List Nat
  trace : Bool
  replies : List (Nat × Bool × Nat × Nat)
  acks : List Nat
  since : Nat
  fin : Option EndInfo
  ends : Nat
  deriving DecidableEq, Repr

/-- A copy of a front end (R371, R372), with the head of its packet (R373). -/
structure QCopy where
  src : Word
  dst : Word
  count : Nat
  done : Nat
  failed : Bool
  pos : Nat
  deriving DecidableEq, Repr

/-- A work queue's registers (R369) and its stream's progress (R370, R372). -/
structure Queue where
  base : Word
  lsize : Nat
  asn : BitVec 8
  priv : BitVec 2
  vec : BitVec 6
  en : Bool
  tail : Nat
  head : Nat
  err : Nat
  wait : Bool
  halt : Bool
  bound : Option Nat
  jump : Option (Word × Nat × Nat)
  launches : List Nat
  copy : Option QCopy
  waitStart : Nat
  released : Bool
  order : Nat
  deriving DecidableEq, Repr

/-- A TLB entry (R322): partition, asn, page (bits [53:16] of the offset), leaf, level. -/
structure TlbEntry where
  part : Nat
  asn : BitVec 8
  page : Nat
  leaf : Word
  level : Nat
  deriving DecidableEq, Repr

/-- A walk (R329, R330): what it translates, its request word's reason and access bits, waiting agents, whether it runs, its registers, SPC and cycles, the entry and length it started with (R331), its context: core and number among the core's eight (R329, R393). -/
structure Walk where
  die : Nat
  va : Word
  part : Nat
  asn : BitVec 8
  reason : Nat
  acc : BitVec 3
  running : Bool
  s : Tab Word
  spc : Word
  cycles : Nat
  entry : Word
  words : Nat
  ctx : Nat
  deriving DecidableEq, Repr

/-- A coherence object (R251, R338): allocation, generation, extent, element format (R140), mode, change in progress with the group and counter operation to complete, partitions, recorded sharers. -/
structure CObj where
  alloc : Bool
  gen : BitVec 12
  base : Word
  bytes : Nat
  fmt : Nat
  mode : BitVec 2
  changes : List (BitVec 2 × Nat × Nat × Nat)
  part : Nat
  dual : Option Nat
  sharers : List Nat
  deriving DecidableEq, Repr

/-- A carve-out change in progress (R342): ways given or taken, whether they are added, the group and counter operation to complete. -/
structure Carve where
  ways : List Nat
  add : Bool
  part : Nat
  group : Nat
  counter : Nat
  op : Nat
  deriving DecidableEq, Repr

/-- A die: clock (R3, R405), cycles begun, the part in 1/1600 of the next one that has passed, whether a cycle begins with this step; roots (R328), walker entry (R331), TLB, walks, first-touch pools (R336), objects (R338), carve-out ways (R342). -/
structure Die where
  mhz : Nat
  stopped : Bool
  cycles : Nat
  phase : Nat
  edge : Bool
  roots : Tab Word
  wentry : Word
  wlen : Nat
  tlb : List TlbEntry
  pools : Tab (List Nat)
  objs : Tab CObj
  ways : Tab (Option Nat)
  carve : Option Carve
  deriving DecidableEq, Repr

/-- A shape-record slot (R120). -/
structure ShapeSlot where
  alloc : Bool
  gen : BitVec 12
  bytes : List Byte
  deriving DecidableEq, Repr

/-- A Carillon record before encoding (R395): type, subtype, source, time in 2^-8 ns, body; whether its emitter waits while it does not fit (R403). -/
structure TraceRec where
  typ : Nat
  sub : Nat
  src : Nat
  time : Nat
  body : List Byte
  hold : Bool
  deriving DecidableEq, Repr

/-- A sink (R391, R392, R396, R402, R403): stamps of the last record and of the last of the time unit's, records and time since the last time-base record, lost count, records waiting to be written, forward step to report, whether the step under way emitted a record that back-pressure holds. -/
structure Sink where
  last : Nat
  unit : Nat
  count : Nat
  base : Nat
  fresh : Bool
  lost : Nat
  held : List TraceRec
  stepped : Bool
  full : Bool
  deriving DecidableEq, Repr

/-- A core (R106, R314 to R319, R407): slot tables, pending shadow copy, donate bits in force, tile queue in entry order, whether its position is vacant, the `.ro` lines that its L1 holds by launch and line, the lines that prefetches still ask for: launch, address, whether for the L1 (R241). -/
structure Core where
  live : Tab (BitVec 20)
  shadow : Tab (BitVec 20)
  copy : Bool
  donate : Tab Bool
  queue : List Nat
  vacant : Bool
  ro : List (Nat × Nat)
  want : List (Nat × Word × Bool)
  deriving DecidableEq, Repr

/-- States of a TDISP interface (R384). -/
inductive Tdisp where
  | configUnlocked
  | configLocked
  | run
  | error
  deriving DecidableEq, Repr

/-- A journal entry (R408). -/
structure Journal where
  seq : Nat
  step : Nat
  outcome : Nat
  unit : Nat
  detail : Nat
  time : Nat
  torn : Bool
  deriving DecidableEq, Repr

/-- The boot controller (R406 to R411): registers, the step it takes next, journal, module record and certificates of its flash, the firmware in use, whether the identity key has been rebuilt (R409), the power. -/
structure Boot where
  attempt : Nat
  step : Nat
  outcome : Nat
  phase : Nat
  next : Nat
  fwbase : Word
  fwlen : Nat
  journal : List Journal
  factory : Config.Factory
  field : Option Config.FieldSection
  cert : List Byte
  firmware : List Byte
  keyed : Bool
  power : Bool
  deriving DecidableEq, Repr

/-- Pod registers and links (R14, R382, R383): each port's lanes, and when a chip ceased to be within reach (R375). -/
structure Pod where
  dup : Bool
  en : Bool
  chip : BitVec 6
  peers : BitVec 64
  ports : Tab Nat
  gone : Tab Nat
  deriving DecidableEq, Repr

/-- Locked, holdover or free-running time (R389). -/
inductive TimeLock where
  | locked
  | holdover
  | freeRunning
  deriving DecidableEq, Repr

/-- Package time (R389): nanoseconds with an 8-bit fraction, the state of lock, an offset still to be slewed away in 2^-8 ns, when the input was lost, whether the input is there and outside its tolerance. -/
structure Time where
  now : Nat
  lock : TimeLock
  slew : Int
  lost : Nat
  outside : Bool
  deriving DecidableEq, Repr

/-- A message sent to another chip (R29, R375, R382, R383). -/
inductive Msg where
  | join (chip gen part priv : Nat) (desc : List Byte)
  | reply (chip gen : Nat) (ok : Bool) (status cause : Nat)
  | downbeat (chip gen : Nat)
  | abort (chip gen status cause about : Nat)
  | started (chip gen : Nat)
  | kill (chip part id : Nat) (e : EndInfo)
  | announce (chip : Nat)
  | answer (chip : Nat) (va : Word) (bs : List Byte) (fault : Option (Nat × Nat))
  | preempt (chip part id : Nat) (m : FarPreempt)
  deriving DecidableEq, Repr

/-- A commute-mode partial sum (R140): owning die, object entry, slot's flat address, core, value. -/
structure Partial where
  die : Nat
  obj : Nat
  slot : Nat
  core : Nat
  la : LA
  deriving DecidableEq, Repr

/-- What the package has sent to the outside: interrupts (R386), messages (R375), SPDM answers (R385), host read data (R380), how many accesses were answered as unsupported requests (R406). -/
structure Outputs where
  interrupts : List (Nat × Nat)
  messages : List Msg
  spdm : List (List Byte)
  host : List (List Byte × Bool)
  unsupported : Nat
  deriving DecidableEq, Repr

/-- Whose instruction `exec` runs: a group's, a walk's, or neither (an event). -/
inductive Cur where
  | none
  | group (g : Nat)
  | walk (w : Nat)
  deriving DecidableEq, Repr

/-- One step of the schedule: a group's scalar or lane stream, a walk, an event of the table, or a cycle in which nothing happens (log 3). -/
inductive Turn where
  | scalar (g : Nat)
  | lane (g : Nat)
  | walk (w : Nat)
  | event (i : Instr)
  | idle
  deriving DecidableEq, Repr

/-- A request that waits for a walk, with the rights it needs and the time at which it was sent (R322, R382). -/
structure Waiter where
  walk : Nat
  agent : Agent
  acc : BitVec 3
  since : Nat
  deriving DecidableEq, Repr

/-- The tables of running work: groups, teams, launches, collectives, walks, each by a name of the model; faults and waits of requests; requests of other chips under way here (R382); the next free name. -/
structure Work where
  groups : Tab Group
  teams : Tab Team
  launches : Tab Launch
  colls : Tab (Option Coll)
  walks : Tab (Option Walk)
  faults : List (Agent × Nat × Nat × Nat)
  waits : List Waiter
  remote : Tab (Option RemoteReq)
  next : Nat
  deriving DecidableEq, Repr

/-- The state of the machine. `cur` and `agenda` are the model's own (logs 3 and 21), and so is `fresh`, the counter of the free values (log 20); `order` counts doorbells (R370), `gen` is the last generation of a launch (R375). -/
structure State where
  cur : Cur
  agenda : List Turn
  fresh : Nat
  work : Work
  mem : List Host.Cell
  bad : List Nat
  parts : List Partial
  dies : Tab Die
  cores : Tab Core
  regs : Tab Word
  shapes : Tab ShapeSlot
  sinks : Tab Sink
  queues : Tab Queue
  tdisp : Tab Tdisp
  resets : Tab Nat
  locks : Tab (List Byte)
  boot : Boot
  pod : Pod
  time : Time
  out : Outputs
  order : Nat
  gen : Nat
  deriving DecidableEq, Repr

/-- The model's own stops. -/
inductive Fault where
  /-- An access of the host over CXL.mem to an offset at which R380 and R323 give no storage; raised by `hostMemAccess` alone. Safe: the machine stops where the manual gives no effect. -/
  | noStorage (offset : Nat)
  deriving DecidableEq, Repr

/-- The model's own refusals. -/
inductive Refusal where
  /-- An instruction whose meaning is not written; raised by the arms of `exec` alone. Safe: nothing is proved of a step that is refused. -/
  | notModelled (mnemonic : String)
  deriving DecidableEq, Repr

/-- A long accumulator of value zero in normal form, with status 0 and low 0xFFFF_FFFF (R57, R103). -/
def LA.zero : LA := ⟨List.replicate 10 0, List.replicate 10 0, false, false, false, false, 0xFFFFFFFF⟩

/-- A group's registers at its start, but for s1 to s8 and s62 (R49). -/
def Regs.blank : Regs := ⟨[], [], [], [], []⟩
/-- No lane is parked. -/
def Park.none : Park := ⟨0, 0, 0, [], 0, false, 0, 0, 0, [], [], [], []⟩
/-- A lane stream before its code is named. -/
def LaneCtx.blank : LaneCtx := ⟨0, 0, 0, 0, 0, [], [], Park.none, false, []⟩
/-- Counters at group start (R62, R63). -/
def Counters.zero : Counters := ⟨[], 0, 0, 0, 0, 0, 0⟩
/-- No record is pending. -/
def Pending.none : Pending := ⟨Option.none, Option.none, []⟩
/-- Nothing is in progress. -/
def InFlight.none : InFlight := ⟨Option.none, Option.none, Option.none, Option.none, Option.none, false⟩
/-- Tracing and sampling off (R201). -/
def TraceCtx.off : TraceCtx := ⟨false, none, 0, 0, [], [], 0, 0, 0, 0⟩
/-- No group. -/
def Group.blank : Group :=
  ⟨false, 0, 0, 0, Regs.blank, 0, LaneCtx.blank, Counters.zero, 0, none, Pending.none, InFlight.none, TraceCtx.off, [], (0, 0)⟩
/-- No team. -/
def Team.blank : Team :=
  ⟨false, 0, 0, 0, 0, 0, [], [], [], [], [], [], [], [], [], [], [], false, 0, []⟩
/-- A descriptor of zeros. -/
def Desc.blank : Desc := ⟨0, 0, 0, 0, 0, 0, 0, 0, 0, 0, 0, 0, 0, 0, 0, [], []⟩
/-- No launch. -/
def Launch.blank : Launch :=
  ⟨false, Desc.blank, 0, 0, 0, 0, none, false, .joining, [], [], [], [], none, [], [], false, [], [], 0, none, 0⟩
/-- A queue at reset (R369): every field 0 but lsize 12. -/
def Queue.blank : Queue :=
  ⟨0, 12, 0, 0, 0, false, 0, 0, 0, false, false, none, none, [], none, 0, false, 0⟩
/-- No object; the generation at cold start is the model's choice (log 15). -/
def CObj.blank : CObj := ⟨false, 0, 0, 0, 0, 0, [], 0, none, []⟩
/-- A die at cold start (log 15 for the clock, the roots and the pools). -/
def Die.blank : Die := ⟨1600, false, 0, 0, true, [], 0, 0, [], [], [], [], none⟩
/-- A free shape slot (log 15). -/
def ShapeSlot.blank : ShapeSlot := ⟨false, 0, []⟩
/-- A sink that has written nothing. -/
def Sink.blank : Sink := ⟨0, 0, 0, 0, false, 0, [], false, false⟩
/-- A core at cold start: every slot-table entry 0x8_4210 (R317), which is the default of its tables. -/
def Core.blank : Core := ⟨[], [], false, [], [], false, [], []⟩
/-- A slot-table entry at cold start: valid, partition 0, in all four quarters (R317). -/
def slotReset : BitVec 20 := 0x84210
/-- The boot controller at cold start (R406); flash empty, its sections without content (log 15). -/
def Boot.cold : Boot := ⟨1, 1, 0, 0, 1, 0, 0, [], ⟨[], [], [], []⟩, none, [], [], false, true⟩
/-- A field section that records nothing. -/
def emptyField : Config.FieldSection := ⟨[], [], [], [], [], [], [], 0, []⟩
/-- The pod registers at cold start (R383); every port up (log 15). -/
def Pod.cold : Pod := ⟨false, false, 0, 0, [], []⟩
/-- The time unit at cold start: time 0, never locked (log 15). -/
def Time.cold : Time := ⟨0, .freeRunning, 0, 0, false⟩

/-- The machine at cold start: no work, every register at its reset value (R6), memory with nothing listed. -/
def State.reset : State :=
  { cur := .none, agenda := [], fresh := 0, work := ⟨[], [], [], [], [], [], [], [], 1⟩, mem := [], bad := [], parts := [],
    dies := [], cores := [], regs := [], shapes := [], sinks := [], queues := [], tdisp := [], resets := [], locks := [],
    boot := Boot.cold, pod := Pod.cold, time := Time.cold, out := ⟨[], [], [], [], 0⟩, order := 0, gen := 0 }

end Sys2Proof.Machine
end

