-- ==== Sys2Proof/Machine/Store.lean ====
section
/-! DEFINITION. Tables by a natural key and byte memory, each in one canonical form, with their reads and writes (R4, R95), and little-endian words. -/

namespace Sys2Proof.Machine

open Sys2Proof

/-- The value at a key; the default where the key is not listed. -/
def tget {α : Type} (d : α) : Tab α → Nat → α
  | [], _ => d
  | (k', v) :: r, k => if k = k' then v else tget d r k

/-- A table without a key. -/
def tdel {α : Type} (t : Tab α) (k : Nat) : Tab α := t.filter fun e => e.1 ≠ k

/-- A pair put before the first greater key. -/
def tins {α : Type} (k : Nat) (v : α) : Tab α → Tab α
  | [] => [(k, v)]
  | e :: r => if k < e.1 then (k, v) :: e :: r else e :: tins k v r

/-- The table with a value at a key; writing the default removes the entry. -/
def tput {α : Type} [DecidableEq α] (d : α) (t : Tab α) (k : Nat) (v : α) : Tab α :=
  if v = d then tdel t k else tins k v (tdel t k)

/-- Keys rise strictly, and all lie above a bound. -/
def risesFrom {α : Type} : Nat → Tab α → Bool
  | _, [] => true
  | b, e :: r => decide (b ≤ e.1) && risesFrom (e.1 + 1) r

/-- The canonical form of a table: keys rise strictly and no entry equals the default. -/
def tableWf {α : Type} [DecidableEq α] (d : α) (t : Tab α) : Bool := risesFrom 0 t && t.all fun e => e.2 ≠ d

/-- One byte of memory; a byte that nothing has written reads 0 (log 4). -/
def mbyte (m : List Host.Cell) (a : Nat) : Byte := tget 0 m a

/-- The cells of a run of bytes, zero bytes left out. -/
def cells : Nat → List Byte → List Host.Cell
  | _, [] => []
  | a, b :: r => if b = 0 then cells (a + 1) r else (a, b) :: cells (a + 1) r

/-- Memory with a run of bytes written at an address. -/
def mwrite (m : List Host.Cell) (a : Nat) (bs : List Byte) : List Host.Cell :=
  m.filter (fun e => e.1 < a) ++ cells a bs ++ m.filter fun e => a + bs.length ≤ e.1

/-- Memory with a run of n bytes cleared. -/
def mclear (m : List Host.Cell) (a n : Nat) : List Host.Cell :=
  m.filter (fun e => e.1 < a) ++ m.filter fun e => a + n ≤ e.1

/-- The n bytes from an address. -/
def mread (m : List Host.Cell) (a n : Nat) : List Byte :=
  let w := m.filter fun e => a ≤ e.1 && e.1 < a + n
  (List.range n).map fun i => mbyte w (a + i)

/-- The canonical form of memory: addresses rise strictly, and no entry equals what an unlisted address reads as. -/
def Memory.wf (m : List Host.Cell) : Bool := tableWf (0 : Byte) m

/-- The low n bytes of a number, least significant first (R4). -/
def leBytes : Nat → Nat → List Byte
  | 0, _ => []
  | n + 1, v => BitVec.ofNat 8 v :: leBytes n (v / 256)

/-- The number that bytes hold, least significant first (R4). -/
def ofLe : List Byte → Nat
  | [] => 0
  | b :: r => b.toNat + 256 * ofLe r

/-- A field of n bytes at an offset of a byte string. -/
def fieldAt (bs : List Byte) (off n : Nat) : Nat := ofLe ((bs.drop off).take n)

/-- Whether the n bytes at an offset are all zero. -/
def zeroAt (bs : List Byte) (off n : Nat) : Bool := ((bs.drop off).take n).all (· == 0)

/-- A byte string with some bytes replaced at an offset. -/
def putBytes (bs : List Byte) (off : Nat) (new : List Byte) : List Byte :=
  bs.take off ++ new ++ bs.drop (off + new.length)

/-- Base of a die's physical space in the flat key of memory: a die of the rack, by chip × 4 + die (R323). -/
def dieBase (gdie : Nat) : Nat := gdie * 2 ^ 52
/-- Base of a chip's host memory behind its window (R98). -/
def hostBase (chip : Nat) : Nat := (256 + chip) * 2 ^ 52

/-- Field [hi:lo] of a word, as a number. -/
def bits {w : Nat} (x : BitVec w) (hi lo : Nat) : Nat := x.toNat / 2 ^ lo % 2 ^ (hi + 1 - lo)

/-- The low n bits of a number read as a two's-complement integer. -/
def sext (n v : Nat) : Int := if v % 2 ^ n < 2 ^ (n - 1) then (v % 2 ^ n : Nat) else (v % 2 ^ n : Nat) - (2 ^ n : Nat)

/-- Replace the element at an index of a list. -/
def setAt {α : Type} (l : List α) (i : Nat) (x : α) : List α := l.set i x

/-- The lanes of a mask, ascending. -/
def lanesOf (m : Mask) : List Nat := (List.range 128).filter fun i => m.getLsbD i

/-- The mask whose bit i is f i. -/
def maskOf (f : Nat → Bool) : Mask := BitVec.ofBoolListLE ((List.range 128).map f) |>.setWidth 128

/-- Number of lanes in a mask. -/
def maskCount (m : Mask) : Nat := (lanesOf m).length

end Sys2Proof.Machine
end

