-- ==== Sys2Proof/Machine/Float.lean ====
section
/-! DEFINITION. Exact values, the floating-point formats, rounding and conversion (R70 to R83), and the arithmetic rules of R205 and R210 to R212. -/

namespace Sys2Proof.Machine

open Sys2Proof

/-- A floating-point format (R72): precision, exponent of the smallest normal, bits; largest finite, infinity (none in E4M3) and canonical NaN as encodings without sign. -/
structure Fmt where
  p : Nat
  emin : Int
  width : Nat
  maxFin : Nat
  inf : Option Nat
  nan : Nat
  deriving DecidableEq, Repr

/-- FP64 (R72). -/
def f64 : Fmt := ⟨53, -1022, 64, 0x7FEFFFFFFFFFFFFF, some 0x7FF0000000000000, 0x7FF8000000000000⟩
/-- FP32 (R72). -/
def f32 : Fmt := ⟨24, -126, 32, 0x7F7FFFFF, some 0x7F800000, 0x7FC00000⟩
/-- FP16 (R72). -/
def f16 : Fmt := ⟨11, -14, 16, 0x7BFF, some 0x7C00, 0x7E00⟩
/-- BF16 (R72). -/
def bf16 : Fmt := ⟨8, -126, 16, 0x7F7F, some 0x7F80, 0x7FC0⟩
/-- FP8 E4M3 (R72, R73). -/
def e4m3 : Fmt := ⟨4, -6, 8, 0x7E, none, 0x7F⟩
/-- FP8 E5M2 (R72). -/
def e5m2 : Fmt := ⟨3, -14, 8, 0x7B, some 0x7C, 0x7E⟩

/-- An exact value: NaN, an infinity, or (-1)^neg × num × 2^exp; a zero keeps its sign. -/
inductive FVal where
  | nan
  | inf (neg : Bool)
  | fin (neg : Bool) (num : Nat) (exp : Int)
  deriving DecidableEq, Repr

/-- 2 to an integer power that is not negative; 1 for a negative one. -/
def pow2 (e : Int) : Nat := 2 ^ e.toNat

/-- The sign bit of an encoding. -/
def signOf (f : Fmt) (b : Nat) : Bool := b / 2 ^ (f.width - 1) % 2 == 1
/-- An encoding without its sign. -/
def magOf (f : Fmt) (b : Nat) : Nat := b % 2 ^ (f.width - 1)
/-- The value an encoding denotes (R73). -/
def decodeF (f : Fmt) (b : Nat) : FVal :=
  let s := signOf f b
  let m := magOf f b
  if some m = f.inf then .inf s
  else if f.maxFin < m then .nan
  else
    let e := m / 2 ^ (f.p - 1)
    let frac := m % 2 ^ (f.p - 1)
    if e = 0 then .fin s frac (f.emin - f.p + 1)
    else .fin s (2 ^ (f.p - 1) + frac) (f.emin - f.p + e)

/-- A sign put before a magnitude encoding. -/
def withSign (f : Fmt) (neg : Bool) (m : Nat) : Nat := if neg then 2 ^ (f.width - 1) + m else m

/-- num / 2^s rounded to an integer magnitude, for a value of the given sign (R74, R75 round_int). -/
def roundShift (neg : Bool) (mode : Nat) (num s : Nat) : Nat :=
  let q := num / 2 ^ s
  let r := num % 2 ^ s
  match mode with
  | 0 => if 2 ^ s < 2 * r ∨ (2 ^ s = 2 * r ∧ q % 2 = 1) then q + 1 else q
  | 1 => q
  | 2 => if r ≠ 0 ∧ neg = false then q + 1 else q
  | _ => if r ≠ 0 ∧ neg = true then q + 1 else q

/-- num × 2^exp as an integer magnitude in units of 2^q, rounded (R75). -/
def roundUnit (neg : Bool) (mode : Nat) (num : Nat) (exp q : Int) : Nat :=
  if q ≤ exp then num * pow2 (exp - q) else roundShift neg mode num (q - exp).toNat

/-- What an overflow gives (R75). -/
def overflowF (f : Fmt) (neg : Bool) (mode : Nat) (sat : Bool) : Nat :=
  let toInf := match mode with
    | 0 => true
    | 1 => false
    | 2 => !neg
    | _ => neg
  match f.inf with
  | some i => withSign f neg (if sat || !toInf then f.maxFin else i)
  | none => withSign f neg f.maxFin

/-- round_to (R75, R77, R79): the encoding of a value in a format. -/
def roundTo (f : Fmt) (mode : Nat) (sat : Bool) (v : FVal) : Nat :=
  match v with
  | .nan => f.nan
  | .inf s =>
    match f.inf with
    | some i => withSign f s (if sat then f.maxFin else i)
    | none => withSign f s f.maxFin
  | .fin s num exp =>
    if num = 0 then withSign f s 0
    else
      let e := max ((Nat.log2 num : Int) + exp) f.emin
      let q := e - f.p + 1
      let m := roundUnit s mode num exp q
      let b := (q - (f.emin - f.p + 1)).toNat * 2 ^ (f.p - 1) + m
      if f.maxFin < b then overflowF f s mode sat else withSign f s b

/-- The integer a finite value rounds to (R75 round_int). -/
def roundInt (mode : Nat) (neg : Bool) (num : Nat) (exp : Int) : Int :=
  let m := roundUnit neg mode num exp 0
  if neg then -(m : Int) else m

/-- to_int into the range lo to hi (R80). -/
def toInt (lo hi : Int) (mode : Nat) (v : FVal) : Int :=
  match v with
  | .nan => 0
  | .inf s => if s then lo else hi
  | .fin s num exp => min (max (roundInt mode s num exp) lo) hi

/-- An integer as an exact value. -/
def ofIntF (z : Int) : FVal := .fin (decide (z < 0)) z.natAbs 0

/-- Least value of an integer type of a width (R70). -/
def intMin (w : Nat) (sg : Bool) : Int := if sg then -(2 ^ (w - 1) : Nat) else 0
/-- Greatest value of an integer type of a width (R70). -/
def intMax (w : Nat) (sg : Bool) : Int := if sg then (2 ^ (w - 1) : Nat) - 1 else (2 ^ w : Nat) - 1
/-- An element of w bits read as an integer of a signedness (R70). -/
def readInt (w : Nat) (sg : Bool) (b : Nat) : Int := if sg then sext w b else (b % 2 ^ w : Nat)
/-- An integer as the low w bits of its two's complement. -/
def wrapInt (w : Nat) (z : Int) : Nat := (z % (2 ^ w : Nat)).toNat
/-- An integer clamped to a type's range (R206 .sat). -/
def clampInt (w : Nat) (sg : Bool) (z : Int) : Int := min (max z (intMin w sg)) (intMax w sg)

/-- Negation of an exact value. -/
def negF : FVal → FVal
  | .nan => .nan
  | .inf s => .inf (!s)
  | .fin s n e => .fin (!s) n e

/-- The exact product (R210). -/
def mulF : FVal → FVal → FVal
  | .nan, _ => .nan
  | _, .nan => .nan
  | .inf s, .inf t => .inf (s != t)
  | .inf s, .fin t n _ => if n = 0 then .nan else .inf (s != t)
  | .fin s n _, .inf t => if n = 0 then .nan else .inf (s != t)
  | .fin s n e, .fin t k d => .fin (s != t) (n * k) (e + d)

/-- A finite value as an integer in units of 2^q, q at or below its exponent. -/
def unitsF (q : Int) (neg : Bool) (n : Nat) (e : Int) : Int :=
  let m : Int := (n * pow2 (e - q) : Nat)
  if neg then -m else m

/-- The exact sum of two addends, with the zero signs of R205 under a mode. -/
def addF (mode : Nat) : FVal → FVal → FVal
  | .nan, _ => .nan
  | _, .nan => .nan
  | .inf s, .inf t => if s = t then .inf s else .nan
  | .inf s, .fin _ _ _ => .inf s
  | .fin _ _ _, .inf t => .inf t
  | .fin s n e, .fin t k d =>
    let q := min e d
    let z := unitsF q s n e + unitsF q t k d
    if z = 0 then .fin (if n = 0 ∧ k = 0 ∧ s = t then s else mode == 3) 0 0
    else .fin (decide (z < 0)) z.natAbs q

/-- The exact sum of three addends (vdot2), with the zero signs of R205. -/
def add3F (mode : Nat) (a b c : FVal) : FVal :=
  match a, b, c with
  | .fin s n e, .fin t k d, .fin u l g =>
    let q := min (min e d) g
    let z := unitsF q s n e + unitsF q t k d + unitsF q u l g
    if z = 0 then .fin (if n = 0 ∧ k = 0 ∧ l = 0 ∧ s = t ∧ t = u then s else mode == 3) 0 0
    else .fin (decide (z < 0)) z.natAbs q
  | a, b, c => addF mode (addF mode a b) c

/-- Bits kept of a quotient or a root before the sticky bit: more than any format's precision. -/
def quotBits : Nat := 80

/-- The quotient, exact or with a sticky bit below every rounding position (R210). -/
def divF : FVal → FVal → FVal
  | .nan, _ => .nan
  | _, .nan => .nan
  | .inf _, .inf _ => .nan
  | .inf s, .fin t _ _ => .inf (s != t)
  | .fin s _ _, .inf t => .fin (s != t) 0 0
  | .fin s n e, .fin t k d =>
    if k = 0 then (if n = 0 then .nan else .inf (s != t))
    else
      let sh := quotBits + Nat.log2 k
      let q := n * 2 ^ sh / k
      let sticky := if n * 2 ^ sh % k = 0 then 0 else 1
      .fin (s != t) (2 * q + sticky) (e - d - sh - 1)

/-- Newton's iteration for the integer square root from above. -/
def isqrtLoop : Nat → Nat → Nat → Nat
  | 0, _, x => x
  | f + 1, n, x =>
    let y := (x + n / x) / 2
    if y < x then isqrtLoop f n y else x
/-- The integer square root, rounded down. -/
def isqrt (n : Nat) : Nat := if n = 0 then 0 else isqrtLoop (Nat.log2 n + 8) n (2 ^ (Nat.log2 n / 2 + 1))

/-- The square root, exact or with a sticky bit (R210). -/
def sqrtF : FVal → FVal
  | .nan => .nan
  | .inf s => if s then .nan else .inf false
  | .fin s n e =>
    if n = 0 then .fin s 0 0
    else if s then .nan
    else
      let k := 2 * quotBits + (e % 2).toNat
      let m := n * 2 ^ k
      let r := isqrt m
      .fin false (2 * r + if r * r = m then 0 else 1) ((e - k) / 2 - 1)

/-- Whether a value is NaN. -/
def isNanF : FVal → Bool
  | .nan => true
  | _ => false

/-- Whether a is below b, neither being NaN; -0 equals +0 (R211). -/
def ltF : FVal → FVal → Bool
  | .nan, _ => false
  | _, .nan => false
  | .inf s, .inf t => s && !t
  | .inf s, .fin _ _ _ => s
  | .fin _ _ _, .inf t => !t
  | .fin s n e, .fin t k d => let q := min e d; decide (unitsF q s n e < unitsF q t k d)
/-- Whether a equals b, neither being NaN. -/
def eqF (a b : FVal) : Bool := !isNanF a && !isNanF b && !ltF a b && !ltF b a

/-- vcmp on floating values, by condition code (R211). -/
def cmpF (cc : Nat) (a b : FVal) : Bool :=
  match cc with
  | 0 => eqF a b
  | 1 => !eqF a b
  | 2 => ltF a b
  | 3 => ltF a b || eqF a b
  | 4 => ltF b a
  | 5 => ltF b a || eqF a b
  | _ => isNanF a || isNanF b

/-- Whether encoding a precedes encoding b in the order of R212: by value, -0 below +0. -/
def beforeF (f : Fmt) (a b : Nat) : Bool :=
  let x := decodeF f a
  let y := decodeF f b
  ltF x y || (eqF x y && signOf f a && !signOf f b)
/-- vmin on encodings (R212). -/
def minF (f : Fmt) (a b : Nat) : Nat :=
  if isNanF (decodeF f a) || isNanF (decodeF f b) then f.nan else if beforeF f b a then b else a
/-- vmax on encodings (R212). -/
def maxF (f : Fmt) (a b : Nat) : Nat :=
  if isNanF (decodeF f a) || isNanF (decodeF f b) then f.nan else if beforeF f a b then b else a

/-- The class word of an encoding (R212). -/
def classF (f : Fmt) (b : Nat) : Nat :=
  match decodeF f b with
  | .nan => 2 ^ 8
  | .inf s => if s then 2 ^ 0 else 2 ^ 7
  | .fin s n _ =>
    if n = 0 then (if s then 2 ^ 3 else 2 ^ 4)
    else if n < 2 ^ (f.p - 1) then (if s then 2 ^ 2 else 2 ^ 5)
    else if s then 2 ^ 1 else 2 ^ 6

/-- .ftz on a source: a subnormal FP32 encoding read as zero of its sign (R76). -/
def flushIn (ftz : Bool) (b : Nat) : Nat := if ftz && magOf f32 b < 2 ^ 23 then withSign f32 (signOf f32 b) 0 else b
/-- .ftz on a result (R76). -/
def flushOut (ftz : Bool) (b : Nat) : Nat := flushIn ftz b

/-- The QN4 codebook as BF16 encodings (R81). -/
def qn4Codebook : List Nat :=
  [0xBF80, 0xBF32, 0xBF06, 0xBEC8, 0xBE90, 0xBE38, 0xBDB8, 0x0000, 0x3DA0, 0x3E20, 0x3E78, 0x3EAE, 0x3EE8, 0x3F16,
   0x3F42, 0x3F80]
/-- qn4_expand (R83): the BF16 encoding of a code under scale code c and FP32 super-scale s. -/
def qn4Expand (q c s : Nat) : Nat :=
  roundTo bf16 0 false (mulF (mulF (decodeF bf16 (qn4Codebook.getD q 0)) (.fin false c (-7))) (decodeF f32 s))

/-- A type of a conversion (R214): an integer of a width and signedness, or a format. -/
inductive CType where
  | int (w : Nat) (sg : Bool)
  | flt (f : Fmt)
  deriving DecidableEq, Repr
/-- The type a conversion type code names (R214). -/
def ctypeOf (t : TCode) : CType :=
  match t.toNat with
  | 0x0 => .int 4 true | 0x1 => .int 8 true | 0x2 => .int 16 true | 0x3 => .int 32 true | 0x4 => .int 64 true
  | 0x5 => .int 8 false | 0x6 => .int 16 false | 0x7 => .int 32 false | 0x8 => .int 64 false
  | 0x9 => .flt f64 | 0xA => .flt f32 | 0xB => .flt f16 | 0xC => .flt bf16 | 0xD => .flt e4m3 | 0xE => .flt e5m2
  | _ => .int 4 false
/-- The exact value of an element of a type (R257 value). -/
def valueC (t : CType) (b : Nat) : FVal :=
  match t with
  | .int w sg => ofIntF (readInt w sg b)
  | .flt f => decodeF f b
/-- A value rounded into a type, integers saturating (R80, R93). -/
def roundC (t : CType) (mode : Nat) (sat : Bool) (v : FVal) : Nat :=
  match t with
  | .int w sg => wrapInt w (toInt (intMin w sg) (intMax w sg) mode v)
  | .flt f => roundTo f mode sat v

/-- The type of an element format code of R59, integers of the given signedness; none for codes that are no number format. -/
def fmtType (code : Nat) (sg : Bool) : Option CType :=
  match code with
  | 0x1 => some (.int 4 sg) | 0x2 => some (.int 8 sg) | 0x3 => some (.int 16 sg) | 0x4 => some (.int 32 sg)
  | 0x5 => some (.int 64 sg) | 0x6 => some (.flt f64) | 0x7 => some (.flt f32) | 0x8 => some (.flt f16)
  | 0x9 => some (.flt bf16) | 0xA => some (.flt e4m3) | 0xB => some (.flt e5m2) | _ => none
/-- Bits of an element format code (R59). -/
def fmtBits (code : Nat) : Nat :=
  match code with
  | 0x1 => 4 | 0x2 => 8 | 0x3 => 16 | 0x4 => 32 | 0x5 => 64 | 0x6 => 64 | 0x7 => 32 | 0x8 => 16 | 0x9 => 16
  | 0xA => 8 | 0xB => 8 | 0xC => 4 | 0xD => 1024 | _ => 0

end Sys2Proof.Machine
end

