-- ==== Sys2Proof/Machine/LongAcc.lean ====
section
/-! DEFINITION. The long accumulator (R84 to R93, R413): value, contribution, merge, normal form, rounding, and its 128-byte record. -/

namespace Sys2Proof.Machine

open Sys2Proof

/-- la_value without the modulus: digits and carries by weight (R86). -/
def laSum : List (BitVec 64) → List Int → Int
  | [], _ => 0
  | d :: r, cs => (d.toNat : Int) + cs.headD 0 * (2 ^ 64 : Nat) + (2 ^ 64 : Nat) * laSum r cs.tail
/-- la_value (R86): the integer L. -/
def laValue (a : LA) : Nat := (laSum a.d a.c % (2 ^ 640 : Nat)).toNat
/-- The digits of an integer below 2^640 (R86). -/
def laDigits (n l : Nat) : List (BitVec 64) := (List.range n).map fun i => BitVec.ofNat 64 (l / 2 ^ (64 * i))
/-- la_norm (R90). -/
def laNorm (a : LA) : LA := { a with d := laDigits 10 (laValue a), c := List.replicate 10 0 }

/-- carry_in (R413): a pending carry put in at an index; the fuel is the number of segments. -/
def carryIn : Nat → LA → Nat → Int → LA
  | 0, a, _, _ => a
  | f + 1, a, i, e =>
    if i = 9 then a
    else
      let c := a.c.getD i 0 + e
      if -128 ≤ c ∧ c ≤ 127 then { a with c := a.c.set i c }
      else
        let t := ((a.d.getD (i + 1) 0).toNat : Int) + c
        let a' := { a with c := a.c.set i 0, d := a.d.set (i + 1) (BitVec.ofInt 64 t) }
        carryIn f a' (i + 1) (t / (2 ^ 64 : Nat))

/-- One segment of an addition (R413): the digit's sum and its carry. -/
def laSegment (a : LA) (i : Nat) (k : BitVec 64) : LA :=
  let t := (a.d.getD i 0).toNat + k.toNat
  carryIn 10 { a with d := a.d.set i (BitVec.ofNat 64 t) } i ((t / 2 ^ 64 : Nat) : Int)
/-- lawell_add over ten segments (R413). -/
def laAddDigits (a : LA) (ks : List (BitVec 64)) : LA :=
  (List.range 10).foldl (fun a i => laSegment a i (ks.getD i 0)) a

/-- 2^-320 (R84) as the exponent of one unit. -/
def laUnit : Int := -320
/-- A non-finite contribution of a rank (R88). -/
def laNote (a : LA) (rank : Nat) : LA := { a with low := BitVec.ofNat 32 (min a.low.toNat rank) }
/-- la_add (R88) with the carry state of R413. -/
def laAdd (a : LA) (v : FVal) (rank : Nat) : LA :=
  match v with
  | .nan => laNote { a with n := true } rank
  | .inf s => laNote (if s then { a with m := true } else { a with p := true }) rank
  | .fin s num exp =>
    if num = 0 then a
    else if 319 ≤ (Nat.log2 num : Int) + exp then
      laNote (if s then { a with m := true } else { a with p := true }) rank
    else
      let k := roundUnit s 0 num exp laUnit
      let exact := decide (laUnit ≤ exp) || num % pow2 (laUnit - exp) == 0
      let z : Int := if s then -(k : Int) else k
      let a := laAddDigits a (laDigits 10 (z % (2 ^ 640 : Nat)).toNat)
      if exact then a else { a with x := true }

/-- la_merge (R89) with the carry state of R413. -/
def laMerge (a b : LA) : LA :=
  let a := { a with n := a.n || b.n, p := a.p || b.p, m := a.m || b.m, x := a.x || b.x,
                    low := BitVec.ofNat 32 (min a.low.toNat b.low.toNat) }
  let a := laAddDigits a b.d
  (List.range 10).foldl (fun a i => carryIn 10 a i (b.c.getD i 0)) a

/-- The value that la_round and `tepi` read (R93, R277); a zero is +0. -/
def laReal (a : LA) : FVal :=
  if a.n || (a.p && a.m) then .nan
  else if a.p then .inf false
  else if a.m then .inf true
  else
    let l := laValue a
    if 2 ^ 639 ≤ l then .fin true (2 ^ 640 - l) laUnit else .fin false l laUnit
/-- la_round (R93). -/
def laRound (a : LA) (t : CType) (mode : Nat) (sat : Bool) : Nat := roundC t mode sat (laReal a)

/-- The status byte (R87). -/
def laStatus (a : LA) : Byte :=
  BitVec.ofNat 8 ((if a.n then 1 else 0) + (if a.p then 2 else 0) + (if a.m then 4 else 0) + if a.x then 8 else 0)
/-- The 128-byte record (R91). -/
def laBytes (a : LA) : List Byte :=
  a.d.flatMap (fun d => leBytes 8 d.toNat) ++ a.c.map (fun c => BitVec.ofInt 8 c) ++ [laStatus a] ++
  List.replicate 5 0 ++ leBytes 4 a.low.toNat ++ List.replicate 28 0
/-- The long accumulator a record holds (R92). -/
def laOfBytes (bs : List Byte) : LA :=
  let st := (bs.getD 90 0)
  { d := (List.range 10).map fun i => BitVec.ofNat 64 (fieldAt bs (8 * i) 8)
    c := (List.range 10).map fun i => (bs.getD (80 + i) 0).toInt
    n := st.getLsbD 0, p := st.getLsbD 1, m := st.getLsbD 2, x := st.getLsbD 3
    low := BitVec.ofNat 32 (fieldAt bs 96 4) }

end Sys2Proof.Machine
end

