-- ==== Sys2Proof/Machine/Access.lean ====
section
/-! DEFINITION. Named reads and writes of the state: tables, names, registers (R50 to R58), counters (R62, R63), partition registers (R311, R312). -/

namespace Sys2Proof.Machine

open Sys2Proof

/-- What a meaning answers. -/
abbrev Out := Host.Outcome State Fault Refusal

/-- The group of a name. -/
def group (s : State) (g : Nat) : Group := tget Group.blank s.work.groups g
/-- The state with a group replaced. -/
def setGroup (s : State) (g : Nat) (x : Group) : State :=
  { s with work := { s.work with groups := tput Group.blank s.work.groups g x } }
/-- The state with a group changed. -/
def modGroup (s : State) (g : Nat) (f : Group → Group) : State := setGroup s g (f (group s g))
/-- The team of a name. -/
def team (s : State) (t : Nat) : Team := tget Team.blank s.work.teams t
/-- The state with a team replaced. -/
def setTeam (s : State) (t : Nat) (x : Team) : State :=
  { s with work := { s.work with teams := tput Team.blank s.work.teams t x } }
/-- The state with a team changed. -/
def modTeam (s : State) (t : Nat) (f : Team → Team) : State := setTeam s t (f (team s t))
/-- The launch of a name. -/
def launch (s : State) (l : Nat) : Launch := tget Launch.blank s.work.launches l
/-- The state with a launch replaced. -/
def setLaunch (s : State) (l : Nat) (x : Launch) : State :=
  { s with work := { s.work with launches := tput Launch.blank s.work.launches l x } }
/-- The state with a launch changed. -/
def modLaunch (s : State) (l : Nat) (f : Launch → Launch) : State := setLaunch s l (f (launch s l))
/-- The collective of a name, if any. -/
def coll (s : State) (c : Nat) : Option Coll := tget none s.work.colls c
/-- The state with a collective replaced or removed. -/
def setColl (s : State) (c : Nat) (x : Option Coll) : State :=
  { s with work := { s.work with colls := tput none s.work.colls c x } }
/-- The walk of a name, if any. -/
def walk (s : State) (w : Nat) : Option Walk := tget none s.work.walks w
/-- The state with a walk replaced or removed. -/
def setWalk (s : State) (w : Nat) (x : Option Walk) : State :=
  { s with work := { s.work with walks := tput none s.work.walks w x } }
/-- A die of the rack, by chip × 4 + die. -/
def die (s : State) (d : Nat) : Die := tget Die.blank s.dies d
/-- The state with a die replaced. -/
def setDie (s : State) (d : Nat) (x : Die) : State := { s with dies := tput Die.blank s.dies d x }
/-- The state with a die changed. -/
def modDie (s : State) (d : Nat) (f : Die → Die) : State := setDie s d (f (die s d))
/-- A core of the package, by die × 64 + position (R16). -/
def core (s : State) (c : Nat) : Core := tget Core.blank s.cores c
/-- The state with a core replaced. -/
def setCore (s : State) (c : Nat) (x : Core) : State := { s with cores := tput Core.blank s.cores c x }
/-- The state with a core changed. -/
def modCore (s : State) (c : Nat) (f : Core → Core) : State := setCore s c (f (core s c))
/-- A work queue (R368). -/
def queue (s : State) (q : Nat) : Queue := tget Queue.blank s.queues q
/-- The state with a queue replaced. -/
def setQueue (s : State) (q : Nat) (x : Queue) : State := { s with queues := tput Queue.blank s.queues q x }
/-- The state with a queue changed. -/
def modQueue (s : State) (q : Nat) (f : Queue → Queue) : State := setQueue s q (f (queue s q))
/-- A partition's sink on a die (R391). -/
def sink (s : State) (p d : Nat) : Sink := tget Sink.blank s.sinks (p * 4 + d)
/-- The state with a sink replaced. -/
def setSink (s : State) (p d : Nat) (x : Sink) : State := { s with sinks := tput Sink.blank s.sinks (p * 4 + d) x }
/-- A slot of a partition's shape-record table (R120). -/
def shapeSlot (s : State) (p i : Nat) : ShapeSlot := tget ShapeSlot.blank s.shapes (p * Config.shapeSlots + i)
/-- The state with a shape slot replaced. -/
def setShape (s : State) (p i : Nat) (x : ShapeSlot) : State :=
  { s with shapes := tput ShapeSlot.blank s.shapes (p * Config.shapeSlots + i) x }
/-- The TDISP state of a partition's virtual function (R384). -/
def tdispOf (s : State) (p : Nat) : Tdisp := tget .configUnlocked s.tdisp p

/-- A fresh name for a team, group, launch, walk or counted operation. -/
def newName (s : State) : Nat × State := (s.work.next, { s with work := { s.work with next := s.work.next + 1 } })
/-- The names of the live entries of a table. -/
def keys {α : Type} (t : Tab α) : List Nat := t.map (·.1)

/-- Reset value of a partition register (R312, R324, R368, R391, R399). -/
def regReset (p r : Nat) : Word :=
  if r = 0x000 then (if p = 0 then 0x100 else 0)
  else if r = 0x001 then 16
  else if r = 0x003 then 0x1000000
  else if 0x010 ≤ r ∧ r ≤ 0x013 then (if p = 0 then 0xC000 else 0)
  else if r = 0x030 then (if p = 0 then 0x4080000000 else 0)
  else if 0x040 ≤ r ∧ r ≤ 0x043 then 12
  else 0
/-- A partition register by its selector (R311). -/
def preg (s : State) (p r : Nat) : Word := tget (regReset p r) s.regs (p * 4096 + r)
/-- The state with a partition register written. -/
def setPreg (s : State) (p r : Nat) (v : Word) : State :=
  { s with regs := tput (regReset p r) s.regs (p * 4096 + r) v }
/-- pctl.en (R312). -/
def partEnabled (s : State) (p : Nat) : Bool := (preg s p 0).getLsbD 8
/-- pctl.rst (R312). -/
def partResetting (s : State) (p : Nat) : Bool := (preg s p 0).getLsbD 9
/-- pctl.donate as written (R312). -/
def partDonate (s : State) (p : Nat) : Bool := (preg s p 0).getLsbD 0

/-- This package's chip number: chip 0 while podcfg.en is 0 (R383). -/
def chipNo (s : State) : Nat := if s.pod.en then s.pod.chip.toNat else 0
/-- The launch of a group. -/
def launchOf (s : State) (g : Nat) : Nat := (team s (group s g).team).launch
/-- The partition of a group (R65). -/
def partOf (s : State) (g : Nat) : Nat := (launch s (launchOf s g)).part
/-- The core of a group. -/
def coreOf (s : State) (g : Nat) : Nat := (team s (group s g).team).core
/-- The die of a group, 0 to 3. -/
def dieOf (s : State) (g : Nat) : Nat := coreOf s g / 64
/-- The quarter of a group (R32). -/
def quarterOf (x : Group) : Nat := x.no % 4
/-- Whether a group runs a handler (R346). -/
def inHandler (x : Group) : Bool := x.handler.isSome

/-- A scalar register of a group; s0 is never stored (R50). -/
def sregOf (x : Group) (r : Nat) : Word := tget 0 x.r.s r
/-- Poison of a unit is cleared by a write that covers it (R359). -/
def unpoison (x : Group) (kind reg : Nat) : List PoisonUnit := x.poison.filter fun p => p.kind != kind || p.reg != reg
/-- A group with a scalar register written; a write of s0 is discarded (R50); a write clears poison (R359). -/
def setSregOf (x : Group) (r : Nat) (v : Word) : Group :=
  if r = 0 then x else { x with r := { x.r with s := tput 0 x.r.s r v }, poison := unpoison x 0 r }
/-- A lane register (R51). -/
def zeroLanes : LaneVec := List.replicate 128 0
/-- A lane register of a group (R51). -/
def vreg (x : Group) (n : Nat) : LaneVec := tget zeroLanes x.r.v n
/-- A group with a lane register written. -/
def setVreg (x : Group) (n : Nat) (v : LaneVec) : Group :=
  { x with r := { x.r with v := tput zeroLanes x.r.v n v } }
/-- Predicate register reset value (R54). -/
def zeroPred : PredVec := List.replicate 128 0
/-- The value m0 reads as (R54). -/
def onesPred : PredVec := List.replicate 128 15
/-- A predicate register; m0 reads as all ones (R54). -/
def mreg (x : Group) (n : Nat) : PredVec := if n = 0 then onesPred else tget zeroPred x.r.m n
/-- A group with a predicate register written; a write of m0 is discarded (R54). -/
def setMreg (x : Group) (n : Nat) (v : PredVec) : Group :=
  if n = 0 then x else { x with r := { x.r with m := tput zeroPred x.r.m n v } }
/-- A long-accumulator register at its start (R57). -/
def zeroQ : List LA := List.replicate 128 LA.zero
/-- A long-accumulator register of a group (R57). -/
def qreg (x : Group) (n : Nat) : List LA := tget zeroQ x.r.q n
/-- A group with a long-accumulator register written. -/
def setQreg (x : Group) (n : Nat) (v : List LA) : Group :=
  { x with r := { x.r with q := tput zeroQ x.r.q n v } }
/-- A tile register (R58). -/
def treg (x : Group) (n : Nat) : TileDesc := tget 0 x.r.t n
/-- A group with a tile register written; a write clears poison (R359). -/
def setTreg (x : Group) (n : Nat) (v : TileDesc) : Group :=
  { x with r := { x.r with t := tput 0 x.r.t n v }, poison := unpoison x 4 n }

/-- The group whose instruction runs; 0, which names no group, in a walk or an event. -/
def curGroup (s : State) : Nat :=
  match s.cur with
  | .group g => g
  | _ => 0
/-- A scalar register of the context that runs (R50, R329). -/
def getS (s : State) (r : SReg) : Word :=
  match s.cur with
  | .group g => sregOf (group s g) r.toNat
  | .walk w => match walk s w with
    | some x => tget 0 x.s r.toNat
    | none => 0
  | .none => 0
/-- The state with a scalar register of the running context written; s0 discards (R50). -/
def setS (s : State) (r : SReg) (v : Word) : State :=
  if r = 0 then s
  else match s.cur with
    | .group g => modGroup s g fun x => setSregOf x r.toNat v
    | .walk w => match walk s w with
      | some x => setWalk s w (some { x with s := tput 0 x.s r.toNat v })
      | none => s
    | .none => s
/-- SPC of the running context (R35, R329). -/
def curSpc (s : State) : Word :=
  match s.cur with
  | .group g => (group s g).spc
  | .walk w => match walk s w with
    | some x => x.spc
    | none => 0
  | .none => 0
/-- The state with SPC of the running context written. -/
def setSpc (s : State) (v : Word) : State :=
  match s.cur with
  | .group g => modGroup s g fun x => { x with spc := v }
  | .walk w => match walk s w with
    | some x => setWalk s w (some { x with spc := v })
    | none => s
  | .none => s

/-- The value of a completion counter (R62). -/
def kcount (x : Group) (k : Nat) : Nat := (tget [] x.cnt.k k).length
/-- A counter raised for an operation (R62, R193). -/
def raiseK (x : Group) (k op : Nat) : Group :=
  { x with cnt := { x.cnt with k := tput [] x.cnt.k k (tget [] x.cnt.k k ++ [(op, false)]) } }
/-- Operations of a counter after one completes: decrements apply in issue order (R193). -/
def settleOps (ops : List (Nat × Bool)) (op : Nat) : List (Nat × Bool) :=
  (ops.map fun e => if e.1 = op then (e.1, true) else e).dropWhile (·.2)
/-- A counter lowered for the operation that completes (R193). -/
def lowerK (x : Group) (k op : Nat) : Group :=
  { x with cnt := { x.cnt with k := tput [] x.cnt.k k (settleOps (tget [] x.cnt.k k) op) } }
/-- Whether every completion and outstanding counter reads zero (R187). -/
def countersZero (x : Group) : Bool :=
  x.cnt.k.isEmpty && x.cnt.loads == 0 && x.cnt.stores == 0 && x.cnt.copies == 0 && x.cnt.tiles == 0

/-- Package time in 2^-8 ns (R389). -/
def now (s : State) : Nat := s.time.now
/-- Cycles of a core's die (R3). -/
def cycleOf (s : State) (core : Nat) : Nat := (die s (chipNo s * 4 + core / 64)).cycles
/-- The number of the chips of a launch's mask that hold an address, and whether the address is legal under R97. -/
def chipOfVa (va : Word) : Nat := bits va 61 56
/-- The owner of an address, by chip × 4 + die (R96). -/
def ownerOf (va : Word) : Nat := bits va 61 54
/-- Page number within a die's offsets (R325). -/
def pageOf (va : Word) : Nat := bits va 53 16

/-- The address check of R97 over n bytes: the first offending byte, if any. -/
def addressFault (mask : BitVec 64) (va : Word) (n : Nat) : Option Word :=
  let last := va + BitVec.ofNat 64 (n - 1)
  if bits va 63 62 ≠ 0 ∨ mask.getLsbD (chipOfVa va) = false then some va
  else if bits va 63 54 ≠ bits last 63 54 then some va
  else none

/-- A record of the lane or group kind (R344). -/
def mkRec (cls cause : Nat) (access : Nat) (addr : Word) : FaultRec :=
  ⟨cls, cause, BitVec.ofNat 8 access, 0xFF, 0, addr⟩
/-- The access byte of a record: execute, write, read, source (R344). -/
def accessByte (x w r : Bool) (source : Nat) : Nat :=
  (if x then 32 else 0) + (if w then 16 else 0) + (if r then 8 else 0) + source
/-- The 16 bytes of a record (R344). -/
def recBytes (r : FaultRec) : List Byte :=
  [BitVec.ofNat 8 r.cls, BitVec.ofNat 8 r.cause, r.access, r.lane] ++ leBytes 4 r.aux.toNat ++ leBytes 8 r.addr.toNat
/-- The record that 16 bytes hold. -/
def recOfBytes (bs : List Byte) : FaultRec :=
  ⟨fieldAt bs 0 1, fieldAt bs 1 1, bs.getD 2 0, bs.getD 3 0, BitVec.ofNat 32 (fieldAt bs 4 4), BitVec.ofNat 64 (fieldAt bs 8 8)⟩

end Sys2Proof.Machine
end

