-- ==== Sys2Proof/Machine/Translate.lean ====
section
/-! DEFINITION. Translation at the owning die (R96 to R98, R322 to R327): leaves, the TLB, the walks that misses start, poison of granules and pages (R326, R359). -/

namespace Sys2Proof.Machine

open Sys2Proof

/-- Whether a leaf is valid (R326); a 512 MiB leaf has frame bits [28:16] and cont zero (log 22). -/
def leafValid (leaf : Word) (level : Nat) : Bool :=
  bits leaf 63 60 == 0 && bits leaf 59 58 != 3 && bits leaf 53 52 != 3 && bits leaf 15 5 == 0 &&
  leaf.getLsbD 4 && leaf.getLsbD 0 && (level == 0 || (leaf.getLsbD 54 == false && bits leaf 28 16 == 0))
/-- Whether a leaf has the rights an access needs; the bits are execute, write, read (R326, R329). -/
def leafPermits (leaf : Word) (acc : BitVec 3) : Bool :=
  (!acc.getLsbD 0 || leaf.getLsbD 1) && (!acc.getLsbD 1 || leaf.getLsbD 2) && (!acc.getLsbD 2 || leaf.getLsbD 3)
/-- Physical address of a virtual address under a leaf (R325, R326). -/
def leafPhys (leaf : Word) (level : Nat) (va : Word) : Nat :=
  if level = 1 then bits leaf 51 29 * 2 ^ 29 + bits va 28 0 else bits leaf 51 16 * 2 ^ 16 + bits va 15 0
/-- Whether an address lies in its package's host window (R98). -/
def hostWindow (va : Word) : Bool := bits va 55 54 == 0 && decide (0x30000000000000 ≤ bits va 53 0)
/-- The flat key of memory of a virtual address under a leaf (R98, R323). -/
def leafFlat (leaf : Word) (level : Nat) (va : Word) : Nat :=
  if hostWindow va then hostBase (chipOfVa va) + leafPhys leaf level va
  else dieBase (ownerOf va) + leafPhys leaf level va

/-- The TLB entry of a triple at a die, if held (R322). -/
def tlbFind (x : Die) (part : Nat) (asn : BitVec 8) (page : Nat) : Option TlbEntry :=
  x.tlb.find? fun e => e.part == part && e.asn == asn &&
    (if e.level = 1 then e.page / 8192 == page / 8192 else e.page == page)

/-- On whose behalf a request is sent: agent, partition, address-space number, chip mask, issuing core (R322). -/
structure Who where
  agent : Agent
  part : Nat
  asn : BitVec 8
  mask : BitVec 64
  core : Nat
  deriving DecidableEq, Repr

/-- A run of bytes in memory: flat key, length, whether its leaf is poisoned. -/
structure Seg where
  flat : Nat
  len : Nat
  poison : Bool
  deriving DecidableEq, Repr

/-- What a translation answers: the runs, or wait for a walk, or a fault. -/
inductive XRes where
  | ok (segs : List Seg)
  | wait
  | fault (cls cause : Nat) (addr : Word)
  deriving DecidableEq, Repr

/-- Cause recorded for a request that could not be delivered: it takes the address fault (R382). -/
def causeUndelivered : Nat := 0x100
/-- The answer of another chip's home to a `pmap` or a `tlbinv`, kept with the result added until the instruction takes it (R335, R337). -/
def causeMapped : Nat := 0x200

/-- The name of the walk that a miss joins (R322). -/
def walkFor (s : State) (gdie : Nat) (va : Word) (part : Nat) (asn : BitVec 8) (reason : Nat) : Option (Nat × Walk) :=
  s.work.walks.findSome? fun e => match e.2 with
    | some w => if w.die = gdie ∧ pageOf w.va = pageOf va ∧ w.part = part ∧ w.asn = asn ∧ w.reason = reason
        then some (e.1, w) else none
    | none => none
/-- Whether an agent already waits for a walk. -/
def waiting (s : State) (a : Agent) : Bool := s.work.waits.any fun e => e.agent == a
/-- A miss joins a walk or starts one; bits merge while it has not begun to run (R322, R329). -/
def joinWalk (s : State) (who : Who) (va : Word) (reason : Nat) (acc : BitVec 3) : State :=
  if waiting s who.agent then s
  else match walkFor s (ownerOf va) va who.part who.asn reason with
    | some (w, x) =>
      let s := if x.running then s else setWalk s w (some { x with acc := x.acc ||| acc })
      { s with work := { s.work with waits := s.work.waits ++ [⟨w, who.agent, acc, now s⟩] } }
    | none =>
      let (w, s) := newName s
      let s := setWalk s w (some ⟨ownerOf va, va, who.part, who.asn, reason, acc, false, [], 0, 0, 0, 0, 0⟩)
      { s with work := { s.work with waits := s.work.waits ++ [⟨w, who.agent, acc, now s⟩] } }

/-- The cause with which a walk for an agent's page ended, while its request is not finished (R333, R334). -/
def walkFault (s : State) (a : Agent) (gdie page : Nat) : Option Nat :=
  (s.work.faults.find? fun e => e.1 == a && e.2.1 == gdie && e.2.2.1 == page).map (·.2.2.2)
/-- The causes kept for an agent are dropped: its request is finished, and the next is translated afresh (R333). -/
def clearFaults (s : State) (a : Agent) : State :=
  { s with work := { s.work with faults := s.work.faults.filter fun e => e.1 != a } }

/-- A source identifier (R393). -/
def sourceId (chip die kind index : Nat) : Nat := chip * 2 ^ 26 + die * 2 ^ 24 + kind * 2 ^ 20 + index
/-- csctl of a sink (R391). -/
def csctl (s : State) (p d : Nat) : Word := preg s p (0x044 + d)
/-- Whether a sink is enabled (R391). -/
def sinkOn (s : State) (p d : Nat) : Bool := (csctl s p d).getLsbD 0
/-- Records that a home slice holds for a partition, at most (R403). -/
def sliceRecords : Nat := 64
/-- Whether a home slice's share of a partition's records is full, in lossless mode (R403). -/
def sliceFull (s : State) (p d i : Nat) : Bool :=
  (csctl s p d).getLsbD 1 && sinkOn s p d &&
  decide (sliceRecords ≤ ((sink s p d).held.filter fun r => r.src == sourceId (chipNo s) d 3 i).length)
/-- Whether an agent is a sink, whose own stores are not held back for want of room in it (log 24). -/
def isSink : Agent → Bool
  | .sink _ _ => true
  | _ => false
/-- Whether a slice that n bytes meet on a die of this package accepts no new request of a partition (R403). -/
def slicesHold (s : State) (who : Who) (va : Word) (n : Nat) : Bool :=
  let gd := ownerOf va
  gd / 4 == chipNo s && !isSink who.agent && !hostWindow va && (List.range (min 16 ((bits va 7 0 + n + 255) / 256))).any fun k =>
    sliceFull s who.part (gd % 4) ((bits va 11 8 + k) % 16)
/-- Whether a chip is within reach (R375, R383). -/
def reaches (p : Pod) (c : Nat) : Bool := p.en && !p.dup && p.peers.getLsbD c
/-- Whether the home of a die cannot be reached: it lies on another chip to which no request can be delivered now (R382). -/
def cutOff (s : State) (gd : Nat) : Bool := gd / 4 != chipNo s && !reaches s.pod (gd / 4)
/-- A request that another chip's home serves waits there no more: one sent while the chip was out of reach is delivered after all (R382). -/
def delivered (s : State) (who : Who) (va : Word) : State :=
  match s.work.waits.find? fun e => e.agent == who.agent && (walk s e.walk).any fun x =>
      x.die / 4 != chipNo s && x.die == ownerOf va && pageOf x.va == pageOf va with
  | none => s
  | some r =>
    let rest := s.work.waits.filter fun e => e != r
    let s : State := { s with work := { s.work with waits := rest } }
    if rest.any fun e => e.walk == r.walk then s else setWalk s r.walk none

/-- Whether a physical address lies in a way that is being added (R342). -/
def wayPending (x : Die) (phys : Nat) : Bool :=
  match x.carve with
  | some c => c.add && decide (0x100000000000 ≤ phys) && c.ways.contains ((phys - 0x100000000000) / 0x1000000)
  | none => false

/-- Translation of bytes that lie in one page (R322); a page of a chip out of reach waits until that is within reach again, or for 10 ms (R382). -/
def xlatePage (s : State) (who : Who) (acc : BitVec 3) (va : Word) (n : Nat) : State × XRes :=
  let gd := ownerOf va
  match walkFault s who.agent gd (pageOf va) with
  | some c => (s, if c = causeUndelivered then .fault 5 0 va else .fault 4 c va)
  | none =>
    if slicesHold s who va n then (s, .wait)
    else match tlbFind (die s gd) who.part who.asn (pageOf va) with
    | none => (joinWalk s who va 0 acc, .wait)
    | some e =>
      if cutOff s gd || !leafPermits e.leaf acc then (joinWalk s who va 0 acc, .wait)
      else if acc.getLsbD 1 && !e.leaf.getLsbD 56 then (joinWalk s who va 1 acc, .wait)
      else if !hostWindow va && wayPending (die s gd) (leafPhys e.leaf e.level va) then (s, .wait)
      else (delivered s who va, .ok [⟨leafFlat e.leaf e.level va, n, e.leaf.getLsbD 57⟩])

/-- Translation page after page (R126); the first page that does not answer decides. -/
def xlateFrom : Nat → State → Who → BitVec 3 → Word → Nat → State × XRes
  | 0, s, _, _, _, _ => (s, .ok [])
  | f + 1, s, who, acc, va, n =>
    let m := min n (0x10000 - bits va 15 0)
    if n = 0 then (s, .ok [])
    else match xlatePage s who acc va m with
      | (s, .ok a) => match xlateFrom f s who acc (va + BitVec.ofNat 64 m) (n - m) with
        | (s, .ok b) => (s, .ok (a ++ b))
        | r => r
      | r => r
/-- Translation of n bytes of virtual device memory that passed R97. -/
def xlate (s : State) (who : Who) (acc : BitVec 3) (va : Word) (n : Nat) : State × XRes :=
  xlateFrom (n / 0x10000 + 2) s who acc va n

/-- The offset of the first poisoned byte within runs (R326, R359). -/
def poisonOff (s : State) : List Seg → Nat → Option Nat
  | [], _ => none
  | g :: r, off =>
    if g.poison then some off
    else match (List.range g.len).find? fun i => s.bad.contains ((g.flat + i) / 64) with
      | some i => some (off + i)
      | none => poisonOff s r (off + g.len)
/-- The offset of the first poisoned byte; quick when nothing is poisoned. -/
def poisonIn (s : State) (gs : List Seg) : Option Nat :=
  if s.bad.isEmpty && gs.all (fun g => !g.poison) then none else poisonOff s gs 0

/-- The bytes of runs. -/
def readSegs (s : State) (gs : List Seg) : List Byte := gs.flatMap fun g => mread s.mem g.flat g.len
/-- Bytes written over runs. -/
def writeSegs (s : State) : List Seg → List Byte → State
  | [], _ => s
  | g :: r, bs => writeSegs { s with mem := mwrite s.mem g.flat (bs.take g.len) } r (bs.drop g.len)

/-- Whether a list of byte runs covers a whole granule of 64 bytes. -/
def covers (runs : List (Nat × Nat)) (granule : Nat) : Bool :=
  (List.range 64).all fun i => runs.any fun r => decide (r.1 ≤ granule * 64 + i ∧ granule * 64 + i < r.1 + r.2)
/-- A write of whole granules within one instruction or engine operation clears their marks (R359). -/
def cleanBad (s : State) (runs : List (Nat × Nat)) : State :=
  if s.bad.isEmpty then s else { s with bad := s.bad.filter fun b => !covers runs b }

end Sys2Proof.Machine
end

