-- ==== Sys2Proof/Machine/Lines.lean ====
section
/-! DEFINITION. Coherence objects on the way to memory (R138 to R141, R338): the objects that an access meets, the partial sums of their slots, ordinary stores with their updates. -/

namespace Sys2Proof.Machine

open Sys2Proof

/-- The coherence object of a partition that holds an address (R251, R252, R338). -/
def objAt (s : State) (part : Nat) (va : Word) : Option (Nat × CObj) :=
  (die s (ownerOf va)).objs.find? fun e =>
    e.2.alloc && decide (e.2.base.toNat ≤ va.toNat ∧ va.toNat < e.2.base.toNat + e.2.bytes) &&
    (e.2.part == part || e.2.dual == some part)
/-- The mode in force for an object: software-managed while a change is in progress (R141). -/
def objMode (o : CObj) : BitVec 2 := if o.changes.isEmpty then o.mode else 0
/-- Whether a core holds a resident team of a partition (R338). -/
def hasTeam (s : State) (core part : Nat) : Bool :=
  s.work.teams.any fun e => e.2.live && e.2.core == core && (launch s e.2.launch).part == part

/-- The coherence objects of a partition that n bytes meet (R251, R252, R338). -/
def objsMet (s : State) (part : Nat) (va : Word) (n : Nat) : Tab CObj :=
  (die s (ownerOf va)).objs.filter fun e =>
    e.2.alloc && decide (e.2.base.toNat < va.toNat + n ∧ va.toNat < e.2.base.toNat + e.2.bytes) &&
    (e.2.part == part || e.2.dual == some part)
/-- For each copy of a probe, update or gather to some cores that a port of another die drops, that die: the copies go to the whole mesh rows of the cores (R338). -/
def droppedAt (s : State) (home : Nat) (o : CObj) (targets : List Nat) : List Nat :=
  let rows := ((targets.filter fun c => c / 64 != home).map fun c => c / 8).eraseDups
  ((rows.flatMap fun r => (List.range 8).map fun k => r * 8 + k).filter fun c =>
    !(core s c).vacant && !hasTeam s c o.part && !(o.dual.any fun q => hasTeam s c q)).map fun c => c / 64
/-- The cores that hold partial sums of an object (R338). -/
def holders (s : State) (gd entry : Nat) : List Nat :=
  ((s.parts.filter fun p => p.die == gd && p.obj == entry).map (·.core)).eraseDups

/-- Every partial sum of a slot merged into it at its home, and, in commute mode, the result in normal form (R140, R141). -/
def mergeSlot (s : State) (slot : Nat) (norm : Bool) : State :=
  let ps := s.parts.filter fun p => p.slot == slot
  if ps.isEmpty && !norm then s
  else
    let a := ps.foldl (fun a p => laMerge a p.la) (laOfBytes (mread s.mem slot 128))
    let a := if norm then laNorm a else a
    { s with mem := mwrite s.mem slot (laBytes a), parts := s.parts.filter fun p => p.slot != slot }
/-- The slots of 128 bytes that a run of bytes touches, by flat key. -/
def slotsOf (flat n : Nat) : List Nat :=
  if n = 0 then [] else (List.range ((flat + n - 1) / 128 - flat / 128 + 1)).map fun i => (flat / 128 + i) * 128
/-- The slots of a run that an object covers; an object is made of whole blocks of 128 bytes (R252). -/
def slotsWithin (va : Word) (g : Seg) (o : CObj) : List Nat :=
  (slotsOf g.flat g.len).filter fun k =>
    decide (o.base.toNat + g.flat ≤ va.toNat + k ∧ va.toNat + k < o.base.toNat + o.bytes + g.flat)
/-- Bytes of runs. -/
def segsLen (gs : List Seg) : Nat := (gs.map (·.len)).foldl (· + ·) 0
/-- Copies of probes, updates and gathers sent on behalf of an object of a die to some cores: the way in which they are sent is an argument of what follows, since a sink's own stores send them too (R392). -/
abbrev Send := State → Nat → Nat → CObj → List Nat → State
/-- A home gathers the partial sums of a slot of an object and merges them (R140, R141, R338). -/
def gatherWith (send : Send) (s : State) (gd entry : Nat) (o : CObj) (norm : Bool) (slot : Nat) : State :=
  mergeSlot (send s gd entry o (holders s gd entry)) slot norm
/-- Partial sums merged ahead of an ordinary access to a run, in the slots of each commute-mode object that it meets (R140, R141). -/
def settleRunWith (send : Send) (s : State) (part : Nat) (va : Word) (g : Seg) : State :=
  (objsMet s part va g.len).foldl (fun s e =>
    if e.2.mode = 2 then (slotsWithin va g e.2).foldl (fun s k => gatherWith send s (ownerOf va) e.1 e.2 (objMode e.2 == 2) k) s else s) s
/-- Partial sums merged for all runs of an access. -/
def settleWith (send : Send) (s : State) (part : Nat) : Word → List Seg → State
  | _, [] => s
  | va, g :: r => settleWith send (settleRunWith send s part va g) part (va + BitVec.ofNat 64 g.len) r
/-- A store to lines in shared mode sends an update to every recorded sharer (R139, R338). -/
def updateWith (send : Send) (s : State) (part : Nat) (va : Word) (n : Nat) : State :=
  (objsMet s part va n).foldl (fun s e => if objMode e.2 = 1 then send s (ownerOf va) e.1 e.2 e.2.sharers else s) s
/-- An ordinary write of translated bytes at their home (R139, R141). -/
def storeWith (send : Send) (s : State) (part : Nat) (va : Word) (gs : List Seg) (bs : List Byte) : State :=
  updateWith send (writeSegs (settleWith send s part va gs) gs bs) part va (segsLen gs)
/-- Memory with every partial sum merged into its slot: what the locations hold, wherever it lies (R106, R140). -/
def mergedMem (s : State) : List Host.Cell := (s.parts.foldl (fun s p => mergeSlot s p.slot true) s).mem

end Sys2Proof.Machine
end

