-- ==== Sys2Proof/Machine/Carillon.lean ====
section
/-! DEFINITION. Carillon's records and sinks (R391 to R403): encoding, writing, loss, back-pressure; what a group emits. -/

namespace Sys2Proof.Machine

open Sys2Proof

/-- Unsigned LEB128, at most n bytes (R395). -/
def varintN : Nat → Nat → List Byte
  | 0, _ => []
  | n + 1, v => if v < 128 then [BitVec.ofNat 8 v] else BitVec.ofNat 8 (v % 128 + 128) :: varintN n (v / 128)
/-- A varint (R395). -/
def varint (v : Nat) : List Byte := varintN 10 v
/-- A signed value as a zigzag varint (R395). -/
def zigzag (z : Int) : List Byte := varint (if z < 0 then (-z).toNat * 2 - 1 else z.toNat * 2)
/-- An absolute time of nine bytes (R395). -/
def absTime (t : Nat) : List Byte := leBytes 8 (t / 256) ++ [BitVec.ofNat 8 (t % 256)]
/-- A record's bytes after a record stamped `last` (R395). -/
def encodeRec (r : TraceRec) (last : Nat) : List Byte :=
  BitVec.ofNat 8 (r.typ * 16 + r.sub) :: varint r.src ++
  (if r.typ = 0xC ∨ r.typ = 0xA then absTime r.time else zigzag ((r.time : Int) - (last : Int))) ++ r.body

/-- Size of a ring in bytes (R391). -/
def ringSize (s : State) (p d : Nat) : Nat := 2 ^ bits (preg s p (0x040 + d)) 4 0
/-- Base address of a ring (R391). -/
def ringBase (s : State) (p d : Nat) : Word := preg s p (0x040 + d) &&& ~~~0xFFF
/-- Free space of a ring (R392). -/
def ringFree (s : State) (p d : Nat) : Nat :=
  ringSize s p d - ((preg s p (0x048 + d)).toNat - (preg s p (0x04C + d)).toNat)
/-- The requester under which a sink writes its ring (R391). -/
def sinkWho (s : State) (p d : Nat) : Who :=
  ⟨.sink p d, p, BitVec.ofNat 8 (bits (csctl s p d) 15 8), BitVec.ofNat 64 (2 ^ chipNo s), d * 64⟩
/-- Pad bytes needed at a count of bytes written so that n bytes do not straddle the end of the ring (R392). -/
def padAt (size w n : Nat) : Nat := if size < w % size + n then size - w % size else 0
/-- Pad bytes needed before n bytes now. -/
def padFor (s : State) (p d n : Nat) : Nat := padAt (ringSize s p d) (preg s p (0x048 + d)).toNat n

/-- What writing bytes to a ring answers. -/
inductive SinkRes where
  | wrote | wait | faulted
  deriving DecidableEq, Repr

/-- A fault of a sink's write: err is set and en cleared (R392). -/
def sinkFault (s : State) (p d : Nat) : State :=
  setPreg (clearFaults s (.sink p d)) p (0x044 + d) ((csctl s p d ||| 8) &&& ~~~1)
/-- Translation of a run of the ring, checked as every address is (R97, R392). -/
def ringXlate (s : State) (p d : Nat) (va : Word) (n : Nat) : State × XRes :=
  match addressFault (sinkWho s p d).mask va n with
  | some b => (s, .fault 5 0 b)
  | none => xlate s (sinkWho s p d) 2 va n
/-- Kind of a record's source (R393). -/
def kindOf (r : TraceRec) : Nat := r.src / 2 ^ 20 % 16
/-- The sinks' own records: rate, resume and time-base (R394). -/
def ownRec (r : TraceRec) : Bool := r.typ == 9 || r.typ == 0xA || r.typ == 0xC
/-- Whether csctl lets a record into a sink (R391, R394). -/
def kindOn (s : State) (p d : Nat) (r : TraceRec) : Bool := ownRec r || (csctl s p d).getLsbD (16 + kindOf r)
/-- Copies that a port of another die drops are counted in pdrop; the records of it go to a function of the state, partition and die (R324, R338, R401). -/
def droppedCopies (put : State → Nat → Nat → TraceRec → State) (s : State) (gd entry : Nat) (o : CObj) (targets : List Nat) : State :=
  let ds := if gd / 4 = chipNo s then droppedAt s (gd % 4) o targets else []
  if ds.isEmpty then s
  else
    let s := setPreg s o.part 0x020 (BitVec.ofNat 64 (min ((preg s o.part 0x020).toNat + ds.length) (2 ^ 32 - 1)))
    ds.foldl (fun s d => put s o.part d ⟨8, 0, sourceId (chipNo s) d 7 (16 + d), now s, BitVec.ofNat 8 0x0A :: varint entry, false⟩) s
/-- A record put behind those that a sink holds, to be written after them. -/
def queueRecord (s : State) (p d : Nat) (r : TraceRec) : State :=
  if sinkOn s p d && kindOn s p d r then setSink s p d { sink s p d with held := (sink s p d).held ++ [r] } else s
/-- Copies sent by a store of a sink: a record that they bring about follows those that the sink holds. -/
def sinkCopies : Send := droppedCopies queueRecord
/-- Bytes written at the write position, after pad where they would straddle the end: ordinary stores (R139, R141, R392). -/
def ringWrite (s : State) (p d : Nat) (bs : List Byte) : State × SinkRes :=
  let w := preg s p (0x048 + d)
  let pad := padFor s p d bs.length
  let pos := w.toNat % ringSize s p d
  let at0 := if pad = 0 then pos else 0
  let (s, r) := ringXlate s p d (ringBase s p d + BitVec.ofNat 64 at0) bs.length
  match r with
  | .wait => (s, .wait)
  | .fault _ _ _ => (sinkFault s p d, .faulted)
  | .ok segs =>
    let padded := if pad = 0 then (s, XRes.ok []) else ringXlate s p d (ringBase s p d + BitVec.ofNat 64 pos) pad
    match padded with
    | (s, .ok ps) =>
      let s := if pad = 0 then s else storeWith sinkCopies s p (ringBase s p d + BitVec.ofNat 64 pos) ps (List.replicate pad 0)
      let s := storeWith sinkCopies s p (ringBase s p d + BitVec.ofNat 64 at0) segs bs
      let s := cleanBad s ((ps ++ segs).map fun g => (g.flat, g.len))
      (setPreg (clearFaults s (.sink p d)) p (0x048 + d) (w + BitVec.ofNat 64 (pad + bs.length)), .wrote)
    | (s, .wait) => (s, .wait)
    | (s, .fault _ _ _) => (sinkFault s p d, .faulted)

/-- Quality byte of a time-base record (R395). -/
def qualityByte (s : State) (stepped : Bool) : Byte :=
  BitVec.ofNat 8 ((match s.time.lock with | .locked => 0 | .holdover => 1 | .freeRunning => 2) + if stepped then 128 else 0)
/-- The time unit's source on a die (R393, R395). -/
def timeSource (s : State) (d : Nat) : Nat := sourceId (chipNo s) d 10 0
/-- A time-base record for a sink (R395, R396). -/
def timeBaseRec (s : State) (p d : Nat) : TraceRec :=
  ⟨0xC, 0, timeSource s d, now s, [qualityByte s (sink s p d).stepped], false⟩
/-- A loss record (R402). -/
def lossRec (s : State) (p d : Nat) : TraceRec :=
  ⟨0xB, 0, timeSource s d, now s, varint (min (sink s p d).lost (2 ^ 32 - 1)), false⟩

/-- Whether a record's emitter is held while it does not fit (R403): groups, copy, matrix and collective engines, front ends, and a home slice with 64 records waiting. -/
def holds (k : Sink) (r : TraceRec) : Bool :=
  r.hold && (kindOf r != 3 || decide (sliceRecords ≤ (k.held.filter fun h => h.src == r.src).length))
/-- Whether a record that does not fit waits among the 64 of its home slice (R403). -/
def sliceKeeps (r : TraceRec) : Bool := r.hold && kindOf r == 3
/-- Whether a record goes to the reserve of 4 KiB where it does not fit (R403). -/
def reserveRec (r : TraceRec) : Bool := !r.hold && !ownRec r

/-- Whether a loss record goes before a record (R402); none goes before a resume record, which comes first of all after a restart (R405). -/
def lossFirst (s : State) (p d : Nat) (r : TraceRec) : Bool := (sink s p d).lost != 0 && r.typ != 0xA
/-- A record with the stamp with which it is written: the time unit's records never go back (R396). -/
def stamped (k : Sink) (r : TraceRec) : TraceRec := if ownRec r then { r with time := max r.time k.unit } else r
/-- The loss record's bytes (R402). -/
def lossBytes (s : State) (p d : Nat) : List Byte := encodeRec (lossRec s p d) (sink s p d).last
/-- A sink that has written its loss record, which counts among the 2^16 of R396. -/
def afterLoss (s : State) (p d : Nat) : Sink := { sink s p d with last := now s, unit := now s, lost := 0, count := (sink s p d).count + 1 }
/-- A record's bytes as it would be written after a sink's last one. -/
def bytesNow (k : Sink) (r : TraceRec) : List Byte := encodeRec (stamped k r) k.last
/-- A sink after it has written a record. -/
def sinkAfter (k : Sink) (r : TraceRec) : Sink :=
  let t := r.typ == 0xC
  let r := stamped k r
  { k with last := r.time, unit := if ownRec r then r.time else k.unit, count := if t then 0 else k.count + 1,
           base := if t then r.time else k.base, fresh := if t then false else k.fresh, stepped := if t then false else k.stepped }
/-- Whether records fit the ring now, one after the other, with the loss record that goes before the first (R392, R402). -/
def fitAll (s : State) (p d : Nat) (rs : List TraceRec) : Bool :=
  let size := ringSize s p d
  let add (w n : Nat) : Nat := w + padAt size w n + n
  let w := (preg s p (0x048 + d)).toNat
  let loss := rs.head?.any (lossFirst s p d)
  let w := if loss then add w (lossBytes s p d).length else w
  let k := if loss then afterLoss s p d else sink s p d
  let after := rs.foldl (fun (e : Sink × Nat) r => (sinkAfter e.1 r, add e.2 (bytesNow e.1 r).length)) (k, w)
  decide (after.2 ≤ size + (preg s p (0x04C + d)).toNat)
/-- Whether a record fits the ring now. -/
def fits (s : State) (p d : Nat) (r : TraceRec) : Bool := fitAll s p d [r]
/-- A record dropped and counted (R402). -/
def countLost (s : State) (p d : Nat) : State :=
  setSink s p d { sink s p d with lost := min ((sink s p d).lost + 1) (2 ^ 32 - 1) }
/-- The loss record that goes before a record where some were dropped (R402). -/
def putLoss (s : State) (p d : Nat) (r : TraceRec) : State × SinkRes :=
  if lossFirst s p d r then
    match ringWrite s p d (lossBytes s p d) with
    | (t, .wrote) => (setSink t p d (afterLoss t p d), .wrote)
    | r => r
  else (s, .wrote)
/-- One record at the end of a sink that holds none back: written, lost, or not yet (R392, R402). A sink that a fault has disabled drops it. A time-base record tells the time and the quality with which it is written, also where it had to wait (R396, log 24). -/
def putOne (s : State) (p d : Nat) (r : TraceRec) : State × Bool :=
  let r := if r.typ = 0xC then timeBaseRec s p d else r
  if !sinkOn s p d then (s, true)
  else if !fits s p d r then (if (csctl s p d).getLsbD 1 || ownRec r then (s, false) else (countLost s p d, true))
  else match putLoss s p d r with
    | (s, .wait) => (s, false)
    | (s, .faulted) => (s, true)
    | (s, .wrote) => match ringWrite s p d (bytesNow (sink s p d) r) with
      | (s, .wrote) => (setSink s p d (sinkAfter (sink s p d) r), true)
      | (s, .wait) => (s, false)
      | (s, .faulted) => (s, true)

/-- Whether a sink's time-base record is due: first of all, after 2^16 records, when 1 ms has passed since the last (R396). -/
def timeBaseDue (s : State) (p d : Nat) : Bool :=
  let k := sink s p d
  k.fresh || decide (2 ^ 16 ≤ k.count) || decide (k.base + 256000000 ≤ now s)
/-- The sink's own record comes first when it is due (R396). -/
def putTimeBase (s : State) (p d : Nat) : State × Bool :=
  if timeBaseDue s p d then putOne s p d (timeBaseRec s p d) else (s, true)
/-- A record at the end of a sink, its time-base record first; a resume record goes before all but the first time-base record (R405). -/
def putNext (s : State) (p d : Nat) (r : TraceRec) : State × Bool :=
  if r.typ = 0xC ∨ (r.typ = 0xA ∧ (sink s p d).fresh = false) then putOne s p d r
  else match putTimeBase s p d with
    | (s, false) => (s, false)
    | (s, true) => putOne s p d r

/-- Records held by a sink, in order, until one cannot be written; one whose kind has been disabled since is dropped (R394). -/
def drain : Nat → State → Nat → Nat → State
  | 0, s, _, _ => s
  | f + 1, s, p, d =>
    if !sinkOn s p d then setSink s p d { sink s p d with held := [] }
    else match (sink s p d).held with
      | [] => s
      | r :: _ =>
        match if kindOn s p d r then putNext s p d r else (s, true) with
        | (s, false) => s
        | (s, true) => drain f (setSink s p d { sink s p d with held := (sink s p d).held.drop 1 }) p d
/-- All that a sink holds is written as far as it can be. -/
def drainAll (s : State) (p d : Nat) : State := drain ((sink s p d).held.length + 1) s p d
/-- A record that cannot be written now: kept until its page is translated; where there is no room, lost, or its emitter held, or kept by its home slice, or put in the reserve of 4 KiB (R402, R403). -/
def keepRecord (s : State) (p d : Nat) (r : TraceRec) : State :=
  let k := sink s p d
  let kept : Sink := { k with held := k.held ++ [r] }
  let size := fun (rs : List TraceRec) => (rs.map fun h => (encodeRec h k.last).length).sum
  let noRoom := !fitAll s p d ((if timeBaseDue s p d then [timeBaseRec s p d] else []) ++ k.held ++ [r])
  if ownRec r || !noRoom then setSink s p d kept
  else if !(csctl s p d).getLsbD 1 then countLost s p d
  else if holds k r then setSink s p d { kept with full := true }
  else if sliceKeeps r || size (k.held.filter reserveRec) + size [r] ≤ 4096 then setSink s p d kept
  else countLost s p d
/-- A record given to the sink of its partition on its source's die (R394), unless csctl.kinds leaves it out; a stopped die's sinks write nothing (R405). -/
def putRecord (s : State) (p d : Nat) (r : TraceRec) : State :=
  if !(sinkOn s p d) || !kindOn s p d r then s
  else if (die s (chipNo s * 4 + d)).stopped then setSink s p d { sink s p d with held := (sink s p d).held ++ [r] }
  else
    let s := drainAll s p d
    if !sinkOn s p d then s
    else if (sink s p d).held.isEmpty then
      match putNext s p d r with
      | (s, true) => s
      | (s, false) => keepRecord s p d r
    else keepRecord s p d r

/-- An engine event record (R401); `hold` tells whether its emitter waits for it (R403). -/
def eventRecord (s : State) (p d kind index code : Nat) (ops : List Byte) (hold : Bool) : State :=
  putRecord s p d ⟨8, 0, sourceId (chipNo s) d kind index, now s, BitVec.ofNat 8 code :: ops, hold⟩
/-- An engine event record (R401); those of homes, of the copy, matrix and collective engines and of front ends hold their emitter back (R403). -/
def engineEvent (s : State) (p d kind index code : Nat) (ops : List Byte) : State :=
  eventRecord s p d kind index code ops (decide (1 ≤ kind ∧ kind ≤ 5))

/-- Index of a group among the sources (R393). -/
def groupIndex (s : State) (g : Nat) : Nat := coreOf s g % 64 * 32 + (group s g).phys
/-- The source of a group (R393). -/
def groupSource (s : State) (g : Nat) : Nat := sourceId (chipNo s) (dieOf s g) 0 (groupIndex s g)
/-- A record of a group, to its partition's sink on its die; its stamps never go back (R396). `hold` is false where the group is saved, killed, reset or restored (R403). -/
def groupPut (s : State) (g time typ sub : Nat) (body : List Byte) (hold : Bool) : State :=
  let t := max time (group s g).trace.stamp
  let s := modGroup s g fun x => { x with trace := { x.trace with stamp := t } }
  putRecord s (partOf s g) (dieOf s g) ⟨typ, sub, groupSource s g, t, body, hold⟩

/-- Bits packed into bytes, bit i mod 8 of byte i / 8. -/
def packBits : Nat → List Bool → List Byte
  | 0, _ => []
  | f + 1, bs => if bs.isEmpty then []
      else BitVec.ofNat 8 ((bs.take 8).foldr (fun b a => 2 * a + if b then 1 else 0) 0) :: packBits f (bs.drop 8)
/-- Pending map bits written as a map record, stamped at the last branch (R398). -/
def flushMap (s : State) (g : Nat) (hold : Bool) : State :=
  let x := group s g
  if x.trace.map.isEmpty then s
  else
    let body := BitVec.ofNat 8 x.trace.map.length :: packBits 4 x.trace.map
    let s := setGroup s g { x with trace := { x.trace with map := [], branches := x.trace.branches + 1 } }
    groupPut s g x.trace.mapTime 2 0 body hold

/-- Summary byte and the words whose bit is 1 (R395). -/
def maskBytes (m : Mask) : List Byte :=
  let ws := (List.range 4).map fun k => bits m (32 * k + 31) (32 * k)
  let summary := (ws.zipIdx.map fun e => if e.1 = 0 then 0 else 2 ^ e.2).sum
  BitVec.ofNat 8 summary :: ws.flatMap fun w => if w = 0 then [] else leBytes 4 w
/-- One queued record of a sync body (R397). -/
def queueBytes : RqRec → List Byte
  | .run n _ => varint (n * 2)
  | .jump t => varint (t.toNat / 4 * 2 + 1)
/-- The release queue after one instruction of its run record is done (R38). -/
def countRun : List RqRec → List RqRec
  | .run n cap :: r => if n ≤ 1 then r else .run (n - 1) cap :: r
  | q => q
/-- The lane position after an issue of an instruction with repeat field n (R38, R155). -/
def advanceLane (l : LaneCtx) (n : Nat) : LaneCtx :=
  if l.rep < n then { l with rep := l.rep + 1 }
  else { l with rep := 0, lpc := l.lpc + 12, rq := countRun l.rq }
/-- The lane position with the next issue to come: an access or a booth request that waits for its home has issued (R397). -/
def nextIssue (x : Group) : LaneCtx :=
  match x.fly.lane with
  | some a => advanceLane x.lane a.op.n
  | none => if x.fly.booth.any (·.lane) then advanceLane x.lane 0 else x.lane
/-- A sync record's body (R397). -/
def syncBody (s : State) (g : Nat) : List Byte :=
  let x := group s g
  let x := { x with lane := nextIssue x }
  let t := team s x.team
  leBytes 4 (launch s t.launch).d.id.toNat ++ varint t.no ++ [BitVec.ofNat 8 x.no] ++
  varint (x.spc.toNat / 4) ++ varint (x.lane.lpc.toNat / 4) ++ [BitVec.ofNat 8 x.lane.rep] ++
  [BitVec.ofNat 8 x.lane.stack.length] ++ maskBytes x.lane.mask ++ [BitVec.ofNat 8 x.lane.rq.length] ++
  x.lane.rq.flatMap queueBytes

/-- A sync record (R397); it starts the count of branch records anew. That of a restore holds nothing back (R403). -/
def emitSync (s : State) (g reason : Nat) : State :=
  if (group s g).trace.bit then
    let hold := reason != 3
    let s := flushMap s g hold
    let s := groupPut s g (now s) 1 reason (syncBody s g) hold
    modGroup s g fun x => { x with trace := { x.trace with branches := 0 } }
  else s
/-- The sync record that follows every 256th branch record (R397). -/
def syncIfDue (s : State) (g : Nat) : State := if 256 ≤ (group s g).trace.branches then emitSync s g 1 else s
/-- Whether a record of an instruction that retires or issues at a time is written: the trace bit is on, and went on before (R399). -/
def traced (x : Group) (time : Nat) : Bool := x.trace.bit && decide (x.trace.since ≤ time)
/-- What goes before a record of a group that is to be written: pending map bits, and the sync record that they bring about, which tells the state before the instruction (R397, R398). -/
def traceAhead (s : State) (g time : Nat) : State := if traced (group s g) time then syncIfDue (flushMap s g true) g else s
/-- A record of a group, stamped at the time at which its instruction retires or issues (R390, R394). -/
def emitGroupAt (s : State) (g time typ sub : Nat) (body : List Byte) : State :=
  if traced (group s g) time then groupPut (traceAhead s g time) g time typ sub body true else s
/-- A record of a group stamped now. -/
def emitGroup (s : State) (g typ sub : Nat) (body : List Byte) : State := emitGroupAt s g (now s) typ sub body
/-- An `sbr` retired (R398). -/
def traceBranch (s : State) (g : Nat) (taken : Bool) : State :=
  if (group s g).trace.bit then
    let s := modGroup s g fun x => { x with trace := { x.trace with map := x.trace.map ++ [taken], mapTime := now s } }
    if 32 ≤ (group s g).trace.map.length then syncIfDue (flushMap s g true) g else s
  else s
/-- An indirect branch retired (R398). -/
def traceIndirect (s : State) (g : Nat) (from_ target : Word) : State :=
  if (group s g).trace.bit then
    let s := emitGroup s g 2 1 (zigzag ((target - from_).toInt / 4))
    syncIfDue (modGroup s g fun x => { x with trace := { x.trace with branches := x.trace.branches + 1 } }) g
  else s
/-- The group ends, stops, or is saved or killed: pending map bits are written (R398); only a group that stops or ends of itself waits for them (R403). -/
def traceStop (s : State) (g : Nat) (hold : Bool) : State := if (group s g).trace.bit then flushMap s g hold else s

/-- A trace setting takes effect at a scalar retirement boundary (R399). -/
def applyTrace (s : State) (g : Nat) : State :=
  match (group s g).trace.next with
  | none => s
  | some on =>
    let was := (group s g).trace.bit
    let s := if was && !on then flushMap s g true else s
    let s := modGroup s g fun x => { x with trace := { x.trace with bit := on, next := none, since := if on && !was then now s else x.trace.since } }
    if on && !was then emitSync s g 0 else s

/-- Whether a step emitted a record that a full lossless sink holds back: the step then does not take place yet (R403). -/
def heldBack (s : State) : Bool := s.sinks.any fun e => e.2.full

end Sys2Proof.Machine
end

