-- ==== Sys2Proof/Machine/Home.lean ====
section
/-! DEFINITION. What a home does (R134 to R141, R180 to R184, R240): reads, writes, atomics and accumulator slots of virtual memory, coherence objects on the way; and the same accesses to a scratchpad with its tags (R100, R113, R116). -/

namespace Sys2Proof.Machine

open Sys2Proof

/-- The requester for a group's own accesses (R322). -/
def whoOf (s : State) (g : Nat) (a : Agent) : Who :=
  let l := launch s (launchOf s g)
  ⟨a, l.part, l.d.asn, l.d.mask, coreOf s g⟩

/-- Copies sent on behalf of an object of a die: those dropped are counted in pdrop and recorded by the port that drops them (R324, R338, R401). -/
def sendCopies (s : State) (gd entry : Nat) (o : CObj) (targets : List Nat) : State :=
  droppedCopies putRecord s gd entry o targets
/-- A home gathers the partial sums of a slot of an object and merges them (R140, R141, R338). -/
def gatherSlot (s : State) (gd entry : Nat) (o : CObj) (norm : Bool) (slot : Nat) : State := gatherWith sendCopies s gd entry o norm slot
/-- Partial sums merged ahead of an ordinary access to a run (R140, R141). -/
def settleRun (s : State) (part : Nat) (va : Word) (g : Seg) : State := settleRunWith sendCopies s part va g
/-- Partial sums merged for all runs of an access. -/
def settle (s : State) (part : Nat) (va : Word) (gs : List Seg) : State := settleWith sendCopies s part va gs
/-- A load from lines in shared mode makes the core a recorded sharer of their objects (R105, R338). -/
def noteSharer (s : State) (who : Who) (va : Word) (n : Nat) : State :=
  (objsMet s who.part va n).foldl (fun s e =>
    if objMode e.2 = 1 ∧ e.2.sharers.contains who.core = false then
      modDie s (ownerOf va) fun x => { x with objs := tput CObj.blank x.objs e.1 { e.2 with sharers := e.2.sharers ++ [who.core] } }
    else s) s
/-- A store to lines in shared mode sends an update to every recorded sharer (R139, R338). -/
def noteUpdate (s : State) (who : Who) (va : Word) (n : Nat) : State := updateWith sendCopies s who.part va n

/-- An ordinary read of translated bytes at their home (R140). -/
def homeRead (s : State) (who : Who) (va : Word) (gs : List Seg) : State × List Byte :=
  let s := noteSharer (settle s who.part va gs) who va (segsLen gs)
  (s, readSegs s gs)
/-- An ordinary write of translated bytes at their home (R139, R141). -/
def homeWrite (s : State) (who : Who) (va : Word) (gs : List Seg) (bs : List Byte) : State :=
  storeWith sendCopies s who.part va gs bs

/-- The new value of an atomic on w bits, none where nothing is written (R183, R238). -/
def atomicNew (op w old x y : Nat) : Option Nat :=
  let sg (v : Nat) : Int := sext w v
  match op with
  | 0 => some x
  | 1 => some ((old + x) % 2 ^ w)
  | 2 => some (old &&& x)
  | 3 => some (old ||| x)
  | 4 => some (old ^^^ x)
  | 5 => some (if sg x < sg old then x else old)
  | 6 => some (if sg old < sg x then x else old)
  | 7 => some (min old x)
  | 8 => some (max old x)
  | _ => if old = x then some y else none
/-- An atomic at the home: the old value, one single-copy atomic step (R134, R184, R239). -/
def homeAtomic (s : State) (who : Who) (va : Word) (gs : List Seg) (op n x y : Nat) : State × Nat :=
  let s := settle s who.part va gs
  let old := ofLe (readSegs s gs)
  match atomicNew op (8 * n) old x y with
  | some v => (noteUpdate (writeSegs s gs (leBytes n v)) who va n, old)
  | none => (s, old)

/-- A contribution or a merge into a 128-byte slot at its home; in commute mode it is kept as the core's partial sum (R136, R140, R240). -/
def homeAcc (s : State) (who : Who) (va : Word) (flat : Nat) (f : LA → LA) : State :=
  match (objAt s who.part va).filter fun e => objMode e.2 == 2 with
  | some (i, _) =>
    let mine := s.parts.find? fun p => p.slot == flat && p.core == who.core
    let la := f ((mine.map (·.la)).getD LA.zero)
    { s with parts := (s.parts.filter fun p => !(p.slot == flat && p.core == who.core)) ++ [⟨ownerOf va, i, flat, who.core, la⟩] }
  | none => noteUpdate { s with mem := mwrite s.mem flat (laBytes (f (laOfBytes (mread s.mem flat 128)))) } who va 128

/-- The tag of the granule of 16 bytes that holds an offset (R358). -/
def tagAt (t : Team) (off : Nat) : Nat := tget 0 t.tags (off / 16)
/-- Whether the 16 bytes at an offset are a barrier object (R114). -/
def isBarrier (t : Team) (off : Nat) : Bool := off % 16 == 0 && tagAt t off == 1
/-- Whether an offset names a declared booth (R109). -/
def isBooth (t : Team) (off : Nat) : Bool := off % 32 == 0 && tagAt t off == 2
/-- Scratchpad bytes (R100). -/
def scratchRead (t : Team) (off n : Nat) : List Byte :=
  let w := t.scratch.filter fun e => off ≤ e.1 && e.1 < off + n
  (List.range n).map fun i => tget 0 w (off + i)
/-- Scratchpad bytes written whatever their tags: the controller's own writes. -/
def scratchPut (t : Team) (off : Nat) (bs : List Byte) : Team :=
  { t with scratch := mwrite t.scratch off bs }
/-- Granules of 64 scratchpad bytes that a write of a run covers (R359). -/
def scratchClean (t : Team) (off n : Nat) : Team :=
  if t.poison.isEmpty then t else { t with poison := t.poison.filter fun k => !decide (off ≤ k * 64 ∧ k * 64 + 64 ≤ off + n) }
/-- An ordinary write: tagged bytes keep their values, and the first of them is reported (R113, R116). -/
def scratchWrite (t : Team) (off : Nat) (bs : List Byte) : Team × Option Nat :=
  let bad := (List.range bs.length).filter fun i => tagAt t (off + i) != 0
  match bad with
  | [] => (scratchClean (scratchPut t off bs) off bs.length, none)
  | i :: _ =>
    let old := scratchRead t off bs.length
    (scratchPut t off ((List.range bs.length).map fun k => if bad.contains k then old.getD k 0 else bs.getD k 0), some (off + i))
/-- The first poisoned offset of a run of scratchpad bytes (R359). -/
def scratchPoison (t : Team) (off n : Nat) : Option Nat :=
  if t.poison.isEmpty then none else ((List.range n).map (off + ·)).find? fun i => t.poison.contains (i / 64)

end Sys2Proof.Machine
end

