-- ==== Sys2Proof/Machine/Tree.lean ====
section
/-! DEFINITION. The work tree of a launch (R17 to R22, R101, R112): products, nodes, coordinates, the teams of a cluster, the save area's addresses (R356). -/

namespace Sys2Proof.Machine

open Sys2Proof

/-- Product of the fan-outs of some levels. -/
def fanProd (ls : List Level) : Nat := (ls.map (·.fan)).foldl (· * ·) 1
/-- Levels that bind to one physical level (R18). -/
def boundTo (d : Desc) (p : Nat) : List Level := d.levels.filter fun l => l.bind == p
/-- Groups in a team (R19, R22). -/
def groupsPerTeam (d : Desc) : Nat := fanProd (boundTo d 1)
/-- Teams of a launch (R22). -/
def teamCount (d : Desc) : Nat := fanProd (d.levels.filter fun l => 2 ≤ l.bind)
/-- Lanes of a group that belong to nodes (R20, R42). -/
def laneCount (d : Desc) : Nat := if (boundTo d 0).isEmpty then Config.gwidth else fanProd (boundTo d 0)
/-- Teams of a cluster (R101): one where no level binds to cluster. -/
def clusterSize (d : Desc) : Nat := if (boundTo d 3).isEmpty then 1 else fanProd (boundTo d 2)
/-- Teams on one die beneath a die-bound level (R31); all the chip's teams where none binds to die. -/
def levelAt (d : Desc) (j : Nat) : Level := d.levels.getD j ⟨1, 0, []⟩
/-- Groups beneath one node of level j (R19). -/
def groupsBelow (d : Desc) (j : Nat) : Nat := fanProd ((d.levels.drop (j + 1)).filter fun l => 1 ≤ l.bind)
/-- Teams beneath one node of level j. -/
def teamsBelow (d : Desc) (j : Nat) : Nat := fanProd ((d.levels.drop (j + 1)).filter fun l => 2 ≤ l.bind)
/-- Lanes beneath one node of a lane-bound level j. -/
def lanesBelow (d : Desc) (j : Nat) : Nat := fanProd ((d.levels.drop (j + 1)).filter fun l => l.bind == 0)
/-- Linear number of a group over all teams. -/
def linearGroup (d : Desc) (teamNo grpNo : Nat) : Nat := teamNo * groupsPerTeam d + grpNo
/-- Mixed-radix number of the node of level j that holds a group (R19, R65). -/
def nodeOf (d : Desc) (j teamNo grpNo : Nat) : Nat := linearGroup d teamNo grpNo / groupsBelow d j
/-- Index of that node within its parent (R19, R65). -/
def coordOf (d : Desc) (j teamNo grpNo : Nat) : Nat := nodeOf d j teamNo grpNo % (levelAt d j).fan
/-- Index of a lane's node of a lane-bound level within its parent (R19). -/
def laneCoord (d : Desc) (j lane : Nat) : Nat := lane / lanesBelow d j % (levelAt d j).fan
/-- Number of a lane's node of a lane-bound level over levels 0 to j. -/
def laneNode (d : Desc) (j teamNo grpNo lane : Nat) : Nat :=
  (linearGroup d teamNo grpNo * laneCount d + lane) / lanesBelow d j
/-- Whether a level's node lies within one group (R25). -/
def withinGroup (d : Desc) (j : Nat) : Bool := (levelAt d j).bind == 0 || ((levelAt d j).bind == 1 && groupsBelow d j == 1)
/-- The deepest level at or above the team level: a team-level or higher scope (R22, R25). -/
def atOrAboveTeam (d : Desc) (j : Nat) : Bool := decide (2 ≤ (levelAt d j).bind)

/-- Bytes of a group's save area (R356). -/
def groupArea (d : Desc) : Nat := 0x4000 + 512 * d.v + 16384 * d.q
/-- Bytes of a team's save area (R356). -/
def teamArea (d : Desc) : Nat := 0x8000 + d.s + 131072 * d.t + 262144 + groupsPerTeam d * groupArea d
/-- Address of a team's save area (R356). -/
def teamSave (d : Desc) (n : Nat) : Word := d.save + BitVec.ofNat 64 (n * teamArea d)
/-- Address of a group's save area (R356, R358). -/
def groupSave (d : Desc) (n g : Nat) : Word :=
  teamSave d n + BitVec.ofNat 64 (0x8000 + d.s + 131072 * d.t + 262144 + g * groupArea d)

/-- The descriptor of a group's launch. -/
def descOf (s : State) (g : Nat) : Desc := (launch s (launchOf s g)).d
/-- The live team of a launch with a number. -/
def teamNamed (s : State) (l no : Nat) : Option Nat :=
  (s.work.teams.find? fun e => e.2.live && e.2.launch == l && e.2.no == no).map (·.1)

/-- The level whose nodes are saved whole: H, or the cluster level where H lies below it (R29, R102). A scope below die level whose node spans several clusters or teams, by a cluster- or core-bound level above the deepest one, is not saved as one: each cluster, or team, is saved by itself, though R278 takes the ranks of such a scope to lie in one cluster (DESIGN CHOICE, log 24). -/
def saveLevel (d : Desc) : Nat :=
  if clusterSize d ≤ teamsBelow d d.h then d.h
  else ((List.range d.levels.length).filter fun j => (levelAt d j).bind == 3).getLastD d.h
/-- The node that is saved whole with a team (R27, R29, R102). -/
def saveNode (s : State) (t : Nat) : Nat := let x := team s t; let d := (launch s x.launch).d; nodeOf d (saveLevel d) x.no 0
/-- Whether a core of a team's node has counted its deadline down to 0 (R320). -/
def forced (s : State) (t : Nat) : Bool :=
  s.work.teams.any fun e => e.2.live && e.2.launch == (team s t).launch && e.2.preq && e.2.pdead == 0 && saveNode s e.1 == saveNode s t
/-- Whether a team's node is being saved (R320, R353). -/
def saving (s : State) (t : Nat) : Bool :=
  ((launch s (team s t).launch).saved.any fun n => !n.complete && n.node == saveNode s t) || forced s t

/-- What a cluster scratch address names (R101): a trap for its zero bits, a bounds fault for a team that is not there or an offset at or past S, or a team and an offset. -/
inductive CsAddr where
  | bad
  | none
  | at (t off : Nat)
  deriving DecidableEq, Repr

/-- A cluster scratch address read for a team (R101). -/
def clusterAddr (s : State) (t : Nat) (a : Nat) : CsAddr :=
  let x := team s t
  let d := (launch s x.launch).d
  let other := a / 2 ^ 31 % 2 = 1
  let index := a / 2 ^ 24 % 16
  let off := a % 2 ^ 21
  if a / 2 ^ 28 % 8 ≠ 0 ∨ a / 2 ^ 21 % 8 ≠ 0 ∨ (¬ other ∧ index ≠ 0) then .bad
  else if other then
    if clusterSize d ≤ index then .none
    else match teamNamed s x.launch (x.cluster * clusterSize d + index) with
      | some u => if d.s ≤ off then .none else .at u off
      | Option.none => .none
  else if d.s ≤ off then .none else .at t off

/-- Groups of a node of level j of a launch, by team number and group number (R197). -/
def parties (d : Desc) (j node : Nat) : List (Nat × Nat) :=
  (List.range (groupsBelow d j)).map fun i =>
    let n := node * groupsBelow d j + i
    (n / groupsPerTeam d, n % groupsPerTeam d)
/-- Whether a group has ended (R187): its team has ended, or it is no longer among the groups of its live team. -/
def groupEnded (s : State) (l tn gn : Nat) : Bool :=
  (launch s l).ended.contains tn ||
  match teamNamed s l tn with
  | some t => !((team s t).groups.any fun g => (group s g).no == gn)
  | none => (launch s l).saved.any fun n => n.teams.any fun t => t.t.no == tn && !(t.groups.any fun g => g.2.no == gn)

end Sys2Proof.Machine
end

