-- ==== Sys2Proof/Machine/Ops.lean ====
section
/-! DEFINITION. Shared operations of a group: retirement, records of traps and faults (R343 to R345), taking an exception (R346) and returning from it (R349), the end of groups, teams and launches (R187, R347, R351). -/

namespace Sys2Proof.Machine

open Sys2Proof

/-- Address-space number of a group's instruction fetches (R321). -/
def fetchAsn (s : State) (g : Nat) : BitVec 8 :=
  if inHandler (group s g) then BitVec.ofNat 8 (bits (preg s (partOf s g) 4) 7 0) else (descOf s g).asn
/-- The requester of a group's fetches (R321, R322). -/
def fetchWho (s : State) (g : Nat) (a : Agent) : Who := { whoOf s g a with asn := fetchAsn s g }
/-- Bytes as a translated fetch sees them, without effect on the state. -/
def peekBytes (s : State) (g : Nat) (va : Word) (n : Nat) : List Byte :=
  match tlbFind (die s (ownerOf va)) (partOf s g) (fetchAsn s g) (pageOf va) with
  | some e => mread s.mem (leafFlat e.leaf e.level va) n
  | none => List.replicate n 0
/-- The record of an illegal scalar instruction: its word (R344). -/
def illegalScalarRec (s : State) (g cause : Nat) : FaultRec :=
  ⟨0, cause, 0, 0xFF, BitVec.ofNat 32 (ofLe (peekBytes s g (group s g).spc 4)), 0⟩
/-- The record of an illegal lane instruction, of the lane source or of the tile source: its three words (R344). -/
def illegalLaneRec (s : State) (g cause source : Nat) : FaultRec :=
  let lpc := (group s g).lane.lpc
  ⟨0, cause, BitVec.ofNat 8 (accessByte false false false source), 0xFF, BitVec.ofNat 32 (ofLe (peekBytes s g lpc 4)),
   BitVec.ofNat 64 (ofLe (peekBytes s g (lpc + 4) 4) + 2 ^ 32 * ofLe (peekBytes s g (lpc + 8) 4))⟩
/-- The tile instruction of the context that a handler has interrupted, while it runs on (R347). -/
def frameTile (x : Group) : Option TileOp := (x.handler.bind (·.tile)).filter fun t => t.phase != .abandoned
/-- The tile instruction with which the matrix engine deals for a group: that of the interrupted context goes before the handler's own (R262, R347). -/
def tileOf (x : Group) : Option TileOp := frameTile x <|> x.fly.tile
/-- The group with that tile instruction replaced or gone. -/
def putTile (x : Group) (t : Option TileOp) : Group :=
  if (frameTile x).isSome then { x with handler := x.handler.map fun f => { f with tile := t } }
  else { x with fly := { x.fly with tile := t } }
/-- What a stop leaves of a tile instruction that is not in the queue: one whose counters are raised re-enters later, one that has not entered is issued anew (R265). -/
def stopTile (t : Option TileOp) : Option TileOp :=
  t.bind fun t => if t.phase != .waiting then some t else if t.raised then some { t with phase := .abandoned } else none

/-- The group an agent acts for. -/
def agentGroup : Agent → Option Nat
  | .scalar g => some g
  | .lane g => some g
  | .fetchS g => some g
  | .fetchL g => some g
  | .vec g => some g
  | .tile g => some g
  | _ => none
/-- Requests of a group that waits for walks are forgotten. -/
def dropAgents (s : State) (g : Nat) : State :=
  { s with work := { s.work with waits := s.work.waits.filter (fun e => agentGroup e.agent != some g),
                                 faults := s.work.faults.filter fun e => agentGroup e.1 != some g } }

/-- Lines and partial sums that a core holds for a partition are dropped when its last resident team there leaves (R106, R339, R141). -/
def dropLines (s : State) (c part : Nat) : State :=
  if hasTeam s c part then s
  else
    let clean := fun (o : Nat × CObj) =>
      (o.1, if o.2.part = part ∨ o.2.dual = some part then { o.2 with sharers := o.2.sharers.filter (· != c) } else o.2)
    let s : State := { s with dies := s.dies.map fun (e : Nat × Die) => (e.1, { e.2 with objs := e.2.objs.map clean }) }
    (s.parts.filter fun p => p.core == c).foldl (fun s p => mergeSlot s p.slot true) s
/-- A group's parked booth request leaves the queue at its owner (R111, R247). -/
def leaveBooth (s : State) (g : Nat) : State :=
  match (group s g).fly.booth with
  | some o => modTeam s o.owner fun t => { t with parked := t.parked.filter fun e => e.2 != g }
  | none => s
/-- A group's slot is freed (R187); `hold` says whether it waits for its last record (R403). -/
def freeGroup (s : State) (g : Nat) (hold : Bool) : State :=
  let s := leaveBooth (dropAgents (traceStop s g hold) g) g
  let x := group s g
  let c := coreOf s g
  let s := modCore s c fun k => { k with queue := k.queue.filter (· != g) }
  let s := modTeam s x.team fun t => { t with groups := t.groups.filter (· != g) }
  setGroup s g Group.blank
/-- A team's stores and reservations are released (R187, R269). -/
def freeTeam (s : State) (t : Nat) : State :=
  let x := team s t
  let part := (launch s x.launch).part
  let s := x.groups.foldl (fun s g => freeGroup s g false) s
  let s := setTeam s t Team.blank
  let stays := s.work.teams.any fun e => e.2.live && e.2.core == x.core && e.2.launch == x.launch
  let s := modCore s x.core fun k => { k with ro := k.ro.filter fun e => e.1 != x.launch || stays,
                                              want := k.want.filter fun e => e.1 != x.launch || stays }
  dropLines s x.core part

/-- The node barrier of a level and node (R197). -/
def barKey (level node : Nat) : Nat := node * 16 + level
/-- A node barrier at its start. -/
def barBlank : NodeBar := ⟨0, []⟩
/-- A node barrier whose every party has arrived or ended advances its phase (R197, R187). -/
def settleBar (s : State) (l level node : Nat) : State :=
  let b := tget barBlank (launch s l).bars (barKey level node)
  if b.arrived.isEmpty then s
  else if (parties (launch s l).d level node).all fun p => b.arrived.contains p || groupEnded s l p.1 p.2 then
    modLaunch s l fun x => { x with bars := tput barBlank x.bars (barKey level node) ⟨b.phase + 1, []⟩ }
  else s
/-- Every node barrier of a launch is tested after a group has ended (R187). -/
def settleBars (s : State) (l : Nat) : State :=
  (launch s l).bars.foldl (fun s e => settleBar s l (e.1 % 16) (e.1 / 16)) s

/-- A group ends (R187): its slot is freed, the team with its last group, and it counts as arrived at every node barrier. -/
def endGroup (s : State) (g : Nat) : State :=
  let t := (group s g).team
  let l := (team s t).launch
  let s := freeGroup s g true
  let s := if (team s t).groups.isEmpty then
      let no := (team s t).no
      freeTeam (modLaunch s l fun x => { x with ended := x.ended ++ [no] }) t
    else s
  settleBars s l

/-- Whether a group's launch has ended or is killed, so that the group issues nothing more (R351). -/
def killed (s : State) (g : Nat) : Bool := (launch s (launchOf s g)).fin.isSome
/-- Whether an access of a group is under way, so that its next boundary is still to come (R46, R175). -/
def midAccess (x : Group) : Bool := x.fly.scalar.isSome || x.fly.lane.isSome
/-- A killed group whose access is under way keeps nothing else to do: its tile instructions are abandoned, its booth request leaves (R351). -/
def haltGroup (s : State) (g : Nat) : State :=
  let s := modCore (leaveBooth s g) (coreOf s g) fun k => { k with queue := k.queue.filter (· != g) }
  modGroup s g fun x => { x with fly := { x.fly with waiting := none, tile := none, booth := none, yielded := false }
                                 handler := x.handler.map fun f => { f with tile := none } }
/-- A killed team (R351): its copies are discarded, its groups are freed at their next boundaries, and the team with the last of them. -/
def reapTeam (s : State) (t : Nat) : State :=
  let s := modTeam s t fun x => { x with copies := [] }
  let s := (team s t).groups.foldl (fun s g => if midAccess (group s g) then haltGroup s g else freeGroup s g false) s
  if (team s t).groups.isEmpty then freeTeam s t else s
/-- The resident teams of a launch. -/
def teamsOf (s : State) (l : Nat) : List Nat := (s.work.teams.filter fun x => x.2.live && x.2.launch == l).map (·.1)
/-- A launch is killed (R351, R387): its groups stop at their next boundaries and are freed, its copies and collectives are discarded, no save is made. -/
def killLaunch (s : State) (l : Nat) (e : EndInfo) : State :=
  if (launch s l).fin.isSome then s
  else
    let s := { s with work := { s.work with colls := s.work.colls.filter fun c => c.2.any fun x => x.launch != l } }
    let s := (teamsOf s l).foldl reapTeam s
    modLaunch s l fun x => { x with fin := some e, ends := now s, phase := .ending, saved := [], bars := [] }
/-- Whether the package takes part in its pod (R383). -/
def linked (s : State) : Bool := s.pod.en && !s.pod.dup
/-- The pod registers change; chips that fall out of reach are noted with the time (R375). -/
def setPod (s : State) (p : Pod) : State :=
  let lost := (List.range 64).filter fun c => reaches s.pod c && !reaches p c
  { s with pod := { p with gone := lost.foldl (fun t c => tput 0 t c (now s)) p.gone } }
/-- Messages sent to other chips, while the package takes part in its pod (R383). -/
def sendAll (s : State) (ms : List Msg) : State :=
  if linked s then { s with out := { s.out with messages := s.out.messages ++ ms } } else s
/-- Messages that tell the other chips of a launch that it is killed (R351, R387). -/
def killMessages (s : State) (l : Nat) (e : EndInfo) : State :=
  let x := launch s l
  let cs := (List.range 64).filter fun c => x.d.mask.getLsbD c && c != chipNo s
  sendAll s (cs.map fun c => Msg.kill c x.part x.d.id.toNat e)
/-- What is told to the other chips of a launch's mask of its pre-emption (R29, R320, R352, log 11). -/
def tellChips (s : State) (l : Nat) (m : FarPreempt) : State :=
  let x := launch s l
  let cs := (List.range 64).filter fun c => x.d.mask.getLsbD c && c != chipNo s
  sendAll s (cs.map fun c => Msg.preempt c x.part x.d.id.toNat m)
/-- A launch is killed here, and the other chips of its mask are told (R351, R387). -/
def killEverywhere (s : State) (l : Nat) (e : EndInfo) : State :=
  if (launch s l).fin.isSome then s else killMessages (killLaunch s l e) l e
/-- The launch of a group ends with the unhandled-fault error and a code (R321, R347, R351, R377). -/
def unhandled (s : State) (g code : Nat) : State :=
  killEverywhere s (launchOf s g) ⟨3, 0, code, chipNo s, (team s (group s g).team).no, (group s g).no⟩

/-- A group record of the group's own streams becomes pending; one raised by a handler ends the launch (R345, R347). A group holds one: a fault of the other stream, which has had no effect, is met again when its instruction starts again (R175). -/
def raiseStream (s : State) (g : Nat) (r : FaultRec) : State :=
  if inHandler (group s g) then unhandled s g (0x8000 + r.cls)
  else if (group s g).pend.stream.isSome then s
  else modGroup s g fun x => { x with pend := { x.pend with stream := some r, order := x.pend.order ++ [0] } }
/-- The barrier-clobber record of the lanes whose writes were suppressed: the lowest lane, its lowest suppressed byte, the number of lanes (R237, R344). -/
def clobberRec (source : Nat) (cs : Tab Word) : FaultRec :=
  let first := cs.headD (0, 0)
  ⟨9, 0, BitVec.ofNat 8 (accessByte false true false source), BitVec.ofNat 8 first.1, BitVec.ofNat 32 cs.length, first.2⟩
/-- Suppressed writes of a lane instruction are reported once it is complete in every lane, repeats and replays included (R237). -/
def raiseClobbers (s : State) (g : Nat) : State :=
  let l := (group s g).lane
  if l.clob.isEmpty || l.park.fmask != 0 || l.rep != 0 || (group s g).pend.stream.isSome then s
  else raiseStream (modGroup s g fun x => { x with lane := { x.lane with clob := [] } }) g (clobberRec 1 l.clob)
/-- A walk ends: its requests go on, or with a cause take the page fault, 0x5 for a walker error, whose record holds nothing back (R330, R333, R403). -/
def finishWalk (s : State) (w : Nat) (cause : Option Nat) : State :=
  match walk s w with
  | none => s
  | some x =>
    let mine := s.work.waits.filter fun e => e.walk == w
    let fs := match cause with
      | none => []
      | some c => (mine.filter fun e => e.acc &&& x.acc == e.acc).map fun e => (e.agent, x.die, pageOf x.va, c)
    let s := setWalk s w none
    let s := { s with work := { s.work with waits := s.work.waits.filter (fun e => e.walk != w),
                                            faults := s.work.faults ++ fs } }
    if x.die / 4 = chipNo s then
      eventRecord s x.part (x.die % 4) 3 (bits x.va 11 8) 8
        (varint x.va.toNat ++ varint (match cause with | none => 0xFF | some c => c)) (cause != some 5)
    else s
/-- A walker error (R330, R401). -/
def walkError (s : State) (w : Nat) : State :=
  match walk s w with
  | none => s
  | some x =>
    let s := if x.die / 4 = chipNo s then
        engineEvent s x.part (x.die % 4) 6 (x.ctx % 512) 9 (varint x.va.toNat ++ varint x.cycles)
      else s
    finishWalk s w (some 5)

/-- A scalar trap or fault of the running context (R46). A group takes it once the lane instruction that waits for its homes is done, so that a group has one record of its own streams; in a walk it is a walker error (R330). -/
def raiseScalar (s : State) (r : FaultRec) : State :=
  match s.cur with
  | .group g => if (group s g).fly.lane.isSome then s
      else raiseStream s g r
  | .walk w => walkError s w
  | .none => s
/-- The illegal-instruction trap of the running scalar instruction with a cause (R343). -/
def illegal (s : State) (cause : Nat) : State := raiseScalar s (illegalScalarRec s (curGroup s) cause)
/-- A record of the scalar source (R344). -/
def scalarRec (cls cause : Nat) (w r : Bool) (addr : Word) : FaultRec := mkRec cls cause (accessByte false w r 0) addr

/-- The scalar instruction retires and SPC takes a value (R174, R186); a trace setting then takes effect (R399). -/
def retireTo (s : State) (target : Word) : State :=
  match s.cur with
  | .group g =>
    let s := modGroup s g fun x => { x with spc := target, fly := { x.fly with waiting := none, yielded := false } }
    applyTrace s g
  | _ => setSpc s target
/-- The scalar instruction retires and SPC advances by 4 (R35). -/
def retire (s : State) : State := retireTo s (curSpc s + 4)
/-- A scalar result: the destination is written and the instruction retires (R174). -/
def result (s : State) (d : SReg) (v : Word) : State := retire (setS s d v)
/-- The scalar instruction waits: it has no effect yet and starts again later (R175). -/
def wait (s : State) (i : Instr) : State :=
  match s.cur with
  | .group g => modGroup s g fun x => { x with fly := { x.fly with waiting := some i } }
  | _ => s

/-- Whether the lane stream of a group is idle: nothing released is still to issue or to complete (R38, R40). -/
def laneIdle (x : Group) : Bool :=
  x.lane.rq.isEmpty && x.fly.lane.isNone && x.fly.tile.isNone && x.lane.park.fmask == 0 &&
  !(x.fly.booth.any (·.lane))
/-- Whether every released lane instruction has issued (R40, R64); a tile instruction counts as issued at its commit (R262). In a handler it is the handler's own lane stream that a fence, a release or an acquiring `xcopy` waits for, not that of the interrupted context in the frame, on which the manual is silent (DESIGN CHOICE, log 6). -/
def laneIssued (x : Group) : Bool := x.lane.rq.isEmpty && x.fly.lane.isNone && x.fly.tile.isNone && x.lane.park.fmask == 0 &&
  !(x.fly.booth.any (·.lane))
/-- Records in the release queue, those held under R47 included: the held list is the queue as it stood, the queue itself what the run-on has left of it (R36, R47). -/
def rqLength (x : Group) : Nat := if x.lane.park.fmask = 0 then x.lane.rq.length else max x.lane.rq.length x.lane.park.full.length
/-- A record appended to the release queue (R36). -/
def appendRecord (x : Group) (r : RqRec) : Group :=
  { x with lane := { x.lane with rq := x.lane.rq ++ [r],
                                 park := if x.lane.park.fmask = 0 then x.lane.park
                                   else { x.lane.park with full := x.lane.park.full ++ [r] } } }
/-- The run-on of parked lanes ends: the group stops precisely (R47). -/
def endRunOn (x : Group) : Group :=
  if x.lane.park.fmask = 0 ∨ x.lane.park.replaying then x else { x with lane := { x.lane with stopped := true } }

/-- The pending group record that an entry of the order of report names (R345): 0 the streams', 1 the tile instruction's, 2 + m copy m's, 0x1000 + c that of collective c. -/
def pendingRec (s : State) (g code : Nat) : Option FaultRec :=
  let x := group s g
  if code = 0 then x.pend.stream
  else if code = 1 then x.pend.tile
  else if code < 0x1000 then (tget none (team s x.team).copies (code - 2)).bind fun c => c.susp <|> c.record
  else (coll s (code - 0x1000)).bind fun c =>
    ((tget none c.ranks ((c.ranks.find? fun e => e.2.any fun r => r.team == x.team).map (·.1) |>.getD 0))).bind fun r => r.susp <|> r.record
/-- The pending group records of a group, oldest report first. -/
def pendingRecs (s : State) (g : Nat) : List (Nat × FaultRec) :=
  (group s g).pend.order.filterMap fun c => (pendingRec s g c).map fun r => (c, r)
/-- Whether a group holds records to deliver (R345). -/
def hasRecords (s : State) (g : Nat) : Bool :=
  !(group s g).pend.order.isEmpty || ((group s g).lane.park.fmask != 0 && (group s g).lane.stopped)
/-- The chosen class: the lowest among all pending records (R345). -/
def chosenClass (s : State) (g : Nat) : Option Nat :=
  let all := (pendingRecs s g).map (·.2.cls) ++ (group s g).lane.park.recs.map (·.2.cls)
  all.foldl (fun a c => some (match a with | none => c | some b => min b c)) none
/-- The ranks of a collective changed where they are a team's (R278). -/
def mapRanks (c : Coll) (t : Nat) (f : CollRank → CollRank) : Coll :=
  { c with ranks := c.ranks.map fun e => (e.1, e.2.map fun r => if r.team = t then f r else r) }
/-- A group has been told of its rank's fault (R288, R293). -/
def tellRank (s : State) (t c no : Nat) : State :=
  setColl s c ((coll s c).map fun x => mapRanks x t fun r => { r with toTell := r.toTell.filter (· != no) })
/-- A collective goes on once every group of each rank that met an invalid entry has been told (R293). -/
def resumeColl (x : Coll) (t : Nat) : Coll :=
  if x.suspended then
    let x := mapRanks x t fun r => if r.toTell.isEmpty then { r with susp := Option.none } else r
    { x with suspended := x.ranks.any fun e => e.2.any fun r => r.susp.isSome }
  else x
/-- After a handler returns, the group's suspended copies and its team's suspended collective steps resume (R243, R293, R349). -/
def resumeEngines (s : State) (g : Nat) : State :=
  let t := (group s g).team
  let s := modTeam s t fun x => { x with copies := x.copies.map fun e =>
    (e.1, e.2.map fun c => if c.group = g then { c with suspended := c.suspended && c.susp.isSome, hand := false } else c) }
  let no := (group s g).no
  { s with work := { s.work with colls := s.work.colls.map fun e => (e.1, e.2.map fun x =>
    mapRanks (resumeColl x t) t fun r => { r with hand := r.hand.filter (· != no) }) } }
/-- A copy whose record was delivered: a suspended one goes on after the handler, with the fault it has noted before; a completed one leaves its place (R243). -/
def dropCopyRec (cs : Tab (Option Copy)) (m : Nat) : Tab (Option Copy) :=
  match tget Option.none cs m with
  | some c => tput Option.none cs m (if c.susp.isSome then some { c with susp := Option.none } else Option.none)
  | Option.none => cs
/-- A delivered record is no longer pending; a copy that only waited for this leaves its place, a suspended copy resumes (R243, R345). -/
def dropRecord (s : State) (g code : Nat) : State :=
  let s := modGroup s g fun x => { x with pend := { x.pend with order := x.pend.order.filter (· != code) } }
  if code = 0 then modGroup s g fun x => { x with pend := { x.pend with stream := none } }
  else if code = 1 then modGroup s g fun x => { x with pend := { x.pend with tile := none } }
  else if code < 0x1000 then
    modTeam s (group s g).team fun t => { t with copies := dropCopyRec t.copies (code - 2) }
  else tellRank s (group s g).team (code - 0x1000) (group s g).no

/-- Whether a waiting instruction has sent its request, so that it can only wait for its reply (R175): an `sslotx` that has asked the cores to copy (R316), a `bdecl` that has asked the controller (R246), a `pmap` or a `tlbinv` that has asked another chip's home (R335, R337). -/
def sentWait (x : Group) : Bool := x.fly.yielded && (match x.fly.waiting with | some (.sslotx _) => true | some (.bdecl _ _) => true | some (.pmap _ _ _) => true | some (.tlbinv _ _) => true | _ => false)
/-- Whether a group stands at a precise stop at which it may vector (R45, R345): both streams are between instructions, no replay is under way; a tile instruction in flight runs on (R347). -/
def atStop (x : Group) : Bool :=
  x.live && !inHandler x && !sentWait x && !x.lane.park.replaying && x.fly.scalar.isNone && x.fly.lane.isNone &&
  !(x.fly.booth.any fun b => b.row.isSome || b.lane)

/-- The entry of the handler table that class k selects: entry SPC and LPC; wait for a walk; or no handler (R321). -/
inductive HandlerRes where
  | entry (hspc hlpc : Word)
  | wait
  | none
  deriving DecidableEq, Repr
/-- The handler table is read and its entry addresses are checked (R321). -/
def handlerEntry (s : State) (g k : Nat) : State × HandlerRes :=
  let ptab := preg s (partOf s g) 4
  let base := ptab &&& 0x3FFFFFFFFFFFFE00
  let who : Who := { whoOf s g (.vec g) with asn := BitVec.ofNat 8 (bits ptab 7 0) }
  let va := base + BitVec.ofNat 64 (16 * k)
  if base = 0 ∨ (addressFault who.mask va 16).isSome then (s, .none)
  else match xlate s who 1 va 16 with
    | (s, .wait) => (s, .wait)
    | (s, .fault _ _ _) => (s, .none)
    | (s, .ok segs) =>
      let bs := readSegs s segs
      let hspc := BitVec.ofNat 64 (fieldAt bs 0 8)
      let hlpc := BitVec.ofNat 64 (fieldAt bs 8 8)
      if (poisonIn s segs).isSome ∨ hspc = 0 ∨ bits hspc 1 0 ≠ 0 ∨ bits hlpc 1 0 ≠ 0 ∨
         (addressFault who.mask hspc 4).isSome ∨ (addressFault who.mask hlpc 12).isSome then (s, .none)
      else match xlate s who 4 hspc 4 with
        | (s, .wait) => (s, .wait)
        | (s, .fault _ _ _) => (s, .none)
        | (s, .ok _) => match xlate s who 4 hlpc 12 with
          | (s, .wait) => (s, .wait)
          | (s, .fault _ _ _) => (s, .none)
          | (s, .ok _) => (s, .entry hspc hlpc)

/-- Word j of a record in the lanes of the handler mask (R346). -/
def recWord (r : FaultRec) (j : Nat) : LWord := BitVec.ofNat 32 (fieldAt (recBytes r) (4 * j) 4)
/-- Lane vector with the lanes of a mask taken from a function. -/
def setLanes (m : Mask) (old : LaneVec) (f : Nat → LWord) : LaneVec :=
  old.zipIdx.map fun e => if m.getLsbD e.2 then f e.2 else e.1

/-- Whether a poisoned unit is a register that the frame keeps: s56 to s63, and v0 to v3 of the handler's lanes (R346, R359). -/
def framed (hmask : Mask) (p : PoisonUnit) : Bool :=
  (p.kind == 0 && decide (56 ≤ p.reg)) || (p.kind == 1 && decide (p.reg < 4) && hmask.getLsbD p.lane)
/-- v0 to v3 of the handler's lanes take the words of their records (R346); a write of a whole slice clears its poison (R359). -/
def giveRecords (x : Group) (hmask : Mask) (recs : Tab FaultRec) : Group :=
  let y := (List.range 4).foldl (fun x j => setVreg x j (setLanes hmask (vreg x j) fun i =>
    ((recs.find? fun e => e.1 == i).map fun e => recWord e.2 j).getD 0)) x
  { y with poison := y.poison.filter fun p => !framed hmask p }
/-- TAKING AN EXCEPTION: the group vectors to class k with its handler's entry addresses (R346). Lane records of other classes stay pending (R345). -/
def takeException (s : State) (g k : Nat) (hspc hlpc : Word) : State :=
  let s := leaveBooth (dropAgents (traceStop s g true) g) g
  let x := group s g
  let delivered := (pendingRecs s g).find? fun e => e.2.cls == k
  let recs := x.lane.park.recs.filter fun e => e.2.cls == k
  let hmask := maskOf fun i => recs.any fun e => e.1 == i
  let park : Park := { x.lane.park with recs := x.lane.park.recs.filter fun e => e.2.cls != k }
  let frame : Frame := ⟨x.spc, { x.lane with park := park, stopped := false }, x.level, hmask,
    (List.range 8).map (fun i => sregOf x (56 + i)), (List.range 4).map (fun j => vreg x j), stopTile x.fly.tile,
    x.poison.filter (framed hmask)⟩
  let r := (delivered.map (·.2)).getD ((recs.head?.map (·.2)).getD ⟨0, 0, 0, 0, 0, 0⟩)
  let bs := recBytes r
  let s58 := maskCount hmask * 2 ^ 32 + (if recs.isEmpty then 0 else 512) + (if delivered.isSome then 256 else 0) + k
  let save := groupSave (descOf s g) (team s x.team).no x.no + 0x4000
  let s := match delivered with
    | some (c, _) => dropRecord s g c
    | none => s
  let x := group s g
  let x := setSregOf x 56 (BitVec.ofNat 64 (fieldAt bs 0 8))
  let x := setSregOf x 57 (BitVec.ofNat 64 (fieldAt bs 8 8))
  let x := setSregOf x 58 (BitVec.ofNat 64 s58)
  let x := setSregOf x 59 x.spc
  let x := setSregOf x 60 x.lane.lpc
  let x := setSregOf x 61 0
  let x := setSregOf x 63 0
  let x := setSregOf x 62 save
  let x := giveRecords x hmask recs
  let mask := if hmask = 0 then x.lane.start else hmask
  let s := setGroup s g { x with
    spc := hspc, level := if x.level = 0 then 1 else x.level, handler := some frame,
    lane := { x.lane with lpc := hlpc, rep := 0, base := hlpc, mask := mask, stack := [], rq := [],
                          park := Park.none, stopped := false, clob := [] },
    fly := { x.fly with waiting := none, tile := none, booth := none, yielded := false } }
  emitSync s g 4

/-- RETURN FROM AN EXCEPTION: the interrupted context is restored; parked lanes are replayed from the replay point; an abandoned tile instruction re-enters, one in flight goes on (R48, R349). -/
def returnException (s : State) (g : Nat) : State :=
  let x := group s g
  match x.handler with
  | none => s
  | some f =>
    let x := f.s56.zipIdx.foldl (fun x e => setSregOf x (56 + e.2) e.1) x
    let x := f.v0.zipIdx.foldl (fun x e => setVreg x e.2
      (setLanes f.hmask (vreg x e.2) fun i => e.1.getD i 0)) x
    let x := { x with poison := (x.poison.filter fun p => !framed f.hmask p) ++ f.poison }
    let p := f.lane.park
    let lane := if p.fmask = 0 then f.lane
      else { f.lane with lpc := p.lpc, rep := p.rep, rq := p.full,
                         park := { p with replaying := true, index := 0, stopLpc := f.lane.lpc, stopRep := f.lane.rep,
                                          stopRq := f.lane.rq } }
    let s := setGroup s g { x with spc := f.spc, level := (launch s (launchOf s g)).priv, handler := none, lane := lane,
                                   fly := { x.fly with waiting := none, tile := f.tile } }
    raiseClobbers (emitSync (resumeEngines s g) g 5) g

end Sys2Proof.Machine
end

