-- ==== Sys2Proof/Machine/Flags.lean ====
section
/-! DEFINITION. The machine has no condition flags (R174). What takes their place: the branch conditions on a scalar register (R149), the mask summary (R41) and the lane summaries of R149. -/

namespace Sys2Proof.Machine

open Sys2Proof

/-- Whether a condition holds on a value (R149). -/
def condHolds (c : BitVec 4) (v : Word) : Bool :=
  match c.toNat with
  | 0 => v == 0
  | 1 => v != 0
  | 2 => v.slt 0
  | 3 => !v.slt 0
  | 4 => !v.slt 0 && v != 0
  | 5 => v.slt 0 || v == 0
  | 6 => v.getLsbD 0
  | 7 => !v.getLsbD 0
  | 8 => v.getLsbD 1
  | _ => !v.getLsbD 1

/-- Mask word w (R41). -/
def maskWord (m : Mask) (w : Nat) : LWord := m.extractLsb' (32 * w) 32
/-- The 4-bit summary: bit k is 1 exactly when word k is nonzero (R41). -/
def maskSummary (m : Mask) : BitVec 4 :=
  BitVec.ofBool (maskWord m 3 != 0) ++ BitVec.ofBool (maskWord m 2 != 0) ++ BitVec.ofBool (maskWord m 1 != 0) ++
  BitVec.ofBool (maskWord m 0 != 0)

/-- A comparison's outcome as the scalar result 1 or 0 (R176). -/
def boolWord (b : Bool) : Word := if b then 1 else 0
/-- The word a lane summary writes: bit 0 any, bit 1 all of the lanes considered (R149, R221). -/
def anyAll (bs : List Bool) : Word := boolWord (bs.any id) + 2 * boolWord (bs.all id)

end Sys2Proof.Machine
end

