-- ==== Sys2Proof/Machine/Operands.lean ====
section
/-! DEFINITION. Operand forms: scalar addresses (R180, R181), scopes (R25, R27), lane register numbers with their steps (R155), execution of lanes and elements under mask and predicate (R41, R53 to R56), operand b (R157). -/

namespace Sys2Proof.Machine

open Sys2Proof

/-- A scalar instruction that only a group may issue; in a walk it is a walker error (R330). -/
def onGroup (s : State) (k : Nat → State) : Out :=
  match s.cur with
  | .group g => .next (k g)
  | .walk w => .next (walkError s w)
  | .none => .next s
/-- A function run as an instruction of a group. -/
def asGroup (s : State) (g : Nat) (f : State → State) : State := { f { s with cur := .group g } with cur := s.cur }
/-- A privileged instruction: at level 0 the illegal-instruction trap with cause 3 (R151, R308, R343). -/
def privileged (s : State) (min : BitVec 2) (k : Nat → State) : Out :=
  onGroup s fun g => if (group s g).level < min then illegal s 3 else k g
/-- An instruction that waits for the lane stream, or orders itself after the lane instructions released before it: it ends a run-on and waits until they have issued and their accesses are performed (R47, R128, R130). -/
def afterLanes (s : State) (g : Nat) (i : Instr) (k : State → State) : State :=
  if laneIssued (group s g) then k s else wait (modGroup s g endRunOn) i

/-- A scope from depth to 14 is not one (R25). -/
def scopeBad (s : State) (g : Nat) (c : Scope) : Bool := decide ((descOf s g).levels.length ≤ c.toNat) && c != 15
/-- A memory scope is checked before the instruction has any effect (R25). -/
def withScope (s : State) (g : Nat) (used : Bool) (c : Scope) (k : State → State) : State :=
  if used && scopeBad s g c then illegal s 4 else k s
/-- What R27 refuses for a barrier or a collective: a level above H that binds to die or above. -/
def scopeAboveH (s : State) (g : Nat) (c : Scope) : Bool :=
  decide (c.toNat < (descOf s g).h) && decide (4 ≤ (levelAt (descOf s g) c.toNat).bind)

/-- Bytes of a scalar access kind (R180). -/
def kindBytes (k : BitVec 3) : Nat := 2 ^ bits k 1 0
/-- The value a load writes: extended under its kind (R182). -/
def loadValue (k : BitVec 3) (raw : Word) : Word :=
  if k.getLsbD 2 then sextWord' (8 * kindBytes k) raw else raw
where
  /-- The low n bits sign-extended. -/
  sextWord' (n : Nat) (a : Word) : Word := BitVec.ofInt 64 (sext n a.toNat)
/-- Immediate-offset address (R180). -/
def offsetAddr (base : Word) (o : BitVec 10) (size : Nat) : Word := base + o.signExtend 64 * BitVec.ofNat 64 size

/-- A lane register number at a repeat index (R155). -/
def regNo (f : VReg) (step : Bool) (width j : Nat) : Nat := f.toNat + if step then j * width else 0
/-- A captured scalar of the run record at the head (R37). -/
def captured (x : Group) (r : CReg) : Word :=
  if r = 0 then 0
  else match x.lane.rq with
    | .run _ cap :: _ => cap.getD (r.toNat - 1) 0
    | _ => 0
/-- Lanes that a replayed issue or a run-on leaves active (R47, R48, log 7). -/
def activeMask (x : Group) : Mask :=
  let p := x.lane.park
  if p.replaying then p.fmask &&& maskOf fun i => decide (tget 0 p.first i ≤ p.index)
  else x.lane.mask &&& ~~~p.fmask
/-- The bits of a mask as a list. -/
def maskBits (m : Mask) : List Bool := (List.range 128).map fun i => m.getLsbD i
/-- The mask of a list of lanes' bits. -/
def bitsMask (bs : List Bool) : Mask := maskOf fun i => bs.getD i false
/-- The governing predicate bits of each lane, inverted under neg (R55). -/
def predNibbles (x : Group) (p : PReg) (neg : Bool) : List (BitVec 4) :=
  (mreg x p.toNat).map fun n => if neg then ~~~n else n
/-- For each lane its active bytes: none where the lane is inactive, else the predicate's four bits (R41, R55). -/
def execNibbles (x : Group) (p : PReg) (neg : Bool) : List (BitVec 4) :=
  List.zipWith (fun a n => if a then n else 0) (maskBits (activeMask x)) (predNibbles x p neg)
/-- For each lane whether a 32- or 64-bit element executes: bit 4i (R55). -/
def execLanes (x : Group) (p : PReg) (neg : Bool) : List Bool := (execNibbles x p neg).map fun n => n.getLsbD 0
/-- Elements taken from a list where lanes execute, else kept (R53). -/
def blend {α : Type} (ex : List Bool) (new old : List α) : List α :=
  List.zipWith (fun (e : Bool) (p : α × α) => if e then p.1 else p.2) ex (List.zip new old)

/-- A 64-bit operand of a pair (R52). -/
def vpair (x : Group) (n : Nat) : List Word := List.zipWith (fun lo hi => hi ++ lo) (vreg x n) (vreg x (n + 1))
/-- An operand of 32 or 64 bits as 64-bit values, the 32-bit one zero-extended. -/
def vsrc (x : Group) (wide : Bool) (n : Nat) : List Word :=
  if wide then vpair x n else (vreg x n).map fun v => v.zeroExtend 64
/-- Poison of the slices of a lane register that a write covers is cleared (R359). -/
def cleanLanes (x : Group) (n : Nat) (ex : List Bool) : List PoisonUnit :=
  x.poison.filter fun p => !(p.kind == 1 && p.reg == n && ex.getD p.lane false)
/-- A lane register written in the lanes that execute (R53). -/
def putLanes (x : Group) (n : Nat) (ex : List Bool) (v : List LWord) : Group :=
  { setVreg x n (blend ex v (vreg x n)) with poison := cleanLanes x n ex }
/-- A 32- or 64-bit result written in the lanes that execute (R52, R53). -/
def putWide (x : Group) (wide : Bool) (n : Nat) (ex : List Bool) (v : List Word) : Group :=
  let x := putLanes x n ex (v.map fun (w : Word) => w.setWidth 32)
  if wide then putLanes x (n + 1) ex (v.map fun (w : Word) => (w >>> 32).setWidth 32) else x

/-- A copy of a value in every lane. -/
def everyLane {α : Type} (v : α) : List α := List.replicate 128 v
/-- Operand b of a 32-bit integer or FP32 element, or of a 64-bit integer element (R157). -/
def srcInt (x : Group) (wide sg : Bool) (b : SrcB) (step : Bool) (j : Nat) : List Word :=
  match b with
  | .reg r => vsrc x wide (regNo r step (if wide then 2 else 1) j)
  | .scal r => everyLane (if wide then captured x r else captured x r &&& 0xFFFFFFFF)
  | .imm v => everyLane (if wide && sg then v.signExtend 64 else v.zeroExtend 64)
/-- Operand b of a floating element: an FP64 immediate is an FP32 encoding widened exactly (R157). -/
def srcFloat (x : Group) (dbl : Bool) (b : SrcB) (step : Bool) (j : Nat) : List Word :=
  match b with
  | .imm v => everyLane (if dbl then BitVec.ofNat 64 (roundTo f64 0 false (decodeF f32 v.toNat)) else v.zeroExtend 64)
  | _ => srcInt x dbl false b step j
/-- An element of w bits in every sub-element of 32 bits. -/
def splat (w v : Nat) : LWord := BitVec.ofNat 32 ((List.range (32 / w)).foldl (fun a i => a + v % 2 ^ w * 2 ^ (w * i)) 0)
/-- Operand b of packed sub-elements of width w (R157). -/
def srcPacked (x : Group) (w : Nat) (b : SrcB) (step : Bool) (j : Nat) : List LWord :=
  match b with
  | .reg r => vreg x (regNo r step 1 j)
  | .scal r => everyLane (splat w (captured x r).toNat)
  | .imm v => everyLane (splat w v.toNat)

/-- Sub-element i of width w of a slice (R56). -/
def subEl (w : Nat) (v : LWord) (i : Nat) : Nat := v.toNat / 2 ^ (w * i) % 2 ^ w
/-- A slice from its sub-elements of width w. -/
def joinEl (w : Nat) (f : Nat → Nat) : LWord :=
  BitVec.ofNat 32 ((List.range (32 / w)).foldl (fun a i => a + f i % 2 ^ w * 2 ^ (w * i)) 0)
/-- The byte whose predicate bit governs sub-element i of width w (R55). -/
def governing (w i : Nat) : Nat := w * i / 8
/-- A slice with the sub-elements whose byte is active replaced (R55). -/
def mergeEl (w : Nat) (n : BitVec 4) (new old : LWord) : LWord :=
  joinEl w fun i => if n.getLsbD (governing w i) then subEl w new i else subEl w old i
/-- A packed result written under its bytes' predicate bits (R53, R55). -/
def putPacked (x : Group) (w n : Nat) (nib : List (BitVec 4)) (v : List LWord) : Group :=
  let old := vreg x n
  { setVreg x n (List.zipWith (fun (b : BitVec 4) (p : LWord × LWord) => mergeEl w b p.1 p.2) nib (List.zip v old)) with
    poison := cleanLanes x n (nib.map fun b => (List.range (32 / w)).all fun i => b.getLsbD (governing w i)) }

/-- A predicate register written; a write of every bit clears its poison (R359). -/
def putMreg (x : Group) (k : PReg) (whole : Bool) (v : PredVec) : Group :=
  let y := setMreg x k.toNat v
  if whole then { y with poison := unpoison y 2 k.toNat } else y
/-- A predicate result of 32- or 64-bit elements: every bit of the lane's four (R56). -/
def putPred (x : Group) (k : PReg) (ex : List Bool) (v : List Bool) : Group :=
  putMreg x k (ex.all id) (blend ex (v.map fun b => if b then 15 else 0) (mreg x k.toNat))
/-- A predicate result given as nibbles, written where bytes are active (R56). -/
def putPredBytes (x : Group) (k : PReg) (nib v : List (BitVec 4)) : Group :=
  putMreg x k (nib.all (· == 15)) (List.zipWith (fun (b : BitVec 4) (p : BitVec 4 × BitVec 4) => (p.1 &&& b) ||| (p.2 &&& ~~~b)) nib
    (List.zip v (mreg x k.toNat)))

end Sys2Proof.Machine
end

