-- ==== Sys2Proof/Machine/ScalarMem.lean ====
section
/-! DEFINITION. Scalar loads, stores, atomics and fences (R180 to R185): an access is sent to its home, served there, and the instruction retires when the reply returns (R175). -/

namespace Sys2Proof.Machine

open Sys2Proof

/-- Whether an access writes, and whether it reads (R344). -/
def AccKind.rw : AccKind → Bool × Bool
  | .load _ _ => (false, true)
  | .loadRo _ _ => (false, true)
  | .store _ => (true, false)
  | .atomic _ _ _ _ _ => (true, true)
/-- Memory as a `.ro` load keeps it from its issue (R106). -/
def AccKind.keeps (k : AccKind) (s : State) : Option (List Host.Cell) :=
  match k with
  | .loadRo _ _ => some (mergedMem s)
  | _ => none
/-- Rights an access needs (R326). -/
def AccKind.rights (k : AccKind) : BitVec 3 := BitVec.ofBool false ++ BitVec.ofBool k.rw.1 ++ BitVec.ofBool k.rw.2
/-- A scalar record of an access (R344). -/
def accRec (k : AccKind) (cls cause : Nat) (addr : Word) : FaultRec := scalarRec cls cause k.rw.1 k.rw.2 addr

/-- Outstanding counters that an access raises and lowers (R63). -/
def countAccess (x : Group) (k : AccKind) (up : Bool) : Group :=
  let f := fun (n : Nat) => if up then n + 1 else n - 1
  { x with cnt := { x.cnt with loads := if k.rw.2 then f x.cnt.loads else x.cnt.loads,
                               stores := if k.rw.1 then f x.cnt.stores else x.cnt.stores } }
/-- Whether an access would raise an outstanding counter above 0xFFFF (R63). -/
def countersFull (x : Group) (k : AccKind) : Bool :=
  (k.rw.2 && decide (0xFFFF ≤ x.cnt.loads)) || (k.rw.1 && decide (0xFFFF ≤ x.cnt.stores))

/-- The lines of bytes that a `.ro` access brings into a core's L1 for a launch (R106); those of a host window are not. -/
def noteLines (s : State) (c l : Nat) (va : Word) (n : Nat) : State :=
  let first := va.toNat / 128
  let new := ((List.range ((va.toNat + n - 1) / 128 - first + 1)).map fun k => (l, first + k))
  if hostWindow va then s else modCore s c fun k => { k with ro := k.ro ++ new.filter fun e => !k.ro.contains e }
/-- The lines of a group's `.ro` load. -/
def noteRo (s : State) (g : Nat) (va : Word) (n : Nat) : State := noteLines s (coreOf s g) (launchOf s g) va n
/-- The bytes that a `.ro` load returns: those that memory held at its issue, without a coherence entry; from a host window as an ordinary load reads them (R106, log 9). -/
def readRo (s : State) (who : Who) (snap : Option (List Host.Cell)) (va : Word) (gs : List Seg) : State × List Byte :=
  match snap with
  | some m => if hostWindow va then homeRead s who va gs else (s, readSegs { s with mem := m } gs)
  | none => homeRead s who va gs

/-- The access of a group's scalar stream is served at its home, if it is sent and not served (R175, R184). -/
def serveScalar (s : State) (g : Nat) : State :=
  match (group s g).fly.scalar with
  | none => s
  | some a =>
    if a.reply.isSome then s
    else
      let who := whoOf s g (.scalar g)
      let (s, r) := xlate s who a.kind.rights a.addr a.size
      match r with
      | .wait => s
      | .fault c k addr => reply s g a (.trap (accRec a.kind c k addr))
      | .ok segs =>
        match a.kind, poisonIn s segs with
        | .store v, _ => reply (homeWrite s who a.addr segs (leBytes a.size v.toNat)) g a (.value 0)
        | k, some off => reply s g a (.trap (accRec k 8 0 (a.addr + BitVec.ofNat 64 off)))
        | .load _ _, none =>
          let (s, bs) := homeRead s who a.addr segs
          reply s g a (.value (BitVec.ofNat 64 (ofLe bs)))
        | .loadRo _ _, none =>
          let (s, bs) := readRo s who a.snap a.addr segs
          reply (noteRo s g a.addr a.size) g a (.value (BitVec.ofNat 64 (ofLe bs)))
        | .atomic op _ _ x y, none =>
          let w := 2 ^ (8 * a.size)
          let (s, old) := homeAtomic s who a.addr segs op a.size (x.toNat % w) (y.toNat % w)
          reply s g a (.value (BitVec.ofNat 64 old))
where
  /-- The home's reply. -/
  reply (s : State) (g : Nat) (a : ScalarAcc) (r : Reply) : State :=
    modGroup (clearFaults s (.scalar g)) g fun x => { x with fly := { x.fly with scalar := some { a with reply := some r } } }

/-- The value an access leaves in its register (R182, R184). -/
def writeReply (s : State) (k : AccKind) (raw : Word) : State :=
  match k with
  | .load d kind => setS s d (loadValue kind raw)
  | .loadRo d kind => setS s d (loadValue kind raw)
  | .store _ => s
  | .atomic op wide d _ _ => setS s d (if !wide && (op == 5 || op == 6) then loadValue 6 raw else raw)

/-- The reply returns: the instruction retires, or faults with no effect, or retires and takes the barrier-clobber fault, whose record is then the one of the group's own streams: that of a lane instruction under way waits for it (R175, R345). -/
def finishScalar (s : State) (g : Nat) : State :=
  match (group s g).fly.scalar with
  | none => s
  | some a =>
    let done := modGroup s g fun x => { countAccess x a.kind false with fly := { x.fly with scalar := none } }
    match a.reply with
    | none => s
    | some (.value raw) => retire (writeReply done a.kind raw)
    | some (.clobber addr) => raiseStream (retire done) g (accRec a.kind 9 0 addr)
    | some (.trap r) => if (group s g).fly.lane.isSome then s else raiseScalar done r

/-- A scratchpad access of the group's own team: its reply (R100, R116, R182, R184). -/
def scratchAccess (s : State) (g : Nat) (k : AccKind) (off n : Nat) : State × Reply :=
  let x := group s g
  let t := team s x.team
  match k with
  | .store v =>
    let (t, c) := scratchWrite t off (leBytes n v.toNat)
    (setTeam s x.team t, match c with | some a => .clobber (BitVec.ofNat 64 a) | none => .value 0)
  | k =>
    match scratchPoison t off n with
    | some a => (s, .trap (accRec k 8 0 (BitVec.ofNat 64 a)))
    | none =>
      let old := ofLe (scratchRead t off n)
      match k with
      | .atomic op _ _ u v =>
        let w := 2 ^ (8 * n)
        match (List.range n).find? fun i => tagAt t (off + i) != 0 with
        | some i => (s, .clobber (BitVec.ofNat 64 (off + i)))
        | none => match atomicNew op (8 * n) old (u.toNat % w) (v.toNat % w) with
          | some r => (setTeam s x.team (scratchPut t off (leBytes n r)), .value (BitVec.ofNat 64 old))
          | none => (s, .value (BitVec.ofNat 64 old))
      | _ => (s, .value (BitVec.ofNat 64 old))

/-- A scalar access, checked in the order of R232, sent, and finished at once where it is served at once (R175, R182). -/
def scalarAccess (s : State) (g : Nat) (i : Instr) (sp : Bool) (k : AccKind) (addr : Word) (n : Nat) : State :=
  let x := group s g
  let atomic := match k with
    | .atomic _ _ _ _ _ => true
    | _ => false
  let misaligned := decide (addr.toNat % n ≠ 0)
  if countersFull x k then wait s i
  else if sp then
    if bits addr 63 21 ≠ 0 then illegal s 1
    else if misaligned then raiseScalar s (accRec k 6 0 addr)
    else if (descOf s g).s < addr.toNat + n then
      raiseScalar s (accRec k 7 0 (BitVec.ofNat 64 (max addr.toNat (descOf s g).s)))
    else
      let (s, r) := scratchAccess s g k addr.toNat n
      finishScalar (modGroup s g fun x => { countAccess x k true with
        fly := { x.fly with scalar := some ⟨k, addr, n, some r, none⟩ } }) g
  else match addressFault (launch s (launchOf s g)).d.mask addr n with
    | some a => raiseScalar s (accRec k 5 0 a)
    | none =>
      if atomic && misaligned then raiseScalar s (accRec k 6 0 addr)
      else finishScalar (serveScalar (modGroup s g fun x => { countAccess x k true with
        fly := { x.fly with scalar := some ⟨k, addr, n, none, k.keeps s⟩ } }) g) g

/-- `sld` (R180). -/
def execSld (d a : SReg) (k : BitVec 3) (sp : Bool) (o : BitVec 10) (s : State) : Out :=
  onGroup s fun g => scalarAccess s g (.sld d a k sp o) sp (.load d k) (offsetAddr (getS s a) o (kindBytes k)) (kindBytes k)
/-- `sst` (R180). -/
def execSst (d a : SReg) (k : BitVec 2) (sp : Bool) (o : BitVec 10) (s : State) : Out :=
  onGroup s fun g => scalarAccess s g (.sst d a k sp o) sp (.store (getS s d)) (offsetAddr (getS s a) o (2 ^ k.toNat)) (2 ^ k.toNat)
/-- `sld` indexed (R181). -/
def execSldX (d a b : SReg) (k : BitVec 3) (sp : Bool) (s : State) : Out :=
  onGroup s fun g => scalarAccess s g (.sldX d a b k sp) sp (.load d k) (getS s a + getS s b) (kindBytes k)
/-- `sst` indexed (R181). -/
def execSstX (d a b : SReg) (k : BitVec 2) (sp : Bool) (s : State) : Out :=
  onGroup s fun g => scalarAccess s g (.sstX d a b k sp) sp (.store (getS s d)) (getS s a + getS s b) (2 ^ k.toNat)
/-- `sld.acq` (R181): later accesses of both streams follow it (R128, log 1). -/
def execSldAcq (d a : SReg) (k : BitVec 3) (sp : Bool) (c : Scope) (s : State) : Out :=
  onGroup s fun g => withScope s g true c fun s =>
    scalarAccess s g (.sldAcq d a k sp c) sp (.load d k) (getS s a) (kindBytes k)
/-- `sst.rel` (R181): it waits until the accesses of the lane instructions released before it are performed (R128). -/
def execSstRel (d a : SReg) (k : BitVec 2) (sp : Bool) (c : Scope) (s : State) : Out :=
  onGroup s fun g => withScope s g true c fun s => afterLanes s g (.sstRel d a k sp c) fun s =>
    scalarAccess s g (.sstRel d a k sp c) sp (.store (getS s d)) (getS s a) (2 ^ k.toNat)
/-- `sld.ro` (R106, R181): the value that the location holds at its issue (log 9). -/
def execSldRo (d a b : SReg) (k : BitVec 3) (s : State) : Out :=
  onGroup s fun g => scalarAccess s g (.sldRo d a b k) false (.loadRo d k) (getS s a + getS s b) (kindBytes k)

/-- An atomic of R183: x and the result in sd, y in s(d + 1). -/
def samo (op : Nat) (i : Instr) (x : SAmo) (s : State) : Out :=
  onGroup s fun g => withScope s g (x.acq || x.rel) x.scope fun s =>
    let go := fun s => scalarAccess s g i x.sp (.atomic op x.wide x.d (getS s x.d) (getS s (x.d + 1))) (getS s x.a) (if x.wide then 8 else 4)
    if x.rel then afterLanes s g i go else go s
/-- `samo.swap` (R183). -/
def execSamoSwap (x : SAmo) (s : State) : Out := samo 0 (.samoSwap x) x s
/-- `samo.add` (R183). -/
def execSamoAdd (x : SAmo) (s : State) : Out := samo 1 (.samoAdd x) x s
/-- `samo.and` (R183). -/
def execSamoAnd (x : SAmo) (s : State) : Out := samo 2 (.samoAnd x) x s
/-- `samo.or` (R183). -/
def execSamoOr (x : SAmo) (s : State) : Out := samo 3 (.samoOr x) x s
/-- `samo.xor` (R183). -/
def execSamoXor (x : SAmo) (s : State) : Out := samo 4 (.samoXor x) x s
/-- `samo.min`, signed (R183). -/
def execSamoMinI (x : SAmo) (s : State) : Out := samo 5 (.samoMinI x) x s
/-- `samo.max`, signed (R183). -/
def execSamoMaxI (x : SAmo) (s : State) : Out := samo 6 (.samoMaxI x) x s
/-- `samo.min`, unsigned (R183). -/
def execSamoMinN (x : SAmo) (s : State) : Out := samo 7 (.samoMinN x) x s
/-- `samo.max`, unsigned (R183). -/
def execSamoMaxN (x : SAmo) (s : State) : Out := samo 8 (.samoMaxN x) x s
/-- `samo.cas` (R183, R184). -/
def execSamoCas (x : SAmo) (s : State) : Out := samo 9 (.samoCas x) x s

/-- A fence (R130, R185): it retires when every access of the lane instructions released before it is performed. -/
def fence (i : Instr) (c : Scope) (s : State) : Out :=
  onGroup s fun g => withScope s g true c fun s => afterLanes s g i retire
/-- `sfence` (R185). -/
def execSfence (c : Scope) (s : State) : Out := fence (.sfence c) c s
/-- `sfence.acq` (R185). -/
def execSfenceAcq (c : Scope) (s : State) : Out := fence (.sfenceAcq c) c s
/-- `sfence.rel` (R185). -/
def execSfenceRel (c : Scope) (s : State) : Out := fence (.sfenceRel c) c s

end Sys2Proof.Machine
end

