-- ==== Sys2Proof/Machine/Control.lean ====
section
/-! DEFINITION. Branches, calls (R186 to R188), the release of lane work (R189, R190), status registers (R65, R66, R191) and counter waits (R192). -/

namespace Sys2Proof.Machine

open Sys2Proof

/-- The address a word offset from the branch names (R147). -/
def relative {w : Nat} (s : State) (o : BitVec w) : Word := curSpc s + o.signExtend 64 * 4
/-- A branch record of the running group, stamped at retirement (R398). -/
def tracedTo (s : State) (target : Word) (f : State → Nat → State) : State :=
  match s.cur with
  | .group g => f (setSpc s target) g
  | _ => s
/-- What goes before a record that the running scalar instruction is to write: it tells the state before its retirement (R397, R398). -/
def aheadNow (s : State) : State :=
  match s.cur with
  | .group g => traceAhead s g (now s)
  | _ => s
/-- The running scalar instruction retires to the next word, with a record stamped at its retirement (R390, R397). -/
def retireTraced (s : State) (f : State → Nat → State) : State :=
  let next := curSpc s + 4
  retireTo (tracedTo s next f) next
/-- `sbr` (R186). -/
def execSbr (a : SReg) (c : BitVec 4) (o : BitVec 16) (s : State) : Out :=
  let taken := condHolds c (getS s a)
  let target := if taken then relative s o else curSpc s + 4
  .next (retireTo (tracedTo s target fun s g => traceBranch s g taken) target)
/-- `sjmp` (R186). -/
def execSjmp (o : BitVec 26) (s : State) : Out := .next (retireTo s (relative s o))
/-- `scall` (R186). -/
def execScall (o : BitVec 26) (s : State) : Out := .next (retireTo (setS s 63 (curSpc s + 4)) (relative s o))
/-- An indirect jump (R187, R398). -/
def indirect (s : State) (from_ target : Word) : State :=
  retireTo (tracedTo (aheadNow s) target fun s g => traceIndirect s g from_ target) target
/-- `sjr` (R187). -/
def execSjr (a : SReg) (s : State) : Out := .next (indirect s (curSpc s) (getS s a))
/-- `scallr` (R187). -/
def execScallr (a : SReg) (s : State) : Out := .next (indirect (setS s 63 (curSpc s + 4)) (curSpc s) (getS s a))
/-- `sret` (R187). -/
def execSret (s : State) : Out := .next (indirect s (curSpc s) (getS s 63))

/-- A record is appended when the release queue has room, else the instruction waits (R36); the release record of R395. -/
def release (s : State) (g : Nat) (i : Instr) (r : RqRec) : State :=
  if Config.queueDepth ≤ rqLength (group s g) then wait s i
  else
    let s := modGroup (aheadNow s) g fun x => appendRecord x r
    retireTraced s fun s g => match r with
      | .run n _ => emitGroup s g 5 0 (varint n)
      | .jump t => emitGroup s g 5 1 (varint (t.toNat / 4))
/-- The captured values of s1 to s15 (R37). -/
def capture (x : Group) : List Word := (List.range 15).map fun i => sregOf x (i + 1)
/-- `lrun` (R189). -/
def execLrun (n : BitVec 10) (s : State) : Out :=
  onGroup s fun g => release s g (.lrun n) (.run (n.toNat + 1) (capture (group s g)))
/-- `ljmp` (R189). -/
def execLjmp (o : BitVec 25) (s : State) : Out :=
  onGroup s fun g => release s g (.ljmp o) (.jump ((group s g).lane.base + o.zeroExtend 64 * 4))
/-- `lrunr` (R36, R190): 0 appends nothing, a value above 1,024 traps. -/
def execLrunr (a : SReg) (s : State) : Out :=
  onGroup s fun g =>
    let n := (getS s a).toNat
    if n = 0 then retire s
    else if 1024 < n then illegal s 5
    else release s g (.lrunr a) (.run n (capture (group s g)))
/-- `ljmpr` (R190). -/
def execLjmpr (a : SReg) (s : State) : Out := onGroup s fun g => release s g (.ljmpr a) (.jump (getS s a))
/-- `lsync` (R40, R190). -/
def execLsync (s : State) : Out := onGroup s fun g => afterLanes s g .lsync retire
/-- `lmask` (R190). -/
def execLmask (d : SReg) (w : BitVec 2) (s : State) : Out :=
  onGroup s fun g => afterLanes s g (.lmask d w) fun s => result s d ((maskWord (group s g).lane.mask w.toNat).zeroExtend 64)
/-- `lsumm` (R190). -/
def execLsumm (d : SReg) (s : State) : Out :=
  onGroup s fun g => afterLanes s g (.lsumm d) fun s => result s d ((maskSummary (group s g).lane.mask).zeroExtend 64)

/-- An instruction that reads a counter takes effect after every lane instruction released before it has issued (R64). -/
def whenIssued (s : State) (g : Nat) (i : Instr) (k : State → State) : State :=
  if laneIssued (group s g) then k s else wait s i
/-- Cores present on a die (R9, R65). -/
def coresPresent (s : State) (d : Nat) : Nat := ((List.range 64).filter fun i => !(core s (d * 64 + i)).vacant).length

/-- A status register; none for a number that is not one (R65, R66). -/
def statusReg (s : State) (g n : Nat) : Option Nat :=
  let x := group s g
  let t := team s x.team
  let d := descOf s g
  let depth := d.levels.length
  let j := n % 16
  match n with
  | 0x000 => some Config.gwidth
  | 0x001 => some depth
  | 0x002 => some d.h
  | 0x003 => some x.no
  | 0x004 => some t.no
  | 0x005 => some s.pod.chip.toNat
  | 0x006 => some (dieOf s g)
  | 0x007 => some (quarterOf x)
  | 0x008 => some (coresPresent s (dieOf s g))
  | 0x040 => some (if t.preq then 1 else 0)
  | 0x041 => some t.pdead
  | 0x042 => some (if x.trace.bit then 1 else 0)
  | 0x043 => some (partOf s g)
  | 0x050 => some x.cnt.loads
  | 0x051 => some x.cnt.stores
  | 0x052 => some x.cnt.copies
  | 0x053 => some x.cnt.tiles
  | 0x060 => some (maskWord x.lane.park.fmask 0).toNat
  | 0x061 => some (maskWord x.lane.park.fmask 1).toNat
  | 0x062 => some (maskWord x.lane.park.fmask 2).toNat
  | 0x063 => some (maskWord x.lane.park.fmask 3).toNat
  | 0x064 => some x.lane.stack.length
  | 0x065 => some (rqLength x)
  | n =>
    if depth ≤ j then none
    else if n / 16 = 1 then (if (levelAt d j).bind = 0 then none else some (coordOf d j t.no x.no))
    else if n / 16 = 2 then some (levelAt d j).fan
    else if n / 16 = 3 then (if (levelAt d j).bind = 0 then none else some (nodeOf d j t.no x.no))
    else none
/-- `sget` (R191); the outstanding counters are read under R64. -/
def execSget (d : SReg) (n : BitVec 12) (s : State) : Out :=
  onGroup s fun g =>
    let read := fun s => match statusReg s g n.toNat with
      | some v => result s d (BitVec.ofNat 64 v)
      | none => illegal s 5
    if n.toNat / 4 = 0x14 then whenIssued s g (.sget d n) read else read s

/-- A wait until a counter is at or below a threshold (R192). -/
def waitCounter (d a : SReg) (i : Instr) (v : Group → Nat) (s : State) : Out :=
  onGroup s fun g => whenIssued s g i fun s =>
    let n := v (group s g)
    if n ≤ (getS s a).toNat then result s d (BitVec.ofNat 64 n) else wait s i
/-- `kwait` (R192, R193). -/
def execKwait (d a : SReg) (k : KReg) (s : State) : Out := waitCounter d a (.kwait d a k) (fun x => kcount x k.toNat) s
/-- `wait.ld` (R192). -/
def execWaitLd (d a : SReg) (s : State) : Out := waitCounter d a (.waitLd d a) (fun x => x.cnt.loads) s
/-- `wait.st` (R192). -/
def execWaitSt (d a : SReg) (s : State) : Out := waitCounter d a (.waitSt d a) (fun x => x.cnt.stores) s
/-- `wait.cp` (R192). -/
def execWaitCp (d a : SReg) (s : State) : Out := waitCounter d a (.waitCp d a) (fun x => x.cnt.copies) s
/-- `wait.tl` (R192). -/
def execWaitTl (d a : SReg) (s : State) : Out := waitCounter d a (.waitTl d a) (fun x => x.cnt.tiles) s

end Sys2Proof.Machine
end

