-- ==== Sys2Proof/Machine/Barriers.lean ====
section
/-! DEFINITION. Barrier objects (R114 to R116, R194 to R196), node barriers (R197), yields with continuation (R198). -/

namespace Sys2Proof.Machine

open Sys2Proof

/-- A barrier object's fields (R114). -/
structure BarObj where
  arrive : Nat
  reset : Nat
  bytes : Nat
  phase : Nat
  deriving DecidableEq, Repr
/-- The object at an offset (R114). -/
def readBar (t : Team) (off : Nat) : BarObj :=
  let bs := scratchRead t off 16
  ⟨fieldAt bs 0 4, fieldAt bs 4 4, fieldAt bs 8 6, fieldAt bs 14 2⟩
/-- The controller writes an object (R114). -/
def writeBar (t : Team) (off : Nat) (o : BarObj) : Team :=
  scratchPut t off (leBytes 4 o.arrive ++ leBytes 4 o.reset ++ leBytes 6 o.bytes ++ leBytes 2 o.phase)
/-- A phase completes at the first moment when arrive and bytes are both zero (R115). -/
def testBar (o : BarObj) : BarObj :=
  if o.arrive = 0 ∧ o.bytes = 0 then { o with arrive := o.reset, phase := (o.phase + 1) % 2 ^ 16 } else o
/-- Bytes counted down one by one, the object tested after each (R115). -/
def countBar (o : BarObj) (n : Nat) : BarObj :=
  if o.arrive = 0 ∧ o.bytes ≤ n ∧ 0 < o.bytes then
    let o' := testBar { o with bytes := 0 }
    { o' with bytes := (o'.bytes + 2 ^ 48 - (n - o.bytes) % 2 ^ 48) % 2 ^ 48 }
  else { o with bytes := (o.bytes + 2 ^ 48 - n % 2 ^ 48) % 2 ^ 48 }
/-- Whether the barrier phase of a rank has completed: its object is in another phase, or is none any more (R288). -/
def phaseOver (s : State) (r : CollRank) : Bool :=
  let off := bits r.a 20 0
  !r.armed || !isBarrier (team s r.team) off || (readBar (team s r.team) off).phase != r.phase
/-- A rank's fault becomes pending in every group of its team; of a collective that a handler has issued and that faults while the handler runs, it ends the launch (R288, R293, R347). -/
def tellGroups (s : State) (c : Nat) (r : CollRank) (cls : Nat) : State :=
  let gs := (team s r.team).groups
  match gs.find? fun g => r.hand.contains (group s g).no && inHandler (group s g) with
  | some g => unhandled s g (0x8000 + cls)
  | none => gs.foldl (fun s g => modGroup s g fun x => { x with pend := { x.pend with order := x.pend.order ++ [0x1000 + c] } }) s
/-- The fault of a rank whose part has ended is told; that of a halt after its barrier phase has completed (R288, R293). -/
def tellFault (s : State) (c rank : Nat) : State :=
  match (coll s c).bind fun x => tget none x.ranks rank with
  | none => s
  | some r =>
    if r.late && (team s r.team).live && (!(r.record.any fun k => k.cls == 12) || phaseOver s r) then
      let gs := (team s r.team).groups
      let s := setColl s c ((coll s c).map fun x =>
        { x with ranks := tput none x.ranks rank (some { r with late := false, toTell := gs.map fun g => (group s g).no }) })
      tellGroups s c r ((r.record.map (·.cls)).getD 12)
    else s
/-- The faults of a team's ranks that wait for the end of a barrier phase are told once an arrival, a countdown or the end of an object has completed it (R288). -/
def tellLate (s : State) (t : Nat) : State :=
  s.work.colls.foldl (fun s e => match e.2 with
    | some k => k.ranks.foldl (fun s r => if r.2.any fun x => x.team == t && x.late then tellFault s e.1 r.1 else s) s
    | none => s) s
/-- An object counted down at its controller (R115). -/
def countDown (s : State) (t off n : Nat) : State :=
  if n = 0 ∨ !isBarrier (team s t) off then s
  else tellLate (modTeam s t fun x => writeBar x off (countBar (readBar x off) n)) t

/-- What a barrier operand names (R194): a trap with its cause, a fault with its class, or an object. -/
inductive BarRes where
  | trap (cause : Nat)
  | fault (cls : Nat)
  | object (t off : Nat)
  deriving DecidableEq, Repr
/-- A barrier operand read for a group; `own` for the forms that name the own scratchpad only, `useSc` for those that use the scope (R194, R195). -/
def barOperand (s : State) (g : Nat) (a : Word) (own useSc : Bool) : BarRes :=
  let x := group s g
  match clusterAddr s x.team (bits a 31 0) with
  | .bad => .trap 1
  | r =>
    if bits a 47 36 ≠ 0 ∨ (own ∧ a.getLsbD 31 = true) then .trap 1
    else if useSc && scopeBad s g (BitVec.ofNat 4 (bits a 35 32)) then .trap 4
    else if bits a 3 0 ≠ 0 then .fault 6
    else match r with
      | .at t off => .object t off
      | _ => .fault 7
/-- The address field of a record that names a cluster scratch address (R344). -/
def scratchWord (a : Word) : Word := a &&& 0xFFFFFFFF
/-- A barrier instruction's operand checks (R194, R195). -/
def withBar (s : State) (g : Nat) (a : Word) (own useSc w : Bool) (k : State → Nat → Nat → State) : State :=
  match barOperand s g a own useSc with
  | .trap c => illegal s c
  | .fault c => raiseScalar s (scalarRec c 0 w (!w) (scratchWord a))
  | .object t off => k s t off
/-- The barrier-clobber fault of a scalar instruction (R196, R343). -/
def clobber (s : State) (cause : Nat) (a : Word) : State := raiseScalar s (scalarRec 9 cause true false (scratchWord a))
/-- An instruction of major 0x29 ends a run-on: with parked lanes the group stops at it (R47). -/
def notParked (s : State) (g : Nat) (i : Instr) (k : State → State) : State :=
  if (group s g).lane.park.fmask = 0 then k s else wait (modGroup s g endRunOn) i

/-- The object operand of a scalar instruction that is parked on a barrier object: a waiting `bar.wait`, or a `yieldc` that has found its release queue empty (R196, R198). -/
def waitOperand (x : Group) : Option Word :=
  match x.fly.waiting with
  | some (.barWait a) => some (sregOf x a.toNat)
  | some (.yieldc a _ _) => if x.fly.yielded then some (sregOf x a.toNat) else none
  | _ => none
/-- Whether a group is parked on an object for its phase; one whose phase has ended is ready (R115, R116). -/
def parkedOn (s : State) (t off : Nat) : Bool :=
  s.work.groups.any fun e => e.2.live && (waitOperand e.2).any fun a =>
    clusterAddr s e.2.team (bits a 31 0) == .at t off && (readBar (team s t) off).phase == bits a 63 48
/-- Whether a copy or a collective that names an object is in flight (R116). -/
def engineNames (s : State) (t off : Nat) : Bool :=
  (s.work.teams.any fun e => e.2.live && e.2.copies.any fun c => c.2.any fun c => !c.reported &&
    (fieldAt c.req 36 4 != 0xFFFFFFFF && clusterAddr s e.1 (fieldAt c.req 36 4) == .at t off)) ||
  (s.work.colls.any fun e => e.2.any fun c => c.ranks.any fun r => r.2.any fun r => !r.done &&
    r.armed && r.team == t && bits r.a 20 0 == off)

/-- `bar.init` (R195, R196). -/
def execBarInit (a b : SReg) (s : State) : Out :=
  onGroup s fun g => notParked s g (.barInit a b) fun s =>
    let n := getS s b
    match barOperand s g (getS s a) true false with
    | .trap c => illegal s c
    | r =>
      if bits n 63 32 ≠ 0 then illegal s 1
      else if n = 0 then illegal s 5
      else match r with
        | .object t off =>
          if tagAt (team s t) off ≠ 0 then clobber s 1 (getS s a)
          else tellLate (retire (modTeam s t fun x =>
            { writeBar x off ⟨n.toNat, n.toNat, 0, 0⟩ with tags := tput 0 x.tags (off / 16) 1 })) t
        | .fault c => raiseScalar s (scalarRec c 0 true false (scratchWord (getS s a)))
        | .trap c => illegal s c
/-- The operand with the phase of an arrival filled in (R196). -/
def withPhase (a : Word) (p : Nat) : Word := (a &&& 0x0000FFFFFFFFFFFF) ||| BitVec.ofNat 64 (p * 2 ^ 48)
/-- `bar.arrive` (R196): a release that covers both streams, then one step at the owning controller. -/
def execBarArrive (d a b : SReg) (s : State) : Out :=
  onGroup s fun g => withBar s g (getS s a) false true true fun s t off => afterLanes s g (.barArrive d a b) fun s =>
    let w := getS s b
    let n := if bits w 63 48 = 0 then 1 else bits w 63 48
    let o := readBar (team s t) off
    if !isBarrier (team s t) off || decide (o.arrive < n) then clobber s 3 (getS s a)
    else
      let o' := testBar { o with arrive := o.arrive - n, bytes := (o.bytes + bits w 47 0) % 2 ^ 48 }
      tellLate (result (modTeam s t fun x => writeBar x off o') d (withPhase (getS s a) o.phase)) t
/-- `bar.wait` (R196). -/
def execBarWait (a : SReg) (s : State) : Out :=
  onGroup s fun g => notParked s g (.barWait a) fun s => withBar s g (getS s a) false true false fun s t off =>
    if !isBarrier (team s t) off then clobber s 3 (getS s a)
    else if (readBar (team s t) off).phase = bits (getS s a) 63 48 then wait s (.barWait a)
    else retire s

/-- The scope checks of the node barriers (R25, R27, R197). -/
def withNodeScope (s : State) (g : Nat) (c : Scope) (k : State → State) : State :=
  if c = 15 ∨ scopeBad s g c ∨ scopeAboveH s g c then illegal s 4 else k s
/-- A group's node at a level, and its team and group number. -/
def nodeAt (s : State) (g : Nat) (c : Scope) : Nat × Nat × Nat :=
  let x := group s g
  let no := (team s x.team).no
  (nodeOf (descOf s g) c.toNat no x.no, no, x.no)
/-- `sbar.arrive` (R197): a release, then the group joins the arrived set; in the set already, it waits for the phase to end. -/
def execSbarArrive (d : SReg) (c : Scope) (s : State) : Out :=
  onGroup s fun g => withNodeScope s g c fun s => afterLanes s g (.sbarArrive d c) fun s =>
    let l := launchOf s g
    let (node, me) := nodeAt s g c
    let b := tget barBlank (launch s l).bars (barKey c.toNat node)
    if b.arrived.contains me then wait s (.sbarArrive d c)
    else
      let s := modLaunch s l fun x =>
        { x with bars := tput barBlank x.bars (barKey c.toNat node) ⟨b.phase, b.arrived ++ [me]⟩ }
      result (settleBar s l c.toNat node) d (b.phase.zeroExtend 64)
/-- `sbar.wait` (R197). -/
def execSbarWait (a : SReg) (c : Scope) (s : State) : Out :=
  onGroup s fun g => withNodeScope s g c fun s => notParked s g (.sbarWait a c) fun s =>
    let b := tget barBlank (launch s (launchOf s g)).bars (barKey c.toNat (nodeAt s g c).1)
    if b.phase.toNat = bits (getS s a) 15 0 then wait s (.sbarWait a c) else retire s

/-- `yieldc` (R198): while the phase has not ended, the group is parked and not ready. -/
def execYieldc (a b : SReg) (o : BitVec 14) (s : State) : Out :=
  onGroup s fun g => withBar s g (getS s a) false true false fun s t off => afterLanes s g (.yieldc a b o) fun s =>
    if !isBarrier (team s t) off then clobber s 3 (getS s a)
    else if (readBar (team s t) off).phase = bits (getS s a) 63 48 then
      modGroup (wait s (.yieldc a b o)) g fun x => { x with fly := { x.fly with yielded := true } }
    else
      let lpc := getS s b
      let s := if b = 0 then s else modGroup s g fun x => { x with lane := { x.lane with lpc := lpc, rep := 0 } }
      retireTo s (relative s o)

end Sys2Proof.Machine
end

