-- ==== Sys2Proof/Machine/Booths.lean ====
section
/-! DEFINITION. Booths (R109 to R113, R245 to R250): declaration, requests, reservations, fills, takes and drops, one at a time at the owner's controller. -/

namespace Sys2Proof.Machine

open Sys2Proof

/-- A booth header (R109). -/
structure Booth where
  tail : Nat
  take : Nat
  head : Nat
  cap : Nat
  rowsz : Nat
  refusals : Nat
  deriving DecidableEq, Repr
/-- The header at an offset (R109). -/
def readBooth (t : Team) (off : Nat) : Booth :=
  let bs := scratchRead t off 32
  ⟨fieldAt bs 0 4, fieldAt bs 4 4, fieldAt bs 8 4, fieldAt bs 12 2, fieldAt bs 14 2, fieldAt bs 16 4⟩
/-- The controller writes a header (R109). -/
def writeBooth (t : Team) (off : Nat) (b : Booth) : Team :=
  scratchPut t off (leBytes 4 b.tail ++ leBytes 4 b.take ++ leBytes 4 b.head ++ leBytes 2 b.cap ++ leBytes 2 b.rowsz ++
    leBytes 4 b.refusals ++ List.replicate 12 0)
/-- The free-entry count (R110). -/
def Booth.free (b : Booth) : Nat := b.cap - (b.tail + 2 ^ 32 - b.head) % 2 ^ 32
/-- Offset of row number n (R109, R110). -/
def Booth.rowAt (b : Booth) (off n : Nat) : Nat := off + 32 + n % b.cap * b.rowsz

/-- A record of a booth instruction (R343, R344). -/
def boothRec (cls cause : Nat) (w : Bool) (lane : Bool) (a : Word) : FaultRec :=
  mkRec cls cause (accessByte false w (!w) (if lane then 1 else 0)) (scratchWord a)
/-- Whether a `bdecl` has asked for a booth at an offset and is not complete (R246). -/
def declaring (s : State) (t off : Nat) : Bool :=
  s.work.groups.any fun e => e.2.live && e.2.team == t && e.2.fly.yielded && (match e.2.fly.waiting with
    | some (.bdecl a _) => bits (sregOf e.2 a.toNat) 20 0 == off
    | _ => false)
/-- The cause of the booth fault of an operation that finds no declared booth: its declaration is not complete, or there is none (R246, R343). -/
def noBooth (s : State) (t off : Nat) : Nat := if declaring s t off then 2 else 0
/-- The scratchpad controller answers a `bdecl` (R246): a tagged byte is a fault that changes nothing; else the header is written and tagged, and the instruction retires. -/
def declareBooth (s : State) (g off cap rowsz : Nat) : State :=
  let s := modGroup s g fun x => { x with fly := { x.fly with waiting := none, yielded := false } }
  let x := group s g
  let t := team s x.team
  match (List.range ((32 + cap * rowsz) / 16)).find? fun i => tagAt t (off + 16 * i) != 0 with
  | some i => raiseScalar s (boothRec 9 0 true false (BitVec.ofNat 64 (off + 16 * i)))
  | none => retire (setTeam s x.team
      { writeBooth t off ⟨0, 0, 0, cap, rowsz, 0⟩ with
        tags := tput 0 (tput 0 t.tags (off / 16) 2) (off / 16 + 1) 3,
        filling := t.filling.filter fun e => e.1 != off })
/-- `bdecl` (R245, R246): its operands are checked, the controller is asked, and the instruction retires with the answer. -/
def execBdecl (a b : SReg) (s : State) : Out :=
  onGroup s fun g =>
    let h := getS s a
    let w := getS s b
    let x := group s g
    let cap := bits w 12 0
    let rowsz := bits w 31 16
    let off := bits h 20 0
    if sentWait x then declareBooth s g off cap rowsz
    else if bits h 31 31 ≠ 0 ∨ clusterAddr s x.team (bits h 31 0) = .bad ∨ bits h 63 32 ≠ 0 ∨ bits w 63 32 ≠ 0 ∨ bits w 15 13 ≠ 0 then
      illegal s 1
    else if cap = 0 ∨ 4096 < cap ∨ rowsz < 16 ∨ 512 < rowsz ∨ rowsz % 16 ≠ 0 then illegal s 5
    else if off % 32 ≠ 0 then raiseScalar s (boothRec 6 0 true false h)
    else if (descOf s g).s < off + (32 + cap * rowsz) then
      raiseScalar s (boothRec 7 0 true false (BitVec.ofNat 64 (max off (descOf s g).s)))
    else modGroup (wait s (.bdecl a b)) g fun x => { x with fly := { x.fly with yielded := true } }

/-- The request of a `bput` or `bputw`: a release that covers both streams, then the request goes to the owner's controller (R245, R247). -/
def boothRequest (d a b : SReg) (w : Bool) (i : Instr) (s : State) : Out :=
  onGroup s fun g =>
    let h := getS s a
    let src := getS s b
    let r := clusterAddr s (group s g).team (bits h 31 0)
    if bits h 63 32 ≠ 0 ∨ r = .bad ∨ bits src 63 21 ≠ 0 then illegal s 1
    else if bits h 4 0 ≠ 0 then raiseScalar s (boothRec 6 0 true false h)
    else if bits src 3 0 ≠ 0 then raiseScalar s (boothRec 6 0 false false src)
    else match r with
      | .at u off => afterLanes s g i fun s =>
          modGroup s g fun x => { x with fly := { x.fly with booth := some ⟨u, off, leBytes 8 src.toNat, d.toNat, w, false, none, false⟩ } }
      | _ => raiseScalar s (boothRec 7 0 true false h)
/-- `bput` (R247). -/
def execBput (d a b : SReg) (s : State) : Out := boothRequest d a b false (.bput d a b) s
/-- `bputw` (R247). -/
def execBputw (d a b : SReg) (s : State) : Out := boothRequest d a b true (.bputw d a b) s

/-- `btake` (R248): an acquire at cluster scope. -/
def execBtake (d a : SReg) (s : State) : Out :=
  onGroup s fun g =>
    let h := getS s a
    let x := group s g
    let t := team s x.team
    let off := bits h 20 0
    if bits h 63 31 ≠ 0 ∨ clusterAddr s x.team (bits h 31 0) = .bad then illegal s 1
    else if off % 32 ≠ 0 then raiseScalar s (boothRec 6 0 false false h)
    else if (descOf s g).s < off + 32 then raiseScalar s (boothRec 7 0 false false h)
    else if !isBooth t off then raiseScalar s (boothRec 10 (noBooth s x.team off) false false h)
    else
      let b := readBooth t off
      if b.take = b.tail ∨ t.filling.contains (off, b.take) then result s d (2 ^ 63)
      else result (setTeam s x.team (writeBooth t off { b with take := (b.take + 1) % 2 ^ 32 })) d
        (BitVec.ofNat 64 (b.take * 2 ^ 21 + b.rowAt off b.take))
/-- `bdrop` (R248): a release at cluster scope. -/
def execBdrop (a : SReg) (s : State) : Out :=
  onGroup s fun g =>
    let h := getS s a
    let x := group s g
    let off := bits h 20 0
    if bits h 63 31 ≠ 0 ∨ clusterAddr s x.team (bits h 31 0) = .bad then illegal s 1
    else if off % 32 ≠ 0 then raiseScalar s (boothRec 6 0 true false h)
    else if (descOf s g).s < off + 32 then raiseScalar s (boothRec 7 0 true false h)
    else afterLanes s g (.bdrop a) fun s =>
      let t := team s x.team
      let b := readBooth t off
      if !isBooth t off then raiseScalar s (boothRec 10 (noBooth s x.team off) true false h)
      else if b.head = b.take then raiseScalar s (boothRec 10 4 true false h)
      else retire (setTeam s x.team (writeBooth t off { b with head := (b.head + 1) % 2 ^ 32 }))

/-- The sectors of 32 bytes that a run of n bytes touches (R400). -/
def runSectors (a n : Nat) : List Nat := if n = 0 then [] else (List.range ((a + n - 1) / 32 - a / 32 + 1)).map fun k => a / 32 + k
/-- What ends a lane booth instruction: group, scalar destination, value, sectors of the row (R249, R400). -/
abbrev LaneEnd := State → Nat → Nat → Word → List Nat → State
/-- A booth request is finished: the scalar form writes sd and retires; the lane form is left to its own end (R247, R249). -/
def boothDone (s : State) (g : Nat) (o : BoothOp) (v : Word) (sectors : List Nat) (laneEnd : LaneEnd) : State :=
  let s := modGroup s g fun x => { x with fly := { x.fly with booth := none } }
  if o.lane then laneEnd s g o.dst v sectors
  else asGroup s g fun s => result s (BitVec.ofNat 6 o.dst) v
/-- A booth request ends in a fault of its group (R113, R247, R249). -/
def boothFault (s : State) (g : Nat) (o : BoothOp) (r : FaultRec) : State :=
  let s := modGroup (leaveBooth s g) g fun x => { x with fly := { x.fly with booth := none } }
  if o.lane then raiseStream s g r else asGroup s g fun s => raiseScalar s r
/-- The row that a request takes at the owner's controller: tail advances and the row becomes reserved (R111, R247). -/
def reserveRow (s : State) (g : Nat) (o : BoothOp) (b : Booth) : State :=
  let s := modTeam s o.owner fun t =>
    { writeBooth t o.header { b with tail := (b.tail + 1) % 2 ^ 32 } with
      filling := t.filling ++ [(o.header, b.tail)], parked := t.parked.filter fun e => e.2 != g }
  modGroup s g fun x => { x with fly := { x.fly with booth := some { o with row := some (b.tail, b.free - 1) } } }
/-- The fault of a request that finds no row to reserve: the owner is not there, no booth is declared there or it was removed while the request was parked, the source leaves the scratchpad or is poisoned; a fault of the source names its byte (R101, R245, R246, R344, R359). -/
def boothRefusal (s : State) (g : Nat) (o : BoothOp) : Option FaultRec :=
  let t := team s o.owner
  let x := group s g
  let rowsz := (readBooth t o.header).rowsz
  let src := ofLe o.source
  let header := fun cls cause => some (boothRec cls cause true o.lane (BitVec.ofNat 64 o.header))
  let source := fun cls a => some (boothRec cls 0 false o.lane (BitVec.ofNat 64 a))
  if !t.live then header 7 0
  else if o.gone then header 10 1
  else if !isBooth t o.header then header 10 (noBooth s o.owner o.header)
  else if o.lane then (if 4 * Config.gwidth < rowsz then header 10 3 else none)
  else if (descOf s g).s < src + rowsz then source 7 (max src (descOf s g).s)
  else (scratchPoison (team s x.team) src rowsz).bind fun a => source 8 a
/-- `bar.free` of a booth: its header is ordinary scratchpad, and the requests parked on it take the booth fault (R113, R247). -/
def removeBooth (s : State) (t off : Nat) : State :=
  let gone := ((team s t).parked.filter fun e => e.1 == off).map (·.2)
  let s := modTeam s t fun x => { x with tags := tput 0 (tput 0 x.tags (off / 16) 0) (off / 16 + 1) 0,
                                         parked := x.parked.filter fun e => e.1 != off }
  gone.foldl (fun s g => modGroup s g fun x => { x with fly := { x.fly with booth := x.fly.booth.map fun o => { o with gone := true } } }) s
/-- `bar.free` (R196, R113, R116). -/
def execBarFree (a : SReg) (s : State) : Out :=
  onGroup s fun g => notParked s g (.barFree a) fun s => withBar s g (getS s a) true false true fun s t off =>
    let x := team s t
    if isBooth x off then retire (removeBooth s t off)
    else if !isBarrier x off || parkedOn s t off || (readBar x off).bytes != 0 || engineNames s t off then
      clobber s 2 (getS s a)
    else tellLate (retire (setTeam s t { x with tags := tput 0 x.tags (off / 16) 0 })) t

/-- `BOOTH_RESERVATION` (R111, R247): a request reaches the owner's controller; a parked request that came earlier goes first. -/
def boothReserve (s : State) (g : Nat) (laneEnd : LaneEnd) : State :=
  match (group s g).fly.booth with
  | none => s
  | some o =>
    let t := team s o.owner
    let b := readBooth t o.header
    let queued := t.parked.any fun e => e.1 == o.header
    if o.row.isSome || (t.parked.any fun e => e.2 == g) then s
    else match boothRefusal s g o with
      | some r => if !o.lane && (group s g).fly.lane.isSome then s else boothFault s g o r
      | none =>
        if b.free = 0 then
          if o.wait then modTeam s o.owner fun t => { t with parked := t.parked ++ [(o.header, g)] }
          else boothDone (modTeam s o.owner fun t =>
            writeBooth t o.header { b with refusals := min (b.refusals + 1) 0xFFFFFFFF }) g o (2 ^ 63) [] laneEnd
        else if queued then s
        else reserveRow s g o b
/-- `BPUTW_RESERVE` (R111, R247): the oldest parked request reserves once a row is free; a removed booth faults it. -/
def boothWake (s : State) (g : Nat) : State :=
  match (group s g).fly.booth with
  | none => s
  | some o =>
    let t := team s o.owner
    let b := readBooth t o.header
    if o.row.isSome || !o.wait || o.lane || (t.live && !o.gone && !(t.parked.any fun e => e.2 == g)) then s
    else match boothRefusal s g o with
      | some r => if (group s g).fly.lane.isSome then s else boothFault s g o r
      | none =>
        if b.free = 0 ∨ (t.parked.find? fun e => e.1 == o.header).any (fun e => e.2 != g) then s else reserveRow s g o b
/-- `BOOTH_FILL_COMPLETE` (R110, R247): the source bytes are in the row, the row becomes ready, and the instruction retires. The manual does not say what becomes of a fill whose booth `bar.free` has removed (R113); the model ends it with the cap and rowsz that stand at the header (log 22). Nor does it say what becomes of a fill whose owner team ends between the reservation and the fill: the instruction retires with its row number and writes nothing (DESIGN CHOICE, log 22). -/
def boothFill (s : State) (g : Nat) (laneEnd : LaneEnd) : State :=
  match (group s g).fly.booth with
  | none => s
  | some o => match o.row with
    | none => s
    | some (n, free) =>
      let b := readBooth (team s o.owner) o.header
      let bytes := if o.lane then o.source.take b.rowsz
        else scratchRead (team s (group s g).team) (ofLe o.source) b.rowsz
      let s := modTeam s o.owner fun t =>
        { (scratchWrite t (b.rowAt o.header n) bytes).1 with filling := t.filling.filter (· != (o.header, n)) }
      boothDone s g o (BitVec.ofNat 64 (free * 2 ^ 32 + n)) (runSectors (b.rowAt o.header n) b.rowsz) laneEnd

end Sys2Proof.Machine
end

