-- ==== Sys2Proof/Machine/TileDescs.lean ====
section
/-! DEFINITION. Tile descriptors: fields (R58), the checks of R60, the places of their elements; tile-register instructions (R199). -/

namespace Sys2Proof.Machine

open Sys2Proof

/-- shape (R58). -/
def tdShape (t : TileDesc) : Nat := bits t 127 96
/-- fmt (R58, R59). -/
def tdFmt (t : TileDesc) : Nat := bits t 95 92
/-- space: scratchpad, accumulator store, operand buffer, memory (R58). -/
def tdSpace (t : TileDesc) : Nat := bits t 91 90
/-- Number of rows (R58). -/
def tdRows (t : TileDesc) : Nat := bits t 89 80 + 1
/-- Number of columns (R58). -/
def tdCols (t : TileDesc) : Nat := bits t 79 70 + 1
/-- Row stride in bytes (R58). -/
def tdStride (t : TileDesc) : Nat := bits t 69 58 * 16
/-- The base field (R58). -/
def tdBase (t : TileDesc) : Nat := bits t 57 0
/-- Base byte address (R58). -/
def tdAddr (t : TileDesc) : Nat := tdBase t * 16
/-- Bytes of a row (R60). -/
def tdRowBytes (t : TileDesc) : Nat := tdCols t * fmtBits (tdFmt t) / 8
/-- Bytes from the base to past the last element (R60). -/
def tdExtent (t : TileDesc) : Nat := (tdRows t - 1) * tdStride t + tdRowBytes t
/-- Number of elements, in row-major order (R281). -/
def tdElems (t : TileDesc) : Nat := tdRows t * tdCols t
/-- Bytes of all elements. -/
def tdBytes (t : TileDesc) : Nat := tdRows t * tdRowBytes t
/-- Offset of byte k in row-major order from the base (R118). -/
def tdOffset (t : TileDesc) (k : Nat) : Nat := k / tdRowBytes t * tdStride t + k % tdRowBytes t

/-- The checks of R60 with the base address and limits given; `dst` for a destination. -/
def tdOk (t : TileDesc) (addr limS limT : Nat) (dst : Bool) : Bool :=
  let f := tdFmt t
  (1 ≤ f && f ≤ 0xD) && ((f != 1 && f != 0xC) || tdCols t % 2 == 0) &&
  (match tdSpace t with
   | 0 => decide (addr + tdExtent t ≤ limS)
   | 1 => f == 0xD && decide (tdBase t < limT) && tdRows t == 32 && tdCols t == 32 && tdStride t == 0
   | 2 => decide (addr + tdExtent t ≤ Config.operandBytes)
   | _ => true) &&
  (!dst || tdSpace t == 1 || tdRows t == 1 || decide (tdRowBytes t ≤ tdStride t))
/-- The checks of R60 for an instruction's descriptor. -/
def tdCheck (d : Desc) (t : TileDesc) (dst : Bool) : Bool := tdOk t (tdAddr t) d.s d.t dst

/-- The tile registers that a tile instruction names: C or destination, A or source, third (R263). -/
def tileRegs : TileIns → List Nat
  | .tmma x => [x.tc.toNat, x.a.toNat]
  | .tcsum x => [x.tc.toNat, x.a.toNat, x.x.toNat]
  | .tconv x => [x.tc.toNat, x.a.toNat]
  | .tasum x => [x.d.toNat, x.a.toNat] | .tload x => [x.d.toNat, x.a.toNat] | .tstore x => [x.d.toNat, x.a.toNat]
  | .tstage x => [x.d.toNat, x.a.toNat]
  | .tzero x => [x.d.toNat]
  | .tepi x => if x.scale = 0 then [x.d.toNat, x.a.toNat] else [x.d.toNat, x.a.toNat, x.ts.toNat]
  | .tres _ => [] | .trel _ => []

/-- Whether no lane instruction released before that names a tile register is still to complete: the lane stream is idle (log 6), and the tile instruction that a handler has interrupted does not name it (R61). The manual does not say whether a handler's write waits for released instructions of the interrupted context: they issue only after it returns, so the model does not wait (log 6). -/
def tileFree (s : State) (g t : Nat) : Bool :=
  let x := group s g
  laneIdle x && !(x.handler.any fun f => f.tile.any fun o => (tileRegs o.ins).contains t)
/-- A write of a tile register waits until every lane instruction released before it that names it has completed (R61). -/
def writeTile (s : State) (g : Nat) (i : Instr) (t : TReg) (whole : Bool) (f : TileDesc → TileDesc) : State :=
  if tileFree s g t.toNat then
    retire (modGroup s g fun x =>
      let y := setTreg x t.toNat (f (treg x t.toNat))
      if whole then y else { y with poison := x.poison })
  else wait s i
/-- `tset` (R199). -/
def execTset (t : TReg) (a b : SReg) (s : State) : Out :=
  onGroup s fun g => writeTile s g (.tset t a b) t true fun _ => getS s b ++ getS s a
/-- `tsetb` (R199). -/
def execTsetb (t : TReg) (a : SReg) (s : State) : Out :=
  onGroup s fun g =>
    let v := getS s a
    if bits v 3 0 ≠ 0 ∨ bits v 63 62 ≠ 0 then illegal s 1
    else writeTile s g (.tsetb t a) t false fun d => (d.extractLsb' 58 70 : BitVec 70) ++ (v.extractLsb' 4 58 : BitVec 58)
/-- `tsets` (R199). -/
def execTsets (t : TReg) (a : SReg) (s : State) : Out :=
  onGroup s fun g =>
    let v := getS s a
    if bits v 63 32 ≠ 0 then illegal s 1
    else writeTile s g (.tsets t a) t false fun d => (v.extractLsb' 0 32 : BitVec 32) ++ (d.extractLsb' 0 96 : BitVec 96)
/-- `tgetl` (R199). -/
def execTgetl (d : SReg) (t : TReg) (s : State) : Out :=
  onGroup s fun g => result s d ((treg (group s g) t.toNat).extractLsb' 0 64)
/-- `tgeth` (R199). -/
def execTgeth (d : SReg) (t : TReg) (s : State) : Out :=
  onGroup s fun g => result s d ((treg (group s g) t.toNat).extractLsb' 64 64)

end Sys2Proof.Machine
end

