-- ==== Sys2Proof/Machine/Copies.lean ====
section
/-! DEFINITION. Bulk copies (R117, R118, R242 to R244): the record's checks, the hand-over, the writing of bytes with their countdown, completion. -/

namespace Sys2Proof.Machine

open Sys2Proof

/-- A descriptor of a copy record (R117). -/
def copyDesc (r : List Byte) (off : Nat) : TileDesc := BitVec.ofNat 128 (fieldAt r off 16)
/-- Source and destination of a record (R117). -/
def copySrc (r : List Byte) : TileDesc := copyDesc r 0
/-- Destination of a record (R117). -/
def copyDst (r : List Byte) : TileDesc := copyDesc r 16
/-- count (R117). -/
def copyCount (r : List Byte) : Nat := fieldAt r 32 4
/-- bar (R117). -/
def copyBar (r : List Byte) : Nat := fieldAt r 36 4
/-- flags (R117). -/
def copyFlags (r : List Byte) : Nat := fieldAt r 40 1
/-- Whether a flag is set (R117). -/
def copyFlag (r : List Byte) (i : Nat) : Bool := copyFlags r / 2 ^ i % 2 == 1
/-- Cluster scratch address of a descriptor's base (R117). -/
def copyScratch (t : TileDesc) : Nat := tdBase t % 2 ^ 28 * 16

/-- A descriptor of a record passes R60, with other = 1 permitted (R118). -/
def copyDescOk (s : State) (team_ : Nat) (d : Desc) (t : TileDesc) (dst : Bool) : Bool :=
  if tdSpace t = 0 then
    decide (tdBase t < 2 ^ 28) && clusterAddr s team_ (copyScratch t) != .bad && tdOk t (copyScratch t % 2 ^ 21) d.s d.t dst
  else tdOk t (tdAddr t) d.s d.t dst
/-- The cause for which a record traps (R117, R118): 4 for a scope, else 5. -/
def copyTrap (s : State) (g : Nat) (r : List Byte) : Option Nat :=
  let d := descOf s g
  let src := copySrc r
  let dst := copyDst r
  let acq := copyFlag r 0
  let rel := copyFlag r 1
  let sa := fieldAt r 41 1 % 16
  let sr := fieldAt r 41 1 / 16
  let tm := (group s g).team
  if (acq && scopeBad s g (BitVec.ofNat 4 sa)) || (rel && scopeBad s g (BitVec.ofNat 4 sr)) then some 4
  else if copyFlags r / 8 ≠ 0 ∨ (!acq && sa != 0) ∨ (!rel && sr != 0) ∨ fieldAt r 42 1 / 16 ≠ 0 ∨ zeroAt r 43 21 = false then some 5
  else if copyCount r = 0 ∨ tdSpace src = 1 ∨ tdSpace src = 2 ∨ tdSpace dst = 1 then some 5
  else if !copyDescOk s tm d src false || !copyDescOk s tm d dst true then some 5
  else if tdBytes src < copyCount r ∨ tdBytes dst < copyCount r then some 5
  else if copyBar r ≠ 0xFFFFFFFF ∧ clusterAddr s tm (copyBar r) = .bad then some 5
  else none
/-- Whether a scratchpad descriptor names a cluster index that does not exist (R101). -/
def noSuchTeam (s : State) (t : Nat) (d : TileDesc) : Bool :=
  tdSpace d == 0 && decide (2 ^ 31 ≤ copyScratch d) && decide (clusterSize (launch s (team s t).launch).d ≤ copyScratch d / 2 ^ 24 % 16)
/-- Copies of a core in flight (R242). -/
def copiesInFlight (s : State) (c : Nat) : Nat :=
  ((s.work.teams.filter fun e => e.2.live && e.2.core == c).map fun e =>
    (e.2.copies.filter fun k => k.2.any fun k => !k.reported).length).foldl (· + ·) 0
/-- The lowest free place of a team's copies (R358). -/
def copySlot (t : Team) : Option Nat := (List.range Config.copyLimit).find? fun m => (tget none t.copies m).isNone
/-- A copy of a team, if any. -/
def copyOf (s : State) (t c : Nat) : Option Copy := tget none (team s t).copies c
/-- The state with a copy replaced or removed. -/
def setCopy (s : State) (t c : Nat) (k : Option Copy) : State :=
  modTeam s t fun x => { x with copies := tput none x.copies c k }
/-- An event of a core's copy engine (R393, R401). -/
def copyEvent (s : State) (t g code : Nat) (ops : List Byte) : State :=
  let c := (team s t).core
  engineEvent s (launch s (team s t).launch).part (c / 64) 1 (c % 64) code (varint (group s g).phys ++ ops)

/-- The hand-over of a checked record to the request engine (R118, R242). -/
def handOver (s : State) (g : Nat) (a : SReg) (off : Nat) (r : List Byte) : State :=
  let x := group s g
  let k := fieldAt r 42 1 % 16
  match copySlot (team s x.team) with
  | none => wait s (.xcopy a)
  | some m =>
    if Config.copyLimit ≤ copiesInFlight s (coreOf s g) ∨ 0xFFFF ≤ x.cnt.copies ∨ (copyFlag r 2 ∧ 0xFFFF ≤ kcount x k) then
      wait s (.xcopy a)
    else
      let (op, s) := newName s
      let x := { x with cnt := { x.cnt with copies := x.cnt.copies + 1 } }
      let s := setGroup s g (if copyFlag r 2 then raiseK x k op else x)
      let ops := if copyFlag r 2 then [(k, op)] else []
      let s := setCopy s x.team m (some ⟨g, off, r, ops, 0, false, none, none, false, inHandler x⟩)
      retire (copyEvent s x.team g 1 (varint off))
/-- `xcopy` (R118, R242). The manual does not say which exception an offset that is no multiple of 64 raises, nor where a base that names no team of the cluster is found: the model takes the misaligned-access fault, and the scratch-bounds fault at the `xcopy` (log 22). -/
def execXcopy (a : SReg) (s : State) : Out :=
  onGroup s fun g =>
    let v := getS s a
    let x := group s g
    let t := team s x.team
    let off := v.toNat
    if bits v 63 21 ≠ 0 then illegal s 1
    else if off % 64 ≠ 0 then raiseScalar s (scalarRec 6 0 false true v)
    else if (descOf s g).s < off + 64 then raiseScalar s (scalarRec 7 0 false true (BitVec.ofNat 64 (max off (descOf s g).s)))
    else match scratchPoison t off 64 with
      | some p => raiseScalar s (scalarRec 8 0 false true (BitVec.ofNat 64 p))
      | none =>
        let r := scratchRead t off 64
        match copyTrap s g r with
        | some c => illegal s c
        | none =>
          if noSuchTeam s x.team (copySrc r) then raiseScalar s (scalarRec 7 0 false true (BitVec.ofNat 64 (copyScratch (copySrc r))))
          else if noSuchTeam s x.team (copyDst r) then raiseScalar s (scalarRec 7 0 true false (BitVec.ofNat 64 (copyScratch (copyDst r))))
          else
            let go := fun s => if copyBar r = 0xFFFFFFFF then handOver s g a off r
              else match clusterAddr s x.team (copyBar r) with
                | .at u o => if isBarrier (team s u) o then handOver s g a off r
                    else clobber s 3 (BitVec.ofNat 64 (copyBar r))
                | _ => raiseScalar s (scalarRec 7 0 true false (BitVec.ofNat 64 (copyBar r)))
            if copyFlag r 0 then afterLanes s g (.xcopy a) go else go s

/-- Bytes that an engine reads: each a byte or suppressed, with the first fault (class, cause, address); or wait for a walk; or suspended at an invalid entry. -/
inductive EngRead where
  | bytes (bs : List (Option Byte)) (bad : Option (Nat × Nat × Word))
  | wait
  | suspend (addr : Word)
  deriving DecidableEq, Repr

/-- Positions of a run that are poisoned, from its segments (R359). -/
def poisonedAt (s : State) (segs : List Seg) : List Bool :=
  segs.flatMap fun g => (List.range g.len).map fun i => g.poison || s.bad.contains ((g.flat + i) / 64)
/-- An engine's read of a run of memory that lies in one page of one die (R243, R334). -/
def engineLoad (s : State) (who : Who) (va : Word) (n : Nat) : State × EngRead :=
  match addressFault who.mask va n with
  | some a => (s, .bytes (List.replicate n none) (some (5, 0, a)))
  | none =>
    match xlate s who 1 va n with
    | (s, .wait) => (s, .wait)
    | (s, .fault 4 0 a) => (s, .suspend a)
    | (s, .fault c k a) => (s, .bytes (List.replicate n none) (some (c, k, a)))
    | (s, .ok segs) =>
      let (s, bs) := homeRead s who va segs
      let po := poisonedAt s segs
      (s, .bytes (List.zipWith (fun (p : Bool) b => if p then none else some b) po bs)
        ((po.findIdx? id).map fun i => (8, 0, va + BitVec.ofNat 64 i)))
/-- An engine's read of a scratchpad run through a cluster scratch address (R101, R243). -/
def engineScratch (s : State) (t addr n : Nat) : EngRead :=
  match clusterAddr s t addr with
  | .at u off =>
    let x := team s u
    let lim := (launch s x.launch).d.s
    let bs := (List.range n).map fun i =>
      if lim ≤ off + i ∨ x.poison.contains ((off + i) / 64) then none else some (tget 0 x.scratch (off + i))
    .bytes bs ((bs.findIdx? (·.isNone)).map fun i =>
      (if lim ≤ off + i then 7 else 8, 0, BitVec.ofNat 64 (addr + i)))
  | _ => .bytes (List.replicate n none) (some (7, 0, BitVec.ofNat 64 addr))

/-- Maximal runs of bytes that are to be written: offset and bytes. -/
def runsOf : Nat → List (Option Byte) → List (Nat × List Byte)
  | _, [] => []
  | i, none :: r => runsOf (i + 1) r
  | i, some b :: r => match runsOf (i + 1) r with
    | (j, bs) :: rest => if j = i + 1 then (i, b :: bs) :: rest else (i, [b]) :: (j, bs) :: rest
    | [] => [(i, [b])]
/-- What an engine's write answers. -/
inductive EngWrite where
  | done (bad : Option (Nat × Nat × Word))
  | wait
  | suspend (addr : Word)
  deriving DecidableEq, Repr
/-- An engine's write of a run of memory within one page of one die (R243). -/
def engineStore (s : State) (who : Who) (va : Word) (bs : List (Option Byte)) : State × EngWrite :=
  match addressFault who.mask va bs.length with
  | some a => (s, .done (some (5, 0, a)))
  | none =>
    match xlate s who 2 va bs.length with
    | (s, .wait) => (s, .wait)
    | (s, .fault 4 0 a) => (s, .suspend a)
    | (s, .fault c k a) => (s, .done (some (c, k, a)))
    | (s, .ok segs) =>
      let flat := (segs.head?.map (·.flat)).getD 0
      let leaf := segs.any (·.poison)
      let s := (runsOf 0 bs).foldl (fun s r =>
        cleanBad (homeWrite s who (va + BitVec.ofNat 64 r.1) [⟨flat + r.1, r.2.length, leaf⟩] r.2) [(flat + r.1, r.2.length)]) s
      (s, .done none)
/-- An engine's write of a scratchpad run: bytes at or past S and tagged bytes are suppressed (R101, R113, R116, R243). -/
def engineScratchPut (s : State) (t addr : Nat) (bs : List (Option Byte)) : State × EngWrite :=
  match clusterAddr s t addr with
  | .at u off =>
    let x := team s u
    let lim := (launch s x.launch).d.s
    let keep := bs.zipIdx.map fun e => if lim ≤ off + e.2 ∨ tagAt x (off + e.2) ≠ 0 then none else e.1
    let bad := (List.range bs.length).find? fun i =>
      decide (lim ≤ off + i) || ((bs.getD i none).isSome && tagAt x (off + i) != 0)
    let s := (runsOf 0 keep).foldl (fun s r => modTeam s u fun x => scratchClean (scratchPut x (off + r.1) r.2) (off + r.1) r.2.length) s
    (s, .done (bad.map fun i => (if lim ≤ off + i then 7 else 9, 0, BitVec.ofNat 64 (addr + i))))
  | _ => (s, .done (some (7, 0, BitVec.ofNat 64 addr)))

/-- Base and size of the range that a team's reservation record holds (R268). -/
def reservedRange (w : Word × Word) : Nat × Nat := (bits w.1 17 0, bits w.1 36 18)
/-- Whether the ranges of two reservation records overlap (R268). -/
def rangesMeet (v w : Word × Word) : Bool :=
  decide ((reservedRange v).1 < (reservedRange w).1 + (reservedRange w).2 ∧ (reservedRange w).1 < (reservedRange v).1 + (reservedRange v).2)
/-- Whether a byte of the operand buffer lies in a team's reservations (R104). -/
def reserved (t : Team) (off : Nat) : Bool :=
  t.recs.any fun e => decide ((reservedRange e.2).1 ≤ off ∧ off < (reservedRange e.2).1 + (reservedRange e.2).2)
/-- A write to the operand buffer: bytes outside the team's reservations are suppressed (R104). -/
def engineBuffer (s : State) (t addr : Nat) (bs : List (Option Byte)) : State × EngWrite :=
  let x := team s t
  let keep := bs.zipIdx.map fun e => if reserved x (addr + e.2) then e.1 else none
  let bad := (List.range bs.length).find? fun i => !reserved x (addr + i)
  let s := (runsOf 0 keep).foldl (fun s r => modTeam s t fun x => { x with obuf := mwrite x.obuf (addr + r.1) r.2 }) s
  (s, .done (bad.map fun i => (7, 0, BitVec.ofNat 64 (addr + i))))

/-- Bytes of a descriptor that stand together from byte k on: to the end of the row, or of all rows where they join. -/
def runLeft (t : TileDesc) (k : Nat) : Nat :=
  if tdStride t = tdRowBytes t then tdBytes t - k else tdRowBytes t - k % tdRowBytes t
/-- Bytes up to the end of an address's page, in memory (R126). -/
def pageLeft (t : TileDesc) (k : Nat) : Nat :=
  if tdSpace t = 3 then 0x10000 - (tdAddr t + tdOffset t k) % 0x10000 else 2 ^ 32
/-- The requester for a team's copies and collectives (R322). -/
def teamWho (s : State) (t : Nat) (a : Agent) : Who :=
  let l := launch s (team s t).launch
  ⟨a, l.part, l.d.asn, l.d.mask, (team s t).core⟩

/-- A copy's first fault is kept (R243); its record names the copy record's offset (R344). -/
def noteCopyFault (k : Copy) (w : Bool) (bad : Option (Nat × Nat × Word)) : Copy :=
  match k.record, bad with
  | none, some (c, cause, a) =>
    { k with record := some ⟨c, cause, BitVec.ofNat 8 (accessByte false w (!w) 3), 0xFF, BitVec.ofNat 32 k.off, a⟩ }
  | _, _ => k
/-- A copy's fault becomes pending for its group; a handler's own copy ends the launch (R345, R347). -/
def reportCopy (s : State) (c : Nat) (k : Copy) (cls : Nat) : State :=
  if k.hand && inHandler (group s k.group) then unhandled s k.group (0x8000 + cls)
  else modGroup s k.group fun x => { x with pend := { x.pend with order := x.pend.order ++ [2 + c] } }
/-- A copy meets an invalid entry: it is suspended and its group takes the copy page fault; a fault noted before is still to come (R243). -/
def suspendCopy (s : State) (t c : Nat) (k : Copy) (w : Bool) (a : Word) : State :=
  let r : FaultRec := ⟨4, 0, BitVec.ofNat 8 (accessByte false w (!w) 3), 0xFF, BitVec.ofNat 32 k.off, a⟩
  reportCopy (setCopy (clearFaults s (.copy t c)) t c (some { k with suspended := true, susp := some r })) c k 4
/-- The barrier object of a copy, counted down (R115, R118). -/
def copyCountDown (s : State) (t : Nat) (r : List Byte) (n : Nat) : State :=
  if copyBar r = 0xFFFFFFFF then s
  else match clusterAddr s t (copyBar r) with
    | .at u off => countDown s u off n
    | _ => s

/-- `COPY_WRITE` (R118, R243): the next bytes that stand together at both ends are read, written and counted down. Where a source byte and a destination byte of these fault, the manual does not say which fault is the first: the model notes the source's (log 22). -/
def copyStep (s : State) (t c : Nat) : State :=
  match copyOf s t c with
  | none => s
  | some k =>
    let src := copySrc k.req
    let dst := copyDst k.req
    let n := min (min (copyCount k.req - k.done) (min (runLeft src k.done) (runLeft dst k.done)))
      (min (pageLeft src k.done) (pageLeft dst k.done))
    if k.suspended || k.reported || n = 0 || waiting s (.copy t c) then s
    else
      let who := teamWho s t (.copy t c)
      let so := tdOffset src k.done
      let (s, rd) := if tdSpace src = 3 then engineLoad s who (BitVec.ofNat 64 (tdAddr src + so)) n
        else (s, engineScratch s t (copyScratch src + so) n)
      match rd with
      | .wait => s
      | .suspend a => suspendCopy s t c k false a
      | .bytes bs badR =>
        let off := tdOffset dst k.done
        let (s, wr) := match tdSpace dst with
          | 3 => engineStore s who (BitVec.ofNat 64 (tdAddr dst + off)) bs
          | 0 => engineScratchPut s t (copyScratch dst + off) bs
          | _ => engineBuffer s t (tdAddr dst + off) bs
        match wr with
        | .wait => s
        | .suspend a => suspendCopy s t c k true a
        | .done badW =>
          let k := noteCopyFault (noteCopyFault k false badR) true badW
          let s := setCopy (clearFaults s (.copy t c)) t c (some { k with done := k.done + n })
          copyCountDown s t k.req n

/-- Runs that hold n bytes of a descriptor from byte k in row-major order, each within a row and a page: offset from the base and length. -/
def descRunsF : Nat → TileDesc → Nat → Nat → List (Nat × Nat)
  | 0, _, _, _ => []
  | f + 1, t, k, n =>
    if n = 0 then []
    else
      let m := min n (min (runLeft t k) (pageLeft t k))
      (tdOffset t k, m) :: descRunsF f t (k + m) (n - m)
/-- Runs of n bytes of a descriptor from byte k. -/
def descRuns (t : TileDesc) (k n : Nat) : List (Nat × Nat) := descRunsF (n + 1) t k n
/-- Runs of a descriptor in memory as runs of flat bytes, where the TLB holds their pages. -/
def flatRuns (s : State) (who : Who) (t : TileDesc) (runs : List (Nat × Nat)) : List (Nat × Nat) :=
  runs.filterMap fun r =>
    let va := BitVec.ofNat 64 (tdAddr t + r.1)
    (tlbFind (die s (ownerOf va)) who.part who.asn (pageOf va)).map fun e => (leafFlat e.leaf e.level va, r.2)
/-- Granules that a copy has written whole are clean, in memory or in a scratchpad (R359). -/
def copyClean (s : State) (t : Nat) (r : List Byte) : State :=
  let dst := copyDst r
  let runs := descRuns dst 0 (copyCount r)
  match tdSpace dst with
  | 3 => if s.bad.isEmpty then s else cleanBad s (flatRuns s (teamWho s t (.copy t 0)) dst runs)
  | 0 => match clusterAddr s t (copyScratch dst) with
    | .at u off => modTeam s u fun x => if x.poison.isEmpty then x
        else { x with poison := x.poison.filter fun k => !covers (runs.map fun e => (off + e.1, e.2)) k }
    | _ => s
  | _ => s
/-- Counters of a copy's group fall (R62, R63, R193). -/
def lowerCopy (s : State) (k : Copy) : State :=
  modGroup s k.group fun x =>
    let x := k.ops.foldl (fun x e => lowerK x e.1 e.2) x
    { x with cnt := { x.cnt with copies := x.cnt.copies - 1 } }
/-- `COPY_COMPLETE` (R118, R243): after the last byte the release is performed and the counters fall; a fault is then taken by the group. -/
def copyEnd (s : State) (t c : Nat) : State :=
  match copyOf s t c with
  | none => s
  | some k =>
    if k.suspended || k.reported || k.done < copyCount k.req then s
    else
      let s := lowerCopy s k
      let s := copyEvent s t k.group 2 (varint k.off ++ varint k.done ++ varint (match k.record with | some r => r.cls | none => 0xFF))
      match k.record with
      | none => setCopy (copyClean s t k.req) t c none
      | some r =>
        let s := setCopy s t c (some { k with ops := [], reported := true })
        reportCopy s c k r.cls
/-- Whether a copy stands where a save may stop it: at the end of a row of its destination, or suspended, or complete (R244). -/
def copyStops (k : Copy) : Bool := k.suspended || k.reported || k.done % tdRowBytes (copyDst k.req) == 0
/-- A suspended copy of a group that ends in a handler ends as an address fault would end it (R187). -/
def dropSuspended (s : State) (t c : Nat) (k : Copy) : State :=
  setCopy (lowerCopy (copyCountDown s t k.req (copyCount k.req - k.done)) k) t c none

end Sys2Proof.Machine
end

