-- ==== Sys2Proof/Machine/Tables.lean ====
section
/-! DEFINITION. Shape records and handles (R119 to R121, R200), coherence objects (R251 to R254, R338, R341), trace markers and sampling (R201). -/

namespace Sys2Proof.Machine

open Sys2Proof

/-- A shape record's rank (R119). -/
def shRank (r : List Byte) : Nat := fieldAt r 48 1 % 8
/-- Extent of dimension k (R119). -/
def shDim (r : List Byte) (k : Nat) : Nat := fieldAt r (4 * k) 4
/-- Stride of dimension k in elements (R119). -/
def shStride (r : List Byte) (k : Nat) : Nat := fieldAt r (24 + 4 * k) 4
/-- Element format code (R119). -/
def shFmt (r : List Byte) : Nat := fieldAt r 49 1 % 16
/-- Whether a convolution window is present (R119). -/
def shConv (r : List Byte) : Bool := fieldAt r 50 1 % 2 == 1
/-- Whether a record keeps R119. -/
def shapeOk (r : List Byte) : Bool :=
  let rank := shRank r
  let win := fun (i : Nat) => fieldAt r (56 + i) 1
  (1 ≤ rank && rank ≤ 6) && fieldAt r 48 1 < 8 && fieldAt r 49 1 < 14 && fieldAt r 50 1 < 2 && fieldAt r 51 1 == 0 &&
  ((List.range 6).all fun k => if k < rank then 0 < shDim r k else shDim r k == 0 && shStride r k == 0) &&
  (fmtBits (shFmt r) ≥ 32 || fieldAt r 52 4 < 2 ^ fmtBits (shFmt r)) &&
  (if shConv r then (List.range 6).all (fun i => 0 < win i) else zeroAt r 56 8)

/-- The lowest number from a start that is not in use; the fuel is one more than the numbers in use. -/
def lowestFree : Nat → List Nat → Nat → Nat
  | 0, _, n => n
  | f + 1, used, n => if used.contains n then lowestFree f used (n + 1) else n
/-- The shape slot a handle names when it passes R121. -/
def shapeOf (s : State) (part h : Nat) : Option ShapeSlot :=
  let x := shapeSlot s part (h / 4096)
  if h / 4096 < Config.shapeSlots ∧ x.alloc ∧ x.gen.toNat = h % 4096 then some x else none
/-- The stale-handle fault (R121, R251, R344). -/
def staleRec (cause source : Nat) (h : Nat) : FaultRec := ⟨11, cause, BitVec.ofNat 8 source, 0xFF, BitVec.ofNat 32 h, 0⟩

/-- `shalloc` (R200). An offset that is no multiple of 64 takes the misaligned-access fault; the manual names no exception for it (DESIGN CHOICE, log 22). -/
def execShalloc (d a : SReg) (s : State) : Out :=
  onGroup s fun g =>
    let v := getS s a
    let t := team s (group s g).team
    let p := partOf s g
    let off := v.toNat
    if bits v 63 21 ≠ 0 then illegal s 1
    else if off % 64 ≠ 0 then raiseScalar s (scalarRec 6 0 false true v)
    else if (descOf s g).s < off + 64 then raiseScalar s (scalarRec 7 0 false true (BitVec.ofNat 64 (max off (descOf s g).s)))
    else match scratchPoison t off 64 with
      | some q => raiseScalar s (scalarRec 8 0 false true (BitVec.ofNat 64 q))
      | none =>
        let r := scratchRead t off 64
        if !shapeOk r then illegal s 5
        else
          let used := (s.shapes.filter fun e => e.1 / Config.shapeSlots == p && e.2.alloc).map fun e => e.1 % Config.shapeSlots
          let n := lowestFree (used.length + 1) used 1
          if Config.shapeSlots ≤ n then result s d 0
          else
            let gen := (shapeSlot s p n).gen
            result (setShape s p n ⟨true, gen, r⟩) d (BitVec.ofNat 64 (n * 4096 + gen.toNat))
/-- `shfree` (R120, R200). -/
def execShfree (a : SReg) (s : State) : Out :=
  onGroup s fun g =>
    let h := (getS s a).toNat
    let p := partOf s g
    if h = 0 then retire s
    else match shapeOf s p h with
      | some x => retire (setShape s p (h / 4096) ⟨false, x.gen + 1, []⟩)
      | none => raiseScalar s (staleRec 0 0 h)
/-- `shtest` (R200). -/
def execShtest (d a : SReg) (s : State) : Out :=
  onGroup s fun g =>
    let h := (getS s a).toNat
    result s d (boolWord (h != 0 && (shapeOf s (partOf s g) h).isSome))

/-- Bytes of an object's extent, rounded up to whole lines (R252). -/
def objBytes (r : List Byte) : Nat :=
  let last := ((List.range (shRank r)).map fun k => (shDim r k - 1) * shStride r k).foldl (· + ·) 0
  let b := ((last + 1) * fmtBits (shFmt r) + 7) / 8
  (b + 127) / 128 * 128
/-- What checking every page of an extent answers (R341). -/
inductive PagesRes where
  | ok | wait
  | fault (cls cause : Nat) (addr : Word)
  deriving DecidableEq, Repr
/-- Whether a leaf's cdef allows a mode (R326). -/
def cdefAllows (leaf : Word) (mode : Nat) : Bool := mode == 0 || bits leaf 59 58 == mode
/-- Every page of an extent is translated and its cdef is checked (R341). -/
def checkPages : Nat → State → Who → Word → Nat → Nat → State × PagesRes
  | 0, s, _, _, _, _ => (s, .ok)
  | f + 1, s, who, va, n, mode =>
    if n = 0 then (s, .ok)
    else
      let m := min n (0x10000 - bits va 15 0)
      match xlatePage s who 0 va m with
      | (s, .wait) => (s, .wait)
      | (s, .fault k c a) => (s, .fault k c a)
      | (s, .ok _) =>
        match tlbFind (die s (ownerOf va)) who.part who.asn (pageOf va) with
        | some e => if cdefAllows e.leaf mode then checkPages f s who (va + BitVec.ofNat 64 m) (n - m) mode else (s, .fault 4 2 va)
        | none => (s, .fault 4 0 va)
/-- An object instruction goes on when its pages allow the mode; it waits for walks with no effect, or takes the page fault. -/
def withPages (s : State) (g : Nat) (i : Instr) (va : Word) (n mode : Nat) (k : State → State) : State :=
  let who := whoOf s g (.scalar g)
  match checkPages (n / 0x10000 + 2) s who va n mode with
  | (s, .wait) => wait s i
  | (s, .fault k c a) => raiseScalar (clearFaults s (.scalar g)) (scalarRec k c true true a)
  | (s, .ok) => k (clearFaults s (.scalar g))

/-- The state with an entry of a die's object table replaced (R338). -/
def putObj (s : State) (gd e : Nat) (o : CObj) : State :=
  modDie s gd fun x => { x with objs := tput CObj.blank x.objs e o }
/-- `cobj.decl` (R251, R252). -/
def execCobjDecl (d a b : SReg) (s : State) : Out :=
  onGroup s fun g =>
    let va := getS s a
    let w := getS s b
    let p := partOf s g
    let mode := bits w 33 32
    let dual := w.getLsbD 40
    let h := bits w 31 0
    if bits w 63 41 ≠ 0 ∨ bits w 35 34 ≠ 0 ∨ (!dual && bits w 39 36 != 0) then illegal s 1
    else if mode = 3 ∨ h = 0 then illegal s 5
    else if bits va 6 0 ≠ 0 then raiseScalar s (scalarRec 6 0 true true va)
    else match shapeOf s p h with
      | none => raiseScalar s (staleRec 0 0 h)
      | some x =>
        let n := objBytes x.bytes
        if !shapeOk x.bytes || (mode == 2 && shFmt x.bytes != 0xD) then illegal s 5
        else match addressFault (launch s (launchOf s g)).d.mask va n with
          | some f => raiseScalar s (scalarRec 5 0 true true f)
          | none => if 2 ^ 54 < bits va 53 0 + n then raiseScalar s (scalarRec 5 0 true true va)
            else withPages s g (.cobjDecl d a b) va n mode fun s =>
              let gd := ownerOf va
              let objs := (die s gd).objs
              let used := (objs.filter (·.2.alloc)).map (·.1)
              let e := lowestFree (used.length + 1) used 1
              let overlap := objs.any fun o => o.2.alloc && decide (o.2.base.toNat < va.toNat + n ∧ va.toNat < o.2.base.toNat + o.2.bytes)
              if Config.objEntries ≤ e then result s d (2 ^ 63)
              else if overlap then result s d (2 ^ 63 + 1)
              else
                let gen := (tget CObj.blank objs e).gen
                let o : CObj := ⟨true, gen, va, n, shFmt x.bytes, BitVec.ofNat 2 mode, [], p,
                  if dual then some (bits w 39 36) else none, []⟩
                result (putObj s gd e o) d
                  (BitVec.ofNat 64 (gd * 2 ^ 24 + gen.toNat * 2 ^ 12 + e))

/-- The object a handle names: its die, entry and object (R251). A chip outside the launch's mask holds none for it, so that such a handle is stale (DESIGN CHOICE, log 24). -/
def objOf (s : State) (g h : Nat) : Option (Nat × Nat × CObj) :=
  let gd := h / 2 ^ 24
  let o := tget CObj.blank (die s gd).objs (h % 4096)
  if h < 2 ^ 32 ∧ (launch s (launchOf s g)).d.mask.getLsbD (gd / 4) ∧ o.alloc ∧ o.gen.toNat = h / 4096 % 4096 then
    some (gd, h % 4096, o)
  else none
/-- An object instruction on the object its handle names, else the stale-handle fault (R251). -/
def withObject (s : State) (g : Nat) (h : Nat) (k : Nat → Nat → CObj → State) : State :=
  match objOf s g h with
  | some (gd, e, o) => k gd e o
  | none => raiseScalar s (staleRec 1 0 h)
/-- An object's copies and partial sums leave the cores: its recorded sharers are probed, the partial sums that cores hold for it are gathered into their slots (R141, R253, R254, R338). -/
def mergeObject (s : State) (gd e : Nat) (o : CObj) : State :=
  let slots := ((s.parts.filter fun p => p.die == gd && p.obj == e).map (·.slot)).eraseDups
  slots.foldl (fun s k => gatherSlot s gd e o true k) (sendCopies s gd e o o.sharers)
/-- `cobj.mode` (R253): kn is raised and the instruction retires; the home makes the change later. Bits [63:2] of sb, of which R251 says nothing, are ignored (DESIGN CHOICE, log 24). -/
def execCobjMode (k : KReg) (a b : SReg) (s : State) : Out :=
  onGroup s fun g =>
    let mode := bits (getS s b) 1 0
    if mode = 3 then illegal s 5
    else withObject s g (getS s a).toNat fun gd e o =>
      if mode = 2 ∧ o.fmt ≠ 0xD then illegal s 5
      else if 0xFFFF ≤ kcount (group s g) k.toNat then wait s (.cobjMode k a b)
      else withPages s g (.cobjMode k a b) o.base o.bytes mode fun s =>
        let (op, s) := newName s
        let s := modGroup s g fun x => raiseK x k.toNat op
        let o := tget CObj.blank (die s gd).objs e
        retire (putObj s gd e { o with changes := o.changes ++ [(BitVec.ofNat 2 mode, g, k.toNat, op)] })
/-- `COBJ_MODE_DONE` (R141, R253): copies and partial sums are merged, the mode is set and kn falls. -/
def cobjModeEnd (s : State) (gd e : Nat) : State :=
  let o := tget CObj.blank (die s gd).objs e
  match o.changes with
  | [] => s
  | (mode, g, k, op) :: rest =>
    let s := mergeObject s gd e o
    let s := putObj s gd e { o with mode := mode, changes := rest, sharers := [] }
    modGroup s g fun x => if x.live then lowerK x k op else x
/-- `cobj.free` (R254). -/
def execCobjFree (a : SReg) (s : State) : Out :=
  onGroup s fun g => withObject s g (getS s a).toNat fun gd e o =>
    if !o.changes.isEmpty then wait s (.cobjFree a)
    else
      let s := mergeObject s gd e o
      putObj s gd e { CObj.blank with gen := o.gen + 1 } |> retire
/-- `cobj.query` (R254). -/
def execCobjQuery (d a : SReg) (s : State) : Out :=
  onGroup s fun g => withObject s g (getS s a).toNat fun _ _ o =>
    result s d (o.mode.zeroExtend 64 + if o.changes.isEmpty then 0 else 4)

/-- `tmark` (R201, R395). -/
def execTmark (a b : SReg) (s : State) : Out :=
  onGroup s fun _ => retireTraced (aheadNow s) fun t g => emitGroup t g 6 0 (leBytes 8 (getS s a).toNat ++ leBytes 2 (bits (getS s b) 15 0))
/-- `tsync` (R201, R397). -/
def execTsync (s : State) : Out := onGroup s fun _ => retireTraced s fun s g => emitSync s g 2
/-- `tsamp` (R201, R400): with the trace bit 0 it has no effect. -/
def execTsamp (a : SReg) (s : State) : Out :=
  onGroup s fun g =>
    let n := bits (getS s a) 15 0
    retire (modGroup s g fun x => if x.trace.bit then { x with trace := { x.trace with every := n, count := 0 } } else x)

end Sys2Proof.Machine
end

