-- ==== Sys2Proof/Machine/Engine.lean ====
section
/-! DEFINITION. Whole descriptors read and written by engines (R118, R266, R281): the runs of bytes of a descriptor, elements of a format (R59, R71), free values. -/

namespace Sys2Proof.Machine

open Sys2Proof

/-- The next free value, and the state in which it is used up (log 20). -/
def freeValue (s : State) : Word × State := (Config.freeWord s.fresh, { s with fresh := s.fresh + 1 })

/-- What reading or probing a descriptor answers. -/
inductive DescRes where
  | ok (bs : List Byte)
  | wait
  | suspend (addr : Word)
  | fault (cls cause : Nat) (addr : Word)
  deriving DecidableEq, Repr

/-- One run read for a team (R59 space). -/
def readRun (s : State) (who : Who) (tm : Nat) (t : TileDesc) (r : Nat × Nat) : State × EngRead :=
  match tdSpace t with
  | 3 => engineLoad s who (BitVec.ofNat 64 (tdAddr t + r.1)) r.2
  | 2 => (s, .bytes ((mread (team s tm).obuf (tdAddr t + r.1) r.2).map some) none)
  | _ => (s, engineScratch s tm (tdAddr t + r.1) r.2)
/-- Runs read in order; the first that does not answer with every byte decides. -/
def readRuns (s : State) (who : Who) (tm : Nat) (t : TileDesc) : List (Nat × Nat) → State × DescRes
  | [] => (s, .ok [])
  | r :: rest =>
    match readRun s who tm t r with
    | (s, .wait) => (s, .wait)
    | (s, .suspend a) => (s, .suspend a)
    | (s, .bytes _ (some (c, k, a))) => (s, .fault c k a)
    | (s, .bytes bs none) => match readRuns s who tm t rest with
      | (s, .ok more) => (s, .ok (bs.map (·.getD 0) ++ more))
      | r => r
/-- n bytes of a descriptor in row-major order from byte k. -/
def readDesc (s : State) (who : Who) (tm : Nat) (t : TileDesc) (k n : Nat) : State × DescRes :=
  readRuns s who tm t (descRuns t k n)

/-- Whether a run may be written: limits, reservations and translation (R97, R101, R104, R322), before any byte is. -/
def probeRun (s : State) (who : Who) (tm : Nat) (t : TileDesc) (r : Nat × Nat) : State × DescRes :=
  let a := tdAddr t + r.1
  match tdSpace t with
  | 3 =>
    let va := BitVec.ofNat 64 a
    match addressFault who.mask va r.2 with
    | some b => (s, .fault 5 0 b)
    | none => match xlate s who 2 va r.2 with
      | (s, .wait) => (s, .wait)
      | (s, .fault 4 0 b) => (s, .suspend b)
      | (s, .fault c k b) => (s, .fault c k b)
      | (s, .ok _) => (s, .ok [])
  | 2 => match (List.range r.2).find? fun i => !reserved (team s tm) (a + i) with
    | some i => (s, .fault 7 0 (BitVec.ofNat 64 (a + i)))
    | none => (s, .ok [])
  | _ =>
    let lim := (launch s (team s tm).launch).d.s
    if lim < a + r.2 then (s, .fault 7 0 (BitVec.ofNat 64 (max a lim))) else (s, .ok [])
/-- Runs probed in order. -/
def probeRuns (s : State) (who : Who) (tm : Nat) (t : TileDesc) : List (Nat × Nat) → State × DescRes
  | [] => (s, .ok [])
  | r :: rest =>
    match probeRun s who tm t r with
    | (s, .ok _) => probeRuns s who tm t rest
    | r => r

/-- One run written for a team. -/
def writeRun (s : State) (who : Who) (tm : Nat) (t : TileDesc) (off : Nat) (bs : List Byte) : State × EngWrite :=
  let a := tdAddr t + off
  match tdSpace t with
  | 3 => engineStore s who (BitVec.ofNat 64 a) (bs.map some)
  | 2 => engineBuffer s tm a (bs.map some)
  | _ => engineScratchPut s tm a (bs.map some)
/-- Runs written in order after they were probed; the first suppressed byte is kept (R113, R116). -/
def writeRuns (s : State) (who : Who) (tm : Nat) (t : TileDesc) : List (Nat × Nat) → List Byte → State × Option Word
  | [], _ => (s, none)
  | r :: rest, bs =>
    let (s, w) := writeRun s who tm t r.1 (bs.take r.2)
    let (s, later) := writeRuns s who tm t rest (bs.drop r.2)
    (s, match w with
      | .done (some (_, _, a)) => some a
      | _ => later)
/-- Bytes written to a descriptor in row-major order from byte k. -/
def writeDesc (s : State) (who : Who) (tm : Nat) (t : TileDesc) (k : Nat) (bs : List Byte) : State × Option Word :=
  writeRuns s who tm t (descRuns t k bs.length) bs

/-- Elements of a width from bytes; 4-bit elements lie low nibble first (R71). -/
def elemsOf (bits : Nat) (bs : List Byte) : List Nat :=
  if bits = 4 then bs.flatMap fun b => [b.toNat % 16, b.toNat / 16]
  else (List.range (bs.length / (bits / 8))).map fun i => fieldAt bs (i * (bits / 8)) (bits / 8)
/-- Nibbles packed two to a byte, low first (R71). -/
def packNibbles : List Nat → List Byte
  | a :: b :: r => BitVec.ofNat 8 (a % 16 + 16 * (b % 16)) :: packNibbles r
  | [a] => [BitVec.ofNat 8 (a % 16)]
  | [] => []
/-- Bytes of elements of a width. -/
def bytesOf (bits : Nat) (es : List Nat) : List Byte :=
  if bits = 4 then packNibbles es else es.flatMap fun e => leBytes (bits / 8) e

end Sys2Proof.Machine
end

