-- ==== Sys2Proof/Machine/Collectives.lean ====
section
/-! DEFINITION. Collectives (R278 to R293): the checks at issue, the hand-over, the steps of reductions and movements, completion, cancellation. -/

namespace Sys2Proof.Machine

open Sys2Proof

/-- Ranks of a collective at a level (R278). -/
def rankCount (d : Desc) (level : Nat) : Nat := teamsBelow d level
/-- The scope of a barrier operand (R194). -/
def collLevel (a : Word) : Nat := bits a 35 32
/-- root (R281). -/
def collRoot (b : Word) : Nat := bits b 63 32
/-- Offset of the status word (R281). -/
def collStatus (b : Word) : Nat := bits b 31 14 * 8
/-- Rounding mode (R281). -/
def collMode (b : Word) : Nat := bits b 13 12
/-- sat (R281). -/
def collSat (b : Word) : Bool := b.getLsbD 11
/-- n: integer elements are unsigned (R281). -/
def collUns (b : Word) : Bool := b.getLsbD 10
/-- op (R281). -/
def collOp (b : Word) : Nat := bits b 7 4
/-- Whether a function is a reduction (R280). -/
def isReduction (fn : Nat) : Bool := decide (fn ≤ 2)
/-- Whether a rank's source is read, and whether its destination is written (R280, R283). -/
def usesSrc (fn rank : Nat) (b : Word) : Bool := fn != 5 || rank == collRoot b
/-- Whether a rank's destination is checked and written (R280, R283). -/
def usesDst (fn rank : Nat) (b : Word) : Bool := fn != 0 || rank == collRoot b

/-- Whether the formats meet R282. -/
def collFmtOk (fn rank : Nat) (b : Word) (src dst : TileDesc) : Bool :=
  let f := tdFmt src
  let g := tdFmt dst
  let num := fun (x : Nat) => 1 ≤ x && x ≤ 0xB
  if isReduction fn then
    let ok := fun (x : Nat) => num x || (collOp b == 0 && x == 0xD)
    ok f && (!usesDst fn rank b || ok g) && decide (tdElems src ≤ 65536)
  else
    let ok := fun (x : Nat) => 1 ≤ x && x ≤ 0xD
    (!usesSrc fn rank b || ok f) && ok g && (!usesSrc fn rank b || f == g)
/-- Whether the element counts meet R280's table at a rank of P. -/
def collCountsOk (fn rank p : Nat) (b : Word) (src dst : TileDesc) : Bool :=
  let e := tdElems src
  let f := tdElems dst
  match fn with
  | 0 => !usesDst fn rank b || e == f
  | 1 => e == f
  | 2 => e == p * f
  | 3 => f == p * e
  | 4 => e == f && e % p == 0
  | _ => !usesSrc fn rank b || e == f
/-- Whether a descriptor lies in the own scratchpad or in memory and passes R60 (R281). -/
def collDescOk (d : Desc) (t : TileDesc) (dst : Bool) : Bool :=
  (tdSpace t == 0 || tdSpace t == 3) && tdCheck d t dst

/-- Whether a scope is none of a collective (R278, R27). -/
def collScopeBad (s : State) (g : Nat) (a : Word) : Bool :=
  let c : Scope := BitVec.ofNat 4 (collLevel a)
  c == 15 || scopeBad s g c || !atOrAboveTeam (descOf s g) c.toNat || scopeAboveH s g c
/-- The lowest cause with which a collective traps at issue (R283, R343). -/
def collTrap (s : State) (g fn : Nat) (a b : Word) : Option Nat :=
  let d := descOf s g
  let x := group s g
  let level := collLevel a
  let p := rankCount d level
  let rank := (team s x.team).no % p
  let t := bits b 3 0
  let src := treg x t
  let dst := treg x (t + 1)
  let zero := bits b 9 8 != 0 || (!isReduction fn && (bits b 13 10 != 0 || collOp b != 0)) ||
    (fn != 0 && fn != 5 && collRoot b != 0)
  let operand := match barOperand s g a true false with
    | .trap _ => true
    | _ => false
  if operand || zero then some 1
  else if collScopeBad s g a then some 4
  else if t % 2 = 1 ∨ 2 < collOp b ∨ p ≤ collRoot b then some 5
  else if (usesSrc fn rank b && !collDescOk d src false) || (usesDst fn rank b && !collDescOk d dst true) then some 5
  else if !collFmtOk fn rank b src dst || !collCountsOk fn rank p b src dst then some 5
  else none

/-- A collective at issue: its checks, its release, and the wait for the hand-over (R283, R284). -/
def collective (fn : Nat) (a b : SReg) (i : Instr) (s : State) : Out :=
  onGroup s fun g => notParked s g i fun s =>
    let v := getS s a
    match collTrap s g fn v (getS s b) with
    | some c => illegal s c
    | none => match barOperand s g v true true with
      | .object _ _ =>
        if (descOf s g).s ≤ collStatus (getS s b) then
          raiseScalar s (scalarRec 7 0 true false (BitVec.ofNat 64 (collStatus (getS s b))))
        else wait s i
      | .fault c => raiseScalar s (scalarRec c 0 true false (scratchWord v))
      | .trap c => illegal s c
/-- `creduce` (R280). -/
def execCreduce (d a b : SReg) (s : State) : Out := collective 0 a b (.creduce d a b) s
/-- `callred` (R280). -/
def execCallred (d a b : SReg) (s : State) : Out := collective 1 a b (.callred d a b) s
/-- `credscat` (R280). -/
def execCredscat (d a b : SReg) (s : State) : Out := collective 2 a b (.credscat d a b) s
/-- `callgath` (R280). -/
def execCallgath (d a b : SReg) (s : State) : Out := collective 3 a b (.callgath d a b) s
/-- `calltoall` (R280). -/
def execCalltoall (d a b : SReg) (s : State) : Out := collective 4 a b (.calltoall d a b) s
/-- `cbcast` (R280). -/
def execCbcast (d a b : SReg) (s : State) : Out := collective 5 a b (.cbcast d a b) s

/-- The collective a group waits at: function, destination and the values of its operands. -/
def collAt (x : Group) : Option (Nat × SReg × Word × Word) :=
  let mk := fun (fn : Nat) (d a b : SReg) => some (fn, d, sregOf x a.toNat, sregOf x b.toNat)
  match x.fly.waiting with
  | some (.creduce d a b) => mk 0 d a b
  | some (.callred d a b) => mk 1 d a b
  | some (.credscat d a b) => mk 2 d a b
  | some (.callgath d a b) => mk 3 d a b
  | some (.calltoall d a b) => mk 4 d a b
  | some (.cbcast d a b) => mk 5 d a b
  | _ => none
/-- What a group issues: function, operand values, tile registers (R279). -/
def issued (x : Group) : Option (Nat × Word × Word × TileDesc × TileDesc) :=
  (collAt x).map fun c => (c.1, c.2.2.1, c.2.2.2, treg x (bits c.2.2.2 3 0), treg x (bits c.2.2.2 3 0 + 1))

/-- The rank of a team in a collective, if it has handed over. -/
def rankOf (c : Coll) (t : Nat) : Option CollRank := (c.ranks.find? fun e => e.2.any fun r => r.team == t).bind (·.2)
/-- Collectives of a team in flight or with a fault still to be told, oldest first (R279). -/
def collsOf (s : State) (t : Nat) : List (Nat × Coll) :=
  s.work.colls.filterMap fun e => e.2.bind fun c =>
    if (rankOf c t).any fun r => !r.done || r.late || !r.toTell.isEmpty then some (e.1, c) else none
/-- How many collectives of a team are in flight: a rank's part ends with the collective, though its fault may still wait (R279, R284). -/
def collsBusy (s : State) (t : Nat) : Nat := (collsOf s t).countP fun e => (rankOf e.2 t).any fun r => !r.done
/-- Elements of the reduced vector, or of a destination (R287, R290). -/
def collLength (r : CollRank) : Nat := if isReduction r.fn then tdElems r.src else tdElems r.dst
/-- Number of steps (R287, R290). -/
def collSteps (r : CollRank) : Nat := (collLength r + 1023) / 1024
/-- Destination bytes that R280 gives to a rank. -/
def rankBytes (fn rank : Nat) (b : Word) (dst : TileDesc) : Nat := if usesDst fn rank b then tdBytes dst else 0
/-- Whether two ranks agree under R279. -/
def ranksAgree (x y : CollRank) : Bool :=
  let key := fun (b : Word) => (collRoot b, collMode b, collSat b, collUns b, collOp b)
  let sig := fun (t : TileDesc) => (tdFmt t, tdElems t)
  x.fn == y.fn && key x.b == key y.b && (x.fn == 5 || sig x.src == sig y.src) && (x.fn == 0 || sig x.dst == sig y.dst)
/-- A collective's outcome is decided, unless it was before. -/
def decide_ (c : Coll) (o step : Nat) : Coll := if c.outcome.isSome then c else { c with outcome := some o, step := step }

/-- The collective that a team's next issue at a node matches, or a new one (R279). -/
def matchColl (s : State) (l level node seq : Nat) (size : Nat) : Nat × Coll × State :=
  match s.work.colls.findSome? fun e => e.2.bind fun c =>
      if c.launch = l ∧ c.level = level ∧ c.node = node ∧ c.seq = seq then some (e.1, c) else none with
  | some (n, c) => (n, c, s)
  | none =>
    let (n, s) := newName s
    (n, ⟨l, level, node, seq, [], size, 0, [], [], false, false, none, 0xFFFFFFFF, [], []⟩, s)

/-- The ranks agree, or the collective ends with a mismatch (R279). -/
def joinRank (c : Coll) (rank : Nat) (r : CollRank) (same : Bool) : Coll :=
  let ok := same && c.ranks.all fun e => e.2.all fun x => ranksAgree x r
  let c := { c with ranks := tput none c.ranks rank (some r) }
  let c := if ok then c else decide_ c 3 0
  if r.record.isSome then decide_ c 4 c.step else c

/-- The ranks that have handed over, in order of rank. -/
def rankList (c : Coll) : List (Nat × CollRank) := c.ranks.filterMap fun e => e.2.map fun r => (e.1, r)
/-- Carillon's record of a step (R401), from a home slice that the manual does not name (log 20). -/
def stepRecord (s : State) (c : Coll) (step outcome : Nat) : State :=
  let d := ((rankList c).head?.map fun e => (team s e.2.team).core / 64).getD 0
  let (v, s) := freeValue s
  engineEvent s (launch s c.launch).part d 4 (bits v 3 0) 6 (varint step ++ varint outcome)

/-- A collective changed; a step that its outcome ends is recorded (R401). -/
def putColl (s : State) (c : Nat) (before after : Coll) : State :=
  let s := setColl s c (some after)
  match before.outcome, after.outcome with
  | none, some o => stepRecord s after after.step o
  | _, _ => s
/-- `COLLECTIVE_HANDOVER` (R279, R284): every group of the team waits at its collective and fewer than four are in flight. Where the groups of the team disagree, the operands, the object and the node of the team's first group are the ones armed, matched and counted down; the manual names none (DESIGN CHOICE, log 22). -/
def collHandover (s : State) (t : Nat) : State :=
  let x := team s t
  let gs := x.groups
  let first := (gs.head?).bind fun g => issued (group s g)
  match first with
  | none => s
  | some (fn, a, b, src, dst) =>
    let ready := x.live && gs.all fun g =>
      let y := group s g
      (collAt y).isSome && laneIssued y && decide (y.cnt.copies < 0xFFFF)
    if !ready || decide (Config.collLimit ≤ collsBusy s t) then s
    else
      let l := x.launch
      let d := (launch s l).d
      let level := collLevel a
      let p := rankCount d level
      let rank := x.no % p
      let seq := tget 0 x.seq level
      let off := bits a 20 0
      let o := readBar x off
      let n := rankBytes fn rank b dst
      let armed := isBarrier x off && o.arrive != 0
      let o' := testBar { o with arrive := o.arrive - 1, bytes := (o.bytes + n + 8) % 2 ^ 48 }
      let record : Option FaultRec := if armed then none
        else some (mkRec 9 3 (accessByte false true false 4) (BitVec.ofNat 64 off))
      let hand := (gs.filter fun g => inHandler (group s g)).map fun g => (group s g).no
      let r : CollRank := ⟨t, fn, a, b, src, dst, armed, o.phase, n, 0, none, record, [], hand, false, false⟩
      let (c, k, s) := matchColl s l level (x.no / p) seq p
      let s := modTeam s t fun y => { (if armed then writeBar y off o' else y) with seq := tput 0 y.seq level (seq + 1) }
      let s := putColl s c k (joinRank k rank r (gs.all fun g => issued (group s g) == first))
      let s := gs.foldl (fun s g => match collAt (group s g) with
        | some (_, sd, va, _) =>
          let s := modGroup s g fun y => { y with cnt := { y.cnt with copies := y.cnt.copies + 1 } }
          asGroup s g fun s => result s sd (withPhase va o.phase)
        | none => s) s
      tellLate s t

/-- The agent of a collective's accesses, on behalf of a rank's team (R286). -/
def rankWho (s : State) (c : Nat) (r : CollRank) : Who := teamWho s r.team (.coll c)
/-- A fault record of a collective (R344). -/
def collRec (cls cause : Nat) (w : Bool) (addr : Word) : FaultRec := mkRec cls cause (accessByte false w (!w) 4) addr
/-- A rank meets an invalid entry: the step is suspended and every group of the team takes the page fault (R293). -/
def suspendRank (s : State) (c : Nat) (k : Coll) (rank : Nat) (r : CollRank) (w : Bool) (a : Word) : State :=
  let gs := (team s r.team).groups
  let r := { r with susp := some (collRec 4 0 w a), toTell := gs.map fun g => (group s g).no }
  tellGroups (setColl (clearFaults s (.coll c)) c (some { k with suspended := true, ranks := tput none k.ranks rank (some r) })) c r 4
/-- A rank faults: the collective ends with outcome 0x04, and its rows that are still on their way are not delivered (R293). -/
def faultRank (s : State) (c : Nat) (k : Coll) (rank : Nat) (r : CollRank) (rec_ : FaultRec) : State :=
  putColl (clearFaults s (.coll c)) c k (decide_ { k with queue := [], senders := [], ranks := tput none k.ranks rank (some { r with record := some rec_ }) } 4 k.step)

/-- What reading every rank answers: one list of bytes per rank, or what stops it. -/
inductive RanksRes where
  | ok (data : List (Nat × List Byte))
  | wait
  | suspend (rank : Nat) (r : CollRank) (w : Bool) (addr : Word)
  | fault (rank : Nat) (r : CollRank) (w : Bool) (cls cause : Nat) (addr : Word)
/-- The bytes that each rank supplies, n from byte k of its source. -/
def readRanks (s : State) (c : Nat) : List (Nat × CollRank × Nat × Nat) → State × RanksRes
  | [] => (s, .ok [])
  | (rank, r, k, n) :: rest =>
    match readDesc s (rankWho s c r) r.team r.src k n with
    | (s, .wait) => (s, .wait)
    | (s, .suspend a) => (s, .suspend rank r false a)
    | (s, .fault cl ca a) => (s, .fault rank r false cl ca a)
    | (s, .ok bs) => match readRanks s c rest with
      | (s, .ok more) => (s, .ok ((rank, bs) :: more))
      | r => r

/-- A contribution: its exact value, or a long-accumulator record (R287). -/
inductive Contribution where
  | value (v : FVal)
  | acc (a : LA)
/-- An element of a source format as a contribution (R287). -/
def contribution (fmt : Nat) (uns : Bool) (e : Nat) : Contribution :=
  match fmtType fmt (!uns) with
  | some t => .value (valueC t e)
  | none => .acc (laOfBytes (leBytes 128 e))
/-- The class of a non-finite contribution: 0 NaN, 1 +∞, 2 −∞ (R288). -/
def nonFinite : Contribution → Option Nat
  | .value .nan => some 0
  | .value (.inf s) => some (if s then 2 else 1)
  | .value _ => none
  | .acc a => if a.n then some 0 else if a.p then some 1 else if a.m then some 2 else none
/-- A contribution added to an element's accumulator (R287). -/
def contribute (a : LA) (rank : Nat) : Contribution → LA
  | .value v => laAdd a v rank
  | .acc b => laMerge a b
/-- Of two encodings of a type the lesser or greater in the order of R212 or of the integers (R287). -/
def pickC (t : CType) (mx : Bool) (a b : Nat) : Nat :=
  match t with
  | .flt f => if mx then maxF f a b else minF f a b
  | .int w sg => if (decide (readInt w sg b < readInt w sg a)) != mx then b else a

/-- A step of a reduction on the elements of every rank: a halt, or the sums and extremes (R287, R288). -/
def reduceStep (c : Coll) (st : Nat) (data : List (Nat × List Nat)) (r0 : CollRank) : Coll :=
  let fmt := tdFmt r0.src
  let uns := collUns r0.b
  let notes := data.filterMap fun e =>
    (e.2.zipIdx.findSome? fun v => (nonFinite (contribution fmt uns v.1)).map fun k => (1024 * st + v.2, k)).map fun n => (e.1, n)
  match notes with
  | (low, _) :: _ =>
    let rec_ := fun (n : Nat × Nat) => some { mkRec 12 0 (accessByte false false true 4) (BitVec.ofNat 64 n.1) with aux := BitVec.ofNat 32 n.2 }
    let mark := fun (e : Nat × Option CollRank) => match notes.find? fun n => n.1 == e.1 with
      | some (_, n) => (e.1, e.2.map fun (r : CollRank) => { r with record := rec_ n })
      | none => e
    decide_ { c with ranks := c.ranks.map mark, low := BitVec.ofNat 32 low } 1 st
  | [] =>
    let len := (data.head?.map (·.2.length)).getD 0
    if collOp r0.b = 0 then
      let sums := (List.range len).map fun i => (1024 * st + i,
        data.foldl (fun a e => contribute a e.1 (contribution fmt uns (e.2.getD i 0))) LA.zero)
      { c with sums := c.sums ++ sums, step := st + 1 }
    else
      let t := (fmtType fmt (!uns)).getD (.int 8 true)
      let best := (List.range len).map fun i => (1024 * st + i, BitVec.ofNat 64
        (match data with
         | [] => 0
         | e :: rest => rest.foldl (fun m x => pickC t (collOp r0.b == 2) m (x.2.getD i 0)) (e.2.getD i 0)))
      { c with best := c.best ++ best, step := st + 1 }

/-- Source elements of a movement's chunk of one rank's destination, n from element k on, in blocks of F: the source rank, its first element, the count (R290). -/
def moveRuns (fn rank block : Nat) : Nat → Nat → Nat → List (Nat × Nat × Nat)
  | 0, _, _ => []
  | f + 1, k, n =>
    if n = 0 then []
    else
      let m := if block = 0 then n else min n (block - k % block)
      let src := match fn with
        | 3 => (k / block, k % block, m)
        | 4 => (k / block, block * rank + k % block, m)
        | _ => (0, k, m)
      src :: moveRuns fn rank block f (k + m) (n - m)
/-- The bytes that hold runs of elements of width w, each given by its first element and count; nibbles of a run that begins or ends within a byte are joined to their neighbours (R71). -/
def joinRuns (w : Nat) (runs : List (Nat × Nat)) (data : List (List Byte)) : List Byte :=
  if w = 4 then packNibbles ((runs.zip data).flatMap fun e => ((elemsOf 4 e.2).drop (e.1.1 % 2)).take e.1.2) else data.flatten

/-- The teams of every rank whose part has not ended are resident: a saved collective stays where it is (R293). -/
def ranksLive (s : State) (c : Coll) : Bool := (rankList c).all fun e => e.2.done || (team s e.2.team).live
/-- A rank's team has ended without issuing the collective (R279). -/
def rankMissing (s : State) (c : Coll) : Bool :=
  (List.range c.size).any fun r => (tget none c.ranks r).isNone && (launch s c.launch).ended.contains (c.node * c.size + r)
/-- A movement's destination chunk of every rank, read, written and counted down (R285, R290). -/
def moveRanks (s : State) (c : Nat) (st : Nat) : List (Nat × CollRank) → State × RanksRes
  | [] => (s, .ok [])
  | (rank, r) :: rest =>
    match coll s c with
    | none => (s, .ok [])
    | some k =>
      let w := fmtBits (tdFmt r.dst)
      let first := 1024 * st
      let n := min 1024 (tdElems r.dst - first)
      let block := if r.fn = 5 then 0 else tdElems r.dst / k.size
      let runs := moveRuns r.fn rank block (n + 1) first n
      let src := runs.filterMap fun e =>
        let from_ := if r.fn = 5 then collRoot r.b else e.1
        (tget none k.ranks from_).map fun q => (from_, q, e.2.1 * w / 8, ((e.2.1 + e.2.2) * w + 7) / 8 - e.2.1 * w / 8)
      match readRanks s c src with
      | (s, .ok data) =>
        match probeRuns s (rankWho s c r) r.team r.dst (descRuns r.dst (first * w / 8) (n * w / 8)) with
        | (s, .wait) => (s, .wait)
        | (s, .suspend a) => (s, .suspend rank r true a)
        | (s, .fault cl ca a) => (s, .fault rank r true cl ca a)
        | (s, .ok _) => match moveRanks s c st rest with
          | (s, .ok more) => (s, .ok ((rank, joinRuns w (runs.map (·.2)) (data.map (·.2))) :: more))
          | x => x
      | x => x
/-- Granules that a collective has covered whole in a rank's destination, of those that n bytes from byte k on meet, are clean; the bytes before k were written before. A granule with a tagged byte is not covered (R116, R359). -/
def rankClean (s : State) (who : Who) (t : Nat) (dst : TileDesc) (k n : Nat) : State :=
  let fresh := fun (runs new : List (Nat × Nat)) (b : Nat) =>
    covers runs b && new.any fun r => decide (r.1 < b * 64 + 64 ∧ b * 64 < r.1 + r.2)
  let runs := descRuns dst 0 (k + n)
  let new := descRuns dst k n
  if tdSpace dst = 3 then
    if s.bad.isEmpty then s
    else { s with bad := s.bad.filter fun b => !fresh (flatRuns s who dst runs) (flatRuns s who dst new) b }
  else match clusterAddr s t (tdAddr dst) with
    | .at u off =>
      let at_ := fun (l : List (Nat × Nat)) => l.map fun r => (off + r.1, r.2)
      modTeam s u fun x => if x.poison.isEmpty then x
        else { x with poison := x.poison.filter fun b =>
          !(fresh (at_ runs) (at_ new) b && (List.range 4).all fun i => tget 0 x.tags (4 * b + i) == 0) }
    | _ => s
/-- Bytes written to a rank's destination from byte k, each counted down once (R285); a tagged byte is a fault of the rank. -/
def writeRank (s : State) (c rank k : Nat) (bs : List Byte) : State :=
  match (coll s c).bind fun x => tget none x.ranks rank with
  | none => s
  | some r =>
    let (s, bad) := writeDesc s (rankWho s c r) r.team r.dst k bs
    let s := rankClean s (rankWho s c r) r.team r.dst k bs.length
    let s := if r.armed then countDown s r.team (bits r.a 20 0) bs.length else s
    let record := match r.record, bad with
      | none, some a => some (collRec 9 0 true a)
      | o, _ => o
    setColl s c ((coll s c).map fun x =>
      { x with ranks := tput none x.ranks rank (some { r with written := r.written + bs.length, record := record }) })

/-- What a failed read or probe of a rank does to the collective (R293). -/
def rankStop (s : State) (c : Nat) (k : Coll) (res : RanksRes) : State :=
  match res with
  | .suspend rank r w a => suspendRank s c k rank r w a
  | .fault rank r w cl ca a => faultRank s c k rank r (collRec cl ca w a)
  | _ => s

/-- The rank that supplies byte k of a rank's destination in a `calltoall`; a byte of two senders' nibbles counts as the first's (R290, R291). -/
def senderOf (size : Nat) (dst : TileDesc) (k : Nat) : Nat := k * 8 / fmtBits (tdFmt dst) / (tdElems dst / size)
/-- The first destination byte of a sender's block. -/
def blockStart (size : Nat) (dst : TileDesc) (src : Nat) : Nat := src * (tdElems dst / size) * fmtBits (tdFmt dst) / 8
/-- The bytes of a destination from byte k on as rows of a receive queue: each has one sender and lies in one run of 512 bytes, by which its number within the block counts (R291, log 22). -/
def rowsOf (size rank : Nat) (dst : TileDesc) : Nat → List Byte → List RecvRow
  | _, [] => []
  | k, b :: bs =>
    let src := senderOf size dst k
    let seq := k / Config.receiveBytes - blockStart size dst src / Config.receiveBytes
    match rowsOf size rank dst (k + 1) bs with
    | r :: rest => if r.src = src ∧ r.seq = seq then { r with place := k, bytes := b :: r.bytes } :: rest
        else ⟨rank, src, seq, k, [b]⟩ :: r :: rest
    | [] => [⟨rank, src, seq, k, [b]⟩]
/-- Senders reserve rows in the order in which they ask; one that finds a rank's queue full waits (R111, R291). -/
def reserveRows (k : Coll) : Coll :=
  k.senders.foldl (fun (k : Coll) r =>
    if (k.queue.filter fun q => q.dst == r.dst).length < Config.receiveRows then { k with queue := k.queue ++ [r] }
    else { k with senders := k.senders ++ [r] }) { k with senders := [] }
/-- The home of a receiving rank writes the oldest row to the place that its tags fix; the last row of a step ends it (R291). -/
def deliverRow (s : State) (c : Nat) (k : Coll) (row : RecvRow) : State :=
  match tget none k.ranks row.dst with
  | none => s
  | some r => match probeRuns s (rankWho s c r) r.team r.dst (descRuns r.dst row.place row.bytes.length) with
    | (s, .wait) => s
    | (s, .suspend a) => suspendRank s c k row.dst r true a
    | (s, .fault cl ca a) => faultRank s c k row.dst r (collRec cl ca true a)
    | (s, .ok _) =>
      let k := reserveRows { k with queue := k.queue.drop 1, writing := true }
      let last := k.queue.isEmpty
      let s := setColl (clearFaults s (.coll c)) c (some { k with step := if last then k.step + 1 else k.step })
      let s := writeRank s c row.dst row.place row.bytes
      if last then stepRecord s k k.step 0 else s
/-- `COLLECTIVE_STEP` (R287, R290): one step, of a `calltoall` one row, or the mismatch of R279 for a team that ended without issuing. -/
def collStep (s : State) (c : Nat) : State :=
  match coll s c with
  | none => s
  | some k =>
    if k.outcome.isSome || k.suspended || waiting s (.coll c) then s
    else if rankMissing s k then putColl s c k (decide_ k 3 0)
    else match (rankList k).head? with
      | none => s
      | some (_, r0) =>
        if (rankList k).length < k.size ∨ !ranksLive s k ∨ collSteps r0 ≤ k.step then s
        else if isReduction r0.fn then
          let w := fmtBits (tdFmt r0.src)
          let first := 1024 * k.step
          let n := min 1024 (collLength r0 - first)
          match readRanks s c ((rankList k).map fun e => (e.1, e.2, first * w / 8, n * w / 8)) with
          | (s, .ok data) =>
            let k' := reduceStep k k.step (data.map fun e => (e.1, elemsOf w e.2)) r0
            stepRecord (setColl (clearFaults s (.coll c)) c (some k')) k' k.step (k'.outcome.getD 0)
          | (s, r) => rankStop s c k r
        else match k.queue with
          | row :: _ => deliverRow s c k row
          | [] => match moveRanks s c k.step (rankList k) with
            | (s, .ok data) =>
              let s := clearFaults s (.coll c)
              let at_ := 1024 * k.step * fmtBits (tdFmt r0.dst) / 8
              if r0.fn = 4 then
                let rows := data.flatMap fun e => match tget none k.ranks e.1 with
                  | some r => rowsOf k.size e.1 r.dst at_ e.2
                  | none => []
                setColl s c (some (reserveRows { k with senders := rows }))
              else
                let s := setColl s c (some { k with step := k.step + 1, writing := true })
                let s := data.foldl (fun s e => writeRank s c e.1 at_ e.2) s
                stepRecord s k k.step 0
            | (s, r) => rankStop s c k r

/-- The results that a rank receives, as elements of its destination format (R287). -/
def resultsFor (c : Coll) (rank : Nat) (r : CollRank) : List Nat :=
  let n := tdElems r.dst
  let first := if r.fn = 2 then n * rank else 0
  let uns := collUns r.b
  if !usesDst r.fn rank r.b then []
  else (List.range n).map fun i =>
    let e := first + i
    if collOp r.b = 0 then
      let a := tget LA.zero c.sums e
      match fmtType (tdFmt r.dst) (!uns) with
      | some t => laRound a t (collMode r.b) (collSat r.b)
      | none => ofLe (laBytes (laNorm a))
    else
      let src := (fmtType (tdFmt r.src) (!uns)).getD (.int 8 true)
      let dst := (fmtType (tdFmt r.dst) (!uns)).getD (.int 8 true)
      roundC dst (collMode r.b) (collSat r.b) (valueC src (tget 0 c.best e).toNat)
/-- Every destination of a reduction probed before the first byte is written. -/
def probeRanks (s : State) (c : Nat) : List (Nat × CollRank) → State × RanksRes
  | [] => (s, .ok [])
  | (rank, r) :: rest =>
    match probeRuns s (rankWho s c r) r.team r.dst (descRuns r.dst 0 r.bytes) with
    | (s, .wait) => (s, .wait)
    | (s, .suspend a) => (s, .suspend rank r true a)
    | (s, .fault cl ca a) => (s, .fault rank r true cl ca a)
    | (s, .ok _) => probeRanks s c rest
/-- A rank's part ends: its status word, the countdown of what was not written, its counters and its fault (R285, R286, R288). -/
def finishRank (s : State) (c : Nat) (k : Coll) (o rank : Nat) : State :=
  match (coll s c).bind fun x => tget none x.ranks rank with
  | none => s
  | some r =>
    if r.done then s
    else
      let low := if o = 1 then k.low.toNat else 0xFFFFFFFF
      let word := low * 2 ^ 32 + (if o = 0 then 0 else k.step % 256 * 256) + o
      let (t, bad) := scratchWrite (team s r.team) (collStatus r.b) (leBytes 8 word)
      let s := setTeam s r.team t
      let s := if r.armed then countDown s r.team (bits r.a 20 0) (r.bytes - r.written + 8) else s
      let record := match r.record, bad with
        | none, some a => some (collRec 9 0 true (BitVec.ofNat 64 a))
        | x, _ => x
      let s := setColl s c ((coll s c).map fun x =>
        { x with ranks := tput none x.ranks rank (some { r with done := true, record := record, late := record.isSome }) })
      let s := (team s r.team).groups.foldl (fun s g => modGroup s g fun x => { x with cnt := { x.cnt with copies := x.cnt.copies - 1 } }) s
      tellFault s c rank
/-- Every rank that has handed over is finished with an outcome. -/
def finishRanks (s : State) (c o : Nat) : State :=
  match coll s c with
  | none => s
  | some k => (rankList k).foldl (fun s e => tellFault (finishRank s c k o e.1) c e.1) s
/-- A collective that every rank has left is forgotten (R279). -/
def dropColl (s : State) (c : Nat) : State :=
  match coll s c with
  | none => s
  | some k =>
    let left := (List.range k.size).all fun r => match tget none k.ranks r with
      | some x => x.done && ((x.toTell.isEmpty && !x.late) || (launch s k.launch).ended.contains (k.node * k.size + r))
      | none => (launch s k.launch).ended.contains (k.node * k.size + r)
    if k.outcome.isSome && left then setColl s c none else s
/-- `COLLECTIVE_END` (R285): destinations of a reduction, status words, and the countdown of the remaining bytes. -/
def collEnd (s : State) (c : Nat) : State :=
  match coll s c with
  | none => s
  | some k =>
    if k.suspended || waiting s (.coll c) || !ranksLive s k then s
    else match k.outcome with
      | some o => dropColl (finishRanks s c o) c
      | none => match (rankList k).head? with
        | none => s
        | some (_, r0) =>
          if (rankList k).length < k.size ∨ k.step < collSteps r0 then s
          else if isReduction r0.fn then
            let dsts := (rankList k).filter fun e => usesDst e.2.fn e.1 e.2.b
            match probeRanks s c dsts with
            | (s, .ok _) =>
              let s := setColl (clearFaults s (.coll c)) c (some { k with writing := true })
              let s := dsts.foldl (fun s e =>
                writeRank s c e.1 0 (bytesOf (fmtBits (tdFmt e.2.dst)) (resultsFor k e.1 e.2))) s
              dropColl (finishRanks (setColl s c ((coll s c).map fun x => decide_ x 0 0)) c 0) c
            | (s, r) => rankStop s c k r
          else dropColl (finishRanks (setColl s c (some (decide_ k 0 0))) c 0) c

/-- A cancelled collective's ranks: no step is suspended any more, no row is still to be delivered (R292). -/
def quietRanks (k : Coll) : Coll :=
  { k with suspended := false, queue := [], senders := [],
           ranks := k.ranks.map fun e => (e.1, e.2.map fun r => if r.susp.isSome then { r with susp := Option.none, toTell := [] } else r) }
/-- The page faults of a cancelled collective's suspended step are no longer pending: no rank faults because of a cancellation (R292). -/
def dropSusp (s : State) (c : Nat) (k : Coll) : State :=
  ((rankList k).filter fun e => e.2.susp.isSome).foldl (fun s e => (team s e.2.team).groups.foldl (fun s g =>
    modGroup s g fun x => { x with pend := { x.pend with order := x.pend.order.filter (· != 0x1000 + c) } }) s) s
/-- `cabort` (R292): a release, then the oldest collective in flight through the object stops, unless its writing has begun. -/
def execCabort (d a : SReg) (s : State) : Out :=
  onGroup s fun g => notParked s g (.cabort d a) fun s =>
    let v := getS s a
    match barOperand s g v true false with
    | .trap c => illegal s c
    | r =>
      if collScopeBad s g v then illegal s 4
      else match r with
        | .fault c => raiseScalar s (scalarRec c 0 true false (scratchWord v))
        | _ => afterLanes s g (.cabort d a) fun s =>
          let mine := (collsOf s (group s g).team).find? fun e =>
            (rankOf e.2 (group s g).team).any fun r => !r.done && bits r.a 20 0 == bits v 20 0 && collLevel r.a == collLevel v
          match mine with
          | some (c, k) =>
            if k.outcome.isSome || k.writing then result s d 0
            else result (putColl (dropSusp s c k) c k (decide_ (quietRanks k) 2 k.step)) d 1
          | none => result s d 0

end Sys2Proof.Machine
end

