-- ==== Sys2Proof/Machine/Ending.lean ====
section
/-! DEFINITION. The end of a group (R40, R187) and a partition reset (R387, R388). -/

namespace Sys2Proof.Machine

open Sys2Proof

/-- The counters of a tile instruction that is given up for good fall (R187). -/
def lowerTile (x : Group) (t : TileOp) (k : Option Nat) : Group :=
  if t.raised then
    let x := { x with cnt := { x.cnt with tiles := x.cnt.tiles - 1 } }
    match k with
    | some n => lowerK x n t.op
    | none => x
  else x
/-- The completion counter that a tile instruction names (R263). -/
def tileCounter (i : TileIns) : Option Nat :=
  let kc := fun (c : TileCtl) => c.kc.map (·.toNat)
  match i with
  | .tmma x => kc x.c
  | .tcsum x => kc x.c
  | .tconv x => kc x.c
  | .tasum x => kc x.c
  | .tzero x => kc x.c
  | .tload x => kc x.c
  | .tstore x => kc x.c
  | .tstage x => kc x.c
  | .tepi x => kc x.c
  | _ => none
/-- What an `sexit` in a handler discards first (R187): the frame's parked lanes, held records and abandoned tile instruction, every pending record, and the group's suspended copies. A tile instruction in flight commits or is abandoned first. -/
def discardFrame (s : State) (g : Nat) : State :=
  match (group s g).handler with
  | none => s
  | some f =>
    let s := (group s g).pend.order.foldl (fun s c => dropRecord s g c) s
    let x := group s g
    let x := match f.tile with
      | some t => if t.phase = TilePhase.abandoned then lowerTile x t (tileCounter t.ins) else x
      | none => x
    let s := setGroup s g { x with pend := Pending.none,
                                   handler := some { f with tile := frameTile x, lane := { f.lane with park := Park.none, rq := [] } } }
    (team s x.team).copies.foldl (fun s e => match e.2 with
      | some k => if k.group = g ∧ k.suspended then dropSuspended s x.team e.1 k else s
      | none => s) s
/-- `sexit` (R40, R187): in a walk it cannot retire (log 19). -/
def execSexit (s : State) : Out :=
  match s.cur with
  | .group g =>
    let s := discardFrame s g
    let x := group s g
    .next (if laneIdle x && countersZero x then endGroup s g else wait (modGroup s g endRunOn) .sexit)
  | _ => .next s

/-- An object of a partition is flushed and freed; a dual object stays for its other partition (R387). -/
def resetObjects (s : State) (p : Nat) : State :=
  s.dies.foldl (fun s e => e.2.objs.foldl (fun s o =>
    if o.2.alloc ∧ (o.2.part = p ∨ o.2.dual = some p) then
      let x := tget CObj.blank (die s e.1).objs o.1
      let s := mergeObject s e.1 o.1 x
      let other := if x.part = p then x.dual else some x.part
      match other with
      | some q => putObj s e.1 o.1 { x with part := q, dual := none, sharers := [] }
      | none => putObj s e.1 o.1 { CObj.blank with gen := x.gen + 1 }
    else s) s) s
/-- Queues of a partition (R368). -/
def queueRange (s : State) (p : Nat) : Nat × Nat := (bits (preg s p 0x030) 14 0, bits (preg s p 0x030) 31 16)
/-- Whether a queue is a partition's (R368). -/
def ownsQueue (s : State) (p q : Nat) : Bool :=
  decide ((queueRange s p).1 ≤ q ∧ q < (queueRange s p).1 + (queueRange s p).2)
/-- The partition to which a queue is assigned (R368). -/
def queuePart (s : State) (q : Nat) : Option Nat := (List.range 16).find? fun p => ownsQueue s p q
/-- A launch that waits for joins when its queue is reset (R387): it ends as one that the reset kills, and the chips that were asked are told so (log 24). -/
def dropJoining (s : State) (l : Nat) : State :=
  let x := launch s l
  let e : EndInfo := ⟨4, 0, 0, chipNo s, 0, 0⟩
  let cs := (List.range 64).filter fun c => x.d.mask.getLsbD c && c != chipNo s
  sendAll (setLaunch s l { x with fin := some e, ends := now s, phase := .ending }) (cs.map fun c => Msg.abort c x.gen 4 0 (chipNo s))
/-- Whether a launch has a team on a core. -/
def standsHere (s : State) (l : Nat) : Bool := s.work.teams.any fun e => e.2.live && e.2.launch == l
/-- Whether a partition reset kills a running launch: it has a group or a saved node on this chip (R387 step 3), or every team of it has ended here and its end is not taken down yet, so that it is decided after step 1 and not reported (R388). -/
def resetKills (s : State) (l : Nat) : Bool :=
  let x := launch s l
  standsHere s l || !x.saved.isEmpty || (x.queue.isSome && decide (x.ended.length = teamCount x.d))
/-- Whether an agent is the front end of a queue of a partition, or its copy. -/
def frontEndOf (s : State) (p : Nat) : Agent → Bool
  | .queue q => ownsQueue s p q
  | .qcopy q => ownsQueue s p q
  | _ => false
/-- The front ends of a partition's queues are released; a walk that one of them waits for answers nobody any more (R387 step 2). -/
def releaseQueues (s : State) (p : Nat) : State :=
  { s with
    queues := s.queues.map fun (e : Nat × Queue) =>
      (e.1, if ownsQueue s p e.1 then { e.2 with halt := true, bound := none, copy := none } else e.2)
    work := { s.work with waits := s.work.waits.filter fun e => !frontEndOf s p e.agent,
                          faults := s.work.faults.filter fun e => !frontEndOf s p e.1 } }
/-- A partition reset begins (R387 steps 1 to 3): pctl.rst is 1, the queues halt, every group of the partition on this chip is killed with its launch, no interrupt of it is sent any more. -/
def beginReset (s : State) (p : Nat) : State :=
  let s := releaseQueues (setPreg s p 0 (preg s p 0 ||| 0x200)) p
  let ls := (s.work.launches.filter fun e => e.2.live && e.2.part == p && e.2.fin.isNone && e.2.phase == .running && resetKills s e.1).map (·.1)
  let s := ls.foldl (fun s l => killEverywhere s l ⟨4, 0, 0, chipNo s, 0, 0⟩) s
  let js := (s.work.launches.filter fun e => e.2.live && e.2.part == p && e.2.phase == .joining).map (·.1)
  js.foldl dropJoining s
/-- Whether a launch of a partition's queues still waits to be reported; its end is reported before the queue is reset (R387, log 24). -/
def endsDue (s : State) (p : Nat) : Bool := s.work.launches.any fun e => e.2.live && e.2.part == p && e.2.queue.isSome && e.2.fin.isSome
/-- A partition reset ends (R387 steps 4 to 7): objects, TLB entries and the shape table are emptied, queue registers take their reset values, pctl.rst is 0. -/
def endReset (s : State) (p : Nat) : State :=
  let s := resetObjects s p
  let s : State := { s with
    dies := s.dies.map fun (e : Nat × Die) => (e.1, { e.2 with tlb := e.2.tlb.filter fun t => t.part != p })
    shapes := s.shapes.map fun (e : Nat × ShapeSlot) =>
      (e.1, if e.1 / Config.shapeSlots = p ∧ e.2.alloc then ⟨false, e.2.gen, []⟩ else e.2)
    queues := s.queues.filter fun (e : Nat × Queue) => !ownsQueue s p e.1 }
  setPreg s p 0 (preg s p 0 &&& ~~~(0x200 : Word))

end Sys2Proof.Machine
end

