-- ==== Sys2Proof/Machine/PartRegs.lean ====
section
/-! DEFINITION. The partition registers (R311 to R313, R324, R368, R391, R399): maps, limits, and what a write does, for `spset` and for host writes (R6). -/

namespace Sys2Proof.Machine

open Sys2Proof

/-- Whether a register number appears in the maps (R311). -/
def regKnown (r : Nat) : Bool :=
  decide (r ≤ 4 ∨ (0x010 ≤ r ∧ r ≤ 0x013) ∨ r = 0x020 ∨ r = 0x030 ∨ (0x040 ≤ r ∧ r ≤ 0x050))
/-- Bits of a register that its map names (R312, R324, R368, R391, R399); the others are reserved. -/
def regBits (r : Nat) : Word :=
  if r = 0x000 then 0x301
  else if r = 0x001 then 0xFF
  else if r = 0x002 then 0xFFFFF
  else if r = 0x003 then 0x1FFFFFF
  else if r = 0x004 then 0x3FFFFFFFFFFFFEFF
  else if r ≤ 0x013 then 0xFFFF
  else if r = 0x020 then 0xFFFFFFFF
  else if r = 0x030 then 0xFFFFFF7FFF
  else if r ≤ 0x043 then 0xFFFFFFFFFFFFF01F
  else if r ≤ 0x047 then 0xFFFFFF0B
  else if r ≤ 0x04F then 0xFFFFFFFFFFFFFFFF
  else 0x1FFFFFFFF
/-- Read-only bits: rst, drops, written (R5). -/
def regFixed (r : Nat) : Word :=
  if r = 0x000 then 0x200 else if r = 0x020 then 0xFFFFFFFF else if 0x048 ≤ r ∧ r ≤ 0x04B then 0xFFFFFFFFFFFFFFFF else 0
/-- Manager fields (R312, R324, R368). -/
def regManager (r : Nat) : Word :=
  if r = 0x000 then 0x100
  else if r = 0x001 ∨ r = 0x002 ∨ r = 0x003 ∨ (0x010 ≤ r ∧ r ≤ 0x013) ∨ r = 0x030 then regBits r
  else 0
/-- Registers whose manager fields a locked interface freezes: pmem, pcarve, pqueue (R384). -/
def regFrozen (r : Nat) : Bool := decide (r = 0x002 ∨ (0x010 ≤ r ∧ r ≤ 0x013) ∨ r = 0x030)
/-- Whether a partition's interface is locked (R384). -/
def locked (s : State) (p : Nat) : Bool := tdispOf s p == .configLocked || tdispOf s p == .run

/-- The value a write leaves: read-only bits stay, a 1 clears csctl.err (R5). -/
def regMerge (r : Nat) (old v : Word) : Word :=
  let w := (v &&& ~~~regFixed r) ||| (old &&& regFixed r)
  if 0x044 ≤ r ∧ r ≤ 0x047 then (w &&& ~~~(8 : Word)) ||| (old &&& ~~~v &&& 8) else w
/-- Whether two ranges of numbers overlap. -/
def overlap (a b : Nat × Nat) : Bool := decide (a.2 ≠ 0 ∧ b.2 ≠ 0 ∧ a.1 < b.1 + b.2 ∧ b.1 < a.1 + a.2)
/-- HBM units of a pmem value: first and count (R324). -/
def pmemRange (v : Word) : Nat × Nat := (bits v 7 0, bits v 15 8)
/-- Queues of a pqueue value: first and count (R368). -/
def pqueueRange (v : Word) : Nat × Nat := (bits v 14 0, bits v 31 16)
/-- Whether a value's range meets no other partition's (R324, R368). -/
def apart (s : State) (p r : Nat) (f : Word → Nat × Nat) (v : Word) : Bool :=
  (List.range 16).all fun q => q == p || !overlap (f v) (f (preg s q r))
/-- Whether a new value keeps the stated ranges, the fields that an enabled sink holds, and the ranges of other partitions (R312, R324, R368, R391). A csbase that is not aligned to its size or does not lie on its die is accepted: R391 states both and gives no outcome (DESIGN CHOICE, log 24). -/
def regLimits (s : State) (p r : Nat) (old v : Word) : Bool :=
  if r = 0x002 then (List.range 4).all fun d => decide (bits v (5 * d + 4) (5 * d) ≤ 16)
  else if r = 0x003 then decide (v.toNat ≤ 0x1000000)
  else if 0x010 ≤ r ∧ r ≤ 0x013 then decide ((pmemRange v).1 + (pmemRange v).2 ≤ 192) && apart s p r pmemRange v
  else if r = 0x030 then
    decide (bits v 39 32 ≤ 64) && decide ((pqueueRange v).1 + (pqueueRange v).2 ≤ 32768) && apart s p r pqueueRange v
  else if 0x040 ≤ r ∧ r ≤ 0x043 then
    (12 ≤ bits v 4 0 && bits v 4 0 ≤ 30) && (v == old || !(preg s p (r + 4)).getLsbD 0)
  else if 0x044 ≤ r ∧ r ≤ 0x047 then bits v 15 8 == bits old 15 8 || !old.getLsbD 0
  else if 0x04C ≤ r ∧ r ≤ 0x04F then
    let w := (preg s p (r - 4)).toNat
    decide (v.toNat ≤ w ∧ w ≤ v.toNat + ringSize s p (r - 0x04C))
  else true

/-- A live launch of a partition with an identifier (R374). -/
def launchNamed (s : State) (p id : Nat) : Option Nat :=
  (s.work.launches.find? fun e => e.2.live && e.2.part == p && e.2.d.id.toNat == id && e.2.fin.isNone).map (·.1)
/-- A trace setting reaches a launch and its running groups (R399). -/
def setTrace (s : State) (l : Nat) (on : Bool) : State :=
  let s := modLaunch s l fun x => { x with trace := on }
  { s with work := { s.work with groups := s.work.groups.map fun (e : Nat × Group) =>
      (e.1, if e.2.live && launchOf s e.1 == l then { e.2 with trace := { e.2.trace with next := some on } } else e.2) } }
/-- A sink is enabled anew: its counts restart and its first record is a time-base record (R391). -/
def startSink (s : State) (p d : Nat) : State :=
  setSink (setPreg (setPreg s p (0x048 + d) 0) p (0x04C + d) 0) p d { Sink.blank with fresh := true }

/-- A register takes a value that keeps its rules, with what follows from it; a write of ptrace for a launch that does not exist has no effect (R399). -/
def regPut (s₀ : State) (p r : Nat) (v : Word) : State :=
  let old := preg s₀ p r
  let s := setPreg s₀ p r v
  if r = 0x000 then
    if !v.getLsbD 8 then (if old.getLsbD 8 then { s with resets := tput 0 s.resets p 1 } else s)
    else if !old.getLsbD 8 && tget 0 s.resets p == 1 then beginReset { s with resets := tput 0 s.resets p 0 } p
    else s
  else if 0x044 ≤ r ∧ r ≤ 0x047 then
    let d := r - 0x044
    if v.getLsbD 0 && !old.getLsbD 0 then startSink s p d
    else if !v.getLsbD 0 then setSink s p d { sink s p d with held := [] } else s
  else if r = 0x050 then
    match launchNamed s p (bits v 31 0) with
    | some l => setTrace s l (v.getLsbD 32)
    | none => s₀
  else s

/-- The cause with which an `spset` is refused (R312, R324, R368, R384, R391). -/
def regRefusal (s : State) (p r : Nat) (level : BitVec 2) (v : Word) : Option Nat :=
  let old := preg s p r
  let w := regMerge r old v
  if v &&& ~~~regBits r ≠ 0 then some 1
  else if level < 2 ∧ (w ^^^ old) &&& regManager r ≠ 0 then some 3
  else if !regLimits s p r old w || (locked s p && regFrozen r && w != old) then some 5
  else none
/-- A host write of a partition register (R6): reserved bits are dropped, a write that breaks a rule is discarded; of a frozen field it moves the interface to ERROR and begins a reset (R384). -/
def hostReg (s : State) (p r : Nat) (v : Word) : State :=
  let old := preg s p r
  let w := regMerge r old (v &&& regBits r)
  if !regKnown r then s
  else if locked s p && regFrozen r && w != old then
    beginReset { s with tdisp := tput .configUnlocked s.tdisp p .error } p
  else if !regLimits s p r old w then s
  else regPut s p r w

end Sys2Proof.Machine
end

