-- ==== Sys2Proof/Machine/Privileged.lean ====
section
/-! DEFINITION. The privileged instructions of major 0x3C (R308 to R320): partition registers, slot tables, pre-emption requests. -/

namespace Sys2Proof.Machine

open Sys2Proof

/-- A selector's partition and register, where it keeps R311. -/
def selector (a : Word) : Option (Nat × Nat) :=
  if bits a 63 16 = 0 ∧ regKnown (bits a 11 0) then some (bits a 15 12, bits a 11 0) else none
/-- Whether a group may act on a partition (R309). -/
def mayName (s : State) (g p : Nat) : Bool := (group s g).level == 2 || partOf s g == p
/-- `spget` (R311). -/
def execSpget (d a : SReg) (s : State) : Out :=
  privileged s 1 fun g => match selector (getS s a) with
    | none => illegal s 1
    | some (p, r) => result s d (if mayName s g p then preg s p r else 0)
/-- `spset` (R311, R312): the write takes effect before the instruction retires (R310), so a trace setting takes effect at its retirement (R399). A write that begins a reset may end the group itself, which has then retired. -/
def execSpset (a b : SReg) (s : State) : Out :=
  privileged s 1 fun g => match selector (getS s a) with
    | none => illegal s 1
    | some (p, r) =>
      let v := getS s b
      if !mayName s g p then retire s
      else match regRefusal s p r (group s g).level v with
        | some c => illegal s c
        | none =>
          let w := regMerge r (preg s p r) v
          if r = 0 then regPut (retire s) p r w else retire (regPut s p r w)

/-- The dies and cores of a slot-table selector, and its entry; none where it breaks R315. -/
def slotSelector (a : Word) : Option (List Nat × Nat) :=
  let alld := a.getLsbD 19
  let allc := a.getLsbD 18
  if bits a 63 20 ≠ 0 ∨ bits a 15 14 ≠ 0 ∨ bits a 7 6 ≠ 0 ∨ (alld = true ∧ bits a 17 16 ≠ 0) ∨ (allc = true ∧ bits a 13 8 ≠ 0) then none
  else
    let ds := if alld then [0, 1, 2, 3] else [bits a 17 16]
    let cs := if allc then List.range 64 else [bits a 13 8]
    some (ds.flatMap fun d => cs.map fun c => d * 64 + c, bits a 5 0)
/-- `sslotw` (R315): vacant positions are skipped. -/
def execSslotw (a b : SReg) (s : State) : Out :=
  privileged s 2 fun _ => match slotSelector (getS s a) with
    | none => illegal s 1
    | some (cs, e) =>
      if bits (getS s b) 63 20 ≠ 0 then illegal s 1
      else retire (cs.foldl (fun s c => modCore s c fun k =>
        if k.vacant then k else { k with shadow := tput slotReset k.shadow e (BitVec.ofNat 20 (getS s b).toNat) }) s)
/-- `sslotr` (R315). -/
def execSslotr (d a : SReg) (s : State) : Out :=
  privileged s 1 fun _ => match slotSelector (getS s a), (getS s a).getLsbD 19 || (getS s a).getLsbD 18 with
    | some ([c], e), false => result s d (if (core s c).vacant then 0 else (tget slotReset (core s c).live e).zeroExtend 64)
    | _, _ => illegal s 1
/-- `sslotx` (R316): each selected core copies at its next wrap; the instruction retires when all have copied. -/
def execSslotx (a : SReg) (s : State) : Out :=
  privileged s 2 fun g => match slotSelector (getS s a) with
    | none => illegal s 1
    | some (cs, e) =>
      if e ≠ 0 then illegal s 1
      else if (group s g).fly.yielded then
        (if cs.any fun c => (core s c).copy then wait s (.sslotx a) else retire s)
      else
        let s := cs.foldl (fun s c => modCore s c fun k => { k with copy := k.copy || !k.vacant }) s
        modGroup (wait s (.sslotx a)) g fun x => { x with fly := { x.fly with yielded := true } }
/-- A core's walk index (R314): all cores of a die walk in step (log 10). -/
def walkIndex (s : State) (c : Nat) : Nat := cycleOf s c % 64
/-- The donate bits of every partition as written. -/
def donateNow (s : State) : Tab Bool := (List.range 16).filterMap fun p => if partDonate s p then some (p, true) else none
/-- `SLOT_TABLE_WRAP` (R313, R316): as the cycle of index 0 begins a core takes its shadow table and the donate bits. -/
def slotWrap (s : State) (c : Nat) : State :=
  if walkIndex s c ≠ 0 ∨ (die s (chipNo s * 4 + c / 64)).edge = false then s
  else modCore s c fun k => { k with live := if k.copy then k.shadow else k.live, copy := false, donate := donateNow s }

/-- The launch of a partition with an identifier, where it is resident or saved (R320). -/
def residentNamed (s : State) (p id : Nat) : Option Nat :=
  (s.work.launches.find? fun e => e.2.live && e.2.part == p && e.2.d.id.toNat == id && e.2.fin.isNone &&
    (standsHere s e.1 || !e.2.saved.isEmpty)).map (·.1)
/-- The launch that an `spreq` names (R320). -/
def requested (s : State) (g id : Nat) : Option Nat :=
  let own := residentNamed s (partOf s g) id
  if own.isSome ∨ (group s g).level < 2 then own
  else (List.range 16).findSome? fun p => residentNamed s p id
/-- Cycles of a deadline put to the live teams of a launch: to all of them by a first request; a later one shortens the deadline of those that the first reached (R320). -/
def setDeadline (s : State) (l n : Nat) (fresh : Bool) : State :=
  { s with work := { s.work with teams := s.work.teams.map fun (e : Nat × Team) =>
      (e.1, if e.2.live && e.2.launch == l then
          (if fresh then { e.2 with preq := true, pdead := n } else if e.2.preq then { e.2 with pdead := min e.2.pdead n } else e.2)
        else e.2) } }
/-- Whether a request to yield is pending: a core that it has reached still holds a team (R320). -/
def requestPending (s : State) (l : Nat) : Bool :=
  (launch s l).request.isSome && s.work.teams.any fun e => e.2.live && e.2.launch == l && e.2.preq
/-- A launch is asked to yield within a number of cycles, at most its partition's dlmax: the answer is 1 where a request is pending, and a launch that is wholly saved gets nothing (R320). -/
def askYield (s : State) (l dl : Nat) : State × Nat :=
  let n := min dl (preg s (launch s l).part 3).toNat
  if requestPending s l then
    (setDeadline (modLaunch s l fun x => { x with request := x.request.map fun o => min o n }) l n false, 1)
  else if !standsHere s l then (s, 0)
  else (setDeadline (modLaunch s l fun x => { x with request := some n }) l n true, 0)
/-- `spreq` (R320); the other chips of the launch are told (log 11). -/
def execSpreq (d a b : SReg) (s : State) : Out :=
  privileged s 1 fun g =>
    let id := getS s a
    let dl := (getS s b).toNat
    if bits id 63 32 ≠ 0 then illegal s 1
    else if 0x1000000 < dl then illegal s 5
    else match requested s g id.toNat with
      | none => result s d 2
      | some l =>
        let (s, r) := askYield s l dl
        result (tellChips s l (.request dl)) d (BitVec.ofNat 64 r)
/-- `sgpl` (R310). -/
def execSgpl (d : SReg) (s : State) : Out := privileged s 1 fun g => result s d ((group s g).level.zeroExtend 64)

end Sys2Proof.Machine
end

