-- ==== Sys2Proof/Machine/Mapping.lean ====
section
/-! DEFINITION. The instructions of major 0x3D (R325 to R337, R342): roots, invalidation, first-touch mapping, carve-out, and the walker's own instructions. -/

namespace Sys2Proof.Machine

open Sys2Proof

/-- The first flat key and the bytes of the frame that a TLB entry of a die names (R98, R323). -/
def entryFrame (gd : Nat) (e : TlbEntry) : Nat × Nat :=
  let page := if e.level = 1 then e.page / 8192 * 8192 else e.page
  (leafFlat e.leaf e.level (BitVec.ofNat 64 (gd * 2 ^ 54 + page * 2 ^ 16)), if e.level = 1 then 0x20000000 else 0x10000)
/-- Partial sums of slots in a frame are merged before the frame can hold another page (R140, R141). -/
def mergeFrame (s : State) (gd : Nat) (e : TlbEntry) : State :=
  let (flat, n) := entryFrame gd e
  (s.parts.filter fun p => decide (flat ≤ p.slot ∧ p.slot < flat + n)).foldl (fun s p =>
    gatherSlot s p.die p.obj (tget CObj.blank (die s p.die).objs p.obj) true p.slot) s
/-- Removes the TLB entries of a die that a test names; the partial sums of their frames are merged first. -/
def dropTlb (s : State) (gd : Nat) (f : TlbEntry → Bool) : State :=
  let s := if s.parts.isEmpty then s else ((die s gd).tlb.filter f).foldl (fun s e => mergeFrame s gd e) s
  modDie s gd fun x => { x with tlb := x.tlb.filter fun e => !f e }
/-- Whether a walk that has begun on one of some dies translates what a test names. -/
def walksBegun (s : State) (ds : List Nat) (f : Nat → BitVec 8 → Nat → Bool) : Bool :=
  s.work.walks.any fun e => e.2.any fun w => w.running && ds.contains w.die && f w.part w.asn (pageOf w.va)
/-- Whether a TLB entry lies in what a test of partition, asn, first page and pages names. -/
def entryMet (cov : Nat → BitVec 8 → Nat → Nat → Bool) (e : TlbEntry) : Bool :=
  if e.level = 1 then cov e.part e.asn (e.page / 8192 * 8192) 8192 else cov e.part e.asn e.page 1
/-- Removal on some dies once no walk for a covered page is running (R335, log 3); the instruction then retires. -/
def invalidate (s : State) (i : Instr) (ds : List Nat) (cov : Nat → BitVec 8 → Nat → Nat → Bool) (k : State → State) : State :=
  if walksBegun s ds fun p a page => cov p a page 1 then wait s i
  else k (ds.foldl (fun s d => dropTlb s d (entryMet cov)) s)
/-- Dies of this package that a selector names with die in [17:16] and alldie in [19], by chip × 4 + die. -/
def selDies (s : State) (a : Word) : List Nat :=
  (if a.getLsbD 19 then [0, 1, 2, 3] else [bits a 17 16]).map fun d => chipNo s * 4 + d
/-- Root entry key of a partition and asn (R328). -/
def rootKey (p asn : Nat) : Nat := p * 256 + asn

/-- `tlbroot` (R328). -/
def execTlbroot (a b : SReg) (s : State) : Out :=
  privileged s 1 fun g =>
    let v := getS s a
    let w := getS s b
    let p := bits v 15 12
    let asn := bits v 7 0
    if bits v 63 20 ≠ 0 ∨ v.getLsbD 18 = true ∨ bits v 11 8 ≠ 0 ∨ (v.getLsbD 19 = true ∧ bits v 17 16 ≠ 0) ∨
       bits w 63 52 ≠ 0 ∨ bits w 15 1 ≠ 0 then illegal s 1
    else if !mayName s g p then retire s
    else
      let ds := selDies s v
      let act := fun (s : State) => invalidate s (.tlbroot a b) ds (fun q n _ _ => q == p && n.toNat == asn) fun s =>
        retire (ds.foldl (fun s d => modDie s d fun x => { x with roots := tput 0 x.roots (rootKey p asn) w }) s)
      if laneIssued (group s g) then act s else wait s (.tlbroot a b)

/-- Whether pages of a partition and asn lie in what a `tlbinv` names: by its mode, partition, asn, first page and count (R335). -/
def invCovers (mode p asn first n q : Nat) (m : BitVec 8) (page len : Nat) : Bool :=
  q == p && (mode == 2 || m.toNat == asn) && (mode != 0 || decide (page < first + n ∧ first < page + len))
/-- Dies on which a `tlbinv` acts (R335). -/
def invDies (mode : Nat) (w : Word) : List Nat :=
  if mode = 0 then [ownerOf w] else (List.range 4).map fun d => bits w 61 56 * 4 + d
/-- A request of an instruction that the home of another chip's die answers as a whole, such as a `pmap` (reason 2) or a `tlbinv` (reason 3); such requests do not merge (R335, R337, log 11). -/
def askHome (s : State) (who : Who) (va : Word) (reason : Nat) : State :=
  if waiting s who.agent then s
  else
    let (w, s) := newName s
    let s := setWalk s w (some ⟨ownerOf va, va, who.part, who.asn, reason, 0, false, [], 0, 0, 0, 0, 0⟩)
    { s with work := { s.work with waits := s.work.waits ++ [⟨w, who.agent, 0, now s⟩] } }
/-- A scalar instruction asks the home of another chip's die and waits for its answer, whose result goes on; a request that could not be delivered takes the address fault (R335, R337, R382). -/
def askAnswer (s : State) (g : Nat) (i : Instr) (va : Word) (reason : Nat) (k : State → Nat → State) : State :=
  match walkFault s (.scalar g) (ownerOf va) (pageOf va) with
  | none => modGroup (wait (askHome s (whoOf s g (.scalar g)) va reason) i) g fun x => { x with fly := { x.fly with yielded := true } }
  | some c =>
    let s := clearFaults s (.scalar g)
    if c = causeUndelivered then raiseScalar s (scalarRec 5 0 true false va) else k s (c % 256)
/-- `tlbinv` (R335): a release at scope 15, then the removal at every target die; those of another chip answer when it is done there, and what this package holds of them goes with it (log 11). -/
def execTlbinv (a b : SReg) (s : State) : Out :=
  privileged s 1 fun g =>
    let v := getS s a
    let w := getS s b
    let mode := bits v 23 22
    let p := bits v 15 12
    let asn := bits v 7 0
    let mask := (descOf s g).mask
    let n := bits v 39 24 + 1
    let go :=
      if !mayName s g p then retire s
      else
        let ds := invDies mode w
        let cov := invCovers mode p asn (pageOf w) n
        afterLanes s g (.tlbinv a b) fun s =>
          if bits w 61 56 = chipNo s then invalidate s (.tlbinv a b) ds cov retire
          else askAnswer s g (.tlbinv a b) (if mode = 0 then w &&& ~~~0xFFFF else w) 3 fun s _ =>
            retire (ds.foldl (fun s d => dropTlb s d (entryMet cov)) s)
    if bits v 63 40 ≠ 0 ∨ bits v 21 16 ≠ 0 ∨ bits v 11 8 ≠ 0 ∨ mode = 3 ∨ (mode = 2 ∧ asn ≠ 0) then illegal s 1
    else if mode = 0 then
      let first := w &&& ~~~0xFFFF
      match addressFault mask first (n * 0x10000) with
      | some f => raiseScalar s (scalarRec 5 0 true false f)
      | none => go
    else if bits w 63 62 ≠ 0 ∨ bits w 55 0 ≠ 0 then illegal s 1
    else if mask.getLsbD (bits w 61 56) = false then raiseScalar s (scalarRec 5 0 true false w)
    else go

/-- Physical base of a carve-out way (R323). -/
def wayBase (w : Nat) : Nat := 0x100000000000 + w * 0x1000000
/-- Ways that a partition holds on a die, ascending (R342). -/
def waysOf (x : Die) (p : Nat) : List Nat := (List.range 24).filter fun w => tget none x.ways w == some p
/-- Ways that no partition holds (R342). -/
def freeWays (x : Die) : List Nat := (List.range 24).filter fun w => decide (8 ≤ w) && (tget none x.ways w).isNone
/-- What `.ro` loads under way keep of memory is zeroed with it where frames change hands. -/
def clearSnaps (s : State) (flat n : Nat) : State :=
  let clear := fun (m : Option (List Host.Cell)) => m.map fun c => mclear c flat n
  { s with work := { s.work with groups := s.work.groups.map fun (e : Nat × Group) => (e.1, { e.2 with fly := { e.2.fly with
      scalar := e.2.fly.scalar.map fun a => { a with snap := clear a.snap },
      lane := e.2.fly.lane.map fun a => { a with snap := clear a.snap } } }) } }
/-- Storage of a die zeroed as it changes hands (R337, R342). -/
def zeroPhys (s : State) (flat n : Nat) : State :=
  cleanBad (clearSnaps { s with mem := mclear s.mem flat n } flat n) [(flat, n)]
/-- A way's storage reads zero. -/
def scrubWay (s : State) (gd w : Nat) : State := zeroPhys s (dieBase gd + wayBase w) 0x1000000
/-- The mask of ways (R342). -/
def waysMask (ws : List Nat) : Word := BitVec.ofNat 64 ((ws.map fun w => 2 ^ w).foldl (· + ·) 0)
/-- `carve` (R342): the controller decides one command at a time. -/
def execCarve (d a : SReg) (k : KReg) (s : State) : Out :=
  privileged s 1 fun g =>
    let v := getS s a
    let p := bits v 11 8
    let n := bits v 4 0
    let gd := chipNo s * 4 + bits v 17 16
    let x := die s gd
    let held := waysOf x p
    if bits v 63 18 ≠ 0 ∨ bits v 15 12 ≠ 0 ∨ bits v 7 5 ≠ 0 then illegal s 1
    else if 16 < n then illegal s 5
    else if 0xFFFF ≤ kcount (group s g) k.toNat ∨ x.carve.isSome then wait s (.carve d a k)
    else if !mayName s g p then result s d (2 ^ 63 + 3)
    else if bits (preg s p 2) (5 * (gd % 4) + 4) (5 * (gd % 4)) < n then result s d (2 ^ 63 + 1)
    else if (freeWays x).length < n - held.length then result s d (2 ^ 63 + 2)
    else
      let add := decide (held.length < n)
      let ws := if add then (freeWays x).take (n - held.length) else held.drop n
      let (op, s) := newName s
      let s := modGroup s g fun y => raiseK y k.toNat op
      let owner := fun (t : Tab (Option Nat)) (w : Nat) => tput none t w (if add then some p else none)
      let s := modDie s gd fun y => { y with ways := ws.foldl owner y.ways, carve := some ⟨ws, add, p, g, k.toNat, op⟩ }
      let s := if add then s
        else ws.foldl (fun s w => scrubWay (dropTlb s gd fun e =>
          decide (wayBase w ≤ leafPhys e.leaf e.level 0 ∧ leafPhys e.leaf e.level 0 < wayBase w + 0x1000000)) gd w) s
      result s d (waysMask (waysOf (die s gd) p))
/-- `CARVE_DONE` (R342): added ways read zero from now on, and kn falls. -/
def carveEnd (s : State) (gd : Nat) : State :=
  match (die s gd).carve with
  | none => s
  | some c =>
    let s := if c.add then c.ways.foldl (fun s w => scrubWay s gd w) s else s
    let s := modDie s gd fun x => { x with carve := none }
    modGroup s c.group fun x => if x.live then lowerK x c.counter c.op else x

/-- The 8 bytes at a physical address of a die's HBM (R331). -/
def physWord (s : State) (gd a : Nat) : Word := BitVec.ofNat 64 (ofLe (mread s.mem (dieBase gd + a) 8))
/-- The next table that a valid table entry names (R325). -/
def tableAt (e : Word) : Option Nat :=
  if e.getLsbD 0 ∧ !e.getLsbD 4 ∧ bits e 51 16 * 2 ^ 16 < Config.hbmBytes then some (bits e 51 16 * 2 ^ 16) else none
/-- Physical address of the level-0 entry of an address, where its tables are there (R325, R337). -/
def leafAt (s : State) (gd p asn : Nat) (va : Word) : Option Nat :=
  match tableAt (tget 0 (die s gd).roots (rootKey p asn)) with
  | none => none
  | some r => match tableAt (physWord s gd (r + 8 * bits va 53 42)) with
    | none => none
    | some t => (tableAt (physWord s gd (t + 8 * bits va 41 29))).map fun u => u + 8 * bits va 28 16
/-- Bits that a first-touch template may set: cdef, kind, X, W, R (R337). -/
def templateBits : Word := 0x0C3000000000000E
/-- What the home of a page's die does for a `pmap`, as one step: the state and sd (R337). -/
def pmapAt (s : State) (gd p : Nat) (asn : BitVec 8) (va w : Word) : State × Nat :=
  match leafAt s gd p asn.toNat va with
  | none => (s, 2)
  | some e =>
    if (physWord s gd e).getLsbD 0 then (s, 1)
    else match tget [] (die s gd).pools p with
      | [] => (s, 3)
      | f :: rest =>
        let s := zeroPhys (modDie s gd fun x => { x with pools := tput [] x.pools p rest }) (dieBase gd + f) 0x10000
        let leaf := w ||| BitVec.ofNat 64 f ||| 0x0080000000000011
        ({ s with mem := mwrite s.mem (dieBase gd + e) (leBytes 8 leaf.toNat) }, 0)
/-- `pmap` (R337): the home of the owning die acts; from another chip's the result comes as its answer, or not at all (R382). -/
def execPmap (d a b : SReg) (s : State) : Out :=
  privileged s 1 fun g =>
    let va := getS s a
    let w := getS s b
    let gd := ownerOf va
    match addressFault (descOf s g).mask va 1 with
    | some f => raiseScalar s (scalarRec 5 0 true false f)
    | none =>
      if w &&& ~~~templateBits ≠ 0 then illegal s 1
      else if gd / 4 = chipNo s then
        let (s, r) := pmapAt s gd (partOf s g) (descOf s g).asn va w
        result s d (BitVec.ofNat 64 r)
      else askAnswer s g (.pmap d a b) va 2 fun s r => result s d (BitVec.ofNat 64 r)
/-- Whether a frame lies in a partition's pmem range on a die (R324, R332). -/
def inPmem (s : State) (p d f n : Nat) : Bool :=
  let r := pmemRange (preg s p (0x010 + d))
  decide (r.1 * 0x20000000 ≤ f ∧ f + n ≤ (r.1 + r.2) * 0x20000000)
/-- Frames pushed in ascending order until one lies outside or the pool is full (R336). -/
def pushFrames (s : State) (p d : Nat) : Nat → Nat → List Nat → Nat → List Nat × Nat
  | 0, _, pool, k => (pool, k)
  | n + 1, f, pool, k =>
    if !inPmem s p d f 0x10000 || decide (Config.poolFrames ≤ pool.length) then (pool, k)
    else pushFrames s p d n (f + 0x10000) (f :: pool) (k + 1)
/-- `pgive` (R336). -/
def execPgive (d a b : SReg) (s : State) : Out :=
  privileged s 1 fun g =>
    let v := getS s a
    let w := getS s b
    let p := bits v 23 20
    if bits v 63 24 ≠ 0 ∨ bits v 19 18 ≠ 0 ∨ bits w 15 0 ≠ 0 ∨ bits w 63 52 ≠ 0 then illegal s 1
    else if 16384 < bits v 15 0 then illegal s 5
    else if !mayName s g p then result s d 0
    else
      let gd := chipNo s * 4 + bits v 17 16
      let (pool, k) := pushFrames s p (bits v 17 16) (bits v 15 0) w.toNat (tget [] (die s gd).pools p) 0
      result (modDie s gd fun x => { x with pools := tput [] x.pools p pool }) d (BitVec.ofNat 64 (pool.length * 2 ^ 32 + k))

/-- A walker instruction: in a walk it acts for it; outside one it traps with cause 3 (R331, R343). -/
def inWalk (s : State) (k : Nat → Walk → State) : Out :=
  match s.cur with
  | .walk w => match walk s w with
    | some x => .next (k w x)
    | none => .next s
  | .group _ => .next (illegal s 3)
  | .none => .next s
/-- Whether a physical access of a walk is an aligned one to its die's HBM that reads no poison (R331). -/
def physOk (s : State) (gd : Nat) (a : Word) : Bool :=
  a.toNat % 8 == 0 && decide (a.toNat < Config.hbmBytes) && !s.bad.contains ((dieBase gd + a.toNat) / 64)
/-- `wldp` (R331). -/
def execWldp (d a : SReg) (s : State) : Out :=
  inWalk s fun w x =>
    if physOk s x.die (getS s a) then result s d (physWord s x.die (getS s a).toNat) else walkError s w
/-- `wcasp` (R331). -/
def execWcasp (d a b : SReg) (s : State) : Out :=
  inWalk s fun w x =>
    let pa := getS s a
    if physOk s x.die pa then
      let old := physWord s x.die pa.toNat
      let s := if old = getS s d then { s with mem := mwrite s.mem (dieBase x.die + pa.toNat) (leBytes 8 (getS s b).toNat) } else s
      result s d old
    else walkError s w
/-- Whether the frame of a leaf is the partition's to map (R332). -/
def frameOk (s : State) (x : Walk) (leaf : Word) (level : Nat) : Bool :=
  let n := if level = 1 then 0x20000000 else 0x10000
  let f := if level = 1 then bits leaf 51 29 * 0x20000000 else bits leaf 51 16 * 0x10000
  hostWindow x.va || inPmem s x.part (x.die % 4) f n ||
    (level == 0 && (waysOf (die s x.die) x.part).any fun w => decide (wayBase w ≤ f ∧ f < wayBase w + 0x1000000))
/-- The leaf of a walk's page enters the TLB of its die, in place of what it overlaps (R322, R332). -/
def installLeaf (s : State) (x : Walk) (leaf : Word) (level : Nat) : State :=
  let same := fun (e : TlbEntry) => e.part == x.part && e.asn == x.asn &&
    (if level = 1 ∨ e.level = 1 then e.page / 8192 == pageOf x.va / 8192 else e.page == pageOf x.va)
  modDie (dropTlb s x.die same) x.die fun y => { y with tlb := ⟨x.part, x.asn, pageOf x.va, leaf, level⟩ :: y.tlb }
/-- `tlbfill` (R332). -/
def execTlbfill (a b : SReg) (s : State) : Out :=
  inWalk s fun w x =>
    let leaf := getS s a
    let level := bits (getS s b) 0 0
    if bits (getS s b) 63 1 ≠ 0 then walkError s w
    else if !leafValid leaf level then finishWalk s w (some 0)
    else if !leafPermits leaf x.acc then finishWalk s w (some 1)
    else if !frameOk s x leaf level then finishWalk s w (some 3)
    else if !leaf.getLsbD 55 || (x.acc.getLsbD 1 && !leaf.getLsbD 56) then walkError s w
    else finishWalk (installLeaf s x leaf level) w none

/-- `wentry` (R331). -/
def execWentry (a b : SReg) (s : State) : Out :=
  privileged s 2 fun _ =>
    let v := getS s a
    let e := getS s b
    let n := bits v 47 32
    if bits v 63 48 ≠ 0 ∨ bits v 31 20 ≠ 0 ∨ v.getLsbD 18 = true ∨ bits v 15 0 ≠ 0 ∨ (v.getLsbD 19 = true ∧ bits v 17 16 ≠ 0) then
      illegal s 1
    else if (decide (e = 0) != decide (n = 0)) || bits e 1 0 != 0 then illegal s 5
    else retire ((selDies s v).foldl (fun s d => modDie s d fun x => { x with wentry := e, wlen := n }) s)

end Sys2Proof.Machine
end

