-- ==== Sys2Proof/Machine/TrapReturn.lean ====
section
/-! DEFINITION. The instructions of major 0x3E (R348 to R351): return from a handler, kill, the trap frame's fields. -/

namespace Sys2Proof.Machine

open Sys2Proof

/-- A handler-only form (R348): outside a handler it traps with cause 3. -/
def inHandlerOnly (s : State) (k : Nat → Frame → State) : Out :=
  privileged s 1 fun g => match (group s g).handler with
    | some f => k g f
    | none => illegal s 3
/-- `eret` (R349): it waits until the release queue is empty and the loads and stores counters read 0. -/
def execEret (s : State) : Out :=
  inHandlerOnly s fun g _ =>
    let x := group s g
    if laneIdle x && x.cnt.loads == 0 && x.cnt.stores == 0 then applyTrace (returnException s g) g
    else wait (modGroup s g endRunOn) .eret
/-- `ekill` (R351). -/
def execEkill (a : SReg) (s : State) : Out :=
  privileged s 1 fun g =>
    let v := getS s a
    if bits v 63 16 ≠ 0 then illegal s 1 else unhandled s g v.toNat
/-- A field of the frame (R350). -/
def frameField (f : Frame) (n : Nat) : Option Word :=
  let p := f.lane.park
  match n with
  | 0 => some f.spc
  | 1 => some f.lane.lpc
  | 2 => some (BitVec.ofNat 64 f.lane.rep)
  | 3 => some (if p.fmask = 0 then f.lane.lpc else p.lpc)
  | 8 => some (f.level.zeroExtend 64)
  | 9 => some (BitVec.ofNat 64 f.lane.stack.length)
  | n => if 4 ≤ n ∧ n ≤ 7 then some ((maskWord p.fmask (n - 4)).zeroExtend 64) else none
/-- `efget` (R350). -/
def execEfget (d a : SReg) (s : State) : Out :=
  inHandlerOnly s fun _ f => match frameField f (getS s a).toNat with
    | some v => result s d v
    | none => illegal s 5
/-- `efset` (R350): the saved SPC alone may be written. -/
def execEfset (a b : SReg) (s : State) : Out :=
  inHandlerOnly s fun g f =>
    let v := getS s b
    if getS s a ≠ 0 ∨ bits v 1 0 ≠ 0 then illegal s 5
    else retire (modGroup s g fun x => { x with handler := some { f with spc := v } })

end Sys2Proof.Machine
end

