-- ==== Sys2Proof/Machine/Lanes.lean ====
section
/-! DEFINITION. One issue of a lane instruction (R34, R38, R155): checks at issue (R51, R57), poisoned operands (R202, R359), the effect, parking of faulting lanes (R47), the advance of LPC, repeat index and run record, replay (R48). -/

namespace Sys2Proof.Machine

open Sys2Proof

/-- The 32-bit registers that an operand names at an issue. -/
def regs (wide : Bool) (f : VReg) (step : Bool) (j : Nat) : List Nat :=
  let n := regNo f step (if wide then 2 else 1) j
  if wide then [n, n + 1] else [n]
/-- The registers that operand b names. -/
def srcRegs (wide : Bool) (b : SrcB) (step : Bool) (j : Nat) : List Nat :=
  match b with
  | .reg r => regs wide r step j
  | _ => []

/-- What one issue names and reads: lane registers and long accumulators it names; those it reads in its own lane, predicates and long accumulators it reads; registers it reads in the lanes that `from_` gives; whether it ends a run-on (R47); whether its result is not per lane (R202); a trap of its own at issue. -/
structure Use where
  v : List Nat
  q : List Nat
  rv : List Nat
  xv : List Nat
  rm : List Nat
  rq : List Nat
  from_ : Nat → List Nat
  cross : Bool
  whole : Bool
  trap : Option Nat
/-- An instruction that writes some registers and reads others in its own lane. -/
def Use.lanes (dst src : List Nat) (p : PReg) : Use := ⟨dst ++ src, [], src, [], [p.toNat], [], fun i => [i], false, false, none⟩

/-- A record of zeros. -/
def recBlank : FaultRec := ⟨0, 0, 0, 0, 0, 0⟩
/-- The replay ends early: the replay point moves to the issue under way; lanes that need no more replay leave fmask, and a lane not yet replayed keeps its record (R48, R345, log 7). -/
def endReplay (x : Group) (f : Mask) (recs : Tab FaultRec) (drop : Tab (List Nat)) : Group :=
  let p := x.lane.park
  let units := p.units - p.index
  let first := fun (i : Nat) => if f.getLsbD i then 0
    else if f = 0 then tget 0 p.first i - p.index
    else if tget 0 p.first i ≤ p.index then 1 else tget 0 p.first i - p.index
  let keep := maskOf fun i => p.fmask.getLsbD i && decide (first i < units)
  let still := fun (i : Nat) => keep.getLsbD i && !f.getLsbD i && decide (if f = 0 then p.index ≤ tget 0 p.first i else p.index < tget 0 p.first i)
  let old := p.drop.filter fun e => still e.1
  { x with lane := { x.lane with
      lpc := p.stopLpc, rep := p.stopRep, rq := p.stopRq, stopped := true,
      park := { p with fmask := keep, lpc := x.lane.lpc, rep := x.lane.rep, full := x.lane.rq, units := units,
                       replaying := false, index := 0, first := (lanesOf keep).foldl (fun t i => tput 0 t i (first i)) [],
                       drop := drop.foldl (fun t e => tput [] t e.1 e.2) old,
                       recs := recs.foldl (fun t e => tput recBlank t e.1 e.2) (p.recs.filter fun e => still e.1) } } }
/-- A group record of the lane stream: the group stops at the instruction; a replay ends there (R46, R48). -/
def raiseLane (s : State) (g : Nat) (r : FaultRec) : State :=
  let x := group s g
  raiseStream (setGroup s g (if x.lane.park.replaying then endReplay x 0 [] [] else x)) g r
/-- The illegal-instruction trap of a lane instruction (R343). -/
def laneTrap (s : State) (g cause : Nat) : State := raiseLane s g (illegalLaneRec s g cause 1)

/-- The park after an issue: the run-on counts it and ends with an empty queue or with an instruction that had writes suppressed (R237); a replay counts it (R47, R48). -/
def countIssue (l : LaneCtx) : LaneCtx :=
  if l.park.fmask = 0 then l
  else if l.park.replaying then { l with park := { l.park with index := l.park.index + 1 } }
  else { l with park := { l.park with units := l.park.units + 1 }, stopped := l.stopped || l.rq.isEmpty || (!l.clob.isEmpty && l.rep == 0) }
/-- Whether the replay has reached the stop point. -/
def replayDone (l : LaneCtx) : Bool := l.park.replaying && decide (l.park.units ≤ l.park.index)
/-- The lane stream continues from the stop point with fmask clear (R48). -/
def resumeStop (l : LaneCtx) : LaneCtx :=
  { l with lpc := l.park.stopLpc, rep := l.park.stopRep, rq := l.park.stopRq, park := Park.none }
/-- The issue is complete: LPC, repeat index, run record and park advance (R38, R47, R48); the record of a replay that ends is stamped with the time of the issue (R390). -/
def laneAdvance (s : State) (g n time : Nat) : State :=
  let l := countIssue (advanceLane (group s g).lane n)
  if replayDone l then
    let s := modGroup (traceAhead s g time) g fun x => { x with lane := resumeStop l }
    raiseClobbers (emitGroupAt s g time 3 3 []) g
  else modGroup s g fun x => { x with lane := l }

/-- Lanes parked at this issue (R47): the first fault sets the replay point; a later one keeps its own index (log 7). -/
def parkLanes (x : Group) (f : Mask) (recs : Tab FaultRec) (drop : Tab (List Nat)) : Group :=
  let p := x.lane.park
  if p.fmask = 0 then
    { x with lane := { x.lane with park :=
      { Park.none with fmask := f, lpc := x.lane.lpc, rep := x.lane.rep, full := x.lane.rq, recs := recs, drop := drop } } }
  else
    { x with lane := { x.lane with park :=
      { p with fmask := p.fmask ||| f, first := (lanesOf f).foldl (fun t i => tput 0 t i p.units) p.first,
               recs := recs.foldl (fun t e => tput recBlank t e.1 e.2) p.recs,
               drop := drop.foldl (fun t e => tput [] t e.1 e.2) p.drop } } }
/-- An issue is done, with the lanes that faulted, their records and what they leave to higher lanes (R47, R48, R234); a lane fault in a handler ends the launch (R347). The record of parked lanes is stamped with the time of the issue (R390). -/
def laneDone (s : State) (g n time : Nat) (f : Mask) (recs : Tab FaultRec) (drop : Tab (List Nat)) : State :=
  if f = 0 then laneAdvance s g n time
  else if inHandler (group s g) then unhandled s g (0x8000 + recs.foldl (fun a e => min a e.2.cls) 31)
  else
    let s := traceAhead s g time
    let x := group s g
    let s := if x.lane.park.replaying then setGroup s g (endReplay x f recs drop)
      else laneAdvance (setGroup s g (parkLanes x f recs drop)) g n time
    emitGroupAt s g time 3 2 (maskBytes (group s g).lane.park.fmask)

/-- Whether a group holds a poisoned unit of a kind and register, in a lane for lane slices and long-accumulator slots (R359). -/
def poisoned (x : Group) (kind reg lane : Nat) : Bool :=
  x.poison.any fun p => p.kind == kind && p.reg == reg && (p.lane == lane || kind == 2 || kind == 0 || kind == 4)
/-- The poisoned unit that a lane's record names: its kind and register (R202). Where it reads several, the manual does not say which is named: the model takes the registers of its own lane in operand order, then those of source lanes, predicates and long accumulators; a group record is that of the lowest such lane (DESIGN CHOICE, log 22). -/
def laneReads (x : Group) (u : Use) (i : Nat) : Option (Nat × Nat) :=
  let v := u.rv.findSome? fun r => if poisoned x 1 r i then some (1, r) else none
  let w := u.xv.findSome? fun r => if (u.from_ i).any (poisoned x 1 r ·) then some (1, r) else none
  let m := u.rm.findSome? fun r => if r != 0 && poisoned x 2 r i then some (2, r) else none
  let q := u.rq.findSome? fun r => if (u.from_ i).any (poisoned x 3 r ·) then some (3, r) else none
  v <|> w <|> m <|> q
/-- The poison record of a register (R344). -/
def poisonRec (k : Nat × Nat) (source : Nat) : FaultRec :=
  mkRec 8 1 (accessByte false false true source) (BitVec.ofNat 64 (k.1 * 256 + k.2))
/-- A record for a lane (R344). -/
def forLane (r : FaultRec) (i : Nat) : FaultRec := { r with lane := BitVec.ofNat 8 i }
/-- A group whose lanes in a mask are left out of what runs. -/
def withoutLanes (x : Group) (f : Mask) : Group :=
  { x with lane := { x.lane with mask := x.lane.mask &&& ~~~f, park := { x.lane.park with fmask := x.lane.park.fmask &&& ~~~f } } }
/-- A group's effect, with its own mask and park put back. -/
def withLanes (x y : Group) : Group :=
  { y with lane := { y.lane with mask := x.lane.mask, park := { y.lane.park with fmask := x.lane.park.fmask } } }

/-- The lowest cause with which an issue traps: a register at or above V or Q (R51, R57), or its own (R343). -/
def issueTrap (d : Desc) (u : Use) : Option Nat :=
  let lim := if (u.v.any fun r => decide (d.v ≤ r)) || (u.q.any fun r => decide (d.q ≤ r)) then some 2 else none
  match lim, u.trap with
  | some a, some b => some (min a b)
  | a, b => a <|> b
/-- The lane stream stops before an instruction that ends the run-on (R47). -/
def stopsRunOn (x : Group) (u : Use) : Bool := u.cross && x.lane.park.fmask != 0 && !x.lane.park.replaying

/-- One issue of a lane instruction (R202): the end of a run-on comes before it (R47); then its checks, poisoned lanes parked, its effect in the others. `n` is its repeat field, `ex` says which active lanes execute. -/
def laneIssueAt (s : State) (g n : Nat) (u : Use) (ex : Group → List Bool) (eff : Group → Group) : State :=
  let x := group s g
  if stopsRunOn x u then modGroup s g fun x => { x with lane := { x.lane with stopped := true } }
  else match issueTrap (descOf s g) u with
  | some c => laneTrap s g c
  | none =>
    if x.poison.isEmpty then laneAdvance (setGroup s g (eff x)) g n (now s)
    else
      let hits := (lanesOf (bitsMask (ex x))).filterMap fun i => (laneReads x u i).map fun k => (i, k)
      match hits, u.whole with
      | [], _ => laneAdvance (setGroup s g (eff x)) g n (now s)
      | (_, k) :: _, true => raiseLane s g (poisonRec k 1)
      | hits, false =>
        let f := maskOf fun i => hits.any fun h => h.1 == i
        let s := setGroup s g (withLanes x (eff (withoutLanes x f)))
        laneDone s g n (now s) f (hits.map fun h => (h.1, forLane (poisonRec h.2 1) h.1)) []
/-- One issue of the running group's lane instruction. -/
def laneIssue (s : State) (n : Nat) (u : Use) (ex : Group → List Bool) (eff : Group → Group) : Out :=
  onGroup s fun g => laneIssueAt s g n u ex eff

/-- An instruction of 32- or 64-bit elements: a lane executes under bit 4i (R55). -/
def laneOp (s : State) (c : LaneCtl) (u : Use) (eff : Group → List Bool → Group) : Out :=
  laneIssue s c.rep.toNat u (fun x => execLanes x c.pred c.neg) fun x => eff x (execLanes x c.pred c.neg)
/-- The bits of a lane's four that govern its sub-elements of a width: bits 0 and 2 for 16 bits, every one below (R55). -/
def governingBits (w : Nat) : BitVec 4 := if w = 16 then 5 else 15
/-- An instruction of packed sub-elements of w bits: a lane executes when one of its sub-elements does (R55, R202). -/
def packedOp (s : State) (w : Nat) (c : LaneCtl) (u : Use) (eff : Group → List (BitVec 4) → Group) : Out :=
  laneIssue s c.rep.toNat u (fun x => (execNibbles x c.pred c.neg).map fun n => n &&& governingBits w != 0) fun x => eff x (execNibbles x c.pred c.neg)
/-- The repeat index of the issue under way. -/
def repNow (s : State) : Nat := (group s (curGroup s)).lane.rep

end Sys2Proof.Machine
end

