-- ==== Sys2Proof/Machine/ScalarAlu.lean ====
section
/-! DEFINITION. Scalar arithmetic, logic and immediates (R176 to R179): each reads its sources, writes one register and retires (R174). -/

namespace Sys2Proof.Machine

open Sys2Proof

/-- The instruction of two sources: sd := f(sa, sb), and it retires (R174, R176). -/
def alu2 (f : Word → Word → Word) (d a b : SReg) (s : State) : Out := .next (result s d (f (getS s a) (getS s b)))
/-- The instruction of one source (R176). -/
def alu1 (f : Word → Word) (d a : SReg) (s : State) : Out := .next (result s d (f (getS s a)))

/-- Signed quotient towards zero (R177). -/
def divSigned (a b : Word) : Word := if b = 0 then -1 else BitVec.ofInt 64 (Int.tdiv a.toInt b.toInt)
/-- Signed remainder (R177). -/
def remSigned (a b : Word) : Word := if b = 0 then a else BitVec.ofInt 64 (Int.tmod a.toInt b.toInt)
/-- Unsigned quotient (R177). -/
def divUnsigned (a b : Word) : Word := if b = 0 then -1 else BitVec.ofNat 64 (a.toNat / b.toNat)
/-- Unsigned remainder (R177). -/
def remUnsigned (a b : Word) : Word := if b = 0 then a else BitVec.ofNat 64 (a.toNat % b.toNat)
/-- Number of leading zero bits (R176). -/
def leadingZeros {w : Nat} (a : BitVec w) : Nat := if a = 0 then w else w - 1 - Nat.log2 a.toNat
/-- Number of trailing zero bits (R176). -/
def trailingZeros {w : Nat} (a : BitVec w) : Nat := ((List.range w).takeWhile fun i => !a.getLsbD i).length
/-- Number of 1 bits (R176). -/
def bitCount {w : Nat} (a : BitVec w) : Nat := ((List.range w).filter fun i => a.getLsbD i).length
/-- The bytes in reverse order (R176). -/
def byteSwap (a : Word) : Word := BitVec.ofNat 64 (ofLe (leBytes 8 a.toNat).reverse)
/-- The low n bits sign-extended (R176, R180). -/
def sextWord (n : Nat) (a : Word) : Word := BitVec.ofInt 64 (sext n a.toNat)
/-- Shift amount: bits [5:0] (R176). -/
def amount (b : Word) : Nat := bits b 5 0

/-- `sadd` (R176). -/
def execSadd (d a b : SReg) (s : State) : Out := alu2 (fun x y => x + y) d a b s
/-- `ssub` (R176). -/
def execSsub (d a b : SReg) (s : State) : Out := alu2 (fun x y => x - y) d a b s
/-- `sseq` (R176). -/
def execSseq (d a b : SReg) (s : State) : Out := alu2 (fun x y => boolWord (x == y)) d a b s
/-- `ssne` (R176). -/
def execSsne (d a b : SReg) (s : State) : Out := alu2 (fun x y => boolWord (x != y)) d a b s
/-- `sslt` (R176). -/
def execSslt (d a b : SReg) (s : State) : Out := alu2 (fun x y => boolWord (x.slt y)) d a b s
/-- `ssltu` (R176). -/
def execSsltu (d a b : SReg) (s : State) : Out := alu2 (fun x y => boolWord (x.ult y)) d a b s
/-- `smin` (R176). -/
def execSmin (d a b : SReg) (s : State) : Out := alu2 (fun x y => if y.slt x then y else x) d a b s
/-- `sminu` (R176). -/
def execSminu (d a b : SReg) (s : State) : Out := alu2 (fun x y => if y.ult x then y else x) d a b s
/-- `smax` (R176). -/
def execSmax (d a b : SReg) (s : State) : Out := alu2 (fun x y => if x.slt y then y else x) d a b s
/-- `smaxu` (R176). -/
def execSmaxu (d a b : SReg) (s : State) : Out := alu2 (fun x y => if x.ult y then y else x) d a b s
/-- `sand` (R176). -/
def execSand (d a b : SReg) (s : State) : Out := alu2 (fun x y => x &&& y) d a b s
/-- `sor` (R176). -/
def execSor (d a b : SReg) (s : State) : Out := alu2 (fun x y => x ||| y) d a b s
/-- `sxor` (R176). -/
def execSxor (d a b : SReg) (s : State) : Out := alu2 (fun x y => x ^^^ y) d a b s
/-- `sandn` (R176). -/
def execSandn (d a b : SReg) (s : State) : Out := alu2 (fun x y => x &&& ~~~y) d a b s
/-- `sshl` (R176). -/
def execSshl (d a b : SReg) (s : State) : Out := alu2 (fun x y => x <<< amount y) d a b s
/-- `sshr` (R176). -/
def execSshr (d a b : SReg) (s : State) : Out := alu2 (fun x y => x >>> amount y) d a b s
/-- `ssra` (R176). -/
def execSsra (d a b : SReg) (s : State) : Out := alu2 (fun x y => x.sshiftRight (amount y)) d a b s
/-- `srol` (R176). -/
def execSrol (d a b : SReg) (s : State) : Out := alu2 (fun x y => x.rotateLeft (amount y)) d a b s
/-- `sror` (R176). -/
def execSror (d a b : SReg) (s : State) : Out := alu2 (fun x y => x.rotateRight (amount y)) d a b s
/-- `smul` (R176). -/
def execSmul (d a b : SReg) (s : State) : Out := alu2 (fun x y => x * y) d a b s
/-- `smulh` (R176). -/
def execSmulh (d a b : SReg) (s : State) : Out :=
  alu2 (fun x y => BitVec.ofInt 64 (x.toInt * y.toInt / (2 ^ 64 : Nat))) d a b s
/-- `smulhu` (R176). -/
def execSmulhu (d a b : SReg) (s : State) : Out := alu2 (fun x y => BitVec.ofNat 64 (x.toNat * y.toNat / 2 ^ 64)) d a b s
/-- `sdiv` (R177). -/
def execSdiv (d a b : SReg) (s : State) : Out := alu2 divSigned d a b s
/-- `sdivu` (R177). -/
def execSdivu (d a b : SReg) (s : State) : Out := alu2 divUnsigned d a b s
/-- `srem` (R177). -/
def execSrem (d a b : SReg) (s : State) : Out := alu2 remSigned d a b s
/-- `sremu` (R177). -/
def execSremu (d a b : SReg) (s : State) : Out := alu2 remUnsigned d a b s
/-- `sclz` (R176). -/
def execSclz (d a : SReg) (s : State) : Out := alu1 (fun x => BitVec.ofNat 64 (leadingZeros x)) d a s
/-- `sctz` (R176). -/
def execSctz (d a : SReg) (s : State) : Out := alu1 (fun x => BitVec.ofNat 64 (trailingZeros x)) d a s
/-- `spopc` (R176). -/
def execSpopc (d a : SReg) (s : State) : Out := alu1 (fun x => BitVec.ofNat 64 (bitCount x)) d a s
/-- `sbswap` (R176). -/
def execSbswap (d a : SReg) (s : State) : Out := alu1 byteSwap d a s
/-- `ssx8` (R176). -/
def execSsx8 (d a : SReg) (s : State) : Out := alu1 (sextWord 8) d a s
/-- `ssx16` (R176). -/
def execSsx16 (d a : SReg) (s : State) : Out := alu1 (sextWord 16) d a s
/-- `ssx32` (R176). -/
def execSsx32 (d a : SReg) (s : State) : Out := alu1 (sextWord 32) d a s
/-- `szx32` (R176). -/
def execSzx32 (d a : SReg) (s : State) : Out := alu1 (fun x => x &&& 0xFFFFFFFF) d a s

/-- An SI immediate as 64 bits (R147). -/
def immWord (i : BitVec 14) : Word := i.signExtend 64
/-- `saddi` (R178). -/
def execSaddi (d a : SReg) (i : BitVec 14) (s : State) : Out := alu1 (fun x => x + immWord i) d a s
/-- `sandi` (R178). -/
def execSandi (d a : SReg) (i : BitVec 14) (s : State) : Out := alu1 (fun x => x &&& immWord i) d a s
/-- `sori` (R178). -/
def execSori (d a : SReg) (i : BitVec 14) (s : State) : Out := alu1 (fun x => x ||| immWord i) d a s
/-- `sxori` (R178). -/
def execSxori (d a : SReg) (i : BitVec 14) (s : State) : Out := alu1 (fun x => x ^^^ immWord i) d a s
/-- `sslti` (R178). -/
def execSslti (d a : SReg) (i : BitVec 14) (s : State) : Out := alu1 (fun x => boolWord (x.slt (immWord i))) d a s
/-- `sshli` (R178). -/
def execSshli (d a : SReg) (n : BitVec 6) (s : State) : Out := alu1 (fun x => x <<< n.toNat) d a s
/-- `sshri` (R178). -/
def execSshri (d a : SReg) (n : BitVec 6) (s : State) : Out := alu1 (fun x => x >>> n.toNat) d a s
/-- `ssrai` (R178). -/
def execSsrai (d a : SReg) (n : BitVec 6) (s : State) : Out := alu1 (fun x => x.sshiftRight n.toNat) d a s
/-- `srori` (R178). -/
def execSrori (d a : SReg) (n : BitVec 6) (s : State) : Out := alu1 (fun x => x.rotateRight n.toNat) d a s
/-- `slui` (R179). -/
def execSlui (d : SReg) (i : BitVec 20) (s : State) : Out :=
  .next (result s d ((i ++ (0 : BitVec 12)).signExtend 64))
/-- `sshlo` (R179). -/
def execSshlo (d : SReg) (i : BitVec 20) (s : State) : Out :=
  .next (result s d (getS s d <<< 20 ||| i.zeroExtend 64))

end Sys2Proof.Machine
end

