-- ==== Sys2Proof/Machine/LaneInteger.lean ====
section
/-! DEFINITION. Integer lane instructions (R206, R209): 32- and 64-bit arithmetic, logic, shifts, compares, moves and coordinates. -/

namespace Sys2Proof.Machine

open Sys2Proof

/-- Bits of an element. -/
def elemWidth (wide : Bool) : Nat := if wide then 64 else 32
/-- The low w bits of a number as a lane value. -/
def cut (w n : Nat) : Word := BitVec.ofNat 64 (n % 2 ^ w)
/-- The low w bits of an integer's two's complement as a lane value. -/
def cutInt (w : Nat) (z : Int) : Word := BitVec.ofNat 64 (wrapInt w z)

/-- An instruction of two integer sources: vd := f width (a) (b) in the lanes that execute (R206). -/
def intBin (f : Nat → Word → Word → Word) (x : IntBin) (s : State) : Out :=
  let j := repNow s
  let dst := regs x.wide x.d x.c.stepD j
  let a := regNo x.a x.c.stepA (if x.wide then 2 else 1) j
  laneOp s x.c (Use.lanes dst (regs x.wide x.a x.c.stepA j ++ srcRegs x.wide x.b x.c.stepB j) x.c.pred) fun g ex =>
    putWide g x.wide (dst.headD 0) ex
      (List.zipWith (f (elemWidth x.wide)) (vsrc g x.wide a) (srcInt g x.wide x.sg x.b x.c.stepB j))
/-- An instruction of one integer source (R206). -/
def intUn (f : Nat → Word → Word) (x : IntUn) (s : State) : Out :=
  let j := repNow s
  let dst := regs x.wide x.d x.c.stepD j
  let a := regs x.wide x.a x.c.stepA j
  laneOp s x.c (Use.lanes dst a x.c.pred) fun g ex =>
    putWide g x.wide (dst.headD 0) ex ((vsrc g x.wide (a.headD 0)).map (f (elemWidth x.wide)))

/-- An exact result wrapped, or clamped under `.sat` (R206). -/
def addSat (sg sat : Bool) (op : Int → Int → Int) (w : Nat) (a b : Word) : Word :=
  let z := op (readInt w sg a.toNat) (readInt w sg b.toNat)
  cutInt w (if sat then clampInt w sg z else z)
/-- `vadd` on integers (R206). -/
def execVadd (x : IntBin) (s : State) : Out := intBin (addSat x.sg x.sat fun a b => a + b) x s
/-- `vsub` on integers (R206). -/
def execVsub (x : IntBin) (s : State) : Out := intBin (addSat x.sg x.sat fun a b => a - b) x s
/-- `vmul` on integers (R206). -/
def execVmul (x : IntBin) (s : State) : Out := intBin (fun w a b => cut w (a.toNat * b.toNat)) x s
/-- `vmulh` (R206). -/
def execVmulh (x : IntBin) (s : State) : Out :=
  intBin (fun w a b => cutInt w (readInt w x.sg a.toNat * readInt w x.sg b.toNat / (2 ^ w : Nat))) x s
/-- The lesser or greater in the suffix's signedness (R206). -/
def pickInt (sg mx : Bool) (w : Nat) (a b : Word) : Word :=
  if decide (readInt w sg b.toNat < readInt w sg a.toNat) != mx then b else a
/-- `vmin` on integers (R206). -/
def execVmin (x : IntBin) (s : State) : Out := intBin (pickInt x.sg false) x s
/-- `vmax` on integers (R206). -/
def execVmax (x : IntBin) (s : State) : Out := intBin (pickInt x.sg true) x s
/-- The quotient of R177 at width w: all ones for a zero divisor. -/
def divInt (sg : Bool) (w : Nat) (a b : Word) : Word :=
  if b = 0 then cut w (2 ^ w - 1) else cutInt w (Int.tdiv (readInt w sg a.toNat) (readInt w sg b.toNat))
/-- The remainder of R177 at width w: the dividend for a zero divisor. -/
def remInt (sg : Bool) (w : Nat) (a b : Word) : Word :=
  if b = 0 then a else cutInt w (Int.tmod (readInt w sg a.toNat) (readInt w sg b.toNat))
/-- `vdiv` on integers (R206). -/
def execVdiv (x : IntBin) (s : State) : Out := intBin (divInt x.sg) x s
/-- `vrem` (R206). -/
def execVrem (x : IntBin) (s : State) : Out := intBin (remInt x.sg) x s
/-- `vand` (R206). -/
def execVand (x : IntBin) (s : State) : Out := intBin (fun _ a b => a &&& b) x s
/-- `vor` (R206). -/
def execVor (x : IntBin) (s : State) : Out := intBin (fun _ a b => a ||| b) x s
/-- `vxor` (R206). -/
def execVxor (x : IntBin) (s : State) : Out := intBin (fun _ a b => a ^^^ b) x s
/-- `vandn` (R206). -/
def execVandn (x : IntBin) (s : State) : Out := intBin (fun _ a b => a &&& ~~~b) x s
/-- `vshl` (R206). -/
def execVshl (x : IntBin) (s : State) : Out := intBin (fun w a b => cut w (a.toNat * 2 ^ (b.toNat % w))) x s
/-- `vshr`: logical for .n, arithmetic for .i (R206). -/
def execVshr (x : IntBin) (s : State) : Out :=
  intBin (fun w a b => cutInt w (readInt w x.sg a.toNat / (2 ^ (b.toNat % w) : Nat))) x s
/-- `vclz` (R206). -/
def execVclz (x : IntUn) (s : State) : Out :=
  intUn (fun w a => BitVec.ofNat 64 (leadingZeros (a.setWidth w))) x s
/-- `vpopc` (R206). -/
def execVpopc (x : IntUn) (s : State) : Out := intUn (fun w a => BitVec.ofNat 64 (bitCount (a.setWidth w))) x s
/-- `vmad` (R206). -/
def execVmad (x : IntTern) (s : State) : Out :=
  let j := repNow s
  let dst := regs x.wide x.d x.c.stepD j
  let a := regs x.wide x.a x.c.stepA j
  let e := regs x.wide x.e x.c.stepC j
  let w := elemWidth x.wide
  laneOp s x.c (Use.lanes dst (a ++ srcRegs x.wide x.b x.c.stepB j ++ e) x.c.pred) fun g ex =>
    putWide g x.wide (dst.headD 0) ex
      (List.zipWith (fun (p : Word × Word) (c : Word) => cut w (p.1.toNat * p.2.toNat + c.toNat))
        (List.zip (vsrc g x.wide (a.headD 0)) (srcInt g x.wide x.sg x.b x.c.stepB j)) (vsrc g x.wide (e.headD 0)))

/-- An integer comparison by condition code: eq, ne, lt, le, gt, ge (R206). -/
def cmpInt (cc : Nat) (a b : Int) : Bool :=
  match cc with
  | 0 => a == b
  | 1 => a != b
  | 2 => decide (a < b)
  | 3 => decide (a ≤ b)
  | 4 => decide (b < a)
  | _ => decide (b ≤ a)
/-- `vcmp` on integers (R206). -/
def execVcmp (x : IntCmp) (s : State) : Out :=
  let j := repNow s
  let a := regs x.wide x.a x.c.stepA j
  let w := elemWidth x.wide
  laneOp s x.c (Use.lanes [] (a ++ srcRegs x.wide x.b x.c.stepB j) x.c.pred) fun g ex =>
    putPred g x.d ex (List.zipWith (fun (p q : Word) => cmpInt x.cc.toNat (readInt w x.sg p.toNat) (readInt w x.sg q.toNat))
      (vsrc g x.wide (a.headD 0)) (srcInt g x.wide x.sg x.b x.c.stepB j))

/-- A move of operand b (R209). An immediate of a pair is sign-extended under the suffix .i64 and zero-extended under .n64, as R157 forms it (DEDUCED, log 25). -/
def move (wide : Bool) (x : MovArgs) (s : State) : Out :=
  let j := repNow s
  let dst := regs wide x.d x.c.stepD j
  laneOp s x.c (Use.lanes dst (srcRegs wide x.b x.c.stepB j) x.c.pred) fun g ex =>
    putWide g wide (dst.headD 0) ex (srcInt g wide x.sg x.b x.c.stepB j)
/-- `vmov.n32` (R209). -/
def execVmovN32 (x : MovArgs) (s : State) : Out := move false x s
/-- `vmov.n64` (R209). -/
def execVmovN64 (x : MovArgs) (s : State) : Out := move true x s
/-- What a select reads and names (R209). -/
def selUse (wide : Bool) (x : SelArgs) (j : Nat) : Use :=
  { Use.lanes (regs wide x.d x.c.stepD j) (regs wide x.a x.c.stepA j ++ srcRegs wide x.b x.c.stepB j) x.c.pred with
    rm := [x.c.pred.toNat, x.k.toNat] }
/-- The bytes of a chosen by the bits of a nibble, else those of b (R209). -/
def selBytes (n : BitVec 4) (a b : LWord) : LWord := mergeEl 8 n a b
/-- `vsel.n32`: byte by byte; the whole slice executes under bit 4i (R209). -/
def execVselN32 (x : SelArgs) (s : State) : Out :=
  let j := repNow s
  laneOp s x.c (selUse false x j) fun g ex =>
    putLanes g (regNo x.d x.c.stepD 1 j) ex
      (List.zipWith (fun (n : BitVec 4) (p : LWord × LWord) => selBytes n p.1 p.2) (mreg g x.k.toNat)
        (List.zip (vreg g (regNo x.a x.c.stepA 1 j)) ((srcInt g false x.sg x.b x.c.stepB j).map fun (w : Word) => w.setWidth 32)))
/-- `vsel.n64`: the pair by bit 4i (R209). -/
def execVselN64 (x : SelArgs) (s : State) : Out :=
  let j := repNow s
  laneOp s x.c (selUse true x j) fun g ex =>
    putWide g true (regNo x.d x.c.stepD 2 j) ex
      (List.zipWith (fun (n : BitVec 4) (p : Word × Word) => if n.getLsbD 0 then p.1 else p.2) (mreg g x.k.toNat)
        (List.zip (vpair g (regNo x.a x.c.stepA 2 j)) (srcInt g true x.sg x.b x.c.stepB j)))

/-- A lane's value of a coordinate; none for a number that is not one (R209). -/
def laneCoordinate (s : State) (g n lane : Nat) : Option Nat :=
  let d := descOf s g
  let x := group s g
  let no := (team s x.team).no
  let k := n % 16
  if n = 0 then some lane
  else if d.levels.length ≤ k ∨ (n / 16 ≠ 1 ∧ n / 16 ≠ 3) then none
  else if (levelAt d k).bind ≠ 0 then some (if n / 16 = 1 then coordOf d k no x.no else nodeOf d k no x.no)
  else if laneCount d ≤ lane then some 0xFFFFFFFF
  else some (if n / 16 = 1 then laneCoord d k lane else laneNode d k no x.no lane)
/-- `vcoord` (R209). -/
def execVcoord (x : CoordArgs) (s : State) : Out :=
  let j := repNow s
  let g := curGroup s
  let n := x.n.toNat
  laneOp s x.c { Use.lanes (regs false x.d x.c.stepD j) [] x.c.pred with
      trap := if (laneCoordinate s g n 0).isNone then some 5 else none } fun y ex =>
    putLanes y (regNo x.d x.c.stepD 1 j) ex ((List.range 128).map fun i => BitVec.ofNat 32 ((laneCoordinate s g n i).getD 0))

end Sys2Proof.Machine
end

