-- ==== Sys2Proof/Machine/LanePacked.lean ====
section
/-! DEFINITION. Packed integer lane instructions and integer dot products (R207, R208). -/

namespace Sys2Proof.Machine

open Sys2Proof

/-- Bits of a packed sub-element (R207). -/
def packWidth : PWidth → Nat
  | .w4 => 4
  | .w8 => 8
  | .w16 => 16
/-- A packed instruction of two sources, computed in every sub-element (R207). -/
def packBin (f : Nat → Word → Word → Word) (x : PackBin) (s : State) : Out :=
  let j := repNow s
  let w := packWidth x.w
  let dst := regs false x.d x.c.stepD j
  let a := regs false x.a x.c.stepA j
  packedOp s w x.c (Use.lanes dst (a ++ srcRegs false x.b x.c.stepB j) x.c.pred) fun g nib =>
    putPacked g w (dst.headD 0) nib
      (List.zipWith (fun (p q : LWord) => joinEl w fun i =>
          (f w (BitVec.ofNat 64 (subEl w p i)) (BitVec.ofNat 64 (subEl w q i))).toNat)
        (vreg g (a.headD 0)) (srcPacked g w x.b x.c.stepB j))
/-- Packed `vadd` (R207). -/
def execVaddPacked (x : PackBin) (s : State) : Out := packBin (addSat x.sg x.sat fun a b => a + b) x s
/-- Packed `vsub` (R207). -/
def execVsubPacked (x : PackBin) (s : State) : Out := packBin (addSat x.sg x.sat fun a b => a - b) x s
/-- Packed `vmin` (R207). -/
def execVminPacked (x : PackBin) (s : State) : Out := packBin (pickInt x.sg false) x s
/-- Packed `vmax` (R207). -/
def execVmaxPacked (x : PackBin) (s : State) : Out := packBin (pickInt x.sg true) x s
/-- Packed `vmul` (R207). -/
def execVmulPacked (x : PackBin) (s : State) : Out := packBin (fun w a b => cut w (a.toNat * b.toNat)) x s

/-- The four result bits of a lane from the results of its sub-elements: both nibbles of a byte together (R56, R207). -/
def packedBits (w : Nat) (f : Nat → Bool) : BitVec 4 :=
  let bit := fun (b : Nat) => if w = 4 then f (2 * b) && f (2 * b + 1) else f (8 * b / w)
  BitVec.ofBool (bit 3) ++ BitVec.ofBool (bit 2) ++ BitVec.ofBool (bit 1) ++ BitVec.ofBool (bit 0)
/-- The bytes that a packed result's predicate bits cover: both of a 16-bit element follow its first (R55, R56). -/
def packedGate (w : Nat) (n : BitVec 4) : BitVec 4 := packedBits 8 fun b => n.getLsbD (if w = 16 then b / 2 * 2 else b)
/-- A packed compare (R207). -/
def packCmp (cc : Nat) (x : PackCmp) (s : State) : Out :=
  let j := repNow s
  let w := packWidth x.w
  let a := regs false x.a x.c.stepA j
  packedOp s w x.c (Use.lanes [] (a ++ srcRegs false x.b x.c.stepB j) x.c.pred) fun g nib =>
    putPredBytes g x.d (nib.map (packedGate w))
      (List.zipWith (fun (p q : LWord) => packedBits w fun i => cmpInt cc (readInt w x.sg (subEl w p i)) (readInt w x.sg (subEl w q i)))
        (vreg g (a.headD 0)) (srcPacked g w x.b x.c.stepB j))
/-- Packed `vcmp.eq` (R207). -/
def execVcmpEqPacked (x : PackCmp) (s : State) : Out := packCmp 0 x s
/-- Packed `vcmp.lt` (R207). -/
def execVcmpLtPacked (x : PackCmp) (s : State) : Out := packCmp 2 x s
/-- Packed `vcmp.le` (R207). -/
def execVcmpLePacked (x : PackCmp) (s : State) : Out := packCmp 3 x s

/-- The exact sum of a lane's products and its addend (R208). -/
def dotSum (w : Nat) (sa sb : Bool) (a b c : LWord) : Int :=
  (List.range (32 / w)).foldl (fun z i => z + readInt w sa (subEl w a i) * readInt w sb (subEl w b i)) (sext 32 c.toNat)
/-- `vdot` (R208). -/
def execVdot (x : DotArgs) (s : State) : Out :=
  let j := repNow s
  let w := packWidth x.w
  let dst := regs false x.d x.c.stepD j
  let a := regs false x.a x.c.stepA j
  let e := regs false x.e x.c.stepC j
  laneOp s x.c (Use.lanes dst (a ++ srcRegs false x.b x.c.stepB j ++ e) x.c.pred) fun g ex =>
    putLanes g (dst.headD 0) ex
      (List.zipWith (fun (p : LWord × LWord) (c : LWord) =>
          let z := dotSum w x.sgA x.sgB p.1 p.2 c
          BitVec.ofInt 32 (if x.sat then clampInt 32 true z else z))
        (List.zip (vreg g (a.headD 0)) (srcPacked g w x.b x.c.stepB j)) (vreg g (e.headD 0)))

end Sys2Proof.Machine
end

