-- ==== Sys2Proof/Machine/Special.lean ====
section
/-! DEFINITION. The special functions (R217, R218): the exact value truncated to f fraction bits, by fixed-point series with guard bits (log 12). -/

namespace Sys2Proof.Machine

open Sys2Proof

/-- Fraction bits of the fixed-point series. -/
def sfBits : Nat := 340
/-- One in fixed point. -/
def sfOne : Nat := 2 ^ sfBits

/-- num × 2^exp kept to its leading 1 and f fraction bits, towards zero (R217 trunc_sig). -/
def truncSig (f : Nat) (neg : Bool) (num : Nat) (exp : Int) : FVal :=
  let l := Nat.log2 num
  if l ≤ f then .fin neg num exp else .fin neg (num / 2 ^ (l - f)) (exp + (l - f : Nat))
/-- special (R217): trunc_sig, then round_to FP32 under RTZ. -/
def sfResult (f : Nat) (neg : Bool) (num : Nat) (exp : Int) : Nat := roundTo f32 1 false (truncSig f neg num exp)

/-- Terms x^k / k! of the exponential from term t of index k. -/
def expTerms : Nat → Nat → Nat → Nat → Nat
  | 0, _, _, _ => 0
  | f + 1, x, k, t => t + expTerms f x (k + 1) (t * x / sfOne / (k + 1))
/-- 1/(1 2) + 1/(2 4) + 1/(3 8) + ...: the natural logarithm of 2 in fixed point. -/
def ln2Terms : Nat → Nat → Nat
  | 0, _ => 0
  | f + 1, k => sfOne / (k * 2 ^ k) + ln2Terms f (k + 1)
/-- ln 2 in fixed point. -/
def ln2Fixed : Nat := ln2Terms 345 1
/-- 2^x for a fixed-point x below 1. -/
def exp2Frac (x : Nat) : Nat := expTerms 90 (x * ln2Fixed / sfOne) 0 sfOne

/-- The arctangent series of 1/n, positive and negative terms apart. -/
def atanTerms : Nat → Nat → Nat → Nat → Nat × Nat
  | 0, _, _, _ => (0, 0)
  | f + 1, n, k, t =>
    let r := atanTerms f n (k + 1) (t / (n * n))
    let u := t / (2 * k + 1)
    if k % 2 = 0 then (r.1 + u, r.2) else (r.1, r.2 + u)
/-- arctan 1/n in fixed point. -/
def atanInv (n : Nat) : Nat := let r := atanTerms 80 n 0 (sfOne / n); r.1 - r.2
/-- π in fixed point, by Machin's formula. -/
def piFixed : Nat := 16 * atanInv 5 - 4 * atanInv 239
/-- The sine series from a term, positive and negative terms apart. -/
def sinTerms : Nat → Nat → Nat → Nat → Nat × Nat
  | 0, _, _, _ => (0, 0)
  | f + 1, y, k, t =>
    let r := sinTerms f y (k + 1) (t * y / sfOne * y / sfOne / ((2 * k + 2) * (2 * k + 3)))
    if k % 2 = 0 then (r.1 + t, r.2) else (r.1, r.2 + t)
/-- sin(π x) for a fixed-point x from 0 to 1/2. -/
def sinPiFixed (x : Nat) : Nat :=
  let y := x * piFixed / sfOne
  let r := sinTerms 50 y 0 y
  r.1 - r.2
/-- sin(π r) for a fixed-point r below 2: sign and magnitude. -/
def sinPiTurn (r : Nat) : Bool × Nat :=
  let neg := sfOne ≤ r
  let u := r % sfOne
  (neg, sinPiFixed (if 2 * u ≤ sfOne then u else sfOne - u))

/-- Bits of log2 of a mantissa in [1, 2), by repeated squaring. -/
def log2Bits : Nat → Nat → Nat → Nat
  | 0, _, acc => acc
  | f + 1, m, acc =>
    let s := m * m / sfOne
    if 2 * sfOne ≤ s then log2Bits f (s / 2) (2 * acc + 1) else log2Bits f s (2 * acc)

/-- A dyadic value modulo 2 in fixed point; exact for FP32 inputs. -/
def modTwo (num : Nat) (exp : Int) : Nat :=
  if 0 ≤ (sfBits : Int) + exp then num * pow2 (sfBits + exp) % (2 * sfOne) else 0

/-- 2^a for a finite nonzero a below 128 (R217). -/
def exp2F (s : Bool) (n : Nat) (e : Int) : Nat :=
  let z := unitsF (min e (-150)) s n e
  let unit := pow2 (-(min e (-150)))
  let k := z / (unit : Int)
  let frac := (z % (unit : Int)).toNat
  if frac = 0 then sfResult 20 false 1 k
  else if k < -400 then 0
  else sfResult 20 false (exp2Frac (frac * sfOne / unit)) (k - sfBits)

/-- log2 a for a finite a above 0 (R217, R218). -/
def log2F (n : Nat) (e : Int) : Nat :=
  let l := Nat.log2 n
  let k : Int := (l : Int) + e
  if n = 2 ^ l then (if k = 0 then 0 else sfResult 20 (decide (k < 0)) k.natAbs 0)
  else
    let b := log2Bits 120 (n * 2 ^ (sfBits - l)) 0
    if 0 ≤ k then sfResult 20 false (k.toNat * 2 ^ 120 + b) (-120)
    else sfResult 20 true ((-k).toNat * 2 ^ 120 - b - 1) (-120)

/-- sin(π a) for a finite a that is not zero (R217, R218). -/
def sinPiF (s : Bool) (n : Nat) (e : Int) : Nat :=
  let r := modTwo n e
  if 0 ≤ e ∨ r % sfOne = 0 then withSign f32 s 0
  else
    let (neg, m) := sinPiTurn r
    if 2 * (r % sfOne) = sfOne then sfResult 20 (s != neg) 1 0
    else sfResult 20 (s != neg) m (-(sfBits : Int))

/-- cos(π a) for a finite a that is not zero (R217, R218): sin(π (a + 1/2)). -/
def cosPiF (n : Nat) (e : Int) : Nat :=
  let r := (modTwo n e + sfOne / 2) % (2 * sfOne)
  if r % sfOne = 0 then 0
  else
    let (neg, m) := sinPiTurn r
    if 2 * (r % sfOne) = sfOne then sfResult 20 neg 1 0 else sfResult 20 neg m (-(sfBits : Int))

/-- 1/√a for a finite a above 0 (R217). -/
def rsqrtF (n : Nat) (e : Int) : Nat :=
  let n' := if e % 2 = 0 then n else 2 * n
  let e' := if e % 2 = 0 then e else e - 1
  sfResult 12 false (isqrt (2 ^ 400 / n')) (-200 - e' / 2)

/-- 1/a for a finite nonzero a (R217). -/
def recipF (s : Bool) (n : Nat) (e : Int) : Nat := sfResult 12 s (2 ^ 200 / n) (-200 - e)

/-- Canonical NaN of FP32. -/
def nan32 : Nat := 0x7FC00000
/-- Infinity of FP32. -/
def inf32 (neg : Bool) : Nat := withSign f32 neg 0x7F800000

/-- `vfrsqe` (R217, R218). -/
def sfRsqrt (b : Nat) : Nat :=
  match decodeF f32 b with
  | .nan => nan32
  | .inf s => if s then nan32 else 0
  | .fin s n e => if n = 0 then inf32 s else if s then nan32 else rsqrtF n e
/-- `vfrcpe` (R217, R218). -/
def sfRecip (b : Nat) : Nat :=
  match decodeF f32 b with
  | .nan => nan32
  | .inf s => withSign f32 s 0
  | .fin s n e => if n = 0 then inf32 s else recipF s n e
/-- `vfexp2` (R217, R218). -/
def sfExp2 (b : Nat) : Nat :=
  match decodeF f32 b with
  | .nan => nan32
  | .inf s => if s then 0 else inf32 false
  | .fin s n e =>
    if n = 0 then 0x3F800000
    else if s = false ∧ 7 ≤ (Nat.log2 n : Int) + e then inf32 false
    else exp2F s n e
/-- `vflog2` (R217, R218). -/
def sfLog2 (b : Nat) : Nat :=
  match decodeF f32 b with
  | .nan => nan32
  | .inf s => if s then nan32 else inf32 false
  | .fin s n e => if n = 0 then inf32 true else if s then nan32 else log2F n e
/-- `vfsinpi` (R217, R218). -/
def sfSinPi (b : Nat) : Nat :=
  match decodeF f32 b with
  | .nan => nan32
  | .inf _ => nan32
  | .fin s n e => if n = 0 then withSign f32 s 0 else sinPiF s n e
/-- `vfcospi` (R217, R218). -/
def sfCosPi (b : Nat) : Nat :=
  match decodeF f32 b with
  | .nan => nan32
  | .inf _ => nan32
  | .fin _ n e => if n = 0 then 0x3F800000 else cosPiF n e

end Sys2Proof.Machine
end

