-- ==== Sys2Proof/Machine/LaneFloat.lean ====
section
/-! DEFINITION. Floating-point lane instructions (R205, R210 to R213, R217, R218): FP32, FP64, packed FP16 and BF16, special functions. -/

namespace Sys2Proof.Machine

open Sys2Proof

/-- The format of an element (R72). -/
def fpFmt (dbl : Bool) : Fmt := if dbl then f64 else f32
/-- An operand's value, a subnormal flushed under `.ftz` (R76). -/
def fpVal (dbl ftz : Bool) (w : Word) : FVal := decodeF (fpFmt dbl) (flushIn (ftz && !dbl) w.toNat)
/-- An exact value rounded once, and flushed under `.ftz` (R75, R76). -/
def fpRound (dbl : Bool) (mode : BitVec 2) (sat ftz : Bool) (v : FVal) : Word :=
  BitVec.ofNat 64 (flushOut (ftz && !dbl) (roundTo (fpFmt dbl) mode.toNat sat v))

/-- An arithmetic instruction of two sources: one exact value, rounded once (R210). -/
def fpBin (f : Nat → FVal → FVal → FVal) (x : FpBin) (s : State) : Out :=
  let j := repNow s
  let dst := regs x.dbl x.d x.c.stepD j
  let a := regs x.dbl x.a x.c.stepA j
  laneOp s x.c (Use.lanes dst (a ++ srcRegs x.dbl x.b x.c.stepB j) x.c.pred) fun g ex =>
    putWide g x.dbl (dst.headD 0) ex
      (List.zipWith (fun (p q : Word) => fpRound x.dbl x.mode x.sat x.ftz (f x.mode.toNat (fpVal x.dbl x.ftz p) (fpVal x.dbl x.ftz q)))
        (vsrc g x.dbl (a.headD 0)) (srcFloat g x.dbl x.b x.c.stepB j))
/-- `vadd` (R210). -/
def execVaddFp (x : FpBin) (s : State) : Out := fpBin addF x s
/-- `vsub` (R210). -/
def execVsubFp (x : FpBin) (s : State) : Out := fpBin (fun m a b => addF m a (negF b)) x s
/-- `vmul` (R210). -/
def execVmulFp (x : FpBin) (s : State) : Out := fpBin (fun _ a b => mulF a b) x s
/-- `vdiv` (R210). -/
def execVdivFp (x : FpBin) (s : State) : Out := fpBin (fun _ a b => divF a b) x s
/-- A fused instruction of three sources (R210). -/
def fpTern (f : Nat → FVal → FVal → FVal → FVal) (x : FpTern) (s : State) : Out :=
  let j := repNow s
  let dst := regs x.dbl x.d x.c.stepD j
  let a := regs x.dbl x.a x.c.stepA j
  let e := regs x.dbl x.e x.c.stepC j
  laneOp s x.c (Use.lanes dst (a ++ srcRegs x.dbl x.b x.c.stepB j ++ e) x.c.pred) fun g ex =>
    putWide g x.dbl (dst.headD 0) ex
      (List.zipWith (fun (p : Word × Word) (c : Word) => fpRound x.dbl x.mode x.sat x.ftz
          (f x.mode.toNat (fpVal x.dbl x.ftz p.1) (fpVal x.dbl x.ftz p.2) (fpVal x.dbl x.ftz c)))
        (List.zip (vsrc g x.dbl (a.headD 0)) (srcFloat g x.dbl x.b x.c.stepB j)) (vsrc g x.dbl (e.headD 0)))
/-- `vfma` (R210). -/
def execVfma (x : FpTern) (s : State) : Out := fpTern (fun m a b c => addF m (mulF a b) c) x s
/-- `vfms` (R210). -/
def execVfms (x : FpTern) (s : State) : Out := fpTern (fun m a b c => addF m (mulF a b) (negF c)) x s
/-- `vfnma` (R210). -/
def execVfnma (x : FpTern) (s : State) : Out := fpTern (fun m a b c => addF m c (negF (mulF a b))) x s
/-- `vsqrt` (R210). -/
def execVsqrt (x : FpUn) (s : State) : Out :=
  let j := repNow s
  let dst := regs x.dbl x.d x.c.stepD j
  let a := regs x.dbl x.a x.c.stepA j
  laneOp s x.c (Use.lanes dst a x.c.pred) fun g ex =>
    putWide g x.dbl (dst.headD 0) ex
      ((vsrc g x.dbl (a.headD 0)).map fun p => fpRound x.dbl x.mode x.sat x.ftz (sqrtF (fpVal x.dbl x.ftz p)))
/-- Floating `vcmp` (R211). -/
def execVcmpFp (x : FpCmp) (s : State) : Out :=
  let j := repNow s
  let a := regs x.dbl x.a x.c.stepA j
  laneOp s x.c (Use.lanes [] (a ++ srcRegs x.dbl x.b x.c.stepB j) x.c.pred) fun g ex =>
    putPred g x.d ex (List.zipWith (fun (p q : Word) => cmpF x.cc.toNat (fpVal x.dbl false p) (fpVal x.dbl false q))
      (vsrc g x.dbl (a.headD 0)) (srcFloat g x.dbl x.b x.c.stepB j))

/-- A selection or sign operation on the bits of two operands (R212). -/
def fpSel (f : Fmt → Nat → Nat → Nat) (x : FpSel) (s : State) : Out :=
  let j := repNow s
  let dst := regs x.dbl x.d x.c.stepD j
  let a := regs x.dbl x.a x.c.stepA j
  laneOp s x.c (Use.lanes dst (a ++ srcRegs x.dbl x.b x.c.stepB j) x.c.pred) fun g ex =>
    putWide g x.dbl (dst.headD 0) ex
      (List.zipWith (fun (p q : Word) => BitVec.ofNat 64 (f (fpFmt x.dbl) p.toNat q.toNat))
        (vsrc g x.dbl (a.headD 0)) (srcFloat g x.dbl x.b x.c.stepB j))
/-- `vmin` (R212). -/
def execVminFp (x : FpSel) (s : State) : Out := fpSel minF x s
/-- `vmax` (R212). -/
def execVmaxFp (x : FpSel) (s : State) : Out := fpSel maxF x s
/-- `vcsgn` (R212). -/
def execVcsgn (x : FpSel) (s : State) : Out := fpSel (fun f a b => withSign f (signOf f b) (magOf f a)) x s
/-- A sign operation on the bits of one operand (R212). -/
def fpBits (f : Fmt → Nat → Nat) (x : FpBits) (s : State) : Out :=
  let j := repNow s
  let dst := regs x.dbl x.d x.c.stepD j
  let a := regs x.dbl x.a x.c.stepA j
  laneOp s x.c (Use.lanes dst a x.c.pred) fun g ex =>
    putWide g x.dbl (dst.headD 0) ex ((vsrc g x.dbl (a.headD 0)).map fun p => BitVec.ofNat 64 (f (fpFmt x.dbl) p.toNat))
/-- `vneg` (R212). -/
def execVneg (x : FpBits) (s : State) : Out := fpBits (fun f a => withSign f (!signOf f a) (magOf f a)) x s
/-- `vabs` (R212). -/
def execVabs (x : FpBits) (s : State) : Out := fpBits magOf x s
/-- `vclass`: one register, whichever the source (R212). -/
def execVclass (x : FpBits) (s : State) : Out :=
  let j := repNow s
  let dst := regs false x.d x.c.stepD j
  let a := regs x.dbl x.a x.c.stepA j
  laneOp s x.c (Use.lanes dst a x.c.pred) fun g ex =>
    putLanes g (dst.headD 0) ex ((vsrc g x.dbl (a.headD 0)).map fun p => BitVec.ofNat 32 (classF (fpFmt x.dbl) p.toNat))

/-- The format of packed elements (R213). -/
def halfFmt (bf : Bool) : Fmt := if bf then bf16 else f16
/-- A packed instruction of two sources on FP16 or BF16 elements (R213). -/
def halfBin (f : Nat → FVal → FVal → FVal) (x : HBin) (s : State) : Out :=
  let j := repNow s
  let dst := regs false x.d x.c.stepD j
  let a := regs false x.a x.c.stepA j
  let h := halfFmt x.bf
  packedOp s 16 x.c (Use.lanes dst (a ++ srcRegs false x.b x.c.stepB j) x.c.pred) fun g nib =>
    putPacked g 16 (dst.headD 0) nib
      (List.zipWith (fun (p q : LWord) => joinEl 16 fun i =>
          roundTo h x.mode.toNat x.sat (f x.mode.toNat (decodeF h (subEl 16 p i)) (decodeF h (subEl 16 q i))))
        (vreg g (a.headD 0)) (srcPacked g 16 x.b x.c.stepB j))
/-- Packed `vadd` (R213). -/
def execVaddF16 (x : HBin) (s : State) : Out := halfBin addF x s
/-- Packed `vsub` (R213). -/
def execVsubF16 (x : HBin) (s : State) : Out := halfBin (fun m a b => addF m a (negF b)) x s
/-- Packed `vmul` (R213). -/
def execVmulF16 (x : HBin) (s : State) : Out := halfBin (fun _ a b => mulF a b) x s
/-- Packed `vfma` (R213). -/
def execVfmaF16 (x : HTern) (s : State) : Out :=
  let j := repNow s
  let dst := regs false x.d x.c.stepD j
  let a := regs false x.a x.c.stepA j
  let e := regs false x.e x.c.stepC j
  let h := halfFmt x.bf
  packedOp s 16 x.c (Use.lanes dst (a ++ srcRegs false x.b x.c.stepB j ++ e) x.c.pred) fun g nib =>
    putPacked g 16 (dst.headD 0) nib
      (List.zipWith (fun (p : LWord × LWord) (c : LWord) => joinEl 16 fun i =>
          roundTo h x.mode.toNat x.sat (addF x.mode.toNat
            (mulF (decodeF h (subEl 16 p.1 i)) (decodeF h (subEl 16 p.2 i))) (decodeF h (subEl 16 c i))))
        (List.zip (vreg g (a.headD 0)) (srcPacked g 16 x.b x.c.stepB j)) (vreg g (e.headD 0)))
/-- A packed selection (R213). -/
def halfSel (f : Fmt → Nat → Nat → Nat) (x : HSel) (s : State) : Out :=
  let j := repNow s
  let dst := regs false x.d x.c.stepD j
  let a := regs false x.a x.c.stepA j
  packedOp s 16 x.c (Use.lanes dst (a ++ srcRegs false x.b x.c.stepB j) x.c.pred) fun g nib =>
    putPacked g 16 (dst.headD 0) nib
      (List.zipWith (fun (p q : LWord) => joinEl 16 fun i => f (halfFmt x.bf) (subEl 16 p i) (subEl 16 q i))
        (vreg g (a.headD 0)) (srcPacked g 16 x.b x.c.stepB j))
/-- Packed `vmin` (R213). -/
def execVminF16 (x : HSel) (s : State) : Out := halfSel minF x s
/-- Packed `vmax` (R213). -/
def execVmaxF16 (x : HSel) (s : State) : Out := halfSel maxF x s
/-- A packed floating compare, two predicate bits for each element (R213). -/
def halfCmp (cc : Nat) (x : HCmp) (s : State) : Out :=
  let j := repNow s
  let a := regs false x.a x.c.stepA j
  let h := halfFmt x.bf
  packedOp s 16 x.c (Use.lanes [] (a ++ srcRegs false x.b x.c.stepB j) x.c.pred) fun g nib =>
    putPredBytes g x.d (nib.map (packedGate 16))
      (List.zipWith (fun (p q : LWord) => packedBits 16 fun i => cmpF cc (decodeF h (subEl 16 p i)) (decodeF h (subEl 16 q i)))
        (vreg g (a.headD 0)) (srcPacked g 16 x.b x.c.stepB j))
/-- Packed `vcmp.eq` (R213). -/
def execVcmpEqF16 (x : HCmp) (s : State) : Out := halfCmp 0 x s
/-- Packed `vcmp.lt` (R213). -/
def execVcmpLtF16 (x : HCmp) (s : State) : Out := halfCmp 2 x s
/-- `vdot2` (R213): two products and an FP32 addend, rounded once. -/
def execVdot2 (x : HTern) (s : State) : Out :=
  let j := repNow s
  let dst := regs false x.d x.c.stepD j
  let a := regs false x.a x.c.stepA j
  let e := regs false x.e x.c.stepC j
  let h := halfFmt x.bf
  let prod := fun (p : LWord × LWord) (i : Nat) => mulF (decodeF h (subEl 16 p.1 i)) (decodeF h (subEl 16 p.2 i))
  laneOp s x.c (Use.lanes dst (a ++ srcRegs false x.b x.c.stepB j ++ e) x.c.pred) fun g ex =>
    putLanes g (dst.headD 0) ex
      (List.zipWith (fun (p : LWord × LWord) (c : LWord) => BitVec.ofNat 32
          (roundTo f32 x.mode.toNat x.sat (add3F x.mode.toNat (decodeF f32 c.toNat) (prod p 0) (prod p 1))))
        (List.zip (vreg g (a.headD 0)) (srcPacked g 16 x.b x.c.stepB j)) (vreg g (e.headD 0)))

end Sys2Proof.Machine
end

