-- ==== Sys2Proof/Machine/LaneConvert.lean ====
section
/-! DEFINITION. Conversions (R214 to R216) and the special-function instructions (R217, R218). -/

namespace Sys2Proof.Machine

open Sys2Proof

/-- Bits of a type (R214). -/
def ctypeBits : CType → Nat
  | .int w _ => w
  | .flt f => f.width
/-- Whether a type takes a pair (R214, R215). -/
def ctypeWide (t : CType) : Bool := ctypeBits t == 64
/-- Element pos of a type in a register's lanes, or the pair's value (R71, R215). -/
def takeEl (x : Group) (t : CType) (n pos : Nat) : List Nat :=
  if ctypeWide t then (vpair x n).map (·.toNat)
  else (vreg x n).map fun v => subEl (ctypeBits t) v pos
/-- Lanes whose element pos of a type executes (R55). -/
def execEl (x : Group) (c : LaneCtl) (t : CType) (pos : Nat) : List Bool :=
  (execNibbles x c.pred c.neg).map fun n => n.getLsbD (if ctypeBits t < 32 then governing (ctypeBits t) pos else 0)
/-- A result written as element pos of a type; the other bits of a slice stay, and so does its poison (R71, R215, R359). -/
def putEl (x : Group) (t : CType) (n pos : Nat) (ex : List Bool) (v : List Nat) : Group :=
  let w := ctypeBits t
  if w < 32 then
    let slice := fun (p : Nat × LWord) => joinEl w fun i => if i = pos then p.1 else subEl w p.2 i
    { putLanes x n ex ((List.zip v (vreg x n)).map slice) with poison := x.poison }
  else putWide x (ctypeWide t) n ex (v.map fun e => BitVec.ofNat 64 e)

/-- A conversion's result (R215). -/
def convert (dt st : CType) (mode : Nat) (sat : Bool) (e : Nat) : Nat :=
  match st, dt with
  | .int w sg, .int w' sg' =>
    let z := readInt w sg e
    wrapInt w' (if sat then clampInt w' sg' z else z)
  | _, _ => roundC dt mode sat (valueC st e)
/-- `vcvt` (R215). -/
def execVcvt (x : CvtArgs) (s : State) : Out :=
  let j := repNow s
  let dt := ctypeOf x.dt
  let st := ctypeOf x.st
  let dst := regs (ctypeWide dt) x.d x.c.stepD j
  let a := regs (ctypeWide st) x.a x.c.stepA j
  laneIssue s x.c.rep.toNat (Use.lanes dst a x.c.pred) (fun g => execEl g x.c dt x.dpos.toNat) fun g =>
    putEl g dt (dst.headD 0) x.dpos.toNat (execEl g x.c dt x.dpos.toNat)
      ((takeEl g st (a.headD 0) x.spos.toNat).map (convert dt st x.mode.toNat x.sat))
/-- `vcvtp` (R216). -/
def execVcvtp (x : CvtpArgs) (s : State) : Out :=
  let j := repNow s
  let h := halfFmt x.bf
  let dst := regs false x.d x.c.stepD j
  let a := regs false x.a x.c.stepA j
  let b := regs false x.b x.c.stepB j
  packedOp s 16 x.c (Use.lanes dst (a ++ b) x.c.pred) fun g nib =>
    putPacked g 16 (dst.headD 0) nib
      (List.zipWith (fun (p q : LWord) => joinEl 16 fun i =>
          roundTo h x.mode.toNat x.sat (decodeF f32 (if i = 0 then p else q).toNat))
        (vreg g (a.headD 0)) (vreg g (b.headD 0)))

/-- A special function of FP32 (R217). -/
def special (f : Nat → Nat) (x : SfArgs) (s : State) : Out :=
  let j := repNow s
  let dst := regs false x.d x.c.stepD j
  let a := regs false x.a x.c.stepA j
  laneOp s x.c (Use.lanes dst a x.c.pred) fun g ex =>
    putLanes g (dst.headD 0) ex ((vreg g (a.headD 0)).map fun v => BitVec.ofNat 32 (f v.toNat))
/-- `vfrsqe` (R217). -/
def execVfrsqe (x : SfArgs) (s : State) : Out := special sfRsqrt x s
/-- `vfrcpe` (R217). -/
def execVfrcpe (x : SfArgs) (s : State) : Out := special sfRecip x s
/-- `vfexp2` (R217). -/
def execVfexp2 (x : SfArgs) (s : State) : Out := special sfExp2 x s
/-- `vflog2` (R217). -/
def execVflog2 (x : SfArgs) (s : State) : Out := special sfLog2 x s
/-- `vfsinpi` (R217). -/
def execVfsinpi (x : SfArgs) (s : State) : Out := special sfSinPi x s
/-- `vfcospi` (R217). -/
def execVfcospi (x : SfArgs) (s : State) : Out := special sfCosPi x s

end Sys2Proof.Machine
end

