-- ==== Sys2Proof/Machine/LanePredicate.lean ====
section
/-! DEFINITION. Predicate instructions (R219), the mask stack (R44, R220), lane summaries (R221) and the mask as a predicate (R222). -/

namespace Sys2Proof.Machine

open Sys2Proof

/-- What a predicate instruction reads. -/
def predUse (v rv rm : List Nat) (p : PReg) : Use := { Use.lanes v rv p with rm := p.toNat :: rm }
/-- Four predicate bits written in each executing lane (R219). -/
def putNibbles (x : Group) (k : PReg) (ex : List Bool) (v : List (BitVec 4)) : Group :=
  putMreg x k (ex.all id) (blend ex v (mreg x k.toNat))
/-- An instruction of two predicates (R219). -/
def predBin (f : BitVec 4 → BitVec 4 → BitVec 4) (x : PredBin) (s : State) : Out :=
  laneOp s x.c (predUse [] [] [x.a.toNat, x.b.toNat] x.c.pred) fun g ex =>
    putNibbles g x.d ex (List.zipWith f (mreg g x.a.toNat) (mreg g x.b.toNat))
/-- `vpand` (R219). -/
def execVpand (x : PredBin) (s : State) : Out := predBin (fun a b => a &&& b) x s
/-- `vpor` (R219). -/
def execVpor (x : PredBin) (s : State) : Out := predBin (fun a b => a ||| b) x s
/-- `vpxor` (R219). -/
def execVpxor (x : PredBin) (s : State) : Out := predBin (fun a b => a ^^^ b) x s
/-- `vpandn` (R219). -/
def execVpandn (x : PredBin) (s : State) : Out := predBin (fun a b => a &&& ~~~b) x s
/-- `vpnot` (R219). -/
def execVpnot (x : PredUn) (s : State) : Out :=
  laneOp s x.c (predUse [] [] [x.a.toNat] x.c.pred) fun g ex => putNibbles g x.d ex ((mreg g x.a.toNat).map fun n => ~~~n)
/-- `vpset` (R219). -/
def execVpset (x : PredSet) (s : State) : Out :=
  laneOp s x.c (predUse [] [] [] x.c.pred) fun g ex => putNibbles g x.d ex (everyLane x.n)
/-- `vpget` (R219). -/
def execVpget (x : PredGet) (s : State) : Out :=
  let d := regNo x.d x.c.stepD 1 (repNow s)
  laneOp s x.c (predUse [d] [] [x.a.toNat] x.c.pred) fun g ex =>
    putLanes g d ex ((mreg g x.a.toNat).map fun n => n.zeroExtend 32)
/-- A predicate from a lane register (R219). -/
def predMov (f : LWord → BitVec 4) (x : PredMov) (s : State) : Out :=
  let a := regNo x.a x.c.stepA 1 (repNow s)
  laneOp s x.c (predUse [a] [a] [] x.c.pred) fun g ex => putNibbles g x.d ex ((vreg g a).map f)
/-- `vpmov` (R219). -/
def execVpmov (x : PredMov) (s : State) : Out := predMov (fun v => v.setWidth 4) x s
/-- `vpnz` (R219). -/
def execVpnz (x : PredMov) (s : State) : Out :=
  predMov (fun v => packedBits 8 fun i => subEl 8 v i != 0) x s

/-- The lanes in which a condition holds: bit 4i of a predicate, negated under neg (R44, R221). -/
def condMask (x : Group) (p : PReg) (neg : Bool) : Mask := bitsMask ((predNibbles x p neg).map fun n => n.getLsbD 0)
/-- A mask-stack instruction has its effect and LPC advances (R44). -/
def maskDone (s : State) (g : Nat) (eff : Group → LaneCtx) : State :=
  laneAdvance (modGroup s g fun x => { x with lane := eff x }) g 0 (now s)
/-- A mask-stack instruction (R44, R220): it ends a run-on; the mask-stack trap comes first and changes nothing; a poisoned condition is a group record. -/
def maskOp (s : State) (cond : Option PReg) (trap : LaneCtx → Option Nat) (eff : Group → LaneCtx) (emit : State → Nat → State) : Out :=
  onGroup s fun g =>
    let x := group s g
    let u : Use := { Use.lanes [] [] 0 with cross := true }
    let bad := match cond with
      | some k => k != 0 && poisoned x 2 k.toNat 0 && x.lane.mask != 0
      | none => false
    if stopsRunOn x u then modGroup s g fun x => { x with lane := { x.lane with stopped := true } }
    else match trap x.lane with
      | some c => raiseLane s g ⟨1, c, BitVec.ofNat 8 (accessByte false false false 1), 0xFF, 0, x.lane.lpc⟩
      | none => if bad then raiseLane s g (poisonRec (2, (cond.getD 0).toNat) 1) else emit (maskDone (traceAhead s g (now s)) g eff) g
/-- Carillon's mask record (R395). -/
def emitMask (sub : Nat) (s : State) (g : Nat) : State := emitGroup s g 3 sub (maskBytes (group s g).lane.mask)
/-- `mpush` (R44). -/
def execMpush (x : PushArgs) (s : State) : Out :=
  maskOp s (some x.pred) (fun l => if Config.maskDepth ≤ l.stack.length then some 0 else none)
    (fun g => { g.lane with stack := g.lane.mask :: g.lane.stack, mask := g.lane.mask &&& condMask g x.pred x.neg }) (emitMask 0)
/-- `melse` (R44). -/
def execMelse (s : State) : Out :=
  maskOp s none (fun l => if l.stack.isEmpty then some 1 else none)
    (fun g => { g.lane with mask := g.lane.stack.headD 0 &&& ~~~g.lane.mask }) (emitMask 1)
/-- `mpop` (R44). -/
def execMpop (s : State) : Out :=
  maskOp s none (fun l => if l.stack.isEmpty then some 1 else none)
    (fun g => { g.lane with mask := g.lane.stack.headD 0, stack := g.lane.stack.tail })
    fun s g => emitGroup s g 4 0 [BitVec.ofNat 8 (group s g).lane.stack.length]

/-- A lane-written scalar (R39, R153). -/
def setLaneScalar (x : Group) (d : LDst) (v : Word) : Group := setSregOf x (40 + d.toNat) v
/-- `vtest` (R221). -/
def execVtest (x : TestArgs) (s : State) : Out :=
  laneIssue s 0 { Use.lanes [] [] x.pred with cross := true, whole := true } (fun g => maskBits (activeMask g)) fun g =>
    let m := activeMask g
    let hit := m &&& condMask g x.pred x.neg
    setLaneScalar g x.d (BitVec.ofNat 64 (maskCount hit * 2 ^ 32) + anyAll ((lanesOf m).map fun i => hit.getLsbD i))
/-- `vmaskm` (R222). -/
def execVmaskm (x : MaskmArgs) (s : State) : Out :=
  laneIssue s x.c.rep.toNat { Use.lanes [] [] 0 with cross := true } (fun _ => []) fun g =>
    putMreg g x.d true ((maskBits g.lane.mask).map fun b => if b then 15 else 0)

end Sys2Proof.Machine
end

