-- ==== Sys2Proof/Machine/LaneCross.lean ====
section
/-! DEFINITION. Cross-lane instructions (R223 to R229): shuffles, reductions, scans, broadcasts, ballots, matches. -/

namespace Sys2Proof.Machine

open Sys2Proof

/-- The sub-group width (R223). -/
def subWidth (w : Option (BitVec 3)) : Nat :=
  match w with
  | some k => 2 ^ k.toNat
  | none => Config.gwidth
/-- What a cross-lane instruction reads: registers `xv` in the lanes that `from_` gives. -/
def crossUse (dst rv xv : List Nat) (p : PReg) (from_ : Nat → List Nat) : Use :=
  { Use.lanes (dst ++ xv) rv p with xv := xv, from_ := from_, cross := true }
/-- The lanes of the sub-group of a lane that execute. -/
def mates (ex : List Bool) (w i : Nat) : List Nat := ((List.range w).map (i / w * w + ·)).filter fun k => ex.getD k false

/-- The source position of a shuffle in its sub-group; none when out of range (R224). -/
def shufflePos (op w r k : Nat) : Option Nat :=
  match op with
  | 0 => if k < w then some k else none
  | 1 => if r < k then none else some (r - k)
  | 2 => if w ≤ r + k then none else some (r + k)
  | _ => if w ≤ r ^^^ k then none else some (r ^^^ k)
/-- The source lane of a shuffle in each lane. -/
def shuffleFrom (op w : Nat) (ks : List Word) (i : Nat) : Option Nat :=
  (shufflePos op w (i % w) (ks.getD i 0).toNat).map fun p => i / w * w + p
/-- A shuffle (R224). -/
def shuffle (op : Nat) (x : ShflArgs) (s : State) : Out :=
  let j := repNow s
  let w := subWidth x.w
  let dst := regs x.pair x.d x.c.stepD j
  let a := regs x.pair x.a x.c.stepA j
  let ks := srcInt (group s (curGroup s)) false false x.b x.c.stepB j
  let src := shuffleFrom op w ks
  laneOp s x.c (crossUse dst (srcRegs false x.b x.c.stepB j) a x.c.pred fun i => [(src i).getD i]) fun g ex =>
    let old := vsrc g x.pair (a.headD 0)
    let g := putWide g x.pair (dst.headD 0) ex ((List.range 128).map fun i => old.getD ((src i).getD i) 0)
    match x.k with
    | some k => putNibbles g k ex ((List.range 128).map fun i => if (src i).isNone then 15 else 0)
    | none => g
/-- `vshfl.idx` (R224). -/
def execVshflIdx (x : ShflArgs) (s : State) : Out := shuffle 0 x s
/-- `vshfl.up` (R224). -/
def execVshflUp (x : ShflArgs) (s : State) : Out := shuffle 1 x s
/-- `vshfl.down` (R224). -/
def execVshflDown (x : ShflArgs) (s : State) : Out := shuffle 2 x s
/-- `vshfl.xor` (R224). -/
def execVshflXor (x : ShflArgs) (s : State) : Out := shuffle 3 x s

/-- An operation of a reduction or a scan on 32-bit values: its function and its identity (R225). -/
inductive Fold where
  | addI | addF | minI | maxI | minF | maxF | andI | orI | xorI
  deriving DecidableEq, Repr
/-- The operation that `vlred`'s opcode names (R225). -/
def redFold (op : BitVec 4) : Fold :=
  match op.toNat with
  | 0 => .addI | 1 => .addF | 2 => .minI | 3 => .maxI | 4 => .minF | 5 => .maxF | 6 => .andI | 7 => .orI | _ => .xorI
/-- The operation that `vscan`'s opcode names (R226). -/
def scanFold (op : BitVec 3) : Fold :=
  match op.toNat with
  | 0 => .addI | 1 => .addF | 2 => .minI | 3 => .maxI | 4 => .minF | _ => .maxF
/-- The operation on two values (R225). -/
def foldOp (f : Fold) (sg : Bool) (a b : LWord) : LWord :=
  match f with
  | .addI => a + b
  | .addF => BitVec.ofNat 32 (roundTo f32 0 false (Sys2Proof.Machine.addF 0 (decodeF f32 a.toNat) (decodeF f32 b.toNat)))
  | .minI => if readInt 32 sg b.toNat < readInt 32 sg a.toNat then b else a
  | .maxI => if readInt 32 sg a.toNat < readInt 32 sg b.toNat then b else a
  | .minF => BitVec.ofNat 32 (Sys2Proof.Machine.minF f32 a.toNat b.toNat)
  | .maxF => BitVec.ofNat 32 (Sys2Proof.Machine.maxF f32 a.toNat b.toNat)
  | .andI => a &&& b
  | .orI => a ||| b
  | .xorI => a ^^^ b
/-- The identity value (R225). -/
def foldId (f : Fold) (sg : Bool) : LWord :=
  match f with
  | .addI => 0
  | .addF => 0x80000000
  | .minI => if sg then 0x7FFFFFFF else 0xFFFFFFFF
  | .maxI => if sg then 0x80000000 else 0
  | .minF => 0x7F800000
  | .maxF => 0xFF800000
  | .andI => 0xFFFFFFFF
  | .orI => 0
  | .xorI => 0
/-- The butterfly over sub-groups of 2^k lanes, from distance d on (R225). -/
def butterfly (f : LWord → LWord → LWord) : Nat → Nat → List LWord → List LWord
  | 0, _, x => x
  | k + 1, d, x =>
    butterfly f k (2 * d) ((List.range 128).map fun i => f (x.getD (min i (i ^^^ d)) 0) (x.getD (max i (i ^^^ d)) 0))
/-- `vlred` (R225). -/
def execVlred (x : LredArgs) (s : State) : Out :=
  let j := repNow s
  let w := subWidth x.w
  let a := regNo x.a x.c.stepA 1 j
  let f := redFold x.op
  let red := fun (g : Group) (ex : List Bool) =>
    butterfly (foldOp f x.sg) (Nat.log2 w) 1 (List.zipWith (fun e v => if e then v else foldId f x.sg) ex (vreg g a))
  let ex0 := execLanes (group s (curGroup s)) x.c.pred x.c.neg
  match x.d with
  | .lanes d =>
    let n := regNo d x.c.stepD 1 j
    laneOp s x.c (crossUse [n] [] [a] x.c.pred (mates ex0 w)) fun g ex => putLanes g n ex (red g ex)
  | .scalar d =>
    laneOp s x.c { crossUse [] [] [a] x.c.pred (fun i => [i]) with whole := true } fun g ex =>
      let v := (red g ex).headD 0
      setLaneScalar g d (if x.sg then v.signExtend 64 else v.zeroExtend 64)

/-- A scan of one sub-group: the values its executing lanes get, in ascending order (R226). -/
def scanLanes (f : LWord → LWord → LWord) (excl : Bool) : LWord → List (Bool × LWord) → List LWord
  | _, [] => []
  | acc, (e, v) :: r =>
    if e then (if excl then acc else f acc v) :: scanLanes f excl (f acc v) r
    else v :: scanLanes f excl acc r
/-- A list cut into pieces of w. -/
def pieces {α : Type} (w : Nat) (l : List α) : List (List α) := (List.range (l.length / w)).map fun k => (l.drop (k * w)).take w
/-- `vscan` (R226). -/
def execVscan (x : ScanArgs) (s : State) : Out :=
  let j := repNow s
  let w := subWidth x.w
  let n := regNo x.d x.c.stepD 1 j
  let a := regNo x.a x.c.stepA 1 j
  let f := scanFold x.op
  let ex0 := execLanes (group s (curGroup s)) x.c.pred x.c.neg
  laneOp s x.c (crossUse [n] [] [a] x.c.pred fun i => (mates ex0 w i).filter (· ≤ i)) fun g ex =>
    putLanes g n ex ((pieces w (List.zip ex (vreg g a))).flatMap (scanLanes (foldOp f x.sg) x.excl (foldId f x.sg)))

/-- `vbcast` (R227). -/
def execVbcast (x : BcastArgs) (s : State) : Out :=
  let j := repNow s
  let w := subWidth x.w
  let k := match x.b with
    | .scal r => bits (captured (group s (curGroup s)) r) 31 0
    | .imm v => v.toNat
    | .reg r => r.toNat
  let dst := regs x.pair x.d x.c.stepD j
  let a := regs x.pair x.a x.c.stepA j
  laneOp s x.c { crossUse dst [] a x.c.pred (fun i => [i / w * w + k]) with trap := if w ≤ k then some 5 else none } fun g ex =>
    let old := vsrc g x.pair (a.headD 0)
    putWide g x.pair (dst.headD 0) ex ((List.range 128).map fun i => old.getD (i / w * w + k) 0)

/-- The number whose bit k is f k, for k below n. -/
def bitsNumber (n : Nat) (f : Nat → Bool) : Nat := (List.range n).foldl (fun a k => a + if f k then 2 ^ k else 0) 0
/-- `vballot` (R228). -/
def execVballot (x : BallotArgs) (s : State) : Out :=
  let j := repNow s
  let w := subWidth x.w
  let hit := fun (g : Group) (ex : List Bool) => List.zipWith (fun (e : Bool) (n : BitVec 4) => e && (n.getLsbD 0 != x.negSrc)) ex (mreg g x.k.toNat)
  match x.d with
  | .lanes d =>
    let n := regNo d x.c.stepD 1 j
    laneOp s x.c { crossUse [n] [] [] x.c.pred (fun i => [i]) with rm := [x.c.pred.toNat, x.k.toNat] } fun g ex =>
      let bs := hit g ex
      putLanes g n ex ((List.range 128).map fun i => BitVec.ofNat 32 (bitsNumber w fun k => bs.getD (i / w * w + k) false))
  | .scalar d =>
    laneOp s x.c { crossUse [] [] [] x.c.pred (fun i => [i]) with rm := [x.c.pred.toNat, x.k.toNat], whole := true } fun g ex =>
      let bs := hit g ex
      setLaneScalar g d (BitVec.ofNat 64 (bitsNumber 64 fun k => bs.getD ((if x.h then 64 else 0) + k) false))

/-- Whether two keys match (R229). -/
def keysMatch (pair flt raw : Bool) (a b : Word) : Bool :=
  if flt && !raw then cmpF 0 (decodeF (fpFmt pair) a.toNat) (decodeF (fpFmt pair) b.toNat) else a == b
/-- `vmatch` (R229). -/
def execVmatch (x : MatchArgs) (s : State) : Out :=
  let j := repNow s
  let w := subWidth x.w
  let n := regNo x.d x.c.stepD 1 j
  let a := regs x.pair x.a x.c.stepA j
  let ex0 := execLanes (group s (curGroup s)) x.c.pred x.c.neg
  laneOp s x.c (crossUse [n] [] a x.c.pred (mates ex0 w)) fun g ex =>
    let v := vsrc g x.pair (a.headD 0)
    putLanes g n ex ((List.range 128).map fun i => BitVec.ofNat 32 (bitsNumber w fun k =>
      let l := i / w * w + k
      ex.getD l false && keysMatch x.pair x.flt x.bits (v.getD i 0) (v.getD l 0)))

end Sys2Proof.Machine
end

