-- ==== Sys2Proof/Machine/LaneMemory.lean ====
section
/-! DEFINITION. Lane memory instructions (R230 to R241): addresses, checks in the order of R232, the accesses of one issue served lane by lane at their homes or at the scratchpad, parking (R236), suppressed writes (R237), counters (R235), samples (R400). -/

namespace Sys2Proof.Machine

open Sys2Proof

/-- Bytes of a lane's access. -/
def LaneMem.size (m : LaneMem) : Nat := max 1 (m.bits / 8)
/-- Whether an access reads its location (R235, R344). -/
def LaneMem.reads (m : LaneMem) : Bool :=
  match m.kind with
  | .store => false
  | .spill _ => false
  | _ => true
/-- Whether an access writes its location (R235, R344). -/
def LaneMem.writes (m : LaneMem) : Bool :=
  match m.kind with
  | .load _ => false
  | .fill => false
  | _ => true
/-- Whether the instruction counts in the loads counter (R235, R260). -/
def LaneMem.counted (m : LaneMem) : Bool :=
  match m.kind with
  | .load _ => true
  | .fill => true
  | .atomic _ => !m.dst.isEmpty
  | _ => false
/-- Whether a virtual-memory access must be naturally aligned (R232, R260). -/
def LaneMem.aligned (m : LaneMem) : Bool :=
  match m.kind with
  | .load _ => false
  | .store => false
  | _ => true
/-- Whether the instruction is one of class 101, whose issues are sampled (R400); `qspill` and `qfill` are of class 110. -/
def LaneMem.sampled (m : LaneMem) : Bool :=
  match m.kind with
  | .spill _ => false
  | .fill => false
  | _ => true
/-- Rights an access needs (R326). -/
def LaneMem.rights (m : LaneMem) : BitVec 3 := BitVec.ofBool false ++ BitVec.ofBool m.writes ++ BitVec.ofBool m.reads
/-- The record of a lane's access (R344). -/
def LaneMem.record (m : LaneMem) (cls cause i : Nat) (addr : Word) : FaultRec :=
  forLane (mkRec cls cause (accessByte false m.writes m.reads 1) addr) i

/-- Contiguous addresses of elements of e bytes; 0 stands for a nibble (R231). -/
def contAddrs (x : Group) (base : CReg) (off : BitVec 32) (e : Nat) : List (Word × Bool) :=
  let b := captured x base + off.signExtend 64
  (List.range 128).map fun i =>
    if e = 0 then (b + BitVec.ofNat 64 (i / 2), i % 2 == 1) else (b + BitVec.ofNat 64 (i * e), false)
/-- Indexed addresses (R231). -/
def idxAddrs (x : Group) (a64 nib : Bool) (scale : BitVec 2) (base : CReg) (a : Nat) : List (Word × Bool) :=
  if a64 then (vpair x a).map fun p => (p, false)
  else (vreg x a).map fun v =>
    let o : Word := v.signExtend 64
    if nib then (captured x base + o.sshiftRight 1, o.getLsbD 0) else (captured x base + (o <<< scale.toNat), false)
/-- For each lane of a scatter the nibbles of its element that a higher executing lane writes (R234). -/
def dropsOf (addrs : List (Word × Bool)) (bits : Nat) (ex : Mask) : Tab (List Nat) :=
  let w := bits / 4
  let start := fun (e : Word × Bool) => e.1.toNat * 2 + if bits = 4 && e.2 then 1 else 0
  let lanes := (lanesOf ex).map fun i => (i, start (addrs.getD i (0, false)))
  lanes.filterMap fun e =>
    let hit := fun k => lanes.any fun h => decide (e.1 < h.1) && decide (h.2 ≤ e.2 + k) && decide (e.2 + k < h.2 + w)
    let d := (List.range w).filter hit
    if d.isEmpty then none else some (e.1, d)

/-- The low bits that registers hold in a lane, first register lowest. -/
def laneData (x : Group) (rs : List Nat) (i : Nat) : Nat :=
  rs.foldr (fun r acc => ((vreg x r).getD i 0).toNat + 2 ^ 32 * acc) 0
/-- Registers written in one lane with the words of a value (R52, R233). -/
def putLane (x : Group) (i : Nat) : List Nat → Nat → Group
  | [], _ => x
  | r :: rs, v =>
    putLane { setVreg x r (setAt (vreg x r) i (BitVec.ofNat 32 v)) with
      poison := x.poison.filter fun p => !(p.kind == 1 && p.reg == r && p.lane == i) } i rs (v / 2 ^ 32)
/-- The value a load leaves in its registers: 4, 8 and 16 bits fill 32 (R234). -/
def laneLoad (bits : Nat) (sg hi : Bool) (raw : Nat) : Nat :=
  let v := if bits = 4 && hi then raw / 16 else raw
  if bits < 32 then (if sg then (BitVec.ofInt 32 (sext bits v)).toNat else v % 2 ^ bits) else v
/-- Nibble k of a byte string. -/
def nibbleAt (bs : List Byte) (k : Nat) : Nat := (bs.getD (k / 2) 0).toNat / 16 ^ (k % 2) % 16
/-- Whether a store writes nibble k of its bytes (R234, R235). -/
def storesNibble (bits : Nat) (hi : Bool) (drop : List Nat) (k : Nat) : Bool :=
  if bits = 4 then (k == (if hi then 1 else 0)) && drop.isEmpty else !drop.contains k
/-- Bytes of a store's location after it, from what they held (R234, R235). -/
def storeBytes (bits : Nat) (hi : Bool) (drop : List Nat) (v : Nat) (old : List Byte) : List Byte :=
  let nib := fun k => if storesNibble bits hi drop k then (if bits = 4 then v % 16 else v / 16 ^ k % 16) else nibbleAt old k
  (List.range old.length).map fun b => BitVec.ofNat 8 (nib (2 * b) + 16 * nib (2 * b + 1))
/-- Offsets of the bytes that a store touches. -/
def storeTouches (bits : Nat) (hi : Bool) (drop : List Nat) : List Nat :=
  (List.range (max 1 (bits / 8))).filter fun b => storesNibble bits hi drop (2 * b) || storesNibble bits hi drop (2 * b + 1)
/-- Runs of bytes of segments, from an offset on, as single bytes. -/
def byteRuns : List Seg → Nat → List Nat → List (Nat × Nat)
  | [], _, _ => []
  | g :: r, off, bs =>
    (bs.filter fun b => decide (off ≤ b ∧ b < off + g.len)).map (fun b => (g.flat + (b - off), 1)) ++ byteRuns r (off + g.len) bs

/-- The run of one nibble, by nibble number, that a 4-bit store writes in a byte. -/
def nibbleRun (byte : Nat) (hi : Bool) : List (Nat × Nat) := [(2 * byte + if hi then 1 else 0, 1)]
/-- The bytes of which both nibbles are written, as runs (R359). -/
def wholeBytes (ns : List (Nat × Nat)) : List (Nat × Nat) :=
  (ns.filter fun n => n.1 % 2 == 0 && ns.contains (n.1 + 1, 1)).map fun n => (n.1 / 2, 1)

/-- The contributor rank of a group (R240, R255). -/
def contributor (s : State) (g : Nat) : Nat := min ((team s (group s g).team).no * 32 + (group s g).no) 0xFFFFFFFE
/-- What a lane adds to or merges into a long accumulator (R240). -/
def slotUpdate (s : State) (g : Nat) (m : LaneMem) (i : Nat) : LA → LA :=
  let x := group s g
  match m.kind with
  | .qadd t => fun a => laAdd a (valueC (ctypeOf t) (laneData x m.src i)) (contributor s g)
  | _ => fun a => laMerge a ((qreg x (m.src.headD 0)).getD i LA.zero)
/-- A long-accumulator register written in one lane (R260, R359). -/
def putSlot (x : Group) (n i : Nat) (a : LA) : Group :=
  { setQreg x n (setAt (qreg x n) i a) with poison := x.poison.filter fun p => !(p.kind == 3 && p.reg == n && p.lane == i) }
/-- The bytes that `qspill` writes for a lane (R260). -/
def spillBytes (x : Group) (norm : Bool) (q i : Nat) : List Byte :=
  let a := (qreg x q).getD i LA.zero
  laBytes (if norm then laNorm a else a)

/-- The runs that a write of n bytes at an offset has written: all of it, or each byte that is not tagged (R113, R116). -/
def writtenRuns (t : Team) (off n : Nat) (c : Option Nat) : List (Nat × Nat) :=
  if c.isNone then [(off, n)] else ((List.range n).filter fun i => tagAt t (off + i) == 0).map fun i => (off + i, 1)
/-- A lane's access at the scratchpad, after its checks: the state, the runs written (in nibbles for a 4-bit store), the first suppressed byte (R100, R113, R116, R237). -/
def scratchLane (s : State) (g : Nat) (m : LaneMem) (i off : Nat) (hi : Bool) : State × List (Nat × Nat) × Option Nat :=
  let x := group s g
  let t := team s x.team
  let old := scratchRead t off m.size
  match m.kind with
  | .load sg => (setGroup s g (putLane x i m.dst (laneLoad m.bits sg hi (ofLe old))), [], none)
  | .fill => (setGroup s g (putSlot x (m.dst.headD 0) i (laOfBytes old)), [], none)
  | .store =>
    let drop := tget [] m.drop i
    let bs := storeBytes m.bits hi drop (laneData x m.src i) old
    let touched := storeTouches m.bits hi drop
    let r := touched.foldl (fun (p : Team × Option Nat) b =>
      let q := scratchWrite p.1 (off + b) [bs.getD b 0]
      (q.1, p.2 <|> q.2)) (t, none)
    let kept := touched.filter fun b => tagAt t (off + b) == 0
    (setTeam s x.team r.1, if m.bits = 4 then kept.flatMap fun b => nibbleRun (off + b) hi else kept.map fun b => (off + b, 1), r.2)
  | .atomic op =>
    let w := 2 ^ m.bits
    let data := laneData x m.src i
    let s := setGroup s g (putLane x i m.dst (ofLe old))
    match atomicNew op m.bits (ofLe old) (data % w) (data / w % w) with
    | none => (s, [], none)
    | some v =>
      let r := scratchWrite t off (leBytes m.size v)
      (setTeam s x.team r.1, writtenRuns t off m.size r.2, r.2)
  | .spill norm =>
    let r := scratchWrite t off (spillBytes x norm (m.src.headD 0) i)
    (setTeam s x.team r.1, writtenRuns t off 128 r.2, r.2)
  | _ =>
    let r := scratchWrite t off (laBytes (slotUpdate s g m i (laOfBytes old)))
    (setTeam s x.team r.1, writtenRuns t off 128 r.2, r.2)
/-- A lane's access at its homes, after translation: the state and the runs written, in nibbles for a 4-bit store (R234, R239, R240, R260). -/
def homeLane (s : State) (g : Nat) (m : LaneMem) (snap : Option (List Host.Cell)) (i : Nat) (va : Word) (hi : Bool) (gs : List Seg) : State × List (Nat × Nat) :=
  let x := group s g
  let who := whoOf s g (.lane g)
  let whole := gs.map fun r => (r.flat, r.len)
  match m.kind with
  | .load sg =>
    let (s, bs) := readRo s who snap va gs
    (modGroup s g fun x => putLane x i m.dst (laneLoad m.bits sg hi (ofLe bs)), [])
  | .fill =>
    let (s, bs) := homeRead s who va gs
    (modGroup s g fun x => putSlot x (m.dst.headD 0) i (laOfBytes bs), [])
  | .store =>
    let drop := tget [] m.drop i
    let touched := storeTouches m.bits hi drop
    if touched.isEmpty then (s, [])
    else
      let s := settle s who.part va gs
      let bs := storeBytes m.bits hi drop (laneData x m.src i) (readSegs s gs)
      (noteUpdate (writeSegs s gs bs) who va m.size,
       if m.bits = 4 then nibbleRun ((gs.head?.map (·.flat)).getD 0) hi else if drop.isEmpty then whole else byteRuns gs 0 (touched.filter fun b => !drop.contains (2 * b) && !drop.contains (2 * b + 1)))
  | .atomic op =>
    let w := 2 ^ m.bits
    let data := laneData x m.src i
    let (s, old) := homeAtomic s who va gs op m.size (data % w) (data / w % w)
    (modGroup s g fun x => putLane x i m.dst old, whole)
  | .spill norm => (homeWrite s who va gs (spillBytes x norm (m.src.headD 0) i), whole)
  | _ => (homeAcc s who va ((gs.head?.map (·.flat)).getD 0) (slotUpdate s g m i), whole)

/-- A lane has faulted. -/
def laneFault (s : State) (a : LaneAcc) (i cls cause : Nat) (addr : Word) : State × LaneAcc :=
  (s, { a with left := a.left &&& ~~~maskOf (· == i), faults := tput recBlank a.faults i (a.op.record cls cause i addr) })
/-- A lane is served; data that returns to a register makes it the last (R400). -/
def laneServed (s : State) (a : LaneAcc) (i : Nat) (wrote : List (Nat × Nat)) (c : Option Nat) : State × LaneAcc :=
  (s, { a with left := a.left &&& ~~~maskOf (· == i), wrote := a.wrote ++ wrote, last := if a.op.counted then i else a.last,
               clobbers := match c with | some b => tins i (BitVec.ofNat 64 b) (tdel a.clobbers i) | none => a.clobbers })
/-- One lane's access: checked in the order of R232 over all its bytes, then performed, or left for later where its page is not translated (R126, R236). -/
def serveLane (s : State) (g : Nat) (a : LaneAcc) (i : Nat) : State × LaneAcc :=
  let m := a.op
  let (va, hi) := m.addrs.getD i (0, false)
  let misaligned := decide (va.toNat % m.size ≠ 0)
  if m.sp then
    let limit := (descOf s g).s
    if misaligned then laneFault s a i 6 0 va
    else if limit < va.toNat + m.size then laneFault s a i 7 0 (BitVec.ofNat 64 (max va.toNat limit))
    else match if m.reads then scratchPoison (team s (group s g).team) va.toNat m.size else none with
      | some b => laneFault s a i 8 0 (BitVec.ofNat 64 b)
      | none =>
        let (s, runs, c) := scratchLane s g m i va.toNat hi
        laneServed s a i runs c
  else
    let who := whoOf s g (.lane g)
    match addressFault who.mask va m.size with
    | some b => laneFault s a i 5 0 b
    | none =>
      if m.aligned && misaligned then laneFault s a i 6 0 va
      else match xlate s who m.rights va m.size with
        | (s, .wait) => (s, a)
        | (s, .fault c k b) => laneFault s a i c k b
        | (s, .ok gs) => match if m.reads then poisonIn s gs else none with
          | some off => laneFault s a i 8 0 (va + BitVec.ofNat 64 off)
          | none =>
            let (s, runs) := homeLane s g m a.snap i va hi gs
            let s := if m.ro then noteRo s g va m.size else s
            laneServed s a i runs none

/-- The sectors of 32 bytes that lanes of an issue touch (R400). -/
def sectorsOf (m : LaneMem) (ex : Mask) : List Nat :=
  ((lanesOf ex).flatMap fun i => runSectors (m.addrs.getD i (0, false)).1.toNat m.size).eraseDups
/-- Flags of a sample: `.ro`, another die, another chip (R400). -/
def sampleFlags (s : State) (g : Nat) (m : LaneMem) (ex : Mask) : Nat :=
  let owners := if m.sp then [] else (lanesOf ex).map fun i => ownerOf (m.addrs.getD i (0, false)).1
  (if m.ro then 2 else 0) + (if owners.any (· != chipNo s * 4 + dieOf s g) then 4 else 0) +
  if owners.any (fun o => o / 4 != chipNo s) then 8 else 0
/-- The body of a sample record; the four queue times are not stated by the manual and are free values (R400, log 20). -/
def sampleBody (p : Sample) (at_ : Nat) (q : List Nat) : List Byte :=
  varint (p.lpc.toNat / 4) ++ [BitVec.ofNat 8 p.rep] ++ varint ((at_ - p.time) / 256) ++ [BitVec.ofNat 8 p.lanes] ++
  varint p.sectors.length ++ [BitVec.ofNat 8 (min p.replays 255)] ++ q.flatMap varint ++
  [BitVec.ofNat 8 p.last, BitVec.ofNat 8 p.flags]
/-- A sample record is written, unless its issue came before the trace bit went on (R399, R400). -/
def emitSample (s : State) (g : Nat) (p : Sample) : State :=
  if traced (group s g) p.time then
    let q := (List.range 4).map fun k => (Config.freeWord (s.fresh + k)).toNat
    emitGroup { s with fresh := s.fresh + 4 } g 7 0 (sampleBody p (now s) q)
  else s
/-- An issue of class 101 is counted, and sampled when it is the N-th (R400). -/
def noteSample (s : State) (g : Nat) (ex : Mask) (sectors : List Nat) (flags : Nat) : State :=
  let x := group s g
  if x.trace.every = 0 ∨ x.lane.park.replaying then s
  else if x.trace.count + 1 < x.trace.every then setGroup s g { x with trace := { x.trace with count := x.trace.count + 1 } }
  else
    let p : Sample := ⟨x.lane.lpc, x.lane.rep, now s, maskCount ex, ex, sectors, 0, 0xFF, flags⟩
    setGroup s g { x with trace := { x.trace with count := 0, samples := x.trace.samples ++ [p] } }
/-- Whether a sample is that of the issue at which a lane stream stands. -/
def sampleHere (x : Group) (ex : Mask) (p : Sample) : Bool :=
  p.lpc == x.lane.lpc && p.rep == x.lane.rep && (p.left &&& ex != 0 || p.lanes == 0)
/-- Lanes of the issue under way have completed: its sample, if any, notes them, and is written when none is left (R400). -/
def stepSample (s : State) (g : Nat) (ex done : Mask) (last : Nat) (faulted : Bool) : State :=
  let x := group s g
  match x.trace.samples.find? (sampleHere x ex) with
  | none => s
  | some p =>
    let p' := { p with
      left := p.left &&& ~~~done, replays := if x.lane.park.replaying then p.replays + 1 else p.replays,
      last := if last = 0xFF then p.last else last, flags := if faulted ∧ p.flags % 2 = 0 then p.flags + 1 else p.flags }
    let rest := x.trace.samples.erase p
    if p'.left = 0 then emitSample (setGroup s g { x with trace := { x.trace with samples := rest } }) g p'
    else setGroup s g { x with trace := { x.trace with samples := p' :: rest } }

/-- A run of memory or scratchpad that an instruction has written in whole granules is clean (R359). -/
def cleanRuns (s : State) (g : Nat) (sp : Bool) (runs : List (Nat × Nat)) : State :=
  if sp then
    modTeam s (group s g).team fun t => if t.poison.isEmpty then t else { t with poison := t.poison.filter fun k => !covers runs k }
  else cleanBad s runs
/-- Lanes of an access join those whose suppressed writes are still to report; each keeps its lowest suppressed byte (R237). The instructions of one replay region are reported together, at the stop after it, where the manual speaks of one instruction (DESIGN CHOICE, log 7). -/
def noteClobbers (l : LaneCtx) (cs : Tab Word) : LaneCtx :=
  { l with clob := cs.foldl (fun t e =>
      match t.find? fun k => k.1 == e.1 with
      | some k => if e.2.toNat < k.2.toNat then tins e.1 e.2 (tdel t e.1) else t
      | none => tins e.1 e.2 t) l.clob }
/-- Lanes parked at an `.acq` end the run-on: later accesses of the other lanes follow the acquire (R128, log 7). -/
def stopAfter (l : LaneCtx) (acq : Bool) (f : Mask) : LaneCtx :=
  if acq && f != 0 && !l.park.replaying then { l with stopped := true } else l
/-- Every lane of an issue is served or has faulted: faulting lanes are parked, LPC advances, the access waits to be counted down, suppressed writes are reported (R234 to R237). -/
def endLaneMem (s : State) (g : Nat) (a : LaneAcc) : State :=
  let f := maskOf fun i => a.faults.any fun e => e.1 == i
  let done := a.exec &&& ~~~f
  let ends := f != 0 || replayDone (countIssue (advanceLane (group s g).lane a.op.n))
  let s := if ends then traceAhead s g a.time else s
  let s := cleanRuns (clearFaults s (.lane g)) g a.op.sp (if a.op.bits = 4 then wholeBytes a.wrote else a.wrote)
  let s := stepSample s g a.exec done a.last (f != 0)
  let s := modGroup s g fun x => { x with
    lane := stopAfter (noteClobbers x.lane a.clobbers) a.op.acq f,
    fly := { x.fly with lane := none },
    cnt := { x.cnt with loadsDue := x.cnt.loadsDue + if a.op.counted then 1 else 0,
                        storesDue := x.cnt.storesDue + if a.op.writes then 1 else 0 } }
  raiseClobbers (laneDone s g a.op.n a.time f a.faults (a.op.drop.filter fun e => f.getLsbD e.1)) g
/-- The lanes of a group that are still to serve are served in ascending order (R239). -/
def serveLanes (s : State) (g : Nat) : State :=
  match (group s g).fly.lane with
  | none => s
  | some a =>
    let (s, a) := (lanesOf a.left).foldl (fun (p : State × LaneAcc) i => serveLane p.1 g p.2 i) (s, a)
    if a.left = 0 then endLaneMem s g a
    else modGroup s g fun x => { x with fly := { x.fly with lane := some a } }

/-- The nibbles that each lane leaves to higher ones: a lane replayed at the issue at which it was parked keeps what held then (R234). -/
def dropsNow (x : Group) (fresh : Tab (List Nat)) : Tab (List Nat) :=
  let p := x.lane.park
  if p.replaying then
    (fresh.filter fun e => tget 0 p.first e.1 != p.index) ++ p.drop.filter fun e => tget 0 p.first e.1 == p.index
  else fresh
/-- One issue of a lane memory instruction: its checks, poisoned lanes parked, the counters raised, the accesses sent (R202, R230 to R236). A lane that reads a poisoned register sends no access, so that its poison fault comes before every condition of R232 on its address, of which the manual gives no order (DESIGN CHOICE, log 24). -/
def memIssue (s : State) (c : LaneCtl) (u : Use) (m : Group → LaneMem) : Out :=
  onGroup s fun g =>
    let x := group s g
    let o := m x
    if stopsRunOn x u then modGroup s g fun x => { x with lane := { x.lane with stopped := true } }
    else match issueTrap (descOf s g) u with
    | some k => laneTrap s g k
    | none =>
      if (o.counted && decide (0xFFFF ≤ x.cnt.loads)) || (o.writes && decide (0xFFFF ≤ x.cnt.stores)) then s
      else
        let ex := bitsMask (execLanes x c.pred c.neg)
        let hits := if x.poison.isEmpty then [] else (lanesOf ex).filterMap fun i => (laneReads x u i).map fun k => (i, forLane (poisonRec k 1) i)
        let o := { o with drop := dropsNow x o.drop }
        let a : LaneAcc := ⟨o, ex, ex &&& ~~~maskOf (fun i => hits.any fun h => h.1 == i), hits, [], [], now s, 0xFF, if o.ro then some (mergedMem s) else none⟩
        let s := setGroup s g { x with
          fly := { x.fly with lane := some a },
          cnt := { x.cnt with loads := x.cnt.loads + if o.counted then 1 else 0, stores := x.cnt.stores + if o.writes then 1 else 0 } }
        serveLanes (if o.sampled then noteSample s g ex (sectorsOf o ex) (sampleFlags s g o ex) else s) g

/-- The trap of a lane memory instruction at issue: a scratchpad base beyond bit 20, a scope that is none (R25, R232). -/
def memTrap (s : State) (m : MemCtl) (base : Word) : Option Nat :=
  if m.sp && bits base 63 21 != 0 then some 1
  else if (m.acq || m.rel) && scopeBad s (curGroup s) m.scope then some 4
  else none
/-- What a lane memory instruction names: registers loaded, registers read, long accumulators; `.acq` and `.rel` order accesses of all lanes and end a run-on (R128, log 7). -/
def memUse (dst src q rq : List Nat) (p : PReg) (cross : Bool) (trap : Option Nat) : Use :=
  ⟨dst ++ src, q, src, [], [p.toNat], rq, fun i => [i], cross, false, trap⟩
/-- The contiguous base x + sext(imm) (R232). -/
def contBase (s : State) (base : CReg) (off : BitVec 32) : Word := captured (group s (curGroup s)) base + off.signExtend 64
/-- The offset-form base x (R232). -/
def idxBase (s : State) (a64 : Bool) (base : CReg) : Word := if a64 then 0 else captured (group s (curGroup s)) base

/-- Bits and signedness of load kind k (R233). -/
def loadKind (k : BitVec 3) : Nat × Bool := ([4, 4, 8, 8, 16, 16, 32, 64].getD k.toNat 32, k.getLsbD 0 && decide (k.toNat < 6))
/-- Bits of store kind k (R233). -/
def storeKind (k : BitVec 3) : Nat := [4, 8, 16, 32, 64].getD k.toNat 32
/-- Four consecutive registers (R233). -/
def quad (r : VReg) (step : Bool) (j : Nat) : List Nat := let n := regNo r step 1 j; [n, n + 1, n + 2, n + 3]
/-- The pair or register of a per-lane offset or address (R230). -/
def idxRegs (a64 : Bool) (a : VReg) (step : Bool) (j : Nat) : List Nat := regs a64 a step j

/-- `vld` (R233, R234). -/
def execVld (x : ContArgs) (s : State) : Out :=
  let (b, sg) := loadKind x.kind
  let dst := regs (b == 64) x.r x.c.stepD (repNow s)
  memIssue s x.c (memUse dst [] [] [] x.c.pred (x.m.acq || x.m.rel) (memTrap s x.m (contBase s x.base x.off))) fun g =>
    ⟨.load sg, x.c.rep.toNat, x.m.sp, x.m.ro, x.m.acq, b, dst, [], contAddrs g x.base x.off (b / 8), []⟩
/-- `vldq` (R233). -/
def execVldq (x : ContArgs) (s : State) : Out :=
  let dst := quad x.r x.c.stepD (repNow s)
  memIssue s x.c (memUse dst [] [] [] x.c.pred (x.m.acq || x.m.rel) (memTrap s x.m (contBase s x.base x.off))) fun g =>
    ⟨.load false, x.c.rep.toNat, x.m.sp, x.m.ro, x.m.acq, 128, dst, [], contAddrs g x.base x.off 16, []⟩
/-- `vldx` (R233). -/
def execVldx (x : IdxArgs) (s : State) : Out :=
  let (b, sg) := loadKind x.kind
  let dst := regs (b == 64) x.r x.c.stepD (repNow s)
  let a := idxRegs x.a64 x.a x.c.stepA (repNow s)
  memIssue s x.c (memUse dst a [] [] x.c.pred (x.m.acq || x.m.rel) (memTrap s x.m (idxBase s x.a64 x.base))) fun g =>
    ⟨.load sg, x.c.rep.toNat, x.m.sp, x.m.ro, x.m.acq, b, dst, [], idxAddrs g x.a64 (b == 4) x.scale x.base (a.headD 0), []⟩
/-- `vst` (R233, R234). -/
def execVst (x : ContArgs) (s : State) : Out :=
  let b := storeKind x.kind
  let src := regs (b == 64) x.r x.c.stepC (repNow s)
  memIssue s x.c (memUse [] src [] [] x.c.pred (x.m.acq || x.m.rel) (memTrap s x.m (contBase s x.base x.off))) fun g =>
    ⟨.store, x.c.rep.toNat, x.m.sp, false, x.m.acq, b, [], src, contAddrs g x.base x.off (b / 8), []⟩
/-- `vstq` (R233). -/
def execVstq (x : ContArgs) (s : State) : Out :=
  let src := quad x.r x.c.stepC (repNow s)
  memIssue s x.c (memUse [] src [] [] x.c.pred (x.m.acq || x.m.rel) (memTrap s x.m (contBase s x.base x.off))) fun g =>
    ⟨.store, x.c.rep.toNat, x.m.sp, false, x.m.acq, 128, [], src, contAddrs g x.base x.off 16, []⟩
/-- `vstx`: where lanes meet in a byte or nibble the highest writes it (R233, R234). -/
def execVstx (x : IdxArgs) (s : State) : Out :=
  let b := storeKind x.kind
  let src := regs (b == 64) x.r x.c.stepC (repNow s)
  let a := idxRegs x.a64 x.a x.c.stepA (repNow s)
  memIssue s x.c (memUse [] (src ++ a) [] [] x.c.pred (x.m.acq || x.m.rel) (memTrap s x.m (idxBase s x.a64 x.base))) fun g =>
    let addrs := idxAddrs g x.a64 (b == 4) x.scale x.base (a.headD 0)
    ⟨.store, x.c.rep.toNat, x.m.sp, false, x.m.acq, b, [], src, addrs, dropsOf addrs b (bitsMask (execLanes g x.c.pred x.c.neg))⟩
/-- `vamo` (R238, R239). -/
def execVamo (x : VAmoArgs) (s : State) : Out :=
  let j := repNow s
  let dst := if x.nr then [] else regs x.wide x.d x.c.stepD j
  let a := idxRegs x.a64 x.a x.c.stepA j
  let w := if x.wide then 2 else 1
  let first := regNo x.x x.c.stepC w j
  let src := (List.range (if x.op = 9 then 2 * w else w)).map (first + ·)
  memIssue s x.c (memUse dst (src ++ a) [] [] x.c.pred (x.m.acq || x.m.rel) (memTrap s x.m (idxBase s x.a64 x.base))) fun g =>
    ⟨.atomic x.op.toNat, x.c.rep.toNat, x.m.sp, false, x.m.acq, 32 * w, dst, src, idxAddrs g x.a64 false x.scale x.base (a.headD 0), []⟩
/-- `vqatom.add` (R240). -/
def execVqatomAdd (x : QatomArgs) (s : State) : Out :=
  let j := repNow s
  let src := regs (ctypeWide (ctypeOf x.t)) x.x x.c.stepC j
  let a := idxRegs x.a64 x.a x.c.stepA j
  memIssue s x.c (memUse [] (src ++ a) [] [] x.c.pred (x.m.acq || x.m.rel) (memTrap s x.m (idxBase s x.a64 x.base))) fun g =>
    ⟨.qadd x.t, x.c.rep.toNat, x.m.sp, false, x.m.acq, 1024, [], src, idxAddrs g x.a64 false x.scale x.base (a.headD 0), []⟩
/-- `vqatom.merge` (R240). -/
def execVqatomMerge (x : QatomArgs) (s : State) : Out :=
  let j := repNow s
  let q := regs false x.x x.c.stepC j
  let a := idxRegs x.a64 x.a x.c.stepA j
  memIssue s x.c (memUse [] a q q x.c.pred (x.m.acq || x.m.rel) (memTrap s x.m (idxBase s x.a64 x.base))) fun g =>
    ⟨.qmerge, x.c.rep.toNat, x.m.sp, false, x.m.acq, 1024, [], q, idxAddrs g x.a64 false x.scale x.base (a.headD 0), []⟩

/-- A line that a core asks for on behalf of a launch (R241): it comes when its page is translated; one that would fault is dropped, and so is a `.ro` line of a host window (R106). -/
def prefetchLine (s : State) (c l : Nat) (va : Word) (ro : Bool) : State :=
  let x := launch s l
  let who : Who := ⟨.pref c l va, x.part, x.d.asn, x.d.mask, c⟩
  let e := (l, va, ro)
  let drop := fun (s : State) => modCore (clearFaults s who.agent) c fun k => { k with want := k.want.filter (· != e) }
  if (addressFault who.mask va 1).isSome || (ro && hostWindow va) then drop s
  else match xlate s who 1 va 1 with
    | (s, .wait) => modCore s c fun k => if k.want.contains e then k else { k with want := k.want ++ [e] }
    | (s, .fault _ _ _) => drop s
    | (s, .ok _) => if ro then noteLines (drop s) c l va 1 else drop s
/-- A prefetch (R241): no access and no fault; each executing lane asks for the line of its address, but for one that would read a poisoned register (log 9). -/
def prefetch (s : State) (c : LaneCtl) (ro : Bool) (src : List Nat) (addrs : Group → List (Word × Bool)) : Out :=
  onGroup s fun g =>
    let x := group s g
    let u := memUse [] src [] [] c.pred false none
    let ex := (bitsMask (execLanes x c.pred c.neg)) &&& maskOf fun i => x.poison.isEmpty || (laneReads x u i).isNone
    let m : LaneMem := ⟨.load false, c.rep.toNat, false, ro, false, 8, [], [], addrs x, []⟩
    if (issueTrap (descOf s g) u).isSome then laneTrap s g 2
    else
      let s := stepSample (noteSample s g ex (sectorsOf m ex) (sampleFlags s g m ex)) g ex ex 0xFF false
      let lines := (lanesOf ex).map fun i => (m.addrs.getD i (0, false)).1 &&& ~~~127
      laneAdvance (lines.eraseDups.foldl (fun s va => prefetchLine s (coreOf s g) (launchOf s g) va ro) s) g c.rep.toNat (now s)
/-- `vpref` (R241). -/
def execVpref (x : PrefArgs) (s : State) : Out := prefetch s x.c x.ro [] fun g => contAddrs g x.base x.off 1
/-- `vprefx` (R241). -/
def execVprefx (x : PrefxArgs) (s : State) : Out :=
  let a := idxRegs x.a64 x.a x.c.stepA (repNow s)
  prefetch s x.c x.ro a fun g => idxAddrs g x.a64 false x.scale x.base (a.headD 0)

end Sys2Proof.Machine
end

