-- ==== Sys2Proof/Machine/LaneBooths.lean ====
section
/-! DEFINITION. The booth instructions of the lane stream (R249). -/

namespace Sys2Proof.Machine

open Sys2Proof

/-- What a lane booth instruction names and reads; its result is not per lane, and it ends a run-on (R202, R249). -/
def boothUse (dst src : List Nat) (p : PReg) (trap : Option Nat) : Use :=
  { Use.lanes dst src p with cross := true, whole := true, trap := trap }
/-- The first poisoned register that an executing lane of an instruction reads (R202). -/
def wholePoison (x : Group) (u : Use) (ex : Mask) : Option (Nat × Nat) :=
  if x.poison.isEmpty then none else (lanesOf ex).findSome? (laneReads x u)
/-- The checks that both lane booth instructions share, in the order of an issue; then the instruction itself (R202, R249). -/
def boothIssue (s : State) (g : Nat) (x : VBoothArgs) (u : Use) (k : Group → Mask → State) : State :=
  let y := group s g
  let ex := bitsMask (execLanes y x.pred x.neg)
  if stopsRunOn y u then modGroup s g fun x => { x with lane := { x.lane with stopped := true } }
  else match issueTrap (descOf s g) u with
  | some c => laneTrap s g c
  | none => match wholePoison y u ex with
      | some r => raiseLane s g (poisonRec r 1)
      | none => k y ex
/-- A lane booth instruction is done: its scalar destination is written and LPC advances (R249); its sample tells the sectors of the row and the last lane that has got data (R400). -/
def vboothDone (s : State) (g d : Nat) (v : Word) (sectors : List Nat) (last : Nat) : State :=
  let noted := fun (x : Group) => x.trace.samples.map fun p => if sampleHere x x.lane.start p then { p with sectors := sectors } else p
  let s := modGroup s g fun x => { x with trace := { x.trace with samples := noted x } }
  let s := stepSample s g (group s g).lane.start (group s g).lane.start last false
  laneAdvance (modGroup s g fun x => setSregOf x (40 + d) v) g 0 (now s)
/-- The end of a `vbput`, whose lanes get no data. -/
def endVbooth : LaneEnd := fun s g d v sectors => vboothDone s g d v sectors 0xFF
/-- `vbput` (R249): the header is checked, then the request goes to the owner's controller with the row's bytes. -/
def execVbput (x : VBoothArgs) (s : State) : Out :=
  onGroup s fun g =>
    let h := captured (group s g) x.base
    let r := clusterAddr s (group s g).team (bits h 31 0)
    boothIssue s g x (boothUse [] [x.r.toNat] x.pred (if bits h 63 32 ≠ 0 ∨ r = .bad then some 1 else none)) fun y ex =>
      if y.fly.booth.isSome then s
      else if bits h 4 0 ≠ 0 then raiseLane s g (boothRec 6 0 true true h)
      else match r with
        | .at u off =>
          let src := ((vreg y x.r.toNat).zipIdx.flatMap fun e => leBytes 4 (if ex.getLsbD e.2 then e.1.toNat else 0))
          modGroup (noteSample s g ex [] 0) g fun y =>
            { y with fly := { y.fly with booth := some ⟨u, off, src, x.d.toNat, false, true, none, false⟩ } }
        | _ => raiseLane s g (boothRec 7 0 true true h)
/-- `vbtake` (R249). -/
def execVbtake (x : VBoothArgs) (s : State) : Out :=
  onGroup s fun g =>
    let h := captured (group s g) x.base
    let r := clusterAddr s (group s g).team (bits h 31 0)
    boothIssue s g x (boothUse [x.r.toNat] [] x.pred (if bits h 63 32 ≠ 0 ∨ r = .bad then some 1 else none)) fun y ex =>
      let t := team s y.team
      let off := bits h 20 0
      let b := readBooth t off
      let first := b.rowAt off b.take
      let s' := noteSample s g ex [] 0
      if h.getLsbD 31 then raiseLane s g (boothRec 10 3 false true h)
      else if off % 32 ≠ 0 then raiseLane s g (boothRec 6 0 false true h)
      else if (descOf s g).s < off + 32 then raiseLane s g (boothRec 7 0 false true h)
      else if !isBooth t off then raiseLane s g (boothRec 10 (noBooth s y.team off) false true h)
      else if 4 * Config.gwidth < b.rowsz then raiseLane s g (boothRec 10 3 false true h)
      else if b.take = b.tail ∨ t.filling.contains (off, b.take) then vboothDone s' g x.d.toNat (2 ^ 63) [] 0xFF
      else match scratchPoison t first b.rowsz with
        | some a => raiseLane s g (boothRec 8 0 false true (BitVec.ofNat 64 a))
        | none =>
          let row := scratchRead t first b.rowsz
          let s' := modTeam s' y.team fun t => writeBooth t off { b with take := (b.take + 1) % 2 ^ 32 }
          let ex' := maskOf fun i => ex.getLsbD i && decide (i < b.rowsz / 4)
          vboothDone (modGroup s' g fun y => putLanes y x.r.toNat (maskBits ex') ((List.range 128).map fun i => BitVec.ofNat 32 (fieldAt row (4 * i) 4)))
            g x.d.toNat (BitVec.ofNat 64 (b.take * 2 ^ 21 + first)) (runSectors first b.rowsz) ((lanesOf ex').getLastD 0xFF)

end Sys2Proof.Machine
end

