-- ==== Sys2Proof/Machine/Accumulators.lean ====
section
/-! DEFINITION. Long-accumulator instructions, class 110 (R255 to R260). -/

namespace Sys2Proof.Machine

open Sys2Proof

/-- What a class 110 instruction names and reads: lane registers written and read, long accumulators named and read. -/
def laUse (dst src q rq : List Nat) (p : PReg) : Use := { Use.lanes dst src p with q := q, rq := rq }
/-- A long-accumulator register written in the lanes that execute (R255, R359). -/
def putSlots (x : Group) (n : Nat) (ex : List Bool) (v : List LA) : Group :=
  { setQreg x n (blend ex v (qreg x n)) with poison := x.poison.filter fun p => !(p.kind == 3 && p.reg == n && ex.getD p.lane false) }
/-- An instruction on the slots of one long accumulator, from those of another. -/
def slotOp (f : LA → LA → LA) (reads : Bool) (x : QTwo) (s : State) : Out :=
  let j := repNow s
  let d := regNo x.d x.c.stepD 1 j
  let a := regNo x.a x.c.stepA 1 j
  laneOp s x.c (laUse [] [] [d, a] (if reads then [d, a] else [a]) x.c.pred) fun g ex =>
    putSlots g d ex (List.zipWith f (qreg g d) (qreg g a))
/-- `qzero` (R256). -/
def execQzero (x : QOne) (s : State) : Out :=
  let d := regNo x.d x.c.stepD 1 (repNow s)
  laneOp s x.c (laUse [] [] [d] [] x.c.pred) fun g ex => putSlots g d ex zeroQ
/-- `qnorm` (R256, R90). -/
def execQnorm (x : QOne) (s : State) : Out :=
  let d := regNo x.d x.c.stepD 1 (repNow s)
  laneOp s x.c (laUse [] [] [d] [d] x.c.pred) fun g ex => putSlots g d ex ((qreg g d).map laNorm)
/-- `qmov` (R256). -/
def execQmov (x : QTwo) (s : State) : Out := slotOp (fun _ a => a) false x s
/-- `qmerge` (R256, R89). -/
def execQmerge (x : QTwo) (s : State) : Out := slotOp laMerge true x s

/-- The elements of a type in a lane's bits (R71, R257). -/
def laneElems (t : CType) (v : Word) : List Nat :=
  if ctypeBits t < 32 then (List.range (32 / ctypeBits t)).map fun e => v.toNat / 2 ^ (ctypeBits t * e) % 2 ^ ctypeBits t
  else [v.toNat]
/-- Whether element e of a type executes under a lane's predicate bits (R55, R255). -/
def elemOn (t : CType) (n : BitVec 4) (e : Nat) : Bool :=
  n.getLsbD (if ctypeBits t < 32 then governing (ctypeBits t) e else 0)
/-- Contributions of a lane's elements, ascending (R257, R413). -/
def addElems (rank : Nat) (t : CType) (n : BitVec 4) (a : LA) (vs : List FVal) : LA :=
  vs.zipIdx.foldl (fun a e => if elemOn t n e.2 then laAdd a e.1 rank else a) a
/-- A contribution in every executing lane: `vals` gives each lane's exact values (R257). -/
def accumulate (s : State) (c : LaneCtl) (u : Use) (t : CType) (d : Nat) (vals : Group → List (List FVal)) : Out :=
  let rank := contributor s (curGroup s)
  let eff := fun (g : Group) (nib : List (BitVec 4)) =>
    let new := List.zipWith (fun (n : BitVec 4) (p : LA × List FVal) => addElems rank t n p.1 p.2) nib (List.zip (qreg g d) (vals g))
    { setQreg g d new with poison := g.poison }
  if ctypeBits t < 32 then packedOp s (ctypeBits t) c u eff
  else laneOp s c u fun g ex => eff g (ex.map fun e => if e then 15 else 0)
/-- `qadd` (R257). -/
def execQadd (x : QAddArgs) (s : State) : Out :=
  let j := repNow s
  let t := ctypeOf x.t
  let d := regNo x.d x.c.stepD 1 j
  let a := regs (ctypeWide t) x.a x.c.stepA j
  accumulate s x.c (laUse [] a [d] [d] x.c.pred) t d fun g =>
    (vsrc g (ctypeWide t) (a.headD 0)).map fun v => (laneElems t v).map (valueC t)
/-- Operand b of `qmac`, formed under R157 for the width of its type. -/
def macB (g : Group) (t : CType) (b : SrcB) (step : Bool) (j : Nat) : List Word :=
  if ctypeBits t < 32 then (srcPacked g (ctypeBits t) b step j).map fun (v : LWord) => v.zeroExtend 64
  else srcInt g (ctypeWide t) false b step j
/-- `qmac` (R257): exact products. -/
def execQmac (x : QMacArgs) (s : State) : Out :=
  let j := repNow s
  let t := ctypeOf x.t
  let d := regNo x.d x.c.stepD 1 j
  let a := regs (ctypeWide t) x.a x.c.stepA j
  accumulate s x.c (laUse [] (a ++ srcRegs (ctypeWide t) x.b x.c.stepB j) [d] [d] x.c.pred) t d fun g =>
    List.zipWith (fun (v w : Word) => List.zipWith (fun p q => mulF (valueC t p) (valueC t q)) (laneElems t v) (laneElems t w))
      (vsrc g (ctypeWide t) (a.headD 0)) (macB g t x.b x.c.stepB j)
/-- `qred` (R258). -/
def execQred (x : QRedArgs) (s : State) : Out :=
  let j := repNow s
  let w := subWidth x.w
  let d := regNo x.d x.c.stepD 1 j
  let a := regNo x.a x.c.stepA 1 j
  let ex0 := execLanes (group s (curGroup s)) x.c.pred x.c.neg
  laneOp s x.c { laUse [] [] [d, a] [a] x.c.pred with from_ := mates ex0 w, cross := true } fun g ex =>
    let sums := (pieces w (List.zip ex (qreg g a))).flatMap fun (p : List (Bool × LA)) =>
      let t := p.foldl (fun t e => if e.1 then laMerge t e.2 else t) LA.zero
      List.replicate w t
    putSlots g d ex sums
/-- `qrnd` (R259). -/
def execQrnd (x : QRndArgs) (s : State) : Out :=
  let j := repNow s
  let t := ctypeOf x.t
  let dst := regs (ctypeWide t) x.d x.c.stepD j
  let a := regNo x.a x.c.stepA 1 j
  laneIssue s x.c.rep.toNat (laUse dst [] [a] [a] x.c.pred) (fun g => execEl g x.c t x.dpos.toNat) fun g =>
    putEl g t (dst.headD 0) x.dpos.toNat (execEl g x.c t x.dpos.toNat) ((qreg g a).map fun q => laRound q t x.mode.toNat x.sat)
/-- `qstat` (R256). -/
def execQstat (x : QTwo) (s : State) : Out :=
  let j := repNow s
  let dst := regs true x.d x.c.stepD j
  let a := regNo x.a x.c.stepA 1 j
  laneOp s x.c (laUse dst [] [a] [a] x.c.pred) fun g ex =>
    putWide g true (dst.headD 0) ex ((qreg g a).map fun q => BitVec.ofNat 64 ((laStatus q).toNat + 2 ^ 32 * q.low.toNat))
/-- `qseg` (R256). -/
def execQseg (x : QSegArgs) (s : State) : Out :=
  let j := repNow s
  let dst := regs true x.d x.c.stepD j
  let a := regNo x.a x.c.stepA 1 j
  laneOp s x.c (laUse dst [] [a] [a] x.c.pred) fun g ex =>
    putWide g true (dst.headD 0) ex ((qreg g a).map fun q => BitVec.ofNat 64 (laValue q / 2 ^ (64 * x.n.toNat)))
/-- The addresses of `qspill` and `qfill` (R260). -/
def spillAddrs (g : Group) (x : QMemArgs) : List (Word × Bool) := contAddrs g x.base x.off 128
/-- The trap of a scratchpad base of `qspill` and `qfill` (R232, R260). -/
def spillTrap (s : State) (x : QMemArgs) : Option Nat := memTrap s ⟨x.sp, false, false, false, 0⟩ (contBase s x.base x.off)
/-- `qspill` (R260). -/
def execQspill (x : QMemArgs) (s : State) : Out :=
  let q := regNo x.q x.c.stepA 1 (repNow s)
  memIssue s x.c (memUse [] [] [q] [q] x.c.pred false (spillTrap s x)) fun g =>
    ⟨.spill x.norm, x.c.rep.toNat, x.sp, false, false, 1024, [], [q], spillAddrs g x, []⟩
/-- `qfill` (R260). -/
def execQfill (x : QMemArgs) (s : State) : Out :=
  let q := regNo x.q x.c.stepD 1 (repNow s)
  memIssue s x.c (memUse [] [] [q] [] x.c.pred false (spillTrap s x)) fun g =>
    ⟨.fill, x.c.rep.toNat, x.sp, false, false, 1024, [q], [], spillAddrs g x, []⟩

end Sys2Proof.Machine
end

