-- ==== Sys2Proof/Machine/Slots.lean ====
section
/-! DEFINITION. The slot table's choice (R314, R318, R319): which partitions and groups of a quarter may issue or enter in a cycle. -/

namespace Sys2Proof.Machine

open Sys2Proof

/-- The field of a quarter in the live entry of this cycle (R314). -/
def slotField (s : State) (c q : Nat) : BitVec 5 := (tget slotReset (core s c).live (walkIndex s c)).extractLsb' (5 * q) 5
/-- Whether a partition may issue (R314). -/
def mayIssue (s : State) (p : Nat) : Bool := partEnabled s p && !partResetting s p
/-- The partitions whose groups may issue in a quarter this cycle, in the order in which they are tried (R314, R318). -/
def slotOrder (s : State) (c q : Nat) : List Nat :=
  let f := slotField s c q
  let p := bits f 3 0
  if f.getLsbD 4 = false then []
  else
    let others := if tget false (core s c).donate p && !partResetting s p then (List.range 15).map fun k => (p + 1 + k) % 16 else []
    (p :: others).filter (mayIssue s)
/-- The live groups of a core's quarter. -/
def quarterGroups (s : State) (c q : Nat) : List Nat :=
  (s.work.groups.filter fun e => e.2.live && (team s e.2.team).core == c && e.2.no % 4 == q).map (·.1)
/-- The group with the smallest time, then the lowest physical slot (R314, R319). -/
def oldest (s : State) (time : Group → Nat) (gs : List Nat) : Option Nat :=
  gs.foldl (fun a g => match a with
    | none => some g
    | some b =>
      let x := group s g
      let y := group s b
      if time x < time y ∨ (time x = time y ∧ x.phys < y.phys) then some g else some b) none
/-- The group chosen in a quarter this cycle among those that are ready (R314). -/
def slotChoice (s : State) (c q : Nat) (ready : Nat → Bool) (time : Group → Nat) : Option Nat :=
  let gs := (quarterGroups s c q).filter ready
  (slotOrder s c q).findSome? fun p => oldest s time (gs.filter fun g => partOf s g == p)

end Sys2Proof.Machine
end

