-- ==== Sys2Proof/Machine/Tiles.lean ====
section
/-! DEFINITION. Tile instructions, class 111 (R261 to R277): the checks at issue, entry into the tile queue (R319), the turn, commit and abandonment. -/

namespace Sys2Proof.Machine

open Sys2Proof

/-- The counter, ordering and scope of a tile instruction (R263). -/
def tileCtl : TileIns → Option TileCtl
  | .tmma x => some x.c | .tcsum x => some x.c | .tconv x => some x.c | .tasum x => some x.c | .tzero x => some x.c
  | .tload x => some x.c | .tstore x => some x.c | .tepi x => some x.c | .tstage x => some x.c
  | .tres _ => none | .trel _ => none
/-- K of an A type's class, and the element format it requires (R263, R271). -/
def tileClass (t : TCode) : Nat × Nat :=
  match t.toNat with
  | 0xC => (64, 0x9) | 0xB => (64, 0x8) | 0x1 => (128, 0x2) | 0x5 => (128, 0x2) | 0xD => (128, 0xA) | 0xE => (128, 0xB)
  | _ => (256, 0x1)
/-- Whether a descriptor has a shape of rows and columns. -/
def tdIs (t : TileDesc) (rows cols : Nat) : Bool := tdRows t == rows && tdCols t == cols
/-- Whether a descriptor lies in the scratchpad or in memory. -/
def tdPlain (t : TileDesc) : Bool := tdSpace t == 0 || tdSpace t == 3
/-- Role C (R263). -/
def roleC (d : Desc) (t : TileDesc) : Bool := tdSpace t == 1 && tdIs t 32 32 && tdFmt t == 0xD && tdCheck d t false
/-- Role A of a multiply (R263). -/
def roleA (d : Desc) (t : TileDesc) (ta : TCode) : Bool :=
  tdSpace t == 0 && tdIs t 32 (tileClass ta).1 && tdFmt t == (tileClass ta).2 && tdCheck d t false
/-- Role of a checksum destination (R263). -/
def roleSum (d : Desc) (t : TileDesc) : Bool := tdPlain t && tdIs t 2 32 && tdFmt t == 7 && tdCheck d t true
/-- Whether each tile register operand of an instruction keeps R60 and its role (R263). -/
def rolesOk (d : Desc) (r : Nat → TileDesc) : TileIns → Bool
  | .tmma x => roleC d (r x.tc.toNat) && roleA d (r x.a.toNat) x.ta
  | .tcsum x => roleC d (r x.tc.toNat) && roleA d (r x.a.toNat) x.ta && roleSum d (r x.x.toNat)
  | .tconv x => roleC d (r x.tc.toNat) && roleA d (r x.a.toNat) x.ta && tdStride (r x.a.toNat) == 0 && tdShape (r x.a.toNat) != 0
  | .tasum x => roleSum d (r x.d.toNat) && roleC d (r x.a.toNat)
  | .tzero x => roleC d (r x.d.toNat)
  | .tload x =>
    let t := r x.a.toNat
    let f := tdFmt t
    roleC d (r x.d.toNat) && tdPlain t && tdIs t 32 32 && f != 0xC && tdCheck d t false && (!x.n || decide (f ≤ 5))
  | .tstore x => roleC d (r x.a.toNat) && tdPlain (r x.d.toNat) && tdIs (r x.d.toNat) 32 32 && tdFmt (r x.d.toNat) == 0xD && tdCheck d (r x.d.toNat) true
  | .tepi x =>
    let t := r x.d.toNat
    let v := r x.ts.toNat
    roleC d (r x.a.toNat) && tdPlain t && tdIs t 32 32 && decide (tdFmt t ≤ 0xB) && tdCheck d t true && (!x.n || decide (tdFmt t ≤ 5)) &&
    (x.scale == 0 || (tdPlain v && tdIs v 1 32 && tdFmt v == 7 && tdCheck d v false))
  | .tstage x =>
    let t := r x.a.toNat
    let o := r x.d.toNat
    tdPlain t && tdFmt t != 0xD && tdCheck d t false && tdSpace o == 2 && tdFmt o != 0xD && tdCheck d o true &&
    tdRows t == tdRows o && tdRowBytes t == tdRowBytes o
  | .tres _ => true
  | .trel _ => true
/-- What a `tres` register pair breaks (R268): a bit that must be zero, or a limit. -/
def resTrap (a b : Word) : Option Nat :=
  let f := bits a 40 37
  let klen := bits a 56 41
  let len := bits a 36 18
  let base := bits a 17 0
  let ss := bits b 35 18
  let sc := bits b 17 0
  if bits a 63 57 ≠ 0 ∨ bits b 63 36 ≠ 0 then some 1
  else if [0x1, 0x2, 0x8, 0x9, 0xA, 0xB, 0xC].contains f = false ∨ klen = 0 ∨ len % 256 ≠ 0 ∨ len < 256 ∨ 262144 < len ∨
      base % 256 ≠ 0 ∨ 262144 < base + len then some 5
  else if f = 0xC then
    (if klen % 64 ≠ 0 ∨ 65472 < klen ∨ sc = 0 ∨ ss % 4 ≠ 0 ∨ ss ≤ sc ∨ len ≤ ss then some 5 else none)
  else if ss ≠ 0 ∨ sc ≠ 0 then some 5 else none
/-- The captured scalars that a tile instruction reads (R261). -/
def tileScalars (x : Group) : TileIns → Word × Word
  | .tconv m => (captured x m.x, 0)
  | .tres m => (captured x m.a, captured x m.b)
  | _ => (0, 0)
/-- The scope trap of a tile instruction, a pattern rule of the first step of its checks (R25, R261, R263). -/
def tileScope (s : State) (g : Nat) (i : TileIns) : Bool :=
  match tileCtl i with
  | some c => (c.acq || c.rel) && scopeBad s g c.scope
  | none => false
/-- The lowest cause with which a tile instruction traps in the last step of its checks (R261, R268, R273). -/
def tileTrap (s : State) (g : Nat) (i : TileIns) : Option Nat :=
  let x := group s g
  let (a, b) := tileScalars x i
  let own := match i with
    | .tconv _ => if bits a 63 32 ≠ 0 then some 1 else none
    | .tres _ => resTrap a b
    | _ => none
  own <|> (if rolesOk (descOf s g) (treg x) i then none else some 5)
/-- The trap of a tile instruction at its issue, of the tile source (R343, R344). -/
def tileIllegal (s : State) (g cause : Nat) : State := raiseLane s g (illegalLaneRec s g cause 2)
/-- The shape record that a `tconv` reads at its issue (R120). -/
def issuedShape (s : State) (g : Nat) : TileIns → Option (List Byte)
  | .tconv m => (shapeOf s (partOf s g) (tdShape (treg (group s g) m.a.toNat))).map (·.bytes)
  | _ => none
/-- A tile instruction is issued (R261): its checks in order, then it waits for entry. One that was abandoned keeps its raised counters and what it captured (R265); a handler's waits for that of the interrupted context (R347). Where the poison of a tile register stands among the checks the manual does not say: it is looked at last, after the mask, the scope and the roles (DESIGN CHOICE, log 24). -/
def tileIssue (i : TileIns) (s : State) : Out :=
  onGroup s fun g =>
    let x := group s g
    let again := x.fly.tile.any fun t => t.phase == .abandoned
    if (x.fly.tile.isSome && !again) || (frameTile x).isSome then s
    else if stopsRunOn x { Use.lanes [] [] 0 with cross := true } then modGroup s g fun x => { x with lane := { x.lane with stopped := true } }
    else if tileScope s g i then tileIllegal s g 4
    else if x.lane.mask ≠ x.lane.start then raiseLane s g ⟨3, 0, BitVec.ofNat 8 (accessByte false false false 2), 0xFF, 0, x.lane.lpc⟩
    else match tileTrap s g i with
      | some c => tileIllegal s g c
      | none => match (tileRegs i).find? fun n => poisoned x 4 n 0 with
        | some n => raiseLane s g (poisonRec (4, n) 2)
        | none =>
          let r := fun k => match (tileRegs i)[k]? with
            | some n => treg x n
            | none => 0
          let (a, b) := tileScalars x i
          let old := x.fly.tile
          let shape := (old.bind fun t => if t.raised then t.shape else none) <|> issuedShape s g i
          let op : TileOp := ⟨i, r 0, r 1, r 2, a, b, .waiting, old.any (·.raised), (old.map (·.op)).getD 0, cycleOf s (coreOf s g), [], none, shape⟩
          modGroup s g fun x => { x with fly := { x.fly with tile := some op } }
/-- `tmma` (R271). -/
def execTmma (x : MulArgs) (s : State) : Out := tileIssue (.tmma x) s
/-- `tcsum` (R272). -/
def execTcsum (x : MulArgs) (s : State) : Out := tileIssue (.tcsum x) s
/-- `tconv` (R273). -/
def execTconv (x : MulArgs) (s : State) : Out := tileIssue (.tconv x) s
/-- `tasum` (R274). -/
def execTasum (x : MoveArgs) (s : State) : Out := tileIssue (.tasum x) s
/-- `tzero` (R275). -/
def execTzero (x : MoveArgs) (s : State) : Out := tileIssue (.tzero x) s
/-- `tload` (R275). -/
def execTload (x : MoveArgs) (s : State) : Out := tileIssue (.tload x) s
/-- `tstore` (R275). -/
def execTstore (x : MoveArgs) (s : State) : Out := tileIssue (.tstore x) s
/-- `tepi` (R277). -/
def execTepi (x : EpiArgs) (s : State) : Out := tileIssue (.tepi x) s
/-- `tstage` (R276). -/
def execTstage (x : MoveArgs) (s : State) : Out := tileIssue (.tstage x) s
/-- `tres` (R268). -/
def execTres (x : ResArgs) (s : State) : Out := tileIssue (.tres x) s
/-- `trel` (R269). -/
def execTrel (n : BitVec 4) (s : State) : Out := tileIssue (.trel n) s

/-- The LPC of the tile instruction with which the engine deals (R262). -/
def tileLpc (x : Group) : Word := if (frameTile x).isSome then ((x.handler.map (·.lane.lpc)).getD 0) else x.lane.lpc
/-- An event of a core's matrix engine (R393, R401); a save's holds nothing back (R403). -/
def tileEventHold (s : State) (g code : Nat) (hold : Bool) : State :=
  let c := coreOf s g
  eventRecord s (partOf s g) (c / 64) 2 (c % 64) code (varint (group s g).phys ++ varint ((tileLpc (group s g)).toNat / 4)) hold
/-- An event of a core's matrix engine that holds the engine back while its record finds no room (R401, R403). -/
def tileEvent (s : State) (g code : Nat) : State := tileEventHold s g code true
/-- The record of a tile instruction that breaks a rule at its turn: its three words (R344). -/
def illegalTileRec (s : State) (g cause : Nat) : FaultRec :=
  let lpc := tileLpc (group s g)
  let asn := if (frameTile (group s g)).isSome then (descOf s g).asn else fetchAsn s g
  let word := fun (k : Nat) => match tlbFind (die s (ownerOf lpc)) (partOf s g) asn (pageOf (lpc + BitVec.ofNat 64 (4 * k))) with
    | some e => ofLe (mread s.mem (leafFlat e.leaf e.level (lpc + BitVec.ofNat 64 (4 * k))) 4)
    | none => 0
  ⟨0, cause, BitVec.ofNat 8 (accessByte false false false 2), 0xFF, BitVec.ofNat 32 (word 0), BitVec.ofNat 64 (word 1 + 2 ^ 32 * word 2)⟩
/-- Whether a group's tile instruction waits for entry and could raise its counters (R261). -/
def wantsEntry (s : State) (g : Nat) : Bool :=
  let x := group s g
  (tileOf x).any fun t => t.phase == .waiting &&
    (t.raised || (decide (x.cnt.tiles < 0xFFFF) && (tileCounter t.ins).all fun k => decide (kcount x k < 0xFFFF)))
/-- The group whose tile instruction enters a core's queue in this cycle (R319). -/
def entryChoice (s : State) (c : Nat) : Option Nat :=
  if Config.tileQueueDepth ≤ (core s c).queue.length then none
  else (List.range 4).findSome? fun k =>
    slotChoice s c ((walkIndex s c + k) % 4) (wantsEntry s) fun x => ((tileOf x).map (·.since)).getD 0
/-- `TILE_QUEUE_ENTRY` (R261, R319): the counters are raised and the instruction joins the queue. -/
def tileEnter (s : State) (g : Nat) : State :=
  if entryChoice s (coreOf s g) ≠ some g then s
  else match tileOf (group s g) with
    | none => s
    | some t =>
      let (op, s) := if t.raised then (t.op, s) else newName s
      let x := group s g
      let x := if t.raised then x
        else
          let x := { x with cnt := { x.cnt with tiles := x.cnt.tiles + 1 } }
          match tileCounter t.ins with
          | some k => raiseK x k op
          | none => x
      let t' : TileOp := { t with phase := .queued, raised := true, op := op }
      let s := setGroup s g (putTile x (some t'))
      tileEvent (modCore s (coreOf s g) fun k => { k with queue := k.queue ++ [g] }) g 3

/-- A tile instruction is abandoned: it leaves the queue, its counters stay raised (R265). `hold` is false for a save, which holds no record back (R403). -/
def abandonTile (s : State) (g : Nat) (hold : Bool) : State :=
  match tileOf (group s g) with
  | none => s
  | some t =>
    let on := t.phase == .queued || t.phase == .running
    let s := if on then tileEventHold s g 5 hold else s
    let s := modCore (clearFaults s (.tile g)) (coreOf s g) fun k => { k with queue := k.queue.filter (· != g) }
    modGroup s g fun x => putTile x (some { t with phase := .abandoned, swaps := [], clobber := none })
/-- The record of a tile instruction becomes pending (R266, R345); one of a handler's own ends the launch (R347). -/
def tilePend (s : State) (g : Nat) (own : Bool) (r : FaultRec) : State :=
  if own then unhandled s g (0x8000 + r.cls)
  else modGroup s g fun x => { x with pend := { x.pend with tile := some r, order := x.pend.order ++ [1] } }
/-- Whether the engine deals with a tile instruction that a handler has issued (R347). -/
def handlersOwn (x : Group) : Bool := inHandler x && (frameTile x).isNone
/-- A tile instruction faults at its turn (R266). -/
def tileFault (s : State) (g : Nat) (r : FaultRec) : State := tilePend (abandonTile s g true) g (handlersOwn (group s g)) r
/-- A record of the tile source (R344). -/
def tileRec (cls cause : Nat) (w : Bool) (addr : Word) : FaultRec := mkRec cls cause (accessByte false w (!w) 2) addr

/-- Slot (i, j) of an accumulator tile as an index of the banks (R103). -/
def cellOf (tile i j : Nat) : Nat := tile * 1024 + 32 * i + j
/-- The live slots of a tile in row-major order (R264). -/
def liveTile (t : Team) (tile : Nat) : List LA := (List.range 1024).map fun k => tget LA.zero t.acc (tile * 1024 + k)
/-- The mark of a poisoned slot among a team's poisoned units (R359). -/
def slotMark (tile k : Nat) : Nat := 2 ^ 32 + tile * 1024 + k
/-- Whether a tile holds a poisoned slot (R266, R359). -/
def tilePoisoned (t : Team) (tile : Nat) : Bool := t.poison.any fun p => decide (slotMark tile 0 ≤ p ∧ p < slotMark tile 1024)
/-- The shadow bank of a tile written whole (R264). -/
def putShadow (t : Team) (tile : Nat) (v : List LA) : Team :=
  { t with shadow := v.zipIdx.foldl (fun a e => tput LA.zero a (tile * 1024 + e.2) e.1) t.shadow }
/-- Live and shadow banks of a tile exchanged (R264). -/
def swapTile (t : Team) (tile : Nat) : Team :=
  let mine := fun (e : Nat × LA) => decide (tile * 1024 ≤ e.1 ∧ e.1 < tile * 1024 + 1024)
  let swap := fun (a b : Tab LA) => (b.filter mine).foldl (fun a e => tput LA.zero a e.1 e.2) (a.filter fun e => !mine e)
  { t with acc := swap t.acc t.shadow, shadow := swap t.shadow t.acc,
           poison := t.poison.filter fun p => !decide (slotMark tile 0 ≤ p ∧ p < slotMark tile 1024) }

/-- What a turn gives: nothing yet, a fault, or a result (R264, R266). -/
inductive TurnRes where
  | wait
  | fault (r : FaultRec)
  | ok (swaps : List (Nat × List LA)) (out : Option (TileDesc × List Byte))
  deriving DecidableEq, Repr

/-- The whole of a source descriptor, or what stops it (R266, R267). -/
def tileRead (s : State) (g : Nat) (t : TileDesc) : State × (List Byte ⊕ Option FaultRec) :=
  match readDesc s (whoOf s g (.tile g)) (group s g).team t 0 (tdBytes t) with
  | (s, .ok bs) => (s, .inl bs)
  | (s, .wait) => (s, .inr none)
  | (s, .suspend a) => (s, .inr (some (tileRec 4 0 false a)))
  | (s, .fault c k a) => (s, .inr (some (tileRec c k false a)))
/-- Elements of a source read, then a result from them. -/
def withElems (s : State) (g : Nat) (t : TileDesc) (k : State → List Nat → State × TurnRes) : State × TurnRes :=
  match tileRead s g t with
  | (s, .inl bs) => k s (elemsOf (fmtBits (tdFmt t)) bs)
  | (s, .inr none) => (s, .wait)
  | (s, .inr (some r)) => (s, .fault r)

/-- The record of an operand of a multiply, and its fields (R268). -/
structure BRec where
  base : Nat
  len : Nat
  fmt : Nat
  klen : Nat
  sc : Nat
  ss : Nat
/-- The fields of a reservation record's two words (R268). -/
def bRec (w : Word × Word) : BRec := ⟨bits w.1 17 0, bits w.1 36 18, bits w.1 40 37, bits w.1 56 41, bits w.2 17 0, bits w.2 35 18⟩
/-- Whether a B type suits a record's format (R271). -/
def bSuits (tb : TCode) (f : Nat) : Bool :=
  match tb.toNat with
  | 0xC => f == 0x9 || f == 0xC
  | 0xB => f == 0x8
  | 0x1 => f == 0x2 | 0x5 => f == 0x2 | 0xD => f == 0xA | 0xE => f == 0xB
  | _ => f == 0x1
/-- The bits of element s of an operand (R270); a QN4 code is expanded (R83). -/
def bElem (ob : Tab Byte) (r : BRec) (n : Nat) : Nat :=
  let byte := fun k => (mbyte ob (r.base + k)).toNat
  let nib := byte (n / 2) / 16 ^ (n % 2) % 16
  if r.fmt = 0xC then
    let b := n / 64
    qn4Expand nib (byte (r.sc + b)) (ofLe ((List.range 4).map fun i => mbyte ob (r.base + r.ss + 4 * (b / 256) + i)))
  else if r.fmt = 0x1 then nib
  else
    let w := fmtBits r.fmt / 8
    ofLe ((List.range w).map fun i => mbyte ob (r.base + n * w + i))
/-- The check of R270 on the largest storage index: the operand-buffer offset to record, if it fails. -/
def bLimit (r : BRec) (k0 kk last : Nat) : Option Nat :=
  let bits := fmtBits r.fmt
  let e := if r.fmt = 0xC then 2 * r.sc else r.len * 8 / bits
  let b := last / 64
  let bad := r.klen < k0 + kk ∨ e ≤ last ∨ (r.fmt = 0xC ∧ (r.ss - r.sc ≤ b ∨ r.len - r.ss ≤ 4 * (b / 256) + 3))
  if bad then some (r.base + last * bits / 8) else none
/-- Row i of A against column j of B: the exact products, ascending k (R271). -/
def dotValues (row col : List FVal) : List FVal := List.zipWith mulF row col
/-- A fold of contributions in order (R413). -/
def addAll (rank : Nat) (a : LA) (vs : List FVal) : LA := vs.foldl (fun a v => laAdd a v rank) a
/-- Rounded to an FP32 element (R272, R274). -/
def roundCell (a : LA) : Nat := laRound a (.flt f32) 0 false
/-- The poison record of a tile's slots: register kind 3, the tile's index (R344, log 22). -/
def slotPoison (tile : Nat) : FaultRec := poisonRec (3, tile % 256) 2

/-- The operand of a multiply from its record, checked (R270): the K × 32 values by column, or what stops the turn. -/
def bColumns (s : State) (g : Nat) (x : MulArgs) : List (List FVal) ⊕ FaultRec :=
  let t := team s (group s g).team
  let w := tget (0, 0) t.recs x.rec4.toNat
  let r := bRec w
  let kk := (tileClass x.ta).1
  let n0 := 32 * x.nb.toNat
  let k0 := kk * x.kb.toNat
  if w = (0, 0) ∨ bSuits x.tb r.fmt = false then .inr (illegalTileRec s g 5)
  else match bLimit r k0 kk ((n0 + 31) * r.klen + k0 + kk - 1) with
    | some a => .inr (tileRec 7 0 false (BitVec.ofNat 64 a))
    | none => .inl ((List.range 32).map fun j => (List.range kk).map fun k =>
        valueC (ctypeOf x.tb) (bElem t.obuf r ((n0 + j) * r.klen + k0 + k)))
/-- A multiply with its A elements known (R271, R272): C's shadow slots and, for `tcsum`, the checksum bytes. -/
def multiply (s : State) (g : Nat) (t : TileOp) (x : MulArgs) (sums : Bool) (a : List Nat) : State × TurnRes :=
  match bColumns s g x with
  | .inr r => (s, .fault r)
  | .inl cols =>
    let tm := team s (group s g).team
    let tile := tdBase t.tc
    let rank := contributor s g
    let kk := (tileClass x.ta).1
    let rows := (List.range 32).map fun i => ((a.drop (i * kk)).take kk).map (valueC (ctypeOf x.ta))
    let live := liveTile tm tile
    if tilePoisoned tm tile then (s, .fault (slotPoison tile))
    else
      let prod := rows.map fun r => cols.map fun c => dotValues r c
      let cells := List.zipWith (addAll rank) live prod.flatten
      let out := if sums then
          let rs := prod.map fun row => roundCell (addAll rank LA.zero row.flatten)
          let cs := (List.range 32).map fun j => roundCell (addAll rank LA.zero (prod.flatMap fun row => row.getD j []))
          some (t.ts, bytesOf 32 (rs ++ cs))
        else none
      (s, .ok [(tile, cells)] out)

/-- One generated element of `tconv`'s A: padding, or an element of the tensor by its index from the base (R273). -/
def convElem (r : List Byte) (p q : Nat) : Option Nat :=
  let c := shDim r 0
  let w := shDim r 1
  let h := shDim r 2
  let n := if shRank r = 4 then shDim r 3 else 1
  let f := fun i => fieldAt r i 1
  let ow := ((w + 2 * f 62 : Nat) - f 60 * (f 56 - 1) - 1) / f 58 + 1
  let oh := ((h + 2 * f 63 : Nat) - f 61 * (f 57 - 1) - 1) / f 59 + 1
  let tap := q / c
  let x : Int := (p % ow * f 58 + tap % f 56 * f 60 : Nat) - (f 62 : Nat)
  let y : Int := (p / ow % oh * f 59 + tap / f 56 * f 61 : Nat) - (f 63 : Nat)
  if ow * oh * n ≤ p ∨ f 56 * f 57 * c ≤ q ∨ x < 0 ∨ (w : Int) ≤ x ∨ y < 0 ∨ (h : Int) ≤ y then none
  else some (q % c * shStride r 0 + x.toNat * shStride r 1 + y.toNat * shStride r 2 + p / (ow * oh) * shStride r 3)
/-- Whether p and q lie in the output and the window: an element outside the tensor is then padding, else zero (R273). -/
def convInside (r : List Byte) (p q : Nat) : Bool :=
  let f := fun i => fieldAt r i 1
  let ow := ((shDim r 1 + 2 * f 62 : Nat) - f 60 * (f 56 - 1) - 1) / f 58 + 1
  let oh := ((shDim r 2 + 2 * f 63 : Nat) - f 61 * (f 57 - 1) - 1) / f 59 + 1
  let n := if shRank r = 4 then shDim r 3 else 1
  decide (p < ow * oh * n) && decide (q < f 56 * f 57 * shDim r 0)
/-- Whether OW or OH is below 1 (R273). -/
def convEmpty (r : List Byte) : Bool :=
  let f := fun i => fieldAt r i 1
  decide (shDim r 1 + 2 * f 62 < f 60 * (f 56 - 1) + 1) || decide (shDim r 2 + 2 * f 63 < f 61 * (f 57 - 1) + 1)
/-- The turn of `tconv` (R273), with the record read at its issue (R120). -/
def convTurn (s : State) (g : Nat) (t : TileOp) (x : MulArgs) : State × TurnRes :=
  let h := tdShape t.ta
  let tm := team s (group s g).team
  match t.shape with
  | none => (s, .fault (staleRec 0 2 h))
  | some r =>
    let w := fmtBits (tdFmt t.ta)
    if shapeOk r = false ∨ shConv r = false ∨ (shRank r ≠ 3 ∧ shRank r ≠ 4) ∨ shFmt r ≠ tdFmt t.ta ∨ convEmpty r then
      (s, .fault (illegalTileRec s g 5))
    else
      let kk := (tileClass x.ta).1
      let k0 := kk * x.kb.toNat
      let places := (List.range 32).flatMap fun i => (List.range kk).map fun k => (t.x.toNat + i, k0 + k)
      let at_ := places.map fun e => (convElem r e.1 e.2, convInside r e.1 e.2)
      let lim := (descOf s g).s
      let first := fun n => tdAddr t.ta + n * w / 8
      let last := fun n => tdAddr t.ta + (n * w + w - 1) / 8
      let used := at_.filterMap (·.1)
      let beyond := (used.filter fun n => decide (lim ≤ last n)).map fun n => max (first n) lim
      match beyond, (match bColumns s g x with | .inr r => some r | .inl _ => none) with
      | _, some r => (s, .fault r)
      | a :: rest, none => (s, .fault (tileRec 7 0 false (BitVec.ofNat 64 (rest.foldl min a))))
      | [], none =>
        match (used.filterMap fun n => scratchPoison tm (first n) (max 1 (w / 8))) with
        | a :: rest => (s, .fault (tileRec 8 0 false (BitVec.ofNat 64 (rest.foldl min a))))
        | [] =>
          let pad := fieldAt r 52 4
          let value := fun n => if w = 4 then (tget 0 tm.scratch (first n)).toNat / 16 ^ (n % 2) % 16 else ofLe (scratchRead tm (first n) (w / 8))
          multiply s g t x false (at_.map fun (e : Option Nat × Bool) => match e with
            | (some n, _) => value n
            | (none, true) => pad
            | (none, false) => 0)

/-- `tres` takes effect (R268): its code, and the reservation with its bytes cleared. -/
def resEffect (s : State) (g : Nat) (t : TileOp) (x : ResArgs) : State :=
  let tid := (group s g).team
  let c := coreOf s g
  let mates := s.work.teams.filter fun e => e.2.live && e.2.core == c
  let (base, len) := reservedRange (t.x, t.y)
  let code : Nat := if tget (0, 0) (team s tid).recs x.n.toNat ≠ (0, 0) then 1
    else if mates.any fun e => e.2.recs.any fun w => rangesMeet (t.x, t.y) w.2 then 2
    else if 16 ≤ (mates.map fun e => e.2.recs.length).foldl (· + ·) 0 then 3 else 0
  let s := if code = 0 then modTeam s tid fun y =>
      { y with recs := tput (0, 0) y.recs x.n.toNat (t.x, t.y), obuf := mclear y.obuf base len } else s
  modGroup s g fun y => setSregOf y (40 + x.d.toNat) (BitVec.ofNat 64 code)
/-- `trel` takes effect (R269): the record is freed and its bytes are lost. -/
def relEffect (s : State) (g n : Nat) : State :=
  let tid := (group s g).team
  let (base, len) := reservedRange (tget (0, 0) (team s tid).recs n)
  modTeam s tid fun y => { y with recs := tput (0, 0) y.recs n (0, 0), obuf := mclear y.obuf base len }
/-- What a tile instruction does as one step at its commit: banks are exchanged, reservations change (R264, R265, R268, R269). The turn has filled the shadow banks; an error that has struck one since is overwritten (R299). -/
def commitEffect (s : State) (g : Nat) (t : TileOp) : State :=
  match t.ins with
  | .tres x => resEffect s g t x
  | .trel n => relEffect s g n.toNat
  | _ => modTeam s (group s g).team fun y => t.swaps.foldl (fun y e => swapTile (putShadow y e.1 e.2) e.1) y

/-- The turn of `tload` (R275). -/
def loadTurn (s : State) (g : Nat) (t : TileOp) (x : MoveArgs) : State × TurnRes :=
  let tile := tdBase t.tc
  let tm := team s (group s g).team
  let rank := contributor s g
  if x.add && tilePoisoned tm tile then (s, .fault (slotPoison tile))
  else
    let old := if x.add then liveTile tm tile else List.replicate 1024 LA.zero
    if tdFmt t.ta = 0xD then
      match tileRead s g t.ta with
      | (s, .inl bs) =>
        let recs := (List.range 1024).map fun k => laOfBytes ((bs.drop (128 * k)).take 128)
        (s, .ok [(tile, if x.add then List.zipWith laMerge old recs else recs)] none)
      | (s, .inr none) => (s, .wait)
      | (s, .inr (some r)) => (s, .fault r)
    else match fmtType (tdFmt t.ta) (!x.n) with
      | none => (s, .fault (illegalTileRec s g 5))
      | some ty => withElems s g t.ta fun s es =>
          (s, .ok [(tile, List.zipWith (fun a e => laAdd a (valueC ty e) rank) old es)] none)
/-- The turn of `tepi` (R277); `scale` gives the factor of each slot. -/
def epiTurn (s : State) (g : Nat) (t : TileOp) (x : EpiArgs) : State × TurnRes :=
  let tile := tdBase t.ta
  let tm := team s (group s g).team
  let swaps := if x.clr then [(tile, List.replicate 1024 LA.zero)] else []
  let round := fun (s : State) (sc : Nat → FVal → FVal) => match fmtType (tdFmt t.tc) (!x.n) with
    | none => (s, TurnRes.fault (illegalTileRec s g 5))
    | some ty => (s, TurnRes.ok swaps (some (t.tc, bytesOf (fmtBits (tdFmt t.tc))
        ((liveTile tm tile).zipIdx.map fun e => roundC ty x.mode.toNat x.sat (sc e.2 (laReal e.1))))))
  if tilePoisoned tm tile then (s, .fault (slotPoison tile))
  else if x.scale = 0 then round s fun _ v => v
  else withElems s g t.ts fun s es =>
    round s fun k v => mulF v (decodeF f32 (es.getD (if x.scale = 1 then k / 32 else k % 32) 0))
/-- What a tile instruction does at its turn, before anything is written (R264, R271 to R277). Where several faults of R266 apply to it the manual orders none before another: `tmma` and `tcsum` read A, poison included, before the record's checks of R270, `tconv` checks the records before A's bounds and poison (DESIGN CHOICE, log 22). -/
def turnResult (s : State) (g : Nat) (t : TileOp) : State × TurnRes :=
  let tm := team s (group s g).team
  let ofLive := fun (tile : Nat) (k : List LA → State × TurnRes) =>
    if tilePoisoned tm tile then (s, TurnRes.fault (slotPoison tile)) else k (liveTile tm tile)
  match t.ins with
  | .tmma x => withElems s g t.ta fun s es => multiply s g t x false es
  | .tcsum x => withElems s g t.ta fun s es => multiply s g t x true es
  | .tconv x => convTurn s g t x
  | .tasum _ => ofLive (tdBase t.ta) fun live =>
      let merge := fun (l : List LA) => roundCell (l.foldl laMerge LA.zero)
      let rows := (List.range 32).map fun i => merge ((live.drop (32 * i)).take 32)
      let cols := (List.range 32).map fun j => merge ((List.range 32).map fun i => live.getD (32 * i + j) LA.zero)
      (s, .ok [] (some (t.tc, bytesOf 32 (rows ++ cols))))
  | .tzero _ => (s, .ok [(tdBase t.tc, List.replicate 1024 LA.zero)] none)
  | .tload x => loadTurn s g t x
  | .tstore x => ofLive (tdBase t.ta) fun live =>
      (s, .ok [] (some (t.tc, live.flatMap fun a => laBytes (if x.n then laNorm a else a))))
  | .tepi x => epiTurn s g t x
  | .tstage _ => match tileRead s g t.ta with
      | (s, .inl bs) => (s, .ok [] (some (t.tc, bs)))
      | (s, .inr none) => (s, .wait)
      | (s, .inr (some r)) => (s, .fault r)
  | .tres _ => (s, .ok [] none)
  | .trel _ => (s, .ok [] none)

/-- Whether it is a queued tile instruction's turn: every earlier entry of its team has committed (R264). -/
def isTurn (s : State) (g : Nat) : Bool :=
  let x := group s g
  ((tileOf x).any fun t => t.phase == .queued) &&
  (((core s (coreOf s g)).queue.takeWhile (· != g)).all fun h => (group s h).team != x.team)
/-- Memory runs of a descriptor, for the granules that a tile store writes whole (R359). -/
def descFlat (s : State) (who : Who) (t : TileDesc) : List (Nat × Nat) :=
  if s.bad.isEmpty ∨ tdSpace t ≠ 3 then []
  else flatRuns s who t (descRuns t 0 (tdBytes t))
/-- The output of a turn is written, once every byte of it can be (R266, R267): the first suppressed byte, or what stops it. -/
def tileWrite (s : State) (g : Nat) (t : TileDesc) (bs : List Byte) : State × (Option Word ⊕ Option FaultRec) :=
  let who := whoOf s g (.tile g)
  let tm := (group s g).team
  match probeRuns s who tm t (descRuns t 0 bs.length) with
  | (s, .ok _) =>
    let (s, c) := writeDesc s who tm t 0 bs
    (cleanBad s (descFlat s who t), .inl c)
  | (s, .wait) => (s, .inr none)
  | (s, .suspend a) => (s, .inr (some (tileRec 4 0 true a)))
  | (s, .fault c k a) => (s, .inr (some (tileRec c k true a)))
/-- `TILE_TURN` (R264, R266): operands are read and checked, results go to the shadow banks and to the destination. -/
def tileTurn (s : State) (g : Nat) : State :=
  match tileOf (group s g) with
  | none => s
  | some t =>
    if !isTurn s g || waiting s (.tile g) then s
    else
      let run := fun (s : State) (swaps : List (Nat × List LA)) (c : Option Word) =>
        let s := modTeam (clearFaults s (.tile g)) (group s g).team fun y => swaps.foldl (fun y e => putShadow y e.1 e.2) y
        let t' : TileOp := { t with phase := .running, swaps := swaps, clobber := c.map (tileRec 9 0 true) }
        modGroup s g fun x => putTile x (some t')
      match turnResult s g t with
      | (s, .wait) => s
      | (s, .fault r) => tileFault s g r
      | (s, .ok swaps none) => run s swaps none
      | (s, .ok swaps (some (d, bs))) => match tileWrite s g d bs with
        | (s, .inl c) => run s swaps c
        | (s, .inr none) => s
        | (s, .inr (some f)) => tileFault s g f
/-- A committed tile instruction leaves its group, and the lane stream to which it belongs moves on: that of the interrupted context in the frame (R262, R347). -/
def tileDone (s : State) (g : Nat) : State :=
  let x := group s g
  let y := putTile x none
  if (frameTile x).isSome then setGroup s g { y with handler := y.handler.map fun f => { f with lane := advanceLane f.lane 0 } }
  else laneAdvance (setGroup s g y) g 0 (now s)
/-- `TILE_COMMIT` (R262, R264): banks are exchanged, counters fall, LPC advances; a suppressed byte is then reported (R266). -/
def tileCommit (s : State) (g : Nat) : State :=
  match tileOf (group s g) with
  | none => s
  | some t =>
    if t.phase ≠ .running then s
    else
      let own := handlersOwn (group s g)
      let s := tileEvent s g 4
      let s := commitEffect s g t
      let s := modCore s (coreOf s g) fun k => { k with queue := k.queue.filter (· != g) }
      let s := tileDone (setGroup s g (lowerTile (group s g) t (tileCounter t.ins))) g
      match t.clobber with
      | none => s
      | some r => tilePend s g own r
/-- `TILE_QUEUE_ENTRY` (R261, R319). -/
def execTileQueueEntry (g : Nat) (s : State) : Out := .next (tileEnter s g)
/-- `TILE_TURN` (R264). -/
def execTileTurn (g : Nat) (s : State) : Out := .next (tileTurn s g)
/-- `TILE_COMMIT` (R262). -/
def execTileCommit (g : Nat) (s : State) : Out := .next (tileCommit s g)

end Sys2Proof.Machine
end

