-- ==== Sys2Proof/Machine/Scalars.lean ====
section
/-! DEFINITION. What happens before a scalar instruction acts: the registers it names (R39, R148, R359), the wait for the lane stream (R39), poisoned operands (R359); and the meaning of each scalar instruction, for those that wait and start again (R175). -/

namespace Sys2Proof.Machine

open Sys2Proof

/-- s1 to s15, which a run record captures (R36). -/
def captureRegs : List SReg := (List.range 15).map fun i => BitVec.ofNat 6 (i + 1)
/-- The scalar registers that a scalar instruction reads, and those it writes (R148). A record of `lrun` and `lrunr` reads s1 to s15 (R37). -/
def scalarRegs : Instr → List SReg × List SReg
  | .sadd d a b | .ssub d a b | .sseq d a b | .ssne d a b | .sslt d a b | .ssltu d a b => ([a, b], [d])
  | .smin d a b | .sminu d a b | .smax d a b | .smaxu d a b | .sand d a b | .sor d a b => ([a, b], [d])
  | .sxor d a b | .sandn d a b | .sshl d a b | .sshr d a b | .ssra d a b | .srol d a b => ([a, b], [d])
  | .sror d a b | .smul d a b | .smulh d a b | .smulhu d a b | .sdiv d a b | .sdivu d a b => ([a, b], [d])
  | .srem d a b | .sremu d a b | .bput d a b | .bputw d a b | .barArrive d a b | .cobjDecl d a b => ([a, b], [d])
  | .creduce d a b | .callred d a b | .credscat d a b | .callgath d a b | .calltoall d a b | .cbcast d a b => ([a, b], [d])
  | .spreq d a b | .pmap d a b | .pgive d a b => ([a, b], [d])
  | .sclz d a | .sctz d a | .spopc d a | .sbswap d a | .ssx8 d a | .ssx16 d a => ([a], [d])
  | .ssx32 d a | .szx32 d a | .waitLd d a | .waitSt d a | .waitCp d a | .waitTl d a => ([a], [d])
  | .btake d a | .shalloc d a | .shtest d a | .cobjQuery d a | .cabort d a | .spget d a => ([a], [d])
  | .sslotr d a | .wldp d a | .efget d a => ([a], [d])
  | .saddi d a _ | .sandi d a _ | .sori d a _ | .sxori d a _ | .sslti d a _ | .sshli d a _ => ([a], [d])
  | .sshri d a _ | .ssrai d a _ | .srori d a _ | .kwait d a _ | .carve d a _ => ([a], [d])
  | .slui d _ => ([], [d])
  | .sshlo d _ => ([d], [d])
  | .sld d a _ _ _ | .sldAcq d a _ _ _ => ([a], [d])
  | .sst d a _ _ _ | .sstRel d a _ _ _ => ([d, a], [])
  | .sldX d a b _ _ | .sldRo d a b _ => ([a, b], [d])
  | .sstX d a b _ _ => ([d, a, b], [])
  | .samoSwap x | .samoAdd x | .samoAnd x | .samoOr x | .samoXor x | .samoMinI x => ([x.d, x.a], [x.d])
  | .samoMaxI x | .samoMinN x | .samoMaxN x => ([x.d, x.a], [x.d])
  | .samoCas x => ([x.d, x.d + 1, x.a], [x.d])
  | .wcasp d a b => ([d, a, b], [d])
  | .sfence _ | .sfenceAcq _ | .sfenceRel _ | .sjmp _ | .ljmp _ => ([], [])
  | .sexit | .lsync | .tsync | .eret => ([], [])
  | .sbr a _ _ => ([a], [])
  | .scall _ => ([], [63])
  | .scallr a => ([a], [63])
  | .sret => ([63], [])
  | .lrun _ => (captureRegs, [])
  | .lrunr a => (a :: captureRegs, [])
  | .sjr a | .ljmpr a | .barFree a | .barWait a | .bdrop a | .xcopy a => ([a], [])
  | .shfree a | .cobjFree a | .tsamp a | .sslotx a | .ekill a => ([a], [])
  | .sbarWait a _ => ([a], [])
  | .tsetb _ a | .tsets _ a => ([a], [])
  | .lmask d _ | .sget d _ | .tgetl d _ | .tgeth d _ | .sbarArrive d _ => ([], [d])
  | .lsumm d | .sgpl d => ([], [d])
  | .barInit a b | .bdecl a b | .tmark a b | .spset a b | .sslotw a b | .tlbroot a b => ([a, b], [])
  | .tlbinv a b | .tlbfill a b | .wentry a b | .efset a b => ([a, b], [])
  | .yieldc a b _ => ([a, b], [])
  | .tset _ a b => ([a, b], [])
  | .cobjMode _ a b => ([a, b], [])
  | _ => ([], [])
/-- Whether an instruction names one of s40 to s47 (R39). -/
def namesLaneScalar (i : Instr) : Bool :=
  ((scalarRegs i).1 ++ (scalarRegs i).2).any fun r => decide (40 ≤ r.toNat ∧ r.toNat ≤ 47)
/-- The tile register that an instruction reads into a scalar register (R199). -/
def readsTile : Instr → Option Nat
  | .tgetl _ t | .tgeth _ t => some t.toNat
  | _ => none
/-- The poisoned register that a scalar instruction reads (R359): its kind and number. -/
def scalarPoison (x : Group) (i : Instr) : Option (Nat × Nat) :=
  if x.poison.isEmpty then none
  else (((scalarRegs i).1.find? fun r => poisoned x 0 r.toNat 0).map fun r => (0, r.toNat)) <|>
    ((readsTile i).bind fun t => if poisoned x 4 t 0 then some (4, t) else none)
/-- What keeps a group's scalar instruction from acting, if anything does: the lane stream, or then a poisoned operand (R39, R359, log 6). A word that also has a bad scope, needs a higher level or belongs in a handler takes the poison fault first: the manual gives no order (DESIGN CHOICE, log 24). -/
def scalarHeld (s : State) (g : Nat) (i : Instr) : Option State :=
  let x := group s g
  if namesLaneScalar i && !laneIdle x then some (wait s i)
  else (scalarPoison x i).map fun k => raiseScalar s (poisonRec k 0)

/-- The meaning of a scalar instruction (R174 to R201, R308 to R351); nothing for the others. -/
def scalarMeaning (i : Instr) (s : State) : Out :=
  match i with
  | .sadd d a b => execSadd d a b s
  | .ssub d a b => execSsub d a b s
  | .sseq d a b => execSseq d a b s
  | .ssne d a b => execSsne d a b s
  | .sslt d a b => execSslt d a b s
  | .ssltu d a b => execSsltu d a b s
  | .smin d a b => execSmin d a b s
  | .sminu d a b => execSminu d a b s
  | .smax d a b => execSmax d a b s
  | .smaxu d a b => execSmaxu d a b s
  | .sand d a b => execSand d a b s
  | .sor d a b => execSor d a b s
  | .sxor d a b => execSxor d a b s
  | .sandn d a b => execSandn d a b s
  | .sshl d a b => execSshl d a b s
  | .sshr d a b => execSshr d a b s
  | .ssra d a b => execSsra d a b s
  | .srol d a b => execSrol d a b s
  | .sror d a b => execSror d a b s
  | .smul d a b => execSmul d a b s
  | .smulh d a b => execSmulh d a b s
  | .smulhu d a b => execSmulhu d a b s
  | .sdiv d a b => execSdiv d a b s
  | .sdivu d a b => execSdivu d a b s
  | .srem d a b => execSrem d a b s
  | .sremu d a b => execSremu d a b s
  | .sclz d a => execSclz d a s
  | .sctz d a => execSctz d a s
  | .spopc d a => execSpopc d a s
  | .sbswap d a => execSbswap d a s
  | .ssx8 d a => execSsx8 d a s
  | .ssx16 d a => execSsx16 d a s
  | .ssx32 d a => execSsx32 d a s
  | .szx32 d a => execSzx32 d a s
  | .saddi d a i => execSaddi d a i s
  | .sandi d a i => execSandi d a i s
  | .sori d a i => execSori d a i s
  | .sxori d a i => execSxori d a i s
  | .sslti d a i => execSslti d a i s
  | .sshli d a n => execSshli d a n s
  | .sshri d a n => execSshri d a n s
  | .ssrai d a n => execSsrai d a n s
  | .srori d a n => execSrori d a n s
  | .slui d i => execSlui d i s
  | .sshlo d i => execSshlo d i s
  | .sld d a k sp o => execSld d a k sp o s
  | .sst d a k sp o => execSst d a k sp o s
  | .sldX d a b k sp => execSldX d a b k sp s
  | .sstX d a b k sp => execSstX d a b k sp s
  | .sldAcq d a k sp c => execSldAcq d a k sp c s
  | .sstRel d a k sp c => execSstRel d a k sp c s
  | .sldRo d a b k => execSldRo d a b k s
  | .samoSwap x => execSamoSwap x s
  | .samoAdd x => execSamoAdd x s
  | .samoAnd x => execSamoAnd x s
  | .samoOr x => execSamoOr x s
  | .samoXor x => execSamoXor x s
  | .samoMinI x => execSamoMinI x s
  | .samoMaxI x => execSamoMaxI x s
  | .samoMinN x => execSamoMinN x s
  | .samoMaxN x => execSamoMaxN x s
  | .samoCas x => execSamoCas x s
  | .sfence c => execSfence c s
  | .sfenceAcq c => execSfenceAcq c s
  | .sfenceRel c => execSfenceRel c s
  | .sbr a c o => execSbr a c o s
  | .sjmp o => execSjmp o s
  | .scall o => execScall o s
  | .sjr a => execSjr a s
  | .scallr a => execScallr a s
  | .sret => execSret s
  | .sexit => execSexit s
  | .lrun n => execLrun n s
  | .ljmp o => execLjmp o s
  | .lrunr a => execLrunr a s
  | .ljmpr a => execLjmpr a s
  | .lsync => execLsync s
  | .lmask d w => execLmask d w s
  | .lsumm d => execLsumm d s
  | .sget d n => execSget d n s
  | .kwait d a k => execKwait d a k s
  | .waitLd d a => execWaitLd d a s
  | .waitSt d a => execWaitSt d a s
  | .waitCp d a => execWaitCp d a s
  | .waitTl d a => execWaitTl d a s
  | .barInit a b => execBarInit a b s
  | .barFree a => execBarFree a s
  | .barArrive d a b => execBarArrive d a b s
  | .barWait a => execBarWait a s
  | .sbarArrive d c => execSbarArrive d c s
  | .sbarWait a c => execSbarWait a c s
  | .yieldc a b o => execYieldc a b o s
  | .bdecl a b => execBdecl a b s
  | .bput d a b => execBput d a b s
  | .bputw d a b => execBputw d a b s
  | .btake d a => execBtake d a s
  | .bdrop a => execBdrop a s
  | .xcopy a => execXcopy a s
  | .tset t a b => execTset t a b s
  | .tsetb t a => execTsetb t a s
  | .tsets t a => execTsets t a s
  | .tgetl d t => execTgetl d t s
  | .tgeth d t => execTgeth d t s
  | .shalloc d a => execShalloc d a s
  | .shfree a => execShfree a s
  | .shtest d a => execShtest d a s
  | .cobjDecl d a b => execCobjDecl d a b s
  | .cobjMode k a b => execCobjMode k a b s
  | .cobjFree a => execCobjFree a s
  | .cobjQuery d a => execCobjQuery d a s
  | .creduce d a b => execCreduce d a b s
  | .callred d a b => execCallred d a b s
  | .credscat d a b => execCredscat d a b s
  | .callgath d a b => execCallgath d a b s
  | .calltoall d a b => execCalltoall d a b s
  | .cbcast d a b => execCbcast d a b s
  | .cabort d a => execCabort d a s
  | .tmark a b => execTmark a b s
  | .tsync => execTsync s
  | .tsamp a => execTsamp a s
  | .spget d a => execSpget d a s
  | .spset a b => execSpset a b s
  | .sslotw a b => execSslotw a b s
  | .sslotr d a => execSslotr d a s
  | .sslotx a => execSslotx a s
  | .spreq d a b => execSpreq d a b s
  | .sgpl d => execSgpl d s
  | .tlbroot a b => execTlbroot a b s
  | .tlbinv a b => execTlbinv a b s
  | .carve d a k => execCarve d a k s
  | .pmap d a b => execPmap d a b s
  | .pgive d a b => execPgive d a b s
  | .wldp d a => execWldp d a s
  | .wcasp d a b => execWcasp d a b s
  | .tlbfill a b => execTlbfill a b s
  | .wentry a b => execWentry a b s
  | .eret => execEret s
  | .ekill a => execEkill a s
  | .efget d a => execEfget d a s
  | .efset a b => execEfset a b s
  | _ => .next s
/-- `WAIT_RETIRE` (R175): a waiting instruction starts again, unless its access or request has been sent; where its condition now holds it retires. -/
def execWaitRetire (g : Nat) (s : State) : Out :=
  let s := { s with cur := .group g }
  let x := group s g
  match x.fly.waiting with
  | none => .next s
  | some i =>
    if sentWait x then scalarMeaning i s
    else if !x.live || saving s x.team || x.lane.stopped || x.lane.park.replaying || (!x.pend.order.isEmpty && !inHandler x) || x.fly.scalar.isSome || (x.fly.booth.any fun b => !b.lane) then .next s
    else match scalarHeld s g i with
      | some t => .next t
      | none => scalarMeaning i s

end Sys2Proof.Machine
end

