-- ==== Sys2Proof/Machine/StreamEvents.lean ====
section
/-! DEFINITION. Whether a group's streams are ready (R36, R38, R46 to R48, R175, R345); and the events of the streams, the engines and the trap logic: jump records, replies, walks, copies, booths, collectives, vectoring, slot-table wraps. -/

namespace Sys2Proof.Machine

open Sys2Proof

/-- Whether pending records keep a group from issuing: it vectors first (R345). -/
def mustVector (x : Group) : Bool := !x.pend.order.isEmpty && !inHandler x
/-- Whether a group's scalar stream is ready to issue. It does not issue while parked lanes are replayed (log 7), nor while its fetch waits for a walk (R314). -/
def scalarReady (s : State) (g : Nat) : Bool :=
  let x := group s g
  x.live && !killed s g && !saving s x.team && !waiting s (.fetchS g) && x.fly.waiting.isNone && x.fly.scalar.isNone && !(x.fly.booth.any fun b => !b.lane) &&
  !x.lane.park.replaying && !x.lane.stopped && !mustVector x
/-- Whether a group's lane stream is free to take the record at the head of its queue: a replay runs to its end. -/
def laneFree (s : State) (g : Nat) : Bool :=
  let x := group s g
  let bound := x.lane.park.replaying
  x.live && !killed s g && (bound || !saving s x.team) && !x.lane.stopped && x.fly.lane.isNone &&
  (x.fly.tile.all fun t => t.phase == .abandoned) && !(x.fly.booth.any (·.lane)) && (bound || !mustVector x)
/-- Whether the head of a release queue is a run record. -/
def headRun : List RqRec → Bool
  | .run _ _ :: _ => true
  | _ => false
/-- Whether a group's lane stream is ready to issue (R36, R38); one whose fetch waits for a walk is not (R314). -/
def laneReady (s : State) (g : Nat) : Bool := laneFree s g && !waiting s (.fetchL g) && headRun (group s g).lane.rq

/-- `LANE_JUMP_RECORD` (R38): the jump record at the head sets LPC and leaves the queue; a run-on whose queue is empty then stops (R47). -/
def execLaneJumpRecord (g : Nat) (s : State) : Out :=
  let x := group s g
  match x.lane.rq with
  | .jump t :: rest =>
    if laneFree s g then
      let stop := x.lane.park.fmask != 0 && !x.lane.park.replaying && rest.isEmpty
      .next (setGroup s g { x with lane := { x.lane with lpc := t, rq := rest, stopped := stop } })
    else .next s
  | _ => .next s
/-- `SCALAR_REPLY` (R175). -/
def execScalarReply (g : Nat) (s : State) : Out := .next (asGroup s g fun s => finishScalar s g)
/-- `LANE_LOAD_RETURN` (R63, R235): a lane load whose data is in its lanes counts as performed. -/
def execLaneLoadReturn (g : Nat) (s : State) : Out :=
  let x := group s g
  .next (if x.cnt.loadsDue = 0 then s
    else setGroup s g { x with cnt := { x.cnt with loads := x.cnt.loads - 1, loadsDue := x.cnt.loadsDue - 1 } })
/-- `STORE_PERFORMED` (R63, R235): a lane store is acknowledged. -/
def execStorePerformed (g : Nat) (s : State) : Out :=
  let x := group s g
  .next (if x.cnt.storesDue = 0 then s
    else setGroup s g { x with cnt := { x.cnt with stores := x.cnt.stores - 1, storesDue := x.cnt.storesDue - 1 } })

/-- Names of the walks of a die that run. -/
def walksRunning (s : State) (d : Nat) : Nat := (s.work.walks.filter fun e => e.2.any fun w => w.running && w.die == d).length
/-- The walk of a die that has waited longest (R329); names rise in order of arrival. -/
def oldestWalk (s : State) (d : Nat) : Option Nat :=
  ((s.work.walks.filter fun e => e.2.any fun w => !w.running && w.die == d).map (·.1)).foldl
    (fun a w => some (match a with | none => w | some b => min b w)) none
/-- A free walk context of a die: the core and the number among its eight contexts, by core × 8 + number (R9, R329); the model takes the lowest (log 22). -/
def freeContext (s : State) (d : Nat) : Option Nat :=
  let used := s.work.walks.filterMap fun e => match e.2 with
    | some w => if w.running && w.die == d then some w.ctx else none
    | none => none
  (List.range 512).find? fun k => !(core s (d % 4 * 64 + k / 8)).vacant && !used.contains k
/-- The registers with which a walk starts (R329). -/
def walkRegs (x : Walk) (root : Word) : Tab Word :=
  tput 0 (tput 0 (tput 0 [] 1 x.va) 2
    (BitVec.ofNat 64 (x.part * 2 ^ 16 + x.asn.toNat * 2 ^ 8 + x.reason * 2 ^ 6 + x.acc.toNat))) 3 root
/-- `WALK_START` (R329): a context of this package is free, and the walk starts at the walker entry of its die; without one it is a walker error (R330). -/
def execWalkStart (w : Nat) (s : State) : Out :=
  match walk s w with
  | none => .next s
  | some x =>
    let y := die s x.die
    if x.running ∨ x.die / 4 ≠ chipNo s ∨ oldestWalk s x.die ≠ some w ∨ 8 * coresPresent s (x.die % 4) ≤ walksRunning s x.die then
      .next s
    else
      let ctx := (freeContext s x.die).getD 0
      let start : Walk := { x with running := true, s := walkRegs x (tget 0 y.roots (rootKey x.part x.asn.toNat)), spc := y.wentry,
                                   cycles := 0, entry := y.wentry, words := y.wlen, ctx := ctx }
      let s := engineEvent (setWalk s w (some start)) x.part (x.die % 4) 3 (bits x.va 11 8) 7 (varint x.va.toNat)
      .next (if y.wentry = 0 then walkError s w else s)
/-- `WALK_LIMIT_EXPIRY` (R330). -/
def execWalkLimitExpiry (w : Nat) (s : State) : Out :=
  .next (if (walk s w).any fun x => x.running && decide (Config.walkLimit ≤ x.cycles) then walkError s w else s)

/-- `COPY_WRITE` (R118, R243). -/
def execCopyWrite (t c : Nat) (s : State) : Out := .next (copyStep s t c)
/-- `COPY_COMPLETE` (R118). -/
def execCopyComplete (t c : Nat) (s : State) : Out := .next (copyEnd s t c)
/-- `BOOTH_RESERVATION` (R111). -/
def execBoothReservation (g : Nat) (s : State) : Out := .next (boothReserve s g endVbooth)
/-- `BOOTH_FILL_COMPLETE` (R110). -/
def execBoothFillComplete (g : Nat) (s : State) : Out := .next (boothFill s g endVbooth)
/-- `BPUTW_RESERVE` (R111). -/
def execBputwReserve (g : Nat) (s : State) : Out := .next (boothWake s g)
/-- `COLLECTIVE_HANDOVER` (R284); a group that a save has stopped does not issue (R353). -/
def execCollectiveHandover (t : Nat) (s : State) : Out := .next (if saving s t then s else collHandover s t)
/-- `COLLECTIVE_STEP` (R287). -/
def execCollectiveStep (c : Nat) (s : State) : Out := .next (collStep s c)
/-- `COLLECTIVE_END` (R285). -/
def execCollectiveEnd (c : Nat) (s : State) : Out := .next (collEnd s c)
/-- `COBJ_MODE_DONE` (R253). -/
def execCobjModeDone (die entry : Nat) (s : State) : Out := .next (cobjModeEnd s die entry)
/-- `CARVE_DONE` (R342). -/
def execCarveDone (die : Nat) (s : State) : Out := .next (carveEnd s die)
/-- `SLOT_TABLE_WRAP` (R314, R316). -/
def execSlotTableWrap (core : Nat) (s : State) : Out := .next (slotWrap s core)

/-- A group at a precise stop with pending records reads its handler entry and vectors, or its launch ends (R321, R345, R346). -/
def vectorGroup (s : State) (g : Nat) : State :=
  let x := group s g
  if atStop x && !killed s g && hasRecords s g && !saving s x.team then
    match chosenClass s g with
    | none => s
    | some k => match handlerEntry s g k with
      | (s, .wait) => s
      | (s, .none) => unhandled s g (0x8100 + k)
      | (s, .entry hspc hlpc) => takeException (clearFaults s (.vec g)) g k hspc hlpc
  else s
/-- `VECTOR` (R346). -/
def execVector (g : Nat) (s : State) : Out := .next (vectorGroup s g)

end Sys2Proof.Machine
end

