-- ==== Sys2Proof/Machine/Descriptors.lean ====
section
/-! DEFINITION. Launch descriptors: their fields and limits (R374, R377), the checks of the tree (R17 to R26), where its nodes lie (R20, R23), residency (R28). -/

namespace Sys2Proof.Machine

open Sys2Proof

/-- Whether a flag list holds throughout. -/
def allOf (bs : List Bool) : Bool := bs.all id
/-- One level's 32 bytes (R374). -/
def levelBytes (bs : List Byte) (j : Nat) : List Byte := (bs.drop (0x100 + 32 * j)).take 32
/-- A level as its bytes give it. -/
def readLevel (e : List Byte) : Level := ⟨fieldAt e 0 2, fieldAt e 2 1, (e.drop 4).take (fieldAt e 3 1)⟩
/-- Declared depth (R374). -/
def descDepth (bs : List Byte) : Nat := fieldAt bs 4 1
/-- The descriptor that 768 bytes hold (R374). -/
def readDescriptor (bs : List Byte) : Desc :=
  let f := fieldAt bs
  let w := fun (o : Nat) => BitVec.ofNat 64 (f o 8)
  { id := BitVec.ofNat 32 (f 0 4), h := f 5 1, asn := BitVec.ofNat 8 (f 6 1), v := 32 * f 7 1, q := f 8 1, t := f 0xA 2, s := f 0xC 4,
    mask := w 0x10, spc := w 0x18, lpc := w 0x20, stackBase := w 0x28, stackSize := f 0x30 4, timeout := f 0x34 4, save := w 0x38,
    completion := w 0x40, args := (List.range 8).map fun i => w (0x80 + 8 * i),
    levels := (List.range (min (descDepth bs) 15)).map fun j => readLevel (levelBytes bs j) }
/-- Whether a declared level keeps the limits of R374. -/
def levelOk (e : List Byte) : Bool :=
  let n := fieldAt e 3 1
  decide (fieldAt e 2 1 ≤ 7 ∧ 1 ≤ n ∧ n ≤ 15) && zeroAt e (4 + n) (15 - n) && zeroAt e 19 13 &&
  ((e.drop 4).take n).all fun b => b.getLsbD 7 == false
/-- Whether a descriptor keeps the limits of R374, its identifier and mask apart; H is held below a depth that is one (log 24). -/
def descriptorOk (bs : List Byte) : Bool :=
  let f := fieldAt bs
  let depth := descDepth bs
  allOf [decide (1 ≤ f 7 1 ∧ f 7 1 ≤ 8 ∧ f 8 1 ≤ 8 ∧ f 9 1 = 0), decide (f 0xC 4 % 256 = 0), decide (f 0x18 8 % 4 = 0 ∧ f 0x20 8 % 4 = 0),
    decide (f 0x28 8 % 16 = 0 ∧ f 0x30 4 % 16 = 0), decide (1 ≤ f 0x34 4 ∧ f 0x34 4 ≤ 1000000),
    decide (f 0x38 8 % 4096 = 0 ∧ f 0x40 8 % 32 = 0), zeroAt bs 0x48 56, zeroAt bs 0xC0 64, zeroAt bs 0x2E0 32,
    decide (f 5 1 < depth),
    (List.range 15).all fun j => if j < depth then levelOk (levelBytes bs j) else (levelBytes bs j).all (· == 0)]
/-- Whether an identifier is in use among the launches of a partition that are running or saved here (R374). -/
def idInUse (s : State) (p : Nat) (id : BitVec 32) : Bool :=
  s.work.launches.any fun e => e.2.live && e.2.part == p && e.2.d.id == id && e.2.phase == .running && e.2.fin.isNone
/-- The lowest cause of status 0x05 that applies (R374, R375, R377). -/
def refusalCause (s : State) (p chip : Nat) (bs : List Byte) : Option Nat :=
  let d := readDescriptor bs
  if !descriptorOk bs then some 1
  else if d.id = 0 ∨ idInUse s p d.id then some 2
  else if d.mask.getLsbD chip = false then some 3
  else if !partEnabled s p then some 5
  else none

/-- Whether the bindings never rise from a level to the next (R18). -/
def monotone : List Level → Bool
  | a :: b :: r => decide (b.bind ≤ a.bind) && monotone (b :: r)
  | _ => true
/-- Groups of one quarter at most (R24, R32). -/
def perQuarter (g : Nat) : Nat := (g + 3) / 4
/-- Slots of the accumulator store that a team needs (R24). -/
def slotNeed (d : Desc) : Nat := groupsPerTeam d * d.q * Config.gwidth + 2048 * d.t
/-- Whether a team keeps the conditions of R24. -/
def teamFits (d : Desc) : Bool :=
  let g := groupsPerTeam d
  decide (g ≤ 32 ∧ perQuarter g * d.v ≤ 512 ∧ slotNeed d ≤ Config.accSlots ∧ d.s ≤ Config.scratchMax)
/-- The chips of a mask in ascending order. -/
def maskChips (m : BitVec 64) : List Nat := (List.range 64).filter fun c => m.getLsbD c

/-- Height and width of the rectangle of a cluster (R23); nothing for the product 11 and those above 12. -/
def shapeOfCluster (c : Nat) : Option (Nat × Nat) :=
  [none, some (1, 1), some (1, 2), some (1, 3), some (2, 2), some (1, 5), some (2, 3), some (1, 7), some (2, 4), some (3, 3),
   some (2, 5), none, some (3, 4)].getD c none
/-- The band positions of a die for a shape, in the order of R23, each as the cores of its rectangle by row × 8 + column. -/
def bandPositions (h w : Nat) : List (List Nat) :=
  (List.range (8 / h)).flatMap fun b => (List.range (8 / w)).map fun q =>
    (List.range (h * w)).map fun m => (b * h + m / w) * 8 + q * w + m % w
/-- Teams beneath one package-bound node; all of them where no level binds to package (R20). -/
def teamsPerChip (d : Desc) : Nat := teamCount d / fanProd (boundTo d 5)
/-- The chip of a team (R20); the submitting chip where no level binds to package (log 24). -/
def chipOfTeam (d : Desc) (origin no : Nat) : Nat :=
  if (boundTo d 5).isEmpty then origin else (maskChips d.mask).getD (no / teamsPerChip d) origin
/-- The chips that hold a node of a launch (R20, R375). -/
def nodeChips (d : Desc) (origin : Nat) : List Nat :=
  if (boundTo d 5).isEmpty then [origin] else (maskChips d.mask).take (fanProd (boundTo d 5))
/-- Nodes of a chip at the deepest die-bound level (R20). -/
def dieNodes (d : Desc) : Nat := fanProd (boundTo d 4)
/-- The dies to which a team is confined, ascending (R20, R23). -/
def diesOfTeam (d : Desc) (no : Nat) : List Nat :=
  let w := 4 / dieNodes d
  (List.range w).map fun i => no % teamsPerChip d / (teamsPerChip d / dieNodes d) * w + i
/-- The teams of a chip, ascending. -/
def teamsHere (d : Desc) (origin chip : Nat) : List Nat := (List.range (teamCount d)).filter fun n => chipOfTeam d origin n == chip
/-- Places for clusters or single teams on a die, whatever runs there (R23, R28). -/
def placesOn (s : State) (d : Desc) (dn : Nat) : List (List Nat) :=
  let (h, w) := (shapeOfCluster (clusterSize d)).getD (1, 1)
  ((bandPositions h w).map fun r => r.map fun c => dn * 64 + c).filter fun r => r.all fun c => !(core s c).vacant
/-- Whether the teams of this chip that lie beneath one node of level H can hold their cores at once (R28). -/
def holdsAtOnce (s : State) (d : Desc) (teams : List Nat) : Bool :=
  [0, 1, 2, 3].all fun k =>
    let mine := teams.filter fun n => (diesOfTeam d n).head? == some k
    mine.isEmpty || decide (mine.length ≤ (((diesOfTeam d (mine.headD 0)).flatMap (placesOn s d)).length) * clusterSize d)
/-- Numbers of the nodes of level H that have teams here. -/
def nodesHere (d : Desc) (teams : List Nat) : List Nat := (teams.map fun n => nodeOf d d.h n 0).eraseDups
/-- Whether a launch is resident here (R28). -/
def resident (s : State) (d : Desc) (origin : Nat) : Bool :=
  decide ((levelAt d d.h).bind ≤ 3) ||
  (let ts := teamsHere d origin (chipNo s)
   decide (ts.length ≤ 256 * max 1 (nodesHere d ts).length) &&
   (nodesHere d ts).all fun k => holdsAtOnce s d (ts.filter fun n => nodeOf d d.h n 0 == k))
/-- The lowest launch fault of a tree on this chip (R26). -/
def treeFault (s : State) (d : Desc) (depth origin : Nat) : Option Nat :=
  let binds := d.levels.map (·.bind)
  let clusters := !(boundTo d 3).isEmpty
  let c := fanProd (boundTo d 2)
  if depth = 0 ∨ 15 < depth ∨ binds.contains 7 ∨ !monotone d.levels ∨ (levelAt d 0).bind < 2 then some 1
  else if (d.levels.any fun l => l.fan == 0) ∨ (levelAt d 0).fan ≠ 1 ∨ Config.gwidth % fanProd (boundTo d 0) ≠ 0 ∨
      4 % fanProd (boundTo d 4) ≠ 0 then some 2
  else if clusters ∧ (12 < c ∨ c = 11) then some 3
  else if !teamFits d then some 4
  else if (maskChips d.mask).length < fanProd (boundTo d 5) ∨ fanProd (boundTo d 6) ≠ 1 then some 5
  else if !resident s d origin then some 6
  else none

end Sys2Proof.Machine
end

