-- ==== Sys2Proof/Machine/Placement.lean ====
section
/-! DEFINITION. Placement (R22, R23, R29 to R32, R69, R317): which cores can hold the teams of a node or cluster, and the start of a team's groups (R49, R50). -/

namespace Sys2Proof.Machine

open Sys2Proof

/-- Groups of a team of g groups that stand in quarter q (R32). -/
def inQuarter (g q : Nat) : Nat := (g + 3 - q) / 4
/-- The descriptors of the teams on a core. -/
def residents (s : State) (c : Nat) : List (Nat × Desc) :=
  s.work.teams.filterMap fun e => if e.2.live && e.2.core == c then some (e.2.launch, (launch s e.2.launch).d) else none
/-- Whether some live slot-table entry of a core names a partition in a quarter (R317). -/
def quarterOwned (s : State) (c q p : Nat) : Bool :=
  (List.range 64).any fun e => ((tget slotReset (core s c).live e).extractLsb' (5 * q) 5).toNat == 16 + p
/-- Whether a core can take a team of a launch beside those it holds (R9, R22, R69, R317). -/
def canHold (s : State) (l : Nat) (taken : List Nat) (c : Nat) : Bool :=
  let x := launch s l
  let ds := residents s c
  let all := x.d :: ds.map (·.2)
  let total (f : Desc → Nat) : Nat := (all.map f).foldl (· + ·) 0
  !(core s c).vacant && !taken.contains c && !(ds.any fun e => e.1 == l) &&
  ([0, 1, 2, 3].all fun q =>
    decide (total (fun d => inQuarter (groupsPerTeam d) q) ≤ 8) &&
    decide (total (fun d => inQuarter (groupsPerTeam d) q * d.v) ≤ 512) &&
    (inQuarter (groupsPerTeam x.d) q == 0 || quarterOwned s c q x.part)) &&
  decide (total slotNeed ≤ Config.accSlots) && decide (total (·.s) ≤ Config.scratchMax)
/-- Whether some reservation records are free on a core: no resident's range meets one of them, and the core's 16 records suffice (R104, R268, R269). -/
def bufferFree (s : State) (c : Nat) (recs : Tab (Word × Word)) : Bool :=
  let held := (s.work.teams.filter fun e => e.2.live && e.2.core == c).flatMap fun e => e.2.recs
  (held.all fun h => recs.all fun r => !rangesMeet r.2 h.2) && decide (held.length + recs.length ≤ 16)
/-- The place that a cluster or single team receives (R23); `ok` says what more a team asks of a core. -/
def placeFor (s : State) (l : Nat) (ok : Nat → Nat → Bool) (taken : List Nat) (n : Nat) : Option (List Nat) :=
  ((diesOfTeam (launch s l).d n).flatMap fun dn => placesOn s (launch s l).d dn).find? fun r =>
    r.all (canHold s l taken) && r.zipIdx.all fun e => ok (n + e.2) e.1
/-- Cores for the teams of some clusters, one cluster after another (R29); nothing where one does not fit. -/
def placeAll (s : State) (l : Nat) (ok : Nat → Nat → Bool) : List Nat → List Nat → Option (List (Nat × Nat))
  | _, [] => some []
  | taken, n :: rest =>
    match placeFor s l ok taken n with
    | none => none
    | some r => (placeAll s l ok (taken ++ r) rest).map fun more => (r.zipIdx.map fun e => (n + e.2, e.1)) ++ more
/-- A team that starts asks no more of a core than R22, R69 and R317 do. -/
def anyCore (_ _ : Nat) : Bool := true
/-- A saved team asks for a core where its reservation records are free (R269). -/
def roomFor (s : State) (ts : List SavedTeam) (no c : Nat) : Bool := ts.all fun t => t.t.no != no || bufferFree s c t.t.recs
/-- The first teams of the clusters among some teams. -/
def clusterHeads (d : Desc) (teams : List Nat) : List Nat := teams.filter fun n => n % clusterSize d == 0

/-- The lowest free physical slot of a quarter (R69, R393); which slot holds a group the manual leaves to placement, and the lowest is the model's choice (log 22). -/
def freeSlot (s : State) (c q : Nat) : Nat :=
  let used := (quarterGroups s c q).map fun g => (group s g).phys
  ((List.range 8).map fun k => q * 8 + k).find? (fun k => !used.contains k) |>.getD (q * 8)
/-- The registers with which a group starts (R49, R50). -/
def startRegs (d : Desc) (no : Nat) : Regs :=
  let args := d.args.zipIdx.foldl (fun t e => tput 0 t (e.2 + 1) e.1) ([] : Tab Word)
  { Regs.blank with s := tput 0 args 62 (d.stackBase + BitVec.ofNat 64 ((no + 1) * d.stackSize)) }
/-- The mask with which a group's lanes start (R42). -/
def startMask (d : Desc) : Mask := maskOf fun i => decide (i < laneCount d)
/-- A group at its start (R35, R42, R49, R314). -/
def startGroup (s : State) (t no : Nat) : Group :=
  let x := team s t
  let l := launch s x.launch
  let d := l.d
  { Group.blank with
    live := true, team := t, no := no, phys := freeSlot s x.core (no % 4), r := startRegs d no, spc := d.spc,
    lane := { LaneCtx.blank with lpc := d.lpc, base := d.lpc, mask := startMask d, start := startMask d },
    level := l.priv, trace := { TraceCtx.off with bit := l.trace }, age := (cycleOf s x.core, cycleOf s x.core) }
/-- A group put into a team. -/
def addGroup (s : State) (t g : Nat) (x : Group) : State :=
  modTeam (setGroup s g x) t fun y => { y with groups := y.groups ++ [g] }
/-- A team that has just been placed: its stores at their start (R68). -/
def freshTeam (s : State) (l no c : Nat) : Team :=
  let d := (launch s l).d
  { Team.blank with live := true, launch := l, no := no, core := c, cluster := no / clusterSize d, index := no % clusterSize d }
/-- A team starts on a core: its groups start together (R29, R49); each emits a sync record when it is traced (R397). -/
def startTeam (s : State) (l no c : Nat) : State :=
  let (t, s) := newName s
  let s := setTeam s t (freshTeam s l no c)
  let s := (List.range (groupsPerTeam (launch s l).d)).foldl (fun s k =>
    let (g, s) := newName s
    emitSync (addGroup s t g (startGroup s t k)) g 6) s
  modLaunch s l fun x => { x with started := x.started ++ [no] }

/-- Whether a launch has nodes here that are saved whole. -/
def hasSaved (s : State) (p : Nat) : Bool :=
  s.work.launches.any fun e => e.2.live && e.2.part == p && e.2.fin.isNone && e.2.saved.any (·.complete)
/-- Teams that are placed together: those of a node of level H that can be held at once, else those of a cluster (R28, R29). -/
def gangs (s : State) (l : Nat) : List (List Nat) :=
  let x := launch s l
  let d := x.d
  let ts := teamsHere d x.chip (chipNo s)
  if d.h < d.levels.length ∧ clusterSize d < teamsBelow d d.h ∧ (nodesHere d ts).all (fun k => holdsAtOnce s d (ts.filter fun n => nodeOf d d.h n 0 == k)) then
    (nodesHere d ts).map fun k => ts.filter fun n => nodeOf d d.h n 0 == k
  else (clusterHeads d ts).map fun n => (List.range (clusterSize d)).map (n + ·)
/-- The first gang of each placement unit that has not started (R31). -/
def nextGangs (s : State) (l : Nat) : List (List Nat) :=
  let d := (launch s l).d
  let left := (gangs s l).filter fun k => k.any fun n => !(launch s l).started.contains n
  let unit := fun (k : List Nat) => diesOfTeam d (k.headD 0)
  left.filter fun k => (left.find? fun j => unit j == unit k) == some k
/-- `TEAM_PLACEMENT` (R23, R29, R31, R69, R378): the first gang that can be placed now starts; saved nodes of the partition come first. Nothing is placed while the partition is being reset (R387, log 24). -/
def execTeamPlacement (l : Nat) (s : State) : Out :=
  let x := launch s l
  if x.live && x.phase == .running && x.fin.isNone && !hasSaved s x.part && !partResetting s x.part then
    match (nextGangs s l).findSome? fun k => placeAll s l anyCore [] (clusterHeads x.d k) with
    | some cs => .next (cs.foldl (fun s e => startTeam s l e.1 e.2) s)
    | none => .next s
  else .next s

end Sys2Proof.Machine
end

