-- ==== Sys2Proof/Machine/SaveArea.lean ====
section
/-! DEFINITION. The save area (R356 to R359): its bytes for a group and a team, the granules that carry poison, and what they give back. -/

namespace Sys2Proof.Machine

open Sys2Proof

/-- Pieces of the save area that are not zero: offset and bytes. -/
abbrev Chunks := List (Nat × List Byte)
/-- Chunks moved by an offset. -/
def shift (off : Nat) (cs : Chunks) : Chunks := cs.map fun c => (off + c.1, c.2)
/-- A mask's 16 bytes, w0 first. -/
def mask16 (m : Mask) : List Byte := leBytes 16 m.toNat
/-- A record of the release queue in 128 bytes (R357). -/
def recordBytes : RqRec → List Byte
  | .run n cap => leBytes 2 n ++ [1] ++ List.replicate 5 0 ++ (List.range 15).flatMap fun i => leBytes 8 (cap.getD i 0).toNat
  | .jump t => [0, 0, 2] ++ List.replicate 5 0 ++ leBytes 8 t.toNat ++ List.replicate 112 0
/-- The release queue that an area holds: the held records while lanes are parked (R45, R47). -/
def savedQueue (l : LaneCtx) : List RqRec := if l.park.fmask = 0 then l.rq else l.park.full
/-- Offsets 0x000 to 0xE7F of a context, but for its registers and counters (R357); entry 0 of the mask stack is the one pushed first (R44). -/
def contextChunks (spc : Word) (l : LaneCtx) (level : Nat) (flags : Nat) : Chunks :=
  let replay := if l.park.fmask = 0 then (0, 0) else (l.park.lpc.toNat, l.park.rep)
  [(0, leBytes 8 spc.toNat ++ leBytes 8 l.lpc.toNat ++ leBytes 8 replay.1 ++
     [BitVec.ofNat 8 l.rep, BitVec.ofNat 8 replay.2, BitVec.ofNat 8 level, BitVec.ofNat 8 l.stack.length,
      BitVec.ofNat 8 (savedQueue l).length, BitVec.ofNat 8 flags]),
   (0x20, mask16 l.mask ++ mask16 l.park.fmask)] ++
  (l.stack.reverse.zipIdx.map fun e => (0x80 + 16 * e.2, mask16 e.1)) ++
  ((savedQueue l).zipIdx.map fun e => (0x680 + 128 * e.2, recordBytes e.1))
/-- The byte of the order of report that stands for a pending record (R357). -/
def orderByte (s : State) (t code : Nat) : Byte :=
  if code < 0x1000 then BitVec.ofNat 8 code
  else BitVec.ofNat 8 (0x22 + ((collsOf s t).map (·.1)).idxOf (code - 0x1000))
/-- Whether a tile instruction awaits re-entry: its counters are raised, and it has no place in the queue (R265). -/
def reentry (t : Option TileOp) : Nat := if t.any fun t => t.raised && (t.phase == .abandoned || t.phase == .waiting) then 4 else 0
/-- The lane records that a group holds: while a handler runs, those of the interrupted context that are not delivered (R345, R357). -/
def heldRecords (x : Group) : Tab FaultRec :=
  match x.handler with
  | some f => f.lane.park.recs
  | none => x.lane.park.recs
/-- Bytes of a pending record, or zeros. -/
def recOrZero (r : Option FaultRec) : List Byte := (r.map recBytes).getD (List.replicate 16 0)
/-- A group's area (R357). -/
def groupChunks (s : State) (g : Nat) : Chunks :=
  let x := group s g
  let d := descOf s g
  let recs := pendingRecs s g
  let waits := !x.pend.order.isEmpty
  let flags := (if inHandler x then 1 else 0) + (if hasRecords s g || (inHandler x && !(heldRecords x).isEmpty) then 2 else 0) + reentry x.fly.tile + (if waits then 8 else 0)
  contextChunks x.spc x.lane x.level.toNat flags ++
  [(0x40, leBytes 2 x.cnt.loads ++ leBytes 2 x.cnt.stores ++ leBytes 2 x.cnt.copies ++ leBytes 2 x.cnt.tiles),
   (0x50, recOrZero ((recs.head?).map (·.2))),
   (0x60, (List.range 16).flatMap fun k => leBytes 2 (kcount x k)),
   (0x180, (List.range 64).flatMap fun r => leBytes 8 (sregOf x r).toNat),
   (0x380, (List.range 16).flatMap fun r => leBytes 16 (treg x r).toNat),
   (0x480, (List.range 8).flatMap fun r => bytesOf 4 ((mreg x r).map (·.toNat))),
   (0xE80, recOrZero x.pend.stream ++ recOrZero x.pend.tile),
   (0xEA0, ((x.pend.order.map (orderByte s x.team)) ++ List.replicate 40 0xFF).take 40)] ++
  (match x.handler with
   | none => []
   | some f =>
     shift 0x1000 (contextChunks f.spc f.lane f.level.toNat (reentry f.tile)) ++
     [(0x1340, f.s56.flatMap fun w => leBytes 8 w.toNat)] ++
     (f.v0.zipIdx.flatMap fun e => (lanesOf f.hmask).map fun i => (0x1E80 + 512 * e.2 + 4 * i, leBytes 4 (e.1.getD i 0).toNat))) ++
  ((heldRecords x).map fun e => (0x2800 + 16 * e.1, recBytes e.2)) ++
  (x.r.v.map fun e => (0x4000 + 512 * e.1, e.2.flatMap fun w => leBytes 4 w.toNat)) ++
  ((List.range d.q).flatMap fun n => (qreg x n).zipIdx.map fun e => (0x4000 + 512 * d.v + 16384 * n + 128 * e.2, laBytes e.1))
/-- The offset of group k's area within its team's (R356, R358). -/
def groupOffset (d : Desc) (k : Nat) : Nat := 0x8000 + d.s + 131072 * d.t + 262144 + k * groupArea d
/-- A copy record (R358): a fault is pending once it is reported; one that a copy has noted and not reported stands there without the flag (log 22). -/
def copyRecord (k : Copy) (no : Nat) : List Byte :=
  let flags := (if k.reported then 0 else 1) + (if k.reported || k.susp.isSome then 2 else 0)
  k.req ++ leBytes 8 k.done ++ [BitVec.ofNat 8 no, BitVec.ofNat 8 flags] ++ List.replicate 6 0 ++ recOrZero (k.susp <|> k.record) ++
  List.replicate 32 0
/-- Scratchpad tags, two bits per granule (R358). -/
def tagBytes (t : Team) (n : Nat) : List Byte :=
  (List.range (n / 4)).map fun i => BitVec.ofNat 8
    (tget 0 t.tags (4 * i) + 4 * tget 0 t.tags (4 * i + 1) + 16 * tget 0 t.tags (4 * i + 2) + 64 * tget 0 t.tags (4 * i + 3))
/-- Bytes that lie in some reserved range of the operand buffer. -/
def heldBytes (t : Team) : List Host.Cell := t.obuf.filter fun e => reserved t e.1
/-- A team's area (R358). -/
def teamChunks (s : State) (t : Nat) : Chunks :=
  let x := team s t
  let d := (launch s x.launch).d
  [(0, leBytes 4 d.s ++ [BitVec.ofNat 8 (groupsPerTeam d), BitVec.ofNat 8 (d.v / 32), BitVec.ofNat 8 d.q, BitVec.ofNat 8 d.t] ++
     leBytes 4 x.no)] ++
  (x.recs.map fun e => (0x100 + 16 * e.1, leBytes 8 e.2.1.toNat ++ leBytes 8 e.2.2.toNat)) ++
  (x.copies.filterMap fun e => e.2.map fun k => (0x200 + 128 * e.1, copyRecord k (group s k.group).no)) ++
  [(0x2000, tagBytes x (d.s / 16))] ++
  (x.scratch.map fun e => (0x8000 + e.1, [e.2])) ++
  ((List.range (1024 * d.t)).map fun k => (0x8000 + d.s + 128 * k, laBytes (tget LA.zero x.acc k))) ++
  ((heldBytes x).map fun e => (0x8000 + d.s + 131072 * d.t + e.1, [e.2])) ++
  x.groups.flatMap fun g => shift (groupOffset d (group s g).no) (groupChunks s g)

/-- Offsets, within its area, of the granules that hold a group's poisoned units (R359). -/
def groupMarks (d : Desc) (x : Group) : List Nat :=
  ((x.handler.map (·.poison)).getD []).map (fun p =>
    if p.kind = 0 then 0x1340 + 8 * (p.reg - 56) else 0x1E80 + 512 * p.reg + 4 * p.lane) ++
  x.poison.flatMap fun p =>
    match p.kind with
    | 0 => [0x180 + 8 * p.reg]
    | 1 => [0x4000 + 512 * p.reg + 4 * p.lane]
    | 2 => [0x480 + 64 * p.reg]
    | 3 => let o := 0x4000 + 512 * d.v + 16384 * p.reg + 128 * p.lane
           [o, o + 64]
    | _ => [0x380 + 16 * p.reg]
/-- Offsets of the granules that hold a team's poisoned units (R359). -/
def teamMarks (s : State) (t : Nat) : List Nat :=
  let x := team s t
  let d := (launch s x.launch).d
  (x.poison.flatMap fun p => if p < 2 ^ 32 then [0x8000 + 64 * p]
    else [0x8000 + d.s + 128 * (p - 2 ^ 32), 0x8000 + d.s + 128 * (p - 2 ^ 32) + 64]) ++
  x.groups.flatMap fun g => (groupMarks d (group s g)).map (groupOffset d (group s g).no + ·)

/-- The runs that hold n bytes of an area from an offset. -/
def piecesAt : List Seg → Nat → Nat → List Seg
  | [], _, _ => []
  | g :: r, off, n =>
    if n = 0 then []
    else if g.len ≤ off then piecesAt r (off - g.len) n
    else
      let m := min n (g.len - off)
      ⟨g.flat + off, m, g.poison⟩ :: piecesAt r 0 (n - m)
/-- The handler stacks in a team's area, which a save leaves as they stand (R357). -/
def stackRuns (d : Desc) (segs : List Seg) : List Seg :=
  (List.range (groupsPerTeam d)).flatMap fun k => piecesAt segs (groupOffset d k + 0x3000) 0x1000
/-- A team's area written (R353, R357 to R359): zero but for its chunks and the handler stacks, its granules marked where they hold poison. -/
def writeArea (s : State) (t : Nat) (segs : List Seg) : State :=
  let d := (launch s (team s t).launch).d
  let runs := stackRuns d segs
  let kept := runs.map fun g => (g, mread s.mem g.flat g.len)
  let old := s.bad.filter fun b => runs.any fun g => decide (g.flat ≤ b * 64 ∧ b * 64 < g.flat + g.len)
  let cs := teamChunks s t
  let marks := (teamMarks s t).flatMap fun o => (piecesAt segs o 1).map fun g => g.flat / 64
  let s : State := { s with mem := segs.foldl (fun m g => mclear m g.flat g.len) s.mem }
  let s := cs.foldl (fun s c => writeSegs s (piecesAt segs c.1 c.2.length) c.2) s
  let s : State := { s with mem := kept.foldl (fun m e => mwrite m e.1.flat e.2) s.mem }
  let inArea := fun (b : Nat) => segs.any fun g => decide (g.flat ≤ b * 64 ∧ b * 64 < g.flat + g.len)
  { s with bad := (s.bad.filter fun b => !inArea b) ++ (old ++ marks).eraseDups }

/-- Bytes of an area: n from an offset. -/
abbrev Area := Nat → Nat → List Byte
/-- An area read through its runs. -/
def areaOf (s : State) (segs : List Seg) : Area := fun off n => readSegs s (piecesAt segs off n)
/-- A number of n bytes of an area. -/
def areaNat (a : Area) (off n : Nat) : Nat := ofLe (a off n)
/-- Whether a fault record of an area keeps its limits: a class that is raised, the zero bits of its access byte (R343, R344, R356). -/
def recordOk (r : FaultRec) : Bool := decide (r.cls ≤ 12) && bits r.access 7 6 == 0
/-- A record of the release queue (R357); none beyond its limits (R356). -/
def recordOf (bs : List Byte) : Option RqRec :=
  let n := fieldAt bs 0 2
  let kind := fieldAt bs 2 1
  if zeroAt bs 3 5 = false then none
  else if kind = 1 ∧ 1 ≤ n ∧ n ≤ 1024 then
    some (.run n ((List.range 15).map fun i => BitVec.ofNat 64 (fieldAt bs (8 + 8 * i) 8)))
  else if kind = 2 then some (.jump (BitVec.ofNat 64 (fieldAt bs 8 8)))
  else none
/-- All of a list of results, or none. -/
def allSome {α : Type} : List (Option α) → Option (List α)
  | [] => some []
  | a :: r => match a, allSome r with
    | some x, some l => some (x :: l)
    | _, _ => none
/-- The queue at the stop point, from the held records as the area has them and what was left of them (R45, log 7). -/
def queueAtStop (full left : List RqRec) : List RqRec :=
  match full.drop (full.length - left.length), left with
  | .run _ cap :: r, .run n _ :: _ => .run n cap :: r
  | q, _ => q
/-- A lane context from an area, over what the area does not hold of it (R357, log 7); none beyond a limit (R356). -/
def laneFrom (a : Area) (old : LaneCtx) : Option LaneCtx :=
  let depth := areaNat a 0x1B 1
  let n := areaNat a 0x1C 1
  let fmask : Mask := BitVec.ofNat 128 (areaNat a 0x30 16)
  if 16 < depth ∨ 16 < n ∨ 63 < areaNat a 0x18 1 ∨ 63 < areaNat a 0x19 1 then none
  else (allSome ((List.range n).map fun i => recordOf (a (0x680 + 128 * i) 128))).map fun q =>
    let park : Park := { old.park with
      fmask := fmask, lpc := BitVec.ofNat 64 (areaNat a 0x10 8), rep := areaNat a 0x19 1, full := q, recs := [], replaying := false, stopRq := [] }
    { old with lpc := BitVec.ofNat 64 (areaNat a 8 8), rep := areaNat a 0x18 1, mask := BitVec.ofNat 128 (areaNat a 0x20 16),
               stack := ((List.range depth).map fun i => BitVec.ofNat 128 (areaNat a (0x80 + 16 * i) 16)).reverse,
               rq := if fmask = 0 then q else queueAtStop q old.rq,
               park := if fmask = 0 then Park.none else park, stopped := fmask != 0 }
/-- Counter n as its operations: those kept in order, where the count still agrees (log 7). -/
def counterFrom (old : List (Nat × Bool)) (n : Nat) : List (Nat × Bool) := if old.length = n then old else List.replicate n (0, false)
/-- Lane records of an area for the lanes of a mask; a record of zeros stands for none (R357). -/
def recordsFrom (a : Area) (m : Mask) : Tab FaultRec :=
  (lanesOf m).foldl (fun t i => tput recBlank t i (recOfBytes (a (0x2800 + 16 * i) 16))) []
/-- The tile instruction that an area says awaits re-entry: the one kept, of which the area holds no more than that it is there (R357, log 7). -/
def tileFrom (awaits : Bool) (old : Option TileOp) : Option TileOp :=
  if awaits then some ((old.map fun t => { t with phase := TilePhase.abandoned }).getD ⟨.trel 0, 0, 0, 0, 0, 0, .abandoned, true, 0, 0, [], none, none⟩)
  else none
/-- Poisoned units of the framed registers from the marked granules of an area (R359). -/
def framePoison (hmask : Mask) (marks : List Nat) : List PoisonUnit :=
  (marks.flatMap fun o => if 0x1E80 ≤ o ∧ o < 0x2680 then
    (List.range 16).map fun k => (⟨1, (o - 0x1E80) / 512, (o - 0x1E80) % 512 / 4 + k⟩ : PoisonUnit) else []).filter fun p => hmask.getLsbD p.lane
/-- The frame of a group in a handler (R357). The handler mask is the parked lanes whose records were delivered at the handler's entry: those of the kept mask that the area parks without a record (R345, R346). -/
def frameFrom (a : Area) (marks : List Nat) (old : Frame) : Option Frame :=
  let flags := areaNat a 0x101D 1
  if 15 < flags then none
  else (laneFrom (fun off n => a (0x1000 + off) n) old.lane).map fun l =>
    let recs := recordsFrom a l.park.fmask
    let hmask := maskOf fun i => old.hmask.getLsbD i && l.park.fmask.getLsbD i && !recs.any fun e => e.1 == i
    { old with spc := BitVec.ofNat 64 (areaNat a 0x1000 8), hmask := hmask,
               lane := { l with stopped := false, park := if l.park.fmask = 0 then Park.none else { l.park with recs := recs } },
               s56 := (List.range 8).map fun i => BitVec.ofNat 64 (areaNat a (0x1340 + 8 * i) 8),
               v0 := (List.range 4).map fun n => (List.range 128).map fun i => BitVec.ofNat 32 (areaNat a (0x1E80 + 512 * n + 4 * i) 4),
               tile := tileFrom (flags / 4 % 2 == 1) old.tile, poison := framePoison hmask marks }
/-- The order of report from its bytes (R357); none for a byte that names no record. -/
def orderFrom (s : State) (t : Nat) (bs : List Byte) : Option (List Nat) :=
  let cs := (collsOf s t).map (·.1)
  allSome ((bs.takeWhile (· != 0xFF)).map fun b =>
    let n := b.toNat
    if n < 0x22 then some n else (cs[n - 0x22]?).map (0x1000 + ·))
/-- Poisoned units of a group from the marked granules of its area: offsets at multiples of 64 (R359). -/
def poisonFrom (d : Desc) (marks : List Nat) : List PoisonUnit :=
  let lanes := marks.flatMap fun o => if 0x4000 ≤ o ∧ o < 0x4000 + 512 * d.v then
    (List.range 16).map fun k => (⟨1, (o - 0x4000) / 512, (o - 0x4000) % 512 / 4 + k⟩ : PoisonUnit) else []
  let slots := marks.filterMap fun o => if 0x4000 + 512 * d.v ≤ o then
    let k := o - 0x4000 - 512 * d.v
    some (⟨3, k / 16384, k % 16384 / 128⟩ : PoisonUnit) else none
  (lanes ++ slots).eraseDups
/-- A group from its area, over what the area does not hold of it (R355 to R359, log 7); none where a field breaks a limit or a granule that may not be is poisoned (R356). -/
def groupFrom (s : State) (d : Desc) (priv : BitVec 2) (a : Area) (marks : List Nat) (old : Group) : Option Group :=
  let flags := areaNat a 0x1D 1
  let hand := flags % 2 = 1
  let tiles := (List.range 16).map fun r => (BitVec.ofNat 128 (areaNat a (0x380 + 16 * r) 16) : TileDesc)
  let rec_ := fun (o : Nat) (c : Nat) (order : List Nat) => if order.contains c then some (recOfBytes (a o 16)) else none
  let frame := if hand then frameFrom a marks (old.handler.getD ⟨0, old.lane, 0, BitVec.allOnes 128, [], [], none, []⟩) else none
  let order := orderFrom s old.team (a 0xEA0 40)
  let held := ((order.getD []).filterMap fun c => if c < 2 then some (recOfBytes (a (0xE80 + 16 * c) 16)) else none) ++
    ((frame.map (·.lane.park.recs)).getD []).map (·.2)
  if 15 < flags ∨ !held.all recordOk ∨ (marks.any fun o => decide (o < 0xEC8 ∨ (0x1000 ≤ o ∧ o < 0x1E80))) ∨ (hand ∧ frame = none) ∨
     (tiles.any fun t => tdSpace t == 1 && decide (d.t ≤ tdBase t)) then none
  else match laneFrom a old.lane, order with
    | some l, some order =>
      let recs := recordsFrom a l.park.fmask
      let l : LaneCtx := { l with park := if l.park.fmask = 0 then Park.none else { l.park with recs := recs } }
      if !recs.all fun e => recordOk e.2 then none else
      let put {α : Type} [DecidableEq α] (z : α) (n : Nat) (f : Nat → α) : Tab α := (List.range n).foldl (fun t i => tput z t i (f i)) []
      some { old with
        r := { s := put 0 64 fun i => if i = 0 then 0 else BitVec.ofNat 64 (areaNat a (0x180 + 8 * i) 8)
               v := put zeroLanes d.v fun n => (List.range 128).map fun i => BitVec.ofNat 32 (areaNat a (0x4000 + 512 * n + 4 * i) 4)
               m := put zeroPred 8 fun n => if n = 0 then zeroPred else (elemsOf 4 (a (0x480 + 64 * n) 64)).map fun v => BitVec.ofNat 4 v
               q := put zeroQ d.q fun n => (List.range 128).map fun i => laOfBytes (a (0x4000 + 512 * d.v + 16384 * n + 128 * i) 128)
               t := put 0 16 fun n => tiles.getD n 0 }
        spc := BitVec.ofNat 64 (areaNat a 0 8), lane := l,
        cnt := { k := put [] 16 fun k => counterFrom (tget [] old.cnt.k k) (areaNat a (0x60 + 2 * k) 2)
                 loads := areaNat a 0x40 2, stores := areaNat a 0x42 2, copies := areaNat a 0x44 2, tiles := areaNat a 0x46 2,
                 loadsDue := 0, storesDue := 0 }
        level := if hand then (if priv = 0 then 1 else priv) else priv, handler := frame,
        pend := ⟨rec_ 0xE80 0 order, rec_ 0xE90 1 order, order⟩,
        fly := { InFlight.none with tile := tileFrom (flags / 4 % 2 == 1) old.fly.tile },
        trace := TraceCtx.off, poison := poisonFrom d marks }
    | _, _ => none

/-- A copy record of an area, over what the record does not hold of a copy (R244, R356, R358, log 7): none where it breaks a limit, no copy where its flags are clear. -/
def copyFrom (a : Area) (groups : List (Nat × Nat)) (m : Nat) (old : Option Copy) : Option (Option Copy) :=
  let o := 0x200 + 128 * m
  let flags := areaNat a (o + 73) 1
  let req := a o 64
  let r := recOfBytes (a (o + 80) 16)
  let some_ := if r = recBlank then none else some r
  if flags = 0 then some none
  else match groups.find? fun e => e.2 == areaNat a (o + 72) 1 with
    | none => none
    | some (g, _) =>
      if 3 < flags ∨ copyFlags req / 8 ≠ 0 ∨ zeroAt req 43 21 = false ∨ fieldAt req 42 1 / 16 ≠ 0 ∨ copyCount req < areaNat a (o + 64) 8 ∨
         recordOk r = false then none
      else
        let k := old.getD ⟨g, 0, [], [], 0, false, none, none, false, false⟩
        let k := { k with group := g, req := req, done := areaNat a (o + 64) 8, reported := flags == 2 }
        some (some (if flags = 3 then { k with suspended := true, susp := some_ } else { k with susp := none, record := some_ }))
/-- A team's stores from its area (R358); none where a field breaks a limit (R356). -/
def teamFrom (d : Desc) (a : Area) (marks : List Nat) (groups : List (Nat × Nat)) (old : Team) : Option Team :=
  let words := fun (n : Nat) => (BitVec.ofNat 64 (areaNat a (0x100 + 16 * n) 8), BitVec.ofNat 64 (areaNat a (0x108 + 16 * n) 8))
  let recs := (List.range 16).filterMap fun n => if words n = (0, 0) then none else some (n, words n)
  let copies := allSome ((List.range Config.copyLimit).map fun m => copyFrom a groups m (tget none old.copies m))
  if recs.any (fun e => (resTrap e.2.1 e.2.2).isSome) then none
  else copies.bind fun cs =>
    let copies := cs.zipIdx.foldl (fun t e => tput none t e.2 e.1) ([] : Tab (Option Copy))
    let tags := (List.range (d.s / 16)).foldl (fun t i => tput 0 t i (areaNat a (0x2000 + i / 4) 1 / 4 ^ (i % 4) % 4)) ([] : Tab Nat)
    let slots := (List.range (1024 * d.t)).foldl (fun t k => tput LA.zero t k (laOfBytes (a (0x8000 + d.s + 128 * k) 128))) ([] : Tab LA)
    let gran := marks.filterMap fun o => if 0x8000 ≤ o ∧ o < 0x8000 + d.s then some ((o - 0x8000) / 64)
      else if 0x8000 + d.s ≤ o ∧ o < 0x8000 + d.s + 131072 * d.t then some (2 ^ 32 + (o - 0x8000 - d.s) / 128) else none
    let t : Team := { old with scratch := mwrite [] 0 (a 0x8000 d.s), tags := tags, filling := [], parked := [], acc := slots, shadow := [],
                               recs := recs, copies := copies, preq := false, pdead := 0, poison := gran.eraseDups }
    some { t with obuf := (mwrite [] 0 (a (0x8000 + d.s + 131072 * d.t) 262144)).filter fun e => reserved t e.1 }

end Sys2Proof.Machine
end

