-- ==== Sys2Proof/Machine/SaveRestore.lean ====
section
/-! DEFINITION. Forced and cooperative saves of a node and its restore (R29, R320, R352 to R356, R360). -/

namespace Sys2Proof.Machine

open Sys2Proof

/-- The live teams of a launch on this chip beneath a node of level H. -/
def nodeTeams (s : State) (l n : Nat) : List Nat :=
  (s.work.teams.filter fun e => e.2.live && e.2.launch == l && saveNode s e.1 == n).map (·.1)
/-- A change of mode or of a carve-out that a group waits to see completed is still under way. -/
def changesOf (s : State) (g : Nat) : Bool :=
  s.dies.any fun e => (e.2.objs.any fun o => o.2.changes.any fun c => c.2.1 == g) || e.2.carve.any fun c => c.group == g
/-- Whether a group has stopped with every access it sent performed (R353 steps 1 and 3). -/
def quiet (s : State) (g : Nat) : Bool :=
  let x := group s g
  !sentWait x && x.fly.scalar.isNone && x.fly.lane.isNone && !x.lane.park.replaying && (x.fly.booth.all fun b => b.row.isNone) &&
  !changesOf s g
/-- Whether a team's copies and collectives stand where a save may stop them: copies at the end of a row, collectives between steps (R244, R293, R353). -/
def enginesStop (s : State) (t : Nat) : Bool :=
  ((team s t).copies.all fun e => e.2.all copyStops) && (collsOf s t).all fun e =>
    (e.2.queue.isEmpty && e.2.senders.isEmpty) || e.2.suspended || e.2.outcome.isSome || !ranksLive s e.2
/-- A group as it is saved (R353): its tile instruction and that of the context its handler interrupted are abandoned, its performed accesses are counted down, a waiting instruction and an unanswered booth request start again later. -/
def stopGroup (s : State) (g : Nat) : State :=
  let s := leaveBooth (traceStop s g false) g
  let s := if (tileOf (group s g)).any fun t => t.phase == .queued || t.phase == .running then abandonTile s g false else s
  modGroup s g fun x =>
    { x with lane := { x.lane with stopped := x.lane.park.fmask != 0 },
             cnt := { x.cnt with loads := x.cnt.loads - x.cnt.loadsDue, stores := x.cnt.stores - x.cnt.storesDue, loadsDue := 0, storesDue := 0 },
             fly := { x.fly with waiting := none, booth := none, yielded := false, tile := stopTile x.fly.tile },
             handler := x.handler.map fun f => { f with tile := stopTile f.tile } }
/-- The requester of a save or a restore (R356). -/
def saveWho (s : State) (l n : Nat) : Who :=
  let x := launch s l
  ⟨.save l n, x.part, x.d.asn, x.d.mask, 0⟩
/-- What the areas of some teams translate to, or wait, or a fault. -/
inductive AreasRes where
  | ok (areas : List (Nat × List Seg))
  | wait
  | fault (team : Nat)
/-- The save areas of teams, by team number, translated for an access (R356). -/
def areasOf (s : State) (l n : Nat) (acc : BitVec 3) : List Nat → State × AreasRes
  | [] => (s, .ok [])
  | no :: rest =>
    let d := (launch s l).d
    let base := teamSave d no
    if (addressFault d.mask base (teamArea d)).isSome then (s, .fault no)
    else match xlate s (saveWho s l n) acc base (teamArea d) with
      | (s, .wait) => (s, .wait)
      | (s, .fault _ _ _) => (s, .fault no)
      | (s, .ok segs) => match areasOf s l n acc rest with
        | (s, .ok more) => (s, .ok ((no, segs) :: more))
        | r => r
/-- A launch ends with the unhandled-fault error of a save or restore (R356, R377). -/
def saveFault (s : State) (l n no : Nat) : State :=
  killEverywhere (clearFaults s (.save l n)) l ⟨3, 0, 0x80FF, chipNo s, no, 0⟩
/-- A save or restore event of the distributor (R401, log 22). -/
def saveEvent (s : State) (l n code : Nat) : State :=
  let x := launch s l
  putRecord s x.part 0 ⟨8, 0, sourceId (chipNo s) 0 9 0, now s, BitVec.ofNat 8 code :: varint x.d.id.toNat ++ varint n, false⟩
/-- A team's area written as a store of the distributor (R133, R139, R141, R353): partial sums of the slots that it meets are merged first, sharers of the lines get their updates. -/
def storeArea (s : State) (l t : Nat) (segs : List Seg) : State :=
  let x := launch s l
  let va := teamSave x.d (team s t).no
  updateWith sendCopies (writeArea (settle s x.part va segs) t segs) x.part va (segsLen segs)
/-- Areas about to be read, with the partial sums of the slots that they meet merged (R140). -/
def settleAreas (s : State) (l : Nat) (areas : List (Nat × List Seg)) : State :=
  areas.foldl (fun s e => settle s (launch s l).part (teamSave (launch s l).d e.1) e.2) s
/-- A team's record kept beside its save area, and the team released (R353 step 5). -/
def releaseTeam (s : State) (l n t : Nat) : State :=
  let x := team s t
  let rec_ : SavedTeam := ⟨t, x, x.groups.map fun g => (g, group s g)⟩
  freeTeam (modLaunch s l fun y => { y with saved := y.saved.map fun k => if k.node = n then { k with teams := k.teams ++ [rec_] } else k }) t
/-- The save of a node ends once its groups are quiet and its areas are mapped (R353, R354, R357). -/
def finishSave (s : State) (l n : Nat) : State :=
  let ts := nodeTeams s l n
  let gs := ts.flatMap fun t => (team s t).groups
  if !gs.all (quiet s) || !ts.all (enginesStop s) then s
  else match areasOf s l n 2 (ts.map fun t => (team s t).no) with
    | (s, .wait) => s
    | (s, .fault no) => saveFault s l n no
    | (s, .ok areas) =>
      let s := gs.foldl stopGroup (clearFaults s (.save l n))
      let s := (ts.zip areas).foldl (fun s e => storeArea s l e.1 e.2.2) s
      let s := ts.foldl (fun s t => releaseTeam s l n t) s
      let s := modLaunch s l fun x => { x with saved := x.saved.map fun k => if k.node = n then { k with complete := true } else k }
      let s := modLaunch s l fun x => { x with request := if requestPending s l then x.request else none
                                               yields := x.yields.filter fun e => e.2 != n, told := x.told.filter (· != n) }
      saveEvent s l n 0x0F
/-- The other chips that hold teams of a launch beneath a node of level H (R29). -/
def nodeOthers (s : State) (l n : Nat) : List Nat :=
  let x := launch s l
  (List.range 64).filter fun c => x.d.mask.getLsbD c && c != chipNo s &&
    (teamsHere x.d x.chip c).any fun t => nodeOf x.d (saveLevel x.d) t 0 == n
/-- The other chips of a node are told of its pre-emption, where it has some (R29, log 11). -/
def tellNode (s : State) (l n : Nat) (m : FarPreempt) : State :=
  let x := launch s l
  sendAll s ((nodeOthers s l n).map fun c => Msg.preempt c x.part x.d.id.toNat m)
/-- The save of a node under way goes on; one that has not begun begins, on every chip that holds a part of the node (R29, R353). -/
def saveStep (s : State) (l n : Nat) : State :=
  if (launch s l).saved.any fun k => k.node == n then
    (if (launch s l).saved.any fun k => k.node == n && !k.complete then finishSave s l n else s)
  else finishSave (saveEvent (tellNode (modLaunch s l fun x => { x with saved := x.saved ++ [⟨n, [], false⟩] }) l n (.save n)) l n 0x0E) l n
/-- `PDEAD_EXPIRY` (R320, R353): a core's pdead has reached 0, and the forced save of its node begins or goes on. -/
def execPdeadExpiry (t : Nat) (s : State) : Out :=
  let x := team s t
  .next (if x.live && x.preq && x.pdead == 0 then saveStep s x.launch (saveNode s t) else s)
/-- Whether a group is parked at `yieldc`, its phase not ended (R198, R352). -/
def hasYielded (s : State) (x : Group) : Bool :=
  !inHandler x && (match x.fly.waiting with | some (.yieldc _ _ _) => true | _ => false) && (waitOperand x).any fun a =>
    match clusterAddr s x.team (bits a 31 0) with
    | .at t off => (readBar (team s t) off).phase == bits a 63 48
    | _ => false
/-- Whether every team of this chip beneath a node has yielded (R352). -/
def chipYielded (s : State) (l n : Nat) : Bool :=
  (nodeTeams s l n).all fun t => (team s t).groups.all fun g => hasYielded s (group s g)
/-- `COOPERATIVE_SAVE` (R352): every team of a node that is asked to yield has yielded, on every chip that holds a part of it; a chip tells the others when its own teams have, and when they have not any more (log 11). -/
def execCooperativeSave (l n : Nat) (s : State) : Out :=
  let x := launch s l
  let begun := x.saved.any fun k => k.node == n && !k.complete
  let others := nodeOthers s l n
  let mine := chipYielded s l n
  let all := mine && !(nodeTeams s l n).isEmpty && others.all fun c => x.yields.contains (c, n)
  .next (if begun || (requestPending s l && all) then saveStep s l n
    else if others.isEmpty || x.request.isNone || mine == x.told.contains n then s
    else tellNode (modLaunch s l fun x => { x with told := if mine then n :: x.told else x.told.filter (· != n) }) l n
      (.yielded (chipNo s) n mine))
/-- What another chip tells of the pre-emption of a launch (R29, R320, R352, log 11): a request, whether its teams of a node have yielded, or that the save of a node has begun. -/
def preemptArrival (s : State) (part id : Nat) (m : FarPreempt) : State :=
  match if linked s then residentNamed s part id else none with
  | none => s
  | some l => match m with
    | .request dl => (askYield s l dl).1
    | .yielded c n all => modLaunch s l fun x =>
        let rest := x.yields.filter (· != (c, n))
        { x with yields := if all then (c, n) :: rest else rest }
    | .save n => if (nodeTeams s l n).isEmpty then s else saveStep s l n

/-- Every marked granule of an area, as an offset at a multiple of 64. -/
def areaMarks (s : State) (segs : List Seg) (n : Nat) : List Nat :=
  if s.bad.isEmpty then [] else ((List.range (n / 64)).map (64 * ·)).filter fun o =>
    (piecesAt segs o 1).any fun g => s.bad.contains (g.flat / 64)
/-- A saved team with its groups, as its area and what was kept of it give it back; none beyond a limit (R356). -/
def teamBack (s : State) (l : Nat) (k : SavedTeam) (segs : List Seg) : Option SavedTeam :=
  let x := launch s l
  let d := x.d
  let a := areaOf s segs
  let marks := areaMarks s segs (teamArea d)
  let groups := allSome (k.groups.map fun e =>
    let o := groupOffset d e.2.no
    let mine := (marks.filter fun m => o ≤ m && m < o + groupArea d).map (· - o)
    (groupFrom s d x.priv (fun off n => a (o + off) n) mine e.2).map fun y => (e.1, y))
  match teamFrom d a marks (k.groups.map fun e => (e.1, e.2.no)) k.t, groups with
  | some t, some gs => some { k with t := t, groups := gs }
  | _, _ => none
/-- A restored team stands on a core: its groups keep their quarters, count their age from now and start with sampling off (R32, R314, R355). -/
def reviveTeam (s : State) (k : SavedTeam) (c : Nat) : State :=
  let l := k.t.launch
  let s := setTeam s k.name { k.t with core := c, groups := [] }
  k.groups.foldl (fun s e =>
    let t := cycleOf s c
    let y : Group := { e.2 with phys := freeSlot s c (e.2.no % 4), age := (t, t), trace := { TraceCtx.off with bit := (launch s l).trace } }
    emitSync (addGroup s k.name e.1 y) e.1 3) s
/-- `NODE_RESTORE` (R355, R378): a saved node for which cores are free is read back and goes on. -/
def execNodeRestore (l n : Nat) (s : State) : Out :=
  let x := launch s l
  match x.saved.find? fun k => k.node == n && k.complete with
  | none => .next s
  | some k =>
    let heads := ((k.teams.map fun t => t.t.no / clusterSize x.d * clusterSize x.d)).eraseDups
    if !x.live || x.fin.isSome then .next s
    else match placeAll s l (roomFor s k.teams) [] heads with
      | none => .next s
      | some cores => match areasOf s l n 1 (k.teams.map fun t => t.t.no) with
        | (s, .wait) => .next s
        | (s, .fault no) => .next (saveFault s l n no)
        | (s, .ok areas) =>
          let s := settleAreas s l areas
          match allSome ((k.teams.zip areas).map fun e => teamBack s l e.1 e.2.2) with
          | none => .next (saveFault s l n ((k.teams.head?.map fun t => t.t.no).getD 0))
          | some ts =>
            if !cores.all fun e => roomFor s ts e.1 e.2 then .next s else
            let s := modLaunch (clearFaults s (.save l n)) l fun y => { y with saved := y.saved.filter fun j => j.node != n }
            let s := ts.foldl (fun s t => match cores.find? fun e => e.1 == t.t.no with
              | some e => reviveTeam s t e.2
              | none => s) s
            .next (saveEvent s l n 0x10)

end Sys2Proof.Machine
end

