-- ==== Sys2Proof/Machine/Streams.lean ====
section
/-! DEFINITION. Command streams (R368 to R373): where a queue's next packet stands, what a front end reads and writes, advance, stream errors, interrupts (R386). -/

namespace Sys2Proof.Machine

open Sys2Proof

/-- Bytes of a ring (R369). -/
def ringBytes (x : Queue) : Nat := 2 ^ x.lsize
/-- Whether a queue holds work (R369). -/
def holdsWork (x : Queue) : Bool := x.head != x.tail && x.en && !x.halt
/-- The die of a queue (R368). -/
def queueDie (q : Nat) : Nat := q / 8192
/-- The partition of a queue; 0 for one that has none and so no front end. -/
def partOfQueue (s : State) (q : Nat) : Nat := (queuePart s q).getD 0
/-- On whose behalf a front end reads and writes: the queue's partition and asn (R369); every chip may be named (log 24). -/
def queueWho (s : State) (q : Nat) (a : Agent) : Who :=
  ⟨a, partOfQueue s q, (queue s q).asn, BitVec.allOnes 64, queueDie q * 64⟩
/-- What a front end's read answers. -/
inductive QRead where
  | ok (bs : List Byte)
  | wait
  | fault
  deriving DecidableEq, Repr
/-- n bytes read by a front end, or by its copy engine, at scope 15 (R372). A page that faulted is remembered until the packet is done. -/
def queueRead (s : State) (who : Who) (va : Word) (n : Nat) : State × QRead :=
  if (addressFault who.mask va n).isSome then (s, .fault)
  else match xlate s who 1 va n with
    | (s, .wait) => (s, .wait)
    | (s, .fault _ _ _) => (s, .fault)
    | (s, .ok segs) => if (poisonIn s segs).isSome then (s, .fault)
      else
        let s := settle s who.part va segs
        (s, .ok (readSegs s segs))
/-- Bytes written by a front end. -/
def queueWrite (s : State) (who : Who) (va : Word) (bs : List Byte) : State × QRead :=
  if (addressFault who.mask va bs.length).isSome then (s, .fault)
  else match xlate s who 2 va bs.length with
    | (s, .wait) => (s, .wait)
    | (s, .fault _ _ _) => (s, .fault)
    | (s, .ok segs) => (homeWrite s who va segs bs, .ok [])

/-- Address of the next packet: in the ring, or in the buffer of a jump (R371). -/
def packetAt (x : Queue) : Word :=
  match x.jump with
  | some (a, _, off) => a + BitVec.ofNat 64 off
  | none => x.base + BitVec.ofNat 64 x.head
/-- Bytes before the end of the ring or buffer (R371). -/
def packetRoom (x : Queue) : Nat :=
  match x.jump with
  | some (_, n, off) => n - off
  | none => ringBytes x - x.head
/-- Bytes of packets that are offered: up to tail, or to the end of the buffer. -/
def packetsOffered (x : Queue) : Nat :=
  match x.jump with
  | some (_, n, off) => n - off
  | none => (x.tail + ringBytes x - x.head) % ringBytes x
/-- The stream moves past n bytes; at the end of a jump buffer it returns to the packet after the jump (R371). -/
def movePast (x : Queue) (n : Nat) : Queue :=
  match x.jump with
  | some (a, len, off) =>
    if len ≤ off + n then { x with jump := none, head := (x.head + 24) % ringBytes x } else { x with jump := some (a, len, off + n) }
  | none => { x with head := (x.head + n) % ringBytes x }
/-- The stream proceeds past a packet; the front end stays bound until head meets tail (R370). -/
def proceed (s : State) (q n : Nat) : State :=
  modQueue (clearFaults s (.queue q)) q fun x =>
    let y := { movePast x n with wait := false }
    { y with bound := if y.head = y.tail then none else y.bound }
/-- The interrupt of a queue's vector: of function 0 for the manager queue, else of its partition's; none while the partition is being reset (R367, R386, R387). -/
def raiseVector (s : State) (q : Nat) : State :=
  let x := queue s q
  let p := partOfQueue s q
  if partResetting s p then s
  else { s with out := { s.out with interrupts := s.out.interrupts ++ [(if x.priv = 2 then 0 else p + 1, x.vec.toNat)] } }
/-- A stream error (R373): the queue halts with head at the offending packet. -/
def streamError (s : State) (q code : Nat) : State :=
  raiseVector (modQueue (clearFaults s (.queue q)) q fun x => { x with halt := true, err := code, bound := none, jump := none, wait := false, released := false }) q

end Sys2Proof.Machine
end

