-- ==== Sys2Proof/Machine/Launches.lean ====
section
/-! DEFINITION. The life of a launch (R375 to R379): submission, the downbeat between chips, its end and the completion record. -/

namespace Sys2Proof.Machine

open Sys2Proof

/-- Bytes 0 to 8 of a completion record (R377). -/
def recordHead (id : BitVec 32) (e : EndInfo) : List Byte :=
  leBytes 4 id.toNat ++ [BitVec.ofNat 8 e.status, BitVec.ofNat 8 e.cause] ++ leBytes 2 e.code ++ [BitVec.ofNat 8 e.chip]
/-- A completion record (R377); `ends` is the time of the launch's end in 2^-8 ns. -/
def completionBytes (ends : Nat) (id : BitVec 32) (e : EndInfo) : List Byte :=
  recordHead id e ++ [0, 0, 0] ++ leBytes 4 e.team ++ [BitVec.ofNat 8 e.group] ++ List.replicate 7 0 ++ leBytes 8 (ends / 256)
/-- A launch record of this chip's distributor (R376, R379, R395). -/
def launchRecord (s : State) (part : Nat) (id : BitVec 32) (e : EndInfo) : State :=
  putRecord s part 0 ⟨0xD, 0, sourceId (chipNo s) 0 9 0, now s, recordHead id e, false⟩
/-- The end of a refused launch (R375, R376): status, cause, chip. -/
def refusal (status cause chip : Nat) : EndInfo := ⟨status, cause, 0, chip, 0, 0⟩
/-- A launch entered in the table. -/
def addLaunch (s : State) (x : Launch) : Nat × State :=
  let (l, s) := newName s
  (l, setLaunch s l x)
/-- A launch's record as its packet makes it (R374). -/
def launchOfPacket (s : State) (q : Nat) (d : Desc) (irq : Bool) : Launch :=
  { Launch.blank with live := true, d := d, part := partOfQueue s q, priv := (queue s q).priv, chip := chipNo s, queue := some q, irq := irq,
                      phase := .running, since := now s }
/-- A launch that has ended, or is refused, waits only for its completion record (R376, R379). -/
def refused (s : State) (x : Launch) (e : EndInfo) : Launch := { x with phase := .ending, fin := some e, ends := now s }
/-- The queue counts a launch among those that are not complete (R371). -/
def queueLaunch (s : State) (q l : Nat) : State := modQueue s q fun x => { x with launches := x.launches ++ [l] }
/-- Chips, other than this one, that hold a node of a launch (R375). -/
def otherChips (s : State) (d : Desc) : List Nat := (nodeChips d (chipNo s)).filter (· != chipNo s)

/-- A descriptor without faults of its own is submitted (R375): started, refused, or sent to the other chips. `n` is the length of its packet, past which the stream proceeds once it is decided. -/
def submit (s : State) (q n : Nat) (bs : List Byte) (irq : Bool) : State :=
  let d := readDescriptor bs
  let me := chipNo s
  let x := launchOfPacket s q d irq
  let own := treeFault s d (descDepth bs) me
  let others := otherChips s d
  if others = [] then
    let (l, s) := addLaunch s (match own with
      | some c => refused s x (refusal 1 c me)
      | none => x)
    proceed (queueLaunch s q l) q n
  else
    let g := s.gen + 1
    let (l, s) := addLaunch { s with gen := g }
      { x with phase := .joining, gen := g, replies := [(me, own.isNone, 1, own.getD 0)] }
    sendAll (queueLaunch s q l) (others.map fun c => Msg.join c g x.part x.priv.toNat bs)
/-- The joining launch of a queue, past which its stream may not proceed (R372). -/
def joiningOf (s : State) (q : Nat) : Option Nat :=
  (s.work.launches.find? fun e => e.2.live && e.2.queue == some q && e.2.phase == .joining).map (·.1)
/-- A multi-chip launch is refused on every chip (R375, R376). -/
def refuseAll (s : State) (l : Nat) (e : EndInfo) : State :=
  let x := launch s l
  let s := setLaunch s l (refused s x e)
  let s := sendAll s ((otherChips s x.d).map fun c => Msg.abort c x.gen e.status e.cause e.chip)
  match x.queue with
  | some q => proceed s q 16
  | none => s
/-- The lowest status and cause among refusals, and the lowest chip that reported them (R376). -/
def worst (rs : List (Nat × Bool × Nat × Nat)) : Option EndInfo :=
  let bad := rs.filter fun r => !r.2.1
  let key := fun (r : Nat × Bool × Nat × Nat) => (r.2.2.1 * 256 + r.2.2.2) * 64 + r.1
  (bad.foldl (fun a r => match a with
    | none => some r
    | some b => some (if key r < key b then r else b)) none).map fun r => refusal r.2.2.1 r.2.2.2 r.1
/-- Every chip has replied: the launch starts everywhere, or is refused everywhere (R375). -/
def decideJoins (s : State) (l : Nat) : State :=
  let x := launch s l
  let chips := chipNo s :: otherChips s x.d
  if !chips.all fun c => x.replies.any fun r => r.1 == c then s
  else match worst x.replies with
    | some e => refuseAll s l e
    | none =>
      let s := setLaunch s l { x with phase := .running, acks := [chipNo s], since := now s }
      let s := sendAll s ((otherChips s x.d).map fun c => Msg.downbeat c x.gen)
      match x.queue with
      | some q => proceed s q 16
      | none => s
/-- The launch that this chip submitted under a generation. -/
def ownGeneration (s : State) (g : Nat) : Option Nat :=
  (s.work.launches.find? fun e => e.2.live && e.2.queue.isSome && e.2.gen == g && g != 0).map (·.1)
/-- The launch that a chip submitted and that this chip holds a join for (R375). -/
def joinedUnder (s : State) (chip g : Nat) : Option Nat :=
  (s.work.launches.find? fun e => e.2.live && e.2.queue.isNone && e.2.chip == chip && e.2.gen == g && e.2.phase == .joined).map (·.1)
/-- The launch that a chip submitted and that this chip has joined or refused, of which it awaits the decision (R375, R376). -/
def awaitedUnder (s : State) (chip g : Nat) : Option Nat :=
  (s.work.launches.find? fun e => e.2.live && e.2.queue.isNone && e.2.chip == chip && e.2.gen == g &&
    (e.2.phase == .joined || e.2.phase == .refused)).map (·.1)
/-- Microseconds as 2^-8 ns. -/
def micros (n : Nat) : Nat := n * 256000

/-- What this chip has against a launch of another: the lowest status, and within it the lowest cause (R375, R376). -/
def joinFault (s : State) (part chip : Nat) (desc : List Byte) : Option (Nat × Nat) :=
  let d := readDescriptor desc
  match treeFault s d (descDepth desc) chip with
  | some c => some (1, c)
  | none => if idInUse s part d.id then some (5, 2) else if !partEnabled s part then some (5, 5) else none
/-- `LAUNCH_JOIN_REQUEST` (R375): the checks of R26, R28 and R377 on this chip, which reserve nothing; a join or a refusal is sent, and the decision is awaited. -/
def execLaunchJoinRequest (chip gen part priv : Nat) (desc : List Byte) (s : State) : Out :=
  if !linked s ∨ (awaitedUnder s chip gen).isSome then .next s
  else
    let x : Launch := { Launch.blank with live := true, d := readDescriptor desc, part := part, priv := BitVec.ofNat 2 priv, chip := chip,
                                          gen := gen, since := now s }
    match joinFault s part chip desc with
    | some (st, c) => .next (sendAll (addLaunch s { x with phase := .refused }).2 [Msg.reply chip gen false st c])
    | none => .next (sendAll (addLaunch s { x with phase := .joined }).2 [Msg.reply chip gen true 0 0])
/-- `JOIN_REPLY` (R375): a reply of another chip, which counts within the timeout; a join that is repeated after the decision is answered with it. -/
def execJoinReply (chip gen : Nat) (ok : Bool) (status cause : Byte) (s : State) : Out :=
  match ownGeneration s gen with
  | none => .next s
  | some l =>
    let x := launch s l
    if !linked s then .next s
    else if x.phase = .joining then
      if x.since + micros x.d.timeout ≤ now s then .next s else
      let rs := if x.replies.any fun r => r.1 == chip then x.replies else x.replies ++ [(chip, ok, status.toNat, cause.toNat)]
      .next (decideJoins (setLaunch s l { x with replies := rs }) l)
    else if ok then
      .next (sendAll s [match x.fin with
        | some e => if x.acks = [] then Msg.abort chip gen e.status e.cause e.chip else Msg.downbeat chip gen
        | none => Msg.downbeat chip gen])
    else .next s
/-- `DOWNBEAT` (R375): the joined launch starts, and the chip replies; without a join it is discarded. -/
def execDownbeat (chip gen : Nat) (s : State) : Out :=
  match joinedUnder s chip gen with
  | none => .next s
  | some l =>
    if linked s then .next (sendAll (modLaunch s l fun x => { x with phase := .running, since := now s }) [Msg.started chip gen]) else .next s
/-- A launch leaves the table; its collectives go with it. -/
def forgetLaunch (s : State) (l : Nat) : State :=
  setLaunch { s with work := { s.work with colls := s.work.colls.filter fun c => c.2.any fun x => x.launch != l } } l Launch.blank
/-- `ABORT` (R375, R376): the launch that this chip has joined or refused is dropped; its launch record tells what the completion record tells, the cause and the chip that has it. -/
def execAbort (chip gen status : Nat) (cause : Nat × Nat) (s : State) : Out :=
  match awaitedUnder s chip gen with
  | none => .next s
  | some l =>
    let x := launch s l
    .next (if linked s then launchRecord (forgetLaunch s l) x.part x.d.id (refusal status cause.1 cause.2) else s)
/-- `STARTED_REPLY` (R375). -/
def execStartedReply (chip gen : Nat) (s : State) : Out :=
  match ownGeneration s gen with
  | none => .next s
  | some l => .next (if linked s then modLaunch s l fun x => if x.acks = [] ∨ x.acks.contains chip then x else { x with acks := x.acks ++ [chip] } else s)
/-- The lowest chip of a launch's nodes that some list does not name. -/
def lowestMissing (s : State) (d : Desc) (have_ : List Nat) : Option Nat :=
  ((otherChips s d).filter fun c => !have_.contains c).foldl (fun a c => some (match a with | none => c | some b => min b c)) none
/-- `DOWNBEAT_TIMEOUT` (R375, R376): joins are missing at the timeout. -/
def execDownbeatTimeout (l : Nat) (s : State) : Out :=
  let x := launch s l
  if x.live && x.phase == .joining && decide (x.since + micros x.d.timeout ≤ now s) then
    match worst x.replies, lowestMissing s x.d (x.replies.map (·.1)) with
    | some e, _ => .next (refuseAll s l e)
    | none, some c => .next (refuseAll s l (refusal 2 0 c))
    | none, none => .next s
  else .next s
/-- `JOIN_RESEND_TIMEOUT` (R375): no decision within twice the timeout; the join is sent again. -/
def execJoinResendTimeout (chip gen : Nat) (s : State) : Out :=
  match joinedUnder s chip gen with
  | none => .next s
  | some l =>
    let x := launch s l
    .next (if x.since + 2 * micros x.d.timeout ≤ now s then
      sendAll (setLaunch s l { x with since := now s }) [Msg.reply chip gen true 0 0] else s)
/-- Whether a chip has been out of reach for 10 ms (R375, R382). -/
def outOfReach (s : State) (chip : Nat) : Bool := !reaches s.pod chip && decide (tget 0 s.pod.gone chip + micros 10000 ≤ now s)
/-- `JOIN_DROP_TIMEOUT` (R375): the submitting chip has been out of reach for 10 ms. -/
def execJoinDropTimeout (chip gen : Nat) (s : State) : Out :=
  match awaitedUnder s chip gen with
  | none => .next s
  | some l =>
    let x := launch s l
    .next (if outOfReach s chip then launchRecord (forgetLaunch s l) x.part x.d.id (refusal 2 0 chip) else s)
/-- `STARTED_TIMEOUT` (R375): a chip that was sent the downbeat has not replied; the launch ends on every chip. -/
def execStartedTimeout (l : Nat) (s : State) : Out :=
  let x := launch s l
  if x.live && x.phase == .running && x.fin.isNone && x.acks != [] && decide (x.since + 2 * micros x.d.timeout ≤ now s) then
    match lowestMissing s x.d x.acks with
    | some c => .next (killEverywhere s l (refusal 2 0 c))
    | none => .next s
  else .next s
/-- `LAUNCH_KILL_ARRIVAL` (R351, R387): the launch was killed on another chip. -/
def execLaunchKillArrival (part id status code chip team group : Nat) (s : State) : Out :=
  match launchNamed s part id with
  | some l => .next (if linked s then killLaunch s l ⟨status, 0, code, chip, team, group⟩ else s)
  | none => .next s

/-- Whether every team of this chip has ended (R379). -/
def teamsEnded (s : State) (l : Nat) : Bool :=
  let x := launch s l
  x.phase == .running && (teamsHere x.d x.chip (chipNo s)).all fun n => x.ended.contains n
/-- How a launch whose groups have ended is reported (R377): the chip is this one where all its nodes lie here, and is not stated where they do not (log 20). -/
def endInfo (s : State) (l : Nat) : EndInfo × State :=
  if otherChips s (launch s l).d = [] then (⟨0, 0, 0, chipNo s, 0, 0⟩, s)
  else
    let (v, s) := freeValue s
    (⟨0, 0, 0, bits v 5 0, 0, 0⟩, s)
/-- The end of a launch is taken down, with its time, when it is first met (R377, R379). -/
def noteEnd (s : State) (l : Nat) : State :=
  if (launch s l).fin.isSome then s
  else
    let (e, s) := endInfo s l
    modLaunch s l fun x => refused s x e
/-- The completion record is written or lost; nothing while its page is walked for (R377, R379). A launch killed by a reset of this chip writes none (R388). -/
def writeCompletion (s : State) (l q : Nat) (e : EndInfo) : Option State × State :=
  let x := launch s l
  if x.d.completion.toNat % 32 ≠ 0 ∨ (e.status = 4 ∧ e.chip = chipNo s) then (some s, s)
  else match queueWrite s (queueWho s q (.complete l)) x.d.completion (completionBytes x.ends x.d.id e) with
    | (s, .wait) => (none, s)
    | (s, _) => (some (clearFaults s (.complete l)), s)
/-- `LAUNCH_END` (R376, R379): every group has ended or the launch is killed or refused; groups that were stopped within an access are freed at their boundary first (R351); the submitting chip writes the completion record and sends the interrupt. -/
def execLaunchEnd (l : Nat) (s : State) : Out :=
  let x := launch s l
  if !x.live ∨ !(x.fin.isSome || teamsEnded s l) then .next s
  else
    let s := (teamsOf s l).foldl reapTeam s
    if (teamsOf s l) ≠ [] then .next s
    else match x.queue with
    | none => .next (forgetLaunch s l)
    | some q =>
      let s := noteEnd s l
      let e := (launch s l).fin.getD (refusal 0 0 0)
      match writeCompletion s l q e with
      | (none, t) => .next t
      | (some t, _) =>
        let t := launchRecord t x.part x.d.id e
        let t := modQueue t q fun y => { y with launches := y.launches.filter (· != l) }
        let t := if x.irq && !(e.status == 4 && e.chip == chipNo s) then raiseVector t q else t
        .next (forgetLaunch t l)

end Sys2Proof.Machine
end

