-- ==== Sys2Proof/Machine/Packets.lean ====
section
/-! DEFINITION. The packets of a command stream (R370 to R374): reading, checks in the order of their error codes, and what each does; binding and release of front ends. -/

namespace Sys2Proof.Machine

open Sys2Proof

/-- The lengths in words that a packet type allows (R371). -/
def packetLengths (ty : Nat) : Nat × Nat :=
  [(1, 255), (2, 2), (3, 3), (3, 3), (4, 4), (1, 1), (2, 2), (3, 3)].getD ty (1, 0)
/-- Whether a type may carry irq (R371). -/
def mayInterrupt (ty : Nat) : Bool := ty == 1 || ty == 3 || ty == 5
/-- What the header breaks (R371, R373); a set irq of another type counts as a bit that must be zero (log 24). -/
def headerError (h : Word) : Option Nat :=
  let ty := bits h 7 0
  let n := bits h 15 8
  let (lo, hi) := packetLengths ty
  if n < lo ∨ hi < n then some 1
  else if bits h 63 17 ≠ 0 ∨ (h.getLsbD 16 = true ∧ mayInterrupt ty = false) then some 2
  else none
/-- Word i of a packet's body. -/
def bodyWord (body : List Byte) (i : Nat) : Word := BitVec.ofNat 64 (fieldAt body (8 * i) 8)
/-- What word i of a body breaks (R371, R373): a misaligned address, a bit that must be zero, a count or length out of range (log 24). -/
def wordBad (ty i : Nat) (v : Word) : Bool :=
  let n := v.toNat
  match ty, i with
  | 1, 0 => decide (n % 256 ≠ 0)
  | 2, 0 => decide (n % 8 ≠ 0)
  | 3, 0 => decide (n % 8 ≠ 0)
  | 4, 2 => decide (bits v 63 32 ≠ 0 ∨ bits v 31 0 = 0)
  | 7, 0 => decide (n % 8 ≠ 0)
  | 7, 1 => decide (n % 8 ≠ 0 ∨ n < 8 ∨ 2 ^ 20 < n)
  | _, _ => false
/-- The words of a body that is read, one by one: the error of the lowest code among those read, 3 where one cannot be read, or the body (R373). -/
def readBody (who : Who) (ty : Nat) (at_ : Word) : Nat → Nat → State → List Byte → Option Nat → State × Option (Except Nat (List Byte))
  | 0, _, s, bs, e => (s, some (match e with | some c => .error c | none => .ok bs))
  | f + 1, i, s, bs, e => match queueRead s who (at_ + BitVec.ofNat 64 (8 * i)) 8 with
    | (s, .wait) => (s, none)
    | (s, .fault) => readBody who ty at_ f (i + 1) s bs (some (e.getD 3))
    | (s, .ok w) => readBody who ty at_ f (i + 1) s (bs ++ w) (if wordBad ty i (bodyWord w 0) then some 2 else e)
/-- Whether a queue's front end may take its next packet. -/
def mayRead (s : State) (q : Nat) : Bool :=
  let x := queue s q
  x.bound.isSome && holdsWork x && !x.wait && (joiningOf s q).isNone
/-- The next packet of a queue, when it is of a type: its checks, then its effect; a stream error where a check fails (R371, R373). `k` is given the body, irq and the length in bytes. -/
def onPacket (s : State) (q ty : Nat) (k : State → List Byte → Bool → Nat → State) : State :=
  let x := queue s q
  if !mayRead s q then s
  else
    let who := queueWho s q (.queue q)
    match queueRead s who (packetAt x) 8 with
    | (s, .wait) => s
    | (s, .fault) => streamError s q 3
    | (s, .ok hb) =>
      let h := bodyWord hb 0
      let n := 8 * bits h 15 8
      match headerError h with
      | some e => streamError s q e
      | none =>
        if bits h 7 0 ≠ ty then s
        else
          let short := decide (packetRoom x < n)
          if !short && decide (packetsOffered x < n) then s
          else
            let words := if ty = 0 then 0 else min n (packetRoom x) / 8 - 1
            match readBody who ty (packetAt x + 8) words 0 s [] none with
            | (s, none) => s
            | (s, some (.error e)) => streamError s q e
            | (s, some (.ok body)) => if short then streamError s q 5 else k s body (h.getLsbD 16) n

/-- `PACKET_NOP` (R371). -/
def execPacketNop (q : Nat) (s : State) : Out := .next (onPacket s q 0 fun s _ _ n => proceed s q n)
/-- A launch whose descriptor cannot be read (R377): its record goes where offset 0x040 says, if that can be read and used. -/
def unreadable (s : State) (q n : Nat) (addr : Word) (irq : Bool) : State :=
  let go := fun (s : State) (a : Word) =>
    let x := launchOfPacket s q { Desc.blank with completion := a } irq
    let (l, s) := addLaunch s (refused s x (refusal 5 4 (chipNo s)))
    proceed (queueLaunch s q l) q n
  match queueRead s (queueWho s q (.queue q)) (addr + 0x40) 8 with
  | (s, .wait) => s
  | (s, .fault) => go s 1
  | (s, .ok bs) => go s (bodyWord bs 0)
/-- `PACKET_LAUNCH` (R374, R375): the descriptor is read once and checked, and the launch is submitted or refused. -/
def execPacketLaunch (q : Nat) (s : State) : Out :=
  .next (onPacket s q 1 fun s body irq n =>
    let addr := bodyWord body 0
    match queueRead s (queueWho s q (.queue q)) addr 768 with
    | (s, .wait) => s
    | (s, .fault) => unreadable s q n addr irq
    | (s, .ok bs) => match refusalCause s (partOfQueue s q) (chipNo s) bs with
      | some c =>
        let x := launchOfPacket s q (readDescriptor bs) irq
        let (l, s) := addLaunch s (refused s x (refusal 5 c (chipNo s)))
        proceed (queueLaunch s q l) q n
      | none => submit s q n bs irq)
/-- The semaphore of a wait packet is read, as an acquire at scope 15 (R372); while it is below the value the queue waits. -/
def pollSemaphore (s : State) (q : Nat) (addr value : Word) : State :=
  match queueRead s (queueWho s q (.queue q)) addr 8 with
  | (s, .wait) => s
  | (s, .fault) => streamError s q 3
  | (s, .ok bs) =>
    if value.toNat ≤ ofLe bs then proceed s q 24
    else if (queue s q).wait then s
    else modQueue s q fun x => { x with wait := true, waitStart := cycleOf s (queueDie q * 64) }
/-- `PACKET_WAIT` (R371, R372). -/
def execPacketWait (q : Nat) (s : State) : Out :=
  .next (onPacket s q 2 fun s body _ _ => pollSemaphore s q (bodyWord body 0) (bodyWord body 1))
/-- `SEMAPHORE_SATISFIED` (R372): the semaphore of the wait packet at hand is read again. -/
def execSemaphoreSatisfied (q : Nat) (s : State) : Out :=
  let x := queue s q
  .next (if x.wait && x.bound.isSome && holdsWork x then
      match queueRead s (queueWho s q (.queue q)) (packetAt x + 8) 16 with
      | (s, .wait) => s
      | (s, .fault) => streamError s q 3
      | (s, .ok body) => pollSemaphore s q (bodyWord body 0) (bodyWord body 1)
    else s)
/-- Whether every earlier launch and copy of a stream has completed (R371, R372). -/
def streamIdle (x : Queue) : Bool := x.launches.isEmpty && x.copy.isNone
/-- `PACKET_SIGNAL` (R372, R386): once the earlier packets are complete the value is stored, and the interrupt follows. -/
def execPacketSignal (q : Nat) (s : State) : Out :=
  .next (onPacket s q 3 fun s body irq n =>
    if !streamIdle (queue s q) then s
    else match queueWrite s (queueWho s q (.queue q)) (bodyWord body 0) (leBytes 8 (bodyWord body 1).toNat) with
      | (s, .wait) => s
      | (s, .fault) => streamError s q 3
      | (s, .ok _) => proceed (if irq then raiseVector s q else s) q n)
/-- `PACKET_COPY` (R371, R372): the copy is handed to the front end's copy engine, which takes one at a time. -/
def execPacketCopy (q : Nat) (s : State) : Out :=
  .next (onPacket s q 4 fun s body _ n =>
    let x := queue s q
    if x.copy.isSome then s
    else proceed (setQueue s q { x with copy := some ⟨bodyWord body 0, bodyWord body 1, bits (bodyWord body 2) 31 0, 0, false, x.head⟩ }) q n)
/-- The next bytes of a front end's copy: to the end of the page at either end; those that fault are left out (R373). -/
def copyChunk (s : State) (q : Nat) (k : QCopy) : State :=
  let who := queueWho s q (.qcopy q)
  let src := k.src + BitVec.ofNat 64 k.done
  let dst := k.dst + BitVec.ofNat 64 k.done
  let n := min (k.count - k.done) (min (0x10000 - bits src 15 0) (0x10000 - bits dst 15 0))
  let note := fun (s : State) (bad : Bool) =>
    modQueue (clearFaults s (.qcopy q)) q fun x => { x with copy := some { k with done := k.done + n, failed := k.failed || bad } }
  match engineLoad s who src n with
  | (s, .wait) => s
  | (s, .suspend _) => note s true
  | (s, .bytes bs badR) => match engineStore s who dst bs with
    | (s, .wait) => s
    | (s, .suspend _) => note s true
    | (s, .done badW) => note s (badR.isSome || badW.isSome)
/-- `PACKET_COPY_DONE` (R371, R373): the copy goes on, and ends when every byte is written; a fault in it is a stream error, which waits while the stream waits for the joins of a launch (log 24). -/
def execPacketCopyDone (q : Nat) (s : State) : Out :=
  match (queue s q).copy with
  | none => .next s
  | some k =>
    if k.done < k.count then .next (copyChunk s q k)
    else if k.failed ∧ (joiningOf s q).isSome then .next s
    else
      let s := modQueue s q fun x => { x with copy := none }
      .next (if k.failed then streamError (modQueue s q fun x => { x with head := k.pos }) q 4 else s)
/-- `PACKET_FENCE` (R371, R372). -/
def execPacketFence (q : Nat) (s : State) : Out :=
  .next (onPacket s q 5 fun s _ irq n => if streamIdle (queue s q) then proceed (if irq then raiseVector s q else s) q n else s)
/-- `PACKET_MARK` (R371, R395). -/
def execPacketMark (q : Nat) (s : State) : Out :=
  .next (onPacket s q 6 fun s body _ n =>
    let src := sourceId (chipNo s) (queueDie q) 5 (((queue s q).bound).getD 0)
    proceed (putRecord s (partOfQueue s q) (queueDie q) ⟨6, 1, src, now s, varint q ++ body.take 8, true⟩) q n)
/-- `PACKET_JUMP` (R371, R373): the buffer's packets follow; head stays at the jump. A jump inside a buffer is an error. -/
def execPacketJump (q : Nat) (s : State) : Out :=
  .next (onPacket s q 7 fun s body _ _ =>
    if (queue s q).jump.isSome then streamError s q 5
    else modQueue s q fun x => { x with jump := some (bodyWord body 0, (bodyWord body 1).toNat, 0) })

/-- Whether a released queue's work can proceed: its semaphore, if it can be read at once, has reached the value (R370). -/
def canProceed (s : State) (q : Nat) : Bool :=
  let x := queue s q
  if !x.released then true
  else match queueRead s (queueWho s q (.queue q)) (packetAt x + 8) 16 with
    | (_, .ok body) => match queueRead s (queueWho s q (.queue q)) (bodyWord body 0) 8 with
      | (_, .ok v) => decide ((bodyWord body 1).toNat ≤ ofLe v)
      | _ => true
    | _ => true
/-- Front ends of a die that are bound, with the queues they are bound to. -/
def boundOn (s : State) (d : Nat) : List (Nat × Nat) :=
  s.queues.filterMap fun e => if queueDie e.1 = d then e.2.bound.map fun f => (f, e.1) else none
/-- Whether a queue waits for a front end that it could be given (R368, R370). -/
def wantsFrontEnd (s : State) (q : Nat) : Bool :=
  let x := queue s q
  let on := boundOn s (queueDie q)
  match queuePart s q with
  | none => false
  | some p => x.bound.isNone && holdsWork x && !partResetting s p && decide (on.length < 64) &&
    decide ((on.filter fun e => queuePart s e.2 == some p).length < bits (preg s p 0x030) 39 32) && canProceed s q
/-- `FRONT_END_BIND` (R370): of the queues that wait on a die, the one whose doorbell came first is bound, to the lowest free front end. -/
def execFrontEndBind (q : Nat) (s : State) : Out :=
  let d := queueDie q
  let first := s.queues.all fun e => queueDie e.1 != d || e.1 == q || !wantsFrontEnd s e.1 || decide ((queue s q).order ≤ e.2.order)
  if wantsFrontEnd s q && first then
    let used := (boundOn s d).map (·.1)
    let f := ((List.range 64).find? fun f => !used.contains f).getD 0
    .next (modQueue s q fun x => { x with bound := some f, released := false, waitStart := if x.wait then cycleOf s (d * 64) else x.waitStart })
  else .next s
/-- `FRONT_END_RELEASE` (R370): a semaphore wait has been unsatisfied for 65,536 cycles. -/
def execFrontEndRelease (q : Nat) (s : State) : Out :=
  let x := queue s q
  .next (if x.wait && x.bound.isSome && decide (x.waitStart + Config.semaphoreLimit ≤ cycleOf s (queueDie q * 64)) then
    setQueue s q { x with bound := none, released := true } else s)

end Sys2Proof.Machine
end

