-- ==== Sys2Proof/Machine/HostRegs.lean ====
section
/-! DEFINITION. The host's writes through the register windows (R6, R367 to R369, R383, R399): queue registers, pod registers, partition registers. -/

namespace Sys2Proof.Machine

open Sys2Proof

/-- A queue whose doorbell moves tail: one that was empty takes its place in the order of doorbells (R370). -/
def ringDoorbell (s : State) (q : Nat) (tail : Nat) : State :=
  let x := queue s q
  if tail % 8 ≠ 0 ∨ ringBytes x ≤ tail then s
  else if x.head = x.tail ∧ tail ≠ x.tail then
    setQueue { s with order := s.order + 1 } q { x with tail := tail, order := s.order + 1 }
  else setQueue s q { x with tail := tail }
/-- A write of base and lsize (R369). -/
def writeRing (s : State) (q : Nat) (v : Word) : State :=
  let x := queue s q
  let base := v &&& ~~~(0xFFF : Word)
  let n := bits v 4 0
  if n < 12 ∨ 24 < n ∨ (holdsWork x = true ∧ (base ≠ x.base ∨ n ≠ x.lsize)) then s
  else setQueue s q { x with base := base, lsize := n }
/-- A write of asn, priv, vec and en (R369, R384); priv only through function 0. -/
def writeControl (s : State) (fn q : Nat) (v : Word) : State :=
  let x := queue s q
  let priv : BitVec 2 := if fn = 0 then BitVec.ofNat 2 (bits v 15 14) else x.priv
  let asn : BitVec 8 := BitVec.ofNat 8 (bits v 23 16)
  let frozen := priv != x.priv && (queuePart s q).any (locked s)
  if frozen then
    let p := partOfQueue s q
    beginReset { s with tdisp := tput .configUnlocked s.tdisp p .error } p
  else if priv = 3 ∨ (priv = 2 ∧ (s.queues.any fun e => e.1 != q && e.2.priv == 2)) ∨ (holdsWork x = true ∧ asn ≠ x.asn) then s
  else setQueue s q { x with asn := asn, priv := priv, vec := BitVec.ofNat 6 (bits v 6 1), en := v.getLsbD 0 }
/-- A write of 1 to halt clears it and err, and reading resumes at head (R369). -/
def clearHalt (s : State) (q : Nat) (v : Word) : State :=
  if v.getLsbD 0 then modQueue s q fun x => { x with halt := false, err := 0 } else s
/-- A write of a queue's register at an offset (R369); head and the reserved offsets take none. -/
def writeQueue (s : State) (fn q off : Nat) (v : Word) : State :=
  match off with
  | 0x00 => writeRing s q v
  | 0x08 => writeControl s fn q v
  | 0x10 => ringDoorbell s q (bits v 31 0)
  | 0x20 => clearHalt s q v
  | _ => s

/-- Entries of a table moved with their keys from one range of n keys to another. -/
def moveRange {α : Type} (t : Tab α) (src dst n : Nat) : Tab α :=
  let moved := (t.filter fun e => decide (src ≤ e.1 ∧ e.1 < src + n)).map fun e => (e.1 - src + dst, e.2)
  let rest := t.filter fun e => !decide (src ≤ e.1 ∧ e.1 < src + n) && !decide (dst ≤ e.1 ∧ e.1 < dst + n)
  (rest.filter fun e => decide (e.1 < dst)) ++ moved ++ rest.filter fun e => decide (dst ≤ e.1)
/-- A number moved with its range. -/
def moveNat (src dst n k : Nat) : Nat := if src ≤ k ∧ k < src + n then k - src + dst else k
/-- A launch whose mask names this package alone keeps naming it (log 24). -/
def renumberLaunch (old new : Nat) (x : Launch) : Launch :=
  let y : Launch := if x.d.mask = BitVec.ofNat 64 (2 ^ old) then { x with d := { x.d with mask := BitVec.ofNat 64 (2 ^ new) } } else x
  if y.chip = old then { y with chip := new } else y
/-- The package takes another number: what the state keys by the number of the package is keyed by the new one (R96, R383). -/
def renumber (s : State) (old new : Nat) : State :=
  if old = new then s
  else
    let m (k : Nat) : Nat := moveNat (4 * old) (4 * new) 4 k
    let a (k : Nat) : Nat := moveNat (hostBase old) (hostBase new) (2 ^ 52) (moveNat (dieBase (4 * old)) (dieBase (4 * new)) (2 ^ 54) k)
    { s with
      dies := moveRange s.dies (4 * old) (4 * new) 4
      mem := moveRange (moveRange s.mem (dieBase (4 * old)) (dieBase (4 * new)) (2 ^ 54)) (hostBase old) (hostBase new) (2 ^ 52)
      bad := s.bad.map fun b => a (64 * b) / 64
      parts := s.parts.map fun p => { p with die := m p.die, slot := a p.slot }
      work := { s.work with
        walks := s.work.walks.map fun (e : Nat × Option Walk) => (e.1, e.2.map fun w => { w with die := m w.die })
        faults := s.work.faults.map fun e => (e.1, m e.2.1, e.2.2)
        launches := s.work.launches.map fun (e : Nat × Launch) => (e.1, renumberLaunch old new e.2) } }
/-- Whether a launch that is running or saved names a chip other than this one (R383). -/
def multiChipWork (s : State) : Bool :=
  s.work.launches.any fun e => e.2.live && e.2.phase == .running && e.2.fin.isNone && (e.2.d.mask &&& ~~~BitVec.ofNat 64 (2 ^ chipNo s)) != 0
/-- podpeers' own bit: 1 while en is 1 and dup is 0 (R383). -/
def ownPeer (p : Pod) : Pod :=
  let b : BitVec 64 := BitVec.ofNat 64 (2 ^ p.chip.toNat)
  { p with peers := if p.en && !p.dup then p.peers ||| b else p.peers &&& ~~~b }
/-- A write of podcfg (R383). -/
def writePodcfg (s : State) (v : Word) : State :=
  let old := s.pod
  let chip : BitVec 6 := BitVec.ofNat 6 (bits v 5 0)
  let en := v.getLsbD 8
  if (old.en && chip != old.chip) || (old.en && !en && multiChipWork s) then s
  else
    let was := chipNo s
    let pod : Pod := if en then (if old.en then old else ownPeer { old with chip := chip, en := true, dup := false, peers := 0 })
      else { old with chip := chip, en := false, dup := false, peers := 0 }
    let s := renumber (setPod s pod) was (if en then chip.toNat else 0)
    if en && !old.en then sendAll s [Msg.announce chip.toNat] else s

/-- The queue, and the offset in its registers, that an offset of a function's BAR 0 names (R367, R368). -/
def queueAt (s : State) (fn off : Nat) : Option (Nat × Nat) :=
  if fn = 0 then
    if 0x200000 ≤ off ∧ off < 0x200000 + 64 * Config.queues then some ((off - 0x200000) / 64, (off - 0x200000) % 64) else none
  else if fn ≤ 16 ∧ off / 64 < (queueRange s (fn - 1)).2 then some ((queueRange s (fn - 1)).1 + off / 64, off % 64)
  else none
/-- The partition register that an offset of function 0's BAR 0 names (R367). -/
def pregAt (off : Nat) : Option (Nat × Nat) :=
  if 0x100000 ≤ off ∧ off < 0x110000 ∧ off % 8 = 0 then some ((off - 0x100000) / 0x1000, (off - 0x100000) % 0x1000 / 8) else none
/-- Whether the package answers accesses to its windows: bootst.state reads 2 (R406). -/
def ready (s : State) : Bool := s.boot.power && s.boot.phase == 2
/-- An access that the package completes with an unsupported-request status (R406). -/
def unsupported (s : State) : State := { s with out := { s.out with unsupported := s.out.unsupported + 1 } }
/-- bootst as the host reads it (R406). -/
def bootst (b : Boot) : Word := BitVec.ofNat 64 (b.attempt % 256 * 2 ^ 24 + b.step % 256 * 2 ^ 16 + b.outcome % 256 * 2 ^ 8 + b.phase % 4)
/-- podcfg as the host reads it (R383). -/
def podcfgWord (p : Pod) : Word := BitVec.ofNat 64 ((if p.dup then 512 else 0) + (if p.en then 256 else 0) + p.chip.toNat)
/-- A queue's register at an offset as the host reads it (R369). -/
def queueWord (x : Queue) (off : Nat) : Word :=
  match off with
  | 0x00 => x.base ||| BitVec.ofNat 64 x.lsize
  | 0x08 => BitVec.ofNat 64 (x.asn.toNat * 2 ^ 16 + x.priv.toNat * 2 ^ 14 + x.vec.toNat * 2 + if x.en then 1 else 0)
  | 0x10 => BitVec.ofNat 64 x.tail
  | 0x18 => BitVec.ofNat 64 x.head
  | 0x20 => BitVec.ofNat 64 (x.err * 256 + (if x.wait then 2 else 0) + if x.halt then 1 else 0)
  | _ => 0
/-- The offsets of the boot registers in BAR 0 of function 0 (R406), which are answered whenever the package has power. -/
def bootOffsets : List Nat := [0, 8, 0x10]
/-- A host write through the window on the slot tables (R308): an entry of a shadow table takes bits [19:0] and the reserved ones are discarded (R6), or a core is to copy at its next wrap (R316); a vacant position takes nothing (R315). -/
def writeSlot (s : State) (place : Nat × Option Nat) (v : Word) : State :=
  modCore s place.1 fun k =>
    if k.vacant then k
    else match place.2 with
      | some e => { k with shadow := tput slotReset k.shadow (e % 64) (BitVec.ofNat 20 v.toNat) }
      | none => { k with copy := true }
/-- What a host read through the window on the slot tables answers (R308): a live entry, 0 at a vacant position (R315). -/
def readSlot (s : State) (place : Nat × Option Nat) : Word :=
  match place.2 with
  | some e => if (core s place.1).vacant then 0 else (tget slotReset (core s place.1).live (e % 64)).zeroExtend 64
  | none => 0
/-- A host write of 8 bytes to a function's BAR 0 (R6, R367, R406); what names no register, and a register that is read-only, takes none.
R308 lets the host reach the slot tables through a register window too, for which R367 gives no offsets: the opaque map `Config.slotWindow` names them (log 24). -/
def hostWrite (s : State) (fn off : Nat) (v : Word) : State :=
  if fn = 0 ∧ off = 8 ∧ s.boot.power = true then
    if v.toNat % 4096 = 0 then { s with boot := { s.boot with fwbase := v } } else s
  else if !ready s then (if s.boot.power && !(fn == 0 && bootOffsets.contains off) then unsupported s else s)
  else if fn = 0 ∧ off = 0x100 then writePodcfg s v
  else match queueAt s fn off with
    | some (q, r) => writeQueue s fn q r v
    | none => match pregAt off with
      | some (p, r) => if fn = 0 then hostReg s p r v else s
      | none => if fn = 0 then (match Config.slotWindow off with
        | some place => writeSlot s place v
        | none => s) else s
/-- What a host read of 8 bytes of a function's BAR 0 answers (R6, R367, R406); reserved offsets read 0, and before state 2 only the boot registers are answered, the others with an unsupported-request status. -/
def hostRead (s : State) (fn off : Nat) : Option Word :=
  if fn = 0 ∧ off = 0 then some (bootst s.boot)
  else if fn = 0 ∧ off = 8 then some s.boot.fwbase
  else if fn = 0 ∧ off = 0x10 then some (BitVec.ofNat 64 s.boot.fwlen)
  else if !ready s then none
  else if fn = 0 ∧ off = 0x100 then some (podcfgWord s.pod)
  else if fn = 0 ∧ off = 0x108 then some s.pod.peers
  else match queueAt s fn off with
    | some (q, r) => some (queueWord (queue s q) r)
    | none => match pregAt off with
      | some (p, r) => some (if fn = 0 then preg s p r else 0)
      | none => some (if fn = 0 then (match Config.slotWindow off with
        | some place => readSlot s place
        | none => 0) else 0)
/-- The offset of queue register r of a function's queue (R367, R368). -/
def queueOffset (fn q r : Nat) : Nat := (if fn = 0 then 0x200000 else 0) + 64 * q + r
/-- A host write of register r of a partition, through function 0 (R367). -/
def hostPreg (s : State) (p r : Nat) (v : Word) : State := if p < 16 then hostWrite s 0 (0x100000 + 0x1000 * p + 8 * r) v else s

/-- `DOORBELL` (R369). -/
def execDoorbell (fn q : Nat) (v : Word) (s : State) : Out := .next (hostWrite s fn (queueOffset fn q 0x10) v)
/-- `HALT_CLEAR` (R369). -/
def execHaltClear (fn q : Nat) (v : Word) (s : State) : Out := .next (hostWrite s fn (queueOffset fn q 0x20) v)
/-- `PCTL_WRITE` (R312, R387). -/
def execPctlWrite (p : Nat) (v : Word) (s : State) : Out := .next (hostPreg s p 0x000 v)
/-- `PTRACE_WRITE` (R399). -/
def execPtraceWrite (p : Nat) (v : Word) (s : State) : Out := .next (hostPreg s p 0x050 v)
/-- `CSCTL_WRITE` (R391). -/
def execCsctlWrite (p d : Nat) (v : Word) (s : State) : Out := .next (if d < 4 then hostPreg s p (0x044 + d) v else s)
/-- `CSRD_WRITE` (R391). -/
def execCsrdWrite (p d : Nat) (v : Word) (s : State) : Out := .next (if d < 4 then hostPreg s p (0x04C + d) v else s)
/-- `PODCFG_WRITE` (R383). -/
def execPodcfgWrite (v : Word) (s : State) : Out := .next (hostWrite s 0 0x100 v)
end Sys2Proof.Machine
end

