-- ==== Sys2Proof/Machine/Platform.lean ====
section
/-! DEFINITION. What happens around the dies: the boot journal (R408), pod and links (R14, R382, R383), time (R389, R396), clocks (R405, R412), soft errors (R359), device interfaces and measurements (R384, R385), the host's memory accesses (R381). Each does nothing while the module has no power. -/

namespace Sys2Proof.Machine

open Sys2Proof

/-- A step of an event, while the module has power. -/
def powered (s : State) (f : State → State) : Out := .next (if s.boot.power then f s else s)
/-- A step of an event that the package takes once it is ready (R406). -/
def whenReady (s : State) (f : State → State) : Out := .next (if ready s then f s else s)

/-- Entries a journal holds (R408). -/
def journalSize : Nat := 16384
/-- The first 24 bytes of a journal entry (R408). -/
def Journal.body (e : Journal) : List Byte :=
  leBytes 8 e.seq ++ [BitVec.ofNat 8 e.step, BitVec.ofNat 8 e.outcome] ++ leBytes 2 e.unit ++ leBytes 4 e.detail ++ leBytes 8 e.time
/-- The 32 bytes of a whole journal entry, as module flash holds them (R408). -/
def Journal.bytes (e : Journal) : List Byte := e.body ++ (Config.shake256 e.body 8).take 8
/-- A journal entry is appended (R408): it stands after the last whole one and overwrites the oldest when the ring is full; event 0x0D goes with it. -/
def writeJournal (s : State) (step outcome unit detail : Nat) : State :=
  let whole := s.boot.journal.filter fun e => !e.torn
  let seq := (whole.map (·.seq)).foldl max 0 + 1
  let js := whole ++ [⟨seq, step, outcome, unit % 65536, detail % 2 ^ 32, now s / 256, false⟩]
  engineEvent { s with boot := { s.boot with journal := js.drop (js.length - journalSize) } } 0 0 8 0 0x0D (varint step ++ varint outcome)

/-- `POD_ANNOUNCEMENT` (R383): `dup` tells that more than one reachable package announces the number. -/
def execPodAnnouncement (chip : Nat) (dup : Bool) (s : State) : Out :=
  powered s fun s =>
    let b : BitVec 64 := BitVec.ofNat 64 (2 ^ chip)
    let p := s.pod
    if !p.en then s
    else if chip = p.chip.toNat then setPod s (ownPeer { p with dup := true })
    else setPod s { p with peers := if dup then p.peers &&& ~~~b else p.peers ||| b }
/-- `CHIP_UNREACHABLE` (R383): a number is no longer announced by a reachable package. -/
def execChipUnreachable (chip : Nat) (s : State) : Out :=
  powered s fun s =>
    let p := s.pod
    if chip = p.chip.toNat then setPod s (ownPeer { p with dup := false })
    else setPod s { p with peers := p.peers &&& ~~~BitVec.ofNat 64 (2 ^ chip) }
/-- A failure that the running package detects is journalled for the next cold start (R408); its detail is left open (log 20). -/
def journalFailure (s : State) (step unit : Nat) : State :=
  let (v, s) := freeValue s
  writeJournal s step 2 unit (bits v 31 0)
/-- `UALINK_LANE_FAILURE` (R14): a port brings in its spare lane, or goes down when that is in use; the failure is journalled, so that the next cold start takes the port's alternative (R408). -/
def execUalinkLaneFailure (port : Nat) (s : State) : Out :=
  powered s fun s =>
    let now_ := tget 0 s.pod.ports port
    if 12 ≤ port ∨ 2 ≤ now_ then s
    else
      let s := engineEvent { s with pod := { s.pod with ports := tput 0 s.pod.ports port (now_ + 1) } } 0 (port / 3) 7 port 0x0C
        (varint port ++ varint (if now_ = 0 then 4 else 0) ++ varint 1)
      journalFailure s 8 (port / 3 * 256 + port)
/-- `REMOTE_REQUEST_TIMEOUT` (R382): a request that has waited for another chip for 10 ms takes the address fault. -/
def execRemoteRequestTimeout (a : Agent) (s : State) : Out :=
  powered s fun s =>
    match s.work.waits.find? fun e => e.agent == a with
    | none => s
    | some r => match walk s r.walk with
      | none => s
      | some x =>
        if x.die / 4 = chipNo s ∨ now s < r.since + 2560000000 then s
        else
          let rest := s.work.waits.filter fun e => e.agent != a
          let s := { s with work := { s.work with waits := rest, faults := s.work.faults ++ [(a, x.die, pageOf x.va, causeUndelivered)] } }
          if rest.any fun e => e.walk == r.walk then s else setWalk s r.walk none

/-- Nanoseconds as 2^-8 ns. -/
def nanos (n : Nat) : Nat := n * 256
/-- `PTP_INPUT_LOSS` (R389): the input is lost. -/
def execPtpInputLoss (s : State) : Out :=
  powered s fun s =>
    if s.time.lock = .locked ∨ s.time.outside then { s with time := { s.time with lock := .holdover, lost := now s, outside := false } } else s
/-- Whether the input has been lost for 1 s (R389). -/
def holdoverOver (s : State) : Bool :=
  s.time.lock == .holdover && !s.time.outside && decide (s.time.lost + nanos 1000000000 ≤ now s)
/-- `HOLDOVER_EXPIRY` (R389). -/
def execHoldoverExpiry (s : State) : Out :=
  powered s fun s => if holdoverOver s then { s with time := { s.time with lock := .freeRunning } } else s
/-- `PTP_INPUT_RESTORE` (R389): the input is there, outside its tolerance where no offset comes with it; an offset in 2^-8 ns is slewed away, or taken in one forward step where it is forward and larger than 1 ms. -/
def execPtpInputRestore (offset : Option Int) (s : State) : Out :=
  powered s fun s =>
    match offset with
    | none => { s with time := { s.time with lock := .holdover, outside := true } }
    | some n =>
      if (nanos 1000000 : Int) < n then
        { s with time := { s.time with lock := .locked, outside := false, slew := 0, now := now s + n.toNat }
                 sinks := s.sinks.map fun (e : Nat × Sink) => (e.1, { e.2 with stepped := true }) }
      else { s with time := { s.time with lock := .locked, outside := false, slew := n } }
/-- Whether a sink's time has come to write a time-base record: it has been enabled, or its last one is 1 ms old (R396). -/
def timeBaseTime (s : State) (p d : Nat) : Bool := (sink s p d).fresh || decide ((sink s p d).base + nanos 1000000 ≤ now s)
/-- `TIME_BASE_TIMER` (R396): 1 ms after its last time-base record a sink writes another; on a stopped die nothing (R405). -/
def execTimeBaseTimer (p d : Nat) (s : State) : Out :=
  powered s fun s =>
    if p < 16 ∧ d < 4 ∧ sinkOn s p d = true ∧ (die s (chipNo s * 4 + d)).stopped = false ∧ timeBaseTime s p d = true ∧ (sink s p d).held.all (fun r => r.typ != 0xC) then
      putRecord s p d (timeBaseRec s p d)
    else s
/-- `HELD_RECORD_EMIT` (R403): records that a sink holds are written as they fit. -/
def execHeldRecordEmit (p d : Nat) (s : State) : Out :=
  powered s fun s => if p < 16 ∧ d < 4 ∧ (die s (chipNo s * 4 + d)).stopped = false then drainAll s p d else s

/-- A record to every partition's sink of a die (R394). -/
def toAllSinks (s : State) (d typ : Nat) (body : List Byte) : State :=
  (List.range 16).foldl (fun s p => putRecord s p d ⟨typ, 0, timeSource s d, now s, body, false⟩) s
/-- A die's clock takes a frequency, and its sinks a rate record (R405). -/
def setClock (s : State) (d mhz : Nat) : State := toAllSinks (modDie s (chipNo s * 4 + d) fun x => { x with mhz := mhz }) d 9 (varint mhz)
/-- `CLOCK_LIMIT` (R412): the clock of a die is lowered. -/
def execClockLimit (d mhz : Nat) (s : State) : Out :=
  powered s fun s =>
    let x := die s (chipNo s * 4 + d)
    if d < 4 ∧ x.stopped = false ∧ 0 < mhz ∧ mhz < x.mhz then setClock s d mhz else s
/-- `CLOCK_RAISE` (R405): a lowered clock is raised again, at most to the nominal 1.6 GHz (R3). -/
def execClockRaise (d mhz : Nat) (s : State) : Out :=
  powered s fun s =>
    let x := die s (chipNo s * 4 + d)
    if d < 4 ∧ x.stopped = false ∧ x.mhz < mhz ∧ mhz ≤ 1600 then setClock s d mhz else s
/-- `CLOCK_STOP` (R405). -/
def execClockStop (d : Nat) (s : State) : Out :=
  powered s fun s => if d < 4 then modDie s (chipNo s * 4 + d) fun x => { x with stopped := true } else s
/-- A sink whose die restarts writes a resume record before what it holds (R405). -/
def resumeSink (s : State) (d p : Nat) : State :=
  if sinkOn s p d then
    drainAll (setSink s p d { sink s p d with held := ⟨0xA, 0, timeSource s d, now s, [], false⟩ :: (sink s p d).held }) p d
  else s
/-- `CLOCK_RESTART` (R405). -/
def execClockRestart (d : Nat) (s : State) : Out :=
  powered s fun s =>
    if d < 4 ∧ (die s (chipNo s * 4 + d)).stopped = true then
      (List.range 16).foldl (fun s p => resumeSink s d p) (modDie s (chipNo s * 4 + d) fun x => { x with stopped := false })
    else s

/-- A unit of a group is poisoned (R359). -/
def poisonGroup (s : State) (g : Nat) (u : PoisonUnit) : State :=
  modGroup s g fun x => if x.poison.contains u then x else { x with poison := x.poison ++ [u] }
/-- A unit of a team's stores is poisoned (R359). -/
def poisonTeam (s : State) (t k : Nat) : State := modTeam s t fun x => if x.poison.contains k then x else { x with poison := x.poison ++ [k] }
/-- Whether a granule of memory lies in storage of this package (R323). -/
def storedHere (s : State) (granule : Nat) : Bool :=
  let a := granule * 64 % 2 ^ 52
  granule * 64 / 2 ^ 52 / 4 == chipNo s && (decide (a < Config.hbmBytes) || decide (0x100008000000 ≤ a ∧ a < 0x100018000000))
/-- Whether a unit that a soft error may strike exists (R359). -/
def unitExists (s : State) (u : SoftUnit) : Bool :=
  let live (g : Nat) : Bool := (group s g).live
  let tile (t n cell : Nat) : Bool := (team s t).live && decide (n < (launch s (team s t).launch).d.t ∧ cell < 1024)
  match u with
  | .lane g r i => live g && decide (r < (descOf s g).v ∧ i < 128)
  | .scalar g r => live g && decide (0 < r ∧ r < 64)
  | .tile g r => live g && decide (r < 16)
  | .pred g r => live g && decide (0 < r ∧ r < 8)
  | .acc g r i => live g && decide (r < (descOf s g).q ∧ i < 128)
  | .slot t n cell => tile t n cell
  | .flip t n cell bit _ => tile t n cell && decide (bit < 1024)
  | .scratch t k => (team s t).live && decide (64 * k < (launch s (team s t).launch).d.s)
  | .memory k => storedHere s k
  | .link d n => decide (d < 4 ∧ n < 256)
/-- One bit of a slot's record inverted (R264, R299). -/
def flipSlot (a : LA) (bit : Nat) : LA :=
  let bs := laBytes a
  laOfBytes (bs.set (bit / 8) (bs.getD (bit / 8) 0 ^^^ BitVec.ofNat 8 (2 ^ (bit % 8))))
/-- A soft error strikes an existing unit (R359): it is poisoned; an undetected one in the accumulator store inverts a bit of a live or of a shadow slot (R264, R299). -/
def poisonUnit (s : State) (u : SoftUnit) : State :=
  match u with
  | .lane g r i => poisonGroup s g ⟨1, r, i⟩
  | .scalar g r => poisonGroup s g ⟨0, r, 0⟩
  | .tile g r => poisonGroup s g ⟨4, r, 0⟩
  | .pred g r => poisonGroup s g ⟨2, r, 0⟩
  | .acc g r i => poisonGroup s g ⟨3, r, i⟩
  | .slot t tile cell => poisonTeam s t (2 ^ 32 + 1024 * tile + cell)
  | .flip t tile cell bit shadow =>
    let k := 1024 * tile + cell
    modTeam s t fun x =>
      if shadow then { x with shadow := tput LA.zero x.shadow k (flipSlot (tget LA.zero x.shadow k) bit) }
      else { x with acc := tput LA.zero x.acc k (flipSlot (tget LA.zero x.acc k) bit) }
  | .scratch t k => poisonTeam s t k
  | .memory k => if s.bad.contains k then s else { s with bad := s.bad ++ [k] }
  | .link _ _ => s
/-- The field section in force: empty where none has been written (R410, log 15). -/
def fieldOf (b : Boot) : Config.FieldSection := b.field.getD emptyField
/-- Retired sites of a die, in the order of their retirement (R9, R407). -/
def retiredOn (f : Config.FieldSection) (d : Nat) : List Nat :=
  ((f.sites.filter fun u => u / 256 == d).map (· % 256)).eraseDups
/-- Spare sites of a die, 64 to 71, that are not retired. -/
def goodSpares (f : Config.FieldSection) (d : Nat) : List Nat :=
  ((List.range Config.sitesPerDie).drop Config.positions).filter fun i => !(retiredOn f d).contains i
/-- Positions of a die whose own site is retired, in the order of retirement. -/
def movedOn (f : Config.FieldSection) (d : Nat) : List Nat := (retiredOn f d).filter (· < Config.positions)
/-- Positions of a die that are left vacant (R9): position i stands on site i, and one whose site is retired on the next spare, sites 64 to 71, that is not; where these run out, those that asked last stay vacant. The manual gives no map of sites to positions: this one is the model's, which counts from the field section alone; the factory spare map of R410 is opaque bytes and retires no site (DESIGN CHOICE, logs 13 and 14). -/
def vacancies (f : Config.FieldSection) (d : Nat) : List Nat := (movedOn f d).drop (goodSpares f d).length
/-- The site on which a position of a die stands (R9, log 14). -/
def siteOf (f : Config.FieldSection) (d i : Nat) : Nat :=
  match (movedOn f d).idxOf? i with
  | some k => (goodSpares f d).getD k i
  | none => i
/-- The step of bring-up and the unit to which repeated soft errors are journalled (R408): the physical site on which the core stands at step 7; for the carve-out the die at step 5; for HBM a stack at step 4, neither of whose numbers the manual tells (log 20); a die-to-die link at step 6. -/
def softPlace (s : State) (u : SoftUnit) : (Nat × Nat) × State :=
  let site (c : Nat) : Nat := c / 64 * 256 + siteOf (fieldOf s.boot) (c / 64) (c % 64)
  match u with
  | .lane g _ _ => ((7, site (coreOf s g)), s)
  | .scalar g _ => ((7, site (coreOf s g)), s)
  | .tile g _ => ((7, site (coreOf s g)), s)
  | .pred g _ => ((7, site (coreOf s g)), s)
  | .acc g _ _ => ((7, site (coreOf s g)), s)
  | .slot t _ _ => ((7, site (team s t).core), s)
  | .flip t _ _ _ _ => ((7, site (team s t).core), s)
  | .scratch t _ => ((7, site (team s t).core), s)
  | .memory k =>
    let (v, s) := freeValue s
    let d := k * 64 / 2 ^ 52 % 4
    (if k * 64 % 2 ^ 52 < Config.hbmBytes then (4, d * 256 + bits v 0 0) else (5, d * 256 + bits v 7 0), s)
  | .link d n => ((6, d * 256 + n), s)
/-- `SOFT_ERROR` (R359, R408): a unit that exists is struck; errors that repeat in one place are journalled for the next cold start. -/
def execSoftError (u : SoftUnit) (repeated : Bool) (s : State) : Out :=
  whenReady s fun s =>
    if !unitExists s u then s
    else
      let s := poisonUnit s u
      if !repeated then s
      else
        let ((step, unit), s) := softPlace s u
        journalFailure s step unit

/-- The bytes that measurement 4 + p covers (R385): the partition's registers, then priv, asn and base of its queues (log 13). -/
def lockBytes (s : State) (p : Nat) : List Byte :=
  ((List.range 0x51).filter regKnown).flatMap (fun r => leBytes 8 (preg s p r).toNat) ++
  (List.range (queueRange s p).2).flatMap fun j =>
    let x := queue s ((queueRange s p).1 + j)
    [BitVec.ofNat 8 x.priv.toNat, x.asn] ++ leBytes 8 x.base.toNat
/-- `TDISP_LOCK_INTERFACE` (R384, R385). -/
def execTdispLockInterface (p : Nat) (s : State) : Out :=
  whenReady s fun s =>
    if p < 16 ∧ tdispOf s p = .configUnlocked then
      { s with tdisp := tput .configUnlocked s.tdisp p .configLocked, locks := tput [] s.locks p (lockBytes s p) }
    else s
/-- `TDISP_START_INTERFACE` (R384). -/
def execTdispStartInterface (p : Nat) (s : State) : Out :=
  whenReady s fun s => if p < 16 ∧ tdispOf s p = .configLocked then { s with tdisp := tput .configUnlocked s.tdisp p .run } else s
/-- `TDISP_STOP` (R384): the interface is unlocked (log 24), and a partition reset begins. -/
def execTdispStop (p : Nat) (s : State) : Out :=
  whenReady s fun s => if p < 16 then beginReset { s with tdisp := tput .configUnlocked s.tdisp p .configUnlocked } p else s
/-- `FUNCTION_LEVEL_RESET` (R387). -/
def execFunctionLevelReset (p : Nat) (s : State) : Out := whenReady s fun s => if p < 16 then beginReset s p else s

/-- What the walker of a die contributes to measurement 3 (R385). -/
def walkerBytes (s : State) (d : Nat) : List Byte :=
  let x := die s (chipNo s * 4 + d)
  if x.wentry = 0 then List.replicate 16 0
  else leBytes 8 x.wentry.toNat ++ leBytes 8 (4 * x.wlen) ++ mread s.mem (dieBase (chipNo s * 4 + d) + x.wentry.toNat) (4 * x.wlen)
/-- What the signature of the factory section covers (R410). -/
def factoryContent (f : Config.Factory) : List Byte := Config.factoryBytes { f with sig := [] }
/-- What the signature of the field section covers (R410). -/
def fieldContent (f : Config.FieldSection) : List Byte := Config.fieldBytes { f with sig := [] }
/-- The module record as used (R385, R410): the factory section, and the field section where there is one, each with its signature. -/
def moduleBytes (b : Boot) : List Byte :=
  factoryContent b.factory ++ b.factory.sig ++ (match b.field with
    | some f => fieldContent f ++ f.sig
    | none => [])
/-- The bytes that a measurement covers (R385). -/
def measured (s : State) (index : Nat) : Option (List Byte) :=
  if index = 1 then some s.boot.firmware
  else if index = 2 then some (moduleBytes s.boot)
  else if index = 3 then some ([0, 1, 2, 3].flatMap (walkerBytes s))
  else if 4 ≤ index ∧ index < 20 then some (tget [] s.locks (index - 4))
  else none
/-- `SPDM_REQUEST` (R385, R409): the digest, signed by the identity key once that has been rebuilt; no answer to another index. -/
def execSpdmRequest (index : Nat) (s : State) : Out :=
  powered s fun s => match if s.boot.keyed then measured s index else none with
    | none => s
    | some bs =>
      let digest := Config.shake256 bs 64
      { s with out := { s.out with spdm := s.out.spdm ++ [digest ++ Config.ed448Sign digest] } }

/-- Whether a function reaches an HDM address (R381): function 0 all of HBM, partition p's only p's units. -/
def hostReaches (s : State) (fn addr : Nat) : Bool :=
  fn == 0 ||
  let d := addr / Config.hbmBytes
  let (base, count) := pmemRange (preg s (fn - 1) (0x010 + d))
  let u := addr % Config.hbmBytes / 2 ^ 29
  decide (base ≤ u ∧ u < base + count)
/-- The object of a mode that lies at a flat key, found through the translations that its die holds: its entry (R139, R140, R338). -/
def objectIn (mode : BitVec 2) (s : State) (gd flat : Nat) : Option (Nat × CObj) :=
  let x := die s gd
  if x.objs.isEmpty then none
  else (x.objs.filter fun e => e.2.alloc && e.2.mode == mode).find? fun e => x.tlb.any fun t =>
    let size := if t.level = 1 then 0x20000000 else 0x10000
    let frame := dieBase gd + leafPhys t.leaf t.level 0
    let off := (if t.level = 1 then t.page / 8192 * 8192 else t.page) * 0x10000 + (flat - frame)
    (t.part == e.2.part || e.2.dual == some t.part) && decide (frame ≤ flat ∧ flat < frame + size ∧
      e.2.base.toNat % 2 ^ 54 ≤ off ∧ off < e.2.base.toNat % 2 ^ 54 + e.2.bytes)
/-- The commute-mode object whose slot lies at a flat key (R140). -/
def objectOver (s : State) (gd flat : Nat) : Option (Nat × CObj) := objectIn 2 s gd flat
/-- A host write to a line in shared mode sends an update to every recorded sharer, as a store does (R133, R139). -/
def updateHost (s : State) (gd flat : Nat) : State :=
  match objectIn 1 s gd flat with
  | some (i, o) => if objMode o = 1 then sendCopies s gd i o o.sharers else s
  | none => s
/-- Partial sums of the slots of a run are merged ahead of a host access, and a slot of a commute-mode object takes its normal form (R133, R140). -/
def settleHost (s : State) (gd flat n : Nat) : State :=
  (slotsOf flat n).foldl (fun s k => match objectOver s gd k with
    | some (i, o) => gatherSlot s gd i o (objMode o == 2) k
    | none => if s.parts.any fun p => p.slot == k then mergeSlot s k true else s) s
/-- `HOST_MEM_ACCESS` (R133, R380, R381): an access over CXL.mem to one line of 64 bytes, served at the owning home; outside the ranges of the interface a read answers nothing but the mark of poisoned data, a write is dropped, and the address is recorded. -/
def execHostMemAccess (fn addr : Nat) (write : Bool) (data : List Byte) (s : State) : Out :=
  if s.boot.power && !ready s then .next (unsupported s)
  else if !ready s ∨ 16 < fn then .next s
  else if 4 * Config.hbmBytes ≤ addr then .fault (.noStorage addr)
  else
    let data := data.take (64 - addr % 64)
    let n := data.length
    let d := addr / Config.hbmBytes
    let phys := addr % Config.hbmBytes
    let flat := dieBase (chipNo s * 4 + d) + phys
    let answer := fun (s : State) (bs : List Byte) (bad : Bool) =>
      { s with out := { s.out with host := s.out.host ++ [(bs, bad)] } }
    if !hostReaches s fn addr then
      let s := engineEvent s (fn - 1) 0 7 32 0x0B (varint phys)
      .next (if write then s else answer s [] true)
    else
      let s := settleHost s (chipNo s * 4 + d) flat n
      .next (if write then updateHost (cleanBad { s with mem := mwrite s.mem flat data } [(flat, n)]) (chipNo s * 4 + d) flat
        else answer s (mread s.mem flat n) (s.bad.contains (flat / 64)))

end Sys2Proof.Machine
end

