-- ==== Sys2Proof/Machine/Bringup.lean ====
section
/-! DEFINITION. Bring-up (R406 to R411): the steps of a cold start, the firmware image, the loss of power; and the host writes that reach the boot registers. What a step's physical work yields comes with the event (log 14). -/

namespace Sys2Proof.Machine

open Sys2Proof

/-- The most recent whole entry of a step (R408). -/
def lastEntry (b : Boot) (step : Nat) : Option Journal := (b.journal.filter fun e => !e.torn && e.step == step).getLast?
/-- The failure that a step's alternative answers (R407). -/
def lastFailure (b : Boot) (step : Nat) : Option Journal := (lastEntry b step).filter fun e => e.outcome == 2
/-- A step taken: bootst and the journal show its outcome (R406, R408); `next` is the step after it. -/
def tookStep (s : State) (step outcome unit detail next : Nat) : State :=
  writeJournal { s with boot := { s.boot with step := step, outcome := outcome, next := next } } step outcome unit detail
/-- The field section rewritten, signed afresh (R410). -/
def writeField (s : State) (f : Config.FieldSection) : State :=
  { s with boot := { s.boot with field := some { f with sig := Config.ed448Sign (fieldContent f) } } }
/-- Whether the signature of the factory section holds (R410). -/
def factoryGood (b : Boot) : Bool := Config.ed448Verify Config.moduleKey (factoryContent b.factory) b.factory.sig
/-- Whether the signature of the field section holds, where there is one (R410, log 13). -/
def fieldGood (b : Boot) : Bool :=
  match b.field with
  | none => true
  | some f => f.sig == Config.ed448Sign (fieldContent f)
/-- state becomes 3 (R406). -/
def unserviceable (s : State) : State := { s with boot := { s.boot with phase := 3 } }
/-- Steps 4 to 8 that fail restart the sequence; a fifth attempt is none (R407). -/
def restart (s : State) : State := if 4 ≤ s.boot.attempt then unserviceable s else s

/-- Settings of the field section that programs or traces can see: vacant positions, ports on their spare lane or down (R407). -/
def applyField (s : State) : State :=
  let f := fieldOf s.boot
  let s := [0, 1, 2, 3].foldl (fun s d => (vacancies f d).foldl (fun s i => modCore s (64 * d + i) fun k => { k with vacant := true }) s) s
  { s with pod := { s.pod with ports := f.ports.foldl (fun t e => tput 0 t e.1 e.2) s.pod.ports } }
/-- What an alternative makes of the field section (R407); none where it finds its spares exhausted. At steps 7 and 8 the position left vacant or the port left down is recorded too. `result` tells of the physical work: 2 the spares whose number the manual does not give are used up (spare rows, a link's spare lanes), 3 rows alone are repaired, 4 rows are repaired beside the re-map or the retirement; 1 and 5 tell as 0 and 3 what was tried, where it has failed again. -/
def alternative (f : Config.FieldSection) (step result unit detail : Nat) : Option Config.FieldSection :=
  let row : Config.FieldSection := { f with rows := f.rows ++ [(step, unit, detail)] }
  match step with
  | 4 =>
    if result = 3 ∨ result = 5 then some row
    else if result = 2 ∨ f.channels.any (fun e => e.1 == unit) then none
    else some { f with channels := f.channels ++ [(unit, detail)], rows := if result = 4 then row.rows else f.rows }
  | 5 =>
    let rate := tget 0 f.rates (unit / 256)
    if 2 ≤ rate then none else some { f with rates := tput 0 f.rates (unit / 256) (rate + 1) }
  | 6 =>
    if result = 0 ∨ result = 1 then some { f with lanes := f.lanes ++ [(unit, detail)] }
    else if f.halves.contains unit then none
    else some { f with halves := f.halves ++ [unit] }
  | 7 => some (if result = 3 ∨ result = 5 then row else { f with sites := f.sites ++ [unit], rows := if result = 4 then row.rows else f.rows })
  | _ => some { f with ports := tput 0 f.ports (unit % 256) (if tget 0 f.ports (unit % 256) = 0 then 1 else 2) }
/-- Whether an alternative of step 7 or 8 found its spares exhausted: a position more is vacant, or the port is down (R407). -/
def leftOut (f g : Config.FieldSection) (step unit : Nat) : Bool :=
  if step = 7 then decide ((vacancies f (unit / 256)).length < (vacancies g (unit / 256)).length)
  else step == 8 && tget 0 g.ports (unit % 256) == 2
/-- Whether the physical work of an alternative has failed again (R407). -/
def failsAgain (result : Nat) : Bool := result == 1 || result == 5
/-- Steps 4 to 8 (R407): the work, or the alternative that the last failure calls for, as the field section lets it: used-up spares come before what the work yields, and at steps 7 and 8 the sequence goes on all the same. -/
def trainStep (s : State) (step result unit detail : Nat) : State :=
  match lastFailure s.boot step with
  | none => if result = 0 then tookStep s step 0 unit detail (step + 1) else restart (tookStep s step 2 unit detail 1)
  | some e =>
    let f := fieldOf s.boot
    match alternative f step result e.unit e.detail with
    | none => unserviceable (writeField (tookStep s step 3 e.unit e.detail step) f)
    | some g =>
      if leftOut f g step e.unit then writeField (tookStep s step 3 e.unit e.detail (step + 1)) g
      else if failsAgain result then restart (tookStep s step 2 unit detail 1)
      else writeField (tookStep s step 1 e.unit e.detail (step + 1)) g
/-- Bit raise of a firmware image (R411). -/
def raises (image : List Byte) : Bool := (image.getD 24 0).getLsbD 0
/-- Step 9 (R407, R411): the time unit locks, the package is ready; the lowest accepted version is raised where the image asks for it. -/
def readyStep (s : State) : State :=
  let s := applyField (tookStep s 9 0 0 0 9)
  let s : State := { s with boot := { s.boot with phase := 2 }, time := { s.time with lock := .locked, outside := false } }
  if raises s.boot.firmware then writeField s { fieldOf s.boot with version := fieldAt s.boot.firmware 8 8 } else s
/-- Step 1 (R407, R409): the identity key is rebuilt from the PUF. -/
def keyStep (s : State) (result unit detail : Nat) : State :=
  if (lastFailure s.boot 1).isSome then unserviceable s
  else if result = 0 then
    let s := tookStep s 1 0 unit detail 2
    { s with boot := { s.boot with keyed := true } }
  else unserviceable (tookStep s 1 2 unit detail 1)
/-- Step 2 (R407, R410): the module record is verified; where the field section alone is bad, the factory section is used alone. -/
def recordStep (s : State) (result unit detail : Nat) : State :=
  if result = 2 ∨ factoryGood s.boot = false then unserviceable (tookStep s 2 2 unit detail 2)
  else if result = 1 ∨ fieldGood s.boot = false then writeField (tookStep s 2 1 unit detail 3) emptyField
  else tookStep s 2 0 unit detail 3
/-- One step of the boot controller; step 3 waits for firmware (R407). -/
def bootStep (s : State) (result unit detail : Nat) : State :=
  let b := s.boot
  let s : State := if b.outcome = 2 ∧ 4 ≤ b.step then { s with boot := { b with attempt := b.attempt + 1 } } else s
  match b.next with
  | 1 => keyStep s result unit detail
  | 2 => recordStep s result unit detail
  | 3 => { s with boot := { s.boot with step := 3, outcome := 0, phase := 1 } }
  | 9 => readyStep s
  | k => trainStep s k result unit detail
/-- `COLD_START` (R407): power comes on, or the boot controller takes its next step, of which the event tells what the physical work yields: 0 passed, 1 failed, 2 the spare rows or spare lanes are used up, 3 rows alone were repaired, 4 rows beside the re-map or retirement, 5 the repair of rows alone failed; at step 2, 1 the field section alone cannot be read, 2 the factory section cannot. -/
def execColdStart (result unit detail : Nat) (s : State) : Out :=
  let b := s.boot
  .next (if !b.power then { s with boot := { b with power := true } }
    else if b.phase = 0 then bootStep s result unit detail else s)

/-- The checks on the copy of an image (R411). -/
def imageGood (b : Boot) (image : List Byte) : Bool :=
  let blen := fieldAt image 16 4
  let entry := fieldAt image 20 4
  fieldAt image 0 4 == 0x46574C42 && fieldAt image 4 4 == 256 && blen % 4 == 0 && entry % 4 == 0 && decide (entry < blen) &&
  fieldAt image 24 1 / 2 == 0 && zeroAt image 25 231 && image.length == 370 + blen &&
  Config.ed448Verify b.factory.fwKey (image.take (256 + blen)) (image.drop (256 + blen)) && decide ((fieldOf b).version ≤ fieldAt image 8 8)
/-- A write of fwlen (R406, R411): while the controller waits for firmware, a length in range submits the image. -/
def submitImage (s : State) (v : Word) : State :=
  let n := bits v 23 0
  if s.boot.power = false ∨ s.boot.phase ≠ 1 ∨ n < 4096 ∨ 2 ^ 23 < n then s
  else
    let image := mread s.mem (hostBase (chipNo s) + s.boot.fwbase.toNat) n
    let s : State := { s with boot := { s.boot with fwlen := n, firmware := image } }
    if imageGood s.boot image then
      let s := tookStep s 3 0 0 0 4
      { s with boot := { s.boot with phase := 0 } }
    else tookStep s 3 2 0 0 3
/-- `FWLEN_WRITE` (R411). -/
def execFwlenWrite (v : Word) (s : State) : Out := .next (submitImage s v)
/-- `REGISTER_WINDOW_WRITE` (R6). -/
def execRegisterWindowWrite (fn off : Nat) (v : Word) (s : State) : Out :=
  .next (if fn = 0 ∧ off = 0x10 then submitImage s v else hostWrite s fn off v)

/-- The last entry of a journal torn (R408). -/
def tearLast : List Journal → List Journal
  | [] => []
  | [e] => [{ e with torn := true }]
  | e :: r => e :: tearLast r
/-- The state without power: flash, the host's memory, what was sent outside and the model's own fields stay (R408). -/
def loseDevice (s : State) (torn : Bool) : State :=
  let b := s.boot
  let c := chipNo s
  let host := s.mem.filter fun e => decide (hostBase 0 ≤ e.1)
  { State.reset with
    agenda := s.agenda, fresh := s.fresh, out := s.out, mem := moveRange host (hostBase c) (hostBase 0) (2 ^ 52)
    boot := { Boot.cold with journal := if torn then tearLast b.journal else b.journal, factory := b.factory, field := b.field,
                             cert := b.cert, power := false } }
/-- `POWER_LOSS` (R408): the package stops; an entry that was being written is torn. -/
def execPowerLoss (torn : Bool) (s : State) : Out := .next (if s.boot.power then loseDevice s torn else s)

end Sys2Proof.Machine
end

