-- ==== Sys2Proof/Machine/Fetch.lean ====
section
/-! DEFINITION. What happens before an instruction's meaning: its fetch (R35, R38, R161, R162), the fetch of a walk (R329 to R331), fused operations (R163 to R165). -/

namespace Sys2Proof.Machine

open Sys2Proof

/-- What a fetch answers: its bytes; wait for a walk; or a record. -/
inductive FetchRes where
  | word (bs : List Byte)
  | wait
  | fault (r : FaultRec)
  deriving DecidableEq, Repr
/-- A record of a fetch: execute access, source 5 (R344). -/
def fetchRec (cls cause : Nat) (addr : Word) : FaultRec := mkRec cls cause (accessByte true false false 5) addr
/-- The fetch of n bytes at a program counter, checked in the order of R161; it reads as every ordinary access does (R140, R162). -/
def fetch (s : State) (g : Nat) (a : Agent) (pc : Word) (n : Nat) : State × FetchRes :=
  let who := fetchWho s g a
  if bits pc 1 0 ≠ 0 then (s, .fault ⟨2, 0, BitVec.ofNat 8 (accessByte false false false 5), 0xFF, 0, pc⟩)
  else match addressFault who.mask pc n with
    | some b => (s, .fault (fetchRec 5 0 b))
    | none => match xlate s who 4 pc n with
      | (s, .wait) => (s, .wait)
      | (s, .fault c k b) => (clearFaults s a, .fault (fetchRec c k b))
      | (s, .ok segs) => match poisonIn s segs with
        | some off => (clearFaults s a, .fault (fetchRec 8 0 (pc + BitVec.ofNat 64 off)))
        | none =>
          let s := settle (clearFaults s a) who.part pc segs
          (s, .word (readSegs s segs))
/-- The bytes of a fetch that would succeed at once. -/
def fetchNow (s : State) (g : Nat) (pc : Word) (n : Nat) : Option (List Byte) :=
  match fetch s g (.fetchL g) pc n with
  | (_, .word bs) => some bs
  | _ => none

/-- The time of a group's last issue in a stream (R314). -/
def stampScalar (s : State) (g : Nat) : State := modGroup s g fun x => { x with age := (cycleOf s (coreOf s g), x.age.2) }
/-- The time of a group's last issue in its lane stream (R314). -/
def stampLane (s : State) (g : Nat) : State := modGroup s g fun x => { x with age := (x.age.1, cycleOf s (coreOf s g)) }
/-- The major opcode of a scalar word (R147). -/
def majorOf (w : Nat) : Nat := w / 2 ^ 26 % 64
/-- Whether a scalar word is one that level 0 may not issue, whatever the rest of it says (R151, R161). -/
def scalarPrivileged (s : State) (g w : Nat) : Bool :=
  decide ((group s g).level = 0 ∧ 0x3C ≤ majorOf w ∧ majorOf w ≤ 0x3E)

/-- Whether a word is one that a walk may issue (R330). -/
def walkMay (w : Nat) : Bool :=
  let m := majorOf w
  decide ((1 ≤ m ∧ m ≤ 9) ∨ (0x18 ≤ m ∧ m ≤ 0x1B) ∨ (m = 0x3D ∧ 8 ≤ w % 256 ∧ w % 256 ≤ 0x0A))
/-- The word that a walk fetches, where it may (R329, R331). -/
def walkFetch (s : State) (x : Walk) : Option Nat :=
  let pc := x.spc.toNat
  if pc % 4 ≠ 0 ∨ pc < x.entry.toNat ∨ x.entry.toNat + 4 * x.words ≤ pc ∨ Config.hbmBytes < pc + 4 ∨
     s.bad.contains ((dieBase x.die + pc) / 64) then none
  else
    let w := ofLe (mread s.mem (dieBase x.die + pc) 4)
    if walkMay w then some w else none

/-- What fusion asks of a member: its control fields and the registers it names. -/
structure Member where
  c : LaneCtl
  regs : List Nat
/-- Registers of operand b at repeat index 0. -/
def bRegs (wide : Bool) (b : SrcB) : List Nat := srcRegs wide b false 0
/-- A comparison that writes mk: k and the member (R164). -/
def fuseCompare : Instr → Option (PReg × Member)
  | .vcmp x => some (x.d, ⟨x.c, regs x.wide x.a false 0 ++ bRegs x.wide x.b⟩)
  | .vcmpFp x => some (x.d, ⟨x.c, regs x.dbl x.a false 0 ++ bRegs x.dbl x.b⟩)
  | .vcmpEqPacked x => some (x.d, ⟨x.c, regs false x.a false 0 ++ bRegs false x.b⟩)
  | .vcmpLtPacked x => some (x.d, ⟨x.c, regs false x.a false 0 ++ bRegs false x.b⟩)
  | .vcmpLePacked x => some (x.d, ⟨x.c, regs false x.a false 0 ++ bRegs false x.b⟩)
  | .vcmpEqF16 x => some (x.d, ⟨x.c, regs false x.a false 0 ++ bRegs false x.b⟩)
  | .vcmpLtF16 x => some (x.d, ⟨x.c, regs false x.a false 0 ++ bRegs false x.b⟩)
  | _ => none
/-- A selection by mk: k and the member (R164). -/
def fuseSelect : Instr → Option (PReg × Member)
  | .vselN32 x => some (x.k, ⟨x.c, regs false x.d false 0 ++ regs false x.a false 0 ++ bRegs false x.b⟩)
  | .vselN64 x => some (x.k, ⟨x.c, regs true x.d false 0 ++ regs true x.a false 0 ++ bRegs true x.b⟩)
  | _ => none
/-- The modifier byte of a lane word (R152). -/
def modifierByte (w : Nat) : Nat := w / 2 ^ 32 % 256
/-- The first two members of an arithmetic pattern (R164); `same` tells whether their modifier bytes are equal. -/
def fuseArith (same : Bool) : Instr → Instr → Option (Member × Member)
  | .vmul x, .vadd y =>
    if !x.wide && !y.wide && x.sg == y.sg && (y.a == x.d || y.b == .reg x.d) then
      some (⟨x.c, x.d.toNat :: x.a.toNat :: bRegs false x.b⟩, ⟨y.c, y.d.toNat :: y.a.toNat :: bRegs false y.b⟩)
    else none
  | .vshl x, .vadd y =>
    if !x.wide && !y.wide && x.sg && y.sg && x.b.isImm && (y.a == x.d || y.b == .reg x.d) then
      some (⟨x.c, x.d.toNat :: [x.a.toNat]⟩, ⟨y.c, y.d.toNat :: y.a.toNat :: bRegs false y.b⟩)
    else none
  | .vmulFp x, .vaddFp y =>
    if !x.dbl && !y.dbl && same && (y.a == x.d || y.b == .reg x.d) then
      some (⟨x.c, x.d.toNat :: x.a.toNat :: bRegs false x.b⟩, ⟨y.c, y.d.toNat :: y.a.toNat :: bRegs false y.b⟩)
    else none
  | _, _ => none
/-- Whether a member has repeat 0 and names only registers below V (R163). -/
def memberOk (v : Nat) (m : Member) : Bool := m.c.rep == 0 && m.regs.all fun r => decide (r < v)
/-- Whether two members carry the same pred and neg (R163). -/
def samePred (a b : Member) : Bool := a.c.pred == b.c.pred && a.c.neg == b.c.neg
/-- Members of the fused operation that three instructions begin, 0 for none (R163, R164). -/
def fuseLength (v depth : Nat) (same : Bool) (i : Instr) (j k : Option Instr) : Nat :=
  match j with
  | none => 0
  | some j =>
    match fuseArith same i j with
    | some (a, b) => if memberOk v a && memberOk v b && samePred a b then 2 else 0
    | none => match fuseCompare i with
      | none => 0
      | some (p, a) =>
        let sel := fun (n : Instr) => (fuseSelect n).any fun e => e.1 == p && p != 0 && memberOk v e.2 && samePred a e.2
        if !memberOk v a then 0
        else match j with
          | .mpush y => if y.pred == p && p != 0 && decide (depth < Config.maskDepth) then 2 else 0
          | j => if sel j then (if k.any sel then 3 else 2) else 0
/-- Whether an instruction can be the first member of a fused operation (R164). -/
def fuseHead : Instr → Bool
  | .vmul _ => true
  | .vshl _ => true
  | .vmulFp _ => true
  | i => (fuseCompare i).isSome
/-- Instructions left in the run record at the head. -/
def headCount : List RqRec → Nat
  | .run n _ :: _ => n
  | _ => 0

end Sys2Proof.Machine
end

