-- ==== Sys2Proof/Machine/Requests.lean ====
section
/-! DEFINITION. A request at its home (R322): translated there and served, or it starts a walk or joins one; by the agent that sent it. And the requests between chips (R382). -/

namespace Sys2Proof.Machine

open Sys2Proof

/-- The packet at the head of a queue's stream takes its step, or its wait goes on (R370 to R373). -/
def packetTurn (s : State) (q : Nat) : Out :=
  let x := queue s q
  if x.wait then execSemaphoreSatisfied q s
  else match queueRead s (queueWho s q (.queue q)) (packetAt x) 8 with
    | (_, .ok hb) => match bits (bodyWord hb 0) 7 0 with
      | 1 => execPacketLaunch q s
      | 2 => execPacketWait q s
      | 3 => execPacketSignal q s
      | 4 => execPacketCopy q s
      | 5 => execPacketFence q s
      | 6 => execPacketMark q s
      | 7 => execPacketJump q s
      | _ => execPacketNop q s
    | _ => execPacketNop q s
/-- The translation that a fetch asks for (R161, R322). -/
def fetchRequest (s : State) (g : Nat) (a : Agent) (pc : Word) (n : Nat) : State :=
  let who := fetchWho s g a
  if bits pc 1 0 ≠ 0 ∨ (addressFault who.mask pc n).isSome ∨ (group s g).live = false then s else (xlate s who 4 pc n).1
/-- A prefetch that waits for its page is tried again (R241). -/
def servePrefetch (s : State) (c l : Nat) (va : Word) : State :=
  match (core s c).want.find? fun e => e.1 == l && e.2.1 == va with
  | some e => prefetchLine s c l va e.2.2
  | none => s

/-- Bytes that a request of another chip touches. -/
def remoteSize : RemoteOp → Nat
  | .load n => n
  | .store bs => bs.length
  | .atomic _ n _ _ => n
  | .merge _ => 128
  | .map _ => 1
  | .inv _ => 1
/-- Whether a request is one that another chip of the pod can send here: its bytes are in one page of this package, and what the sender's own checks ask holds (R97, R184, R240, R337, R382). -/
def remoteOk (s : State) (r : RemoteReq) : Bool :=
  linked s && decide (r.chip < 64 ∧ r.chip ≠ chipNo s ∧ r.part < 16) && ownerOf r.va / 4 == chipNo s && bits r.va 63 62 == 0 &&
  decide (0 < remoteSize r.op ∧ bits r.va 15 0 + remoteSize r.op ≤ 0x10000) &&
  (match r.op with
   | .atomic op n _ _ => decide (op < 10 ∧ (n = 4 ∨ n = 8) ∧ bits r.va 15 0 % n = 0)
   | .merge slot => slot.length == 128 && bits r.va 15 0 % 128 == 0
   | .map w => w &&& ~~~templateBits == 0
   | _ => true)
/-- A request of another chip arrives (R382). -/
def acceptRemote (s : State) (r : RemoteReq) : State :=
  if remoteOk s r then
    let (n, s) := newName s
    { s with work := { s.work with remote := tput none s.work.remote n (some r) } }
  else s
/-- On whose behalf a home serves a request of another chip: no core of this package. -/
def remoteWho (n : Nat) (r : RemoteReq) : Who := ⟨.remote n, r.part, r.asn, BitVec.allOnes 64, 0x10000 + r.chip⟩
/-- A request of another chip is answered, and is done (R382). -/
def answerRemote (s : State) (n : Nat) (r : RemoteReq) (bs : List Byte) (fault : Option (Nat × Nat)) : State :=
  let s := clearFaults s (.remote n)
  sendAll { s with work := { s.work with remote := tput none s.work.remote n none } } [Msg.answer r.chip r.va bs fault]
/-- A translated request of another chip acts at its home (R134, R139, R240, R382); one that reads poison is answered so, and writes nothing. -/
def remoteAct (s : State) (n : Nat) (r : RemoteReq) (segs : List Seg) : State :=
  let who := remoteWho n r
  let poisoned := (poisonIn s segs).isSome
  match r.op with
  | .store bs => answerRemote (cleanBad (homeWrite s who r.va segs bs) (segs.map fun g => (g.flat, g.len))) n r [] none
  | .load _ =>
    if poisoned then answerRemote s n r [] (some (8, 0))
    else
      let s := settle s r.part r.va segs
      answerRemote s n r (readSegs s segs) none
  | .atomic op k x y =>
    if poisoned then answerRemote s n r [] (some (8, 0))
    else
      let (s, old) := homeAtomic s who r.va segs op k (x.toNat % 2 ^ (8 * k)) (y.toNat % 2 ^ (8 * k))
      answerRemote s n r (leBytes k old) none
  | .merge slot =>
    if poisoned then answerRemote s n r [] (some (8, 0))
    else
      let bs := laBytes (laMerge (laOfBytes (readSegs s segs)) (laOfBytes slot))
      answerRemote (noteUpdate (writeSegs s segs bs) who r.va 128) n r [] none
  | .map _ => s
  | .inv _ => s
/-- Rights that a request of another chip needs (R326). -/
def remoteRights : RemoteOp → BitVec 3
  | .load _ => 1
  | .store _ => 2
  | _ => 3
/-- A request of another chip at its home on this package (R322, R335, R337, R382): it translates under the sender's partition and asn; without a root for them it faults with cause 0x0. -/
def serveRemote (s : State) (n : Nat) : State :=
  match tget none s.work.remote n with
  | none => s
  | some r =>
    let gd := ownerOf r.va
    match r.op with
    | .map w =>
      let (s, c) := pmapAt s gd r.part r.asn r.va w
      answerRemote s n r (leBytes 8 c) none
    | .inv v =>
      let mode := bits v 23 22
      let ds := (invDies mode r.va).filter fun d => d / 4 == chipNo s
      let cov := invCovers mode (bits v 15 12) (bits v 7 0) (pageOf r.va) (bits v 39 24 + 1)
      if walksBegun s ds fun p a page => cov p a page 1 then s
      else answerRemote (ds.foldl (fun s d => dropTlb s d (entryMet cov)) s) n r [] none
    | op =>
      if (tget 0 (die s gd).roots (rootKey r.part r.asn.toNat)).getLsbD 0 = false then answerRemote s n r [] (some (4, 0))
      else match xlate s (remoteWho n r) (remoteRights op) r.va (remoteSize op) with
        | (s, .wait) => s
        | (s, .fault c k _) => answerRemote s n r [] (some (c, k))
        | (s, .ok segs) => remoteAct s n r segs

/-- The home of another chip answers what waits there (R334, R337, R382): with a leaf that serves the request, a page-fault cause, the result of a `pmap`, or that a `tlbinv` is done. -/
def farAnswer (s : State) (w : Nat) (r : FarReply) : State :=
  match walk s w with
  | none => s
  | some x =>
    if x.die / 4 = chipNo s ∨ reaches s.pod (x.die / 4) = false then s
    else match r with
      | .leaf leaf level =>
        if x.reason < 2 ∧ level < 2 ∧ leafValid leaf level ∧ leafPermits leaf x.acc ∧ leaf.getLsbD 55 ∧ (x.acc.getLsbD 1 = false ∨ leaf.getLsbD 56) then
          finishWalk (installLeaf s x leaf level) w none
        else s
      | .fault c => if x.reason < 2 ∧ c ≤ 5 ∧ c ≠ 4 then finishWalk s w (some c) else s
      | .mapped k => if x.reason = 2 ∧ k ≤ 3 then finishWalk s w (some (causeMapped + k)) else s
      | .done => if x.reason = 3 then finishWalk s w (some causeMapped) else s
/-- The chip of a flat key of memory. -/
def chipOfFlat (k : Nat) : Nat := if k < hostBase 0 then k / 2 ^ 54 else k / 2 ^ 52 - 256
/-- Bytes written by other packages to storage of their own, of which this state keeps what it can reach (log 11). -/
def farWrite (s : State) (flat : Nat) (bs : List Byte) : State :=
  if chipOfFlat flat = chipNo s ∨ 64 ≤ chipOfFlat flat ∨ flat / 2 ^ 52 ≠ (flat + bs.length - 1) / 2 ^ 52 then s
  else { s with mem := mwrite s.mem flat bs }

/-- `HOME_REQUEST` (R322): the request of an agent, if it has one, is translated and served as far as the homes answer; and what comes from the homes of other chips, and from other chips to the homes here (R382, log 11). -/
def execHomeRequest (a : Agent) (s : State) : Out :=
  match a with
  | .scalar g => .next (serveScalar s g)
  | .lane g => .next (serveLanes s g)
  | .fetchS g => .next (fetchRequest s g a (group s g).spc 4)
  | .fetchL g => .next (fetchRequest s g a (group s g).lane.lpc 12)
  | .vec g => .next (vectorGroup s g)
  | .tile g => .next (tileTurn s g)
  | .copy t c => .next (copyStep s t c)
  | .coll c => .next (match coll s c with
    | some k => if (rankList k).head?.any fun e => decide (collSteps e.2 ≤ k.step) then collEnd s c else collStep s c
    | none => s)
  | .queue q => packetTurn s q
  | .qcopy q => execPacketCopyDone q s
  | .save l n => if (launch s l).saved.any fun k => k.node == n && k.complete then execNodeRestore l n s
      else .next (if (launch s l).saved.any fun k => k.node == n then saveStep s l n else s)
  | .sink p d => execHeldRecordEmit p d s
  | .complete l => execLaunchEnd l s
  | .pref c l va => .next (servePrefetch s c l va)
  | .remote n => .next (serveRemote s n)
  | .arrival r => .next (acceptRemote s r)
  | .answer w r => .next (farAnswer s w r)
  | .far flat bs => .next (farWrite s flat bs)
  | .preempt part id m => .next (preemptArrival s part id m)
  | .forget gd => .next (if gd / 4 = chipNo s ∨ 256 ≤ gd then s else dropTlb s gd fun _ => true)

end Sys2Proof.Machine
end

