-- ==== Sys2Proof/Machine/Ticks.lean ====
section
/-! DEFINITION. The passage of one step (logs 2 and 10): package time (R389), the core cycles of the dies (R3), what counts them (R320, R330), the wraps of the slot tables (R314) and the end of partition resets (R388). -/

namespace Sys2Proof.Machine

open Sys2Proof

/-- Package time after one nominal cycle; an offset is slewed away by one unit in 5,120, which is below 200 ppm (R389; the schedule is the model's choice, log 2). -/
def tickTime (t : Time) : Time :=
  let next := t.now + Config.cycleTicks
  if next / 5120 = t.now / 5120 ∨ t.slew = 0 then { t with now := next }
  else if 0 < t.slew then { t with now := next + 1, slew := t.slew - 1 }
  else { t with now := next - 1, slew := t.slew + 1 }
/-- A die's clock after one nominal cycle of time: at 1,600 MHz a cycle begins with every step, at a lower clock with that share of the steps, on a stopped die with none (R3, R405). -/
def tickDie (x : Die) : Die :=
  let p := x.phase + x.mhz
  if x.stopped then { x with edge := false }
  else if p < 1600 then { x with phase := p, edge := false }
  else { x with phase := p - 1600, edge := true, cycles := x.cycles + 1 }
/-- Whether a cycle of a die begins with this step. -/
def cycleBegins (s : State) (gd : Nat) : Bool := (die s gd).edge
/-- pdead of a team falls with its core's clock and stops at 0 (R320). -/
def tickTeam (s : State) (x : Team) : Team :=
  if cycleBegins s (chipNo s * 4 + x.core / 64) then { x with pdead := x.pdead - 1 } else x
/-- A running walk counts its cycles (R330). -/
def tickWalk (s : State) (x : Walk) : Walk :=
  if x.running && cycleBegins s x.die then { x with cycles := x.cycles + 1 } else x
/-- Cores that a wrap would change. -/
def wrapsDue (s : State) : List Nat := (s.cores.filter fun e => e.2.copy || e.2.donate != donateNow s).map (·.1) ++
  if donateNow s = [] then [] else (List.range 256).filter fun c => (core s c).donate != donateNow s
/-- Whether a killed group of a partition is still within an access (R351, R387). -/
def teamsStand (s : State) (p : Nat) : Bool := s.work.teams.any fun e => e.2.live && (launch s e.2.launch).part == p
/-- Partitions whose reset can end: nothing is left of their groups. -/
def resetsDue (s : State) : List Nat := (List.range 16).filter fun p => partResetting s p && !endsDue s p && !teamsStand s p
/-- What one step's time brings about before the step acts. -/
def tick (s : State) : State :=
  let s : State := { s with time := tickTime s.time }
  let s := [0, 1, 2, 3].foldl (fun s d => modDie s (chipNo s * 4 + d) tickDie) s
  let s : State := { s with work := { s.work with
    teams := s.work.teams.map fun (e : Nat × Team) => (e.1, tickTeam s e.2)
    walks := s.work.walks.map fun (e : Nat × Option Walk) => (e.1, e.2.map (tickWalk s)) } }
  let s := (wrapsDue s).foldl slotWrap s
  (resetsDue s).foldl endReset s

end Sys2Proof.Machine
end

