-- ==== Sys2Proof/Machine/Dispatch.lean ====
section
/-! DEFINITION. The meaning of each instruction and event, one arm per constructor. -/

namespace Sys2Proof.Machine

open Sys2Proof

/-- One step of the machine's own work: what the instruction or event does. -/
def exec (i : Instr) (s : State) : Host.Outcome State Fault Refusal :=
  match i with
  | .sadd d a b => Sys2Proof.Machine.execSadd d a b s
  | .ssub d a b => Sys2Proof.Machine.execSsub d a b s
  | .sseq d a b => Sys2Proof.Machine.execSseq d a b s
  | .ssne d a b => Sys2Proof.Machine.execSsne d a b s
  | .sslt d a b => Sys2Proof.Machine.execSslt d a b s
  | .ssltu d a b => Sys2Proof.Machine.execSsltu d a b s
  | .smin d a b => Sys2Proof.Machine.execSmin d a b s
  | .sminu d a b => Sys2Proof.Machine.execSminu d a b s
  | .smax d a b => Sys2Proof.Machine.execSmax d a b s
  | .smaxu d a b => Sys2Proof.Machine.execSmaxu d a b s
  | .sand d a b => Sys2Proof.Machine.execSand d a b s
  | .sor d a b => Sys2Proof.Machine.execSor d a b s
  | .sxor d a b => Sys2Proof.Machine.execSxor d a b s
  | .sandn d a b => Sys2Proof.Machine.execSandn d a b s
  | .sshl d a b => Sys2Proof.Machine.execSshl d a b s
  | .sshr d a b => Sys2Proof.Machine.execSshr d a b s
  | .ssra d a b => Sys2Proof.Machine.execSsra d a b s
  | .srol d a b => Sys2Proof.Machine.execSrol d a b s
  | .sror d a b => Sys2Proof.Machine.execSror d a b s
  | .smul d a b => Sys2Proof.Machine.execSmul d a b s
  | .smulh d a b => Sys2Proof.Machine.execSmulh d a b s
  | .smulhu d a b => Sys2Proof.Machine.execSmulhu d a b s
  | .sdiv d a b => Sys2Proof.Machine.execSdiv d a b s
  | .sdivu d a b => Sys2Proof.Machine.execSdivu d a b s
  | .srem d a b => Sys2Proof.Machine.execSrem d a b s
  | .sremu d a b => Sys2Proof.Machine.execSremu d a b s
  | .sclz d a => Sys2Proof.Machine.execSclz d a s
  | .sctz d a => Sys2Proof.Machine.execSctz d a s
  | .spopc d a => Sys2Proof.Machine.execSpopc d a s
  | .sbswap d a => Sys2Proof.Machine.execSbswap d a s
  | .ssx8 d a => Sys2Proof.Machine.execSsx8 d a s
  | .ssx16 d a => Sys2Proof.Machine.execSsx16 d a s
  | .ssx32 d a => Sys2Proof.Machine.execSsx32 d a s
  | .szx32 d a => Sys2Proof.Machine.execSzx32 d a s
  | .saddi d a imm => Sys2Proof.Machine.execSaddi d a imm s
  | .sandi d a imm => Sys2Proof.Machine.execSandi d a imm s
  | .sori d a imm => Sys2Proof.Machine.execSori d a imm s
  | .sxori d a imm => Sys2Proof.Machine.execSxori d a imm s
  | .sslti d a imm => Sys2Proof.Machine.execSslti d a imm s
  | .sshli d a n => Sys2Proof.Machine.execSshli d a n s
  | .sshri d a n => Sys2Proof.Machine.execSshri d a n s
  | .ssrai d a n => Sys2Proof.Machine.execSsrai d a n s
  | .srori d a n => Sys2Proof.Machine.execSrori d a n s
  | .slui d imm => Sys2Proof.Machine.execSlui d imm s
  | .sshlo d imm => Sys2Proof.Machine.execSshlo d imm s
  | .sld d a k sp o => Sys2Proof.Machine.execSld d a k sp o s
  | .sst d a k sp o => Sys2Proof.Machine.execSst d a k sp o s
  | .sldX d a b k sp => Sys2Proof.Machine.execSldX d a b k sp s
  | .sstX d a b k sp => Sys2Proof.Machine.execSstX d a b k sp s
  | .sldAcq d a k sp c => Sys2Proof.Machine.execSldAcq d a k sp c s
  | .sstRel d a k sp c => Sys2Proof.Machine.execSstRel d a k sp c s
  | .sldRo d a b k => Sys2Proof.Machine.execSldRo d a b k s
  | .samoSwap x => Sys2Proof.Machine.execSamoSwap x s
  | .samoAdd x => Sys2Proof.Machine.execSamoAdd x s
  | .samoAnd x => Sys2Proof.Machine.execSamoAnd x s
  | .samoOr x => Sys2Proof.Machine.execSamoOr x s
  | .samoXor x => Sys2Proof.Machine.execSamoXor x s
  | .samoMinI x => Sys2Proof.Machine.execSamoMinI x s
  | .samoMaxI x => Sys2Proof.Machine.execSamoMaxI x s
  | .samoMinN x => Sys2Proof.Machine.execSamoMinN x s
  | .samoMaxN x => Sys2Proof.Machine.execSamoMaxN x s
  | .samoCas x => Sys2Proof.Machine.execSamoCas x s
  | .sfence c => Sys2Proof.Machine.execSfence c s
  | .sfenceAcq c => Sys2Proof.Machine.execSfenceAcq c s
  | .sfenceRel c => Sys2Proof.Machine.execSfenceRel c s
  | .sbr a c o => Sys2Proof.Machine.execSbr a c o s
  | .sjmp o => Sys2Proof.Machine.execSjmp o s
  | .scall o => Sys2Proof.Machine.execScall o s
  | .sjr a => Sys2Proof.Machine.execSjr a s
  | .scallr a => Sys2Proof.Machine.execScallr a s
  | .sret => Sys2Proof.Machine.execSret s
  | .sexit => Sys2Proof.Machine.execSexit s
  | .lrun n => Sys2Proof.Machine.execLrun n s
  | .ljmp o => Sys2Proof.Machine.execLjmp o s
  | .lrunr a => Sys2Proof.Machine.execLrunr a s
  | .ljmpr a => Sys2Proof.Machine.execLjmpr a s
  | .lsync => Sys2Proof.Machine.execLsync s
  | .lmask d w => Sys2Proof.Machine.execLmask d w s
  | .lsumm d => Sys2Proof.Machine.execLsumm d s
  | .sget d n => Sys2Proof.Machine.execSget d n s
  | .kwait d a k => Sys2Proof.Machine.execKwait d a k s
  | .waitLd d a => Sys2Proof.Machine.execWaitLd d a s
  | .waitSt d a => Sys2Proof.Machine.execWaitSt d a s
  | .waitCp d a => Sys2Proof.Machine.execWaitCp d a s
  | .waitTl d a => Sys2Proof.Machine.execWaitTl d a s
  | .barInit a b => Sys2Proof.Machine.execBarInit a b s
  | .barFree a => Sys2Proof.Machine.execBarFree a s
  | .barArrive d a b => Sys2Proof.Machine.execBarArrive d a b s
  | .barWait a => Sys2Proof.Machine.execBarWait a s
  | .sbarArrive d c => Sys2Proof.Machine.execSbarArrive d c s
  | .sbarWait a c => Sys2Proof.Machine.execSbarWait a c s
  | .yieldc a b o => Sys2Proof.Machine.execYieldc a b o s
  | .bdecl a b => Sys2Proof.Machine.execBdecl a b s
  | .bput d a b => Sys2Proof.Machine.execBput d a b s
  | .bputw d a b => Sys2Proof.Machine.execBputw d a b s
  | .btake d a => Sys2Proof.Machine.execBtake d a s
  | .bdrop a => Sys2Proof.Machine.execBdrop a s
  | .xcopy a => Sys2Proof.Machine.execXcopy a s
  | .tset t a b => Sys2Proof.Machine.execTset t a b s
  | .tsetb t a => Sys2Proof.Machine.execTsetb t a s
  | .tsets t a => Sys2Proof.Machine.execTsets t a s
  | .tgetl d t => Sys2Proof.Machine.execTgetl d t s
  | .tgeth d t => Sys2Proof.Machine.execTgeth d t s
  | .shalloc d a => Sys2Proof.Machine.execShalloc d a s
  | .shfree a => Sys2Proof.Machine.execShfree a s
  | .shtest d a => Sys2Proof.Machine.execShtest d a s
  | .cobjDecl d a b => Sys2Proof.Machine.execCobjDecl d a b s
  | .cobjMode k a b => Sys2Proof.Machine.execCobjMode k a b s
  | .cobjFree a => Sys2Proof.Machine.execCobjFree a s
  | .cobjQuery d a => Sys2Proof.Machine.execCobjQuery d a s
  | .creduce d a b => Sys2Proof.Machine.execCreduce d a b s
  | .callred d a b => Sys2Proof.Machine.execCallred d a b s
  | .credscat d a b => Sys2Proof.Machine.execCredscat d a b s
  | .callgath d a b => Sys2Proof.Machine.execCallgath d a b s
  | .calltoall d a b => Sys2Proof.Machine.execCalltoall d a b s
  | .cbcast d a b => Sys2Proof.Machine.execCbcast d a b s
  | .cabort d a => Sys2Proof.Machine.execCabort d a s
  | .tmark a b => Sys2Proof.Machine.execTmark a b s
  | .tsync => Sys2Proof.Machine.execTsync s
  | .tsamp a => Sys2Proof.Machine.execTsamp a s
  | .spget d a => Sys2Proof.Machine.execSpget d a s
  | .spset a b => Sys2Proof.Machine.execSpset a b s
  | .sslotw a b => Sys2Proof.Machine.execSslotw a b s
  | .sslotr d a => Sys2Proof.Machine.execSslotr d a s
  | .sslotx a => Sys2Proof.Machine.execSslotx a s
  | .spreq d a b => Sys2Proof.Machine.execSpreq d a b s
  | .sgpl d => Sys2Proof.Machine.execSgpl d s
  | .tlbroot a b => Sys2Proof.Machine.execTlbroot a b s
  | .tlbinv a b => Sys2Proof.Machine.execTlbinv a b s
  | .carve d a k => Sys2Proof.Machine.execCarve d a k s
  | .pmap d a b => Sys2Proof.Machine.execPmap d a b s
  | .pgive d a b => Sys2Proof.Machine.execPgive d a b s
  | .wldp d a => Sys2Proof.Machine.execWldp d a s
  | .wcasp d a b => Sys2Proof.Machine.execWcasp d a b s
  | .tlbfill a b => Sys2Proof.Machine.execTlbfill a b s
  | .wentry a b => Sys2Proof.Machine.execWentry a b s
  | .eret => Sys2Proof.Machine.execEret s
  | .ekill a => Sys2Proof.Machine.execEkill a s
  | .efget d a => Sys2Proof.Machine.execEfget d a s
  | .efset a b => Sys2Proof.Machine.execEfset a b s
  | .vadd x => Sys2Proof.Machine.execVadd x s
  | .vsub x => Sys2Proof.Machine.execVsub x s
  | .vmul x => Sys2Proof.Machine.execVmul x s
  | .vmulh x => Sys2Proof.Machine.execVmulh x s
  | .vmad x => Sys2Proof.Machine.execVmad x s
  | .vmin x => Sys2Proof.Machine.execVmin x s
  | .vmax x => Sys2Proof.Machine.execVmax x s
  | .vdiv x => Sys2Proof.Machine.execVdiv x s
  | .vrem x => Sys2Proof.Machine.execVrem x s
  | .vand x => Sys2Proof.Machine.execVand x s
  | .vor x => Sys2Proof.Machine.execVor x s
  | .vxor x => Sys2Proof.Machine.execVxor x s
  | .vandn x => Sys2Proof.Machine.execVandn x s
  | .vshl x => Sys2Proof.Machine.execVshl x s
  | .vshr x => Sys2Proof.Machine.execVshr x s
  | .vclz x => Sys2Proof.Machine.execVclz x s
  | .vpopc x => Sys2Proof.Machine.execVpopc x s
  | .vcmp x => Sys2Proof.Machine.execVcmp x s
  | .vaddPacked x => Sys2Proof.Machine.execVaddPacked x s
  | .vsubPacked x => Sys2Proof.Machine.execVsubPacked x s
  | .vminPacked x => Sys2Proof.Machine.execVminPacked x s
  | .vmaxPacked x => Sys2Proof.Machine.execVmaxPacked x s
  | .vmulPacked x => Sys2Proof.Machine.execVmulPacked x s
  | .vcmpEqPacked x => Sys2Proof.Machine.execVcmpEqPacked x s
  | .vcmpLtPacked x => Sys2Proof.Machine.execVcmpLtPacked x s
  | .vcmpLePacked x => Sys2Proof.Machine.execVcmpLePacked x s
  | .vdot x => Sys2Proof.Machine.execVdot x s
  | .vmovN32 x => Sys2Proof.Machine.execVmovN32 x s
  | .vselN32 x => Sys2Proof.Machine.execVselN32 x s
  | .vselN64 x => Sys2Proof.Machine.execVselN64 x s
  | .vcoord x => Sys2Proof.Machine.execVcoord x s
  | .vmovN64 x => Sys2Proof.Machine.execVmovN64 x s
  | .vaddFp x => Sys2Proof.Machine.execVaddFp x s
  | .vsubFp x => Sys2Proof.Machine.execVsubFp x s
  | .vmulFp x => Sys2Proof.Machine.execVmulFp x s
  | .vfma x => Sys2Proof.Machine.execVfma x s
  | .vfms x => Sys2Proof.Machine.execVfms x s
  | .vfnma x => Sys2Proof.Machine.execVfnma x s
  | .vdivFp x => Sys2Proof.Machine.execVdivFp x s
  | .vsqrt x => Sys2Proof.Machine.execVsqrt x s
  | .vcmpFp x => Sys2Proof.Machine.execVcmpFp x s
  | .vminFp x => Sys2Proof.Machine.execVminFp x s
  | .vmaxFp x => Sys2Proof.Machine.execVmaxFp x s
  | .vneg x => Sys2Proof.Machine.execVneg x s
  | .vabs x => Sys2Proof.Machine.execVabs x s
  | .vcsgn x => Sys2Proof.Machine.execVcsgn x s
  | .vclass x => Sys2Proof.Machine.execVclass x s
  | .vaddF16 x => Sys2Proof.Machine.execVaddF16 x s
  | .vsubF16 x => Sys2Proof.Machine.execVsubF16 x s
  | .vmulF16 x => Sys2Proof.Machine.execVmulF16 x s
  | .vfmaF16 x => Sys2Proof.Machine.execVfmaF16 x s
  | .vminF16 x => Sys2Proof.Machine.execVminF16 x s
  | .vmaxF16 x => Sys2Proof.Machine.execVmaxF16 x s
  | .vcmpEqF16 x => Sys2Proof.Machine.execVcmpEqF16 x s
  | .vcmpLtF16 x => Sys2Proof.Machine.execVcmpLtF16 x s
  | .vdot2 x => Sys2Proof.Machine.execVdot2 x s
  | .vcvt x => Sys2Proof.Machine.execVcvt x s
  | .vcvtp x => Sys2Proof.Machine.execVcvtp x s
  | .vfrsqe x => Sys2Proof.Machine.execVfrsqe x s
  | .vfrcpe x => Sys2Proof.Machine.execVfrcpe x s
  | .vfexp2 x => Sys2Proof.Machine.execVfexp2 x s
  | .vflog2 x => Sys2Proof.Machine.execVflog2 x s
  | .vfsinpi x => Sys2Proof.Machine.execVfsinpi x s
  | .vfcospi x => Sys2Proof.Machine.execVfcospi x s
  | .vpand x => Sys2Proof.Machine.execVpand x s
  | .vpor x => Sys2Proof.Machine.execVpor x s
  | .vpxor x => Sys2Proof.Machine.execVpxor x s
  | .vpandn x => Sys2Proof.Machine.execVpandn x s
  | .vpnot x => Sys2Proof.Machine.execVpnot x s
  | .vpset x => Sys2Proof.Machine.execVpset x s
  | .vpget x => Sys2Proof.Machine.execVpget x s
  | .vpmov x => Sys2Proof.Machine.execVpmov x s
  | .vpnz x => Sys2Proof.Machine.execVpnz x s
  | .mpush x => Sys2Proof.Machine.execMpush x s
  | .melse => Sys2Proof.Machine.execMelse s
  | .mpop => Sys2Proof.Machine.execMpop s
  | .vtest x => Sys2Proof.Machine.execVtest x s
  | .vmaskm x => Sys2Proof.Machine.execVmaskm x s
  | .vshflIdx x => Sys2Proof.Machine.execVshflIdx x s
  | .vshflUp x => Sys2Proof.Machine.execVshflUp x s
  | .vshflDown x => Sys2Proof.Machine.execVshflDown x s
  | .vshflXor x => Sys2Proof.Machine.execVshflXor x s
  | .vlred x => Sys2Proof.Machine.execVlred x s
  | .vscan x => Sys2Proof.Machine.execVscan x s
  | .vbcast x => Sys2Proof.Machine.execVbcast x s
  | .vballot x => Sys2Proof.Machine.execVballot x s
  | .vmatch x => Sys2Proof.Machine.execVmatch x s
  | .vld x => Sys2Proof.Machine.execVld x s
  | .vldq x => Sys2Proof.Machine.execVldq x s
  | .vldx x => Sys2Proof.Machine.execVldx x s
  | .vst x => Sys2Proof.Machine.execVst x s
  | .vstq x => Sys2Proof.Machine.execVstq x s
  | .vstx x => Sys2Proof.Machine.execVstx x s
  | .vamo x => Sys2Proof.Machine.execVamo x s
  | .vqatomAdd x => Sys2Proof.Machine.execVqatomAdd x s
  | .vqatomMerge x => Sys2Proof.Machine.execVqatomMerge x s
  | .vpref x => Sys2Proof.Machine.execVpref x s
  | .vprefx x => Sys2Proof.Machine.execVprefx x s
  | .vbput x => Sys2Proof.Machine.execVbput x s
  | .vbtake x => Sys2Proof.Machine.execVbtake x s
  | .qzero x => Sys2Proof.Machine.execQzero x s
  | .qmov x => Sys2Proof.Machine.execQmov x s
  | .qadd x => Sys2Proof.Machine.execQadd x s
  | .qmac x => Sys2Proof.Machine.execQmac x s
  | .qmerge x => Sys2Proof.Machine.execQmerge x s
  | .qnorm x => Sys2Proof.Machine.execQnorm x s
  | .qred x => Sys2Proof.Machine.execQred x s
  | .qrnd x => Sys2Proof.Machine.execQrnd x s
  | .qstat x => Sys2Proof.Machine.execQstat x s
  | .qseg x => Sys2Proof.Machine.execQseg x s
  | .qspill x => Sys2Proof.Machine.execQspill x s
  | .qfill x => Sys2Proof.Machine.execQfill x s
  | .tmma x => Sys2Proof.Machine.execTmma x s
  | .tcsum x => Sys2Proof.Machine.execTcsum x s
  | .tconv x => Sys2Proof.Machine.execTconv x s
  | .tasum x => Sys2Proof.Machine.execTasum x s
  | .tzero x => Sys2Proof.Machine.execTzero x s
  | .tload x => Sys2Proof.Machine.execTload x s
  | .tstore x => Sys2Proof.Machine.execTstore x s
  | .tepi x => Sys2Proof.Machine.execTepi x s
  | .tstage x => Sys2Proof.Machine.execTstage x s
  | .tres x => Sys2Proof.Machine.execTres x s
  | .trel n => Sys2Proof.Machine.execTrel n s
  | .tileQueueEntry g => Sys2Proof.Machine.execTileQueueEntry g s
  | .tileTurn g => Sys2Proof.Machine.execTileTurn g s
  | .tileCommit g => Sys2Proof.Machine.execTileCommit g s
  | .laneJumpRecord g => Sys2Proof.Machine.execLaneJumpRecord g s
  | .waitRetire g => Sys2Proof.Machine.execWaitRetire g s
  | .scalarReply g => Sys2Proof.Machine.execScalarReply g s
  | .laneLoadReturn g => Sys2Proof.Machine.execLaneLoadReturn g s
  | .storePerformed g => Sys2Proof.Machine.execStorePerformed g s
  | .homeRequest a => Sys2Proof.Machine.execHomeRequest a s
  | .walkStart w => Sys2Proof.Machine.execWalkStart w s
  | .walkLimitExpiry w => Sys2Proof.Machine.execWalkLimitExpiry w s
  | .copyWrite t c => Sys2Proof.Machine.execCopyWrite t c s
  | .copyComplete t c => Sys2Proof.Machine.execCopyComplete t c s
  | .boothReservation g => Sys2Proof.Machine.execBoothReservation g s
  | .boothFillComplete g => Sys2Proof.Machine.execBoothFillComplete g s
  | .bputwReserve g => Sys2Proof.Machine.execBputwReserve g s
  | .collectiveHandover t => Sys2Proof.Machine.execCollectiveHandover t s
  | .collectiveStep c => Sys2Proof.Machine.execCollectiveStep c s
  | .collectiveEnd c => Sys2Proof.Machine.execCollectiveEnd c s
  | .cobjModeDone die entry => Sys2Proof.Machine.execCobjModeDone die entry s
  | .carveDone die => Sys2Proof.Machine.execCarveDone die s
  | .vector g => Sys2Proof.Machine.execVector g s
  | .pdeadExpiry t => Sys2Proof.Machine.execPdeadExpiry t s
  | .cooperativeSave l n => Sys2Proof.Machine.execCooperativeSave l n s
  | .nodeRestore l n => Sys2Proof.Machine.execNodeRestore l n s
  | .teamPlacement l => Sys2Proof.Machine.execTeamPlacement l s
  | .launchEnd l => Sys2Proof.Machine.execLaunchEnd l s
  | .slotTableWrap core => Sys2Proof.Machine.execSlotTableWrap core s
  | .packetNop q => Sys2Proof.Machine.execPacketNop q s
  | .packetLaunch q => Sys2Proof.Machine.execPacketLaunch q s
  | .packetWait q => Sys2Proof.Machine.execPacketWait q s
  | .semaphoreSatisfied q => Sys2Proof.Machine.execSemaphoreSatisfied q s
  | .packetSignal q => Sys2Proof.Machine.execPacketSignal q s
  | .packetCopy q => Sys2Proof.Machine.execPacketCopy q s
  | .packetCopyDone q => Sys2Proof.Machine.execPacketCopyDone q s
  | .packetFence q => Sys2Proof.Machine.execPacketFence q s
  | .packetMark q => Sys2Proof.Machine.execPacketMark q s
  | .packetJump q => Sys2Proof.Machine.execPacketJump q s
  | .frontEndBind q => Sys2Proof.Machine.execFrontEndBind q s
  | .frontEndRelease q => Sys2Proof.Machine.execFrontEndRelease q s
  | .launchJoinRequest chip gen part priv desc => Sys2Proof.Machine.execLaunchJoinRequest chip gen part priv desc s
  | .joinReply chip gen ok status cause => Sys2Proof.Machine.execJoinReply chip gen ok status cause s
  | .downbeat chip gen => Sys2Proof.Machine.execDownbeat chip gen s
  | .abort chip gen status cause => Sys2Proof.Machine.execAbort chip gen status cause s
  | .startedReply chip gen => Sys2Proof.Machine.execStartedReply chip gen s
  | .downbeatTimeout l => Sys2Proof.Machine.execDownbeatTimeout l s
  | .joinResendTimeout chip gen => Sys2Proof.Machine.execJoinResendTimeout chip gen s
  | .joinDropTimeout chip gen => Sys2Proof.Machine.execJoinDropTimeout chip gen s
  | .startedTimeout l => Sys2Proof.Machine.execStartedTimeout l s
  | .doorbell fn q v => Sys2Proof.Machine.execDoorbell fn q v s
  | .haltClear fn q v => Sys2Proof.Machine.execHaltClear fn q v s
  | .pctlWrite p v => Sys2Proof.Machine.execPctlWrite p v s
  | .ptraceWrite p v => Sys2Proof.Machine.execPtraceWrite p v s
  | .csctlWrite p d v => Sys2Proof.Machine.execCsctlWrite p d v s
  | .csrdWrite p d v => Sys2Proof.Machine.execCsrdWrite p d v s
  | .podcfgWrite v => Sys2Proof.Machine.execPodcfgWrite v s
  | .fwlenWrite v => Sys2Proof.Machine.execFwlenWrite v s
  | .registerWindowWrite fn off v => Sys2Proof.Machine.execRegisterWindowWrite fn off v s
  | .tdispStop p => Sys2Proof.Machine.execTdispStop p s
  | .functionLevelReset p => Sys2Proof.Machine.execFunctionLevelReset p s
  | .spdmRequest index => Sys2Proof.Machine.execSpdmRequest index s
  | .hostMemAccess fn addr write data => Sys2Proof.Machine.execHostMemAccess fn addr write data s
  | .podAnnouncement chip dup => Sys2Proof.Machine.execPodAnnouncement chip dup s
  | .ualinkLaneFailure port => Sys2Proof.Machine.execUalinkLaneFailure port s
  | .remoteRequestTimeout a => Sys2Proof.Machine.execRemoteRequestTimeout a s
  | .ptpInputLoss => Sys2Proof.Machine.execPtpInputLoss s
  | .ptpInputRestore offset => Sys2Proof.Machine.execPtpInputRestore offset s
  | .holdoverExpiry => Sys2Proof.Machine.execHoldoverExpiry s
  | .timeBaseTimer p d => Sys2Proof.Machine.execTimeBaseTimer p d s
  | .heldRecordEmit p d => Sys2Proof.Machine.execHeldRecordEmit p d s
  | .clockLimit die mhz => Sys2Proof.Machine.execClockLimit die mhz s
  | .clockRestart die => Sys2Proof.Machine.execClockRestart die s
  | .softError u repeated => Sys2Proof.Machine.execSoftError u repeated s
  | .coldStart result unit detail => Sys2Proof.Machine.execColdStart result unit detail s
  | .tdispLockInterface p => Sys2Proof.Machine.execTdispLockInterface p s
  | .tdispStartInterface p => Sys2Proof.Machine.execTdispStartInterface p s
  | .clockStop die => Sys2Proof.Machine.execClockStop die s
  | .clockRaise die mhz => Sys2Proof.Machine.execClockRaise die mhz s
  | .powerLoss torn => Sys2Proof.Machine.execPowerLoss torn s
  | .chipUnreachable chip => Sys2Proof.Machine.execChipUnreachable chip s
  | .launchKillArrival part id status code chip team group => Sys2Proof.Machine.execLaunchKillArrival part id status code chip team group s

end Sys2Proof.Machine
end

