-- ==== Sys2Proof/Machine/Issue.lean ====
section
/-! DEFINITION. The issue of one instruction of a stream or a walk: readiness, the slot table's choice (R314), fetch and decode (R160, R161), the holds of R39 and R359, fusion (R163), then its meaning. -/

namespace Sys2Proof.Machine

open Sys2Proof

/-- A fetched scalar word is checked and runs (R151, R160, R161). -/
def runScalar (s : State) (g w : Nat) : Out :=
  if scalarPrivileged s g w then .next (illegal s 3)
  else match decodeScalar (BitVec.ofNat 32 w) with
    | .error c => .next (illegal s c)
    | .ok i => match scalarHeld s g i with
      | some t => .next t
      | none => exec i s
/-- The issue of a group's next scalar instruction. -/
def scalarIssue (s : State) (g : Nat) : Out :=
  match fetch { s with cur := .group g } g (.fetchS g) (group s g).spc 4 with
  | (s, .wait) => .next s
  | (s, .fault r) => .next (raiseScalar s r)
  | (s, .word bs) => runScalar (stampScalar s g) g (ofLe bs)
/-- Whether some sink is lossless (R391). -/
def anyLossless (s : State) : Bool :=
  (List.range 16).any fun p => (List.range 4).any fun d => sinkOn s p d && (csctl s p d).getLsbD 1
/-- Whether an issue would emit a record that a full lossless sink holds back (R403). -/
def wouldHold (s : State) (issue : Out) : Bool :=
  anyLossless s && (match issue with | .next t => heldBack t | _ => false)
/-- Whether a group is ready in its scalar stream; one that back-pressure holds there is not (R30, R403). -/
def scalarCan (s : State) (g : Nat) : Bool := scalarReady s g && !wouldHold s (scalarIssue s g)
/-- Whether the slot table lets a group issue in its scalar stream this cycle (R314). -/
def scalarChosen (s : State) (g : Nat) : Bool :=
  slotChoice s (coreOf s g) (quarterOf (group s g)) (scalarCan s) (fun x => x.age.1) == some g
/-- The scalar stream of a group issues its next instruction, if it is ready and chosen. -/
def scalarTurn (s : State) (g : Nat) : Out :=
  if scalarReady s g && scalarChosen s g then scalarIssue s g else .next s

/-- The lane word at an address and its instruction, if it could be fetched at once and decodes. -/
noncomputable def laneInstrAt (s : State) (g : Nat) (pc : Word) : Option (Nat × Instr) :=
  (fetchNow s g pc 12).bind fun bs => (okOf (decodeLane (BitVec.ofNat 96 (ofLe bs)))).map fun i => (ofLe bs, i)
/-- Whether instructions issued one after the other would park no lane and raise nothing: no executing lane reads poison in any of them (R165). -/
def calm (s : State) (g : Nat) : List Instr → Bool
  | [] => (group s g).lane.park.fmask == 0
  | i :: r => match exec i s with
    | .next t => (group t g).pend == (group s g).pend && (group t g).lane.lpc != (group s g).lane.lpc && calm { t with cur := .group g } g r
    | _ => false
/-- The instructions that issue with one at hand, whose word is w: the members of the fused operation that it begins where R163 lets it; itself alone where none begins, and where R165 has the members issue unfused. -/
noncomputable def fusedWith (s : State) (g w : Nat) (i : Instr) : List Instr :=
  let l := (group s g).lane
  if l.rep ≠ 0 ∨ l.park.fmask ≠ 0 ∨ headCount l.rq < 2 then [i]
  else
    let j := laneInstrAt s g (l.lpc + 12)
    let k := laneInstrAt s g (l.lpc + 24)
    let same := j.any fun e => modifierByte e.1 == modifierByte w
    let n := min (headCount l.rq) (fuseLength (descOf s g).v l.stack.length same i (j.map (·.2)) (k.map (·.2)))
    let members := (i :: ([j, k].filterMap fun e => e.map (·.2))).take n
    if n < 2 || (!(group s g).poison.isEmpty && !calm s g members) then [i] else members
/-- Instructions issued as one operation: one after the other in one step, so that no stop falls between them (R165). -/
def runTogether : List Instr → State → Out
  | [], s => .next s
  | i :: r, s => match exec i s with
    | .next t => runTogether r t
    | o => o
/-- A fetched lane word is checked and issues (R160, R161, R163). -/
noncomputable def runLane (s : State) (g w : Nat) : Out :=
  match decodeLane (BitVec.ofNat 96 w) with
  | .error c => .next (laneTrap s g c)
  | .ok i => runTogether (fusedWith s g w i) s
/-- Where the members after the first of a fused operation may still have to be fetched, the state that waits for them: the operation issues as a whole (R163). -/
noncomputable def fuseFetch (s : State) (g : Nat) : Option State :=
  let l := (group s g).lane
  let miss := fun (pc : Word) => match fetch s g (.fetchL g) pc 12 with
    | (t, .wait) => some t
    | _ => none
  if l.rep ≠ 0 ∨ l.park.fmask ≠ 0 ∨ headCount l.rq < 2 ∨ (laneInstrAt s g l.lpc).any (fun e => fuseHead e.2) = false then none
  else miss (l.lpc + 12) <|>
    if 2 < headCount l.rq ∧ (laneInstrAt s g (l.lpc + 12)).any (fun e => (fuseSelect e.2).isSome) = true then miss (l.lpc + 24) else none
/-- The issue of a group's next lane instruction. -/
noncomputable def laneIssueNext (s : State) (g : Nat) : Out :=
  let s : State := { s with cur := .group g }
  match fuseFetch s g with
  | some t => .next t
  | none => match fetch s g (.fetchL g) (group s g).lane.lpc 12 with
    | (s, .wait) => .next s
    | (s, .fault r) => .next (raiseLane s g r)
    | (s, .word bs) => runLane (stampLane s g) g (ofLe bs)
/-- Whether a group is ready in its lane stream; one that back-pressure holds there is not (R30, R403). -/
noncomputable def laneCan (s : State) (g : Nat) : Bool := laneReady s g && !wouldHold s (laneIssueNext s g)
/-- Whether the slot table lets a group issue in its lane stream this cycle (R314). -/
noncomputable def laneChosen (s : State) (g : Nat) : Bool :=
  slotChoice s (coreOf s g) (quarterOf (group s g)) (laneCan s) (fun x => x.age.2) == some g
/-- The lane stream of a group issues, if it is ready and chosen. -/
noncomputable def laneTurn (s : State) (g : Nat) : Out :=
  if laneReady s g && laneChosen s g then laneIssueNext s g else .next s

/-- A walk issues its next instruction; one that has run for its limit of cycles ends with a walker error (R329, R330). -/
def walkTurn (s : State) (w : Nat) : Out :=
  match walk s w with
  | none => .next s
  | some x =>
    if x.running then
      let s : State := { s with cur := .walk w }
      if Config.walkLimit ≤ x.cycles then .next (walkError s w)
      else match walkFetch s x with
      | none => .next (walkError s w)
      | some v => match decodeScalar (BitVec.ofNat 32 v) with
        | .error _ => .next (walkError s w)
        | .ok i => exec i s
    else .next s

/-- The die whose clock drives an event of a group, a team's engines or a walk, if it is one (R405). -/
def eventDie (s : State) : Instr → Option Nat
  | .tileQueueEntry g => some (dieOf s g)
  | .tileTurn g => some (dieOf s g)
  | .tileCommit g => some (dieOf s g)
  | .laneJumpRecord g => some (dieOf s g)
  | .waitRetire g => some (dieOf s g)
  | .scalarReply g => some (dieOf s g)
  | .laneLoadReturn g => some (dieOf s g)
  | .storePerformed g => some (dieOf s g)
  | .boothReservation g => some (dieOf s g)
  | .boothFillComplete g => some (dieOf s g)
  | .bputwReserve g => some (dieOf s g)
  | .vector g => some (dieOf s g)
  | .copyWrite t _ => some ((team s t).core / 64)
  | .copyComplete t _ => some ((team s t).core / 64)
  | .collectiveHandover t => some ((team s t).core / 64)
  | .walkStart w => (walk s w).map fun x => x.die % 4
  | .walkLimitExpiry w => (walk s w).map fun x => x.die % 4
  | .slotTableWrap c => some (c / 64)
  | _ => none
/-- The die whose clock drives a turn. -/
def turnDie (s : State) : Turn → Option Nat
  | .scalar g => some (dieOf s g)
  | .lane g => some (dieOf s g)
  | .walk w => (walk s w).map fun x => x.die % 4
  | .event i => eventDie s i
  | .idle => none
/-- Whether no cycle of a turn's clock begins with this step (R3, R405): so a stream issues, and a tile instruction enters, at most once in a cycle (R314, R319). -/
def stalled (s : State) (t : Turn) : Bool := (turnDie s t).any fun d => !cycleBegins s (chipNo s * 4 + d)
/-- A turn of the schedule; nothing where no cycle of its clock begins. -/
noncomputable def runTurn (t : Turn) (s : State) : Out :=
  if stalled s t then .next s
  else match t with
    | .scalar g => scalarTurn s g
    | .lane g => laneTurn s g
    | .walk w => walkTurn s w
    | .event i => exec i s
    | .idle => .next s
/-- A step whose record a full lossless sink holds back does not take place yet (R403). -/
def settleTurn (before : State) : Out → Out
  | .next t => .next (if heldBack t then { before with cur := .none } else { t with cur := .none })
  | r => r

end Sys2Proof.Machine
end

