-- ==== Sys2Proof/Machine/Schedule.lean ====
section
/-! DEFINITION. The default schedule (log 3): the turns that could have an effect now, of which time picks one. It stands for one order of events among those that the manual allows; the agenda of the state can name any other. -/

namespace Sys2Proof.Machine

open Sys2Proof

/-- A turn where a condition holds. -/
def turnIf (b : Bool) (i : Instr) : List Turn := if b then [.event i] else []
/-- Whether the head of a release queue is a jump record. -/
def headJump : List RqRec → Bool
  | .jump _ :: _ => true
  | _ => false
/-- Turns of a group: its streams, its accesses, its tile instruction and booth request, its exceptions. -/
noncomputable def groupTurns (s : State) (g : Nat) : List Turn :=
  let x := group s g
  (if scalarReady s g && scalarChosen s g then [.scalar g] else []) ++
  (if laneReady s g && laneChosen s g then [.lane g] else []) ++
  turnIf (x.fly.scalar.any (·.reply.isSome)) (.scalarReply g) ++ turnIf (x.fly.scalar.any (·.reply.isNone)) (.homeRequest (.scalar g)) ++
  turnIf x.fly.lane.isSome (.homeRequest (.lane g)) ++ turnIf x.fly.waiting.isSome (.waitRetire g) ++
  turnIf (headJump x.lane.rq) (.laneJumpRecord g) ++ turnIf (x.cnt.loadsDue != 0) (.laneLoadReturn g) ++
  turnIf (x.cnt.storesDue != 0) (.storePerformed g) ++
  (if x.fly.booth.isSome then [.event (.boothReservation g), .event (.boothFillComplete g), .event (.bputwReserve g)] else []) ++
  (match tileOf x with
   | none => []
   | some t => match t.phase with
     | .waiting => [.event (.tileQueueEntry g)]
     | .queued => [.event (.tileTurn g)]
     | .running => [.event (.tileCommit g)]
     | .abandoned => []) ++
  turnIf (hasRecords s g) (.vector g)
/-- Turns of a team: its groups', its copies, a collective to hand over, a forced save. -/
noncomputable def teamTurns (s : State) (t : Nat) : List Turn :=
  let x := team s t
  x.groups.flatMap (groupTurns s) ++
  (x.copies.flatMap fun e => match e.2 with
    | none => []
    | some k => if k.suspended || k.reported then [] else if k.done < copyCount k.req then [.event (.copyWrite t e.1)] else [.event (.copyComplete t e.1)]) ++
  turnIf (x.groups.any fun g => (issued (group s g)).isSome) (.collectiveHandover t) ++ turnIf (x.preq && x.pdead == 0) (.pdeadExpiry t)
/-- Turns of the collectives. -/
noncomputable def collTurns (s : State) : List Turn :=
  (keys s.work.colls).flatMap fun c => [.event (.collectiveStep c), .event (.collectiveEnd c)]
/-- Turns of the walks. -/
noncomputable def walkTurns (s : State) : List Turn :=
  s.work.walks.flatMap fun e => match e.2 with
    | none => []
    | some w =>
      if w.running then (if Config.walkLimit ≤ w.cycles then [.event (.walkLimitExpiry e.1)] else [.walk e.1])
      else [.event (.walkStart e.1)]
/-- Turns of the dies: changes of objects and of carve-outs. -/
noncomputable def dieTurns (s : State) : List Turn :=
  s.dies.flatMap fun e =>
    turnIf e.2.carve.isSome (.carveDone e.1) ++ e.2.objs.flatMap fun o => turnIf (!o.2.changes.isEmpty) (.cobjModeDone e.1 o.1)
/-- Turns of a launch: placement, joining, saves and restores, its end. -/
noncomputable def launchTurns (s : State) (l : Nat) : List Turn :=
  let x := launch s l
  turnIf (x.phase == .running && x.fin.isNone) (.teamPlacement l) ++ turnIf (x.fin.isSome || teamsEnded s l) (.launchEnd l) ++
  turnIf (x.phase == .joining) (.downbeatTimeout l) ++ turnIf (x.acks != []) (.startedTimeout l) ++
  (if x.phase == .joined || x.phase == .refused then [.event (.joinResendTimeout x.chip x.gen), .event (.joinDropTimeout x.chip x.gen)] else []) ++
  (x.saved.flatMap fun k => turnIf k.complete (.nodeRestore l k.node) ++ turnIf (!k.complete) (.cooperativeSave l k.node)) ++
  (if x.request.isSome then (((s.work.teams.filter fun e => e.2.live && e.2.launch == l).map fun e => saveNode s e.1).eraseDups.map
    fun n => .event (.cooperativeSave l n)) else [])
/-- Turns of a queue: its front end, its packets, its copy. -/
noncomputable def queueTurns (s : State) (q : Nat) : List Turn :=
  let x := queue s q
  turnIf (wantsFrontEnd s q) (.frontEndBind q) ++ turnIf (mayRead s q || (x.wait && x.bound.isSome)) (.homeRequest (.queue q)) ++
  turnIf x.copy.isSome (.packetCopyDone q) ++ turnIf (x.wait && x.bound.isSome) (.frontEndRelease q)
/-- Turns of the sinks, of time, of the requests of other chips and of prefetches. -/
noncomputable def otherTurns (s : State) : List Turn :=
  ((List.range 16).flatMap fun p => (List.range 4).flatMap fun d =>
    if sinkOn s p d then
      turnIf (!(sink s p d).held.isEmpty) (.heldRecordEmit p d) ++
      turnIf (!(die s (chipNo s * 4 + d)).stopped && timeBaseTime s p d && (sink s p d).held.all fun r => r.typ != 0xC) (.timeBaseTimer p d)
    else []) ++
  turnIf (holdoverOver s) .holdoverExpiry ++
  (keys s.work.remote).map (fun n => .event (.homeRequest (.remote n))) ++
  s.cores.flatMap fun e => e.2.want.map fun w => .event (.homeRequest (.pref e.1 w.1 w.2.1))
/-- The turns that could have an effect now. -/
noncomputable def turns (s : State) : List Turn :=
  if ready s then
    ((s.work.teams.filter fun e => e.2.live).flatMap fun e => teamTurns s e.1) ++ collTurns s ++ walkTurns s ++ dieTurns s ++
    ((s.work.launches.filter fun e => e.2.live).flatMap fun e => launchTurns s e.1) ++ (keys s.queues).flatMap (queueTurns s) ++ otherTurns s
  else turnIf (s.boot.power && s.boot.phase == 0) (.coldStart 0 0 0)
/-- The turn that the default schedule takes. -/
noncomputable def schedule (s : State) : Turn :=
  let ts := turns s
  ts.getD (now s / Config.cycleTicks % (max ts.length 1)) .idle

end Sys2Proof.Machine
end

