-- ==== Sys2Proof/Machine/Step.lean ====
section
/-! DEFINITION. One step of the package: the passage of time, then one turn, from the agenda of the state or else from the default schedule (log 3). And how a program is placed for the next step (log 21). -/

namespace Sys2Proof.Machine

open Sys2Proof

/-- The state at which a step's turn is taken: time has passed, while the module has power; no record waits from the step before. -/
def beforeTurn (s : State) : State :=
  let t := if s.boot.power then tick s else s
  { t with sinks := t.sinks.map fun (e : Nat × Sink) => (e.1, { e.2 with full := false }) }
/-- One step. -/
noncomputable def step (s : State) : Host.Outcome State Fault Refusal :=
  let t := beforeTurn s
  match t.agenda with
  | [] => settleTurn t (runTurn (schedule t) t)
  | turn :: rest => settleTurn { t with agenda := rest } (runTurn turn { t with agenda := rest })

/-- The descriptor of a placed program: one team of one group with every register, 64 KiB of scratchpad and 4 accumulator tiles (log 21). -/
def placedDesc (chip : Nat) : Desc :=
  { Desc.blank with id := 1, v := 256, q := 8, t := 4, s := 65536, mask := BitVec.ofNat 64 (2 ^ chip), timeout := 1,
                    levels := [⟨1, 2, [116]⟩, ⟨1, 1, [103]⟩] }
/-- The address at which a placed instruction stands. -/
def placedAt (chip : Nat) : Word := BitVec.ofNat 64 (chip * 2 ^ 56 + 0x10000)
/-- The translation of its page: read, write, execute, written (R326). -/
def placedLeaf : TlbEntry := ⟨0, 0, 1, 0x010000000001001F, 0⟩
/-- The group that runs it: at level 2, the lane stream with one released instruction if there is one to issue. -/
def placedGroup (n chip : Nat) (lane : Bool) : Group :=
  let pc := placedAt chip
  { Group.blank with live := true, team := n, spc := pc, level := 2
                     lane := { LaneCtx.blank with lpc := pc, base := pc, mask := BitVec.allOnes 128, start := BitVec.allOnes 128
                                                  rq := if lane then [.run 1 (List.replicate 15 0)] else [] } }
/-- The state with an instruction placed where the next step fetches it: the package ready, its one launch that of the program, its one group on core 0 of die 0, its page translated, its turn the next (log 21). -/
def State.withFetchWord (s : State) (nbits w : Nat) : State :=
  let chip := chipNo s
  let n := s.work.next
  let lane := decide (32 < nbits)
  let flat := dieBase (chip * 4) + 0x10000
  let s := setPreg s 0 0 0x100
  let s := modDie s (chip * 4) fun x => { x with tlb := placedLeaf :: x.tlb, mhz := 1600, stopped := false }
  let l : Launch := { Launch.blank with live := true, d := placedDesc chip, priv := 2, chip := chip, phase := .running, started := [0] }
  let t : Team := { Team.blank with live := true, launch := n, groups := [n] }
  { s with
    agenda := [if lane then .lane n else .scalar n]
    work := ⟨[(n, placedGroup n chip lane)], [(n, t)], [(n, l)], [], [], [], [], [], n + 1⟩
    mem := mwrite s.mem flat (leBytes (if lane then 12 else 4) w)
    bad := s.bad.filter fun b => b ≠ flat / 64
    cores := tdel s.cores 0
    boot := { s.boot with phase := 2, power := true } }

end Sys2Proof.Machine
end

