-- ==== Sys2Proof/Safety.lean ====
section
/-! DEFINITION. What counts as a safe run, and the terms in which claims are stated: when an instruction runs undisturbed, what a completed instruction leaves, what it leaves alone. -/

namespace Sys2Proof.Machine

open Sys2Proof

/-- A step that neither faults nor is refused. -/
def SafeStep (s : State) : Prop := ∃ t, step s = .next t
/-- A run of n steps that stays safe. -/
def SafeRun : Nat → State → Prop
  | 0, _ => True
  | n + 1, s => ∃ t, step s = .next t ∧ SafeRun n t
/-- Memory is in its canonical form. -/
def State.memWf (s : State) : Prop := Memory.wf s.mem = true
/-- Between steps no context runs, and no record that a full lossless sink holds back has been emitted (R403). -/
def State.settled (s : State) : Prop := s.cur = .none ∧ heldBack s = false

/-- A lane context keeps its bounds: the depth of the mask stack, that of the release queue and of what is held of it (R36, R44, R47). -/
def LaneBound (l : LaneCtx) : Prop :=
  l.stack.length ≤ Config.maskDepth ∧ l.rq.length ≤ Config.queueDepth ∧ l.park.full.length ≤ Config.queueDepth ∧
  l.park.stopRq.length ≤ Config.queueDepth
/-- Every group keeps its bounds: those of its lane context and of the one its handler interrupted, 16 bits in each outstanding counter and completion counter (R36, R44, R62, R63). -/
def State.bounded (s : State) : Prop :=
  ∀ g, LaneBound (group s g).lane ∧ (∀ f, (group s g).handler = some f → LaneBound f.lane) ∧
    (group s g).cnt.loads ≤ 0xFFFF ∧ (group s g).cnt.stores ≤ 0xFFFF ∧ (group s g).cnt.copies ≤ 0xFFFF ∧ (group s g).cnt.tiles ≤ 0xFFFF ∧
    ∀ k, kcount (group s g) k ≤ 0xFFFF

/-- A group's instruction runs, and no trace setting waits for its retirement (R399). -/
def Runs (s : State) (g : Nat) : Prop := s.cur = .group g ∧ (group s g).trace.next = none
/-- A group's instruction runs, the group's trace bit is 0 and no trace setting waits (R399): no Carillon record is written for it. -/
def Quiet (s : State) (g : Nat) : Prop := Runs s g ∧ (group s g).trace.bit = false
/-- A walk's instruction runs (R329). -/
def WalkRuns (s : State) (w : Nat) (x : Walk) : Prop := s.cur = .walk w ∧ walk s w = some x
/-- A lane instruction of a group runs: no lane is parked, no replay is under way, nothing is poisoned (R47, R48, R359). -/
def LaneRuns (s : State) (g : Nat) : Prop :=
  s.cur = .group g ∧ (group s g).poison = [] ∧ (group s g).lane.park.fmask = 0 ∧ (group s g).lane.park.replaying = false
/-- No Carillon sink is enabled (R391): no record is written. -/
def NoSinks (s : State) : Prop := ∀ p d, sinkOn s p d = false
/-- A group samples no memory instruction (R201, R400). -/
def Unsampled (s : State) (g : Nat) : Prop := (group s g).trace.every = 0 ∧ (group s g).trace.samples = []
/-- The registers that an instruction names lie below the launch's V and Q (R51, R57). -/
def Below (s : State) (g : Nat) (v q : List Nat) : Prop :=
  (∀ r ∈ v, r < (descOf s g).v) ∧ ∀ r ∈ q, r < (descOf s g).q

/-- Scalar register r of a group. -/
def sreg (s : State) (g : Nat) (r : SReg) : Word := sregOf (group s g) r.toNat
/-- The state after a scalar instruction of a group has retired: the group as its effect left it, SPC at a target, nothing waiting (R35, R174). -/
def retired (s : State) (g : Nat) (x : Group) (target : Word) : State :=
  setGroup s g { x with spc := target, fly := { x.fly with waiting := none, yielded := false } }
/-- The state after a scalar instruction that writes one register and goes on to the next word (R174). -/
def scalarDone (s : State) (g : Nat) (d : SReg) (v : Word) : State :=
  retired s g (setSregOf (group s g) d.toNat v) ((group s g).spc + 4)
/-- The state after a scalar instruction that writes no register and goes on to the next word. -/
def plainDone (s : State) (g : Nat) : State := retired s g (group s g) ((group s g).spc + 4)
/-- The state after a walk's instruction that writes one register; s0 discards (R50, R329). -/
def walkDone (s : State) (w : Nat) (x : Walk) (d : SReg) (v : Word) : State :=
  setWalk s w (some { x with s := if d = 0 then x.s else tput 0 x.s d.toNat v, spc := x.spc + 4 })
/-- The state in which a scalar instruction of a group waits, to start again later (R175). -/
def waitsAgain (s : State) (g : Nat) (i : Instr) : State :=
  setGroup s g { group s g with fly := { (group s g).fly with waiting := some i } }
/-- The state after one issue of a lane instruction whose repeat field is n: the group as its effect left it, the lane position advanced (R38, R155). -/
def laneNext (s : State) (g : Nat) (x : Group) (n : Nat) : State := setGroup s g { x with lane := advanceLane x.lane n }
/-- The state in which a group holds a fault record of its own streams (R345). -/
def pendingDone (s : State) (g : Nat) (r : FaultRec) : State :=
  setGroup s g { group s g with pend := { (group s g).pend with stream := some r, order := (group s g).pend.order ++ [0] } }
/-- A group that would take a fault: it runs no handler, holds no record of its streams, and its lane stream waits for no home (R345, R347). -/
def Faultable (s : State) (g : Nat) : Prop :=
  (group s g).handler = none ∧ (group s g).pend.stream = none ∧ (group s g).fly.lane = none

/-- A scratchpad access of n bytes of a group that meets its home's conditions: aligned, below S, no poisoned granule, room in the outstanding counters, no other access under way (R63, R100, R182, R232, R359). -/
def ScratchReady (s : State) (g : Nat) (a : Word) (n : Nat) : Prop :=
  a.toNat < 2 ^ 21 ∧ a.toNat % n = 0 ∧ a.toNat + n ≤ (descOf s g).s ∧ (team s (group s g).team).poison = [] ∧
  (group s g).cnt.loads < 0xFFFF ∧ (group s g).cnt.stores < 0xFFFF ∧ (group s g).fly.scalar = none
/-- No granule of the scratchpad run is tagged (R113, R116). -/
def Untagged (t : Team) (off n : Nat) : Prop := ∀ i, i < n → tagAt t (off + i) = 0
/-- The team of a group. -/
def ownTeam (s : State) (g : Nat) : Team := team s (group s g).team
/-- Nothing holds an agent's access up on its way to its home: the home is within reach, its slices take new requests, and no request of the agent waits for a walk (R322, R382, R403). -/
def Reached (s : State) (who : Who) (a : Word) (n : Nat) : Prop :=
  slicesHold s who a n = false ∧ cutOff s (ownerOf a) = false ∧ ∀ w ∈ s.work.waits, w.agent ≠ who.agent
/-- A virtual-memory access of n bytes of a group, within one page, that its TLB entry e serves at once: a legal address, rights, the page written already where the access writes, no carve-out change, no poison, no coherence object, no fault remembered for the agent, nothing that holds it up on the way, room in the counters, no other access under way (R63, R97, R322, R326, R359, R382, R403). -/
def MemReady (s : State) (g : Nat) (acc : BitVec 3) (a : Word) (n : Nat) (e : TlbEntry) : Prop :=
  0 < n ∧ bits a 15 0 + n ≤ 0x10000 ∧ addressFault (descOf s g).mask a n = none ∧
  tlbFind (die s (ownerOf a)) (partOf s g) (descOf s g).asn (pageOf a) = some e ∧ leafPermits e.leaf acc = true ∧
  (acc.getLsbD 1 = true → e.leaf.getLsbD 56 = true) ∧ (hostWindow a = true ∨ (die s (ownerOf a)).carve = none) ∧
  e.leaf.getLsbD 57 = false ∧ s.bad = [] ∧ objsMet s (partOf s g) a n = [] ∧ (∀ f ∈ s.work.faults, f.1 ≠ .scalar g) ∧
  Reached s (whoOf s g (.scalar g)) a n ∧ (group s g).cnt.loads < 0xFFFF ∧ (group s g).cnt.stores < 0xFFFF ∧ (group s g).fly.scalar = none
/-- A lane executes an instruction of 32- or 64-bit elements (R41, R55). -/
def executes (x : Group) (c : LaneCtl) (i : Nat) : Bool := (execLanes x c.pred c.neg).getD i false
/-- A lane's access of n bytes to virtual memory, within one page, that the TLB entry e serves at once (R97, R232, R322, R326, R382, R403). -/
def LaneMemReady (s : State) (g : Nat) (acc : BitVec 3) (a : Word) (n : Nat) (e : TlbEntry) : Prop :=
  bits a 15 0 + n ≤ 0x10000 ∧ addressFault (descOf s g).mask a n = none ∧
  tlbFind (die s (ownerOf a)) (partOf s g) (descOf s g).asn (pageOf a) = some e ∧ leafPermits e.leaf acc = true ∧
  (acc.getLsbD 1 = true → e.leaf.getLsbD 56 = true) ∧ (hostWindow a = true ∨ (die s (ownerOf a)).carve = none) ∧
  e.leaf.getLsbD 57 = false ∧ objsMet s (partOf s g) a n = [] ∧ Reached s (whoOf s g (.lane g)) a n
/-- A lane's access of n bytes to the scratchpad that meets its conditions: aligned and below S (R100, R232). -/
def LaneScratchReady (s : State) (g : Nat) (a : Word) (n : Nat) : Prop := a.toNat % n = 0 ∧ a.toNat + n ≤ (descOf s g).s
/-- A lane memory instruction of a group that its checks let issue and whose accesses meet nothing under way: a legal scope, a scratchpad base below 2^21, room in the counters, no poison, no fault remembered for the lane stream, no sample, no suppressed write still to report (R25, R63, R232, R235, R237, R359, R400). -/
def LaneMemRuns (s : State) (g : Nat) (m : MemCtl) (base : Word) : Prop :=
  LaneRuns s g ∧ Unsampled s g ∧ ((m.acq || m.rel) = true → scopeBad s g m.scope = false) ∧ (m.sp = true → base.toNat < 2 ^ 21) ∧
  (ownTeam s g).poison = [] ∧ s.bad = [] ∧ (∀ f ∈ s.work.faults, f.1 ≠ .lane g) ∧ (group s g).lane.clob = [] ∧
  (group s g).cnt.loads < 0xFFFF ∧ (group s g).cnt.stores < 0xFFFF
/-- What a lane memory instruction whose access is over leaves of its group beside its lane context and its lane and long-accumulator registers: the outstanding counters raised and their completion due (R234, R235); every other group as it was. -/
def LaneMemLeft (s t : State) (g loads stores : Nat) : Prop :=
  (∀ h, h ≠ g → group t h = group s h) ∧
  (group t g).cnt = { (group s g).cnt with
    loads := (group s g).cnt.loads + loads, stores := (group s g).cnt.stores + stores,
    loadsDue := (group s g).cnt.loadsDue + loads, storesDue := (group s g).cnt.storesDue + stores } ∧
  (group t g).r.s = (group s g).r.s ∧ (group t g).r.m = (group s g).r.m ∧ (group t g).r.t = (group s g).r.t ∧
  (group t g).spc = (group s g).spc ∧ (group t g).level = (group s g).level ∧ (group t g).handler = (group s g).handler ∧
  (group t g).fly.lane = none
/-- What a lane memory instruction whose lanes are all served leaves of its group: the lane position advanced, no record pending that was not (R234, R235). -/
def LaneMemDone (s t : State) (g n loads stores : Nat) : Prop :=
  LaneMemLeft s t g loads stores ∧ (group t g).lane = advanceLane (group s g).lane n ∧ (group t g).pend = (group s g).pend
/-- Registers loaded in the lanes that are served: register j of a list takes word j of each lane's value; other lanes and registers keep theirs (R53, R234). -/
def LanesLoaded (x y : Group) (served : Nat → Bool) (dst : List Nat) (value : Nat → Nat) : Prop :=
  (∀ r, r ∉ dst → vreg y r = vreg x r) ∧
  ∀ j < dst.length, ∀ i < 128, (vreg y (dst.getD j 0)).getD i 0 =
    if served i then BitVec.ofNat 32 (value i / 2 ^ (32 * j)) else (vreg x (dst.getD j 0)).getD i 0
/-- Bytes stored by the lanes that are served, each n bytes at its own place: a byte outside every such place is as it was, and a place that no higher executing lane meets holds its lane's data; a 4-bit element takes one nibble, and the other nibble of its byte is as it was where no served lane writes it (R234, R235). -/
def LanesStored (x : Group) (c : LaneCtl) (served : Nat → Bool) (n : Nat) (nibble : Bool) (hi : Nat → Nat) (place data : Nat → Nat) (old new : Nat → Byte) : Prop :=
  (∀ a, (∀ i < 128, served i = true → a < place i ∨ place i + n ≤ a) → new a = old a) ∧
  (nibble = true → ∀ a, ∀ h < 2, (∀ i < 128, served i = true → place i ≠ a ∨ hi i ≠ h) →
    (new a).toNat / 16 ^ h % 16 = (old a).toNat / 16 ^ h % 16) ∧
  ∀ i < 128, served i = true →
    (∀ k < 128, i < k → executes x c k = true →
      if nibble then place k ≠ place i ∨ hi k ≠ hi i else place k + n ≤ place i ∨ place i + n ≤ place k) →
    if nibble then (new (place i)).toNat / 16 ^ hi i % 16 = data i % 16
    else ∀ b < n, new (place i + b) = BitVec.ofNat 8 (data i / 256 ^ b)

/-- The record that a lane's access of n bytes takes at once, before any page is asked for: its class and address (R97, R100, R232). A scratchpad access is misaligned or beyond S; one of virtual memory has an address that is none, or is misaligned where it must be aligned. -/
def laneRefused (s : State) (g : Nat) (sp strict : Bool) (n : Nat) (a : Word) : Option (Nat × Word) :=
  if sp then
    if a.toNat % n ≠ 0 then some (6, a)
    else if (descOf s g).s < a.toNat + n then some (7, BitVec.ofNat 64 (max a.toNat (descOf s g).s)) else none
  else match addressFault (descOf s g).mask a n with
    | some b => some (5, b)
    | none => if strict && decide (a.toNat % n ≠ 0) then some (6, a) else none
/-- Lanes of an issue that have taken records are parked with them at the instruction; the lane stream goes on past it, as a run-on (R46, R47). -/
def LanesParked (s t : State) (g n : Nat) (bad : Nat → Option (Nat × Nat × Word)) : Prop :=
  let y := group s g
  let z := group t g
  (∀ k < 128, z.lane.park.fmask.getLsbD k = (bad k).isSome) ∧ z.lane.park.lpc = y.lane.lpc ∧ z.lane.park.rep = y.lane.rep ∧
  z.lane.park.full = y.lane.rq ∧ z.lane.park.replaying = false ∧ z.lane.mask = y.lane.mask ∧ z.lane.stack = y.lane.stack ∧
  z.lane.lpc = (if y.lane.rep < n then y.lane.lpc else y.lane.lpc + 12) ∧ z.pend = y.pend ∧
  ∀ k < 128, ∀ e, bad k = some e →
    let r := tget ⟨0, 0, 0, 0, 0, 0⟩ z.lane.park.recs k
    r.cls = e.1 ∧ r.cause = e.2.1 ∧ r.addr = e.2.2 ∧ r.lane.toNat = k

/-- The value a scalar load of kind k leaves of its bytes: k[1:0] gives the size, k[2] sign extension (R180, R182). -/
def loaded (k : BitVec 3) (bs : List Byte) : Word :=
  if k.getLsbD 2 then BitVec.ofInt 64 (sext (8 * bs.length) (ofLe bs)) else BitVec.ofNat 64 (ofLe bs)

/-- The rational number of a sign, an integer and an exponent of 2, which a finite exact value stands for. -/
def ratOf (s : Bool) (n : Nat) (e : Int) : ℚ := (if s then -1 else 1) * n * 2 ^ e

/-- A record goes into a sink's ring at once, at the place in memory that the TLB entry e gives: its sink and kind are enabled, its die is not stopped, nothing is held or lost, no time-base record is due, the ring has room without pad, its page is translated and no coherence object lies there (R391, R392, R394, R396, R402). -/
def RingReady (s : State) (p d : Nat) (r : TraceRec) (e : TlbEntry) (flat : Nat) : Prop :=
  let k := sink s p d
  let w := (preg s p (0x048 + d)).toNat
  let n := (bytesNow k r).length
  let a := ringBase s p d + BitVec.ofNat 64 (w % ringSize s p d)
  let who := sinkWho s p d
  sinkOn s p d = true ∧ kindOn s p d r = true ∧ (die s (chipNo s * 4 + d)).stopped = false ∧ k.held = [] ∧ k.lost = 0 ∧
  r.typ ≠ 0xC ∧ timeBaseDue s p d = false ∧ w % ringSize s p d + n ≤ ringSize s p d ∧
  w + n ≤ ringSize s p d + (preg s p (0x04C + d)).toNat ∧ bits a 15 0 + n ≤ 0x10000 ∧ addressFault who.mask a n = none ∧
  tlbFind (die s (ownerOf a)) p who.asn (pageOf a) = some e ∧ leafPermits e.leaf 2 = true ∧ e.leaf.getLsbD 56 = true ∧
  e.leaf.getLsbD 57 = false ∧ (hostWindow a = true ∨ (die s (ownerOf a)).carve = none) ∧ flat = leafFlat e.leaf e.level a ∧
  s.bad = [] ∧ Reached s who a n ∧ objsMet s p a n = [] ∧ ∀ f ∈ s.work.faults, f.1 ≠ .sink p d

/-- A queue's next packet is at hand: its front end may read it, its header is that of a type, a length in words and an irq flag, and its body lies in the ring or buffer and has been read (R370, R371). -/
def PacketReady (s : State) (q ty words : Nat) (irq : Bool) (body : List Byte) : Prop :=
  let x := queue s q
  let who := queueWho s q (.queue q)
  mayRead s q = true ∧ (∀ f ∈ s.work.faults, f.1 ≠ .queue q) ∧ words < 256 ∧ 8 * words ≤ packetRoom x ∧ 8 * words ≤ packetsOffered x ∧
  queueRead s who (packetAt x) 8 = (s, .ok (leBytes 8 (ty + 256 * words + if irq then 65536 else 0))) ∧
  (if ty = 0 then body = []
    else body.length = 8 * words - 8 ∧ ∀ i < words - 1,
      queueRead s who (packetAt x + 8 + BitVec.ofNat 64 (8 * i)) 8 = (s, .ok ((body.drop (8 * i)).take 8)))
/-- The state in which a queue's stream in its ring has gone past n bytes (R370, R371). -/
def pastPacket (s : State) (q n : Nat) : State :=
  let x := queue s q
  let head := (x.head + n) % 2 ^ x.lsize
  setQueue s q { x with head := head, wait := false, bound := if head = x.tail then none else x.bound }

/-- A save area of n bytes, but for its handler stacks of 4 KiB, reads as its chunks and as zero where no chunk is (R357, R358). -/
def AreaHolds (a : Area) (n : Nat) (left : List Nat) (cs : Chunks) : Prop :=
  (∀ c ∈ cs, ∀ i m, i + m ≤ c.2.length → a (c.1 + i) m = (c.2.drop i).take m) ∧
  ∀ off m, off + m ≤ n → (∀ c ∈ cs, off + m ≤ c.1 ∨ c.1 + c.2.length ≤ off) → (∀ k ∈ left, off + m ≤ k ∨ k + 0x1000 ≤ off) →
    a off m = List.replicate m 0
/-- A lane context keeps the limits of a save area: depths of 16, repeat indices below 64, run records of 1 to 1,024 instructions with 15 captured words (R38, R44, R356, R357). -/
def LaneLimits (l : LaneCtx) : Prop :=
  l.stack.length ≤ Config.maskDepth ∧ (savedQueue l).length ≤ Config.queueDepth ∧ l.rep < 64 ∧ l.park.rep < 64 ∧
  ∀ r ∈ savedQueue l, match r with
    | .run n cap => 1 ≤ n ∧ n ≤ 1024 ∧ cap.length = 15
    | .jump _ => True
/-- A group keeps the limits of its save area (R51, R57, R58, R62, R63, R344, R356, R357); its order of report names no engine by number. -/
def GroupLimits (x : Group) (d : Desc) : Prop :=
  LaneLimits x.lane ∧ (∀ f, x.handler = some f → LaneLimits f.lane ∧ f.s56.length = 8 ∧ f.v0.length = 4) ∧
  (∀ e ∈ x.r.v, e.1 < d.v ∧ e.2.length = 128) ∧ (∀ n < 8, (mreg x n).length = 128) ∧
  (∀ n < d.q, (qreg x n).length = 128 ∧ ∀ i < 128, ((qreg x n).getD i LA.zero).d.length = 10 ∧ ((qreg x n).getD i LA.zero).c.length = 10) ∧
  (∀ r < 16, tdSpace (treg x r) = 1 → tdBase (treg x r) < d.t) ∧ (∀ k < 16, kcount x k < 2 ^ 16) ∧
  x.cnt.loads < 2 ^ 16 ∧ x.cnt.stores < 2 ^ 16 ∧ x.cnt.copies < 2 ^ 16 ∧ x.cnt.tiles < 2 ^ 16 ∧
  x.pend.order.length ≤ 40 ∧ (∀ c ∈ x.pend.order, c < 0x22) ∧
  (∀ r, x.pend.stream = some r ∨ x.pend.tile = some r → recordOk (recOfBytes (recBytes r)) = true) ∧
  ∀ e ∈ heldRecords x, e.1 < 128 ∧ recordOk (recOfBytes (recBytes e.2)) = true

/-- Between two states nothing has changed outside one group. -/
def OnlyGroup (s t : State) (g : Nat) : Prop :=
  t = { s with work := { s.work with groups := t.work.groups } } ∧ ∀ h, h ≠ g → group t h = group s h
/-- What a scalar instruction with one destination leaves alone: every other scalar register, the lane, predicate, long-accumulator and tile registers, the lane stream, counters, level, trap frame, pending records and trace state; every other group; every byte of memory, every partition register and all the rest of the machine. -/
def ScalarFrame (s t : State) (g : Nat) (d : SReg) : Prop :=
  OnlyGroup s t g ∧ (∀ a, mbyte t.mem a = mbyte s.mem a) ∧ (∀ r, r ≠ d.toNat → sregOf (group t g) r = sregOf (group s g) r) ∧
  (group t g).r.v = (group s g).r.v ∧ (group t g).r.m = (group s g).r.m ∧ (group t g).r.q = (group s g).r.q ∧
  (group t g).r.t = (group s g).r.t ∧ (group t g).lane = (group s g).lane ∧ (group t g).cnt = (group s g).cnt ∧
  (group t g).level = (group s g).level ∧ (group t g).handler = (group s g).handler ∧ (group t g).pend = (group s g).pend ∧
  (group t g).trace = (group s g).trace
/-- What a lane instruction with destination registers leaves alone: every scalar and tile register, the other lane registers, predicates and long accumulators, the mask, its stack and the parked lanes, counters, level, trap frame, pending records; every other group; every byte of memory and all the rest of the machine. -/
def LaneFrame (s t : State) (g : Nat) (v m q : List Nat) : Prop :=
  OnlyGroup s t g ∧ (∀ a, mbyte t.mem a = mbyte s.mem a) ∧ (group t g).r.s = (group s g).r.s ∧ (group t g).r.t = (group s g).r.t ∧
  (∀ r, r ∉ v → vreg (group t g) r = vreg (group s g) r) ∧ (∀ r, r ∉ m → mreg (group t g) r = mreg (group s g) r) ∧
  (∀ r, r ∉ q → qreg (group t g) r = qreg (group s g) r) ∧ (group t g).spc = (group s g).spc ∧
  (group t g).lane.mask = (group s g).lane.mask ∧ (group t g).lane.stack = (group s g).lane.stack ∧
  (group t g).lane.park = (group s g).lane.park ∧ (group t g).cnt = (group s g).cnt ∧ (group t g).level = (group s g).level ∧
  (group t g).handler = (group s g).handler ∧ (group t g).pend = (group s g).pend ∧ (group t g).trace = (group s g).trace
/-- What a lane instruction with a lane-written scalar as its destination leaves alone (R39): every other scalar register, the lane, predicate, long-accumulator and tile registers, and the rest as `LaneFrame` has it. -/
def LaneScalarFrame (s t : State) (g : Nat) (d : LDst) : Prop :=
  OnlyGroup s t g ∧ (∀ a, mbyte t.mem a = mbyte s.mem a) ∧ (∀ r, r ≠ 40 + d.toNat → sregOf (group t g) r = sregOf (group s g) r) ∧
  (group t g).r.v = (group s g).r.v ∧ (group t g).r.m = (group s g).r.m ∧ (group t g).r.q = (group s g).r.q ∧
  (group t g).r.t = (group s g).r.t ∧ (group t g).spc = (group s g).spc ∧
  (group t g).lane.mask = (group s g).lane.mask ∧ (group t g).lane.stack = (group s g).lane.stack ∧
  (group t g).lane.park = (group s g).lane.park ∧ (group t g).cnt = (group s g).cnt ∧ (group t g).level = (group s g).level ∧
  (group t g).handler = (group s g).handler ∧ (group t g).pend = (group s g).pend ∧ (group t g).trace = (group s g).trace

end Sys2Proof.Machine
end

