-- ==== Sys2Proof/Certificates/Slice0/Obligations.lean ====
section
/-! DEFINITION. The statements about the model, family by family, from the numbered rules of the spec. -/

open Sys2Proof Sys2Proof.Machine

/-- R176, R177: An instruction of two scalar sources writes its function of them to sd, s0 discarding it, and goes on to the next word. Quotients towards zero; a zero divisor gives all ones and the dividend; the most negative number over -1 gives itself and remainder 0. -/
def Obligations.ScalarTwoSourceResults : Prop :=
  (∀ (s : State) (g : Nat) (d a b : SReg), Runs s g →
    let x := sreg s g a
    let y := sreg s g b
    ∀ p ∈ [(Instr.sadd d a b, x + y), (.ssub d a b, x - y), (.sseq d a b, if x = y then 1 else 0), (.ssne d a b, if x = y then 0 else 1),
        (.sslt d a b, if x.toInt < y.toInt then 1 else 0), (.ssltu d a b, if x.toNat < y.toNat then 1 else 0),
        (.smin d a b, if x.toInt ≤ y.toInt then x else y), (.sminu d a b, if x.toNat ≤ y.toNat then x else y),
        (.smax d a b, if x.toInt < y.toInt then y else x), (.smaxu d a b, if x.toNat < y.toNat then y else x),
        (.sand d a b, x &&& y), (.sor d a b, x ||| y), (.sxor d a b, x ^^^ y), (.sandn d a b, x &&& ~~~y),
        (.sshl d a b, x <<< (y.toNat % 64)), (.sshr d a b, x >>> (y.toNat % 64)), (.ssra d a b, x.sshiftRight (y.toNat % 64)),
        (.srol d a b, x.rotateLeft (y.toNat % 64)), (.sror d a b, x.rotateRight (y.toNat % 64)), (.smul d a b, x * y),
        (.smulh d a b, BitVec.ofInt 64 (x.toInt * y.toInt / 2 ^ 64)), (.smulhu d a b, BitVec.ofNat 64 (x.toNat * y.toNat / 2 ^ 64))],
      exec p.1 s = .next (scalarDone s g d p.2)) ∧
  (∀ (s : State) (g : Nat) (d a b : SReg), Runs s g →
    let x := sreg s g a
    let y := sreg s g b
    exec (.sdiv d a b) s = .next (scalarDone s g d (if y = 0 then BitVec.allOnes 64 else x.sdiv y)) ∧
    exec (.sdivu d a b) s = .next (scalarDone s g d (if y = 0 then BitVec.allOnes 64 else x / y)) ∧
    exec (.srem d a b) s = .next (scalarDone s g d (if y = 0 then x else x.srem y)) ∧
    exec (.sremu d a b) s = .next (scalarDone s g d (if y = 0 then x else x % y)))

/-- R176, R178, R179: Counts, byte reversal and extensions of one scalar source. The immediate forms, with the immediate sign-extended, a shift amount taken as it stands, and the two forms that build a constant. -/
def Obligations.ScalarOneSourceResults : Prop :=
  (∀ (s : State) (g : Nat) (d a : SReg), Runs s g →
    let x := sreg s g a
    (∃ n, exec (.sclz d a) s = .next (scalarDone s g d (BitVec.ofNat 64 n)) ∧ n ≤ 64 ∧ x.toNat < 2 ^ (64 - n) ∧ (n < 64 → 2 ^ (63 - n) ≤ x.toNat)) ∧
    (∃ n, exec (.sctz d a) s = .next (scalarDone s g d (BitVec.ofNat 64 n)) ∧ n ≤ 64 ∧ (∀ i, i < n → x.getLsbD i = false) ∧ (n < 64 → x.getLsbD n = true)) ∧
    exec (.spopc d a) s = .next (scalarDone s g d (BitVec.ofNat 64 ((List.range 64).countP fun i => x.getLsbD i))) ∧
    (∃ v : Word, exec (.sbswap d a) s = .next (scalarDone s g d v) ∧
      ∀ k, k < 8 → v.extractLsb' (8 * k) 8 = x.extractLsb' (8 * (7 - k)) 8) ∧
    ∀ p ∈ [(Instr.ssx8 d a, (x.setWidth 8).signExtend 64), (.ssx16 d a, (x.setWidth 16).signExtend 64),
        (.ssx32 d a, (x.setWidth 32).signExtend 64), (.szx32 d a, (x.setWidth 32).zeroExtend 64)],
      exec p.1 s = .next (scalarDone s g d p.2)) ∧
  (∀ (s : State) (g : Nat) (d a : SReg) (i : BitVec 14) (n : BitVec 6) (u : BitVec 20), Runs s g →
    let x := sreg s g a
    let k : Word := i.signExtend 64
    ∀ p ∈ [(Instr.saddi d a i, x + k), (.sandi d a i, x &&& k), (.sori d a i, x ||| k), (.sxori d a i, x ^^^ k),
        (.sslti d a i, if x.toInt < i.toInt then 1 else 0), (.sshli d a n, x <<< n.toNat), (.sshri d a n, x >>> n.toNat),
        (.ssrai d a n, x.sshiftRight n.toNat), (.srori d a n, x.rotateRight n.toNat),
        (.slui d u, ((u ++ (0 : BitVec 12)) : BitVec 32).signExtend 64), (.sshlo d u, sreg s g d <<< 20 ||| u.zeroExtend 64)],
      exec p.1 s = .next (scalarDone s g d p.2))

/-- The frame of the instructions that only write one scalar register (R176 to R179): every other register, every byte of memory and everything else stays, and a write of s0 is discarded (R50). -/
def Obligations.ScalarRegisterFrame : Prop :=
  ∀ (s t : State) (g : Nat) (d a b : SReg) (i : BitVec 14) (n : BitVec 6) (u : BitVec 20), Runs s g →
    ∀ p ∈ [Instr.sadd d a b, .ssub d a b, .sseq d a b, .ssne d a b, .sslt d a b, .ssltu d a b, .smin d a b, .sminu d a b, .smax d a b,
        .smaxu d a b, .sand d a b, .sor d a b, .sxor d a b, .sandn d a b, .sshl d a b, .sshr d a b, .ssra d a b, .srol d a b, .sror d a b,
        .smul d a b, .smulh d a b, .smulhu d a b, .sdiv d a b, .sdivu d a b, .srem d a b, .sremu d a b, .sclz d a, .sctz d a, .spopc d a,
        .sbswap d a, .ssx8 d a, .ssx16 d a, .ssx32 d a, .szx32 d a, .saddi d a i, .sandi d a i, .sori d a i, .sxori d a i, .sslti d a i,
        .sshli d a n, .sshri d a n, .ssrai d a n, .srori d a n, .slui d u, .sshlo d u],
      exec p s = .next t → ScalarFrame s t g d ∧ (d = 0 → sregOf (group t g) 0 = sregOf (group s g) 0)

/-- R149, R186, R187, R396 to R399: Branches, calls and returns; offsets count words from the branch itself. Where the group's trace bit is 1, `sbr` adds a bit to the pending map, stamped now, and its 32nd bit writes the map record; an indirect jump, call or return writes the pending map bits first, stamped at the last branch, and then an indirect record with the word distance, stamped at its retirement. -/
def Obligations.ScalarBranches : Prop :=
  (∀ (s : State) (g : Nat) (a : SReg) (c : BitVec 4) (o : BitVec 16) (j : BitVec 26), Quiet s g →
    let pc := (group s g).spc
    let v := sreg s g a
    let link := setSregOf (group s g) 63 (pc + 4)
    let taken := match c.toNat with
      | 0 => v.toNat == 0 | 1 => v.toNat != 0 | 2 => decide (v.toInt < 0) | 3 => decide (0 ≤ v.toInt) | 4 => decide (0 < v.toInt)
      | 5 => decide (v.toInt ≤ 0) | 6 => v.getLsbD 0 | 7 => !v.getLsbD 0 | 8 => v.getLsbD 1 | _ => !v.getLsbD 1
    exec (.sbr a c o) s = .next (retired s g (group s g) (if taken then pc + o.signExtend 64 * 4 else pc + 4)) ∧
    exec (.sjmp j) s = .next (retired s g (group s g) (pc + j.signExtend 64 * 4)) ∧
    exec (.scall j) s = .next (retired s g link (pc + j.signExtend 64 * 4)) ∧
    exec (.sjr a) s = .next (retired s g (group s g) v) ∧
    exec (.scallr a) s = .next (retired s g link v) ∧
    exec .sret s = .next (retired s g (group s g) (sreg s g 63))) ∧
  (∀ (s : State) (g : Nat) (a : SReg) (c : BitVec 4) (o : BitVec 16), Runs s g → (group s g).trace.bit = true → (group s g).trace.since ≤ now s →
    let x := group s g
    let v := sreg s g a
    let taken := condHolds c v
    let target := if taken then x.spc + o.signExtend 64 * 4 else x.spc + 4
    let map := x.trace.map ++ [taken]
    let marked := { x with trace := { x.trace with map := map, mapTime := now s } }
    let full := groupPut (setGroup s g { x with spc := target, trace := { x.trace with map := [], mapTime := now s, branches := x.trace.branches + 1 } })
      g (now s) 2 0 (32 :: packBits 4 map) true
    let ahead := fun (y : Group) => if x.trace.map = [] then setGroup s g y
      else groupPut (setGroup s g { y with trace := { x.trace with map := [], branches := x.trace.branches + 1 } }) g x.trace.mapTime 2 0
        (BitVec.ofNat 8 x.trace.map.length :: packBits 4 x.trace.map) true
    let jumped := fun (y : Group) (to_ : Word) =>
      let u := setGroup (ahead y) g { group (ahead y) g with spc := to_ }
      let w := groupPut u g (now u) 2 1 (zigzag ((to_ - x.spc).toInt / 4)) true
      retired w g { group w g with trace := { (group w g).trace with branches := (group w g).trace.branches + 1 } } to_
    let link := setSregOf x 63 (x.spc + 4)
    (map.length < 32 → exec (.sbr a c o) s = .next (retired s g marked target)) ∧
    (map.length = 32 → x.trace.branches < 255 → exec (.sbr a c o) s = .next (retired full g (group full g) target)) ∧
    (x.trace.branches < 254 →
      exec (.sjr a) s = .next (jumped x v) ∧ exec (.scallr a) s = .next (jumped link v) ∧ exec .sret s = .next (jumped x (sreg s g 63))))

/-- R180 to R182, R106, R181: A scalar load leaves its bytes, extended under its kind, in sd: the immediate, indexed and acquire forms, in the scratchpad and in virtual memory. In a machine that performs its accesses one after the other the acquire form acts as the plain one (log 1). `sld.ro` leaves the bytes that memory holds at its issue, partial sums merged, and the core holds their lines; that it never returns older bytes is the model's choice (log 9). -/
def Obligations.ScalarLoads : Prop :=
  (∀ (s : State) (g : Nat) (d a b : SReg) (k : BitVec 3) (o : BitVec 10) (c : Scope), Runs s g → k ≠ 7 → scopeBad s g c = false →
    let n := 2 ^ (k.toNat % 4)
    ∀ p ∈ [(fun sp => Instr.sld d a k sp o, sreg s g a + o.signExtend 64 * BitVec.ofNat 64 n), (fun sp => .sldX d a b k sp, sreg s g a + sreg s g b),
        (fun sp => .sldAcq d a k sp c, sreg s g a)],
      (ScratchReady s g p.2 n → exec (p.1 true) s = .next (scalarDone s g d (loaded k (scratchRead (ownTeam s g) p.2.toNat n)))) ∧
      ∀ e, MemReady s g 1 p.2 n e → exec (p.1 false) s = .next (scalarDone s g d (loaded k (mread s.mem (leafFlat e.leaf e.level p.2) n)))) ∧
  (∀ (s : State) (g : Nat) (d a b : SReg) (k : BitVec 3) (e : TlbEntry), Runs s g → k ≠ 7 →
    let va := sreg s g a + sreg s g b
    MemReady s g 1 va (2 ^ (k.toNat % 4)) e →
    ∃ t, exec (.sldRo d a b k) s = .next t ∧
      t = scalarDone (noteRo s g va (2 ^ (k.toNat % 4))) g d (loaded k (mread (mergedMem s) (leafFlat e.leaf e.level va) (2 ^ (k.toNat % 4)))) ∧
      (s.parts = [] → mergedMem s = s.mem) ∧
      (hostWindow va = false → (core t (coreOf s g)).ro.contains (launchOf s g, va.toNat / 128) = true))

/-- R180 to R182, R183, R184: A scalar store writes the low bytes of sd at its address and nothing else: the immediate, indexed and release forms, in the scratchpad and in virtual memory. The release form needs a legal scope and an issued lane stream, and then acts as the plain one (log 1). The frame of a scalar store to virtual memory (R182): every byte outside the run at the address that its TLB entry gives reads as before, and no register but SPC changes. A scalar atomic leaves the old value in sd and the operation's result at its address, as one step: ten operations on 4 or 8 bytes, in the scratchpad and in virtual memory, with or without an ordering, which asks for a legal scope and, for a release, an issued lane stream (log 1). -/
def Obligations.ScalarStores : Prop :=
  (∀ (s : State) (g : Nat) (d a b : SReg) (k : BitVec 2) (o : BitVec 10) (c : Scope), Runs s g →
    let n := 2 ^ k.toNat
    let bs := leBytes n (sreg s g d).toNat
    ∀ p ∈ [(fun sp => Instr.sst d a k sp o, sreg s g a + o.signExtend 64 * BitVec.ofNat 64 n, True),
        (fun sp => .sstX d a b k sp, sreg s g a + sreg s g b, True),
        (fun sp => .sstRel d a k sp c, sreg s g a, scopeBad s g c = false ∧ laneIssued (group s g) = true)], p.2.2 →
      let addr := p.2.1
      (ScratchReady s g addr n → Untagged (ownTeam s g) addr.toNat n →
        exec (p.1 true) s = .next (plainDone (setTeam s (group s g).team (scratchPut (ownTeam s g) addr.toNat bs)) g)) ∧
      ∀ e, MemReady s g 2 addr n e →
        exec (p.1 false) s = .next (plainDone { s with mem := mwrite s.mem (leafFlat e.leaf e.level addr) bs } g)) ∧
  (∀ (s t : State) (g : Nat) (d a b : SReg) (k : BitVec 2) (o : BitVec 10) (e : TlbEntry), Runs s g →
    let n := 2 ^ k.toNat
    ∀ p ∈ [(Instr.sst d a k false o, offsetAddr (sreg s g a) o n), (.sstX d a b k false, sreg s g a + sreg s g b)],
      MemReady s g 2 p.2 n e → exec p.1 s = .next t →
      (∀ x, x < leafFlat e.leaf e.level p.2 ∨ leafFlat e.leaf e.level p.2 + n ≤ x → mbyte t.mem x = mbyte s.mem x) ∧
      (∀ r, sregOf (group t g) r = sregOf (group s g) r) ∧ (group t g).r.v = (group s g).r.v ∧ (group t g).r.m = (group s g).r.m ∧
      (group t g).r.q = (group s g).r.q ∧ (group t g).r.t = (group s g).r.t ∧ (group t g).lane = (group s g).lane ∧
      (group t g).cnt = (group s g).cnt ∧ (∀ h, h ≠ g → group t h = group s h) ∧ t.regs = s.regs ∧ t.dies = s.dies) ∧
  (∀ (s : State) (g : Nat) (x : SAmo), Runs s g → ((x.acq || x.rel) = true → scopeBad s g x.scope = false) →
    (x.rel = true → laneIssued (group s g) = true) →
    let n := if x.wide then 8 else 4
    let a := sreg s g x.a
    let u := (sreg s g x.d).toNat % 2 ^ (8 * n)
    let v := (sreg s g (x.d + 1)).toNat % 2 ^ (8 * n)
    ∀ p ∈ [(Instr.samoSwap x, false, fun _ => some u), (.samoAdd x, false, fun old => some ((old + u) % 2 ^ (8 * n))),
        (.samoAnd x, false, fun old => some (old &&& u)), (.samoOr x, false, fun old => some (old ||| u)),
        (.samoXor x, false, fun old => some (old ^^^ u)), (.samoMinN x, false, fun old => some (min old u)),
        (.samoMaxN x, false, fun old => some (max old u)), (.samoCas x, false, fun old => if old = u then some v else none),
        (.samoMinI x, true, fun old => some (if sext (8 * n) u < sext (8 * n) old then u else old)),
        (.samoMaxI x, true, fun old => some (if sext (8 * n) old < sext (8 * n) u then u else old))],
      let out := fun old => if p.2.1 && !x.wide then BitVec.ofInt 64 (sext 32 old) else BitVec.ofNat 64 old
      (ScratchReady s g a n → Untagged (ownTeam s g) a.toNat n → x.sp = true →
        let old := ofLe (scratchRead (ownTeam s g) a.toNat n)
        exec p.1 s = .next (scalarDone (match p.2.2 old with
          | some r => setTeam s (group s g).team (scratchPut (ownTeam s g) a.toNat (leBytes n r))
          | none => s) g x.d (out old))) ∧
      ∀ e, MemReady s g 3 a n e → a.toNat % n = 0 → x.sp = false →
        let flat := leafFlat e.leaf e.level a
        let old := ofLe (mread s.mem flat n)
        exec p.1 s = .next (scalarDone (match p.2.2 old with
          | some r => { s with mem := mwrite s.mem flat (leBytes n r) }
          | none => s) g x.d (out old)))

/-- R36, R37, R189, R190, R40, R130, R185, R187: A release appends its record to a queue with room, a run with the values of s1 to s15 at that moment, and retires; a count of 0 releases nothing. A fence, `lsync`, and the reads of the mask and of its summary retire once every lane instruction released before them has issued. That they may retire with accesses still outstanding rests on the order of accesses of log 1. `sexit` of a group whose lane stream is idle and whose counters all read zero ends the group: no such group is left, and its team lists it no more; else it waits. -/
def Obligations.StreamControl : Prop :=
  (∀ (s : State) (g : Nat) (n : BitVec 10) (o : BitVec 25) (a : SReg), Quiet s g → (group s g).lane.rq.length < Config.queueDepth →
    (group s g).lane.park.fmask = 0 →
    let cap := (List.range 15).map fun i => sregOf (group s g) (i + 1)
    let after := fun r => retired s g { group s g with lane := { (group s g).lane with rq := (group s g).lane.rq ++ [r] } } ((group s g).spc + 4)
    exec (.lrun n) s = .next (after (.run (n.toNat + 1) cap)) ∧
    exec (.ljmp o) s = .next (after (.jump ((group s g).lane.base + o.zeroExtend 64 * 4))) ∧
    exec (.ljmpr a) s = .next (after (.jump (sreg s g a))) ∧
    ((sreg s g a).toNat = 0 → exec (.lrunr a) s = .next (plainDone s g)) ∧
    (0 < (sreg s g a).toNat → (sreg s g a).toNat ≤ 1024 → exec (.lrunr a) s = .next (after (.run (sreg s g a).toNat cap)))) ∧
  (∀ (s : State) (g : Nat) (d : SReg) (w : BitVec 2) (c : Scope), Runs s g → laneIssued (group s g) = true → scopeBad s g c = false →
    let m := (group s g).lane.mask
    let word := fun k => m.extractLsb' (32 * k) 32
    (∀ i ∈ [Instr.sfence c, .sfenceAcq c, .sfenceRel c, .lsync], exec i s = .next (plainDone s g)) ∧
    exec (.lmask d w) s = .next (scalarDone s g d ((word w.toNat).zeroExtend 64)) ∧
    exec (.lsumm d) s = .next (scalarDone s g d (BitVec.ofNat 64
      (((List.range 4).map fun k => if word k = 0 then 0 else 2 ^ k).sum)))) ∧
  (∀ (s : State) (g : Nat), s.cur = .group g → (group s g).handler = none →
    let x := group s g
    (laneIdle x = true → countersZero x = true → ∃ t, exec .sexit s = .next t ∧ group t g = Group.blank ∧ g ∉ (team t x.team).groups) ∧
    ((laneIdle x && countersZero x) = false → exec .sexit s = .next (waitsAgain (setGroup s g (endRunOn x)) g .sexit)))

/-- R64, R191, R192, R199: `sget` writes the value of a status register; the counters are read once every lane instruction released before has issued. A counter wait whose counter is at or below the threshold writes the count and retires; above it, it stays and waits. The tile-register instructions write the whole register, its base field or its shape field, once no released lane instruction is left, and read its halves. That they wait for the whole lane stream is the model's choice (log 6). -/
def Obligations.StatusCountersTiles : Prop :=
  (∀ (s : State) (g : Nat) (d : SReg), Runs s g → laneIssued (group s g) = true →
    let x := group s g
    (∀ p ∈ [((0x003 : BitVec 12), x.no), (0x004, (ownTeam s g).no), (0x001, (descOf s g).levels.length), (0x002, (descOf s g).h),
        (0x007, x.no % 4), (0x041, (ownTeam s g).pdead), (0x043, partOf s g), (0x050, x.cnt.loads), (0x051, x.cnt.stores),
        (0x052, x.cnt.copies), (0x053, x.cnt.tiles), (0x064, x.lane.stack.length)],
      exec (.sget d p.1) s = .next (scalarDone s g d (BitVec.ofNat 64 p.2))) ∧
    ∀ (n : BitVec 12) (v : Nat), statusReg s g n.toNat = some v → exec (.sget d n) s = .next (scalarDone s g d (BitVec.ofNat 64 v))) ∧
  (∀ (s : State) (g : Nat) (d a : SReg) (k : KReg), Runs s g → laneIssued (group s g) = true →
    let c := (group s g).cnt
    ∀ p ∈ [(Instr.kwait d a k, (tget [] c.k k.toNat).length), (.waitLd d a, c.loads), (.waitSt d a, c.stores), (.waitCp d a, c.copies),
        (.waitTl d a, c.tiles)],
      (p.2 ≤ (sreg s g a).toNat → exec p.1 s = .next (scalarDone s g d (BitVec.ofNat 64 p.2))) ∧
      ((sreg s g a).toNat < p.2 → exec p.1 s = .next (waitsAgain s g p.1))) ∧
  (∀ (s : State) (g : Nat) (t : TReg) (d a b : SReg), Runs s g → laneIdle (group s g) = true → (group s g).handler = none →
    let x := group s g
    let old := treg x t.toNat
    let v := sreg s g a
    exec (.tset t a b) s = .next (retired s g (setTreg x t.toNat (sreg s g b ++ v)) (x.spc + 4)) ∧
    (v.toNat % 16 = 0 → v.toNat < 2 ^ 62 → ∃ y, exec (.tsetb t a) s = .next (retired s g y (x.spc + 4)) ∧
      treg y t.toNat = (old.extractLsb' 58 70 ++ BitVec.ofNat 58 (v.toNat / 16) : BitVec 128) ∧
      ∀ r, r ≠ t.toNat → treg y r = treg x r) ∧
    (v.toNat < 2 ^ 32 → ∃ y, exec (.tsets t a) s = .next (retired s g y (x.spc + 4)) ∧
      treg y t.toNat = (v.setWidth 32 ++ old.setWidth 96 : BitVec 128) ∧ ∀ r, r ≠ t.toNat → treg y r = treg x r) ∧
    exec (.tgetl d t) s = .next (scalarDone s g d (old.setWidth 64)) ∧
    exec (.tgeth d t) s = .next (scalarDone s g d ((old >>> 64).setWidth 64)))

/-- R115, R116, R194 to R196, R198, R113, R196, R197: Barrier objects. `bar.init` tags and fills an object, `bar.free` removes one that nothing waits for, or a booth header, whose parked requests then find their booth gone; an arrival counts down, and completes the phase when no arrival and no byte is left; a wait ends once the phase has changed; a `yieldc` then goes on at its continuation. Where no rank of the team waits with a fault for the end of a phase (R288), these change nothing else. The barrier-clobber fault: `bar.init` over a tagged byte, `bar.free` of what is no object or is still in use, an arrival or a wait on what is no object, an arrival below zero. Nothing else changes. An arrival at a node barrier writes the phase to sd and joins the arrived set; with every party there or ended the phase rises by one and the set empties. A wait ends once the phase differs. -/
def Obligations.Barriers : Prop :=
  (∀ (s : State) (g : Nat) (d a b : SReg) (k : BitVec 14) (t off : Nat), Runs s g →
    let x := group s g
    let h := sreg s g a
    let w := sreg s g b
    let y := team s t
    let o := readBar y off
    let phase := bits h 63 48
    clusterAddr s x.team (bits h 31 0) = .at t off → bits h 47 36 = 0 → bits h 3 0 = 0 →
    (h.getLsbD 31 = false → x.lane.park.fmask = 0 →
      (bits w 63 32 = 0 → w ≠ 0 → tagAt y off = 0 →
        exec (.barInit a b) s = .next (tellLate (plainDone (setTeam s t { writeBar y off ⟨w.toNat, w.toNat, 0, 0⟩ with tags := tput 0 y.tags (off / 16) 1 }) g) t)) ∧
      (isBooth y off = true →
        let freed := { y with tags := tput 0 (tput 0 y.tags (off / 16) 0) (off / 16 + 1) 0, parked := y.parked.filter fun e => e.1 != off }
        ((∀ e ∈ y.parked, e.1 ≠ off) → exec (.barFree a) s = .next (plainDone (setTeam s t freed) g)) ∧
        ∃ z, exec (.barFree a) s = .next z ∧ team z t = freed ∧ (group z g).spc = x.spc + 4 ∧
          ∀ k, k ≠ g → group z k = if (y.parked.any fun e => e == (off, k)) then
            { group s k with fly := { (group s k).fly with booth := (group s k).fly.booth.map fun o => { o with gone := true } } }
            else group s k) ∧
      (isBooth y off = false → isBarrier y off = true → parkedOn s t off = false → o.bytes = 0 → engineNames s t off = false →
        exec (.barFree a) s = .next (tellLate (plainDone (setTeam s t { y with tags := tput 0 y.tags (off / 16) 0 }) g) t))) ∧
    (scopeBad s g (BitVec.ofNat 4 (bits h 35 32)) = false → isBarrier y off = true →
      (laneIssued x = true →
        let n := if bits w 63 48 = 0 then 1 else bits w 63 48
        let bytes := (o.bytes + bits w 47 0) % 2 ^ 48
        n ≤ o.arrive → exec (.barArrive d a b) s = .next (tellLate (scalarDone (setTeam s t (writeBar y off
          (if o.arrive = n ∧ bytes = 0 then ⟨o.reset, o.reset, 0, (o.phase + 1) % 2 ^ 16⟩ else ⟨o.arrive - n, o.reset, bytes, o.phase⟩)))
          g d (h &&& 0x0000FFFFFFFFFFFF ||| BitVec.ofNat 64 (o.phase * 2 ^ 48))) t)) ∧
      (x.lane.park.fmask = 0 → o.phase ≠ phase → exec (.barWait a) s = .next (plainDone s g)) ∧
      (x.lane.park.fmask = 0 → o.phase = phase → exec (.barWait a) s = .next (waitsAgain s g (.barWait a))) ∧
      (laneIssued x = true → o.phase ≠ phase → exec (.yieldc a b k) s = .next (retired s g
        (if b = 0 then x else { x with lane := { x.lane with lpc := w, rep := 0 } }) (x.spc + k.signExtend 64 * 4))) ∧
      (laneIssued x = true → o.phase = phase → exec (.yieldc a b k) s = .next (setGroup s g
        { x with fly := { x.fly with waiting := some (.yieldc a b k), yielded := true } }))) ∧
    ((∀ e ∈ s.work.colls, ∀ c, e.2 = some c → ∀ r ∈ c.ranks, ∀ q, r.2 = some q → q.team = t → q.late = false) →
      ∀ z, z.work.colls = s.work.colls → tellLate z t = z)) ∧
  (∀ (s : State) (g : Nat) (d a b : SReg) (t off : Nat), Runs s g → Faultable s g →
    let h := sreg s g a
    let w := sreg s g b
    let y := team s t
    let fault := fun c => pendingDone s g (scalarRec 9 c true false (h &&& 0xFFFFFFFF))
    clusterAddr s (group s g).team (bits h 31 0) = .at t off → bits h 47 36 = 0 → bits h 3 0 = 0 → (group s g).lane.park.fmask = 0 →
    (h.getLsbD 31 = false → bits w 63 32 = 0 → w ≠ 0 → tagAt y off ≠ 0 → exec (.barInit a b) s = .next (fault 1)) ∧
    (h.getLsbD 31 = false → isBooth y off = false →
      (isBarrier y off = false ∨ parkedOn s t off = true ∨ (readBar y off).bytes ≠ 0 ∨ engineNames s t off = true) →
      exec (.barFree a) s = .next (fault 2)) ∧
    (scopeBad s g (BitVec.ofNat 4 (bits h 35 32)) = false →
      (isBarrier y off = false → exec (.barWait a) s = .next (fault 3)) ∧
      (laneIssued (group s g) = true → (isBarrier y off = false ∨ (readBar y off).arrive < max 1 (bits w 63 48)) →
        exec (.barArrive d a b) s = .next (fault 3)))) ∧
  (∀ (s : State) (g : Nat) (d a : SReg) (c : Scope), Runs s g → c ≠ 15 → scopeBad s g c = false → scopeAboveH s g c = false →
    let x := group s g
    let l := launchOf s g
    let node := (nodeAt s g c).1
    let me := (nodeAt s g c).2
    let b := tget barBlank (launch s l).bars (barKey c.toNat node)
    let full := (parties (descOf s g) c.toNat node).all fun p => (b.arrived ++ [me]).contains p || groupEnded s l p.1 p.2
    (laneIssued x = true → b.arrived.contains me = false → exec (.sbarArrive d c) s = .next (scalarDone (setLaunch s l
      { launch s l with
        bars := tput barBlank (launch s l).bars (barKey c.toNat node) (if full then ⟨b.phase + 1, []⟩ else ⟨b.phase, b.arrived ++ [me]⟩) }) g d (b.phase.zeroExtend 64))) ∧
    (laneIssued x = true → b.arrived.contains me = true → exec (.sbarArrive d c) s = .next (waitsAgain s g (.sbarArrive d c))) ∧
    (x.lane.park.fmask = 0 → b.phase ≠ (sreg s g a).setWidth 16 → exec (.sbarWait a c) s = .next (plainDone s g)) ∧
    (x.lane.park.fmask = 0 → b.phase = (sreg s g a).setWidth 16 → exec (.sbarWait a c) s = .next (waitsAgain s g (.sbarWait a c))))

/-- R109, R110, R245 to R248, R101, R111, R245 to R247, R249, R344: The booth instructions of the scalar stream, on a header in the own scratchpad: `bdecl` asks its controller and, with the answer, a header is written and tagged, or a tagged byte is a fault; `bput` and `bputw` hand a request to the owner of any booth of the cluster, `btake` takes the oldest row if it is ready, `bdrop` frees the oldest taken row. That the tagged byte of a `bdecl` is recorded with class 9, cause 0, and that a booth whose declaration is not complete yet gives class 9, cause 2, are log 22's readings. At the owner's controller a request reserves the row at tail if one is free and none is parked before it; with none free a `bputw` parks, and a `bput` or a `vbput` counts a refusal and gets the word FULL; the oldest parked request reserves once a row is free; a filled row becomes ready and its row number and free count are the result, in a scalar register of the stream that asked. A request that meets no booth, or one removed while it was parked, or a row longer than its source, faults and counts nothing. The cause 2 of a booth whose declaration is not complete is log 22's reading. `vbput` hands the row of its source register to the owner's controller, lanes that do not execute supplying zeros; `vbtake` writes the oldest ready row of a booth of its team to the executing lanes, and its row number and offset to the scalar destination; an empty booth writes no lane. -/
def Obligations.Booths : Prop :=
  (∀ (s : State) (g : Nat) (d a b : SReg) (u off : Nat), Runs s g →
    let x := group s g
    let h := sreg s g a
    let w := sreg s g b
    let y := ownTeam s g
    let o := readBooth y h.toNat
    (h.toNat < 2 ^ 21 → h.toNat % 32 = 0 →
      let cap := bits w 12 0
      let rowsz := bits w 31 16
      (bits w 63 32 = 0 → bits w 15 13 = 0 → 0 < cap → cap ≤ 4096 → 16 ≤ rowsz → rowsz ≤ 512 → rowsz % 16 = 0 →
        h.toNat + 32 + cap * rowsz ≤ (descOf s g).s →
        (x.fly.yielded = false → exec (.bdecl a b) s = .next (setGroup s g
          { x with fly := { x.fly with waiting := some (.bdecl a b), yielded := true } })) ∧
        (x.fly.waiting = some (.bdecl a b) → x.fly.yielded = true →
          ((∀ i, i < 32 + cap * rowsz → tagAt y (h.toNat + i) = 0) →
            exec (.bdecl a b) s = .next (plainDone (setTeam s x.team { writeBooth y h.toNat ⟨0, 0, 0, cap, rowsz, 0⟩ with
              tags := tput 0 (tput 0 y.tags (h.toNat / 16) 2) (h.toNat / 16 + 1) 3,
              filling := y.filling.filter fun e => e.1 != h.toNat }) g)) ∧
          ∀ k, 16 * k < 32 + cap * rowsz → tagAt y (h.toNat + 16 * k) ≠ 0 → (∀ j, j < k → tagAt y (h.toNat + 16 * j) = 0) →
            Faultable s g → exec (.bdecl a b) s = .next (pendingDone (setGroup s g
              { x with fly := { x.fly with waiting := none, yielded := false } }) g (scalarRec 9 0 true false (BitVec.ofNat 64 (h.toNat + 16 * k)))))) ∧
      (h.toNat + 32 ≤ (descOf s g).s → isBooth y h.toNat = true →
        ((o.take = o.tail ∨ y.filling.contains (h.toNat, o.take) = true) → exec (.btake d a) s = .next (scalarDone s g d (2 ^ 63))) ∧
        (o.take ≠ o.tail → y.filling.contains (h.toNat, o.take) = false →
          exec (.btake d a) s = .next (scalarDone (setTeam s x.team (writeBooth y h.toNat { o with take := (o.take + 1) % 2 ^ 32 })) g d
            (BitVec.ofNat 64 (o.take * 2 ^ 21 + (h.toNat + 32 + o.take % o.cap * o.rowsz))))) ∧
        (laneIssued x = true → o.head ≠ o.take →
          exec (.bdrop a) s = .next (plainDone (setTeam s x.team (writeBooth y h.toNat { o with head := (o.head + 1) % 2 ^ 32 })) g)))) ∧
    (h.toNat < 2 ^ 32 → clusterAddr s x.team h.toNat = .at u off → h.toNat % 32 = 0 → w.toNat < 2 ^ 21 → w.toNat % 16 = 0 → laneIssued x = true →
      ∀ p ∈ [(Instr.bput d a b, false), (.bputw d a b, true)], exec p.1 s = .next (setGroup s g
        { x with fly := { x.fly with booth := some ⟨u, off, leBytes 8 w.toNat, d.toNat, p.2, false, none, false⟩ } }))) ∧
  (∀ (s : State) (g : Nat) (o : BoothOp), (group s g).fly.booth = some o → (group s g).trace.next = none →
    let x := group s g
    let t := team s o.owner
    let b := readBooth t o.header
    let clear := { x with fly := { x.fly with booth := none } }
    let reserved := setGroup (setTeam s o.owner { writeBooth t o.header { b with tail := (b.tail + 1) % 2 ^ 32 } with
        filling := t.filling ++ [(o.header, b.tail)], parked := t.parked.filter fun e => e.2 != g }) g
      { x with fly := { x.fly with booth := some { o with row := some (b.tail, b.free - 1) } } }
    let answer := fun (s : State) (v : Word) =>
      if o.lane then laneNext s g (setSregOf clear (40 + o.dst) v) 0 else retired s g (setSregOf clear (o.dst % 64) v) (x.spc + 4)
    let faulted := fun (cls cause : Nat) (w : Bool) (a : Nat) =>
      pendingDone (setGroup (setTeam s o.owner { t with parked := t.parked.filter fun e => e.2 != g }) g clear) g
        (boothRec cls cause w o.lane (BitVec.ofNat 64 a))
    let calm := o.lane = true → Unsampled s g ∧ x.lane.park.fmask = 0 ∧ x.lane.park.replaying = false
    (o.row = none → (t.parked.any fun e => e.2 == g) = false → boothRefusal s g o = none →
      (b.free ≠ 0 → (t.parked.any fun e => e.1 == o.header) = false → exec (.boothReservation g) s = .next reserved) ∧
      (b.free ≠ 0 → (t.parked.any fun e => e.1 == o.header) = true → exec (.boothReservation g) s = .next s) ∧
      (b.free = 0 → o.wait = true →
        exec (.boothReservation g) s = .next (setTeam s o.owner { t with parked := t.parked ++ [(o.header, g)] })) ∧
      (b.free = 0 → o.wait = false → calm → exec (.boothReservation g) s = .next (answer
        (setTeam s o.owner (writeBooth t o.header { b with refusals := min (b.refusals + 1) 0xFFFFFFFF })) (2 ^ 63)))) ∧
    (o.row = none → o.wait = true → o.lane = false → t.parked.find? (fun e => e.1 == o.header) = some (o.header, g) →
      boothRefusal s g o = none → b.free ≠ 0 → exec (.bputwReserve g) s = .next reserved) ∧
    (Faultable s g → o.row = none →
      ((t.parked.any fun e => e.2 == g) = false → o.gone = false →
        (t.live = false → exec (.boothReservation g) s = .next (faulted 7 0 true o.header)) ∧
        (t.live = true → isBooth t o.header = false →
          exec (.boothReservation g) s = .next (faulted 10 (if declaring s o.owner o.header then 2 else 0) true o.header)) ∧
        (t.live = true → isBooth t o.header = true → o.lane = true → 4 * Config.gwidth < b.rowsz →
          exec (.boothReservation g) s = .next (faulted 10 3 true o.header)) ∧
        (t.live = true → isBooth t o.header = true → o.lane = false → (descOf s g).s < ofLe o.source + b.rowsz →
          exec (.boothReservation g) s = .next (faulted 7 0 false (max (ofLe o.source) (descOf s g).s)))) ∧
      (t.live = true → o.gone = true → o.wait = true → o.lane = false → exec (.bputwReserve g) s = .next (faulted 10 1 true o.header))) ∧
    ∀ n free, o.row = some (n, free) → calm →
      let row := if o.lane then o.source.take b.rowsz else scratchRead (ownTeam s g) (ofLe o.source) b.rowsz
      exec (.boothFillComplete g) s = .next (answer (setTeam s o.owner
        { (scratchWrite t (o.header + 32 + n % b.cap * b.rowsz) row).1 with filling := t.filling.filter (· != (o.header, n)) })
        (BitVec.ofNat 64 (free * 2 ^ 32 + n)))) ∧
  (∀ (s : State) (g : Nat) (x : VBoothArgs) (u off : Nat), LaneRuns s g → Unsampled s g → Below s g [x.r.toNat] [] →
    let y := group s g
    let h := captured y x.base
    let ex := execLanes y x.pred x.neg
    let t := ownTeam s g
    let b := readBooth t h.toNat
    (h.toNat < 2 ^ 32 → clusterAddr s y.team h.toNat = .at u off → h.toNat % 32 = 0 → y.fly.booth = none →
      exec (.vbput x) s = .next (setGroup s g { y with fly := { y.fly with booth := some ⟨u, off,
        ((vreg y x.r.toNat).zipIdx.flatMap fun e => leBytes 4 (if (bitsMask ex).getLsbD e.2 then e.1.toNat else 0)), x.d.toNat, false, true, none, false⟩ } })) ∧
    (h.toNat < 2 ^ 21 → h.toNat % 32 = 0 → h.toNat + 32 ≤ (descOf s g).s → isBooth t h.toNat = true → b.rowsz ≤ 4 * Config.gwidth →
      t.poison = [] →
      ((b.take = b.tail ∨ t.filling.contains (h.toNat, b.take) = true) →
        exec (.vbtake x) s = .next (laneNext s g (setSregOf y (40 + x.d.toNat) (2 ^ 63)) 0)) ∧
      (b.take ≠ b.tail → t.filling.contains (h.toNat, b.take) = false →
        let first := h.toNat + 32 + b.take % b.cap * b.rowsz
        let row := scratchRead t first b.rowsz
        exec (.vbtake x) s = .next (laneNext (setTeam s y.team (writeBooth t h.toNat { b with take := (b.take + 1) % 2 ^ 32 })) g
          (setSregOf (putLanes y x.r.toNat (maskBits (maskOf fun i => (bitsMask ex).getLsbD i && decide (i < b.rowsz / 4)))
            ((List.range 128).map fun i => BitVec.ofNat 32 (fieldAt row (4 * i) 4))) (40 + x.d.toNat)
            (BitVec.ofNat 64 (b.take * 2 ^ 21 + first))) 0))))

/-- R117, R118, R242, R115, R243, R347: An `xcopy` whose record passes its checks hands the record's bytes to the request engine, raises the copies counter and the completion counter that the record names, and retires. A copy writes the next bytes that stand together at both ends, from the scratchpad or from memory to a scratchpad or to the operand buffer, counts them, and counts the named barrier object down; a copy with every byte counted completes: its counters fall, and a fault that it met is reported to its group, or ends the launch where the group's handler issued it. -/
def Obligations.Copies : Prop :=
  (∀ (s : State) (g : Nat) (a : SReg) (m : Nat), Runs s g → NoSinks s →
    let x := group s g
    let y := ownTeam s g
    let off := (sreg s g a).toNat
    let r := scratchRead y off 64
    let k := fieldAt r 42 1 % 16
    off < 2 ^ 21 → off % 64 = 0 → off + 64 ≤ (descOf s g).s → y.poison = [] → copyTrap s g r = none →
    noSuchTeam s x.team (copySrc r) = false → noSuchTeam s x.team (copyDst r) = false →
    (copyBar r = 0xFFFFFFFF ∨ ∃ u o, clusterAddr s x.team (copyBar r) = .at u o ∧ isBarrier (team s u) o = true) →
    (copyFlag r 0 = true → laneIssued x = true) → copySlot y = some m → copiesInFlight s (coreOf s g) < 32 → x.cnt.copies < 0xFFFF →
    (copyFlag r 2 = true → kcount x k < 0xFFFF) →
    let op := s.work.next
    let up := { x with cnt := { x.cnt with copies := x.cnt.copies + 1 } }
    let entry : Copy := ⟨g, off, r, if copyFlag r 2 then [(k, op)] else [], 0, false, none, none, false, inHandler x⟩
    exec (.xcopy a) s = .next (retired
      (setTeam { s with work := { s.work with next := op + 1 } } x.team { y with copies := tput none y.copies m (some entry) }) g
      (if copyFlag r 2 then raiseK up k op else up) (x.spc + 4))) ∧
  (∀ (s : State) (t c : Nat) (k : Copy) (bs : List Byte), copyOf s t c = some k → k.suspended = false → k.reported = false →
    (∀ f ∈ s.work.faults, f.1 ≠ .copy t c) →
    let src := copySrc k.req
    let dst := copyDst k.req
    let n := min (min (copyCount k.req - k.done) (min (runLeft src k.done) (runLeft dst k.done))) (min (pageLeft src k.done) (pageLeft dst k.done))
    let from_ := tdOffset src k.done
    let to_ := tdOffset dst k.done
    let after := fun (s : State) => copyCountDown (setCopy s t c (some { k with done := k.done + n })) t k.req n
    (0 < n → bs.length = n → waiting s (.copy t c) = false →
      ((tdSpace src ≠ 3 ∧ engineScratch s t (copyScratch src + from_) n = .bytes (bs.map some) none) ∨
        (tdSpace src = 3 ∧ engineLoad s (teamWho s t (.copy t c)) (BitVec.ofNat 64 (tdAddr src + from_)) n = (s, .bytes (bs.map some) none))) →
      (∀ u off, tdSpace dst = 0 → clusterAddr s t (copyScratch dst + to_) = .at u off → Untagged (team s u) off n → (team s u).poison = [] →
        off + n ≤ (launch s (team s u).launch).d.s →
        exec (.copyWrite t c) s = .next (after (setTeam s u (scratchPut (team s u) off bs)))) ∧
      (tdSpace dst = 2 → (∀ i, i < n → reserved (team s t) (tdAddr dst + to_ + i) = true) →
        exec (.copyWrite t c) s = .next (after (setTeam s t { team s t with obuf := mwrite (team s t).obuf (tdAddr dst + to_) bs }))) ∧
      (∀ s', tdSpace dst = 3 → engineStore s (teamWho s t (.copy t c)) (BitVec.ofNat 64 (tdAddr dst + to_)) (bs.map some) = (s', .done none) →
        s'.work = s.work → exec (.copyWrite t c) s = .next (after s'))) ∧
    (copyCount k.req ≤ k.done → NoSinks s →
      let x := group s k.group
      let low := k.ops.foldl (fun x e => lowerK x e.1 e.2) x
      let low := { low with cnt := { low.cnt with copies := low.cnt.copies - 1 } }
      let told := setCopy (setGroup s k.group low) t c (some { k with ops := [], reported := true })
      (k.record = none → exec (.copyComplete t c) s = .next (setCopy (copyClean (setGroup s k.group low) t k.req) t c none)) ∧
      (k.record ≠ none → (k.hand && inHandler x) = false → exec (.copyComplete t c) s = .next (setGroup told k.group
        { low with pend := { low.pend with order := low.pend.order ++ [2 + c] } })) ∧
      ∀ r, k.record = some r → (k.hand && inHandler x) = true →
        exec (.copyComplete t c) s = .next (unhandled told k.group (0x8000 + r.cls))))

/-- R201, R390, R392, R395 to R397, R400: The trace instructions write nothing while the group's trace bit is 0. With the bit 1 and no branch bits pending, `tmark` writes a marker record of the number in sa and of sb[15:0], and `tsync` a sync record with reason 2: the launch, team and group, the position of both streams at the retirement, repeat index, stack depth, mask and release queue. The lane position is that of the next issue, past an access or a booth request that waits for its home, and the queue bytes are those of the records still to issue from there on, a partly issued run with its remaining count (log 22). A record that its ring has room for stands in memory at the ring's write position, which moves past it. With the trace bit 1, `tsamp` sets the sampling of the group's class 101 issues to every n-th and restarts the count. -/
def Obligations.Tracing : Prop :=
  (∀ (s : State) (g : Nat) (a b : SReg), Runs s g →
    let x := group s g
    let p := partOf s g
    let d := dieOf s g
    let t := ownTeam s g
    let at_ := max (now s) x.trace.stamp
    let l := nextIssue x
    let moved := setGroup s g { x with spc := x.spc + 4, trace := { x.trace with stamp := at_ } }
    let marker := leBytes 8 (sreg s g a).toNat ++ leBytes 2 ((sreg s g b).toNat % 65536)
    let sync := leBytes 4 (descOf s g).id.toNat ++ varint t.no ++ [BitVec.ofNat 8 x.no] ++ varint ((x.spc + 4).toNat / 4) ++
      varint (l.lpc.toNat / 4) ++ [BitVec.ofNat 8 l.rep, BitVec.ofNat 8 l.stack.length] ++ maskBytes l.mask ++
      [BitVec.ofNat 8 l.rq.length] ++ l.rq.flatMap queueBytes
    (x.trace.bit = false →
      exec (.tmark a b) s = .next (plainDone s g) ∧ exec .tsync s = .next (plainDone s g) ∧ exec (.tsamp a) s = .next (plainDone s g)) ∧
    (x.fly.lane = none → x.fly.booth = none → l = x.lane) ∧
    (x.trace.bit = true → x.trace.since ≤ now s → x.trace.map = [] → x.trace.branches < 256 →
      ∀ q ∈ [(Instr.tmark a b, (⟨6, 0, groupSource s g, at_, marker, true⟩ : TraceRec), x.trace.branches),
          (.tsync, ⟨1, 2, groupSource s g, at_, sync, true⟩, 0)],
        let u := putRecord moved p d q.2.1
        exec q.1 s = .next (retired u g { group u g with trace := { (group u g).trace with branches := q.2.2 } } (x.spc + 4)) ∧
        ∀ e flat, RingReady s p d q.2.1 e flat →
          let bs := BitVec.ofNat 8 (16 * q.2.1.typ + q.2.1.sub) :: varint (groupSource s g) ++
            zigzag ((at_ : Int) - ((sink s p d).last : Int)) ++ q.2.1.body
          ∃ v, exec q.1 s = .next v ∧ v.mem = mwrite s.mem flat bs ∧
            preg v p (0x048 + d) = preg s p (0x048 + d) + BitVec.ofNat 64 bs.length)) ∧
  (∀ (s : State) (g : Nat) (a : SReg), Runs s g → (group s g).trace.bit = true →
    let x := group s g
    exec (.tsamp a) s = .next (retired s g { x with trace := { x.trace with every := (sreg s g a).toNat % 65536, count := 0 } } (x.spc + 4)))

/-- R119 to R121, R200, R251 to R254, R338, R341: `shalloc` puts a valid record of the scratchpad into the lowest free slot of the partition's table, `shfree` frees a slot and changes its generation, `shtest` tells whether a handle is good; handle 0 is never good. That the lowest free slot is taken, and that a handle with bits set above its fields is as stale as any other, is log 22's reading. Coherence objects. `cobj.decl` takes the lowest free entry of the owner's table for an extent that overlaps no object and whose pages allow the mode; `cobj.mode` raises a counter and asks for the change, which the home makes when it has merged the copies; `cobj.query` reads the mode and whether a change is in progress; `cobj.free` frees the entry and changes its generation. That the lowest free entry is taken is log 22's reading. -/
def Obligations.ObjectsAndShapes : Prop :=
  (∀ (s : State) (g : Nat) (d a : SReg), Runs s g →
    let y := ownTeam s g
    let p := partOf s g
    let v := (sreg s g a).toNat
    let rec_ := scratchRead y v 64
    let used := fun (n : Nat) => (shapeSlot s p n).alloc
    (v < 2 ^ 21 → v % 64 = 0 → v + 64 ≤ (descOf s g).s → y.poison = [] → shapeOk rec_ = true → tableWf ShapeSlot.blank s.shapes = true →
      ∃ n, 1 ≤ n ∧ (∀ m, 1 ≤ m → m < n → m < Config.shapeSlots → used m = true) ∧ (n < Config.shapeSlots → used n = false) ∧
        exec (.shalloc d a) s = .next (if Config.shapeSlots ≤ n then scalarDone s g d 0
          else scalarDone (setShape s p n ⟨true, (shapeSlot s p n).gen, rec_⟩) g d (BitVec.ofNat 64 (n * 4096 + (shapeSlot s p n).gen.toNat)))) ∧
    (v = 0 → exec (.shfree a) s = .next (plainDone s g)) ∧
    (∀ k, v ≠ 0 → shapeOf s p v = some k → exec (.shfree a) s = .next (plainDone (setShape s p (v / 4096) ⟨false, k.gen + 1, []⟩) g)) ∧
    (v ≠ 0 → shapeOf s p v = none → Faultable s g → exec (.shfree a) s = .next (pendingDone s g ⟨11, 0, 0, 0xFF, BitVec.ofNat 32 v, 0⟩)) ∧
    exec (.shtest d a) s = .next (scalarDone s g d (if v ≠ 0 ∧ (shapeOf s p v).isSome then 1 else 0))) ∧
  (∀ (s : State) (g : Nat) (d a b : SReg) (k : KReg) (gd e : Nat) (o : CObj), Runs s g → (∀ f ∈ s.work.faults, f.1 ≠ .scalar g) →
    let x := group s g
    let p := partOf s g
    let va := sreg s g a
    let w := sreg s g b
    let mode := bits w 33 32
    let asked := bits w 1 0
    let who := whoOf s g (.scalar g)
    let home := ownerOf va
    let objs := (die s home).objs
    let slot := lowestFree ((objs.filter (·.2.alloc)).length + 1) ((objs.filter (·.2.alloc)).map (·.1)) 1
    let gen := (tget CObj.blank objs slot).gen
    (∀ y, bits w 63 41 = 0 → bits w 35 34 = 0 → (w.getLsbD 40 = true ∨ bits w 39 36 = 0) → mode ≠ 3 → bits w 31 0 ≠ 0 → va.toNat % 128 = 0 →
      shapeOf s p (bits w 31 0) = some y → shapeOk y.bytes = true → (mode = 2 → shFmt y.bytes = 0xD) →
      let n := objBytes y.bytes
      let overlap := objs.any fun q => q.2.alloc && decide (q.2.base.toNat < va.toNat + n ∧ va.toNat < q.2.base.toNat + q.2.bytes)
      addressFault (descOf s g).mask va n = none → bits va 53 0 + n ≤ 2 ^ 54 → checkPages (n / 0x10000 + 2) s who va n mode = (s, .ok) →
      (0xFFF < slot → exec (.cobjDecl d a b) s = .next (scalarDone s g d (2 ^ 63))) ∧
      (slot ≤ 0xFFF → overlap = true → exec (.cobjDecl d a b) s = .next (scalarDone s g d (2 ^ 63 + 1))) ∧
      (slot ≤ 0xFFF → overlap = false → exec (.cobjDecl d a b) s = .next (scalarDone (putObj s home slot
        ⟨true, gen, va, n, shFmt y.bytes, BitVec.ofNat 2 mode, [], p, if w.getLsbD 40 then some (bits w 39 36) else none, []⟩) g d
        (BitVec.ofNat 64 (home * 2 ^ 24 + gen.toNat * 2 ^ 12 + slot))))) ∧
    (objOf s g va.toNat = some (gd, e, o) →
      exec (.cobjQuery d a) s = .next (scalarDone s g d (BitVec.ofNat 64 (o.mode.toNat + if o.changes = [] then 0 else 4))) ∧
      (o.changes = [] → exec (.cobjFree a) s = .next (plainDone (putObj (mergeObject s gd e o) gd e { CObj.blank with gen := o.gen + 1 }) g)) ∧
      (o.changes ≠ [] → exec (.cobjFree a) s = .next (waitsAgain s g (.cobjFree a))) ∧
      (asked ≠ 3 → (asked = 2 → o.fmt = 0xD) → kcount x k.toNat < 0xFFFF →
        checkPages (o.bytes / 0x10000 + 2) s who o.base o.bytes asked = (s, .ok) →
        exec (.cobjMode k a b) s = .next (retired (putObj { s with work := { s.work with next := s.work.next + 1 } } gd e
          { o with changes := o.changes ++ [(BitVec.ofNat 2 asked, g, k.toNat, s.work.next)] }) g (raiseK x k.toNat s.work.next) (x.spc + 4)))) ∧
    (∀ m h c op rest, tget CObj.blank (die s gd).objs e = { o with changes := (m, h, c, op) :: rest } →
      let merged := putObj (mergeObject s gd e { o with changes := (m, h, c, op) :: rest }) gd e { o with mode := m, changes := rest, sharers := [] }
      exec (.cobjModeDone gd e) s = .next (setGroup merged h (if (group s h).live then lowerK (group s h) c op else group s h))))

/-- R278 to R284, R286, R285, R287, R288, R290, R111, R291, R279, R292: The six collectives. A group that passes the checks waits at its collective; once every group of the team waits there and fewer than four are in flight, the hand-over arms the barrier object, and every group gets the same phase in sd, counts a copy, and retires. A collective whose part of the team has ended is in flight no more, though its fault may still wait for the barrier phase (R288). A step of a collective. Of a sum, the exact values of each element are added to its long accumulator, rank by rank; a non-finite element halts the collective at that step with no sum changed; a movement's step writes every rank's chunk. The home slice that a step's record names is a free value (log 20). A step of a `calltoall` whose receive queues hold rows writes the oldest one to the place that its tags fix, and the senders that waited reserve the rows that are free; with the last row the step is over. The order of the rows and the rows' numbers within a block are log 22's. The end of a collective of one rank whose outcome is decided: the status word, the countdown of what was not written, the copies counters of the team's groups; and a cancellation, which stops the oldest collective in flight through the object before its writing begins, and takes back the page faults of a suspended step. -/
def Obligations.Collectives : Prop :=
  ((∀ (s : State) (g : Nat) (d a b : SReg) (u off : Nat), Runs s g → (group s g).lane.park.fmask = 0 →
    barOperand s g (sreg s g a) true true = .object u off → collStatus (sreg s g b) < (descOf s g).s →
    ∀ p ∈ [(0, Instr.creduce d a b), (1, .callred d a b), (2, .credscat d a b), (3, .callgath d a b), (4, .calltoall d a b), (5, .cbcast d a b)],
      collTrap s g p.1 (sreg s g a) (sreg s g b) = none → exec p.2 s = .next (waitsAgain s g p.2)) ∧
  ∀ (s : State) (t fn : Nat) (a b : Word) (src dst : TileDesc), NoSinks s →
    let x := team s t
    let off := bits a 20 0
    let o := readBar x off
    let level := collLevel a
    let rank := x.no % rankCount (launch s x.launch).d level
    x.live = true → saving s t = false → x.groups ≠ [] → x.groups.Nodup →
    (∀ g ∈ x.groups, issued (group s g) = some (fn, a, b, src, dst) ∧ laneIssued (group s g) = true ∧ (group s g).cnt.copies < 0xFFFF ∧
      (group s g).trace.next = none) →
    collsBusy s t < 4 → isBarrier x off = true → o.arrive ≠ 0 →
    (∀ e ∈ s.work.colls, ∀ c, e.2 = some c → ∀ q ∈ c.ranks, ∀ r, q.2 = some r → r.team = t → r.late = false) →
    ∃ t', exec (.collectiveHandover t) s = .next t' ∧
      readBar (team t' t) off = testBar { o with arrive := o.arrive - 1, bytes := (o.bytes + rankBytes fn rank b dst + 8) % 2 ^ 48 } ∧
      tget 0 (team t' t).seq level = tget 0 x.seq level + 1 ∧ t'.mem = s.mem ∧
      ∀ g ∈ x.groups, (group t' g).spc = (group s g).spc + 4 ∧ (group t' g).fly.waiting = none ∧ (group t' g).cnt.copies = (group s g).cnt.copies + 1 ∧
        ∃ d va vb, collAt (group s g) = some (fn, d, va, vb) ∧
          ∀ r : SReg, sregOf (group t' g) r.toNat = if r = d ∧ d ≠ 0 then withPhase va o.phase else sregOf (group s g) r.toNat) ∧
  (∀ (s : State) (c : Nat) (k : Coll) (rank : Nat) (r0 : CollRank) (rest : List (Nat × CollRank)), coll s c = some k → k.outcome = none →
    k.suspended = false → waiting s (.coll c) = false → rankMissing s k = false → rankList k = (rank, r0) :: rest → k.size ≤ (rankList k).length →
    ranksLive s k = true → k.step < collSteps r0 → NoSinks s → (∀ f ∈ s.work.faults, f.1 ≠ .coll c) →
    let w := fmtBits (tdFmt r0.src)
    let first := 1024 * k.step
    let n := min 1024 (collLength r0 - first)
    let value := contribution (tdFmt r0.src) (collUns r0.b)
    (∀ data len, isReduction r0.fn = true → readRanks s c ((rankList k).map fun e => (e.1, e.2, first * w / 8, n * w / 8)) = (s, .ok data) →
      data.head?.map (fun e => (elemsOf w e.2).length) = some len →
      ((∀ e ∈ data, ∀ v ∈ elemsOf w e.2, nonFinite (value v) = none) →
        (collOp r0.b = 0 →
          let sum := fun (i : Nat) => data.foldl (fun acc e => contribute acc e.1 (value ((elemsOf w e.2).getD i 0))) LA.zero
          let sums := (List.range len).map fun i => (first + i, sum i)
          exec (.collectiveStep c) s = .next
            { setColl s c (some { k with step := k.step + 1, sums := k.sums ++ sums }) with fresh := s.fresh + 1 }) ∧
        (collOp r0.b ≠ 0 → ∃ best, best.map (·.1) = (List.range len).map (first + ·) ∧ exec (.collectiveStep c) s = .next
          { setColl s c (some { k with step := k.step + 1, best := k.best ++ best }) with fresh := s.fresh + 1 })) ∧
      ((∃ e ∈ data, ∃ v ∈ elemsOf w e.2, nonFinite (value v) ≠ none) →
        ∃ k', exec (.collectiveStep c) s = .next { setColl s c (some k') with fresh := s.fresh + 1 } ∧
          k'.outcome = some 1 ∧ k'.step = k.step ∧ k'.sums = k.sums ∧ k'.writing = k.writing)) ∧
    (∀ data, isReduction r0.fn = false → k.queue = [] → moveRanks s c k.step (rankList k) = (s, .ok data) →
      let at_ := 1024 * k.step * fmtBits (tdFmt r0.dst) / 8
      let t := data.foldl (fun s e => writeRank s c e.1 at_ e.2) (setColl s c (some { k with step := k.step + 1, writing := true }))
      (r0.fn ≠ 4 → NoSinks t → exec (.collectiveStep c) s = .next { t with fresh := t.fresh + 1 }) ∧
      let rows := data.flatMap fun e => match tget none k.ranks e.1 with
        | some r => rowsOf k.size e.1 r.dst at_ e.2
        | none => []
      (r0.fn = 4 → exec (.collectiveStep c) s = .next (setColl s c (some (reserveRows { k with senders := rows })))))) ∧
  (∀ (s : State) (c : Nat) (k : Coll) (row : RecvRow) (rows : List RecvRow) (r0 r : CollRank) (rank : Nat) (rest : List (Nat × CollRank)),
    coll s c = some k → k.outcome = none → k.suspended = false → waiting s (.coll c) = false → rankMissing s k = false →
    rankList k = (rank, r0) :: rest → k.size ≤ (rankList k).length → ranksLive s k = true → k.step < collSteps r0 →
    isReduction r0.fn = false → k.queue = row :: rows → (∀ f ∈ s.work.faults, f.1 ≠ .coll c) → tget none k.ranks row.dst = some r →
    (∃ x, probeRuns s (rankWho s c r) r.team r.dst (descRuns r.dst row.place row.bytes.length) = (s, .ok x)) →
    let left := reserveRows { k with queue := rows, writing := true }
    (∀ q ∈ rows, q ∈ left.queue) ∧ left.queue.length + left.senders.length = rows.length + k.senders.length ∧
    (left.queue ≠ [] → exec (.collectiveStep c) s = .next (writeRank (setColl s c (some left)) c row.dst row.place row.bytes)) ∧
    (left.queue = [] →
      let t := writeRank (setColl s c (some { left with step := k.step + 1 })) c row.dst row.place row.bytes
      NoSinks t → exec (.collectiveStep c) s = .next { t with fresh := t.fresh + 1 })) ∧
  ((∀ (s : State) (c o : Nat) (k : Coll) (r : CollRank), coll s c = some k → k.size = 1 → k.ranks = [(0, some r)] → k.outcome = some o →
    k.suspended = false → waiting s (.coll c) = false → r.done = false → r.record = none → r.late = false → r.toTell = [] →
    let t := team s r.team
    t.live = true → t.poison = [] → Untagged t (collStatus r.b) 8 →
    let word := (if o = 1 then k.low.toNat else 0xFFFFFFFF) * 2 ^ 32 + (if o = 0 then 0 else k.step % 256 * 256) + o
    let written := setTeam s r.team (scratchPut t (collStatus r.b) (leBytes 8 word))
    let counted := if r.armed then countDown written r.team (bits r.a 20 0) (r.bytes - r.written + 8) else written
    exec (.collectiveEnd c) s = .next (setColl (t.groups.foldl (fun s g => setGroup s g
      { group s g with cnt := { (group s g).cnt with copies := (group s g).cnt.copies - 1 } }) counted) c none)) ∧
  ∀ (s : State) (g : Nat) (d a : SReg), Runs s g → NoSinks s → (group s g).lane.park.fmask = 0 → laneIssued (group s g) = true →
    let v := sreg s g a
    let mine := (collsOf s (group s g).team).find? fun e =>
      (rankOf e.2 (group s g).team).any fun r => !r.done && bits r.a 20 0 == bits v 20 0 && collLevel r.a == collLevel v
    (∃ u off, barOperand s g v true false = .object u off) → collScopeBad s g v = false →
    (∀ c k, mine = some (c, k) → k.outcome = none → k.writing = false →
      let t := setColl (dropSusp s c k) c (some { quietRanks k with outcome := some 2 })
      exec (.cabort d a) s = .next (scalarDone { t with fresh := t.fresh + 1 } g d 1)) ∧
    (∀ c k, mine = some (c, k) → (k.outcome ≠ none ∨ k.writing = true) → exec (.cabort d a) s = .next (scalarDone s g d 0)) ∧
    (mine = none → exec (.cabort d a) s = .next (scalarDone s g d 0)))

/-- R151, R308, R310 to R312, R399, R320, R313 to R316: The privilege level and the partition registers. A read gives the register's value, or 0 for a partition that the group may not name; a write that keeps every rule puts the merged value with what follows from it, and one for such a partition does nothing; a trace setting of the group's own launch holds from the write's own retirement, and one for a launch that does not exist has no effect (R399). A pre-emption request names a launch. It answers 2 when no launch has the identifier, 1 when a request already stands (the nearer deadline holds), else 0; every resident team of the launch sees the request and the cycles left. A request is pending while a core that it has reached holds a team. The other chips of the launch's mask are sent the request, which is log 11's. In which partitions the identifier is looked for is log 22's reading; that a cycle of the count is a cycle of the model is log 2's. `sslotw` writes one entry of the shadow table of each selected core, vacant positions apart; `sslotr` reads the live table; `sslotx` asks each selected core to take its shadow table and retires when all have; a core takes it, and the donate bits, as the cycle begins in which its walk index is 0. That all cores of a die walk in step is the model's choice (log 10). -/
def Obligations.PrivilegedState : Prop :=
  (∀ (s : State) (g : Nat) (d a b : SReg) (p r : Nat), Runs s g → 1 ≤ (group s g).level.toNat →
    let v := sreg s g a
    let w := sreg s g b
    exec (.sgpl d) s = .next (scalarDone s g d ((group s g).level.zeroExtend 64)) ∧
    (v.toNat = p * 4096 + r → p < 16 → r < 4096 → regKnown r = true →
      (mayName s g p = true → exec (.spget d a) s = .next (scalarDone s g d (preg s p r))) ∧
      (mayName s g p = false → exec (.spget d a) s = .next (scalarDone s g d 0) ∧ exec (.spset a b) s = .next (plainDone s g)) ∧
      (mayName s g p = true → regRefusal s p r (group s g).level w = none →
        (r ≠ 0x050 → exec (.spset a b) s = .next (regPut (plainDone s g) p r (regMerge r (preg s p r) w))) ∧
        (r = 0x050 → launchNamed s p (bits w 31 0) = none → exec (.spset a b) s = .next (plainDone s g)) ∧
        (∀ l, r = 0x050 → launchNamed s p (bits w 31 0) = some l →
          ∃ t, exec (.spset a b) s = .next t ∧ preg t p r = w ∧ (group t g).spc = (group s g).spc + 4 ∧
            ((group s g).live = true → l = launchOf s g → (group t g).trace.bit = w.getLsbD 32)) ∧
        (r ∈ [0x001, 0x002, 0x003, 0x004, 0x010, 0x011, 0x012, 0x013, 0x030, 0x040, 0x041, 0x042, 0x043, 0x04C, 0x04D, 0x04E, 0x04F] →
          exec (.spset a b) s = .next (setPreg (plainDone s g) p r w))))) ∧
  (∀ (s : State) (g : Nat) (d a b : SReg), Runs s g → 1 ≤ (group s g).level.toNat →
    let id := (sreg s g a).toNat
    let dl := (sreg s g b).toNat
    id < 2 ^ 32 → dl ≤ 0x1000000 →
    (requested s g id = none → exec (.spreq d a b) s = .next (scalarDone s g d 2)) ∧
    ∀ l, requested s g id = some l →
      let n := min dl (preg s (launch s l).part 3).toNat
      let live := s.work.teams.any fun e => e.2.live && e.2.launch == l
      let reached := s.work.teams.any fun e => e.2.live && e.2.launch == l && e.2.preq
      let ask := fun (o : Option Nat) => setLaunch s l { launch s l with request := o }
      let done := fun (t : State) (r : Word) => (.next (scalarDone (tellChips t l (.request dl)) g d r) : Out)
      (∀ o, (launch s l).request = some o → reached = true →
        exec (.spreq d a b) s = done (setDeadline (ask (some (min o n))) l n false) 1) ∧
      (((launch s l).request = none ∨ reached = false) → live = false → exec (.spreq d a b) s = done s 0) ∧
      (((launch s l).request = none ∨ reached = false) → live = true →
        exec (.spreq d a b) s = done (setDeadline (ask (some n)) l n true) 0)) ∧
  ((∀ (s : State) (g : Nat) (d a b : SReg) (cs : List Nat) (e : Nat), Runs s g → 1 ≤ (group s g).level.toNat → slotSelector (sreg s g a) = some (cs, e) →
    ((group s g).level = 2 → bits (sreg s g b) 63 20 = 0 → ∃ cores, exec (.sslotw a b) s = .next (plainDone { s with cores := cores } g) ∧
      ∀ c k, (tget Core.blank cores c).live = (core s c).live ∧ tget slotReset (tget Core.blank cores c).shadow k =
        if c ∈ cs ∧ (core s c).vacant = false ∧ k = e then (sreg s g b).setWidth 20 else tget slotReset (core s c).shadow k) ∧
    (∀ c, cs = [c] → (sreg s g a).getLsbD 19 = false → (sreg s g a).getLsbD 18 = false → exec (.sslotr d a) s = .next (scalarDone s g d
      (if (core s c).vacant then 0 else (tget slotReset (core s c).live e).zeroExtend 64))) ∧
    ((group s g).level = 2 → e = 0 → (group s g).fly.yielded = false → ∃ cores, exec (.sslotx a) s = .next (setGroup { s with cores := cores } g
        { group s g with fly := { (group s g).fly with waiting := some (.sslotx a), yielded := true } }) ∧
      ∀ c, (tget Core.blank cores c).copy = ((core s c).copy || (cs.contains c && !(core s c).vacant))) ∧
    ((group s g).level = 2 → e = 0 → (group s g).fly.yielded = true → (∀ c ∈ cs, (core s c).copy = false) → exec (.sslotx a) s = .next (plainDone s g))) ∧
  ∀ (s : State) (c : Nat),
    ((walkIndex s c ≠ 0 ∨ (die s (chipNo s * 4 + c / 64)).edge = false) → exec (.slotTableWrap c) s = .next s) ∧
    (walkIndex s c = 0 → (die s (chipNo s * 4 + c / 64)).edge = true → exec (.slotTableWrap c) s = .next (setCore s c { core s c with
      live := if (core s c).copy then (core s c).shadow else (core s c).live, copy := false, donate := donateNow s })))

/-- R311: The selector of `spget` and `spset`. Bits [15:12] name a partition and bits [11:0] a register of the maps; a nonzero bit above, or a register of no map, raises the illegal-instruction trap. A level-1 group that names another partition than its own reads 0, and its write has no effect; neither raises a fault. -/
def Obligations.PartitionSelectors : Prop :=
  ∀ (s : State) (g : Nat) (d a b : SReg), Runs s g → 1 ≤ (group s g).level.toNat →
    let v := sreg s g a
    let p := bits v 15 12
    let r := bits v 11 0
    let inMaps : Prop := r ≤ 4 ∨ 0x010 ≤ r ∧ r ≤ 0x013 ∨ r = 0x020 ∨ r = 0x030 ∨ 0x040 ≤ r ∧ r ≤ 0x050
    (Faultable s g → (bits v 63 16 ≠ 0 ∨ ¬inMaps) → ∃ c,
      exec (.spget d a) s = .next (pendingDone s g (illegalScalarRec s g c)) ∧ exec (.spset a b) s = .next (pendingDone s g (illegalScalarRec s g c))) ∧
    (bits v 63 16 = 0 → inMaps →
      ((group s g).level = 1 → p ≠ partOf s g → exec (.spget d a) s = .next (scalarDone s g d 0) ∧ exec (.spset a b) s = .next (plainDone s g)) ∧
      (((group s g).level = 2 ∨ p = partOf s g) → exec (.spget d a) s = .next (scalarDone s g d (preg s p r))))

/-- R328, R331, R335, R342, R336, R337, R382: `tlbroot` sets a root and drops the entries of its address space, `tlbinv` drops every TLB entry that the pages, the address space or the partition cover, and `wentry` sets the walker entry, on the dies that the operand names; no other die changes. The contributions to slots in the frame of an entry that goes are merged first (R141). For the dies of another chip `tlbinv` asks the home there and retires with its answer, or takes the address fault, recorded as a write (log 22), when the request was not delivered (R382, log 11). That the instruction waits until no walk for a covered page runs there is log 3's. A `carve` that the die's controller accepts gives or takes ways, raises the counter and returns the partition's ways; a refusal returns its word and changes nothing. When the change is done the added ways read zero and the counter falls. `pmap` maps a page whose tables are there and that is not mapped to the newest frame of the partition's pool, which reads zero from then on; its other answers change nothing. Of another chip's page it asks the home there and waits for the answer, or takes the address fault when the request was not delivered, recorded as a write, which is log 22's reading. `pgive` pushes frames of the partition's own range. The home of another chip is the model's image of it (log 11). -/
def Obligations.TranslationControl : Prop :=
  (∀ (s : State) (g : Nat) (a b : SReg), Runs s g → laneIssued (group s g) = true → (∀ w ∈ s.work.walks, w.2.any (·.running) = false) →
    let v := sreg s g a
    let w := sreg s g b
    let p := bits v 15 12
    let asn := bits v 7 0
    let done := fun (dies : Tab Die) => (.next (plainDone { s with dies := dies } g) : Out)
    let at_ := fun (dies : Tab Die) (d : Nat) => tget Die.blank dies d
    (1 ≤ (group s g).level.toNat → mayName s g p = true →
      (bits v 63 20 = 0 → v.getLsbD 18 = false → bits v 11 8 = 0 → (v.getLsbD 19 = true → bits v 17 16 = 0) → bits w 63 52 = 0 → bits w 15 1 = 0 → s.parts = [] →
        ∃ dies, exec (.tlbroot a b) s = done dies ∧
          (∀ d ∈ selDies s v, tget 0 (at_ dies d).roots (rootKey p asn) = w ∧
            (at_ dies d).tlb = (die s d).tlb.filter fun e => !(e.part == p && e.asn.toNat == asn)) ∧
          ∀ d, d ∉ selDies s v → at_ dies d = die s d) ∧
      (bits v 63 40 = 0 → bits v 21 16 = 0 → bits v 11 8 = 0 → bits v 23 22 = 0 →
        let n := bits v 39 24 + 1
        let first := bits w 53 16
        let met := fun (e : TlbEntry) => e.part == p && e.asn.toNat == asn &&
          if e.level = 1 then decide (e.page / 8192 * 8192 < first + n ∧ first < e.page / 8192 * 8192 + 8192)
          else decide (e.page < first + n ∧ first < e.page + 1)
        addressFault (descOf s g).mask (w &&& ~~~0xFFFF) (n * 0x10000) = none → bits w 61 56 = chipNo s →
        (s.parts = [] → ∃ dies, exec (.tlbinv a b) s = done dies ∧ (∀ d, d ≠ ownerOf w → at_ dies d = die s d) ∧
          (at_ dies (ownerOf w)).tlb = (die s (ownerOf w)).tlb.filter fun e => !met e) ∧
        ∃ t, exec (.tlbinv a b) s = .next t ∧ (die t (ownerOf w)).tlb = (die s (ownerOf w)).tlb.filter (fun e => !met e) ∧
          ∀ e ∈ (die s (ownerOf w)).tlb, met e = true → ∀ q ∈ t.parts,
            q.slot < (entryFrame (ownerOf w) e).1 ∨ (entryFrame (ownerOf w) e).1 + (entryFrame (ownerOf w) e).2 ≤ q.slot) ∧
      (bits v 63 40 = 0 → bits v 21 16 = 0 → bits v 11 8 = 0 → (bits v 23 22 = 1 ∨ (bits v 23 22 = 2 ∧ asn = 0)) → bits w 63 62 = 0 → bits w 55 0 = 0 →
        (descOf s g).mask.getLsbD (bits w 61 56) = true → s.parts = [] →
        let dropped := fun (dies : Tab Die) => (∀ d, d / 4 ≠ bits w 61 56 → at_ dies d = die s d) ∧
          ∀ d, d / 4 = bits w 61 56 → (at_ dies d).tlb = (die s d).tlb.filter fun e =>
            !(e.part == p && (bits v 23 22 == 2 || e.asn.toNat == asn))
        (bits w 61 56 = chipNo s → ∃ dies, exec (.tlbinv a b) s = done dies ∧ dropped dies) ∧
        (bits w 61 56 ≠ chipNo s →
          (walkFault s (.scalar g) (ownerOf w) (pageOf w) = none → ∃ t, exec (.tlbinv a b) s = .next t ∧
            (group t g).fly.waiting = some (.tlbinv a b) ∧ (group t g).fly.yielded = true ∧ waiting t (.scalar g) = true) ∧
          (∀ c, walkFault s (.scalar g) (ownerOf w) (pageOf w) = some c → c ≠ causeUndelivered →
            ∃ dies, exec (.tlbinv a b) s = .next (plainDone (clearFaults { s with dies := dies } (.scalar g)) g) ∧ dropped dies) ∧
          (walkFault s (.scalar g) (ownerOf w) (pageOf w) = some causeUndelivered → Faultable s g →
            exec (.tlbinv a b) s = .next (pendingDone (clearFaults s (.scalar g)) g (scalarRec 5 0 true false w)))))) ∧
    ((group s g).level = 2 → bits v 63 48 = 0 → bits v 31 20 = 0 → v.getLsbD 18 = false → bits v 15 0 = 0 →
      (v.getLsbD 19 = true → bits v 17 16 = 0) → (w = 0 ↔ bits v 47 32 = 0) → w.toNat % 4 = 0 →
      ∃ dies, exec (.wentry a b) s = done dies ∧ ∀ d, ((at_ dies d).wentry, (at_ dies d).wlen) =
        if d ∈ selDies s v then (w, bits v 47 32) else ((die s d).wentry, (die s d).wlen))) ∧
  ((∀ (s : State) (g : Nat) (d a : SReg) (k : KReg), Runs s g → 1 ≤ (group s g).level.toNat →
    let v := sreg s g a
    let p := bits v 11 8
    let n := bits v 4 0
    let gd := chipNo s * 4 + bits v 17 16
    let x := die s gd
    let held := waysOf x p
    let y := group s g
    let op := s.work.next
    bits v 63 18 = 0 → bits v 15 12 = 0 → bits v 7 5 = 0 → n ≤ 16 → kcount y k.toNat < 0xFFFF → x.carve = none →
    (mayName s g p = false → exec (.carve d a k) s = .next (scalarDone s g d (2 ^ 63 + 3))) ∧
    (mayName s g p = true →
      let limit := bits (preg s p 2) (5 * (gd % 4) + 4) (5 * (gd % 4))
      (limit < n → exec (.carve d a k) s = .next (scalarDone s g d (2 ^ 63 + 1))) ∧
      (n ≤ limit → (freeWays x).length < n - held.length → exec (.carve d a k) s = .next (scalarDone s g d (2 ^ 63 + 2))) ∧
      (n ≤ limit → n - held.length ≤ (freeWays x).length → held.length < n →
        let ws := (freeWays x).take (n - held.length)
        let x' := { x with ways := ws.foldl (fun t w => tput none t w (some p)) x.ways, carve := some ⟨ws, true, p, g, k.toNat, op⟩ }
        exec (.carve d a k) s = .next (retired (setDie { s with work := { s.work with next := op + 1 } } gd x') g
          (setSregOf (raiseK y k.toNat op) d.toNat (waysMask (waysOf x' p))) (y.spc + 4))) ∧
      (n ≤ limit → n ≤ held.length → ∃ t, exec (.carve d a k) s = .next t ∧ kcount (group t g) k.toNat = kcount y k.toNat + 1 ∧
        (d ≠ 0 → sregOf (group t g) d.toNat = waysMask (held.take n)) ∧
        ∀ w ∈ held.drop n, ∀ i, i < 0x1000000 → mbyte t.mem (dieBase gd + wayBase w + i) = 0))) ∧
  ∀ (s : State) (gd : Nat) (c : Carve), (die s gd).carve = some c →
    ∃ t, exec (.carveDone gd) s = .next t ∧ (die t gd).carve = none ∧
      (c.add = true → ∀ w ∈ c.ways, ∀ i, i < 0x1000000 → mbyte t.mem (dieBase gd + wayBase w + i) = 0) ∧
      (c.add = false → t.mem = s.mem) ∧
      ((c.add = false ∨ ((group s c.group).fly.scalar = none ∧ (group s c.group).fly.lane = none)) →
        group t c.group = if (group s c.group).live then lowerK (group s c.group) c.counter c.op else group s c.group)) ∧
  (∀ (s : State) (g : Nat) (d a b : SReg), Runs s g → 1 ≤ (group s g).level.toNat → s.bad = [] →
    let v := sreg s g a
    let w := sreg s g b
    let p := partOf s g
    let gd := ownerOf v
    let pool := tget [] (die s gd).pools p
    (addressFault (descOf s g).mask v 1 = none → w &&& ~~~0x0C3000000000000E = 0 → gd / 4 = chipNo s →
      (leafAt s gd p (descOf s g).asn.toNat v = none → exec (.pmap d a b) s = .next (scalarDone s g d 2)) ∧
      ∀ e, leafAt s gd p (descOf s g).asn.toNat v = some e →
        ((physWord s gd e).getLsbD 0 = true → exec (.pmap d a b) s = .next (scalarDone s g d 1)) ∧
        ((physWord s gd e).getLsbD 0 = false → pool = [] → exec (.pmap d a b) s = .next (scalarDone s g d 3)) ∧
        ∀ f rest, (physWord s gd e).getLsbD 0 = false → pool = f :: rest →
          let leaf := w ||| BitVec.ofNat 64 f ||| 0x0080000000000011
          let mapped := { setDie s gd { die s gd with pools := tput [] (die s gd).pools p rest } with
            mem := mwrite (mclear s.mem (dieBase gd + f) 0x10000) (dieBase gd + e) (leBytes 8 leaf.toNat) }
          exec (.pmap d a b) s = .next (scalarDone (clearSnaps mapped (dieBase gd + f) 0x10000) g d 0)) ∧
    (addressFault (descOf s g).mask v 1 = none → w &&& ~~~0x0C3000000000000E = 0 → gd / 4 ≠ chipNo s →
      (walkFault s (.scalar g) gd (pageOf v) = none → ∃ t, exec (.pmap d a b) s = .next t ∧
        (group t g).fly.waiting = some (.pmap d a b) ∧ (group t g).fly.yielded = true ∧ waiting t (.scalar g) = true) ∧
      (∀ r, r < 4 → walkFault s (.scalar g) gd (pageOf v) = some (causeMapped + r) →
        exec (.pmap d a b) s = .next (scalarDone (clearFaults s (.scalar g)) g d (BitVec.ofNat 64 r))) ∧
      (walkFault s (.scalar g) gd (pageOf v) = some causeUndelivered → Faultable s g →
        exec (.pmap d a b) s = .next (pendingDone (clearFaults s (.scalar g)) g (scalarRec 5 0 true false v)))) ∧
    (let q := bits v 23 20
     let home := chipNo s * 4 + bits v 17 16
     let old := tget [] (die s home).pools q
     bits v 63 24 = 0 → bits v 19 18 = 0 → bits w 15 0 = 0 → bits w 63 52 = 0 → bits v 15 0 ≤ 16384 → mayName s g q = true →
     ∃ k, k ≤ bits v 15 0 ∧ (k < bits v 15 0 → inPmem s q (bits v 17 16) (w.toNat + k * 0x10000) 0x10000 = false ∨ Config.poolFrames ≤ old.length + k) ∧
       (∀ i, i < k → inPmem s q (bits v 17 16) (w.toNat + i * 0x10000) 0x10000 = true) ∧
       let new := ((List.range k).map fun i => w.toNat + i * 0x10000).reverse ++ old
       exec (.pgive d a b) s = .next (scalarDone (setDie s home { die s home with pools := tput [] (die s home).pools q new }) g d
         (BitVec.ofNat 64 (new.length * 2 ^ 32 + k)))))

/-- R329 to R334, R329, R330: A walk starts at its die's walker entry with the address, the request word and the root in s1 to s3; it reads and exchanges aligned words of its die's memory; `tlbfill` with a good leaf fills the TLB and wakes the requests, and with a bad one ends them with a page fault; a walk that runs too long ends as a walker error. Which free context of a die a walk takes is the model's choice (log 20). In a walk the same arithmetic reads and writes the walk's own registers. -/
def Obligations.Walks : Prop :=
  ((∀ (s : State) (w : Nat) (x : Walk) (d a b : SReg), WalkRuns s w x →
    let u := tget 0 x.s a.toNat
    let v := tget 0 x.s b.toNat
    (physOk s x.die u = true →
      exec (.wldp d a) s = .next (walkDone s w x d (physWord s x.die u.toNat)) ∧
      let old := physWord s x.die u.toNat
      exec (.wcasp d a b) s = .next (walkDone (if old = tget 0 x.s d.toNat then
        { s with mem := mwrite s.mem (dieBase x.die + u.toNat) (leBytes 8 v.toNat) } else s) w x d old)) ∧
    (NoSinks s → bits v 63 1 = 0 →
      let level := bits v 0 0
      let ends := fun (s' : State) (fs : List (Agent × Nat × Nat × Nat)) => (.next { setWalk s' w none with
        work := { (setWalk s' w none).work with waits := s.work.waits.filter (fun e => e.walk != w), faults := s.work.faults ++ fs } } : Out)
      let fault := fun (c : Nat) => ends s ((s.work.waits.filter fun e => e.walk == w && e.acc &&& x.acc == e.acc).map fun e => (e.agent, x.die, pageOf x.va, c))
      (leafValid u level = false → exec (.tlbfill a b) s = fault 0) ∧
      (leafValid u level = true → leafPermits u x.acc = false → exec (.tlbfill a b) s = fault 1) ∧
      (leafValid u level = true → leafPermits u x.acc = true → frameOk s x u level = false → exec (.tlbfill a b) s = fault 3) ∧
      (leafValid u level = true → leafPermits u x.acc = true → frameOk s x u level = true → u.getLsbD 55 = true →
        (x.acc.getLsbD 1 = true → u.getLsbD 56 = true) → s.parts = [] → ∃ dies, exec (.tlbfill a b) s = ends { s with dies := dies } [] ∧
          tlbFind (tget Die.blank dies x.die) x.part x.asn (pageOf x.va) = some ⟨x.part, x.asn, pageOf x.va, u, level⟩ ∧
          ∀ d, d ≠ x.die → tget Die.blank dies d = die s d))) ∧
  ∀ (s : State) (w : Nat) (x : Walk), walk s w = some x → NoSinks s →
    (let y := die s x.die
     let word := BitVec.ofNat 64 (x.part * 2 ^ 16 + x.asn.toNat * 2 ^ 8 + x.reason * 2 ^ 6 + x.acc.toNat)
     x.running = false → x.die / 4 = chipNo s → oldestWalk s x.die = some w → walksRunning s x.die < 8 * coresPresent s (x.die % 4) → y.wentry ≠ 0 →
     ∃ x', exec (.walkStart w) s = .next (setWalk s w (some x')) ∧ x'.running = true ∧ x'.spc = y.wentry ∧ x'.cycles = 0 ∧ tget 0 x'.s 1 = x.va ∧
       tget 0 x'.s 2 = word ∧ tget 0 x'.s 3 = tget 0 y.roots (rootKey x.part x.asn.toNat) ∧ ∀ r, 3 < r → tget 0 x'.s r = 0) ∧
    (x.running = true → 65536 ≤ x.cycles → ∃ t, exec (.walkLimitExpiry w) s = .next t ∧ walk t w = none ∧
      t.work.faults = s.work.faults ++ (s.work.waits.filter fun e => e.walk == w && e.acc &&& x.acc == e.acc).map fun e => (e.agent, x.die, pageOf x.va, 5)) ∧
    ((x.running = false ∨ x.cycles < 65536) → exec (.walkLimitExpiry w) s = .next s)) ∧
  (∀ (s : State) (w : Nat) (x : Walk) (d a b : SReg) (i : BitVec 14), WalkRuns s w x →
    let u := tget 0 x.s a.toNat
    let v := tget 0 x.s b.toNat
    ∀ p ∈ [(Instr.sadd d a b, u + v), (.ssub d a b, u - v), (.sand d a b, u &&& v), (.sor d a b, u ||| v), (.sxor d a b, u ^^^ v),
        (.sshl d a b, u <<< (v.toNat % 64)), (.sshr d a b, u >>> (v.toNat % 64)), (.smul d a b, u * v), (.saddi d a i, u + i.signExtend 64)],
      exec p.1 s = .next (walkDone s w x d p.2))

/-- R151, R308, R331, R343, R348: At level 0 every privileged form traps with cause 3, and so do the manager's own forms below level 2, the handler's forms outside a handler and the walker's forms outside a walk; nothing else changes. That the cause is 3, and that such a form traps before its other fields are looked at, is log 22's reading. -/
def Obligations.PrivilegeTraps : Prop :=
  ∀ (s : State) (g : Nat) (d a b : SReg) (k : KReg), Runs s g → Faultable s g →
    let trap : Out := .next (pendingDone s g (illegalScalarRec s g 3))
    ((group s g).level = 0 → ∀ i ∈ [Instr.spget d a, .spset a b, .sslotr d a, .spreq d a b, .sgpl d, .tlbroot a b, .tlbinv a b, .carve d a k,
      .pmap d a b, .pgive d a b, .eret, .ekill a, .efget d a, .efset a b], exec i s = trap) ∧
    ((group s g).level.toNat < 2 → ∀ i ∈ [Instr.sslotw a b, .sslotx a, .wentry a b], exec i s = trap) ∧
    ∀ i ∈ [Instr.eret, .efget d a, .efset a b, .wldp d a, .wcasp d a b, .tlbfill a b], exec i s = trap

/-- R151: Majors 0x3C to 0x3E are privileged. At level 0 a word of one of these majors raises the illegal-instruction trap, whatever else it holds and whether or not it decodes; at level 1 or 2 it is decoded. That the cause is 3 is log 22's reading. -/
def Obligations.PrivilegedWords : Prop :=
  ∀ (s : State) (g : Nat) (w : BitVec 32), s.cur = .group g → Faultable s g → 0x3C ≤ bits w 31 26 → bits w 31 26 ≤ 0x3E →
    ((group s g).level = 0 → runScalar s g w.toNat = .next (pendingDone s g (illegalScalarRec s g 3))) ∧
    (∀ c, (group s g).level ≠ 0 → decodeScalar w = .error c → runScalar s g w.toNat = .next (pendingDone s g (illegalScalarRec s g c))) ∧
    ∀ i, (group s g).level ≠ 0 → decodeScalar w = .ok i → scalarHeld s g i = none → runScalar s g w.toNat = exec i s

/-- R348 to R351: A handler's `eret` restores the interrupted context, level and registers s56 to s63 included, and parked lanes are then replayed from the replay point; `efget` reads the frame, `efset` writes its saved SPC, and `ekill` ends the launch with its code. How lanes that parked at different issues are replayed is log 7's reading. -/
def Obligations.HandlerForms : Prop :=
  ∀ (s : State) (g : Nat) (d a b : SReg) (f : Frame), Quiet s g → 1 ≤ (group s g).level.toNat →
    let x := group s g
    let v := sreg s g a
    let p := f.lane.park
    (x.handler = some f →
      (∀ q ∈ [(0, f.spc), (1, f.lane.lpc), (2, BitVec.ofNat 64 f.lane.rep), (3, if p.fmask = 0 then f.lane.lpc else p.lpc),
          (4, (p.fmask.extractLsb' 0 32).zeroExtend 64), (5, (p.fmask.extractLsb' 32 32).zeroExtend 64), (6, (p.fmask.extractLsb' 64 32).zeroExtend 64),
          (7, (p.fmask.extractLsb' 96 32).zeroExtend 64), (8, f.level.zeroExtend 64), (9, BitVec.ofNat 64 f.lane.stack.length)],
        v.toNat = q.1 → exec (.efget d a) s = .next (scalarDone s g d q.2)) ∧
      (v = 0 → (sreg s g b).toNat % 4 = 0 →
        exec (.efset a b) s = .next (retired s g { x with handler := some { f with spc := sreg s g b } } (x.spc + 4))) ∧
      (laneIdle x = true → x.cnt.loads = 0 → x.cnt.stores = 0 → f.s56.length = 8 → f.v0.length = 4 → ∃ t, exec .eret s = .next t ∧
        let y := group t g
        y.spc = f.spc ∧ y.handler = none ∧ y.level = (launch s (launchOf s g)).priv ∧ y.fly.waiting = none ∧ t.mem = s.mem ∧
        (p.fmask = 0 → f.lane.clob = [] → y.lane = f.lane) ∧
        (p.fmask ≠ 0 → y.lane.park.fmask = p.fmask ∧ y.lane.park.replaying = true ∧ y.lane.lpc = p.lpc ∧ y.lane.rep = p.rep ∧ y.lane.rq = p.full ∧
          y.lane.park.stopLpc = f.lane.lpc) ∧
        (∀ r, sregOf y r = if 56 ≤ r ∧ r < 64 then f.s56.getD (r - 56) 0 else sregOf x r) ∧
        (∀ j, vreg y j = if j < 4 then setLanes f.hmask (vreg x j) (fun i => (f.v0.getD j []).getD i 0) else vreg x j) ∧
        y.r.m = x.r.m ∧ y.r.q = x.r.q ∧ y.r.t = x.r.t)) ∧
    (v.toNat < 65536 → (launch s (launchOf s g)).fin = none → NoSinks s → s.parts = [] → ∃ t, exec (.ekill a) s = .next t ∧
      (launch t (launchOf s g)).fin = some ⟨3, 0, v.toNat, chipNo s, (ownTeam s g).no, x.no⟩ ∧ t.mem = s.mem)

/-- R321, R344 to R346: A group at a precise stop with records and a handler takes the exception of the lowest class among them: the frame keeps the interrupted context, s56 to s63 take the record and the saved positions, v0 to v3 of each lane with a record of the class take its words, records of other classes stay pending, the level rises to 1 at least, and both streams go to the handler's entry addresses. With no handler the launch ends with the unhandled-fault error. A tile instruction in flight does not hold the group back: it stands in the frame and runs on (R347, log 8). -/
def Obligations.TakingExceptions : Prop :=
  ∀ (s : State) (g k : Nat), atStop (group s g) = true → hasRecords s g = true → saving s (group s g).team = false → killed s g = false →
    (group s g).trace.bit = false → (∀ f ∈ s.work.faults, agentGroup f.1 ≠ some g) → (∀ w ∈ s.work.waits, agentGroup w.agent ≠ some g) →
    chosenClass s g = some k →
    let x := group s g
    let held := x.lane.park.recs.filter fun e => e.2.cls == k
    let lanes := maskOf fun i => held.any fun e => e.1 == i
    let delivered := ((pendingRecs s g).find? fun e => e.2.cls == k).map (·.2)
    let r := delivered.getD ((held.head?.map (·.2)).getD ⟨0, 0, 0, 0, 0, 0⟩)
    (∀ e ∈ pendingRecs s g, k ≤ e.2.cls) ∧ (∀ e ∈ x.lane.park.recs, k ≤ e.2.cls) ∧
    (∀ hspc hlpc, handlerEntry s g k = (s, .entry hspc hlpc) → ∃ t, exec (.vector g) s = .next t ∧
      let y := group t g
      y.spc = hspc ∧ y.lane.lpc = hlpc ∧ y.lane.rep = 0 ∧ y.lane.rq = [] ∧ y.lane.stack = [] ∧ y.lane.park.fmask = 0 ∧
      y.level = (if x.level = 0 then 1 else x.level) ∧ y.lane.mask = (if lanes = 0 then x.lane.start else lanes) ∧ t.mem = s.mem ∧
      (∀ j, j < 4 → ∀ i, i < (vreg x j).length → (vreg y j).getD i 0 = match held.find? (fun e => e.1 == i) with
        | some e => if i < 128 then BitVec.ofNat 32 (fieldAt (recBytes e.2) (4 * j) 4) else (vreg x j).getD i 0
        | none => (vreg x j).getD i 0) ∧
      (∃ f, y.handler = some f ∧ f.spc = x.spc ∧ f.lane.lpc = x.lane.lpc ∧ f.lane.rep = x.lane.rep ∧ f.lane.mask = x.lane.mask ∧
        f.lane.stack = x.lane.stack ∧ f.lane.rq = x.lane.rq ∧ f.lane.park.fmask = x.lane.park.fmask ∧
        f.lane.park.recs = (x.lane.park.recs.filter fun e => e.2.cls != k) ∧ f.level = x.level ∧ f.hmask = lanes ∧
        f.s56 = (List.range 8).map (fun i => sregOf x (56 + i)) ∧ f.v0 = (List.range 4).map (vreg x) ∧
        f.tile = stopTile x.fly.tile ∧ (∀ o, x.fly.tile = some o → (o.phase = .queued ∨ o.phase = .running) → f.tile = some o) ∧
        y.fly.tile = none) ∧
      (∀ i, sregOf y i = match i with
        | 56 => BitVec.ofNat 64 (fieldAt (recBytes r) 0 8)
        | 57 => r.addr
        | 58 => BitVec.ofNat 64 (maskCount lanes * 2 ^ 32 + (if held.isEmpty then 0 else 512) + (if delivered.isSome then 256 else 0) + k)
        | 59 => x.spc
        | 60 => x.lane.lpc
        | 61 => 0
        | 62 => groupSave (descOf s g) (ownTeam s g).no x.no + 0x4000
        | 63 => 0
        | i => sregOf x i)) ∧
    (handlerEntry s g k = (s, .none) → exec (.vector g) s = .next (unhandled s g (0x8100 + k)))

/-- R52, R53, R70, R155, R157, R177, R206: The integer lane instructions. In each executing lane an element of the destination takes the result at width 32 or 64, clamped under `.sat` and wrapped otherwise; a compare writes the lane's four predicate bits. -/
def Obligations.LaneIntegerResults : Prop :=
  (∀ (s : State) (g : Nat) (x : IntBin), LaneRuns s g →
    let y := group s g
    let j := y.lane.rep
    let n := if x.wide then 2 else 1
    let w := if x.wide then 64 else 32
    Below s g (regs x.wide x.d x.c.stepD j ++ (regs x.wide x.a x.c.stepA j ++ srcRegs x.wide x.b x.c.stepB j)) [] →
    let lo : Int := if x.sg then -2 ^ (w - 1) else 0
    let hi : Int := if x.sg then 2 ^ (w - 1) - 1 else 2 ^ w - 1
    let val := fun (v : Word) => if x.sg then sext w v.toNat else ((v.toNat % 2 ^ w : Nat) : Int)
    let low := fun (z : Int) => BitVec.ofNat 64 (z % 2 ^ w).toNat
    let fit := fun (z : Int) => low (if x.sat then max lo (min hi z) else z)
    ∀ p ∈ [(Instr.vadd x, fun a b => fit (val a + val b)), (.vsub x, fun a b => fit (val a - val b)), (.vmul x, fun a b => low (a.toNat * b.toNat : Nat)),
        (.vmulh x, fun a b => low (val a * val b / 2 ^ w)), (.vmin x, fun a b => if val b < val a then b else a),
        (.vmax x, fun a b => if val b < val a then a else b), (.vdiv x, fun a b => if b = 0 then low (-1) else low ((val a).tdiv (val b))),
        (.vrem x, fun a b => if b = 0 then a else low ((val a).tmod (val b))), (.vand x, fun a b => a &&& b), (.vor x, fun a b => a ||| b),
        (.vxor x, fun a b => a ^^^ b), (.vandn x, fun a b => a &&& ~~~b), (.vshl x, fun a b => low (a.toNat * 2 ^ (b.toNat % w) : Nat)),
        (.vshr x, fun a b => low (val a / 2 ^ (b.toNat % w)))],
      exec p.1 s = .next (laneNext s g (putWide y x.wide (regNo x.d x.c.stepD n j) (execLanes y x.c.pred x.c.neg)
        (List.zipWith p.2 (vsrc y x.wide (regNo x.a x.c.stepA n j)) (srcInt y x.wide x.sg x.b x.c.stepB j))) x.c.rep.toNat)) ∧
  (∀ (s : State) (g : Nat) (x : IntUn), LaneRuns s g →
    let y := group s g
    let j := y.lane.rep
    let n := if x.wide then 2 else 1
    let w := if x.wide then 64 else 32
    Below s g (regs x.wide x.d x.c.stepD j ++ regs x.wide x.a x.c.stepA j) [] →
    ∀ p ∈ [(Instr.vclz x, fun a => BitVec.ofNat 64 (leadingZeros (a.setWidth w))), (.vpopc x, fun a => BitVec.ofNat 64 (bitCount (a.setWidth w)))],
      exec p.1 s = .next (laneNext s g (putWide y x.wide (regNo x.d x.c.stepD n j) (execLanes y x.c.pred x.c.neg)
        ((vsrc y x.wide (regNo x.a x.c.stepA n j)).map p.2)) x.c.rep.toNat)) ∧
  (∀ (s : State) (g : Nat) (x : IntTern), LaneRuns s g →
    let y := group s g
    let j := y.lane.rep
    let n := if x.wide then 2 else 1
    let w := if x.wide then 64 else 32
    Below s g (regs x.wide x.d x.c.stepD j ++ (regs x.wide x.a x.c.stepA j ++ srcRegs x.wide x.b x.c.stepB j ++ regs x.wide x.e x.c.stepC j)) [] →
    exec (.vmad x) s = .next (laneNext s g (putWide y x.wide (regNo x.d x.c.stepD n j) (execLanes y x.c.pred x.c.neg)
      (List.zipWith (fun (p : Word × Word) (c : Word) => BitVec.ofNat 64 ((p.1.toNat * p.2.toNat + c.toNat) % 2 ^ w))
        (List.zip (vsrc y x.wide (regNo x.a x.c.stepA n j)) (srcInt y x.wide x.sg x.b x.c.stepB j)) (vsrc y x.wide (regNo x.e x.c.stepC n j)))) x.c.rep.toNat)) ∧
  ∀ (s : State) (g : Nat) (x : IntCmp), LaneRuns s g →
    let y := group s g
    let j := y.lane.rep
    let n := if x.wide then 2 else 1
    let w := if x.wide then 64 else 32
    Below s g (regs x.wide x.a x.c.stepA j ++ srcRegs x.wide x.b x.c.stepB j) [] →
    let val := fun (v : Word) => if x.sg then sext w v.toNat else ((v.toNat % 2 ^ w : Nat) : Int)
    let holds := fun (a b : Word) => match x.cc.toNat with
      | 0 => val a == val b | 1 => val a != val b | 2 => decide (val a < val b) | 3 => decide (val a ≤ val b)
      | 4 => decide (val b < val a) | _ => decide (val b ≤ val a)
    exec (.vcmp x) s = .next (laneNext s g (putPred y x.d (execLanes y x.c.pred x.c.neg)
      (List.zipWith holds (vsrc y x.wide (regNo x.a x.c.stepA n j)) (srcInt y x.wide x.sg x.b x.c.stepB j))) x.c.rep.toNat)

/-- R55, R56, R207, R208: The packed integer instructions compute each sub-element at its width and write it where its byte is active; a packed compare writes the bits of the bytes; `vdot` adds the exact products to a 32-bit addend. -/
def Obligations.LanePackedResults : Prop :=
  (∀ (s : State) (g : Nat) (x : PackBin), LaneRuns s g →
    let y := group s g
    let j := y.lane.rep
    let w := packWidth x.w
    Below s g (regs false x.d x.c.stepD j ++ (regs false x.a x.c.stepA j ++ srcRegs false x.b x.c.stepB j)) [] →
    let lo : Int := if x.sg then -2 ^ (w - 1) else 0
    let hi : Int := if x.sg then 2 ^ (w - 1) - 1 else 2 ^ w - 1
    let val := fun (v : Nat) => if x.sg then sext w v else ((v % 2 ^ w : Nat) : Int)
    let low := fun (z : Int) => (z % 2 ^ w).toNat
    let fit := fun (z : Int) => low (if x.sat then max lo (min hi z) else z)
    ∀ p ∈ [(Instr.vaddPacked x, fun a b => fit (val a + val b)), (.vsubPacked x, fun a b => fit (val a - val b)),
        (.vminPacked x, fun a b => if val b < val a then b else a), (.vmaxPacked x, fun a b => if val b < val a then a else b),
        (.vmulPacked x, fun a b => low (a * b : Nat))],
      exec p.1 s = .next (laneNext s g (putPacked y w (regNo x.d x.c.stepD 1 j) (execNibbles y x.c.pred x.c.neg)
        (List.zipWith (fun a b => joinEl w fun i => p.2 (subEl w a i) (subEl w b i)) (vreg y (regNo x.a x.c.stepA 1 j))
          (srcPacked y w x.b x.c.stepB j))) x.c.rep.toNat)) ∧
  (∀ (s : State) (g : Nat) (x : PackCmp), LaneRuns s g →
    let y := group s g
    let j := y.lane.rep
    let w := packWidth x.w
    Below s g (regs false x.a x.c.stepA j ++ srcRegs false x.b x.c.stepB j) [] →
    let val := fun (v : Nat) => if x.sg then sext w v else ((v % 2 ^ w : Nat) : Int)
    ∀ p ∈ [(Instr.vcmpEqPacked x, fun a b => val a == val b), (.vcmpLtPacked x, fun a b => decide (val a < val b)),
        (.vcmpLePacked x, fun a b => decide (val a ≤ val b))],
      exec p.1 s = .next (laneNext s g (putPredBytes y x.d ((execNibbles y x.c.pred x.c.neg).map (packedGate w))
        (List.zipWith (fun a b => packedBits w fun i => p.2 (subEl w a i) (subEl w b i)) (vreg y (regNo x.a x.c.stepA 1 j))
          (srcPacked y w x.b x.c.stepB j))) x.c.rep.toNat)) ∧
  ∀ (s : State) (g : Nat) (x : DotArgs), LaneRuns s g →
    let y := group s g
    let j := y.lane.rep
    let w := packWidth x.w
    Below s g (regs false x.d x.c.stepD j ++ (regs false x.a x.c.stepA j ++ srcRegs false x.b x.c.stepB j ++ regs false x.e x.c.stepC j)) [] →
    let val := fun (sg : Bool) (v : Nat) => if sg then sext w v else ((v % 2 ^ w : Nat) : Int)
    let sum := fun (a b c : LWord) => c.toInt + ((List.range (32 / w)).map fun i => val x.sgA (subEl w a i) * val x.sgB (subEl w b i)).sum
    exec (.vdot x) s = .next (laneNext s g (putLanes y (regNo x.d x.c.stepD 1 j) (execLanes y x.c.pred x.c.neg)
      (List.zipWith (fun (p : LWord × LWord) (c : LWord) =>
          BitVec.ofInt 32 (if x.sat then max (-2 ^ 31) (min (2 ^ 31 - 1) (sum p.1 p.2 c)) else sum p.1 p.2 c))
        (List.zip (vreg y (regNo x.a x.c.stepA 1 j)) (srcPacked y w x.b x.c.stepB j)) (vreg y (regNo x.e x.c.stepC 1 j)))) x.c.rep.toNat)

/-- R65, R209, R78 to R83, R214 to R218, R70, R80, R214, R217, R218: Moves and selections copy bit patterns, and `vcoord` writes each lane's coordinate. That an immediate of the 64-bit forms is extended as the suffix says is log 25's reading. Conversions round the exact value of the source element once to the destination's format or range and write the named element; the special functions write their rounded value. A value read from an integer element is that integer; a value converted to an integer type is rounded once and held within the type's range, an infinity at its end, NaN at 0. The special functions. The table of R218 for NaN, infinities, zeros, negative and large inputs; the two seeds are the exact value cut after 12 fraction bits; the exact results of `vflog2`, `vfexp2`, `vfsinpi` and `vfcospi` are given exactly. Elsewhere these four are the model's series (log 12). -/
def Obligations.LaneMovesAndConversions : Prop :=
  ((∀ (s : State) (g : Nat) (x : MovArgs), LaneRuns s g →
    let y := group s g
    let j := y.lane.rep
    ∀ p ∈ [(Instr.vmovN32 x, false), (.vmovN64 x, true)], Below s g (regs p.2 x.d x.c.stepD j ++ srcRegs p.2 x.b x.c.stepB j) [] →
      exec p.1 s = .next (laneNext s g (putWide y p.2 (regNo x.d x.c.stepD (if p.2 then 2 else 1) j) (execLanes y x.c.pred x.c.neg)
        (srcInt y p.2 x.sg x.b x.c.stepB j)) x.c.rep.toNat)) ∧
  (∀ (s : State) (g : Nat) (x : SelArgs), LaneRuns s g →
    let y := group s g
    let j := y.lane.rep
    let ex := execLanes y x.c.pred x.c.neg
    let names := fun wide => Below s g (regs wide x.d x.c.stepD j ++ (regs wide x.a x.c.stepA j ++ srcRegs wide x.b x.c.stepB j)) []
    let bytes := fun (n : BitVec 4) (a b : LWord) => joinEl 8 fun i => if n.getLsbD i then subEl 8 a i else subEl 8 b i
    (names false → exec (.vselN32 x) s = .next (laneNext s g (putLanes y (regNo x.d x.c.stepD 1 j) ex
      (List.zipWith (fun (n : BitVec 4) (p : LWord × LWord) => bytes n p.1 p.2) (mreg y x.k.toNat)
        (List.zip (vreg y (regNo x.a x.c.stepA 1 j)) ((srcInt y false x.sg x.b x.c.stepB j).map fun (w : Word) => w.setWidth 32)))) x.c.rep.toNat)) ∧
    (names true → exec (.vselN64 x) s = .next (laneNext s g (putWide y true (regNo x.d x.c.stepD 2 j) ex
      (List.zipWith (fun (n : BitVec 4) (p : Word × Word) => if n.getLsbD 0 then p.1 else p.2) (mreg y x.k.toNat)
        (List.zip (vpair y (regNo x.a x.c.stepA 2 j)) (srcInt y true x.sg x.b x.c.stepB j)))) x.c.rep.toNat))) ∧
  ∀ (s : State) (g : Nat) (x : CoordArgs) (f : Nat → Nat), LaneRuns s g →
    let y := group s g
    let d := descOf s g
    let k := x.n.toNat % 16
    let no := (ownTeam s g).no
    Below s g (regs false x.d x.c.stepD y.lane.rep) [] →
    (f = (fun i => i) ∧ x.n = 0 ∨
      k < d.levels.length ∧ x.n.toNat / 16 = 1 ∧ (levelAt d k).bind ≠ 0 ∧ f = (fun _ => nodeOf d k no y.no % (levelAt d k).fan) ∨
      k < d.levels.length ∧ x.n.toNat / 16 = 3 ∧ (levelAt d k).bind ≠ 0 ∧ f = (fun _ => nodeOf d k no y.no) ∨
      k < d.levels.length ∧ x.n.toNat / 16 = 1 ∧ (levelAt d k).bind = 0 ∧
        f = (fun i => if laneCount d ≤ i then 0xFFFFFFFF else i / lanesBelow d k % (levelAt d k).fan) ∨
      k < d.levels.length ∧ x.n.toNat / 16 = 3 ∧ (levelAt d k).bind = 0 ∧
        f = (fun i => if laneCount d ≤ i then 0xFFFFFFFF else laneNode d k no y.no i)) →
    exec (.vcoord x) s = .next (laneNext s g (putLanes y (regNo x.d x.c.stepD 1 y.lane.rep) (execLanes y x.c.pred x.c.neg)
      ((List.range 128).map fun i => BitVec.ofNat 32 (f i))) x.c.rep.toNat)) ∧
  ((∀ (s : State) (g : Nat) (x : CvtArgs), LaneRuns s g →
    let y := group s g
    let j := y.lane.rep
    let dt := ctypeOf x.dt
    let st := ctypeOf x.st
    let wd := ctypeBits dt == 64
    let ws := ctypeBits st == 64
    Below s g (regs wd x.d x.c.stepD j ++ regs ws x.a x.c.stepA j) [] →
    exec (.vcvt x) s = .next (laneNext s g (putEl y dt (regNo x.d x.c.stepD (if wd then 2 else 1) j) x.dpos.toNat (execEl y x.c dt x.dpos.toNat)
      ((takeEl y st (regNo x.a x.c.stepA (if ws then 2 else 1) j) x.spos.toNat).map fun e =>
        match st, dt with
        | .int w sg, .int w' sg' => let z := readInt w sg e; wrapInt w' (if x.sat then clampInt w' sg' z else z)
        | _, _ => roundC dt x.mode.toNat x.sat (valueC st e))) x.c.rep.toNat)) ∧
  (∀ (s : State) (g : Nat) (x : CvtpArgs), LaneRuns s g →
    let y := group s g
    let j := y.lane.rep
    let half := fun (v : LWord) => roundTo (halfFmt x.bf) x.mode.toNat x.sat (decodeF f32 v.toNat)
    Below s g (regs false x.d x.c.stepD j ++ (regs false x.a x.c.stepA j ++ regs false x.b x.c.stepB j)) [] →
    exec (.vcvtp x) s = .next (laneNext s g (putPacked y 16 (regNo x.d x.c.stepD 1 j) (execNibbles y x.c.pred x.c.neg)
      (List.zipWith (fun a b => joinEl 16 fun i => if i = 0 then half a else half b) (vreg y (regNo x.a x.c.stepA 1 j))
        (vreg y (regNo x.b x.c.stepB 1 j)))) x.c.rep.toNat)) ∧
  ∀ (s : State) (g : Nat) (x : SfArgs), LaneRuns s g →
    let y := group s g
    let j := y.lane.rep
    Below s g (regs false x.d x.c.stepD j ++ regs false x.a x.c.stepA j) [] →
    ∀ p ∈ [(Instr.vfrsqe x, sfRsqrt), (.vfrcpe x, sfRecip), (.vfexp2 x, sfExp2), (.vflog2 x, sfLog2), (.vfsinpi x, sfSinPi), (.vfcospi x, sfCosPi)],
      exec p.1 s = .next (laneNext s g (putLanes y (regNo x.d x.c.stepD 1 j) (execLanes y x.c.pred x.c.neg)
        ((vreg y (regNo x.a x.c.stepA 1 j)).map fun v => BitVec.ofNat 32 (p.2 v.toNat))) x.c.rep.toNat)) ∧
  (∀ w ∈ [4, 8, 16, 32, 64], ∀ (sg sat : Bool) (m b : Nat) (v : FVal),
    let lo : Int := if sg then -2 ^ (w - 1) else 0
    let hi : Int := if sg then 2 ^ (w - 1) - 1 else 2 ^ w - 1
    (∃ u n, valueC (.int w sg) b = .fin u n 0 ∧ ratOf u n 0 = (if sg ∧ 2 ^ (w - 1) ≤ b % 2 ^ w then ((b % 2 ^ w : Nat) : ℚ) - 2 ^ w else ((b % 2 ^ w : Nat) : ℚ))) ∧
    roundC (.int w sg) m sat v < 2 ^ w ∧
    readInt w sg (roundC (.int w sg) m sat v) = match v with
      | .nan => 0
      | .inf s => if s then lo else hi
      | .fin s n e => min (max (roundInt m s n e) lo) hi) ∧
  ((∀ p ∈ [(sfRsqrt, 0, 0x7FC00000, 0x7F800000, 0xFF800000), (sfRecip, 0, 0x80000000, 0x7F800000, 0xFF800000),
      (sfExp2, 0x7F800000, 0, 0x3F800000, 0x3F800000), (sfLog2, 0x7F800000, 0x7FC00000, 0xFF800000, 0xFF800000),
      (sfSinPi, 0x7FC00000, 0x7FC00000, 0, 0x80000000), (sfCosPi, 0x7FC00000, 0x7FC00000, 0x3F800000, 0x3F800000)],
    p.1 0x7F800000 = p.2.1 ∧ p.1 0xFF800000 = p.2.2.1 ∧ p.1 0 = p.2.2.2.1 ∧ p.1 0x80000000 = p.2.2.2.2 ∧
    ∀ b : Nat, decodeF f32 b = .nan → p.1 b = 0x7FC00000) ∧
  ∀ (b n : Nat) (s : Bool) (e : Int), decodeF f32 b = .fin s n e → n ≠ 0 →
    let x := ratOf s n e
    (s = true → sfRsqrt b = 0x7FC00000 ∧ sfLog2 b = 0x7FC00000) ∧ (128 ≤ x → sfExp2 b = 0x7F800000) ∧
    (∀ (k : Nat) (c : Int), 2 ^ 12 ≤ k → k < 2 ^ 13 →
      (ratOf false k c ≤ |1 / x| → |1 / x| < ratOf false (k + 1) c → sfRecip b = roundTo f32 1 false (.fin s k c)) ∧
      (s = false → ratOf false k c ^ 2 ≤ 1 / x → 1 / x < ratOf false (k + 1) c ^ 2 → sfRsqrt b = roundTo f32 1 false (.fin false k c))) ∧
    (∀ z : Int, x = 2 ^ z → sfLog2 b = roundTo f32 1 false (.fin (decide (z < 0)) z.natAbs 0)) ∧
    (∀ z : Int, x = z → (z < 128 → sfExp2 b = roundTo f32 1 false (.fin false 1 z)) ∧ sfSinPi b = (if s then 0x80000000 else 0) ∧
      sfCosPi b = (if z % 2 = 0 then 0x3F800000 else 0xBF800000)) ∧
    ∀ z : Int, x = z + 1 / 2 → sfSinPi b = (if z % 2 = 0 then 0x3F800000 else 0xBF800000) ∧ sfCosPi b = 0)

/-- R72 to R77, R205, R210 to R213, R72, R73, R76, R81, R83, R74, R75, R77, R79, R210: The floating-point lane instructions. The exact value of the operation is rounded once to the element's format in the instruction's mode; compares, selections and sign operations are exact; FP16 and BF16 are computed in every half. The value that an encoding of each floating-point format denotes, by its exponent and fraction fields; what `.ftz` makes of an FP32 encoding; the expansion of a QN4 code. Rounding. A finite value is rounded to an integer under each of the four modes; into a format it is rounded once in the unit of its last place, with subnormals kept, and overflows as the table of R75 says; an infinity saturates under sat and in E4M3; NaN gives the canonical NaN; a zero keeps its sign. The exact values of the arithmetic. A product and a sum are exact, with the sign of a zero sum that R205 gives; a quotient and a root are exact where their last bit is 0, and else lie between their neighbours, with more bits than any format keeps; invalid operations give NaN. -/
def Obligations.LaneFloatResults : Prop :=
  ((∀ (s : State) (g : Nat) (x : FpBin), LaneRuns s g →
    let y := group s g
    let j := y.lane.rep
    let n := if x.dbl then 2 else 1
    let v := fpVal x.dbl x.ftz
    let m := x.mode.toNat
    Below s g (regs x.dbl x.d x.c.stepD j ++ (regs x.dbl x.a x.c.stepA j ++ srcRegs x.dbl x.b x.c.stepB j)) [] →
    ∀ p ∈ [(Instr.vaddFp x, addF m), (.vsubFp x, fun a b => addF m a (negF b)), (.vmulFp x, mulF), (.vdivFp x, divF)],
      exec p.1 s = .next (laneNext s g (putWide y x.dbl (regNo x.d x.c.stepD n j) (execLanes y x.c.pred x.c.neg)
        (List.zipWith (fun a b => fpRound x.dbl x.mode x.sat x.ftz (p.2 (v a) (v b))) (vsrc y x.dbl (regNo x.a x.c.stepA n j))
          (srcFloat y x.dbl x.b x.c.stepB j))) x.c.rep.toNat)) ∧
  (∀ (s : State) (g : Nat) (x : FpTern), LaneRuns s g →
    let y := group s g
    let j := y.lane.rep
    let n := if x.dbl then 2 else 1
    let v := fpVal x.dbl x.ftz
    let m := x.mode.toNat
    Below s g (regs x.dbl x.d x.c.stepD j ++ (regs x.dbl x.a x.c.stepA j ++ srcRegs x.dbl x.b x.c.stepB j ++ regs x.dbl x.e x.c.stepC j)) [] →
    ∀ p ∈ [(Instr.vfma x, fun a b c => addF m (mulF a b) c), (.vfms x, fun a b c => addF m (mulF a b) (negF c)),
        (.vfnma x, fun a b c => addF m c (negF (mulF a b)))],
      exec p.1 s = .next (laneNext s g (putWide y x.dbl (regNo x.d x.c.stepD n j) (execLanes y x.c.pred x.c.neg)
        (List.zipWith (fun (q : Word × Word) c => fpRound x.dbl x.mode x.sat x.ftz (p.2 (v q.1) (v q.2) (v c)))
          (List.zip (vsrc y x.dbl (regNo x.a x.c.stepA n j)) (srcFloat y x.dbl x.b x.c.stepB j)) (vsrc y x.dbl (regNo x.e x.c.stepC n j)))) x.c.rep.toNat)) ∧
  (∀ (s : State) (g : Nat) (x : FpUn), LaneRuns s g →
    let y := group s g
    let j := y.lane.rep
    let n := if x.dbl then 2 else 1
    Below s g (regs x.dbl x.d x.c.stepD j ++ regs x.dbl x.a x.c.stepA j) [] →
    exec (.vsqrt x) s = .next (laneNext s g (putWide y x.dbl (regNo x.d x.c.stepD n j) (execLanes y x.c.pred x.c.neg)
      ((vsrc y x.dbl (regNo x.a x.c.stepA n j)).map fun a => fpRound x.dbl x.mode x.sat x.ftz (sqrtF (fpVal x.dbl x.ftz a)))) x.c.rep.toNat)) ∧
  (∀ (s : State) (g : Nat) (x : FpCmp), LaneRuns s g →
    let y := group s g
    let j := y.lane.rep
    let n := if x.dbl then 2 else 1
    Below s g (regs x.dbl x.a x.c.stepA j ++ srcRegs x.dbl x.b x.c.stepB j) [] →
    exec (.vcmpFp x) s = .next (laneNext s g (putPred y x.d (execLanes y x.c.pred x.c.neg)
      (List.zipWith (fun (a b : Word) => cmpF x.cc.toNat (decodeF (fpFmt x.dbl) a.toNat) (decodeF (fpFmt x.dbl) b.toNat))
        (vsrc y x.dbl (regNo x.a x.c.stepA n j)) (srcFloat y x.dbl x.b x.c.stepB j))) x.c.rep.toNat)) ∧
  (∀ (s : State) (g : Nat) (x : FpSel), LaneRuns s g →
    let y := group s g
    let j := y.lane.rep
    let n := if x.dbl then 2 else 1
    let f := fpFmt x.dbl
    Below s g (regs x.dbl x.d x.c.stepD j ++ (regs x.dbl x.a x.c.stepA j ++ srcRegs x.dbl x.b x.c.stepB j)) [] →
    ∀ p ∈ [(Instr.vminFp x, minF f), (.vmaxFp x, maxF f), (.vcsgn x, fun a b => withSign f (signOf f b) (magOf f a))],
      exec p.1 s = .next (laneNext s g (putWide y x.dbl (regNo x.d x.c.stepD n j) (execLanes y x.c.pred x.c.neg)
        (List.zipWith (fun (a b : Word) => BitVec.ofNat 64 (p.2 a.toNat b.toNat)) (vsrc y x.dbl (regNo x.a x.c.stepA n j))
          (srcFloat y x.dbl x.b x.c.stepB j))) x.c.rep.toNat)) ∧
  (∀ (s : State) (g : Nat) (x : FpBits), LaneRuns s g →
    let y := group s g
    let j := y.lane.rep
    let n := if x.dbl then 2 else 1
    let f := fpFmt x.dbl
    let src := vsrc y x.dbl (regNo x.a x.c.stepA n j)
    let ex := execLanes y x.c.pred x.c.neg
    (Below s g (regs x.dbl x.d x.c.stepD j ++ regs x.dbl x.a x.c.stepA j) [] →
      ∀ p ∈ [(Instr.vneg x, fun a => withSign f (!signOf f a) (magOf f a)), (.vabs x, magOf f)],
        exec p.1 s = .next (laneNext s g (putWide y x.dbl (regNo x.d x.c.stepD n j) ex (src.map fun (a : Word) => BitVec.ofNat 64 (p.2 a.toNat)))
          x.c.rep.toNat)) ∧
    (Below s g (regs false x.d x.c.stepD j ++ regs x.dbl x.a x.c.stepA j) [] →
      exec (.vclass x) s = .next (laneNext s g (putLanes y (regNo x.d x.c.stepD 1 j) ex
        (src.map fun (a : Word) => BitVec.ofNat 32 (classF f a.toNat))) x.c.rep.toNat))) ∧
  (∀ (s : State) (g : Nat) (x : HBin), LaneRuns s g →
    let y := group s g
    let j := y.lane.rep
    let h := halfFmt x.bf
    let m := x.mode.toNat
    Below s g (regs false x.d x.c.stepD j ++ (regs false x.a x.c.stepA j ++ srcRegs false x.b x.c.stepB j)) [] →
    ∀ p ∈ [(Instr.vaddF16 x, addF m), (.vsubF16 x, fun a b => addF m a (negF b)), (.vmulF16 x, mulF)],
      exec p.1 s = .next (laneNext s g (putPacked y 16 (regNo x.d x.c.stepD 1 j) (execNibbles y x.c.pred x.c.neg)
        (List.zipWith (fun a b => joinEl 16 fun i => roundTo h m x.sat (p.2 (decodeF h (subEl 16 a i)) (decodeF h (subEl 16 b i))))
          (vreg y (regNo x.a x.c.stepA 1 j)) (srcPacked y 16 x.b x.c.stepB j))) x.c.rep.toNat)) ∧
  (∀ (s : State) (g : Nat) (x : HTern), LaneRuns s g →
    let y := group s g
    let j := y.lane.rep
    let h := halfFmt x.bf
    let m := x.mode.toNat
    let el := fun (v : LWord) i => decodeF h (subEl 16 v i)
    let ab := List.zip (vreg y (regNo x.a x.c.stepA 1 j)) (srcPacked y 16 x.b x.c.stepB j)
    let c := vreg y (regNo x.e x.c.stepC 1 j)
    Below s g (regs false x.d x.c.stepD j ++ (regs false x.a x.c.stepA j ++ srcRegs false x.b x.c.stepB j ++ regs false x.e x.c.stepC j)) [] →
    exec (.vfmaF16 x) s = .next (laneNext s g (putPacked y 16 (regNo x.d x.c.stepD 1 j) (execNibbles y x.c.pred x.c.neg)
      (List.zipWith (fun (p : LWord × LWord) c => joinEl 16 fun i => roundTo h m x.sat (addF m (mulF (el p.1 i) (el p.2 i)) (el c i))) ab c)) x.c.rep.toNat) ∧
    exec (.vdot2 x) s = .next (laneNext s g (putLanes y (regNo x.d x.c.stepD 1 j) (execLanes y x.c.pred x.c.neg)
      (List.zipWith (fun (p : LWord × LWord) (c : LWord) => BitVec.ofNat 32 (roundTo f32 m x.sat
        (add3F m (decodeF f32 c.toNat) (mulF (el p.1 0) (el p.2 0)) (mulF (el p.1 1) (el p.2 1))))) ab c)) x.c.rep.toNat)) ∧
  (∀ (s : State) (g : Nat) (x : HSel), LaneRuns s g →
    let y := group s g
    let j := y.lane.rep
    let h := halfFmt x.bf
    Below s g (regs false x.d x.c.stepD j ++ (regs false x.a x.c.stepA j ++ srcRegs false x.b x.c.stepB j)) [] →
    ∀ p ∈ [(Instr.vminF16 x, minF h), (.vmaxF16 x, maxF h)],
      exec p.1 s = .next (laneNext s g (putPacked y 16 (regNo x.d x.c.stepD 1 j) (execNibbles y x.c.pred x.c.neg)
        (List.zipWith (fun a b => joinEl 16 fun i => p.2 (subEl 16 a i) (subEl 16 b i)) (vreg y (regNo x.a x.c.stepA 1 j))
          (srcPacked y 16 x.b x.c.stepB j))) x.c.rep.toNat)) ∧
  ∀ (s : State) (g : Nat) (x : HCmp), LaneRuns s g →
    let y := group s g
    let j := y.lane.rep
    let h := halfFmt x.bf
    Below s g (regs false x.a x.c.stepA j ++ srcRegs false x.b x.c.stepB j) [] →
    ∀ p ∈ [(Instr.vcmpEqF16 x, 0), (.vcmpLtF16 x, 2)],
      exec p.1 s = .next (laneNext s g (putPredBytes y x.d ((execNibbles y x.c.pred x.c.neg).map (packedGate 16))
        (List.zipWith (fun a b => packedBits 16 fun i => cmpF p.2 (decodeF h (subEl 16 a i)) (decodeF h (subEl 16 b i)))
          (vreg y (regNo x.a x.c.stepA 1 j)) (srcPacked y 16 x.b x.c.stepB j))) x.c.rep.toNat)) ∧
  ((∀ p ∈ ([(f64, 11, 52, 1023), (f32, 8, 23, 127), (f16, 5, 10, 15), (bf16, 8, 7, 127), (e4m3, 4, 3, 7), (e5m2, 5, 2, 15)] : List (Fmt × Nat × Nat × Nat)),
    let x := p.2.1
    let fr := p.2.2.1
    ∀ b : Nat, b < 2 ^ (1 + x + fr) →
      let ex := b / 2 ^ fr % 2 ^ x
      let frac := b % 2 ^ fr
      let s := decide (2 ^ (x + fr) ≤ b)
      decodeF p.1 b = if ex = 2 ^ x - 1 ∧ (p.1 ≠ e4m3 ∨ frac = 2 ^ fr - 1) then (if frac = 0 then .inf s else .nan)
        else if ex = 0 then .fin s frac (1 - (p.2.2.2 : Int) - (fr : Int)) else .fin s (2 ^ fr + frac) ((ex : Int) - (p.2.2.2 : Int) - (fr : Int))) ∧
  (∀ b : Nat, b < 2 ^ 32 → flushIn false b = b ∧ flushOut false b = b ∧
    ∀ f ∈ [flushIn true, flushOut true], f b = if b / 2 ^ 23 % 2 ^ 8 = 0 then b / 2 ^ 31 * 2 ^ 31 else b) ∧
  ∀ q c v : Nat, q < 16 → qn4Expand q c v = roundTo bf16 0 false (mulF (mulF (decodeF bf16
    ([0xBF80, 0xBF32, 0xBF06, 0xBEC8, 0xBE90, 0xBE38, 0xBDB8, 0x0000, 0x3DA0, 0x3E20, 0x3E78, 0x3EAE, 0x3EE8, 0x3F16, 0x3F42, 0x3F80].getD q 0))
    (.fin false c (-7))) (decodeF f32 v))) ∧
  ((∀ (s : Bool) (n : Nat) (e : Int),
    let x := ratOf s n e
    let z := fun (m : Nat) => (roundInt m s n e : ℚ)
    |x - z 0| ≤ 1 / 2 ∧ (|x - z 0| = 1 / 2 → roundInt 0 s n e % 2 = 0) ∧
    |z 1| ≤ |x| ∧ |x| < |z 1| + 1 ∧ 0 ≤ x * z 1 ∧ x ≤ z 2 ∧ z 2 < x + 1 ∧ z 3 ≤ x ∧ x < z 3 + 1) ∧
  ∀ f ∈ [f64, f32, f16, bf16, e4m3, e5m2], ∀ (m : Nat) (sat s : Bool) (e : Int), m < 4 →
    roundTo f m sat .nan = f.nan ∧ roundTo f m sat (.fin s 0 e) = withSign f s 0 ∧
    roundTo f m sat (.inf s) = withSign f s (if sat ∨ f = e4m3 then f.maxFin else f.maxFin + 1) ∧
    ∀ n : Nat, n ≠ 0 →
      let q := max ((Nat.log2 n : Int) + e) f.emin - f.p + 1
      let y := (roundInt m s n (e - q)).natAbs
      let top := match decodeF f f.maxFin with
        | .fin _ a d => ratOf false a d
        | _ => 0
      let r := roundTo f m sat (.fin s n e)
      (ratOf false y q ≤ top → r < 2 ^ f.width ∧ ∃ a d, decodeF f r = .fin s a d ∧ ratOf s a d = ratOf s y q) ∧
      (top < ratOf false y q →
        r = withSign f s (if sat ∨ f = e4m3 ∨ m = 1 ∨ (m = 2 ∧ s = true) ∨ (m = 3 ∧ s = false) then f.maxFin else f.maxFin + 1))) ∧
  ((∀ (s t : Bool) (n k : Nat) (e d : Int) (m : Nat),
    let a := FVal.fin s n e
    let b := FVal.fin t k d
    let x := ratOf s n e
    let y := ratOf t k d
    (∃ u c g, mulF a b = .fin u c g ∧ ratOf u c g = x * y ∧ u = (s != t)) ∧
    (∃ u c g, addF m a b = .fin u c g ∧ ratOf u c g = x + y ∧ (c = 0 → u = if n = 0 ∧ k = 0 ∧ s = t then s else m == 3)) ∧
    (∃ u c g, negF a = .fin u c g ∧ ratOf u c g = -x ∧ u = !s) ∧
    (k ≠ 0 → n ≠ 0 → ∃ c g, divF a b = .fin (s != t) c g ∧ 2 ^ 80 ≤ c ∧ (c % 2 = 0 → ratOf (s != t) c g = x / y) ∧
      (c % 2 = 1 → |x / y - ratOf (s != t) c g| < 2 ^ g)) ∧
    (k ≠ 0 → n = 0 → ∃ g, divF a b = .fin (s != t) 0 g) ∧ (k = 0 → divF a b = if n = 0 then .nan else .inf (s != t)) ∧
    (n ≠ 0 → ∃ c g, sqrtF (.fin false n e) = .fin false c g ∧ 2 ^ 80 ≤ c ∧ (c % 2 = 0 → ratOf false c g ^ 2 = ratOf false n e) ∧
      (c % 2 = 1 → ratOf false (c - 1) g ^ 2 < ratOf false n e ∧ ratOf false n e < ratOf false (c + 1) g ^ 2)) ∧
    (n ≠ 0 → sqrtF (.fin true n e) = .nan) ∧ (∃ g, sqrtF (.fin s 0 e) = .fin s 0 g) ∧
    mulF (.inf s) b = (if k = 0 then .nan else .inf (s != t)) ∧ mulF b (.inf s) = (if k = 0 then .nan else .inf (t != s)) ∧
    addF m (.inf s) b = .inf s ∧ addF m b (.inf s) = .inf s ∧ divF (.inf s) b = .inf (s != t) ∧ ∃ g, divF b (.inf s) = .fin (t != s) 0 g) ∧
  (∀ (s t : Bool) (m : Nat), mulF (.inf s) (.inf t) = .inf (s != t) ∧ addF m (.inf s) (.inf t) = (if s = t then .inf s else .nan) ∧
    divF (.inf s) (.inf t) = .nan ∧ negF (.inf s) = .inf (!s)) ∧
  sqrtF (.inf false) = .inf false ∧ sqrtF (.inf true) = .nan ∧ sqrtF .nan = .nan ∧ negF .nan = .nan ∧
  ∀ (a : FVal) (m : Nat), mulF .nan a = .nan ∧ mulF a .nan = .nan ∧ addF m .nan a = .nan ∧ addF m a .nan = .nan ∧ divF .nan a = .nan ∧
    divF a .nan = .nan)

/-- R54, R55, R219, R44, R220 to R222, R47: The predicate instructions write four bits of their destination in each executing lane, and `vpget` writes the four bits of a predicate to a lane register; a write of m0 is discarded. The mask stack, the summary of a condition and the mask as a predicate. `mpush` keeps the old mask on the stack and narrows the mask by the condition, `melse` takes the other lanes of the top mask, `mpop` restores it; a push on a full stack and an `melse` or `mpop` on an empty one raise the mask-stack trap and change neither mask nor stack. -/
def Obligations.MaskAndPredicates : Prop :=
  ((∀ (s : State) (g : Nat) (x : PredBin), LaneRuns s g →
    let y := group s g
    ∀ p ∈ [(Instr.vpand x, fun a b => a &&& b), (.vpor x, fun a b => a ||| b), (.vpxor x, fun a b => a ^^^ b), (.vpandn x, fun a b => a &&& ~~~b)],
      exec p.1 s = .next (laneNext s g (putNibbles y x.d (execLanes y x.c.pred x.c.neg)
        (List.zipWith p.2 (mreg y x.a.toNat) (mreg y x.b.toNat))) x.c.rep.toNat)) ∧
  (∀ (s : State) (g : Nat) (x : PredUn), LaneRuns s g →
    let y := group s g
    exec (.vpnot x) s = .next (laneNext s g (putNibbles y x.d (execLanes y x.c.pred x.c.neg)
      ((mreg y x.a.toNat).map fun n => ~~~n)) x.c.rep.toNat)) ∧
  (∀ (s : State) (g : Nat) (x : PredSet), LaneRuns s g →
    let y := group s g
    exec (.vpset x) s = .next (laneNext s g (putNibbles y x.d (execLanes y x.c.pred x.c.neg) (List.replicate 128 x.n)) x.c.rep.toNat)) ∧
  (∀ (s : State) (g : Nat) (x : PredGet), LaneRuns s g →
    let y := group s g
    Below s g (regs false x.d x.c.stepD y.lane.rep) [] →
    exec (.vpget x) s = .next (laneNext s g (putLanes y (regNo x.d x.c.stepD 1 y.lane.rep) (execLanes y x.c.pred x.c.neg)
      ((mreg y x.a.toNat).map fun n => n.zeroExtend 32)) x.c.rep.toNat)) ∧
  (∀ (s : State) (g : Nat) (x : PredMov), LaneRuns s g →
    let y := group s g
    Below s g (regs false x.a x.c.stepA y.lane.rep) [] →
    let nonzero := fun (v : LWord) => BitVec.ofNat 4 (((List.range 4).map fun j => if v.extractLsb' (8 * j) 8 = 0 then 0 else 2 ^ j).sum)
    ∀ p ∈ [(Instr.vpmov x, fun (v : LWord) => v.setWidth 4), (.vpnz x, nonzero)],
      exec p.1 s = .next (laneNext s g (putNibbles y x.d (execLanes y x.c.pred x.c.neg)
        ((vreg y (regNo x.a x.c.stepA 1 y.lane.rep)).map p.2)) x.c.rep.toNat)) ∧
  ∀ (x : Group) (ex : List Bool) (v : List (BitVec 4)), (putNibbles x 0 ex v).r = x.r) ∧
  (∀ (s : State) (g : Nat), LaneRuns s g → (group s g).trace.bit = false →
    let y := group s g
    let hold := fun (p : PReg) (neg : Bool) i => ((mreg y p.toNat).getD i 0).getLsbD 0 != neg
    let after := fun m st => laneNext s g { y with lane := { y.lane with mask := m, stack := st } } 0
    let trap := fun c => pendingDone s g (mkRec 1 c (accessByte false false false 1) y.lane.lpc)
    (∀ x : PushArgs, y.lane.stack.length < Config.maskDepth → (mreg y x.pred.toNat).length = 128 →
      ∃ m, exec (.mpush x) s = .next (after m (y.lane.mask :: y.lane.stack)) ∧
        ∀ i < 128, m.getLsbD i = (y.lane.mask.getLsbD i && hold x.pred x.neg i)) ∧
    (∀ x : PushArgs, Config.maskDepth ≤ y.lane.stack.length → Faultable s g → exec (.mpush x) s = .next (trap 0)) ∧
    (∀ m st, y.lane.stack = m :: st →
      exec .melse s = .next (after (m &&& ~~~y.lane.mask) (m :: st)) ∧ exec .mpop s = .next (after m st)) ∧
    (y.lane.stack = [] → Faultable s g → exec .melse s = .next (trap 1) ∧ exec .mpop s = .next (trap 1)) ∧
    (∀ x : TestArgs, (mreg y x.pred.toNat).length = 128 →
      let active := (List.range 128).filter fun i => y.lane.mask.getLsbD i
      let n := (active.filter (hold x.pred x.neg)).length
      exec (.vtest x) s = .next (laneNext s g (setLaneScalar y x.d
        (BitVec.ofNat 64 (n * 2 ^ 32 + (if n = active.length then 2 else 0) + if n = 0 then 0 else 1))) 0)) ∧
    ∀ x : MaskmArgs, exec (.vmaskm x) s = .next (laneNext s g (putMreg y x.d true
      ((List.range 128).map fun i => if y.lane.mask.getLsbD i then 15 else 0)) x.c.rep.toNat))

/-- R223, R224, R227, R225, R226, R228, R229: The shuffles and the broadcast move values between the lanes of a sub-group of W lanes; a lane whose source lies outside keeps its own value and marks it in the out-of-range predicate. Reductions by a fixed butterfly over the executing lanes with the identity elsewhere, scans in ascending lane order, ballots and matches, within sub-groups of W lanes. -/
def Obligations.CrossLaneResults : Prop :=
  ((∀ (s : State) (g : Nat) (x : ShflArgs), LaneRuns s g →
    let y := group s g
    let j := y.lane.rep
    let n := if x.pair then 2 else 1
    let w := match x.w with | some k => 2 ^ k.toNat | none => 128
    let a := vsrc y x.pair (regNo x.a x.c.stepA n j)
    let b := fun i => ((srcInt y false false x.b x.c.stepB j).getD i 0).toNat
    let ex := execLanes y x.c.pred x.c.neg
    Below s g (regs x.pair x.d x.c.stepD j ++ regs x.pair x.a x.c.stepA j ++ srcRegs false x.b x.c.stepB j) [] →
    let moves : List (Instr × (Nat → Nat → Int)) :=
      [(.vshflIdx x, fun _ k => k), (.vshflUp x, fun r k => (r : Int) - k), (.vshflDown x, fun r k => r + k), (.vshflXor x, fun r k => (r ^^^ k : Nat))]
    ∀ p ∈ moves,
      let pos := fun i => p.2 (i % w) (b i)
      let out := fun i => decide (pos i < 0 ∨ (w : Int) ≤ pos i)
      let moved := putWide y x.pair (regNo x.d x.c.stepD n j) ex ((List.range 128).map fun i =>
        if out i then a.getD i 0 else a.getD (i - i % w + (pos i).toNat) 0)
      exec p.1 s = .next (laneNext s g (match x.k with
        | some k => putNibbles moved k ex ((List.range 128).map fun i => if out i then 15 else 0)
        | none => moved) x.c.rep.toNat)) ∧
  ∀ (s : State) (g : Nat) (x : BcastArgs), LaneRuns s g →
    let y := group s g
    let j := y.lane.rep
    let n := if x.pair then 2 else 1
    let w := match x.w with | some k => 2 ^ k.toNat | none => 128
    let a := vsrc y x.pair (regNo x.a x.c.stepA n j)
    ∀ k, (x.b = .imm k ∨ ∃ r, x.b = .scal r ∧ k = (captured y r).setWidth 32) →
      (k.toNat < w → Below s g (regs x.pair x.d x.c.stepD j ++ regs x.pair x.a x.c.stepA j) [] →
        exec (.vbcast x) s = .next (laneNext s g (putWide y x.pair (regNo x.d x.c.stepD n j) (execLanes y x.c.pred x.c.neg)
          ((List.range 128).map fun i => a.getD (i - i % w + k.toNat) 0)) x.c.rep.toNat)) ∧
      (w ≤ k.toNat → Below s g (regs x.pair x.d x.c.stepD j ++ regs x.pair x.a x.c.stepA j) [] → Faultable s g →
        exec (.vbcast x) s = .next (pendingDone s g (illegalLaneRec s g 5 1)))) ∧
  (∀ (s : State) (g : Nat), LaneRuns s g →
    let y := group s g
    let j := y.lane.rep
    let number := fun n (f : Nat → Bool) => ((List.range n).map fun k => if f k then 2 ^ k else 0).sum
    (∀ x : LredArgs, Below s g [regNo x.a x.c.stepA 1 j] [] →
      let f := redFold x.op
      let w := match x.w with | some k => k.toNat | none => 7
      let ex := execLanes y x.c.pred x.c.neg
      let v := butterfly (foldOp f x.sg) w 1 (List.zipWith (fun e v => if e then v else foldId f x.sg) ex (vreg y (regNo x.a x.c.stepA 1 j)))
      (∀ d, x.d = .lanes d → Below s g [regNo d x.c.stepD 1 j] [] →
        exec (.vlred x) s = .next (laneNext s g (putLanes y (regNo d x.c.stepD 1 j) ex v) x.c.rep.toNat)) ∧
      (∀ d, x.d = .scalar d → exec (.vlred x) s = .next (laneNext s g
        (setLaneScalar y d (if x.sg then (v.headD 0).signExtend 64 else (v.headD 0).zeroExtend 64)) x.c.rep.toNat))) ∧
    (∀ x : ScanArgs, Below s g [regNo x.d x.c.stepD 1 j, regNo x.a x.c.stepA 1 j] [] →
      let f := scanFold x.op
      let w := match x.w with | some k => 2 ^ k.toNat | none => 128
      let ex := execLanes y x.c.pred x.c.neg
      let a := vreg y (regNo x.a x.c.stepA 1 j)
      ∃ v, exec (.vscan x) s = .next (laneNext s g (putLanes y (regNo x.d x.c.stepD 1 j) ex v) x.c.rep.toNat) ∧
        (a.length = 128 → ex.length = 128 → ∀ i < 128, ex.getD i false = true → v.getD i 0 =
          (((List.range (if x.excl then i % w else i % w + 1)).map (i - i % w + ·)).filter fun k => ex.getD k false).foldl
            (fun acc k => foldOp f x.sg acc (a.getD k 0)) (foldId f x.sg))) ∧
    (∀ x : BallotArgs,
      let ex := execLanes y x.c.pred x.c.neg
      let w := match x.w with | some k => 2 ^ k.toNat | none => 128
      (mreg y x.k.toNat).length = 128 → ex.length = 128 →
      let hit := fun i => ex.getD i false && (((mreg y x.k.toNat).getD i 0).getLsbD 0 != x.negSrc)
      (∀ d, x.d = .lanes d → Below s g [regNo d x.c.stepD 1 j] [] →
        exec (.vballot x) s = .next (laneNext s g (putLanes y (regNo d x.c.stepD 1 j) ex
          ((List.range 128).map fun i => BitVec.ofNat 32 (number w fun k => hit (i - i % w + k)))) x.c.rep.toNat)) ∧
      (∀ d, x.d = .scalar d → exec (.vballot x) s = .next (laneNext s g
        (setLaneScalar y d (BitVec.ofNat 64 (number 64 fun k => hit ((if x.h then 64 else 0) + k)))) x.c.rep.toNat))) ∧
    ∀ x : MatchArgs, Below s g (regNo x.d x.c.stepD 1 j :: regs x.pair x.a x.c.stepA j) [] →
      let w := match x.w with | some k => 2 ^ k.toNat | none => 128
      let ex := execLanes y x.c.pred x.c.neg
      let v := fun i => (vsrc y x.pair (regNo x.a x.c.stepA (if x.pair then 2 else 1) j)).getD i 0
      let same := fun a b => if x.flt && !x.bits then cmpF 0 (decodeF (fpFmt x.pair) (v a).toNat) (decodeF (fpFmt x.pair) (v b).toNat) else v a == v b
      exec (.vmatch x) s = .next (laneNext s g (putLanes y (regNo x.d x.c.stepD 1 j) ex ((List.range 128).map fun i =>
        BitVec.ofNat 32 (number w fun k => ex.getD (i - i % w + k) false && same i (i - i % w + k)))) x.c.rep.toNat))

/-- R225: A wrapping-add reduction over a sub-group leaves in every executing lane the sum, modulo 2^32, of the values of the sub-group's executing lanes, whatever the order of the butterfly. -/
def Obligations.ReductionSums : Prop :=
  ∀ (s : State) (g : Nat) (x : LredArgs) (d : VReg), LaneRuns s g → x.op = 0 → x.d = .lanes d →
    let y := group s g
    let n := regNo d x.c.stepD 1 y.lane.rep
    let ex := execLanes y x.c.pred x.c.neg
    let a := vreg y (regNo x.a x.c.stepA 1 y.lane.rep)
    let w := match x.w with | some k => 2 ^ k.toNat | none => 128
    n < 256 → Below s g [n, regNo x.a x.c.stepA 1 y.lane.rep] [] → a.length = 128 → ex.length = 128 → (vreg y n).length = 128 →
    ∃ t, exec (.vlred x) s = .next t ∧ ∀ i < 128, ex.getD i false = true →
      (vreg (group t g) n).getD i 0 = ((((List.range w).map (i - i % w + ·)).filter fun k => ex.getD k false).map fun k => a.getD k 0).sum

/-- R230 to R235, R106, R241: The lane loads. Each executing lane reads the bytes at its own address, contiguous or indexed, and its registers take the value, extended to 32 bits under its kind; a `.ro` load reads what memory held at its issue, partial sums merged (log 9); the loads counter counts the instruction until it is performed. An acquire and a release act as the plain form in the model's order of accesses (log 1). A prefetch moves no data and takes no fault: it advances the lane stream whatever its addresses are. The line of an executing lane whose page the TLB translates comes, and a `.ro` form brings it into the core's read-only L1; a line whose page has no translation is asked for through a walk. That a line that would fault is dropped is the model's choice (log 9). -/
def Obligations.LaneLoads : Prop :=
  (∀ (s : State) (g : Nat),
    let y := group s g
    let j := y.lane.rep
    let loads := fun (i : Instr) (c : LaneCtl) (m : MemCtl) (base : Word) (names dst : List Nat) (n : Nat) (addr : Nat → Word)
        (value : Nat → List Byte → Nat) =>
      LaneMemRuns s g m base → Below s g names [] → (∀ r ∈ dst, (vreg y r).length = 128) →
      (m.sp = true → (∀ k < 128, executes y c k = true → LaneScratchReady s g (addr k) n) →
        ∃ t, exec i s = .next t ∧ LaneMemDone s t g c.rep.toNat 1 0 ∧ t.mem = s.mem ∧ (group t g).r.q = y.r.q ∧
          LanesLoaded y (group t g) (executes y c) dst fun k => value k (scratchRead (ownTeam s g) (addr k).toNat n)) ∧
      (m.sp = false → ∀ e : Nat → TlbEntry, (∀ k < 128, executes y c k = true → LaneMemReady s g 1 (addr k) n (e k)) →
        ∃ t, exec i s = .next t ∧ LaneMemDone s t g c.rep.toNat 1 0 ∧ t.mem = s.mem ∧ (group t g).r.q = y.r.q ∧
          LanesLoaded y (group t g) (executes y c) dst fun k =>
            value k (mread (if m.ro && !hostWindow (addr k) then mergedMem s else s.mem) (leafFlat (e k).leaf (e k).level (addr k)) n))
    let width := fun (k : BitVec 3) => [4, 4, 8, 8, 16, 16, 32, 64].getD k.toNat 0
    let extended := fun (k : BitVec 3) (v : Nat) => if k = 1 ∨ k = 3 ∨ k = 5 then (sext (width k) v % 2 ^ 32).toNat else v
    let nib := fun odd (bs : List Byte) => ofLe bs / (if odd then 16 else 1) % 16
    let off := fun (o : BitVec 32) => (o.signExtend 64 : Word)
    (∀ x : ContArgs,
      let w := width x.kind
      let base := captured y x.base + off x.off
      let dst := regs (w == 64) x.r x.c.stepD j
      loads (.vld x) x.c x.m base dst dst (max 1 (w / 8)) (fun k => base + BitVec.ofNat 64 (if w = 4 then k / 2 else k * (w / 8)))
        fun k bs => extended x.kind (if w = 4 then nib (k % 2 == 1) bs else ofLe bs)) ∧
    (∀ x : ContArgs,
      let base := captured y x.base + off x.off
      let r := regNo x.r x.c.stepD 1 j
      loads (.vldq x) x.c x.m base [r, r + 1, r + 2, r + 3] [r, r + 1, r + 2, r + 3] 16 (fun k => base + BitVec.ofNat 64 (16 * k)) fun _ bs => ofLe bs) ∧
    ∀ x : IdxArgs, (x.a64 = true → x.m.sp = false) →
      let w := width x.kind
      let dst := regs (w == 64) x.r x.c.stepD j
      let idx := regs x.a64 x.a x.c.stepA j
      let v := fun k => (vreg y (idx.headD 0)).getD k 0
      (vreg y (idx.headD 0)).length = 128 ∧ (x.a64 = true → w ≠ 4 ∧ (vreg y (idx.headD 0 + 1)).length = 128) →
      loads (.vldx x) x.c x.m (if x.a64 then 0 else captured y x.base) (dst ++ idx) dst (max 1 (w / 8))
        (fun k => if x.a64 then (vreg y (idx.headD 0 + 1)).getD k 0 ++ v k
          else if w = 4 then captured y x.base + ((v k).sshiftRight 1).signExtend 64 else captured y x.base + off (v k) * BitVec.ofNat 64 (2 ^ x.scale.toNat))
        fun k bs => extended x.kind (if w = 4 then nib ((v k).getLsbD 0) bs else ofLe bs)) ∧
  (∀ (s : State) (g : Nat), LaneRuns s g → Unsampled s g →
    let y := group s g
    let c := coreOf s g
    let l := launchOf s g
    let fetches := fun (i : Instr) (ctl : LaneCtl) (ro : Bool) (names : List Nat) (addr : Nat → Word) =>
      Below s g names [] →
      ∃ t, exec i s = .next t ∧ t.mem = s.mem ∧ (∀ h, group t h = if h = g then { y with lane := advanceLane y.lane ctl.rep.toNat } else group s h) ∧
        ∀ k < 128, executes y ctl k = true →
          let va := addr k &&& ~~~127
          let found := tlbFind (die s (ownerOf va)) (partOf s g) (descOf s g).asn (pageOf va)
          addressFault (descOf s g).mask va 1 = none → (ro = true → hostWindow va = false) → (∀ f ∈ s.work.faults, f.1 ≠ .pref c l va) →
          Reached s (whoOf s g (.pref c l va)) va 1 →
          (found = none → (l, va, ro) ∈ (core t c).want ∧ waiting t (.pref c l va) = true) ∧
          (∀ e, found = some e → leafPermits e.leaf 1 = true → (hostWindow va = true ∨ (die s (ownerOf va)).carve = none) →
            (l, va, ro) ∉ (core t c).want ∧ (ro = true → (l, va.toNat / 128) ∈ (core t c).ro))
    (∀ x : PrefArgs, fetches (.vpref x) x.c x.ro [] fun k => captured y x.base + (x.off.signExtend 64 : Word) + BitVec.ofNat 64 k) ∧
    ∀ x : PrefxArgs,
      let idx := regs x.a64 x.a x.c.stepA y.lane.rep
      let v := fun k => (vreg y (idx.headD 0)).getD k 0
      (∀ r ∈ idx, (vreg y r).length = 128) →
      fetches (.vprefx x) x.c x.ro idx fun k => if x.a64 then (vreg y (idx.headD 0 + 1)).getD k 0 ++ v k
        else captured y x.base + ((v k).signExtend 64 : Word) * BitVec.ofNat 64 (2 ^ x.scale.toNat))

/-- R230 to R235, R183, R238 to R240, R255: The lane stores. Each executing lane writes the low bytes of its registers at its own address, where lanes meet the highest writes; every other byte keeps its value and no register changes; the stores counter counts the instruction until it is performed. A contiguous store to the scratchpad keeps the tagged bytes of a barrier or booth header that it meets and writes the others; with its last issue the group takes the barrier-clobber record of the lowest such lane, with its lowest tagged byte and the number of such lanes, past the instruction (R237). An acquire and a release act as the plain form in the model's order of accesses (log 1). The lane atomics and the slot updates act lane by lane in ascending order, each as one step on what the lower lanes have left; `vamo` leaves each lane its old value. -/
def Obligations.LaneStores : Prop :=
  (∀ (s : State) (g : Nat),
    let y := group s g
    let j := y.lane.rep
    let word := fun r k => ((vreg y r).getD k 0).toNat
    let stores := fun (i : Instr) (c : LaneCtl) (m : MemCtl) (base : Word) (names : List Nat) (w n : Nat) (addr : Nat → Word) (odd : Nat → Bool)
        (data : Nat → Nat) =>
      LaneMemRuns s g m base → Below s g names [] →
      (m.sp = true → (∀ k < 128, executes y c k = true → LaneScratchReady s g (addr k) n ∧ Untagged (ownTeam s g) (addr k).toNat n) →
        ∃ t, exec i s = .next t ∧ LaneMemDone s t g c.rep.toNat 0 1 ∧ t.mem = s.mem ∧ (group t g).r = y.r ∧
          LanesStored y c (executes y c) n (w == 4) (fun k => if odd k then 1 else 0) (fun k => (addr k).toNat) data (tget 0 (ownTeam s g).scratch)
            (tget 0 (ownTeam t g).scratch)) ∧
      (m.sp = false → ∀ e : Nat → TlbEntry, (∀ k < 128, executes y c k = true → LaneMemReady s g 2 (addr k) n (e k)) →
        ∃ t, exec i s = .next t ∧ LaneMemDone s t g c.rep.toNat 0 1 ∧ (group t g).r = y.r ∧ t.work.teams = s.work.teams ∧
          LanesStored y c (executes y c) n (w == 4) (fun k => if odd k then 1 else 0) (fun k => leafFlat (e k).leaf (e k).level (addr k)) data (mbyte s.mem) (mbyte t.mem))
    let width := fun (k : BitVec 3) => [4, 8, 16, 32, 64].getD k.toNat 0
    let off := fun (o : BitVec 32) => (o.signExtend 64 : Word)
    (∀ x : ContArgs, x.kind.toNat < 5 →
      let w := width x.kind
      let base := captured y x.base + off x.off
      let r := regNo x.r x.c.stepC (if w = 64 then 2 else 1) j
      stores (.vst x) x.c x.m base (regs (w == 64) x.r x.c.stepC j) w (max 1 (w / 8))
        (fun k => base + BitVec.ofNat 64 (if w = 4 then k / 2 else k * (w / 8))) (fun k => k % 2 == 1)
        fun k => word r k + if w = 64 then 2 ^ 32 * word (r + 1) k else 0) ∧
    (∀ (x : ContArgs) (p : Instr × List Nat × Nat),
      let base := captured y x.base + off x.off
      let w := width x.kind
      let r := regNo x.r x.c.stepC 1 j
      let team_ := ownTeam s g
      let at_ := fun k => (base + BitVec.ofNat 64 (k * p.2.2)).toNat
      let data := fun k => (p.2.1.zipIdx.map fun e => 2 ^ (32 * e.2) * word e.1 k).sum
      let hit := fun k => executes y x.c k && (List.range p.2.2).any fun b => tagAt team_ (at_ k + b) != 0
      (p = (.vst x, regs (w == 64) x.r x.c.stepC j, w / 8) ∧ 1 ≤ x.kind.toNat ∧ x.kind.toNat < 5 ∨ p = (.vstq x, [r, r + 1, r + 2, r + 3], 16)) →
      LaneMemRuns s g x.m base → Below s g p.2.1 [] → x.m.sp = true → y.handler = none → y.pend.stream = none → x.c.rep.toNat ≤ y.lane.rep →
      (∀ k < 128, executes y x.c k = true → LaneScratchReady s g (base + BitVec.ofNat 64 (k * p.2.2)) p.2.2) → (∃ k < 128, hit k = true) →
      ∃ t rec_, exec p.1 s = .next t ∧ LaneMemLeft s t g 0 1 ∧ (group t g).r = y.r ∧ t.mem = s.mem ∧ (group t g).lane.lpc = y.lane.lpc + 12 ∧
        (group t g).pend.stream = some rec_ ∧ (group t g).pend.order = y.pend.order ++ [0] ∧ rec_.cls = 9 ∧ rec_.cause = 0 ∧
        rec_.aux.toNat = (List.range 128).countP hit ∧
        (∀ k, (List.range 128).find? hit = some k → rec_.lane.toNat = k ∧
          (List.range p.2.2).find? (fun b => tagAt team_ (at_ k + b) != 0) = some (rec_.addr.toNat - at_ k)) ∧
        (∀ a, tagAt team_ a ≠ 0 ∨ (∀ k < 128, executes y x.c k = true → a < at_ k ∨ at_ k + p.2.2 ≤ a) →
          tget 0 (ownTeam t g).scratch a = tget 0 team_.scratch a) ∧
        ∀ k < 128, executes y x.c k = true → ∀ b < p.2.2, tagAt team_ (at_ k + b) = 0 →
          tget 0 (ownTeam t g).scratch (at_ k + b) = BitVec.ofNat 8 (data k / 256 ^ b)) ∧
    (∀ x : ContArgs,
      let base := captured y x.base + off x.off
      let r := regNo x.r x.c.stepC 1 j
      stores (.vstq x) x.c x.m base [r, r + 1, r + 2, r + 3] 128 16 (fun k => base + BitVec.ofNat 64 (16 * k)) (fun _ => false)
        fun k => word r k + 2 ^ 32 * word (r + 1) k + 2 ^ 64 * word (r + 2) k + 2 ^ 96 * word (r + 3) k) ∧
    ∀ x : IdxArgs, x.kind.toNat < 5 →
      let w := width x.kind
      let r := regNo x.r x.c.stepC (if w = 64 then 2 else 1) j
      let idx := regs x.a64 x.a x.c.stepA j
      let v := fun k => (vreg y (idx.headD 0)).getD k 0
      (vreg y (idx.headD 0)).length = 128 ∧ (x.a64 = true → w ≠ 4 ∧ x.m.sp = false ∧ (vreg y (idx.headD 0 + 1)).length = 128) →
      stores (.vstx x) x.c x.m (if x.a64 then 0 else captured y x.base) (regs (w == 64) x.r x.c.stepC j ++ idx) w (max 1 (w / 8))
        (fun k => if x.a64 then (vreg y (idx.headD 0 + 1)).getD k 0 ++ v k
          else if w = 4 then captured y x.base + ((v k).sshiftRight 1).signExtend 64 else captured y x.base + off (v k) * BitVec.ofNat 64 (2 ^ x.scale.toNat))
        (fun k => (v k).getLsbD 0) fun k => word r k + if w = 64 then 2 ^ 32 * word (r + 1) k else 0) ∧
  (∀ (s : State) (g : Nat),
    let y := group s g
    let j := y.lane.rep
    let before := fun (c : LaneCtl) k => (List.range k).filter fun i => executes y c i
    let addr := fun (a64 : Bool) (scale : BitVec 2) (base : CReg) (idx : List Nat) k =>
      let v := (vreg y (idx.headD 0)).getD k 0
      if a64 then (vreg y (idx.headD 0 + 1)).getD k 0 ++ v else captured y base + (v.signExtend 64 : Word) * BitVec.ofNat 64 (2 ^ scale.toNat)
    let full := fun r => (vreg y r).length = 128
    (∀ x : VAmoArgs,
      let n := if x.wide then 8 else 4
      let dst := if x.nr then [] else regs x.wide x.d x.c.stepD j
      let idx := regs x.a64 x.a x.c.stepA j
      let r := regNo x.x x.c.stepC (n / 4) j
      let src := (List.range (if x.op = 9 then n / 2 else n / 4)).map (r + ·)
      let at_ := addr x.a64 x.scale x.base idx
      let data := fun k i => (((vreg y (r + n / 4 * i)).getD k 0).toNat + if x.wide then 2 ^ 32 * ((vreg y (r + 2 * i + 1)).getD k 0).toNat else 0)
      let new := fun k old => atomicNew x.op.toNat (8 * n) old (data k 0) (if x.op = 9 then data k 1 else 0)
      LaneMemRuns s g x.m (if x.a64 then 0 else captured y x.base) → Below s g (dst ++ src ++ idx) [] → (∀ q ∈ dst ++ src ++ idx, full q) →
      (x.m.sp = true → x.a64 = false →
        (∀ k < 128, executes y x.c k = true → LaneScratchReady s g (at_ k) n ∧ Untagged (ownTeam s g) (at_ k).toNat n) →
        let upd := fun (m : Team) k => match new k (ofLe (scratchRead m (at_ k).toNat n)) with
          | some v => scratchPut m (at_ k).toNat (leBytes n v)
          | none => m
        ∃ t, exec (.vamo x) s = .next t ∧ LaneMemDone s t g x.c.rep.toNat (if x.nr then 0 else 1) 1 ∧ t.mem = s.mem ∧
          (ownTeam t g).scratch = ((before x.c 128).foldl upd (ownTeam s g)).scratch ∧
          LanesLoaded y (group t g) (executes y x.c) dst fun k => ofLe (scratchRead ((before x.c k).foldl upd (ownTeam s g)) (at_ k).toNat n)) ∧
      (x.m.sp = false → ∀ e : Nat → TlbEntry, (∀ k < 128, executes y x.c k = true → LaneMemReady s g 3 (at_ k) n (e k) ∧ (at_ k).toNat % n = 0) →
        let flat := fun k => leafFlat (e k).leaf (e k).level (at_ k)
        let upd := fun m k => match new k (ofLe (mread m (flat k) n)) with
          | some v => mwrite m (flat k) (leBytes n v)
          | none => m
        ∃ t, exec (.vamo x) s = .next t ∧ LaneMemDone s t g x.c.rep.toNat (if x.nr then 0 else 1) 1 ∧ t.mem = (before x.c 128).foldl upd s.mem ∧
          LanesLoaded y (group t g) (executes y x.c) dst fun k => ofLe (mread ((before x.c k).foldl upd s.mem) (flat k) n))) ∧
    ∀ x : QatomArgs,
      let idx := regs x.a64 x.a x.c.stepA j
      let at_ := addr x.a64 x.scale x.base idx
      let src := regs (ctypeWide (ctypeOf x.t)) x.x x.c.stepC j
      let q := regNo x.x x.c.stepC 1 j
      let raw := fun k => ((vreg y (src.headD 0)).getD k 0).toNat + if ctypeWide (ctypeOf x.t) then 2 ^ 32 * ((vreg y (src.headD 0 + 1)).getD k 0).toNat else 0
      (∀ r ∈ idx, full r) → LaneMemRuns s g x.m (if x.a64 then 0 else captured y x.base) →
      ∀ p ∈ [(Instr.vqatomAdd x, src, [], fun k a => laAdd a (valueC (ctypeOf x.t) (raw k)) (contributor s g)),
          (.vqatomMerge x, [], [q], fun k a => laMerge a ((qreg y q).getD k LA.zero))],
        Below s g (p.2.1 ++ idx) p.2.2.1 →
        (x.m.sp = true → x.a64 = false →
          (∀ k < 128, executes y x.c k = true → LaneScratchReady s g (at_ k) 128 ∧ Untagged (ownTeam s g) (at_ k).toNat 128) →
          let upd := fun (m : Team) k => scratchPut m (at_ k).toNat (laBytes (p.2.2.2 k (laOfBytes (scratchRead m (at_ k).toNat 128))))
          ∃ t, exec p.1 s = .next t ∧ LaneMemDone s t g x.c.rep.toNat 0 1 ∧ t.mem = s.mem ∧ (group t g).r = y.r ∧
            (ownTeam t g).scratch = ((before x.c 128).foldl upd (ownTeam s g)).scratch) ∧
        (x.m.sp = false → ∀ e : Nat → TlbEntry, (∀ k < 128, executes y x.c k = true → LaneMemReady s g 3 (at_ k) 128 (e k) ∧ (at_ k).toNat % 128 = 0) →
          let flat := fun k => leafFlat (e k).leaf (e k).level (at_ k)
          let upd := fun m k => mwrite m (flat k) (laBytes (p.2.2.2 k (laOfBytes (mread m (flat k) 128))))
          ∃ t, exec p.1 s = .next t ∧ LaneMemDone s t g x.c.rep.toNat 0 1 ∧ (group t g).r = y.r ∧ t.mem = (before x.c 128).foldl upd s.mem))

/-- R46, R47, R97, R100, R232, R236, R333, R382, R403: The lanes of a load, a store or an atomic whose access takes a record at once, misaligned or beyond S in the scratchpad, at an address that is none or misaligned where an atomic must be aligned in virtual memory, are parked with their records: they load and store nothing and keep their registers. The other lanes are served; the lane stream goes on past the instruction, and the replay point is the instruction. An access to virtual memory that waits for its pages, when the walks for all of them have ended with a cause. The lanes that it still has to serve are parked with their page faults, or with the address fault where the request of another chip was not delivered, the others having been served; nothing else changes in memory, in a scratchpad or in a register. -/
def Obligations.LanesPark : Prop :=
  (∀ (s : State) (g : Nat),
    let y := group s g
    let j := y.lane.rep
    let word := fun r k => ((vreg y r).getD k 0).toNat
    let full := fun r => (vreg y r).length = 128
    let refused := fun (c : LaneCtl) (m : MemCtl) (strict : Bool) (n : Nat) (addr : Nat → Word) (k : Nat) =>
      if executes y c k then (laneRefused s g m.sp strict n (addr k)).map fun e => (e.1, 0, e.2) else none
    let parks := fun (i : Instr) (c : LaneCtl) (m : MemCtl) (base : Word) (names : List Nat) (strict : Bool) (acc : BitVec 3) (n : Nat)
        (addr : Nat → Word) (loads stores : Nat) (effect : State → (Nat → TlbEntry) → (Nat → Bool) → Prop) =>
      let bad := refused c m strict n addr
      let served := fun k => executes y c k && (bad k).isNone
      ∀ e : Nat → TlbEntry, LaneMemRuns s g m base → Below s g names [] → (∀ r ∈ names, full r) → y.handler = none → y.trace.bit = false →
      (∃ k < 128, (bad k).isSome = true) →
      (∀ k < 128, served k = true → if m.sp then acc.getLsbD 1 = true → Untagged (ownTeam s g) (addr k).toNat n
        else LaneMemReady s g acc (addr k) n (e k)) →
      ∃ t, exec i s = .next t ∧ LaneMemLeft s t g loads stores ∧ LanesParked s t g c.rep.toNat bad ∧ effect t e served
    let held := fun (m : MemCtl) (a : Word) => if m.ro && !hostWindow a then mergedMem s else s.mem
    let read := fun (m : MemCtl) (n : Nat) (a : Word) (e : TlbEntry) =>
      if m.sp then scratchRead (ownTeam s g) a.toNat n else mread (held m a) (leafFlat e.leaf e.level a) n
    let loaded := fun (m : MemCtl) (dst : List Nat) (n : Nat) (addr : Nat → Word) (value : Nat → List Byte → Nat) (t : State)
        (e : Nat → TlbEntry) (served : Nat → Bool) =>
      t.mem = s.mem ∧ (group t g).r.q = y.r.q ∧ LanesLoaded y (group t g) served dst fun k => value k (read m n (addr k) (e k))
    let stored := fun (c : LaneCtl) (m : MemCtl) (n : Nat) (nib : Bool) (addr : Nat → Word) (odd : Nat → Bool) (data : Nat → Nat) (t : State)
        (e : Nat → TlbEntry) (served : Nat → Bool) =>
      let hi := fun k => if odd k then 1 else 0
      (group t g).r = y.r ∧
      if m.sp then t.mem = s.mem ∧ LanesStored y c served n nib hi (fun k => (addr k).toNat) data (tget 0 (ownTeam s g).scratch) (tget 0 (ownTeam t g).scratch)
      else t.work.teams = s.work.teams ∧
        LanesStored y c served n nib hi (fun k => leafFlat (e k).leaf (e k).level (addr k)) data (mbyte s.mem) (mbyte t.mem)
    let width := fun (k : BitVec 3) => [4, 4, 8, 8, 16, 16, 32, 64].getD k.toNat 0
    let widthS := fun (k : BitVec 3) => [4, 8, 16, 32, 64].getD k.toNat 0
    let extended := fun (k : BitVec 3) (v : Nat) => if k = 1 ∨ k = 3 ∨ k = 5 then (sext (width k) v % 2 ^ 32).toNat else v
    let nib := fun odd (bs : List Byte) => ofLe bs / (if odd then 16 else 1) % 16
    let off := fun (o : BitVec 32) => (o.signExtend 64 : Word)
    let pair := fun r w k => word r k + if w = 64 then 2 ^ 32 * word (r + 1) k else 0
    let indexed := fun (x : IdxArgs) (w : Nat) (k : Nat) =>
      let idx := regs x.a64 x.a x.c.stepA j
      let v := (vreg y (idx.headD 0)).getD k 0
      if x.a64 then (vreg y (idx.headD 0 + 1)).getD k 0 ++ v
      else if w = 4 then captured y x.base + (v.sshiftRight 1).signExtend 64 else captured y x.base + off v * BitVec.ofNat 64 (2 ^ x.scale.toNat)
    (∀ x : ContArgs,
      let w := width x.kind
      let base := captured y x.base + off x.off
      let dst := regs (w == 64) x.r x.c.stepD j
      let addr := fun k => base + BitVec.ofNat 64 (if w = 4 then k / 2 else k * (w / 8))
      parks (.vld x) x.c x.m base dst false 1 (max 1 (w / 8)) addr 1 0
        (loaded x.m dst (max 1 (w / 8)) addr fun k bs => extended x.kind (if w = 4 then nib (k % 2 == 1) bs else ofLe bs))) ∧
    (∀ x : ContArgs,
      let base := captured y x.base + off x.off
      let r := regNo x.r x.c.stepD 1 j
      let addr := fun k => base + BitVec.ofNat 64 (16 * k)
      parks (.vldq x) x.c x.m base [r, r + 1, r + 2, r + 3] false 1 16 addr 1 0 (loaded x.m [r, r + 1, r + 2, r + 3] 16 addr fun _ bs => ofLe bs)) ∧
    (∀ x : IdxArgs, (x.a64 = true → x.m.sp = false ∧ width x.kind ≠ 4) →
      let w := width x.kind
      let dst := regs (w == 64) x.r x.c.stepD j
      let idx := regs x.a64 x.a x.c.stepA j
      parks (.vldx x) x.c x.m (if x.a64 then 0 else captured y x.base) (dst ++ idx) false 1 (max 1 (w / 8)) (indexed x w) 1 0
        (loaded x.m dst (max 1 (w / 8)) (indexed x w) fun k bs =>
          extended x.kind (if w = 4 then nib (((vreg y (idx.headD 0)).getD k 0).getLsbD 0) bs else ofLe bs))) ∧
    (∀ x : ContArgs, x.kind.toNat < 5 →
      let w := widthS x.kind
      let base := captured y x.base + off x.off
      let addr := fun k => base + BitVec.ofNat 64 (if w = 4 then k / 2 else k * (w / 8))
      parks (.vst x) x.c x.m base (regs (w == 64) x.r x.c.stepC j) false 2 (max 1 (w / 8)) addr 0 1
        (stored x.c x.m (max 1 (w / 8)) (w == 4) addr (fun k => k % 2 == 1) (pair (regNo x.r x.c.stepC (if w = 64 then 2 else 1) j) w))) ∧
    (∀ x : ContArgs,
      let base := captured y x.base + off x.off
      let r := regNo x.r x.c.stepC 1 j
      let addr := fun k => base + BitVec.ofNat 64 (16 * k)
      parks (.vstq x) x.c x.m base [r, r + 1, r + 2, r + 3] false 2 16 addr 0 1
        (stored x.c x.m 16 false addr (fun _ => false) fun k => word r k + 2 ^ 32 * word (r + 1) k + 2 ^ 64 * word (r + 2) k + 2 ^ 96 * word (r + 3) k)) ∧
    (∀ x : IdxArgs, x.kind.toNat < 5 → (x.a64 = true → x.m.sp = false ∧ widthS x.kind ≠ 4) →
      let w := widthS x.kind
      let idx := regs x.a64 x.a x.c.stepA j
      parks (.vstx x) x.c x.m (if x.a64 then 0 else captured y x.base) (regs (w == 64) x.r x.c.stepC j ++ idx) false 2 (max 1 (w / 8)) (indexed x w) 0 1
        (stored x.c x.m (max 1 (w / 8)) (w == 4) (indexed x w) (fun k => ((vreg y (idx.headD 0)).getD k 0).getLsbD 0)
          (pair (regNo x.r x.c.stepC (if w = 64 then 2 else 1) j) w))) ∧
    ∀ x : VAmoArgs, (x.a64 = true → x.m.sp = false) →
      let n := if x.wide then 8 else 4
      let dst := if x.nr then [] else regs x.wide x.d x.c.stepD j
      let idx := regs x.a64 x.a x.c.stepA j
      let r := regNo x.x x.c.stepC (n / 4) j
      let src := (List.range (if x.op = 9 then n / 2 else n / 4)).map (r + ·)
      let at_ := fun k =>
        let v := (vreg y (idx.headD 0)).getD k 0
        if x.a64 then (vreg y (idx.headD 0 + 1)).getD k 0 ++ v else captured y x.base + off v * BitVec.ofNat 64 (2 ^ x.scale.toNat)
      let data := fun k i => (((vreg y (r + n / 4 * i)).getD k 0).toNat + if x.wide then 2 ^ 32 * ((vreg y (r + 2 * i + 1)).getD k 0).toNat else 0)
      let new := fun k old => atomicNew x.op.toNat (8 * n) old (data k 0) (if x.op = 9 then data k 1 else 0)
      parks (.vamo x) x.c x.m (if x.a64 then 0 else captured y x.base) (dst ++ src ++ idx) true 3 n at_ (if x.nr then 0 else 1) 1
        fun t e served =>
          let before := fun k => (List.range k).filter served
          if x.m.sp then
            let upd := fun (m : Team) k => match new k (ofLe (scratchRead m (at_ k).toNat n)) with
              | some v => scratchPut m (at_ k).toNat (leBytes n v)
              | none => m
            t.mem = s.mem ∧ (ownTeam t g).scratch = ((before 128).foldl upd (ownTeam s g)).scratch ∧
              LanesLoaded y (group t g) served dst fun k => ofLe (scratchRead ((before k).foldl upd (ownTeam s g)) (at_ k).toNat n)
          else
            let flat := fun k => leafFlat (e k).leaf (e k).level (at_ k)
            let upd := fun m k => match new k (ofLe (mread m (flat k) n)) with
              | some v => mwrite m (flat k) (leBytes n v)
              | none => m
            t.work.teams = s.work.teams ∧ t.mem = (before 128).foldl upd s.mem ∧
              LanesLoaded y (group t g) served dst fun k => ofLe (mread ((before k).foldl upd s.mem) (flat k) n)) ∧
  (∀ (s : State) (g : Nat) (a : LaneAcc) (cause : Nat → Nat),
    let y := group s g
    let va := fun k => (a.op.addrs.getD k (0, false)).1
    let bad := fun k => if a.left.getLsbD k then some (if cause k = causeUndelivered then (5, 0, va k) else (4, cause k, va k)) else none
    y.fly.lane = some a → a.op.sp = false → a.left ≠ 0 → a.left &&& a.exec = a.left → a.faults = [] → a.clobbers = [] → a.wrote = [] → y.lane.clob = [] →
    y.lane.park.fmask = 0 → y.lane.park.replaying = false → y.handler = none → y.trace.bit = false → Unsampled s g →
    (∀ k < 128, a.left.getLsbD k = true → addressFault (descOf s g).mask (va k) a.op.size = none ∧ (va k).toNat % a.op.size = 0 ∧
      bits (va k) 15 0 + a.op.size ≤ 0x10000 ∧ walkFault s (.lane g) (ownerOf (va k)) (pageOf (va k)) = some (cause k)) →
    ∃ t, exec (.homeRequest (.lane g)) s = .next t ∧ LanesParked s t g a.op.n bad ∧ t.mem = s.mem ∧ t.work.teams = s.work.teams ∧
      (group t g).r = y.r ∧ (group t g).fly.lane = none ∧ (∀ h, h ≠ g → group t h = group s h) ∧ ∀ f ∈ t.work.faults, f.1 ≠ .lane g)

/-- R255 to R259, R91, R92, R260: The long-accumulator instructions on registers. In each executing lane the slot takes zero, another slot, the merge, the normal form or the lane's contributions; `qred` leaves the merge of a sub-group's executing lanes in ascending order; `qrnd`, `qstat` and `qseg` write the rounded value, the status with low, and a segment. `qspill` writes the 128-byte record of each executing lane's slot and `qfill` reads it back into the slot. -/
def Obligations.LongAccumulatorResults : Prop :=
  (∀ (s : State) (g : Nat), LaneRuns s g →
    let y := group s g
    let j := y.lane.rep
    let rank := contributor s g
    (∀ x : QOne,
      let d := regNo x.d x.c.stepD 1 j
      Below s g [] [d] →
      ∀ p ∈ [(Instr.qzero x, List.replicate 128 LA.zero), (.qnorm x, (qreg y d).map laNorm)],
        exec p.1 s = .next (laneNext s g (putSlots y d (execLanes y x.c.pred x.c.neg) p.2) x.c.rep.toNat)) ∧
    (∀ x : QTwo,
      let d := regNo x.d x.c.stepD 1 j
      let a := regNo x.a x.c.stepA 1 j
      Below s g [] [d, a] →
      ∀ p ∈ [(Instr.qmov x, fun _ a => a), (.qmerge x, laMerge)],
        exec p.1 s = .next (laneNext s g (putSlots y d (execLanes y x.c.pred x.c.neg) (List.zipWith p.2 (qreg y d) (qreg y a))) x.c.rep.toNat)) ∧
    (∀ (i : Instr) (c : LaneCtl) (t : CType) (names : List Nat) (d : Nat) (vals : List (List FVal)),
      (∃ x : QAddArgs, i = .qadd x ∧ c = x.c ∧ t = ctypeOf x.t ∧ d = regNo x.d x.c.stepD 1 j ∧ names = regs (ctypeWide t) x.a x.c.stepA j ∧
        vals = (vsrc y (ctypeWide t) (names.headD 0)).map fun v => (laneElems t v).map (valueC t)) ∨
      (∃ x : QMacArgs, i = .qmac x ∧ c = x.c ∧ t = ctypeOf x.t ∧ d = regNo x.d x.c.stepD 1 j ∧
        names = regs (ctypeWide t) x.a x.c.stepA j ++ srcRegs (ctypeWide t) x.b x.c.stepB j ∧
        vals = List.zipWith (fun (v w : Word) => List.zipWith (fun p q => mulF (valueC t p) (valueC t q)) (laneElems t v) (laneElems t w))
          (vsrc y (ctypeWide t) (names.headD 0)) (macB y t x.b x.c.stepB j)) →
      Below s g names [d] →
      let on := fun (n : BitVec 4) e => if ctypeBits t < 32 then n.getLsbD (ctypeBits t * e / 8) else n.getLsbD 0
      exec i s = .next (laneNext s g (setQreg y d (List.zipWith (fun (n : BitVec 4) (p : LA × List FVal) =>
        ((p.2.zipIdx.filter fun e => on n e.2).map (·.1)).foldl (fun a v => laAdd a v rank) p.1) (execNibbles y c.pred c.neg) (List.zip (qreg y d) vals)))
        c.rep.toNat)) ∧
    (∀ x : QRedArgs,
      let d := regNo x.d x.c.stepD 1 j
      let a := regNo x.a x.c.stepA 1 j
      let w := match x.w with | some k => 2 ^ k.toNat | none => 128
      let ex := execLanes y x.c.pred x.c.neg
      Below s g [] [d, a] → (qreg y a).length = 128 → (qreg y d).length = 128 → ex.length = 128 →
      ∃ z, exec (.qred x) s = .next (laneNext s g z x.c.rep.toNat) ∧ z.lane = y.lane ∧ z.r.v = y.r.v ∧ z.r.m = y.r.m ∧ z.r.s = y.r.s ∧
        (∀ r, r ≠ d → qreg z r = qreg y r) ∧
        ∀ i < 128, (qreg z d).getD i LA.zero = if ex.getD i false then
            (((List.range w).map (i - i % w + ·)).filter fun k => ex.getD k false).foldl (fun t k => laMerge t ((qreg y a).getD k LA.zero)) LA.zero
          else (qreg y d).getD i LA.zero) ∧
    (∀ x : QRndArgs,
      let t := ctypeOf x.t
      let a := regNo x.a x.c.stepA 1 j
      Below s g (regs (ctypeWide t) x.d x.c.stepD j) [a] →
      exec (.qrnd x) s = .next (laneNext s g (putEl y t (regNo x.d x.c.stepD (if ctypeWide t then 2 else 1) j) x.dpos.toNat (execEl y x.c t x.dpos.toNat)
        ((qreg y a).map fun q => laRound q t x.mode.toNat x.sat)) x.c.rep.toNat)) ∧
    (∀ x : QTwo,
      let a := regNo x.a x.c.stepA 1 j
      Below s g (regs true x.d x.c.stepD j) [a] →
      exec (.qstat x) s = .next (laneNext s g (putWide y true (regNo x.d x.c.stepD 2 j) (execLanes y x.c.pred x.c.neg)
        ((qreg y a).map fun q => q.low ++ (0 : BitVec 24) ++ laStatus q)) x.c.rep.toNat)) ∧
    ∀ x : QSegArgs,
      let a := regNo x.a x.c.stepA 1 j
      Below s g (regs true x.d x.c.stepD j) [a] →
      exec (.qseg x) s = .next (laneNext s g (putWide y true (regNo x.d x.c.stepD 2 j) (execLanes y x.c.pred x.c.neg)
        ((qreg y a).map fun q => BitVec.ofNat 64 (laValue q / 2 ^ (64 * x.n.toNat)))) x.c.rep.toNat)) ∧
  (∀ (s : State) (g : Nat) (x : QMemArgs),
    let y := group s g
    let base := captured y x.base + (x.off.signExtend 64 : Word)
    let at_ := fun k => base + BitVec.ofNat 64 (128 * k)
    LaneMemRuns s g ⟨x.sp, false, false, false, 0⟩ base →
    (let q := regNo x.q x.c.stepA 1 y.lane.rep
     let slot := fun k => (qreg y q).getD k LA.zero
     let data := fun k => ofLe (laBytes (if x.norm then laNorm (slot k) else slot k))
     Below s g [] [q] →
     (x.sp = true → (∀ k < 128, executes y x.c k = true → LaneScratchReady s g (at_ k) 128 ∧ Untagged (ownTeam s g) (at_ k).toNat 128 ∧
          (slot k).d.length = 10 ∧ (slot k).c.length = 10) →
        ∃ t, exec (.qspill x) s = .next t ∧ LaneMemDone s t g x.c.rep.toNat 0 1 ∧ t.mem = s.mem ∧ (group t g).r = y.r ∧
          LanesStored y x.c (executes y x.c) 128 false (fun _ => 0) (fun k => (at_ k).toNat) data (tget 0 (ownTeam s g).scratch) (tget 0 (ownTeam t g).scratch)) ∧
     (x.sp = false → ∀ e : Nat → TlbEntry, (∀ k < 128, executes y x.c k = true → LaneMemReady s g 2 (at_ k) 128 (e k) ∧ (at_ k).toNat % 128 = 0 ∧
          (slot k).d.length = 10 ∧ (slot k).c.length = 10) →
        ∃ t, exec (.qspill x) s = .next t ∧ LaneMemDone s t g x.c.rep.toNat 0 1 ∧ (group t g).r = y.r ∧
          LanesStored y x.c (executes y x.c) 128 false (fun _ => 0) (fun k => leafFlat (e k).leaf (e k).level (at_ k)) data (mbyte s.mem) (mbyte t.mem))) ∧
    (let q := regNo x.q x.c.stepD 1 y.lane.rep
     let filled := fun (t : State) (bytes : Nat → List Byte) => (group t g).r.v = y.r.v ∧ (∀ r, r ≠ q → qreg (group t g) r = qreg y r) ∧
       ∀ k < 128, (qreg (group t g) q).getD k LA.zero = if executes y x.c k then laOfBytes (bytes k) else (qreg y q).getD k LA.zero
     Below s g [] [q] → (qreg y q).length = 128 →
     (x.sp = true → (∀ k < 128, executes y x.c k = true → LaneScratchReady s g (at_ k) 128) →
        ∃ t, exec (.qfill x) s = .next t ∧ LaneMemDone s t g x.c.rep.toNat 1 0 ∧ t.mem = s.mem ∧
          filled t fun k => scratchRead (ownTeam s g) (at_ k).toNat 128) ∧
     (x.sp = false → ∀ e : Nat → TlbEntry, (∀ k < 128, executes y x.c k = true → LaneMemReady s g 1 (at_ k) 128 (e k) ∧ (at_ k).toNat % 128 = 0) →
        ∃ t, exec (.qfill x) s = .next t ∧ LaneMemDone s t g x.c.rep.toNat 1 0 ∧ t.mem = s.mem ∧
          filled t fun k => mread s.mem (leafFlat (e k).leaf (e k).level (at_ k)) 128)))

/-- R85, R86, R88, R90 to R92: A contribution on the grid adds its exact multiple of 2^-320 to the value modulo 2^640 and changes no status; a record gives its accumulator back. -/
def Obligations.LongAccumulatorValues : Prop :=
  ∀ (a : LA), a.d.length = 10 → a.c.length = 10 →
    (∀ (neg : Bool) (num rank : Nat) (exp : Int), num ≠ 0 → -320 ≤ exp → (Nat.log2 num : Int) + exp < 319 →
      let r := laAdd a (.fin neg num exp) rank
      let k : Int := num * 2 ^ (exp + 320).toNat
      (laValue r : Int) = ((laValue a : Int) + if neg then -k else k) % (2 ^ 640 : Nat) ∧
      r.n = a.n ∧ r.p = a.p ∧ r.m = a.m ∧ r.x = a.x ∧ r.low = a.low) ∧
    ((∀ e ∈ a.c, -128 ≤ e ∧ e ≤ 127) → laOfBytes (laBytes a) = a)

/-- R89: The merge of two accumulators has the sum of their values modulo 2^640, the bits of either status and the smaller low. -/
def Obligations.LongAccumulatorMerge : Prop :=
  ∀ (a b : LA), a.d.length = 10 → a.c.length = 10 → b.d.length = 10 → b.c.length = 10 →
    let m := laMerge a b
    laValue m = (laValue a + laValue b) % 2 ^ 640 ∧ m.n = (a.n || b.n) ∧ m.p = (a.p || b.p) ∧ m.m = (a.m || b.m) ∧ m.x = (a.x || b.x) ∧
    m.low.toNat = min a.low.toNat b.low.toNat

/-- R90: For any multiset of contributions the value, the status byte and low of a long accumulator are the same whatever way the contributions are grouped, ordered or merged; only the carry state can differ, and the normal form makes it unique and leaves value, status and low unchanged. -/
def Obligations.LongAccumulatorOrder : Prop :=
  ∀ (a b : LA) (vs ws : List (FVal × Nat)), a.d.length = 10 → a.c.length = 10 → b.d.length = 10 → b.c.length = 10 →
    let same := fun (x y : LA) => laValue x = laValue y ∧ laStatus x = laStatus y ∧ x.low = y.low
    let fold := fun (z : LA) (l : List (FVal × Nat)) => l.foldl (fun x e => laAdd x e.1 e.2) z
    (vs.Perm ws → same (fold a vs) (fold a ws)) ∧
    same (laMerge (fold a vs) (fold b ws)) (fold (laMerge a b) (vs ++ ws)) ∧ same (laMerge (fold a vs) (fold LA.zero ws)) (fold a (vs ++ ws)) ∧
    same (laMerge a b) (laMerge b a) ∧ same (laNorm a) a ∧
    ((laValue a = laValue b) → (laNorm a).d = (laNorm b).d ∧ (laNorm a).c = (laNorm b).c)

/-- R61, R261, R263: A tile instruction whose scope, mask, scalars and roles pass waits for entry with its tile registers, its scalars and, for `tconv`, the shape record of its handle captured; with a scope that is no level of the tree it raises the illegal-instruction trap with cause 4, and otherwise with a mask other than the group's start mask the illegal-convergence trap. -/
def Obligations.TileIssues : Prop :=
  ∀ (s : State) (g : Nat), LaneRuns s g → (group s g).fly.tile = none → frameTile (group s g) = none →
    let y := group s g
    let r := fun (n : TReg) => treg y n.toNat
    let shaped := fun (ins : TileIns) (tc ta ts : TileDesc) (a b : Word) (shape : Option (List Byte)) =>
      setGroup s g { y with fly := { y.fly with tile := some ⟨ins, tc, ta, ts, a, b, .waiting, false, 0, cycleOf s (coreOf s g), [], none, shape⟩ } }
    let entry := fun ins tc ta ts a b => shaped ins tc ta ts a b none
    let inTree := fun (c : TileCtl) => (c.acq || c.rel) = true → scopeBad s g c.scope = false
    let legal := fun (ins : TileIns) (c : TileCtl) => rolesOk (descOf s g) (treg y) ins = true ∧ inTree c
    (y.lane.mask = y.lane.start →
      (∀ x : MulArgs, (legal (.tmma x) x.c → exec (.tmma x) s = .next (entry (.tmma x) (r x.tc) (r x.a) 0 0 0)) ∧
        (legal (.tcsum x) x.c → exec (.tcsum x) s = .next (entry (.tcsum x) (r x.tc) (r x.a) (r x.x) 0 0)) ∧
        (legal (.tconv x) x.c → (captured y x.x).toNat < 2 ^ 32 →
          exec (.tconv x) s = .next (shaped (.tconv x) (r x.tc) (r x.a) 0 (captured y x.x) 0
            ((shapeOf s (partOf s g) (tdShape (r x.a))).map (·.bytes))))) ∧
      (∀ x : MoveArgs, ∀ p ∈ [(Instr.tasum x, TileIns.tasum x), (.tload x, .tload x), (.tstore x, .tstore x), (.tstage x, .tstage x)],
        legal p.2 x.c → exec p.1 s = .next (entry p.2 (r x.d) (r x.a) 0 0 0)) ∧
      (∀ x : MoveArgs, legal (.tzero x) x.c → exec (.tzero x) s = .next (entry (.tzero x) (r x.d) 0 0 0 0)) ∧
      (∀ x : EpiArgs, legal (.tepi x) x.c →
        exec (.tepi x) s = .next (entry (.tepi x) (r x.d) (r x.a) (if x.scale = 0 then 0 else r x.ts) 0 0)) ∧
      (∀ x : ResArgs, resTrap (captured y x.a) (captured y x.b) = none →
        exec (.tres x) s = .next (entry (.tres x) 0 0 0 (captured y x.a) (captured y x.b))) ∧
      ∀ n, exec (.trel n) s = .next (entry (.trel n) 0 0 0 0 0)) ∧
    ∀ (m : MulArgs) (v : MoveArgs) (e : EpiArgs) (q : ResArgs) (n : BitVec 4), Faultable s g →
      ∀ p ∈ [(Instr.tmma m, some m.c), (.tcsum m, some m.c), (.tconv m, some m.c), (.tasum v, some v.c), (.tzero v, some v.c), (.tload v, some v.c),
          (.tstore v, some v.c), (.tepi e, some e.c), (.tstage v, some v.c), (.tres q, none), (.trel n, none)],
        (∀ c, p.2 = some c → (c.acq || c.rel) = true → scopeBad s g c.scope = true → exec p.1 s = .next (pendingDone s g (illegalLaneRec s g 4 2))) ∧
        ((∀ c, p.2 = some c → inTree c) → y.lane.mask ≠ y.lane.start →
          exec p.1 s = .next (pendingDone s g ⟨3, 0, BitVec.ofNat 8 (accessByte false false false 2), 0xFF, 0, y.lane.lpc⟩))

/-- R261, R262, R319, R264, R266, R271 to R277, R268, R269, R299, R347: The tile instruction chosen in its core's cycle joins the queue and raises the tiles counter and the counter it names. At its turn a tile instruction whose operands can be read, and whose output can be written, leaves its results in the shadow bank and its output at its destination, and runs until its commit; the live bank does not change. At its commit the results that a tile instruction's turn has put into shadow banks become live, whatever has struck a shadow bank since, and the banks that were live become the shadow banks; its counters fall, it leaves the queue, the LPC of the context that issued it (the interrupted one's in the frame of a handler) goes past it; `tres` writes its code and, with code 0, holds the range with its bytes cleared; `trel` frees its record. -/
def Obligations.TileTurns : Prop :=
  (∀ (s : State) (g : Nat) (t : TileOp), NoSinks s → tileOf (group s g) = some t → t.raised = false → entryChoice s (coreOf s g) = some g →
    ∃ u, exec (.tileQueueEntry g) s = .next u ∧
      let x := group s g
      let y := group u g
      t.phase = .waiting ∧ (core s (coreOf s g)).queue.length < Config.tileQueueDepth ∧ x.cnt.tiles < 0xFFFF ∧
      (core u (coreOf s g)).queue = (core s (coreOf s g)).queue ++ [g] ∧
      tileOf y = some { t with phase := .queued, raised := true, op := s.work.next } ∧ y.cnt.tiles = x.cnt.tiles + 1 ∧
      (∀ k, kcount y k = kcount x k + if tileCounter t.ins = some k then 1 else 0) ∧ y.r = x.r ∧ y.lane = x.lane ∧ u.mem = s.mem) ∧
  (∀ (s : State) (g : Nat) (t : TileOp), tileOf (group s g) = some t → isTurn s g = true → waiting s (.tile g) = false →
    (∀ f ∈ s.work.faults, f.1 ≠ .tile g) →
    let x := group s g
    let tm := team s x.team
    let rank := contributor s g
    let live := fun tile k => tget LA.zero tm.acc (tile * 1024 + k)
    let clean := fun tile => tilePoisoned tm tile = false
    let reads := fun d bs => tileRead s g d = (s, .inl bs)
    let elems := fun d bs => elemsOf (fmtBits (tdFmt d)) bs
    -- the state after a turn that fills the shadow slots of one tile, none, or all of them with zero
    let shadows := fun (s' : State) (tile : Nat) (cell : Nat → LA) => ∃ u, exec (.tileTurn g) s = .next u ∧
      tileOf (group u g) = some { t with phase := .running, swaps := [(tile, (List.range 1024).map cell)], clobber := none } ∧ (group u g).cnt = x.cnt ∧ (group u g).lane = x.lane ∧
      (team u x.team).acc = tm.acc ∧ u.mem = s'.mem ∧ (team u x.team).scratch = (team s' x.team).scratch ∧
      (team u x.team).obuf = (team s' x.team).obuf ∧ ∀ k < 1024, tget LA.zero (team u x.team).shadow (tile * 1024 + k) = cell k
    let written := fun (s' : State) => ∃ u, exec (.tileTurn g) s = .next u ∧
      tileOf (group u g) = some { t with phase := .running, swaps := [], clobber := none } ∧ (group u g).cnt = x.cnt ∧ (group u g).lane = x.lane ∧
      (team u x.team).acc = tm.acc ∧ u.mem = s'.mem ∧ (team u x.team).scratch = (team s' x.team).scratch ∧ (team u x.team).obuf = (team s' x.team).obuf
    let writes := fun s' d bs => tileWrite s g d bs = (s', .inl none) ∧ (group s' g) = x ∧ (team s' x.team).acc = tm.acc
    -- the products of row i and column j of a multiply whose A elements are a
    let columns := fun (m : MulArgs) => let r := bRec (tget (0, 0) tm.recs m.rec4.toNat)
      let kk := (tileClass m.ta).1
      tget (0, 0) tm.recs m.rec4.toNat ≠ (0, 0) ∧ bSuits m.tb r.fmt = true ∧
      bLimit r (kk * m.kb.toNat) kk ((32 * m.nb.toNat + 31) * r.klen + kk * m.kb.toNat + kk - 1) = none ∧ clean (tdBase t.tc)
    let prods := fun (m : MulArgs) (a : List Nat) i j => let r := bRec (tget (0, 0) tm.recs m.rec4.toNat)
      let kk := (tileClass m.ta).1
      (List.range kk).map fun k => mulF (valueC (ctypeOf m.ta) (a.getD (i * kk + k) 0))
        (valueC (ctypeOf m.tb) (bElem tm.obuf r ((32 * m.nb.toNat + j) * r.klen + kk * m.kb.toNat + k)))
    let added := fun (a : LA) (vs : List FVal) => vs.foldl (fun a v => laAdd a v rank) a
    let cells := fun m a k => added (live (tdBase t.tc) k) (prods m a (k / 32) (k % 32))
    let rounded := fun a => laRound a (.flt f32) 0 false
    match t.ins with
    | .tmma m => ∀ bs, reads t.ta bs → (elems t.ta bs).length = 32 * (tileClass m.ta).1 → columns m → shadows s (tdBase t.tc) (cells m (elems t.ta bs))
    | .tcsum m => ∀ bs s', reads t.ta bs → let a := elems t.ta bs
      a.length = 32 * (tileClass m.ta).1 → columns m →
      writes s' t.ts (bytesOf 32 (((List.range 32).map fun i => rounded (added LA.zero ((List.range 32).flatMap fun j => prods m a i j))) ++
        (List.range 32).map fun j => rounded (added LA.zero ((List.range 32).flatMap fun i => prods m a i j)))) →
      shadows s' (tdBase t.tc) (cells m a)
    | .tconv m => ∀ b, t.shape = some b →
      let w := fmtBits (tdFmt t.ta)
      let kk := (tileClass m.ta).1
      let el := fun i k => convElem b (t.x.toNat + i) (kk * m.kb.toNat + k)
      shapeOk b = true → shConv b = true → (shRank b = 3 ∨ shRank b = 4) → shFmt b = tdFmt t.ta → convEmpty b = false → columns m →
      (∀ i < 32, ∀ k < kk, ∀ n, el i k = some n → tdAddr t.ta + (n * w + w - 1) / 8 < (descOf s g).s) → tm.poison = [] →
      shadows s (tdBase t.tc) (cells m ((List.range 32).flatMap fun i => (List.range kk).map fun k => match el i k with
        | some n => if w = 4 then (tget 0 tm.scratch (tdAddr t.ta + n * w / 8)).toNat / 16 ^ (n % 2) % 16
            else ofLe (scratchRead tm (tdAddr t.ta + n * w / 8) (w / 8))
        | none => if convInside b (t.x.toNat + i) (kk * m.kb.toNat + k) then fieldAt b 52 4 else 0))
    | .tasum _ => ∀ s', clean (tdBase t.ta) →
      let merged := fun (ks : List Nat) => rounded (ks.foldl (fun a k => laMerge a (live (tdBase t.ta) k)) LA.zero)
      writes s' t.tc (bytesOf 32 (((List.range 32).map fun i => merged ((List.range 32).map (32 * i + ·))) ++
        (List.range 32).map fun j => merged ((List.range 32).map (32 * · + j)))) → written s'
    | .tzero _ => shadows s (tdBase t.tc) fun _ => LA.zero
    | .tload m => (m.add = true → clean (tdBase t.tc)) → ∀ bs, reads t.ta bs →
      let old := fun k => if m.add then live (tdBase t.tc) k else LA.zero
      let recK := fun k => laOfBytes ((bs.drop (128 * k)).take 128)
      (tdFmt t.ta = 0xD → shadows s (tdBase t.tc) fun k => if m.add then laMerge (old k) (recK k) else recK k) ∧
      ∀ ty, tdFmt t.ta ≠ 0xD → fmtType (tdFmt t.ta) (!m.n) = some ty → (elems t.ta bs).length = 1024 →
        shadows s (tdBase t.tc) fun k => laAdd (old k) (valueC ty ((elems t.ta bs).getD k 0)) rank
    | .tstore m => ∀ s', clean (tdBase t.ta) →
      writes s' t.tc ((List.range 1024).flatMap fun k => laBytes (if m.n then laNorm (live (tdBase t.ta) k) else live (tdBase t.ta) k)) → written s'
    | .tepi m => ∀ s' ty bs, clean (tdBase t.ta) → fmtType (tdFmt t.tc) (!m.n) = some ty → (m.scale ≠ 0 → reads t.ts bs) →
      let factor := fun k => (elems t.ts bs).getD (if m.scale = 1 then k / 32 else k % 32) 0
      writes s' t.tc (bytesOf (fmtBits (tdFmt t.tc)) ((List.range 1024).map fun k =>
        let v := laReal (live (tdBase t.ta) k)
        roundC ty m.mode.toNat m.sat (if m.scale = 0 then v else mulF v (decodeF f32 (factor k))))) →
      if m.clr then shadows s' (tdBase t.ta) (fun _ => LA.zero) else written s'
    | .tstage _ => ∀ bs s', reads t.ta bs → writes s' t.tc bs → written s'
    | .tres _ => written s
    | .trel _ => written s) ∧
  (∀ (s : State) (g : Nat) (t : TileOp), NoSinks s → tileOf (group s g) = some t → t.phase = .running → t.raised = true → t.clobber = none →
    (frameTile (group s g) = none → (group s g).lane.park.fmask = 0 ∧ (group s g).lane.park.replaying = false) → tableWf LA.zero (ownTeam s g).shadow = true → tableWf LA.zero (ownTeam s g).acc = true →
    let x := group s g
    let tm := team s x.team
    ∃ u, exec (.tileCommit g) s = .next u ∧
      let y := group u g
      let tn := team u x.team
      (frameTile x = none → y.fly.tile = none ∧ y.lane = advanceLane x.lane 0 ∧ y.handler = x.handler) ∧
      (frameTile x ≠ none → y.fly.tile = x.fly.tile ∧ y.lane = x.lane ∧
        y.handler = x.handler.map fun f => { f with tile := none, lane := advanceLane f.lane 0 }) ∧
      y.cnt.tiles = x.cnt.tiles - 1 ∧ y.r.v = x.r.v ∧ y.r.m = x.r.m ∧ y.r.q = x.r.q ∧ y.r.t = x.r.t ∧
      (core u (coreOf s g)).queue = (core s (coreOf s g)).queue.filter (· != g) ∧ u.mem = s.mem ∧ tn.scratch = tm.scratch ∧
      (∀ k, kcount y k ≤ kcount x k) ∧
      match t.ins with
      | .tres a =>
        let base := bits t.x 17 0
        let len := bits t.x 36 18
        let mates := s.work.teams.filter fun e => e.2.live && e.2.core == coreOf s g
        let meets := fun (w : Word × Word) => decide (base < bits w.1 17 0 + bits w.1 36 18 ∧ bits w.1 17 0 < base + len)
        let code := if tget (0, 0) tm.recs a.n.toNat ≠ (0, 0) then 1 else if mates.any fun e => e.2.recs.any fun w => meets w.2 then 2
          else if 16 ≤ (mates.map fun e => e.2.recs.length).sum then 3 else 0
        sregOf y (40 + a.d.toNat) = BitVec.ofNat 64 code ∧ (∀ r, r ≠ 40 + a.d.toNat → sregOf y r = sregOf x r) ∧ tn.acc = tm.acc ∧
        (code = 0 → (t.x, t.y) ≠ (0, 0) → tget (0, 0) tn.recs a.n.toNat = (t.x, t.y) ∧
          ∀ k, mbyte tn.obuf k = if base ≤ k ∧ k < base + len then 0 else mbyte tm.obuf k) ∧
        (code ≠ 0 → tn.recs = tm.recs ∧ tn.obuf = tm.obuf)
      | .trel n => y.r.s = x.r.s ∧ tn.acc = tm.acc ∧ tget (0, 0) tn.recs n.toNat = (0, 0) ∧
          ∀ m, m ≠ n.toNat → tget (0, 0) tn.recs m = tget (0, 0) tm.recs m
      | _ => y.r.s = x.r.s ∧ tn.recs = tm.recs ∧ tn.obuf = tm.obuf ∧
          ∀ tile v, t.swaps = [(tile, v)] → v.length = 1024 → (∀ k < 1024, tget LA.zero tn.acc (tile * 1024 + k) = v.getD k LA.zero) ∧
            (∀ k < 1024, tget LA.zero tn.shadow (tile * 1024 + k) = tget LA.zero tm.acc (tile * 1024 + k)) ∧
            ∀ k, (k < tile * 1024 ∨ tile * 1024 + 1024 ≤ k) → tget LA.zero tn.acc k = tget LA.zero tm.acc k)

/-- R38, R63, R175, R182, R235, R106, R184, R322, R329, R134, R335, R382: The events of a group's streams: a jump record sets LPC; a load's reply reaches its register and the instruction retires; a lane load and a lane store that are performed leave the outstanding counters; a waiting counter wait whose condition holds retires. A request at its home. With an entry that serves it, a load's or a store's reply is ready and the store's bytes are in memory, and a `.ro` load's reply is what memory held at its issue, with no coherence entry (the bytes of the issue are the model's choice, log 9); with none, a walk of the page's die is asked for, or joined, and the request waits for it. Requests of other chips. One that the pod can deliver here is under way by a name of its own; at its home a load is answered with the bytes of memory and a store writes them, by the entry of the sender's partition and asn, and the request is done; without a root for them it is answered with the page fault of cause 0x0. That other chips' requests and answers are events of this package's state is the model's choice (log 11). -/
def Obligations.StreamEvents : Prop :=
  (∀ (s : State) (g : Nat),
    let x := group s g
    (∀ t rest, x.lane.rq = .jump t :: rest → laneFree s g = true → x.lane.park.fmask = 0 →
      exec (.laneJumpRecord g) s = .next (setGroup s g { x with lane := { x.lane with lpc := t, rq := rest, stopped := false } })) ∧
    (∀ (d : SReg) (k : BitVec 3) (a raw : Word) (n : Nat) (sn : Option (List Host.Cell)), x.fly.scalar = some ⟨.load d k, a, n, some (.value raw), sn⟩ → k ≠ 7 → x.trace.next = none →
      raw.toNat < 256 ^ 2 ^ (k.toNat % 4) →
      ∃ t, exec (.scalarReply g) s = .next t ∧ t.cur = s.cur ∧ t.mem = s.mem ∧
        let y := group t g
        y.spc = x.spc + 4 ∧ y.fly.scalar = none ∧ y.fly.waiting = none ∧ y.cnt.loads = x.cnt.loads - 1 ∧ y.cnt.stores = x.cnt.stores ∧ y.lane = x.lane ∧
        ∀ r, sregOf y r = if r = d.toNat ∧ d ≠ 0 then loaded k (leBytes (2 ^ (k.toNat % 4)) raw.toNat) else sregOf x r) ∧
    (0 < x.cnt.loadsDue → exec (.laneLoadReturn g) s =
      .next (setGroup s g { x with cnt := { x.cnt with loads := x.cnt.loads - 1, loadsDue := x.cnt.loadsDue - 1 } })) ∧
    (0 < x.cnt.storesDue → exec (.storePerformed g) s =
      .next (setGroup s g { x with cnt := { x.cnt with stores := x.cnt.stores - 1, storesDue := x.cnt.storesDue - 1 } })) ∧
    ∀ (d a : SReg), x.live = true → saving s x.team = false → x.lane.stopped = false → x.lane.park.replaying = false → x.pend.order = [] →
      x.fly.scalar = none → x.fly.booth = none → x.poison = [] → laneIdle x = true → x.trace.next = none →
      ∀ p ∈ [(Instr.waitLd d a, x.cnt.loads), (.waitSt d a, x.cnt.stores), (.waitCp d a, x.cnt.copies), (.waitTl d a, x.cnt.tiles)],
        x.fly.waiting = some p.1 → p.2 ≤ (sreg s g a).toNat →
        exec (.waitRetire g) s = .next (scalarDone { s with cur := .group g } g d (BitVec.ofNat 64 p.2))) ∧
  (∀ (s : State) (g : Nat) (a : ScalarAcc), (group s g).fly.scalar = some a → a.reply = none → (∀ f ∈ s.work.faults, f.1 ≠ .scalar g) →
    Reached s (whoOf s g (.scalar g)) a.addr a.size →
    let x := group s g
    let replied := fun (s' : State) r => setGroup s' g { x with fly := { x.fly with scalar := some { a with reply := some r } } }
    (∀ d k e, a.kind = .load d k → 0 < a.size → s.bad = [] → LaneMemReady s g 1 a.addr a.size e →
      exec (.homeRequest (.scalar g)) s = .next (replied s (.value (BitVec.ofNat 64 (ofLe (mread s.mem (leafFlat e.leaf e.level a.addr) a.size)))))) ∧
    (∀ v e, a.kind = .store v → 0 < a.size → s.bad = [] → LaneMemReady s g 2 a.addr a.size e →
      exec (.homeRequest (.scalar g)) s =
        .next (replied { s with mem := mwrite s.mem (leafFlat e.leaf e.level a.addr) (leBytes a.size v.toNat) } (.value 0))) ∧
    (∀ d k e m, a.kind = .loadRo d k → a.snap = some m → hostWindow a.addr = false → 0 < a.size → s.bad = [] → LaneMemReady s g 1 a.addr a.size e →
      ∃ t, exec (.homeRequest (.scalar g)) s = .next t ∧ t.mem = s.mem ∧ t.dies = s.dies ∧
        (group t g).fly.scalar = some { a with reply := some (.value (BitVec.ofNat 64 (ofLe (mread m (leafFlat e.leaf e.level a.addr) a.size)))) } ∧
        (launchOf s g, a.addr.toNat / 128) ∈ (core t (coreOf s g)).ro) ∧
    (0 < a.size → bits a.addr 15 0 + a.size ≤ 0x10000 → tlbFind (die s (ownerOf a.addr)) (partOf s g) (descOf s g).asn (pageOf a.addr) = none →
      let acc : BitVec 3 := match a.kind with | .load _ _ => 1 | .loadRo _ _ => 1 | .store _ => 2 | .atomic _ _ _ _ _ => 3
      (walkFor s (ownerOf a.addr) a.addr (partOf s g) (descOf s g).asn 0 = none → ∃ t, exec (.homeRequest (.scalar g)) s = .next t ∧
        walk t s.work.next = some ⟨ownerOf a.addr, a.addr, partOf s g, (descOf s g).asn, 0, acc, false, [], 0, 0, 0, 0, 0⟩ ∧
        t.work.waits = s.work.waits ++ [⟨s.work.next, .scalar g, acc, now s⟩] ∧ t.work.groups = s.work.groups ∧ t.mem = s.mem) ∧
      ∀ w y, walkFor s (ownerOf a.addr) a.addr (partOf s g) (descOf s g).asn 0 = some (w, y) → ∃ t, exec (.homeRequest (.scalar g)) s = .next t ∧
        t.work.waits = s.work.waits ++ [⟨w, .scalar g, acc, now s⟩] ∧ (y.running = false → walk t w = some { y with acc := y.acc ||| acc }) ∧
        t.work.groups = s.work.groups ∧ t.mem = s.mem)) ∧
  (∀ s : State,
    (∀ r, remoteOk s r = true → ∃ t, exec (.homeRequest (.arrival r)) s = .next t ∧ tget none t.work.remote s.work.next = some r ∧
      t.work.groups = s.work.groups ∧ t.mem = s.mem) ∧
    ∀ (n : Nat) (r : RemoteReq), tget none s.work.remote n = some r → linked s = true →
      let y := die s (ownerOf r.va)
      let answered := fun (m : List Host.Cell) bs fault => ∃ t, exec (.homeRequest (.remote n)) s = .next t ∧ t.mem = m ∧ t.work.groups = s.work.groups ∧
        tget none t.work.remote n = none ∧ t.out.messages = s.out.messages ++ [.answer r.chip r.va bs fault]
      let served := fun acc size (e : TlbEntry) => 0 < size ∧ bits r.va 15 0 + size ≤ 0x10000 ∧ s.bad = [] ∧ (∀ f ∈ s.work.faults, f.1 ≠ .remote n) ∧
        (tget 0 y.roots (rootKey r.part r.asn.toNat)).getLsbD 0 = true ∧ tlbFind y r.part r.asn (pageOf r.va) = some e ∧ leafPermits e.leaf acc = true ∧
        (acc.getLsbD 1 = true → e.leaf.getLsbD 56 = true) ∧ (hostWindow r.va = true ∨ y.carve = none) ∧ e.leaf.getLsbD 57 = false ∧
        objsMet s r.part r.va size = [] ∧ Reached s (remoteWho n r) r.va size
      (∀ k e, r.op = .load k → served 1 k e → answered s.mem (mread s.mem (leafFlat e.leaf e.level r.va) k) none) ∧
      (∀ bs e, r.op = .store bs → served 2 bs.length e → answered (mwrite s.mem (leafFlat e.leaf e.level r.va) bs) [] none) ∧
      ((match r.op with | .map _ => False | .inv _ => False | _ => True) → (tget 0 y.roots (rootKey r.part r.asn.toNat)).getLsbD 0 = false →
        answered s.mem [] (some (4, 0))))

/-- R22, R29, R31, R35, R42, R49, R50, R68, R69: The gang that can be placed starts: each of its teams stands on its core with its groups at the launch's entry, their arguments in s1 to s8 and the end of their stack in s62, every other register zero. Which teams are placed together, and on which free slot a group stands, are the model's choices (logs 22 and 24). -/
def Obligations.TeamsStart : Prop :=
  ∀ (s : State) (l : Nat) (cs : List (Nat × Nat)), NoSinks s →
    let x := launch s l
    let d := x.d
    x.live = true → x.phase = .running → x.fin = none → hasSaved s x.part = false → partResetting s x.part = false →
    (nextGangs s l).findSome? (fun k => placeAll s l anyCore [] (clusterHeads d k)) = some cs → d.args.length = 8 →
    ∃ t, exec (.teamPlacement l) s = .next t ∧ t.mem = s.mem ∧ (launch t l).started = x.started ++ cs.map (·.1) ∧
      ∀ e ∈ cs, ∃ n, let m := team t n
        m.live = true ∧ m.launch = l ∧ m.no = e.1 ∧ m.core = e.2 ∧ m.scratch = [] ∧ m.acc = [] ∧ m.recs = [] ∧ m.groups.length = groupsPerTeam d ∧
        ∀ i < groupsPerTeam d, let y := group t (m.groups.getD i 0)
          y.live = true ∧ y.team = n ∧ y.no = i ∧ y.spc = d.spc ∧ y.lane.lpc = d.lpc ∧ y.lane.rep = 0 ∧ y.lane.rq = [] ∧ y.lane.stack = [] ∧
          y.level = x.priv ∧ y.r.v = [] ∧ y.r.m = [] ∧ y.r.q = [] ∧ y.r.t = [] ∧ y.handler = none ∧ y.cnt.loads = 0 ∧ y.cnt.stores = 0 ∧
          (∀ j < 128, y.lane.mask.getLsbD j = decide (j < laneCount d)) ∧
          ∀ r, sregOf y r = if 1 ≤ r ∧ r ≤ 8 then d.args.getD (r - 1) 0 else if r = 62 then d.stackBase + BitVec.ofNat 64 ((i + 1) * d.stackSize) else 0

/-- R371, R376, R377, R379, R386: The end of a launch. Its record of 32 bytes, with the time at which the launch ended, is written at the address its descriptor names, the interrupt follows when the packet asked for one, and the launch leaves its queue and the table; on a chip that did not submit it, it just leaves. All this waits for the teams of the launch that are still within an access. The chip that the record of a launch of several chips names is a free value (log 20), and what another chip does is the model's (log 11). That a launch of this package alone names this package as its chip is log 24's reading. -/
def Obligations.LaunchEnds : Prop :=
  ∀ (s : State) (l : Nat), NoSinks s →
    let x := launch s l
    x.live = true → teamsOf s l = [] →
    (x.queue = none → (x.fin ≠ none ∨ teamsEnded s l = true) → ∃ t, exec (.launchEnd l) s = .next t ∧ launch t l = Launch.blank ∧ t.mem = s.mem) ∧
    ∀ (q : Nat) (e : EndInfo) (m : List Host.Cell), x.queue = some q →
      (x.fin = some e ∨ x.fin = none ∧ teamsEnded s l = true ∧ otherChips s x.d = [] ∧ e = ⟨0, 0, 0, chipNo s, 0, 0⟩) →
      x.d.completion.toNat % 32 = 0 → ¬(e.status = 4 ∧ e.chip = chipNo s) →
      let byte := fun (n : Nat) => BitVec.ofNat 8 n
      let record := leBytes 4 x.d.id.toNat ++ [byte e.status, byte e.cause] ++ leBytes 2 e.code ++ [byte e.chip, 0, 0, 0] ++ leBytes 4 e.team ++
        [byte e.group, 0, 0, 0, 0, 0, 0, 0] ++ leBytes 8 ((if x.fin = none then s.time.now else x.ends) / 256)
      let s' := if x.fin = none then setLaunch s l { x with phase := .ending, fin := some e, ends := s.time.now } else s
      queueWrite s' (queueWho s' q (.complete l)) x.d.completion record = ({ s' with mem := m }, .ok []) →
      ∃ t, exec (.launchEnd l) s = .next t ∧ launch t l = Launch.blank ∧ t.mem = m ∧ (queue t q).launches = (queue s q).launches.filter (· != l) ∧
        t.out.interrupts = s.out.interrupts ++
          (if x.irq = true ∧ partResetting s (partOfQueue s q) = false then [(if (queue s q).priv = 2 then 0 else partOfQueue s q + 1, (queue s q).vec.toNat)] else [])

/-- R375, R376: The downbeat. A join request is checked and answered, with the launch kept as joined or refused; the last reply of all, within the timeout, starts the launch and sends the downbeat, a refusal aborts it; a join that comes again after the decision is answered with it; a chip that is sent the downbeat starts the launch and says so; an abort drops the join or the refusal, and so does a submitting chip out of reach for 10 ms; replies that stay away end the launch with status 0x02. That what other chips send comes as events, and which status a refusing chip reports, are logs 11 and 24. -/
def Obligations.LaunchMessages : Prop :=
  ∀ (s : State) (chip gen : Nat), NoSinks s → linked s = true →
    let me := chipNo s
    let sent := fun (t : State) ms => t.out.messages = s.out.messages ++ ms
    (∀ (part priv : Nat) (desc : List Byte), awaitedUnder s chip gen = none →
      let d := readDescriptor desc
      let kept := fun ph => { Launch.blank with live := true, d := d, part := part, priv := BitVec.ofNat 2 priv, chip := chip, gen := gen, phase := ph, since := s.time.now }
      let answered := fun ph ok st c => ∃ t, exec (.launchJoinRequest chip gen part priv desc) s = .next t ∧ sent t [.reply chip gen ok st c] ∧
        launch t s.work.next = kept ph
      match treeFault s d (descDepth desc) chip with
      | some c => answered .refused false 1 c
      | none => if idInUse s part d.id = true then answered .refused false 5 2
          else if partEnabled s part = false then answered .refused false 5 5 else answered .joined true 0 0) ∧
    (∀ l q, ownGeneration s gen = some l →
      let x := launch s l
      (x.phase = .joining → x.queue = some q → x.replies = [(me, true, 1, 0)] → otherChips s x.d = [chip] → (queue s q).jump = none →
        s.time.now < x.since + 256000 * x.d.timeout →
        (∃ t, exec (.joinReply chip gen true 0 0) s = .next t ∧ sent t [.downbeat chip x.gen] ∧ (launch t l).phase = .running ∧ (launch t l).acks = [me] ∧
          queue t q = queue (pastPacket s q 16) q) ∧
        ∀ (st c : Byte), ∃ t, exec (.joinReply chip gen false st c) s = .next t ∧ sent t [.abort chip x.gen st.toNat c.toNat chip] ∧
          (launch t l).phase = .ending ∧ (launch t l).fin = some ⟨st.toNat, c.toNat, 0, chip, 0, 0⟩ ∧ queue t q = queue (pastPacket s q 16) q) ∧
      (x.phase = .joining → x.since + 256000 * x.d.timeout ≤ s.time.now → ∀ (ok : Bool) (st c : Byte), exec (.joinReply chip gen ok st c) s = .next s) ∧
      (x.phase ≠ .joining → ∀ st c : Byte, ∃ t, exec (.joinReply chip gen true st c) s = .next t ∧ t.work = s.work ∧
        (x.fin = none → sent t [.downbeat chip gen]) ∧ ∀ e, x.fin = some e → x.acks = [] → sent t [.abort chip gen e.status e.cause e.chip]) ∧
      (x.acks ≠ [] → chip ∉ x.acks → exec (.startedReply chip gen) s = .next (setLaunch s l { x with acks := x.acks ++ [chip] })) ∧
      (x.live = true → x.phase = .joining → x.queue = some q → x.since + 256000 * x.d.timeout ≤ s.time.now → (∀ r ∈ x.replies, r.2.1 = true) →
        otherChips s x.d = [chip] → (∀ r ∈ x.replies, r.1 ≠ chip) →
        ∃ t, exec (.downbeatTimeout l) s = .next t ∧ sent t [.abort chip x.gen 2 0 chip] ∧ (launch t l).fin = some ⟨2, 0, 0, chip, 0, 0⟩ ∧
          (launch t l).phase = .ending) ∧
      (x.live = true → x.phase = .running → x.fin = none → x.acks = [me] → otherChips s x.d = [chip] → x.since + 512000 * x.d.timeout ≤ s.time.now →
        ∃ t, exec (.startedTimeout l) s = .next t ∧ (launch t l).fin = some ⟨2, 0, 0, chip, 0, 0⟩ ∧ (launch t l).phase = .ending)) ∧
    (∀ l, joinedUnder s chip gen = some l →
      let x := launch s l
      (∃ t, exec (.downbeat chip gen) s = .next t ∧ sent t [.started chip gen] ∧ launch t l = { x with phase := .running, since := s.time.now }) ∧
      (x.since + 512000 * x.d.timeout ≤ s.time.now →
        ∃ t, exec (.joinResendTimeout chip gen) s = .next t ∧ sent t [.reply chip gen true 0 0] ∧ launch t l = { x with since := s.time.now })) ∧
    (∀ l, awaitedUnder s chip gen = some l →
      (∀ st c about, ∃ t, exec (.abort chip gen st (c, about)) s = .next t ∧ sent t [] ∧ launch t l = Launch.blank) ∧
      (s.pod.peers.getLsbD chip = false → tget 0 s.pod.gone chip + 2560000000 ≤ s.time.now →
        ∃ t, exec (.joinDropTimeout chip gen) s = .next t ∧ launch t l = Launch.blank)) ∧
    ∀ (part id status code team group l : Nat), launchNamed s part id = some l → (launch s l).fin = none →
      ∃ t, exec (.launchKillArrival part id status code chip team group) s = .next t ∧
        (launch t l).fin = some ⟨status, 0, code, chip, team, group⟩ ∧ (launch t l).phase = .ending

/-- R29, R320, R352 to R357, R357, R358, R359: Saving a node and restoring it, whatever number of teams it has. The save begins when pdead has run out or every group has yielded, on every chip that holds a part of the node; a chip whose groups have yielded says so. Once the groups are quiet, the copies and collectives stand where they may stop and the areas are mapped, the area of each team is written, and the teams leave their cores together; a restore reads the areas back and puts the teams, with their groups' registers and positions, on free cores, with no request to yield, pdead 0 and sampling off. What a save waits for, that saved nodes come back before unstarted teams, and what chips tell each other, are logs 7, 24 and 11. A save area read back. A team's area is written as its chunks, zero elsewhere, its handler stacks as they stand; from an area that holds a group's chunks the group comes back with its position, lane context, registers, counters, order of report and frame, at the level that it had; from one that holds a team's chunks the team comes back with its scratchpad, tags, accumulators, reservation records and copies, with no request to yield and pdead 0. What an area does not hold of a group or a team is kept beside it (log 7). -/
def Obligations.SavesAndRestores : Prop :=
  (∀ (s : State) (l n : Nat), NoSinks s →
    let x := launch s l
    let ts := nodeTeams s l n
    let others := nodeOthers s l n
    let busy := ∃ u ∈ ts, ∃ g ∈ (team s u).groups, quiet s g = false
    let begun := tellNode (setLaunch s l { x with saved := x.saved ++ [⟨n, [], false⟩] }) l n (.save n)
    (∀ t, (team s t).live = true → (team s t).preq = true → (team s t).pdead = 0 → (team s t).launch = l → saveNode s t = n →
      (∀ k ∈ x.saved, k.node ≠ n) → busy → exec (.pdeadExpiry t) s = .next begun) ∧
    (requestPending s l = true → ts ≠ [] → (∀ t ∈ ts, ∀ g ∈ (team s t).groups, hasYielded s (group s g) = true) → (∀ k ∈ x.saved, k.node ≠ n) →
      ((∀ c ∈ others, (c, n) ∈ x.yields) → busy → exec (.cooperativeSave l n) s = .next begun) ∧
      ((∃ c ∈ others, (c, n) ∉ x.yields) → n ∉ x.told →
        exec (.cooperativeSave l n) s = .next (tellNode (setLaunch s l { x with told := n :: x.told }) l n (.yielded (chipNo s) n true)))) ∧
    (∀ areas, x.saved = [⟨n, [], false⟩] → ts ≠ [] → ts.Nodup → (∀ t ∈ ts, ∀ g ∈ (team s t).groups, (group s g).team = t ∧ quiet s g = true) →
      (∀ t ∈ ts, enginesStop s t = true) → s.parts = [] → (∀ d, (die s d).objs = []) →
      areasOf s l n 2 (ts.map fun t => (team s t).no) = (s, .ok areas) →
      ∃ u, exec (.cooperativeSave l n) s = .next u ∧
        (∀ t ∈ ts, (team s t).preq = true → (team s t).pdead = 0 → exec (.pdeadExpiry t) s = .next u) ∧
        u.mem = ((ts.zip areas).foldl (fun s e => writeArea s e.1 e.2.2) ((ts.flatMap fun t => (team s t).groups).foldl stopGroup (clearFaults s (.save l n)))).mem ∧
        (∀ t ∈ ts, team u t = Team.blank ∧ ∀ g ∈ (team s t).groups, group u g = Group.blank) ∧
        ∃ ks, (launch u l).saved = [⟨n, ks, true⟩] ∧ ks.map (·.name) = ts ∧
          ∀ k ∈ ks, k.t.no = (team s k.name).no ∧ k.groups.map (·.1) = (team s k.name).groups) ∧
    ∀ (k : SavedNode) (bs : List SavedTeam) (cores : List (Nat × Nat)) (areas : List (Nat × List Seg)), x.live = true → x.fin = none →
      x.saved = [k] → k.node = n → k.complete = true → (∀ d, (die s d).objs = []) →
      placeAll s l (roomFor s k.teams) [] ((k.teams.map fun b => b.t.no / clusterSize x.d * clusterSize x.d).eraseDups) = some cores →
      areasOf s l n 1 (k.teams.map fun b => b.t.no) = (s, .ok areas) →
      (k.teams.zip areas).map (fun e => teamBack s l e.1 e.2.2) = bs.map some → (∀ e ∈ cores, roomFor s bs e.1 e.2 = true) →
      (∀ b ∈ bs, b.t.launch = l) → (bs.map (·.name)).Nodup → (bs.flatMap fun b => b.groups.map (·.1)).Nodup →
      ∃ u, exec (.nodeRestore l n) s = .next u ∧ (launch u l).saved = [] ∧ u.mem = s.mem ∧
        ∀ b ∈ bs, ∀ c, cores.find? (fun e => e.1 == b.t.no) = some (b.t.no, c) →
          team u b.name = { b.t with core := c, groups := b.groups.map (·.1) } ∧ b.t.preq = false ∧ b.t.pdead = 0 ∧
          ∀ e ∈ b.groups, (group u e.1).r = e.2.r ∧ (group u e.1).spc = e.2.spc ∧ (group u e.1).lane = e.2.lane ∧
            (group u e.1).team = e.2.team ∧ (group u e.1).handler = e.2.handler ∧ (group u e.1).pend = e.2.pend ∧ (group u e.1).level = e.2.level ∧
            (group u e.1).trace.bit = x.trace ∧ (group u e.1).trace.every = 0 ∧ (group u e.1).trace.samples = []) ∧
  ((∀ (s : State) (t : Nat) (segs : List Seg),
    let d := (launch s (team s t).launch).d
    let stack := fun k => groupOffset d k + 0x3000
    let left := (List.range (groupsPerTeam d)).map stack
    s.memWf → (segs.map (·.len)).sum = teamArea d → segs.Pairwise (fun g h => g.flat + g.len ≤ h.flat ∨ h.flat + h.len ≤ g.flat) →
    (teamChunks s t).Pairwise (fun c e => c.1 + c.2.length ≤ e.1 ∨ e.1 + e.2.length ≤ c.1) →
    (∀ c ∈ teamChunks s t, c.1 + c.2.length ≤ teamArea d ∧ ∀ k ∈ left, c.1 + c.2.length ≤ k ∨ k + 0x1000 ≤ c.1) →
    let u := writeArea s t segs
    AreaHolds (areaOf u segs) (teamArea d) left (teamChunks s t) ∧
    ∀ k < groupsPerTeam d, areaOf u segs (stack k) 0x1000 = areaOf s segs (stack k) 0x1000) ∧
  (∀ (s : State) (g : Nat) (a : Area) (priv : BitVec 2) (old : Group),
    let x := group s g
    let d := descOf s g
    let ctx := fun (f : Frame) => (f.spc, f.lane.lpc, f.lane.rep, f.lane.mask, f.lane.park.fmask, f.lane.stack, f.s56)
    GroupLimits x d → AreaHolds a (groupArea d) [0x3000] (groupChunks s g) →
    ∃ y, groupFrom s d priv a [] old = some y ∧ y.spc = x.spc ∧ y.lane.lpc = x.lane.lpc ∧ y.lane.rep = x.lane.rep ∧ y.lane.mask = x.lane.mask ∧
      y.lane.stack = x.lane.stack ∧ y.lane.park.fmask = x.lane.park.fmask ∧ (x.lane.park.fmask = 0 → y.lane.rq = x.lane.rq) ∧
      (x.lane.park.fmask ≠ 0 → y.lane.park.lpc = x.lane.park.lpc ∧ y.lane.park.rep = x.lane.park.rep ∧ y.lane.park.full = x.lane.park.full) ∧
      (∀ r < 64, sregOf y r = if r = 0 then 0 else sregOf x r) ∧ (∀ n < d.v, vreg y n = vreg x n) ∧ (∀ n < 8, mreg y n = mreg x n) ∧
      (∀ n < 16, treg y n = treg x n) ∧ (∀ n < d.q, ∀ i < 128, (qreg y n).getD i LA.zero = laOfBytes (laBytes ((qreg x n).getD i LA.zero))) ∧
      (∀ k < 16, kcount y k = kcount x k) ∧ y.cnt.loads = x.cnt.loads ∧ y.cnt.stores = x.cnt.stores ∧ y.cnt.copies = x.cnt.copies ∧ y.cnt.tiles = x.cnt.tiles ∧
      y.pend.order = x.pend.order ∧ y.handler.map ctx = x.handler.map ctx ∧
      y.level = (if x.handler = none then priv else if priv = 0 then 1 else priv) ∧
      ∀ f h, x.handler = some f → y.handler = some h → ∀ n < 4, ∀ i < 128, f.hmask.getLsbD i = true → (h.v0.getD n []).getD i 0 = (f.v0.getD n []).getD i 0) ∧
  ∀ (s : State) (t : Nat) (a : Area) (groups : List (Nat × Nat)) (old : Team),
    let x := team s t
    let d := (launch s x.launch).d
    d.s % 64 = 0 → (∀ e ∈ x.scratch, e.1 < d.s) → tableWf 0 x.scratch = true → (∀ i, tget 0 x.tags i < 4) →
    (∀ k < 1024 * d.t, (tget LA.zero x.acc k).d.length = 10 ∧ (tget LA.zero x.acc k).c.length = 10) →
    (∀ e ∈ x.recs, e.1 < 16 ∧ resTrap e.2.1 e.2.2 = none) → tableWf (0, 0) x.recs = true → (∀ e ∈ x.obuf, e.1 < 262144) → tableWf 0 x.obuf = true →
    (∀ e ∈ x.copies, e.1 < Config.copyLimit) →
    AreaHolds a (teamArea d) ((List.range (groupsPerTeam d)).map fun k => groupOffset d k + 0x3000) (teamChunks s t) →
    (∀ m < Config.copyLimit, copyFrom a groups m (tget none old.copies m) ≠ none) →
    (teamChunks s t).Pairwise (fun c e => c.1 + c.2.length ≤ e.1 ∨ e.1 + e.2.length ≤ c.1) →
    ∃ y, teamFrom d a [] groups old = some y ∧ y.preq = false ∧ y.pdead = 0 ∧ y.poison = [] ∧
      (∀ k < d.s, mbyte y.scratch k = mbyte x.scratch k) ∧ (∀ i < d.s / 16, tget 0 y.tags i = tget 0 x.tags i) ∧
      (∀ k < 1024 * d.t, tget LA.zero y.acc k = laOfBytes (laBytes (tget LA.zero x.acc k))) ∧ (∀ n < 16, tget (0, 0) y.recs n = tget (0, 0) x.recs n) ∧
      (∀ k < 262144, reserved x k = true → mbyte y.obuf k = mbyte x.obuf k) ∧
      ∀ m < Config.copyLimit, copyFrom a groups m (tget none old.copies m) = some (tget none y.copies m))

/-- R370 to R375, R386: The packets of a command stream. A packet at hand takes its effect and the stream goes past it: `nop`, a launch submitted or refused, a wait whose semaphore has its value, a store with its interrupt, a copy handed to the front end's engine, a fence once the stream is idle, a mark, a jump to its buffer. What a front end may name, and a copy of count 0, are log 24's readings. -/
def Obligations.Packets : Prop :=
  ∀ (s : State) (q : Nat) (irq : Bool) (body : List Byte), NoSinks s → (queue s q).jump = none →
    let x := queue s q
    let who := queueWho s q (.queue q)
    let w := fun i => BitVec.ofNat 64 (fieldAt body (8 * i) 8)
    let raised := if irq = true ∧ partResetting s (partOfQueue s q) = false then [(if x.priv = 2 then 0 else partOfQueue s q + 1, x.vec.toNat)] else []
    let ring := fun (s' : State) => ({ s' with out := { s'.out with interrupts := s'.out.interrupts ++ raised } } : State)
    let idle := x.launches = [] ∧ x.copy = none
    (∀ n, 1 ≤ n → PacketReady s q 0 n false body → exec (.packetNop q) s = .next (pastPacket s q (8 * n))) ∧
    (PacketReady s q 1 2 irq body → (w 0).toNat % 256 = 0 → ∀ bs, queueRead s who (w 0) 768 = (s, .ok bs) →
      let d := readDescriptor bs
      let new := { Launch.blank with live := true, d := d, part := partOfQueue s q, priv := x.priv, chip := chipNo s, queue := some q, irq := irq,
                                     phase := .running, since := s.time.now }
      let enters := fun y => ∃ t, exec (.packetLaunch q) s = .next t ∧ launch t s.work.next = y ∧ t.mem = s.mem ∧
        queue t q = { queue (pastPacket s q 16) q with launches := x.launches ++ [s.work.next] }
      (∀ c, refusalCause s (partOfQueue s q) (chipNo s) bs = some c → enters { new with phase := .ending, fin := some ⟨5, c, 0, chipNo s, 0, 0⟩, ends := s.time.now }) ∧
      (refusalCause s (partOfQueue s q) (chipNo s) bs = none → otherChips s d = [] →
        (∀ c, treeFault s d (descDepth bs) (chipNo s) = some c → enters { new with phase := .ending, fin := some ⟨1, c, 0, chipNo s, 0, 0⟩, ends := s.time.now }) ∧
        (treeFault s d (descDepth bs) (chipNo s) = none → enters new))) ∧
    (PacketReady s q 2 3 false body → (w 0).toNat % 8 = 0 → ∀ bs, queueRead s who (w 0) 8 = (s, .ok bs) →
      ((w 1).toNat ≤ ofLe bs → exec (.packetWait q) s = .next (pastPacket s q 24)) ∧
      (ofLe bs < (w 1).toNat → exec (.packetWait q) s = .next (setQueue s q { x with wait := true, waitStart := cycleOf s (queueDie q * 64) }))) ∧
    (∀ bs, x.wait = true → x.bound ≠ none → holdsWork x = true → (∀ f ∈ s.work.faults, f.1 ≠ .queue q) →
      queueRead s who (packetAt x + 8) 16 = (s, .ok body) → queueRead s who (w 0) 8 = (s, .ok bs) → (w 1).toNat ≤ ofLe bs →
      exec (.semaphoreSatisfied q) s = .next (pastPacket s q 24)) ∧
    (PacketReady s q 3 3 irq body → (w 0).toNat % 8 = 0 → idle → ∀ m, queueWrite s who (w 0) (leBytes 8 (w 1).toNat) = ({ s with mem := m }, .ok []) →
      exec (.packetSignal q) s = .next (pastPacket (ring { s with mem := m }) q 24)) ∧
    (PacketReady s q 4 4 false body → bits (w 2) 63 32 = 0 → w 2 ≠ 0 → x.copy = none →
      ∃ t, exec (.packetCopy q) s = .next t ∧
        t = setQueue s q { queue (pastPacket s q 32) q with copy := some ⟨w 0, w 1, bits (w 2) 31 0, 0, false, x.head⟩ }) ∧
    (PacketReady s q 5 1 irq body → (idle → exec (.packetFence q) s = .next (pastPacket (ring s) q 8)) ∧ (¬idle → exec (.packetFence q) s = .next s)) ∧
    (PacketReady s q 6 2 false body → exec (.packetMark q) s = .next (pastPacket s q 16)) ∧
    (PacketReady s q 7 3 false body → (w 0).toNat % 8 = 0 → (w 1).toNat % 8 = 0 → 8 ≤ (w 1).toNat → (w 1).toNat ≤ 2 ^ 20 →
      exec (.packetJump q) s = .next (setQueue s q { x with jump := some (w 0, (w 1).toNat, 0) }))

/-- R370, R372, R373: A front end's copy moves its bytes and ends when all are written; a fault in it is a stream error at its packet, which waits while the stream waits for the joins of a launch (the model's choice, log 24); a waiting queue is bound to a free front end of its die, the lowest by the model's choice (log 22), and one whose semaphore has stayed low for 65,536 cycles gives it up. A packet whose header breaks the length of its type, sets a bit that must be zero, or asks for an interrupt its type does not allow is a stream error: the queue halts with head at the packet, err tells the cause, the front end is free, and the queue's interrupt is raised. That a set irq bit of another type counts as a bit that must be zero is log 24's reading. -/
def Obligations.FrontEnds : Prop :=
  (∀ (s : State) (q : Nat),
    let x := queue s q
    let d := q / 8192
    let p := partOfQueue s q
    (∀ (k : QCopy) (m : List Host.Cell) (bs : List (Option Byte)), x.copy = some k → k.done < k.count → (∀ f ∈ s.work.faults, f.1 ≠ .qcopy q) →
      let who := queueWho s q (.qcopy q)
      let src := k.src + BitVec.ofNat 64 k.done
      let dst := k.dst + BitVec.ofNat 64 k.done
      let n := min (k.count - k.done) (min (0x10000 - bits src 15 0) (0x10000 - bits dst 15 0))
      engineLoad s who src n = (s, .bytes bs none) → engineStore s who dst bs = ({ s with mem := m }, .done none) →
      exec (.packetCopyDone q) s = .next (setQueue { s with mem := m } q { x with copy := some { k with done := k.done + n } })) ∧
    (∀ k, x.copy = some k → k.count ≤ k.done →
      (k.failed = false → exec (.packetCopyDone q) s = .next (setQueue s q { x with copy := none })) ∧
      (k.failed = true → joiningOf s q ≠ none → exec (.packetCopyDone q) s = .next s) ∧
      (k.failed = true → joiningOf s q = none → ∃ t, exec (.packetCopyDone q) s = .next t ∧ t.mem = s.mem ∧
        queue t q = { x with copy := none, head := k.pos, halt := true, err := 4, bound := none, jump := none, wait := false, released := false } ∧
        (partResetting s p = false → t.out.interrupts = s.out.interrupts ++ [(if x.priv = 2 then 0 else p + 1, x.vec.toNat)]))) ∧
    (wantsFrontEnd s q = true → (∀ e ∈ s.queues, e.1 / 8192 = d → wantsFrontEnd s e.1 = true → x.order ≤ e.2.order) →
      let used := (boundOn s d).map (·.1)
      ∃ f, f < 64 ∧ f ∉ used ∧ (∀ k < f, k ∈ used) ∧ exec (.frontEndBind q) s = .next (setQueue s q
        { x with bound := some f, released := false, waitStart := if x.wait then cycleOf s (d * 64) else x.waitStart })) ∧
    (x.wait = true → x.bound ≠ none → x.waitStart + 65536 ≤ cycleOf s (d * 64) →
      exec (.frontEndRelease q) s = .next (setQueue s q { x with bound := none, released := true })) ∧
    ((x.wait = false ∨ x.bound = none ∨ cycleOf s (d * 64) < x.waitStart + 65536) → exec (.frontEndRelease q) s = .next s)) ∧
  (∀ (s : State) (q : Nat) (h : Word) (e : Nat), mayRead s q = true → (∀ f ∈ s.work.faults, f.1 ≠ .queue q) →
    let x := queue s q
    let p := partOfQueue s q
    queueRead s (queueWho s q (.queue q)) (packetAt x) 8 = (s, .ok (leBytes 8 h.toNat)) →
    let ty := bits h 7 0
    let n := bits h 15 8
    let good := ty = 0 ∧ 1 ≤ n ∨ ty = 1 ∧ n = 2 ∨ ty = 2 ∧ n = 3 ∨ ty = 3 ∧ n = 3 ∨ ty = 4 ∧ n = 4 ∨ ty = 5 ∧ n = 1 ∨ ty = 6 ∧ n = 2 ∨ ty = 7 ∧ n = 3
    (¬good ∧ e = 1 ∨ good ∧ (bits h 63 17 ≠ 0 ∨ h.getLsbD 16 = true ∧ ty ∉ [1, 3, 5]) ∧ e = 2) →
    ∀ i ∈ [Instr.packetNop q, .packetLaunch q, .packetWait q, .packetSignal q, .packetCopy q, .packetFence q, .packetMark q, .packetJump q],
      ∃ t, exec i s = .next t ∧ t.mem = s.mem ∧
        queue t q = { x with halt := true, err := e, bound := none, jump := none, wait := false, released := false } ∧
        (partResetting s p = false → t.out.interrupts = s.out.interrupts ++ [(if x.priv = 2 then 0 else p + 1, x.vec.toNat)]))

/-- R6, R367, R369, R370, R384, R406, R5, R312, R391, R399, R65, R383: The host writes a queue's registers through a function's window. A doorbell below the ring size and a multiple of 8 moves tail, and starts the queue's wait for a front end where it held nothing; ring and control registers take their fields, priv through function 0 alone; a write that breaks a limit is discarded; 1 written to halt clears it and err. Before the package is ready each such write is completed with an unsupported-request status. That a ring base which is not aligned to the ring's size is accepted is log 24's reading. The host writes partition registers through function 0. pctl keeps rst, and en written 0 and then 1 begins a partition reset; csctl keeps kinds, asn, lossless and en, clears err where 1 is written, refuses another asn while en is 1, and en going from 0 to 1 sets written and read to 0; csrd takes a value within its range only; ptrace sets the trace bit of its launch and of the launch's running groups, and has no effect for a launch that does not exist. That csctl.en written 0 drops what is held back, and which writes of pctl.en begin a reset, are log 24's readings. The host names the package. Setting en announces the number; a write that changes the number while en is 1, or clears en while a launch over several chips stands, is discarded; without en the package is chip 0. That a write which would change the number is discarded whole is log 24's reading. -/
def Obligations.HostRegisterWrites : Prop :=
  (∀ (s : State) (fn q n : Nat) (v : Word),
    (fn = 0 ∧ q < 32768 ∧ n = q ∨ 1 ≤ fn ∧ fn ≤ 16 ∧ q < bits (preg s (fn - 1) 0x030) 31 16 ∧ n = bits (preg s (fn - 1) 0x030) 14 0 + q) →
    let x := queue s n
    let write := fun (r : Nat) => exec (.registerWindowWrite fn ((if fn = 0 then 0x200000 else 0) + 64 * q + r) v) s
    let tail := bits v 31 0
    let base := v &&& ~~~(0xFFF : Word)
    let lsize := bits v 4 0
    let priv : BitVec 2 := if fn = 0 then BitVec.ofNat 2 (bits v 15 14) else x.priv
    let asn : BitVec 8 := BitVec.ofNat 8 (bits v 23 16)
    let frozen : Prop := priv ≠ x.priv ∧ (queuePart s n).any (locked s) = true
    let other : Prop := ∃ e ∈ s.queues, e.1 ≠ n ∧ e.2.priv = 2
    let missed := if s.boot.power = true then { s with out := { s.out with unsupported := s.out.unsupported + 1 } } else s
    (ready s = false → ∀ o ∈ [write 0x10, write 0, write 8, exec (.doorbell fn q v) s, exec (.haltClear fn q v) s], o = .next missed) ∧
    (ready s = true →
      (tail % 8 = 0 → tail < 2 ^ x.lsize →
        (x.head = x.tail → tail ≠ x.tail →
          exec (.doorbell fn q v) s = .next (setQueue { s with order := s.order + 1 } n { x with tail := tail, order := s.order + 1 })) ∧
        ((x.head ≠ x.tail ∨ tail = x.tail) → exec (.doorbell fn q v) s = .next (setQueue s n { x with tail := tail }))) ∧
      ((tail % 8 ≠ 0 ∨ 2 ^ x.lsize ≤ tail) → exec (.doorbell fn q v) s = .next s) ∧
      write 0x10 = exec (.doorbell fn q v) s ∧ write 0x20 = exec (.haltClear fn q v) s ∧
      (v.getLsbD 0 = true → exec (.haltClear fn q v) s = .next (setQueue s n { x with halt := false, err := 0 })) ∧
      (v.getLsbD 0 = false → exec (.haltClear fn q v) s = .next s) ∧
      (∀ r ∈ [0x18, 0x28, 0x30, 0x38], write r = .next s) ∧
      (12 ≤ lsize → lsize ≤ 24 → (holdsWork x = true → base = x.base ∧ lsize = x.lsize) → write 0 = .next (setQueue s n { x with base := base, lsize := lsize })) ∧
      ((lsize < 12 ∨ 24 < lsize ∨ holdsWork x = true ∧ (base ≠ x.base ∨ lsize ≠ x.lsize)) → write 0 = .next s) ∧
      (¬frozen →
        (priv ≠ 3 → (priv = 2 → ¬other) → (holdsWork x = true → asn = x.asn) →
          write 8 = .next (setQueue s n { x with asn := asn, priv := priv, vec := BitVec.ofNat 6 (bits v 6 1), en := v.getLsbD 0 })) ∧
        ((priv = 3 ∨ priv = 2 ∧ other ∨ holdsWork x = true ∧ asn ≠ x.asn) → write 8 = .next s)) ∧
      (frozen → ∃ t p, queuePart s n = some p ∧ write 8 = .next t ∧ tdispOf t p = .error ∧ partResetting t p = true))) ∧
  (∀ (s : State) (p : Nat) (v : Word), ready s = true → p < 16 →
    let old := preg s p 0
    let w := v &&& 0x101 ||| old &&& 0x200
    let write := fun (r : Nat) => exec (.registerWindowWrite 0 (0x100000 + 0x1000 * p + 8 * r) v) s
    (∃ t, exec (.pctlWrite p v) s = .next t ∧ write 0 = .next t ∧
      (v.getLsbD 8 = false → preg t p 0 = w ∧ t = { setPreg s p 0 w with resets := t.resets } ∧
        (old.getLsbD 8 = true → tget 0 t.resets p = 1) ∧ (old.getLsbD 8 = false → t.resets = s.resets)) ∧
      (v.getLsbD 8 = true → old.getLsbD 8 = false → tget 0 s.resets p = 1 → partResetting t p = true ∧ tget 0 t.resets p = 0) ∧
      (v.getLsbD 8 = true → (old.getLsbD 8 = true ∨ tget 0 s.resets p ≠ 1) → t = setPreg s p 0 w)) ∧
    (∀ d < 4,
      let now := preg s p (0x044 + d)
      let next := v &&& 0xFFFFFF03 ||| now &&& ~~~v &&& 8
      let sz := 2 ^ bits (preg s p (0x040 + d)) 4 0
      let wr := (preg s p (0x048 + d)).toNat
      write (0x044 + d) = exec (.csctlWrite p d v) s ∧ write (0x04C + d) = exec (.csrdWrite p d v) s ∧ write (0x048 + d) = .next (setPreg s p (0x048 + d) (preg s p (0x048 + d))) ∧
      (now.getLsbD 0 = true → bits v 15 8 ≠ bits now 15 8 → exec (.csctlWrite p d v) s = .next s) ∧
      (now.getLsbD 0 = true → v.getLsbD 0 = true → bits v 15 8 = bits now 15 8 → exec (.csctlWrite p d v) s = .next (setPreg s p (0x044 + d) next)) ∧
      (now.getLsbD 0 = false → v.getLsbD 0 = true → ∃ t, exec (.csctlWrite p d v) s = .next t ∧ preg t p (0x044 + d) = next ∧
        preg t p (0x048 + d) = 0 ∧ preg t p (0x04C + d) = 0 ∧ (sink t p d).fresh = true ∧ (sink t p d).held = [] ∧ (sink t p d).lost = 0 ∧
        t = { s with regs := t.regs, sinks := t.sinks }) ∧
      (v.getLsbD 0 = false → (now.getLsbD 0 = true → bits v 15 8 = bits now 15 8) →
        exec (.csctlWrite p d v) s = .next (setSink (setPreg s p (0x044 + d) next) p d { sink s p d with held := [] })) ∧
      (v.toNat ≤ wr → wr ≤ v.toNat + sz → exec (.csrdWrite p d v) s = .next (setPreg s p (0x04C + d) v)) ∧
      ((wr < v.toNat ∨ v.toNat + sz < wr) → exec (.csrdWrite p d v) s = .next s)) ∧
    ∃ t, exec (.ptraceWrite p v) s = .next t ∧ write 0x050 = .next t ∧ t.mem = s.mem ∧
      (launchNamed s p (bits v 31 0) = none → t = s) ∧
      ∀ l, launchNamed s p (bits v 31 0) = some l → preg t p 0x050 = v &&& 0x1FFFFFFFF ∧
        launch t l = { launch s l with trace := v.getLsbD 32 } ∧
        ∀ g, group t g = if (group s g).live = true ∧ launchOf s g = l then
          let x := group s g
          { x with trace := { x.trace with next := some (v.getLsbD 32) } } else group s g) ∧
  (∀ (s : State) (v : Word), ready s = true →
    let p := s.pod
    let chip : BitVec 6 := BitVec.ofNat 6 (bits v 5 0)
    exec (.registerWindowWrite 0 0x100 v) s = exec (.podcfgWrite v) s ∧
    (p.en = true → chip ≠ p.chip → exec (.podcfgWrite v) s = .next s) ∧
    (p.en = true → v.getLsbD 8 = false → multiChipWork s = true → exec (.podcfgWrite v) s = .next s) ∧
    (p.en = true → chip = p.chip → v.getLsbD 8 = true → exec (.podcfgWrite v) s = .next s) ∧
    (p.en = true → chip = p.chip → v.getLsbD 8 = false → multiChipWork s = false →
      ∃ t, exec (.podcfgWrite v) s = .next t ∧ t.pod = { p with chip := chip, en := false, dup := false, peers := 0, gone := t.pod.gone } ∧
        (∀ c < 64, tget 0 t.pod.gone c = if reaches p c = true then s.time.now else tget 0 p.gone c) ∧ chipNo t = 0 ∧ t.out = s.out) ∧
    (p.en = false → v.getLsbD 8 = true → ∃ t, exec (.podcfgWrite v) s = .next t ∧
      t.pod = { p with chip := chip, en := true, dup := false, peers := BitVec.ofNat 64 (2 ^ chip.toNat) } ∧ chipNo t = chip.toNat ∧
      t.out.messages = s.out.messages ++ [Msg.announce chip.toNat]) ∧
    (p.en = false → v.getLsbD 8 = false → exec (.podcfgWrite v) s = .next { s with pod := { p with chip := chip, dup := false, peers := 0 } }))

/-- R95: The memory of the package keeps its one canonical form in every step, whatever the step runs. What an unlisted byte reads as is the model's choice (log 4). -/
def Obligations.StepKeepsMemory : Prop :=
  ∀ s t : State, s.memWf → step s = .next t → t.memWf

/-- R384, R385, R387, R409, R323, R380, R381, R406: An unlocked interface is locked, and what measurement 4 + p covers is taken then; a locked one is started; stopping an interface and a function-level reset begin a partition reset: pctl.rst reads 1, the partition's queues halt without their front ends, which wait for no walk any more, and its running launches that have a group or a saved node here end with status 0x04; so does one submitted here whose last team has just ended, by the model's choice (log 24). A measurement is answered by its digest, signed, once the identity key has been rebuilt. What measurement 4 + p covers byte by byte, and the digest and signature as functions, are the model's (log 13). That stopping returns the interface to CONFIG_UNLOCKED, and that a function-level reset leaves its state, are log 24's readings. An access of the host to device memory reads or writes the bytes of its line at their home; a virtual function reaches only its partition's units, and outside them a read answers poison and a write is dropped. An offset above the storage of the dies is none. Before the package is ready an access is completed with an unsupported-request status. That poison answers without data bits is log 24's reading. -/
def Obligations.DeviceInterfaces : Prop :=
  (∀ (s : State) (p : Nat), ready s = true → p < 16 →
    let began := fun (t : State) =>
      partResetting t p = true ∧ (NoSinks s → s.parts = [] → t.mem = s.mem) ∧
      (∀ q, ownsQueue s p q = true → (queue s q).en = true → queue t q = { queue s q with halt := true, bound := none, copy := none }) ∧
      (∀ q, ownsQueue s p q = true → waiting t (.queue q) = false ∧ waiting t (.qcopy q) = false) ∧
      ∀ l, (launch s l).live = true → (launch s l).part = p → (launch s l).fin = none → (launch s l).phase = .running →
        (resetKills s l = true → (launch t l).fin = some ⟨4, 0, 0, chipNo s, 0, 0⟩ ∧ (launch t l).phase = .ending) ∧
        (resetKills s l = false → launch t l = launch s l)
    (tdispOf s p = .configUnlocked → ∃ t, exec (.tdispLockInterface p) s = .next t ∧ tdispOf t p = .configLocked ∧ tget [] t.locks p = lockBytes s p ∧
      t = { s with tdisp := t.tdisp, locks := t.locks }) ∧
    (tdispOf s p ≠ .configUnlocked → exec (.tdispLockInterface p) s = .next s) ∧
    (tdispOf s p = .configLocked → ∃ t, exec (.tdispStartInterface p) s = .next t ∧ tdispOf t p = .run ∧ t = { s with tdisp := t.tdisp }) ∧
    (tdispOf s p ≠ .configLocked → exec (.tdispStartInterface p) s = .next s) ∧
    (∃ t, exec (.tdispStop p) s = .next t ∧ tdispOf t p = .configUnlocked ∧ began t) ∧
    (∃ t, exec (.functionLevelReset p) s = .next t ∧ tdispOf t p = tdispOf s p ∧ began t) ∧
    (∀ i bs, (i = 1 ∧ bs = s.boot.firmware ∨ i = 2 ∧ bs = moduleBytes s.boot ∨
        i = 3 ∧ bs = walkerBytes s 0 ++ walkerBytes s 1 ++ walkerBytes s 2 ++ walkerBytes s 3 ∨ ∃ k < 16, i = 4 + k ∧ bs = tget [] s.locks k) →
      s.boot.keyed = true → ∃ t, exec (.spdmRequest i) s = .next t ∧ t = { s with out := { s.out with spdm := t.out.spdm } } ∧
        t.out.spdm = s.out.spdm ++ [Config.shake256 bs 64 ++ Config.ed448Sign (Config.shake256 bs 64)]) ∧
    ∀ i, (s.boot.keyed = false ∨ i = 0 ∨ 20 ≤ i) → exec (.spdmRequest i) s = .next s) ∧
  ((∀ (s : State) (fn addr : Nat) (w : Bool) (data : List Byte), s.boot.power = true → ready s = false →
    exec (.hostMemAccess fn addr w data) s = .next { s with out := { s.out with unsupported := s.out.unsupported + 1 } }) ∧
  ∀ (s : State) (fn addr : Nat) (data : List Byte), ready s = true → fn ≤ 16 → addr % 64 + data.length ≤ 64 →
    let d := addr / 0x1800000000
    let phys := addr % 0x1800000000
    let flat := dieBase (chipNo s * 4 + d) + phys
    let unit := phys / 2 ^ 29
    let units := preg s (fn - 1) (0x010 + d)
    let reaches : Prop := fn = 0 ∨ bits units 7 0 ≤ unit ∧ unit < bits units 7 0 + bits units 15 8
    let read := exec (.hostMemAccess fn addr false data) s
    let write := exec (.hostMemAccess fn addr true data) s
    (4 * 0x1800000000 ≤ addr → read = .fault (.noStorage addr) ∧ write = .fault (.noStorage addr)) ∧
    (addr < 4 * 0x1800000000 →
      (reaches → s.parts = [] → (∀ m k, objectIn m s (chipNo s * 4 + d) k = none) →
        (∃ t, read = .next t ∧ t = { s with out := { s.out with host := t.out.host } } ∧
          t.out.host = s.out.host ++ [(mread s.mem flat data.length, s.bad.contains (flat / 64))]) ∧
        ∃ t, write = .next t ∧ t = { s with mem := t.mem, bad := t.bad } ∧
          ∀ a, mbyte t.mem a = if flat ≤ a ∧ a < flat + data.length then data.getD (a - flat) 0 else mbyte s.mem a) ∧
      (¬reaches → NoSinks s →
        write = .next s ∧ ∃ t, read = .next t ∧ t = { s with out := { s.out with host := t.out.host } } ∧ t.out.host = s.out.host ++ [([], true)])))

/-- R14, R375, R382, R383, R408, R3, R405, R264, R299, R359: What a package hears of its pod. The announcement of its own number by another package sets dup, and podpeers leaves its own bit out; another number's bit follows whether one reachable package announces it; a number no longer announced leaves podpeers; the time at which a chip ceased to be within reach is kept. A port that loses a lane brings in its spare, then goes down; the failure is journalled as one of step 8, for the next cold start, with a free detail (logs 14 and 20). A request that has waited at another chip for 10 ms takes the address fault. That what the pod and the lanes do comes with the events is the model's choice (logs 11 and 14). The clock of a die is lowered, raised up to 1.6 GHz, stopped and started again; every sink of the die that is enabled gets a rate record of the new clock. That the clock changes come with events, and the order of their records, are logs 14 and 24. A soft error poisons its unit, once: a register in one lane, a whole register, a granule, a slot or a line; the group is not killed. One that goes undetected in the accumulator store inverts a bit of a live or of a shadow slot. One that repeats is journalled as a failure of the physical site on which its core stands, or of its die-to-die link, for the next cold start. That the error and its place come with the event, and which spare site a position stands on, are log 14's, and the detail of the entry is a free value (log 20). -/
def Obligations.PackageEvents : Prop :=
  (∀ (s : State) (chip : Nat), s.boot.power = true → chip < 64 →
    let p := s.pod
    let own : Prop := chip = p.chip.toNat
    let others := fun (t : State) => t = { s with pod := { p with dup := t.pod.dup, peers := t.pod.peers, gone := t.pod.gone } } ∧
      (∀ k, k ≠ chip → t.pod.peers.getLsbD k = p.peers.getLsbD k) ∧
      ∀ k < 64, tget 0 t.pod.gone k = if reaches p k = true ∧ reaches t.pod k = false then s.time.now else tget 0 p.gone k
    (∀ dup, (p.en = false → exec (.podAnnouncement chip dup) s = .next s) ∧
      (p.en = true → ∃ t, exec (.podAnnouncement chip dup) s = .next t ∧ others t ∧
        (own → t.pod.dup = true ∧ t.pod.peers.getLsbD chip = false) ∧
        (¬own → t.pod.dup = p.dup ∧ t.pod.peers.getLsbD chip = !dup))) ∧
    (∃ t, exec (.chipUnreachable chip) s = .next t ∧ others t ∧ (own → t.pod.dup = false ∧ t.pod.peers.getLsbD chip = p.en) ∧
      (¬own → t.pod.dup = p.dup ∧ t.pod.peers.getLsbD chip = false)) ∧
    (∀ port, NoSinks s →
      (port < 12 → tget 0 p.ports port < 2 → ∃ t e, exec (.ualinkLaneFailure port) s = .next t ∧ tget 0 t.pod.ports port = tget 0 p.ports port + 1 ∧
        (∀ k, k ≠ port → tget 0 t.pod.ports k = tget 0 p.ports k) ∧ t.boot.journal.getLast? = some e ∧ e.step = 8 ∧ e.outcome = 2 ∧
        e.unit = port / 3 * 256 + port ∧ e.torn = false ∧ (∀ f ∈ s.boot.journal, f.torn = false → f.seq < e.seq) ∧
        t = { s with pod := { p with ports := t.pod.ports }, boot := { s.boot with journal := t.boot.journal }, fresh := t.fresh }) ∧
      ((12 ≤ port ∨ 2 ≤ tget 0 p.ports port) → exec (.ualinkLaneFailure port) s = .next s)) ∧
    ∀ (r : Waiter) (x : Walk), s.work.waits = [r] → walk s r.walk = some x → x.die / 4 ≠ chipNo s →
      (r.since + 2560000000 ≤ s.time.now → exec (.remoteRequestTimeout r.agent) s = .next (setWalk { s with work := { s.work with
        waits := [], faults := s.work.faults ++ [(r.agent, x.die, pageOf x.va, causeUndelivered)] } } r.walk none)) ∧
      (s.time.now < r.since + 2560000000 → exec (.remoteRequestTimeout r.agent) s = .next s)) ∧
  (∀ (s : State) (d mhz : Nat), s.boot.power = true → d < 4 →
    let gd := chipNo s * 4 + d
    let x := die s gd
    let changed := (List.range 16).foldl (fun (u : State) p => putRecord u p d ⟨9, 0, timeSource u d, now u, varint mhz, false⟩) (setDie s gd { x with mhz := mhz })
    (NoSinks s → changed = setDie s gd { x with mhz := mhz }) ∧
    (x.stopped = false → 0 < mhz → mhz < x.mhz → exec (.clockLimit d mhz) s = .next changed) ∧
    ((x.stopped = true ∨ mhz = 0 ∨ x.mhz ≤ mhz) → exec (.clockLimit d mhz) s = .next s) ∧
    (x.stopped = false → x.mhz < mhz → mhz ≤ 1600 → exec (.clockRaise d mhz) s = .next changed) ∧
    ((x.stopped = true ∨ mhz ≤ x.mhz ∨ 1600 < mhz) → exec (.clockRaise d mhz) s = .next s) ∧
    exec (.clockStop d) s = .next (setDie s gd { x with stopped := true }) ∧
    (x.stopped = true → NoSinks s → exec (.clockRestart d) s = .next (setDie s gd { x with stopped := false })) ∧
    (x.stopped = false → exec (.clockRestart d) s = .next s)) ∧
  (∀ (s : State) (g r i t tile k : Nat), ready s = true →
    let grp := fun (u : SoftUnit) (p : PoisonUnit) =>
      p ∉ (group s g).poison → exec (.softError u false) s = .next (setGroup s g { group s g with poison := (group s g).poison ++ [p] })
    let tm := fun (u : SoftUnit) (p : Nat) =>
      p ∉ (team s t).poison → exec (.softError u false) s = .next (setTeam s t { team s t with poison := (team s t).poison ++ [p] })
    let dt := (launch s (team s t).launch).d
    ((group s g).live = true →
      (r < (descOf s g).v → i < 128 → grp (.lane g r i) ⟨1, r, i⟩) ∧ (0 < r → r < 64 → grp (.scalar g r) ⟨0, r, 0⟩) ∧
      (r < 16 → grp (.tile g r) ⟨4, r, 0⟩) ∧ (0 < r → r < 8 → grp (.pred g r) ⟨2, r, 0⟩) ∧ (r < (descOf s g).q → i < 128 → grp (.acc g r i) ⟨3, r, i⟩)) ∧
    ((team s t).live = true →
      (tile < dt.t → i < 1024 → tm (.slot t tile i) (2 ^ 32 + 1024 * tile + i) ∧
        ∀ bit < 1024, ∀ shadow, ∃ u, exec (.softError (.flip t tile i bit shadow) false) s = .next u ∧ u.mem = s.mem ∧ (team u t).poison = (team s t).poison ∧
          let bank := fun (m : Team) (b : Bool) c => tget LA.zero (if b then m.shadow else m.acc) c
          let bs := laBytes (bank (team s t) shadow (1024 * tile + i))
          ∀ b c, bank (team u t) b c = if b = shadow ∧ c = 1024 * tile + i then laOfBytes (bs.set (bit / 8) (bs.getD (bit / 8) 0 ^^^ BitVec.ofNat 8 (2 ^ (bit % 8))))
            else bank (team s t) b c) ∧ (64 * k < dt.s → tm (.scratch t k) k)) ∧
    (storedHere s k = true → k ∉ s.bad → exec (.softError (.memory k) false) s = .next { s with bad := s.bad ++ [k] }) ∧
    ((group s g).live = true → 0 < r → r < 64 → NoSinks s →
      ∃ u e, exec (.softError (.scalar g r) true) s = .next u ∧ ⟨0, r, 0⟩ ∈ (group u g).poison ∧ (group u g).live = true ∧
        u.boot.journal.getLast? = some e ∧ e.step = 7 ∧ e.outcome = 2 ∧ e.torn = false ∧
        e.unit = (coreOf s g / 64 * 256 + siteOf (s.boot.field.getD emptyField) (coreOf s g / 64) (coreOf s g % 64)) % 65536) ∧
    ∀ d n, d < 4 → n < 256 → NoSinks s → exec (.softError (.link d n) false) s = .next s ∧
      ∃ u e, exec (.softError (.link d n) true) s = .next u ∧ u.boot.journal.getLast? = some e ∧ e.step = 6 ∧ e.outcome = 2 ∧ e.unit = d * 256 + n ∧ e.torn = false)

/-- R389, R392, R395, R396, R403: Package time and the records of a sink. The lock follows the input: its loss, after 1 s of which the time runs free, and an input outside its tolerance; an offset forward by more than 1 ms is taken in one step, another is slewed away; a sink that is due writes a time-base record of the absolute time and its quality, and a record it holds is written when it fits. That the times are those of the model's steps, and the schedule by which an offset is slewed away, are log 2's. Package time. While the module has power it advances with every step by one nominal cycle, whatever the clocks do; an offset from the input is slewed away by one unit at most where the cycle passes a multiple of 5,120 units, below 200 ppm, and never turns time back. That a step takes one nominal cycle, and the slewing schedule of one unit per 5,120, are the model's choices (log 2). -/
def Obligations.TimeAndRecords : Prop :=
  (∀ (s : State), s.boot.power = true →
    let x := s.time
    ((x.lock = .locked ∨ x.outside = true) →
      exec .ptpInputLoss s = .next { s with time := { x with lock := .holdover, lost := x.now, outside := false } }) ∧
    (x.lock ≠ .locked → x.outside = false → exec .ptpInputLoss s = .next s) ∧
    exec (.ptpInputRestore none) s = .next { s with time := { x with lock := .holdover, outside := true } } ∧
    (x.lock = .holdover → x.outside = false → x.lost + 1000000000 * 256 ≤ x.now →
      exec .holdoverExpiry s = .next { s with time := { x with lock := .freeRunning } }) ∧
    ((x.lock ≠ .holdover ∨ x.outside = true ∨ x.now < x.lost + 1000000000 * 256) → exec .holdoverExpiry s = .next s) ∧
    (∀ offset : Int, offset ≤ 1000000 * 256 →
      exec (.ptpInputRestore (some offset)) s = .next { s with time := { x with lock := .locked, outside := false, slew := offset } }) ∧
    (∀ offset : Int, 1000000 * 256 < offset → ∃ t, exec (.ptpInputRestore (some offset)) s = .next t ∧
      t = { s with time := t.time, sinks := t.sinks } ∧ t.time.lock = .locked ∧ t.time.slew = 0 ∧ (t.time.now : Int) = x.now + offset) ∧
    ∀ (p d : Nat) (u : State), p < 16 → d < 4 → sinkOn s p d = true → (die s (chipNo s * 4 + d)).stopped = false →
      let k := sink s p d
      let written := (preg s p (0x048 + d)).toNat
      let room := fun (bs : List Byte) =>
        written + padFor s p d bs.length + bs.length ≤ ringSize s p d + (preg s p (0x04C + d)).toNat ∧ ringWrite s p d bs = (u, .wrote)
      let quality := (match x.lock with | .locked => 0 | .holdover => 1 | .freeRunning => 2) + if k.stepped then 128 else 0
      let base := [0xC0] ++ varint (chipNo s * 2 ^ 26 + d * 2 ^ 24 + 10 * 2 ^ 20) ++ leBytes 8 (x.now / 256) ++ [BitVec.ofNat 8 (x.now % 256), BitVec.ofNat 8 quality]
      (k.held = [] → k.lost = 0 → k.unit ≤ x.now → (k.fresh = true ∨ k.base + 1000000 * 256 ≤ x.now) → room base →
        exec (.timeBaseTimer p d) s = .next (setSink u p d
          { sink u p d with last := x.now, unit := x.now, count := 0, base := x.now, fresh := false, stepped := false })) ∧
      (k.fresh = false → x.now < k.base + 1000000 * 256 → exec (.timeBaseTimer p d) s = .next s) ∧
      (k.held = [] → exec (.heldRecordEmit p d) s = .next s) ∧
      ∀ r, k.held = [r] → k.lost = 0 → k.fresh = false → k.count < 2 ^ 16 → x.now < k.base + 1000000 * 256 → r.typ ≠ 0xC → kindOn s p d r = true →
        sinkOn u p d = true →
        let time := if ownRec r = true then max r.time k.unit else r.time
        room (encodeRec { r with time := time } k.last) →
        ∃ t, exec (.heldRecordEmit p d) s = .next t ∧ t = { u with sinks := t.sinks } ∧
          sink t p d = { sink u p d with last := time, unit := if ownRec r = true then time else (sink u p d).unit, count := (sink u p d).count + 1, held := [] }) ∧
  (∀ (s : State), s.boot.power = true →
    let a := s.time
    let b := (beforeTurn s).time
    let passes : Prop := ∃ k : Nat, a.now < 5120 * k ∧ 5120 * k ≤ a.now + 160
    a.now < b.now ∧ b.lock = a.lock ∧ (b.now : Int) + b.slew = a.now + 160 + a.slew ∧
    ((a.slew = 0 ∨ ¬passes) → b.now = a.now + 160) ∧ (0 < a.slew → passes → b.now = a.now + 161) ∧ (a.slew < 0 → passes → b.now = a.now + 159))

/-- R9, R14, R406 to R410, R407, R406, R408, R411: A cold start. Power comes on; each step that the boot controller takes appends a journal entry above every whole one; a step passes and the next follows, or fails and the sequence restarts with another attempt, until an alternative passes, or finds its spares exhausted, which stops bring-up at steps 4 to 6 and leaves a position vacant or a port down at steps 7 and 8; step 3 waits for firmware; after step 9 the package is ready. A kept alternative stands in the signed field section. That a step's physical work comes with the event is the model's choice (log 14), and so are the signatures as functions (log 13). What an alternative may still do. A stack has one spare channel; a die's SRAM goes from 100% to 87.5% to 75% and no lower; a link whose spare lanes are used up goes to half its width once; a die's retired sites use up its 8 spare sites before a position stays vacant, one for each beyond them; a port that has its spare lane in use is left down. A repair may spend spare rows beside a channel or a site. On which spare site a position stands, which position stays vacant, and that the factory spare map has no part in it, are the model's choices (logs 13 and 14). While the controller waits for firmware, a length of 4,096 bytes to 8 MiB submits the image at fwbase: its bytes are copied, and step 3 passes when every check does, else fails and waits again; fwbase takes a multiple of 4,096; in any other state a write of fwlen is discarded. The host reads bootst, fwbase and fwlen at any time, and before the package is ready nothing else; a write of bootst then has no effect, and one of another offset is completed with an unsupported-request status. The loss of power ends all work and keeps the journal, the module record and the host's memory. -/
def Obligations.BringUp : Prop :=
  (∀ (s : State) (unit detail : Nat), NoSinks s →
    let b := s.boot
    let run := fun r => exec (.coldStart r unit detail) s
    let entry := fun (t : State) (step outcome un de : Nat) => ∃ e, t.boot.journal.getLast? = some e ∧ e.step = step ∧ e.outcome = outcome ∧
      e.unit = un % 65536 ∧ e.detail = de % 2 ^ 32 ∧ e.time = s.time.now / 256 ∧ e.torn = false ∧ ∀ f ∈ b.journal, f.torn = false → f.seq < e.seq
    let attempt := if b.outcome = 2 ∧ 4 ≤ b.step then b.attempt + 1 else b.attempt
    let took := fun (t : State) (step outcome next phase : Nat) =>
      t.boot.step = step ∧ t.boot.outcome = outcome ∧ t.boot.next = next ∧ t.boot.phase = phase ∧ t.boot.attempt = attempt
    let signed := fun (f : Config.FieldSection) => some { f with sig := Config.ed448Sign (Config.fieldBytes { f with sig := [] }) }
    let goodFactory := Config.ed448Verify Config.moduleKey (Config.factoryBytes { b.factory with sig := [] }) b.factory.sig = true
    let goodField := ∀ f, b.field = some f → some f = signed f
    let field := b.field.getD emptyField
    (b.power = false → ∀ r, run r = .next { s with boot := { b with power := true } }) ∧
    (b.power = true → b.phase ≠ 0 → ∀ r, run r = .next s) ∧
    (b.power = true → b.phase = 0 →
      (b.next = 1 → lastFailure b 1 = none → (∃ t, run 0 = .next t ∧ took t 1 0 2 0 ∧ entry t 1 0 unit detail ∧ t.boot.keyed = true) ∧
        ∃ t, run 1 = .next t ∧ took t 1 2 1 3 ∧ entry t 1 2 unit detail) ∧
      (b.next = 1 → lastFailure b 1 ≠ none → ∀ r, ∃ t, run r = .next t ∧ t.boot.phase = 3) ∧
      (b.next = 2 → (goodFactory → goodField → ∃ t, run 0 = .next t ∧ took t 2 0 3 0 ∧ entry t 2 0 unit detail ∧ t.boot.field = b.field) ∧
        (∀ r, goodFactory → r ≠ 2 → (r = 1 ∨ ¬goodField) →
          ∃ t, run r = .next t ∧ took t 2 1 3 0 ∧ entry t 2 1 unit detail ∧ t.boot.field = signed emptyField) ∧
        ∀ r, (r = 2 ∨ ¬goodFactory) → ∃ t, run r = .next t ∧ took t 2 2 2 3 ∧ entry t 2 2 unit detail) ∧
      (b.next = 3 → ∀ r, ∃ t, run r = .next t ∧ took t 3 0 3 1 ∧ t.boot.journal = b.journal) ∧
      (∀ k, 4 ≤ k → k ≤ 8 → b.next = k →
        let failed := fun r => ∃ t, run r = .next t ∧ entry t k 2 unit detail ∧ took t k 2 1 (if 4 ≤ attempt then 3 else 0)
        (lastFailure b k = none → (∃ t, run 0 = .next t ∧ took t k 0 (k + 1) 0 ∧ entry t k 0 unit detail ∧ t.boot.field = b.field) ∧ ∀ r, r ≠ 0 → failed r) ∧
        ∀ e, lastFailure b k = some e → ∀ r,
          (alternative field k r e.unit e.detail = none →
            ∃ t, run r = .next t ∧ entry t k 3 e.unit e.detail ∧ took t k 3 k 3 ∧ t.boot.field = signed field) ∧
          ∀ f, alternative field k r e.unit e.detail = some f →
            let goesOn := fun outcome => ∃ t, run r = .next t ∧ entry t k outcome e.unit e.detail ∧ took t k outcome (k + 1) 0 ∧ t.boot.field = signed f
            (leftOut field f k e.unit = true → goesOn 3) ∧
            (leftOut field f k e.unit = false → ((r = 1 ∨ r = 5) → failed r) ∧ (r ≠ 1 → r ≠ 5 → goesOn 1))) ∧
      (b.next = 9 → ∀ r, ∃ t, run r = .next t ∧ took t 9 0 9 2 ∧ entry t 9 0 0 0 ∧ ready t = true ∧ t.time.lock = .locked ∧
        (∀ d < 4, ∀ i ∈ vacancies field d, (core t (64 * d + i)).vacant = true) ∧
        t.boot.field = if raises b.firmware then signed { field with version := fieldAt b.firmware 8 8 } else b.field))) ∧
  (∀ (f : Config.FieldSection) (r unit detail : Nat),
    (alternative f 4 r unit detail = none ↔ r ≠ 3 ∧ r ≠ 5 ∧ (r = 2 ∨ ∃ e ∈ f.channels, e.1 = unit)) ∧
    (∀ g, alternative f 4 4 unit detail = some g → g = { f with channels := f.channels ++ [(unit, detail)], rows := f.rows ++ [(4, unit, detail)] }) ∧
    (alternative f 5 r unit detail = none ↔ 2 ≤ tget 0 f.rates (unit / 256)) ∧
    (∀ g, alternative f 5 r unit detail = some g → tget 0 g.rates (unit / 256) = tget 0 f.rates (unit / 256) + 1 ∧ g = { f with rates := g.rates }) ∧
    (alternative f 6 r unit detail = none ↔ r ≠ 0 ∧ r ≠ 1 ∧ unit ∈ f.halves) ∧
    (∀ g, r ≠ 3 → r ≠ 5 → alternative f 7 r unit detail = some g →
      g = { f with sites := f.sites ++ [unit], rows := if r = 4 then f.rows ++ [(7, unit, detail)] else f.rows }) ∧
    (∀ g, alternative f 8 r unit detail = some g → tget 0 g.ports (unit % 256) = (if tget 0 f.ports (unit % 256) = 0 then 1 else 2) ∧
      (leftOut f g 8 unit = true ↔ tget 0 f.ports (unit % 256) ≠ 0)) ∧
    (alternative f 7 r unit detail ≠ none ∧ alternative f 8 r unit detail ≠ none) ∧
    ∀ d, let gone := retiredOn f d
      gone.Nodup ∧ (∀ u ∈ gone, ∃ x ∈ f.sites, x / 256 = d ∧ x % 256 = u) ∧ (∀ x ∈ f.sites, x / 256 = d → x % 256 ∈ gone) ∧
      (∀ i ∈ vacancies f d, i < 64 ∧ i ∈ gone) ∧ (∀ i < 64, i ∉ gone → siteOf f d i = i) ∧
      (∀ i < 64, i ∈ gone → i ∉ vacancies f d → 64 ≤ siteOf f d i ∧ siteOf f d i < 72 ∧ siteOf f d i ∉ gone) ∧
      (vacancies f d).length = (gone.filter (· < 64)).length - (8 - (gone.filter fun i => decide (64 ≤ i ∧ i < 72)).length)) ∧
  (∀ (s : State) (v : Word) (torn : Bool), NoSinks s →
    let b := s.boot
    let n := bits v 23 0
    let image := mread s.mem (hostBase (chipNo s) + b.fwbase.toNat) n
    (hostRead s 0 8 = some b.fwbase ∧ hostRead s 0 0x10 = some (BitVec.ofNat 64 b.fwlen) ∧ ∃ w, hostRead s 0 0 = some w ∧ bits w 1 0 = b.phase % 4 ∧
      bits w 7 2 = 0 ∧ bits w 15 8 = b.outcome % 256 ∧ bits w 23 16 = b.step % 256 ∧ bits w 31 24 = b.attempt % 256 ∧ bits w 63 32 = 0) ∧
    (ready s = false → ∀ fn off, ¬(fn = 0 ∧ off ∈ [0, 8, 0x10]) → hostRead s fn off = none) ∧
    exec (.registerWindowWrite 0 0x10 v) s = exec (.fwlenWrite v) s ∧
    (b.power = true → ready s = false → exec (.registerWindowWrite 0 0 v) s = .next s ∧
      ∀ fn off, ¬(fn = 0 ∧ off ∈ [0, 8, 0x10]) → exec (.registerWindowWrite fn off v) s = .next { s with out := { s.out with unsupported := s.out.unsupported + 1 } }) ∧
    (b.power = true → v.toNat % 4096 = 0 → exec (.registerWindowWrite 0 8 v) s = .next { s with boot := { b with fwbase := v } }) ∧
    (b.power = true → v.toNat % 4096 ≠ 0 → exec (.registerWindowWrite 0 8 v) s = .next s) ∧
    ((b.power = false ∨ b.phase ≠ 1 ∨ n < 4096 ∨ 2 ^ 23 < n) → exec (.fwlenWrite v) s = .next s) ∧
    (b.power = true → b.phase = 1 → 4096 ≤ n → n ≤ 2 ^ 23 →
      ∃ t e, exec (.fwlenWrite v) s = .next t ∧ t.boot.firmware = image ∧ t.boot.fwlen = n ∧ t.boot.step = 3 ∧ t.boot.attempt = b.attempt ∧
        t.boot.journal.getLast? = some e ∧ e.step = 3 ∧ e.outcome = t.boot.outcome ∧
        if imageGood b image then t.boot.outcome = 0 ∧ t.boot.next = 4 ∧ t.boot.phase = 0 else t.boot.outcome = 2 ∧ t.boot.next = 3 ∧ t.boot.phase = 1) ∧
    (b.power = false → exec (.powerLoss torn) s = .next s) ∧
    (b.power = true → ∃ t, exec (.powerLoss torn) s = .next t ∧ t.boot.power = false ∧ ready t = false ∧ t.work = State.reset.work ∧ t.regs = [] ∧
      t.dies = [] ∧ t.queues = [] ∧ t.pod = Pod.cold ∧ t.boot.field = b.field ∧ t.boot.factory = b.factory ∧ t.boot.cert = b.cert ∧ t.boot.keyed = false ∧ t.boot.attempt = 1 ∧
      t.boot.next = 1 ∧
      (torn = false → t.boot.journal = b.journal) ∧
      ∀ k < 2 ^ 52, mbyte t.mem (hostBase 0 + k) = mbyte s.mem (hostBase (chipNo s) + k)))

/-- R5, R312, R317, R324, R368, R369, R383, R391, R406: Cold start. Partition registers, queues, slot tables, boot and pod registers stand at the values that the spec's maps give; nothing runs, no group, team, launch or walk exists. The cold start is settled, its memory is canonical and every group is within its bounds. That nothing is allocated at a cold start is log 15's. -/
def Obligations.ResetState : Prop :=
  (let s := State.reset
  (∀ p r, preg s p r =
    if r = 0 then (if p = 0 then 0x100 else 0) else if r = 1 then 16 else if r = 3 then 0x1000000
    else if 0x010 ≤ r ∧ r ≤ 0x013 then (if p = 0 then 0xC000 else 0) else if r = 0x030 then (if p = 0 then 64 * 2 ^ 32 + 32768 * 2 ^ 16 else 0)
    else if 0x040 ≤ r ∧ r ≤ 0x043 then 12 else 0) ∧
  (∀ q, let x := queue s q; x.base = 0 ∧ x.lsize = 12 ∧ x.asn = 0 ∧ x.priv = 0 ∧ x.vec = 0 ∧ x.en = false ∧ x.head = 0 ∧ x.tail = 0 ∧
    x.err = 0 ∧ x.halt = false ∧ x.wait = false) ∧
  (∀ c k, tget slotReset (core s c).live k = 0x84210) ∧
  s.boot.attempt = 1 ∧ s.boot.step = 1 ∧ s.boot.outcome = 0 ∧ s.boot.phase = 0 ∧ s.boot.fwbase = 0 ∧ s.boot.fwlen = 0 ∧
  s.pod.dup = false ∧ s.pod.en = false ∧ s.pod.chip = 0 ∧ s.pod.peers = 0 ∧ chipNo s = 0 ∧ ready s = false ∧
  (∀ g, (group s g).live = false) ∧ (∀ t, (team s t).live = false) ∧ (∀ l, (launch s l).live = false) ∧ (∀ w, walk s w = none)) ∧
  (State.reset.settled ∧ State.reset.memWf ∧ State.reset.bounded)

/-- R36, R44, R62, R63: Every step keeps every group's bounds: at most 16 masks on the mask stack and 16 records in the release queue, of the group and of the context that its handler interrupted, and 16 bits in every outstanding counter and completion counter. -/
def Obligations.StepKeepsBounds : Prop :=
  ∀ s t : State, s.bounded → step s = .next t → t.bounded

/-- Between steps no context runs, and no record that a full lossless sink holds back has been emitted: every step keeps it, whatever it runs. That a step whose record is held back does not take place is the model's form of R403 (log 3). -/
def Obligations.StepKeepsSettled : Prop :=
  ∀ s t : State, s.settled → step s = .next t → t.settled

/-- Memory keeps its one canonical form under every operation that writes it: runs of bytes, runs of zeros, the segments of a translated access, a ring's records, a renumbering of the package; and under every scalar store and atomic. What an unlisted byte reads as is the model's choice (log 4). -/
def Obligations.MemoryStaysCanonical : Prop :=
  (∀ (m : List Host.Cell) (a : Nat) (bs : List Byte), Memory.wf m = true → Memory.wf (mwrite m a bs) = true) ∧
  (∀ (m : List Host.Cell) (a n : Nat), Memory.wf m = true → Memory.wf (mclear m a n) = true) ∧
  (∀ (s : State) (segs : List Seg) (bs : List Byte), s.memWf → (writeSegs s segs bs).memWf) ∧
  (∀ (s : State) (p d : Nat) (r : TraceRec), s.memWf → (putRecord s p d r).memWf) ∧
  (∀ (s : State) (old new : Nat), s.memWf → (renumber s old new).memWf) ∧
  ∀ (s t : State) (d a b : SReg) (k : BitVec 2) (o : BitVec 10) (p : Bool) (c : Scope) (x : SAmo), s.memWf →
    ∀ i ∈ [Instr.sst d a k p o, .sstX d a b k p, .sstRel d a k p c, .samoSwap x, .samoAdd x, .samoAnd x, .samoOr x, .samoXor x, .samoMinI x,
        .samoMaxI x, .samoMinN x, .samoMaxN x, .samoCas x],
      exec i s = .next t → t.memWf

/-- The words that the spec writes out for its own examples, and the instructions they stand for; and words that are none. -/
def Obligations.DecodeWords : Prop :=
  let word := fun (a b c : Nat) => BitVec.ofNat 96 (a + 2 ^ 32 * b + 2 ^ 64 * c)
  let plain : LaneCtl := ⟨false, 0, 0, false, false, false, false⟩
  decodeScalar 0x04518700 = .ok (.sadd 5 6 7) ∧ decodeScalar 0x08303FFC = .ok (.saddi 3 0 (-4)) ∧ decodeScalar 0x249BCDEF = .ok (.sshlo 9 0xBCDEF) ∧
  decodeScalar 0x4051B006 = .ok (.sld 5 6 6 false 6) ∧ decodeScalar 0x4D457306 = .ok (.samoAdd ⟨20, 21, true, true, 3, true, false⟩) ∧
  decodeScalar 0x50E00000 = .ok (.sfenceRel 3) ∧ decodeScalar 0x6291FFF0 = .ok (.sbr 41 1 (-16)) ∧ decodeScalar 0x8000000F = .ok (.lrun 15) ∧
  decodeScalar 0x88A00013 = .ok (.sget 10 0x013) ∧ decodeScalar 0xA0920002 = .ok (.kwait 9 8 2) ∧ decodeScalar 0xA5650002 = .ok (.barArrive 22 20 0) ∧
  decodeScalar 0xAD651501 = .ok (.bput 22 20 21) ∧ decodeScalar 0xC001C000 = .ok (.xcopy 7) ∧ decodeScalar 0xD1651501 = .ok (.callred 22 20 21) ∧
  decodeScalar 0xF0051508 = .ok (.sslotw 20 21) ∧ decodeScalar 0xF165D810 = .ok (.spreq 22 23 24) ∧ decodeScalar 0 = .error 0 ∧
  decodeLane (word 0 0x002C3C01 0x2002040A) = .ok (.vaddFp ⟨⟨true, 3, 3, true, true, false, false⟩, false, 1, false, false, 8, 16, .reg 40⟩) ∧
  decodeLane (word 3 0x0080006C 0x80414180) = .ok (.vshflUp ⟨plain, false, some 4, some 2, 5, 6, .imm 3⟩) ∧
  decodeLane (word 0 0xC1C00000 0xAC418080) = .ok (.vamo ⟨plain, 1, false, ⟨false, false, false, false, 0⟩, false, false, 0, 6, 2, 3, 7⟩) ∧
  decodeLane (word 0xA0 0x40000000 0xC0C04101) = .ok (.qmac ⟨plain, 0xA, 1, 4, .reg 5⟩) ∧
  decodeLane (word 0 0 0) = .error 0

/-- R147 to R151, R160, R176 to R201: Decoding the encoding of a well-formed scalar instruction gives it back, with every operand at every value its encoding admits; and a word decodes to one well-formed instruction, whose encoding it is, or to none. -/
def Obligations.ScalarDecodeEncode : Prop :=
  (∀ (i : Instr) (w : ScalarWord), i.wf = true → encodeScalar i = some w → decodeScalar (scalarBits w) = .ok i ∧ encode i = [scalarBits w]) ∧
  ∀ (b : BitVec 32) (i : Instr), decodeScalar b = .ok i → i.wf = true ∧ encode i = [b]

/-- R152 to R160, R202 to R277: Decoding the encoding of a well-formed lane instruction gives it back, with every operand at every value its encoding admits; and a word decodes to one well-formed instruction, whose encoding it is, or to none. In class 001 either suffix, bit 36, is accepted and the encoding has it clear (R203; the reading is log 25's). -/
def Obligations.LaneDecodeEncode : Prop :=
  (∀ (i : Instr) (w : LaneWord), i.wf = true → encodeLane i = some w → decodeLane (laneBits w) = .ok i) ∧
  ∀ (b : BitVec 96) (i : Instr), decodeLane b = .ok i →
    let e : BitVec 96 := if b.extractLsb' 93 3 = 1 then b &&& ~~~(1#96 <<< 36) else b
    i.wf = true ∧ encodeScalar i = none ∧ encode i = [e.extractLsb' 0 32, e.extractLsb' 32 32, e.extractLsb' 64 32]

/-- R35, R38, R160, R161, R163, R165, R329: A step runs the instruction that the words at its stream's program counter decode to: what the turn's stream fetches and decodes is what `exec` runs, in the state the fetch left; a word that is privileged at level 0, or decodes to no instruction, traps; an event of the agenda runs as it is. The members of a fused lane operation run one after the other in one step; an instruction that begins none, as every one does whose run record holds no other, runs by itself. What the step adds is the passage of time before and the end of the turn after. That one turn is a step, and that a held record undoes its step, are the model's (log 3). -/
def Obligations.StepRunsInstruction : Prop :=
  ∀ (s : State) (turn : Turn) (rest : List Turn), (beforeTurn s).agenda = turn :: rest →
    let t : State := { beforeTurn s with agenda := rest }
    stalled t turn = false →
    (∀ g w u, turn = .scalar g → scalarReady t g = true → scalarChosen t g = true → w < 2 ^ 32 →
      fetch { t with cur := .group g } g (.fetchS g) (group t g).spc 4 = (u, .word (leBytes 4 w)) →
      let v := stampScalar u g
      (scalarPrivileged v g w = true → step s = settleTurn t (.next (illegal v 3))) ∧
      (scalarPrivileged v g w = false →
        (∀ c, decodeScalar (BitVec.ofNat 32 w) = .error c → step s = settleTurn t (.next (illegal v c))) ∧
        ∀ i, decodeScalar (BitVec.ofNat 32 w) = .ok i → scalarHeld v g i = none →
          step s = settleTurn t (exec i v) ∧ ∀ z, exec i v = .next z → heldBack z = false → step s = .next { z with cur := .none })) ∧
    (∀ g w u, turn = .lane g → laneReady t g = true → laneChosen t g = true → w < 2 ^ 96 →
      fuseFetch { t with cur := .group g } g = none →
      fetch { t with cur := .group g } g (.fetchL g) (group t g).lane.lpc 12 = (u, .word (leBytes 12 w)) →
      let v := stampLane u g
      (∀ c, decodeLane (BitVec.ofNat 96 w) = .error c → step s = settleTurn t (.next (laneTrap v g c))) ∧
      ∀ i, decodeLane (BitVec.ofNat 96 w) = .ok i → step s = settleTurn t (runTogether (fusedWith v g w i) v) ∧
        ((group v g).lane.rep ≠ 0 ∨ (group v g).lane.park.fmask ≠ 0 ∨ headCount (group v g).lane.rq < 2 →
          step s = settleTurn t (exec i v) ∧ ∀ z, exec i v = .next z → heldBack z = false → step s = .next { z with cur := .none })) ∧
    (∀ k w x i, turn = .walk k → walk t k = some x → x.running = true → x.cycles < Config.walkLimit →
      walkFetch { t with cur := .walk k } x = some w →
      decodeScalar (BitVec.ofNat 32 w) = .ok i → step s = settleTurn t (exec i { t with cur := .walk k })) ∧
    ∀ i, turn = .event i → step s = settleTurn t (exec i t)

/-- R53, R155, R206, R207, R208, R209, R210, R211, R212, R213, R215, R216, R217, R219, R221, R222, R224, R225, R226, R227, R228, R229, R256, R257, R258, R259: What every register instruction of the lane stream leaves alone: every register but its destination, memory, the mask and its stack, counters, the trap state, every other group and all the rest of the machine. Named beside the destination are the predicate of out-of-range lanes of a shuffle and the lane-written scalar of a summary, a reduction or a ballot. -/
def Obligations.LaneRegisterFrames : Prop :=
  ∀ (s t : State) (g : Nat), LaneRuns s g →
    let j := (group s g).lane.rep
    let d := fun wide (r : VReg) (c : LaneCtl) => regs wide r c.stepD j
    let a := fun wide (r : VReg) (c : LaneCtl) => regs wide r c.stepA j
    let b := fun wide (r : SrcB) (c : LaneCtl) => srcRegs wide r c.stepB j
    let e := fun wide (r : VReg) (c : LaneCtl) => regs wide r c.stepC j
    let wide := fun (x : TCode) => ctypeWide (ctypeOf x)
    let keeps : List Instr → List Nat → List Nat → List Nat → List Nat → List Nat → Prop := fun is v vs m q qs =>
      Below s g (v ++ vs) (q ++ qs) → ∀ i ∈ is, exec i s = .next t → LaneFrame s t g v m q
    let summary : Instr → List Nat → LDst → Prop := fun i vs r => Below s g vs [] → exec i s = .next t → LaneScalarFrame s t g r
    (∀ x : IntBin, keeps [.vadd x, .vsub x, .vmul x, .vmulh x, .vmin x, .vmax x, .vdiv x, .vrem x, .vand x, .vor x, .vxor x, .vandn x, .vshl x, .vshr x]
      (d x.wide x.d x.c) (a x.wide x.a x.c ++ b x.wide x.b x.c) [] [] []) ∧
    (∀ x : IntTern, keeps [.vmad x] (d x.wide x.d x.c) (a x.wide x.a x.c ++ b x.wide x.b x.c ++ e x.wide x.e x.c) [] [] []) ∧
    (∀ x : IntUn, keeps [.vclz x, .vpopc x] (d x.wide x.d x.c) (a x.wide x.a x.c) [] [] []) ∧
    (∀ x : IntCmp, keeps [.vcmp x] [] (a x.wide x.a x.c ++ b x.wide x.b x.c) [x.d.toNat] [] []) ∧
    (∀ x : PackBin, keeps [.vaddPacked x, .vsubPacked x, .vminPacked x, .vmaxPacked x, .vmulPacked x]
      (d false x.d x.c) (a false x.a x.c ++ b false x.b x.c) [] [] []) ∧
    (∀ x : PackCmp, keeps [.vcmpEqPacked x, .vcmpLtPacked x, .vcmpLePacked x] [] (a false x.a x.c ++ b false x.b x.c) [x.d.toNat] [] []) ∧
    (∀ x : DotArgs, keeps [.vdot x] (d false x.d x.c) (a false x.a x.c ++ b false x.b x.c ++ e false x.e x.c) [] [] []) ∧
    (∀ x : MovArgs, keeps [.vmovN32 x] (d false x.d x.c) (b false x.b x.c) [] [] [] ∧ keeps [.vmovN64 x] (d true x.d x.c) (b true x.b x.c) [] [] []) ∧
    (∀ x : SelArgs, keeps [.vselN32 x] (d false x.d x.c) (a false x.a x.c ++ b false x.b x.c) [] [] [] ∧
      keeps [.vselN64 x] (d true x.d x.c) (a true x.a x.c ++ b true x.b x.c) [] [] []) ∧
    (∀ x : CoordArgs, (laneCoordinate s g x.n.toNat 0).isSome = true → keeps [.vcoord x] (d false x.d x.c) [] [] [] []) ∧
    (∀ x : FpBin, keeps [.vaddFp x, .vsubFp x, .vmulFp x, .vdivFp x] (d x.dbl x.d x.c) (a x.dbl x.a x.c ++ b x.dbl x.b x.c) [] [] []) ∧
    (∀ x : FpTern, keeps [.vfma x, .vfms x, .vfnma x] (d x.dbl x.d x.c) (a x.dbl x.a x.c ++ b x.dbl x.b x.c ++ e x.dbl x.e x.c) [] [] []) ∧
    (∀ x : FpUn, keeps [.vsqrt x] (d x.dbl x.d x.c) (a x.dbl x.a x.c) [] [] []) ∧
    (∀ x : FpCmp, keeps [.vcmpFp x] [] (a x.dbl x.a x.c ++ b x.dbl x.b x.c) [x.d.toNat] [] []) ∧
    (∀ x : FpSel, keeps [.vminFp x, .vmaxFp x, .vcsgn x] (d x.dbl x.d x.c) (a x.dbl x.a x.c ++ b x.dbl x.b x.c) [] [] []) ∧
    (∀ x : FpBits, keeps [.vneg x, .vabs x] (d x.dbl x.d x.c) (a x.dbl x.a x.c) [] [] [] ∧ keeps [.vclass x] (d false x.d x.c) (a x.dbl x.a x.c) [] [] []) ∧
    (∀ x : HBin, keeps [.vaddF16 x, .vsubF16 x, .vmulF16 x] (d false x.d x.c) (a false x.a x.c ++ b false x.b x.c) [] [] []) ∧
    (∀ x : HTern, keeps [.vfmaF16 x, .vdot2 x] (d false x.d x.c) (a false x.a x.c ++ b false x.b x.c ++ e false x.e x.c) [] [] []) ∧
    (∀ x : HSel, keeps [.vminF16 x, .vmaxF16 x] (d false x.d x.c) (a false x.a x.c ++ b false x.b x.c) [] [] []) ∧
    (∀ x : HCmp, keeps [.vcmpEqF16 x, .vcmpLtF16 x] [] (a false x.a x.c ++ b false x.b x.c) [x.d.toNat] [] []) ∧
    (∀ x : CvtArgs, keeps [.vcvt x] (d (wide x.dt) x.d x.c) (a (wide x.st) x.a x.c) [] [] []) ∧
    (∀ x : CvtpArgs, keeps [.vcvtp x] (d false x.d x.c) (a false x.a x.c ++ regs false x.b x.c.stepB j) [] [] []) ∧
    (∀ x : SfArgs, keeps [.vfrsqe x, .vfrcpe x, .vfexp2 x, .vflog2 x, .vfsinpi x, .vfcospi x] (d false x.d x.c) (a false x.a x.c) [] [] []) ∧
    (∀ x : PredBin, keeps [.vpand x, .vpor x, .vpxor x, .vpandn x] [] [] [x.d.toNat] [] []) ∧
    (∀ x : PredUn, keeps [.vpnot x] [] [] [x.d.toNat] [] []) ∧
    (∀ x : PredSet, keeps [.vpset x] [] [] [x.d.toNat] [] []) ∧
    (∀ x : PredGet, keeps [.vpget x] (d false x.d x.c) [] [] [] []) ∧
    (∀ x : PredMov, keeps [.vpmov x, .vpnz x] [] (a false x.a x.c) [x.d.toNat] [] []) ∧
    (∀ x : TestArgs, summary (.vtest x) [] x.d) ∧
    (∀ x : MaskmArgs, keeps [.vmaskm x] [] [] [x.d.toNat] [] []) ∧
    (∀ x : ShflArgs, keeps [.vshflIdx x, .vshflUp x, .vshflDown x, .vshflXor x]
      (d x.pair x.d x.c) (a x.pair x.a x.c ++ b false x.b x.c) (x.k.toList.map (·.toNat)) [] []) ∧
    (∀ x : LredArgs, match x.d with
      | .lanes r => keeps [.vlred x] (d false r x.c) (a false x.a x.c) [] [] []
      | .scalar r => summary (.vlred x) (a false x.a x.c) r) ∧
    (∀ x : ScanArgs, keeps [.vscan x] (d false x.d x.c) (a false x.a x.c) [] [] []) ∧
    (∀ x : BcastArgs, (match x.b with | .scal r => bits (captured (group s g) r) 31 0 | .imm v => v.toNat | .reg r => r.toNat) < subWidth x.w →
      keeps [.vbcast x] (d x.pair x.d x.c) (a x.pair x.a x.c) [] [] []) ∧
    (∀ x : BallotArgs, match x.d with
      | .lanes r => keeps [.vballot x] (d false r x.c) [] [] [] []
      | .scalar r => summary (.vballot x) [] r) ∧
    (∀ x : MatchArgs, keeps [.vmatch x] (d false x.d x.c) (a x.pair x.a x.c) [] [] []) ∧
    (∀ x : QOne, keeps [.qzero x, .qnorm x] [] [] [] (d false x.d x.c) []) ∧
    (∀ x : QTwo, keeps [.qmov x, .qmerge x] [] [] [] (d false x.d x.c) (a false x.a x.c) ∧
      keeps [.qstat x] (d true x.d x.c) [] [] [] (a false x.a x.c)) ∧
    (∀ x : QAddArgs, keeps [.qadd x] [] (a (wide x.t) x.a x.c) [] (d false x.d x.c) []) ∧
    (∀ x : QMacArgs, keeps [.qmac x] [] (a (wide x.t) x.a x.c ++ b (wide x.t) x.b x.c) [] (d false x.d x.c) []) ∧
    (∀ x : QRedArgs, keeps [.qred x] [] [] [] (d false x.d x.c) (a false x.a x.c)) ∧
    (∀ x : QRndArgs, keeps [.qrnd x] (d (wide x.t) x.d x.c) [] [] [] (a false x.a x.c)) ∧
    ∀ x : QSegArgs, keeps [.qseg x] (d true x.d x.c) [] [] [] (a false x.a x.c)
end

