-- ==== Sys2Proof/Laws/Store.lean ====
section
/-! SUPPORT. Laws of tables and of byte memory: reading after writing, and the canonical form that every operation keeps. -/

namespace Sys2Proof.Machine

open Sys2Proof

theorem tget_tdel {α : Type} (d : α) (t : Tab α) (k j : Nat) :
    tget d (tdel t k) j = if j = k then d else tget d t j := by
  induction t with
  | nil => simp [tdel, tget]
  | cons e r ih =>
    obtain ⟨a, v⟩ := e
    by_cases h : a = k
    · subst h
      have : tdel ((a, v) :: r) a = tdel r a := by simp [tdel]
      rw [this, ih]; by_cases hj : j = a <;> simp [tget, hj]
    · have : tdel ((a, v) :: r) k = (a, v) :: tdel r k := by simp [tdel, h]
      rw [this]; simp only [tget, ih]
      by_cases hj : j = a
      · subst hj; simp [h]
      · simp [hj]

theorem tget_tins {α : Type} (d : α) (t : Tab α) (k j : Nat) (v : α) (h : ∀ e ∈ t, e.1 ≠ k) :
    tget d (tins k v t) j = if j = k then v else tget d t j := by
  induction t with
  | nil => simp [tins, tget]
  | cons e r ih =>
    obtain ⟨a, w⟩ := e
    have ha : a ≠ k := h (a, w) (by simp)
    simp only [tins]
    split
    · simp [tget]
    · simp only [tget, ih fun e he => h e (by simp [he])]
      by_cases hj : j = a
      · subst hj; simp [ha]
      · simp [hj]

theorem tdel_no_key {α : Type} (t : Tab α) (k : Nat) : ∀ e ∈ tdel t k, e.1 ≠ k := by
  intro e he; simpa [tdel] using (List.mem_filter.mp he).2

/-- A table reads back what was put at a key, and elsewhere what it held. -/
theorem tget_tput {α : Type} [DecidableEq α] (d : α) (t : Tab α) (k j : Nat) (v : α) :
    tget d (tput d t k v) j = if j = k then v else tget d t j := by
  unfold tput
  split
  · next h => rw [tget_tdel, h]
  · rw [tget_tins _ _ _ _ _ (tdel_no_key t k), tget_tdel]; by_cases hj : j = k <;> simp [hj]

@[simp] theorem tget_tput_same {α : Type} [DecidableEq α] (d : α) (t : Tab α) (k : Nat) (v : α) :
    tget d (tput d t k v) k = v := by simp [tget_tput]

theorem tget_tput_other {α : Type} [DecidableEq α] (d : α) (t : Tab α) (k j : Nat) (v : α) (h : j ≠ k) :
    tget d (tput d t k v) j = tget d t j := by simp [tget_tput, h]

theorem tdel_tins {α : Type} (t : Tab α) (k : Nat) (v : α) : tdel (tins k v t) k = tdel t k := by
  induction t with
  | nil => simp [tins, tdel]
  | cons e r ih =>
    simp only [tins]
    split
    · simp [tdel]
    · simp only [tdel, List.filter_cons] at ih ⊢; rw [ih]

theorem tdel_tdel {α : Type} (t : Tab α) (k : Nat) : tdel (tdel t k) k = tdel t k := by simp [tdel]

/-- The later of two writes at one key stands. -/
@[simp] theorem tput_tput {α : Type} [DecidableEq α] (d : α) (t : Tab α) (k : Nat) (v w : α) :
    tput d (tput d t k v) k w = tput d t k w := by
  unfold tput
  split <;> split <;> simp [tdel_tins, tdel_tdel]

theorem risesFrom_mono {α : Type} (a b : Nat) (t : Tab α) (hab : a ≤ b) (h : risesFrom b t = true) : risesFrom a t = true := by
  cases t with
  | nil => rfl
  | cons e r => simp only [risesFrom, Bool.and_eq_true, decide_eq_true_eq] at h ⊢; exact ⟨by omega, h.2⟩

/-- Keys that rise from a bound go on rising when entries are left out. -/
theorem risesFrom_filter {α : Type} (p : Nat × α → Bool) (b : Nat) (t : Tab α) (h : risesFrom b t = true) :
    risesFrom b (t.filter p) = true := by
  induction t generalizing b with
  | nil => rfl
  | cons e r ih =>
    simp only [risesFrom, Bool.and_eq_true, decide_eq_true_eq] at h
    simp only [List.filter_cons]
    split
    · simp only [risesFrom, Bool.and_eq_true, decide_eq_true_eq]; exact ⟨h.1, ih _ h.2⟩
    · exact risesFrom_mono _ (e.1 + 1) _ (by omega) (ih _ h.2)

theorem risesFrom_ge {α : Type} (b : Nat) (t : Tab α) (h : risesFrom b t = true) : ∀ e ∈ t, b ≤ e.1 := by
  induction t generalizing b with
  | nil => simp
  | cons e r ih =>
    simp only [risesFrom, Bool.and_eq_true, decide_eq_true_eq] at h
    intro x hx
    rcases List.mem_cons.mp hx with rfl | hx
    · exact h.1
    · have := ih _ h.2 x hx; omega

theorem risesFrom_tins {α : Type} (k : Nat) (v : α) (b : Nat) (t : Tab α) (hb : b ≤ k)
    (h : risesFrom b t = true) (hk : ∀ e ∈ t, e.1 ≠ k) : risesFrom b (tins k v t) = true := by
  induction t generalizing b with
  | nil => simp [tins, risesFrom, hb]
  | cons e r ih =>
    simp only [risesFrom, Bool.and_eq_true, decide_eq_true_eq] at h
    have hek : e.1 ≠ k := hk e (by simp)
    simp only [tins]
    split
    · simp only [risesFrom, Bool.and_eq_true, decide_eq_true_eq]; exact ⟨hb, by omega, h.2⟩
    · simp only [risesFrom, Bool.and_eq_true, decide_eq_true_eq]
      exact ⟨h.1, ih _ (by omega) h.2 fun x hx => hk x (by simp [hx])⟩

theorem mem_tins {α : Type} (k : Nat) (v : α) (t : Tab α) (e : Nat × α) : e ∈ tins k v t ↔ e = (k, v) ∨ e ∈ t := by
  induction t with
  | nil => simp [tins]
  | cons f r ih =>
    simp only [tins]
    split
    · simp
    · simp only [List.mem_cons, ih]; tauto

/-- A write keeps the canonical form of a table. -/
theorem tableWf_tput {α : Type} [DecidableEq α] (d : α) (t : Tab α) (k : Nat) (v : α) (h : tableWf d t = true) :
    tableWf d (tput d t k v) = true := by
  simp only [tableWf, Bool.and_eq_true, List.all_eq_true, decide_eq_true_eq] at h ⊢
  have hd : risesFrom 0 (tdel t k) = true := risesFrom_filter _ _ _ h.1
  have he : ∀ e ∈ tdel t k, e.2 ≠ d := fun e he => h.2 e (List.mem_filter.mp he).1
  unfold tput
  split
  · exact ⟨hd, he⟩
  · next hv =>
    refine ⟨risesFrom_tins k v 0 _ (by omega) hd (tdel_no_key t k), fun e hm => ?_⟩
    rcases (mem_tins k v _ e).mp hm with rfl | hm
    · exact hv
    · exact he e hm

/-- A table in canonical form keeps it when entries are left out. -/
theorem tableWf_filter {α : Type} [DecidableEq α] (d : α) (t : Tab α) (p : Nat × α → Bool) (h : tableWf d t = true) :
    tableWf d (t.filter p) = true := by
  simp only [tableWf, Bool.and_eq_true, List.all_eq_true, decide_eq_true_eq] at h ⊢
  exact ⟨risesFrom_filter _ _ _ h.1, fun e he => h.2 e (List.mem_filter.mp he).1⟩

theorem tget_no_key {α : Type} (d : α) (t : Tab α) (k : Nat) (h : ∀ e ∈ t, e.1 ≠ k) : tget d t k = d := by
  induction t with
  | nil => rfl
  | cons e r ih =>
    have : k ≠ e.1 := fun hk => h e (by simp) hk.symm
    simp [tget, this, ih fun e he => h e (by simp [he])]

theorem tget_append_left {α : Type} (d : α) (t u : Tab α) (k : Nat) (h : ∀ e ∈ u, e.1 ≠ k) :
    tget d (t ++ u) k = tget d t k := by
  induction t with
  | nil => exact tget_no_key d u k h
  | cons e r ih => simp [tget, ih]

theorem tget_append_right {α : Type} (d : α) (t u : Tab α) (k : Nat) (h : ∀ e ∈ t, e.1 ≠ k) :
    tget d (t ++ u) k = tget d u k := by
  induction t with
  | nil => rfl
  | cons e r ih =>
    have : k ≠ e.1 := fun hk => h e (by simp) hk.symm
    simp [tget, this, ih fun e he => h e (by simp [he])]

theorem tget_filter_key {α : Type} (d : α) (t : Tab α) (p : Nat → Bool) (k : Nat) :
    tget d (t.filter fun e => p e.1) k = if p k then tget d t k else d := by
  induction t with
  | nil => simp [tget]
  | cons e r ih =>
    simp only [List.filter_cons]
    by_cases h : k = e.1
    · subst h
      by_cases hp : p e.1
      · simp [hp, tget]
      · simp only [hp, Bool.false_eq_true, if_false]; rw [ih]; simp [hp]
    · split
      · simp [tget, h, ih]
      · simp [tget, h, ih]

theorem cells_ge (a : Nat) (bs : List Byte) : ∀ e ∈ cells a bs, a ≤ e.1 ∧ e.1 < a + bs.length := by
  induction bs generalizing a with
  | nil => simp [cells]
  | cons b r ih =>
    intro e he
    simp only [cells] at he
    split at he
    · have := ih _ e he; simp only [List.length_cons]; omega
    · rcases List.mem_cons.mp he with rfl | he
      · simp
      · have := ih _ e he; simp only [List.length_cons]; omega

theorem tget_cells (a : Nat) (bs : List Byte) (x : Nat) :
    tget 0 (cells a bs) x = if a ≤ x ∧ x < a + bs.length then bs.getD (x - a) 0 else 0 := by
  induction bs generalizing a with
  | nil => simp [cells, tget]
  | cons b r ih =>
    have key : tget 0 (cells a (b :: r)) x = if x = a then b else tget 0 (cells (a + 1) r) x := by
      simp only [cells]
      split
      · next hb =>
        subst hb
        split
        · next hx => subst hx; rw [ih]; simp
        · rfl
      · rfl
    rw [key, ih]
    by_cases hx : x = a
    · subst hx; simp
    · simp only [if_neg hx, List.length_cons]
      by_cases h1 : a + 1 ≤ x ∧ x < a + 1 + r.length
      · rw [if_pos h1, if_pos (by omega)]
        have : x - a = (x - (a + 1)) + 1 := by omega
        rw [this]; simp
      · rw [if_neg h1, if_neg (by omega)]

/-- A byte of memory after a write: inside the run the byte written, outside what stood there. -/
theorem mbyte_mwrite (m : List Host.Cell) (a : Nat) (bs : List Byte) (x : Nat) :
    mbyte (mwrite m a bs) x = if a ≤ x ∧ x < a + bs.length then bs.getD (x - a) 0 else mbyte m x := by
  have f1 := tget_filter_key (0 : Byte) m (fun k => decide (k < a)) x
  have f2 := tget_filter_key (0 : Byte) m (fun k => decide (a + bs.length ≤ k)) x
  have low : ∀ e ∈ m.filter fun e => decide (e.1 < a), e.1 < a := fun e he => by simpa using (List.mem_filter.mp he).2
  have high : ∀ e ∈ m.filter fun e => decide (a + bs.length ≤ e.1), a + bs.length ≤ e.1 :=
    fun e he => by simpa using (List.mem_filter.mp he).2
  unfold mbyte mwrite
  by_cases h1 : x < a
  · rw [tget_append_left _ _ _ _ fun e he => by have := high e he; omega,
      tget_append_left _ _ _ _ fun e he => by have := cells_ge a bs e he; omega, f1, if_pos (decide_eq_true h1), if_neg (by omega)]
  · rw [List.append_assoc, tget_append_right _ _ _ _ fun e he => by have := low e he; omega]
    by_cases h2 : x < a + bs.length
    · rw [tget_append_left _ _ _ _ fun e he => by have := high e he; omega, tget_cells]
      simp [h2, Nat.le_of_not_lt h1]
    · rw [tget_append_right _ _ _ _ fun e he => by have := cells_ge a bs e he; omega, f2,
        if_pos (decide_eq_true (Nat.le_of_not_lt h2)), if_neg (by omega)]

/-- A byte after a run is cleared. -/
theorem mbyte_mclear (m : List Host.Cell) (a n x : Nat) :
    mbyte (mclear m a n) x = if a ≤ x ∧ x < a + n then 0 else mbyte m x := by
  have f1 := tget_filter_key (0 : Byte) m (fun k => decide (k < a)) x
  have f2 := tget_filter_key (0 : Byte) m (fun k => decide (a + n ≤ k)) x
  have low : ∀ e ∈ m.filter fun e => decide (e.1 < a), e.1 < a := fun e he => by simpa using (List.mem_filter.mp he).2
  have high : ∀ e ∈ m.filter fun e => decide (a + n ≤ e.1), a + n ≤ e.1 :=
    fun e he => by simpa using (List.mem_filter.mp he).2
  unfold mbyte mclear
  by_cases h1 : x < a
  · rw [tget_append_left _ _ _ _ fun e he => by have := high e he; omega, f1, if_pos (decide_eq_true h1), if_neg (by omega)]
  · rw [tget_append_right _ _ _ _ fun e he => by have := low e he; omega, f2]
    by_cases h2 : a + n ≤ x
    · rw [if_pos (decide_eq_true h2), if_neg (by omega)]
    · rw [if_neg (by simpa using h2), if_pos (by omega)]

theorem risesFrom_cells (a : Nat) (bs : List Byte) : risesFrom a (cells a bs) = true := by
  induction bs generalizing a with
  | nil => rfl
  | cons b r ih =>
    simp only [cells]
    split
    · exact risesFrom_mono _ (a + 1) _ (by omega) (ih _)
    · simp only [risesFrom, Bool.and_eq_true, decide_eq_true_eq]; exact ⟨by omega, ih _⟩

theorem risesFrom_append {α : Type} (b c : Nat) (t u : Tab α) (ht : risesFrom b t = true) (hc : ∀ e ∈ t, e.1 < c)
    (hu : risesFrom c u = true) (hbc : b ≤ c) : risesFrom b (t ++ u) = true := by
  induction t generalizing b with
  | nil => exact risesFrom_mono _ _ _ hbc hu
  | cons e r ih =>
    simp only [risesFrom, Bool.and_eq_true, decide_eq_true_eq, List.cons_append] at ht ⊢
    exact ⟨ht.1, ih _ ht.2 (fun x hx => hc x (by simp [hx])) (hc e (by simp))⟩

theorem risesFrom_raise {α : Type} (b c : Nat) (t : Tab α) (h : risesFrom b t = true) (hc : ∀ e ∈ t, c ≤ e.1) :
    risesFrom c t = true := by
  cases t with
  | nil => rfl
  | cons e r =>
    simp only [risesFrom, Bool.and_eq_true, decide_eq_true_eq] at h ⊢
    exact ⟨hc e (by simp), h.2⟩

/-- A write keeps the canonical form of memory. -/
theorem wf_mwrite (m : List Host.Cell) (a : Nat) (bs : List Byte) (h : Memory.wf m = true) :
    Memory.wf (mwrite m a bs) = true := by
  simp only [Memory.wf, tableWf, Bool.and_eq_true, List.all_eq_true, decide_eq_true_eq] at h ⊢
  have r1 := risesFrom_filter (fun e => decide (e.1 < a)) 0 m h.1
  have r3 := risesFrom_filter (fun e => decide (a + bs.length ≤ e.1)) 0 m h.1
  have r3' := risesFrom_raise 0 (a + bs.length) _ r3 fun e he => by simpa using (List.mem_filter.mp he).2
  constructor
  · unfold mwrite
    rw [List.append_assoc]
    refine risesFrom_append 0 a _ _ r1 (fun e he => by simpa using (List.mem_filter.mp he).2) ?_ (by omega)
    exact risesFrom_append a (a + bs.length) _ _ (risesFrom_cells a bs) (fun e he => (cells_ge a bs e he).2) r3' (by omega)
  · intro e he
    unfold mwrite at he
    simp only [List.mem_append, List.mem_filter] at he
    rcases he with (he | he) | he
    · exact h.2 e he.1
    · clear h r1 r3 r3'
      induction bs generalizing a with
      | nil => simp [cells] at he
      | cons b r ih =>
        simp only [cells] at he
        split at he
        · exact ih _ he
        · rcases List.mem_cons.mp he with rfl | he
          · assumption
          · exact ih _ he
    · exact h.2 e he.1

/-- Clearing a run keeps the canonical form of memory. -/
theorem wf_mclear (m : List Host.Cell) (a n : Nat) (h : Memory.wf m = true) : Memory.wf (mclear m a n) = true := by
  have e : mclear m a n = m.filter fun e => decide (e.1 < a) || decide (a + n ≤ e.1) := by
    unfold mclear
    simp only [Memory.wf, tableWf, Bool.and_eq_true] at h
    have hr := h.1
    clear h
    generalize hb : (0 : Nat) = b at hr
    clear hb
    induction m generalizing b with
    | nil => rfl
    | cons x r ih =>
      simp only [risesFrom, Bool.and_eq_true, decide_eq_true_eq] at hr
      by_cases h1 : x.1 < a
      · have : ¬ a + n ≤ x.1 := by omega
        simp only [List.filter_cons, h1, decide_true, if_true, List.cons_append, this, decide_false, Bool.or_false,
          Bool.false_eq_true, if_false, ih _ hr.2]
      · have none_left : r.filter (fun e => decide (e.1 < a)) = [] := by
          rw [List.filter_eq_nil_iff]; intro e he; have := risesFrom_ge _ _ hr.2 e he; simp; omega
        have : (x :: r).filter (fun e => decide (e.1 < a)) = [] := by simp [h1, none_left]
        rw [this, List.nil_append]
        apply List.filter_congr
        intro e he
        have hge : x.1 ≤ e.1 := by
          rcases List.mem_cons.mp he with rfl | he
          · omega
          · have := risesFrom_ge _ _ hr.2 e he; omega
        have : ¬ e.1 < a := by omega
        simp [this]
  rw [e]; exact tableWf_filter _ _ _ h

/-- A run read is the list of its bytes. -/
theorem mread_eq (m : List Host.Cell) (a n : Nat) : mread m a n = (List.range n).map fun i => mbyte m (a + i) := by
  unfold mread
  apply List.map_congr_left
  intro i hi
  have := List.mem_range.mp hi
  unfold mbyte
  have f := tget_filter_key (0 : Byte) m (fun k => decide (a ≤ k) && decide (k < a + n)) (a + i)
  simp only [Bool.and_eq_true, decide_eq_true_eq] at f
  rw [if_pos (by omega)] at f
  exact f

@[simp] theorem mread_length (m : List Host.Cell) (a n : Nat) : (mread m a n).length = n := by simp [mread]

/-- A run reads back what was written over it. -/
theorem mread_mwrite_same (m : List Host.Cell) (a : Nat) (bs : List Byte) : mread (mwrite m a bs) a bs.length = bs := by
  rw [mread_eq]
  apply List.ext_getElem
  · simp
  · intro i h1 h2
    simp only [List.getElem_map, List.getElem_range, mbyte_mwrite]
    rw [if_pos (by simp at h1; omega)]
    simp [List.getD_eq_getElem?_getD, h2]

/-- A run reads as before where a write does not meet it. -/
theorem mread_mwrite_other (m : List Host.Cell) (a : Nat) (bs : List Byte) (x n : Nat)
    (h : x + n ≤ a ∨ a + bs.length ≤ x) : mread (mwrite m a bs) x n = mread m x n := by
  rw [mread_eq, mread_eq]
  apply List.map_congr_left
  intro i hi
  have := List.mem_range.mp hi
  rw [mbyte_mwrite, if_neg (by omega)]

@[simp] theorem leBytes_length (n v : Nat) : (leBytes n v).length = n := by
  induction n generalizing v with
  | zero => rfl
  | succ n ih => simp [leBytes, ih]

/-- The bytes of a number give it back, modulo their width. -/
theorem ofLe_leBytes (n v : Nat) : ofLe (leBytes n v) = v % 256 ^ n := by
  induction n generalizing v with
  | zero => simp [leBytes, ofLe, Nat.mod_one]
  | succ n ih =>
    have h : (BitVec.ofNat 8 v : Byte).toNat = v % 256 := BitVec.toNat_ofNat v 8
    simp only [leBytes, ofLe, ih, h]
    rw [Nat.pow_succ', Nat.mod_mul]

end Sys2Proof.Machine
end

