-- ==== Sys2Proof/Laws/Canonical.lean ====
section
/-! SUPPORT. The operations over memory keep its canonical form (R4, R95): runs of a translated access, scratchpad writes, save areas, ranges moved by a renumbering; and cold start has it. -/

namespace Sys2Proof.Machine

open Sys2Proof

/-- Memory at cold start has the canonical form. -/
theorem wf_reset : Memory.wf State.reset.mem = true := rfl

/-- Writing the runs of a translated access keeps the canonical form. -/
theorem wf_writeSegs (s : State) (gs : List Seg) (bs : List Byte) (h : Memory.wf s.mem = true) :
    Memory.wf (writeSegs s gs bs).mem = true := by
  induction gs generalizing s bs with
  | nil => exact h
  | cons g r ih => exact ih _ _ (wf_mwrite _ _ _ h)

/-- A scratchpad write keeps the canonical form of the scratchpad. -/
theorem wf_scratchPut (t : Team) (off : Nat) (bs : List Byte) (h : Memory.wf t.scratch = true) :
    Memory.wf (scratchPut t off bs).scratch = true := wf_mwrite _ _ _ h

/-- A fold of writes that each keep the canonical form keeps it. -/
theorem wf_fold {α β : Type} (get : β → List Host.Cell) (f : β → α → β) (hf : ∀ b a, Memory.wf (get b) = true → Memory.wf (get (f b a)) = true)
    (l : List α) (b : β) (h : Memory.wf (get b) = true) : Memory.wf (get (l.foldl f b)) = true := by
  induction l generalizing b with
  | nil => exact h
  | cons a r ih => exact ih _ (hf b a h)

/-- Writing a team's save area keeps the canonical form. -/
theorem wf_writeArea (s : State) (t : Nat) (segs : List Seg) (h : Memory.wf s.mem = true) :
    Memory.wf (writeArea s t segs).mem = true := by
  refine wf_fold id _ (fun m e hm => wf_mwrite m _ _ hm) _ _ ?_
  refine wf_fold State.mem _ (fun s c hs => wf_writeSegs s _ _ hs) _ _ ?_
  exact wf_fold id _ (fun m g hm => wf_mclear m _ _ hm) _ _ h

/-- Keys that rise go on rising when all are moved by one distance. -/
theorem risesFrom_shift {α : Type} (src dst b c : Nat) (t : Tab α) (h : risesFrom b t = true) (hb : c + src ≤ b + dst)
    (hs : ∀ e ∈ t, src ≤ e.1) : risesFrom c (t.map fun e => (e.1 - src + dst, e.2)) = true := by
  induction t generalizing b c with
  | nil => rfl
  | cons e r ih =>
    simp only [risesFrom, List.map_cons, Bool.and_eq_true, decide_eq_true_eq] at h ⊢
    have := hs e (by simp)
    exact ⟨by omega, ih (e.1 + 1) _ h.2 (by omega) fun x hx => hs x (by simp [hx])⟩

/-- Moving a range of keys keeps the canonical form. -/
theorem wf_moveRange {α : Type} [DecidableEq α] (d : α) (t : Tab α) (src dst n : Nat) (h : tableWf d t = true) :
    tableWf d (moveRange t src dst n) = true := by
  simp only [tableWf, Bool.and_eq_true, List.all_eq_true, decide_eq_true_eq] at h ⊢
  have hm := risesFrom_filter (fun e => decide (src ≤ e.1 ∧ e.1 < src + n)) 0 t h.1
  have hm' := risesFrom_raise 0 src _ hm fun e he => by have := (List.mem_filter.mp he).2; simp at this; omega
  have hr := risesFrom_filter (fun e => !decide (src ≤ e.1 ∧ e.1 < src + n) && !decide (dst ≤ e.1 ∧ e.1 < dst + n)) 0 t h.1
  have hlo := risesFrom_filter (fun e => decide (e.1 < dst)) 0 _ hr
  have hhi := risesFrom_filter (fun e => decide (dst ≤ e.1)) 0 _ hr
  have hhi' := risesFrom_raise 0 (dst + n) _ hhi fun e he => by
    simp only [List.mem_filter, Bool.and_eq_true, Bool.not_eq_true', decide_eq_false_iff_not, decide_eq_true_eq] at he; omega
  constructor
  · unfold moveRange
    rw [List.append_assoc]
    refine risesFrom_append 0 dst _ _ hlo (fun e he => by simpa using (List.mem_filter.mp he).2) ?_ (by omega)
    refine risesFrom_append dst (dst + n) _ _ (risesFrom_shift src dst src dst _ hm' (by omega) fun e he => ?_) ?_ hhi' (by omega)
    · have := (List.mem_filter.mp he).2; simp at this; omega
    · intro e he
      obtain ⟨x, hx, rfl⟩ := List.mem_map.mp he
      have := (List.mem_filter.mp hx).2; simp at this; simp; omega
  · intro e he
    simp only [moveRange, List.mem_append, List.mem_filter, List.mem_map] at he
    rcases he with (he | ⟨x, hx, rfl⟩) | he
    · exact h.2 e he.1.1
    · exact h.2 x hx.1
    · exact h.2 e he.1.1

end Sys2Proof.Machine
end

