-- ==== Sys2Proof/Laws/State.lean ====
section
/-! SUPPORT. What each write of a part of the state leaves as it was, and what reading the part gives: one lemma for each field and write. -/

namespace Sys2Proof.Machine

open Sys2Proof

@[simp] theorem setGroup_cur (s : State) (g : Nat) (x : Group) : (setGroup s g x).cur = s.cur := rfl
@[simp] theorem setGroup_agenda (s : State) (g : Nat) (x : Group) : (setGroup s g x).agenda = s.agenda := rfl
@[simp] theorem setGroup_fresh (s : State) (g : Nat) (x : Group) : (setGroup s g x).fresh = s.fresh := rfl
@[simp] theorem setGroup_mem (s : State) (g : Nat) (x : Group) : (setGroup s g x).mem = s.mem := rfl
@[simp] theorem setGroup_bad (s : State) (g : Nat) (x : Group) : (setGroup s g x).bad = s.bad := rfl
@[simp] theorem setGroup_parts (s : State) (g : Nat) (x : Group) : (setGroup s g x).parts = s.parts := rfl
@[simp] theorem setGroup_dies (s : State) (g : Nat) (x : Group) : (setGroup s g x).dies = s.dies := rfl
@[simp] theorem setGroup_cores (s : State) (g : Nat) (x : Group) : (setGroup s g x).cores = s.cores := rfl
@[simp] theorem setGroup_regs (s : State) (g : Nat) (x : Group) : (setGroup s g x).regs = s.regs := rfl
@[simp] theorem setGroup_shapes (s : State) (g : Nat) (x : Group) : (setGroup s g x).shapes = s.shapes := rfl
@[simp] theorem setGroup_sinks (s : State) (g : Nat) (x : Group) : (setGroup s g x).sinks = s.sinks := rfl
@[simp] theorem setGroup_queues (s : State) (g : Nat) (x : Group) : (setGroup s g x).queues = s.queues := rfl
@[simp] theorem setGroup_tdisp (s : State) (g : Nat) (x : Group) : (setGroup s g x).tdisp = s.tdisp := rfl
@[simp] theorem setGroup_resets (s : State) (g : Nat) (x : Group) : (setGroup s g x).resets = s.resets := rfl
@[simp] theorem setGroup_locks (s : State) (g : Nat) (x : Group) : (setGroup s g x).locks = s.locks := rfl
@[simp] theorem setGroup_boot (s : State) (g : Nat) (x : Group) : (setGroup s g x).boot = s.boot := rfl
@[simp] theorem setGroup_pod (s : State) (g : Nat) (x : Group) : (setGroup s g x).pod = s.pod := rfl
@[simp] theorem setGroup_time (s : State) (g : Nat) (x : Group) : (setGroup s g x).time = s.time := rfl
@[simp] theorem setGroup_out (s : State) (g : Nat) (x : Group) : (setGroup s g x).out = s.out := rfl
@[simp] theorem setGroup_order (s : State) (g : Nat) (x : Group) : (setGroup s g x).order = s.order := rfl
@[simp] theorem setGroup_gen (s : State) (g : Nat) (x : Group) : (setGroup s g x).gen = s.gen := rfl
@[simp] theorem setGroup_work_teams (s : State) (g : Nat) (x : Group) : (setGroup s g x).work.teams = s.work.teams := rfl
@[simp] theorem setGroup_work_launches (s : State) (g : Nat) (x : Group) : (setGroup s g x).work.launches = s.work.launches := rfl
@[simp] theorem setGroup_work_colls (s : State) (g : Nat) (x : Group) : (setGroup s g x).work.colls = s.work.colls := rfl
@[simp] theorem setGroup_work_walks (s : State) (g : Nat) (x : Group) : (setGroup s g x).work.walks = s.work.walks := rfl
@[simp] theorem setGroup_work_faults (s : State) (g : Nat) (x : Group) : (setGroup s g x).work.faults = s.work.faults := rfl
@[simp] theorem setGroup_work_waits (s : State) (g : Nat) (x : Group) : (setGroup s g x).work.waits = s.work.waits := rfl
@[simp] theorem setGroup_work_remote (s : State) (g : Nat) (x : Group) : (setGroup s g x).work.remote = s.work.remote := rfl
@[simp] theorem setGroup_work_next (s : State) (g : Nat) (x : Group) : (setGroup s g x).work.next = s.work.next := rfl
@[simp] theorem team_setGroup (s : State) (g : Nat) (x : Group) (h : Nat) : team (setGroup s g x) h = team s h := rfl
@[simp] theorem launch_setGroup (s : State) (g : Nat) (x : Group) (h : Nat) : launch (setGroup s g x) h = launch s h := rfl
@[simp] theorem coll_setGroup (s : State) (g : Nat) (x : Group) (h : Nat) : coll (setGroup s g x) h = coll s h := rfl
@[simp] theorem walk_setGroup (s : State) (g : Nat) (x : Group) (h : Nat) : walk (setGroup s g x) h = walk s h := rfl
@[simp] theorem die_setGroup (s : State) (g : Nat) (x : Group) (h : Nat) : die (setGroup s g x) h = die s h := rfl
@[simp] theorem core_setGroup (s : State) (g : Nat) (x : Group) (h : Nat) : core (setGroup s g x) h = core s h := rfl
@[simp] theorem queue_setGroup (s : State) (g : Nat) (x : Group) (h : Nat) : queue (setGroup s g x) h = queue s h := rfl
@[simp] theorem sink_setGroup (s : State) (g : Nat) (x : Group) (h k : Nat) : sink (setGroup s g x) h k = sink s h k := rfl
@[simp] theorem shapeSlot_setGroup (s : State) (g : Nat) (x : Group) (h k : Nat) : shapeSlot (setGroup s g x) h k = shapeSlot s h k := rfl
@[simp] theorem preg_setGroup (s : State) (g : Nat) (x : Group) (h k : Nat) : preg (setGroup s g x) h k = preg s h k := rfl
@[simp] theorem tdispOf_setGroup (s : State) (g : Nat) (x : Group) (h : Nat) : tdispOf (setGroup s g x) h = tdispOf s h := rfl
@[simp] theorem chipNo_setGroup (s : State) (g : Nat) (x : Group) : chipNo (setGroup s g x) = chipNo s := rfl
@[simp] theorem now_setGroup (s : State) (g : Nat) (x : Group) : now (setGroup s g x) = now s := rfl
@[simp] theorem setTeam_cur (s : State) (t : Nat) (x : Team) : (setTeam s t x).cur = s.cur := rfl
@[simp] theorem setTeam_agenda (s : State) (t : Nat) (x : Team) : (setTeam s t x).agenda = s.agenda := rfl
@[simp] theorem setTeam_fresh (s : State) (t : Nat) (x : Team) : (setTeam s t x).fresh = s.fresh := rfl
@[simp] theorem setTeam_mem (s : State) (t : Nat) (x : Team) : (setTeam s t x).mem = s.mem := rfl
@[simp] theorem setTeam_bad (s : State) (t : Nat) (x : Team) : (setTeam s t x).bad = s.bad := rfl
@[simp] theorem setTeam_parts (s : State) (t : Nat) (x : Team) : (setTeam s t x).parts = s.parts := rfl
@[simp] theorem setTeam_dies (s : State) (t : Nat) (x : Team) : (setTeam s t x).dies = s.dies := rfl
@[simp] theorem setTeam_cores (s : State) (t : Nat) (x : Team) : (setTeam s t x).cores = s.cores := rfl
@[simp] theorem setTeam_regs (s : State) (t : Nat) (x : Team) : (setTeam s t x).regs = s.regs := rfl
@[simp] theorem setTeam_shapes (s : State) (t : Nat) (x : Team) : (setTeam s t x).shapes = s.shapes := rfl
@[simp] theorem setTeam_sinks (s : State) (t : Nat) (x : Team) : (setTeam s t x).sinks = s.sinks := rfl
@[simp] theorem setTeam_queues (s : State) (t : Nat) (x : Team) : (setTeam s t x).queues = s.queues := rfl
@[simp] theorem setTeam_tdisp (s : State) (t : Nat) (x : Team) : (setTeam s t x).tdisp = s.tdisp := rfl
@[simp] theorem setTeam_resets (s : State) (t : Nat) (x : Team) : (setTeam s t x).resets = s.resets := rfl
@[simp] theorem setTeam_locks (s : State) (t : Nat) (x : Team) : (setTeam s t x).locks = s.locks := rfl
@[simp] theorem setTeam_boot (s : State) (t : Nat) (x : Team) : (setTeam s t x).boot = s.boot := rfl
@[simp] theorem setTeam_pod (s : State) (t : Nat) (x : Team) : (setTeam s t x).pod = s.pod := rfl
@[simp] theorem setTeam_time (s : State) (t : Nat) (x : Team) : (setTeam s t x).time = s.time := rfl
@[simp] theorem setTeam_out (s : State) (t : Nat) (x : Team) : (setTeam s t x).out = s.out := rfl
@[simp] theorem setTeam_order (s : State) (t : Nat) (x : Team) : (setTeam s t x).order = s.order := rfl
@[simp] theorem setTeam_gen (s : State) (t : Nat) (x : Team) : (setTeam s t x).gen = s.gen := rfl
@[simp] theorem setTeam_work_groups (s : State) (t : Nat) (x : Team) : (setTeam s t x).work.groups = s.work.groups := rfl
@[simp] theorem setTeam_work_launches (s : State) (t : Nat) (x : Team) : (setTeam s t x).work.launches = s.work.launches := rfl
@[simp] theorem setTeam_work_colls (s : State) (t : Nat) (x : Team) : (setTeam s t x).work.colls = s.work.colls := rfl
@[simp] theorem setTeam_work_walks (s : State) (t : Nat) (x : Team) : (setTeam s t x).work.walks = s.work.walks := rfl
@[simp] theorem setTeam_work_faults (s : State) (t : Nat) (x : Team) : (setTeam s t x).work.faults = s.work.faults := rfl
@[simp] theorem setTeam_work_waits (s : State) (t : Nat) (x : Team) : (setTeam s t x).work.waits = s.work.waits := rfl
@[simp] theorem setTeam_work_remote (s : State) (t : Nat) (x : Team) : (setTeam s t x).work.remote = s.work.remote := rfl
@[simp] theorem setTeam_work_next (s : State) (t : Nat) (x : Team) : (setTeam s t x).work.next = s.work.next := rfl
@[simp] theorem group_setTeam (s : State) (t : Nat) (x : Team) (h : Nat) : group (setTeam s t x) h = group s h := rfl
@[simp] theorem launch_setTeam (s : State) (t : Nat) (x : Team) (h : Nat) : launch (setTeam s t x) h = launch s h := rfl
@[simp] theorem coll_setTeam (s : State) (t : Nat) (x : Team) (h : Nat) : coll (setTeam s t x) h = coll s h := rfl
@[simp] theorem walk_setTeam (s : State) (t : Nat) (x : Team) (h : Nat) : walk (setTeam s t x) h = walk s h := rfl
@[simp] theorem die_setTeam (s : State) (t : Nat) (x : Team) (h : Nat) : die (setTeam s t x) h = die s h := rfl
@[simp] theorem core_setTeam (s : State) (t : Nat) (x : Team) (h : Nat) : core (setTeam s t x) h = core s h := rfl
@[simp] theorem queue_setTeam (s : State) (t : Nat) (x : Team) (h : Nat) : queue (setTeam s t x) h = queue s h := rfl
@[simp] theorem sink_setTeam (s : State) (t : Nat) (x : Team) (h k : Nat) : sink (setTeam s t x) h k = sink s h k := rfl
@[simp] theorem shapeSlot_setTeam (s : State) (t : Nat) (x : Team) (h k : Nat) : shapeSlot (setTeam s t x) h k = shapeSlot s h k := rfl
@[simp] theorem preg_setTeam (s : State) (t : Nat) (x : Team) (h k : Nat) : preg (setTeam s t x) h k = preg s h k := rfl
@[simp] theorem tdispOf_setTeam (s : State) (t : Nat) (x : Team) (h : Nat) : tdispOf (setTeam s t x) h = tdispOf s h := rfl
@[simp] theorem chipNo_setTeam (s : State) (t : Nat) (x : Team) : chipNo (setTeam s t x) = chipNo s := rfl
@[simp] theorem now_setTeam (s : State) (t : Nat) (x : Team) : now (setTeam s t x) = now s := rfl
@[simp] theorem setLaunch_cur (s : State) (l : Nat) (x : Launch) : (setLaunch s l x).cur = s.cur := rfl
@[simp] theorem setLaunch_agenda (s : State) (l : Nat) (x : Launch) : (setLaunch s l x).agenda = s.agenda := rfl
@[simp] theorem setLaunch_fresh (s : State) (l : Nat) (x : Launch) : (setLaunch s l x).fresh = s.fresh := rfl
@[simp] theorem setLaunch_mem (s : State) (l : Nat) (x : Launch) : (setLaunch s l x).mem = s.mem := rfl
@[simp] theorem setLaunch_bad (s : State) (l : Nat) (x : Launch) : (setLaunch s l x).bad = s.bad := rfl
@[simp] theorem setLaunch_parts (s : State) (l : Nat) (x : Launch) : (setLaunch s l x).parts = s.parts := rfl
@[simp] theorem setLaunch_dies (s : State) (l : Nat) (x : Launch) : (setLaunch s l x).dies = s.dies := rfl
@[simp] theorem setLaunch_cores (s : State) (l : Nat) (x : Launch) : (setLaunch s l x).cores = s.cores := rfl
@[simp] theorem setLaunch_regs (s : State) (l : Nat) (x : Launch) : (setLaunch s l x).regs = s.regs := rfl
@[simp] theorem setLaunch_shapes (s : State) (l : Nat) (x : Launch) : (setLaunch s l x).shapes = s.shapes := rfl
@[simp] theorem setLaunch_sinks (s : State) (l : Nat) (x : Launch) : (setLaunch s l x).sinks = s.sinks := rfl
@[simp] theorem setLaunch_queues (s : State) (l : Nat) (x : Launch) : (setLaunch s l x).queues = s.queues := rfl
@[simp] theorem setLaunch_tdisp (s : State) (l : Nat) (x : Launch) : (setLaunch s l x).tdisp = s.tdisp := rfl
@[simp] theorem setLaunch_resets (s : State) (l : Nat) (x : Launch) : (setLaunch s l x).resets = s.resets := rfl
@[simp] theorem setLaunch_locks (s : State) (l : Nat) (x : Launch) : (setLaunch s l x).locks = s.locks := rfl
@[simp] theorem setLaunch_boot (s : State) (l : Nat) (x : Launch) : (setLaunch s l x).boot = s.boot := rfl
@[simp] theorem setLaunch_pod (s : State) (l : Nat) (x : Launch) : (setLaunch s l x).pod = s.pod := rfl
@[simp] theorem setLaunch_time (s : State) (l : Nat) (x : Launch) : (setLaunch s l x).time = s.time := rfl
@[simp] theorem setLaunch_out (s : State) (l : Nat) (x : Launch) : (setLaunch s l x).out = s.out := rfl
@[simp] theorem setLaunch_order (s : State) (l : Nat) (x : Launch) : (setLaunch s l x).order = s.order := rfl
@[simp] theorem setLaunch_gen (s : State) (l : Nat) (x : Launch) : (setLaunch s l x).gen = s.gen := rfl
@[simp] theorem setLaunch_work_groups (s : State) (l : Nat) (x : Launch) : (setLaunch s l x).work.groups = s.work.groups := rfl
@[simp] theorem setLaunch_work_teams (s : State) (l : Nat) (x : Launch) : (setLaunch s l x).work.teams = s.work.teams := rfl
@[simp] theorem setLaunch_work_colls (s : State) (l : Nat) (x : Launch) : (setLaunch s l x).work.colls = s.work.colls := rfl
@[simp] theorem setLaunch_work_walks (s : State) (l : Nat) (x : Launch) : (setLaunch s l x).work.walks = s.work.walks := rfl
@[simp] theorem setLaunch_work_faults (s : State) (l : Nat) (x : Launch) : (setLaunch s l x).work.faults = s.work.faults := rfl
@[simp] theorem setLaunch_work_waits (s : State) (l : Nat) (x : Launch) : (setLaunch s l x).work.waits = s.work.waits := rfl
@[simp] theorem setLaunch_work_remote (s : State) (l : Nat) (x : Launch) : (setLaunch s l x).work.remote = s.work.remote := rfl
@[simp] theorem setLaunch_work_next (s : State) (l : Nat) (x : Launch) : (setLaunch s l x).work.next = s.work.next := rfl
@[simp] theorem group_setLaunch (s : State) (l : Nat) (x : Launch) (h : Nat) : group (setLaunch s l x) h = group s h := rfl
@[simp] theorem team_setLaunch (s : State) (l : Nat) (x : Launch) (h : Nat) : team (setLaunch s l x) h = team s h := rfl
@[simp] theorem coll_setLaunch (s : State) (l : Nat) (x : Launch) (h : Nat) : coll (setLaunch s l x) h = coll s h := rfl
@[simp] theorem walk_setLaunch (s : State) (l : Nat) (x : Launch) (h : Nat) : walk (setLaunch s l x) h = walk s h := rfl
@[simp] theorem die_setLaunch (s : State) (l : Nat) (x : Launch) (h : Nat) : die (setLaunch s l x) h = die s h := rfl
@[simp] theorem core_setLaunch (s : State) (l : Nat) (x : Launch) (h : Nat) : core (setLaunch s l x) h = core s h := rfl
@[simp] theorem queue_setLaunch (s : State) (l : Nat) (x : Launch) (h : Nat) : queue (setLaunch s l x) h = queue s h := rfl
@[simp] theorem sink_setLaunch (s : State) (l : Nat) (x : Launch) (h k : Nat) : sink (setLaunch s l x) h k = sink s h k := rfl
@[simp] theorem shapeSlot_setLaunch (s : State) (l : Nat) (x : Launch) (h k : Nat) : shapeSlot (setLaunch s l x) h k = shapeSlot s h k := rfl
@[simp] theorem preg_setLaunch (s : State) (l : Nat) (x : Launch) (h k : Nat) : preg (setLaunch s l x) h k = preg s h k := rfl
@[simp] theorem tdispOf_setLaunch (s : State) (l : Nat) (x : Launch) (h : Nat) : tdispOf (setLaunch s l x) h = tdispOf s h := rfl
@[simp] theorem chipNo_setLaunch (s : State) (l : Nat) (x : Launch) : chipNo (setLaunch s l x) = chipNo s := rfl
@[simp] theorem now_setLaunch (s : State) (l : Nat) (x : Launch) : now (setLaunch s l x) = now s := rfl
@[simp] theorem setColl_cur (s : State) (c : Nat) (x : Option Coll) : (setColl s c x).cur = s.cur := rfl
@[simp] theorem setColl_agenda (s : State) (c : Nat) (x : Option Coll) : (setColl s c x).agenda = s.agenda := rfl
@[simp] theorem setColl_fresh (s : State) (c : Nat) (x : Option Coll) : (setColl s c x).fresh = s.fresh := rfl
@[simp] theorem setColl_mem (s : State) (c : Nat) (x : Option Coll) : (setColl s c x).mem = s.mem := rfl
@[simp] theorem setColl_bad (s : State) (c : Nat) (x : Option Coll) : (setColl s c x).bad = s.bad := rfl
@[simp] theorem setColl_parts (s : State) (c : Nat) (x : Option Coll) : (setColl s c x).parts = s.parts := rfl
@[simp] theorem setColl_dies (s : State) (c : Nat) (x : Option Coll) : (setColl s c x).dies = s.dies := rfl
@[simp] theorem setColl_cores (s : State) (c : Nat) (x : Option Coll) : (setColl s c x).cores = s.cores := rfl
@[simp] theorem setColl_regs (s : State) (c : Nat) (x : Option Coll) : (setColl s c x).regs = s.regs := rfl
@[simp] theorem setColl_shapes (s : State) (c : Nat) (x : Option Coll) : (setColl s c x).shapes = s.shapes := rfl
@[simp] theorem setColl_sinks (s : State) (c : Nat) (x : Option Coll) : (setColl s c x).sinks = s.sinks := rfl
@[simp] theorem setColl_queues (s : State) (c : Nat) (x : Option Coll) : (setColl s c x).queues = s.queues := rfl
@[simp] theorem setColl_tdisp (s : State) (c : Nat) (x : Option Coll) : (setColl s c x).tdisp = s.tdisp := rfl
@[simp] theorem setColl_resets (s : State) (c : Nat) (x : Option Coll) : (setColl s c x).resets = s.resets := rfl
@[simp] theorem setColl_locks (s : State) (c : Nat) (x : Option Coll) : (setColl s c x).locks = s.locks := rfl
@[simp] theorem setColl_boot (s : State) (c : Nat) (x : Option Coll) : (setColl s c x).boot = s.boot := rfl
@[simp] theorem setColl_pod (s : State) (c : Nat) (x : Option Coll) : (setColl s c x).pod = s.pod := rfl
@[simp] theorem setColl_time (s : State) (c : Nat) (x : Option Coll) : (setColl s c x).time = s.time := rfl
@[simp] theorem setColl_out (s : State) (c : Nat) (x : Option Coll) : (setColl s c x).out = s.out := rfl
@[simp] theorem setColl_order (s : State) (c : Nat) (x : Option Coll) : (setColl s c x).order = s.order := rfl
@[simp] theorem setColl_gen (s : State) (c : Nat) (x : Option Coll) : (setColl s c x).gen = s.gen := rfl
@[simp] theorem setColl_work_groups (s : State) (c : Nat) (x : Option Coll) : (setColl s c x).work.groups = s.work.groups := rfl
@[simp] theorem setColl_work_teams (s : State) (c : Nat) (x : Option Coll) : (setColl s c x).work.teams = s.work.teams := rfl
@[simp] theorem setColl_work_launches (s : State) (c : Nat) (x : Option Coll) : (setColl s c x).work.launches = s.work.launches := rfl
@[simp] theorem setColl_work_walks (s : State) (c : Nat) (x : Option Coll) : (setColl s c x).work.walks = s.work.walks := rfl
@[simp] theorem setColl_work_faults (s : State) (c : Nat) (x : Option Coll) : (setColl s c x).work.faults = s.work.faults := rfl
@[simp] theorem setColl_work_waits (s : State) (c : Nat) (x : Option Coll) : (setColl s c x).work.waits = s.work.waits := rfl
@[simp] theorem setColl_work_remote (s : State) (c : Nat) (x : Option Coll) : (setColl s c x).work.remote = s.work.remote := rfl
@[simp] theorem setColl_work_next (s : State) (c : Nat) (x : Option Coll) : (setColl s c x).work.next = s.work.next := rfl
@[simp] theorem group_setColl (s : State) (c : Nat) (x : Option Coll) (h : Nat) : group (setColl s c x) h = group s h := rfl
@[simp] theorem team_setColl (s : State) (c : Nat) (x : Option Coll) (h : Nat) : team (setColl s c x) h = team s h := rfl
@[simp] theorem launch_setColl (s : State) (c : Nat) (x : Option Coll) (h : Nat) : launch (setColl s c x) h = launch s h := rfl
@[simp] theorem walk_setColl (s : State) (c : Nat) (x : Option Coll) (h : Nat) : walk (setColl s c x) h = walk s h := rfl
@[simp] theorem die_setColl (s : State) (c : Nat) (x : Option Coll) (h : Nat) : die (setColl s c x) h = die s h := rfl
@[simp] theorem core_setColl (s : State) (c : Nat) (x : Option Coll) (h : Nat) : core (setColl s c x) h = core s h := rfl
@[simp] theorem queue_setColl (s : State) (c : Nat) (x : Option Coll) (h : Nat) : queue (setColl s c x) h = queue s h := rfl
@[simp] theorem sink_setColl (s : State) (c : Nat) (x : Option Coll) (h k : Nat) : sink (setColl s c x) h k = sink s h k := rfl
@[simp] theorem shapeSlot_setColl (s : State) (c : Nat) (x : Option Coll) (h k : Nat) : shapeSlot (setColl s c x) h k = shapeSlot s h k := rfl
@[simp] theorem preg_setColl (s : State) (c : Nat) (x : Option Coll) (h k : Nat) : preg (setColl s c x) h k = preg s h k := rfl
@[simp] theorem tdispOf_setColl (s : State) (c : Nat) (x : Option Coll) (h : Nat) : tdispOf (setColl s c x) h = tdispOf s h := rfl
@[simp] theorem chipNo_setColl (s : State) (c : Nat) (x : Option Coll) : chipNo (setColl s c x) = chipNo s := rfl
@[simp] theorem now_setColl (s : State) (c : Nat) (x : Option Coll) : now (setColl s c x) = now s := rfl
@[simp] theorem setWalk_cur (s : State) (w : Nat) (x : Option Walk) : (setWalk s w x).cur = s.cur := rfl
@[simp] theorem setWalk_agenda (s : State) (w : Nat) (x : Option Walk) : (setWalk s w x).agenda = s.agenda := rfl
@[simp] theorem setWalk_fresh (s : State) (w : Nat) (x : Option Walk) : (setWalk s w x).fresh = s.fresh := rfl
@[simp] theorem setWalk_mem (s : State) (w : Nat) (x : Option Walk) : (setWalk s w x).mem = s.mem := rfl
@[simp] theorem setWalk_bad (s : State) (w : Nat) (x : Option Walk) : (setWalk s w x).bad = s.bad := rfl
@[simp] theorem setWalk_parts (s : State) (w : Nat) (x : Option Walk) : (setWalk s w x).parts = s.parts := rfl
@[simp] theorem setWalk_dies (s : State) (w : Nat) (x : Option Walk) : (setWalk s w x).dies = s.dies := rfl
@[simp] theorem setWalk_cores (s : State) (w : Nat) (x : Option Walk) : (setWalk s w x).cores = s.cores := rfl
@[simp] theorem setWalk_regs (s : State) (w : Nat) (x : Option Walk) : (setWalk s w x).regs = s.regs := rfl
@[simp] theorem setWalk_shapes (s : State) (w : Nat) (x : Option Walk) : (setWalk s w x).shapes = s.shapes := rfl
@[simp] theorem setWalk_sinks (s : State) (w : Nat) (x : Option Walk) : (setWalk s w x).sinks = s.sinks := rfl
@[simp] theorem setWalk_queues (s : State) (w : Nat) (x : Option Walk) : (setWalk s w x).queues = s.queues := rfl
@[simp] theorem setWalk_tdisp (s : State) (w : Nat) (x : Option Walk) : (setWalk s w x).tdisp = s.tdisp := rfl
@[simp] theorem setWalk_resets (s : State) (w : Nat) (x : Option Walk) : (setWalk s w x).resets = s.resets := rfl
@[simp] theorem setWalk_locks (s : State) (w : Nat) (x : Option Walk) : (setWalk s w x).locks = s.locks := rfl
@[simp] theorem setWalk_boot (s : State) (w : Nat) (x : Option Walk) : (setWalk s w x).boot = s.boot := rfl
@[simp] theorem setWalk_pod (s : State) (w : Nat) (x : Option Walk) : (setWalk s w x).pod = s.pod := rfl
@[simp] theorem setWalk_time (s : State) (w : Nat) (x : Option Walk) : (setWalk s w x).time = s.time := rfl
@[simp] theorem setWalk_out (s : State) (w : Nat) (x : Option Walk) : (setWalk s w x).out = s.out := rfl
@[simp] theorem setWalk_order (s : State) (w : Nat) (x : Option Walk) : (setWalk s w x).order = s.order := rfl
@[simp] theorem setWalk_gen (s : State) (w : Nat) (x : Option Walk) : (setWalk s w x).gen = s.gen := rfl
@[simp] theorem setWalk_work_groups (s : State) (w : Nat) (x : Option Walk) : (setWalk s w x).work.groups = s.work.groups := rfl
@[simp] theorem setWalk_work_teams (s : State) (w : Nat) (x : Option Walk) : (setWalk s w x).work.teams = s.work.teams := rfl
@[simp] theorem setWalk_work_launches (s : State) (w : Nat) (x : Option Walk) : (setWalk s w x).work.launches = s.work.launches := rfl
@[simp] theorem setWalk_work_colls (s : State) (w : Nat) (x : Option Walk) : (setWalk s w x).work.colls = s.work.colls := rfl
@[simp] theorem setWalk_work_faults (s : State) (w : Nat) (x : Option Walk) : (setWalk s w x).work.faults = s.work.faults := rfl
@[simp] theorem setWalk_work_waits (s : State) (w : Nat) (x : Option Walk) : (setWalk s w x).work.waits = s.work.waits := rfl
@[simp] theorem setWalk_work_remote (s : State) (w : Nat) (x : Option Walk) : (setWalk s w x).work.remote = s.work.remote := rfl
@[simp] theorem setWalk_work_next (s : State) (w : Nat) (x : Option Walk) : (setWalk s w x).work.next = s.work.next := rfl
@[simp] theorem group_setWalk (s : State) (w : Nat) (x : Option Walk) (h : Nat) : group (setWalk s w x) h = group s h := rfl
@[simp] theorem team_setWalk (s : State) (w : Nat) (x : Option Walk) (h : Nat) : team (setWalk s w x) h = team s h := rfl
@[simp] theorem launch_setWalk (s : State) (w : Nat) (x : Option Walk) (h : Nat) : launch (setWalk s w x) h = launch s h := rfl
@[simp] theorem coll_setWalk (s : State) (w : Nat) (x : Option Walk) (h : Nat) : coll (setWalk s w x) h = coll s h := rfl
@[simp] theorem die_setWalk (s : State) (w : Nat) (x : Option Walk) (h : Nat) : die (setWalk s w x) h = die s h := rfl
@[simp] theorem core_setWalk (s : State) (w : Nat) (x : Option Walk) (h : Nat) : core (setWalk s w x) h = core s h := rfl
@[simp] theorem queue_setWalk (s : State) (w : Nat) (x : Option Walk) (h : Nat) : queue (setWalk s w x) h = queue s h := rfl
@[simp] theorem sink_setWalk (s : State) (w : Nat) (x : Option Walk) (h k : Nat) : sink (setWalk s w x) h k = sink s h k := rfl
@[simp] theorem shapeSlot_setWalk (s : State) (w : Nat) (x : Option Walk) (h k : Nat) : shapeSlot (setWalk s w x) h k = shapeSlot s h k := rfl
@[simp] theorem preg_setWalk (s : State) (w : Nat) (x : Option Walk) (h k : Nat) : preg (setWalk s w x) h k = preg s h k := rfl
@[simp] theorem tdispOf_setWalk (s : State) (w : Nat) (x : Option Walk) (h : Nat) : tdispOf (setWalk s w x) h = tdispOf s h := rfl
@[simp] theorem chipNo_setWalk (s : State) (w : Nat) (x : Option Walk) : chipNo (setWalk s w x) = chipNo s := rfl
@[simp] theorem now_setWalk (s : State) (w : Nat) (x : Option Walk) : now (setWalk s w x) = now s := rfl
@[simp] theorem setDie_cur (s : State) (d : Nat) (x : Die) : (setDie s d x).cur = s.cur := rfl
@[simp] theorem setDie_agenda (s : State) (d : Nat) (x : Die) : (setDie s d x).agenda = s.agenda := rfl
@[simp] theorem setDie_fresh (s : State) (d : Nat) (x : Die) : (setDie s d x).fresh = s.fresh := rfl
@[simp] theorem setDie_mem (s : State) (d : Nat) (x : Die) : (setDie s d x).mem = s.mem := rfl
@[simp] theorem setDie_bad (s : State) (d : Nat) (x : Die) : (setDie s d x).bad = s.bad := rfl
@[simp] theorem setDie_parts (s : State) (d : Nat) (x : Die) : (setDie s d x).parts = s.parts := rfl
@[simp] theorem setDie_cores (s : State) (d : Nat) (x : Die) : (setDie s d x).cores = s.cores := rfl
@[simp] theorem setDie_regs (s : State) (d : Nat) (x : Die) : (setDie s d x).regs = s.regs := rfl
@[simp] theorem setDie_shapes (s : State) (d : Nat) (x : Die) : (setDie s d x).shapes = s.shapes := rfl
@[simp] theorem setDie_sinks (s : State) (d : Nat) (x : Die) : (setDie s d x).sinks = s.sinks := rfl
@[simp] theorem setDie_queues (s : State) (d : Nat) (x : Die) : (setDie s d x).queues = s.queues := rfl
@[simp] theorem setDie_tdisp (s : State) (d : Nat) (x : Die) : (setDie s d x).tdisp = s.tdisp := rfl
@[simp] theorem setDie_resets (s : State) (d : Nat) (x : Die) : (setDie s d x).resets = s.resets := rfl
@[simp] theorem setDie_locks (s : State) (d : Nat) (x : Die) : (setDie s d x).locks = s.locks := rfl
@[simp] theorem setDie_boot (s : State) (d : Nat) (x : Die) : (setDie s d x).boot = s.boot := rfl
@[simp] theorem setDie_pod (s : State) (d : Nat) (x : Die) : (setDie s d x).pod = s.pod := rfl
@[simp] theorem setDie_time (s : State) (d : Nat) (x : Die) : (setDie s d x).time = s.time := rfl
@[simp] theorem setDie_out (s : State) (d : Nat) (x : Die) : (setDie s d x).out = s.out := rfl
@[simp] theorem setDie_order (s : State) (d : Nat) (x : Die) : (setDie s d x).order = s.order := rfl
@[simp] theorem setDie_gen (s : State) (d : Nat) (x : Die) : (setDie s d x).gen = s.gen := rfl
@[simp] theorem setDie_work (s : State) (d : Nat) (x : Die) : (setDie s d x).work = s.work := rfl
@[simp] theorem group_setDie (s : State) (d : Nat) (x : Die) (h : Nat) : group (setDie s d x) h = group s h := rfl
@[simp] theorem team_setDie (s : State) (d : Nat) (x : Die) (h : Nat) : team (setDie s d x) h = team s h := rfl
@[simp] theorem launch_setDie (s : State) (d : Nat) (x : Die) (h : Nat) : launch (setDie s d x) h = launch s h := rfl
@[simp] theorem coll_setDie (s : State) (d : Nat) (x : Die) (h : Nat) : coll (setDie s d x) h = coll s h := rfl
@[simp] theorem walk_setDie (s : State) (d : Nat) (x : Die) (h : Nat) : walk (setDie s d x) h = walk s h := rfl
@[simp] theorem core_setDie (s : State) (d : Nat) (x : Die) (h : Nat) : core (setDie s d x) h = core s h := rfl
@[simp] theorem queue_setDie (s : State) (d : Nat) (x : Die) (h : Nat) : queue (setDie s d x) h = queue s h := rfl
@[simp] theorem sink_setDie (s : State) (d : Nat) (x : Die) (h k : Nat) : sink (setDie s d x) h k = sink s h k := rfl
@[simp] theorem shapeSlot_setDie (s : State) (d : Nat) (x : Die) (h k : Nat) : shapeSlot (setDie s d x) h k = shapeSlot s h k := rfl
@[simp] theorem preg_setDie (s : State) (d : Nat) (x : Die) (h k : Nat) : preg (setDie s d x) h k = preg s h k := rfl
@[simp] theorem tdispOf_setDie (s : State) (d : Nat) (x : Die) (h : Nat) : tdispOf (setDie s d x) h = tdispOf s h := rfl
@[simp] theorem chipNo_setDie (s : State) (d : Nat) (x : Die) : chipNo (setDie s d x) = chipNo s := rfl
@[simp] theorem now_setDie (s : State) (d : Nat) (x : Die) : now (setDie s d x) = now s := rfl
@[simp] theorem setCore_cur (s : State) (c : Nat) (x : Core) : (setCore s c x).cur = s.cur := rfl
@[simp] theorem setCore_agenda (s : State) (c : Nat) (x : Core) : (setCore s c x).agenda = s.agenda := rfl
@[simp] theorem setCore_fresh (s : State) (c : Nat) (x : Core) : (setCore s c x).fresh = s.fresh := rfl
@[simp] theorem setCore_mem (s : State) (c : Nat) (x : Core) : (setCore s c x).mem = s.mem := rfl
@[simp] theorem setCore_bad (s : State) (c : Nat) (x : Core) : (setCore s c x).bad = s.bad := rfl
@[simp] theorem setCore_parts (s : State) (c : Nat) (x : Core) : (setCore s c x).parts = s.parts := rfl
@[simp] theorem setCore_dies (s : State) (c : Nat) (x : Core) : (setCore s c x).dies = s.dies := rfl
@[simp] theorem setCore_regs (s : State) (c : Nat) (x : Core) : (setCore s c x).regs = s.regs := rfl
@[simp] theorem setCore_shapes (s : State) (c : Nat) (x : Core) : (setCore s c x).shapes = s.shapes := rfl
@[simp] theorem setCore_sinks (s : State) (c : Nat) (x : Core) : (setCore s c x).sinks = s.sinks := rfl
@[simp] theorem setCore_queues (s : State) (c : Nat) (x : Core) : (setCore s c x).queues = s.queues := rfl
@[simp] theorem setCore_tdisp (s : State) (c : Nat) (x : Core) : (setCore s c x).tdisp = s.tdisp := rfl
@[simp] theorem setCore_resets (s : State) (c : Nat) (x : Core) : (setCore s c x).resets = s.resets := rfl
@[simp] theorem setCore_locks (s : State) (c : Nat) (x : Core) : (setCore s c x).locks = s.locks := rfl
@[simp] theorem setCore_boot (s : State) (c : Nat) (x : Core) : (setCore s c x).boot = s.boot := rfl
@[simp] theorem setCore_pod (s : State) (c : Nat) (x : Core) : (setCore s c x).pod = s.pod := rfl
@[simp] theorem setCore_time (s : State) (c : Nat) (x : Core) : (setCore s c x).time = s.time := rfl
@[simp] theorem setCore_out (s : State) (c : Nat) (x : Core) : (setCore s c x).out = s.out := rfl
@[simp] theorem setCore_order (s : State) (c : Nat) (x : Core) : (setCore s c x).order = s.order := rfl
@[simp] theorem setCore_gen (s : State) (c : Nat) (x : Core) : (setCore s c x).gen = s.gen := rfl
@[simp] theorem setCore_work (s : State) (c : Nat) (x : Core) : (setCore s c x).work = s.work := rfl
@[simp] theorem group_setCore (s : State) (c : Nat) (x : Core) (h : Nat) : group (setCore s c x) h = group s h := rfl
@[simp] theorem team_setCore (s : State) (c : Nat) (x : Core) (h : Nat) : team (setCore s c x) h = team s h := rfl
@[simp] theorem launch_setCore (s : State) (c : Nat) (x : Core) (h : Nat) : launch (setCore s c x) h = launch s h := rfl
@[simp] theorem coll_setCore (s : State) (c : Nat) (x : Core) (h : Nat) : coll (setCore s c x) h = coll s h := rfl
@[simp] theorem walk_setCore (s : State) (c : Nat) (x : Core) (h : Nat) : walk (setCore s c x) h = walk s h := rfl
@[simp] theorem die_setCore (s : State) (c : Nat) (x : Core) (h : Nat) : die (setCore s c x) h = die s h := rfl
@[simp] theorem queue_setCore (s : State) (c : Nat) (x : Core) (h : Nat) : queue (setCore s c x) h = queue s h := rfl
@[simp] theorem sink_setCore (s : State) (c : Nat) (x : Core) (h k : Nat) : sink (setCore s c x) h k = sink s h k := rfl
@[simp] theorem shapeSlot_setCore (s : State) (c : Nat) (x : Core) (h k : Nat) : shapeSlot (setCore s c x) h k = shapeSlot s h k := rfl
@[simp] theorem preg_setCore (s : State) (c : Nat) (x : Core) (h k : Nat) : preg (setCore s c x) h k = preg s h k := rfl
@[simp] theorem tdispOf_setCore (s : State) (c : Nat) (x : Core) (h : Nat) : tdispOf (setCore s c x) h = tdispOf s h := rfl
@[simp] theorem chipNo_setCore (s : State) (c : Nat) (x : Core) : chipNo (setCore s c x) = chipNo s := rfl
@[simp] theorem now_setCore (s : State) (c : Nat) (x : Core) : now (setCore s c x) = now s := rfl
@[simp] theorem setQueue_cur (s : State) (q : Nat) (x : Queue) : (setQueue s q x).cur = s.cur := rfl
@[simp] theorem setQueue_agenda (s : State) (q : Nat) (x : Queue) : (setQueue s q x).agenda = s.agenda := rfl
@[simp] theorem setQueue_fresh (s : State) (q : Nat) (x : Queue) : (setQueue s q x).fresh = s.fresh := rfl
@[simp] theorem setQueue_mem (s : State) (q : Nat) (x : Queue) : (setQueue s q x).mem = s.mem := rfl
@[simp] theorem setQueue_bad (s : State) (q : Nat) (x : Queue) : (setQueue s q x).bad = s.bad := rfl
@[simp] theorem setQueue_parts (s : State) (q : Nat) (x : Queue) : (setQueue s q x).parts = s.parts := rfl
@[simp] theorem setQueue_dies (s : State) (q : Nat) (x : Queue) : (setQueue s q x).dies = s.dies := rfl
@[simp] theorem setQueue_cores (s : State) (q : Nat) (x : Queue) : (setQueue s q x).cores = s.cores := rfl
@[simp] theorem setQueue_regs (s : State) (q : Nat) (x : Queue) : (setQueue s q x).regs = s.regs := rfl
@[simp] theorem setQueue_shapes (s : State) (q : Nat) (x : Queue) : (setQueue s q x).shapes = s.shapes := rfl
@[simp] theorem setQueue_sinks (s : State) (q : Nat) (x : Queue) : (setQueue s q x).sinks = s.sinks := rfl
@[simp] theorem setQueue_tdisp (s : State) (q : Nat) (x : Queue) : (setQueue s q x).tdisp = s.tdisp := rfl
@[simp] theorem setQueue_resets (s : State) (q : Nat) (x : Queue) : (setQueue s q x).resets = s.resets := rfl
@[simp] theorem setQueue_locks (s : State) (q : Nat) (x : Queue) : (setQueue s q x).locks = s.locks := rfl
@[simp] theorem setQueue_boot (s : State) (q : Nat) (x : Queue) : (setQueue s q x).boot = s.boot := rfl
@[simp] theorem setQueue_pod (s : State) (q : Nat) (x : Queue) : (setQueue s q x).pod = s.pod := rfl
@[simp] theorem setQueue_time (s : State) (q : Nat) (x : Queue) : (setQueue s q x).time = s.time := rfl
@[simp] theorem setQueue_out (s : State) (q : Nat) (x : Queue) : (setQueue s q x).out = s.out := rfl
@[simp] theorem setQueue_order (s : State) (q : Nat) (x : Queue) : (setQueue s q x).order = s.order := rfl
@[simp] theorem setQueue_gen (s : State) (q : Nat) (x : Queue) : (setQueue s q x).gen = s.gen := rfl
@[simp] theorem setQueue_work (s : State) (q : Nat) (x : Queue) : (setQueue s q x).work = s.work := rfl
@[simp] theorem group_setQueue (s : State) (q : Nat) (x : Queue) (h : Nat) : group (setQueue s q x) h = group s h := rfl
@[simp] theorem team_setQueue (s : State) (q : Nat) (x : Queue) (h : Nat) : team (setQueue s q x) h = team s h := rfl
@[simp] theorem launch_setQueue (s : State) (q : Nat) (x : Queue) (h : Nat) : launch (setQueue s q x) h = launch s h := rfl
@[simp] theorem coll_setQueue (s : State) (q : Nat) (x : Queue) (h : Nat) : coll (setQueue s q x) h = coll s h := rfl
@[simp] theorem walk_setQueue (s : State) (q : Nat) (x : Queue) (h : Nat) : walk (setQueue s q x) h = walk s h := rfl
@[simp] theorem die_setQueue (s : State) (q : Nat) (x : Queue) (h : Nat) : die (setQueue s q x) h = die s h := rfl
@[simp] theorem core_setQueue (s : State) (q : Nat) (x : Queue) (h : Nat) : core (setQueue s q x) h = core s h := rfl
@[simp] theorem sink_setQueue (s : State) (q : Nat) (x : Queue) (h k : Nat) : sink (setQueue s q x) h k = sink s h k := rfl
@[simp] theorem shapeSlot_setQueue (s : State) (q : Nat) (x : Queue) (h k : Nat) : shapeSlot (setQueue s q x) h k = shapeSlot s h k := rfl
@[simp] theorem preg_setQueue (s : State) (q : Nat) (x : Queue) (h k : Nat) : preg (setQueue s q x) h k = preg s h k := rfl
@[simp] theorem tdispOf_setQueue (s : State) (q : Nat) (x : Queue) (h : Nat) : tdispOf (setQueue s q x) h = tdispOf s h := rfl
@[simp] theorem chipNo_setQueue (s : State) (q : Nat) (x : Queue) : chipNo (setQueue s q x) = chipNo s := rfl
@[simp] theorem now_setQueue (s : State) (q : Nat) (x : Queue) : now (setQueue s q x) = now s := rfl
@[simp] theorem setSink_cur (s : State) (p d : Nat) (x : Sink) : (setSink s p d x).cur = s.cur := rfl
@[simp] theorem setSink_agenda (s : State) (p d : Nat) (x : Sink) : (setSink s p d x).agenda = s.agenda := rfl
@[simp] theorem setSink_fresh (s : State) (p d : Nat) (x : Sink) : (setSink s p d x).fresh = s.fresh := rfl
@[simp] theorem setSink_mem (s : State) (p d : Nat) (x : Sink) : (setSink s p d x).mem = s.mem := rfl
@[simp] theorem setSink_bad (s : State) (p d : Nat) (x : Sink) : (setSink s p d x).bad = s.bad := rfl
@[simp] theorem setSink_parts (s : State) (p d : Nat) (x : Sink) : (setSink s p d x).parts = s.parts := rfl
@[simp] theorem setSink_dies (s : State) (p d : Nat) (x : Sink) : (setSink s p d x).dies = s.dies := rfl
@[simp] theorem setSink_cores (s : State) (p d : Nat) (x : Sink) : (setSink s p d x).cores = s.cores := rfl
@[simp] theorem setSink_regs (s : State) (p d : Nat) (x : Sink) : (setSink s p d x).regs = s.regs := rfl
@[simp] theorem setSink_shapes (s : State) (p d : Nat) (x : Sink) : (setSink s p d x).shapes = s.shapes := rfl
@[simp] theorem setSink_queues (s : State) (p d : Nat) (x : Sink) : (setSink s p d x).queues = s.queues := rfl
@[simp] theorem setSink_tdisp (s : State) (p d : Nat) (x : Sink) : (setSink s p d x).tdisp = s.tdisp := rfl
@[simp] theorem setSink_resets (s : State) (p d : Nat) (x : Sink) : (setSink s p d x).resets = s.resets := rfl
@[simp] theorem setSink_locks (s : State) (p d : Nat) (x : Sink) : (setSink s p d x).locks = s.locks := rfl
@[simp] theorem setSink_boot (s : State) (p d : Nat) (x : Sink) : (setSink s p d x).boot = s.boot := rfl
@[simp] theorem setSink_pod (s : State) (p d : Nat) (x : Sink) : (setSink s p d x).pod = s.pod := rfl
@[simp] theorem setSink_time (s : State) (p d : Nat) (x : Sink) : (setSink s p d x).time = s.time := rfl
@[simp] theorem setSink_out (s : State) (p d : Nat) (x : Sink) : (setSink s p d x).out = s.out := rfl
@[simp] theorem setSink_order (s : State) (p d : Nat) (x : Sink) : (setSink s p d x).order = s.order := rfl
@[simp] theorem setSink_gen (s : State) (p d : Nat) (x : Sink) : (setSink s p d x).gen = s.gen := rfl
@[simp] theorem setSink_work (s : State) (p d : Nat) (x : Sink) : (setSink s p d x).work = s.work := rfl
@[simp] theorem group_setSink (s : State) (p d : Nat) (x : Sink) (h : Nat) : group (setSink s p d x) h = group s h := rfl
@[simp] theorem team_setSink (s : State) (p d : Nat) (x : Sink) (h : Nat) : team (setSink s p d x) h = team s h := rfl
@[simp] theorem launch_setSink (s : State) (p d : Nat) (x : Sink) (h : Nat) : launch (setSink s p d x) h = launch s h := rfl
@[simp] theorem coll_setSink (s : State) (p d : Nat) (x : Sink) (h : Nat) : coll (setSink s p d x) h = coll s h := rfl
@[simp] theorem walk_setSink (s : State) (p d : Nat) (x : Sink) (h : Nat) : walk (setSink s p d x) h = walk s h := rfl
@[simp] theorem die_setSink (s : State) (p d : Nat) (x : Sink) (h : Nat) : die (setSink s p d x) h = die s h := rfl
@[simp] theorem core_setSink (s : State) (p d : Nat) (x : Sink) (h : Nat) : core (setSink s p d x) h = core s h := rfl
@[simp] theorem queue_setSink (s : State) (p d : Nat) (x : Sink) (h : Nat) : queue (setSink s p d x) h = queue s h := rfl
@[simp] theorem shapeSlot_setSink (s : State) (p d : Nat) (x : Sink) (h k : Nat) : shapeSlot (setSink s p d x) h k = shapeSlot s h k := rfl
@[simp] theorem preg_setSink (s : State) (p d : Nat) (x : Sink) (h k : Nat) : preg (setSink s p d x) h k = preg s h k := rfl
@[simp] theorem tdispOf_setSink (s : State) (p d : Nat) (x : Sink) (h : Nat) : tdispOf (setSink s p d x) h = tdispOf s h := rfl
@[simp] theorem chipNo_setSink (s : State) (p d : Nat) (x : Sink) : chipNo (setSink s p d x) = chipNo s := rfl
@[simp] theorem now_setSink (s : State) (p d : Nat) (x : Sink) : now (setSink s p d x) = now s := rfl
@[simp] theorem setShape_cur (s : State) (p i : Nat) (x : ShapeSlot) : (setShape s p i x).cur = s.cur := rfl
@[simp] theorem setShape_agenda (s : State) (p i : Nat) (x : ShapeSlot) : (setShape s p i x).agenda = s.agenda := rfl
@[simp] theorem setShape_fresh (s : State) (p i : Nat) (x : ShapeSlot) : (setShape s p i x).fresh = s.fresh := rfl
@[simp] theorem setShape_mem (s : State) (p i : Nat) (x : ShapeSlot) : (setShape s p i x).mem = s.mem := rfl
@[simp] theorem setShape_bad (s : State) (p i : Nat) (x : ShapeSlot) : (setShape s p i x).bad = s.bad := rfl
@[simp] theorem setShape_parts (s : State) (p i : Nat) (x : ShapeSlot) : (setShape s p i x).parts = s.parts := rfl
@[simp] theorem setShape_dies (s : State) (p i : Nat) (x : ShapeSlot) : (setShape s p i x).dies = s.dies := rfl
@[simp] theorem setShape_cores (s : State) (p i : Nat) (x : ShapeSlot) : (setShape s p i x).cores = s.cores := rfl
@[simp] theorem setShape_regs (s : State) (p i : Nat) (x : ShapeSlot) : (setShape s p i x).regs = s.regs := rfl
@[simp] theorem setShape_sinks (s : State) (p i : Nat) (x : ShapeSlot) : (setShape s p i x).sinks = s.sinks := rfl
@[simp] theorem setShape_queues (s : State) (p i : Nat) (x : ShapeSlot) : (setShape s p i x).queues = s.queues := rfl
@[simp] theorem setShape_tdisp (s : State) (p i : Nat) (x : ShapeSlot) : (setShape s p i x).tdisp = s.tdisp := rfl
@[simp] theorem setShape_resets (s : State) (p i : Nat) (x : ShapeSlot) : (setShape s p i x).resets = s.resets := rfl
@[simp] theorem setShape_locks (s : State) (p i : Nat) (x : ShapeSlot) : (setShape s p i x).locks = s.locks := rfl
@[simp] theorem setShape_boot (s : State) (p i : Nat) (x : ShapeSlot) : (setShape s p i x).boot = s.boot := rfl
@[simp] theorem setShape_pod (s : State) (p i : Nat) (x : ShapeSlot) : (setShape s p i x).pod = s.pod := rfl
@[simp] theorem setShape_time (s : State) (p i : Nat) (x : ShapeSlot) : (setShape s p i x).time = s.time := rfl
@[simp] theorem setShape_out (s : State) (p i : Nat) (x : ShapeSlot) : (setShape s p i x).out = s.out := rfl
@[simp] theorem setShape_order (s : State) (p i : Nat) (x : ShapeSlot) : (setShape s p i x).order = s.order := rfl
@[simp] theorem setShape_gen (s : State) (p i : Nat) (x : ShapeSlot) : (setShape s p i x).gen = s.gen := rfl
@[simp] theorem setShape_work (s : State) (p i : Nat) (x : ShapeSlot) : (setShape s p i x).work = s.work := rfl
@[simp] theorem group_setShape (s : State) (p i : Nat) (x : ShapeSlot) (h : Nat) : group (setShape s p i x) h = group s h := rfl
@[simp] theorem team_setShape (s : State) (p i : Nat) (x : ShapeSlot) (h : Nat) : team (setShape s p i x) h = team s h := rfl
@[simp] theorem launch_setShape (s : State) (p i : Nat) (x : ShapeSlot) (h : Nat) : launch (setShape s p i x) h = launch s h := rfl
@[simp] theorem coll_setShape (s : State) (p i : Nat) (x : ShapeSlot) (h : Nat) : coll (setShape s p i x) h = coll s h := rfl
@[simp] theorem walk_setShape (s : State) (p i : Nat) (x : ShapeSlot) (h : Nat) : walk (setShape s p i x) h = walk s h := rfl
@[simp] theorem die_setShape (s : State) (p i : Nat) (x : ShapeSlot) (h : Nat) : die (setShape s p i x) h = die s h := rfl
@[simp] theorem core_setShape (s : State) (p i : Nat) (x : ShapeSlot) (h : Nat) : core (setShape s p i x) h = core s h := rfl
@[simp] theorem queue_setShape (s : State) (p i : Nat) (x : ShapeSlot) (h : Nat) : queue (setShape s p i x) h = queue s h := rfl
@[simp] theorem sink_setShape (s : State) (p i : Nat) (x : ShapeSlot) (h k : Nat) : sink (setShape s p i x) h k = sink s h k := rfl
@[simp] theorem preg_setShape (s : State) (p i : Nat) (x : ShapeSlot) (h k : Nat) : preg (setShape s p i x) h k = preg s h k := rfl
@[simp] theorem tdispOf_setShape (s : State) (p i : Nat) (x : ShapeSlot) (h : Nat) : tdispOf (setShape s p i x) h = tdispOf s h := rfl
@[simp] theorem chipNo_setShape (s : State) (p i : Nat) (x : ShapeSlot) : chipNo (setShape s p i x) = chipNo s := rfl
@[simp] theorem now_setShape (s : State) (p i : Nat) (x : ShapeSlot) : now (setShape s p i x) = now s := rfl
@[simp] theorem setPreg_cur (s : State) (p r : Nat) (v : Word) : (setPreg s p r v).cur = s.cur := rfl
@[simp] theorem setPreg_agenda (s : State) (p r : Nat) (v : Word) : (setPreg s p r v).agenda = s.agenda := rfl
@[simp] theorem setPreg_fresh (s : State) (p r : Nat) (v : Word) : (setPreg s p r v).fresh = s.fresh := rfl
@[simp] theorem setPreg_mem (s : State) (p r : Nat) (v : Word) : (setPreg s p r v).mem = s.mem := rfl
@[simp] theorem setPreg_bad (s : State) (p r : Nat) (v : Word) : (setPreg s p r v).bad = s.bad := rfl
@[simp] theorem setPreg_parts (s : State) (p r : Nat) (v : Word) : (setPreg s p r v).parts = s.parts := rfl
@[simp] theorem setPreg_dies (s : State) (p r : Nat) (v : Word) : (setPreg s p r v).dies = s.dies := rfl
@[simp] theorem setPreg_cores (s : State) (p r : Nat) (v : Word) : (setPreg s p r v).cores = s.cores := rfl
@[simp] theorem setPreg_shapes (s : State) (p r : Nat) (v : Word) : (setPreg s p r v).shapes = s.shapes := rfl
@[simp] theorem setPreg_sinks (s : State) (p r : Nat) (v : Word) : (setPreg s p r v).sinks = s.sinks := rfl
@[simp] theorem setPreg_queues (s : State) (p r : Nat) (v : Word) : (setPreg s p r v).queues = s.queues := rfl
@[simp] theorem setPreg_tdisp (s : State) (p r : Nat) (v : Word) : (setPreg s p r v).tdisp = s.tdisp := rfl
@[simp] theorem setPreg_resets (s : State) (p r : Nat) (v : Word) : (setPreg s p r v).resets = s.resets := rfl
@[simp] theorem setPreg_locks (s : State) (p r : Nat) (v : Word) : (setPreg s p r v).locks = s.locks := rfl
@[simp] theorem setPreg_boot (s : State) (p r : Nat) (v : Word) : (setPreg s p r v).boot = s.boot := rfl
@[simp] theorem setPreg_pod (s : State) (p r : Nat) (v : Word) : (setPreg s p r v).pod = s.pod := rfl
@[simp] theorem setPreg_time (s : State) (p r : Nat) (v : Word) : (setPreg s p r v).time = s.time := rfl
@[simp] theorem setPreg_out (s : State) (p r : Nat) (v : Word) : (setPreg s p r v).out = s.out := rfl
@[simp] theorem setPreg_order (s : State) (p r : Nat) (v : Word) : (setPreg s p r v).order = s.order := rfl
@[simp] theorem setPreg_gen (s : State) (p r : Nat) (v : Word) : (setPreg s p r v).gen = s.gen := rfl
@[simp] theorem setPreg_work (s : State) (p r : Nat) (v : Word) : (setPreg s p r v).work = s.work := rfl
@[simp] theorem group_setPreg (s : State) (p r : Nat) (v : Word) (h : Nat) : group (setPreg s p r v) h = group s h := rfl
@[simp] theorem team_setPreg (s : State) (p r : Nat) (v : Word) (h : Nat) : team (setPreg s p r v) h = team s h := rfl
@[simp] theorem launch_setPreg (s : State) (p r : Nat) (v : Word) (h : Nat) : launch (setPreg s p r v) h = launch s h := rfl
@[simp] theorem coll_setPreg (s : State) (p r : Nat) (v : Word) (h : Nat) : coll (setPreg s p r v) h = coll s h := rfl
@[simp] theorem walk_setPreg (s : State) (p r : Nat) (v : Word) (h : Nat) : walk (setPreg s p r v) h = walk s h := rfl
@[simp] theorem die_setPreg (s : State) (p r : Nat) (v : Word) (h : Nat) : die (setPreg s p r v) h = die s h := rfl
@[simp] theorem core_setPreg (s : State) (p r : Nat) (v : Word) (h : Nat) : core (setPreg s p r v) h = core s h := rfl
@[simp] theorem queue_setPreg (s : State) (p r : Nat) (v : Word) (h : Nat) : queue (setPreg s p r v) h = queue s h := rfl
@[simp] theorem sink_setPreg (s : State) (p r : Nat) (v : Word) (h k : Nat) : sink (setPreg s p r v) h k = sink s h k := rfl
@[simp] theorem shapeSlot_setPreg (s : State) (p r : Nat) (v : Word) (h k : Nat) : shapeSlot (setPreg s p r v) h k = shapeSlot s h k := rfl
@[simp] theorem tdispOf_setPreg (s : State) (p r : Nat) (v : Word) (h : Nat) : tdispOf (setPreg s p r v) h = tdispOf s h := rfl
@[simp] theorem chipNo_setPreg (s : State) (p r : Nat) (v : Word) : chipNo (setPreg s p r v) = chipNo s := rfl
@[simp] theorem now_setPreg (s : State) (p r : Nat) (v : Word) : now (setPreg s p r v) = now s := rfl
theorem group_setGroup (s : State) (g h : Nat) (x : Group) : group (setGroup s g x) h = if h = g then x else group s h := tget_tput ..
@[simp] theorem group_setGroup_same (s : State) (g : Nat) (x : Group) : group (setGroup s g x) g = x := tget_tput_same ..
@[simp] theorem setGroup_setGroup (s : State) (g : Nat) (x y : Group) : setGroup (setGroup s g x) g y = setGroup s g y := by simp [setGroup]
theorem team_setTeam (s : State) (t h : Nat) (x : Team) : team (setTeam s t x) h = if h = t then x else team s h := tget_tput ..
@[simp] theorem team_setTeam_same (s : State) (t : Nat) (x : Team) : team (setTeam s t x) t = x := tget_tput_same ..
@[simp] theorem setTeam_setTeam (s : State) (t : Nat) (x y : Team) : setTeam (setTeam s t x) t y = setTeam s t y := by simp [setTeam]
theorem launch_setLaunch (s : State) (l h : Nat) (x : Launch) : launch (setLaunch s l x) h = if h = l then x else launch s h := tget_tput ..
@[simp] theorem launch_setLaunch_same (s : State) (l : Nat) (x : Launch) : launch (setLaunch s l x) l = x := tget_tput_same ..
@[simp] theorem setLaunch_setLaunch (s : State) (l : Nat) (x y : Launch) : setLaunch (setLaunch s l x) l y = setLaunch s l y := by simp [setLaunch]
theorem coll_setColl (s : State) (c h : Nat) (x : Option Coll) : coll (setColl s c x) h = if h = c then x else coll s h := tget_tput ..
@[simp] theorem coll_setColl_same (s : State) (c : Nat) (x : Option Coll) : coll (setColl s c x) c = x := tget_tput_same ..
@[simp] theorem setColl_setColl (s : State) (c : Nat) (x y : Option Coll) : setColl (setColl s c x) c y = setColl s c y := by simp [setColl]
theorem walk_setWalk (s : State) (w h : Nat) (x : Option Walk) : walk (setWalk s w x) h = if h = w then x else walk s h := tget_tput ..
@[simp] theorem walk_setWalk_same (s : State) (w : Nat) (x : Option Walk) : walk (setWalk s w x) w = x := tget_tput_same ..
@[simp] theorem setWalk_setWalk (s : State) (w : Nat) (x y : Option Walk) : setWalk (setWalk s w x) w y = setWalk s w y := by simp [setWalk]
theorem die_setDie (s : State) (d h : Nat) (x : Die) : die (setDie s d x) h = if h = d then x else die s h := tget_tput ..
@[simp] theorem die_setDie_same (s : State) (d : Nat) (x : Die) : die (setDie s d x) d = x := tget_tput_same ..
@[simp] theorem setDie_setDie (s : State) (d : Nat) (x y : Die) : setDie (setDie s d x) d y = setDie s d y := by simp [setDie]
theorem core_setCore (s : State) (c h : Nat) (x : Core) : core (setCore s c x) h = if h = c then x else core s h := tget_tput ..
@[simp] theorem core_setCore_same (s : State) (c : Nat) (x : Core) : core (setCore s c x) c = x := tget_tput_same ..
@[simp] theorem setCore_setCore (s : State) (c : Nat) (x y : Core) : setCore (setCore s c x) c y = setCore s c y := by simp [setCore]
theorem queue_setQueue (s : State) (q h : Nat) (x : Queue) : queue (setQueue s q x) h = if h = q then x else queue s h := tget_tput ..
@[simp] theorem queue_setQueue_same (s : State) (q : Nat) (x : Queue) : queue (setQueue s q x) q = x := tget_tput_same ..
@[simp] theorem setQueue_setQueue (s : State) (q : Nat) (x y : Queue) : setQueue (setQueue s q x) q y = setQueue s q y := by simp [setQueue]

/-- A scalar register of a group after a write: s0 discards it (R50). -/
theorem sregOf_setSregOf (x : Group) (r q : Nat) (v : Word) :
    sregOf (setSregOf x r v) q = if q = r ∧ r ≠ 0 then v else sregOf x q := by
  unfold setSregOf
  split
  · next h => simp [h]
  · next h => simp [sregOf, tget_tput, h]
@[simp] theorem sregOf_setSregOf_same (x : Group) (r : Nat) (v : Word) (h : r ≠ 0) : sregOf (setSregOf x r v) r = v := by
  simp [sregOf_setSregOf, h]
@[simp] theorem setSregOf_zero (x : Group) (v : Word) : setSregOf x 0 v = x := rfl
@[simp] theorem setSregOf_live (x : Group) (r : Nat) (v : Word) : (setSregOf x r v).live = x.live := by unfold setSregOf; split <;> rfl
@[simp] theorem setSregOf_team (x : Group) (r : Nat) (v : Word) : (setSregOf x r v).team = x.team := by unfold setSregOf; split <;> rfl
@[simp] theorem setSregOf_no (x : Group) (r : Nat) (v : Word) : (setSregOf x r v).no = x.no := by unfold setSregOf; split <;> rfl
@[simp] theorem setSregOf_phys (x : Group) (r : Nat) (v : Word) : (setSregOf x r v).phys = x.phys := by unfold setSregOf; split <;> rfl
@[simp] theorem setSregOf_spc (x : Group) (r : Nat) (v : Word) : (setSregOf x r v).spc = x.spc := by unfold setSregOf; split <;> rfl
@[simp] theorem setSregOf_lane (x : Group) (r : Nat) (v : Word) : (setSregOf x r v).lane = x.lane := by unfold setSregOf; split <;> rfl
@[simp] theorem setSregOf_cnt (x : Group) (r : Nat) (v : Word) : (setSregOf x r v).cnt = x.cnt := by unfold setSregOf; split <;> rfl
@[simp] theorem setSregOf_level (x : Group) (r : Nat) (v : Word) : (setSregOf x r v).level = x.level := by unfold setSregOf; split <;> rfl
@[simp] theorem setSregOf_handler (x : Group) (r : Nat) (v : Word) : (setSregOf x r v).handler = x.handler := by unfold setSregOf; split <;> rfl
@[simp] theorem setSregOf_pend (x : Group) (r : Nat) (v : Word) : (setSregOf x r v).pend = x.pend := by unfold setSregOf; split <;> rfl
@[simp] theorem setSregOf_fly (x : Group) (r : Nat) (v : Word) : (setSregOf x r v).fly = x.fly := by unfold setSregOf; split <;> rfl
@[simp] theorem setSregOf_trace (x : Group) (r : Nat) (v : Word) : (setSregOf x r v).trace = x.trace := by unfold setSregOf; split <;> rfl
@[simp] theorem setSregOf_age (x : Group) (r : Nat) (v : Word) : (setSregOf x r v).age = x.age := by unfold setSregOf; split <;> rfl
@[simp] theorem setSregOf_r_v (x : Group) (r : Nat) (v : Word) : (setSregOf x r v).r.v = x.r.v := by unfold setSregOf; split <;> rfl
@[simp] theorem setSregOf_r_m (x : Group) (r : Nat) (v : Word) : (setSregOf x r v).r.m = x.r.m := by unfold setSregOf; split <;> rfl
@[simp] theorem setSregOf_r_q (x : Group) (r : Nat) (v : Word) : (setSregOf x r v).r.q = x.r.q := by unfold setSregOf; split <;> rfl
@[simp] theorem setSregOf_r_t (x : Group) (r : Nat) (v : Word) : (setSregOf x r v).r.t = x.r.t := by unfold setSregOf; split <;> rfl
theorem vreg_setVreg (x : Group) (n k : Nat) (v : LaneVec) : vreg (setVreg x n v) k = if k = n then v else vreg x k := tget_tput ..
@[simp] theorem vreg_setVreg_same (x : Group) (n : Nat) (v : LaneVec) : vreg (setVreg x n v) n = v := tget_tput_same ..
@[simp] theorem setVreg_live (x : Group) (n : Nat) (v : LaneVec) : (setVreg x n v).live = x.live := rfl
@[simp] theorem setVreg_team (x : Group) (n : Nat) (v : LaneVec) : (setVreg x n v).team = x.team := rfl
@[simp] theorem setVreg_no (x : Group) (n : Nat) (v : LaneVec) : (setVreg x n v).no = x.no := rfl
@[simp] theorem setVreg_phys (x : Group) (n : Nat) (v : LaneVec) : (setVreg x n v).phys = x.phys := rfl
@[simp] theorem setVreg_spc (x : Group) (n : Nat) (v : LaneVec) : (setVreg x n v).spc = x.spc := rfl
@[simp] theorem setVreg_lane (x : Group) (n : Nat) (v : LaneVec) : (setVreg x n v).lane = x.lane := rfl
@[simp] theorem setVreg_cnt (x : Group) (n : Nat) (v : LaneVec) : (setVreg x n v).cnt = x.cnt := rfl
@[simp] theorem setVreg_level (x : Group) (n : Nat) (v : LaneVec) : (setVreg x n v).level = x.level := rfl
@[simp] theorem setVreg_handler (x : Group) (n : Nat) (v : LaneVec) : (setVreg x n v).handler = x.handler := rfl
@[simp] theorem setVreg_pend (x : Group) (n : Nat) (v : LaneVec) : (setVreg x n v).pend = x.pend := rfl
@[simp] theorem setVreg_fly (x : Group) (n : Nat) (v : LaneVec) : (setVreg x n v).fly = x.fly := rfl
@[simp] theorem setVreg_trace (x : Group) (n : Nat) (v : LaneVec) : (setVreg x n v).trace = x.trace := rfl
@[simp] theorem setVreg_age (x : Group) (n : Nat) (v : LaneVec) : (setVreg x n v).age = x.age := rfl
@[simp] theorem setVreg_poison (x : Group) (n : Nat) (v : LaneVec) : (setVreg x n v).poison = x.poison := rfl
theorem qreg_setQreg (x : Group) (n k : Nat) (v : List LA) : qreg (setQreg x n v) k = if k = n then v else qreg x k := tget_tput ..
@[simp] theorem qreg_setQreg_same (x : Group) (n : Nat) (v : List LA) : qreg (setQreg x n v) n = v := tget_tput_same ..
@[simp] theorem setQreg_live (x : Group) (n : Nat) (v : List LA) : (setQreg x n v).live = x.live := rfl
@[simp] theorem setQreg_team (x : Group) (n : Nat) (v : List LA) : (setQreg x n v).team = x.team := rfl
@[simp] theorem setQreg_no (x : Group) (n : Nat) (v : List LA) : (setQreg x n v).no = x.no := rfl
@[simp] theorem setQreg_phys (x : Group) (n : Nat) (v : List LA) : (setQreg x n v).phys = x.phys := rfl
@[simp] theorem setQreg_spc (x : Group) (n : Nat) (v : List LA) : (setQreg x n v).spc = x.spc := rfl
@[simp] theorem setQreg_lane (x : Group) (n : Nat) (v : List LA) : (setQreg x n v).lane = x.lane := rfl
@[simp] theorem setQreg_cnt (x : Group) (n : Nat) (v : List LA) : (setQreg x n v).cnt = x.cnt := rfl
@[simp] theorem setQreg_level (x : Group) (n : Nat) (v : List LA) : (setQreg x n v).level = x.level := rfl
@[simp] theorem setQreg_handler (x : Group) (n : Nat) (v : List LA) : (setQreg x n v).handler = x.handler := rfl
@[simp] theorem setQreg_pend (x : Group) (n : Nat) (v : List LA) : (setQreg x n v).pend = x.pend := rfl
@[simp] theorem setQreg_fly (x : Group) (n : Nat) (v : List LA) : (setQreg x n v).fly = x.fly := rfl
@[simp] theorem setQreg_trace (x : Group) (n : Nat) (v : List LA) : (setQreg x n v).trace = x.trace := rfl
@[simp] theorem setQreg_age (x : Group) (n : Nat) (v : List LA) : (setQreg x n v).age = x.age := rfl
@[simp] theorem setQreg_poison (x : Group) (n : Nat) (v : List LA) : (setQreg x n v).poison = x.poison := rfl
theorem mreg_setMreg (x : Group) (n k : Nat) (v : PredVec) :
    mreg (setMreg x n v) k = if k = n ∧ n ≠ 0 then v else mreg x k := by
  by_cases hn : n = 0
  · subst hn; simp [setMreg]
  · by_cases hk : k = 0
    · subst hk; have : ¬ (0 : Nat) = n := fun e => hn e.symm
      simp [mreg, this]
    · simp [setMreg, mreg, hn, hk, tget_tput]
theorem treg_setTreg (x : Group) (n k : Nat) (v : TileDesc) : treg (setTreg x n v) k = if k = n then v else treg x k := tget_tput ..
/-- A predicate register that is not m0 reads back what was written; m0 reads as ones (R54). -/
@[simp] theorem mreg_zero (x : Group) : mreg x 0 = onesPred := rfl
theorem preg_setPreg_same (s : State) (p r : Nat) (v : Word) : preg (setPreg s p r v) p r = v := tget_tput_same ..
@[simp] theorem setMreg_live (x : Group) (n : Nat) (v : PredVec) : (setMreg x n v).live = x.live := by unfold setMreg; split <;> rfl
@[simp] theorem setMreg_team (x : Group) (n : Nat) (v : PredVec) : (setMreg x n v).team = x.team := by unfold setMreg; split <;> rfl
@[simp] theorem setMreg_no (x : Group) (n : Nat) (v : PredVec) : (setMreg x n v).no = x.no := by unfold setMreg; split <;> rfl
@[simp] theorem setMreg_phys (x : Group) (n : Nat) (v : PredVec) : (setMreg x n v).phys = x.phys := by unfold setMreg; split <;> rfl
@[simp] theorem setMreg_spc (x : Group) (n : Nat) (v : PredVec) : (setMreg x n v).spc = x.spc := by unfold setMreg; split <;> rfl
@[simp] theorem setMreg_lane (x : Group) (n : Nat) (v : PredVec) : (setMreg x n v).lane = x.lane := by unfold setMreg; split <;> rfl
@[simp] theorem setMreg_cnt (x : Group) (n : Nat) (v : PredVec) : (setMreg x n v).cnt = x.cnt := by unfold setMreg; split <;> rfl
@[simp] theorem setMreg_level (x : Group) (n : Nat) (v : PredVec) : (setMreg x n v).level = x.level := by unfold setMreg; split <;> rfl
@[simp] theorem setMreg_handler (x : Group) (n : Nat) (v : PredVec) : (setMreg x n v).handler = x.handler := by unfold setMreg; split <;> rfl
@[simp] theorem setMreg_pend (x : Group) (n : Nat) (v : PredVec) : (setMreg x n v).pend = x.pend := by unfold setMreg; split <;> rfl
@[simp] theorem setMreg_fly (x : Group) (n : Nat) (v : PredVec) : (setMreg x n v).fly = x.fly := by unfold setMreg; split <;> rfl
@[simp] theorem setMreg_trace (x : Group) (n : Nat) (v : PredVec) : (setMreg x n v).trace = x.trace := by unfold setMreg; split <;> rfl
@[simp] theorem setMreg_age (x : Group) (n : Nat) (v : PredVec) : (setMreg x n v).age = x.age := by unfold setMreg; split <;> rfl
@[simp] theorem setTreg_live (x : Group) (n : Nat) (v : TileDesc) : (setTreg x n v).live = x.live := rfl
@[simp] theorem setTreg_team (x : Group) (n : Nat) (v : TileDesc) : (setTreg x n v).team = x.team := rfl
@[simp] theorem setTreg_no (x : Group) (n : Nat) (v : TileDesc) : (setTreg x n v).no = x.no := rfl
@[simp] theorem setTreg_phys (x : Group) (n : Nat) (v : TileDesc) : (setTreg x n v).phys = x.phys := rfl
@[simp] theorem setTreg_spc (x : Group) (n : Nat) (v : TileDesc) : (setTreg x n v).spc = x.spc := rfl
@[simp] theorem setTreg_lane (x : Group) (n : Nat) (v : TileDesc) : (setTreg x n v).lane = x.lane := rfl
@[simp] theorem setTreg_cnt (x : Group) (n : Nat) (v : TileDesc) : (setTreg x n v).cnt = x.cnt := rfl
@[simp] theorem setTreg_level (x : Group) (n : Nat) (v : TileDesc) : (setTreg x n v).level = x.level := rfl
@[simp] theorem setTreg_handler (x : Group) (n : Nat) (v : TileDesc) : (setTreg x n v).handler = x.handler := rfl
@[simp] theorem setTreg_pend (x : Group) (n : Nat) (v : TileDesc) : (setTreg x n v).pend = x.pend := rfl
@[simp] theorem setTreg_fly (x : Group) (n : Nat) (v : TileDesc) : (setTreg x n v).fly = x.fly := rfl
@[simp] theorem setTreg_trace (x : Group) (n : Nat) (v : TileDesc) : (setTreg x n v).trace = x.trace := rfl
@[simp] theorem setTreg_age (x : Group) (n : Nat) (v : TileDesc) : (setTreg x n v).age = x.age := rfl

end Sys2Proof.Machine
end

