-- ==== Sys2Proof/Laws/Ops.lean ====
section
/-! SUPPORT. What the shared operations of a scalar instruction do: retirement, results, waiting, records. -/

namespace Sys2Proof.Machine

open Sys2Proof

theorem Runs.getS {s : State} {g : Nat} (h : Runs s g) (r : SReg) : getS s r = sreg s g r := by
  simp [Machine.getS, h.1, sreg]
theorem Runs.spc {s : State} {g : Nat} (h : Runs s g) : curSpc s = (group s g).spc := by simp [curSpc, h.1]
theorem Runs.curGroup {s : State} {g : Nat} (h : Runs s g) : curGroup s = g := by simp [Machine.curGroup, h.1]
theorem Runs.onGroup {s : State} {g : Nat} (h : Runs s g) (k : Nat → State) : onGroup s k = .next (k g) := by
  simp [Machine.onGroup, h.1]

/-- A retirement with no trace setting waiting (R174). -/
theorem retireTo_runs {s : State} {g : Nat} (h : Runs s g) (v : Word) : retireTo s v = retired s g (group s g) v := by
  simp [retireTo, h.1, applyTrace, modGroup, h.2, retired]
theorem retire_runs {s : State} {g : Nat} (h : Runs s g) : retire s = plainDone s g := by
  simp [retire, retireTo_runs h, h.spc, plainDone]
/-- A changed group still runs its instruction. -/
theorem Runs.setGroup {s : State} {g : Nat} (h : Runs s g) (x : Group) (hx : x.trace.next = none) : Runs (setGroup s g x) g :=
  ⟨h.1, by simpa using hx⟩
theorem setS_runs {s : State} {g : Nat} (h : Runs s g) (d : SReg) (v : Word) :
    setS s d v = if d = 0 then s else setGroup s g (setSregOf (group s g) d.toNat v) := by
  simp [setS, h.1, modGroup]
/-- A result written and the instruction retired (R174). -/
theorem result_runs {s : State} {g : Nat} (h : Runs s g) (d : SReg) (v : Word) : result s d v = scalarDone s g d v := by
  unfold result
  rw [setS_runs h]
  split
  · next hd => subst hd; rw [retire_runs h]; simp [plainDone, scalarDone]
  · next hd => rw [retire_runs (h.setGroup _ (by simp [h.2]))]; simp [plainDone, scalarDone, retired]
/-- A change of the group, then a result. -/
theorem result_setGroup {s : State} {g : Nat} (h : Runs s g) (x : Group) (hx : x.trace.next = none) (d : SReg) (v : Word) :
    result (setGroup s g x) d v = retired s g (setSregOf x d.toNat v) (x.spc + 4) := by
  rw [result_runs (h.setGroup x hx)]; simp [scalarDone, retired]
/-- A change of the group, then retirement. -/
theorem retire_setGroup {s : State} {g : Nat} (h : Runs s g) (x : Group) (hx : x.trace.next = none) :
    retire (setGroup s g x) = retired s g x (x.spc + 4) := by
  rw [retire_runs (h.setGroup x hx)]; simp [plainDone, retired]
theorem wait_runs {s : State} {g : Nat} (h : Runs s g) (i : Instr) : wait s i = waitsAgain s g i := by
  simp [wait, h.1, modGroup, waitsAgain]
theorem WalkRuns.getS {s : State} {w : Nat} {x : Walk} (h : WalkRuns s w x) (r : SReg) : getS s r = tget 0 x.s r.toNat := by
  simp [Machine.getS, h.1, h.2]
/-- A result of a walk's instruction (R329). -/
theorem result_walk {s : State} {w : Nat} {x : Walk} (h : WalkRuns s w x) (d : SReg) (v : Word) :
    result s d v = walkDone s w x d v := by
  unfold result retire retireTo setSpc curSpc setS walkDone
  by_cases hd : d = 0
  · simp only [if_pos hd, h.1, h.2]
  · simp only [if_neg hd, h.1, h.2, setWalk_cur, walk_setWalk_same, setWalk_setWalk]
/-- A record of the group's own streams becomes pending (R345). -/
theorem raiseStream_faultable {s : State} {g : Nat} (h : Faultable s g) (r : FaultRec) : raiseStream s g r = pendingDone s g r := by
  simp [raiseStream, inHandler, h.1, h.2.1, modGroup, pendingDone]
theorem raiseScalar_faultable {s : State} {g : Nat} (hr : s.cur = .group g) (h : Faultable s g) (r : FaultRec) :
    raiseScalar s r = pendingDone s g r := by
  simp [raiseScalar, hr, h.2.2, raiseStream_faultable h]
theorem illegal_faultable {s : State} {g : Nat} (hr : s.cur = .group g) (h : Faultable s g) (c : Nat) :
    illegal s c = pendingDone s g (illegalScalarRec s g c) := by
  simp [illegal, raiseScalar_faultable hr h, curGroup, hr]

/-- One issue of a lane instruction whose checks pass (R38, R202). -/
theorem laneIssueAt_runs {s : State} {g : Nat} (h : LaneRuns s g) (n : Nat) (u : Use) (ex : Group → List Bool) (eff : Group → Group)
    (ht : issueTrap (descOf s g) u = none) (hp : (eff (group s g)).lane.park = (group s g).lane.park) :
    laneIssueAt s g n u ex eff = laneNext s g (eff (group s g)) n := by
  obtain ⟨-, hpo, hf, hr⟩ := h
  have adv : ∀ (l : LaneCtx), (advanceLane l n).park = l.park := fun l => by unfold advanceLane; split <;> rfl
  simp only [laneIssueAt, ht, stopsRunOn, hf, bne_self_eq_false, Bool.and_false, Bool.false_and, Bool.false_eq_true, if_false, hpo,
    List.isEmpty_nil, if_true, laneAdvance, modGroup, group_setGroup_same, countIssue, adv, hp, replayDone, hr, setGroup_setGroup, laneNext]
/-- The check of R51 and R57 on an instruction that names registers below V and Q and has no trap of its own. -/
theorem issueTrap_below {s : State} {g : Nat} (u : Use) (h : Below s g u.v u.q) (ht : u.trap = none) :
    issueTrap (descOf s g) u = none := by
  have h1 : (u.v.any fun r => decide ((descOf s g).v ≤ r)) = false := by
    rw [List.any_eq_false]; intro r hr; have := h.1 r hr; simp; omega
  have h2 : (u.q.any fun r => decide ((descOf s g).q ≤ r)) = false := by
    rw [List.any_eq_false]; intro r hr; have := h.2 r hr; simp; omega
  simp [issueTrap, h1, h2, ht]
/-- One issue of a running group's lane instruction that names registers below V and Q. -/
theorem laneIssue_runs {s : State} {g : Nat} (h : LaneRuns s g) (n : Nat) (u : Use) (ex : Group → List Bool) (eff : Group → Group)
    (hb : Below s g u.v u.q) (ht : u.trap = none) (hp : (eff (group s g)).lane.park = (group s g).lane.park) :
    laneIssue s n u ex eff = .next (laneNext s g (eff (group s g)) n) := by
  simp only [laneIssue, onGroup, h.1]
  rw [laneIssueAt_runs h n u ex eff (issueTrap_below u hb ht) hp]

/-- A change of the pod registers touches nothing but them and the times at which chips left reach (R375, R383). -/
@[simp] theorem setPod_work (s : State) (p : Pod) : (setPod s p).work = s.work := rfl
@[simp] theorem setPod_mem (s : State) (p : Pod) : (setPod s p).mem = s.mem := rfl
@[simp] theorem setPod_dies (s : State) (p : Pod) : (setPod s p).dies = s.dies := rfl
@[simp] theorem setPod_regs (s : State) (p : Pod) : (setPod s p).regs = s.regs := rfl
@[simp] theorem setPod_queues (s : State) (p : Pod) : (setPod s p).queues = s.queues := rfl
@[simp] theorem setPod_boot (s : State) (p : Pod) : (setPod s p).boot = s.boot := rfl
@[simp] theorem setPod_time (s : State) (p : Pod) : (setPod s p).time = s.time := rfl
@[simp] theorem setPod_out (s : State) (p : Pod) : (setPod s p).out = s.out := rfl
@[simp] theorem setPod_peers (s : State) (p : Pod) : (setPod s p).pod.peers = p.peers := rfl
@[simp] theorem setPod_chip (s : State) (p : Pod) : (setPod s p).pod.chip = p.chip := rfl
@[simp] theorem setPod_en (s : State) (p : Pod) : (setPod s p).pod.en = p.en := rfl
@[simp] theorem setPod_dup (s : State) (p : Pod) : (setPod s p).pod.dup = p.dup := rfl
@[simp] theorem setPod_ports (s : State) (p : Pod) : (setPod s p).pod.ports = p.ports := rfl
/-- A tile instruction put where its group holds it, in the frame or beside it (R347), touches no register, counter or lane. -/
@[simp] theorem putTile_r (x : Group) (t : Option TileOp) : (putTile x t).r = x.r := by unfold putTile; split <;> rfl
@[simp] theorem putTile_spc (x : Group) (t : Option TileOp) : (putTile x t).spc = x.spc := by unfold putTile; split <;> rfl
@[simp] theorem putTile_lane (x : Group) (t : Option TileOp) : (putTile x t).lane = x.lane := by unfold putTile; split <;> rfl
@[simp] theorem putTile_cnt (x : Group) (t : Option TileOp) : (putTile x t).cnt = x.cnt := by unfold putTile; split <;> rfl
@[simp] theorem putTile_level (x : Group) (t : Option TileOp) : (putTile x t).level = x.level := by unfold putTile; split <;> rfl
@[simp] theorem putTile_pend (x : Group) (t : Option TileOp) : (putTile x t).pend = x.pend := by unfold putTile; split <;> rfl
@[simp] theorem putTile_trace (x : Group) (t : Option TileOp) : (putTile x t).trace = x.trace := by unfold putTile; split <;> rfl

end Sys2Proof.Machine
end

