-- ==== Sys2Proof/Laws/Memory.lean ====
section
/-! SUPPORT. What a scalar access does where it is served at once (R175, R182), in the scratchpad and in virtual memory. -/

namespace Sys2Proof.Machine

open Sys2Proof

theorem clearFaults_none {s : State} {a : Agent} (h : ∀ f ∈ s.work.faults, f.1 ≠ a) : clearFaults s a = s := by
  have : s.work.faults.filter (fun e => e.1 != a) = s.work.faults := List.filter_eq_self.mpr fun e he => by simp [h e he]
  simp [clearFaults, this]

/-- An agent that waits for no walk has no late answer to drop (R382). -/
theorem delivered_none {s : State} {who : Who} {va : Word} (h : ∀ w ∈ s.work.waits, w.agent ≠ who.agent) : delivered s who va = s := by
  have : s.work.waits.find? (fun e => e.agent == who.agent && (walk s e.walk).any fun x =>
      x.die / 4 != chipNo s && x.die == ownerOf va && pageOf x.va == pageOf va) = none := by
    rw [List.find?_eq_none]; intro w hm; simp [h w hm]
  simp [delivered, this]
/-- Translation of an access that lies in one page whose entry serves it (R322). -/
theorem xlate_page {s : State} {who : Who} {acc : BitVec 3} {va : Word} {n : Nat} {e : TlbEntry} (hn : 0 < n)
    (hp : bits va 15 0 + n ≤ 0x10000) (hf : ∀ f ∈ s.work.faults, f.1 ≠ who.agent)
    (ht : tlbFind (die s (ownerOf va)) who.part who.asn (pageOf va) = some e) (hr : leafPermits e.leaf acc = true)
    (hw : acc.getLsbD 1 = true → e.leaf.getLsbD 56 = true) (hc : hostWindow va = true ∨ (die s (ownerOf va)).carve = none)
    (hh : Reached s who va n) :
    xlate s who acc va n = (s, .ok [⟨leafFlat e.leaf e.level va, n, e.leaf.getLsbD 57⟩]) := by
  have hfind : s.work.faults.find? (fun e => e.1 == who.agent && e.2.1 == ownerOf va && e.2.2.1 == pageOf va) = none := by
    rw [List.find?_eq_none]; intro f hm; simp [hf f hm]
  have hpend : (!hostWindow va && wayPending (die s (ownerOf va)) (leafPhys e.leaf e.level va)) = false := by
    rcases hc with h | h
    · simp [h]
    · simp [wayPending, h]
  have hone : xlatePage s who acc va n = (s, .ok [⟨leafFlat e.leaf e.level va, n, e.leaf.getLsbD 57⟩]) := by
    have hw' : (acc.getLsbD 1 && !e.leaf.getLsbD 56) = false := by
      cases h : acc.getLsbD 1
      · rfl
      · simp [hw h]
    simp only [xlatePage, walkFault, hfind, Option.map_none, hh.1, ht, hh.2.1, hr, Bool.not_true, Bool.or_false, Bool.false_eq_true,
      if_false, hw', hpend, delivered_none hh.2.2]
  have hm : min n (0x10000 - bits va 15 0) = n := by omega
  have : n ≠ 0 := by omega
  unfold xlate
  simp only [xlateFrom, hm, this, if_false, hone, Nat.sub_self]
  cases n / 65536 <;> simp

/-- A group's access counted up and down again leaves the counters (R63). -/
theorem countAccess_undo (x : Group) (k : AccKind) (f : InFlight) :
    countAccess { countAccess x k true with fly := f } k false = { x with fly := f } := by
  unfold countAccess
  cases h1 : k.rw.1 <;> cases h2 : k.rw.2 <;> simp

/-- Where an access has its reply, it finishes at once: the value is written and the instruction retires (R175, R182). -/
theorem finishScalar_value {s : State} {g : Nat} (h : Runs s g) (hf : (group s g).fly.scalar = none) (k : AccKind) (addr : Word) (n : Nat)
    (raw : Word) (m : Option (List Host.Cell)) :
    finishScalar (setGroup s g { countAccess (group s g) k true with
        fly := { (group s g).fly with scalar := some ⟨k, addr, n, some (.value raw), m⟩ } }) g = retire (writeReply s k raw) := by
  have hx : ({ countAccess { countAccess (group s g) k true with
        fly := { (group s g).fly with scalar := some ⟨k, addr, n, some (.value raw), m⟩ } } k false with
        fly := { (group s g).fly with scalar := none } } : Group) = group s g := by
    rw [countAccess_undo]; cases hg : group s g; simp [hg] at hf; cases hfl : (group s g).fly; simp_all
  have hret : ∀ x : Group, x.trace.next = none → (setGroup (setGroup s g x) g (group s g)) = setGroup s g (group s g) := by
    intro x _; simp
  have hself : ∀ t : State, Runs t g → retire (setGroup t g (group t g)) = retire t := by
    intro t ht
    rw [retire_runs ht, retire_runs (ht.setGroup _ ht.2)]; simp [plainDone, retired]
  have hres : ∀ (d : SReg) (v : Word), result (setGroup s g (group s g)) d v = result s d v := by
    intro d v
    rw [result_runs h, result_runs (h.setGroup _ h.2)]; simp [scalarDone, retired]
  simp only [finishScalar, group_setGroup_same, modGroup]
  have hfly : ∀ x : Group, ({ countAccess x k false with fly := { x.fly with scalar := none } } : Group) =
      { countAccess x k false with fly := { x.fly with scalar := none } } := fun _ => rfl
  simp only [setGroup_setGroup]
  rw [show ({ countAccess ({ countAccess (group s g) k true with
      fly := { (group s g).fly with scalar := some ⟨k, addr, n, some (.value raw), m⟩ } } : Group) k false with
      fly := { ({ countAccess (group s g) k true with
        fly := { (group s g).fly with scalar := some ⟨k, addr, n, some (.value raw), m⟩ } } : Group).fly with scalar := none } } : Group) =
      group s g from hx]
  unfold writeReply
  split
  · exact hres _ _
  · exact hres _ _
  · exact hself s h
  · exact hres _ _

/-- A change of a group that keeps its team keeps its launch. -/
theorem launchOf_setGroup {s : State} {g : Nat} {x : Group} (hx : x.team = (group s g).team) (h : Nat) :
    launchOf (setGroup s g x) h = launchOf s h := by
  by_cases hh : h = g
  · subst hh; simp [launchOf, hx]
  · simp [launchOf, group_setGroup, hh]
theorem coreOf_setGroup {s : State} {g : Nat} {x : Group} (hx : x.team = (group s g).team) (h : Nat) :
    coreOf (setGroup s g x) h = coreOf s h := by
  by_cases hh : h = g
  · subst hh; simp [coreOf, hx]
  · simp [coreOf, group_setGroup, hh]
theorem whoOf_setGroup {s : State} {g : Nat} {x : Group} (hx : x.team = (group s g).team) (a : Agent) :
    whoOf (setGroup s g x) g a = whoOf s g a := by
  simp [whoOf, launchOf_setGroup hx, coreOf_setGroup hx]
theorem descOf_setGroup {s : State} {g : Nat} {x : Group} (hx : x.team = (group s g).team) (h : Nat) :
    descOf (setGroup s g x) h = descOf s h := by simp [descOf, launchOf_setGroup hx]
@[simp] theorem objAt_setGroup (s : State) (g : Nat) (x : Group) (p : Nat) (va : Word) :
    objAt (setGroup s g x) p va = objAt s p va := rfl
@[simp] theorem objsMet_setGroup (s : State) (g : Nat) (x : Group) (p : Nat) (va : Word) (n : Nat) :
    objsMet (setGroup s g x) p va n = objsMet s p va n := rfl
@[simp] theorem countAccess_team (x : Group) (k : AccKind) (u : Bool) : (countAccess x k u).team = x.team := rfl
@[simp] theorem countAccess_trace (x : Group) (k : AccKind) (u : Bool) : (countAccess x k u).trace = x.trace := rfl

/-- An access that is sent keeps what decides its translation: only its group changes. -/
theorem xlate_ready {s : State} {g : Nat} {acc : BitVec 3} {a : Word} {n : Nat} {e : TlbEntry} (h : MemReady s g acc a n e)
    (x : Group) : xlate (setGroup s g x) (whoOf s g (.scalar g)) acc a n =
      (setGroup s g x, .ok [⟨leafFlat e.leaf e.level a, n, false⟩]) := by
  obtain ⟨hn, hp, -, ht, hr, hw, hc, h57, -, -, hf, hh, -⟩ := h
  rw [← h57]
  exact xlate_page hn hp hf ht hr hw hc hh

/-- Where nothing is poisoned, no run is. -/
theorem poisonIn_none {s : State} (hb : s.bad = []) (f n : Nat) : poisonIn s [⟨f, n, false⟩] = none := by simp [poisonIn, hb]

/-- Runs of memory where no coherence object lies are read as they stand (R140). -/
theorem homeRead_plain {s : State} {g : Nat} {va : Word} {f n : Nat} {p : Bool} (ho : objsMet s (partOf s g) va n = []) (x : Group) :
    homeRead (setGroup s g x) (whoOf s g (.scalar g)) va [⟨f, n, p⟩] = (setGroup s g x, mread s.mem f n) := by
  have h : objsMet (setGroup s g x) (whoOf s g (.scalar g)).part va n = [] := ho
  simp [homeRead, settle, settleWith, settleRunWith, h, noteSharer, readSegs, segsLen]
/-- And written as they stand (R139). -/
theorem homeWrite_plain {s : State} {g : Nat} {va : Word} {f n : Nat} {p : Bool} {bs : List Byte} (hl : bs.length = n)
    (ho : objsMet s (partOf s g) va n = []) (x : Group) :
    homeWrite (setGroup s g x) (whoOf s g (.scalar g)) va [⟨f, n, p⟩] bs = setGroup { s with mem := mwrite s.mem f bs } g x := by
  have h : objsMet (setGroup s g x) (whoOf s g (.scalar g)).part va n = [] := ho
  have h' : objsMet { setGroup s g x with mem := mwrite s.mem f bs } (whoOf s g (.scalar g)).part va n = [] := ho
  have hs : segsLen [⟨f, n, p⟩] = n := by simp [segsLen]
  have ht : bs.take n = bs := by rw [← hl, List.take_length]
  simp only [homeWrite, storeWith, settleWith, settleRunWith, h, List.foldl_nil, writeSegs, ht, setGroup_mem, updateWith, hs, h']
  rfl
/-- And operated on as they stand (R184). -/
theorem homeAtomic_plain {s : State} {g : Nat} {va : Word} {f n : Nat} {p : Bool} (op u v : Nat)
    (ho : objsMet s (partOf s g) va n = []) (x : Group) :
    homeAtomic (setGroup s g x) (whoOf s g (.scalar g)) va [⟨f, n, p⟩] op n u v =
      (match atomicNew op (8 * n) (ofLe (mread s.mem f n)) u v with
        | some r => setGroup { s with mem := mwrite s.mem f (leBytes n r) } g x
        | none => setGroup s g x, ofLe (mread s.mem f n)) := by
  have h : objsMet (setGroup s g x) (whoOf s g (.scalar g)).part va n = [] := ho
  simp only [homeAtomic, settle, settleWith, settleRunWith, h, List.foldl_nil, readSegs, List.flatMap_cons, List.flatMap_nil, List.append_nil, setGroup_mem]
  cases atomicNew op (8 * n) (ofLe (mread s.mem f n)) u v with
  | some r =>
    have h' : objsMet { setGroup s g x with mem := mwrite s.mem f (leBytes n r) } (whoOf s g (.scalar g)).part va n = [] := ho
    have hl : (leBytes n r).take n = leBytes n r := by rw [List.take_of_length_le (by simp)]
    simp only [writeSegs, hl, setGroup_mem, noteUpdate, updateWith, h', List.foldl_nil]; rfl
  | none => rfl

/-- The conditions that a ready access of memory meets before it is sent. -/
theorem MemReady.full {s : State} {g : Nat} {acc : BitVec 3} {a : Word} {n : Nat} {e : TlbEntry} (h : MemReady s g acc a n e)
    (k : AccKind) : countersFull (group s g) k = false := by
  obtain ⟨-, -, -, -, -, -, -, -, -, -, -, -, hl, hs, -⟩ := h
  simp only [countersFull, Bool.or_eq_false_iff, Bool.and_eq_false_iff, decide_eq_false_iff_not]
  exact ⟨Or.inr (by omega), Or.inr (by omega)⟩

/-- A load from virtual memory that is served at once (R182). -/
theorem scalarAccess_mem_load {s : State} {g : Nat} {a : Word} {n : Nat} {e : TlbEntry} (h : Runs s g) (hm : MemReady s g 1 a n e)
    (i : Instr) (d : SReg) (k : BitVec 3) :
    scalarAccess s g i false (.load d k) a n =
      scalarDone s g d (loadValue k (BitVec.ofNat 64 (ofLe (mread s.mem (leafFlat e.leaf e.level a) n)))) := by
  have hm' := hm
  obtain ⟨-, -, ha, -, -, -, -, -, hb, ho, hf, -, -, -, hs⟩ := hm
  have ha' : addressFault (launch s (launchOf s g)).d.mask a n = none := ha
  have hr : (AccKind.load d k).rights = 1 := by simp [AccKind.rights, AccKind.rw]
  simp only [scalarAccess, hm'.full, Bool.false_eq_true, if_false, ha', Bool.false_and, modGroup, serveScalar, group_setGroup_same,
    Option.isSome_none, hr, whoOf_setGroup, countAccess_team, xlate_ready hm']
  rw [poisonIn_none (by simpa using hb)]
  dsimp only
  simp only [homeRead_plain ho, serveScalar.reply, modGroup]
  rw [clearFaults_none (by simpa using hf)]
  simp only [group_setGroup_same, setGroup_setGroup]
  exact (finishScalar_value h hs (.load d k) a n _ _).trans (result_runs h d _)

/-- A store to virtual memory that is served at once (R182): memory takes the bytes and the instruction retires. -/
theorem scalarAccess_mem_store {s : State} {g : Nat} {a : Word} {n : Nat} {e : TlbEntry} (h : Runs s g) (hm : MemReady s g 2 a n e)
    (i : Instr) (v : Word) :
    scalarAccess s g i false (.store v) a n =
      plainDone { s with mem := mwrite s.mem (leafFlat e.leaf e.level a) (leBytes n v.toNat) } g := by
  have hm' := hm
  obtain ⟨-, -, ha, -, -, -, -, -, hb, ho, hf, -, -, -, hs⟩ := hm
  have ha' : addressFault (launch s (launchOf s g)).d.mask a n = none := ha
  have hr : (AccKind.store v).rights = 2 := by simp [AccKind.rights, AccKind.rw]
  simp only [scalarAccess, hm'.full, Bool.false_eq_true, if_false, ha', Bool.false_and, modGroup, serveScalar, group_setGroup_same,
    Option.isSome_none, hr, whoOf_setGroup, countAccess_team, xlate_ready hm']
  simp only [homeWrite_plain (leBytes_length _ _) ho, serveScalar.reply, modGroup]
  rw [clearFaults_none (by simpa using hf)]
  simp only [group_setGroup_same, setGroup_setGroup]
  have h2 : Runs { s with mem := mwrite s.mem (leafFlat e.leaf e.level a) (leBytes n v.toNat) } g := h
  exact (finishScalar_value h2 hs (.store v) a n 0 _).trans (retire_runs h2)

/-- An aligned atomic on virtual memory that is served at once (R184). -/
theorem scalarAccess_mem_atomic {s : State} {g : Nat} {a : Word} {n : Nat} {e : TlbEntry} (h : Runs s g) (hm : MemReady s g 3 a n e)
    (i : Instr) (op : Nat) (wide : Bool) (d : SReg) (x y : Word) (hal : a.toNat % n = 0) :
    scalarAccess s g i false (.atomic op wide d x y) a n =
      retire (writeReply (match atomicNew op (8 * n) (ofLe (mread s.mem (leafFlat e.leaf e.level a) n)) (x.toNat % 2 ^ (8 * n)) (y.toNat % 2 ^ (8 * n)) with
        | some r => { s with mem := mwrite s.mem (leafFlat e.leaf e.level a) (leBytes n r) }
        | none => s) (.atomic op wide d x y) (BitVec.ofNat 64 (ofLe (mread s.mem (leafFlat e.leaf e.level a) n)))) := by
  have hm' := hm
  obtain ⟨-, -, ha, -, -, -, -, -, hb, ho, hf, -, -, -, hs⟩ := hm
  have ha' : addressFault (launch s (launchOf s g)).d.mask a n = none := ha
  have hr : (AccKind.atomic op wide d x y).rights = 3 := by simp [AccKind.rights, AccKind.rw]
  simp only [scalarAccess, hm'.full, Bool.false_eq_true, if_false, ha', hal, ne_eq, not_true_eq_false, decide_false, Bool.and_false,
    modGroup, serveScalar, group_setGroup_same, Option.isSome_none, hr, whoOf_setGroup, countAccess_team, xlate_ready hm']
  rw [poisonIn_none (by simpa using hb)]
  simp only [homeAtomic_plain _ _ _ ho, serveScalar.reply, modGroup]
  split
  · next r _ =>
    rw [clearFaults_none (by simpa using hf)]
    simp only [group_setGroup_same, setGroup_setGroup]
    have h2 : Runs { s with mem := mwrite s.mem (leafFlat e.leaf e.level a) (leBytes n r) } g := h
    exact finishScalar_value h2 hs (.atomic op wide d x y) a n _ _
  · rw [clearFaults_none (by simpa using hf)]
    simp only [group_setGroup_same, setGroup_setGroup]
    exact finishScalar_value h hs (.atomic op wide d x y) a n _ _

/-- The conditions that a ready scratchpad access meets (R63, R232). -/
theorem ScratchReady.full {s : State} {g : Nat} {a : Word} {n : Nat} (h : ScratchReady s g a n) (k : AccKind) :
    countersFull (group s g) k = false := by
  obtain ⟨-, -, -, -, hl, hs, -⟩ := h
  simp only [countersFull, Bool.or_eq_false_iff, Bool.and_eq_false_iff, decide_eq_false_iff_not]
  exact ⟨Or.inr (by omega), Or.inr (by omega)⟩
theorem ScratchReady.checks {s : State} {g : Nat} {a : Word} {n : Nat} (h : ScratchReady s g a n) (i : Instr)
    (k : AccKind) : scalarAccess s g i true k a n =
      let (s', r) := scratchAccess s g k a.toNat n
      finishScalar (modGroup s' g fun x => { countAccess x k true with fly := { x.fly with scalar := some ⟨k, a, n, some r, none⟩ } }) g := by
  have hfull := h.full k
  obtain ⟨h1, h2, h3, -⟩ := h
  have hb : bits a 63 21 = 0 := by
    simp only [bits]
    rw [Nat.div_eq_of_lt h1, Nat.zero_mod]
  have h3' : ¬ (descOf s g).s < a.toNat + n := by omega
  simp only [scalarAccess, hfull, Bool.false_eq_true, if_false, if_true, hb, ne_eq, not_true_eq_false, h2, decide_false, h3']
theorem scratchPoison_none {t : Team} (h : t.poison = []) (off n : Nat) : scratchPoison t off n = none := by
  simp [scratchPoison, h]
/-- A scalar load from the scratchpad (R100, R182). -/
theorem scalarAccess_scratch_load {s : State} {g : Nat} {a : Word} {n : Nat} (h : Runs s g) (hm : ScratchReady s g a n)
    (i : Instr) (d : SReg) (k : BitVec 3) :
    scalarAccess s g i true (.load d k) a n =
      scalarDone s g d (loadValue k (BitVec.ofNat 64 (ofLe (scratchRead (ownTeam s g) a.toNat n)))) := by
  rw [hm.checks]
  obtain ⟨-, -, -, hp, -, -, hs⟩ := hm
  simp only [scratchAccess, scratchPoison_none hp, modGroup]
  exact (finishScalar_value h hs (.load d k) a n _ _).trans (result_runs h d _)
/-- A write of untagged bytes of a scratchpad (R100). -/
theorem scratchWrite_untagged {t : Team} {off n : Nat} {bs : List Byte} (hl : bs.length = n) (h : Untagged t off n) (hp : t.poison = []) :
    scratchWrite t off bs = (scratchPut t off bs, none) := by
  have : (List.range bs.length).filter (fun i => tagAt t (off + i) != 0) = [] := by
    rw [List.filter_eq_nil_iff]; intro i hi
    have := h i (by have := List.mem_range.mp hi; omega)
    simp [this]
  simp [scratchWrite, this, scratchClean, scratchPut, hp]
/-- A scalar store to the scratchpad (R100, R182). -/
theorem scalarAccess_scratch_store {s : State} {g : Nat} {a : Word} {n : Nat} (h : Runs s g) (hm : ScratchReady s g a n)
    (hu : Untagged (ownTeam s g) a.toNat n) (i : Instr) (v : Word) :
    scalarAccess s g i true (.store v) a n =
      plainDone (setTeam s (group s g).team (scratchPut (ownTeam s g) a.toNat (leBytes n v.toNat))) g := by
  rw [hm.checks]
  obtain ⟨-, -, -, hp, -, -, hs⟩ := hm
  simp only [scratchAccess]
  rw [show team s (group s g).team = ownTeam s g from rfl, scratchWrite_untagged (leBytes_length _ _) hu hp]
  simp only [modGroup]
  have h2 : Runs (setTeam s (group s g).team (scratchPut (ownTeam s g) a.toNat (leBytes n v.toNat))) g := h
  exact (finishScalar_value h2 hs (.store v) a n 0 _).trans (retire_runs h2)
/-- A scalar atomic on the scratchpad (R184). -/
theorem scalarAccess_scratch_atomic {s : State} {g : Nat} {a : Word} {n : Nat} (h : Runs s g) (hm : ScratchReady s g a n)
    (hu : Untagged (ownTeam s g) a.toNat n) (i : Instr) (op : Nat) (wide : Bool) (d : SReg) (x y : Word) :
    scalarAccess s g i true (.atomic op wide d x y) a n =
      retire (writeReply (match atomicNew op (8 * n) (ofLe (scratchRead (ownTeam s g) a.toNat n)) (x.toNat % 2 ^ (8 * n)) (y.toNat % 2 ^ (8 * n)) with
        | some r => setTeam s (group s g).team (scratchPut (ownTeam s g) a.toNat (leBytes n r))
        | none => s) (.atomic op wide d x y) (BitVec.ofNat 64 (ofLe (scratchRead (ownTeam s g) a.toNat n)))) := by
  rw [hm.checks]
  obtain ⟨-, -, -, hp, -, -, hs⟩ := hm
  have ht : (List.range n).find? (fun i => tagAt (team s (group s g).team) (a.toNat + i) != 0) = none := by
    rw [List.find?_eq_none]; intro j hj
    have h0 : tagAt (team s (group s g).team) (a.toNat + j) = 0 := hu j (List.mem_range.mp hj)
    simp [h0]
  simp only [scratchAccess, scratchPoison_none hp, ht, modGroup]
  unfold ownTeam
  cases atomicNew op (8 * n) (ofLe (scratchRead (team s (group s g).team) a.toNat n)) (x.toNat % 2 ^ (8 * n)) (y.toNat % 2 ^ (8 * n)) with
  | some r =>
    have h2 : Runs (setTeam s (group s g).team (scratchPut (team s (group s g).team) a.toNat (leBytes n r))) g := h
    exact finishScalar_value h2 hs (.atomic op wide d x y) a n _ _
  | none => exact finishScalar_value h hs (.atomic op wide d x y) a n _ _

end Sys2Proof.Machine
end

