-- ==== Sys2Proof/Laws/PerInstr.lean ====
section
/-! SUPPORT. One fact per instruction about its encoding: it is one word of the scalar stream, three words of the lane stream, or no word for an event, and never two of these. -/

namespace Sys2Proof.Laws.Words


open Sys2Proof

/-- An instruction has as many words as its stream gives it (R147, R152), and belongs to one stream only. -/
def Statement (i : Instr) : Prop :=
  (encode i).length = (if (encodeScalar i).isSome then 1 else 0) + (if (encodeLane i).isSome then 3 else 0) ∧
  ((encodeScalar i).isSome && (encodeLane i).isSome) = false

theorem sadd (d a b : SReg) : Statement (.sadd d a b) := ⟨rfl, rfl⟩
theorem ssub (d a b : SReg) : Statement (.ssub d a b) := ⟨rfl, rfl⟩
theorem sseq (d a b : SReg) : Statement (.sseq d a b) := ⟨rfl, rfl⟩
theorem ssne (d a b : SReg) : Statement (.ssne d a b) := ⟨rfl, rfl⟩
theorem sslt (d a b : SReg) : Statement (.sslt d a b) := ⟨rfl, rfl⟩
theorem ssltu (d a b : SReg) : Statement (.ssltu d a b) := ⟨rfl, rfl⟩
theorem smin (d a b : SReg) : Statement (.smin d a b) := ⟨rfl, rfl⟩
theorem sminu (d a b : SReg) : Statement (.sminu d a b) := ⟨rfl, rfl⟩
theorem smax (d a b : SReg) : Statement (.smax d a b) := ⟨rfl, rfl⟩
theorem smaxu (d a b : SReg) : Statement (.smaxu d a b) := ⟨rfl, rfl⟩
theorem sand (d a b : SReg) : Statement (.sand d a b) := ⟨rfl, rfl⟩
theorem sor (d a b : SReg) : Statement (.sor d a b) := ⟨rfl, rfl⟩
theorem sxor (d a b : SReg) : Statement (.sxor d a b) := ⟨rfl, rfl⟩
theorem sandn (d a b : SReg) : Statement (.sandn d a b) := ⟨rfl, rfl⟩
theorem sshl (d a b : SReg) : Statement (.sshl d a b) := ⟨rfl, rfl⟩
theorem sshr (d a b : SReg) : Statement (.sshr d a b) := ⟨rfl, rfl⟩
theorem ssra (d a b : SReg) : Statement (.ssra d a b) := ⟨rfl, rfl⟩
theorem srol (d a b : SReg) : Statement (.srol d a b) := ⟨rfl, rfl⟩
theorem sror (d a b : SReg) : Statement (.sror d a b) := ⟨rfl, rfl⟩
theorem smul (d a b : SReg) : Statement (.smul d a b) := ⟨rfl, rfl⟩
theorem smulh (d a b : SReg) : Statement (.smulh d a b) := ⟨rfl, rfl⟩
theorem smulhu (d a b : SReg) : Statement (.smulhu d a b) := ⟨rfl, rfl⟩
theorem sdiv (d a b : SReg) : Statement (.sdiv d a b) := ⟨rfl, rfl⟩
theorem sdivu (d a b : SReg) : Statement (.sdivu d a b) := ⟨rfl, rfl⟩
theorem srem (d a b : SReg) : Statement (.srem d a b) := ⟨rfl, rfl⟩
theorem sremu (d a b : SReg) : Statement (.sremu d a b) := ⟨rfl, rfl⟩
theorem sclz (d a : SReg) : Statement (.sclz d a) := ⟨rfl, rfl⟩
theorem sctz (d a : SReg) : Statement (.sctz d a) := ⟨rfl, rfl⟩
theorem spopc (d a : SReg) : Statement (.spopc d a) := ⟨rfl, rfl⟩
theorem sbswap (d a : SReg) : Statement (.sbswap d a) := ⟨rfl, rfl⟩
theorem ssx8 (d a : SReg) : Statement (.ssx8 d a) := ⟨rfl, rfl⟩
theorem ssx16 (d a : SReg) : Statement (.ssx16 d a) := ⟨rfl, rfl⟩
theorem ssx32 (d a : SReg) : Statement (.ssx32 d a) := ⟨rfl, rfl⟩
theorem szx32 (d a : SReg) : Statement (.szx32 d a) := ⟨rfl, rfl⟩
theorem saddi (d a : SReg) (i : BitVec 14) : Statement (.saddi d a i) := ⟨rfl, rfl⟩
theorem sandi (d a : SReg) (i : BitVec 14) : Statement (.sandi d a i) := ⟨rfl, rfl⟩
theorem sori (d a : SReg) (i : BitVec 14) : Statement (.sori d a i) := ⟨rfl, rfl⟩
theorem sxori (d a : SReg) (i : BitVec 14) : Statement (.sxori d a i) := ⟨rfl, rfl⟩
theorem sslti (d a : SReg) (i : BitVec 14) : Statement (.sslti d a i) := ⟨rfl, rfl⟩
theorem sshli (d a : SReg) (n : BitVec 6) : Statement (.sshli d a n) := ⟨rfl, rfl⟩
theorem sshri (d a : SReg) (n : BitVec 6) : Statement (.sshri d a n) := ⟨rfl, rfl⟩
theorem ssrai (d a : SReg) (n : BitVec 6) : Statement (.ssrai d a n) := ⟨rfl, rfl⟩
theorem srori (d a : SReg) (n : BitVec 6) : Statement (.srori d a n) := ⟨rfl, rfl⟩
theorem slui (d : SReg) (i : BitVec 20) : Statement (.slui d i) := ⟨rfl, rfl⟩
theorem sshlo (d : SReg) (i : BitVec 20) : Statement (.sshlo d i) := ⟨rfl, rfl⟩
theorem sld (d a : SReg) (k : BitVec 3) (sp : Bool) (o : BitVec 10) : Statement (.sld d a k sp o) := ⟨rfl, rfl⟩
theorem sst (d a : SReg) (k : BitVec 2) (sp : Bool) (o : BitVec 10) : Statement (.sst d a k sp o) := ⟨rfl, rfl⟩
theorem sldX (d a b : SReg) (k : BitVec 3) (sp : Bool) : Statement (.sldX d a b k sp) := ⟨rfl, rfl⟩
theorem sstX (d a b : SReg) (k : BitVec 2) (sp : Bool) : Statement (.sstX d a b k sp) := ⟨rfl, rfl⟩
theorem sldAcq (d a : SReg) (k : BitVec 3) (sp : Bool) (c : Scope) : Statement (.sldAcq d a k sp c) := ⟨rfl, rfl⟩
theorem sstRel (d a : SReg) (k : BitVec 2) (sp : Bool) (c : Scope) : Statement (.sstRel d a k sp c) := ⟨rfl, rfl⟩
theorem sldRo (d a b : SReg) (k : BitVec 3) : Statement (.sldRo d a b k) := ⟨rfl, rfl⟩
theorem samoSwap (x : SAmo) : Statement (.samoSwap x) := ⟨rfl, rfl⟩
theorem samoAdd (x : SAmo) : Statement (.samoAdd x) := ⟨rfl, rfl⟩
theorem samoAnd (x : SAmo) : Statement (.samoAnd x) := ⟨rfl, rfl⟩
theorem samoOr (x : SAmo) : Statement (.samoOr x) := ⟨rfl, rfl⟩
theorem samoXor (x : SAmo) : Statement (.samoXor x) := ⟨rfl, rfl⟩
theorem samoMinI (x : SAmo) : Statement (.samoMinI x) := ⟨rfl, rfl⟩
theorem samoMaxI (x : SAmo) : Statement (.samoMaxI x) := ⟨rfl, rfl⟩
theorem samoMinN (x : SAmo) : Statement (.samoMinN x) := ⟨rfl, rfl⟩
theorem samoMaxN (x : SAmo) : Statement (.samoMaxN x) := ⟨rfl, rfl⟩
theorem samoCas (x : SAmo) : Statement (.samoCas x) := ⟨rfl, rfl⟩
theorem sfence (c : Scope) : Statement (.sfence c) := ⟨rfl, rfl⟩
theorem sfenceAcq (c : Scope) : Statement (.sfenceAcq c) := ⟨rfl, rfl⟩
theorem sfenceRel (c : Scope) : Statement (.sfenceRel c) := ⟨rfl, rfl⟩
theorem sbr (a : SReg) (c : BitVec 4) (o : BitVec 16) : Statement (.sbr a c o) := ⟨rfl, rfl⟩
theorem sjmp (o : BitVec 26) : Statement (.sjmp o) := ⟨rfl, rfl⟩
theorem scall (o : BitVec 26) : Statement (.scall o) := ⟨rfl, rfl⟩
theorem sjr (a : SReg) : Statement (.sjr a) := ⟨rfl, rfl⟩
theorem scallr (a : SReg) : Statement (.scallr a) := ⟨rfl, rfl⟩
theorem sret : Statement (.sret) := ⟨rfl, rfl⟩
theorem sexit : Statement (.sexit) := ⟨rfl, rfl⟩
theorem lrun (n : BitVec 10) : Statement (.lrun n) := ⟨rfl, rfl⟩
theorem ljmp (o : BitVec 25) : Statement (.ljmp o) := ⟨rfl, rfl⟩
theorem lrunr (a : SReg) : Statement (.lrunr a) := ⟨rfl, rfl⟩
theorem ljmpr (a : SReg) : Statement (.ljmpr a) := ⟨rfl, rfl⟩
theorem lsync : Statement (.lsync) := ⟨rfl, rfl⟩
theorem lmask (d : SReg) (w : BitVec 2) : Statement (.lmask d w) := ⟨rfl, rfl⟩
theorem lsumm (d : SReg) : Statement (.lsumm d) := ⟨rfl, rfl⟩
theorem sget (d : SReg) (n : BitVec 12) : Statement (.sget d n) := ⟨rfl, rfl⟩
theorem kwait (d a : SReg) (k : KReg) : Statement (.kwait d a k) := ⟨rfl, rfl⟩
theorem waitLd (d a : SReg) : Statement (.waitLd d a) := ⟨rfl, rfl⟩
theorem waitSt (d a : SReg) : Statement (.waitSt d a) := ⟨rfl, rfl⟩
theorem waitCp (d a : SReg) : Statement (.waitCp d a) := ⟨rfl, rfl⟩
theorem waitTl (d a : SReg) : Statement (.waitTl d a) := ⟨rfl, rfl⟩
theorem barInit (a b : SReg) : Statement (.barInit a b) := ⟨rfl, rfl⟩
theorem barFree (a : SReg) : Statement (.barFree a) := ⟨rfl, rfl⟩
theorem barArrive (d a b : SReg) : Statement (.barArrive d a b) := ⟨rfl, rfl⟩
theorem barWait (a : SReg) : Statement (.barWait a) := ⟨rfl, rfl⟩
theorem sbarArrive (d : SReg) (c : Scope) : Statement (.sbarArrive d c) := ⟨rfl, rfl⟩
theorem sbarWait (a : SReg) (c : Scope) : Statement (.sbarWait a c) := ⟨rfl, rfl⟩
theorem yieldc (a b : SReg) (o : BitVec 14) : Statement (.yieldc a b o) := ⟨rfl, rfl⟩
theorem bdecl (a b : SReg) : Statement (.bdecl a b) := ⟨rfl, rfl⟩
theorem bput (d a b : SReg) : Statement (.bput d a b) := ⟨rfl, rfl⟩
theorem bputw (d a b : SReg) : Statement (.bputw d a b) := ⟨rfl, rfl⟩
theorem btake (d a : SReg) : Statement (.btake d a) := ⟨rfl, rfl⟩
theorem bdrop (a : SReg) : Statement (.bdrop a) := ⟨rfl, rfl⟩
theorem xcopy (a : SReg) : Statement (.xcopy a) := ⟨rfl, rfl⟩
theorem tset (t : TReg) (a b : SReg) : Statement (.tset t a b) := ⟨rfl, rfl⟩
theorem tsetb (t : TReg) (a : SReg) : Statement (.tsetb t a) := ⟨rfl, rfl⟩
theorem tsets (t : TReg) (a : SReg) : Statement (.tsets t a) := ⟨rfl, rfl⟩
theorem tgetl (d : SReg) (t : TReg) : Statement (.tgetl d t) := ⟨rfl, rfl⟩
theorem tgeth (d : SReg) (t : TReg) : Statement (.tgeth d t) := ⟨rfl, rfl⟩
theorem shalloc (d a : SReg) : Statement (.shalloc d a) := ⟨rfl, rfl⟩
theorem shfree (a : SReg) : Statement (.shfree a) := ⟨rfl, rfl⟩
theorem shtest (d a : SReg) : Statement (.shtest d a) := ⟨rfl, rfl⟩
theorem cobjDecl (d a b : SReg) : Statement (.cobjDecl d a b) := ⟨rfl, rfl⟩
theorem cobjMode (k : KReg) (a b : SReg) : Statement (.cobjMode k a b) := ⟨rfl, rfl⟩
theorem cobjFree (a : SReg) : Statement (.cobjFree a) := ⟨rfl, rfl⟩
theorem cobjQuery (d a : SReg) : Statement (.cobjQuery d a) := ⟨rfl, rfl⟩
theorem creduce (d a b : SReg) : Statement (.creduce d a b) := ⟨rfl, rfl⟩
theorem callred (d a b : SReg) : Statement (.callred d a b) := ⟨rfl, rfl⟩
theorem credscat (d a b : SReg) : Statement (.credscat d a b) := ⟨rfl, rfl⟩
theorem callgath (d a b : SReg) : Statement (.callgath d a b) := ⟨rfl, rfl⟩
theorem calltoall (d a b : SReg) : Statement (.calltoall d a b) := ⟨rfl, rfl⟩
theorem cbcast (d a b : SReg) : Statement (.cbcast d a b) := ⟨rfl, rfl⟩
theorem cabort (d a : SReg) : Statement (.cabort d a) := ⟨rfl, rfl⟩
theorem tmark (a b : SReg) : Statement (.tmark a b) := ⟨rfl, rfl⟩
theorem tsync : Statement (.tsync) := ⟨rfl, rfl⟩
theorem tsamp (a : SReg) : Statement (.tsamp a) := ⟨rfl, rfl⟩
theorem spget (d a : SReg) : Statement (.spget d a) := ⟨rfl, rfl⟩
theorem spset (a b : SReg) : Statement (.spset a b) := ⟨rfl, rfl⟩
theorem sslotw (a b : SReg) : Statement (.sslotw a b) := ⟨rfl, rfl⟩
theorem sslotr (d a : SReg) : Statement (.sslotr d a) := ⟨rfl, rfl⟩
theorem sslotx (a : SReg) : Statement (.sslotx a) := ⟨rfl, rfl⟩
theorem spreq (d a b : SReg) : Statement (.spreq d a b) := ⟨rfl, rfl⟩
theorem sgpl (d : SReg) : Statement (.sgpl d) := ⟨rfl, rfl⟩
theorem tlbroot (a b : SReg) : Statement (.tlbroot a b) := ⟨rfl, rfl⟩
theorem tlbinv (a b : SReg) : Statement (.tlbinv a b) := ⟨rfl, rfl⟩
theorem carve (d a : SReg) (k : KReg) : Statement (.carve d a k) := ⟨rfl, rfl⟩
theorem pmap (d a b : SReg) : Statement (.pmap d a b) := ⟨rfl, rfl⟩
theorem pgive (d a b : SReg) : Statement (.pgive d a b) := ⟨rfl, rfl⟩
theorem wldp (d a : SReg) : Statement (.wldp d a) := ⟨rfl, rfl⟩
theorem wcasp (d a b : SReg) : Statement (.wcasp d a b) := ⟨rfl, rfl⟩
theorem tlbfill (a b : SReg) : Statement (.tlbfill a b) := ⟨rfl, rfl⟩
theorem wentry (a b : SReg) : Statement (.wentry a b) := ⟨rfl, rfl⟩
theorem eret : Statement (.eret) := ⟨rfl, rfl⟩
theorem ekill (a : SReg) : Statement (.ekill a) := ⟨rfl, rfl⟩
theorem efget (d a : SReg) : Statement (.efget d a) := ⟨rfl, rfl⟩
theorem efset (a b : SReg) : Statement (.efset a b) := ⟨rfl, rfl⟩
theorem vadd (x : IntBin) : Statement (.vadd x) := ⟨rfl, rfl⟩
theorem vsub (x : IntBin) : Statement (.vsub x) := ⟨rfl, rfl⟩
theorem vmul (x : IntBin) : Statement (.vmul x) := ⟨rfl, rfl⟩
theorem vmulh (x : IntBin) : Statement (.vmulh x) := ⟨rfl, rfl⟩
theorem vmad (x : IntTern) : Statement (.vmad x) := ⟨rfl, rfl⟩
theorem vmin (x : IntBin) : Statement (.vmin x) := ⟨rfl, rfl⟩
theorem vmax (x : IntBin) : Statement (.vmax x) := ⟨rfl, rfl⟩
theorem vdiv (x : IntBin) : Statement (.vdiv x) := ⟨rfl, rfl⟩
theorem vrem (x : IntBin) : Statement (.vrem x) := ⟨rfl, rfl⟩
theorem vand (x : IntBin) : Statement (.vand x) := ⟨rfl, rfl⟩
theorem vor (x : IntBin) : Statement (.vor x) := ⟨rfl, rfl⟩
theorem vxor (x : IntBin) : Statement (.vxor x) := ⟨rfl, rfl⟩
theorem vandn (x : IntBin) : Statement (.vandn x) := ⟨rfl, rfl⟩
theorem vshl (x : IntBin) : Statement (.vshl x) := ⟨rfl, rfl⟩
theorem vshr (x : IntBin) : Statement (.vshr x) := ⟨rfl, rfl⟩
theorem vclz (x : IntUn) : Statement (.vclz x) := ⟨rfl, rfl⟩
theorem vpopc (x : IntUn) : Statement (.vpopc x) := ⟨rfl, rfl⟩
theorem vcmp (x : IntCmp) : Statement (.vcmp x) := ⟨rfl, rfl⟩
theorem vaddPacked (x : PackBin) : Statement (.vaddPacked x) := ⟨rfl, rfl⟩
theorem vsubPacked (x : PackBin) : Statement (.vsubPacked x) := ⟨rfl, rfl⟩
theorem vminPacked (x : PackBin) : Statement (.vminPacked x) := ⟨rfl, rfl⟩
theorem vmaxPacked (x : PackBin) : Statement (.vmaxPacked x) := ⟨rfl, rfl⟩
theorem vmulPacked (x : PackBin) : Statement (.vmulPacked x) := ⟨rfl, rfl⟩
theorem vcmpEqPacked (x : PackCmp) : Statement (.vcmpEqPacked x) := ⟨rfl, rfl⟩
theorem vcmpLtPacked (x : PackCmp) : Statement (.vcmpLtPacked x) := ⟨rfl, rfl⟩
theorem vcmpLePacked (x : PackCmp) : Statement (.vcmpLePacked x) := ⟨rfl, rfl⟩
theorem vdot (x : DotArgs) : Statement (.vdot x) := ⟨rfl, rfl⟩
theorem vmovN32 (x : MovArgs) : Statement (.vmovN32 x) := ⟨rfl, rfl⟩
theorem vselN32 (x : SelArgs) : Statement (.vselN32 x) := ⟨rfl, rfl⟩
theorem vselN64 (x : SelArgs) : Statement (.vselN64 x) := ⟨rfl, rfl⟩
theorem vcoord (x : CoordArgs) : Statement (.vcoord x) := ⟨rfl, rfl⟩
theorem vmovN64 (x : MovArgs) : Statement (.vmovN64 x) := ⟨rfl, rfl⟩
theorem vaddFp (x : FpBin) : Statement (.vaddFp x) := ⟨rfl, rfl⟩
theorem vsubFp (x : FpBin) : Statement (.vsubFp x) := ⟨rfl, rfl⟩
theorem vmulFp (x : FpBin) : Statement (.vmulFp x) := ⟨rfl, rfl⟩
theorem vfma (x : FpTern) : Statement (.vfma x) := ⟨rfl, rfl⟩
theorem vfms (x : FpTern) : Statement (.vfms x) := ⟨rfl, rfl⟩
theorem vfnma (x : FpTern) : Statement (.vfnma x) := ⟨rfl, rfl⟩
theorem vdivFp (x : FpBin) : Statement (.vdivFp x) := ⟨rfl, rfl⟩
theorem vsqrt (x : FpUn) : Statement (.vsqrt x) := ⟨rfl, rfl⟩
theorem vcmpFp (x : FpCmp) : Statement (.vcmpFp x) := ⟨rfl, rfl⟩
theorem vminFp (x : FpSel) : Statement (.vminFp x) := ⟨rfl, rfl⟩
theorem vmaxFp (x : FpSel) : Statement (.vmaxFp x) := ⟨rfl, rfl⟩
theorem vneg (x : FpBits) : Statement (.vneg x) := ⟨rfl, rfl⟩
theorem vabs (x : FpBits) : Statement (.vabs x) := ⟨rfl, rfl⟩
theorem vcsgn (x : FpSel) : Statement (.vcsgn x) := ⟨rfl, rfl⟩
theorem vclass (x : FpBits) : Statement (.vclass x) := ⟨rfl, rfl⟩
theorem vaddF16 (x : HBin) : Statement (.vaddF16 x) := ⟨rfl, rfl⟩
theorem vsubF16 (x : HBin) : Statement (.vsubF16 x) := ⟨rfl, rfl⟩
theorem vmulF16 (x : HBin) : Statement (.vmulF16 x) := ⟨rfl, rfl⟩
theorem vfmaF16 (x : HTern) : Statement (.vfmaF16 x) := ⟨rfl, rfl⟩
theorem vminF16 (x : HSel) : Statement (.vminF16 x) := ⟨rfl, rfl⟩
theorem vmaxF16 (x : HSel) : Statement (.vmaxF16 x) := ⟨rfl, rfl⟩
theorem vcmpEqF16 (x : HCmp) : Statement (.vcmpEqF16 x) := ⟨rfl, rfl⟩
theorem vcmpLtF16 (x : HCmp) : Statement (.vcmpLtF16 x) := ⟨rfl, rfl⟩
theorem vdot2 (x : HTern) : Statement (.vdot2 x) := ⟨rfl, rfl⟩
theorem vcvt (x : CvtArgs) : Statement (.vcvt x) := ⟨rfl, rfl⟩
theorem vcvtp (x : CvtpArgs) : Statement (.vcvtp x) := ⟨rfl, rfl⟩
theorem vfrsqe (x : SfArgs) : Statement (.vfrsqe x) := ⟨rfl, rfl⟩
theorem vfrcpe (x : SfArgs) : Statement (.vfrcpe x) := ⟨rfl, rfl⟩
theorem vfexp2 (x : SfArgs) : Statement (.vfexp2 x) := ⟨rfl, rfl⟩
theorem vflog2 (x : SfArgs) : Statement (.vflog2 x) := ⟨rfl, rfl⟩
theorem vfsinpi (x : SfArgs) : Statement (.vfsinpi x) := ⟨rfl, rfl⟩
theorem vfcospi (x : SfArgs) : Statement (.vfcospi x) := ⟨rfl, rfl⟩
theorem vpand (x : PredBin) : Statement (.vpand x) := ⟨rfl, rfl⟩
theorem vpor (x : PredBin) : Statement (.vpor x) := ⟨rfl, rfl⟩
theorem vpxor (x : PredBin) : Statement (.vpxor x) := ⟨rfl, rfl⟩
theorem vpandn (x : PredBin) : Statement (.vpandn x) := ⟨rfl, rfl⟩
theorem vpnot (x : PredUn) : Statement (.vpnot x) := ⟨rfl, rfl⟩
theorem vpset (x : PredSet) : Statement (.vpset x) := ⟨rfl, rfl⟩
theorem vpget (x : PredGet) : Statement (.vpget x) := ⟨rfl, rfl⟩
theorem vpmov (x : PredMov) : Statement (.vpmov x) := ⟨rfl, rfl⟩
theorem vpnz (x : PredMov) : Statement (.vpnz x) := ⟨rfl, rfl⟩
theorem mpush (x : PushArgs) : Statement (.mpush x) := ⟨rfl, rfl⟩
theorem melse : Statement (.melse) := ⟨rfl, rfl⟩
theorem mpop : Statement (.mpop) := ⟨rfl, rfl⟩
theorem vtest (x : TestArgs) : Statement (.vtest x) := ⟨rfl, rfl⟩
theorem vmaskm (x : MaskmArgs) : Statement (.vmaskm x) := ⟨rfl, rfl⟩
theorem vshflIdx (x : ShflArgs) : Statement (.vshflIdx x) := ⟨rfl, rfl⟩
theorem vshflUp (x : ShflArgs) : Statement (.vshflUp x) := ⟨rfl, rfl⟩
theorem vshflDown (x : ShflArgs) : Statement (.vshflDown x) := ⟨rfl, rfl⟩
theorem vshflXor (x : ShflArgs) : Statement (.vshflXor x) := ⟨rfl, rfl⟩
theorem vlred (x : LredArgs) : Statement (.vlred x) := ⟨rfl, rfl⟩
theorem vscan (x : ScanArgs) : Statement (.vscan x) := ⟨rfl, rfl⟩
theorem vbcast (x : BcastArgs) : Statement (.vbcast x) := ⟨rfl, rfl⟩
theorem vballot (x : BallotArgs) : Statement (.vballot x) := ⟨rfl, rfl⟩
theorem vmatch (x : MatchArgs) : Statement (.vmatch x) := ⟨rfl, rfl⟩
theorem vld (x : ContArgs) : Statement (.vld x) := ⟨rfl, rfl⟩
theorem vldq (x : ContArgs) : Statement (.vldq x) := ⟨rfl, rfl⟩
theorem vldx (x : IdxArgs) : Statement (.vldx x) := ⟨rfl, rfl⟩
theorem vst (x : ContArgs) : Statement (.vst x) := ⟨rfl, rfl⟩
theorem vstq (x : ContArgs) : Statement (.vstq x) := ⟨rfl, rfl⟩
theorem vstx (x : IdxArgs) : Statement (.vstx x) := ⟨rfl, rfl⟩
theorem vamo (x : VAmoArgs) : Statement (.vamo x) := ⟨rfl, rfl⟩
theorem vqatomAdd (x : QatomArgs) : Statement (.vqatomAdd x) := ⟨rfl, rfl⟩
theorem vqatomMerge (x : QatomArgs) : Statement (.vqatomMerge x) := ⟨rfl, rfl⟩
theorem vpref (x : PrefArgs) : Statement (.vpref x) := ⟨rfl, rfl⟩
theorem vprefx (x : PrefxArgs) : Statement (.vprefx x) := ⟨rfl, rfl⟩
theorem vbput (x : VBoothArgs) : Statement (.vbput x) := ⟨rfl, rfl⟩
theorem vbtake (x : VBoothArgs) : Statement (.vbtake x) := ⟨rfl, rfl⟩
theorem qzero (x : QOne) : Statement (.qzero x) := ⟨rfl, rfl⟩
theorem qmov (x : QTwo) : Statement (.qmov x) := ⟨rfl, rfl⟩
theorem qadd (x : QAddArgs) : Statement (.qadd x) := ⟨rfl, rfl⟩
theorem qmac (x : QMacArgs) : Statement (.qmac x) := ⟨rfl, rfl⟩
theorem qmerge (x : QTwo) : Statement (.qmerge x) := ⟨rfl, rfl⟩
theorem qnorm (x : QOne) : Statement (.qnorm x) := ⟨rfl, rfl⟩
theorem qred (x : QRedArgs) : Statement (.qred x) := ⟨rfl, rfl⟩
theorem qrnd (x : QRndArgs) : Statement (.qrnd x) := ⟨rfl, rfl⟩
theorem qstat (x : QTwo) : Statement (.qstat x) := ⟨rfl, rfl⟩
theorem qseg (x : QSegArgs) : Statement (.qseg x) := ⟨rfl, rfl⟩
theorem qspill (x : QMemArgs) : Statement (.qspill x) := ⟨rfl, rfl⟩
theorem qfill (x : QMemArgs) : Statement (.qfill x) := ⟨rfl, rfl⟩
theorem tmma (x : MulArgs) : Statement (.tmma x) := ⟨rfl, rfl⟩
theorem tcsum (x : MulArgs) : Statement (.tcsum x) := ⟨rfl, rfl⟩
theorem tconv (x : MulArgs) : Statement (.tconv x) := ⟨rfl, rfl⟩
theorem tasum (x : MoveArgs) : Statement (.tasum x) := ⟨rfl, rfl⟩
theorem tzero (x : MoveArgs) : Statement (.tzero x) := ⟨rfl, rfl⟩
theorem tload (x : MoveArgs) : Statement (.tload x) := ⟨rfl, rfl⟩
theorem tstore (x : MoveArgs) : Statement (.tstore x) := ⟨rfl, rfl⟩
theorem tepi (x : EpiArgs) : Statement (.tepi x) := ⟨rfl, rfl⟩
theorem tstage (x : MoveArgs) : Statement (.tstage x) := ⟨rfl, rfl⟩
theorem tres (x : ResArgs) : Statement (.tres x) := ⟨rfl, rfl⟩
theorem trel (n : BitVec 4) : Statement (.trel n) := ⟨rfl, rfl⟩
theorem tileQueueEntry (g : Nat) : Statement (.tileQueueEntry g) := ⟨rfl, rfl⟩
theorem tileTurn (g : Nat) : Statement (.tileTurn g) := ⟨rfl, rfl⟩
theorem tileCommit (g : Nat) : Statement (.tileCommit g) := ⟨rfl, rfl⟩
theorem laneJumpRecord (g : Nat) : Statement (.laneJumpRecord g) := ⟨rfl, rfl⟩
theorem waitRetire (g : Nat) : Statement (.waitRetire g) := ⟨rfl, rfl⟩
theorem scalarReply (g : Nat) : Statement (.scalarReply g) := ⟨rfl, rfl⟩
theorem laneLoadReturn (g : Nat) : Statement (.laneLoadReturn g) := ⟨rfl, rfl⟩
theorem storePerformed (g : Nat) : Statement (.storePerformed g) := ⟨rfl, rfl⟩
theorem homeRequest (a : Agent) : Statement (.homeRequest a) := ⟨rfl, rfl⟩
theorem walkStart (w : Nat) : Statement (.walkStart w) := ⟨rfl, rfl⟩
theorem walkLimitExpiry (w : Nat) : Statement (.walkLimitExpiry w) := ⟨rfl, rfl⟩
theorem copyWrite (t c : Nat) : Statement (.copyWrite t c) := ⟨rfl, rfl⟩
theorem copyComplete (t c : Nat) : Statement (.copyComplete t c) := ⟨rfl, rfl⟩
theorem boothReservation (g : Nat) : Statement (.boothReservation g) := ⟨rfl, rfl⟩
theorem boothFillComplete (g : Nat) : Statement (.boothFillComplete g) := ⟨rfl, rfl⟩
theorem bputwReserve (g : Nat) : Statement (.bputwReserve g) := ⟨rfl, rfl⟩
theorem collectiveHandover (t : Nat) : Statement (.collectiveHandover t) := ⟨rfl, rfl⟩
theorem collectiveStep (c : Nat) : Statement (.collectiveStep c) := ⟨rfl, rfl⟩
theorem collectiveEnd (c : Nat) : Statement (.collectiveEnd c) := ⟨rfl, rfl⟩
theorem cobjModeDone (die entry : Nat) : Statement (.cobjModeDone die entry) := ⟨rfl, rfl⟩
theorem carveDone (die : Nat) : Statement (.carveDone die) := ⟨rfl, rfl⟩
theorem vector (g : Nat) : Statement (.vector g) := ⟨rfl, rfl⟩
theorem pdeadExpiry (t : Nat) : Statement (.pdeadExpiry t) := ⟨rfl, rfl⟩
theorem cooperativeSave (l n : Nat) : Statement (.cooperativeSave l n) := ⟨rfl, rfl⟩
theorem nodeRestore (l n : Nat) : Statement (.nodeRestore l n) := ⟨rfl, rfl⟩
theorem teamPlacement (l : Nat) : Statement (.teamPlacement l) := ⟨rfl, rfl⟩
theorem launchEnd (l : Nat) : Statement (.launchEnd l) := ⟨rfl, rfl⟩
theorem slotTableWrap (core : Nat) : Statement (.slotTableWrap core) := ⟨rfl, rfl⟩
theorem packetNop (q : Nat) : Statement (.packetNop q) := ⟨rfl, rfl⟩
theorem packetLaunch (q : Nat) : Statement (.packetLaunch q) := ⟨rfl, rfl⟩
theorem packetWait (q : Nat) : Statement (.packetWait q) := ⟨rfl, rfl⟩
theorem semaphoreSatisfied (q : Nat) : Statement (.semaphoreSatisfied q) := ⟨rfl, rfl⟩
theorem packetSignal (q : Nat) : Statement (.packetSignal q) := ⟨rfl, rfl⟩
theorem packetCopy (q : Nat) : Statement (.packetCopy q) := ⟨rfl, rfl⟩
theorem packetCopyDone (q : Nat) : Statement (.packetCopyDone q) := ⟨rfl, rfl⟩
theorem packetFence (q : Nat) : Statement (.packetFence q) := ⟨rfl, rfl⟩
theorem packetMark (q : Nat) : Statement (.packetMark q) := ⟨rfl, rfl⟩
theorem packetJump (q : Nat) : Statement (.packetJump q) := ⟨rfl, rfl⟩
theorem frontEndBind (q : Nat) : Statement (.frontEndBind q) := ⟨rfl, rfl⟩
theorem frontEndRelease (q : Nat) : Statement (.frontEndRelease q) := ⟨rfl, rfl⟩
theorem launchJoinRequest (chip gen part priv : Nat) (desc : List Byte) : Statement (.launchJoinRequest chip gen part priv desc) := ⟨rfl, rfl⟩
theorem joinReply (chip gen : Nat) (ok : Bool) (status cause : Byte) : Statement (.joinReply chip gen ok status cause) := ⟨rfl, rfl⟩
theorem downbeat (chip gen : Nat) : Statement (.downbeat chip gen) := ⟨rfl, rfl⟩
theorem abort (chip gen status : Nat) (cause : Nat × Nat) : Statement (.abort chip gen status cause) := ⟨rfl, rfl⟩
theorem startedReply (chip gen : Nat) : Statement (.startedReply chip gen) := ⟨rfl, rfl⟩
theorem downbeatTimeout (l : Nat) : Statement (.downbeatTimeout l) := ⟨rfl, rfl⟩
theorem joinResendTimeout (chip gen : Nat) : Statement (.joinResendTimeout chip gen) := ⟨rfl, rfl⟩
theorem joinDropTimeout (chip gen : Nat) : Statement (.joinDropTimeout chip gen) := ⟨rfl, rfl⟩
theorem startedTimeout (l : Nat) : Statement (.startedTimeout l) := ⟨rfl, rfl⟩
theorem doorbell (fn q : Nat) (v : Word) : Statement (.doorbell fn q v) := ⟨rfl, rfl⟩
theorem haltClear (fn q : Nat) (v : Word) : Statement (.haltClear fn q v) := ⟨rfl, rfl⟩
theorem pctlWrite (p : Nat) (v : Word) : Statement (.pctlWrite p v) := ⟨rfl, rfl⟩
theorem ptraceWrite (p : Nat) (v : Word) : Statement (.ptraceWrite p v) := ⟨rfl, rfl⟩
theorem csctlWrite (p d : Nat) (v : Word) : Statement (.csctlWrite p d v) := ⟨rfl, rfl⟩
theorem csrdWrite (p d : Nat) (v : Word) : Statement (.csrdWrite p d v) := ⟨rfl, rfl⟩
theorem podcfgWrite (v : Word) : Statement (.podcfgWrite v) := ⟨rfl, rfl⟩
theorem fwlenWrite (v : Word) : Statement (.fwlenWrite v) := ⟨rfl, rfl⟩
theorem registerWindowWrite (fn off : Nat) (v : Word) : Statement (.registerWindowWrite fn off v) := ⟨rfl, rfl⟩
theorem tdispStop (p : Nat) : Statement (.tdispStop p) := ⟨rfl, rfl⟩
theorem functionLevelReset (p : Nat) : Statement (.functionLevelReset p) := ⟨rfl, rfl⟩
theorem spdmRequest (index : Nat) : Statement (.spdmRequest index) := ⟨rfl, rfl⟩
theorem hostMemAccess (fn addr : Nat) (write : Bool) (data : List Byte) : Statement (.hostMemAccess fn addr write data) := ⟨rfl, rfl⟩
theorem podAnnouncement (chip : Nat) (dup : Bool) : Statement (.podAnnouncement chip dup) := ⟨rfl, rfl⟩
theorem ualinkLaneFailure (port : Nat) : Statement (.ualinkLaneFailure port) := ⟨rfl, rfl⟩
theorem remoteRequestTimeout (a : Agent) : Statement (.remoteRequestTimeout a) := ⟨rfl, rfl⟩
theorem ptpInputLoss : Statement .ptpInputLoss := ⟨rfl, rfl⟩
theorem ptpInputRestore (offset : Option Int) : Statement (.ptpInputRestore offset) := ⟨rfl, rfl⟩
theorem holdoverExpiry : Statement (.holdoverExpiry) := ⟨rfl, rfl⟩
theorem timeBaseTimer (p d : Nat) : Statement (.timeBaseTimer p d) := ⟨rfl, rfl⟩
theorem heldRecordEmit (p d : Nat) : Statement (.heldRecordEmit p d) := ⟨rfl, rfl⟩
theorem clockLimit (die mhz : Nat) : Statement (.clockLimit die mhz) := ⟨rfl, rfl⟩
theorem clockRestart (die : Nat) : Statement (.clockRestart die) := ⟨rfl, rfl⟩
theorem softError (u : SoftUnit) (repeated : Bool) : Statement (.softError u repeated) := ⟨rfl, rfl⟩
theorem coldStart (result unit detail : Nat) : Statement (.coldStart result unit detail) := ⟨rfl, rfl⟩
theorem tdispLockInterface (p : Nat) : Statement (.tdispLockInterface p) := ⟨rfl, rfl⟩
theorem tdispStartInterface (p : Nat) : Statement (.tdispStartInterface p) := ⟨rfl, rfl⟩
theorem clockStop (die : Nat) : Statement (.clockStop die) := ⟨rfl, rfl⟩
theorem clockRaise (die mhz : Nat) : Statement (.clockRaise die mhz) := ⟨rfl, rfl⟩
theorem powerLoss (torn : Bool) : Statement (.powerLoss torn) := ⟨rfl, rfl⟩
theorem chipUnreachable (chip : Nat) : Statement (.chipUnreachable chip) := ⟨rfl, rfl⟩
theorem launchKillArrival (part id status code chip team group : Nat) : Statement (.launchKillArrival part id status code chip team group) := ⟨rfl, rfl⟩

end Sys2Proof.Laws.Words
end

