-- ==== Sys2Proof/Tests/Slice0.lean ====
section
/-! SUPPORT. The model's own tests: words decoded as the spec writes them out, ill-formed terms refused, one step of each family on a small state, and for each statement a state and operands that meet its hypotheses. -/

namespace Sys2Proof.Machine.Tests

open Sys2Proof

set_option Elab.async false
set_option synthInstance.maxSize 2000

/-- A user group's team, launch and group by which the tests run one instruction. -/
def grp : Group := placedGroup 1 0 false
/-- Its team. -/
def crew : Team := { Team.blank with live := true, launch := 1, groups := [1] }
/-- Its launch. -/
def job : Launch := { Launch.blank with live := true, d := placedDesc 0, priv := 2, phase := .running, started := [0] }
/-- A package that is ready, with one launch of one team of one group, whose page 1 is mapped. -/
def base : State :=
  { State.reset with
    cur := .group 1, boot := { Boot.cold with phase := 2 }, dies := [(0, { Die.blank with tlb := [placedLeaf] })]
    work := ⟨[(1, grp)], [(1, crew)], [(1, job)], [], [], [], [], [], 2⟩ }
/-- The same with another group. -/
def withGroup (x : Group) : State := { base with work := { base.work with groups := [(1, x)] } }
/-- The same with another team and group. -/
def withTeam (y : Team) (x : Group) : State := { base with work := { base.work with groups := [(1, x)], teams := [(1, y)] } }
/-- The group with scalar registers set. -/
def sset (l : List (Nat × Word)) : Group := l.foldl (fun x e => setSregOf x e.1 e.2) grp
/-- The state with scalar registers set. -/
def scal (l : List (Nat × Word)) : State := withGroup (sset l)
/-- What an outcome leaves; the state as it was where it stops. -/
def reached (o : Out) (s : State) : State :=
  match o with
  | .next t => t
  | _ => s
/-- Whether an outcome is a next state. -/
def goes (o : Out) : Bool :=
  match o with
  | .next _ => true
  | _ => false
/-- What an instruction leaves. -/
def after (i : Instr) (s : State) : State := reached (exec i s) s

/-- No sink is enabled where no partition register has been written. -/
theorem noSinks_of (s : State) (h : s.regs = []) : NoSinks s := by
  intro p d
  have hr : regReset p (0x044 + d) = 0 := by unfold regReset; repeat' (split <;> first | rfl | omega | skip)
  simp [sinkOn, csctl, preg, h, hr, tget]

/-! Witnesses and single steps of the scalar families. -/

/-- The statements on scalar registers: s5 is 7, s6 is 2, the quotient is 3. -/
theorem witness_ScalarTwoSourceResults : Runs (scal [(5, 7), (6, 2)]) 1 ∧ sreg (after (.sdiv 4 5 6) (scal [(5, 7), (6, 2)])) 1 4 = 3 := by
  delta Runs; decide +kernel
/-- Bytes 01 to 08 reversed (R177); four plus the immediate -4 (R178). -/
theorem witness_ScalarOneSourceResults : Runs (scal [(5, 0x0102030405060708), (6, 4)]) 1 ∧
    sreg (after (.sbswap 4 5) (scal [(5, 0x0102030405060708), (6, 4)])) 1 4 = 0x0807060504030201 ∧
    sreg (after (.saddi 4 6 (-4)) (scal [(5, 0x0102030405060708), (6, 4)])) 1 4 = 0 := by delta Runs; decide +kernel
/-- A write of s0 and a write of s63. -/
theorem witness_ScalarRegisterFrame : Runs (scal [(5, 7)]) 1 ∧ goes (exec (.sadd 0 5 5) (scal [(5, 7)])) = true ∧
    goes (exec (.sadd 63 5 5) (scal [(5, 7)])) = true := by delta Runs; decide +kernel
/-- A branch 16 words back from 0x10000 is taken where the register is not zero; a call 2^25 - 1 words on sets the link. -/
theorem witness_ScalarBranches : Quiet (scal [(41, 1)]) 1 ∧ (group (after (.sbr 41 1 (-16)) (scal [(41, 1)])) 1).spc = 0xFFC0 ∧
    (group (after (.scall 0x1FFFFFF) (scal [(41, 1)])) 1).spc = 0x800FFFC ∧ sreg (after (.scall 0x1FFFFFF) (scal [(41, 1)])) 1 63 = 0x10004 := by
  delta Quiet Runs; decide +kernel

/-- A team whose last scratchpad bytes are known. -/
def stocked : Team := { crew with scratch := [(65528, 0x80), (65529, 0x81), (65535, 0xFF)] }
/-- A package with bytes at the end of the mapped page. -/
def full (l : List (Nat × Word)) : State := { withTeam stocked (sset l) with mem := [(0x1FFFE, 0x34), (0x1FFFF, 0x92)] }
/-- The last 8 bytes of the scratchpad, the last 2 bytes of the mapped page, as signed halves. -/
theorem witness_ScalarLoads : Runs (full [(5, 65528), (6, 0x1FFFE)]) 1 ∧ scopeBad (full [(5, 65528), (6, 0x1FFFE)]) 1 0 = false ∧
    ScratchReady (full [(5, 65528), (6, 0x1FFFE)]) 1 65528 8 ∧ MemReady (full [(5, 65528), (6, 0x1FFFE)]) 1 1 0x1FFFE 2 placedLeaf ∧
    sreg (after (.sld 4 5 3 true 0) (full [(5, 65528), (6, 0x1FFFE)])) 1 4 = 0xFF00000000008180 ∧
    sreg (after (.sld 4 6 5 false 0) (full [(5, 65528), (6, 0x1FFFE)])) 1 4 = 0xFFFFFFFFFFFF9234 := by
  delta Runs ScratchReady MemReady Reached; decide +kernel
/-- The same places stored to and exchanged. -/
theorem witness_ScalarStores : Runs (full [(5, 65528), (6, 0x1FFFC), (8, 0x92340001)]) 1 ∧
    scopeBad (full [(5, 65528), (6, 0x1FFFC), (8, 0x92340001)]) 1 0 = false ∧ laneIssued (group (full [(5, 65528), (6, 0x1FFFC), (8, 0x92340001)]) 1) = true ∧
    ScratchReady (full [(5, 65528), (6, 0x1FFFC), (8, 0x92340001)]) 1 65528 8 ∧ Untagged stocked 65528 8 ∧
    MemReady (full [(5, 65528), (6, 0x1FFFC), (8, 0x92340001)]) 1 2 0x1FFFC 4 placedLeaf ∧
    MemReady (full [(5, 65528), (6, 0x1FFFC), (8, 0x92340001)]) 1 3 0x1FFFC 4 placedLeaf ∧
    mbyte (after (.sst 8 6 0 false 0) (full [(5, 65528), (6, 0x1FFFC), (8, 0x92340001)])).mem 0x1FFFC = 1 ∧
    mbyte (after (.samoAdd ⟨8, 6, true, true, 0, false, false⟩) (full [(5, 65528), (6, 0x1FFFC), (8, 0x92340001)])).mem 0x1FFFF = 0x24 ∧
    sreg (after (.samoMaxI ⟨8, 6, false, false, 0, false, false⟩) (full [(5, 65528), (6, 0x1FFFC), (8, 0x92340001)])) 1 8 = 0xFFFFFFFF92340000 := by
  delta Runs ScratchReady MemReady Untagged Reached; decide +kernel

/-- A group whose lane stream has a record to run. -/
def busy : Group := { grp with lane := { grp.lane with rq := [.run 1 (List.replicate 15 0)] } }
/-- Releases, an empty count, a full one; fences with nothing to wait for; `sexit` that ends the group, and one that waits. -/
theorem witness_StreamControl : Quiet (scal [(5, 1024)]) 1 ∧ (group (scal [(5, 1024)]) 1).lane.rq.length < Config.queueDepth ∧
    (group (scal [(5, 1024)]) 1).lane.park.fmask = 0 ∧ sreg (scal [(5, 1024)]) 1 5 = 1024 ∧ sreg (scal [(5, 1024)]) 1 6 = 0 ∧
    laneIssued (group (scal []) 1) = true ∧ scopeBad (scal []) 1 1 = false ∧ laneIdle grp = true ∧ countersZero grp = true ∧
    laneIdle busy = false ∧ busy.handler = none ∧
    (group (after (.lrunr 5) (scal [(5, 1024)])) 1).lane.rq = [.run 1024 [0, 0, 0, 0, 1024, 0, 0, 0, 0, 0, 0, 0, 0, 0, 0]] ∧
    (group (after .sexit base) 1).live = false ∧ (group (after .sexit (withGroup busy)) 1).fly.waiting = some .sexit := by
  delta Quiet Runs; decide +kernel
/-- A status register; a wait at its threshold and above it; a tile register's base and shape. -/
theorem witness_StatusCountersTiles : Runs (scal [(5, 0x3FFFFFFFFFFFFFF0), (6, 0xFFFFFFFF)]) 1 ∧
    statusReg (scal []) 1 0x043 = some 0 ∧ sreg (scal []) 1 0 = 0 ∧
    Runs (withGroup { grp with cnt := { grp.cnt with loads := 1 } }) 1 ∧ (0 : Word).toNat < (group (withGroup { grp with cnt := { grp.cnt with loads := 1 } }) 1).cnt.loads ∧
    sreg (scal [(5, 0x3FFFFFFFFFFFFFF0), (6, 0xFFFFFFFF)]) 1 5 = 0x3FFFFFFFFFFFFFF0 ∧ (0x3FFFFFFFFFFFFFF0 : Word).toNat % 16 = 0 ∧
    treg (group (after (.tsetb 3 5) (scal [(5, 0x3FFFFFFFFFFFFFF0)])) 1) 3 = 0x3FFFFFFFFFFFFFF ∧
    treg (group (after (.tsets 3 6) (scal [(6, 0xFFFFFFFF)])) 1) 3 = 0xFFFFFFFF000000000000000000000000 := by delta Runs; decide +kernel

/-! Witnesses and single steps of the objects: barriers, booths, copies, records, collectives. -/

/-- A team with a barrier object of two arrivals at 0x40, in phase 5, and a tag for it. -/
def barred : Team := { writeBar crew 0x40 ⟨2, 2, 0, 5⟩ with tags := [(4, 1)] }
/-- The same with one arrival and bytes to come. -/
def barred1 (n : Nat) : Team := { writeBar crew 0x40 ⟨1, 2, n, 0xFFFF⟩ with tags := [(4, 1)] }
/-- A team with a booth at 0x80: cap 2, rows of 16 bytes, tail, take, head; the row at 0 holds 1 to 16. -/
def boothed (tail take head : Nat) : Team :=
  { scratchPut (writeBooth crew 0x80 ⟨tail, take, head, 2, 16, 0⟩) 0xA0 ((List.range 16).map fun i => BitVec.ofNat 8 (i + 1)) with tags := [(8, 2), (9, 3)] }
/-- `bar.init` on free bytes, `bar.free` of an object and of a booth, an arrival that completes the phase, a wait on either side of it; a yield that goes on and one that parks. -/
theorem witness_Barriers : Runs (withTeam barred (sset [(5, 0x40), (6, 2)])) 1 ∧ clusterAddr (withTeam barred (sset [])) 1 0x40 = .at 1 0x40 ∧
    clusterAddr (withTeam barred (sset [])) 1 0x50 = .at 1 0x50 ∧ tagAt barred 0x50 = 0 ∧ isBarrier barred 0x40 = true ∧ isBooth barred 0x40 = false ∧
    parkedOn (withTeam barred (sset [])) 1 0x40 = false ∧ engineNames (withTeam barred (sset [])) 1 0x40 = false ∧ isBooth (boothed 0 0 0) 0x80 = true ∧
    scopeBad (withTeam barred (sset [])) 1 0 = false ∧ Faultable (withTeam barred (sset [])) 1 ∧ scopeAboveH (withTeam barred (sset [])) 1 0 = false ∧
    (readBar (team (after (.barInit 5 6) (withTeam barred (sset [(5, 0x50), (6, 2)]))) 1) 0x50) = ⟨2, 2, 0, 0⟩ ∧
    isBarrier (team (after (.barFree 5) (withTeam barred (sset [(5, 0x40)]))) 1) 0x40 = false ∧
    (readBar (team (after (.barArrive 4 5 0) (withTeam (barred1 0) (sset [(5, 0x40)]))) 1) 0x40) = ⟨2, 2, 0, 0⟩ ∧
    sreg (after (.barArrive 4 5 0) (withTeam (barred1 0) (sset [(5, 0x40)]))) 1 4 = 0xFFFF000000000040 ∧
    (group (after (.barWait 5) (withTeam barred (sset [(5, 0x0005000000000040)]))) 1).fly.waiting = some (.barWait 5) ∧
    (group (after (.barWait 5) (withTeam barred (sset [(5, 0x40)]))) 1).spc = 0x10004 ∧
    (group (after (.yieldc 5 6 (-1)) (withTeam barred (sset [(5, 0x40), (6, 0x77)]))) 1).spc = 0xFFFC ∧
    (group (after (.barFree 5) (withTeam (barred1 1) (sset [(5, 0x40)]))) 1).pend.stream = some ⟨9, 2, 16, 0xFF, 0, 0x40⟩ := by
  delta Runs Faultable; decide +kernel
/-- A node barrier of one party: an arrival completes the phase; a wait retires after it; in the set already, the arrival waits. -/
theorem witness_NodeBarriers : Runs (scal [(5, 1)]) 1 ∧ sreg (scal [(5, 1)]) 1 5 = 1 ∧
    (tget barBlank (launch (after (.sbarArrive 4 0) (scal [])) 1).bars (barKey 0 0)) = ⟨1, []⟩ ∧
    (group (after (.sbarWait 5 0) (scal [(5, 1)])) 1).spc = 0x10004 ∧ (group (after (.sbarWait 0 0) (scal [])) 1).fly.waiting = some (.sbarWait 0 0) ∧
    (nodeAt (scal []) 1 0).2 = (0, 0) ∧
    (let s := scal []
     let t := setLaunch s 1 { launch s 1 with bars := tput barBlank [] (barKey 0 0) ⟨3, [(0, 0)]⟩ }
     Runs t 1 ∧ (group (after (.sbarArrive 4 0) t) 1).fly.waiting = some (.sbarArrive 4 0)) := by delta Runs; decide +kernel
/-- A group whose `bdecl` of a header at 0xFDE0 has asked its controller. -/
def declares : Group := { sset [(5, 0xFDE0), (6, 0x2000001)] with fly := { grp.fly with waiting := some (.bdecl 5 6), yielded := true } }
/-- Booths: a declaration of the largest rows in both its parts, one whose second granule is tagged, a take of a ready row and of an empty booth, a drop, a request. -/
theorem witness_Booths : Runs (withTeam (boothed 1 0 0) (sset [(5, 0x80), (6, 0x2000001)])) 1 ∧ isBooth (boothed 1 0 0) 0x80 = true ∧
    (readBooth (boothed 1 0 0) 0x80).take ≠ (readBooth (boothed 1 0 0) 0x80).tail ∧ (boothed 1 0 0).filling.contains (0x80, 0) = false ∧
    laneIssued (group (withTeam (boothed 1 0 0) (sset [])) 1) = true ∧ clusterAddr (withTeam (boothed 1 0 0) (sset [])) 1 0x80 = .at 1 0x80 ∧
    (group (after (.bdecl 5 6) (withTeam crew (sset [(5, 0xFDE0), (6, 0x2000001)]))) 1).fly.waiting = some (.bdecl 5 6) ∧
    Runs (withTeam crew declares) 1 ∧ Faultable (withTeam crew declares) 1 ∧
    (readBooth (team (after (.bdecl 5 6) (withTeam crew declares)) 1) 0xFDE0) = ⟨0, 0, 0, 1, 512, 0⟩ ∧
    (group (after (.bdecl 5 6) (withTeam crew declares)) 1).spc = 0x10004 ∧
    (group (after (.bdecl 5 6) (withTeam { crew with tags := [(0xFDF, 1)] } declares)) 1).pend.stream = some ⟨9, 0, 16, 0xFF, 0, 0xFDF0⟩ ∧
    sreg (after (.btake 4 5) (withTeam (boothed 1 0 0) (sset [(5, 0x80)]))) 1 4 = 0xA0 ∧
    sreg (after (.btake 4 5) (withTeam (boothed 1 1 0) (sset [(5, 0x80)]))) 1 4 = 0x8000000000000000 ∧
    (readBooth (team (after (.bdrop 5) (withTeam (boothed 1 1 0) (sset [(5, 0x80)]))) 1) 0x80).head = 1 ∧
    (group (after (.bput 4 5 6) (withTeam (boothed 1 0 0) (sset [(5, 0x80), (6, 0x200)]))) 1).fly.booth = some ⟨1, 0x80, [0, 2, 0, 0, 0, 0, 0, 0], 4, false, false, none, false⟩ := by
  delta Runs Faultable; decide +kernel
/-- A request at its controller: that of a scalar instruction, or that of a lane instruction with a row of 512 bytes. -/
def request (wait lane gone : Bool) (row : Option (Nat × Nat)) : BoothOp :=
  ⟨1, 0x80, if lane then (List.range 512).map (BitVec.ofNat 8) else [0, 2, 0, 0, 0, 0, 0, 0], if lane then 2 else 4, wait, lane, row, gone⟩
/-- The state in which it is under way; a lane's has one instruction of its run left. -/
def asking (y : Team) (o : BoothOp) : State :=
  withTeam y { grp with lane := { grp.lane with rq := [.run 1 (List.replicate 15 0)] }, fly := { grp.fly with booth := some o } }
/-- The events of a request of the scalar stream: with a free row, behind one that is parked, without a free row in each form, parked, filled; removed while it was parked; for no booth; longer than its source. -/
theorem witness_BoothEvents : boothRefusal (asking (boothed 1 0 0) (request true false false none)) 1 (request true false false none) = none ∧
    (readBooth (boothed 1 0 0) 0x80).free = 1 ∧ (readBooth (boothed 2 0 0) 0x80).free = 0 ∧
    (team (after (.boothReservation 1) (asking (boothed 1 0 0) (request false false false none))) 1).filling = [(0x80, 1)] ∧
    (team (after (.boothReservation 1) (asking { boothed 1 0 0 with parked := [(0x80, 7)] } (request false false false none))) 1).filling = [] ∧
    (team (after (.boothReservation 1) (asking (boothed 2 0 0) (request true false false none))) 1).parked = [(0x80, 1)] ∧
    sreg (after (.boothReservation 1) (asking (boothed 2 0 0) (request false false false none))) 1 4 = 0x8000000000000000 ∧
    (readBooth (team (after (.boothReservation 1) (asking (boothed 2 0 0) (request false false false none))) 1) 0x80).refusals = 1 ∧
    (team (after (.bputwReserve 1) (asking { boothed 2 1 1 with parked := [(0x80, 1)] } (request true false false none))) 1).filling = [(0x80, 2)] ∧
    sreg (after (.boothFillComplete 1) (asking { boothed 2 0 0 with filling := [(0x80, 1)] } (request false false false (some (1, 0))))) 1 4 = 1 ∧
    Faultable (asking (boothed 1 0 0) (request true false true none)) 1 ∧
    (group (after (.bputwReserve 1) (asking (boothed 1 0 0) (request true false true none))) 1).pend.stream = some ⟨10, 1, 16, 0xFF, 0, 0x80⟩ ∧
    (group (after (.boothReservation 1) (asking crew (request false false false none))) 1).pend.stream = some ⟨10, 0, 16, 0xFF, 0, 0x80⟩ ∧
    (group (after (.boothReservation 1) (asking { crew with groups := [1], live := false } (request false false false none))) 1).pend.stream = some ⟨7, 0, 16, 0xFF, 0, 0x80⟩ ∧
    (group (after (.boothReservation 1) (asking (boothed 1 0 0) { request false false false none with source := leBytes 8 0xFFF8 })) 1).pend.stream
      = some ⟨7, 0, 8, 0xFF, 0, 0x10000⟩ := by delta Faultable; decide +kernel
/-- The events of a `vbput`: refused, reserved, filled; a row longer than a lane register. -/
theorem witness_BoothEvents_lane : Unsampled (asking (boothed 2 0 0) (request false true false none)) 1 ∧
    boothRefusal (asking (boothed 2 0 0) (request false true false none)) 1 (request false true false none) = none ∧
    sreg (after (.boothReservation 1) (asking (boothed 2 0 0) (request false true false none))) 1 42 = 0x8000000000000000 ∧
    (readBooth (team (after (.boothReservation 1) (asking (boothed 2 0 0) (request false true false none))) 1) 0x80).refusals = 1 ∧
    (group (after (.boothReservation 1) (asking (boothed 2 0 0) (request false true false none))) 1).lane.lpc = 0x1000C ∧
    (team (after (.boothReservation 1) (asking (boothed 1 0 0) (request false true false none))) 1).filling = [(0x80, 1)] ∧
    (group (after (.boothReservation 1) (asking (boothed 1 0 0) (request false true false none))) 1).fly.booth = some (request false true false (some (1, 0))) ∧
    sreg (after (.boothFillComplete 1) (asking { boothed 2 0 0 with filling := [(0x80, 1)] } (request false true false (some (1, 0))))) 1 42 = 1 ∧
    tget 0 (team (after (.boothFillComplete 1) (asking { boothed 2 0 0 with filling := [(0x80, 1)] } (request false true false (some (1, 0))))) 1).scratch 0xBF = 15 ∧
    (group (after (.boothReservation 1) (asking { writeBooth (boothed 1 0 0) 0x80 ⟨0, 0, 0, 1, 528, 0⟩ with live := true } (request false true false none))) 1).pend.stream
      = some ⟨10, 3, 17, 0xFF, 0, 0x80⟩ := by delta Unsampled; decide +kernel
/-- The lane forms. -/
theorem witness_LaneBooths : LaneRuns (withTeam (boothed 1 0 0) { sset [] with lane := { grp.lane with rq := [.run 1 (0x80 :: List.replicate 14 0)] } }) 1 ∧
    Unsampled base 1 ∧ Below base 1 [255] [] ∧ captured { grp with lane := { grp.lane with rq := [.run 1 (0x80 :: List.replicate 14 0)] } } 1 = 0x80 ∧
    (vreg (group (after (.vbtake ⟨false, 0, 7, 1, 2⟩) (withTeam (boothed 1 0 0) { grp with lane := { grp.lane with rq := [.run 1 (0x80 :: List.replicate 14 0)] } })) 1) 7).getD 3 0 = 0x100F0E0D ∧
    (group (after (.vbput ⟨false, 0, 7, 1, 2⟩) (withTeam (boothed 1 0 0) { grp with lane := { grp.lane with rq := [.run 1 (0x80 :: List.replicate 14 0)] } })) 1).fly.booth.isSome = true := by
  delta LaneRuns Unsampled Below; decide +kernel

/-- A descriptor: space, rows, columns, stride in 16 bytes, base in 16 bytes, format. -/
def desc (fmt space rows cols stride base : Nat) : TileDesc :=
  BitVec.ofNat 128 (fmt * 2 ^ 92 + space * 2 ^ 90 + (rows - 1) * 2 ^ 80 + (cols - 1) * 2 ^ 70 + stride * 2 ^ 58 + base)
/-- A copy record: source, destination, count, barrier, flags, k. -/
def copyRec (src dst : TileDesc) (count bar flags k : Nat) : List Byte :=
  leBytes 16 src.toNat ++ leBytes 16 dst.toNat ++ leBytes 4 count ++ leBytes 4 bar ++ [BitVec.ofNat 8 flags, 0, BitVec.ofNat 8 k] ++ List.replicate 21 0
/-- 16 bytes from 0x100 of the scratchpad to 0x200 of the scratchpad, counted down at the object at 0x40, with k3. -/
def copy1 : List Byte := copyRec (desc 2 0 1 16 0 0x10) (desc 2 0 1 16 1 0x20) 16 0x40 4 3
/-- The same to memory at 0x10100, with no object. -/
def copy2 : List Byte := copyRec (desc 2 3 1 16 0 0x1010) (desc 2 3 1 16 1 0x1020) 16 0xFFFFFFFF 0 0
/-- A team with the record at 0xFFC0, its source bytes and an object that expects 16 bytes. -/
def copying (r : List Byte) : Team :=
  { scratchPut (scratchPut (writeBar crew 0x40 ⟨0, 1, 16, 0⟩) 0xFFC0 r) 0x100 ((List.range 16).map fun i => BitVec.ofNat 8 (i + 1)) with tags := [(4, 1)] }
/-- A copy in flight. -/
def inFlight (r : List Byte) (done : Nat) (bad : Option FaultRec) : State :=
  { withTeam { copying r with copies := [(0, some ⟨1, 0xFFC0, r, [(3, 9)], done, false, none, bad, false, false⟩)] }
      (raiseK { grp with cnt := { grp.cnt with copies := 1 } } 3 9) with mem := [(0x10100, 0x55)] }
/-- The record at the end of the scratchpad is handed over; 16 bytes are written in the scratchpad and in memory and counted down; a copy ends, with its fault told. -/
theorem witness_Copies : Runs (withTeam (copying copy1) (sset [(5, 0xFFC0)])) 1 ∧ copyTrap (withTeam (copying copy1) (sset [])) 1 copy1 = none ∧
    noSuchTeam (withTeam (copying copy1) (sset [])) 1 (copySrc copy1) = false ∧ noSuchTeam (withTeam (copying copy1) (sset [])) 1 (copyDst copy1) = false ∧
    copyBar copy1 = 0x40 ∧ clusterAddr (withTeam (copying copy1) (sset [])) 1 0x40 = .at 1 0x40 ∧ isBarrier (copying copy1) 0x40 = true ∧
    copySlot (copying copy1) = some 0 ∧ copiesInFlight (withTeam (copying copy1) (sset [])) 0 < 32 ∧
    scratchRead (copying copy1) 0xFFC0 64 = copy1 ∧
    kcount (group (after (.xcopy 5) (withTeam (copying copy1) (sset [(5, 0xFFC0)]))) 1) 3 = 1 ∧
    copyOf (inFlight copy1 0 none) 1 0 = some ⟨1, 0xFFC0, copy1, [(3, 9)], 0, false, none, none, false, false⟩ ∧ waiting (inFlight copy1 0 none) (.copy 1 0) = false ∧
    engineScratch (inFlight copy1 0 none) 1 0x100 16 = .bytes ((List.range 16).map fun i => some (BitVec.ofNat 8 (i + 1))) none ∧
    Untagged (copying copy1) 0x200 16 ∧
    engineLoad (inFlight copy2 0 none) (teamWho (inFlight copy2 0 none) 1 (.copy 1 0)) 0x10100 16 = (inFlight copy2 0 none, .bytes (some 0x55 :: List.replicate 15 (some 0)) none) ∧
    (tget 0 (team (after (.copyWrite 1 0) (inFlight copy1 0 none)) 1).scratch 0x20F = 16) ∧
    readBar (team (after (.copyWrite 1 0) (inFlight copy1 0 none)) 1) 0x40 = ⟨1, 1, 0, 1⟩ ∧
    mbyte (after (.copyWrite 1 0) (inFlight copy2 0 none)).mem 0x10200 = 0x55 ∧
    (copyOf (after (.copyComplete 1 0) (inFlight copy1 16 none)) 1 0 = none ∧ kcount (group (after (.copyComplete 1 0) (inFlight copy1 16 none)) 1) 3 = 0) ∧
    (group (after (.copyComplete 1 0) (inFlight copy1 16 (some ⟨7, 0, 0, 0, 0, 0⟩))) 1).pend.order = [2] := by
  delta Runs Untagged; decide +kernel
/-- A copy to a reserved range of the operand buffer. -/
theorem witness_Copies_buffer :
    (let r := copyRec (desc 2 0 1 16 0 0x10) (desc 2 2 1 16 1 0x20) 16 0xFFFFFFFF 0 0
     let y := { copying r with copies := [(0, some ⟨1, 0xFFC0, r, [], 0, false, none, none, false, false⟩)], recs := [(0, (0x200 + 0x100 * 2 ^ 18, 0))] }
     reserved y 0x20F = true ∧ tget 0 (team (after (.copyWrite 1 0) (withTeam y grp)) 1).obuf 0x20F = 16) := by decide +kernel
/-- No sink stands at reset. -/
theorem witness_NoSinks : NoSinks base ∧ NoSinks (inFlight copy2 0 none) := ⟨noSinks_of _ rfl, noSinks_of _ rfl⟩
/-- A copy that a handler issued and that met a fault ends the launch. -/
theorem witness_Copies_handler : (let f : Frame := ⟨0x10100, grp.lane, 0, 0, List.replicate 8 0, List.replicate 4 (List.replicate 128 0), none, []⟩
    let k : Copy := ⟨1, 0xFFC0, copy1, [], 16, false, none, some ⟨7, 0, 0, 0, 0, 0⟩, false, true⟩
    let s := withTeam { copying copy1 with copies := [(0, some k)] } { grp with cnt := { grp.cnt with copies := 1 }, handler := some f }
    copyOf s 1 0 = some k ∧ (k.hand && inHandler (group s 1)) = true ∧
      ((launch (after (.copyComplete 1 0) s) 1).fin.map (·.code)) = some 0x8007) := by decide +kernel
/-- A group whose trace bit is 1, with a marker's operands, and a sink of its die that keeps every kind. -/
def traced (w : Word) : State :=
  { withGroup { sset [(5, 0x1122334455667788), (6, 0x99)] with trace := { TraceCtx.off with bit := true } } with
    time := { base.time with now := 256000100 }, sinks := [(0, { Sink.blank with last := 256000000, unit := 256000000, base := 1000000 })]
    regs := [(0, 0x100), (0x040, 0x1000C), (0x044, 0xFFFF0001), (0x048, w)] }
/-- The record of a marker and that of a sync. -/
def markRec : TraceRec := ⟨6, 0, groupSource (traced 0) 1, 256000100, leBytes 8 0x1122334455667788 ++ leBytes 2 0x99, true⟩
/-- The record of the sync at the word after 0x10000. -/
def syncRec : TraceRec :=
  ⟨1, 2, groupSource (traced 0) 1, 256000100, leBytes 4 1 ++ varint 0 ++ [0] ++ varint 0x4001 ++ varint 0x4000 ++ [0, 0] ++
    maskBytes (BitVec.allOnes 128) ++ [0], true⟩
/-- Sampling is set where the trace bit is 1, and markers write nothing where it is 0. -/
theorem witness_Tracing : Quiet (scal [(5, 0x10007)]) 1 ∧ goes (exec (.tmark 5 0) (scal [(5, 0x10007)])) = true ∧ goes (exec .tsync (scal [])) = true ∧
    Runs (withGroup { sset [(5, 0x10007)] with trace := { TraceCtx.off with bit := true } }) 1 ∧
    (group (after (.tsamp 5) (withGroup { sset [(5, 0x10007)] with trace := { TraceCtx.off with bit := true } })) 1).trace.every = 7 := by
  delta Quiet Runs; decide +kernel
/-- A marker at the start of the ring and in its last bytes. -/
theorem witness_Tracing_marker : Runs (traced 0) 1 ∧ (group (traced 0) 1).trace.bit = true ∧ (group (traced 0) 1).trace.map = [] ∧
    (group (traced 0) 1).trace.branches < 256 ∧ RingReady (traced 0) 0 0 markRec placedLeaf 0x10000 ∧
    (bytesNow (sink (traced 0) 0 0) markRec).length = 14 ∧ RingReady (traced 4082) 0 0 markRec placedLeaf 0x10FF2 ∧
    mread (after (.tmark 5 6) (traced 4082)).mem 0x10FF2 14 =
      0x60 :: varint (groupSource (traced 0) 1) ++ zigzag 100 ++ [0x88, 0x77, 0x66, 0x55, 0x44, 0x33, 0x22, 0x11, 0x99, 0] := by
  delta Runs RingReady Reached; decide +kernel
/-- A sync, and the write position after it. -/
theorem witness_Tracing_sync : RingReady (traced 0) 0 0 syncRec placedLeaf 0x10000 ∧
    mread (after .tsync (traced 0)).mem 0x10000 5 = 0x12 :: varint (groupSource (traced 0) 1) ++ zigzag 100 ++ [1] ∧
    (preg (after .tsync (traced 0)) 0 0x048).toNat = (bytesNow (sink (traced 0) 0 0) syncRec).length := by
  delta RingReady Reached; decide +kernel

/-- A shape record: one dimension of 128 elements of a format, stride 1. -/
def shape (fmt : Nat) : List Byte :=
  leBytes 4 128 ++ List.replicate 20 0 ++ leBytes 4 1 ++ List.replicate 20 0 ++ [1, BitVec.ofNat 8 fmt, 0, 0] ++ List.replicate 12 0
/-- A package with shape 1 of generation 2 and coherence object 1 of die 0. -/
def object (ch : List (BitVec 2 × Nat × Nat × Nat)) (l : List (Nat × Word)) : State :=
  { withTeam (scratchPut crew 0xFFC0 (shape 2)) (sset l) with
    shapes := [(1, ⟨true, 2, shape 2⟩)]
    dies := [(0, { Die.blank with tlb := [{ placedLeaf with leaf := placedLeaf.leaf ||| 0x0400000000000000 }], objs := [(1, ⟨true, 3, 0x10000, 128, 2, 0, ch, 0, none, []⟩)] })] }
/-- `shalloc` takes slot 2, `shfree` frees slot 1, a stale handle faults; `cobj.decl` beside an object and over it; a change asked for and made; a query; a free. -/
theorem witness_ObjectsAndShapes : Runs (object [] [(5, 0xFFC0), (6, 0x1002)]) 1 ∧ shapeOk (shape 2) = true ∧ tableWf ShapeSlot.blank (object [] []).shapes = true ∧
    shapeOf (object [] []) 0 0x1002 = some ⟨true, 2, shape 2⟩ ∧ shapeOf (object [] []) 0 0x1001 = none ∧ Faultable (object [] []) 1 ∧
    objOf (object [] []) 1 0x3001 = some (0, 1, ⟨true, 3, 0x10000, 128, 2, 0, [], 0, none, []⟩) ∧
    checkPages 2 (object [] []) (whoOf (object [] []) 1 (.scalar 1)) 0x10080 128 1 = (object [] [], .ok) ∧
    checkPages 2 (object [] []) (whoOf (object [] []) 1 (.scalar 1)) 0x10000 128 1 = (object [] [], .ok) ∧
    sreg (after (.shalloc 4 5) (object [] [(5, 0xFFC0)])) 1 4 = 0x2000 ∧ sreg (after (.shtest 4 6) (object [] [(6, 0x1002)])) 1 4 = 1 ∧
    (shapeSlot (after (.shfree 6) (object [] [(6, 0x1002)])) 0 1) = ⟨false, 3, []⟩ ∧
    (group (after (.shfree 6) (object [] [(6, 0x1001)])) 1).pend.stream = some ⟨11, 0, 0, 0xFF, 0x1001, 0⟩ ∧
    sreg (after (.cobjDecl 4 5 6) (object [] [(5, 0x10080), (6, 0x100001002)])) 1 4 = 2 ∧
    sreg (after (.cobjDecl 4 5 6) (object [] [(5, 0x10000), (6, 0x100001002)])) 1 4 = 0x8000000000000001 ∧
    sreg (after (.cobjQuery 4 5) (object [(1, 1, 3, 9)] [(5, 0x3001)])) 1 4 = 4 ∧
    kcount (group (after (.cobjMode 3 5 6) (object [] [(5, 0x3001), (6, 1)])) 1) 3 = 1 ∧
    (tget CObj.blank (die (after (.cobjModeDone 0 1) (object [(1, 1, 3, 9)] [])) 0).objs 1).mode = 1 ∧
    (tget CObj.blank (die (after (.cobjFree 5) (object [] [(5, 0x3001)])) 0).objs 1).gen = 4 ∧
    (group (after (.cobjFree 5) (object [(1, 1, 3, 9)] [(5, 0x3001)])) 1).fly.waiting = some (.cobjFree 5) := by delta Runs Faultable; decide +kernel

/-- Source and destination of a collective in the scratchpad: 16 elements of FP32 or any format, at 0x100 and 0x200. -/
def src1 (fmt : Nat) : TileDesc := desc fmt 0 1 16 0 0x10
/-- The destination. -/
def dst1 (fmt : Nat) : TileDesc := desc fmt 0 1 16 4 0x20
/-- A group whose tile registers t0 and t1 name them, s5 the object at 0x40, s6 the status word at 0x80 and an operation. -/
def collGroup (fmt : Nat) (op : Word) : Group := setTreg (setTreg (sset [(5, 0x40), (6, 0x40000 + op * 16)]) 0 (src1 fmt)) 1 (dst1 fmt)
/-- It waits at a collective. -/
def collWaits (fmt : Nat) : State :=
  { withTeam { writeBar crew 0x40 ⟨1, 1, 0, 7⟩ with tags := [(4, 1)] }
      { collGroup fmt 0 with fly := { grp.fly with waiting := some (.callred 4 5 6) } } with cur := .none }
/-- The codes of FP32, FP16, INT32. -/
def rank1 (fn : Nat) (fmt : Nat) (op : Word) : CollRank := ⟨1, fn, 0x40, 0x40000 + op * 16, src1 fmt, dst1 fmt, true, 7, 64, 0, none, none, [], [], false, false⟩
/-- A collective of one rank. -/
def coll1 (fn : Nat) (fmt : Nat) (op : Word) : Coll := ⟨1, 0, 0, 0, [(0, some (rank1 fn fmt op))], 1, 0, [], [], false, false, none, 0xFFFFFFFF, [], []⟩
/-- It is in flight, its sixteenth element of the given word, its team counting it. -/
def collState (k : Coll) (last : Nat) : State :=
  { withTeam (scratchPut { writeBar crew 0x40 ⟨0, 1, 72, 7⟩ with tags := [(4, 1)] } 0x13C (leBytes 4 last)) { grp with cnt := { grp.cnt with copies := 1 } } with
    work := { (withTeam (scratchPut { writeBar crew 0x40 ⟨0, 1, 72, 7⟩ with tags := [(4, 1)] } 0x13C (leBytes 4 last))
      { grp with cnt := { grp.cnt with copies := 1 } }).work with colls := [(3, some k)] } }
/-- A group that passes the checks waits; the hand-over arms the object and gives the phase. -/
theorem witness_Collectives_issue : Runs (withTeam (barred1 0) (collGroup 7 0)) 1 ∧ barOperand (withTeam (barred1 0) (collGroup 7 0)) 1 0x40 true true = .object 1 0x40 ∧
    collStatus 0x40000 < (descOf base 1).s ∧ (∀ fn < 6, collTrap (withTeam (barred1 0) (collGroup 7 0)) 1 fn 0x40 0x40000 = none) ∧
    (collWaits 7).cur = .none ∧ saving (collWaits 7) 1 = false ∧ issued (group (collWaits 7) 1) = some (1, 0x40, 0x40000, src1 7, dst1 7) ∧
    laneIssued (group (collWaits 7) 1) = true ∧ collsBusy (collWaits 7) 1 < 4 ∧ isBarrier (team (collWaits 7) 1) 0x40 = true ∧
    (readBar (team (collWaits 7) 1) 0x40).arrive ≠ 0 ∧ (team (collWaits 7) 1).groups.Nodup ∧
    readBar (team (after (.collectiveHandover 1) (collWaits 7)) 1) 0x40 = ⟨0, 1, 72, 7⟩ ∧
    (sreg (after (.collectiveHandover 1) (collWaits 7)) 1 4 = 0x7000000000040 ∧ (group (after (.collectiveHandover 1) (collWaits 7)) 1).cnt.copies = 1 ∧
      (group (after (.collectiveHandover 1) (collWaits 7)) 1).spc = 0x10004 ∧ (collsOf (after (.collectiveHandover 1) (collWaits 7)) 1).length = 1) := by
  delta Runs; decide +kernel
/-- A step of a sum, of a maximum, one that meets a NaN, and one of a movement. -/
theorem witness_Collectives_step : coll (collState (coll1 1 7 0) 0) 3 = some (coll1 1 7 0) ∧ waiting (collState (coll1 1 7 0) 0) (.coll 3) = false ∧
    rankMissing (collState (coll1 1 7 0) 0) (coll1 1 7 0) = false ∧ rankList (coll1 1 7 0) = [(0, rank1 1 7 0)] ∧
    ranksLive (collState (coll1 1 7 0) 0) (coll1 1 7 0) = true ∧ 0 < collSteps (rank1 1 7 0) ∧
    (tget LA.zero ((coll (after (.collectiveStep 3) (collState (coll1 1 7 0) 0x3F800000)) 3).getD (coll1 0 0 0)).sums 15 = laAdd LA.zero (.fin false 1 0) 0) ∧
    ((coll (after (.collectiveStep 3) (collState (coll1 1 7 2) 0x3F800000)) 3).getD (coll1 0 0 0)).best.length = 16 ∧
    ((coll (after (.collectiveStep 3) (collState (coll1 1 7 0) 0x7FC00000)) 3).getD (coll1 0 0 0)).outcome = some 1 ∧
    tget 0 (team (after (.collectiveStep 3) (collState (coll1 3 7 0) 0x12345678)) 1).scratch 0x23D = 0x56 := by decide +kernel
/-- The two steps of an exchange of one rank: its block becomes a row of its receive queue, which the next step writes. -/
theorem witness_Collectives_queue : (let s := collState (coll1 4 7 0) 0x12345678
    let u := after (.collectiveStep 3) s
    let k := (coll u 3).getD (coll1 0 0 0)
    k.queue.length = 1 ∧ k.senders = [] ∧ coll u 3 = some k ∧ waiting u (.coll 3) = false ∧ rankMissing u k = false ∧ ranksLive u k = true ∧
      k.size ≤ (rankList k).length ∧ k.step < collSteps (rank1 4 7 0) ∧ isReduction 4 = false ∧ tget none k.ranks 0 = some (rank1 4 7 0) ∧
      k.queue.map (fun q => (q.dst, q.place, q.bytes.length)) = [(0, 0, 64)] ∧
      (probeRuns u (rankWho u 3 (rank1 4 7 0)) 1 (dst1 7) (descRuns (dst1 7) 0 64)).2 matches .ok _ ∧
      tget 0 (team (after (.collectiveStep 3) u) 1).scratch 0x23D = 0x56 ∧
      ((coll (after (.collectiveStep 3) u) 3).getD (coll1 0 0 0)).step = 1) := by decide +kernel
/-- The end of a halted one, and a cancellation before and after its writing begins. -/
theorem witness_Collectives_end : coll (collState { coll1 1 7 0 with outcome := some 1, low := 15 } 0) 3 = some { coll1 1 7 0 with outcome := some 1, low := 15 } ∧
    collScopeBad (withTeam (barred1 0) (collGroup 7 0)) 1 0x40 = false ∧
    scratchRead (team (after (.collectiveEnd 3) (collState { coll1 1 7 0 with outcome := some 1, low := 15 } 0)) 1) 0x80 8 = [1, 0, 0, 0, 15, 0, 0, 0] ∧
    (group (after (.collectiveEnd 3) (collState { coll1 1 7 0 with outcome := some 1, low := 15 } 0)) 1).cnt.copies = 0 ∧
    readBar (team (after (.collectiveEnd 3) (collState { coll1 1 7 0 with outcome := some 1, low := 15 } 0)) 1) 0x40 = ⟨1, 1, 0, 8⟩ ∧
    sreg (after (.cabort 4 5) (setGroup (collState (coll1 1 7 0) 0) 1 (sset [(5, 0x40)]))) 1 4 = 1 ∧
    sreg (after (.cabort 4 5) (setGroup (collState { coll1 1 7 0 with writing := true } 0) 1 (sset [(5, 0x40)]))) 1 4 = 0 := by decide +kernel

/-! Witnesses and single steps of the privileged families, translation, walks and exceptions. -/

/-- The group at a level. -/
def atLevel (n : BitVec 2) (l : List (Nat × Word)) : State := withGroup { sset l with level := n }
/-- Reads and writes of partition registers, at the manager's level and for another partition at level 1; a request for the launch 1 and for one that is not there; slot tables. -/
theorem witness_PrivilegedState : Runs (atLevel 1 [(5, 0xF050), (6, 0x50)]) 1 ∧ 1 ≤ (group (atLevel 1 []) 1).level.toNat ∧ regKnown 0x050 = true ∧
    mayName (atLevel 1 []) 1 15 = false ∧ mayName (atLevel 1 []) 1 0 = true ∧ mayName (atLevel 2 []) 1 15 = true ∧
    regRefusal (atLevel 2 []) 15 0x001 2 0xFF = none ∧ requested (atLevel 1 []) 1 1 = some 1 ∧ requested (atLevel 1 []) 1 0xFFFFFFFF = none ∧
    slotSelector 0x3F3F = some ([63], 63) ∧ slotSelector 0xC0000 = some (List.range 256, 0) ∧ (launch (atLevel 2 []) 1).request = none ∧
    sreg (after (.spget 4 5) (atLevel 2 [(5, 0xF001)])) 1 4 = 16 ∧ sreg (after (.spget 4 5) (atLevel 1 [(5, 0xF001)])) 1 4 = 0 ∧
    preg (after (.spset 5 6) (atLevel 2 [(5, 0xF001), (6, 0xFF)])) 15 1 = 0xFF ∧ sreg (after (.sgpl 4) (atLevel 1 [])) 1 4 = 1 ∧
    sreg (after (.spreq 4 5 6) (atLevel 2 [(5, 2), (6, 0x1000000)])) 1 4 = 2 ∧ (team (after (.spreq 4 5 6) (atLevel 2 [(5, 1), (6, 0x1000000)])) 1).pdead = 0x1000000 ∧
    sreg (after (.sslotr 4 5) (atLevel 2 [(5, 0x3F3F)])) 1 4 = 0x84210 ∧
    tget slotReset (core (after (.sslotw 5 6) (atLevel 2 [(5, 0x3F3F), (6, 0xFFFFF)])) 63).shadow 63 = 0xFFFFF ∧
    (core (after (.sslotx 5) (atLevel 2 [(5, 0x3F00)])) 63).copy = true ∧
    goes (exec (.sslotx 5) (withGroup { sset [(5, 0x3F00)] with level := 2, fly := { grp.fly with yielded := true } })) = true := by
  delta Runs; decide +kernel
/-- A wrap at index 0 and at index 1, and in a step with which no cycle begins. -/
theorem witness_SlotTableWrap : walkIndex base 0 = 0 ∧ walkIndex { base with dies := [(0, { Die.blank with cycles := 1 })] } 0 = 1 ∧
    (core (after (.slotTableWrap 0) { base with cores := [(0, { Core.blank with copy := true, shadow := [(0, 0)] })] }) 0).live = [(0, 0)] ∧
    (core (after (.slotTableWrap 0) { base with
      cores := [(0, { Core.blank with copy := true, shadow := [(0, 0)] })], dies := [(0, { Die.blank with edge := false })] }) 0).live = [] := by decide +kernel
/-- The trace setting of the own launch, whose bit the group has as the write retires. -/
theorem witness_PrivilegedState_trace : Runs (atLevel 1 [(5, 0x50), (6, 0x100000001)]) 1 ∧ (group (atLevel 1 []) 1).live = true ∧ regKnown 0x050 = true ∧
    regRefusal (atLevel 1 []) 0 0x050 1 0x100000001 = none ∧ launchNamed (atLevel 1 []) 0 1 = some 1 ∧
    (group (after (.spset 5 6) (atLevel 1 [(5, 0x50), (6, 0x100000001)])) 1).trace.bit = true ∧
    (group (after (.spset 5 6) (atLevel 1 [(5, 0x50), (6, 0x100000001)])) 1).trace.next = none := by delta Runs; decide +kernel
/-- A `pmap` of a page of chip 1 by a launch that spans it: asked for, answered, not delivered. -/
theorem witness_TranslationControl_other : (let u := { atLevel 1 [(5, 0x0100000000020000), (6, 0xE)] with
      work := { (atLevel 1 [(5, 0x0100000000020000), (6, 0xE)]).work with launches := [(1, { job with d := { job.d with mask := 3 } })] } }
    let v := fun (n : Nat) => { u with work := { u.work with faults := [(.scalar 1, 4, pageOf 0x0100000000020000, n)] } }
    u.cur = .group 1 ∧ ownerOf 0x0100000000020000 / 4 ≠ chipNo u ∧ addressFault (descOf u 1).mask 0x0100000000020000 1 = none ∧
      walkFault u (.scalar 1) 4 (pageOf 0x0100000000020000) = none ∧ (group (after (.pmap 4 5 6) u) 1).fly.waiting = some (.pmap 4 5 6) ∧
      walkFault (v (causeMapped + 3)) (.scalar 1) 4 (pageOf 0x0100000000020000) = some (causeMapped + 3) ∧ sreg (after (.pmap 4 5 6) (v (causeMapped + 3))) 1 4 = 3 ∧
      Faultable (v causeUndelivered) 1 ∧ ((group (after (.pmap 4 5 6) (v causeUndelivered)) 1).pend.stream.map (·.cls)) = some 5) := by
  delta Faultable; decide +kernel
/-- A request that stands already, and one for a launch with no team. -/
theorem witness_PrivilegedState_request :
    (let s := setTeam (setLaunch (atLevel 1 [(5, 1), (6, 7)]) 1 { job with request := some 9 }) 1 { crew with preq := true }
     (launch s 1).request = some 9 ∧ sreg (after (.spreq 4 5 6) s) 1 4 = 1 ∧ (launch (after (.spreq 4 5 6) s) 1).request = some 7) ∧
    (let s := setLaunch (atLevel 2 [(5, 2), (6, 7)]) 8 { job with d := { job.d with id := 2 }, part := 3, saved := [⟨0, [], true⟩] }
     requested s 1 2 = some 8 ∧ (s.work.teams.any fun e => e.2.live && e.2.launch == 8) = false ∧ sreg (after (.spreq 4 5 6) s) 1 4 = 0) := by decide +kernel
/-- A selector of no register, a bit above 15, another partition at level 1, the own one. -/
theorem witness_PartitionSelectors : Runs (atLevel 1 [(5, 0x51), (6, 0x10001), (7, 0xF000)]) 1 ∧ Faultable (atLevel 1 []) 1 ∧ bits (0x10001 : Word) 63 16 ≠ 0 ∧
    bits (0x51 : Word) 11 0 = 0x51 ∧ bits (0xF000 : Word) 15 12 ≠ partOf (atLevel 1 []) 1 ∧ bits (0x50 : Word) 15 12 = partOf (atLevel 1 []) 1 ∧
    (group (after (.spget 4 5) (atLevel 1 [(5, 0x51)])) 1).pend.stream.isSome = true ∧ (group (after (.spset 6 5) (atLevel 1 [(6, 0x10001)])) 1).pend.stream.isSome = true := by
  delta Runs Faultable; decide +kernel

/-- A package with page tables: root at 0x10000, tables at 0x20000 and 0x30000 for offset 0; a pool frame; a partition range; ways. -/
def paged (l : List (Nat × Word)) : State :=
  { atLevel 2 l with
    dies := [(0, { Die.blank with tlb := [placedLeaf], roots := [(0, 0x10001)], pools := [(0, [0x50000])], ways := [(8, some 0)] })]
    mem := mwrite (mwrite [] 0x10000 (leBytes 8 0x20001)) 0x20000 (leBytes 8 0x30001)
    regs := [(2, 16), (0x10, 0x0100)] }
/-- Roots, invalidation by page and by partition, the walker entry; a change of carve-out each way and its end; a first touch and a page that has one; frames given until one lies outside the range. -/
theorem witness_TranslationControl : Runs (paged []) 1 ∧ laneIssued (group (paged []) 1) = true ∧ (∀ w ∈ (paged []).work.walks, w.2.any (·.running) = false) ∧
    addressFault (descOf (paged []) 1).mask 0x10000 0x10000 = none ∧ (descOf (paged []) 1).mask.getLsbD 0 = true ∧
    leafAt (paged []) 0 0 0 0x20000 = some 0x30010 ∧ (physWord (paged []) 0 0x30010).getLsbD 0 = false ∧ leafAt (paged []) 0 0 1 0x20000 = none ∧
    (freeWays (die (paged []) 0)).length = 15 ∧ waysOf (die (paged []) 0) 0 = [8] ∧ (die (paged []) 0).carve = none ∧
    tget 0 (die (after (.tlbroot 5 6) (paged [(5, 0x80000), (6, 0x20001)])) 3).roots 0 = 0x20001 ∧
    (die (after (.tlbinv 5 6) (paged [(6, 0x10000)])) 0).tlb = [] ∧ (die (after (.tlbinv 5 6) (paged [(6, 0x20000)])) 0).tlb = [placedLeaf] ∧
    (die (after (.tlbinv 5 6) (paged [(5, 0x800000)])) 0).tlb = [] ∧
    (die (after (.wentry 5 6) (paged [(5, 0x1000010000), (6, 0x1000)])) 1).wentry = 0x1000 ∧
    sreg (after (.carve 4 5 3) (paged [(5, 2)])) 1 4 = 0x300 ∧ sreg (after (.carve 4 5 3) (paged [(5, 0)])) 1 4 = 0 ∧
    sreg (after (.carve 4 5 3) (paged [(5, 0x10001)])) 1 4 = 0x8000000000000001 ∧
    sreg (after (.pmap 4 5 6) (paged [(5, 0x20000), (6, 0xE)])) 1 4 = 0 ∧
    physWord (after (.pmap 4 5 6) (paged [(5, 0x20000), (6, 0xE)])) 0 0x30010 = 0x008000000005001F ∧
    sreg (after (.pgive 4 5 6) (paged [(5, 2), (6, 0x1FFF0000)])) 1 4 = 0x200000001 := by delta Runs; decide +kernel
/-- The end of a change of carve-out: a way added reads zero. -/
theorem witness_CarveDone :
    (let s := { base with dies := [(0, { Die.blank with carve := some ⟨[9], true, 0, 1, 3, 7⟩ })], mem := [(0x100009000005, 0x77)], work := { base.work with groups := [(1, raiseK grp 3 7)] } }
     (die s 0).carve = some ⟨[9], true, 0, 1, 3, 7⟩ ∧ mbyte (after (.carveDone 0) s).mem 0x100009000005 = 0 ∧ kcount (group (after (.carveDone 0) s) 1) 3 = 0) := by
  decide +kernel

/-- A walk for a store to page 2 of die 0, running at 0x1000 with registers, or waiting; the group waits for it. -/
def walking (l : Tab Word) (run : Bool) (cyc : Nat) : State :=
  { base with
    cur := .walk 5, dies := [(0, { Die.blank with wentry := 0x1000, wlen := 16, roots := [(0, 0x10001)], tlb := [placedLeaf] })], regs := [(0x10, 0x0100)]
    work := { base.work with walks := [(5, some ⟨0, 0x20000, 0, 0, 0, 2, run, l, 0x1000, cyc, 0x1000, 16, 0⟩)], waits := [⟨5, .scalar 1, 2, 0⟩] }, mem := [(0x50008, 7)] }
/-- A walk starts, reads, exchanges, fills, faults, computes, runs out of time. -/
theorem witness_Walks : WalkRuns (walking [(5, 0x50008), (6, 9)] true 0) 5 ⟨0, 0x20000, 0, 0, 0, 2, true, [(5, 0x50008), (6, 9)], 0x1000, 0, 0x1000, 16, 0⟩ ∧
    physOk (walking [] true 0) 0 0x50008 = true ∧ leafValid 0x018000000005001F 0 = true ∧ leafPermits 0x018000000005001F 2 = true ∧
    leafPermits 0x0180000000050013 2 = false ∧ frameOk (walking [] true 0) ⟨0, 0x20000, 0, 0, 0, 2, true, [], 0x1000, 0, 0x1000, 16, 0⟩ 0x018000000005001F 0 = true ∧
    frameOk (walking [] true 0) ⟨0, 0x20000, 0, 0, 0, 2, true, [], 0x1000, 0, 0x1000, 16, 0⟩ 0x018000002000001F 0 = false ∧
    oldestWalk (walking [] false 0) 0 = some 5 ∧ walksRunning (walking [] false 0) 0 = 0 ∧ 0 < 8 * coresPresent (walking [] false 0) 0 ∧
    (walk (after (.wldp 4 5) (walking [(5, 0x50008)] true 0)) 5).map (fun x => (tget 0 x.s 4, x.spc)) = some (7, 0x1004) ∧
    mbyte (after (.wcasp 4 5 6) (walking [(4, 7), (5, 0x50008), (6, 9)] true 0)).mem 0x50008 = 9 ∧
    (tlbFind (die (after (.tlbfill 5 0) (walking [(5, 0x018000000005001F)] true 0)) 0) 0 0 2).isSome = true ∧
    (after (.tlbfill 5 0) (walking [(5, 0x0180000000050013)] true 0)).work.faults = [(.scalar 1, 0, 2, 1)] ∧
    (after (.tlbfill 0 0) (walking [] true 0)).work.faults = [(.scalar 1, 0, 2, 0)] ∧
    (walk (after (.walkStart 5) (walking [] false 0)) 5).map (fun x => x.s) = some [(1, 0x20000), (2, 2), (3, 0x10001)] ∧
    (after (.walkLimitExpiry 5) (walking [] true 65536)).work.faults = [(.scalar 1, 0, 2, 5)] ∧
    (walk (after (.walkLimitExpiry 5) (walking [] true 65535)) 5).isSome = true ∧
    (walk (after (.sadd 0 5 5) (walking [(5, 3)] true 0)) 5).map (fun x => (x.s, x.spc)) = some ([(5, 3)], 0x1004) := by delta WalkRuns; decide +kernel
/-- The reset values enable no sink where a written register is none of `csctl`. -/
theorem noSinks_walking (l : Tab Word) (r : Bool) (c : Nat) : NoSinks (walking l r c) := by
  intro p d
  have hr : regReset p (0x044 + d) = 0 := by unfold regReset; repeat' (split <;> first | rfl | omega | skip)
  have : ¬ p * 4096 + (0x044 + d) = 0x10 := by omega
  simp [sinkOn, csctl, preg, walking, tget, hr, this]

/-- A level-0 group, and a level-1 group outside a handler, at a privileged form. -/
theorem witness_PrivilegeTraps : Runs (atLevel 0 []) 1 ∧ Faultable (atLevel 0 []) 1 ∧ (group (atLevel 0 []) 1).level = 0 ∧ Runs (atLevel 1 []) 1 ∧
    (group (atLevel 1 []) 1).level.toNat < 2 ∧ (group (after (.spget 4 5) (atLevel 0 [])) 1).pend.stream = some ⟨0, 3, 0, 0xFF, 0, 0⟩ ∧
    (group (after .eret (atLevel 1 [])) 1).pend.stream = some ⟨0, 3, 0, 0xFF, 0, 0⟩ := by delta Runs Faultable; decide +kernel
/-- The first and the last word of the three majors; at level 1 one decodes and one does not. -/
theorem witness_PrivilegedWords : 0x3C ≤ bits (0xF0000000 : BitVec 32) 31 26 ∧ bits (0xFBFFFFFF : BitVec 32) 31 26 ≤ 0x3E ∧ Faultable (atLevel 0 []) 1 ∧
    (group (atLevel 1 []) 1).level ≠ 0 ∧ decodeScalar 0xF0518000 = .ok (.spget 5 6) ∧ scalarHeld (atLevel 1 [(6, 1)]) 1 (.spget 5 6) = none ∧
    decodeScalar 0xFBFFFFFF = .error 0 ∧ (group (reached (runScalar (atLevel 0 []) 1 0xFBFFFFFF) base) 1).pend.stream.isSome = true ∧
    sreg (reached (runScalar (atLevel 1 [(6, 1)]) 1 0xF0518000) base) 1 5 = 16 := by delta Faultable; decide +kernel

/-- A handler's frame, of a group with lane 3 parked or none. -/
def frame (m : Mask) : Frame := ⟨0x2000, { grp.lane with lpc := 0x3000, park := { Park.none with fmask := m, lpc := 0x2F00, rep := 2 } }, 0, 8, List.replicate 8 5, List.replicate 4 zeroLanes, none, []⟩
/-- A group in its handler. -/
def handling (m : Mask) (l : List (Nat × Word)) : State := withGroup { sset l with handler := some (frame m) }
/-- A field read, the saved SPC written, a return to no parked lane and to one, a kill. -/
theorem witness_HandlerForms : Quiet (handling 8 []) 1 ∧ 1 ≤ (group (handling 8 []) 1).level.toNat ∧ (group (handling 8 []) 1).handler = some (frame 8) ∧
    laneIdle (group (handling 8 []) 1) = true ∧ (frame 8).s56.length = 8 ∧ (frame 8).v0.length = 4 ∧ (launch (handling 8 []) 1).fin = none ∧
    sreg (after (.efget 4 5) (handling 8 [(5, 3)])) 1 4 = 0x2F00 ∧ sreg (after (.efget 4 5) (handling 0 [(5, 3)])) 1 4 = 0x3000 ∧
    sreg (after (.efget 4 5) (handling 8 [(5, 9)])) 1 4 = 0 ∧
    (group (after (.efset 0 5) (handling 8 [(5, 0x4444)])) 1).handler.map (·.spc) = some 0x4444 ∧
    (group (after .eret (handling 8 [])) 1).lane.park.replaying = true ∧ (group (after .eret (handling 8 [])) 1).lane.lpc = 0x2F00 ∧
    (group (after .eret (handling 0 [])) 1).spc = 0x2000 ∧ (group (after .eret (handling 0 [])) 1).lane.lpc = 0x3000 ∧
    sreg (after .eret (handling 0 [])) 1 63 = 5 ∧ (launch (after (.ekill 5) (handling 8 [(5, 0xFFFF)])) 1).fin = some ⟨3, 0, 0xFFFF, 0, 0, 0⟩ := by
  delta Quiet Runs; decide +kernel

/-- A group with a record of class 6 of its own and lanes 0 and 5 parked with records of class 6 and 7; its partition's handler table at 0x10200. -/
def stopped (tab : Word) : State :=
  { withGroup { sset [(56, 1), (63, 2)] with
      level := 0, pend := ⟨some ⟨6, 0, 8, 0xFF, 0, 0x123⟩, none, [0]⟩
      lane := { grp.lane with stopped := true, park := { Park.none with fmask := 0x21, lpc := 0x2F00, recs := [(0, ⟨6, 0, 9, 0, 0, 0x1⟩), (5, ⟨7, 0, 9, 5, 0, 0x2⟩)] } } } with
    regs := [(4, tab)], mem := mwrite [] 0x10260 (leBytes 8 0x10400 ++ leBytes 8 0x10500) }
/-- The handler of class 6 is entered: s56 to s63, the level, the masks, the frame; with no table the launch ends. -/
theorem witness_TakingExceptions : atStop (group (stopped 0x10200) 1) = true ∧ hasRecords (stopped 0x10200) 1 = true ∧ saving (stopped 0x10200) 1 = false ∧
    (group (stopped 0x10200) 1).trace.bit = false ∧ (stopped 0x10200).work.faults = [] ∧ (stopped 0x10200).work.waits = [] ∧ chosenClass (stopped 0x10200) 1 = some 6 ∧
    handlerEntry (stopped 0x10200) 1 6 = (stopped 0x10200, .entry 0x10400 0x10500) ∧ handlerEntry (stopped 0) 1 6 = (stopped 0, .none) ∧
    (let y := group (after (.vector 1) (stopped 0x10200)) 1
     y.spc = 0x10400 ∧ y.lane.lpc = 0x10500 ∧ y.level = 1 ∧ y.lane.mask = 1 ∧ y.lane.stack = [] ∧ (y.handler.map fun f => (f.hmask, f.spc, f.lane.park.fmask, f.s56)) =
       some (1, 0x10000, 0x21, [1, 0, 0, 0, 0, 0, 0, 2]) ∧
     (List.range 8).map (fun i => sregOf y (56 + i)) = [0xFF080006, 0x123, 0x100000306, 0x10000, 0x10000, 0, groupSave (placedDesc 0) 0 0 + 0x4000, 0]) ∧
    (launch (after (.vector 1) (stopped 0)) 1).fin = some ⟨3, 0, 0x8106, 0, 0, 0⟩ := by decide +kernel

/-! Witnesses and single steps of the lane families. -/

/-- The fields of a lane word that names no predicate and repeats nothing. -/
def plain : LaneCtl := ⟨false, 0, 0, false, false, false, false⟩
/-- A group whose lane stream runs a record of nine instructions, with captured scalars and lane registers. -/
def laneGroup (cap : List (Nat × Word)) (v : List (Nat × (Nat → Nat))) : Group :=
  let x := v.foldl (fun x e => setVreg x e.1 ((List.range 128).map fun i => BitVec.ofNat 32 (e.2 i))) grp
  { x with lane := { x.lane with rq := [.run 9 ((List.range 15).map fun i => tget 0 cap (i + 1))] } }
/-- The state in which it runs. -/
def lanes (cap : List (Nat × Word)) (v : List (Nat × (Nat → Nat))) : State := withGroup (laneGroup cap v)
/-- Lane i of a register that an instruction leaves. -/
def laneOut (i : Instr) (s : State) (r k : Nat) : LWord := (vreg (group (after i s) 1) r).getD k 0
/-- The lane statements: a group runs a lane instruction whose registers lie below V and Q, the last ones among them. -/
theorem witness_LaneRuns : LaneRuns (lanes [] []) 1 ∧ Below (lanes [] []) 1 [0, 255] [0, 7] ∧ Unsampled (lanes [] []) 1 ∧
    (vreg (laneGroup [] [(1, fun i => i)]) 1).length = 128 ∧ (execLanes (laneGroup [] []) 0 false).length = 128 ∧
    (vreg (laneGroup [] []) 9).length = 128 ∧ (mreg (laneGroup [] []) 3).length = 128 ∧ (qreg (laneGroup [] []) 3).length = 128 := by
  delta LaneRuns Below Unsampled; decide +kernel
/-- Signed saturation at the top; a 64-bit sum whose carry passes to the high word; a multiply-add; a compare. -/
theorem witness_LaneIntegerResults :
    laneOut (.vadd ⟨plain, false, true, true, 3, 1, .imm 1⟩) (lanes [] [(1, fun _ => 0x7FFFFFFF)]) 3 127 = 0x7FFFFFFF ∧
    laneOut (.vadd ⟨plain, true, false, false, 4, 2, .imm 1⟩) (lanes [] [(2, fun _ => 0xFFFFFFFF)]) 5 0 = 1 ∧
    laneOut (.vdiv ⟨plain, false, true, false, 3, 1, .imm 0⟩) (lanes [] [(1, fun i => i)]) 3 1 = 0xFFFFFFFF ∧
    laneOut (.vclz ⟨plain, false, false, 3, 1⟩) (lanes [] [(1, fun i => i)]) 3 1 = 31 ∧
    laneOut (.vmad ⟨plain, false, false, 3, 1, .imm 3, 1⟩) (lanes [] [(1, fun i => i)]) 3 2 = 8 ∧
    (mreg (group (after (.vcmp ⟨plain, false, true, 2, 3, 1, .imm 0⟩) (lanes [] [(1, fun i => i + 0xFFFFFFFF)])) 1) 3).getD 0 0 = 15 := by decide +kernel
/-- Four bytes added with carries kept apart; a compare of halves; a dot product of bytes. -/
theorem witness_LanePackedResults :
    laneOut (.vaddPacked ⟨plain, .w8, false, false, 3, 1, .imm 1⟩) (lanes [] [(1, fun _ => 0x01FF02FF)]) 3 0 = 0x02000300 ∧
    (mreg (group (after (.vcmpEqPacked ⟨plain, .w16, false, 3, 1, .imm 5⟩) (lanes [] [(1, fun _ => 0x00050006)])) 1) 3).getD 0 0 = 0b1100 ∧
    laneOut (.vdot ⟨plain, .w8, true, true, false, 3, 1, .reg 2, 4⟩) (lanes [] [(1, fun _ => 0xFF020304), (2, fun _ => 0x01010101), (4, fun _ => 10)]) 3 0 = 18 := by decide +kernel
/-- A move, a selection by bytes, lane numbers; a conversion that clamps, a packed one, a reciprocal. -/
theorem witness_LaneMovesAndConversions :
    laneOut (.vmovN32 ⟨plain, false, 3, .scal 2⟩) (lanes [(2, 77)] []) 3 9 = 77 ∧
    laneOut (.vselN32 ⟨plain, false, 3, 1, .imm 0, 2⟩) (withGroup (setMreg (laneGroup [] [(1, fun _ => 0xFFFFFFFF)]) 2 (List.replicate 128 5))) 3 0 = 0x00FF00FF ∧
    laneOut (.vcoord ⟨plain, false, 3, 0⟩) (lanes [] []) 3 127 = 127 ∧ laneOut (.vcoord ⟨plain, false, 3, 0x11⟩) (lanes [] []) 3 127 = 0 ∧
    1 < (descOf (lanes [] []) 1).levels.length ∧ (levelAt (descOf (lanes [] []) 1) 1).bind ≠ 0 ∧
    laneOut (.vcvt ⟨plain, 1, 0xA, 0, 0, 0, true, 3, 1⟩) (lanes [] [(1, fun _ => 0x43960000)]) 3 0 = 0x7F ∧
    laneOut (.vfrcpe ⟨plain, 3, 1⟩) (lanes [] [(1, fun _ => 0x40000000)]) 3 0 = 0x3F000000 := by decide +kernel
/-- One and a half times two, rounded; a fused multiply-subtract; the least of a NaN and a number; a sign; a class; halves. -/
theorem witness_LaneFloatResults :
    laneOut (.vmulFp ⟨plain, false, 0, false, false, 3, 1, .imm 0x40000000⟩) (lanes [] [(1, fun _ => 0x3FC00000)]) 3 0 = 0x40400000 ∧
    laneOut (.vfms ⟨plain, false, 0, false, false, 3, 1, .reg 1, 1⟩) (lanes [] [(1, fun _ => 0x40000000)]) 3 0 = 0x40000000 ∧
    laneOut (.vsqrt ⟨plain, false, 0, false, false, 3, 1⟩) (lanes [] [(1, fun _ => 0x40800000)]) 3 0 = 0x40000000 ∧
    (mreg (group (after (.vcmpFp ⟨plain, false, 2, 3, 1, .imm 0⟩) (lanes [] [(1, fun _ => 0x7FC00000)])) 1) 3).getD 0 0 = 0 ∧
    laneOut (.vminFp ⟨plain, false, 3, 1, .imm 0x3F800000⟩) (lanes [] [(1, fun _ => 0x40000000)]) 3 0 = 0x3F800000 ∧
    laneOut (.vneg ⟨plain, false, 3, 1⟩) (lanes [] [(1, fun _ => 0)]) 3 0 = 0x80000000 ∧
    laneOut (.vaddF16 ⟨plain, false, 0, false, 3, 1, .reg 1⟩) (lanes [] [(1, fun _ => 0x3C004000)]) 3 0 = 0x40004400 ∧
    laneOut (.vdot2 ⟨plain, false, 0, false, 3, 1, .reg 1, 2⟩) (lanes [] [(1, fun _ => 0x3C004000)]) 3 0 = 0x40A00000 := by decide +kernel
/-- Predicates written and read; the mask stack full, empty and in use; a summary; the mask as a predicate. -/
theorem witness_MaskAndPredicates : LaneRuns (lanes [] []) 1 ∧ (group (lanes [] []) 1).trace.bit = false ∧ Faultable (lanes [] []) 1 ∧
    (group (lanes [] []) 1).lane.stack.length < Config.maskDepth ∧ (mreg (group (lanes [] []) 1) 3).length = 128 ∧
    (mreg (group (after (.vpset ⟨plain, 3, 9⟩) (lanes [] [])) 1) 3).getD 127 0 = 9 ∧ (mreg (group (after (.vpset ⟨plain, 0, 9⟩) (lanes [] [])) 1) 0).getD 127 0 = 15 ∧
    (mreg (group (after (.vpnz ⟨plain, 3, 1⟩) (lanes [] [(1, fun _ => 0x01000200)])) 1) 3).getD 0 0 = 0b1010 ∧
    (group (after (.mpush ⟨true, 3⟩) (lanes [] [])) 1).lane.stack.length = 1 ∧ (group (after (.mpush ⟨false, 3⟩) (lanes [] [])) 1).lane.mask = 0 ∧
    (group (after .mpop (lanes [] [])) 1).pend.stream = some ⟨1, 1, 1, 0xFF, 0, 0x10000⟩ ∧
    (let s := modGroup (lanes [] []) 1 fun x => { x with lane := { x.lane with stack := List.replicate Config.maskDepth 7 } }
     Config.maskDepth ≤ (group s 1).lane.stack.length ∧ (group (after (.mpush ⟨false, 3⟩) s) 1).pend.stream = some ⟨1, 0, 1, 0xFF, 0, 0x10000⟩ ∧
     (group (after .mpop s) 1).lane.mask = 7 ∧ (group (after .melse { s with cur := .group 1 }) 1).lane.mask = 0) ∧
    sreg (after (.vtest ⟨false, 3, 2⟩) (lanes [] [])) 1 42 = 0 ∧ sreg (after (.vtest ⟨false, 0, 2⟩) (lanes [] [])) 1 42 = 0x8000000003 ∧
    (mreg (group (after (.vmaskm ⟨plain, 3⟩) (lanes [] [])) 1) 3).getD 5 0 = 15 := by delta LaneRuns Faultable; decide +kernel
/-- Lanes moved up by one in sub-groups of two; a broadcast and one out of range; a sum; an exclusive scan; a ballot; a match. -/
theorem witness_CrossLaneResults :
    laneOut (.vshflUp ⟨plain, false, some 1, some 2, 3, 1, .imm 1⟩) (lanes [] [(1, fun i => i)]) 3 5 = 4 ∧
    (mreg (group (after (.vshflUp ⟨plain, false, some 1, some 2, 3, 1, .imm 1⟩) (lanes [] [(1, fun i => i)])) 1) 2).getD 4 0 = 15 ∧
    laneOut (.vbcast ⟨plain, false, some 2, 3, 1, .imm 3⟩) (lanes [] [(1, fun i => i)]) 3 125 = 127 ∧
    (group (after (.vbcast ⟨plain, false, some 2, 3, 1, .imm 4⟩) (lanes [] [])) 1).pend.stream = some ⟨0, 5, 1, 0xFF, 0, 0⟩ ∧ Faultable (lanes [] []) 1 ∧
    laneOut (.vscan ⟨plain, 0, false, true, some 2, 3, 1⟩) (lanes [] [(1, fun i => i)]) 3 7 = 15 ∧
    laneOut (.vballot ⟨plain, true, some 2, false, .lanes 3, 2⟩) (lanes [] []) 3 9 = 15 ∧
    laneOut (.vmatch ⟨plain, false, false, false, some 2, 3, 1⟩) (lanes [] [(1, fun i => i % 2)]) 3 5 = 0b1010 := by delta Faultable; decide +kernel
/-- The sum of lanes 0 to 127 is 8128, in every lane. -/
theorem witness_ReductionSums : LaneRuns (lanes [] []) 1 ∧ Below (lanes [] []) 1 [3, 1] [] ∧
    laneOut (.vlred ⟨plain, 0, false, none, .lanes 3, 1⟩) (lanes [] [(1, fun i => i)]) 3 77 = 8128 := by delta LaneRuns Below; decide +kernel

/-- A group of two executing lanes. -/
def pairLanes (cap : List (Nat × Word)) (v : List (Nat × (Nat → Nat))) : State :=
  let x := laneGroup cap v
  { withTeam { stocked with scratch := (4, 0x99) :: stocked.scratch } { x with lane := { x.lane with mask := 3 } } with mem := [(0x10004, 0x85), (0x1FFF8, 0x11)] }
/-- Memory controls: virtual memory, and the scratchpad. -/
def mem0 : MemCtl := ⟨false, false, false, false, 0⟩
/-- The scratchpad. -/
def mem1 : MemCtl := ⟨true, false, false, false, 0⟩
/-- Loads of signed bytes, of 4-bit elements, of 16 bytes and indexed, at the ends of the page and of the scratchpad; a prefetch of a line. -/
theorem witness_LaneLoads : LaneMemRuns (pairLanes [(2, 0x10004)] []) 1 mem0 0x10004 ∧ (∀ k < 2, LaneMemReady (pairLanes [] []) 1 1 (0x1FFF8 + BitVec.ofNat 64 (4 * k)) 4 placedLeaf) := by
  delta LaneMemRuns LaneRuns Unsampled LaneMemReady Reached; decide +kernel
/-- The same in the scratchpad. -/
theorem witness_LaneLoads_scratch : LaneMemRuns (pairLanes [(2, 65528)] []) 1 mem1 65528 ∧ executes (laneGroup [] []) plain 127 = true ∧
    (∀ k < 2, LaneScratchReady (pairLanes [] []) 1 (65528 + BitVec.ofNat 64 (4 * k)) 4) := by
  delta LaneMemRuns LaneRuns Unsampled LaneScratchReady; decide +kernel
/-- What they leave. -/
theorem test_lane_loads :
    laneOut (.vld ⟨plain, 3, mem0, 3, 2, 0⟩) (pairLanes [(2, 0x10004)] []) 3 0 = 0xFFFFFF85 ∧
    laneOut (.vld ⟨plain, 0, mem0, 3, 2, 0⟩) (pairLanes [(2, 0x10004)] []) 3 1 = 8 ∧
    laneOut (.vld ⟨plain, 6, mem1, 3, 2, 0⟩) (pairLanes [(2, 65528)] []) 3 1 = 0xFF000000 ∧
    laneOut (.vldq ⟨plain, 6, mem0, 4, 2, 0⟩) (pairLanes [(2, 0x10000)] []) 5 0 = 0x85 ∧
    laneOut (.vldx ⟨plain, 6, mem1, false, 2, 3, 1, 2⟩) (pairLanes [(2, 0)] [(1, fun i => i)]) 3 1 = 0x99 ∧
    (core (after (.vpref ⟨plain, true, 2, 0⟩) (pairLanes [(2, 0x10004)] [])) 0).ro.contains (1, 0x200) = true ∧
    (core (after (.vprefx ⟨plain, true, false, 0, 1, 2⟩) (pairLanes [(2, 0x10000)] [(1, fun i => 128 * i)])) 0).ro.contains (1, 0x201) = true := by decide +kernel
/-- Stores where two lanes meet: the higher writes; nibbles; an atomic addition of two lanes at one place; a slot update. -/
theorem witness_LaneStores : LaneMemRuns (pairLanes [(2, 0x1FFF8)] []) 1 mem0 0x1FFF8 ∧ (∀ k < 2, LaneMemReady (pairLanes [] []) 1 2 (0x1FFF8 + BitVec.ofNat 64 (4 * k)) 4 placedLeaf) ∧
    LaneMemReady (pairLanes [] []) 1 3 0x1FF80 128 placedLeaf ∧ (∀ k < 2, LaneScratchReady (pairLanes [] []) 1 (65408 + BitVec.ofNat 64 (0 * k)) 128) ∧ Untagged stocked 65408 128 := by
  delta LaneMemRuns LaneRuns Unsampled LaneMemReady LaneScratchReady Untagged Reached; decide +kernel
/-- What they leave. -/
theorem test_lane_stores :
    mread (after (.vst ⟨plain, 3, mem0, 1, 2, 0⟩) (pairLanes [(2, 0x1FFF8)] [(1, fun i => 0xA0 + i)])).mem 0x1FFF8 8 = [0xA0, 0, 0, 0, 0xA1, 0, 0, 0] ∧
    mread (after (.vst ⟨plain, 0, mem0, 1, 2, 0⟩) (pairLanes [(2, 0x10004)] [(1, fun i => 6 + i)])).mem 0x10004 1 = [0x76] ∧
    mread (after (.vstq ⟨plain, 0, mem0, 4, 2, 0⟩) (pairLanes [(2, 0x10100)] [(5, fun i => 6 + i)])).mem 0x10114 1 = [7] ∧
    mread (after (.vstx ⟨plain, 3, mem0, false, 0, 1, 3, 2⟩) (pairLanes [(2, 0x10004)] [(1, fun i => 6 + i)])).mem 0x10004 4 = [7, 0, 0, 0] ∧
    mread (after (.vamo ⟨plain, 1, false, mem0, false, false, 0, 5, 3, 2, 1⟩) (pairLanes [(2, 0x10004)] [(1, fun i => 6 + i)])).mem 0x10004 4 = [0x92, 0, 0, 0] ∧
    laneOut (.vamo ⟨plain, 1, false, mem0, false, false, 0, 5, 3, 2, 1⟩) (pairLanes [(2, 0x10004)] [(1, fun i => 6 + i)]) 5 1 = 0x8B ∧
    laValue (laOfBytes (scratchRead (team (after (.vqatomAdd ⟨plain, 3, mem1, false, 0, 3, 2, 1⟩) (pairLanes [(2, 1024)] [(1, fun _ => 2)])) 1) 1024 128)) = 4 * 2 ^ 320 ∧
    laValue (laOfBytes (scratchRead (team (after (.vqatomMerge ⟨plain, 3, mem1, false, 0, 3, 2, 1⟩) (pairLanes [(2, 1024)] [])) 1) 1024 128)) = 0 := by decide +kernel
/-- Lane 1 lies past S: it is parked with a bounds record, lane 0 loads. -/
theorem witness_LanesPark : LaneMemRuns (pairLanes [(2, 65532)] []) 1 mem1 65532 ∧ (group (pairLanes [(2, 65532)] []) 1).handler = none ∧
    executes (group (pairLanes [(2, 65532)] []) 1) plain 1 = true ∧ (descOf (pairLanes [] []) 1).s < 65532 + 4 * 1 + 4 ∧
    (let z := group (after (.vld ⟨plain, 6, mem1, 3, 2, 0⟩) (pairLanes [(2, 65532)] [])) 1
     z.lane.park.fmask = 2 ∧ (tget ⟨0, 0, 0, 0, 0, 0⟩ z.lane.park.recs 1).cls = 7 ∧ (vreg z 3).getD 0 0 = 0xFF000000 ∧ z.lane.lpc = 0x1000C) := by
  delta LaneMemRuns LaneRuns Unsampled; decide +kernel
/-- A contribution, a merge, a normal form, a sum of lanes, a rounded value, a status, a segment; a slot spilled and filled. -/
theorem witness_LongAccumulatorResults :
    (let s := after (.qadd ⟨plain, 3, 2, 1⟩) (pairLanes [(2, 1024)] [(1, fun i => i + 1)])
     (qreg (group s 1) 2).map laValue = [2 ^ 320, 2 ^ 321] ++ List.replicate 126 0 ∧
     LaneMemRuns s 1 ⟨true, false, false, false, 0⟩ 1024 ∧ (∀ k < 2, ((qreg (group s 1) 2).getD k LA.zero).d.length = 10 ∧ ((qreg (group s 1) 2).getD k LA.zero).c.length = 10) ∧
     laValue ((qreg (group (after (.qred ⟨plain, some 1, 3, 2⟩) { s with cur := .group 1 }) 1) 3).getD 1 LA.zero) = 3 * 2 ^ 320 ∧
     laneOut (.qrnd ⟨plain, 0xA, 0, 0, false, 3, 2⟩) s 3 1 = 0x40000000 ∧ laneOut (.qseg ⟨plain, 4, 2, 5⟩) s 4 1 = 2 ∧ laneOut (.qstat ⟨plain, 4, 2⟩) s 5 1 = 0xFFFFFFFF ∧
     scratchRead (team (after (.qspill ⟨plain, true, false, 2, 2, 0⟩) s) 1) (1024 + 128 + 40) 8 = [2, 0, 0, 0, 0, 0, 0, 0] ∧
     laValue ((qreg (group (after (.qfill ⟨plain, true, false, 3, 2, 0⟩) (after (.qspill ⟨plain, true, false, 2, 2, 0⟩) s)) 1) 3).getD 1 LA.zero) = 2 ^ 321) := by
  delta LaneMemRuns LaneRuns Unsampled; decide +kernel
/-- A line that no TLB entry serves is asked for, one that has come is not. -/
theorem witness_LanePrefetches : (let s := pairLanes [(2, 0x1FFC0)] []
    LaneRuns s 1 ∧ Unsampled s 1 ∧ tlbFind (die s 0) 0 (descOf s 1).asn (pageOf 0x1FF80) = some placedLeaf ∧ leafPermits placedLeaf.leaf 1 = true ∧
      (die s 0).carve = none ∧ addressFault (descOf s 1).mask 0x1FF80 1 = none ∧ s.work.faults = [] ∧
      (1, 0x3FF) ∈ (core (after (.vpref ⟨plain, true, 2, 0⟩) s) 0).ro ∧ (core (after (.vpref ⟨plain, true, 2, 0⟩) s) 0).want = []) ∧
    (let s := pairLanes [(2, 0x30000)] []
     tlbFind (die s 0) 0 (descOf s 1).asn (pageOf 0x30000) = none ∧ addressFault (descOf s 1).mask 0x30000 1 = none ∧
       (1, 0x30000, false) ∈ (core (after (.vpref ⟨plain, false, 2, 0⟩) s) 0).want ∧ waiting (after (.vpref ⟨plain, false, 2, 0⟩) s) (.pref 0 1 0x30000) = true) := by
  delta LaneRuns Unsampled; decide +kernel
/-- The formats: the greatest value of E4M3, a flushed subnormal, a QN4 code; a rounding to even and an overflow; an integer at its limits. -/
theorem witness_NumberFormats : decodeF e4m3 0x7E = .fin false 14 5 ∧ decodeF e4m3 0x7F = .nan ∧ decodeF f16 0x7C00 = .inf false ∧ flushIn true 0x807FFFFF = 0x80000000 ∧
    qn4Expand 15 128 0x3F800000 = 0x3F80 ∧ roundInt 0 false 5 (-1) = 2 ∧ roundInt 2 true 1 (-1) = 0 ∧ roundTo f16 0 false (.fin false 65520 0) = 0x7C00 ∧
    roundTo f16 1 false (.fin false 65520 0) = 0x7BFF ∧ roundC (.int 8 true) 0 true (.fin true 1000 0) = 0x80 ∧ readInt 8 true 0x80 = -128 := by decide +kernel
/-- Finite values of either sign and with zeros, and what the arithmetic makes of them; a seed between its neighbours. -/
theorem witness_ExactArithmetic : mulF (.fin true 3 1) (.fin false 5 (-2)) = .fin true 15 (-1) ∧ addF 3 (.fin true 0 0) (.fin false 0 0) = .fin true 0 0 ∧
    divF (.fin false 0 0) (.fin true 0 0) = .nan ∧ sqrtF (.fin true 1 0) = .nan ∧ decodeF f32 0x40400000 = .fin false 12582912 (-22) ∧
    sfRecip 0x40400000 = 0x3EAAA800 ∧ sfExp2 0x43000000 = 0x7F800000 ∧ sfLog2 0x3E000000 = 0xC0400000 ∧ sfSinPi 0x3FC00000 = 0xBF800000 ∧
    sfCosPi 0x3FC00000 = 0 := by decide +kernel
/-- Instructions of the shapes of the lane frames complete in a state whose registers lie below V and Q. -/
theorem witness_LaneRegisterFrames : (let s := lanes [] []
    LaneRuns s 1 ∧ Below s 1 [255, 0, 1, 254] [7, 0] ∧ (laneCoordinate s 1 0x13 0).isSome = false ∧ (laneCoordinate s 1 0 0).isSome = true ∧ 127 < subWidth none ∧
    ∀ i ∈ [Instr.vadd ⟨plain, false, true, true, 255, 0, .reg 1⟩, .vmad ⟨plain, true, true, 254, 0, .reg 0, 0⟩, .vcmp ⟨plain, false, true, 5, 7, 255, .imm 9⟩,
      .vmulPacked ⟨plain, .w8, false, false, 255, 0, .reg 1⟩, .vmovN64 ⟨plain, true, 254, .imm 1⟩, .vcoord ⟨plain, false, 255, 0⟩,
      .vdivFp ⟨plain, false, 3, false, false, 255, 0, .reg 1⟩, .vaddF16 ⟨plain, false, 0, false, 255, 0, .reg 1⟩, .vcvt ⟨plain, 9, 9, 0, 0, 0, true, 254, 0⟩,
      .vfrsqe ⟨plain, 255, 0⟩, .vpandn ⟨plain, 7, 1, 2⟩, .vtest ⟨false, 3, 7⟩, .vshflUp ⟨plain, true, some 1, some 7, 254, 0, .imm 1⟩,
      .vlred ⟨plain, 0, false, none, .scalar 7, 255⟩, .vbcast ⟨plain, false, none, 255, 0, .imm 127⟩, .vballot ⟨plain, false, none, true, .scalar 0, 7⟩,
      .qmerge ⟨plain, 7, 0⟩, .qrnd ⟨plain, 9, 0, 0, true, 254, 7⟩], goes (exec i s) = true ∧ (group (after i s) 1).pend.stream = none) := by
  delta LaneRuns Below; decide +kernel

/-! Witnesses and single steps of the long accumulators' values and of the tile instructions. -/

/-- The hypotheses on accumulators and contributions, at both ends of the grid; a sum that wraps; a merge; a contribution below the grid that makes the sum inexact. -/
theorem witness_LongAccumulatorValues : LA.zero.d.length = 10 ∧ LA.zero.c.length = 10 ∧ (∀ e ∈ LA.zero.c, -128 ≤ e ∧ e ≤ 127) ∧ (1 : Nat) ≠ 0 ∧
    (-320 : Int) ≤ -320 ∧ (Nat.log2 1 : Int) + 318 < 319 ∧ laValue (laAdd LA.zero (.fin false 1 (-320)) 0) = 1 ∧
    laValue (laAdd LA.zero (.fin true 1 (-320)) 0) = 2 ^ 640 - 1 ∧ laValue (laAdd LA.zero (.fin false 1 318) 0) = 2 ^ 638 := by decide +kernel
/-- A merge of 1 and -1 is zero; two contributions in either order. -/
theorem witness_LongAccumulatorMerge : laValue (laMerge (laAdd LA.zero (.fin false 1 0) 0) (laAdd LA.zero (.fin true 1 0) 0)) = 0 ∧
    (laAdd LA.zero (.fin false 1 0) 0).d.length = 10 ∧ (laAdd LA.zero (.fin false 1 0) 0).c.length = 10 := by decide +kernel
/-- Contributions in two orders. -/
theorem witness_LongAccumulatorOrder : List.Perm [(FVal.fin false 1 0, 0), (FVal.nan, 3)] [(FVal.nan, 3), (FVal.fin false 1 0, 0)] ∧
    laValue (laAdd LA.zero (.fin false 3 (-2)) 1) = laValue (laNorm (laAdd LA.zero (.fin false 3 (-2)) 1)) := ⟨List.Perm.swap _ _ _, by decide +kernel⟩

/-- A tile descriptor by its fields: format, space, rows, columns, stride in bytes, base address (R58). -/
def td (fmt space rows cols stride base : Nat) : TileDesc :=
  BitVec.ofNat 128 (fmt * 2 ^ 92 + space * 2 ^ 90 + (rows - 1) * 2 ^ 80 + (cols - 1) * 2 ^ 70 + stride / 16 * 2 ^ 58 + if space = 1 then base else base / 16)
/-- The ordering fields of a tile instruction that names no counter. -/
def loose : TileCtl := ⟨none, false, false, 0⟩
/-- Tile 2 of the accumulator store. -/
def tileC : TileDesc := td 0xD 1 32 32 0 2
/-- A tile of BF16 elements of K 64 at scratchpad address 0. -/
def tileA : TileDesc := td 9 0 32 64 128 0
/-- A tile of 1,024 FP32 values at scratchpad address 0x2000, and one of sums at 0x3000. -/
def tileF : TileDesc := td 7 0 32 32 128 0x2000
/-- Row and column sums. -/
def tileS : TileDesc := td 7 0 2 32 128 0x3000
/-- The words of a reservation: BF16, K 64, 4,096 bytes from 0. -/
def reserve : Word × Word := (BitVec.ofNat 64 (4096 * 2 ^ 18 + 9 * 2 ^ 37 + 64 * 2 ^ 41), 0)
/-- A team with a few elements of A, of B and of accumulator tile 2. -/
def loaded2 : Team :=
  { crew with
    scratch := [(0, 0x80), (1, 0x3F), (4094, 0x00), (4095, 0x40), (0x2003, 0x3F), (0x2FFF, 0xC0)], recs := [(3, reserve)]
    obuf := [(0, 0x40), (1, 0x40), (4094, 0x80), (4095, 0xBF)], acc := [(2048, laAdd LA.zero (.fin false 1 3) 0), (3071, laAdd LA.zero (.fin true 1 (-1)) 0)] }
/-- A package whose group has tile registers t1 C, t2 A, t3 FP32 values, t4 sums, t5 a row of factors, t6 operand-buffer bytes, t7 accumulator records in memory. -/
def tiles (cap : List (Nat × Word)) (op : Option TileOp) : State :=
  let y := laneGroup cap []
  let x := { y with r := { y.r with t := [(1, tileC), (2, tileA), (3, tileF), (4, tileS), (5, td 7 0 1 32 128 0x2000), (6, td 9 2 32 64 128 0), (7, td 0xD 3 32 32 0x1000 0x10000000)] } }
  let s := withTeam loaded2 { x with fly := { x.fly with tile := op } }
  { s with cores := [(0, { Core.blank with queue := if op.any (fun o => o.phase == .waiting) then [] else [1] })] }
/-- A tile instruction that stands in a phase, with the tile registers and scalars that it captured. -/
def opIn (p : TilePhase) (i : TileIns) (tc ta ts : TileDesc) (a b : Word) (swaps : List (Nat × List LA)) : TileOp :=
  ⟨i, tc, ta, ts, a, b, p, p != .waiting, 0, 0, swaps, none, none⟩
/-- Of the tile registers t1 and t2, with a third operand. -/
def mulOf (x : BitVec 4) : MulArgs := ⟨loose, 0xC, 0xC, 1, 2, x, 3, 0, 0⟩
/-- A move between two tile registers. -/
def moveOf (d a : TReg) (add n : Bool) : MoveArgs := ⟨loose, d, a, add, n⟩
/-- A package whose group has issued no tile instruction, with captured scalars. -/
def tiles0 : State := tiles [(1, 0xFFFFFFFF), (2, reserve.1)] none
/-- Every tile instruction at its issue: its roles hold; `tconv`'s at a shape; a pair for `tres`; a mask that is not the start mask. -/
theorem witness_TileIssues : LaneRuns tiles0 1 ∧ (group tiles0 1).fly.tile = none ∧ (group tiles0 1).lane.mask = (group tiles0 1).lane.start ∧
    (∀ i ∈ [TileIns.tmma (mulOf 0), .tcsum (mulOf 4), .tasum (moveOf 4 1 false false), .tload (moveOf 1 3 true false), .tload (moveOf 1 7 true false),
        .tstore (moveOf 7 1 false true), .tstage (moveOf 6 2 false false), .tzero (moveOf 1 0 false false), .tepi ⟨loose, 3, 1, 5, 2, true, false, true, 3⟩],
      rolesOk (descOf tiles0 1) (treg (group tiles0 1)) i = true) ∧
    rolesOk (descOf tiles0 1) (fun r => if r = 2 then td 9 0 32 64 0 0 + 0x1002000000000000000000000000 else treg (group tiles0 1) r) (.tconv (mulOf 1)) = true ∧
    scopeBad tiles0 1 0 = false ∧ (captured (group tiles0 1) 1).toNat < 2 ^ 32 ∧ resTrap (captured (group tiles0 1) 2) (captured (group tiles0 1) 0) = none ∧
    (let s := withGroup { laneGroup [] [] with lane := { (laneGroup [] []).lane with mask := 1 } }
     LaneRuns s 1 ∧ (group s 1).lane.mask ≠ (group s 1).lane.start ∧ Faultable s 1) := by delta LaneRuns Faultable; decide +kernel
/-- A scope that is no level, with the start mask and with another; a `tconv` keeps the shape record of its handle. -/
theorem witness_TileIssues_traps : (let v : MoveArgs := { moveOf 1 0 false false with c := ⟨none, true, false, 9⟩ }
    let s := withGroup { laneGroup [] [] with lane := { (laneGroup [] []).lane with mask := 1 } }
    LaneRuns s 1 ∧ frameTile (group s 1) = none ∧ Faultable s 1 ∧ scopeBad s 1 9 = true ∧
      (group (after (.tzero v) s) 1).pend.stream = some ⟨0, 4, 2, 0xFF, 0, 0⟩ ∧ (group (after (.tzero v) tiles0) 1).pend.stream = some ⟨0, 4, 2, 0xFF, 0, 0⟩ ∧
      (group (after (.trel 3) s) 1).pend.stream = some ⟨3, 0, 2, 0xFF, 0, 0x10000⟩) ∧
    (let ta := td 9 0 32 64 0 0 + 0x1002000000000000000000000000
     let s := { modGroup tiles0 1 (fun x => { x with r := { x.r with t := tput 0 x.r.t 2 ta } }) with shapes := [(1, ⟨true, 2, List.replicate 64 9⟩)] }
     LaneRuns s 1 ∧ (captured (group s 1) 0).toNat < 2 ^ 32 ∧ scopeBad s 1 0 = false ∧
       ((tileOf (group (after (.tconv (mulOf 1)) s) 1)).bind (·.shape)) = some (List.replicate 64 9)) := by delta LaneRuns Faultable; decide +kernel
/-- A `tzero` that waits for entry, and the state that its entry leaves. -/
theorem witness_TileQueueEntries : (let t := opIn .waiting (.tzero (moveOf 1 0 false false)) tileC 0 0 0 0 []
    let s := tiles [] (some t)
    t.raised = false ∧ entryChoice s (coreOf s 1) = some 1 ∧ (core (after (.tileQueueEntry 1) s) 0).queue = [1] ∧
      (group (after (.tileQueueEntry 1) s) 1).cnt.tiles = 1) := by decide +kernel
/-- The state at the turn of a tile instruction. -/
def turnOf (i : TileIns) (tc ta ts : TileDesc) : State :=
  { tiles [] (some (opIn .queued i tc ta ts 3 0 [])) with
    mem := [(0x10000, 1), (0x20FFF, 2)]
    dies := [(0, { Die.blank with tlb := [placedLeaf, ⟨0, 0, 0x1000, placedLeaf.leaf, 0⟩, ⟨0, 0, 0x1001, 0x010000000002001F, 0⟩] })] }
/-- Whether it is a turn that meets nothing under way. -/
def isReady (s : State) : Bool := isTurn s 1 && !waiting s (.tile 1) && s.work.faults.isEmpty
/-- How many elements a read of a tile gives, the state being as it was. -/
def readsAll (s : State) (d : TileDesc) : Option Nat :=
  match tileRead s 1 d with
  | (u, .inl bs) => if u = s then some (elemsOf (fmtBits (tdFmt d)) bs).length else none
  | _ => none
/-- Whether bytes can be written to a tile, the group and the live slots being as they were. -/
def writesAll (s : State) (d : TileDesc) (n : Nat) : Bool :=
  match tileWrite s 1 d (List.replicate n 7) with
  | (u, .inl none) => group u 1 = group s 1 && (team u 1).acc = (team s 1).acc
  | _ => false
/-- The turns of a multiply: A's 2,048 elements, the operand's record, clean slots. -/
theorem witness_TileTurns_multiply : (let s := turnOf (.tcsum (mulOf 4)) tileC tileA tileS
    isReady s = true ∧ readsAll s tileA = some 2048 ∧ writesAll s tileS 256 = true ∧ tilePoisoned (team s 1) (tdBase tileC) = false ∧
      tget (0, 0) (team s 1).recs 3 ≠ (0, 0) ∧ bSuits 0xC (bRec reserve).fmt = true ∧ (tileClass 0xC).1 = 64 ∧
      bLimit (bRec reserve) 0 64 (31 * (bRec reserve).klen + 63) = none) ∧ isReady (turnOf (.tmma (mulOf 0)) tileC tileA 0) = true := by decide +kernel
/-- A tensor of 2 channels and 4 by 4 places with a window of 3 by 3, padded by one place of 1.0. -/
def conv : List Byte :=
  leBytes 4 2 ++ leBytes 4 4 ++ leBytes 4 4 ++ List.replicate 12 0 ++ leBytes 4 1 ++ leBytes 4 2 ++ leBytes 4 8 ++ List.replicate 12 0 ++
  [3, 9, 1, 0] ++ leBytes 4 0x3F80 ++ [3, 3, 1, 1, 1, 1, 1, 1]
/-- The turn of a `tconv`: its shape, its window, the first places of A, all of them below S. -/
theorem witness_TileTurns_tconv : (let ta := td 9 0 32 64 0 0 + 0x1002000000000000000000000000
    let s := modGroup (turnOf (.tconv (mulOf 1)) tileC ta 0) 1 fun x =>
      { x with fly := { x.fly with tile := x.fly.tile.map fun o => { o with shape := some conv } } }
    isReady s = true ∧ ((tileOf (group s 1)).bind (·.shape)) = some conv ∧ shapeOk conv = true ∧ shConv conv = true ∧ shRank conv = 3 ∧
      shFmt conv = tdFmt ta ∧ convEmpty conv = false ∧ (team s 1).poison = [] ∧ fmtBits (tdFmt ta) = 16 ∧
      (∀ i < 32, ∀ k < 64, ∀ n ∈ convElem conv (3 + i) k, tdAddr ta + (n * 16 + 16 - 1) / 8 < (descOf s 1).s) ∧
      convElem conv 5 0 = some 0 ∧ convElem conv 3 0 = none ∧ convInside conv 3 0 = true ∧ convInside conv 3 18 = false) := by decide +kernel
/-- The turns that move tiles: values and sums in the scratchpad, a row of factors, 4-bit results, bytes of the operand buffer. -/
theorem witness_TileTurns_moves : isReady (turnOf (.tload (moveOf 1 3 true false)) tileC tileF 0) = true ∧
    readsAll (turnOf (.tload (moveOf 1 3 true false)) tileC tileF 0) tileF = some 1024 ∧ fmtType (tdFmt tileF) true = some (.flt f32) ∧
    isReady (turnOf (.tasum (moveOf 4 1 false false)) tileS tileC 0) = true ∧ writesAll (turnOf (.tasum (moveOf 4 1 false false)) tileS tileC 0) tileS 256 = true ∧
    (let row := td 7 0 1 32 128 0x2000
     let out := td 1 0 32 32 16 0x3000
     let e := turnOf (.tepi ⟨loose, 3, 1, 5, 2, true, true, true, 3⟩) out tileC row
     isReady e = true ∧ readsAll e row = some 32 ∧ fmtType (tdFmt out) false = some (ctypeOf 0xF) ∧ writesAll e out 512 = true) ∧
    (let piece := td 9 0 1 8 128 0xFFF0
     let o := td 9 2 1 8 128 0xFF0
     let e := turnOf (.tstage (moveOf 6 2 false false)) o piece 0
     isReady e = true ∧ readsAll e piece = some 8 ∧ writesAll e o 16 = true) := by decide +kernel
/-- The turns that read nothing. -/
theorem witness_TileTurns_plain : isReady (turnOf (.tstore (moveOf 7 1 false true)) (td 0xD 3 32 32 0x1000 0x10000000) tileC 0) = true ∧
    isReady (turnOf (.tzero (moveOf 1 0 false false)) tileC 0 0) = true ∧ isReady (turnOf (.trel 3) 0 0 0) = true ∧
    isReady (turnOf (.tres ⟨7, 2, 0, 5⟩) 0 0 0) = true := by decide +kernel
/-- A record in the scratchpad is read as accumulator bytes. -/
theorem witness_TileTurns_records : (let d := td 0xD 0 1 1 128 0x1000
    let s := turnOf (.tload (moveOf 1 7 true false)) tileC d 0
    isReady s = true ∧ tdFmt d = 0xD ∧ readsAll s d = some 1) := by decide +kernel
/-- The commits: `tzero` with its shadow tile, `tres` taken and refused, `trel`. -/
theorem witness_TileCommits : (let at_ := fun (i : TileIns) (a : Word) (n : List (Nat × List LA)) => tiles [] (some (opIn .running i tileC 0 0 a 0 n))
    let z := at_ (.tzero (moveOf 1 0 false false)) 0 [(2, List.replicate 1024 LA.zero)]
    let r := at_ (.tres ⟨7, 2, 0, 5⟩) (BitVec.ofNat 64 (4096 + 256 * 2 ^ 18 + 9 * 2 ^ 37 + 2 ^ 41)) []
    let f := at_ (.tres ⟨7, 2, 0, 5⟩) (BitVec.ofNat 64 (3840 + 256 * 2 ^ 18 + 9 * 2 ^ 37 + 2 ^ 41)) []
    (group z 1).lane.park.fmask = 0 ∧ (group z 1).lane.park.replaying = false ∧ tableWf LA.zero (ownTeam z 1).shadow = true ∧ tableWf LA.zero (ownTeam z 1).acc = true ∧
      (team (after (.tileCommit 1) z) 1).acc = [] ∧ sregOf (group (after (.tileCommit 1) r) 1) 47 = 0 ∧ (team (after (.tileCommit 1) r) 1).recs.length = 2 ∧
      sregOf (group (after (.tileCommit 1) f) 1) 47 = 2 ∧ (team (after (.tileCommit 1) (at_ (.trel 3) 0 [])) 1).recs = []) := by decide +kernel
/-- A `tzero` of an interrupted context that commits while the group's handler runs: the frame's position goes past it. -/
theorem witness_TileCommits_frame : (let o := opIn .running (.tzero (moveOf 1 0 false false)) tileC 0 0 0 0 [(2, List.replicate 1024 LA.zero)]
    let f : Frame := ⟨0x2000, { grp.lane with lpc := 0x3000 }, 0, 0, List.replicate 8 0, List.replicate 4 zeroLanes, some o, []⟩
    let s := { withTeam loaded2 { laneGroup [] [] with handler := some f, cnt := { grp.cnt with tiles := 1 } } with cores := [(0, { Core.blank with queue := [1] })] }
    tileOf (group s 1) = some o ∧ frameTile (group s 1) = some o ∧ (group (after (.tileCommit 1) s) 1).lane.lpc = 0x10000 ∧
      ((group (after (.tileCommit 1) s) 1).handler.map fun f => (f.tile, f.lane.lpc)) = some (none, 0x300C) ∧
      (team (after (.tileCommit 1) s) 1).acc = []) := by decide +kernel

/-! Witnesses and single steps of the stream events and of launches. -/

/-- A group with a scalar access under way; its launch's page 1 is mapped. -/
def under (k : AccKind) (a : Word) (n : Nat) (r : Option Reply) : State :=
  { withGroup { grp with cnt := { grp.cnt with loads := 1, stores := 1 }, fly := { grp.fly with scalar := some ⟨k, a, n, r, none⟩ } } with mem := [(0x1FFFF, 0x92)] }
/-- A jump record; a reply of two bytes; a load and a store that are performed; a wait at its bound. -/
theorem witness_StreamEvents : (let s := withGroup { grp with lane := { grp.lane with rq := [.jump 0x40, .run 1 []] } }
     laneFree s 1 = true ∧ (group s 1).lane.park.fmask = 0 ∧ (group (after (.laneJumpRecord 1) s) 1).lane.lpc = 0x40) ∧
    (let s := under (.load 4 5) 0x1FFFE 2 (some (.value 0xFF12))
     (group s 1).trace.next = none ∧ (0xFF12 : Word).toNat < 256 ^ 2 ^ ((5 : BitVec 3).toNat % 4) ∧ sreg (after (.scalarReply 1) s) 1 4 = 0xFFFFFFFFFFFFFF12) ∧
    (let s := withGroup { grp with cnt := { grp.cnt with loads := 1, stores := 1, loadsDue := 1, storesDue := 1 } }
     (group (after (.laneLoadReturn 1) s) 1).cnt.loads = 0 ∧ (group (after (.storePerformed 1) s) 1).cnt.stores = 0) ∧
    (let s := withGroup { sset [(5, 1)] with cnt := { grp.cnt with loads := 1 }, fly := { grp.fly with waiting := some (.waitLd 4 5) } }
     let x := group s 1
     x.live = true ∧ saving s x.team = false ∧ x.lane.stopped = false ∧ x.lane.park.replaying = false ∧ x.pend.order = [] ∧ x.fly.scalar = none ∧
       x.fly.booth = none ∧ x.poison = [] ∧ laneIdle x = true ∧ x.trace.next = none ∧ x.cnt.loads ≤ (sreg s 1 5).toNat ∧
       sreg (after (.waitRetire 1) s) 1 4 = 1 ∧ (group (after (.waitRetire 1) s) 1).spc = 0x10004) := by decide +kernel
/-- The last bytes of the mapped page loaded and stored; a page with no translation, and one whose walk waits already. -/
theorem witness_HomeRequests : LaneMemReady (under (.load 4 1) 0x1FFFE 2 none) 1 1 0x1FFFE 2 placedLeaf ∧
    LaneMemReady (under (.store 7) 0x1FFFE 2 none) 1 2 0x1FFFE 2 placedLeaf ∧
    Reached (under (.load 4 1) 0x1FFFE 2 none) (whoOf base 1 (.scalar 1)) 0x1FFFE 2 ∧ Reached (under (.load 4 1) 0x2FFFE 2 none) (whoOf base 1 (.scalar 1)) 0x2FFFE 2 ∧
    (let s := under (.load 4 1) 0x2FFFE 2 none
     bits (0x2FFFE : Word) 15 0 + 2 ≤ 0x10000 ∧ tlbFind (die s (ownerOf 0x2FFFE)) (partOf s 1) (descOf s 1).asn (pageOf 0x2FFFE) = none ∧
       waiting s (.scalar 1) = false ∧ walkFor s (ownerOf 0x2FFFE) 0x2FFFE (partOf s 1) (descOf s 1).asn 0 = none) ∧
    (let s := under (.store 7) 0x2FFFE 2 none
     let s := setWalk s 9 (some ⟨0, 0x20000, 0, 0, 0, 1, false, [], 0, 0, 0, 0, 0⟩)
     walkFor s (ownerOf 0x2FFFE) 0x2FFFE (partOf s 1) (descOf s 1).asn 0 = some (9, ⟨0, 0x20000, 0, 0, 0, 1, false, [], 0, 0, 0, 0, 0⟩)) := by
  delta LaneMemReady Reached; decide +kernel
/-- A `.ro` load of a page whose memory has changed since its issue takes the byte of its issue. -/
theorem witness_HomeRequests_ro :
    (let s := withGroup { grp with cnt := { grp.cnt with loads := 1 }, fly := { grp.fly with scalar := some ⟨.loadRo 4 1, 0x1FFFE, 2, none, some [(0x1FFFF, 0x55)]⟩ } }
     let s := { s with mem := [(0x1FFFF, 0x92)] }
     let t := after (.homeRequest (.scalar 1)) s
     LaneMemReady s 1 1 0x1FFFE 2 placedLeaf ∧ hostWindow 0x1FFFE = false ∧ (group t 1).fly.scalar.bind (·.reply) = some (.value 0x5500) ∧
       (core t (coreOf s 1)).ro = [(1, 0x3FF)]) := by
  delta LaneMemReady Reached; decide +kernel
/-- A package of a pod whose die 0 has a root for partition 0 and asn 0, with a request of chip 1 under way. -/
def asked (op : RemoteOp) (roots : Tab Word) : State :=
  { base with pod := { Pod.cold with en := true, peers := 2 }, dies := [(0, { Die.blank with tlb := [placedLeaf], roots := roots })], mem := [(0x1FFFF, 0x92)]
              work := { base.work with remote := [(7, some ⟨1, 0, 0, 0x1FFFE, op⟩)] } }
/-- Another chip's load and store at the end of a mapped page; its request without a root; one that arrives. -/
theorem witness_RemoteRequests : (let s := asked (.load 2) [(rootKey 0 0, 1)]
     let t := after (.homeRequest (.remote 7)) s
     linked s = true ∧ tlbFind (die s (ownerOf 0x1FFFE)) 0 0 (pageOf 0x1FFFE) = some placedLeaf ∧ leafPermits placedLeaf.leaf 3 = true ∧ placedLeaf.leaf.getLsbD 56 = true ∧
       placedLeaf.leaf.getLsbD 57 = false ∧ (die s (ownerOf 0x1FFFE)).carve = none ∧ (tget 0 (die s (ownerOf 0x1FFFE)).roots (rootKey 0 0)).getLsbD 0 = true ∧
       objsMet s 0 0x1FFFE 2 = [] ∧ Reached s (remoteWho 7 ⟨1, 0, 0, 0x1FFFE, .load 2⟩) 0x1FFFE 2 ∧ t.out.messages = [.answer 1 0x1FFFE [0, 0x92] none] ∧ tget none t.work.remote 7 = none) ∧
    (let t := after (.homeRequest (.remote 7)) (asked (.store [1, 2]) [(rootKey 0 0, 1)])
     mread t.mem 0x1FFFE 2 = [1, 2] ∧ t.out.messages = [.answer 1 0x1FFFE [] none]) ∧
    (after (.homeRequest (.remote 7)) (asked (.load 2) [])).out.messages = [.answer 1 0x1FFFE [] (some (4, 0))] ∧
    (let r : RemoteReq := ⟨1, 0, 0, 0x1FFFE, .load 2⟩
     remoteOk (asked (.load 2) []) r = true ∧ tget none (after (.homeRequest (.arrival r)) (asked (.load 2) [])).work.remote 2 = some r) := by delta Reached; decide +kernel

/-- A descriptor of one team of three groups. -/
def trio : Desc := { placedDesc 0 with v := 32, q := 1, args := [1, 2, 3, 4, 5, 6, 7, 0xFFFFFFFFFFFFFFFF], stackBase := 0x8000, stackSize := 0x100, levels := [⟨1, 2, [116]⟩, ⟨3, 1, [103]⟩] }
/-- A launch whose team has not started. -/
def unstarted : State := { base with work := { State.reset.work with launches := [(1, { job with d := trio, started := [] })], next := 2 } }
/-- The team that can be placed, and what its groups hold. -/
theorem witness_TeamsStart : (launch unstarted 1).live = true ∧ (launch unstarted 1).phase = .running ∧ (launch unstarted 1).fin = none ∧
    hasSaved unstarted (launch unstarted 1).part = false ∧ partResetting unstarted 0 = false ∧ trio.args.length = 8 ∧
    (nextGangs unstarted 1).findSome? (fun k => placeAll unstarted 1 anyCore [] (clusterHeads trio k)) = some [(0, 0)] ∧ groupsPerTeam trio = 3 ∧
    (let t := after (.teamPlacement 1) unstarted
     (team t 2).groups = [3, 4, 5] ∧ sregOf (group t 5) 62 = 0x8300 ∧ sregOf (group t 5) 8 = 0xFFFFFFFFFFFFFFFF) := by decide +kernel

/-- A launch of this chip's and the next chip's nodes. -/
def dual : Desc := { placedDesc 0 with mask := 3, timeout := 10, levels := [⟨2, 5, [112]⟩, ⟨1, 2, [116]⟩, ⟨1, 1, [103]⟩], completion := 0x10FE0 }
/-- A package of a pod with one launch and queue 0, at a time in 2^-8 ns. -/
def podAt (n : Nat) (x : Launch) : State :=
  { base with pod := { Pod.cold with en := true }, time := { base.time with now := n }, work := { base.work with launches := [(1, x)] },
              queues := [(0, { Queue.blank with launches := [1], vec := 5 })] }
/-- The same 1,000,000 units after cold start. -/
def pod (x : Launch) : State := podAt 1000000 x
/-- The same once no team of the launch is here. -/
def teamless (x : Launch) : State := { pod x with work := { (pod x).work with teams := [] } }
/-- A launch that a stream of queue 0 has submitted. -/
def own (p : LaunchPhase) (d : Desc) : Launch := { job with d := d, phase := p, queue := some 0, gen := 5, irq := true }
/-- A killed launch of queue 0; one all of whose teams have ended; one of another chip. -/
theorem witness_LaunchEnds : (let e : EndInfo := ⟨3, 0, 0x8106, 0, 2, 1⟩
     let x := { own .ending { dual with completion := 0x1FFE0 } with fin := some e, ends := 900000 }
     let s := teamless x
     let byte := fun (n : Nat) => BitVec.ofNat 8 n
     let record := leBytes 4 x.d.id.toNat ++ [byte e.status, byte e.cause] ++ leBytes 2 e.code ++ [byte e.chip, 0, 0, 0] ++ leBytes 4 e.team ++
        [byte e.group, 0, 0, 0, 0, 0, 0, 0] ++ leBytes 8 (x.ends / 256)
     let w := queueWrite s (queueWho s 0 (.complete 1)) x.d.completion record
     x.live = true ∧ teamsOf s 1 = [] ∧ x.d.completion.toNat % 32 = 0 ∧ w.1 = { s with mem := w.1.mem } ∧ w.2 = .ok [] ∧
       (after (.launchEnd 1) s).out.interrupts = [(1, 5)] ∧ mread (after (.launchEnd 1) s).mem 0x1FFE6 2 = [0x06, 0x81] ∧ mread (after (.launchEnd 1) s).mem 0x1FFF8 3 = [0xBB, 0x0D, 0]) ∧
    (let x := { own .running (placedDesc 0) with ended := [0] }
     teamsEnded (teamless x) 1 = true ∧ otherChips (teamless x) x.d = [] ∧ x.fin = none ∧ x.d.completion.toNat % 32 = 0 ∧ chipNo (teamless x) = 0) ∧
    (let x := { job with fin := some ⟨3, 0, 0, 0, 0, 0⟩, phase := .ending }
     launch (after (.launchEnd 1) (teamless x)) 1 = Launch.blank) := by decide +kernel
/-- A descriptor of 768 bytes with an identifier and a level of one team. -/
def descBytes (id depth : Nat) : List Byte :=
  leBytes 4 id ++ [BitVec.ofNat 8 depth, 0, 0, 1, 0, 0, 0, 0, 0, 1, 0, 0] ++ leBytes 8 3 ++ List.replicate 28 0 ++ leBytes 4 1 ++ List.replicate 200 0 ++
  if depth = 0 then List.replicate 512 0
  else [1, 0, 2, 1, 116] ++ List.replicate 27 0 ++ [1, 0, 1, 1, 103] ++ List.replicate 27 0 ++ List.replicate 448 0
/-- A join that is refused for its tree, for its identifier, for its partition; one that is kept; and what each message and each timeout leaves. -/
theorem witness_LaunchMessages_join : (let s := pod job
     let join := fun part bs => after (.launchJoinRequest 1 5 part 1 bs) s
     linked s = true ∧ awaitedUnder s 1 5 = none ∧ (descBytes 2 2).length = 768 ∧ idInUse s 0 (readDescriptor (descBytes 1 2)).id = true ∧
       idInUse s 0 (readDescriptor (descBytes 2 2)).id = false ∧ idInUse s 1 (readDescriptor (descBytes 2 2)).id = false ∧ partEnabled s 1 = false ∧ partEnabled s 0 = true ∧
       treeFault s (readDescriptor (descBytes 2 0)) (descDepth (descBytes 2 0)) 1 = some 1 ∧
       treeFault s (readDescriptor (descBytes 2 2)) (descDepth (descBytes 2 2)) 1 = none ∧
       (join 0 (descBytes 2 2)).out.messages = [.reply 1 5 true 0 0] ∧ (launch (join 0 (descBytes 2 2)) 2).phase = .joined ∧
       (join 0 (descBytes 1 0)).out.messages = [.reply 1 5 false 1 1] ∧ (join 0 (descBytes 1 2)).out.messages = [.reply 1 5 false 5 2] ∧
       (join 1 (descBytes 2 2)).out.messages = [.reply 1 5 false 5 5] ∧ (launch (join 1 (descBytes 2 2)) 2).phase = .refused) := by decide +kernel
/-- The submitting chip's launch while it joins, before and after its timeout. -/
theorem witness_LaunchMessages_joining : (let x := { own .joining dual with replies := [(0, true, 1, 0)] }
     let s := pod x
     let late := podAt 2560000 x
     ownGeneration s 5 = some 1 ∧ otherChips s dual = [1] ∧ (queue s 0).jump = none ∧ s.time.now < x.since + 256000 * x.d.timeout ∧
       (after (.joinReply 1 5 true 0 0) s).out.messages = [.downbeat 1 5] ∧ (after (.joinReply 1 5 false 1 6) s).out.messages = [.abort 1 5 1 6 1] ∧
       x.since + 256000 * x.d.timeout ≤ late.time.now ∧ goes (exec (.joinReply 1 5 true 0 0) late) = true ∧ after (.joinReply 1 5 true 0 0) late = late ∧
       (after (.downbeatTimeout 1) late).out.messages = [.abort 1 5 2 0 1] ∧ (launch (after (.downbeatTimeout 1) late) 1).fin = some ⟨2, 0, 0, 1, 0, 0⟩) := by decide +kernel
/-- The submitting chip's launch after its decision: a join that comes again, a chip that has started, one that stays away, a kill. -/
theorem witness_LaunchMessages_own : (let x := { own .running dual with acks := [0] }
     let s := podAt 5120000 x
     ownGeneration s 5 = some 1 ∧ x.fin = none ∧ x.since + 512000 * x.d.timeout ≤ s.time.now ∧ launchNamed s 0 1 = some 1 ∧
       (after (.joinReply 1 5 true 0 0) s).out.messages = [.downbeat 1 5] ∧
       (launch (after (.startedReply 1 5) s) 1).acks = [0, 1] ∧ (launch (after (.startedTimeout 1) s) 1).fin = some ⟨2, 0, 0, 1, 0, 0⟩ ∧
       (launch (after (.launchKillArrival 0 1 3 0x8102 1 0 0) s) 1).fin = some ⟨3, 0, 0x8102, 1, 0, 0⟩) ∧
    (let x := { own .ending dual with fin := some ⟨2, 0, 0, 1, 0, 0⟩ }
     ownGeneration (pod x) 5 = some 1 ∧ (after (.joinReply 1 5 true 0 0) (pod x)).out.messages = [.abort 1 5 2 0 1]) := by decide +kernel
/-- A launch that has joined another chip's, and one that this chip has refused. -/
theorem witness_LaunchMessages_joined : (let x := { job with d := dual, phase := .joined, chip := 1, gen := 5 }
     let s := podAt 2560000000 x
     joinedUnder s 1 5 = some 1 ∧ awaitedUnder s 1 5 = some 1 ∧ x.since + 512000 * x.d.timeout ≤ s.time.now ∧ s.pod.peers.getLsbD 1 = false ∧
       tget 0 s.pod.gone 1 + 2560000000 ≤ s.time.now ∧
       (after (.downbeat 1 5) s).out.messages = [.started 1 5] ∧ (after (.joinResendTimeout 1 5) s).out.messages = [.reply 1 5 true 0 0] ∧
       launch (after (.abort 1 5 2 (0, 1)) s) 1 = Launch.blank ∧ launch (after (.joinDropTimeout 1 5) s) 1 = Launch.blank) ∧
    (let s := pod { job with d := dual, phase := .refused, chip := 1, gen := 5 }
     awaitedUnder s 1 5 = some 1 ∧ joinedUnder s 1 5 = none ∧ launch (after (.abort 1 5 1 (6, 1)) s) 1 = Launch.blank) := by decide +kernel

/-! Witnesses and single steps of saves, of restores and of the packets of a stream. -/

/-- A launch of the smallest team, whose save area of 0x4C000 bytes at 0x100000 is mapped. -/
def small : Desc := { placedDesc 0 with v := 0, q := 0, t := 0, s := 0, save := 0x100000 }
/-- Its package: the launch, a team of one group or none. -/
def saves (x : Launch) (y : Option Team) (g : Group) : State :=
  { base with
    dies := [(0, { Die.blank with tlb := (List.range 5).map fun i => ⟨0, 0, 16 + i, BitVec.ofNat 64 (0x010000000000001F + 0x10000 * (16 + i)), 0⟩ })]
    work := { base.work with launches := [(1, x)], teams := (y.map fun y => [(1, y)]).getD [], groups := if y.isSome then [(1, g)] else [] } }
/-- A team that must be saved by force now. -/
def forced : Team := { crew with preq := true }
/-- A group that waits at `yieldc`, its access on the way. -/
def parked : Group := { grp with fly := { grp.fly with yielded := true, waiting := some (.yieldc 4 5 6), scalar := some ⟨.load 4 3, 0x10000, 8, none, none⟩ } }
/-- A launch whose one node has two teams, whose areas lie one behind the other; or two teams on two chips. -/
def pairDesc (far : Bool) : Desc :=
  { small with s := 64, mask := if far then 3 else 1
               levels := (if far then [⟨1, 6, [112]⟩, ⟨2, 5, [99]⟩, ⟨1, 2, [116]⟩] else [⟨1, 4, [100]⟩, ⟨2, 2, [116]⟩]) ++ [⟨1, 1, [103]⟩] }
/-- Its package, with both teams here. -/
def pair (x : Launch) (y : Team) (a b : Group) : State :=
  { base with
    dies := [(0, { Die.blank with tlb := (List.range 12).map fun i => ⟨0, 0, 16 + i, BitVec.ofNat 64 (0x010000000000001F + 0x10000 * (16 + i)), 0⟩ })]
    work := { base.work with launches := [(1, x)], teams := [(1, y), (2, { y with no := 1, core := 1, groups := [2] })], groups := [(1, a), (2, { b with team := 2 })] } }
/-- A team that is asked to yield. -/
def toYield : Team := { crew with preq := true, pdead := 9 }
/-- A group with an access on the way. -/
def loading : Group := { grp with fly := { grp.fly with scalar := some ⟨.load 4 3, 0x10000, 8, none, none⟩ } }
/-- A save that begins by force, of a node of one team and of two; one that begins because all yield. -/
theorem witness_SavesAndRestores_begin : (let s := saves { job with d := small } (some forced) loading
     (team s 1).preq = true ∧ (team s 1).pdead = 0 ∧ (team s 1).launch = 1 ∧ saveNode s 1 = 0 ∧ (launch s 1).saved = [] ∧ nodeTeams s 1 0 = [1] ∧ quiet s 1 = false ∧
       (launch (after (.pdeadExpiry 1) s) 1).saved = [⟨0, [], false⟩]) ∧
    (let s := pair { job with d := pairDesc false } forced grp loading
     saveNode s 2 = 0 ∧ nodeTeams s 1 0 = [1, 2] ∧ quiet s 2 = false ∧ (launch (after (.pdeadExpiry 1) s) 1).saved = [⟨0, [], false⟩]) ∧
    (let s := pair { job with d := pairDesc false, request := some 5 } toYield parked parked
     requestPending s 1 = true ∧ nodeTeams s 1 0 = [1, 2] ∧ (hasYielded s (group s 1) && hasYielded s (group s 2)) = true ∧ nodeOthers s 1 0 = [] ∧
       (launch s 1).saved = [] ∧ quiet s 1 = false ∧ (launch (after (.cooperativeSave 1 0) s) 1).saved = [⟨0, [], false⟩]) := by decide +kernel
/-- A chip of a node of two chips tells that its team has yielded, and saves once the other has told the same. -/
theorem witness_SavesAndRestores_far : (let s := fun y => { saves { job with d := pairDesc true, request := some 5, yields := y } (some toYield) parked with pod := { State.reset.pod with en := true } }
     requestPending (s []) 1 = true ∧ nodeTeams (s []) 1 0 = [1] ∧ hasYielded (s []) (group (s []) 1) = true ∧ nodeOthers (s []) 1 0 = [1] ∧
       (launch (after (.cooperativeSave 1 0) (s [])) 1).told = [0] ∧ (after (.cooperativeSave 1 0) (s [])).out.messages = [.preempt 1 0 1 (.yielded 0 0 true)] ∧
       (launch (after (.cooperativeSave 1 0) (s [(1, 0)])) 1).saved = [⟨0, [], false⟩]) := by decide +kernel
/-- A save that ends, of a node of one team and of two. -/
theorem witness_SavesAndRestores_end :
    (let s := saves { job with d := small, saved := [⟨0, [], false⟩] } (some forced) grp
     nodeTeams s 1 0 = [1] ∧ (group s 1).team = 1 ∧ quiet s 1 = true ∧ enginesStop s 1 = true ∧ s.parts = [] ∧ (die s 0).objs = [] ∧
       (match areasOf s 1 0 2 [(team s 1).no] with | (u, .ok [(n, segs)]) => decide (u = s) && n == 0 && segs.length == 5 | _ => false) = true) ∧
    (let s := pair { job with d := pairDesc false, saved := [⟨0, [], false⟩] } toYield grp grp
     nodeTeams s 1 0 = [1, 2] ∧ (group s 2).team = 2 ∧ (quiet s 1 && quiet s 2) = true ∧ (enginesStop s 1 && enginesStop s 2) = true ∧ s.parts = [] ∧
       (match areasOf s 1 0 2 [0, 1] with | (u, .ok [(0, _), (1, _)]) => decide (u = s) | _ => false) = true) := by decide +kernel
/-- No die of these packages has an object. -/
theorem witness_SavesAndRestores_objs (x : Launch) (y : Team) (a b : Group) : ∀ d, (die (pair x y a b) d).objs = [] := by
  intro d
  cases d <;> rfl
/-- A restore of a saved node, of one team and of two. -/
theorem witness_SavesAndRestores_restore : (let b : SavedTeam := ⟨7, crew, [(9, grp)]⟩
     let s := saves { job with d := small, saved := [⟨0, [b], true⟩], started := [0] } none grp
     let cores := [(0, 0)]
     placeAll s 1 (roomFor s [b]) [] [b.t.no / clusterSize small * clusterSize small] = some cores ∧ roomFor s [b] 0 0 = true ∧
       cores.find? (fun e => e.1 == b.t.no) = some (0, 0) ∧
       (match areasOf s 1 0 1 [b.t.no] with
        | (u, .ok [(n, segs)]) => decide (u = s) && n == 0 && ((teamBack s 1 b segs).any fun k => k.t.launch == 1 && k.t.no == 0 && k.groups.map (·.1) == [9])
        | _ => false) = true) ∧
    (let b : SavedTeam := ⟨7, crew, [(9, grp)]⟩
     let c : SavedTeam := ⟨8, { crew with no := 1 }, [(10, grp)]⟩
     let s := { pair { job with d := pairDesc false, saved := [⟨0, [b, c], true⟩], started := [0] } crew grp grp with
                work := { base.work with launches := [(1, { job with d := pairDesc false, saved := [⟨0, [b, c], true⟩], started := [0] })], teams := [], groups := [] } }
     placeAll s 1 (roomFor s [b, c]) [] [0, 1] = some [(0, 0), (1, 1)] ∧ (roomFor s [b, c] 0 0 && roomFor s [b, c] 1 1) = true ∧
       (match areasOf s 1 0 1 [0, 1] with
        | (u, .ok [(0, p), (1, q)]) => decide (u = s) && ((teamBack s 1 b p).any fun k => k.t.launch == 1 && k.groups.map (·.1) == [9]) &&
            ((teamBack s 1 c q).any fun k => k.t.no == 1 && k.groups.map (·.1) == [10])
        | _ => false) = true) := by decide +kernel

/-- The byte at an offset of an area that chunks fill. -/
def chunkByte (cs : Chunks) (k : Nat) : Byte :=
  match cs with
  | [] => 0
  | c :: r => if c.1 ≤ k ∧ k < c.1 + c.2.length then c.2.getD (k - c.1) 0 else chunkByte r k
/-- An area that holds some chunks and is zero elsewhere. -/
def chunkArea (cs : Chunks) : Area := fun off n => (List.range n).map fun i => chunkByte cs (off + i)
/-- No chunk lies there: the byte is zero. -/
theorem chunkByte_out (k : Nat) : ∀ cs : Chunks, (∀ c ∈ cs, k < c.1 ∨ c.1 + c.2.length ≤ k) → chunkByte cs k = 0
  | [], _ => rfl
  | c :: r, h => by
    have hc := h c (by simp)
    rw [chunkByte, if_neg (by omega), chunkByte_out k r fun d hd => h d (by simp [hd])]
/-- Chunks that do not meet: each gives its bytes. -/
theorem chunkByte_in : ∀ cs : Chunks, (cs.Pairwise fun c e => c.1 + c.2.length ≤ e.1 ∨ e.1 + e.2.length ≤ c.1) → ∀ c ∈ cs, ∀ i < c.2.length,
    chunkByte cs (c.1 + i) = c.2.getD i 0
  | b :: r, h, c, hc, i, hi => by
    obtain ⟨hb, hr⟩ := List.pairwise_cons.1 h
    rcases List.mem_cons.1 hc with rfl | hm
    · rw [chunkByte, if_pos (by omega), Nat.add_sub_cancel_left]
    · have := hb c hm
      rw [chunkByte, if_neg (by omega), chunkByte_in r hr c hm i hi]
/-- Such an area holds its chunks. -/
theorem chunkArea_holds (cs : Chunks) (n : Nat) (left : List Nat) (h : cs.Pairwise fun c e => c.1 + c.2.length ≤ e.1 ∨ e.1 + e.2.length ≤ c.1) :
    AreaHolds (chunkArea cs) n left cs := by
  refine ⟨fun c hc i m hm => ?_, fun off m _ hcs _ => ?_⟩
  · refine List.ext_getElem (by simp [chunkArea]; omega) fun j h₁ h₂ => ?_
    simp only [chunkArea, List.getElem_map, List.getElem_range, List.getElem_take, List.getElem_drop]
    simp [chunkArea] at h₁
    rw [Nat.add_assoc, chunkByte_in cs h c hc (i + j) (by omega), List.getD_eq_getElem _ _ (by omega)]
  · refine List.ext_getElem (by simp [chunkArea]) fun j h₁ h₂ => ?_
    simp [chunkArea] at h₁
    simp only [chunkArea, List.getElem_map, List.getElem_range, List.getElem_replicate]
    exact chunkByte_out _ cs fun c hc => by have := hcs c hc; omega
/-- A group in a handler at its save: two masks, a run of the interrupted context, a page fault of lane 0 delivered. -/
def framed : Group :=
  { sset [(5, 0x1122334455667788), (57, 3)] with
    lane := { grp.lane with rep := 2, stack := [1, 3] }, level := 1
    handler := some ⟨0x10040, { grp.lane with lpc := 0x18000, rq := [.run 9 (List.replicate 15 7)], park := { Park.none with fmask := 1, lpc := 0x18000, full := [.run 9 (List.replicate 15 7)] } },
      0, 1, List.replicate 8 4, List.replicate 4 (List.replicate 128 6), none, []⟩ }
/-- A state and an area that meet what reading a group back asks, and what it gives. -/
theorem witness_SaveAreas_group : (let s := saves { job with d := small } (some crew) framed
     (groupChunks s 1).Pairwise (fun c e => c.1 + c.2.length ≤ e.1 ∨ e.1 + e.2.length ≤ c.1) ∧
     ((groupFrom s small 0 (chunkArea (groupChunks s 1)) [] grp).all fun y =>
       sregOf y 5 == 0x1122334455667788 && y.lane.stack == [1, 3] && y.lane.rep == 2 && y.level == 1 && (y.handler.all fun f =>
         f.lane.lpc == 0x18000 && f.hmask == 1 && f.s56 == List.replicate 8 4 && (f.v0.getD 3 []).getD 0 0 == 6 && f.lane.park.full == [.run 9 (List.replicate 15 7)])) = true ∧
     (groupFrom s small 0 (chunkArea (groupChunks s 1)) [] grp).isSome = true) := by decide +kernel
/-- Its limits. -/
theorem witness_SaveAreas_limits : GroupLimits framed small := by
  unfold GroupLimits
  refine ⟨?lane, ?frame, ?v, ?m, ?q, ?tiles, ?counts, ?loads, ?stores, ?copies, ?tileCount, ?order, ?codes, ?records, ?held⟩
  case frame =>
    rintro f h
    cases h
    refine ⟨?_, rfl, rfl⟩
    refine ⟨?_, ?_, ?_, ?_, fun r hr => ?_⟩
    on_goal 5 => simp [savedQueue] at hr; subst hr
    all_goals decide +kernel
  case records => rintro r (h | h) <;> cases h
  case lane =>
    refine ⟨?_, ?_, ?_, ?_, fun r hr => nomatch hr⟩
    all_goals decide +kernel
  all_goals decide +kernel
/-- A state, runs and an area that meet what writing and reading a team's area ask. -/
theorem witness_SaveAreas_team : (let s := saves { job with d := small } (some { crew with recs := [(3, (0x22004000000, 0))] }) framed
     let segs : List Seg := [⟨0x100000, 0x4C000, false⟩]
     let x := team s 1
     s.memWf ∧ (segs.map (·.len)).sum = teamArea small ∧ segs.Pairwise (fun g h => g.flat + g.len ≤ h.flat ∨ h.flat + h.len ≤ g.flat) ∧
     (teamChunks s 1).Pairwise (fun c e => c.1 + c.2.length ≤ e.1 ∨ e.1 + e.2.length ≤ c.1) ∧
     (∀ c ∈ teamChunks s 1, c.1 + c.2.length ≤ teamArea small ∧ ∀ k ∈ (List.range (groupsPerTeam small)).map fun k => groupOffset small k + 0x3000,
       c.1 + c.2.length ≤ k ∨ k + 0x1000 ≤ c.1) ∧
     small.s % 64 = 0 ∧ (∀ e ∈ x.scratch, e.1 < small.s) ∧ x.tags = [] ∧ small.t = 0 ∧ (∀ e ∈ x.recs, e.1 < 16 ∧ resTrap e.2.1 e.2.2 = none) ∧
     tableWf (0, 0) x.recs = true ∧ x.obuf = [] ∧ (∀ e ∈ x.copies, e.1 < Config.copyLimit) ∧
     ∀ m < Config.copyLimit, copyFrom (chunkArea (teamChunks s 1)) [(1, 0)] m (tget none crew.copies m) ≠ none) := by
  delta State.memWf; decide +kernel

/-- A package whose queue 0, bound to front end 3, reads a ring at 0x10000 with some words at its start and bytes elsewhere. -/
def stream (tail : Nat) (ws : List Word) (m : List Host.Cell) (k : Queue → Queue) : State :=
  { base with
    queues := [(0, k { Queue.blank with base := 0x10000, en := true, tail := tail, bound := some 3, vec := 5 })]
    mem := mwrite m 0x10000 (ws.flatMap fun w => leBytes 8 w.toNat) }
/-- Three words of bodies. -/
def body (ws : List Word) : List Byte := ws.flatMap fun w => leBytes 8 w.toNat
/-- `nop` of one word and of 255; `wait` below and at its value, polled again. -/
theorem witness_Packets_semaphores : PacketReady (stream 8 [0x100] [] id) 0 0 1 false [] ∧ PacketReady (stream 2040 [0xFF00] [] id) 0 0 255 false [] ∧
    (let s := fun (n : Byte) (w : Bool) => stream 24 [0x302, 0x1FFF8, 7] [(0x1FFF8, n)] fun x => { x with wait := w }
     (∀ n ∈ [(6 : Byte), 7], PacketReady (s n false) 0 2 3 false (body [0x1FFF8, 7]) ∧
       queueRead (s n false) (queueWho (s n false) 0 (.queue 0)) 0x1FFF8 8 = (s n false, .ok (leBytes 8 n.toNat))) ∧
       (queue (after (.packetWait 0) (s 6 false)) 0).wait = true ∧ (queue (after (.packetWait 0) (s 7 false)) 0).head = 24 ∧
       holdsWork (queue (s 7 true) 0) = true ∧
       queueRead (s 7 true) (queueWho (s 7 true) 0 (.queue 0)) (packetAt (queue (s 7 true) 0) + 8) 16 = (s 7 true, .ok (body [0x1FFF8, 7])) ∧
       (queue (after (.semaphoreSatisfied 0) (s 7 true)) 0).head = 24) := by
  delta PacketReady; decide +kernel
/-- `signal` with an interrupt. -/
theorem witness_Packets_signal : (let s := stream 24 [0x10303, 0x1FFF8, 0x0102030405060708] [] id
     let w := queueWrite s (queueWho s 0 (.queue 0)) 0x1FFF8 (leBytes 8 0x0102030405060708)
     PacketReady s 0 3 3 true (body [0x1FFF8, 0x0102030405060708]) ∧ w.1 = { s with mem := w.1.mem } ∧ w.2 = .ok [] ∧
       (after (.packetSignal 0) s).out.interrupts = [(1, 5)] ∧ mbyte (after (.packetSignal 0) s).mem 0x1FFF8 = 8) := by
  delta PacketReady; decide +kernel
/-- `copy` of the largest count, `fence`, `mark`, `jump` to the largest buffer. -/
theorem witness_Packets_others : (let s := stream 32 [0x404, 0x20000, 0x30000, 0xFFFFFFFF] [] id
     PacketReady s 0 4 4 false (body [0x20000, 0x30000, 0xFFFFFFFF]) ∧ (queue s 0).copy = none ∧
       (queue (after (.packetCopy 0) s) 0).copy = some ⟨0x20000, 0x30000, 0xFFFFFFFF, 0, false, 0⟩) ∧
    (let s := fun (l : List Nat) => stream 8 [0x10105] [] fun x => { x with launches := l }
     PacketReady (s []) 0 5 1 true [] ∧ PacketReady (s [1]) 0 5 1 true [] ∧ (after (.packetFence 0) (s [])).out.interrupts = [(1, 5)]) ∧
    PacketReady (stream 16 [0x206, 9] [] id) 0 6 2 false (body [9]) ∧
    (let s := stream 24 [0x307, 0x40000, 0x100000] [] id
     PacketReady s 0 7 3 false (body [0x40000, 0x100000]) ∧ (queue (after (.packetJump 0) s) 0).jump = some (0x40000, 0x100000, 0)) := by
  delta PacketReady; decide +kernel
/-- `launch`: a descriptor whose identifier is in use, one with no level, one whose root has two children, one that starts. -/
theorem witness_Packets_launch : (let s := fun bs => stream 16 [0x10201, 0x10100] (mwrite [] 0x10100 bs) id
     let wide := (descBytes 2 2).set 256 2
     (∀ bs ∈ [descBytes 1 2, descBytes 2 0, wide, descBytes 2 2], PacketReady (s bs) 0 1 2 true (body [0x10100]) ∧
       queueRead (s bs) (queueWho (s bs) 0 (.queue 0)) 0x10100 768 = (s bs, .ok bs) ∧ otherChips (s bs) (readDescriptor bs) = []) ∧
     refusalCause (s (descBytes 1 2)) 0 0 (descBytes 1 2) = some 2 ∧ refusalCause (s (descBytes 2 0)) 0 0 (descBytes 2 0) = some 1 ∧
     refusalCause (s wide) 0 0 wide = none ∧ treeFault (s wide) (readDescriptor wide) (descDepth wide) 0 = some 2 ∧
     refusalCause (s (descBytes 2 2)) 0 0 (descBytes 2 2) = none ∧ treeFault (s (descBytes 2 2)) (readDescriptor (descBytes 2 2)) (descDepth (descBytes 2 2)) 0 = none ∧
     (launch (after (.packetLaunch 0) (s (descBytes 1 2))) 2).fin.map (·.cause) = some 2 ∧
     (launch (after (.packetLaunch 0) (s wide)) 2).fin.map (fun e => (e.status, e.cause)) = some (1, 2) ∧
     (launch (after (.packetLaunch 0) (s (descBytes 2 2))) 2).phase = .running) := by
  delta PacketReady; decide +kernel
/-- A copy that moves its last bytes to the end of a page, one that is done, one that has failed; a queue that wants a front end; a wait at its limit. -/
theorem witness_FrontEnds : (let k : QCopy := ⟨0x10000, 0x1F000, 0x1000, 0xFF0, false, 0⟩
     let s := stream 0 [] [(0x10FF0, 7)] fun x => { x with copy := some k }
     let who := queueWho s 0 (.qcopy 0)
     let w := engineStore s who 0x1FFF0 ((leBytes 16 7).map some)
     engineLoad s who 0x10FF0 16 = (s, .bytes ((leBytes 16 7).map some) none) ∧ w.1 = { s with mem := w.1.mem } ∧ w.2 = .done none ∧
       mbyte (after (.packetCopyDone 0) s).mem 0x1FFF0 = 7) ∧
    (let s := fun b => stream 0 [] [] fun x => { x with copy := some ⟨0, 0, 8, 8, b, 16⟩ }
     (queue (after (.packetCopyDone 0) (s false)) 0).copy = none ∧ (queue (after (.packetCopyDone 0) (s true)) 0).err = 4 ∧
       (queue (after (.packetCopyDone 0) (s true)) 0).head = 16 ∧ partResetting (s true) 0 = false ∧ joiningOf (s true) 0 = none ∧
       (let u := { s true with queues := [(0, { queue (s true) 0 with launches := [1] })], work := { (s true).work with launches := [(1, own .joining dual)] } }
        joiningOf u 0 ≠ none ∧ after (.packetCopyDone 0) u = u)) ∧
    (let s := stream 8 [0x100] [] fun x => { x with bound := none }
     wantsFrontEnd s 0 = true ∧ (queue (after (.frontEndBind 0) s) 0).bound = some 0) ∧
    (let s := { stream 24 [] [] fun x => { x with wait := true } with dies := [(0, { Die.blank with cycles := 65536 })] }
     (queue s 0).wait = true ∧ (queue s 0).waitStart + 65536 ≤ cycleOf s 0 ∧ (queue (after (.frontEndRelease 0) s) 0).released = true) := by decide +kernel
/-- A header of no type, one that is too short, one with a bit that must be zero, one with irq where there is none. -/
theorem witness_StreamErrors : ∀ n ∈ [0x108, 0x103, 0x20201, 0x10100], (let s := stream 64 [BitVec.ofNat 64 n] [] id
     mayRead s 0 = true ∧ queueRead s (queueWho s 0 (.queue 0)) (packetAt (queue s 0)) 8 = (s, .ok (leBytes 8 n))) := by decide +kernel
/-- Their errors. -/
theorem test_stream_errors : (queue (after (.packetNop 0) (stream 64 [0x108] [] id)) 0).err = 1 ∧ (queue (after (.packetJump 0) (stream 64 [0x103] [] id)) 0).err = 1 ∧
     (queue (after (.packetNop 0) (stream 64 [0x20201] [] id)) 0).err = 2 ∧ (queue (after (.packetFence 0) (stream 64 [0x10100] [] id)) 0).err = 2 := by decide +kernel

/-! Witnesses and single steps of the host's writes, of the package and of its cold start. -/

/-- A package with queue 32767 and queue 5, which has priv 2. -/
def hosted (k : Queue → Queue) : State := { base with queues := [(5, { Queue.blank with priv := 2 }), (32767, k Queue.blank)] }
/-- A queue that holds work: base 0x8000, 8 bytes offered. -/
def filled (x : Queue) : Queue := { x with base := 0x8000, en := true, tail := 8, halt := false, asn := 3 }
/-- The last queue through function 0 and function 1: doorbells at and past the ring's end, ring and control writes with and without work, a halt cleared; before the package is ready. -/
theorem witness_HostQueueWrites : ready State.reset = false ∧ ready (hosted id) = true ∧ bits (preg (hosted id) 0 0x030) 31 16 = 32768 ∧ bits (preg (hosted id) 0 0x030) 14 0 = 0 ∧
    (queue (after (.doorbell 0 32767 4088) (hosted id)) 32767).tail = 4088 ∧ after (.doorbell 0 32767 4096) (hosted id) = hosted id ∧
    (after (.doorbell 0 32767 4088) (hosted id)).order = 1 ∧ (after (.doorbell 1 32767 16) (hosted filled)).order = 0 ∧
    holdsWork (queue (hosted filled) 32767) = true ∧ holdsWork (queue (hosted id) 32767) = false ∧
    (queue (after (.registerWindowWrite 1 (64 * 32767) 0x1FF8) (hosted id)) 32767).lsize = 24 ∧ after (.registerWindowWrite 1 (64 * 32767) 0x1FF9) (hosted id) = hosted id ∧
    after (.registerWindowWrite 1 (64 * 32767) 0x1018) (hosted filled) = hosted filled ∧
    (queue (after (.registerWindowWrite 0 (0x200000 + 64 * 32767 + 8) 0x4047F) (hosted id)) 32767).asn = 4 ∧
    after (.registerWindowWrite 0 (0x200000 + 64 * 32767 + 8) 0x8001) (hosted id) = hosted id ∧
    queuePart (hosted id) 32767 = some 0 ∧
    (let s := { hosted id with tdisp := [(0, .run)] }
     (queuePart s 32767).any (locked s) = true ∧ tdispOf (after (.registerWindowWrite 0 (0x200000 + 64 * 32767 + 8) 0x4001) s) 0 = .error) ∧
    (∀ i ∈ [Instr.doorbell 0 5 8, .haltClear 0 5 1, .registerWindowWrite 0 (0x200000 + 64 * 5) 0x100C], (after i State.reset).out.unsupported = 1) ∧
    (queue (after (.haltClear 1 32767 1) (hosted fun x => { x with halt := true, err := 4 })) 32767).err = 0 := by decide +kernel
/-- A package with sink 2 of partition 15 on, its counters apart; en of partition 15 written 0 before. -/
def sunk (ctl : Word) : State := { base with regs := [(15 * 4096, 0x100), (15 * 4096 + 0x046, ctl), (15 * 4096 + 0x04A, 0x1000), (15 * 4096 + 0x04E, 0x10)] }
/-- pctl.en cleared, then set; csctl with another asn, with the same, off and on; csrd at both ends of its range and past them; the trace bit of the running launch. -/
theorem witness_HostRegisterWrites_partition : ready (sunk 0) = true ∧ preg (sunk 0x0301) 15 0x046 = 0x0301 ∧ preg (sunk 0) 15 0x04A = 0x1000 ∧
    tget 0 (after (.pctlWrite 15 0) (sunk 0)).resets 15 = 1 ∧ partResetting (after (.pctlWrite 15 0x100) { sunk 0 with regs := [], resets := [(15, 1)] }) 15 = true ∧
    (preg { sunk 0 with regs := [] } 15 0).getLsbD 8 = false ∧ after (.csctlWrite 15 2 0x0401) (sunk 0x0301) = sunk 0x0301 ∧
    preg (after (.csctlWrite 15 2 0xFF0309) (sunk 0x0309)) 15 0x046 = 0xFF0301 ∧ preg (after (.csctlWrite 15 2 0x0401) (sunk 0)) 15 0x04A = 0 ∧
    preg (after (.csrdWrite 15 2 0x1000) (sunk 0x0301)) 15 0x04E = 0x1000 ∧ after (.csrdWrite 15 2 0x1001) (sunk 0x0301) = sunk 0x0301 ∧
    2 ^ bits (preg (sunk 0) 15 0x042) 4 0 = 0x1000 ∧ preg (after (.csrdWrite 15 2 0) (sunk 0x0301)) 15 0x04E = 0 ∧
    launchNamed base 0 1 = some 1 ∧ launchNamed base 0 2 = none ∧ (launch (after (.ptraceWrite 0 0x100000001) base) 1).trace = true ∧
    (group (after (.ptraceWrite 0 0x100000001) base) 1).trace.next = some true := by decide +kernel
/-- A package without and with a number, whose launch names it alone, or another too. -/
def named (en : Bool) (m : BitVec 64) : State :=
  { base with pod := { Pod.cold with en := en, chip := if en then 5 else 0 }, work := { base.work with launches := [(1, { job with d := { job.d with mask := m } })] } }
/-- Number 63 taken; another number refused; en cleared, and not while a launch names another package. -/
theorem witness_HostRegisterWrites_podcfg : ready (named false 1) = true ∧ (after (.podcfgWrite 0x13F) (named false 1)).out.messages = [.announce 63] ∧
    after (.podcfgWrite 0x106) (named true 0x20) = named true 0x20 ∧ multiChipWork (named true 0x21) = true ∧ multiChipWork (named true 0x20) = false ∧
    after (.podcfgWrite 5) (named true 0x21) = named true 0x21 ∧ (after (.podcfgWrite 5) (named true 0x20)).pod.en = false ∧
    (after (.podcfgWrite 7) (named false 1)).pod.chip = 7 := by decide +kernel
/-- An interface locked, started, stopped and reset, with its launch killed; measurements 1 to 3, 4 and 19; index 20. -/
theorem witness_DeviceInterfaces : ready base = true ∧ tdispOf base 15 = .configUnlocked ∧ tdispOf (after (.tdispLockInterface 15) base) 15 = .configLocked ∧
    tdispOf (after (.tdispStartInterface 0) { base with tdisp := [(0, .configLocked)] }) 0 = .run ∧
    tdispOf (after (.tdispStop 0) { base with tdisp := [(0, .run)] }) 0 = .configUnlocked ∧ base.parts = [] ∧
    (launch (after (.functionLevelReset 0) base) 1).fin.isSome = true ∧
    (let s := { base with boot := { base.boot with keyed := true } }
     ready s = true ∧ (∀ i ∈ [1, 2, 3, 4, 19], (after (.spdmRequest i) s).out.spdm.length = 1) ∧ (after (.spdmRequest 20) s).out.spdm.length = 0) ∧
    base.boot.keyed = false ∧ (after (.spdmRequest 1) base).out.spdm.length = 0 := by decide +kernel
/-- The last granule of unit 1 of die 3, which function 2 may reach, and the first of unit 2, which it may not; the end of the storage. -/
theorem witness_HostMemory : (let s := { base with regs := [(4096 + 0x013, 0x0101)], mem := [(dieBase 3 + 0x3FFFFFFF, 0xAB)] }
     ready s = true ∧ bits (preg s 1 0x013) 7 0 = 1 ∧ bits (preg s 1 0x013) 15 8 = 1 ∧
       (after (.hostMemAccess 2 (3 * 0x1800000000 + 0x3FFFFFC0) false (List.replicate 64 0)) s).out.host = [(List.replicate 63 0 ++ [0xAB], false)] ∧
       (after (.hostMemAccess 2 (3 * 0x1800000000 + 0x40000000) false [0]) s).out.host = [([], true)] ∧
       mbyte (after (.hostMemAccess 0 (3 * 0x1800000000 + 0x3FFFFFFF) true [7]) s).mem (dieBase 3 + 0x3FFFFFFF) = 7 ∧
       goes (exec (.hostMemAccess 0 (4 * 0x1800000000) true [7]) s) = false ∧ s.parts = []) ∧
    State.reset.boot.power = true ∧ (after (.hostMemAccess 0 0 true [7]) State.reset).out.unsupported = 1 := by decide +kernel
/-- The own number announced elsewhere, and no longer; another number, and gone; a port that loses its lanes. -/
theorem witness_PodEvents : (let s := { named true 0x20 with boot := { base.boot with power := true } }
     let met := after (.podAnnouncement 63 false) s
     s.boot.power = true ∧ s.pod.chip.toNat = 5 ∧ (after (.podAnnouncement 5 false) s).pod.dup = true ∧
       met.pod.peers.getLsbD 63 = true ∧ reaches met.pod 63 = true ∧ (after (.chipUnreachable 5) s).pod.peers.getLsbD 5 = true ∧
       (let late := { met with time := { met.time with now := 77 } }
        (after (.chipUnreachable 63) late).pod.peers.getLsbD 63 = false ∧ tget 0 (after (.chipUnreachable 63) late).pod.gone 63 = 77) ∧
       tget 0 (after (.ualinkLaneFailure 11) s).pod.ports 11 = 1 ∧ after (.ualinkLaneFailure 12) s = s) := by decide +kernel
/-- A request that waits at another chip, and 10 ms that have passed and have not. -/
theorem witness_PodEvents_timeout : (let x : Walk := ⟨8, 0x20000, 0, 0, 0, 1, false, [], 0, 0, 0, 0, 0⟩
     let s := fun n => { setWalk base 4 (some x) with boot := { base.boot with power := true }, time := { base.time with now := n } }
     let s := fun n => { s n with work := { (s n).work with waits := [⟨4, .scalar 1, 1, 0⟩] } }
     walk (s 0) 4 = some x ∧ 8 / 4 ≠ chipNo (s 0) ∧ after (.remoteRequestTimeout (.scalar 1)) (s 2559999999) = s 2559999999 ∧
       (after (.remoteRequestTimeout (.scalar 1)) (s 2560000000)).work.faults = [(.scalar 1, 8, pageOf 0x20000, causeUndelivered)]) := by decide +kernel

/-! Witnesses and single steps of time, records and the cold start. -/

/-- A package in whose sink 0 of die 0 a record may be written, with what it holds. -/
def timed (k : Sink) : State :=
  { base with time := { base.time with now := 256000000 }, sinks := [(0, k)], regs := [(0, 0x100), (0x040, 0x1000C), (0x044, 0xFFFF0001)] }
/-- The time-base record that is due. -/
def baseRec (s : State) (q : Nat) : List Byte := [0xC0] ++ varint (10 * 2 ^ 20) ++ leBytes 8 (s.time.now / 256) ++ [BitVec.ofNat 8 (s.time.now % 256), BitVec.ofNat 8 q]
/-- A lock lost, an input outside its tolerance, held over for 1 s and less; an offset of 1 ms and one beyond it. -/
theorem witness_TimeEvents_lock : (let s := fun l o => { timed Sink.blank with time := ⟨256000000000, l, 0, 0, o⟩ }
     (s .locked false).boot.power = true ∧ (after .ptpInputLoss (s .locked false)).time.lock = .holdover ∧
       (after (.ptpInputRestore none) (s .locked false)).time.outside = true ∧ (after .ptpInputLoss (s .holdover true)).time.outside = false ∧
       after .ptpInputLoss (s .holdover false) = s .holdover false ∧
       (after .holdoverExpiry (s .holdover false)).time.lock = .freeRunning ∧ after .holdoverExpiry (s .holdover true) = s .holdover true ∧
       (let late := { s .holdover false with time := ⟨256000000000, .holdover, 0, 1, false⟩ }
        after .holdoverExpiry late = late) ∧
       (after (.ptpInputRestore (some 256000000)) (s .freeRunning false)).time.slew = 256000000 ∧
       (after (.ptpInputRestore (some 256000001)) (s .freeRunning false)).time.now = 256256000001) := by decide +kernel
/-- A time base that is due, one that is not; a record held back. -/
theorem witness_TimeEvents_records : (let s := timed { Sink.blank with fresh := true }
     sinkOn s 0 0 = true ∧ (die s (chipNo s * 4 + 0)).stopped = false ∧ (sink s 0 0).held = [] ∧ (sink s 0 0).lost = 0 ∧ (sink s 0 0).unit ≤ s.time.now ∧
       (preg s 0 0x048).toNat + padFor s 0 0 (baseRec s 2).length + (baseRec s 2).length ≤ ringSize s 0 0 + (preg s 0 0x04C).toNat ∧
       (ringWrite s 0 0 (baseRec s 2)).2 = .wrote ∧ (sink (after (.timeBaseTimer 0 0) s) 0 0).base = 256000000) ∧
    (let k := { Sink.blank with base := 1 }
     (sink (timed k) 0 0).fresh = false ∧ after (.timeBaseTimer 0 0) (timed k) = timed k ∧ after (.heldRecordEmit 0 0) (timed k) = timed k) ∧
    (let r : TraceRec := ⟨6, 1, 0, 255999000, [1, 2], true⟩
     let s := timed { Sink.blank with base := 1, held := [r], count := 65535 }
     let b := encodeRec r (sink s 0 0).last
     r.typ ≠ 0xC ∧ kindOn s 0 0 r = true ∧ ownRec r = false ∧
       (preg s 0 0x048).toNat + padFor s 0 0 b.length + b.length ≤ ringSize s 0 0 + (preg s 0 0x04C).toNat ∧ (ringWrite s 0 0 b).2 = .wrote ∧
       sinkOn (ringWrite s 0 0 b).1 0 0 = true ∧ (sink (after (.heldRecordEmit 0 0) s) 0 0).held = []) ∧
    (let s := timed { Sink.blank with base := 1, held := [⟨9, 0, 10 * 2 ^ 20, 5, [1], false⟩], unit := 9 }
     ownRec ⟨9, 0, 10 * 2 ^ 20, 5, [1], false⟩ = true ∧ (sink (after (.heldRecordEmit 0 0) s) 0 0).unit = 9) := by decide +kernel
/-- Die 3 lowered, raised to its limit, beyond it, stopped and started. -/
theorem witness_ClockEvents : (let s := fun (m : Nat) (b : Bool) => { base with dies := [(3, { Die.blank with mhz := m, stopped := b })] }
    (s 800 false).boot.power = true ∧ (die (after (.clockLimit 3 1) (s 800 false)) 3).mhz = 1 ∧ (die (after (.clockRaise 3 1600) (s 800 false)) 3).mhz = 1600 ∧
      after (.clockRaise 3 1601) (s 800 false) = s 800 false ∧ after (.clockLimit 3 800) (s 800 false) = s 800 false ∧ after (.clockRestart 3) (s 800 false) = s 800 false ∧ (die (after (.clockStop 3) (s 800 false)) 3).stopped = true ∧
      (die (after (.clockRestart 3) (s 800 true)) 3).stopped = false) := by decide +kernel
/-- A clock event meets no sink. -/
theorem noSinks_base : NoSinks base := noSinks_of _ rfl
/-- The last unit of each kind, once; a repeated error. -/
theorem witness_SoftErrors : ready base = true ∧ (group base 1).live = true ∧ (team base 1).live = true ∧ 255 < (descOf base 1).v ∧ 7 < (descOf base 1).q ∧
    3 < (launch base (team base 1).launch).d.t ∧ 64 * 1023 < (launch base (team base 1).launch).d.s ∧ storedHere base 0x400 = true ∧
    (group (after (.softError (.lane 1 255 127) false) base) 1).poison = [⟨1, 255, 127⟩] ∧ (group (after (.softError (.scalar 1 63) false) base) 1).poison = [⟨0, 63, 0⟩] ∧
    (team (after (.softError (.scratch 1 1023) false) base) 1).poison = [1023] ∧ (team (after (.softError (.slot 1 3 1023) false) base) 1).poison = [2 ^ 32 + 4095] ∧
    (after (.softError (.memory 0x400) false) base).bad = [0x400] ∧ (after (.softError (.scalar 1 1) true) base).boot.journal.length = 1 ∧
    (let live := after (.softError (.flip 1 0 5 575 false) false) base
     let dark := after (.softError (.flip 1 0 5 575 true) false) base
     (laBytes (tget LA.zero (team live 1).acc 5)).getD 71 0 = 0x80 ∧ (laBytes (tget LA.zero (team live 1).shadow 5)).getD 71 0 = 0 ∧
       (laBytes (tget LA.zero (team dark 1).shadow 5)).getD 71 0 = 0x80 ∧ (team live 1).poison = []) := by decide +kernel
/-- A package at a step of its cold start. -/
def starting (b : Boot) : State := { State.reset with boot := b }
/-- A failure recorded of step k before. -/
def failed (k : Nat) : Journal := ⟨1, k, 2, 3, 4, 0, false⟩

/-- The steps of a cold start: the power comes on, a step passes, one fails at the last attempt that restarts and at the last of all, an alternative passes, its spares are used up, a position and a port are left out, step 9 ends it; a failure of step 1 recorded before. Whether a signature holds is a free value; result 2 of step 2 needs none. -/
theorem witness_ColdStartSteps : (let b := Boot.cold
    let at_ := fun (n a o st : Nat) (j : List Journal) => starting { b with next := n, attempt := a, outcome := o, step := st, journal := j }
    let run := fun (r : Nat) (s : State) => (after (.coldStart r 3 4) s).boot
    (starting { b with power := false }).boot.power = false ∧ (run 0 (starting { b with power := false })).power = true ∧ (starting b).boot.phase = 0 ∧ b.next = 1 ∧
      lastFailure b 1 = none ∧ (run 0 (starting b)).next = 2 ∧ (run 0 (starting b)).keyed = true ∧ (run 1 (starting b)).phase = 3 ∧
      (run 0 (at_ 1 1 0 1 [failed 1])).phase = 3 ∧ (run 2 (at_ 2 1 0 1 [])).phase = 3 ∧ (run 0 (at_ 3 1 0 2 [])).phase = 1 ∧
      (run 1 (at_ 4 3 0 3 [])).next = 1 ∧ (run 1 (at_ 8 4 0 7 [])).phase = 3 ∧
      lastFailure (at_ 7 1 0 6 [failed 7]).boot 7 = some (failed 7) ∧ ((run 0 (at_ 7 1 0 6 [failed 7])).field.map (·.sites)) = some [3] ∧
      (run 2 (at_ 4 1 0 3 [failed 4])).phase = 3 ∧ ((run 0 (at_ 8 1 0 7 [failed 8])).field.map (·.ports)) = some [(3, 1)] ∧ (run 0 (at_ 9 1 0 8 [])).phase = 2 ∧
      (after (.coldStart 0 0 0) (at_ 9 1 0 8 [])).time.lock = .locked ∧ (run 0 (at_ 1 1 2 4 [])).attempt = 2) := by decide +kernel
/-- What an alternative may still do, at each bound: a second channel of a stack, the third rate of a die and no fourth, a second halving, the ninth retired site of a die with and without a retired spare, a port on its spare lane. -/
theorem witness_BringUpSpares : (let f := emptyField
    alternative { f with channels := [(5, 1)] } 4 0 5 2 = none ∧ (alternative { f with channels := [(5, 1)] } 4 3 5 2).isSome = true ∧
      (alternative { f with rates := [(1, 1)] } 5 0 256 0).map (fun g => tget 0 g.rates 1) = some 2 ∧ alternative { f with rates := [(1, 2)] } 5 0 256 0 = none ∧
      (alternative { f with halves := [2] } 6 0 2 0).isSome = true ∧ alternative { f with halves := [2] } 6 2 2 0 = none ∧
      vacancies { f with sites := List.range 8 } 0 = [] ∧ vacancies { f with sites := List.range 9 } 0 = [8] ∧ vacancies { f with sites := 64 :: List.range 8 } 0 = [7] ∧
      vacancies { f with sites := List.range 9 } 1 = [] ∧ vacancies { f with sites := [0, 1, 64, 65, 66, 67, 68, 69, 70, 71] } 0 = [0, 1] ∧
      (alternative { f with ports := [(3, 1)] } 8 0 3 0).map (fun g => (tget 0 g.ports 3, leftOut { f with ports := [(3, 1)] } g 8 3)) = some (2, true) ∧
      (alternative f 8 0 3 0).map (fun g => (tget 0 g.ports 3, leftOut f g 8 3)) = some (1, false)) := by decide +kernel
/-- No sink is on at a cold start. -/
theorem noSinks_starting (b : Boot) : NoSinks (starting b) := noSinks_of _ rfl
/-- The shortest image and the longest; an address of firmware; the loss of power. -/
theorem witness_FirmwareAndPower : (let s := starting { Boot.cold with phase := 1, next := 3, step := 3 }
    s.boot.power = true ∧ s.boot.phase = 1 ∧ bits (4096 : Word) 23 0 = 4096 ∧ bits (0x800000 : Word) 23 0 = 2 ^ 23 ∧ (0x1000 : Word).toNat % 4096 = 0 ∧
      (after (.registerWindowWrite 0 8 0x1000) s).boot.fwbase = 0x1000 ∧ after (.fwlenWrite 4095) s = s ∧ after (.fwlenWrite 0x800001) s = s ∧
      (after (.powerLoss true) s).boot.power = false ∧ hostRead s 0 8 = some 0 ∧ hostRead s 0 0 = some 0x1030001 ∧ hostRead s 1 0 = none ∧ ready s = false ∧
      (after (.fwlenWrite 4096) s).boot.fwlen = 4096 ∧ (after (.fwlenWrite 4096) s).boot.outcome = 2) := by decide +kernel
/-- Time that slews forward past a multiple of 5,120, and backward. -/
theorem witness_TimePasses : (let s := fun n => { base with time := { base.time with now := 5000, slew := n } }
    (s 1).boot.power = true ∧ (5000 < 5120 * 1 ∧ 5120 * 1 ≤ 5000 + 160) ∧ (beforeTurn (s 1)).time.now = 5161 ∧ (beforeTurn (s (-1))).time.now = 5159 ∧
      (beforeTurn (s 0)).time.now = 5160) := by decide +kernel
/-- A step from a settled state whose agenda holds an event. -/
theorem witness_StepKeepsSettled : (let s := { base with cur := .none, agenda := [.event (.launchEnd 1)] }
    s.cur = .none ∧ heldBack s = false ∧ (match step s with | .next t => t.cur == .none && !heldBack t | _ => false) = true) := by decide +kernel
/-- Memory of two cells, written, cleared and renumbered; a store in it. -/
theorem witness_MemoryStaysCanonical : Memory.wf [(0x1FFFC, 1), (0x1FFFD, 2)] = true ∧ Memory.wf (mwrite [(0x1FFFC, 1), (0x1FFFD, 2)] 0x1FFFB [9, 0]) = true ∧
    mwrite [(0x1FFFC, 1), (0x1FFFD, 2)] 0x1FFFB [9, 0] = [(0x1FFFB, 9), (0x1FFFD, 2)] ∧ goes (exec (.sst 8 6 0 false 0) (full [(6, 0x1FFFC)])) = true ∧
    Memory.wf (full [(6, 0x1FFFC)]).mem = true := by decide +kernel

/-! Words written out from the encodings of the spec, and the instructions they stand for; words that stand for none; terms that are ill-formed. -/

/-- Whether the decoder reads each word as its instruction. -/
def readsScalar (l : List (BitVec 32 × Instr)) : Bool :=
  l.all fun e => match decodeScalar e.1 with
    | .ok i => decide (i = e.2)
    | .error _ => false
/-- Scalar words (R147 to R151): integer arithmetic, logic, multiplication. -/
theorem test_decode_scalar_alu : readsScalar [
    (0x0553F900, .sadd 21 15 57), (0x06F65001, .ssub 47 25 16), (0x079C2A02, .sseq 57 48 42), (0x05028103, .ssne 16 10 1),
    (0x06A87304, .sslt 42 33 51), (0x0414CD05, .ssltu 1 19 13), (0x073B5706, .smin 51 45 23), (0x04DDEE07, .sminu 13 55 46),
    (0x05738808, .smax 23 14 8), (0x06EA1F09, .smaxu 46 40 31), (0x048FD140, .sand 8 63 17), (0x05FC6B41, .sor 31 49 43), (0x0512F542, .sxor 17 11 53),
    (0x06B54C43, .sandn 43 21 12), (0x075B2644, .sshl 53 44 38), (0x04C1BD45, .sshr 12 6 61), (0x06676F46, .ssra 38 29 47),
    (0x07D3C947, .srol 61 15 9), (0x06FA5348, .sror 47 41 19), (0x049CEA80, .smul 9 51 42), (0x05328481, .smulh 19 10 4),
    (0x06A91B82, .smulhu 42 36 27), (0x044ECD83, .sdiv 4 59 13), (0x05BB6784, .sdivu 27 45 39), (0x04D1F185, .srem 13 7 49),
    (0x06744886, .sremu 39 17 8)] = true := by decide +kernel
/-- Scalar words (R147 to R151): bit counts, bytes, immediates. -/
theorem test_decode_scalar_immediate : readsScalar [
    (0x071A00A0, .sclz 49 40), (0x048080A1, .sctz 8 2), (0x062640A2, .spopc 34 25), (0x0792C0A3, .sbswap 57 11), (0x06B940A4, .ssx8 43 37),
    (0x045BC0A5, .ssx16 5 47), (0x04F180A6, .ssx32 15 6), (0x066800A7, .szx32 38 32), (0x080DDA89, .saddi 0 55 0x1A89),
    (0x0D7A7A63, .sandi 23 41 0x3A63), (0x1090D52D, .sori 9 3 0x152D), (0x16334EC4, .sxori 35 13 0xEC4), (0x1AD92E9E, .sslti 45 36 0x2E9E),
    (0x1C4F8035, .sshli 4 62 53), (0x1DE54067, .sshri 30 21 39), (0x1F51C081, .ssrai 53 7 1), (0x1E7840CB, .srori 39 33 11),
    (0x2010162B, .slui 1 0x162B), (0x24B14FC2, .sshlo 11 0x14FC2)] = true := by decide +kernel
/-- Scalar words (R147 to R151): loads, stores, atomics, fences. -/
theorem test_decode_scalar_memory : readsScalar [
    (0x422737DF, .sld 34 28 6 true 0x3DF), (0x47CCDEA9, .sst 60 51 3 true 0x2A9), (0x49395F15, .sldX 19 37 31 5 true),
    (0x485FE90A, .sstX 5 63 41 2 false), (0x49F24A22, .sldAcq 31 9 2 false 10), (0x4A980129, .sstRel 41 32 1 false 1), (0x480EB134, .sldRo 0 58 49 4),
    (0x4DA46D02, .samoSwap ⟨26, 17, false, true, 13, true, false⟩), (0x4F10F704, .samoAdd ⟨49, 3, true, true, 7, false, false⟩),
    (0x4E375E09, .samoAnd ⟨35, 29, true, false, 14, false, true⟩), (0x4FD9E80F, .samoOr ⟨61, 39, false, true, 8, true, true⟩),
    (0x4C7FBF13, .samoXor ⟨7, 62, true, true, 15, true, true⟩), (0x4DE61117, .samoMinI ⟨30, 24, true, false, 1, true, true⟩),
    (0x4F8BEB1A, .samoMaxI ⟨56, 47, false, true, 11, true, false⟩), (0x4CF8751C, .samoMinN ⟨15, 33, true, true, 5, false, false⟩),
    (0x4C1EDC21, .samoMaxN ⟨1, 59, true, false, 12, false, true⟩), (0x4FE16627, .samoCas ⟨62, 5, false, true, 6, true, true⟩), (0x51400000, .sfence 5),
    (0x53100000, .sfenceAcq 12), (0x51A00000, .sfenceRel 6)] = true := by decide +kernel
/-- Scalar words (R147 to R151): control flow, releases, status, counter waits. -/
theorem test_decode_scalar_control : readsScalar [
    (0x62D9FFF0, .sbr 45 9 0xFFF0), (0x64051F1F, .sjmp 0x51F1F), (0x682ABEF9, .scall 0x2ABEF9), (0x6C00C000, .sjr 3), (0x6C068001, .scallr 26),
    (0x6C000002, .sret), (0x6C000003, .sexit), (0x800003FD, .lrun 0x3FD), (0x822ABFD7, .ljmp 0x2ABFD7), (0x84084000, .lrunr 33),
    (0x840E0001, .ljmpr 56), (0x84000002, .lsync), (0x8690000A, .lmask 41 2), (0x85B0000C, .lsumm 27), (0x8B500B5F, .sget 53 0xB5F),
    (0xA3FD8000, .kwait 63 54 0), (0xA1640010, .waitLd 22 16), (0xA309C011, .waitSt 48 39), (0xA0764012, .waitCp 7 25), (0xA39CC013, .waitTl 57 51),
    (0xA404FD00, .barInit 19 61)] = true := by decide +kernel
/-- Scalar words (R147 to R151): barriers, booths, copies, tile registers, shapes, objects, collectives, trace. -/
theorem test_decode_scalar_objects : readsScalar [
    (0xA4074001, .barFree 29), (0xA74BA502, .barArrive 52 46 37), (0xA4038003, .barWait 14), (0xA6500708, .sbarArrive 37 7),
    (0xA405C109, .sbarWait 23 1), (0xAB16D692, .yieldc 49 27 0x1692), (0xAC0EF200, .bdecl 59 50), (0xAD230301, .bput 18 12 3),
    (0xAEC8F502, .bputw 44 35 53), (0xAC354003, .btake 3 21), (0xAC0D4004, .bdrop 53), (0xC003C000, .xcopy 15), (0xC4940A00, .tset 9 16 10),
    (0xC40A8001, .tsetb 0 42), (0xC4A04002, .tsets 10 1), (0xC610C010, .tgetl 33 3), (0xC5334011, .tgeth 19 13), (0xCAD5C000, .shalloc 45 23),
    (0xC80DC001, .shfree 55), (0xC8E20002, .shtest 14 8), (0xCE87F100, .cobjDecl 40 31 49), (0xCCF44B01, .cobjMode 15 17 11),
    (0xCC0C4002, .cobjFree 49), (0xCCBD4003, .cobjQuery 11 53), (0xD1530600, .creduce 21 12 6), (0xD2C99D01, .callred 44 38 29),
    (0xD06F4F02, .credscat 6 61 15), (0xD1DBE903, .callgath 29 47 41), (0xD0F27304, .calltoall 15 9 51), (0xD294CA05, .cbcast 41 19 10),
    (0xD33A8006, .cabort 51 42), (0xE0028400, .tmark 10 4), (0xE0000001, .tsync), (0xE00EC002, .tsamp 59), (0xF2D9C000, .spget 45 39)] = true := by decide +kernel
/-- Scalar words (R147 to R151): the privileged families. -/
theorem test_decode_scalar_privileged : readsScalar [
    (0xF001F101, .spset 7 49), (0xF0044808, .sslotw 17 8), (0xF2888009, .sslotr 40 34), (0xF000800A, .sslotx 2), (0xF19AE510, .spreq 25 43 37),
    (0xF0B00011, .sgpl 11), (0xF4094F00, .tlbroot 37 15), (0xF40BE601, .tlbinv 47 38), (0xF4600302, .carve 6 0 3), (0xF605E903, .pmap 32 23 41),
    (0xF7724304, .pgive 55 9 3), (0xF698C008, .wldp 41 35), (0xF43B6409, .wcasp 3 45 36), (0xF403440A, .tlbfill 13 4), (0xF4091E10, .wentry 36 30),
    (0xF8000000, .eret), (0xF8054001, .ekill 21), (0xF8704002, .efget 7 1), (0xF8084B03, .efset 33 11)] = true := by decide +kernel
/-- The same for lane words. -/
noncomputable def readsLane (l : List (BitVec 96 × Instr)) : Bool :=
  l.all fun e => match decodeLane e.1 with
    | .ok i => decide (i = e.2)
    | .error _ => false
/-- Lane words (R152 to R159): integer instructions (R206). -/
theorem test_decode_lane_integer : readsLane [
    (0x00420C18002C5C0400000000, .vadd ⟨⟨true, 3, 5, true, true, false, false⟩, false, false, true, 0x8, 0x30, .reg 0x60⟩),
    (0x08828C804000008400000000, .vsub ⟨plain, true, false, true, 0xA, 0x32, .scal 1⟩),
    (0x00C30D0000000050FFFF0002, .vmul ⟨plain, false, true, false, 0xC, 0x34, .imm 0xFFFF0002⟩),
    (0x09038D99802C5C1000000000, .vmulh ⟨⟨true, 3, 5, true, true, false, false⟩, true, true, false, 0xE, 0x36, .reg 0x66⟩),
    (0x09848E8000000040FFFF0005, .vmin ⟨plain, true, false, false, 0x12, 0x3A, .imm 0xFFFF0005⟩),
    (0x01C50F1B002C5C1000000000, .vmax ⟨⟨true, 3, 5, true, true, false, false⟩, false, true, false, 0x14, 0x3C, .reg 0x6C⟩),
    (0x0A058F81C000009000000000, .vdiv ⟨plain, true, true, false, 0x16, 0x3E, .scal 7⟩),
    (0x0246100000000040FFFF0008, .vrem ⟨plain, false, false, false, 0x18, 0x40, .imm 0xFFFF0008⟩),
    (0x0A86909C802C5C0000000000, .vand ⟨⟨true, 3, 5, true, true, false, false⟩, true, false, false, 0x1A, 0x42, .reg 0x72⟩),
    (0x02C711028000009000000000, .vor ⟨plain, false, true, false, 0x1C, 0x44, .scal 10⟩),
    (0x0B07918000000050FFFF000B, .vxor ⟨plain, true, true, false, 0x1E, 0x46, .imm 0xFFFF000B⟩),
    (0x0348121E002C5C0000000000, .vandn ⟨⟨true, 3, 5, true, true, false, false⟩, false, false, false, 0x20, 0x48, .reg 0x78⟩),
    (0x0B8892834000008000000000, .vshl ⟨plain, true, false, false, 0x22, 0x4A, .scal 13⟩),
    (0x03C9130000000050FFFF000E, .vshr ⟨plain, false, true, false, 0x24, 0x4C, .imm 0xFFFF000E⟩),
    (0x01404080C108111000000000, .vmad ⟨⟨false, 2, 1, false, false, false, true⟩, false, true, 1, 2, .reg 3, 4⟩),
    (0x0401C2000000000000000000, .vclz ⟨plain, false, false, 7, 8⟩), (0x0C4182800000001000000000, .vpopc ⟨plain, true, true, 6, 10⟩),
    (0x06C14242C000001000000000, .vcmp ⟨plain, false, true, 3, 5, 9, .reg 11⟩), (0x0F41C2800000004000000009, .vcmp ⟨plain, true, false, 5, 7, 10, .imm 9⟩)] = true := by decide +kernel
/-- Lane words (R152 to R159): packed integers, dot products, moves, coordinates (R207 to R209). -/
theorem test_decode_lane_packed : readsLane [
    (0x10004080C000001400000000, .vaddPacked ⟨plain, .w4, true, true, 1, 2, .reg 3⟩),
    (0x12404080C000000400000000, .vsubPacked ⟨plain, .w8, false, true, 1, 2, .reg 3⟩),
    (0x14804080C000009000000000, .vminPacked ⟨plain, .w16, true, false, 1, 2, .scal 3⟩),
    (0x10C040800000004000000007, .vmaxPacked ⟨plain, .w4, false, false, 1, 2, .imm 7⟩),
    (0x13004080C000000000000000, .vmulPacked ⟨plain, .w8, false, false, 1, 2, .reg 3⟩),
    (0x15404080C000000000000000, .vcmpEqPacked ⟨plain, .w16, false, 1, 2, .reg 3⟩), (0x11804080C000001000000000, .vcmpLtPacked ⟨plain, .w4, true, 1, 2, .reg 3⟩),
    (0x13C04080C000001000000000, .vcmpLePacked ⟨plain, .w8, true, 1, 2, .reg 3⟩),
    (0x16004080C100001400000000, .vdot ⟨plain, .w8, true, false, true, 1, 2, .reg 3, 4⟩),
    (0x16404080C100002000000000, .vdot ⟨plain, .w16, false, true, false, 1, 2, .reg 3, 4⟩),
    (0x16804080C100000000000000, .vdot ⟨plain, .w4, false, false, false, 1, 2, .reg 3, 4⟩), (0x18004000C000000000000000, .vmovN32 ⟨plain, false, 1, .reg 3⟩),
    (0x18404080C140000000000000, .vselN32 ⟨plain, false, 1, 2, .reg 3, 5⟩), (0x1880810181C0000000000000, .vselN64 ⟨plain, false, 2, 4, .reg 6, 7⟩),
    (0x18C040000000000000000015, .vcoord ⟨plain, false, 1, 0x15⟩), (0x194080010000000000000000, .vmovN64 ⟨plain, false, 2, .reg 4⟩)] = true := by decide +kernel
/-- Lane words (R152 to R159): floating-point instructions, conversions, special functions (R210 to R217). -/
theorem test_decode_lane_float : readsLane [
    (0x20004080C000000C00000000, .vaddFp ⟨plain, false, 0, true, true, 1, 2, .reg 3⟩),
    (0x20404080C000000D00000000, .vsubFp ⟨plain, false, 1, true, true, 1, 2, .reg 3⟩),
    (0x20804080C000000E00000000, .vmulFp ⟨plain, false, 2, true, true, 1, 2, .reg 3⟩),
    (0x28C081018200000400000000, .vfma ⟨plain, true, 0, true, false, 2, 4, .reg 6, 8⟩),
    (0x290081018200000500000000, .vfms ⟨plain, true, 1, true, false, 2, 4, .reg 6, 8⟩),
    (0x294081018200000600000000, .vfnma ⟨plain, true, 2, true, false, 2, 4, .reg 6, 8⟩),
    (0x21804080C000008300000000, .vdivFp ⟨plain, false, 3, false, false, 1, 2, .scal 3⟩),
    (0x29C081000000000100000000, .vsqrt ⟨plain, true, 1, false, false, 2, 4⟩), (0x31804080C000000000000000, .vcmpFp ⟨plain, false, 6, 1, 2, .reg 3⟩),
    (0x328040810000000000000000, .vcmpFp ⟨plain, true, 2, 1, 2, .reg 4⟩), (0x34004080C000000000000000, .vminFp ⟨plain, false, 1, 2, .reg 3⟩),
    (0x34C081018000000000000000, .vmaxFp ⟨plain, true, 2, 4, .reg 6⟩), (0x350040800000000000000000, .vneg ⟨plain, false, 1, 2⟩),
    (0x360081000000000000000000, .vabs ⟨plain, true, 2, 4⟩), (0x35804080C000000000000000, .vcsgn ⟨plain, false, 1, 2, .reg 3⟩),
    (0x364081018000000000000000, .vcsgn ⟨plain, true, 2, 4, .reg 6⟩), (0x36C041000000000000000000, .vclass ⟨plain, true, 1, 4⟩),
    (0x38004080C000000400000000, .vaddF16 ⟨plain, false, 0, true, 1, 2, .reg 3⟩), (0x3A404080C000000500000000, .vsubF16 ⟨plain, true, 1, true, 1, 2, .reg 3⟩),
    (0x38804080C000000600000000, .vmulF16 ⟨plain, false, 2, true, 1, 2, .reg 3⟩),
    (0x3AC04080C100000200000000, .vfmaF16 ⟨plain, true, 2, false, 1, 2, .reg 3, 4⟩), (0x39004080C000000000000000, .vminF16 ⟨plain, false, 1, 2, .reg 3⟩),
    (0x3B404080C000000000000000, .vmaxF16 ⟨plain, true, 1, 2, .reg 3⟩), (0x39804080C000000000000000, .vcmpEqF16 ⟨plain, false, 1, 2, .reg 3⟩),
    (0x3BC04080C000000000000000, .vcmpLtF16 ⟨plain, true, 1, 2, .reg 3⟩), (0x3C004080C100000000000000, .vdot2 ⟨plain, true, 0, false, 1, 2, .reg 3, 4⟩),
    (0x3C404080C100000000000000, .vdot2 ⟨plain, false, 0, false, 1, 2, .reg 3, 4⟩), (0x4001008000000002000030AD, .vcvt ⟨plain, 0xD, 0xA, 3, 0, 2, false, 4, 2⟩),
    (0x4001008000000004000001B9, .vcvt ⟨plain, 9, 0xB, 0, 1, 0, true, 4, 2⟩), (0x40410080C0000005000000AC, .vcvtp ⟨plain, true, 1, true, 4, 2, 3⟩),
    (0x500100800000000000000000, .vfrsqe ⟨plain, 4, 2⟩), (0x504100C00000000000000000, .vfrcpe ⟨plain, 4, 3⟩),
    (0x508101000000000000000000, .vfexp2 ⟨plain, 4, 4⟩), (0x50C101400000000000000000, .vflog2 ⟨plain, 4, 5⟩),
    (0x510101800000000000000000, .vfsinpi ⟨plain, 4, 6⟩), (0x514101C00000000000000000, .vfcospi ⟨plain, 4, 7⟩)] = true := by decide +kernel
/-- Lane words (R152 to R159): predicates, the mask, cross-lane instructions (R219 to R229). -/
theorem test_decode_lane_cross : readsLane [
    (0x6001C080C030000000000000, .vpand ⟨⟨true, 4, 0, false, false, false, false⟩, 7, 2, 3⟩),
    (0x6041C080C030000000000000, .vpor ⟨⟨true, 4, 0, false, false, false, false⟩, 7, 2, 3⟩),
    (0x6081C080C030000000000000, .vpxor ⟨⟨true, 4, 0, false, false, false, false⟩, 7, 2, 3⟩),
    (0x60C1C080C030000000000000, .vpandn ⟨⟨true, 4, 0, false, false, false, false⟩, 7, 2, 3⟩), (0x6101C0800000000000000000, .vpnot ⟨plain, 7, 2⟩),
    (0x6141C000000000000000000A, .vpset ⟨plain, 7, 0xA⟩), (0x61B200C00000000000000000, .vpget ⟨plain, 200, 3⟩),
    (0x61C1B2400000000000000000, .vpmov ⟨plain, 6, 201⟩), (0x620172800000000000000000, .vpnz ⟨plain, 5, 202⟩), (0x680000000038000000000000, .mpush ⟨true, 6⟩),
    (0x684000000000000000000000, .melse), (0x688000000000000000000000, .mpop), (0x6A0BC0000028000000000000, .vtest ⟨true, 2, 7⟩),
    (0x6A40C0000000000000000000, .vmaskm ⟨plain, 3⟩), (0x80014181C000000000000000, .vshflIdx ⟨plain, false, none, none, 5, 6, .reg 7⟩),
    (0x81418201C080002C00000000, .vshflUp ⟨plain, true, some 4, some 2, 6, 8, .reg 7⟩),
    (0x80814181C000008F00000000, .vshflDown ⟨plain, false, some 7, none, 5, 6, .scal 7⟩),
    (0x81C182000000004900000001, .vshflXor ⟨plain, true, some 1, none, 6, 8, .imm 1⟩),
    (0x88C242000000001B00000000, .vlred ⟨plain, 3, true, some 3, .lanes 9, 8⟩), (0x8A0B82000000002000000000, .vlred ⟨plain, 8, false, none, .scalar 6, 8⟩),
    (0x8C8242000000003A00000000, .vscan ⟨plain, 2, true, true, some 2, 9, 8⟩), (0x900242014000008000000000, .vbcast ⟨plain, false, none, 9, 8, .scal 5⟩),
    (0x904282000000004D0000001F, .vbcast ⟨plain, true, some 5, 10, 8, .imm 31⟩),
    (0x908240C00000001D00000000, .vballot ⟨plain, true, some 5, false, .lanes 9, 3⟩),
    (0x908A00C00000002000000001, .vballot ⟨plain, false, none, true, .scalar 0, 3⟩),
    (0x910242000000003B00000000, .vmatch ⟨plain, false, true, true, some 3, 9, 8⟩),
    (0x914242000000000C00000000, .vmatch ⟨plain, true, false, false, some 4, 9, 8⟩)] = true := by decide +kernel
/-- Lane words (R152 to R159): lane memory (R230 to R241, R249). -/
theorem test_decode_lane_memory : readsLane [
    (0xA1424000C000009FFFFFFFF8, .vld ⟨plain, 5, ⟨true, false, true, false, 15⟩, 9, 3, 0xFFFFFFF8⟩),
    (0xA0024000C000004000000008, .vld ⟨plain, 0, ⟨false, true, false, false, 0⟩, 9, 3, 8⟩),
    (0xA2024003C000008000000000, .vldq ⟨plain, 0, ⟨true, false, false, false, 0⟩, 9, 15, 0⟩),
    (0xA5C202800000000000000004, .vldx ⟨plain, 7, ⟨false, false, false, false, 0⟩, true, 0, 8, 10, 0⟩),
    (0xA5820281C000008000000002, .vldx ⟨plain, 6, ⟨true, false, false, false, 0⟩, false, 2, 8, 10, 7⟩),
    (0xA9000000C300002200000000, .vst ⟨plain, 4, ⟨false, false, false, true, 2⟩, 12, 3, 0⟩),
    (0xA9400000C340000000000000, .vstq ⟨plain, 0, ⟨false, false, false, false, 0⟩, 13, 3, 0⟩),
    (0xAA400380C300000000000001, .vstx ⟨plain, 1, ⟨false, false, false, false, 0⟩, false, 1, 12, 14, 3⟩),
    (0xB24202800300003300000004, .vamo ⟨plain, 9, true, ⟨false, false, true, true, 3⟩, false, true, 0, 8, 10, 0, 12⟩),
    (0xAD4002808300008000000013, .vamo ⟨plain, 5, false, ⟨true, false, false, false, 0⟩, true, false, 3, 0, 10, 2, 12⟩),
    (0xAF0002808300000000000A00, .vqatomAdd ⟨plain, 0xA, ⟨false, false, false, false, 0⟩, false, 0, 10, 2, 12⟩),
    (0xAF4002808180008000000000, .vqatomMerge ⟨plain, 0, ⟨true, false, false, false, 0⟩, false, 0, 10, 2, 6⟩),
    (0xB40000008000004000000080, .vpref ⟨plain, true, 2, 128⟩), (0xB44002800000000000000004, .vprefx ⟨plain, false, true, 0, 10, 0⟩),
    (0xB60002808A4C000000000000, .vbput ⟨false, 3, 10, 2, 1⟩), (0xB642C0008BEC000000000000, .vbtake ⟨true, 3, 11, 2, 7⟩)] = true := by decide +kernel
/-- Lane words (R152 to R159): long accumulators (R255, R256). -/
theorem test_decode_lane_accumulator : readsLane [
    (0xC001C0000000180000000000, .qzero ⟨⟨false, 0, 1, true, false, false, false⟩, 7⟩), (0xC041C1800000000000000000, .qmov ⟨plain, 7, 6⟩),
    (0xC081F2000000000000000080, .qadd ⟨plain, 8, 7, 200⟩), (0xC0C0410140000080000000D0, .qmac ⟨plain, 0xD, 1, 4, .scal 5⟩),
    (0xC10041000000000000000000, .qmerge ⟨plain, 1, 4⟩), (0xC14040000000000000000000, .qnorm ⟨plain, 1⟩),
    (0xC1804100000000000000000B, .qred ⟨plain, some 3, 1, 4⟩), (0xC1C24100000000060000100C, .qrnd ⟨plain, 0xC, 1, 2, true, 9, 4⟩),
    (0xC20201000000000000000000, .qstat ⟨plain, 8, 4⟩), (0xC24201000000000000000009, .qseg ⟨plain, 8, 4, 9⟩),
    (0xC280010240000090FFFFFF80, .qspill ⟨plain, true, true, 4, 9, 0xFFFFFF80⟩), (0xC2C100024000000000000080, .qfill ⟨plain, false, false, 4, 9, 128⟩)] = true := by decide +kernel
/-- Lane words (R152 to R159): tile instructions (R263, R277). -/
theorem test_decode_lane_tile : readsLane [
    (0xE0004080024000CFCCFFFE00, .tmma ⟨⟨some 9, true, false, 15⟩, 0xC, 0xC, 1, 2, 0, 15, 1023, 512⟩),
    (0xE0404080C000002211200C04, .tcsum ⟨⟨none, false, true, 2⟩, 1, 1, 1, 2, 3, 2, 3, 4⟩),
    (0xE080408340000000DD000001, .tconv ⟨⟨none, false, false, 0⟩, 0xD, 0xD, 1, 2, 13, 0, 0, 1⟩),
    (0xE0C100400000002300000000, .tasum ⟨⟨none, false, true, 3⟩, 4, 1, false, false⟩),
    (0xE203C00003C0008000000000, .tzero ⟨⟨some 15, false, false, 0⟩, 15, 0, false, false⟩),
    (0xE24040C00000004100000003, .tload ⟨⟨none, true, false, 1⟩, 1, 3, true, true⟩),
    (0xE280C0400000000000000001, .tstore ⟨⟨none, false, false, 0⟩, 3, 1, false, true⟩),
    (0xE2C0C04140000000000000BB, .tepi ⟨⟨none, false, false, 0⟩, 3, 1, 5, 2, true, true, true, 3⟩),
    (0xE30180800000000000000000, .tstage ⟨⟨none, false, false, 0⟩, 6, 2, false, false⟩), (0xE40B4242800000000000000C, .tres ⟨5, 9, 10, 12⟩),
    (0xE4400000000000000000000D, .trel 13)] = true := by decide +kernel
/-- Words that are no instruction (R150, R160): an illegal major, function codes outside every range, unused bits, forbidden combinations; lane words with an immediate that is not used, two sources for b, a field not used, an opcode of none, m0 negated, an odd pair, a predicate on a tile instruction, operands beyond their limits, a repeat where there is none. -/
theorem test_decode_refused : ((([0, 0xFC000000, 0x28000000, 0x0400000A, 0x6C000004, 0x6C000103, 0x08303FFC + 0xE4000000, 0x50E00001, 0x628AFFF0, 0x4C000128, 0x4FF00024, 0x40003800] : List (BitVec 32)).all
      fun w => (decodeScalar w).toOption.isNone) &&
    (([0,
      0x20004080C000000000000001, 0x20004080C00000C000000000, 0x00404080C000004000000005, 0x04004080C000000000000000, 0xFFC000000000000000000000, 0x00404080C020000000000000, 0x084040810000000000000000, 0xE20040000004000000000000, 0x600200408000000000000000, 0x6A0C00000004000000000000, 0x680000000000100000000000, 0xA18240040000000000000000] : List (BitVec 96)).all
      fun w => (decodeLane w).toOption.isNone)) = true := by decide +kernel
/-- A predicate negated that is m0, a step without a repeat, a step on no register. -/
def badCtls : List LaneCtl := [⟨true, 0, 0, false, false, false, false⟩, ⟨false, 0, 0, true, false, false, false⟩, ⟨false, 0, 1, false, false, false, true⟩]
/-- An ill-formed term for each check of the forms (R154 to R158 and the definitions). -/
theorem test_ill_formed : ((badCtls.map fun c => Instr.vadd ⟨c, false, false, false, 1, 2, .reg 3⟩) ++
    [Instr.sld 1 2 7 false 0, .sldX 1 2 3 7 false, .sldAcq 1 2 7 false 0, .sldRo 1 2 3 7, .samoAdd ⟨1, 2, false, false, 3, false, false⟩,
      .samoCas ⟨63, 2, false, false, 0, false, false⟩, .sbr 1 10 0, .vmul ⟨plain, false, false, true, 1, 2, .reg 3⟩, .vadd ⟨plain, true, false, false, 1, 2, .reg 4⟩,
      .vcmp ⟨plain, false, false, 6, 1, 2, .reg 3⟩, .vaddPacked ⟨plain, .w4, false, false, 1, 2, .imm 16⟩, .vminPacked ⟨plain, .w8, false, true, 1, 2, .reg 3⟩,
      .vcmpEqPacked ⟨plain, .w8, false, 1, 2, .imm 256⟩, .vdot ⟨plain, .w16, true, true, true, 1, 2, .imm 65536, 3⟩, .vcoord ⟨⟨false, 0, 1, false, true, false, false⟩, false, 1, 0⟩,
      .vaddFp ⟨plain, true, 0, false, true, 2, 4, .reg 6⟩, .vfma ⟨plain, true, 0, false, true, 2, 4, .reg 6, 8⟩, .vsqrt ⟨plain, true, 0, false, true, 2, 4⟩,
      .vcmpFp ⟨plain, false, 7, 1, 2, .reg 3⟩, .vaddF16 ⟨plain, false, 0, false, 1, 2, .imm 65536⟩, .vcvt ⟨plain, 3, 3, 0, 0, 0, false, 1, 2⟩,
      .vcvt ⟨plain, 1, 3, 4, 0, 0, false, 1, 2⟩, .vcvt ⟨plain, 3, 2, 0, 2, 0, false, 1, 2⟩, .mpush ⟨true, 0⟩, .vtest ⟨true, 0, 0⟩, .vmaskm ⟨⟨false, 1, 0, false, false, false, false⟩, 1⟩,
      .vlred ⟨plain, 9, false, none, .lanes 1, 2⟩, .vlred ⟨plain, 1, true, none, .lanes 1, 2⟩, .vlred ⟨plain, 0, false, some 1, .scalar 1, 2⟩, .vscan ⟨plain, 6, false, false, none, 1, 2⟩,
      .vbcast ⟨plain, false, none, 1, 2, .reg 3⟩, .vballot ⟨plain, false, some 6, false, .lanes 1, 2⟩, .vballot ⟨plain, false, some 5, true, .lanes 1, 2⟩,
      .vmatch ⟨plain, false, false, true, some 5, 1, 2⟩, .vmatch ⟨plain, false, false, false, none, 1, 2⟩]).all (fun i => !i.wf) = true := by decide +kernel
/-- The same for the memory, long-accumulator and tile forms. -/
theorem test_ill_formed_memory : (let m : MemCtl := ⟨false, false, false, false, 0⟩
    [Instr.vld ⟨plain, 6, { m with rel := true }, 1, 2, 0⟩, .vld ⟨plain, 6, { m with ro := true, sp := true }, 1, 2, 0⟩, .vld ⟨plain, 6, { m with scope := 1 }, 1, 2, 0⟩, .vldq ⟨plain, 1, m, 1, 2, 0⟩,
      .vldx ⟨plain, 6, m, true, 0, 1, 2, 3⟩, .vldx ⟨plain, 1, m, false, 1, 1, 2, 3⟩, .vldx ⟨plain, 6, { m with sp := true }, true, 0, 1, 2, 0⟩, .vst ⟨plain, 5, m, 1, 2, 0⟩,
      .vst ⟨plain, 3, { m with acq := true }, 1, 2, 0⟩, .vst ⟨plain, 4, m, 1, 2, 0⟩, .vamo ⟨plain, 10, false, m, false, false, 0, 1, 2, 3, 4⟩, .vamo ⟨plain, 1, false, m, true, false, 0, 1, 2, 3, 4⟩,
      .vamo ⟨plain, 1, false, { m with ro := true }, false, false, 0, 1, 2, 3, 4⟩, .vqatomAdd ⟨plain, 0, m, false, 0, 1, 2, 3⟩, .vqatomMerge ⟨plain, 3, m, false, 0, 1, 2, 3⟩,
      .vprefx ⟨plain, false, true, 1, 2, 0⟩, .vbput ⟨true, 0, 1, 2, 3⟩, .vbtake ⟨true, 0, 1, 2, 3⟩, .qmac ⟨plain, 10, 1, 2, .imm 3⟩, .qred ⟨⟨false, 0, 1, false, false, false, false⟩, none, 1, 2⟩,
      .qrnd ⟨plain, 1, 4, 0, false, 1, 2⟩, .qseg ⟨plain, 2, 1, 10⟩, .qseg ⟨plain, 3, 1, 0⟩, .qfill ⟨plain, false, true, 1, 2, 0⟩,
      .tmma ⟨⟨none, false, true, 0⟩, 12, 12, 1, 2, 0, 0, 0, 0⟩, .tmma ⟨⟨none, false, false, 0⟩, 10, 10, 1, 2, 0, 0, 0, 0⟩, .tmma ⟨⟨none, false, false, 0⟩, 12, 1, 1, 2, 0, 0, 0, 0⟩,
      .tmma ⟨⟨none, false, false, 0⟩, 12, 12, 1, 2, 1, 0, 0, 0⟩, .tzero ⟨⟨none, false, false, 0⟩, 1, 2, false, false⟩, .tstore ⟨⟨none, false, false, 0⟩, 1, 2, true, false⟩,
      .tload ⟨⟨none, false, false, 1⟩, 1, 2, false, false⟩, .tepi ⟨⟨none, false, false, 0⟩, 1, 2, 3, 3, false, false, false, 0⟩, .tepi ⟨⟨none, false, false, 0⟩, 1, 2, 3, 0, false, false, false, 0⟩].all fun i => !i.wf) = true := by
  decide +kernel
/-- Well-formed terms of both words, with an encoding. -/
theorem witness_DecodeEncode : (Instr.samoCas ⟨62, 2, true, true, 15, true, false⟩).wf = true ∧ (encodeScalar (.samoCas ⟨62, 2, true, true, 15, true, false⟩)).isSome = true ∧
    (Instr.vamo ⟨⟨true, 7, 63, true, true, false, true⟩, 9, true, ⟨false, false, true, true, 15⟩, false, true, 0, 254, 252, 0, 250⟩).wf = true ∧
    (encodeLane (.vamo ⟨⟨true, 7, 63, true, true, false, true⟩, 9, true, ⟨false, false, true, true, 15⟩, false, true, 0, 254, 252, 0, 250⟩)).isSome = true := by decide +kernel
/-- A state between steps whose next turn is given. -/
def inTurn (t : Turn) (s : State) : State := { s with cur := .none, agenda := [t] }
/-- Whether a step's turn comes, with the words that its fetch gives. -/
noncomputable def fetched (s : State) (w : Nat) (lane : Bool) : Bool :=
  let t : State := { beforeTurn s with agenda := [] }
  let n := if lane then 12 else 4
  (beforeTurn s).agenda == [if lane then .lane 1 else .scalar 1] && !stalled t (if lane then .lane 1 else .scalar 1) &&
  (if lane then laneReady t 1 && laneChosen t 1 else scalarReady t 1 && scalarChosen t 1) &&
  (match fetch { t with cur := .group 1 } 1 (if lane then .fetchL 1 else .fetchS 1) 0x10000 n with
    | (_, .word bs) => bs == leBytes n w
    | _ => false)
/-- A package whose word at 0x10000 is w. -/
def coded (w n : Nat) (s : State) : State := { s with mem := mwrite [] 0x10000 (leBytes n w) }
/-- A step of the scalar stream: an instruction, a word that is none, a privileged word at level 0 and at level 2. -/
theorem witness_StepRunsInstruction_scalar :
    fetched (inTurn (.scalar 1) (coded 0x08303FFC 4 (scal []))) 0x08303FFC false = true ∧ scalarPrivileged (coded 0x08303FFC 4 (scal [])) 1 0x08303FFC = false ∧
    scalarHeld (coded 0x08303FFC 4 (scal [])) 1 (.saddi 3 0 (-4)) = none ∧
    fetched (inTurn (.scalar 1) (coded 0xF1100011 4 (atLevel 0 []))) 0xF1100011 false = true ∧ scalarPrivileged (coded 0xF1100011 4 (atLevel 0 [])) 1 0xF1100011 = true ∧
    (match step (inTurn (.scalar 1) (coded 0x08303FFC 4 (scal []))) with | .next t => sreg t 1 3 == 0xFFFFFFFFFFFFFFFC && t.cur == .none | _ => false) = true ∧
    (match step (inTurn (.scalar 1) (coded 0 4 (scal []))) with | .next t => (group t 1).pend.stream == some ⟨0, 0, 0, 0xFF, 0, 0⟩ | _ => false) = true ∧
    (match step (inTurn (.scalar 1) (coded 0xF1100011 4 (atLevel 0 []))) with | .next t => (group t 1).pend.stream == some ⟨0, 3, 0, 0xFF, 0xF1100011, 0⟩ | _ => false) = true ∧
    (match step (inTurn (.scalar 1) (coded 0xF1100011 4 (atLevel 2 []))) with | .next t => sreg t 1 17 == 2 | _ => false) = true := by decide +kernel
/-- A step of the lane stream, of a walk and of an event. -/
theorem witness_StepRunsInstruction_others :
    fetched (inTurn (.lane 1) (coded 0x1800C000000000400000004D 12 (lanes [] []))) 0x1800C000000000400000004D true = true ∧
    (let t : State := { beforeTurn (inTurn (.lane 1) (coded 0x1800C000000000400000004D 12 (lanes [] []))) with agenda := [] }
     fuseFetch { t with cur := .group 1 } 1 = none) ∧
    (match step (inTurn (.lane 1) (coded 0x1800C000000000400000004D 12 (lanes [] []))) with | .next t => (vreg (group t 1) 3).getD 127 0 == 77 && t.cur == .none | _ => false) = true ∧
    (match step (inTurn (.lane 1) (coded 0 12 (lanes [] []))) with | .next t => (group t 1).pend.stream == some ⟨0, 0, 1, 0xFF, 0, 0⟩ | _ => false) = true ∧
    (let s := inTurn (.walk 5) { walking [(5, 3)] true 0 with mem := mwrite [] 0x1000 (leBytes 4 0x04514500) }
     let t : State := { beforeTurn s with agenda := [] }
     (walk t 5).map (·.running) = some true ∧ ((walk t 5).all fun x => x.cycles < Config.walkLimit) = true ∧ stalled t (.walk 5) = false ∧ (walk t 5).bind (walkFetch { t with cur := .walk 5 }) = some 0x04514500) ∧
    (match step (inTurn (.event (.clockLimit 0 800)) base) with | .next t => (die t 0).mhz == 800 | _ => false) = true := by decide +kernel
/-- A placed word runs as the first instruction after reset: `saddi s3, s0, -4`, and a lane `vmov`. -/
theorem test_placed : (match step (State.reset.withFetchWord 32 0x08303FFC) with | .next t => sreg t 1 3 == 0xFFFFFFFFFFFFFFFC | _ => false) = true ∧
    (match step (State.reset.withFetchWord 96 (0x060 * 2 ^ 86 + 3 * 2 ^ 78 + 0x40 * 2 ^ 32 + 77)) with | .next t => (vreg (group t 1) 3).getD 127 0 == 77 | _ => false) = true ∧
    decodeTableWord 32 0x08303FFC = some (.saddi 3 0 (-4)) := by decide +kernel
/-- A group that keeps its bounds, and the blank one. -/
theorem calm_bounded (x : Group) (hx : x = grp ∨ x = Group.blank) : LaneBound x.lane ∧ (∀ f, x.handler = some f → LaneBound f.lane) ∧
    x.cnt.loads ≤ 0xFFFF ∧ x.cnt.stores ≤ 0xFFFF ∧ x.cnt.copies ≤ 0xFFFF ∧ x.cnt.tiles ≤ 0xFFFF ∧ ∀ k, kcount x k ≤ 0xFFFF := by
  rcases hx with rfl | rfl <;>
  and_intros <;> first | decide +kernel | (unfold LaneBound; decide +kernel) | exact fun f h => nomatch h | exact fun k => Nat.zero_le _
/-- A step from a state whose groups keep their bounds and whose memory is canonical. -/
theorem witness_StepKeepsBounds : (let s := inTurn (.event (.clockLimit 0 800)) base
     s.bounded ∧ s.memWf ∧ (match step s with | .next _ => true | _ => false) = true) := by
  refine ⟨fun g => calm_bounded _ ?_, (by decide +kernel : Memory.wf _ = true), by decide +kernel⟩
  by_cases h : g = 1
  · exact .inl (by subst h; rfl)
  · exact .inr (by simp [group, tget, inTurn, base, h])

/-! Witnesses of lanes that take records, of stores to tagged bytes and of branches that are traced. -/

/-- The lanes that an instruction leaves parked, and the classes of the records of lanes 0 and 1. -/
def parkedBy (i : Instr) (s : State) : Nat × Nat × Nat :=
  let k := (group (after i s) 1).lane.park
  (k.fmask.toNat, (tget ⟨0, 0, 0, 0, 0, 0⟩ k.recs 0).cls, (tget ⟨0, 0, 0, 0, 0, 0⟩ k.recs 1).cls)
/-- Lane 1 lies past S or is misaligned, or is at no address: each width and form parks it, and lane 0 is served. -/
theorem witness_LanesPark_forms :
    (let s := pairLanes [(2, 65534)] []
     LaneMemRuns s 1 mem1 65534 ∧ (group s 1).trace.bit = false ∧ laneRefused s 1 true false 2 65534 = none ∧ laneRefused s 1 true false 2 65536 = some (7, 65536) ∧
       Untagged (ownTeam s 1) 65534 2 ∧ ∀ i ∈ [Instr.vld ⟨plain, 4, mem1, 3, 2, 0⟩, .vst ⟨plain, 2, mem1, 3, 2, 0⟩], parkedBy i s = (2, 0, 7)) ∧
    (let s := pairLanes [(2, 65520)] []
     LaneMemRuns s 1 mem1 65520 ∧ laneRefused s 1 true false 16 65536 = some (7, 65536) ∧
       ∀ i ∈ [Instr.vldq ⟨plain, 6, mem1, 4, 2, 0⟩, .vstq ⟨plain, 6, mem1, 4, 2, 0⟩], parkedBy i s = (2, 0, 7)) ∧
    (let s := pairLanes [(2, 65528)] [(1, fun i => 2 * i)]
     LaneMemRuns s 1 mem1 65528 ∧ laneRefused s 1 true false 4 65530 = some (6, 65530) ∧
       ∀ i ∈ [Instr.vldx ⟨plain, 6, mem1, false, 0, 3, 1, 2⟩, .vstx ⟨plain, 3, mem1, false, 0, 3, 1, 2⟩, .vamo ⟨plain, 1, false, mem1, false, false, 0, 5, 1, 2, 3⟩],
         parkedBy i s = (2, 0, 6)) := by
  delta LaneMemRuns LaneRuns Unsampled Untagged; decide +kernel
/-- The same in virtual memory: a contiguous base at no address, a 64-bit index of lane 1 at none, an atomic that is misaligned. -/
theorem witness_LanesPark_memory :
    (let s := pairLanes [(2, 0xFFFFFFFFFFFF0000)] []
     LaneMemRuns s 1 mem0 0xFFFFFFFFFFFF0000 ∧ laneRefused s 1 false false 4 0xFFFFFFFFFFFF0000 = some (5, 0xFFFFFFFFFFFF0000) ∧
       ∀ i ∈ [Instr.vld ⟨plain, 6, mem0, 3, 2, 0⟩, .vst ⟨plain, 3, mem0, 3, 2, 0⟩, .vldq ⟨plain, 6, mem0, 4, 2, 0⟩, .vstq ⟨plain, 6, mem0, 4, 2, 0⟩],
         parkedBy i s = (3, 5, 5)) ∧
    (let s := pairLanes [(2, 0x10000)] [(8, fun i => 0x10004 + i), (9, fun i => 0xFF000000 * i)]
     LaneMemRuns s 1 mem0 0 ∧ laneRefused s 1 false false 4 0x10004 = none ∧ (laneRefused s 1 false false 4 0xFF00000000010005).isSome = true ∧
       (∀ acc ∈ [(1 : BitVec 3), 2, 3], LaneMemReady s 1 acc 0x10004 4 placedLeaf) ∧
       ∀ i ∈ [Instr.vldx ⟨plain, 6, mem0, true, 0, 3, 8, 2⟩, .vstx ⟨plain, 3, mem0, true, 0, 3, 8, 2⟩, .vamo ⟨plain, 1, false, mem0, false, true, 0, 5, 8, 2, 3⟩],
         parkedBy i s = (2, 0, 5)) ∧
    (let s := pairLanes [(2, 0x10004)] [(1, fun i => 2 * i)]
     LaneMemRuns s 1 mem0 0x10004 ∧ laneRefused s 1 false true 4 0x10006 = some (6, 0x10006) ∧
       parkedBy (.vamo ⟨plain, 1, false, mem0, false, false, 0, 5, 1, 2, 3⟩) s = (2, 0, 6)) := by
  delta LaneMemRuns LaneRuns Unsampled LaneMemReady Reached; decide +kernel
/-- Two lanes that load from a page whose walk has ended with a cause. -/
def unpaged (c : Nat) : State :=
  let u := after (.vld ⟨plain, 6, mem0, 3, 2, 0⟩) (pairLanes [(2, 0x30000)] [])
  { u with cur := .group 1, work := { u.work with waits := [], faults := [(.lane 1, 0, pageOf 0x30000, c)] } }
/-- They take page faults, or address faults where the request was not delivered. -/
theorem witness_LanesPageFault (c : Nat) (h : c = 0 ∨ c = causeUndelivered) :
    ((group (unpaged c) 1).fly.lane.any fun a => a.op.sp == false && a.left == 3 && a.exec == 3 && a.faults.isEmpty && a.clobbers.isEmpty && a.wrote.isEmpty) = true ∧
    (group (unpaged c) 1).lane.clob = [] ∧ (group (unpaged c) 1).lane.park.fmask = 0 ∧ (group (unpaged c) 1).lane.park.replaying = false ∧
    (group (unpaged c) 1).handler = none ∧ (group (unpaged c) 1).trace.bit = false ∧ Unsampled (unpaged c) 1 ∧
    addressFault (descOf (unpaged c) 1).mask 0x30004 4 = none ∧ walkFault (unpaged c) (.lane 1) 0 (pageOf 0x30004) = some c ∧
    parkedBy (.homeRequest (.lane 1)) (unpaged c) = (3, if c = 0 then 4 else 5, if c = 0 then 4 else 5) := by
  delta Unsampled
  rcases h with rfl | rfl <;> decide +kernel
/-- A store whose lane 0 meets the bytes of a barrier header: lane 1 writes, and the group takes the record past the instruction. -/
theorem witness_LaneStores_tagged : (let u := pairLanes [(2, 65516)] [(3, fun i => 0x50 + i)]
     let s := { u with work := { u.work with teams := u.work.teams.map fun e => (e.1, { e.2 with tags := [(4094, 1)] }) } }
     LaneMemRuns s 1 mem1 65516 ∧ Below s 1 [3] [] ∧ (group s 1).handler = none ∧ (group s 1).pend.stream = none ∧ (group s 1).lane.rep = 0 ∧
       (∀ k < 2, LaneScratchReady s 1 (65516 + BitVec.ofNat 64 (k * 4)) 4) ∧ tagAt (ownTeam s 1) 65516 = 1 ∧ tagAt (ownTeam s 1) 65520 = 0 ∧
       (let t := after (.vst ⟨plain, 3, mem1, 3, 2, 0⟩) s
        (group t 1).pend.stream = some ⟨9, 0, 0x11, 0, 1, 65516⟩ ∧ scratchRead (ownTeam t 1) 65516 5 = [0, 0, 0, 0, 0x51] ∧ (group t 1).lane.lpc = 0x1000C)) := by
  delta LaneMemRuns LaneRuns Unsampled Below LaneScratchReady; decide +kernel

/-- A group whose branches are traced, with some bits in its map. -/
def branching (n : Nat) : State := withGroup { sset [(41, 1), (63, 0x10040)] with trace := { TraceCtx.off with bit := true, map := List.replicate n false } }
/-- A branch that adds a bit, one that writes the record; an indirect jump with bits in the map and with none. -/
theorem witness_TracedBranches : (∀ n ∈ [0, 30, 31], Runs (branching n) 1 ∧ (group (branching n) 1).trace.bit = true ∧
      (group (branching n) 1).trace.since ≤ now (branching n) ∧ (group (branching n) 1).trace.branches < 254 ∧
      (group (after (.sbr 41 1 4) (branching n)) 1).trace.map.length = (if n = 31 then 0 else n + 1) ∧
      (group (after (.sbr 41 1 4) (branching n)) 1).spc = 0x10010 ∧
      (group (after .sret (branching n)) 1).spc = 0x10040 ∧ (group (after .sret (branching n)) 1).trace.map = []) ∧
    (group (after .sret (branching 30)) 1).trace.branches = 2 := by delta Runs; decide +kernel

/-! Witnesses of what the host, the pod, the cold start and the step leave. -/

/-- A partition reset kills a launch that stands here, and leaves one of another chip that does not. -/
theorem witness_DeviceInterfaces_kills : resetKills base 1 = true ∧ ownsQueue { base with queues := [(0, { Queue.blank with en := true })] } 0 0 = true ∧
    (let s := teamless { job with d := dual, chip := 1 }
     resetKills s 1 = false ∧ launch (after (.functionLevelReset 0) s) 1 = launch s 1) := by decide +kernel
/-- No object of any mode lies at any byte of a package without objects. -/
theorem witness_HostMemory_objects : ∀ m k, objectIn m base 0 k = none := fun _ _ => rfl
/-- The first lane of a port to fail, and the second: each failure is in the journal. -/
theorem witness_PodEvents_lanes : ∀ n ∈ [0, 1], (let s := { base with pod := { base.pod with ports := if n = 1 then [(11, 1)] else [] } }
    tget 0 s.pod.ports 11 = n ∧ tget 0 (after (.ualinkLaneFailure 11) s).pod.ports 11 = n + 1 ∧
      (after (.ualinkLaneFailure 11) s).boot.journal.map (fun e => (e.step, e.outcome, e.unit)) = [(8, 2, 779)]) := by decide +kernel
/-- An error of a die-to-die link that repeats. -/
theorem witness_SoftErrors_link : after (.softError (.link 3 255) false) base = base ∧
    (after (.softError (.link 3 255) true) base).boot.journal.map (fun e => (e.step, e.outcome, e.unit)) = [(6, 2, 1023)] := by decide +kernel
/-- The site of a position that is retired stands on the first spare site left, and one that is not on its own; rows beside a channel and a site. -/
theorem witness_BringUpSpares_sites : (let f := { emptyField with sites := [1, 64] }
    siteOf f 0 1 = 65 ∧ siteOf f 0 2 = 2 ∧ 1 ∈ retiredOn f 0 ∧ 1 ∉ vacancies f 0) ∧
    (alternative emptyField 4 4 5 2).map (fun g => (g.channels, g.rows)) = some ([(5, 2)], [(4, 5, 2)]) ∧
    (alternative emptyField 7 4 5 2).map (fun g => (g.sites, g.rows)) = some ([5], [(7, 5, 2)]) ∧
    (alternative emptyField 7 0 5 2).map (fun g => (g.sites, g.rows)) = some ([5], []) := by decide +kernel
/-- An alternative that fails again, with a row spent; spares used up whatever the work yields. -/
theorem witness_ColdStartSteps_again : (let at_ := fun (n a o st : Nat) (j : List Journal) => starting { Boot.cold with next := n, attempt := a, outcome := o, step := st, journal := j }
    let run := fun (r : Nat) (s : State) => (after (.coldStart r 3 4) s).boot
    (run 5 (at_ 7 1 0 6 [failed 7])).next = 1 ∧ (run 5 (at_ 7 1 0 6 [failed 7])).outcome = 2 ∧ (run 1 (at_ 7 4 0 6 [failed 7])).phase = 3 ∧
      (let worn := { emptyField with sites := List.range 9, ports := [(3, 1)] }
       let s := fun n => starting { Boot.cold with next := n, step := n - 1, field := some worn, journal := [⟨1, n, 2, if n = 7 then 10 else 3, 4, 0, false⟩] }
       leftOut worn { worn with sites := worn.sites ++ [10] } 7 10 = true ∧ (run 1 (s 7)).outcome = 3 ∧ (run 1 (s 7)).next = 8 ∧ (run 1 (s 8)).outcome = 3 ∧
       (run 1 (s 8)).next = 9)) := by decide +kernel
/-- A write of bootst before the package is ready, and one of another register. -/
theorem witness_FirmwareAndPower_bootst : (let s := starting { Boot.cold with phase := 1, next := 3, step := 3 }
    after (.registerWindowWrite 0 0 5) s = s ∧ (after (.registerWindowWrite 1 0 5) s).out.unsupported = 1 ∧ (after (.registerWindowWrite 0 0x18 5) s).out.unsupported = 1) := by decide +kernel
/-- A setting of the trace bit of a launch that there is not. -/
theorem witness_HostPartitionWrites_none : launchNamed base 0 2 = none ∧ after (.ptraceWrite 0 0x100000002) base = base := by decide +kernel
/-- The last instruction of a run issues by itself. -/
theorem witness_StepRunsInstruction_alone :
    (let s := modGroup (lanes [] []) 1 fun x => { x with lane := { x.lane with rq := [.run 1 (List.replicate 15 0)] } }
     fetched (inTurn (.lane 1) (coded 0x1800C000000000400000004D 12 s)) 0x1800C000000000400000004D true = true ∧ headCount (group s 1).lane.rq < 2 ∧
     (match step (inTurn (.lane 1) (coded 0x1800C000000000400000004D 12 s)) with | .next t => (group t 1).lane.rq == [] | _ => false) = true) := by decide +kernel
/-- A request is told to the other chips of the launch's mask. -/
theorem test_request_told : (let s := { atLevel 1 [(5, 1), (6, 7)] with pod := { State.reset.pod with en := true } }
    let s := setLaunch s 1 { job with d := { job.d with mask := 5 } }
    (after (.spreq 4 5 6) s).out.messages = [.preempt 2 0 1 (.request 7)]) := by decide +kernel
/-- An invalidation on the dies of chip 1: asked for, answered, not delivered. -/
theorem witness_TranslationControl_far : (let u := atLevel 1 [(5, 0x400000), (6, 0x0100000000000000)]
    let u := { u with dies := [(4, { Die.blank with tlb := [placedLeaf] })], work := { u.work with launches := [(1, { job with d := { job.d with mask := 3 } })] } }
    let v := fun (n : Nat) => { u with work := { u.work with faults := [(.scalar 1, 4, pageOf 0x0100000000000000, n)] } }
    (descOf u 1).mask.getLsbD 1 = true ∧ walkFault u (.scalar 1) 4 (pageOf 0x0100000000000000) = none ∧
      (group (after (.tlbinv 5 6) u) 1).fly.waiting = some (.tlbinv 5 6) ∧ walkFault (v 0) (.scalar 1) 4 (pageOf 0x0100000000000000) = some 0 ∧
      (die (after (.tlbinv 5 6) (v 0)) 4).tlb = [] ∧ (group (after (.tlbinv 5 6) (v 0)) 1).spc = 0x10004 ∧ Faultable (v causeUndelivered) 1 ∧
      ((group (after (.tlbinv 5 6) (v causeUndelivered)) 1).pend.stream.map (·.cls)) = some 5) := by
  delta Faultable; decide +kernel
/-- A multiplication and an addition of its result issue together where their modifier bytes agree, and add twice rounded (R164, R165). -/
theorem test_fused : (let i := Instr.vmulFp ⟨plain, false, 0, false, false, 1, 2, .reg 3⟩
    let j := Instr.vaddFp ⟨plain, false, 0, false, false, 1, 1, .reg 4⟩
    let bytes := fun i => (encode i).flatMap fun w => leBytes 4 w.toNat
    let s := { lanes [] [(2, fun _ => 0x3F800001), (3, fun _ => 0x3F800001), (4, fun _ => 0xBF800002)] with mem := mwrite [] 0x10000 (bytes i ++ bytes j) }
    let t := reached (runTogether (fusedWith s 1 (ofLe (bytes i)) i) s) s
    (fusedWith s 1 (ofLe (bytes i)) i).length = 2 ∧ (vreg (group t 1) 1).getD 127 7 = 0 ∧ (group t 1).lane.lpc = 0x10018) := by decide +kernel


end Sys2Proof.Machine.Tests
end

section
/-! PROOFS. The scope's statements (family 00): events of the package, the cold start, host writes of registers. -/

namespace Sys2Proof.Machine
open Sys2Proof

/-! The events of the platform, run while the module has power or once the package is ready (R406). -/

theorem powered_on {s : State} (h : s.boot.power = true) (f : State → State) : powered s f = .next (f s) := by simp [powered, h]
theorem whenReady_ready {s : State} (h : ready s = true) (f : State → State) : whenReady s f = .next (f s) := by simp [whenReady, h]

/-! Without an enabled sink no record is written (R391, R394). -/

/-- Which sinks are enabled is read from the partition registers alone. -/
theorem NoSinks.of_regs {s t : State} (h : NoSinks s) (hr : t.regs = s.regs) : NoSinks t := by
  intro p d
  have := h p d
  simpa only [sinkOn, csctl, preg, hr] using this

theorem putRecord_noSinks {s : State} (h : NoSinks s) (p d : Nat) (r : TraceRec) : putRecord s p d r = s := by
  simp [putRecord, h p d]
theorem engineEvent_noSinks {s : State} (h : NoSinks s) (p d kind index code : Nat) (ops : List Byte) :
    engineEvent s p d kind index code ops = s := putRecord_noSinks h ..
theorem resumeSink_noSinks {s : State} (h : NoSinks s) (d p : Nat) : resumeSink s d p = s := by
  simp [resumeSink, h p d]
theorem toAllSinks_noSinks {s : State} (h : NoSinks s) (d typ : Nat) (body : List Byte) : toAllSinks s d typ body = s :=
  List.foldl_fixed' (fun _ => putRecord_noSinks h ..) _

/-! Entries of the boot journal (R408). -/

/-- The whole entries of a journal. -/
def wholeEntries (js : List Journal) : List Journal := js.filter fun e => !e.torn
/-- The entry that a write of the journal appends. -/
def newEntry (s : State) (step outcome unit detail : Nat) : Journal :=
  ⟨((wholeEntries s.boot.journal).map (·.seq)).foldl max 0 + 1, step, outcome, unit % 65536, detail % 2 ^ 32, now s / 256, false⟩
/-- The journal with an entry appended behind its whole ones, the oldest dropped where the ring is full. -/
def appendEntry (js : List Journal) (e : Journal) : List Journal :=
  (wholeEntries js ++ [e]).drop ((wholeEntries js ++ [e]).length - journalSize)

theorem writeJournal_noSinks {s : State} (h : NoSinks s) (step outcome unit detail : Nat) :
    writeJournal s step outcome unit detail =
      { s with boot := { s.boot with journal := appendEntry s.boot.journal (newEntry s step outcome unit detail) } } :=
  engineEvent_noSinks (s := { s with boot := { s.boot with journal := appendEntry s.boot.journal (newEntry s step outcome unit detail) } })
    (h.of_regs rfl) ..

/-- The entry that is appended stands last. -/
theorem getLast?_appendEntry (js : List Journal) (e : Journal) : (appendEntry js e).getLast? = some e := by
  rw [appendEntry, List.getLast?_drop, if_neg (by simp [journalSize]), List.getLast?_concat]

/-- The entry that is appended has a sequence number above those of all whole entries. -/
theorem seq_lt_newEntry {s : State} {f : Journal} (hf : f ∈ s.boot.journal) (ht : f.torn = false) (step outcome unit detail : Nat) :
    f.seq < (newEntry s step outcome unit detail).seq := by
  have hm : f.seq ∈ (wholeEntries s.boot.journal).map (·.seq) :=
    List.mem_map.mpr ⟨f, List.mem_filter.mpr ⟨hf, by simp [ht]⟩, rfl⟩
  have hle := List.le_max?_getD_of_mem (k := 0) hm
  simp only [newEntry, List.foldl_max]
  omega

/-- A failure of a step and a unit is journalled: behind the whole entries stands a new one, above them all; a free value is spent on its detail (log 20). -/
def FailureJournalled (s t : State) (step unit : Nat) (e : Journal) : Prop :=
  t = { s with boot := { s.boot with journal := t.boot.journal }, fresh := t.fresh } ∧ t.boot.journal.getLast? = some e ∧
  e.step = step ∧ e.outcome = 2 ∧ e.unit = unit % 65536 ∧ e.torn = false ∧ ∀ f ∈ s.boot.journal, f.torn = false → f.seq < e.seq

theorem FailureJournalled.pod {s t : State} {step unit : Nat} {e : Journal} (h : FailureJournalled s t step unit e) : t.pod = s.pod := by
  rw [h.1]
theorem FailureJournalled.group {s t : State} {step unit : Nat} {e : Journal} (h : FailureJournalled s t step unit e) (g : Nat) :
    Machine.group t g = Machine.group s g := by
  rw [h.1]; rfl

theorem journalFailure_eq (s : State) (step unit : Nat) : journalFailure s step unit =
    writeJournal { s with fresh := s.fresh + 1 } step 2 unit (bits (Config.freeWord s.fresh) 31 0) := rfl

theorem journalFailure_journalled {s : State} (h : NoSinks s) (step unit : Nat) :
    ∃ e, FailureJournalled s (journalFailure s step unit) step unit e := by
  have h' : NoSinks { s with fresh := s.fresh + 1 } := h.of_regs rfl
  rw [journalFailure_eq, writeJournal_noSinks h']
  generalize hj : appendEntry _ _ = js
  exact ⟨_, rfl, hj ▸ getLast?_appendEntry .., rfl, rfl, rfl, rfl, fun f hf hw => seq_lt_newEntry (s := { s with fresh := s.fresh + 1 }) hf hw ..⟩

/-! What a package hears of its pod (R375, R383). -/

theorem getLsbD_numberBit (c k : Nat) : (BitVec.ofNat 64 (2 ^ c)).getLsbD k = decide (k < 64 ∧ k = c) := by
  rw [BitVec.getLsbD_ofNat, Nat.testBit_two_pow]; grind

/-- Writes of one value at some keys of a table. -/
theorem tget_foldl_tput {α : Type} [DecidableEq α] (d v : α) (l : List Nat) (t : Tab α) (k : Nat) :
    tget d (l.foldl (fun t c => tput d t c v) t) k = if k ∈ l then v else tget d t k := by
  induction l generalizing t with
  | nil => rfl
  | cons c l ih => rw [List.foldl_cons, ih, tget_tput]; by_cases hk : k = c <;> simp [hk]

/-- A chip that falls out of reach is noted with the time (R375). -/
theorem gone_setPod (s : State) (q : Pod) {k : Nat} (hk : k < 64) : tget 0 (setPod s q).pod.gone k =
    if reaches s.pod k = true ∧ reaches q k = false then s.time.now else tget 0 q.gone k := by
  simp only [setPod, tget_foldl_tput, List.mem_filter, List.mem_range, hk, true_and, Bool.and_eq_true, Bool.not_eq_true', now]

/-- What the announcement of a number changes: dup, the bit of the number in podpeers, and the times of the chips that fall out of reach (R375, R383). -/
def PeerChanged (s t : State) (chip : Nat) : Prop :=
  t = { s with pod := { s.pod with dup := t.pod.dup, peers := t.pod.peers, gone := t.pod.gone } } ∧
  (∀ k, k ≠ chip → t.pod.peers.getLsbD k = s.pod.peers.getLsbD k) ∧
  ∀ k < 64, tget 0 t.pod.gone k = if reaches s.pod k = true ∧ reaches t.pod k = false then s.time.now else tget 0 s.pod.gone k

theorem setPod_peerChanged (s : State) (dup : Bool) (peers : BitVec 64) (chip : Nat)
    (hp : ∀ k, k ≠ chip → peers.getLsbD k = s.pod.peers.getLsbD k) :
    PeerChanged s (setPod s { s.pod with dup := dup, peers := peers }) chip :=
  ⟨rfl, hp, fun _ hk => gone_setPod s _ hk⟩

/-- podpeers with the bit of a number set or cleared. -/
def putPeer (peers : BitVec 64) (chip : Nat) (on : Bool) : BitVec 64 :=
  if on then peers ||| BitVec.ofNat 64 (2 ^ chip) else peers &&& ~~~BitVec.ofNat 64 (2 ^ chip)
theorem getLsbD_putPeer (peers : BitVec 64) {chip : Nat} (hc : chip < 64) (on : Bool) (k : Nat) :
    (putPeer peers chip on).getLsbD k = if k = chip then on else peers.getLsbD k := by
  cases on
  · simp only [putPeer, Bool.false_eq_true, if_false, BitVec.getLsbD_and, BitVec.getLsbD_not, getLsbD_numberBit]; grind
  · simp only [putPeer, if_true, BitVec.getLsbD_or, getLsbD_numberBit]; grind

/-- A state in which a number's bit of podpeers and dup have taken values (R383). -/
theorem setPod_putPeer (s : State) (dup on : Bool) {chip : Nat} (hc : chip < 64) :
    let t := setPod s { s.pod with dup := dup, peers := putPeer s.pod.peers chip on }
    PeerChanged s t chip ∧ t.pod.dup = dup ∧ t.pod.peers.getLsbD chip = on :=
  ⟨setPod_peerChanged s dup _ chip fun k hk => by rw [getLsbD_putPeer _ hc, if_neg hk], rfl, by
    rw [setPod_peers, getLsbD_putPeer _ hc, if_pos rfl]⟩

theorem podAnnouncement_off {s : State} (hp : s.boot.power = true) (h : s.pod.en = false) (chip : Nat) (dup : Bool) :
    exec (.podAnnouncement chip dup) s = .next s := by
  show execPodAnnouncement chip dup s = _
  simp [execPodAnnouncement, powered_on hp, h]
/-- Another package announces this one's number (R383). -/
theorem podAnnouncement_own {s : State} (hp : s.boot.power = true) (h : s.pod.en = true) {chip : Nat} (hc : chip = s.pod.chip.toNat) (dup : Bool) :
    exec (.podAnnouncement chip dup) s = .next (setPod s { s.pod with dup := true, peers := putPeer s.pod.peers chip false }) := by
  show execPodAnnouncement chip dup s = _
  simp [execPodAnnouncement, powered_on hp, h, hc, ownPeer, putPeer]
/-- One other package, or more than one, announces another number (R383). -/
theorem podAnnouncement_other {s : State} (hp : s.boot.power = true) (h : s.pod.en = true) {chip : Nat} (hc : chip ≠ s.pod.chip.toNat) (dup : Bool) :
    exec (.podAnnouncement chip dup) s = .next (setPod s { s.pod with peers := putPeer s.pod.peers chip (!dup) }) := by
  show execPodAnnouncement chip dup s = _
  cases dup <;> simp [execPodAnnouncement, powered_on hp, h, hc, putPeer]
/-- No other package announces this one's number any more (R383). -/
theorem chipUnreachable_own {s : State} (hp : s.boot.power = true) {chip : Nat} (hc : chip = s.pod.chip.toNat) :
    exec (.chipUnreachable chip) s = .next (setPod s { s.pod with dup := false, peers := putPeer s.pod.peers chip s.pod.en }) := by
  show execChipUnreachable chip s = _
  simp [execChipUnreachable, powered_on hp, hc, ownPeer, putPeer]
theorem chipUnreachable_other {s : State} (hp : s.boot.power = true) {chip : Nat} (hc : chip ≠ s.pod.chip.toNat) :
    exec (.chipUnreachable chip) s = .next (setPod s { s.pod with peers := putPeer s.pod.peers chip false }) := by
  show execChipUnreachable chip s = _
  simp [execChipUnreachable, powered_on hp, hc, putPeer]

/-- An announced number, heard while the package takes part in its pod: this one's own sets dup, another's sets or clears its bit (R383). -/
theorem podAnnouncement_heard {s : State} (hp : s.boot.power = true) (hen : s.pod.en = true) {chip : Nat} (hc : chip < 64) (dup : Bool) :
    ∃ t, exec (.podAnnouncement chip dup) s = .next t ∧ PeerChanged s t chip ∧
      (chip = s.pod.chip.toNat → t.pod.dup = true ∧ t.pod.peers.getLsbD chip = false) ∧
      (¬chip = s.pod.chip.toNat → t.pod.dup = s.pod.dup ∧ t.pod.peers.getLsbD chip = !dup) := by
  by_cases hown : chip = s.pod.chip.toNat
  · obtain ⟨h, hdup, hbit⟩ := setPod_putPeer s true false hc
    exact ⟨_, podAnnouncement_own hp hen hown dup, h, fun _ => ⟨hdup, hbit⟩, fun hne => absurd hown hne⟩
  · obtain ⟨h, hdup, hbit⟩ := setPod_putPeer s s.pod.dup (!dup) hc
    exact ⟨_, podAnnouncement_other hp hen hown dup, h, fun he => absurd he hown, fun _ => ⟨hdup, hbit⟩⟩
/-- A number that is no longer announced: this one's own clears dup, another's bit is cleared (R383). -/
theorem chipUnreachable_heard {s : State} (hp : s.boot.power = true) {chip : Nat} (hc : chip < 64) :
    ∃ t, exec (.chipUnreachable chip) s = .next t ∧ PeerChanged s t chip ∧
      (chip = s.pod.chip.toNat → t.pod.dup = false ∧ t.pod.peers.getLsbD chip = s.pod.en) ∧
      (¬chip = s.pod.chip.toNat → t.pod.dup = s.pod.dup ∧ t.pod.peers.getLsbD chip = false) := by
  by_cases hown : chip = s.pod.chip.toNat
  · obtain ⟨h, hdup, hbit⟩ := setPod_putPeer s false s.pod.en hc
    exact ⟨_, chipUnreachable_own hp hown, h, fun _ => ⟨hdup, hbit⟩, fun hne => absurd hown hne⟩
  · obtain ⟨h, hdup, hbit⟩ := setPod_putPeer s s.pod.dup false hc
    exact ⟨_, chipUnreachable_other hp hown, h, fun he => absurd he hown, fun _ => ⟨hdup, hbit⟩⟩

/-! Links to other chips (R14, R382). -/

/-- A port that loses a lane (R14): its spare is brought in, or it goes down. -/
def lanesLost (s : State) (port : Nat) : State :=
  { s with pod := { s.pod with ports := tput 0 s.pod.ports port (tget 0 s.pod.ports port + 1) } }
theorem ualinkLaneFailure_taken {s : State} (hp : s.boot.power = true) (hn : NoSinks s) {port : Nat} (h : port < 12)
    (hl : tget 0 s.pod.ports port < 2) :
    exec (.ualinkLaneFailure port) s = .next (journalFailure (lanesLost s port) 8 (port / 3 * 256 + port)) := by
  have h' : NoSinks (lanesLost s port) := hn.of_regs rfl
  show execUalinkLaneFailure port s = _
  rw [execUalinkLaneFailure, powered_on hp, if_neg (by omega)]
  show Host.Outcome.next (journalFailure (engineEvent (lanesLost s port) ..) _ _) = _
  rw [engineEvent_noSinks h']
/-- The failure of a lane changes its port alone, and is journalled as one of step 8 (R14, R408). -/
theorem ualinkLaneFailure_journalled {s : State} (hp : s.boot.power = true) (hn : NoSinks s) {port : Nat} (h : port < 12)
    (hl : tget 0 s.pod.ports port < 2) :
    ∃ t e, exec (.ualinkLaneFailure port) s = .next t ∧ tget 0 t.pod.ports port = tget 0 s.pod.ports port + 1 ∧
      (∀ k, k ≠ port → tget 0 t.pod.ports k = tget 0 s.pod.ports k) ∧ t.boot.journal.getLast? = some e ∧ e.step = 8 ∧ e.outcome = 2 ∧
      e.unit = port / 3 * 256 + port ∧ e.torn = false ∧ (∀ f ∈ s.boot.journal, f.torn = false → f.seq < e.seq) ∧
      t = { s with pod := { s.pod with ports := t.pod.ports }, boot := { s.boot with journal := t.boot.journal }, fresh := t.fresh } := by
  obtain ⟨e, hj⟩ := journalFailure_journalled (s := lanesLost s port) (hn.of_regs rfl) 8 (port / 3 * 256 + port)
  have hpod := hj.pod
  obtain ⟨ht, hlast, hstep, hout, hunit, htorn, hseq⟩ := hj
  refine ⟨_, e, ualinkLaneFailure_taken hp hn h hl, ?_, fun k hk => ?_, hlast, hstep, hout, by omega, htorn, hseq, ht.trans ?_⟩
  · rw [hpod, lanesLost, tget_tput_same]
  · rw [hpod, lanesLost, tget_tput_other _ _ _ _ _ hk]
  · rw [hpod, lanesLost]
theorem ualinkLaneFailure_none {s : State} (hp : s.boot.power = true) {port : Nat} (h : 12 ≤ port ∨ 2 ≤ tget 0 s.pod.ports port) :
    exec (.ualinkLaneFailure port) s = .next s := by
  show execUalinkLaneFailure port s = _
  rw [execUalinkLaneFailure, powered_on hp, if_pos h]

section
variable {s : State} {r : Waiter} {x : Walk} (hp : s.boot.power = true) (hw : s.work.waits = [r]) (hx : walk s r.walk = some x)
include hp hw hx

/-- The only request that waits has waited at another chip for 10 ms (R382). -/
theorem remoteRequestTimeout_over (hd : x.die / 4 ≠ chipNo s) (h : r.since + 2560000000 ≤ s.time.now) :
    exec (.remoteRequestTimeout r.agent) s = .next (setWalk { s with work := { s.work with
      waits := [], faults := s.work.faults ++ [(r.agent, x.die, pageOf x.va, causeUndelivered)] } } r.walk none) := by
  have hn : ¬(x.die / 4 = chipNo s ∨ now s < r.since + 2560000000) := by simp only [now]; omega
  show execRemoteRequestTimeout r.agent s = _
  simp [execRemoteRequestTimeout, powered_on hp, hw, hx, hn]
theorem remoteRequestTimeout_early (h : s.time.now < r.since + 2560000000) : exec (.remoteRequestTimeout r.agent) s = .next s := by
  have hn : x.die / 4 = chipNo s ∨ now s < r.since + 2560000000 := .inr h
  show execRemoteRequestTimeout r.agent s = _
  simp [execRemoteRequestTimeout, powered_on hp, hw, hx, hn]
end

/-! Clocks (R3, R405, R412). -/

section
variable {s : State} {d : Nat} (hp : s.boot.power = true)
include hp

theorem clockLimit_lowers (hd : d < 4) {mhz : Nat} (hs : (die s (chipNo s * 4 + d)).stopped = false) (h0 : 0 < mhz)
    (h : mhz < (die s (chipNo s * 4 + d)).mhz) : exec (.clockLimit d mhz) s = .next (setClock s d mhz) := by
  show execClockLimit d mhz s = _
  simp [execClockLimit, powered_on hp, hd, hs, h0, h]
theorem clockLimit_none {mhz : Nat} (h : (die s (chipNo s * 4 + d)).stopped = true ∨ mhz = 0 ∨ (die s (chipNo s * 4 + d)).mhz ≤ mhz) :
    exec (.clockLimit d mhz) s = .next s := by
  show execClockLimit d mhz s = _
  rw [execClockLimit, powered_on hp, if_neg]
  rintro ⟨-, hs, h0, hm⟩
  simp [hs] at h; omega
theorem clockRaise_raises (hd : d < 4) {mhz : Nat} (hs : (die s (chipNo s * 4 + d)).stopped = false)
    (h : (die s (chipNo s * 4 + d)).mhz < mhz) (hm : mhz ≤ 1600) : exec (.clockRaise d mhz) s = .next (setClock s d mhz) := by
  show execClockRaise d mhz s = _
  simp [execClockRaise, powered_on hp, hd, hs, h, hm]
theorem clockRaise_none {mhz : Nat} (h : (die s (chipNo s * 4 + d)).stopped = true ∨ mhz ≤ (die s (chipNo s * 4 + d)).mhz ∨ 1600 < mhz) :
    exec (.clockRaise d mhz) s = .next s := by
  show execClockRaise d mhz s = _
  rw [execClockRaise, powered_on hp, if_neg]
  rintro ⟨-, hs, h0, hm⟩
  simp [hs] at h; omega
theorem clockStop_stops (hd : d < 4) : exec (.clockStop d) s =
    .next (setDie s (chipNo s * 4 + d) { die s (chipNo s * 4 + d) with stopped := true }) := by
  show execClockStop d s = _
  rw [execClockStop, powered_on hp, if_pos hd]; rfl
theorem clockRestart_starts (hd : d < 4) (hs : (die s (chipNo s * 4 + d)).stopped = true) (hn : NoSinks s) : exec (.clockRestart d) s =
    .next (setDie s (chipNo s * 4 + d) { die s (chipNo s * 4 + d) with stopped := false }) := by
  have h' : NoSinks (modDie s (chipNo s * 4 + d) fun x => { x with stopped := false }) := hn.of_regs rfl
  show execClockRestart d s = _
  rw [execClockRestart, powered_on hp, if_pos ⟨hd, hs⟩, List.foldl_fixed' fun p => resumeSink_noSinks h' d p]; rfl
theorem clockRestart_none (hs : (die s (chipNo s * 4 + d)).stopped = false) : exec (.clockRestart d) s = .next s := by
  show execClockRestart d s = _
  rw [execClockRestart, powered_on hp, if_neg (by simp [hs])]
end

/-! Soft errors (R359, R408). -/

theorem softError_once {s : State} (hr : ready s = true) {u : SoftUnit} (hu : unitExists s u = true) :
    exec (.softError u false) s = .next (poisonUnit s u) := by
  show execSoftError u false s = _
  simp [execSoftError, whenReady_ready hr, hu]
/-- An error that repeats is journalled at its place (R408). -/
theorem softError_repeated {s t : State} (hr : ready s = true) {u : SoftUnit} (hu : unitExists s u = true) {step unit : Nat}
    (hp : softPlace (poisonUnit s u) u = ((step, unit), t)) (hn : NoSinks t) :
    ∃ v e, exec (.softError u true) s = .next v ∧ FailureJournalled t v step unit e := by
  obtain ⟨e, hj⟩ := journalFailure_journalled hn step unit
  refine ⟨_, e, ?_, hj⟩
  show execSoftError u true s = _
  simp [execSoftError, whenReady_ready hr, hu, hp]

theorem poisonGroup_new {s : State} {g : Nat} {u : PoisonUnit} (h : u ∉ (group s g).poison) :
    poisonGroup s g u = setGroup s g { group s g with poison := (group s g).poison ++ [u] } := by
  simp [poisonGroup, modGroup, h]
theorem poisonTeam_new {s : State} {t k : Nat} (h : k ∉ (team s t).poison) :
    poisonTeam s t k = setTeam s t { team s t with poison := (team s t).poison ++ [k] } := by
  simp [poisonTeam, modTeam, h]
/-- A unit of a group is struck: it is among the poisoned ones afterwards, and nothing else of the group changes. -/
theorem poisonGroup_eq (s : State) (g : Nat) (u : PoisonUnit) :
    ∃ ps, u ∈ ps ∧ poisonGroup s g u = setGroup s g { group s g with poison := ps } := by
  by_cases h : u ∈ (group s g).poison
  · exact ⟨_, h, by simp [poisonGroup, modGroup, h]⟩
  · exact ⟨_, by simp, poisonGroup_new h⟩

section
variable {s : State} (hr : ready s = true) {u : SoftUnit} (hu : unitExists s u = true)
include hr hu

theorem softError_poisonsGroup {g : Nat} {p : PoisonUnit} (hp : poisonUnit s u = poisonGroup s g p) (hn : p ∉ (group s g).poison) :
    exec (.softError u false) s = .next (setGroup s g { group s g with poison := (group s g).poison ++ [p] }) := by
  rw [softError_once hr hu, hp, poisonGroup_new hn]
theorem softError_poisonsTeam {t k : Nat} (hp : poisonUnit s u = poisonTeam s t k) (hn : k ∉ (team s t).poison) :
    exec (.softError u false) s = .next (setTeam s t { team s t with poison := (team s t).poison ++ [k] }) := by
  rw [softError_once hr hu, hp, poisonTeam_new hn]
end

theorem softError_memory {s : State} (hr : ready s = true) {k : Nat} (hk : storedHere s k = true) (hn : k ∉ s.bad) :
    exec (.softError (.memory k) false) s = .next { s with bad := s.bad ++ [k] } := by
  rw [softError_once hr (show unitExists s (.memory k) = true from hk)]
  simp [poisonUnit, hn]

/-- The live slots of a team's accumulator store, or its shadow slots (R264, R299). -/
def slotBank (x : Team) (shadow : Bool) : Tab LA := if shadow then x.shadow else x.acc
/-- A team with one bit of one slot of one bank inverted (R264, R299). -/
def flipTeam (x : Team) (k bit : Nat) (shadow : Bool) : Team :=
  if shadow then { x with shadow := tput LA.zero x.shadow k (flipSlot (tget LA.zero x.shadow k) bit) }
  else { x with acc := tput LA.zero x.acc k (flipSlot (tget LA.zero x.acc k) bit) }
theorem poisonUnit_flip (s : State) (t tile cell bit : Nat) (shadow : Bool) :
    poisonUnit s (.flip t tile cell bit shadow) = setTeam s t (flipTeam (team s t) (1024 * tile + cell) bit shadow) := rfl
@[simp] theorem flipTeam_poison (x : Team) (k bit : Nat) (shadow : Bool) : (flipTeam x k bit shadow).poison = x.poison := by
  cases shadow <;> rfl
theorem tget_slotBank_flipTeam (x : Team) (k bit : Nat) (shadow b : Bool) (c : Nat) : tget LA.zero (slotBank (flipTeam x k bit shadow) b) c =
    if b = shadow ∧ c = k then flipSlot (tget LA.zero (slotBank x shadow) k) bit else tget LA.zero (slotBank x b) c := by
  cases shadow <;> cases b <;> simp [slotBank, flipTeam, tget_tput]

/-- An error in a register is told of the site on which the group's core stands (R408). -/
theorem softPlace_scalar (s : State) (g r : Nat) (ps : List PoisonUnit) :
    softPlace (setGroup s g { group s g with poison := ps }) (.scalar g r) =
      ((7, coreOf s g / 64 * 256 + siteOf (fieldOf s.boot) (coreOf s g / 64) (coreOf s g % 64)), setGroup s g { group s g with poison := ps }) := by
  simp only [softPlace, coreOf_setGroup (s := s) (g := g) (x := { group s g with poison := ps }) rfl, setGroup_boot]

/-- The inverted bit of a slot, as the state shows it (R264, R299). -/
theorem softError_flips {s : State} (hr : ready s = true) {t tile cell bit : Nat} {shadow : Bool}
    (hu : unitExists s (.flip t tile cell bit shadow) = true) :
    ∃ u, exec (.softError (.flip t tile cell bit shadow) false) s = .next u ∧ u.mem = s.mem ∧ (team u t).poison = (team s t).poison ∧
      ∀ b c, tget LA.zero (slotBank (team u t) b) c = if b = shadow ∧ c = 1024 * tile + cell
        then flipSlot (tget LA.zero (slotBank (team s t) shadow) (1024 * tile + cell)) bit else tget LA.zero (slotBank (team s t) b) c := by
  refine ⟨_, softError_once hr hu, rfl, ?_, ?_⟩ <;> rw [poisonUnit_flip, team_setTeam_same]
  · exact flipTeam_poison ..
  · exact fun b c => tget_slotBank_flipTeam ..

/-- An error that repeats in a scalar register poisons it, kills nothing, and is journalled with the site of the core (R359, R408). -/
theorem softError_scalar_journalled {s : State} (hr : ready s = true) {g r : Nat} (hl : (group s g).live = true) (h0 : 0 < r) (h : r < 64)
    (hn : NoSinks s) :
    ∃ u e, exec (.softError (.scalar g r) true) s = .next u ∧ ⟨0, r, 0⟩ ∈ (group u g).poison ∧ (group u g).live = true ∧
      u.boot.journal.getLast? = some e ∧ e.step = 7 ∧ e.outcome = 2 ∧ e.torn = false ∧
      e.unit = (coreOf s g / 64 * 256 + siteOf (fieldOf s.boot) (coreOf s g / 64) (coreOf s g % 64)) % 65536 := by
  obtain ⟨ps, hps, hx⟩ := poisonGroup_eq s g ⟨0, r, 0⟩
  obtain ⟨u, e, hu, hj⟩ := softError_repeated hr (u := .scalar g r) (by simp [unitExists, hl, h0, h])
    ((congrArg (softPlace · _) hx).trans (softPlace_scalar s g r ps)) (hn.of_regs rfl)
  have hg : group u g = { group s g with poison := ps } := (hj.group g).trans (group_setGroup_same ..)
  obtain ⟨-, hlast, hstep, hout, hunit, htorn, -⟩ := hj
  exact ⟨u, e, hu, by rw [hg]; exact hps, by rw [hg]; exact hl, hlast, hstep, hout, htorn, hunit⟩

/-- An error of a die-to-die link poisons nothing; one that repeats is journalled (R359, R408). -/
theorem softError_link_journalled {s : State} (hr : ready s = true) {d n : Nat} (hd : d < 4) (hm : n < 256) (hn : NoSinks s) :
    exec (.softError (.link d n) false) s = .next s ∧
      ∃ u e, exec (.softError (.link d n) true) s = .next u ∧ u.boot.journal.getLast? = some e ∧ e.step = 6 ∧ e.outcome = 2 ∧
        e.unit = d * 256 + n ∧ e.torn = false := by
  have hu : unitExists s (.link d n) = true := by simp [unitExists, hd, hm]
  obtain ⟨u, e, hx, -, hlast, hstep, hout, hunit, htorn, -⟩ := softError_repeated hr hu rfl hn
  exact ⟨softError_once hr hu, u, e, hx, hlast, hstep, hout, by omega, htorn⟩

/-- Settles O49: each clause is what the lemmas above say of its event. -/
theorem packageEvents : Obligations.PackageEvents :=
  ⟨fun _ chip hp hc => ⟨fun dup => ⟨fun hen => podAnnouncement_off hp hen chip dup, fun hen => podAnnouncement_heard hp hen hc dup⟩,
      chipUnreachable_heard hp hc, fun _ hn => ⟨ualinkLaneFailure_journalled hp hn, ualinkLaneFailure_none hp⟩,
      fun _ _ hw hx hd => ⟨remoteRequestTimeout_over hp hw hx hd, remoteRequestTimeout_early hp hw hx⟩⟩,
    fun s d mhz hp hd => ⟨fun hn => toAllSinks_noSinks (NoSinks.of_regs (t := setDie s _ _) hn rfl) d 9 (varint mhz), clockLimit_lowers hp hd,
      clockLimit_none hp, clockRaise_raises hp hd, clockRaise_none hp, clockStop_stops hp hd, clockRestart_starts hp hd, clockRestart_none hp⟩,
    fun _ _ _ _ _ _ _ hr =>
      ⟨fun hl => ⟨fun hv hi => softError_poisonsGroup hr (by simp [unitExists, hl, hv, hi]) rfl,
          fun h0 h => softError_poisonsGroup hr (by simp [unitExists, hl, h0, h]) rfl,
          fun h => softError_poisonsGroup hr (by simp [unitExists, hl, h]) rfl,
          fun h0 h => softError_poisonsGroup hr (by simp [unitExists, hl, h0, h]) rfl,
          fun hq hi => softError_poisonsGroup hr (by simp [unitExists, hl, hq, hi]) rfl⟩,
        fun hl => ⟨fun ht hi => ⟨softError_poisonsTeam hr (by simp [unitExists, hl, ht, hi]) rfl,
            fun _ hb _ => softError_flips hr (by simp [unitExists, hl, ht, hi, hb])⟩,
          fun hk => softError_poisonsTeam hr (by simp [unitExists, hl, hk]) rfl⟩,
        softError_memory hr, fun hl h0 h hn => softError_scalar_journalled hr hl h0 h hn,
        fun _ _ hd hm hn => softError_link_journalled hr hd hm hn⟩⟩

/-! The cold start (R5, R6). -/

/-- At a cold start every partition register reads as the maps give it (R312, R317, R324, R368, R391). -/
theorem preg_reset (p r : Nat) : preg State.reset p r = regReset p r := rfl
theorem group_reset (g : Nat) : group State.reset g = Group.blank := rfl
theorem team_reset (t : Nat) : team State.reset t = Team.blank := rfl
theorem launch_reset (l : Nat) : launch State.reset l = Launch.blank := rfl
theorem walk_reset (w : Nat) : walk State.reset w = none := rfl
theorem queue_reset (q : Nat) : queue State.reset q = Queue.blank := rfl
theorem core_reset (c : Nat) : core State.reset c = Core.blank := rfl

theorem settled_reset : State.reset.settled := ⟨rfl, rfl⟩
theorem laneBound_blank : LaneBound LaneCtx.blank := by simp [LaneBound, LaneCtx.blank, Park.none]
theorem bounded_reset : State.reset.bounded := fun g => by
  rw [group_reset]
  exact ⟨laneBound_blank, fun _ h => (Option.some_ne_none _ h.symm).elim, Nat.zero_le _, Nat.zero_le _, Nat.zero_le _, Nat.zero_le _, fun _ => Nat.zero_le _⟩

/-- Settles O52: each table of the cold start is empty, so that what it holds reads as its default. -/
theorem resetState : Obligations.ResetState := by
  refine ⟨⟨fun p r => ?_, fun q => ?_, fun c k => ?_, rfl, rfl, rfl, rfl, rfl, rfl, rfl, rfl, rfl, rfl, rfl, rfl, fun g => ?_, fun t => ?_, fun l => ?_,
    walk_reset⟩, settled_reset, wf_reset, bounded_reset⟩
  · rw [preg_reset]; rfl
  · rw [queue_reset]; exact ⟨rfl, rfl, rfl, rfl, rfl, rfl, rfl, rfl, rfl, rfl, rfl⟩
  · rw [core_reset]; rfl
  · rw [group_reset]; rfl
  · rw [team_reset]; rfl
  · rw [launch_reset]; rfl

/-! A partition reset that does not show (R387): the counterexample to O46.

`preg s p r` reads the entry `p * 4096 + r` of one table. The count of bytes that a sink has written to its ring is register 0x048 + d of its
partition, and d comes from the core of the team whose group emits a record. No statement bounds that core: on core 64 * 4024, which no package
has, the count of a sink of partition 0 is the entry 4096, which is pctl of partition 1. A reset of partition 1 that kills such a group has its
record written after pctl.rst is set, and the count of bytes carries out of bit 9. -/

/-- Page 0 of die 0 for partition 0, readable by none and writable, written before. -/
def strayPage : TlbEntry := ⟨0, 0, 0, 2 ^ 56 + 4, 0⟩
/-- A traced group with a pending map bit, which holds its place in team 2. -/
def strayGroup : Group := { Group.blank with live := true, team := 2, trace := { TraceCtx.off with bit := true, map := [true] } }
/-- The sink 4024 of partition 0, with a record of 256 zero bytes still to be written. -/
def straySink : Sink := { Sink.blank with held := [⟨8, 0, 0, 0, List.replicate 256 0, false⟩] }
/-- A package in which launch 1 of partition 1 has one team, whose one group holds its place in a team of partition 0 on core 64 * 4024; the sink of
that place is enabled, and partition 1 has been disabled. -/
def strayState : State :=
  { State.reset with
    boot := { Boot.cold with phase := 2 }, resets := [(1, 1)], dies := [(0, { Die.blank with tlb := [strayPage] })]
    regs := [(0x040 + 4024, 12), (0x044 + 4024, 0x10001)], sinks := [(4024, straySink)]
    work := { State.reset.work with
      groups := [(1, strayGroup)]
      teams := [(1, { Team.blank with live := true, launch := 1, groups := [1] }), (2, { Team.blank with core := 64 * 4024 })]
      launches := [(1, { Launch.blank with live := true, part := 1, phase := .running })] } }

/-- pctl of partition 1 after en has been written 1: en and rst, and the 269 bytes of the two records that the sink has written. -/
theorem pctl_stray : preg (hostPreg strayState 1 0 0x100) 1 0 = 0x300 + 269 := by decide +kernel

/-- Refutes O46: in `strayState`, en of partition 1 written 0 and then 1 begins a partition reset, which leaves pctl.rst at 0. -/
theorem not_hostRegisterWrites : ¬ Obligations.HostRegisterWrites := by
  rintro ⟨-, hpart, -⟩
  obtain ⟨⟨t, ht, -, -, hreset, -⟩, -⟩ := hpart strayState 1 0x100 rfl (by decide)
  obtain ⟨hrst, -⟩ := hreset (by decide) (by decide +kernel) rfl
  have hnext : hostPreg strayState 1 0 0x100 = t := Host.Outcome.next.inj ht
  rw [← hnext, partResetting, pctl_stray] at hrst
  exact absurd hrst (by decide)

end Sys2Proof.Machine
end

section
/-! PROOFS. The scope's statements (family 01): the cold start, the alternatives of its steps, firmware and the loss of power. -/

namespace Sys2Proof.Machine
open Sys2Proof

/-! A step of the boot controller, as bootst and the journal show it (R406 to R408). -/

/-- The attempt that a step belongs to: a failure of steps 4 to 8 has begun another (R407). -/
def attemptOf (b : Boot) : Nat := if b.outcome = 2 ∧ 4 ≤ b.step then b.attempt + 1 else b.attempt
/-- The state in which a step's work begins: the attempt counted (R407). -/
def counted (s : State) : State :=
  if s.boot.outcome = 2 ∧ 4 ≤ s.boot.step then { s with boot := { s.boot with attempt := s.boot.attempt + 1 } } else s
theorem counted_eq (s : State) : counted s = { s with boot := { s.boot with attempt := attemptOf s.boot } } := by
  unfold counted attemptOf
  split <;> rfl
/-- What bootst shows in `t` after a step from `s`, and the step that follows. -/
def Took (s t : State) (step outcome next phase : Nat) : Prop :=
  t.boot.step = step ∧ t.boot.outcome = outcome ∧ t.boot.next = next ∧ t.boot.phase = phase ∧ t.boot.attempt = attemptOf s.boot
theorem Took.unserviceable {s t : State} {step outcome next phase : Nat} (h : Took s t step outcome next phase) :
    Took s (unserviceable t) step outcome next 3 := by
  obtain ⟨hs, ho, hx, -, ha⟩ := h
  exact ⟨hs, ho, hx, rfl, ha⟩
/-- The journal of `t` ends in a whole entry of a step, with a number above those of all whole entries of `s` (R408). -/
def Journalled (s t : State) (step outcome unit detail : Nat) : Prop :=
  ∃ e, t.boot.journal.getLast? = some e ∧ e.step = step ∧ e.outcome = outcome ∧ e.unit = unit % 65536 ∧ e.detail = detail % 2 ^ 32 ∧
    e.time = s.time.now / 256 ∧ e.torn = false ∧ ∀ f ∈ s.boot.journal, f.torn = false → f.seq < e.seq

theorem tookStep_noSinks {s : State} (h : NoSinks s) (step outcome unit detail next : Nat) : tookStep s step outcome unit detail next =
    { s with boot := { s.boot with step := step, outcome := outcome, next := next,
                                   journal := appendEntry s.boot.journal (newEntry s step outcome unit detail) } } :=
  writeJournal_noSinks (s := { s with boot := { s.boot with step := step, outcome := outcome, next := next } }) (h.of_regs rfl) ..

theorem journalled_appendEntry {s t : State} {step outcome unit detail : Nat}
    (h : t.boot.journal = appendEntry s.boot.journal (newEntry s step outcome unit detail)) : Journalled s t step outcome unit detail :=
  ⟨newEntry s step outcome unit detail, h ▸ getLast?_appendEntry .., rfl, rfl, rfl, rfl, rfl, rfl, fun _ hf ht => seq_lt_newEntry hf ht ..⟩
theorem journalled_tookStep {s : State} (h : NoSinks s) (step outcome unit detail next : Nat) :
    Journalled s (tookStep s step outcome unit detail next) step outcome unit detail :=
  journalled_appendEntry (by rw [tookStep_noSinks h])

/-- The field section as it is written: signed by the identity key (R410). -/
def signedField (f : Config.FieldSection) : Config.FieldSection := { f with sig := Config.ed448Sign (fieldContent f) }
theorem writeField_eq (s : State) (f : Config.FieldSection) :
    writeField s f = { s with boot := { s.boot with field := some (signedField f) } } := rfl
theorem writeField_field (s : State) (f : Config.FieldSection) : (writeField s f).boot.field = some (signedField f) := rfl
theorem unserviceable_field (s : State) : (unserviceable s).boot.field = s.boot.field := rfl

section
variable {s : State} (hn : NoSinks s)
include hn

theorem tookStep_counted (step outcome unit detail next : Nat) : tookStep (counted s) step outcome unit detail next =
    { s with boot := { s.boot with attempt := attemptOf s.boot, step := step, outcome := outcome, next := next,
                                   journal := appendEntry s.boot.journal (newEntry s step outcome unit detail) } } := by
  rw [counted_eq]
  exact tookStep_noSinks (s := { s with boot := { s.boot with attempt := attemptOf s.boot } }) (hn.of_regs rfl) ..
theorem tookStep_took (h0 : s.boot.phase = 0) (step outcome unit detail next : Nat) :
    Took s (tookStep (counted s) step outcome unit detail next) step outcome next 0 := by
  rw [tookStep_counted hn]; exact ⟨rfl, rfl, rfl, h0, rfl⟩
theorem tookStep_journalled (step outcome unit detail next : Nat) :
    Journalled s (tookStep (counted s) step outcome unit detail next) step outcome unit detail :=
  journalled_appendEntry (by rw [tookStep_counted hn])
theorem tookStep_field (step outcome unit detail next : Nat) :
    (tookStep (counted s) step outcome unit detail next).boot.field = s.boot.field := by
  rw [tookStep_counted hn]
theorem restart_took (h0 : s.boot.phase = 0) (step unit detail : Nat) :
    Took s (restart (tookStep (counted s) step 2 unit detail 1)) step 2 1 (if 4 ≤ attemptOf s.boot then 3 else 0) := by
  have ht := tookStep_took hn h0 step 2 unit detail 1
  have ha : (tookStep (counted s) step 2 unit detail 1).boot.attempt = attemptOf s.boot := by rw [tookStep_counted hn]
  rw [restart, ha]
  split
  · exact ht.unserviceable
  · exact ht
theorem restart_journalled (step unit detail : Nat) :
    Journalled s (restart (tookStep (counted s) step 2 unit detail 1)) step 2 unit detail := by
  rw [restart]
  split <;> exact tookStep_journalled hn ..
end

/-! Which of its steps the boot controller takes (R407). -/

/-- What the boot controller does at step `k` (R407). -/
def takeStep (s : State) (k r unit detail : Nat) : State :=
  match k with
  | 1 => keyStep s r unit detail
  | 2 => recordStep s r unit detail
  | 3 => { s with boot := { s.boot with step := 3, outcome := 0, phase := 1 } }
  | 9 => readyStep s
  | k => trainStep s k r unit detail
theorem bootStep_takeStep (s : State) (r unit detail : Nat) : bootStep s r unit detail = takeStep (counted s) s.boot.next r unit detail := rfl
theorem takeStep_train (s : State) {k : Nat} (h4 : 4 ≤ k) (h8 : k ≤ 8) (r unit detail : Nat) :
    takeStep s k r unit detail = trainStep s k r unit detail := by
  unfold takeStep
  split
  case h_5 => rfl
  all_goals omega

@[simp] theorem lastFailure_counted (s : State) (k : Nat) : lastFailure (counted s).boot k = lastFailure s.boot k := by rw [counted_eq]; rfl
@[simp] theorem fieldOf_counted (s : State) : fieldOf (counted s).boot = fieldOf s.boot := by rw [counted_eq]; rfl
@[simp] theorem fieldGood_counted (s : State) : fieldGood (counted s).boot = fieldGood s.boot := by rw [counted_eq]; rfl
@[simp] theorem factoryGood_counted (s : State) : factoryGood (counted s).boot = factoryGood s.boot := by rw [counted_eq]; rfl

/-- The field section's signature holds when it is the one that its rewriting would give (R410, log 13). -/
theorem fieldGood_iff (b : Boot) : fieldGood b = true ↔ ∀ f, b.field = some f → some f = some (signedField f) := by
  unfold fieldGood
  split
  next h => simp [h]
  next f h =>
    simp only [h, Option.some.injEq, forall_eq', beq_iff_eq]
    exact ⟨fun hs => by rw [signedField, ← hs], fun hs => congrArg (·.sig) hs⟩

/-! Steps 4 to 8: the work, or the alternative that the last failure calls for (R407). -/

section
variable {s : State} {k r unit detail : Nat}

theorem trainStep_passes (hl : lastFailure s.boot k = none) :
    trainStep (counted s) k 0 unit detail = tookStep (counted s) k 0 unit detail (k + 1) := by
  simp [trainStep, hl]
theorem trainStep_fails (hl : lastFailure s.boot k = none) (hr : r ≠ 0) :
    trainStep (counted s) k r unit detail = restart (tookStep (counted s) k 2 unit detail 1) := by
  simp [trainStep, hl, hr]

variable {e : Journal} {f : Config.FieldSection} (hl : lastFailure s.boot k = some e)
include hl

theorem trainStep_exhausted (ha : alternative (fieldOf s.boot) k r e.unit e.detail = none) : trainStep (counted s) k r unit detail =
    unserviceable (writeField (tookStep (counted s) k 3 e.unit e.detail k) (fieldOf s.boot)) := by
  simp [trainStep, hl, ha]

variable (ha : alternative (fieldOf s.boot) k r e.unit e.detail = some f)
include ha

theorem trainStep_leavesOut (ho : leftOut (fieldOf s.boot) f k e.unit = true) :
    trainStep (counted s) k r unit detail = writeField (tookStep (counted s) k 3 e.unit e.detail (k + 1)) f := by
  simp [trainStep, hl, ha, ho]
theorem trainStep_failsAgain (ho : leftOut (fieldOf s.boot) f k e.unit = false) (hr : r = 1 ∨ r = 5) :
    trainStep (counted s) k r unit detail = restart (tookStep (counted s) k 2 unit detail 1) := by
  simp [trainStep, hl, ha, ho, failsAgain, hr]
theorem trainStep_alternative (ho : leftOut (fieldOf s.boot) f k e.unit = false) (h1 : r ≠ 1) (h5 : r ≠ 5) :
    trainStep (counted s) k r unit detail = writeField (tookStep (counted s) k 1 e.unit e.detail (k + 1)) f := by
  simp [trainStep, hl, ha, ho, failsAgain, h1, h5]
end

/-! Step 9: the settings of the field section, and the package ready (R407, R411). -/

/-- A position left vacant (R315). -/
def vacate (s : State) (c : Nat) : State := modCore s c fun k => { k with vacant := true }
/-- The positions of the package that a field section leaves vacant (R9). -/
def vacantCores (f : Config.FieldSection) : List Nat := [0, 1, 2, 3].flatMap fun d => (vacancies f d).map (64 * d + ·)
theorem applyField_eq (s : State) : applyField s =
    { (vacantCores (fieldOf s.boot)).foldl vacate s with
      pod := { ((vacantCores (fieldOf s.boot)).foldl vacate s).pod with
        ports := (fieldOf s.boot).ports.foldl (fun t e => tput 0 t e.1 e.2) ((vacantCores (fieldOf s.boot)).foldl vacate s).pod.ports } } := by
  simp only [vacantCores, List.foldl_flatMap, List.foldl_map]; rfl
theorem foldl_vacate_boot (l : List Nat) (s : State) : (l.foldl vacate s).boot = s.boot := by
  induction l generalizing s with
  | nil => rfl
  | cons c l ih => exact ih _
theorem foldl_vacate_vacant (l : List Nat) (s : State) (c : Nat) (h : c ∈ l ∨ (core s c).vacant = true) :
    (core (l.foldl vacate s) c).vacant = true := by
  induction l generalizing s with
  | nil => simpa using h
  | cons a l ih =>
    refine ih _ ?_
    by_cases hc : c = a
    · right; simp [vacate, modCore, hc]
    · simpa [vacate, modCore, core_setCore, hc] using h
theorem applyField_boot (s : State) : (applyField s).boot = s.boot := by
  rw [applyField_eq]; exact foldl_vacate_boot ..
theorem applyField_vacant (s : State) {d i : Nat} (hd : d < 4) (hi : i ∈ vacancies (fieldOf s.boot) d) :
    (core (applyField s) (64 * d + i)).vacant = true := by
  rw [applyField_eq]
  refine foldl_vacate_vacant _ _ _ (.inl (List.mem_flatMap.mpr ⟨d, ?_, List.mem_map.mpr ⟨i, hi, rfl⟩⟩))
  simp; omega

/-- The package as step 9 makes it ready, the lowest accepted version not yet raised. -/
def readied (s : State) : State :=
  let s := applyField (tookStep s 9 0 0 0 9)
  { s with boot := { s.boot with phase := 2 }, time := { s.time with lock := .locked, outside := false } }
theorem readyStep_eq (s : State) : readyStep s =
    if raises (readied s).boot.firmware then writeField (readied s) { fieldOf (readied s).boot with version := fieldAt (readied s).boot.firmware 8 8 }
    else readied s := rfl
theorem readied_boot (s : State) : (readied s).boot = { (tookStep s 9 0 0 0 9).boot with phase := 2 } := by
  simp only [readied, applyField_boot]
/-- The field section that step 9 leaves: the lowest accepted version raised where the image asks for it (R411). -/
def readyField (b : Boot) : Option Config.FieldSection :=
  if raises b.firmware then some (signedField { fieldOf b with version := fieldAt b.firmware 8 8 }) else b.field
theorem readyStep_boot {s : State} (hn : NoSinks s) :
    (readyStep (counted s)).boot = { (tookStep (counted s) 9 0 0 0 9).boot with phase := 2, field := readyField s.boot } := by
  rw [readyStep_eq, apply_ite State.boot, writeField_eq]
  simp only [readied_boot, tookStep_counted hn, readyField]
  split <;> rfl
theorem readyStep_lock (s : State) : (readyStep s).time.lock = .locked := by
  rw [readyStep_eq, apply_ite State.time, writeField_eq, ite_self, readied]
theorem readyStep_cores (s : State) : (readyStep s).cores = (applyField (tookStep s 9 0 0 0 9)).cores := by
  rw [readyStep_eq, apply_ite State.cores, writeField_eq, ite_self, readied]
theorem readyStep_vacant {s : State} (hn : NoSinks s) {d i : Nat} (hd : d < 4) (hi : i ∈ vacancies (fieldOf s.boot) d) :
    (core (readyStep (counted s)) (64 * d + i)).vacant = true := by
  rw [core, readyStep_cores]
  exact applyField_vacant _ hd (by rwa [fieldOf, tookStep_field hn])

/-! What `coldStart` does in each state of the boot controller (R406, R407). -/

theorem coldStart_off {s : State} (h : s.boot.power = false) (r unit detail : Nat) :
    exec (.coldStart r unit detail) s = .next { s with boot := { s.boot with power := true } } := by
  show execColdStart r unit detail s = _
  simp [execColdStart, h]
theorem coldStart_idle {s : State} (h : s.boot.power = true) (h0 : s.boot.phase ≠ 0) (r unit detail : Nat) :
    exec (.coldStart r unit detail) s = .next s := by
  show execColdStart r unit detail s = _
  simp [execColdStart, h, h0]

section
variable {s : State} (hp : s.boot.power = true) (h0 : s.boot.phase = 0)
include hp h0

theorem coldStart_takes {k : Nat} (h : s.boot.next = k) (r unit detail : Nat) :
    exec (.coldStart r unit detail) s = .next (takeStep (counted s) k r unit detail) := by
  show execColdStart r unit detail s = _
  simp [execColdStart, hp, h0, bootStep_takeStep, h]
theorem coldStart_trains {k : Nat} (h4 : 4 ≤ k) (h8 : k ≤ 8) (h : s.boot.next = k) (r unit detail : Nat) :
    exec (.coldStart r unit detail) s = .next (trainStep (counted s) k r unit detail) := by
  rw [coldStart_takes hp h0 h, takeStep_train _ h4 h8]

variable (hn : NoSinks s) (unit detail : Nat)

/-- Step 1 after a failure of step 1 (R407). -/
theorem coldStart_key_refused (h : s.boot.next = 1) (hl : lastFailure s.boot 1 ≠ none) (r : Nat) :
    ∃ t, exec (.coldStart r unit detail) s = .next t ∧ t.boot.phase = 3 := by
  have hk : keyStep (counted s) r unit detail = unserviceable (counted s) := by
    simp [keyStep, Option.isSome_iff_ne_none, hl]
  exact ⟨_, (coldStart_takes hp h0 h ..).trans (congrArg _ hk), rfl⟩
/-- Step 3 waits for firmware (R407). -/
theorem coldStart_waits (h : s.boot.next = 3) (r : Nat) :
    ∃ t, exec (.coldStart r unit detail) s = .next t ∧ Took s t 3 0 3 1 ∧ t.boot.journal = s.boot.journal := by
  refine ⟨_, coldStart_takes hp h0 h .., ?_⟩
  rw [counted_eq]
  exact ⟨⟨rfl, rfl, h, rfl, rfl⟩, rfl⟩

include hn

theorem coldStart_key_passes (h : s.boot.next = 1) (hl : lastFailure s.boot 1 = none) :
    ∃ t, exec (.coldStart 0 unit detail) s = .next t ∧ Took s t 1 0 2 0 ∧ Journalled s t 1 0 unit detail ∧ t.boot.keyed = true := by
  have hk : keyStep (counted s) 0 unit detail =
      { tookStep (counted s) 1 0 unit detail 2 with boot := { (tookStep (counted s) 1 0 unit detail 2).boot with keyed := true } } := by
    simp [keyStep, hl]
  exact ⟨_, (coldStart_takes hp h0 h ..).trans (congrArg _ hk), tookStep_took hn h0 .., tookStep_journalled hn .., rfl⟩
theorem coldStart_key_fails (h : s.boot.next = 1) (hl : lastFailure s.boot 1 = none) :
    ∃ t, exec (.coldStart 1 unit detail) s = .next t ∧ Took s t 1 2 1 3 ∧ Journalled s t 1 2 unit detail := by
  have hk : keyStep (counted s) 1 unit detail = unserviceable (tookStep (counted s) 1 2 unit detail 1) := by
    simp [keyStep, hl]
  exact ⟨_, (coldStart_takes hp h0 h ..).trans (congrArg _ hk), (tookStep_took hn h0 ..).unserviceable, tookStep_journalled hn ..⟩

theorem coldStart_record_passes (h : s.boot.next = 2) (hf : factoryGood s.boot = true) (hg : fieldGood s.boot = true) :
    ∃ t, exec (.coldStart 0 unit detail) s = .next t ∧ Took s t 2 0 3 0 ∧ Journalled s t 2 0 unit detail ∧ t.boot.field = s.boot.field := by
  have hk : recordStep (counted s) 0 unit detail = tookStep (counted s) 2 0 unit detail 3 := by
    simp [recordStep, hf, hg]
  exact ⟨_, (coldStart_takes hp h0 h ..).trans (congrArg _ hk), tookStep_took hn h0 .., tookStep_journalled hn .., tookStep_field hn ..⟩
/-- Where the field section alone is bad, the factory section is used alone (R407). -/
theorem coldStart_record_factoryAlone (h : s.boot.next = 2) (hf : factoryGood s.boot = true) {r : Nat} (h2 : r ≠ 2)
    (hr : r = 1 ∨ fieldGood s.boot = false) :
    ∃ t, exec (.coldStart r unit detail) s = .next t ∧ Took s t 2 1 3 0 ∧ Journalled s t 2 1 unit detail ∧
      t.boot.field = some (signedField emptyField) := by
  have hk : recordStep (counted s) r unit detail = writeField (tookStep (counted s) 2 1 unit detail 3) emptyField := by
    simp [recordStep, hf, h2, hr]
  exact ⟨_, (coldStart_takes hp h0 h ..).trans (congrArg _ hk), tookStep_took hn h0 .., tookStep_journalled hn .., rfl⟩
theorem coldStart_record_fails (h : s.boot.next = 2) {r : Nat} (hr : r = 2 ∨ factoryGood s.boot = false) :
    ∃ t, exec (.coldStart r unit detail) s = .next t ∧ Took s t 2 2 2 3 ∧ Journalled s t 2 2 unit detail := by
  have hk : recordStep (counted s) r unit detail = unserviceable (tookStep (counted s) 2 2 unit detail 2) := by
    simp [recordStep, hr]
  exact ⟨_, (coldStart_takes hp h0 h ..).trans (congrArg _ hk), (tookStep_took hn h0 ..).unserviceable, tookStep_journalled hn ..⟩

theorem coldStart_ready (h : s.boot.next = 9) (r : Nat) :
    ∃ t, exec (.coldStart r unit detail) s = .next t ∧ Took s t 9 0 9 2 ∧ Journalled s t 9 0 0 0 ∧ ready t = true ∧ t.time.lock = .locked ∧
      (∀ d < 4, ∀ i ∈ vacancies (fieldOf s.boot) d, (core t (64 * d + i)).vacant = true) ∧ t.boot.field = readyField s.boot := by
  have hb := readyStep_boot hn
  rw [tookStep_counted hn] at hb
  refine ⟨readyStep (counted s), coldStart_takes hp h0 h .., ?_, journalled_appendEntry (by rw [hb]), ?_, readyStep_lock _,
    fun d hd i hi => readyStep_vacant hn hd hi, by rw [hb]⟩
  · rw [Took, hb]; exact ⟨rfl, rfl, rfl, rfl, rfl⟩
  · rw [ready, hb]; simp [hp]

section
variable {k : Nat} (h4 : 4 ≤ k) (h8 : k ≤ 8) (h : s.boot.next = k)
include h4 h8 h

theorem coldStart_train_passes (hl : lastFailure s.boot k = none) :
    ∃ t, exec (.coldStart 0 unit detail) s = .next t ∧ Took s t k 0 (k + 1) 0 ∧ Journalled s t k 0 unit detail ∧ t.boot.field = s.boot.field :=
  ⟨_, (coldStart_trains hp h0 h4 h8 h ..).trans (congrArg _ (trainStep_passes hl)), tookStep_took hn h0 .., tookStep_journalled hn ..,
    tookStep_field hn ..⟩
/-- A step that fails restarts the sequence, unless it was the last attempt (R407). -/
theorem coldStart_train_restarts {r : Nat}
    (ht : trainStep (counted s) k r unit detail = restart (tookStep (counted s) k 2 unit detail 1)) :
    ∃ t, exec (.coldStart r unit detail) s = .next t ∧ Journalled s t k 2 unit detail ∧
      Took s t k 2 1 (if 4 ≤ attemptOf s.boot then 3 else 0) :=
  ⟨_, (coldStart_trains hp h0 h4 h8 h ..).trans (congrArg _ ht), restart_journalled hn .., restart_took hn h0 ..⟩
/-- A step that goes on with a field section kept (R407, R410). -/
theorem coldStart_train_goesOn {r outcome un de : Nat} {f : Config.FieldSection}
    (ht : trainStep (counted s) k r unit detail = writeField (tookStep (counted s) k outcome un de (k + 1)) f) :
    ∃ t, exec (.coldStart r unit detail) s = .next t ∧ Journalled s t k outcome un de ∧ Took s t k outcome (k + 1) 0 ∧
      t.boot.field = some (signedField f) :=
  ⟨_, (coldStart_trains hp h0 h4 h8 h ..).trans (congrArg _ ht), tookStep_journalled hn .., tookStep_took hn h0 .., rfl⟩
/-- Used-up spares stop bring-up (R407). -/
theorem coldStart_train_stops {r : Nat} {e : Journal} (hl : lastFailure s.boot k = some e)
    (ha : alternative (fieldOf s.boot) k r e.unit e.detail = none) :
    ∃ t, exec (.coldStart r unit detail) s = .next t ∧ Journalled s t k 3 e.unit e.detail ∧ Took s t k 3 k 3 ∧
      t.boot.field = some (signedField (fieldOf s.boot)) :=
  ⟨_, (coldStart_trains hp h0 h4 h8 h ..).trans (congrArg _ (trainStep_exhausted hl ha)), tookStep_journalled hn ..,
    (tookStep_took hn h0 ..).unserviceable, (unserviceable_field _).trans (writeField_field ..)⟩
end
end

/-! What an alternative may still do (R407). -/

section
variable {f g : Config.FieldSection} {r unit detail : Nat}

theorem alternative_stack_none : alternative f 4 r unit detail = none ↔ r ≠ 3 ∧ r ≠ 5 ∧ (r = 2 ∨ ∃ e ∈ f.channels, e.1 = unit) := by
  rw [alternative]
  split
  next h => exact iff_of_false (Option.some_ne_none _) (by tauto)
  next h => simp only [ite_eq_left_iff, reduceCtorEq, imp_false, not_not, List.any_eq_true, beq_iff_eq]; tauto
theorem alternative_stack_rows (h : alternative f 4 4 unit detail = some g) :
    g = { f with channels := f.channels ++ [(unit, detail)], rows := f.rows ++ [(4, unit, detail)] } := by
  rw [alternative, if_neg (by omega)] at h
  split at h <;> simp_all
theorem alternative_rate_none : alternative f 5 r unit detail = none ↔ 2 ≤ tget 0 f.rates (unit / 256) := by
  simp [alternative, Nat.succ_le_iff]
theorem alternative_rate (h : alternative f 5 r unit detail = some g) :
    tget 0 g.rates (unit / 256) = tget 0 f.rates (unit / 256) + 1 ∧ g = { f with rates := g.rates } := by
  simp only [alternative, Option.ite_none_left_eq_some, Option.some.injEq] at h
  obtain ⟨-, rfl⟩ := h
  exact ⟨by simp, rfl⟩
theorem alternative_link_none : alternative f 6 r unit detail = none ↔ r ≠ 0 ∧ r ≠ 1 ∧ unit ∈ f.halves := by
  rw [alternative]
  split
  next h => exact iff_of_false (Option.some_ne_none _) (by tauto)
  next h => simp only [ite_eq_left_iff, reduceCtorEq, imp_false, not_not, List.contains_iff_mem]; tauto
theorem alternative_site (h3 : r ≠ 3) (h5 : r ≠ 5) (h : alternative f 7 r unit detail = some g) :
    g = { f with sites := f.sites ++ [unit], rows := if r = 4 then f.rows ++ [(7, unit, detail)] else f.rows } := by
  simpa [alternative, h3, h5] using h.symm
theorem alternative_port (h : alternative f 8 r unit detail = some g) :
    tget 0 g.ports (unit % 256) = (if tget 0 f.ports (unit % 256) = 0 then 1 else 2) ∧
      (leftOut f g 8 unit = true ↔ tget 0 f.ports (unit % 256) ≠ 0) := by
  have hg : tget 0 g.ports (unit % 256) = if tget 0 f.ports (unit % 256) = 0 then 1 else 2 := by
    obtain rfl := Option.some.inj h
    exact tget_tput_same ..
  refine ⟨hg, ?_⟩
  rw [leftOut, hg]
  split <;> simp_all
end

/-! On which site a position stands, and which stay vacant (R9, log 14). -/

theorem nodup_eraseDups (l : List Nat) : l.eraseDups.Nodup := by
  induction h : l.length using Nat.strong_induction_on generalizing l with
  | _ n ih =>
    cases l with
    | nil => simp
    | cons a l =>
      have hlt : (l.filter fun b => !b == a).length < n := by
        rw [← h, List.length_cons, Nat.lt_succ_iff]; exact List.length_filter_le ..
      rw [List.eraseDups_cons, List.nodup_cons]
      exact ⟨by simp, ih _ hlt _ rfl⟩

section
variable {f : Config.FieldSection} {d i : Nat}

theorem nodup_retiredOn (f : Config.FieldSection) (d : Nat) : (retiredOn f d).Nodup := nodup_eraseDups _
theorem mem_retiredOn : i ∈ retiredOn f d ↔ ∃ x ∈ f.sites, x / 256 = d ∧ x % 256 = i := by
  simp [retiredOn, and_assoc]
theorem mem_movedOn : i ∈ movedOn f d ↔ i ∈ retiredOn f d ∧ i < 64 :=
  List.mem_filter.trans (and_congr_right' decide_eq_true_iff)
/-- The spare sites of a die. -/
def spares : List Nat := (List.range Config.sitesPerDie).drop Config.positions
theorem nodup_spares : spares.Nodup := by decide
theorem mem_spares : i ∈ spares ↔ 64 ≤ i ∧ i < 72 := by
  simp [spares, Config.sitesPerDie, Config.positions, List.range_eq_range', List.drop_range']
theorem goodSpares_eq (f : Config.FieldSection) (d : Nat) : goodSpares f d = spares.filter fun i => !(retiredOn f d).contains i := rfl
theorem mem_goodSpares : i ∈ goodSpares f d ↔ (64 ≤ i ∧ i < 72) ∧ i ∉ retiredOn f d := by
  simp [goodSpares_eq, mem_spares]
/-- A spare site is good or retired. -/
theorem length_goodSpares (f : Config.FieldSection) (d : Nat) :
    (goodSpares f d).length = 8 - ((retiredOn f d).filter fun i => decide (64 ≤ i ∧ i < 72)).length := by
  have hperm : (spares.filter fun i => (retiredOn f d).contains i).Perm ((retiredOn f d).filter fun i => decide (64 ≤ i ∧ i < 72)) :=
    (List.perm_ext_iff_of_nodup (nodup_spares.filter _) ((nodup_retiredOn f d).filter _)).mpr fun i => by
      simp [mem_spares, and_comm]
  have hlen := List.length_eq_length_filter_add (l := spares) fun i => (retiredOn f d).contains i
  have h8 : spares.length = 8 := rfl
  rw [goodSpares_eq, ← hperm.length_eq]
  omega

theorem mem_vacancies (h : i ∈ vacancies f d) : i < 64 ∧ i ∈ retiredOn f d := (mem_movedOn.mp (List.mem_of_mem_drop h)).symm
theorem length_vacancies (f : Config.FieldSection) (d : Nat) : (vacancies f d).length =
    ((retiredOn f d).filter (· < 64)).length - (8 - ((retiredOn f d).filter fun i => decide (64 ≤ i ∧ i < 72)).length) := by
  rw [vacancies, List.length_drop, length_goodSpares]; rfl
theorem siteOf_own (h : i ∉ retiredOn f d) : siteOf f d i = i := by
  rw [siteOf, List.idxOf?_eq_none_iff.mpr fun hm => h (mem_movedOn.mp hm).1]
/-- A position that is moved and not vacant stands on a good spare site. -/
theorem siteOf_moved (hi : i < 64) (hr : i ∈ retiredOn f d) (hv : i ∉ vacancies f d) : siteOf f d i ∈ goodSpares f d := by
  obtain ⟨k, hk⟩ := Option.isSome_iff_exists.mp (List.isSome_idxOf?.mpr (mem_movedOn.mpr ⟨hr, hi⟩))
  obtain ⟨hlt, hat, -⟩ := List.idxOf?_eq_some_iff.mp hk
  have hg : k < (goodSpares f d).length := by
    by_contra hge
    refine hv (List.mem_drop_iff_getElem.mpr ⟨k - (goodSpares f d).length, by omega, ?_⟩)
    simpa [Nat.add_sub_cancel' (Nat.le_of_not_lt hge)] using hat
  rw [siteOf, hk]
  simp [hg]
end

/-! The registers that the host reaches during bring-up (R406). -/

theorem hostRead_bootst (s : State) : hostRead s 0 0 = some (bootst s.boot) := rfl
theorem hostRead_fwbase (s : State) : hostRead s 0 8 = some s.boot.fwbase := rfl
theorem hostRead_fwlen (s : State) : hostRead s 0 0x10 = some (BitVec.ofNat 64 s.boot.fwlen) := rfl
theorem bootst_fields (b : Boot) : bits (bootst b) 1 0 = b.phase % 4 ∧ bits (bootst b) 7 2 = 0 ∧ bits (bootst b) 15 8 = b.outcome % 256 ∧
    bits (bootst b) 23 16 = b.step % 256 ∧ bits (bootst b) 31 24 = b.attempt % 256 ∧ bits (bootst b) 63 32 = 0 := by
  simp only [bits, bootst, BitVec.toNat_ofNat]
  omega

section
variable {s : State} {fn off : Nat}

theorem hostRead_unready (hr : ready s = false) (ho : ¬(fn = 0 ∧ off ∈ bootOffsets)) : hostRead s fn off = none := by
  simp only [bootOffsets, List.mem_cons, List.not_mem_nil, or_false] at ho
  rw [hostRead, if_neg (by tauto), if_neg (by tauto), if_neg (by tauto), hr]; rfl

theorem registerWindowWrite_fwlen (s : State) (v : Word) : exec (.registerWindowWrite 0 0x10 v) s = exec (.fwlenWrite v) s := by
  show execRegisterWindowWrite 0 0x10 v s = execFwlenWrite v s
  rw [execRegisterWindowWrite, if_pos ⟨rfl, rfl⟩, execFwlenWrite]
theorem registerWindowWrite_eq (v : Word) (h : ¬(fn = 0 ∧ off = 0x10)) :
    exec (.registerWindowWrite fn off v) s = .next (hostWrite s fn off v) := by
  show execRegisterWindowWrite fn off v s = _
  rw [execRegisterWindowWrite, if_neg h]
theorem registerWindowWrite_bootst (hr : ready s = false) (v : Word) : exec (.registerWindowWrite 0 0 v) s = .next s := by
  rw [registerWindowWrite_eq v (by decide), hostWrite]
  simp [hr, bootOffsets]
theorem registerWindowWrite_unready (hp : s.boot.power = true) (hr : ready s = false) (ho : ¬(fn = 0 ∧ off ∈ bootOffsets)) (v : Word) :
    exec (.registerWindowWrite fn off v) s = .next (unsupported s) := by
  have hb : (fn == 0 && bootOffsets.contains off) = false := by simpa using ho
  simp only [bootOffsets, List.mem_cons, List.not_mem_nil, or_false] at ho
  rw [registerWindowWrite_eq v (by tauto), hostWrite, if_neg (by tauto), hr, hp, hb]; rfl
theorem registerWindowWrite_fwbase (hp : s.boot.power = true) (v : Word) : exec (.registerWindowWrite 0 8 v) s =
    .next (if v.toNat % 4096 = 0 then { s with boot := { s.boot with fwbase := v } } else s) := by
  rw [registerWindowWrite_eq v (by decide), hostWrite, if_pos ⟨rfl, rfl, hp⟩]
end

/-! Firmware (R406, R411). -/

theorem fwlenWrite_discarded {s : State} {v : Word} (h : s.boot.power = false ∨ s.boot.phase ≠ 1 ∨ bits v 23 0 < 4096 ∨ 2 ^ 23 < bits v 23 0) :
    exec (.fwlenWrite v) s = .next s := by
  show execFwlenWrite v s = _
  rw [execFwlenWrite, submitImage, if_pos h]
/-- The image that a write of fwlen submits: the host's bytes at fwbase (R411). -/
def submitted (s : State) (v : Word) : List Byte := mread s.mem (hostBase (chipNo s) + s.boot.fwbase.toNat) (bits v 23 0)
/-- The package with the image copied (R411). -/
def copied (s : State) (v : Word) : State := { s with boot := { s.boot with fwlen := bits v 23 0, firmware := submitted s v } }

section
variable {s : State} {v : Word} (hp : s.boot.power = true) (h1 : s.boot.phase = 1) (hlo : 4096 ≤ bits v 23 0) (hhi : bits v 23 0 ≤ 2 ^ 23)
include hp h1 hlo hhi

theorem fwlenWrite_submits : exec (.fwlenWrite v) s = .next (if imageGood s.boot (submitted s v) then
      { tookStep (copied s v) 3 0 0 0 4 with boot := { (tookStep (copied s v) 3 0 0 0 4).boot with phase := 0 } }
    else tookStep (copied s v) 3 2 0 0 3) := by
  have hin : ¬(s.boot.power = false ∨ s.boot.phase ≠ 1 ∨ bits v 23 0 < 4096 ∨ 2 ^ 23 < bits v 23 0) := by
    rw [hp, h1]; simp; omega
  show execFwlenWrite v s = _
  rw [execFwlenWrite, submitImage, if_neg hin]
  rfl

/-- A submitted image passes step 3 when every check does, and is waited for again otherwise (R411). -/
theorem fwlenWrite_step (hn : NoSinks s) : ∃ t e, exec (.fwlenWrite v) s = .next t ∧ t.boot.firmware = submitted s v ∧
    t.boot.fwlen = bits v 23 0 ∧ t.boot.step = 3 ∧ t.boot.attempt = s.boot.attempt ∧
    t.boot.journal.getLast? = some e ∧ e.step = 3 ∧ e.outcome = t.boot.outcome ∧
    if imageGood s.boot (submitted s v) then t.boot.outcome = 0 ∧ t.boot.next = 4 ∧ t.boot.phase = 0
    else t.boot.outcome = 2 ∧ t.boot.next = 3 ∧ t.boot.phase = 1 := by
  have hc : NoSinks (copied s v) := hn.of_regs rfl
  rw [fwlenWrite_submits hp h1 hlo hhi]
  split
  · obtain ⟨e, hlast, hstep, hout, -⟩ := journalled_tookStep hc 3 0 0 0 4
    rw [tookStep_noSinks hc] at hlast ⊢
    exact ⟨_, e, rfl, rfl, rfl, rfl, rfl, by simpa only using hlast, hstep, hout, rfl, rfl, rfl⟩
  · obtain ⟨e, hlast, hstep, hout, -⟩ := journalled_tookStep hc 3 2 0 0 3
    rw [tookStep_noSinks hc] at hlast ⊢
    exact ⟨_, e, rfl, rfl, rfl, rfl, rfl, hlast, hstep, hout, rfl, rfl, h1⟩
end

/-! The loss of power (R408). -/

theorem powerLoss_off {s : State} (h : s.boot.power = false) (torn : Bool) : exec (.powerLoss torn) s = .next s := by
  show execPowerLoss torn s = _
  simp [execPowerLoss, h]
theorem powerLoss_on {s : State} (h : s.boot.power = true) (torn : Bool) : exec (.powerLoss torn) s = .next (loseDevice s torn) := by
  show execPowerLoss torn s = _
  simp [execPowerLoss, h]

/-- A table whose keys are shifted reads at a shifted key as it did, where no key lies below the shift. -/
theorem tget_map_shift {α : Type} (d : α) (t : Tab α) (src dst k : Nat) (h : ∀ e ∈ t, src ≤ e.1) :
    tget d (t.map fun e => (e.1 - src + dst, e.2)) (dst + k) = tget d t (src + k) := by
  induction t with
  | nil => rfl
  | cons e t ih =>
    have he : src ≤ e.1 := h e (by simp)
    have hk : dst + k = e.1 - src + dst ↔ src + k = e.1 := by omega
    simp only [List.map_cons, tget, hk, ih fun x hx => h x (by simp [hx])]
/-- Within the range that entries are moved to, a table reads as it did in the range that they came from. -/
theorem tget_moveRange {α : Type} (d : α) (t : Tab α) (src dst n k : Nat) (hk : k < n) :
    tget d (moveRange t src dst n) (dst + k) = tget d t (src + k) := by
  have hf := tget_filter_key d t (fun j => decide (src ≤ j ∧ j < src + n)) (src + k)
  rw [if_pos (by simp [hk])] at hf
  rw [moveRange, tget_append_left _ _ _ _ fun e he => ?_, tget_append_right _ _ _ _ fun e he => ?_, tget_map_shift, hf]
  · intro e he; simp at he; omega
  · simp at he; omega
  · simp at he; omega
/-- The host's memory stays, at the number that the package takes without its pod (R408). -/
theorem mbyte_loseDevice (s : State) (torn : Bool) {k : Nat} (hk : k < 2 ^ 52) :
    mbyte (loseDevice s torn).mem (hostBase 0 + k) = mbyte s.mem (hostBase (chipNo s) + k) := by
  have hb : hostBase 0 ≤ hostBase (chipNo s) + k := by simp only [hostBase]; omega
  exact (tget_moveRange 0 _ _ _ _ k hk).trans ((tget_filter_key 0 s.mem (fun j => decide (hostBase 0 ≤ j)) _).trans (if_pos (decide_eq_true hb)))

/-- Settles O51: each clause is what the lemmas above say of the boot controller's step, of an alternative, of a host access and of the loss of
power. -/
theorem bringUp : Obligations.BringUp :=
  ⟨fun s unit detail hn => ⟨fun hp r => coldStart_off hp .., fun hp h0 r => coldStart_idle hp h0 .., fun hp h0 =>
      ⟨fun h hl => ⟨coldStart_key_passes hp h0 hn unit detail h hl, coldStart_key_fails hp h0 hn unit detail h hl⟩,
        coldStart_key_refused hp h0 unit detail,
        fun h => ⟨fun hf hg => coldStart_record_passes hp h0 hn unit detail h hf ((fieldGood_iff _).mpr hg),
          fun r hf h2 hr => coldStart_record_factoryAlone hp h0 hn unit detail h hf h2
            (hr.imp_right fun hg => Bool.eq_false_iff.mpr fun hk => hg ((fieldGood_iff _).mp hk)),
          fun r hr => coldStart_record_fails hp h0 hn unit detail h (hr.imp_right Bool.eq_false_iff.mpr)⟩,
        coldStart_waits hp h0 unit detail,
        fun k h4 h8 h => ⟨fun hl => ⟨coldStart_train_passes hp h0 hn unit detail h4 h8 h hl,
            fun r hr => coldStart_train_restarts hp h0 hn unit detail h4 h8 h (trainStep_fails hl hr)⟩,
          fun e hl r => ⟨coldStart_train_stops hp h0 hn unit detail h4 h8 h hl,
            fun f ha => ⟨fun ho => coldStart_train_goesOn hp h0 hn unit detail h4 h8 h (trainStep_leavesOut hl ha ho),
              fun ho => ⟨fun hr => coldStart_train_restarts hp h0 hn unit detail h4 h8 h (trainStep_failsAgain hl ha ho hr),
                fun h1 h5 => coldStart_train_goesOn hp h0 hn unit detail h4 h8 h (trainStep_alternative hl ha ho h1 h5)⟩⟩⟩⟩,
        coldStart_ready hp h0 hn unit detail⟩⟩,
    fun f r unit detail => ⟨alternative_stack_none, fun _ => alternative_stack_rows, alternative_rate_none, fun _ => alternative_rate,
      alternative_link_none, fun _ => alternative_site, fun _ => alternative_port, ⟨Option.some_ne_none _, Option.some_ne_none _⟩,
      fun d => ⟨nodup_retiredOn f d, fun _ => mem_retiredOn.mp, fun x hx hd => mem_retiredOn.mpr ⟨x, hx, hd, rfl⟩, fun _ => mem_vacancies,
        fun _ _ => siteOf_own, fun _ hi hr hv => and_assoc.mp (mem_goodSpares.mp (siteOf_moved hi hr hv)), length_vacancies f d⟩⟩,
    fun s v torn hn => ⟨⟨hostRead_fwbase s, hostRead_fwlen s, _, hostRead_bootst s, bootst_fields s.boot⟩,
      fun hr _ _ => hostRead_unready hr, registerWindowWrite_fwlen s v,
      fun hp hr => ⟨registerWindowWrite_bootst hr v, fun _ _ ho => registerWindowWrite_unready hp hr ho v⟩,
      fun hp hv => (registerWindowWrite_fwbase hp v).trans (congrArg _ (if_pos hv)),
      fun hp hv => (registerWindowWrite_fwbase hp v).trans (congrArg _ (if_neg hv)),
      fwlenWrite_discarded, fun hp h1 hlo hhi => fwlenWrite_step hp h1 hlo hhi hn, fun hp => powerLoss_off hp torn,
      fun hp => ⟨_, powerLoss_on hp torn, rfl, rfl, rfl, rfl, rfl, rfl, rfl, rfl, rfl, rfl, rfl, rfl, rfl,
        fun ht => by rw [ht]; rfl, fun _ => mbyte_loseDevice s torn⟩⟩⟩

end Sys2Proof.Machine
end

section
/-! PROOFS. The work tree (family 02): what a step runs. -/

namespace Sys2Proof.Machine
open Sys2Proof

/-! A step is the first turn of its agenda, settled (R35, R38). -/

section
variable {s t : State} {turn : Turn} {rest : List Turn}

theorem step_agenda (h : (beforeTurn s).agenda = turn :: rest) :
    step s = settleTurn { beforeTurn s with agenda := rest } (runTurn turn { beforeTurn s with agenda := rest }) := by
  simp only [step, h]

/-- An outcome that holds no record back is the step's, with no context running (log 3). -/
theorem settleTurn_next {z : State} (h : heldBack z = false) (before : State) :
    settleTurn before (.next z) = .next { z with cur := .none } := by
  simp [settleTurn, h]

theorem runTurn_scalar {g : Nat} (h : stalled t (.scalar g) = false) (hr : scalarReady t g = true) (hc : scalarChosen t g = true) :
    runTurn (.scalar g) t = scalarIssue t g := by
  simp [runTurn, h, scalarTurn, hr, hc]

theorem runTurn_lane {g : Nat} (h : stalled t (.lane g) = false) (hr : laneReady t g = true) (hc : laneChosen t g = true) :
    runTurn (.lane g) t = laneIssueNext t g := by
  simp [runTurn, h, laneTurn, hr, hc]

theorem runTurn_event {i : Instr} (h : stalled t (.event i) = false) : runTurn (.event i) t = exec i t := by
  simp [runTurn, h]

/-- A walk below its limit runs the word that it fetches (R329, R330). -/
theorem runTurn_walk {k w : Nat} {x : Walk} {i : Instr} (h : stalled t (.walk k) = false) (hx : walk t k = some x)
    (hr : x.running = true) (hc : x.cycles < Config.walkLimit) (hw : walkFetch { t with cur := .walk k } x = some w)
    (hi : decodeScalar (BitVec.ofNat 32 w) = .ok i) : runTurn (.walk k) t = exec i { t with cur := .walk k } := by
  simp [runTurn, h, walkTurn, hx, hr, Nat.not_le.mpr hc, hw, hi]

end

/-! What a fetched word runs (R160, R161). -/

section
variable {t u : State} {g w : Nat}

theorem scalarIssue_word (hw : w < 2 ^ 32)
    (hf : fetch { t with cur := .group g } g (.fetchS g) (group t g).spc 4 = (u, .word (leBytes 4 w))) :
    scalarIssue t g = runScalar (stampScalar u g) g w := by
  have hle : ofLe (leBytes 4 w) = w := by rw [ofLe_leBytes]; exact Nat.mod_eq_of_lt (by simpa using hw)
  simp only [scalarIssue, hf, hle]

theorem laneIssueNext_word (hw : w < 2 ^ 96) (hn : fuseFetch { t with cur := .group g } g = none)
    (hf : fetch { t with cur := .group g } g (.fetchL g) (group t g).lane.lpc 12 = (u, .word (leBytes 12 w))) :
    laneIssueNext t g = runLane (stampLane u g) g w := by
  have hle : ofLe (leBytes 12 w) = w := by rw [ofLe_leBytes]; exact Nat.mod_eq_of_lt (by simpa using hw)
  have hg : group { t with cur := .group g } g = group t g := rfl
  simp only [laneIssueNext, hn, hg, hf, hle]

end

section
variable {v : State} {g w : Nat} {i : Instr}

theorem runScalar_privileged (h : scalarPrivileged v g w = true) : runScalar v g w = .next (illegal v 3) := by
  simp [runScalar, h]

theorem runScalar_error {c : Nat} (h : scalarPrivileged v g w = false) (hd : decodeScalar (BitVec.ofNat 32 w) = .error c) :
    runScalar v g w = .next (illegal v c) := by
  simp [runScalar, h, hd]

theorem runScalar_ok (h : scalarPrivileged v g w = false) (hd : decodeScalar (BitVec.ofNat 32 w) = .ok i)
    (hh : scalarHeld v g i = none) : runScalar v g w = exec i v := by
  simp [runScalar, h, hd, hh]

theorem runLane_error {c : Nat} (hd : decodeLane (BitVec.ofNat 96 w) = .error c) : runLane v g w = .next (laneTrap v g c) := by
  simp only [runLane, hd]

theorem runLane_ok (hd : decodeLane (BitVec.ofNat 96 w) = .ok i) : runLane v g w = runTogether (fusedWith v g w i) v := by
  simp only [runLane, hd]

theorem runTogether_singleton (i : Instr) (v : State) : runTogether [i] v = exec i v := by
  simp only [runTogether]
  cases exec i v <;> rfl

/-- Where the repeat index, parked lanes or the run record's count rule a fused operation out, the instruction issues alone (R163). -/
theorem fusedWith_alone (h : (group v g).lane.rep ≠ 0 ∨ (group v g).lane.park.fmask ≠ 0 ∨ headCount (group v g).lane.rq < 2) :
    fusedWith v g w i = [i] := by
  simp only [fusedWith, if_pos h]

end

/-- Settles O59: each turn is settled as it runs, and each fetched word runs as the lemmas above say. -/
theorem stepRunsInstruction : Obligations.StepRunsInstruction := by
  unfold Obligations.StepRunsInstruction
  intro s turn rest ha t hs
  have hstep : step s = settleTurn t (runTurn turn t) := step_agenda ha
  have settles : ∀ {o : Out}, step s = settleTurn t o →
      step s = settleTurn t o ∧ ∀ z, o = .next z → heldBack z = false → step s = .next { z with cur := .none } :=
    fun h => ⟨h, fun z hz hb => by rw [h, hz, settleTurn_next hb]⟩
  refine ⟨?_, ?_, ?_, ?_⟩
  · rintro g w u rfl hr hc hw hf v
    rw [runTurn_scalar hs hr hc, scalarIssue_word hw hf] at hstep
    refine ⟨fun hp => by rw [hstep, runScalar_privileged hp], fun hp => ⟨fun c hd => by rw [hstep, runScalar_error hp hd], ?_⟩⟩
    intro i hd hh
    exact settles (hstep.trans (congrArg _ (runScalar_ok hp hd hh)))
  · rintro g w u rfl hr hc hw hn hf v
    rw [runTurn_lane hs hr hc, laneIssueNext_word hw hn hf] at hstep
    refine ⟨fun c hd => by rw [hstep, runLane_error hd], fun i hd => ⟨by rw [hstep, runLane_ok hd], fun h1 => ?_⟩⟩
    rw [runLane_ok hd, fusedWith_alone h1, runTogether_singleton] at hstep
    exact settles hstep
  · rintro k w x i rfl hx hr hc hw hi
    rw [hstep, runTurn_walk hs hx hr hc hw hi]
  · rintro i rfl
    rw [hstep, runTurn_event hs]

end Sys2Proof.Machine
end

section
/-! PROOFS. The work tree (family 02): operations that leave every group as it is. -/

namespace Sys2Proof.Machine
open Sys2Proof

/-! Operations that leave every group as it is. -/

@[simp] theorem foldl_groups {α : Type} {f : State → α → State} (hf : ∀ s a, (f s a).work.groups = s.work.groups) (l : List α) (s : State) :
    (l.foldl f s).work.groups = s.work.groups := by
  induction l generalizing s with
  | nil => rfl
  | cons a l ih => rw [List.foldl_cons, ih, hf]

@[simp] theorem modDie_groups (s : State) (d : Nat) (f : Die → Die) : (modDie s d f).work.groups = s.work.groups := rfl
@[simp] theorem modCore_groups (s : State) (d : Nat) (f : Core → Core) : (modCore s d f).work.groups = s.work.groups := rfl
@[simp] theorem modTeam_groups (s : State) (d : Nat) (f : Team → Team) : (modTeam s d f).work.groups = s.work.groups := rfl
@[simp] theorem modLaunch_groups (s : State) (d : Nat) (f : Launch → Launch) : (modLaunch s d f).work.groups = s.work.groups := rfl
@[simp] theorem modQueue_groups (s : State) (d : Nat) (f : Queue → Queue) : (modQueue s d f).work.groups = s.work.groups := rfl

/-- What one home sends to the cores leaves every group as it is. -/
def KeepsGroups (send : Send) : Prop := ∀ s a b c d, (send s a b c d).work.groups = s.work.groups

@[simp] theorem writeSegs_groups (s : State) (gs : List Seg) (bs : List Byte) : (writeSegs s gs bs).work.groups = s.work.groups := by
  induction gs generalizing s bs with
  | nil => rfl
  | cons g r ih => rw [writeSegs, ih]

theorem droppedCopies_groups {put : State → Nat → Nat → TraceRec → State} (h : ∀ s p d r, (put s p d r).work.groups = s.work.groups) :
    KeepsGroups (droppedCopies put) := by
  intro s gd entry o targets
  simp only [droppedCopies]
  split <;> split <;> first | rfl | exact foldl_groups (fun s a => h ..) _ _

@[simp] theorem mergeSlot_groups (s : State) (slot : Nat) (norm : Bool) : (mergeSlot s slot norm).work.groups = s.work.groups := by
  unfold mergeSlot
  grind
theorem gatherWith_groups {send : Send} (h : KeepsGroups send) (s : State) (gd entry : Nat) (o : CObj) (norm : Bool) (slot : Nat) :
    (gatherWith send s gd entry o norm slot).work.groups = s.work.groups := by
  rw [gatherWith, mergeSlot_groups, h]

theorem settleRunWith_groups {send : Send} (h : KeepsGroups send) (s : State) (part : Nat) (va : Word) (g : Seg) :
    (settleRunWith send s part va g).work.groups = s.work.groups := by
  refine foldl_groups (fun s e => ?_) _ s
  split
  · exact foldl_groups (fun s k => gatherWith_groups h ..) _ s
  · rfl

theorem settleWith_groups {send : Send} (h : KeepsGroups send) (part : Nat) (va : Word) (gs : List Seg) (s : State) :
    (settleWith send s part va gs).work.groups = s.work.groups := by
  induction gs generalizing s va with
  | nil => rfl
  | cons g r ih => rw [settleWith, ih, settleRunWith_groups h]

theorem updateWith_groups {send : Send} (h : KeepsGroups send) (s : State) (part : Nat) (va : Word) (n : Nat) :
    (updateWith send s part va n).work.groups = s.work.groups := by
  refine foldl_groups (fun s e => ?_) _ s
  split
  · exact h ..
  · rfl

theorem storeWith_groups {send : Send} (h : KeepsGroups send) (s : State) (part : Nat) (va : Word) (gs : List Seg) (bs : List Byte) :
    (storeWith send s part va gs bs).work.groups = s.work.groups := by
  rw [storeWith, updateWith_groups h, writeSegs_groups, settleWith_groups h]

@[simp] theorem slotWrap_groups (s : State) (c : ℕ) :
    (slotWrap s c).work.groups = s.work.groups := by
  unfold slotWrap
  split <;> simp

@[simp] theorem countLost_groups (s : State) (p : ℕ) (d : ℕ) :
    (countLost s p d).work.groups = s.work.groups := rfl
@[simp] theorem newName_groups (s : State) :
    (newName s).2.work.groups = s.work.groups := rfl

@[simp] theorem joinWalk_groups (s : State) (who : Who) (va : Word) (reason : ℕ) (acc : BitVec 3) :
    (joinWalk s who va reason acc).work.groups = s.work.groups := by
  unfold joinWalk
  grind [foldl_groups, setWalk_work_groups, newName_groups]

@[simp] theorem delivered_groups (s : State) (who : Who) (va : Word) :
    (delivered s who va).work.groups = s.work.groups := by
  unfold delivered
  grind [foldl_groups, setWalk_work_groups]

@[simp] theorem xlatePage_groups (s : State) (who : Who) (acc : BitVec 3) (va : Word) (n : ℕ) :
    (xlatePage s who acc va n).1.work.groups = s.work.groups := by
  unfold xlatePage
  grind [foldl_groups, joinWalk_groups, delivered_groups]

@[simp] theorem xlateFrom_groups (f : Nat) (s : State) (who : Who) (acc : BitVec 3) (va : Word) (n : Nat) :
    (xlateFrom f s who acc va n).1.work.groups = s.work.groups := by
  induction f generalizing s va n with
  | zero => rfl
  | succ f ih =>
    rw [xlateFrom]
    grind [xlatePage_groups]

@[simp] theorem xlate_groups (s : State) (who : Who) (acc : BitVec 3) (va : Word) (n : ℕ) :
    (xlate s who acc va n).1.work.groups = s.work.groups := by simp [xlate]

@[simp] theorem ringXlate_groups (s : State) (p : ℕ) (d : ℕ) (va : Word) (n : ℕ) :
    (ringXlate s p d va n).1.work.groups = s.work.groups := by
  unfold ringXlate
  split <;> simp

@[simp] theorem clearFaults_groups (s : State) (a : Agent) :
    (clearFaults s a).work.groups = s.work.groups := rfl
@[simp] theorem sinkFault_groups (s : State) (p : ℕ) (d : ℕ) :
    (sinkFault s p d).work.groups = s.work.groups := rfl

@[simp] theorem queueRecord_groups (s : State) (p : ℕ) (d : ℕ) (r : TraceRec) :
    (queueRecord s p d r).work.groups = s.work.groups := by
  unfold queueRecord
  split <;> simp

@[simp] theorem cleanBad_groups (s : State) (runs : List (ℕ × ℕ)) :
    (cleanBad s runs).work.groups = s.work.groups := by
  unfold cleanBad
  split <;> simp

@[simp] theorem ringWrite_groups (s : State) (p d : Nat) (bs : List Byte) :
    (ringWrite s p d bs).1.work.groups = s.work.groups := by
  have hs := storeWith_groups (send := sinkCopies) (droppedCopies_groups queueRecord_groups)
  unfold ringWrite
  grind [ringXlate_groups, sinkFault_groups, cleanBad_groups, setPreg_work, clearFaults_groups]

@[simp] theorem putLoss_groups (s : State) (p : ℕ) (d : ℕ) (r : TraceRec) :
    (putLoss s p d r).1.work.groups = s.work.groups := by
  simp only [putLoss]
  repeat' split
  all_goals grind [foldl_groups, ringWrite_groups, setSink_work]

@[simp] theorem putOne_groups (s : State) (p : ℕ) (d : ℕ) (r : TraceRec) :
    (putOne s p d r).1.work.groups = s.work.groups := by
  unfold putOne
  grind [foldl_groups, countLost_groups, putLoss_groups, ringWrite_groups, setSink_work]

@[simp] theorem putTimeBase_groups (s : State) (p : ℕ) (d : ℕ) :
    (putTimeBase s p d).1.work.groups = s.work.groups := by
  unfold putTimeBase
  split <;> simp

@[simp] theorem putNext_groups (s : State) (p : ℕ) (d : ℕ) (r : TraceRec) :
    (putNext s p d r).1.work.groups = s.work.groups := by
  unfold putNext
  grind [foldl_groups, putOne_groups, putTimeBase_groups]

@[simp] theorem drain_groups (f : Nat) (s : State) (p d : Nat) :
    (drain f s p d).work.groups = s.work.groups := by
  induction f generalizing s with
  | zero => rfl
  | succ f ih =>
    rw [drain]
    grind [putNext_groups, setSink_work]

@[simp] theorem drainAll_groups (s : State) (p : ℕ) (d : ℕ) :
    (drainAll s p d).work.groups = s.work.groups := by simp [drainAll]

@[simp] theorem keepRecord_groups (s : State) (p : ℕ) (d : ℕ) (r : TraceRec) :
    (keepRecord s p d r).work.groups = s.work.groups := by
  unfold keepRecord
  grind [foldl_groups, setSink_work, countLost_groups]

@[simp] theorem putRecord_groups (s : State) (p : ℕ) (d : ℕ) (r : TraceRec) :
    (putRecord s p d r).work.groups = s.work.groups := by
  unfold putRecord
  grind [foldl_groups, setSink_work, drainAll_groups, putNext_groups, keepRecord_groups]

@[simp] theorem sendCopies_groups (s : State) (gd : ℕ) (entry : ℕ) (o : CObj) (targets : List ℕ) :
    (sendCopies s gd entry o targets).work.groups = s.work.groups := droppedCopies_groups putRecord_groups s gd entry o targets
@[simp] theorem gatherSlot_groups (s : State) (gd : ℕ) (entry : ℕ) (o : CObj) (norm : Bool) (slot : ℕ) :
    (gatherSlot s gd entry o norm slot).work.groups = s.work.groups := gatherWith_groups sendCopies_groups ..
@[simp] theorem mergeObject_groups (s : State) (gd : ℕ) (e : ℕ) (o : CObj) :
    (mergeObject s gd e o).work.groups = s.work.groups := by simp [mergeObject]
@[simp] theorem putObj_groups (s : State) (gd : ℕ) (e : ℕ) (o : CObj) :
    (putObj s gd e o).work.groups = s.work.groups := rfl

@[simp] theorem resetObjects_groups (s : State) (p : ℕ) :
    (resetObjects s p).work.groups = s.work.groups := by
  unfold resetObjects
  grind [foldl_groups, mergeObject_groups, putObj_groups]

@[simp] theorem endReset_groups (s : State) (p : ℕ) :
    (endReset s p).work.groups = s.work.groups := by simp [endReset]
@[simp] theorem tick_groups (s : State) :
    (tick s).work.groups = s.work.groups := by simp [tick]

@[simp] theorem beforeTurn_groups (s : State) :
    (beforeTurn s).work.groups = s.work.groups := by
  unfold beforeTurn
  split <;> simp

@[simp] theorem settle_groups (s : State) (part : ℕ) (va : Word) (gs : List Seg) :
    (settle s part va gs).work.groups = s.work.groups := settleWith_groups sendCopies_groups ..

@[simp] theorem fetch_groups (s : State) (g : ℕ) (a : Agent) (pc : Word) (n : ℕ) :
    (fetch s g a pc n).1.work.groups = s.work.groups := by
  unfold fetch
  grind [xlate_groups, clearFaults_groups, settle_groups]

@[simp] theorem sendAll_groups (s : State) (ms : List Msg) :
    (sendAll s ms).work.groups = s.work.groups := by
  unfold sendAll
  split <;> simp

@[simp] theorem killMessages_groups (s : State) (l : ℕ) (e : EndInfo) :
    (killMessages s l e).work.groups = s.work.groups := by simp [killMessages]

@[simp] theorem leaveBooth_groups (s : State) (g : ℕ) :
    (leaveBooth s g).work.groups = s.work.groups := by
  unfold leaveBooth
  split <;> simp

@[simp] theorem dropAgents_groups (s : State) (g : ℕ) :
    (dropAgents s g).work.groups = s.work.groups := rfl

@[simp] theorem dropLines_groups (s : State) (c : ℕ) (part : ℕ) :
    (dropLines s c part).work.groups = s.work.groups := by
  unfold dropLines
  split <;> simp

@[simp] theorem eventRecord_groups (s : State) (p : ℕ) (d : ℕ) (kind : ℕ) (index : ℕ) (code : ℕ) (ops : List Byte) (hold : Bool) :
    (eventRecord s p d kind index code ops hold).work.groups = s.work.groups := by simp [eventRecord]
@[simp] theorem engineEvent_groups (s : State) (p : ℕ) (d : ℕ) (kind : ℕ) (index : ℕ) (code : ℕ) (ops : List Byte) :
    (engineEvent s p d kind index code ops).work.groups = s.work.groups := by simp [engineEvent]

@[simp] theorem finishWalk_groups (s : State) (w : ℕ) (cause : Option ℕ) :
    (finishWalk s w cause).work.groups = s.work.groups := by
  unfold finishWalk
  grind [foldl_groups, setWalk_work_groups, eventRecord_groups]

@[simp] theorem walkError_groups (s : State) (w : ℕ) :
    (walkError s w).work.groups = s.work.groups := by
  unfold walkError
  grind [foldl_groups, engineEvent_groups, finishWalk_groups]

@[simp] theorem scratchAccess_groups (s : State) (g : ℕ) (k : AccKind) (off : ℕ) (n : ℕ) :
    (scratchAccess s g k off n).1.work.groups = s.work.groups := by
  unfold scratchAccess
  grind [foldl_groups, setTeam_work_groups]

@[simp] theorem homeWrite_groups (s : State) (who : Who) (va : Word) (gs : List Seg) (bs : List Byte) :
    (homeWrite s who va gs bs).work.groups = s.work.groups := storeWith_groups sendCopies_groups ..

@[simp] theorem noteSharer_groups (s : State) (who : Who) (va : Word) (n : ℕ) :
    (noteSharer s who va n).work.groups = s.work.groups := by
  unfold noteSharer
  grind [foldl_groups, modDie_groups]

@[simp] theorem homeRead_groups (s : State) (who : Who) (va : Word) (gs : List Seg) :
    (homeRead s who va gs).1.work.groups = s.work.groups := by
  rw [homeRead, noteSharer_groups, settle_groups]

@[simp] theorem readRo_groups (s : State) (who : Who) (snap : Option (List Host.Cell)) (va : Word) (gs : List Seg) :
    (readRo s who snap va gs).1.work.groups = s.work.groups := by
  unfold readRo
  grind [foldl_groups, homeRead_groups]

@[simp] theorem noteLines_groups (s : State) (c : ℕ) (l : ℕ) (va : Word) (n : ℕ) :
    (noteLines s c l va n).work.groups = s.work.groups := by
  unfold noteLines
  split <;> simp

@[simp] theorem noteRo_groups (s : State) (g : ℕ) (va : Word) (n : ℕ) :
    (noteRo s g va n).work.groups = s.work.groups := by simp [noteRo]
@[simp] theorem noteUpdate_groups (s : State) (who : Who) (va : Word) (n : ℕ) :
    (noteUpdate s who va n).work.groups = s.work.groups := updateWith_groups sendCopies_groups ..

@[simp] theorem homeAtomic_groups (s : State) (who : Who) (va : Word) (gs : List Seg) (op : ℕ) (n : ℕ) (x : ℕ) (y : ℕ) :
    (homeAtomic s who va gs op n x y).1.work.groups = s.work.groups := by
  unfold homeAtomic
  grind [noteUpdate_groups, writeSegs_groups, settle_groups]

@[simp] theorem tellRank_groups (s : State) (t : ℕ) (c : ℕ) (no : ℕ) :
    (tellRank s t c no).work.groups = s.work.groups := rfl
@[simp] theorem setCopy_groups (s : State) (t : ℕ) (c : ℕ) (k : Option Copy) :
    (setCopy s t c k).work.groups = s.work.groups := rfl

@[simp] theorem settleBar_groups (s : State) (l : ℕ) (level : ℕ) (node : ℕ) :
    (settleBar s l level node).work.groups = s.work.groups := by
  unfold settleBar
  grind [foldl_groups, modLaunch_groups]

@[simp] theorem settleBars_groups (s : State) (l : ℕ) :
    (settleBars s l).work.groups = s.work.groups := by simp [settleBars]
@[simp] theorem copyEvent_groups (s : State) (t : ℕ) (g : ℕ) (code : ℕ) (ops : List Byte) :
    (copyEvent s t g code ops).work.groups = s.work.groups := by simp [copyEvent]

@[simp] theorem checkPages_groups (f : Nat) (s : State) (who : Who) (va : Word) (n mode : Nat) :
    (checkPages f s who va n mode).1.work.groups = s.work.groups := by
  induction f generalizing s va n with
  | zero => rfl
  | succ f ih =>
    rw [checkPages]
    grind [xlatePage_groups]

@[simp] theorem freeValue_groups (s : State) :
    (freeValue s).2.work.groups = s.work.groups := rfl
@[simp] theorem stepRecord_groups (s : State) (c : Coll) (step : ℕ) (outcome : ℕ) :
    (stepRecord s c step outcome).work.groups = s.work.groups := by simp [stepRecord]

@[simp] theorem putColl_groups (s : State) (c : ℕ) (before : Coll) (after : Coll) :
    (putColl s c before after).work.groups = s.work.groups := by
  unfold putColl
  split <;> simp

@[simp] theorem releaseQueues_groups (s : State) (p : ℕ) :
    (releaseQueues s p).work.groups = s.work.groups := rfl
@[simp] theorem dropJoining_groups (s : State) (l : ℕ) :
    (dropJoining s l).work.groups = s.work.groups := by simp [dropJoining]
@[simp] theorem startSink_groups (s : State) (p : ℕ) (d : ℕ) :
    (startSink s p d).work.groups = s.work.groups := rfl
@[simp] theorem setDeadline_groups (s : State) (l : ℕ) (n : ℕ) (fresh : Bool) :
    (setDeadline s l n fresh).work.groups = s.work.groups := rfl

@[simp] theorem askYield_groups (s : State) (l : ℕ) (dl : ℕ) :
    (askYield s l dl).1.work.groups = s.work.groups := by
  unfold askYield
  grind [foldl_groups, setDeadline_groups, modLaunch_groups]

@[simp] theorem tellChips_groups (s : State) (l : ℕ) (m : FarPreempt) :
    (tellChips s l m).work.groups = s.work.groups := by simp [tellChips]
@[simp] theorem mergeFrame_groups (s : State) (gd : ℕ) (e : TlbEntry) :
    (mergeFrame s gd e).work.groups = s.work.groups := by simp [mergeFrame]

@[simp] theorem dropTlb_groups (s : State) (gd : ℕ) (f : TlbEntry → Bool) :
    (dropTlb s gd f).work.groups = s.work.groups := by
  unfold dropTlb
  split <;> simp

@[simp] theorem askHome_groups (s : State) (who : Who) (va : Word) (reason : ℕ) :
    (askHome s who va reason).work.groups = s.work.groups := by
  unfold askHome
  split <;> simp

@[simp] theorem installLeaf_groups (s : State) (x : Walk) (leaf : Word) (level : ℕ) :
    (installLeaf s x leaf level).work.groups = s.work.groups := by simp [installLeaf]
@[simp] theorem resumeEngines_groups (s : State) (g : ℕ) :
    (resumeEngines s g).work.groups = s.work.groups := rfl
@[simp] theorem laneFault_groups (s : State) (a : LaneAcc) (i : ℕ) (cls : ℕ) (cause : ℕ) (addr : Word) :
    (laneFault s a i cls cause addr).1.work.groups = s.work.groups := rfl
@[simp] theorem laneServed_groups (s : State) (a : LaneAcc) (i : ℕ) (wrote : List (ℕ × ℕ)) (c : Option ℕ) :
    (laneServed s a i wrote c).1.work.groups = s.work.groups := rfl

@[simp] theorem homeAcc_groups (s : State) (who : Who) (va : Word) (flat : ℕ) (f : LA → LA) :
    (homeAcc s who va flat f).work.groups = s.work.groups := by
  unfold homeAcc
  split <;> simp

@[simp] theorem cleanRuns_groups (s : State) (g : ℕ) (sp : Bool) (runs : List (ℕ × ℕ)) :
    (cleanRuns s g sp runs).work.groups = s.work.groups := by
  unfold cleanRuns
  split <;> simp

@[simp] theorem prefetchLine_groups (s : State) (c : ℕ) (l : ℕ) (va : Word) (ro : Bool) :
    (prefetchLine s c l va ro).work.groups = s.work.groups := by
  unfold prefetchLine
  grind [foldl_groups, modCore_groups, clearFaults_groups, xlate_groups, noteLines_groups]

@[simp] theorem tileEventHold_groups (s : State) (g : ℕ) (code : ℕ) (hold : Bool) :
    (tileEventHold s g code hold).work.groups = s.work.groups := by simp [tileEventHold]
@[simp] theorem tileEvent_groups (s : State) (g : ℕ) (code : ℕ) :
    (tileEvent s g code).work.groups = s.work.groups := by simp [tileEvent]

@[simp] theorem engineLoad_groups (s : State) (who : Who) (va : Word) (n : ℕ) :
    (engineLoad s who va n).1.work.groups = s.work.groups := by
  unfold engineLoad
  grind [foldl_groups, xlate_groups, homeRead_groups]

@[simp] theorem readRun_groups (s : State) (who : Who) (tm : ℕ) (t : TileDesc) (r : ℕ × ℕ) :
    (readRun s who tm t r).1.work.groups = s.work.groups := by
  unfold readRun
  split <;> simp

@[simp] theorem readRuns_groups (s : State) (who : Who) (tm : Nat) (t : TileDesc) (rs : List (Nat × Nat)) :
    (readRuns s who tm t rs).1.work.groups = s.work.groups := by
  induction rs generalizing s with
  | nil => rfl
  | cons r rest ih =>
    rw [readRuns]
    grind [readRun_groups]

@[simp] theorem readDesc_groups (s : State) (who : Who) (tm : ℕ) (t : TileDesc) (k : ℕ) (n : ℕ) :
    (readDesc s who tm t k n).1.work.groups = s.work.groups := by simp [readDesc]

@[simp] theorem tileRead_groups (s : State) (g : ℕ) (t : TileDesc) :
    (tileRead s g t).1.work.groups = s.work.groups := by
  unfold tileRead
  grind [foldl_groups, readDesc_groups]

@[simp] theorem multiply_groups (s : State) (g : ℕ) (t : TileOp) (x : MulArgs) (sums : Bool) (a : List ℕ) :
    (multiply s g t x sums a).1.work.groups = s.work.groups := by
  unfold multiply
  grind [foldl_groups]

@[simp] theorem convTurn_groups (s : State) (g : ℕ) (t : TileOp) (x : MulArgs) :
    (convTurn s g t x).1.work.groups = s.work.groups := by
  unfold convTurn
  grind [foldl_groups, multiply_groups]

theorem withElems_groups {k : State → List Nat → State × TurnRes} (hk : ∀ s es, (k s es).1.work.groups = s.work.groups)
    (s : State) (g : Nat) (t : TileDesc) : (withElems s g t k).1.work.groups = s.work.groups := by
  unfold withElems
  grind [tileRead_groups]

@[simp] theorem loadTurn_groups (s : State) (g : Nat) (t : TileOp) (x : MoveArgs) : (loadTurn s g t x).1.work.groups = s.work.groups := by
  have := @withElems_groups
  unfold loadTurn
  grind [tileRead_groups]

@[simp] theorem epiTurn_groups (s : State) (g : ℕ) (t : TileOp) (x : EpiArgs) :
    (epiTurn s g t x).1.work.groups = s.work.groups := by
  unfold epiTurn
  grind [withElems_groups]

@[simp] theorem turnResult_groups (s : State) (g : ℕ) (t : TileOp) :
    (turnResult s g t).1.work.groups = s.work.groups := by
  unfold turnResult
  grind [withElems_groups, multiply_groups, convTurn_groups, loadTurn_groups, epiTurn_groups, tileRead_groups]

@[simp] theorem probeRun_groups (s : State) (who : Who) (tm : ℕ) (t : TileDesc) (r : ℕ × ℕ) :
    (probeRun s who tm t r).1.work.groups = s.work.groups := by
  unfold probeRun
  grind [foldl_groups, xlate_groups]

@[simp] theorem probeRuns_groups (s : State) (who : Who) (tm : Nat) (t : TileDesc) (rs : List (Nat × Nat)) :
    (probeRuns s who tm t rs).1.work.groups = s.work.groups := by
  induction rs generalizing s with
  | nil => rfl
  | cons r rest ih =>
    rw [probeRuns]
    grind [probeRun_groups]

@[simp] theorem engineStore_groups (s : State) (who : Who) (va : Word) (bs : List (Option Byte)) :
    (engineStore s who va bs).1.work.groups = s.work.groups := by
  unfold engineStore
  grind [foldl_groups, xlate_groups, cleanBad_groups, homeWrite_groups]

@[simp] theorem engineBuffer_groups (s : State) (t : ℕ) (addr : ℕ) (bs : List (Option Byte)) :
    (engineBuffer s t addr bs).1.work.groups = s.work.groups := by
  unfold engineBuffer
  grind [foldl_groups, modTeam_groups]

@[simp] theorem engineScratchPut_groups (s : State) (t : ℕ) (addr : ℕ) (bs : List (Option Byte)) :
    (engineScratchPut s t addr bs).1.work.groups = s.work.groups := by
  unfold engineScratchPut
  grind [foldl_groups, modTeam_groups]

@[simp] theorem writeRun_groups (s : State) (who : Who) (tm : ℕ) (t : TileDesc) (off : ℕ) (bs : List Byte) :
    (writeRun s who tm t off bs).1.work.groups = s.work.groups := by
  unfold writeRun
  split <;> simp

@[simp] theorem writeRuns_groups (s : State) (who : Who) (tm : Nat) (t : TileDesc) (rs : List (Nat × Nat)) (bs : List Byte) :
    (writeRuns s who tm t rs bs).1.work.groups = s.work.groups := by
  induction rs generalizing s bs with
  | nil => rfl
  | cons r rest ih =>
    rw [writeRuns]
    grind [writeRun_groups]

@[simp] theorem writeDesc_groups (s : State) (who : Who) (tm : ℕ) (t : TileDesc) (k : ℕ) (bs : List Byte) :
    (writeDesc s who tm t k bs).1.work.groups = s.work.groups := by simp [writeDesc]

@[simp] theorem tileWrite_groups (s : State) (g : ℕ) (t : TileDesc) (bs : List Byte) :
    (tileWrite s g t bs).1.work.groups = s.work.groups := by
  unfold tileWrite
  grind [foldl_groups, probeRuns_groups, writeDesc_groups, cleanBad_groups]

@[simp] theorem relEffect_groups (s : State) (g : ℕ) (n : ℕ) :
    (relEffect s g n).work.groups = s.work.groups := rfl

@[simp] theorem fetchRequest_groups (s : State) (g : ℕ) (a : Agent) (pc : Word) (n : ℕ) :
    (fetchRequest s g a pc n).work.groups = s.work.groups := by
  unfold fetchRequest
  grind [foldl_groups, xlate_groups]

@[simp] theorem handlerEntry_groups (s : State) (g : ℕ) (k : ℕ) :
    (handlerEntry s g k).1.work.groups = s.work.groups := by
  unfold handlerEntry
  grind [foldl_groups, xlate_groups]

@[simp] theorem dropColl_groups (s : State) (c : ℕ) :
    (dropColl s c).work.groups = s.work.groups := by
  unfold dropColl
  grind [foldl_groups, setColl_work_groups]

@[simp] theorem probeRanks_groups (s : State) (c : Nat) (rs : List (Nat × CollRank)) :
    (probeRanks s c rs).1.work.groups = s.work.groups := by
  induction rs generalizing s with
  | nil => rfl
  | cons e rest ih =>
    rw [probeRanks]
    grind [probeRuns_groups]

@[simp] theorem rankClean_groups (s : State) (who : Who) (t : ℕ) (dst : TileDesc) (k : ℕ) (n : ℕ) :
    (rankClean s who t dst k n).work.groups = s.work.groups := by
  unfold rankClean
  grind [foldl_groups, modTeam_groups]

@[simp] theorem faultRank_groups (s : State) (c : ℕ) (k : Coll) (rank : ℕ) (r : CollRank) (rec_ : FaultRec) :
    (faultRank s c k rank r rec_).work.groups = s.work.groups := by simp [faultRank]

@[simp] theorem readRanks_groups (s : State) (c : Nat) (rs : List (Nat × CollRank × Nat × Nat)) :
    (readRanks s c rs).1.work.groups = s.work.groups := by
  induction rs generalizing s with
  | nil => rfl
  | cons e rest ih =>
    rw [readRanks]
    grind [readDesc_groups]

@[simp] theorem moveRanks_groups (s : State) (c st : Nat) (rs : List (Nat × CollRank)) :
    (moveRanks s c st rs).1.work.groups = s.work.groups := by
  induction rs generalizing s with
  | nil => rfl
  | cons e rest ih =>
    rw [moveRanks]
    grind [readRanks_groups, probeRuns_groups]

@[simp] theorem queueRead_groups (s : State) (who : Who) (va : Word) (n : ℕ) :
    (queueRead s who va n).1.work.groups = s.work.groups := by
  unfold queueRead
  grind [xlate_groups, settle_groups]

@[simp] theorem raiseVector_groups (s : State) (q : ℕ) :
    (raiseVector s q).work.groups = s.work.groups := by
  unfold raiseVector
  grind [foldl_groups]

@[simp] theorem streamError_groups (s : State) (q : ℕ) (code : ℕ) :
    (streamError s q code).work.groups = s.work.groups := by simp [streamError]
@[simp] theorem proceed_groups (s : State) (q : ℕ) (n : ℕ) :
    (proceed s q n).work.groups = s.work.groups := rfl

@[simp] theorem pollSemaphore_groups (s : State) (q : ℕ) (addr : Word) (value : Word) :
    (pollSemaphore s q addr value).work.groups = s.work.groups := by
  unfold pollSemaphore
  grind [foldl_groups, queueRead_groups, streamError_groups, proceed_groups, modQueue_groups]

@[simp] theorem readBody_groups (who : Who) (ty : Nat) (va : Word) (f i : Nat) (s : State) (bs : List Byte) (e : Option Nat) :
    (readBody who ty va f i s bs e).1.work.groups = s.work.groups := by
  induction f generalizing i s bs e with
  | zero => rfl
  | succ f ih =>
    rw [readBody]
    grind [queueRead_groups]

@[simp] theorem addLaunch_groups (s : State) (x : Launch) :
    (addLaunch s x).2.work.groups = s.work.groups := rfl
@[simp] theorem queueLaunch_groups (s : State) (q : ℕ) (l : ℕ) :
    (queueLaunch s q l).work.groups = s.work.groups := rfl

@[simp] theorem unreadable_groups (s : State) (q : ℕ) (n : ℕ) (addr : Word) (irq : Bool) :
    (unreadable s q n addr irq).work.groups = s.work.groups := by
  unfold unreadable
  grind [foldl_groups, addLaunch_groups, proceed_groups, queueLaunch_groups, queueRead_groups]

@[simp] theorem submit_groups (s : State) (q : ℕ) (n : ℕ) (bs : List Byte) (irq : Bool) :
    (submit s q n bs irq).work.groups = s.work.groups := by
  unfold submit
  grind [foldl_groups, addLaunch_groups, proceed_groups, queueLaunch_groups, sendAll_groups]

@[simp] theorem queueWrite_groups (s : State) (who : Who) (va : Word) (bs : List Byte) :
    (queueWrite s who va bs).1.work.groups = s.work.groups := by
  unfold queueWrite
  grind [foldl_groups, xlate_groups, homeWrite_groups]

@[simp] theorem copyChunk_groups (s : State) (q : ℕ) (k : QCopy) :
    (copyChunk s q k).work.groups = s.work.groups := by
  unfold copyChunk
  grind [foldl_groups, modQueue_groups, clearFaults_groups, engineLoad_groups, engineStore_groups]

@[simp] theorem areasOf_groups (s : State) (l n : Nat) (acc : BitVec 3) (nos : List Nat) :
    (areasOf s l n acc nos).1.work.groups = s.work.groups := by
  induction nos generalizing s with
  | nil => rfl
  | cons no rest ih =>
    rw [areasOf]
    grind [xlate_groups]

@[simp] theorem settleAreas_groups (s : State) (l : ℕ) (areas : List (ℕ × List Seg)) :
    (settleAreas s l areas).work.groups = s.work.groups := foldl_groups (fun _ _ => settle_groups ..) _ s
@[simp] theorem saveEvent_groups (s : State) (l : ℕ) (n : ℕ) (code : ℕ) :
    (saveEvent s l n code).work.groups = s.work.groups := by simp [saveEvent]
@[simp] theorem writeArea_groups (s : State) (t : ℕ) (segs : List Seg) :
    (writeArea s t segs).work.groups = s.work.groups := by simp [writeArea]
@[simp] theorem storeArea_groups (s : State) (l : ℕ) (t : ℕ) (segs : List Seg) :
    (storeArea s l t segs).work.groups = s.work.groups := by
  rw [storeArea, updateWith_groups sendCopies_groups, writeArea_groups, settle_groups]
@[simp] theorem tellNode_groups (s : State) (l : ℕ) (n : ℕ) (m : FarPreempt) :
    (tellNode s l n m).work.groups = s.work.groups := by simp [tellNode]
@[simp] theorem forgetLaunch_groups (s : State) (l : ℕ) :
    (forgetLaunch s l).work.groups = s.work.groups := rfl

@[simp] theorem endInfo_groups (s : State) (l : ℕ) :
    (endInfo s l).2.work.groups = s.work.groups := by
  unfold endInfo
  split <;> simp

@[simp] theorem noteEnd_groups (s : State) (l : ℕ) :
    (noteEnd s l).work.groups = s.work.groups := by
  unfold noteEnd
  split <;> simp

@[simp] theorem writeCompletion_groups (s : State) (l : ℕ) (q : ℕ) (e : EndInfo) :
    (writeCompletion s l q e).2.work.groups = s.work.groups := by
  unfold writeCompletion
  grind [foldl_groups, queueWrite_groups, clearFaults_groups]

@[simp] theorem launchRecord_groups (s : State) (part : ℕ) (id : BitVec 32) (e : EndInfo) :
    (launchRecord s part id e).work.groups = s.work.groups := by simp [launchRecord]

@[simp] theorem servePrefetch_groups (s : State) (c : ℕ) (l : ℕ) (va : Word) :
    (servePrefetch s c l va).work.groups = s.work.groups := by
  unfold servePrefetch
  split <;> simp

@[simp] theorem answerRemote_groups (s : State) (n : ℕ) (r : RemoteReq) (bs : List Byte) (fault : Option (ℕ × ℕ)) :
    (answerRemote s n r bs fault).work.groups = s.work.groups := by simp [answerRemote]

@[simp] theorem remoteAct_groups (s : State) (n : ℕ) (r : RemoteReq) (segs : List Seg) :
    (remoteAct s n r segs).work.groups = s.work.groups := by
  unfold remoteAct
  grind [answerRemote_groups, cleanBad_groups, homeWrite_groups, settle_groups, homeAtomic_groups, noteUpdate_groups, writeSegs_groups]

@[simp] theorem acceptRemote_groups (s : State) (r : RemoteReq) :
    (acceptRemote s r).work.groups = s.work.groups := by
  unfold acceptRemote
  split <;> simp

@[simp] theorem farAnswer_groups (s : State) (w : ℕ) (r : FarReply) :
    (farAnswer s w r).work.groups = s.work.groups := by
  unfold farAnswer
  grind [foldl_groups, finishWalk_groups, installLeaf_groups]

@[simp] theorem farWrite_groups (s : State) (flat : ℕ) (bs : List Byte) :
    (farWrite s flat bs).work.groups = s.work.groups := by
  unfold farWrite
  split <;> simp

@[simp] theorem copyClean_groups (s : State) (t : ℕ) (r : List Byte) :
    (copyClean s t r).work.groups = s.work.groups := by
  unfold copyClean
  grind [foldl_groups, cleanBad_groups, modTeam_groups]

@[simp] theorem matchColl_groups (s : State) (l : ℕ) (level : ℕ) (node : ℕ) (seq : ℕ) (size : ℕ) :
    (matchColl s l level node seq size).2.2.work.groups = s.work.groups := by
  unfold matchColl
  split <;> simp

@[simp] theorem refuseAll_groups (s : State) (l : ℕ) (e : EndInfo) :
    (refuseAll s l e).work.groups = s.work.groups := by
  unfold refuseAll
  grind [foldl_groups, setLaunch_work_groups, sendAll_groups, proceed_groups]

@[simp] theorem decideJoins_groups (s : State) (l : ℕ) :
    (decideJoins s l).work.groups = s.work.groups := by
  unfold decideJoins
  grind [foldl_groups, refuseAll_groups, setLaunch_work_groups, sendAll_groups, proceed_groups]

@[simp] theorem unsupported_groups (s : State) :
    (unsupported s).work.groups = s.work.groups := rfl

@[simp] theorem renumber_groups (s : State) (old : ℕ) (new : ℕ) :
    (renumber s old new).work.groups = s.work.groups := by
  unfold renumber
  split <;> simp

@[simp] theorem setPod_groups (s : State) (p : Pod) :
    (setPod s p).work.groups = s.work.groups := rfl

@[simp] theorem writePodcfg_groups (s : State) (v : Word) :
    (writePodcfg s v).work.groups = s.work.groups := by
  unfold writePodcfg
  grind [foldl_groups, renumber_groups, setPod_groups, sendAll_groups]

@[simp] theorem writeRing_groups (s : State) (q : ℕ) (v : Word) :
    (writeRing s q v).work.groups = s.work.groups := by
  unfold writeRing
  grind [foldl_groups, setQueue_work]

@[simp] theorem ringDoorbell_groups (s : State) (q : ℕ) (tail : ℕ) :
    (ringDoorbell s q tail).work.groups = s.work.groups := by
  unfold ringDoorbell
  grind [foldl_groups, setQueue_work]

@[simp] theorem clearHalt_groups (s : State) (q : ℕ) (v : Word) :
    (clearHalt s q v).work.groups = s.work.groups := by
  unfold clearHalt
  split <;> simp

@[simp] theorem writeSlot_groups (s : State) (place : ℕ × Option ℕ) (v : Word) :
    (writeSlot s place v).work.groups = s.work.groups := rfl
@[simp] theorem writeJournal_groups (s : State) (step : ℕ) (outcome : ℕ) (unit : ℕ) (detail : ℕ) :
    (writeJournal s step outcome unit detail).work.groups = s.work.groups := by simp [writeJournal]
@[simp] theorem tookStep_groups (s : State) (step : ℕ) (outcome : ℕ) (unit : ℕ) (detail : ℕ) (next : ℕ) :
    (tookStep s step outcome unit detail next).work.groups = s.work.groups := by simp [tookStep]

@[simp] theorem submitImage_groups (s : State) (v : Word) :
    (submitImage s v).work.groups = s.work.groups := by
  unfold submitImage
  grind [foldl_groups, tookStep_groups]

@[simp] theorem settleHost_groups (s : State) (gd : ℕ) (flat : ℕ) (n : ℕ) :
    (settleHost s gd flat n).work.groups = s.work.groups := by
  refine foldl_groups (fun s k => ?_) _ s
  split
  · exact gatherSlot_groups ..
  · split <;> simp

@[simp] theorem updateHost_groups (s : State) (gd : ℕ) (flat : ℕ) :
    (updateHost s gd flat).work.groups = s.work.groups := by
  unfold updateHost
  grind [foldl_groups, sendCopies_groups]

@[simp] theorem journalFailure_groups (s : State) (step : ℕ) (unit : ℕ) :
    (journalFailure s step unit).work.groups = s.work.groups := by simp [journalFailure]
@[simp] theorem toAllSinks_groups (s : State) (d : ℕ) (typ : ℕ) (body : List Byte) :
    (toAllSinks s d typ body).work.groups = s.work.groups := by simp [toAllSinks]
@[simp] theorem setClock_groups (s : State) (d : ℕ) (mhz : ℕ) :
    (setClock s d mhz).work.groups = s.work.groups := by simp [setClock]

@[simp] theorem resumeSink_groups (s : State) (d : ℕ) (p : ℕ) :
    (resumeSink s d p).work.groups = s.work.groups := by
  unfold resumeSink
  split <;> simp

@[simp] theorem poisonTeam_groups (s : State) (t : ℕ) (k : ℕ) :
    (poisonTeam s t k).work.groups = s.work.groups := rfl

@[simp] theorem softPlace_groups (s : State) (u : SoftUnit) :
    (softPlace s u).2.work.groups = s.work.groups := by
  unfold softPlace
  split <;> simp

@[simp] theorem unserviceable_groups (s : State) :
    (unserviceable s).work.groups = s.work.groups := rfl

@[simp] theorem keyStep_groups (s : State) (result : ℕ) (unit : ℕ) (detail : ℕ) :
    (keyStep s result unit detail).work.groups = s.work.groups := by
  unfold keyStep
  grind [foldl_groups, unserviceable_groups, tookStep_groups]

@[simp] theorem writeField_groups (s : State) (f : Config.FieldSection) :
    (writeField s f).work.groups = s.work.groups := rfl

@[simp] theorem recordStep_groups (s : State) (result : ℕ) (unit : ℕ) (detail : ℕ) :
    (recordStep s result unit detail).work.groups = s.work.groups := by
  unfold recordStep
  grind [foldl_groups, unserviceable_groups, tookStep_groups, writeField_groups]

@[simp] theorem applyField_groups (s : State) :
    (applyField s).work.groups = s.work.groups := by
  unfold applyField
  grind [foldl_groups, modCore_groups]

@[simp] theorem readyStep_groups (s : State) :
    (readyStep s).work.groups = s.work.groups := by
  unfold readyStep
  grind [foldl_groups, applyField_groups, tookStep_groups, writeField_groups]

@[simp] theorem restart_groups (s : State) :
    (restart s).work.groups = s.work.groups := by
  unfold restart
  split <;> simp

@[simp] theorem trainStep_groups (s : State) (step : ℕ) (result : ℕ) (unit : ℕ) (detail : ℕ) :
    (trainStep s step result unit detail).work.groups = s.work.groups := by
  unfold trainStep
  grind [foldl_groups, tookStep_groups, restart_groups, unserviceable_groups, writeField_groups]

@[simp] theorem bootStep_groups (s : State) (result : ℕ) (unit : ℕ) (detail : ℕ) :
    (bootStep s result unit detail).work.groups = s.work.groups := by
  unfold bootStep
  grind [foldl_groups, keyStep_groups, recordStep_groups, readyStep_groups, trainStep_groups]

end Sys2Proof.Machine
end

section
/-! PROOFS. The work tree (family 02): the bounds of a group and what keeps them. -/

namespace Sys2Proof.Machine
open Sys2Proof

/-! The bounds of a group, part by part (R36, R44, R62, R63). -/

/-- The context that a handler interrupted keeps the bounds of a lane context. -/
def FrameBound (o : Option Frame) : Prop := ∀ f, o = some f → LaneBound f.lane

/-- Every outstanding counter and completion counter has 16 bits (R62, R63). -/
def CountBound (c : Counters) : Prop :=
  c.loads ≤ 0xFFFF ∧ c.stores ≤ 0xFFFF ∧ c.copies ≤ 0xFFFF ∧ c.tiles ≤ 0xFFFF ∧ ∀ k, (tget [] c.k k).length ≤ 0xFFFF

/-- A group keeps its bounds. -/
def GroupBound (x : Group) : Prop := LaneBound x.lane ∧ FrameBound x.handler ∧ CountBound x.cnt

/-- Every group of a table keeps its bounds. -/
structure AllBound (t : Tab Group) : Prop where
  bound : ∀ g, GroupBound (tget Group.blank t g)
theorem bounded_iff (s : State) : s.bounded ↔ AllBound s.work.groups := ⟨fun h => ⟨h⟩, fun h => h.bound⟩
theorem AllBound.group {s : State} (h : AllBound s.work.groups) (g : Nat) : GroupBound (group s g) := h.bound g
theorem groupBound_iff (x : Group) : GroupBound x ↔ LaneBound x.lane ∧ FrameBound x.handler ∧ CountBound x.cnt := Iff.rfl
theorem groupBound_blank : GroupBound Group.blank := bounded_reset 0
theorem laneBound_iff (l : LaneCtx) : LaneBound l ↔ l.stack.length ≤ Config.maskDepth ∧ l.rq.length ≤ Config.queueDepth ∧
    l.park.full.length ≤ Config.queueDepth ∧ l.park.stopRq.length ≤ Config.queueDepth := Iff.rfl
theorem frameBound_none : FrameBound none := fun _ h => nomatch h
theorem frameBound_some (f : Frame) : FrameBound (some f) ↔ LaneBound f.lane := by simp [FrameBound]

/-- A change of the frame that leaves its lane context keeps its bounds. -/
theorem FrameBound.map {o : Option Frame} (h : FrameBound o) {f : Frame → Frame} (hf : ∀ x, LaneBound x.lane → LaneBound (f x).lane) :
    FrameBound (o.map f) := by
  cases o with
  | none => exact frameBound_none
  | some x => exact (frameBound_some _).mpr (hf x (h x rfl))

/-! Writes of registers leave the bounded parts of a group as they are. -/

/-- Two groups agree in what the bounds read. -/
def SameBounds (x y : Group) : Prop := y.lane = x.lane ∧ y.handler = x.handler ∧ y.cnt = x.cnt
theorem SameBounds.bound {x y : Group} (e : SameBounds x y) (h : GroupBound x) : GroupBound y := by
  obtain ⟨h1, h2, h3⟩ := e
  simpa only [GroupBound, h1, h2, h3] using h
theorem SameBounds.refl (x : Group) : SameBounds x x := ⟨rfl, rfl, rfl⟩
theorem SameBounds.trans {x y z : Group} (h : SameBounds x y) (k : SameBounds y z) : SameBounds x z :=
  ⟨k.1.trans h.1, k.2.1.trans h.2.1, k.2.2.trans h.2.2⟩
theorem SameBounds.poison {x y : Group} (h : SameBounds x y) (p : List PoisonUnit) : SameBounds x { y with poison := p } := h

theorem SameBounds.foldl {α : Type} {f : Group → α → Group} (hf : ∀ x a, SameBounds x (f x a)) (l : List α) (x : Group) :
    SameBounds x (l.foldl f x) := by
  induction l generalizing x with
  | nil => exact .refl x
  | cons a l ih => exact (hf x a).trans (ih _)

theorem sameBounds_setSregOf (x : Group) (r : Nat) (v : Word) : SameBounds x (setSregOf x r v) := by
  unfold setSregOf
  split <;> exact ⟨rfl, rfl, rfl⟩
theorem SameBounds.setSreg {x y : Group} (h : SameBounds x y) (r : Nat) (v : Word) : SameBounds x (setSregOf y r v) :=
  h.trans (sameBounds_setSregOf y r v)
theorem sameBounds_setVreg (x : Group) (n : Nat) (v : LaneVec) : SameBounds x (setVreg x n v) := ⟨rfl, rfl, rfl⟩
theorem sameBounds_setMreg (x : Group) (n : Nat) (v : PredVec) : SameBounds x (setMreg x n v) := by
  unfold setMreg
  split <;> exact ⟨rfl, rfl, rfl⟩
theorem sameBounds_setQreg (x : Group) (n : Nat) (v : List LA) : SameBounds x (setQreg x n v) := ⟨rfl, rfl, rfl⟩
theorem sameBounds_setTreg (x : Group) (n : Nat) (v : TileDesc) : SameBounds x (setTreg x n v) := ⟨rfl, rfl, rfl⟩
theorem sameBounds_putLanes (x : Group) (n : Nat) (ex : List Bool) (v : List LWord) : SameBounds x (putLanes x n ex v) := ⟨rfl, rfl, rfl⟩
theorem sameBounds_putWide (x : Group) (wide : Bool) (n : Nat) (ex : List Bool) (v : List Word) : SameBounds x (putWide x wide n ex v) := by
  unfold putWide
  split <;> exact ⟨rfl, rfl, rfl⟩
theorem sameBounds_putPacked (x : Group) (w n : Nat) (nib : List (BitVec 4)) (v : List LWord) : SameBounds x (putPacked x w n nib v) :=
  ⟨rfl, rfl, rfl⟩
theorem sameBounds_putMreg (x : Group) (k : PReg) (whole : Bool) (v : PredVec) : SameBounds x (putMreg x k whole v) := by
  unfold putMreg
  split <;> exact sameBounds_setMreg ..
theorem sameBounds_putPred (x : Group) (k : PReg) (ex v : List Bool) : SameBounds x (putPred x k ex v) := sameBounds_putMreg ..
theorem sameBounds_putPredBytes (x : Group) (k : PReg) (nib v : List (BitVec 4)) : SameBounds x (putPredBytes x k nib v) := sameBounds_putMreg ..
theorem sameBounds_putNibbles (x : Group) (k : PReg) (ex : List Bool) (v : List (BitVec 4)) : SameBounds x (putNibbles x k ex v) :=
  sameBounds_putMreg ..

theorem sameBounds_putEl (x : Group) (t : CType) (n pos : Nat) (ex : List Bool) (v : List Nat) : SameBounds x (putEl x t n pos ex v) := by
  simp only [putEl]
  split
  · exact ⟨rfl, rfl, rfl⟩
  · exact sameBounds_putWide ..

theorem sameBounds_putSlot (x : Group) (n i : Nat) (a : LA) : SameBounds x (putSlot x n i a) := ⟨rfl, rfl, rfl⟩

theorem sameBounds_putLane (x : Group) (i : Nat) (rs : List Nat) (v : Nat) : SameBounds x (putLane x i rs v) := by
  induction rs generalizing x v with
  | nil => exact .refl x
  | cons r rs ih => exact SameBounds.trans ⟨rfl, rfl, rfl⟩ (ih _ _)

theorem sameBounds_putSlots (x : Group) (n : Nat) (ex : List Bool) (v : List LA) : SameBounds x (putSlots x n ex v) := ⟨rfl, rfl, rfl⟩
theorem sameBounds_giveRecords (x : Group) (hmask : Mask) (recs : Tab FaultRec) : SameBounds x (giveRecords x hmask recs) := by
  simp only [giveRecords]
  exact (SameBounds.foldl (fun x j => sameBounds_setVreg ..) (List.range 4) x).poison _

/-! Changes of the lane context (R38, R44, R47, R48). -/

theorem countRun_length (q : List RqRec) : (countRun q).length ≤ q.length := by
  cases q with
  | nil => exact le_rfl
  | cons r q =>
    cases r with
    | jump t => exact le_rfl
    | run n cap => simp only [countRun]; split <;> simp

theorem LaneBound.advance {l : LaneCtx} (h : LaneBound l) (n : Nat) : LaneBound (advanceLane l n) := by
  obtain ⟨h1, h2, h3, h4⟩ := h
  unfold advanceLane
  split
  · exact ⟨h1, h2, h3, h4⟩
  · exact ⟨h1, (countRun_length l.rq).trans h2, h3, h4⟩

theorem LaneBound.countIssue {l : LaneCtx} (h : LaneBound l) : LaneBound (countIssue l) := by
  unfold Machine.countIssue
  split
  · exact h
  · split <;> exact h

theorem LaneBound.resumeStop {l : LaneCtx} (h : LaneBound l) : LaneBound (resumeStop l) := by
  obtain ⟨h1, h2, h3, h4⟩ := h
  exact ⟨h1, h4, Nat.zero_le _, Nat.zero_le _⟩
theorem LaneBound.noteClobbers {l : LaneCtx} (h : LaneBound l) (cs : Tab Word) : LaneBound (noteClobbers l cs) := h
theorem LaneBound.stopAfter {l : LaneCtx} (h : LaneBound l) (acq : Bool) (f : Mask) : LaneBound (stopAfter l acq f) := by
  unfold Machine.stopAfter
  split <;> exact h

theorem GroupBound.endReplay {x : Group} (h : GroupBound x) (f : Mask) (recs : Tab FaultRec) (drop : Tab (List Nat)) :
    GroupBound (endReplay x f recs drop) := by
  obtain ⟨⟨h1, h2, h3, h4⟩, hf, hc⟩ := h
  exact ⟨⟨h1, h4, h2, h4⟩, hf, hc⟩

theorem GroupBound.parkLanes {x : Group} (h : GroupBound x) (f : Mask) (recs : Tab FaultRec) (drop : Tab (List Nat)) :
    GroupBound (parkLanes x f recs drop) := by
  obtain ⟨⟨h1, h2, h3, h4⟩, hf, hc⟩ := h
  simp only [Machine.parkLanes]
  split
  · exact ⟨⟨h1, h2, h2, Nat.zero_le _⟩, hf, hc⟩
  · exact ⟨⟨h1, h2, h3, h4⟩, hf, hc⟩

theorem GroupBound.withoutLanes {x : Group} (h : GroupBound x) (f : Mask) : GroupBound (withoutLanes x f) := h
theorem GroupBound.withLanes {y : Group} (h : GroupBound y) (x : Group) : GroupBound (withLanes x y) := h
theorem GroupBound.endRunOn {x : Group} (h : GroupBound x) : GroupBound (endRunOn x) := by
  unfold Machine.endRunOn
  split <;> exact h

/-- A record is appended where the queue has room, held records included (R36, R47). -/
theorem GroupBound.appendRecord {x : Group} (h : GroupBound x) (room : rqLength x < Config.queueDepth) (r : RqRec) :
    GroupBound (appendRecord x r) := by
  obtain ⟨⟨h1, h2, h3, h4⟩, hf, hc⟩ := h
  unfold rqLength at room
  refine ⟨⟨h1, ?_, ?_, ?_⟩, hf, hc⟩ <;> simp only [Machine.appendRecord] <;> grind

/-! Changes of the counters (R62, R63, R193). -/
theorem settleOps_length (ops : List (Nat × Bool)) (op : Nat) : (settleOps ops op).length ≤ ops.length :=
  (List.dropWhile_suffix _).length_le.trans (List.length_map _).le

theorem CountBound.put {c : Counters} (h : CountBound c) (k : Nat) {ops : List (Nat × Bool)} (ho : ops.length ≤ 0xFFFF) :
    CountBound { c with k := tput [] c.k k ops } := by
  obtain ⟨h1, h2, h3, h4, h5⟩ := h
  refine ⟨h1, h2, h3, h4, fun j => ?_⟩
  rw [tget_tput]
  split
  · exact ho
  · exact h5 j

theorem GroupBound.raiseK {x : Group} (h : GroupBound x) {k : Nat} (room : kcount x k < 0xFFFF) (op : Nat) : GroupBound (raiseK x k op) :=
  ⟨h.1, h.2.1, h.2.2.put k (by rw [List.length_append]; exact room)⟩
theorem GroupBound.lowerK {x : Group} (h : GroupBound x) (k op : Nat) : GroupBound (lowerK x k op) :=
  ⟨h.1, h.2.1, h.2.2.put k ((settleOps_length ..).trans (h.2.2.2.2.2.2 k))⟩

theorem GroupBound.foldl {α : Type} {f : Group → α → Group} (hf : ∀ x a, GroupBound x → GroupBound (f x a)) (l : List α) {x : Group}
    (h : GroupBound x) : GroupBound (l.foldl f x) := by
  induction l generalizing x with
  | nil => exact h
  | cons a l ih => exact ih (hf x a h)

/-- Counters that rise only where they have room, and else fall or stay. -/
theorem GroupBound.counters {x : Group} (h : GroupBound x) {c : Counters} (hk : c.k = x.cnt.k) (hl : c.loads ≤ 0xFFFF) (hs : c.stores ≤ 0xFFFF)
    (hc : c.copies ≤ 0xFFFF) (ht : c.tiles ≤ 0xFFFF) : GroupBound { x with cnt := c } :=
  ⟨h.1, h.2.1, hl, hs, hc, ht, by rw [hk]; exact h.2.2.2.2.2.2⟩

theorem GroupBound.countAccess_up {x : Group} (h : GroupBound x) {k : AccKind} (room : countersFull x k = false) :
    GroupBound (countAccess x k true) := by
  obtain ⟨hl, hs, hc, ht, -⟩ := h.2.2
  simp only [countersFull, Bool.or_eq_false_iff, Bool.and_eq_false_iff, decide_eq_false_iff_not] at room
  refine h.counters rfl ?_ ?_ hc ht <;> grind

theorem GroupBound.countAccess_down {x : Group} (h : GroupBound x) (k : AccKind) : GroupBound (countAccess x k false) := by
  obtain ⟨hl, hs, hc, ht, -⟩ := h.2.2
  refine h.counters rfl ?_ ?_ hc ht <;> grind
theorem GroupBound.lowerCopies {x : Group} (h : GroupBound x) : GroupBound { x with cnt := { x.cnt with copies := x.cnt.copies - 1 } } := by
  obtain ⟨hl, hs, hc, ht, -⟩ := h.2.2
  exact h.counters rfl hl hs ((Nat.sub_le ..).trans hc) ht

theorem GroupBound.raiseCopies {x : Group} (h : GroupBound x) (room : x.cnt.copies < 0xFFFF) :
    GroupBound { x with cnt := { x.cnt with copies := x.cnt.copies + 1 } } := by
  obtain ⟨hl, hs, hc, ht, -⟩ := h.2.2
  exact h.counters rfl hl hs room ht

theorem GroupBound.raiseTiles {x : Group} (h : GroupBound x) (room : x.cnt.tiles < 0xFFFF) :
    GroupBound { x with cnt := { x.cnt with tiles := x.cnt.tiles + 1 } } := by
  obtain ⟨hl, hs, hc, ht, -⟩ := h.2.2
  exact h.counters rfl hl hs hc room

theorem GroupBound.ite {p : Prop} [Decidable p] {x y : Group} (hx : GroupBound x) (hy : GroupBound y) : GroupBound (if p then x else y) := by
  split <;> assumption

theorem GroupBound.lowerTile {x : Group} (h : GroupBound x) (t : TileOp) (k : Option Nat) : GroupBound (lowerTile x t k) := by
  obtain ⟨hl, hs, hc, ht, -⟩ := h.2.2
  have h' : GroupBound { x with cnt := { x.cnt with tiles := x.cnt.tiles - 1 } } := h.counters rfl hl hs hc ((Nat.sub_le ..).trans ht)
  unfold Machine.lowerTile
  split
  · cases k with
    | none => exact h'
    | some n => exact h'.lowerK n t.op
  · exact h

theorem GroupBound.putTile {x : Group} (h : GroupBound x) (t : Option TileOp) : GroupBound (putTile x t) := by
  unfold Machine.putTile
  split
  · exact ⟨h.1, h.2.1.map fun _ hx => hx, h.2.2⟩
  · exact h

/-! Writes of the group table. -/

theorem setGroup_bounds {s : State} (h : AllBound s.work.groups) (g : Nat) {x : Group} (hx : GroupBound x) :
    AllBound (setGroup s g x).work.groups := by
  refine ⟨fun k => ?_⟩
  have := group_setGroup s g k x
  simp only [Machine.group] at this
  rw [this]
  split
  · exact hx
  · exact h.bound k

theorem modGroup_bounds {s : State} (h : AllBound s.work.groups) (g : Nat) {f : Group → Group} (hf : GroupBound (group s g) → GroupBound (f (group s g))) :
    AllBound (modGroup s g f).work.groups := setGroup_bounds h g (hf (h.group g))
theorem ite_bounds {p : Prop} [Decidable p] {s t : State} (hs : AllBound s.work.groups) (ht : AllBound t.work.groups) :
    AllBound (if p then s else t).work.groups := by
  split <;> assumption

theorem foldl_bounds {α : Type} {f : State → α → State} (hf : ∀ s a, AllBound s.work.groups → AllBound (f s a).work.groups) (l : List α)
    {s : State} (h : AllBound s.work.groups) : AllBound (l.foldl f s).work.groups := by
  induction l generalizing s with
  | nil => exact h
  | cons a l ih => exact ih (hf s a h)

/-- A change of every listed group that leaves what the bounds read. -/
theorem AllBound.map {t : Tab Group} (h : AllBound t) {f : Nat × Group → Group} (hf : ∀ e, SameBounds e.2 (f e)) :
    AllBound (t.map fun e => (e.1, f e)) := by
  refine ⟨fun k => ?_⟩
  have hk := h.bound k
  clear h
  induction t with
  | nil => exact hk
  | cons e t ih =>
    simp only [List.map_cons, tget] at hk ⊢
    split
    · next he => exact (hf e).bound (by rwa [if_pos he] at hk)
    · next he => exact ih (by rwa [if_neg he] at hk)

/-- What an outcome leaves keeps the bounds. -/
structure OutBound (o : Out) : Prop where
  next : ∀ t, o = .next t → AllBound t.work.groups

theorem outBound_next (t : State) : OutBound (.next t) ↔ AllBound t.work.groups := by
  constructor
  · exact fun h => h.next t rfl
  · rintro h; exact ⟨by rintro u ⟨⟩; exact h⟩

theorem outBound_fault (r : Fault) : OutBound (.fault r) := ⟨fun _ h => nomatch h⟩
theorem outBound_refused (r : Refusal) : OutBound (.refused r) := ⟨fun _ h => nomatch h⟩

/-! Records of a group's trace change its trace setting and nothing else of any group (R395 to R399). -/
theorem group_of_groups {s t : State} (e : t.work.groups = s.work.groups) (g : Nat) : group t g = group s g := by
  simp only [group, e]

/-- Every group of `t` is that of `s` but for its trace setting. -/
structure OnlyTrace (s t : State) : Prop where
  at_ : ∀ g, ∃ c, group t g = { group s g with trace := c }
theorem OnlyTrace.of_groups {s t : State} (e : t.work.groups = s.work.groups) : OnlyTrace s t := ⟨fun h => ⟨_, group_of_groups e h⟩⟩
theorem OnlyTrace.refl (s : State) : OnlyTrace s s := .of_groups rfl

theorem OnlyTrace.trans {s t u : State} (h : OnlyTrace s t) (k : OnlyTrace t u) : OnlyTrace s u := ⟨fun g => by
  obtain ⟨c, hc⟩ := h.at_ g
  obtain ⟨d, hd⟩ := k.at_ g
  exact ⟨d, by rw [hd, hc]⟩⟩

theorem OnlyTrace.sameBounds {s t : State} (h : OnlyTrace s t) (g : Nat) : SameBounds (group s g) (group t g) := by
  obtain ⟨c, hc⟩ := h.at_ g
  rw [hc]
  exact ⟨rfl, rfl, rfl⟩

theorem OnlyTrace.fly {s t : State} (h : OnlyTrace s t) (g : Nat) : (group t g).fly = (group s g).fly := by
  obtain ⟨c, hc⟩ := h.at_ g
  rw [hc]
theorem OnlyTrace.bounds {s t : State} (e : OnlyTrace s t) (h : AllBound s.work.groups) : AllBound t.work.groups :=
  ⟨fun g => (e.sameBounds g).bound (h.group g)⟩

theorem onlyTrace_modGroup (s : State) (g : Nat) (f : Group → TraceCtx) : OnlyTrace s (modGroup s g fun x => { x with trace := f x }) := by
  refine ⟨fun h => ?_⟩
  rw [modGroup, group_setGroup]
  split
  · next e => subst e; exact ⟨_, rfl⟩
  · exact ⟨_, rfl⟩

theorem onlyTrace_groupPut (s : State) (g time typ sub : Nat) (body : List Byte) (hold : Bool) :
    OnlyTrace s (groupPut s g time typ sub body hold) :=
  (onlyTrace_modGroup s g fun x => { x.trace with stamp := max time (group s g).trace.stamp }).trans (.of_groups (putRecord_groups ..))

theorem onlyTrace_flushMap (s : State) (g : Nat) (hold : Bool) : OnlyTrace s (flushMap s g hold) := by
  unfold flushMap
  dsimp only
  split
  · exact .refl s
  · exact (onlyTrace_modGroup s g fun x => { x.trace with map := [], branches := x.trace.branches + 1 }).trans (onlyTrace_groupPut ..)

theorem onlyTrace_emitSync (s : State) (g reason : Nat) : OnlyTrace s (emitSync s g reason) := by
  unfold emitSync
  split
  · exact ((onlyTrace_flushMap s g _).trans (onlyTrace_groupPut ..)).trans (onlyTrace_modGroup _ g fun x => { x.trace with branches := 0 })
  · exact .refl s

theorem onlyTrace_syncIfDue (s : State) (g : Nat) : OnlyTrace s (syncIfDue s g) := by
  unfold syncIfDue
  split
  · exact onlyTrace_emitSync ..
  · exact .refl s

theorem onlyTrace_traceAhead (s : State) (g time : Nat) : OnlyTrace s (traceAhead s g time) := by
  unfold traceAhead
  split
  · exact (onlyTrace_flushMap s g true).trans (onlyTrace_syncIfDue ..)
  · exact .refl s

theorem onlyTrace_aheadNow (s : State) : OnlyTrace s (aheadNow s) := by
  unfold aheadNow
  split
  · exact onlyTrace_traceAhead ..
  · exact .refl s

theorem onlyTrace_applyTrace (s : State) (g : Nat) : OnlyTrace s (applyTrace s g) := by
  unfold applyTrace
  split
  · exact .refl s
  · next on _ =>
    extract_lets was flushed set
    have hf : OnlyTrace s flushed := by
      unfold flushed
      split
      · exact onlyTrace_flushMap ..
      · exact .refl s
    have hs : OnlyTrace s set := hf.trans (onlyTrace_modGroup _ g fun x =>
      { x.trace with bit := on, next := none, since := if on && !was then now flushed else x.trace.since })
    split
    · exact hs.trans (onlyTrace_emitSync ..)
    · exact hs

theorem onlyTrace_traceStop (s : State) (g : Nat) (hold : Bool) : OnlyTrace s (traceStop s g hold) := by
  unfold traceStop
  split
  · exact onlyTrace_flushMap ..
  · exact .refl s

theorem onlyTrace_emitGroupAt (s : State) (g time typ sub : Nat) (body : List Byte) : OnlyTrace s (emitGroupAt s g time typ sub body) := by
  unfold emitGroupAt
  split
  · exact (onlyTrace_traceAhead s g time).trans (onlyTrace_groupPut ..)
  · exact .refl s

theorem onlyTrace_emitGroup (s : State) (g typ sub : Nat) (body : List Byte) : OnlyTrace s (emitGroup s g typ sub body) := onlyTrace_emitGroupAt ..

end Sys2Proof.Machine
end

section
/-! PROOFS. The work tree (family 02): the operations that touch a group keep its bounds. -/

namespace Sys2Proof.Machine
open Sys2Proof

theorem haltGroup_bounds {s : State} (h : AllBound s.work.groups) (g : ℕ) :
    AllBound (haltGroup s g).work.groups := by
  simp only [haltGroup]
  refine modGroup_bounds ?_ g fun hx => ⟨hx.1, hx.2.1.map fun _ hf => hf, hx.2.2⟩
  rwa [modCore_groups, leaveBooth_groups]

theorem groupPut_bounds {s : State} (h : AllBound s.work.groups) (g : ℕ) (time : ℕ) (typ : ℕ) (sub : ℕ) (body : List Byte) (hold : Bool) :
    AllBound (groupPut s g time typ sub body hold).work.groups := by
  unfold groupPut
  grind [modGroup_bounds, putRecord_groups, GroupBound, AllBound.group]

theorem flushMap_bounds {s : State} (h : AllBound s.work.groups) (g : ℕ) (hold : Bool) :
    AllBound (flushMap s g hold).work.groups := by
  unfold flushMap
  grind [setGroup_bounds, groupPut_bounds, GroupBound, AllBound.group]

theorem traceStop_bounds {s : State} (h : AllBound s.work.groups) (g : ℕ) (hold : Bool) :
    AllBound (traceStop s g hold).work.groups := by
  unfold traceStop
  grind [flushMap_bounds]

theorem freeGroup_bounds {s : State} (h : AllBound s.work.groups) (g : ℕ) (hold : Bool) :
    AllBound (freeGroup s g hold).work.groups := by
  unfold freeGroup
  grind [leaveBooth_groups, dropAgents_groups, traceStop_bounds, modCore_groups, modTeam_groups, setGroup_bounds, foldl_bounds, groupBound_blank, GroupBound, AllBound.group]

theorem freeTeam_bounds {s : State} (h : AllBound s.work.groups) (t : ℕ) :
    AllBound (freeTeam s t).work.groups := by
  unfold freeTeam
  grind [freeGroup_bounds, setTeam_work_groups, modCore_groups, dropLines_groups, foldl_bounds, groupBound_blank, GroupBound, AllBound.group]

theorem reapTeam_bounds {s : State} (h : AllBound s.work.groups) (t : ℕ) :
    AllBound (reapTeam s t).work.groups := by
  unfold reapTeam
  grind [modTeam_groups, haltGroup_bounds, freeGroup_bounds, freeTeam_bounds, foldl_bounds, groupBound_blank, GroupBound, AllBound.group]

theorem killLaunch_bounds {s : State} (h : AllBound s.work.groups) (l : ℕ) (e : EndInfo) :
    AllBound (killLaunch s l e).work.groups := by
  unfold killLaunch
  grind [reapTeam_bounds, modLaunch_groups, foldl_bounds, groupBound_blank, GroupBound, AllBound.group]

theorem killEverywhere_bounds {s : State} (h : AllBound s.work.groups) (l : ℕ) (e : EndInfo) :
    AllBound (killEverywhere s l e).work.groups := by
  unfold killEverywhere
  grind [killMessages_groups, killLaunch_bounds]

theorem unhandled_bounds {s : State} (h : AllBound s.work.groups) (g : ℕ) (code : ℕ) :
    AllBound (unhandled s g code).work.groups := by
  unfold unhandled
  grind [killEverywhere_bounds]

theorem raiseStream_bounds {s : State} (h : AllBound s.work.groups) (g : ℕ) (r : FaultRec) :
    AllBound (raiseStream s g r).work.groups := by
  unfold raiseStream
  grind [unhandled_bounds, modGroup_bounds, GroupBound, AllBound.group]

theorem raiseScalar_bounds {s : State} (h : AllBound s.work.groups) (r : FaultRec) :
    AllBound (raiseScalar s r).work.groups := by
  unfold raiseScalar
  grind [raiseStream_bounds, walkError_groups]

theorem illegal_bounds {s : State} (h : AllBound s.work.groups) (cause : ℕ) :
    AllBound (illegal s cause).work.groups := by
  unfold illegal
  grind [raiseScalar_bounds]

theorem wait_bounds {s : State} (h : AllBound s.work.groups) (i : Instr) :
    AllBound (wait s i).work.groups := by
  unfold wait
  grind [modGroup_bounds, GroupBound, AllBound.group]

theorem emitSync_bounds {s : State} (h : AllBound s.work.groups) (g : ℕ) (reason : ℕ) :
    AllBound (emitSync s g reason).work.groups := by
  unfold emitSync
  grind [flushMap_bounds, groupPut_bounds, modGroup_bounds, GroupBound, AllBound.group]

theorem applyTrace_bounds {s : State} (h : AllBound s.work.groups) (g : ℕ) :
    AllBound (applyTrace s g).work.groups := by
  unfold applyTrace
  grind [flushMap_bounds, modGroup_bounds, emitSync_bounds, GroupBound, AllBound.group]

theorem setSpc_bounds {s : State} (h : AllBound s.work.groups) (v : Word) :
    AllBound (setSpc s v).work.groups := by
  unfold setSpc
  grind [modGroup_bounds, setWalk_work_groups, GroupBound, AllBound.group]

theorem retireTo_bounds {s : State} (h : AllBound s.work.groups) (target : Word) :
    AllBound (retireTo s target).work.groups := by
  unfold retireTo
  grind [modGroup_bounds, applyTrace_bounds, setSpc_bounds, GroupBound, AllBound.group]

theorem retire_bounds {s : State} (h : AllBound s.work.groups) :
    AllBound (retire s).work.groups := by
  unfold retire
  grind [retireTo_bounds]

theorem setS_bounds {s : State} (h : AllBound s.work.groups) (r : SReg) (v : Word) :
    AllBound (setS s r v).work.groups := by
  unfold setS
  split
  · exact h
  · split
    · exact modGroup_bounds h _ (sameBounds_setSregOf ..).bound
    · split <;> exact h
    · exact h

theorem result_bounds {s : State} (h : AllBound s.work.groups) (d : SReg) (v : Word) :
    AllBound (result s d v).work.groups := by
  unfold result
  grind [retire_bounds, setS_bounds]

theorem alu2_bounds {s : State} (h : AllBound s.work.groups) (f : Word → Word → Word) (d : SReg) (a : SReg) (b : SReg) :
    OutBound (alu2 f d a b s) := (outBound_next _).mpr (result_bounds h ..)
theorem alu1_bounds {s : State} (h : AllBound s.work.groups) (f : Word → Word) (d : SReg) (a : SReg) :
    OutBound (alu1 f d a s) := (outBound_next _).mpr (result_bounds h ..)

theorem onGroup_bounds {s : State} (h : AllBound s.work.groups) {k : Nat → State} (hk : ∀ g, AllBound (k g).work.groups) :
    OutBound (onGroup s k) := by
  unfold onGroup
  split
  · exact (outBound_next _).mpr (hk _)
  · rw [outBound_next, walkError_groups]; exact h
  · exact (outBound_next _).mpr h

theorem writeReply_bounds {s : State} (h : AllBound s.work.groups) (k : AccKind) (raw : Word) :
    AllBound (writeReply s k raw).work.groups := by
  unfold writeReply
  grind [setS_bounds]

theorem finishScalar_bounds {s : State} (h : AllBound s.work.groups) (g : ℕ) :
    AllBound (finishScalar s g).work.groups := by
  unfold finishScalar
  split
  · exact h
  · next a _ =>
    have done : AllBound (modGroup s g fun x => { countAccess x a.kind false with fly := { x.fly with scalar := none } }).work.groups :=
      modGroup_bounds h g fun hx => hx.countAccess_down a.kind
    dsimp only
    split
    · exact h
    · exact retire_bounds (writeReply_bounds done ..)
    · exact raiseStream_bounds (retire_bounds done) ..
    · split
      · exact h
      · exact raiseScalar_bounds done _

theorem serveScalar_reply_bounds {s : State} (h : AllBound s.work.groups) (g : ℕ) (a : ScalarAcc) (r : Reply) :
    AllBound (serveScalar.reply s g a r).work.groups := by
  unfold serveScalar.reply
  grind [modGroup_bounds, clearFaults_groups, GroupBound, AllBound.group]

theorem serveScalar_bounds {s : State} (h : AllBound s.work.groups) (g : ℕ) :
    AllBound (serveScalar s g).work.groups := by
  unfold serveScalar
  grind [xlate_groups, serveScalar_reply_bounds, homeWrite_groups, homeRead_groups, readRo_groups, noteRo_groups, homeAtomic_groups]

theorem scalarAccess_bounds {s : State} (h : AllBound s.work.groups) (g : ℕ) (i : Instr) (sp : Bool) (k : AccKind) (addr : Word) (n : ℕ) :
    AllBound (scalarAccess s g i sp k addr n).work.groups := by
  simp only [scalarAccess]
  split
  · exact wait_bounds h _
  next room =>
  have raised : ∀ (t : State) (f : Group → InFlight), t.work.groups = s.work.groups →
      AllBound (modGroup t g fun x => { countAccess x k true with fly := f x }).work.groups := fun t f e => by
    refine modGroup_bounds (e ▸ h) g fun hx => hx.countAccess_up ?_
    rwa [group_of_groups e, ← Bool.not_eq_true]
  split
  · split
    · exact illegal_bounds h 1
    split
    · exact raiseScalar_bounds h _
    split
    · exact raiseScalar_bounds h _
    · exact finishScalar_bounds (raised _ _ (scratchAccess_groups ..)) g
  · split
    · exact raiseScalar_bounds h _
    · exact ite_bounds (raiseScalar_bounds h _) (finishScalar_bounds (serveScalar_bounds (raised _ _ rfl) g) g)

theorem withScope_bounds {s : State} (h : AllBound s.work.groups) (g : ℕ) (used : Bool) (c : Scope) (k : State → State) (hk : ∀ s, AllBound s.work.groups → AllBound (k s).work.groups) :
    AllBound (withScope s g used c k).work.groups := by
  unfold withScope
  grind [illegal_bounds]

theorem afterLanes_bounds {s : State} (h : AllBound s.work.groups) (g : ℕ) (i : Instr) (k : State → State) (hk : ∀ s, AllBound s.work.groups → AllBound (k s).work.groups) :
    AllBound (afterLanes s g i k).work.groups := by
  unfold afterLanes
  split
  · exact hk s h
  · exact wait_bounds (modGroup_bounds h g GroupBound.endRunOn) i

theorem samo_bounds {s : State} (h : AllBound s.work.groups) (op : ℕ) (i : Instr) (x : SAmo) :
    OutBound (samo op i x s) := by
  unfold samo
  grind [onGroup_bounds, withScope_bounds, scalarAccess_bounds, afterLanes_bounds]

theorem fence_bounds {s : State} (h : AllBound s.work.groups) (i : Instr) (c : Scope) :
    OutBound (fence i c s) := by
  unfold fence
  grind [onGroup_bounds, withScope_bounds, afterLanes_bounds, retire_bounds]

theorem tracedTo_bounds {s : State} (h : AllBound s.work.groups) (target : Word) (f : State → ℕ → State) (hf : ∀ s a, AllBound s.work.groups → AllBound (f s a).work.groups) :
    AllBound (tracedTo s target f).work.groups := by
  unfold tracedTo
  grind [setSpc_bounds]

theorem syncIfDue_bounds {s : State} (h : AllBound s.work.groups) (g : ℕ) :
    AllBound (syncIfDue s g).work.groups := by
  unfold syncIfDue
  grind [emitSync_bounds]

theorem traceBranch_bounds {s : State} (h : AllBound s.work.groups) (g : ℕ) (taken : Bool) :
    AllBound (traceBranch s g taken).work.groups := by
  unfold traceBranch
  grind [modGroup_bounds, syncIfDue_bounds, flushMap_bounds, GroupBound, AllBound.group]

theorem traceAhead_bounds {s : State} (h : AllBound s.work.groups) (g : ℕ) (time : ℕ) :
    AllBound (traceAhead s g time).work.groups := by
  unfold traceAhead
  grind [syncIfDue_bounds, flushMap_bounds]

theorem aheadNow_bounds {s : State} (h : AllBound s.work.groups) :
    AllBound (aheadNow s).work.groups := by
  unfold aheadNow
  grind [traceAhead_bounds]

theorem emitGroupAt_bounds {s : State} (h : AllBound s.work.groups) (g : ℕ) (time : ℕ) (typ : ℕ) (sub : ℕ) (body : List Byte) :
    AllBound (emitGroupAt s g time typ sub body).work.groups := by
  unfold emitGroupAt
  grind [groupPut_bounds, traceAhead_bounds]

theorem emitGroup_bounds {s : State} (h : AllBound s.work.groups) (g : ℕ) (typ : ℕ) (sub : ℕ) (body : List Byte) :
    AllBound (emitGroup s g typ sub body).work.groups := by
  unfold emitGroup
  grind [emitGroupAt_bounds]

theorem traceIndirect_bounds {s : State} (h : AllBound s.work.groups) (g : ℕ) (from_ : Word) (target : Word) :
    AllBound (traceIndirect s g from_ target).work.groups := by
  unfold traceIndirect
  grind [emitGroup_bounds, syncIfDue_bounds, modGroup_bounds, GroupBound, AllBound.group]

theorem indirect_bounds {s : State} (h : AllBound s.work.groups) (from_ : Word) (target : Word) :
    AllBound (indirect s from_ target).work.groups := by
  unfold indirect
  grind [retireTo_bounds, tracedTo_bounds, aheadNow_bounds, traceIndirect_bounds]

theorem dropRecord_bounds {s : State} (h : AllBound s.work.groups) (g : ℕ) (code : ℕ) :
    AllBound (dropRecord s g code).work.groups := by
  unfold dropRecord
  grind [modGroup_bounds, modTeam_groups, tellRank_groups, GroupBound, AllBound.group]

theorem lowerCopy_bounds {s : State} (h : AllBound s.work.groups) (k : Copy) :
    AllBound (lowerCopy s k).work.groups := modGroup_bounds h _ fun hx =>
  GroupBound.lowerCopies (GroupBound.foldl (fun _ _ hy => hy.lowerK ..) _ hx)

theorem tellGroups_bounds {s : State} (h : AllBound s.work.groups) (c : ℕ) (r : CollRank) (cls : ℕ) :
    AllBound (tellGroups s c r cls).work.groups := by
  unfold tellGroups
  grind [unhandled_bounds, modGroup_bounds, foldl_bounds, groupBound_blank, GroupBound, AllBound.group]

theorem tellFault_bounds {s : State} (h : AllBound s.work.groups) (c : ℕ) (rank : ℕ) :
    AllBound (tellFault s c rank).work.groups := by
  unfold tellFault
  grind [setColl_work_groups, tellGroups_bounds]

theorem tellLate_bounds {s : State} (h : AllBound s.work.groups) (t : ℕ) :
    AllBound (tellLate s t).work.groups := by
  unfold tellLate
  grind [tellFault_bounds, foldl_bounds, groupBound_blank, GroupBound, AllBound.group]

theorem countDown_bounds {s : State} (h : AllBound s.work.groups) (t : ℕ) (off : ℕ) (n : ℕ) :
    AllBound (countDown s t off n).work.groups := by
  unfold countDown
  grind [tellLate_bounds, modTeam_groups]

theorem copyCountDown_bounds {s : State} (h : AllBound s.work.groups) (t : ℕ) (r : List Byte) (n : ℕ) :
    AllBound (copyCountDown s t r n).work.groups := by
  unfold copyCountDown
  grind [countDown_bounds]

theorem dropSuspended_bounds {s : State} (h : AllBound s.work.groups) (t : ℕ) (c : ℕ) (k : Copy) :
    AllBound (dropSuspended s t c k).work.groups := by
  unfold dropSuspended
  grind [setCopy_groups, lowerCopy_bounds, copyCountDown_bounds]

theorem discardFrame_bounds {s : State} (h : AllBound s.work.groups) (g : ℕ) :
    AllBound (discardFrame s g).work.groups := by
  unfold discardFrame
  split
  · exact h
  · next f hf =>
    have h1 : AllBound ((group s g).pend.order.foldl (fun s c => dropRecord s g c) s).work.groups :=
      foldl_bounds (fun _ c hs => dropRecord_bounds hs g c) _ h
    extract_lets s1 x y l0 s2
    have hy : GroupBound y := by
      unfold y
      split
      · exact ((h1.group g).lowerTile ..).ite (h1.group g)
      · exact h1.group g
    have hl : LaneBound { f.lane with park := Park.none, rq := [] } := ⟨((h.group g).2.1 f hf).1, Nat.zero_le _, Nat.zero_le _, Nat.zero_le _⟩
    have h2 : AllBound s2.work.groups := setGroup_bounds h1 g ⟨hy.1, (frameBound_some _).mpr hl, hy.2.2⟩
    refine foldl_bounds (fun s e hs => ?_) _ h2
    split
    · exact ite_bounds (dropSuspended_bounds hs ..) hs
    · exact hs

theorem endGroup_bounds {s : State} (h : AllBound s.work.groups) (g : ℕ) :
    AllBound (endGroup s g).work.groups := by
  unfold endGroup
  grind [freeGroup_bounds, freeTeam_bounds, modLaunch_groups, settleBars_groups]

theorem retireTraced_bounds {s : State} (h : AllBound s.work.groups) (f : State → ℕ → State) (hf : ∀ s a, AllBound s.work.groups → AllBound (f s a).work.groups) :
    AllBound (retireTraced s f).work.groups := by
  unfold retireTraced
  grind [retireTo_bounds, tracedTo_bounds]

theorem release_bounds {s : State} (h : AllBound s.work.groups) (g : ℕ) (i : Instr) (r : RqRec) :
    AllBound (release s g i r).work.groups := by
  unfold release
  split
  · exact wait_bounds h i
  · next room =>
    have same := (onlyTrace_aheadNow s).sameBounds g
    refine retireTraced_bounds (modGroup_bounds (aheadNow_bounds h) g fun hx => hx.appendRecord ?_ r) _ fun s g hs => ?_
    · rw [not_le] at room
      simpa only [rqLength, same.1] using room
    · split <;> exact emitGroup_bounds hs ..

theorem whenIssued_bounds {s : State} (h : AllBound s.work.groups) (g : ℕ) (i : Instr) (k : State → State) (hk : ∀ s, AllBound s.work.groups → AllBound (k s).work.groups) :
    AllBound (whenIssued s g i k).work.groups := by
  unfold whenIssued
  grind [wait_bounds]

theorem waitCounter_bounds {s : State} (h : AllBound s.work.groups) (d : SReg) (a : SReg) (i : Instr) (v : Group → ℕ) :
    OutBound (waitCounter d a i v s) := by
  unfold waitCounter
  grind [onGroup_bounds, whenIssued_bounds, result_bounds, wait_bounds]

theorem notParked_bounds {s : State} (h : AllBound s.work.groups) (g : ℕ) (i : Instr) (k : State → State) (hk : ∀ s, AllBound s.work.groups → AllBound (k s).work.groups) :
    AllBound (notParked s g i k).work.groups := by
  unfold notParked
  split
  · exact hk s h
  · exact wait_bounds (modGroup_bounds h g GroupBound.endRunOn) i

theorem clobber_bounds {s : State} (h : AllBound s.work.groups) (cause : ℕ) (a : Word) :
    AllBound (clobber s cause a).work.groups := by
  unfold clobber
  grind [raiseScalar_bounds]

theorem withBar_bounds {s : State} (h : AllBound s.work.groups) (g : ℕ) (a : Word) (own : Bool) (useSc : Bool) (w : Bool) (k : State → ℕ → ℕ → State) (hk : ∀ s a b, AllBound s.work.groups → AllBound (k s a b).work.groups) :
    AllBound (withBar s g a own useSc w k).work.groups := by
  unfold withBar
  grind [illegal_bounds, raiseScalar_bounds]

theorem removeBooth_bounds {s : State} (h : AllBound s.work.groups) (t : ℕ) (off : ℕ) :
    AllBound (removeBooth s t off).work.groups := by
  unfold removeBooth
  grind [modTeam_groups, modGroup_bounds, foldl_bounds, groupBound_blank, GroupBound, AllBound.group]

theorem withNodeScope_bounds {s : State} (h : AllBound s.work.groups) (g : ℕ) (c : Scope) (k : State → State) (hk : ∀ s, AllBound s.work.groups → AllBound (k s).work.groups) :
    AllBound (withNodeScope s g c k).work.groups := by
  unfold withNodeScope
  grind [illegal_bounds]

theorem declareBooth_bounds {s : State} (h : AllBound s.work.groups) (g : ℕ) (off : ℕ) (cap : ℕ) (rowsz : ℕ) :
    AllBound (declareBooth s g off cap rowsz).work.groups := by
  unfold declareBooth
  grind [modGroup_bounds, raiseScalar_bounds, retire_bounds, setTeam_work_groups, GroupBound, AllBound.group]

theorem boothRequest_bounds {s : State} (h : AllBound s.work.groups) (d : SReg) (a : SReg) (b : SReg) (w : Bool) (i : Instr) :
    OutBound (boothRequest d a b w i s) := by
  refine onGroup_bounds h fun g => ?_
  dsimp only
  split
  · exact illegal_bounds h 1
  refine ite_bounds (raiseScalar_bounds h _) (ite_bounds (raiseScalar_bounds h _) ?_)
  split
  · exact afterLanes_bounds h g i _ fun s hs => modGroup_bounds hs g fun hx => hx
  · exact raiseScalar_bounds h _

theorem handOver_bounds {s : State} (h : AllBound s.work.groups) (g : ℕ) (a : SReg) (off : ℕ) (r : List Byte) :
    AllBound (handOver s g a off r).work.groups := by
  unfold handOver
  dsimp only
  split
  · exact wait_bounds h _
  · next m _ =>
    split
    · exact wait_bounds h _
    · next room =>
      simp only [not_or, not_and, not_le] at room
      obtain ⟨-, hcopies, hk⟩ := room
      refine retire_bounds ?_
      rw [copyEvent_groups, setCopy_groups]
      refine setGroup_bounds (by rwa [newName_groups]) g ?_
      split
      · next hf => exact ((h.group g).raiseCopies hcopies).raiseK (hk hf) _
      · exact (h.group g).raiseCopies hcopies

theorem writeTile_bounds {s : State} (h : AllBound s.work.groups) (g : ℕ) (i : Instr) (t : TReg) (whole : Bool) (f : TileDesc → TileDesc) :
    AllBound (writeTile s g i t whole f).work.groups := by
  unfold writeTile
  split
  · refine retire_bounds (modGroup_bounds h g fun hx => ?_)
    dsimp only
    split <;> exact hx
  · exact wait_bounds h i

theorem withPages_bounds {s : State} (h : AllBound s.work.groups) (g : ℕ) (i : Instr) (va : Word) (n : ℕ) (mode : ℕ) (k : State → State) (hk : ∀ s, AllBound s.work.groups → AllBound (k s).work.groups) :
    AllBound (withPages s g i va n mode k).work.groups := by
  unfold withPages
  grind [checkPages_groups, wait_bounds, raiseScalar_bounds, clearFaults_groups]

theorem withObject_bounds {s : State} (h : AllBound s.work.groups) (g hd : Nat) {k : Nat → Nat → CObj → State}
    (hk : ∀ gd e o, AllBound (k gd e o).work.groups) : AllBound (withObject s g hd k).work.groups := by
  unfold withObject
  split
  · exact hk ..
  · exact raiseScalar_bounds h _

theorem collective_bounds {s : State} (h : AllBound s.work.groups) (fn : ℕ) (a : SReg) (b : SReg) (i : Instr) :
    OutBound (collective fn a b i s) := by
  unfold collective
  grind [onGroup_bounds, notParked_bounds, illegal_bounds, raiseScalar_bounds, wait_bounds]

theorem dropSusp_bounds {s : State} (h : AllBound s.work.groups) (c : ℕ) (k : Coll) :
    AllBound (dropSusp s c k).work.groups := by
  unfold dropSusp
  grind [modGroup_bounds, foldl_bounds, groupBound_blank, GroupBound, AllBound.group]

theorem privileged_bounds {s : State} (h : AllBound s.work.groups) (min : BitVec 2) {k : Nat → State} (hk : ∀ g, AllBound (k g).work.groups) :
    OutBound (privileged s min k) := by
  refine onGroup_bounds h fun g => ?_
  split
  · exact illegal_bounds h 3
  · exact hk g

theorem beginReset_bounds {s : State} (h : AllBound s.work.groups) (p : ℕ) :
    AllBound (beginReset s p).work.groups := by
  unfold beginReset
  grind [releaseQueues_groups, setPreg_work, killEverywhere_bounds, dropJoining_groups, foldl_bounds, groupBound_blank, GroupBound, AllBound.group]

theorem setTrace_bounds {s : State} (h : AllBound s.work.groups) (l : Nat) (on : Bool) : AllBound (setTrace s l on).work.groups := by
  refine AllBound.map (t := (modLaunch s l fun x => { x with trace := on }).work.groups) h fun e => ?_
  split <;> exact ⟨rfl, rfl, rfl⟩

theorem regPut_bounds {s₀ : State} (h : AllBound s₀.work.groups) (p : ℕ) (r : ℕ) (v : Word) :
    AllBound (regPut s₀ p r v).work.groups := by
  unfold regPut
  grind [setPreg_work, beginReset_bounds, startSink_groups, setSink_work, setTrace_bounds]

theorem invalidate_bounds {s : State} (h : AllBound s.work.groups) (i : Instr) (ds : List ℕ) (cov : ℕ → BitVec 8 → ℕ → ℕ → Bool) (k : State → State) (hk : ∀ s, AllBound s.work.groups → AllBound (k s).work.groups) :
    AllBound (invalidate s i ds cov k).work.groups := by
  unfold invalidate
  grind [wait_bounds, dropTlb_groups, foldl_bounds, groupBound_blank, GroupBound, AllBound.group]

theorem askAnswer_bounds {s : State} (h : AllBound s.work.groups) (g : ℕ) (i : Instr) (va : Word) (reason : ℕ) (k : State → ℕ → State) (hk : ∀ s a, AllBound s.work.groups → AllBound (k s a).work.groups) :
    AllBound (askAnswer s g i va reason k).work.groups := by
  unfold askAnswer
  grind [modGroup_bounds, wait_bounds, askHome_groups, clearFaults_groups, raiseScalar_bounds, GroupBound, AllBound.group]

theorem clearSnaps_bounds {s : State} (h : AllBound s.work.groups) (flat : ℕ) (n : ℕ) :
    AllBound (clearSnaps s flat n).work.groups := AllBound.map h fun _ => ⟨rfl, rfl, rfl⟩

theorem zeroPhys_bounds {s : State} (h : AllBound s.work.groups) (flat : ℕ) (n : ℕ) :
    AllBound (zeroPhys s flat n).work.groups := by
  unfold zeroPhys
  grind [cleanBad_groups, clearSnaps_bounds]

theorem scrubWay_bounds {s : State} (h : AllBound s.work.groups) (gd : ℕ) (w : ℕ) :
    AllBound (scrubWay s gd w).work.groups := by
  unfold scrubWay
  grind [zeroPhys_bounds]

theorem pmapAt_bounds {s : State} (h : AllBound s.work.groups) (gd : ℕ) (p : ℕ) (asn : BitVec 8) (va : Word) (w : Word) :
    AllBound (pmapAt s gd p asn va w).1.work.groups := by
  unfold pmapAt
  grind [zeroPhys_bounds, modDie_groups]

theorem inWalk_bounds {s : State} (h : AllBound s.work.groups) {k : Nat → Walk → State} (hk : ∀ w x, AllBound (k w x).work.groups) :
    OutBound (inWalk s k) := by
  unfold inWalk
  split
  · split
    · exact (outBound_next _).mpr (hk ..)
    · exact (outBound_next _).mpr h
  · exact (outBound_next _).mpr (illegal_bounds h 3)
  · exact (outBound_next _).mpr h

theorem inHandlerOnly_bounds {s : State} (h : AllBound s.work.groups) {k : Nat → Frame → State}
    (hk : ∀ g f, (group s g).handler = some f → AllBound (k g f).work.groups) : OutBound (inHandlerOnly s k) := by
  refine privileged_bounds h 1 fun g => ?_
  split
  · next f hf => exact hk g f hf
  · exact illegal_bounds h 3

theorem raiseClobbers_bounds {s : State} (h : AllBound s.work.groups) (g : ℕ) :
    AllBound (raiseClobbers s g).work.groups := by
  simp only [raiseClobbers]
  split
  · exact h
  · exact raiseStream_bounds (modGroup_bounds h g fun hx => hx) ..

theorem returnException_bounds {s : State} (h : AllBound s.work.groups) (g : ℕ) :
    AllBound (returnException s g).work.groups := by
  unfold returnException
  extract_lets x
  split
  · exact h
  · next f hf =>
    have hl : LaneBound f.lane := (h.group g).2.1 f hf
    extract_lets x1 x2 x3 p l0 lane fly s1
    have same : SameBounds x x3 := (SameBounds.foldl (fun y e => sameBounds_setSregOf ..) _ x).trans (SameBounds.foldl (fun y e => sameBounds_setVreg ..) _ x1)
    have hlane : LaneBound lane := by
      simp only [lane]
      split
      · exact hl
      · exact ⟨hl.1, hl.2.2.1, hl.2.2.1, hl.2.1⟩
    have hs1 : AllBound s1.work.groups := setGroup_bounds h g ⟨hlane, frameBound_none, (same.bound (h.group g)).2.2⟩
    exact raiseClobbers_bounds (emitSync_bounds (by rwa [resumeEngines_groups]) ..) g

theorem raiseLane_bounds {s : State} (h : AllBound s.work.groups) (g : ℕ) (r : FaultRec) :
    AllBound (raiseLane s g r).work.groups := by
  simp only [raiseLane]
  refine raiseStream_bounds (setGroup_bounds h g ?_) ..
  split
  · exact (h.group g).endReplay ..
  · exact h.group g

theorem laneTrap_bounds {s : State} (h : AllBound s.work.groups) (g : ℕ) (cause : ℕ) :
    AllBound (laneTrap s g cause).work.groups := by
  unfold laneTrap
  grind [raiseLane_bounds]

theorem laneAdvance_bounds {s : State} (h : AllBound s.work.groups) (g : ℕ) (n : ℕ) (time : ℕ) :
    AllBound (laneAdvance s g n time).work.groups := by
  have hl : LaneBound (countIssue (advanceLane (group s g).lane n)) := ((h.group g).1.advance n).countIssue
  simp only [laneAdvance]
  split
  · exact raiseClobbers_bounds (emitGroupAt_bounds (modGroup_bounds (traceAhead_bounds h ..) g fun hx => ⟨hl.resumeStop, hx.2⟩) ..) g
  · exact modGroup_bounds h g fun hx => ⟨hl, hx.2⟩

theorem laneDone_bounds {s : State} (h : AllBound s.work.groups) (g : ℕ) (n : ℕ) (time : ℕ) (f : Mask) (recs : Tab FaultRec) (drop : Tab (List ℕ)) :
    AllBound (laneDone s g n time f recs drop).work.groups := by
  simp only [laneDone]
  split
  · exact laneAdvance_bounds h ..
  split
  · exact unhandled_bounds h ..
  · have ha := traceAhead_bounds h g time
    refine emitGroupAt_bounds ?_ ..
    split
    · exact setGroup_bounds ha g ((ha.group g).endReplay ..)
    · exact laneAdvance_bounds (setGroup_bounds ha g ((ha.group g).parkLanes ..)) ..

theorem laneIssueAt_bounds {s : State} (h : AllBound s.work.groups) (g n : Nat) (u : Use) (ex : Group → List Bool) {eff : Group → Group}
    (heff : ∀ x, SameBounds x (eff x)) : AllBound (laneIssueAt s g n u ex eff).work.groups := by
  have issued : AllBound (laneAdvance (setGroup s g (eff (group s g))) g n (now s)).work.groups :=
    laneAdvance_bounds (setGroup_bounds h g ((heff _).bound (h.group g))) ..
  simp only [laneIssueAt]
  split
  · exact modGroup_bounds h g fun hx => hx
  split
  · exact laneTrap_bounds h ..
  split
  · exact issued
  split
  · exact issued
  · exact raiseLane_bounds h ..
  · exact laneDone_bounds (setGroup_bounds h g (((heff _).bound ((h.group g).withoutLanes _)).withLanes _)) ..

theorem laneIssue_bounds {s : State} (h : AllBound s.work.groups) (n : Nat) (u : Use) (ex : Group → List Bool) {eff : Group → Group}
    (heff : ∀ x, SameBounds x (eff x)) : OutBound (laneIssue s n u ex eff) :=
  onGroup_bounds h fun g => laneIssueAt_bounds h g n u ex heff
theorem laneOp_bounds {s : State} (h : AllBound s.work.groups) (c : LaneCtl) (u : Use) {eff : Group → List Bool → Group}
    (heff : ∀ x ex, SameBounds x (eff x ex)) : OutBound (laneOp s c u eff) := laneIssue_bounds h _ _ _ fun x => heff x _

theorem intBin_bounds {s : State} (h : AllBound s.work.groups) (f : ℕ → Word → Word → Word) (x : IntBin) :
    OutBound (intBin f x s) := by
  simp only [intBin]
  exact laneOp_bounds h _ _ fun _ _ => sameBounds_putWide ..

theorem intUn_bounds {s : State} (h : AllBound s.work.groups) (f : ℕ → Word → Word) (x : IntUn) :
    OutBound (intUn f x s) := by
  simp only [intUn]
  exact laneOp_bounds h _ _ fun _ _ => sameBounds_putWide ..

theorem packedOp_bounds {s : State} (h : AllBound s.work.groups) (w : Nat) (c : LaneCtl) (u : Use) {eff : Group → List (BitVec 4) → Group}
    (heff : ∀ x ex, SameBounds x (eff x ex)) : OutBound (packedOp s w c u eff) := laneIssue_bounds h _ _ _ fun x => heff x _

theorem packBin_bounds {s : State} (h : AllBound s.work.groups) (f : ℕ → Word → Word → Word) (x : PackBin) :
    OutBound (packBin f x s) := by
  simp only [packBin]
  exact packedOp_bounds h _ _ _ fun _ _ => sameBounds_putPacked ..

theorem packCmp_bounds {s : State} (h : AllBound s.work.groups) (cc : ℕ) (x : PackCmp) :
    OutBound (packCmp cc x s) := by
  simp only [packCmp]
  exact packedOp_bounds h _ _ _ fun _ _ => sameBounds_putPredBytes ..

theorem move_bounds {s : State} (h : AllBound s.work.groups) (wide : Bool) (x : MovArgs) :
    OutBound (move wide x s) := by
  simp only [move]
  exact laneOp_bounds h _ _ fun _ _ => sameBounds_putWide ..

theorem fpBin_bounds {s : State} (h : AllBound s.work.groups) (f : ℕ → FVal → FVal → FVal) (x : FpBin) :
    OutBound (fpBin f x s) := by
  simp only [fpBin]
  exact laneOp_bounds h _ _ fun _ _ => sameBounds_putWide ..

theorem fpTern_bounds {s : State} (h : AllBound s.work.groups) (f : ℕ → FVal → FVal → FVal → FVal) (x : FpTern) :
    OutBound (fpTern f x s) := by
  simp only [fpTern]
  exact laneOp_bounds h _ _ fun _ _ => sameBounds_putWide ..

theorem fpSel_bounds {s : State} (h : AllBound s.work.groups) (f : Fmt → ℕ → ℕ → ℕ) (x : FpSel) :
    OutBound (fpSel f x s) := by
  simp only [fpSel]
  exact laneOp_bounds h _ _ fun _ _ => sameBounds_putWide ..

theorem fpBits_bounds {s : State} (h : AllBound s.work.groups) (f : Fmt → ℕ → ℕ) (x : FpBits) :
    OutBound (fpBits f x s) := by
  simp only [fpBits]
  exact laneOp_bounds h _ _ fun _ _ => sameBounds_putWide ..

theorem halfBin_bounds {s : State} (h : AllBound s.work.groups) (f : ℕ → FVal → FVal → FVal) (x : HBin) :
    OutBound (halfBin f x s) := by
  simp only [halfBin]
  exact packedOp_bounds h _ _ _ fun _ _ => sameBounds_putPacked ..

theorem halfSel_bounds {s : State} (h : AllBound s.work.groups) (f : Fmt → ℕ → ℕ → ℕ) (x : HSel) :
    OutBound (halfSel f x s) := by
  simp only [halfSel]
  exact packedOp_bounds h _ _ _ fun _ _ => sameBounds_putPacked ..

theorem halfCmp_bounds {s : State} (h : AllBound s.work.groups) (cc : ℕ) (x : HCmp) :
    OutBound (halfCmp cc x s) := by
  simp only [halfCmp]
  exact packedOp_bounds h _ _ _ fun _ _ => sameBounds_putPredBytes ..

theorem special_bounds {s : State} (h : AllBound s.work.groups) (f : ℕ → ℕ) (x : SfArgs) :
    OutBound (special f x s) := by
  simp only [special]
  exact laneOp_bounds h _ _ fun _ _ => sameBounds_putLanes ..

theorem predBin_bounds {s : State} (h : AllBound s.work.groups) (f : BitVec 4 → BitVec 4 → BitVec 4) (x : PredBin) :
    OutBound (predBin f x s) := by
  simp only [predBin]
  exact laneOp_bounds h _ _ fun _ _ => sameBounds_putNibbles ..

theorem predMov_bounds {s : State} (h : AllBound s.work.groups) (f : LWord → BitVec 4) (x : PredMov) :
    OutBound (predMov f x s) := by
  simp only [predMov]
  exact laneOp_bounds h _ _ fun _ _ => sameBounds_putNibbles ..

theorem maskDone_bounds {s : State} (h : AllBound s.work.groups) (g : Nat) {eff : Group → LaneCtx} (he : LaneBound (eff (group s g))) :
    AllBound (maskDone s g eff).work.groups := laneAdvance_bounds (modGroup_bounds h g fun hx => ⟨he, hx.2⟩) ..

theorem maskOp_bounds {s : State} (h : AllBound s.work.groups) (cond : Option PReg) {trap : LaneCtx → Option Nat} {eff : Group → LaneCtx}
    {emit : State → Nat → State} (he : ∀ x, GroupBound x → trap x.lane = none → LaneBound (eff x))
    (hemit : ∀ s g, AllBound s.work.groups → AllBound (emit s g).work.groups) : OutBound (maskOp s cond trap eff emit) := by
  refine onGroup_bounds h fun g => ?_
  dsimp only
  split
  · exact modGroup_bounds h g fun hx => hx
  split
  · exact raiseLane_bounds h ..
  next ht =>
  have ahead := onlyTrace_traceAhead s g (now s)
  refine ite_bounds (raiseLane_bounds h ..) (hemit _ _ (maskDone_bounds (traceAhead_bounds h ..) g (he _ ((traceAhead_bounds h ..).group g) ?_)))
  rwa [(ahead.sameBounds g).1]

theorem emitMask_bounds {s : State} (h : AllBound s.work.groups) (sub : ℕ) (g : ℕ) :
    AllBound (emitMask sub s g).work.groups := by
  unfold emitMask
  grind [emitGroup_bounds]

theorem shuffle_bounds {s : State} (h : AllBound s.work.groups) (op : ℕ) (x : ShflArgs) :
    OutBound (shuffle op x s) := by
  simp only [shuffle]
  refine laneOp_bounds h _ _ fun x ex => ?_
  split
  · exact (sameBounds_putWide ..).trans (sameBounds_putNibbles ..)
  · exact sameBounds_putWide ..

theorem scratchLane_bounds {s : State} (h : AllBound s.work.groups) (g : ℕ) (m : LaneMem) (i : ℕ) (off : ℕ) (hi : Bool) :
    AllBound (scratchLane s g m i off hi).1.work.groups := by
  have put : ∀ {x : Group}, SameBounds (group s g) x → AllBound (setGroup s g x).work.groups := fun e => setGroup_bounds h g (e.bound (h.group g))
  unfold scratchLane
  dsimp only
  split
  · exact put (sameBounds_putLane ..)
  · exact put (sameBounds_putSlot ..)
  · exact h
  · split
    · exact put (sameBounds_putLane ..)
    · exact put (sameBounds_putLane ..)
  · exact h
  · exact h

theorem homeLane_bounds {s : State} (h : AllBound s.work.groups) (g : ℕ) (m : LaneMem) (snap : Option (List Host.Cell)) (i : ℕ) (va : Word) (hi : Bool) (gs : List Seg) :
    AllBound (homeLane s g m snap i va hi gs).1.work.groups := by
  unfold homeLane
  dsimp only
  split
  · exact modGroup_bounds (by rwa [readRo_groups]) g (sameBounds_putLane ..).bound
  · exact modGroup_bounds (by rwa [homeRead_groups]) g (sameBounds_putSlot ..).bound
  · split
    · exact h
    · rwa [noteUpdate_groups, writeSegs_groups, settle_groups]
  · exact modGroup_bounds (by rwa [homeAtomic_groups]) g (sameBounds_putLane ..).bound
  · rwa [homeWrite_groups]
  · rwa [homeAcc_groups]

theorem serveLane_bounds {s : State} (h : AllBound s.work.groups) (g : ℕ) (a : LaneAcc) (i : ℕ) :
    AllBound (serveLane s g a i).1.work.groups := by
  unfold serveLane
  grind [laneFault_groups, scratchLane_bounds, laneServed_groups, xlate_groups, homeLane_bounds, noteRo_groups]

theorem emitSample_bounds {s : State} (h : AllBound s.work.groups) (g : ℕ) (p : Sample) :
    AllBound (emitSample s g p).work.groups := by
  unfold emitSample
  grind [emitGroup_bounds]

theorem stepSample_bounds {s : State} (h : AllBound s.work.groups) (g : ℕ) (ex : Mask) (done : Mask) (last : ℕ) (faulted : Bool) :
    AllBound (stepSample s g ex done last faulted).work.groups := by
  unfold stepSample
  grind [emitSample_bounds, setGroup_bounds, GroupBound, AllBound.group]

theorem endLaneMem_bounds {s : State} (h : AllBound s.work.groups) (g : ℕ) (a : LaneAcc) :
    AllBound (endLaneMem s g a).work.groups := by
  simp only [endLaneMem]
  refine raiseClobbers_bounds (laneDone_bounds (modGroup_bounds (stepSample_bounds ?_ ..) g fun hx => ?_) ..) g
  · rw [cleanRuns_groups, clearFaults_groups]
    exact ite_bounds (traceAhead_bounds h ..) h
  · exact ⟨(hx.1.noteClobbers _).stopAfter .., hx.2.1, hx.2.2⟩

theorem foldl_serveLane_bounds (g : Nat) (ls : List Nat) {s : State} (h : AllBound s.work.groups) (a : LaneAcc) :
    AllBound (ls.foldl (fun (p : State × LaneAcc) i => serveLane p.1 g p.2 i) (s, a)).1.work.groups := by
  induction ls generalizing s a with
  | nil => exact h
  | cons i ls ih => exact ih (serveLane_bounds h g a i) _

theorem serveLanes_bounds {s : State} (h : AllBound s.work.groups) (g : Nat) : AllBound (serveLanes s g).work.groups := by
  unfold serveLanes
  split
  · exact h
  · next a _ =>
    have hs := foldl_serveLane_bounds g (lanesOf a.left) h a
    dsimp only
    split
    · exact endLaneMem_bounds hs ..
    · exact modGroup_bounds hs g fun hx => hx

theorem noteSample_bounds {s : State} (h : AllBound s.work.groups) (g : ℕ) (ex : Mask) (sectors : List ℕ) (flags : ℕ) :
    AllBound (noteSample s g ex sectors flags).work.groups := by
  unfold noteSample
  grind [setGroup_bounds, GroupBound, AllBound.group]

/-- The outstanding counters of an issue of a lane memory instruction rise only where they have room (R63). -/
theorem memRaised_bound {x : Group} (h : GroupBound x) {o : LaneMem} {fly : InFlight}
    (room : ¬((o.counted && decide (0xFFFF ≤ x.cnt.loads)) || (o.writes && decide (0xFFFF ≤ x.cnt.stores))) = true) :
    GroupBound { x with
      fly := fly
      cnt := { x.cnt with loads := x.cnt.loads + if o.counted then 1 else 0, stores := x.cnt.stores + if o.writes then 1 else 0 } } := by
  obtain ⟨hl, hs, hc, ht, -⟩ := h.2.2
  simp only [Bool.or_eq_true, Bool.and_eq_true, decide_eq_true_eq, not_or, not_and, not_le] at room
  refine GroupBound.counters (x := { x with fly := fly }) h rfl ?_ ?_ hc ht <;> grind

theorem memIssue_bounds {s : State} (h : AllBound s.work.groups) (c : LaneCtl) (u : Use) (m : Group → LaneMem) :
    OutBound (memIssue s c u m) := by
  refine onGroup_bounds h fun g => ?_
  dsimp only
  split
  · exact modGroup_bounds h g fun hx => hx
  split
  · exact laneTrap_bounds h ..
  split
  · exact h
  next room =>
  refine serveLanes_bounds (ite_bounds (noteSample_bounds ?_ ..) ?_) g <;>
    exact setGroup_bounds h g (memRaised_bound (h.group g) room)

theorem prefetch_bounds {s : State} (h : AllBound s.work.groups) (c : LaneCtl) (ro : Bool) (src : List ℕ) (addrs : Group → List (Word × Bool)) :
    OutBound (prefetch s c ro src addrs) := by
  refine onGroup_bounds h fun g => ?_
  dsimp only
  split
  · exact laneTrap_bounds h ..
  · exact laneAdvance_bounds (foldl_bounds (fun s va hs => by rwa [prefetchLine_groups]) _
      (stepSample_bounds (noteSample_bounds h ..) ..)) ..

theorem boothIssue_bounds {s : State} (h : AllBound s.work.groups) (g : Nat) (x : VBoothArgs) (u : Use) {k : Group → Mask → State}
    (hk : ∀ y ex, AllBound (k y ex).work.groups) : AllBound (boothIssue s g x u k).work.groups := by
  simp only [boothIssue]
  split
  · exact modGroup_bounds h g fun hx => hx
  split
  · exact laneTrap_bounds h ..
  split
  · exact raiseLane_bounds h ..
  · exact hk ..

theorem vboothDone_bounds {s : State} (h : AllBound s.work.groups) (g : ℕ) (d : ℕ) (v : Word) (sectors : List ℕ) (last : ℕ) :
    AllBound (vboothDone s g d v sectors last).work.groups := by
  simp only [vboothDone]
  exact laneAdvance_bounds (modGroup_bounds (stepSample_bounds (modGroup_bounds h g fun hx => hx) ..) g (sameBounds_setSregOf ..).bound) ..

theorem slotOp_bounds {s : State} (h : AllBound s.work.groups) (f : LA → LA → LA) (reads : Bool) (x : QTwo) :
    OutBound (slotOp f reads x s) := by
  simp only [slotOp]
  exact laneOp_bounds h _ _ fun _ _ => sameBounds_putSlots ..

theorem accumulate_bounds {s : State} (h : AllBound s.work.groups) (c : LaneCtl) (u : Use) (t : CType) (d : ℕ) (vals : Group → List (List FVal)) :
    OutBound (accumulate s c u t d vals) := by
  simp only [accumulate]
  split
  · exact packedOp_bounds h _ _ _ fun _ _ => ⟨rfl, rfl, rfl⟩
  · exact laneOp_bounds h _ _ fun _ _ => ⟨rfl, rfl, rfl⟩

theorem tileIllegal_bounds {s : State} (h : AllBound s.work.groups) (g : ℕ) (cause : ℕ) :
    AllBound (tileIllegal s g cause).work.groups := by
  unfold tileIllegal
  grind [raiseLane_bounds]

theorem tileIssue_bounds {s : State} (h : AllBound s.work.groups) (i : TileIns) :
    OutBound (tileIssue i s) := by
  refine onGroup_bounds h fun g => ?_
  dsimp only
  split
  · exact h
  refine ite_bounds (modGroup_bounds h g fun hx => hx) (ite_bounds (tileIllegal_bounds h ..) (ite_bounds (raiseLane_bounds h ..) ?_))
  split
  · exact tileIllegal_bounds h ..
  split
  · exact raiseLane_bounds h ..
  · exact modGroup_bounds h g fun hx => hx

theorem oldest_mem {s : State} {time : Group → Nat} {gs : List Nat} {g : Nat} (h : oldest s time gs = some g) : g ∈ gs := by
  have step : ∀ (l : List Nat) (a : Option Nat) (P : Nat → Prop), (∀ b, a = some b → P b) → (∀ b ∈ l, P b) →
      ∀ b, l.foldl (fun a g => match a with
        | none => some g
        | some b =>
          let x := group s g
          let y := group s b
          if time x < time y ∨ (time x = time y ∧ x.phys < y.phys) then some g else some b) a = some b → P b := by
    intro l
    induction l with
    | nil => exact fun a P ha _ => ha
    | cons c l ih =>
      intro a P ha hl
      have hc := hl c (by simp)
      refine ih _ P (fun b hb => ?_) fun b hb => hl b (by simp [hb])
      cases a with
      | none => cases hb; exact hc
      | some d =>
        dsimp only at hb
        split at hb <;> cases hb
        · exact hc
        · exact ha _ rfl
  exact step gs none (· ∈ gs) (fun _ hb => nomatch hb) (fun _ hb => hb) g h

/-- What the slot table chooses is ready (R314). -/
theorem slotChoice_ready {s : State} {c q g : Nat} {ready : Nat → Bool} {time : Group → Nat} (h : slotChoice s c q ready time = some g) :
    ready g = true := by
  obtain ⟨p, -, hp⟩ := List.exists_of_findSome?_eq_some h
  exact (List.mem_filter.mp (List.mem_filter.mp (oldest_mem hp)).1).2

theorem entryChoice_wants {s : State} {c g : Nat} (h : entryChoice s c = some g) : wantsEntry s g = true := by
  unfold entryChoice at h
  split at h
  · cases h
  · obtain ⟨k, -, hk⟩ := List.exists_of_findSome?_eq_some h
    exact slotChoice_ready hk

/-- A tile instruction that enters the queue has room in the counters that it raises (R261). -/
theorem wantsEntry_room {s : State} {g : Nat} {t : TileOp} (h : wantsEntry s g = true) (ht : tileOf (group s g) = some t) :
    t.raised = false → (group s g).cnt.tiles < 0xFFFF ∧ ∀ k, tileCounter t.ins = some k → kcount (group s g) k < 0xFFFF := by
  intro hr
  simp only [wantsEntry, ht, Option.any_some, hr, Bool.false_or, Bool.and_eq_true, decide_eq_true_eq] at h
  refine ⟨h.2.1, fun k hk => ?_⟩
  simpa only [hk, Option.all_some, decide_eq_true_eq] using h.2.2

theorem tileEnter_bounds {s : State} (h : AllBound s.work.groups) (g : Nat) : AllBound (tileEnter s g).work.groups := by
  unfold tileEnter
  split
  · exact h
  next hc =>
  split
  · exact h
  next t ht =>
  have room := wantsEntry_room (entryChoice_wants (not_not.mp hc)) ht
  cases hr : t.raised
  · obtain ⟨ht, hk⟩ := room hr
    simp only [Bool.false_eq_true, if_false]
    rw [tileEvent_groups, modCore_groups]
    refine setGroup_bounds (by rwa [newName_groups]) g (GroupBound.putTile ?_ _)
    split
    · next k e => exact ((h.group g).raiseTiles ht).raiseK (hk k e) _
    · exact (h.group g).raiseTiles ht
  · simp only [if_true]
    rw [tileEvent_groups, modCore_groups]
    exact setGroup_bounds h g ((h.group g).putTile _)

theorem tilePend_bounds {s : State} (h : AllBound s.work.groups) (g : ℕ) (own : Bool) (r : FaultRec) :
    AllBound (tilePend s g own r).work.groups := by
  unfold tilePend
  grind [unhandled_bounds, modGroup_bounds, GroupBound, AllBound.group]

theorem abandonTile_bounds {s : State} (h : AllBound s.work.groups) (g : ℕ) (hold : Bool) :
    AllBound (abandonTile s g hold).work.groups := by
  unfold abandonTile
  split
  · exact h
  · refine modGroup_bounds ?_ g fun hx => hx.putTile _
    rw [modCore_groups, clearFaults_groups]
    split
    · rwa [tileEventHold_groups]
    · exact h

theorem tileFault_bounds {s : State} (h : AllBound s.work.groups) (g : ℕ) (r : FaultRec) :
    AllBound (tileFault s g r).work.groups := by
  unfold tileFault
  grind [tilePend_bounds, abandonTile_bounds]

theorem tileTurn_bounds {s : State} (h : AllBound s.work.groups) (g : ℕ) :
    AllBound (tileTurn s g).work.groups := by
  unfold tileTurn
  split
  · exact h
  next t _ =>
  split
  · exact h
  have run : ∀ {s' : State} (f : Group → Option TileOp), s'.work.groups = s.work.groups → ∀ k,
      AllBound (modGroup (modTeam (clearFaults s' (.tile g)) (group (clearFaults s' (.tile g)) g).team k) g fun x => putTile x (f x)).work.groups :=
    fun f e k => modGroup_bounds (by rwa [modTeam_groups, clearFaults_groups, e]) g fun hx => hx.putTile _
  have hr := turnResult_groups s g t
  dsimp only
  split
  · next e => rw [e] at hr; exact hr ▸ h
  · next e => rw [e] at hr; exact tileFault_bounds (hr ▸ h) ..
  · next e => rw [e] at hr; exact run _ hr _
  · next s' swaps d bs e =>
    rw [e] at hr
    have hw := tileWrite_groups s' g d bs
    split
    · next e => rw [e] at hw; exact run _ (hw.trans hr) _
    · next e => rw [e] at hw; exact hw ▸ hr ▸ h
    · next e => rw [e] at hw; exact tileFault_bounds (hw ▸ hr ▸ h) ..

theorem resEffect_bounds {s : State} (h : AllBound s.work.groups) (g : ℕ) (t : TileOp) (x : ResArgs) :
    AllBound (resEffect s g t x).work.groups := by
  unfold resEffect
  exact modGroup_bounds (ite_bounds (by rwa [modTeam_groups]) h) g (sameBounds_setSregOf ..).bound

theorem commitEffect_bounds {s : State} (h : AllBound s.work.groups) (g : ℕ) (t : TileOp) :
    AllBound (commitEffect s g t).work.groups := by
  unfold commitEffect
  grind [resEffect_bounds, relEffect_groups, modTeam_groups]

theorem tileDone_bounds {s : State} (h : AllBound s.work.groups) (g : ℕ) :
    AllBound (tileDone s g).work.groups := by
  have hy : GroupBound (putTile (group s g) none) := (h.group g).putTile none
  simp only [tileDone]
  split
  · exact setGroup_bounds h g ⟨hy.1, hy.2.1.map fun _ hf => hf.advance 0, hy.2.2⟩
  · exact laneAdvance_bounds (setGroup_bounds h g hy) ..

theorem tileCommit_bounds {s : State} (h : AllBound s.work.groups) (g : ℕ) :
    AllBound (tileCommit s g).work.groups := by
  unfold tileCommit
  split
  · exact h
  next t _ =>
  split
  · exact h
  · have hc : AllBound (modCore (commitEffect (tileEvent s g 4) g t) (coreOf (commitEffect (tileEvent s g 4) g t) g)
        fun k => { k with queue := k.queue.filter (· != g) }).work.groups := by
      rw [modCore_groups]
      exact commitEffect_bounds (by rwa [tileEvent_groups]) g t
    dsimp only
    have hd := tileDone_bounds (setGroup_bounds hc g ((hc.group g).lowerTile t (tileCounter t.ins))) g
    split
    · exact hd
    · exact tilePend_bounds hd ..

theorem asGroup_bounds {s : State} (h : AllBound s.work.groups) (g : Nat) {f : State → State}
    (hf : ∀ s, AllBound s.work.groups → AllBound (f s).work.groups) : AllBound (asGroup s g f).work.groups := hf _ h

theorem takeException_bounds {s : State} (h : AllBound s.work.groups) (g : ℕ) (k : ℕ) (hspc : Word) (hlpc : Word) :
    AllBound (takeException s g k hspc hlpc).work.groups := by
  unfold takeException
  extract_lets s1 x0 delivered recs hmask p0 park l0 frame r bs s58 save s2 x1 x2 x3 x4 x5 x6 x7 x8 x9 x10 mask l1 fly s3
  have h1 : AllBound s1.work.groups := by
    unfold s1
    rw [leaveBooth_groups, dropAgents_groups]
    exact traceStop_bounds h ..
  have hframe : LaneBound frame.lane := (h1.group g).1
  have h2 : AllBound s2.work.groups := by
    unfold s2
    clear_value delivered
    split
    · exact dropRecord_bounds h1 ..
    · exact h1
  have same : SameBounds x1 x10 := by
    have h9 : SameBounds x1 x9 := ((((((((SameBounds.refl x1).setSreg 56 _).setSreg 57 _).setSreg 58 _).setSreg 59 _).setSreg 60 _).setSreg 61 _).setSreg 63 _).setSreg 62 _
    exact h9.trans (sameBounds_giveRecords x9 hmask recs)
  clear_value x10
  have h3 : AllBound s3.work.groups := by
    unfold s3
    exact setGroup_bounds h2 g ⟨⟨Nat.zero_le _, Nat.zero_le _, Nat.zero_le _, Nat.zero_le _⟩, (frameBound_some _).mpr hframe, (same.bound (h2.group g)).2.2⟩
  exact emitSync_bounds h3 ..

theorem vectorGroup_bounds {s : State} (h : AllBound s.work.groups) (g : ℕ) :
    AllBound (vectorGroup s g).work.groups := by
  unfold vectorGroup
  grind [handlerEntry_groups, unhandled_bounds, takeException_bounds, clearFaults_groups]

theorem reportCopy_bounds {s : State} (h : AllBound s.work.groups) (c : ℕ) (k : Copy) (cls : ℕ) :
    AllBound (reportCopy s c k cls).work.groups := by
  unfold reportCopy
  grind [unhandled_bounds, modGroup_bounds, GroupBound, AllBound.group]

theorem suspendCopy_bounds {s : State} (h : AllBound s.work.groups) (t : ℕ) (c : ℕ) (k : Copy) (w : Bool) (a : Word) :
    AllBound (suspendCopy s t c k w a).work.groups := by
  unfold suspendCopy
  grind [reportCopy_bounds, setCopy_groups, clearFaults_groups]

theorem copyStep_bounds {s : State} (h : AllBound s.work.groups) (t : ℕ) (c : ℕ) :
    AllBound (copyStep s t c).work.groups := by
  unfold copyStep
  grind [engineLoad_groups, suspendCopy_bounds, engineStore_groups, engineScratchPut_groups, engineBuffer_groups, setCopy_groups, clearFaults_groups, copyCountDown_bounds]

theorem finishRank_bounds {s : State} (h : AllBound s.work.groups) (c : ℕ) (k : Coll) (o : ℕ) (rank : ℕ) :
    AllBound (finishRank s c k o rank).work.groups := by
  unfold finishRank
  split
  · exact h
  next r _ =>
  split
  · exact h
  · refine tellFault_bounds (foldl_bounds (fun s g hs => modGroup_bounds hs g fun hx => hx.lowerCopies) _ ?_) ..
    dsimp only
    rw [setColl_work_groups]
    exact ite_bounds (countDown_bounds (by exact h) ..) h

theorem finishRanks_bounds {s : State} (h : AllBound s.work.groups) (c : ℕ) (o : ℕ) :
    AllBound (finishRanks s c o).work.groups := by
  unfold finishRanks
  grind [tellFault_bounds, finishRank_bounds, foldl_bounds, groupBound_blank, GroupBound, AllBound.group]

theorem writeRank_bounds {s : State} (h : AllBound s.work.groups) (c : ℕ) (rank : ℕ) (k : ℕ) (bs : List Byte) :
    AllBound (writeRank s c rank k bs).work.groups := by
  unfold writeRank
  grind [writeDesc_groups, rankClean_groups, countDown_bounds, setColl_work_groups]

theorem suspendRank_bounds {s : State} (h : AllBound s.work.groups) (c : ℕ) (k : Coll) (rank : ℕ) (r : CollRank) (w : Bool) (a : Word) :
    AllBound (suspendRank s c k rank r w a).work.groups := by
  unfold suspendRank
  grind [tellGroups_bounds, setColl_work_groups, clearFaults_groups]

theorem rankStop_bounds {s : State} (h : AllBound s.work.groups) (c : ℕ) (k : Coll) (res : RanksRes) :
    AllBound (rankStop s c k res).work.groups := by
  unfold rankStop
  grind [suspendRank_bounds, faultRank_groups]

theorem collEnd_bounds {s : State} (h : AllBound s.work.groups) (c : ℕ) :
    AllBound (collEnd s c).work.groups := by
  unfold collEnd
  split
  · exact h
  next k _ =>
  split
  · exact h
  split
  · rw [dropColl_groups]; exact finishRanks_bounds h ..
  split
  · exact h
  split
  · exact h
  split
  · have hp := probeRanks_groups s c ((rankList k).filter fun e => usesDst e.2.fn e.1 e.2.b)
    dsimp only
    split
    · next e =>
      rw [e] at hp
      rw [dropColl_groups]
      refine finishRanks_bounds ?_ ..
      rw [setColl_work_groups]
      exact foldl_bounds (fun s e hs => writeRank_bounds hs ..) _ (by rw [setColl_work_groups, clearFaults_groups]; exact hp ▸ h)
    · next e => rw [e] at hp; exact rankStop_bounds (hp ▸ h) ..
  · rw [dropColl_groups]; exact finishRanks_bounds (by exact h) ..

theorem deliverRow_bounds {s : State} (h : AllBound s.work.groups) (c : ℕ) (k : Coll) (row : RecvRow) :
    AllBound (deliverRow s c k row).work.groups := by
  unfold deliverRow
  grind [probeRuns_groups, suspendRank_bounds, faultRank_groups, setColl_work_groups, clearFaults_groups, writeRank_bounds, stepRecord_groups]

theorem collStep_bounds {s : State} (h : AllBound s.work.groups) (c : ℕ) :
    AllBound (collStep s c).work.groups := by
  unfold collStep
  split
  · exact h
  next k _ =>
  split
  · exact h
  split
  · rwa [putColl_groups]
  split
  · exact h
  next r0 _ =>
  split
  · exact h
  split
  · dsimp only
    have hr := readRanks_groups s c ((rankList k).map fun e => (e.1, e.2, 1024 * k.step * fmtBits (tdFmt r0.src) / 8,
      min 1024 (collLength r0 - 1024 * k.step) * fmtBits (tdFmt r0.src) / 8))
    split
    · next e =>
      rw [e] at hr
      rw [stepRecord_groups, setColl_work_groups, clearFaults_groups]
      exact hr ▸ h
    · next e => rw [e] at hr; exact rankStop_bounds (hr ▸ h) ..
  split
  · exact deliverRow_bounds h ..
  · have hm := moveRanks_groups s c k.step (rankList k)
    dsimp only
    split
    · next e =>
      rw [e] at hm
      split
      · rw [setColl_work_groups, clearFaults_groups]; exact hm ▸ h
      · rw [stepRecord_groups]
        exact foldl_bounds (fun s e hs => writeRank_bounds hs ..) _ (by rw [setColl_work_groups, clearFaults_groups]; exact hm ▸ h)
    · next e => rw [e] at hm; exact rankStop_bounds (hm ▸ h) ..

theorem onPacket_bounds {s : State} (h : AllBound s.work.groups) (q : ℕ) (ty : ℕ) (k : State → List Byte → Bool → ℕ → State) (hk : ∀ s a b c, AllBound s.work.groups → AllBound (k s a b c).work.groups) :
    AllBound (onPacket s q ty k).work.groups := by
  unfold onPacket
  grind [queueRead_groups, streamError_groups, readBody_groups]

theorem saveFault_bounds {s : State} (h : AllBound s.work.groups) (l : ℕ) (n : ℕ) (no : ℕ) :
    AllBound (saveFault s l n no).work.groups := by
  unfold saveFault
  grind [killEverywhere_bounds, clearFaults_groups]

theorem addGroup_bounds {s : State} (h : AllBound s.work.groups) (t g : Nat) {x : Group} (hx : GroupBound x) :
    AllBound (addGroup s t g x).work.groups := by
  rw [addGroup, modTeam_groups]
  exact setGroup_bounds h g hx

theorem reviveTeam_bounds {s : State} (h : AllBound s.work.groups) {k : SavedTeam} (hk : ∀ e ∈ k.groups, GroupBound e.2) (c : Nat) :
    AllBound (reviveTeam s k c).work.groups := by
  have revive : ∀ (es : List (Nat × Group)) {s' : State}, AllBound s'.work.groups → (∀ e ∈ es, GroupBound e.2) → ∀ (y : State → Nat × Group → Group),
      (∀ s e, SameBounds e.2 (y s e)) → AllBound (es.foldl (fun s e => emitSync (addGroup s k.name e.1 (y s e)) e.1 3) s').work.groups := by
    intro es
    induction es with
    | nil => exact fun h _ _ _ => h
    | cons e es ih =>
      intro s' hs he y hy
      exact ih (emitSync_bounds (addGroup_bounds hs _ _ ((hy s' e).bound (he e (by simp)))) ..) (fun e m => he e (by simp [m])) y hy
  exact revive k.groups (s' := setTeam s k.name _) h hk _ fun _ _ => ⟨rfl, rfl, rfl⟩

theorem stopGroup_bounds {s : State} (h : AllBound s.work.groups) (g : ℕ) :
    AllBound (stopGroup s g).work.groups := by
  have hs : AllBound (leaveBooth (traceStop s g false) g).work.groups := by
    rw [leaveBooth_groups]
    exact traceStop_bounds h ..
  simp only [stopGroup]
  refine modGroup_bounds ?_ g fun hx => ?_
  · split
    · exact abandonTile_bounds hs ..
    · exact hs
  · obtain ⟨hl, hr, hc, ht, hk⟩ := hx.2.2
    exact ⟨hx.1, hx.2.1.map fun _ hf => hf, (Nat.sub_le ..).trans hl, (Nat.sub_le ..).trans hr, hc, ht, hk⟩

theorem releaseTeam_bounds {s : State} (h : AllBound s.work.groups) (l : ℕ) (n : ℕ) (t : ℕ) :
    AllBound (releaseTeam s l n t).work.groups := by
  unfold releaseTeam
  grind [freeTeam_bounds, modLaunch_groups]

theorem finishSave_bounds {s : State} (h : AllBound s.work.groups) (l : ℕ) (n : ℕ) :
    AllBound (finishSave s l n).work.groups := by
  unfold finishSave
  grind [areasOf_groups, saveFault_bounds, stopGroup_bounds, clearFaults_groups, storeArea_groups, releaseTeam_bounds, modLaunch_groups, saveEvent_groups, foldl_bounds, groupBound_blank, GroupBound, AllBound.group]

theorem saveStep_bounds {s : State} (h : AllBound s.work.groups) (l : ℕ) (n : ℕ) :
    AllBound (saveStep s l n).work.groups := by
  unfold saveStep
  grind [finishSave_bounds, saveEvent_groups, tellNode_groups, modLaunch_groups]

theorem powered_bounds {s : State} (h : AllBound s.work.groups) {f : State → State} (hf : ∀ s, AllBound s.work.groups → AllBound (f s).work.groups) :
    OutBound (powered s f) := by
  rw [powered, outBound_next]
  split
  · exact hf s h
  · exact h

theorem serveRemote_bounds {s : State} (h : AllBound s.work.groups) (n : ℕ) :
    AllBound (serveRemote s n).work.groups := by
  unfold serveRemote
  grind [pmapAt_bounds, answerRemote_groups, dropTlb_groups, xlate_groups, remoteAct_groups, foldl_bounds, groupBound_blank, GroupBound, AllBound.group]

theorem preemptArrival_bounds {s : State} (h : AllBound s.work.groups) (part : ℕ) (id : ℕ) (m : FarPreempt) :
    AllBound (preemptArrival s part id m).work.groups := by
  unfold preemptArrival
  grind [askYield_groups, modLaunch_groups, saveStep_bounds]

theorem copyEnd_bounds {s : State} (h : AllBound s.work.groups) (t : ℕ) (c : ℕ) :
    AllBound (copyEnd s t c).work.groups := by
  unfold copyEnd
  grind [lowerCopy_bounds, copyEvent_groups, setCopy_groups, copyClean_groups, reportCopy_bounds]

theorem boothFault_bounds {s : State} (h : AllBound s.work.groups) (g : ℕ) (o : BoothOp) (r : FaultRec) :
    AllBound (boothFault s g o r).work.groups := by
  unfold boothFault
  grind [modGroup_bounds, leaveBooth_groups, raiseStream_bounds, asGroup_bounds, raiseScalar_bounds, GroupBound, AllBound.group]

theorem boothDone_bounds {s : State} (h : AllBound s.work.groups) (g : Nat) (o : BoothOp) (v : Word) (sectors : List Nat) {laneEnd : LaneEnd}
    (he : ∀ s g d v l, AllBound s.work.groups → AllBound (laneEnd s g d v l).work.groups) :
    AllBound (boothDone s g o v sectors laneEnd).work.groups := by
  have hs : AllBound (modGroup s g fun x => { x with fly := { x.fly with booth := none } }).work.groups := modGroup_bounds h g fun hx => hx
  simp only [boothDone]
  split
  · exact he _ _ _ _ _ hs
  · exact asGroup_bounds hs g fun s hs => result_bounds hs ..

theorem reserveRow_bounds {s : State} (h : AllBound s.work.groups) (g : ℕ) (o : BoothOp) (b : Booth) :
    AllBound (reserveRow s g o b).work.groups := by
  unfold reserveRow
  grind [modTeam_groups, modGroup_bounds, GroupBound, AllBound.group]

theorem boothReserve_bounds {s : State} (h : AllBound s.work.groups) (g : Nat) {laneEnd : LaneEnd}
    (he : ∀ s g d v l, AllBound s.work.groups → AllBound (laneEnd s g d v l).work.groups) :
    AllBound (boothReserve s g laneEnd).work.groups := by
  unfold boothReserve
  dsimp only
  split
  · exact h
  split
  · exact h
  split
  · exact ite_bounds h (boothFault_bounds h ..)
  split
  · split
    · rwa [modTeam_groups]
    · exact boothDone_bounds (by rwa [modTeam_groups]) _ _ _ _ he
  split
  · exact h
  · exact reserveRow_bounds h ..

theorem boothFill_bounds {s : State} (h : AllBound s.work.groups) (g : Nat) {laneEnd : LaneEnd}
    (he : ∀ s g d v l, AllBound s.work.groups → AllBound (laneEnd s g d v l).work.groups) : AllBound (boothFill s g laneEnd).work.groups := by
  unfold boothFill
  split
  · exact h
  split
  · exact h
  · exact boothDone_bounds (by rwa [modTeam_groups]) _ _ _ _ he

theorem boothWake_bounds {s : State} (h : AllBound s.work.groups) (g : ℕ) :
    AllBound (boothWake s g).work.groups := by
  unfold boothWake
  dsimp only
  split
  · exact h
  split
  · exact h
  split
  · exact ite_bounds h (boothFault_bounds h ..)
  · exact ite_bounds h (reserveRow_bounds h ..)

theorem setS_cur (s : State) (d : SReg) (v : Word) : (setS s d v).cur = s.cur := by
  unfold setS
  split
  · rfl
  · split
    · rfl
    · split <;> rfl
    · rfl

theorem setS_fly {s : State} {g : Nat} (hc : s.cur = .group g) (d : SReg) (v : Word) (h : Nat) :
    (h ≠ g → group (setS s d v) h = group s h) ∧ (group (setS s d v) h).fly = (group s h).fly ∧ (group (setS s d v) h).cnt = (group s h).cnt := by
  unfold setS
  split
  · simp
  · simp only [hc, modGroup, group_setGroup]
    split
    · next e => subst e; simp only [ne_eq, not_true_eq_false, false_implies, true_and]; unfold setSregOf; split <;> simp
    · simp

/-- A scalar instruction of a group that retires waits no longer, and other groups are as they were but for their trace settings. -/
theorem result_waiting {s : State} {g : Nat} (hc : s.cur = .group g) (d : SReg) (v : Word) :
    (group (result s d v) g).fly.waiting = none ∧ ∀ h, h ≠ g → ∃ c, group (result s d v) h = { group s h with trace := c } := by
  have hc' : (setS s d v).cur = .group g := (setS_cur s d v).trans hc
  have ht := onlyTrace_applyTrace (modGroup (setS s d v) g fun x => { x with
    spc := curSpc (setS s d v) + 4, fly := { x.fly with waiting := none, yielded := false } }) g
  simp only [result, retire, retireTo, hc']
  refine ⟨by rw [ht.fly g]; simp [modGroup], fun h hh => ?_⟩
  obtain ⟨c, e⟩ := ht.at_ h
  refine ⟨c, e.trans ?_⟩
  rw [modGroup, group_setGroup, if_neg hh, (setS_fly hc d v h).1 hh]

theorem collAt_none {x : Group} (h : x.fly.waiting = none) : collAt x = none := by simp [collAt, h]

/-- A group's part of the hand-over of a collective: its counter rises and its instruction retires (R284). -/
def handGroup (w : Word → Word) (s : State) (g : Nat) : State :=
  match collAt (group s g) with
  | some (_, sd, va, _) => asGroup (modGroup s g fun y => { y with cnt := { y.cnt with copies := y.cnt.copies + 1 } }) g fun s => result s sd (w va)
  | none => s

/-- Each group still to hand over has room in its counter. -/
def HandRoom (s : State) (gs : List Nat) : Prop := ∀ g ∈ gs, collAt (group s g) = none ∨ (group s g).cnt.copies < 0xFFFF

theorem handGroup_room {s : State} {gs : List Nat} (h : HandRoom s gs) (w : Word → Word) (g : Nat) : HandRoom (handGroup w s g) gs := by
  intro k hk
  unfold handGroup
  split
  · next sd va _ _ =>
    obtain ⟨hw, ho⟩ := result_waiting (s := { modGroup s g fun y => { y with cnt := { y.cnt with copies := y.cnt.copies + 1 } } with cur := .group g })
      rfl sd (w va)
    by_cases e : k = g
    · exact .inl (collAt_none (by rw [e]; exact hw))
    · obtain ⟨c, hc⟩ := ho k e
      have hs : group (modGroup s g fun y => { y with cnt := { y.cnt with copies := y.cnt.copies + 1 } }) k = group s k := by
        rw [modGroup, group_setGroup, if_neg e]
      replace hc := hc.trans (congrArg (fun x : Group => { x with trace := c }) hs)
      rcases h k hk with hn | hr
      · exact .inl ((congrArg collAt hc).trans hn)
      · exact .inr ((congrArg (·.cnt.copies) hc).trans_lt hr)
  · exact h k hk

theorem handGroup_bounds {s : State} (h : AllBound s.work.groups) {g : Nat} (hg : collAt (group s g) = none ∨ (group s g).cnt.copies < 0xFFFF)
    (w : Word → Word) : AllBound (handGroup w s g).work.groups := by
  unfold handGroup
  split
  · next hc =>
    have hr := hg.resolve_left (by rw [hc]; exact Option.some_ne_none _)
    exact asGroup_bounds (modGroup_bounds h g fun hx => hx.raiseCopies hr) g fun s hs => result_bounds hs ..
  · exact h

theorem foldl_handGroup_bounds (w : Word → Word) (gs : List Nat) {s : State} (h : AllBound s.work.groups) (hr : HandRoom s gs) :
    AllBound (gs.foldl (handGroup w) s).work.groups := by
  induction gs generalizing s with
  | nil => exact h
  | cons g gs ih =>
    exact ih (handGroup_bounds h (hr g (by simp)) w) fun k hk => handGroup_room hr w g k (by simp [hk])

theorem collHandover_bounds {s : State} (h : AllBound s.work.groups) (t : Nat) : AllBound (collHandover s t).work.groups := by
  unfold collHandover
  dsimp only
  split
  · exact h
  split
  · exact h
  next fn a b src dst _ hready =>
  refine tellLate_bounds ?_ t
  have room : HandRoom s (team s t).groups := fun g hg => by
    simp only [Bool.or_eq_true, Bool.not_eq_true', not_or, Bool.not_eq_false, Bool.and_eq_true, List.all_eq_true, decide_eq_true_eq] at hready
    exact .inr (hready.1.2 g hg).2
  refine foldl_handGroup_bounds (withPhase · (readBar (team s t) (bits a 20 0)).phase) _ ?_ fun g hg => ?_
  · rw [putColl_groups, modTeam_groups, matchColl_groups]
    exact h
  · rw [group_of_groups (s := s)]
    · exact room g hg
    · rw [putColl_groups, modTeam_groups, matchColl_groups]

theorem cobjModeEnd_bounds {s : State} (h : AllBound s.work.groups) (gd : ℕ) (e : ℕ) :
    AllBound (cobjModeEnd s gd e).work.groups := by
  unfold cobjModeEnd
  dsimp only
  split
  · exact h
  · refine modGroup_bounds ?_ _ fun hx => ?_
    · rwa [putObj_groups, mergeObject_groups]
    · split
      · exact hx.lowerK ..
      · exact hx

theorem carveEnd_bounds {s : State} (h : AllBound s.work.groups) (gd : ℕ) :
    AllBound (carveEnd s gd).work.groups := by
  unfold carveEnd
  split
  · exact h
  · next c _ =>
    have hs : AllBound (if c.add then c.ways.foldl (fun s w => scrubWay s gd w) s else s).work.groups :=
      ite_bounds (foldl_bounds (fun _ w hs => scrubWay_bounds hs gd w) _ h) h
    exact modGroup_bounds (by rwa [modDie_groups]) c.group fun hx => (hx.lowerK ..).ite hx

theorem startTeam_bounds {s : State} (h : AllBound s.work.groups) (l : ℕ) (no : ℕ) (c : ℕ) :
    AllBound (startTeam s l no c).work.groups := by
  simp only [startTeam]
  rw [modLaunch_groups]
  refine foldl_bounds (fun s k hs => emitSync_bounds (addGroup_bounds (by rwa [newName_groups]) _ _ ?_) ..) _ ?_
  · exact ⟨⟨Nat.zero_le _, Nat.zero_le _, Nat.zero_le _, Nat.zero_le _⟩, frameBound_none, groupBound_blank.2.2⟩
  · rwa [setTeam_work_groups, newName_groups]

theorem writeControl_bounds {s : State} (h : AllBound s.work.groups) (fn : ℕ) (q : ℕ) (v : Word) :
    AllBound (writeControl s fn q v).work.groups := by
  unfold writeControl
  grind [beginReset_bounds, setQueue_work]

theorem writeQueue_bounds {s : State} (h : AllBound s.work.groups) (fn : ℕ) (q : ℕ) (off : ℕ) (v : Word) :
    AllBound (writeQueue s fn q off v).work.groups := by
  unfold writeQueue
  grind [writeRing_groups, writeControl_bounds, ringDoorbell_groups, clearHalt_groups]

theorem hostReg_bounds {s : State} (h : AllBound s.work.groups) (p : ℕ) (r : ℕ) (v : Word) :
    AllBound (hostReg s p r v).work.groups := by
  unfold hostReg
  grind [beginReset_bounds, regPut_bounds]

theorem hostWrite_bounds {s : State} (h : AllBound s.work.groups) (fn : ℕ) (off : ℕ) (v : Word) :
    AllBound (hostWrite s fn off v).work.groups := by
  unfold hostWrite
  grind [unsupported_groups, writePodcfg_groups, writeQueue_bounds, hostReg_bounds, writeSlot_groups]

theorem hostPreg_bounds {s : State} (h : AllBound s.work.groups) (p : ℕ) (r : ℕ) (v : Word) :
    AllBound (hostPreg s p r v).work.groups := by
  unfold hostPreg
  grind [hostWrite_bounds]

theorem whenReady_bounds {s : State} (h : AllBound s.work.groups) {f : State → State} (hf : ∀ s, AllBound s.work.groups → AllBound (f s).work.groups) :
    OutBound (whenReady s f) := by
  rw [whenReady, outBound_next]
  split
  · exact hf s h
  · exact h

theorem poisonGroup_bounds {s : State} (h : AllBound s.work.groups) (g : ℕ) (u : PoisonUnit) :
    AllBound (poisonGroup s g u).work.groups := by
  unfold poisonGroup
  grind [modGroup_bounds, GroupBound, AllBound.group]

theorem poisonUnit_bounds {s : State} (h : AllBound s.work.groups) (u : SoftUnit) :
    AllBound (poisonUnit s u).work.groups := by
  unfold poisonUnit
  grind [poisonGroup_bounds, poisonTeam_groups, modTeam_groups]

theorem loseDevice_bounds {s : State} (_ : AllBound s.work.groups) (torn : Bool) :
    AllBound (loseDevice s torn).work.groups := ⟨fun _ => groupBound_blank⟩

theorem stampScalar_bounds {s : State} (h : AllBound s.work.groups) (g : ℕ) :
    AllBound (stampScalar s g).work.groups := by
  unfold stampScalar
  grind [modGroup_bounds, GroupBound, AllBound.group]

theorem stampLane_bounds {s : State} (h : AllBound s.work.groups) (g : ℕ) :
    AllBound (stampLane s g).work.groups := by
  unfold stampLane
  grind [modGroup_bounds, GroupBound, AllBound.group]

end Sys2Proof.Machine
end

section
/-! PROOFS. The work tree (family 02): the instructions and events keep the bounds. -/

namespace Sys2Proof.Machine
open Sys2Proof

theorem execSexit_bounds {s : State} (h : AllBound s.work.groups) : OutBound (execSexit s) := by
  unfold execSexit
  split
  · next g _ =>
    have h' := discardFrame_bounds h g
    exact (outBound_next _).mpr (ite_bounds (endGroup_bounds h' g) (wait_bounds (modGroup_bounds h' g GroupBound.endRunOn) _))
  · exact (outBound_next _).mpr h

theorem execYieldc_bounds {s : State} (h : AllBound s.work.groups) (a : SReg) (b : SReg) (o : BitVec 14) :
    OutBound (execYieldc a b o s) := by
  refine onGroup_bounds h fun g => withBar_bounds h _ _ _ _ _ _ fun s t off h => afterLanes_bounds h _ _ _ fun s h => ?_
  refine ite_bounds (clobber_bounds h ..) (ite_bounds (modGroup_bounds (wait_bounds h _) g id) (retireTo_bounds ?_ _))
  exact ite_bounds h (modGroup_bounds h g id)

theorem execEret_bounds {s : State} (h : AllBound s.work.groups) : OutBound (execEret s) :=
  inHandlerOnly_bounds h fun g _ _ => ite_bounds (applyTrace_bounds (returnException_bounds h g) g)
    (wait_bounds (modGroup_bounds h g GroupBound.endRunOn) _)
theorem execEfset_bounds {s : State} (h : AllBound s.work.groups) (a : SReg) (b : SReg) : OutBound (execEfset a b s) :=
  inHandlerOnly_bounds h fun g f hf => ite_bounds (illegal_bounds h 5) (retire_bounds (modGroup_bounds h g fun hx =>
    ⟨hx.1, (frameBound_some _).mpr (hx.2.1 f hf), hx.2.2⟩))
theorem execVcvt_bounds {s : State} (h : AllBound s.work.groups) (x : CvtArgs) : OutBound (execVcvt x s) :=
  laneIssue_bounds h _ _ _ fun _ => sameBounds_putEl ..
theorem execVmaskm_bounds {s : State} (h : AllBound s.work.groups) (x : MaskmArgs) : OutBound (execVmaskm x s) :=
  laneIssue_bounds h _ _ _ fun _ => sameBounds_putMreg ..
theorem execQrnd_bounds {s : State} (h : AllBound s.work.groups) (x : QRndArgs) : OutBound (execQrnd x s) :=
  laneIssue_bounds h _ _ _ fun _ => sameBounds_putEl ..

theorem execLaneJumpRecord_bounds {s : State} (h : AllBound s.work.groups) (g : Nat) : OutBound (execLaneJumpRecord g s) := by
  have hx := h.group g
  unfold execLaneJumpRecord
  simp only
  split
  · next t rest hq =>
    rw [apply_ite OutBound, outBound_next, outBound_next]
    obtain ⟨⟨h1, h2, h3⟩, hf, hc⟩ := hx
    rw [hq, List.length_cons] at h2
    split
    · exact setGroup_bounds h g ⟨⟨h1, by grind, h3⟩, hf, hc⟩
    · exact h
  · exact (outBound_next _).mpr h

theorem execBoothReservation_bounds {s : State} (h : AllBound s.work.groups) (g : Nat) : OutBound (execBoothReservation g s) :=
  (outBound_next _).mpr (boothReserve_bounds h g fun _ _ _ _ _ h => vboothDone_bounds h ..)
theorem execBoothFillComplete_bounds {s : State} (h : AllBound s.work.groups) (g : Nat) : OutBound (execBoothFillComplete g s) :=
  (outBound_next _).mpr (boothFill_bounds h g fun _ _ _ _ _ h => vboothDone_bounds h ..)

theorem xcopyGo_bounds {s : State} (h : AllBound s.work.groups) (g : Nat) (a : SReg) (off : Nat) (r : List Byte) (t : Nat) :
    AllBound (if copyBar r = 0xFFFFFFFF then handOver s g a off r
      else match clusterAddr s t (copyBar r) with
        | .at u o => if isBarrier (team s u) o then handOver s g a off r else clobber s 3 (BitVec.ofNat 64 (copyBar r))
        | _ => raiseScalar s (scalarRec 7 0 true false (BitVec.ofNat 64 (copyBar r)))).work.groups := by
  refine ite_bounds (handOver_bounds h ..) ?_
  split
  · exact ite_bounds (handOver_bounds h ..) (clobber_bounds h ..)
  · exact raiseScalar_bounds h _

theorem execXcopy_bounds {s : State} (h : AllBound s.work.groups) (a : SReg) : OutBound (execXcopy a s) := by
  refine onGroup_bounds h fun g => ite_bounds (illegal_bounds h 1) (ite_bounds (raiseScalar_bounds h _) (ite_bounds (raiseScalar_bounds h _) ?_))
  split
  · exact raiseScalar_bounds h _
  · dsimp only
    split
    · exact illegal_bounds h _
    · exact ite_bounds (raiseScalar_bounds h _) (ite_bounds (raiseScalar_bounds h _)
        (ite_bounds (afterLanes_bounds h _ _ _ fun s h => xcopyGo_bounds h ..) (xcopyGo_bounds h ..)))

theorem execCobjDecl_bounds {s : State} (h : AllBound s.work.groups) (d : SReg) (a : SReg) (b : SReg) :
    OutBound (execCobjDecl d a b s) := by
  refine onGroup_bounds h fun g => ite_bounds (illegal_bounds h 1) (ite_bounds (illegal_bounds h 5) (ite_bounds (raiseScalar_bounds h _) ?_))
  split
  · exact raiseScalar_bounds h _
  · refine ite_bounds (illegal_bounds h 5) ?_
    split
    · exact raiseScalar_bounds h _
    · exact ite_bounds (raiseScalar_bounds h _) (withPages_bounds h _ _ _ _ _ _ fun s h =>
        ite_bounds (result_bounds h ..) (ite_bounds (result_bounds h ..)
          (result_bounds (s := putObj _ _ _ _) h ..)))

theorem execMpush_bounds {s : State} (h : AllBound s.work.groups) (x : PushArgs) : OutBound (execMpush x s) :=
  maskOp_bounds h _ (fun _ hy _ => ⟨by grind, hy.1.2⟩) fun _ _ h => emitMask_bounds h ..
theorem execMelse_bounds {s : State} (h : AllBound s.work.groups) : OutBound (execMelse s) :=
  maskOp_bounds h _ (fun _ hy _ => hy.1) fun _ _ h => emitMask_bounds h ..
theorem execMpop_bounds {s : State} (h : AllBound s.work.groups) : OutBound (execMpop s) :=
  maskOp_bounds h _ (fun _ hy _ => ⟨by grind [hy.1.1], hy.1.2⟩) fun _ _ h => emitGroup_bounds h ..
theorem sameBounds_setLaneScalar (x : Group) (d : LDst) (v : Word) : SameBounds x (setLaneScalar x d v) := sameBounds_setSregOf ..
theorem execVtest_bounds {s : State} (h : AllBound s.work.groups) (x : TestArgs) : OutBound (execVtest x s) :=
  laneIssue_bounds h _ _ _ fun _ => sameBounds_setLaneScalar ..

theorem execVlred_bounds {s : State} (h : AllBound s.work.groups) (x : LredArgs) : OutBound (execVlred x s) := by
  simp only [execVlred]
  split
  · exact laneOp_bounds h _ _ fun _ _ => sameBounds_putLanes ..
  · exact laneOp_bounds h _ _ fun _ _ => sameBounds_setLaneScalar ..

theorem execVballot_bounds {s : State} (h : AllBound s.work.groups) (x : BallotArgs) : OutBound (execVballot x s) := by
  simp only [execVballot]
  split
  · exact laneOp_bounds h _ _ fun _ _ => sameBounds_putLanes ..
  · exact laneOp_bounds h _ _ fun _ _ => sameBounds_setLaneScalar ..

theorem execVbtake_bounds {s : State} (h : AllBound s.work.groups) (x : VBoothArgs) : OutBound (execVbtake x s) := by
  refine onGroup_bounds h fun g => boothIssue_bounds h _ _ _ fun y ex => ?_
  have hn := noteSample_bounds h g ex [] 0
  have hl := raiseLane_bounds h g
  refine ite_bounds (hl _) (ite_bounds (hl _) (ite_bounds (hl _) (ite_bounds (hl _) (ite_bounds (hl _) (ite_bounds (vboothDone_bounds hn ..) ?_)))))
  split
  · exact hl _
  · exact vboothDone_bounds (modGroup_bounds (s := modTeam _ _ _) hn g id) ..

/-- What follows the pages' check runs in a state with the same groups. -/
theorem withPages_sameGroups {s : State} (h : AllBound s.work.groups) (g : Nat) (i : Instr) (va : Word) (n mode : Nat) {k : State → State}
    (hk : ∀ t, t.work.groups = s.work.groups → AllBound (k t).work.groups) : AllBound (withPages s g i va n mode k).work.groups := by
  unfold withPages
  have he := checkPages_groups
  grind [wait_bounds, raiseScalar_bounds, clearFaults_groups]

theorem execCobjMode_bounds {s : State} (h : AllBound s.work.groups) (k : KReg) (a : SReg) (b : SReg) :
    OutBound (execCobjMode k a b s) := by
  refine onGroup_bounds h fun g => ite_bounds (illegal_bounds h 5) (withObject_bounds h _ _ fun gd e o => ite_bounds (illegal_bounds h 5) ?_)
  split
  · exact wait_bounds h _
  · next room =>
    refine withPages_sameGroups h _ _ _ _ _ fun t ht => retire_bounds ?_
    refine modGroup_bounds (s := (newName t).2) (f := fun y => raiseK y k.toNat (newName t).1) (by rwa [newName_groups, ht]) g fun hx => hx.raiseK ?_ _
    rw [group_of_groups (t := (newName t).2) (s := s) ht]
    exact Nat.lt_of_not_le room

theorem execCarve_bounds {s : State} (h : AllBound s.work.groups) (d : SReg) (a : SReg) (k : KReg) :
    OutBound (execCarve d a k s) := by
  refine privileged_bounds h _ fun g => ite_bounds (illegal_bounds h 1) (ite_bounds (illegal_bounds h 5) ?_)
  split
  · exact wait_bounds h _
  · next room =>
    refine ite_bounds (result_bounds h ..) (ite_bounds (result_bounds h ..) (ite_bounds (result_bounds h ..) (result_bounds ?_ ..)))
    rw [not_or] at room
    have h1 : AllBound (modGroup (newName s).2 g fun y => raiseK y k.toNat (newName s).1).work.groups :=
      modGroup_bounds (s := (newName s).2) (f := fun y => raiseK y k.toNat (newName s).1) h g fun hx => hx.raiseK (Nat.lt_of_not_le room.1) _
    exact ite_bounds h1 (foldl_bounds (fun s w h => scrubWay_bounds (by rwa [dropTlb_groups]) ..) _ h1)

/-! What a save area gives back keeps the bounds (R353, R359). -/

/-- An area answers with no more bytes than it was asked for. -/
def ShortArea (a : Area) : Prop := ∀ off n, (a off n).length ≤ n

theorem piecesAt_sum_le (gs : List Seg) (off n : Nat) : ((piecesAt gs off n).map (·.len)).sum ≤ n := by
  induction gs generalizing off n with
  | nil => exact Nat.zero_le n
  | cons g r ih =>
    unfold piecesAt
    split
    · exact Nat.zero_le n
    · split
      · exact ih ..
      · have := ih 0 (n - min n (g.len - off))
        simp only [List.map_cons, List.sum_cons]
        omega

theorem readSegs_length (s : State) (gs : List Seg) : (readSegs s gs).length = (gs.map (·.len)).sum := by
  simp [readSegs, List.length_flatMap]
theorem shortArea_areaOf (s : State) (segs : List Seg) : ShortArea (areaOf s segs) := fun _ _ =>
  (readSegs_length ..).trans_le (piecesAt_sum_le ..)
theorem ShortArea.at_ {a : Area} (h : ShortArea a) (o : Nat) : ShortArea fun off n => a (o + off) n := fun _ _ => h ..

theorem ofLe_lt (bs : List Byte) : ofLe bs < 256 ^ bs.length := by
  induction bs with
  | nil => exact Nat.one_pos
  | cons b r ih =>
    have := b.isLt
    rw [ofLe, List.length_cons, Nat.pow_succ]
    omega

theorem ShortArea.nat_le {a : Area} (h : ShortArea a) (off : Nat) : areaNat a off 2 ≤ 0xFFFF := by
  have : 256 ^ (a off 2).length ≤ 256 ^ 2 := Nat.pow_le_pow_right (by decide) (h off 2)
  have := ofLe_lt (a off 2)
  rw [areaNat]
  omega

theorem allSome_length {α : Type} {l : List (Option α)} {r : List α} (h : allSome l = some r) : r.length = l.length := by
  induction l generalizing r with
  | nil => cases h; rfl
  | cons a l ih =>
    unfold allSome at h
    split at h
    · next hr => cases h; exact congrArg (· + 1) (ih hr)
    · cases h

theorem allSome_mem {α : Type} {l : List (Option α)} {r : List α} (h : allSome l = some r) {x : α} (hx : x ∈ r) : some x ∈ l := by
  induction l generalizing r with
  | nil => cases h; cases hx
  | cons a l ih =>
    unfold allSome at h
    split at h
    · next hr =>
      cases h
      obtain rfl | hx := List.mem_cons.mp hx
      · exact List.mem_cons_self
      · exact List.mem_cons_of_mem _ (ih hr hx)
    · cases h

theorem queueAtStop_length_le (full left : List RqRec) : (queueAtStop full left).length ≤ full.length := by
  have hd : (full.drop (full.length - left.length)).length ≤ full.length := by simp
  unfold queueAtStop
  split
  · next he => rw [he] at hd; exact hd
  · exact hd

theorem laneBound_laneFrom {a : Area} {old l : LaneCtx} (h : laneFrom a old = some l) : LaneBound l := by
  simp only [laneFrom] at h
  split at h
  · cases h
  · next ok =>
    obtain ⟨q, hq, rfl⟩ := Option.map_eq_some_iff.mp h
    have hn : q.length ≤ 16 := by
      rw [allSome_length hq, List.length_map, List.length_range]
      omega
    refine ⟨by simp only [List.length_reverse, List.length_map, List.length_range, Config.maskDepth]; omega, ?_, ?_, ?_⟩
    · dsimp only
      split
      · exact hn
      · exact (queueAtStop_length_le ..).trans hn
    · dsimp only
      split
      · exact Nat.zero_le _
      · exact hn
    · dsimp only
      split <;> exact Nat.zero_le _

theorem frameBound_frameFrom (a : Area) (marks : List Nat) (old : Frame) : FrameBound (frameFrom a marks old) := by
  intro f hf
  simp only [frameFrom] at hf
  split at hf
  · cases hf
  · obtain ⟨l, hl, rfl⟩ := Option.map_eq_some_iff.mp hf
    obtain ⟨hs, hr, hfull, hstop⟩ := laneBound_laneFrom hl
    refine ⟨hs, hr, ?_, ?_⟩ <;> dsimp only <;> split <;> first | exact Nat.zero_le _ | assumption

theorem counterFrom_length (old : List (Nat × Bool)) (n : Nat) : (counterFrom old n).length = n := by
  unfold counterFrom
  split
  · assumption
  · exact List.length_replicate

/-- A table filled from values that satisfy `P` has only such values. -/
theorem tget_foldl_tput_range {α : Type} [DecidableEq α] {P : α → Prop} (z : α) (f : Nat → α) (hf : ∀ i, P (f i)) (l : List Nat)
    (t : Tab α) (ht : ∀ k, P (tget z t k)) (k : Nat) : P (tget z (l.foldl (fun t i => tput z t i (f i)) t) k) := by
  induction l generalizing t with
  | nil => exact ht k
  | cons i l ih =>
    refine ih _ fun j => ?_
    rw [tget_tput]
    split
    · exact hf i
    · exact ht j

theorem groupBound_groupFrom {s : State} {d : Desc} {priv : BitVec 2} {a : Area} (ha : ShortArea a) {marks : List Nat} {old x : Group}
    (h : groupFrom s d priv a marks old = some x) : GroupBound x := by
  simp only [groupFrom, Option.ite_none_left_eq_some] at h
  obtain ⟨-, h⟩ := h
  split at h
  · next l order hl ho =>
    cases (Option.ite_none_left_eq_some.mp h).2
    obtain ⟨hs, hr, hfull, hstop⟩ := laneBound_laneFrom hl
    refine ⟨⟨hs, hr, ?_, ?_⟩, ?_, ha.nat_le _, ha.nat_le _, ha.nat_le _, ha.nat_le _, ?_⟩
    · dsimp only
      split
      · exact Nat.zero_le _
      · exact hfull
    · dsimp only
      split
      · exact Nat.zero_le _
      · exact hstop
    · dsimp only
      split
      · exact frameBound_frameFrom _ _ _
      · exact frameBound_none
    · exact tget_foldl_tput_range (P := fun ops : List (Nat × Bool) => ops.length ≤ 0xFFFF) _ _
        (fun k => (counterFrom_length ..).trans_le (ha.nat_le _)) _ _ fun _ => Nat.zero_le _
  · cases h

theorem groupBound_teamBack {s : State} {l : Nat} {k r : SavedTeam} {segs : List Seg} (h : teamBack s l k segs = some r) :
    ∀ e ∈ r.groups, GroupBound e.2 := by
  simp only [teamBack] at h
  split at h
  · next t gs ht hg =>
    cases h
    intro e he
    obtain ⟨e', -, h'⟩ := List.mem_map.mp (allSome_mem hg he)
    obtain ⟨y, hy, rfl⟩ := Option.map_eq_some_iff.mp h'
    exact groupBound_groupFrom ((shortArea_areaOf s segs).at_ _) hy
  · cases h

theorem execLaneLoadReturn_bounds {s : State} (h : AllBound s.work.groups) (g : Nat) : OutBound (execLaneLoadReturn g s) := by
  obtain ⟨hl, hs, hc, ht, -⟩ := (h.group g).2.2
  exact (outBound_next _).mpr (ite_bounds h (setGroup_bounds h g ((h.group g).counters rfl ((Nat.sub_le ..).trans hl) hs hc ht)))
theorem execStorePerformed_bounds {s : State} (h : AllBound s.work.groups) (g : Nat) : OutBound (execStorePerformed g s) := by
  obtain ⟨hl, hs, hc, ht, -⟩ := (h.group g).2.2
  exact (outBound_next _).mpr (ite_bounds h (setGroup_bounds h g ((h.group g).counters rfl hl ((Nat.sub_le ..).trans hs) hc ht)))

theorem execHostMemAccess_bounds {s : State} (h : AllBound s.work.groups) (fn addr : Nat) (write : Bool) (data : List Byte) :
    OutBound (execHostMemAccess fn addr write data s) := by
  simp only [execHostMemAccess]
  repeat' split
  all_goals simp_all only [outBound_next, outBound_fault, engineEvent_groups, updateHost_groups, cleanBad_groups, settleHost_groups, unsupported_groups]

theorem writeCompletion_groups_some {s t : State} {l q : Nat} {e : EndInfo} (h : (writeCompletion s l q e).1 = some t) :
    t.work.groups = s.work.groups := by
  unfold writeCompletion at h
  have hq := queueWrite_groups s
  grind [clearFaults_groups]

theorem execLaunchEnd_bounds {s : State} (h : AllBound s.work.groups) (l : Nat) : OutBound (execLaunchEnd l s) := by
  have ht : AllBound ((teamsOf s l).foldl reapTeam s).work.groups := foldl_bounds (fun s t h => reapTeam_bounds h t) _ h
  simp only [execLaunchEnd]
  split
  · exact (outBound_next _).mpr h
  · split
    · exact (outBound_next _).mpr ht
    · split
      · exact (outBound_next _).mpr (by rwa [forgetLaunch_groups])
      · next q hq =>
        split
        · next t e =>
          have hw := writeCompletion_groups (noteEnd ((teamsOf s l).foldl reapTeam s) l) l q
            ((launch (noteEnd ((teamsOf s l).foldl reapTeam s) l) l).fin.getD (refusal 0 0 0))
          rw [e, noteEnd_groups] at hw
          exact (outBound_next _).mpr (by rwa [hw])
        · next t _ e =>
          have hw := writeCompletion_groups_some (congrArg Prod.fst e)
          rw [noteEnd_groups] at hw
          rw [outBound_next, forgetLaunch_groups, apply_ite State.work, apply_ite Work.groups, raiseVector_groups, ite_self, modQueue_groups,
            launchRecord_groups, hw]
          exact ht

theorem foldl_bounds_mem {α : Type} {f : State → α → State} (l : List α)
    (hf : ∀ s, ∀ a ∈ l, AllBound s.work.groups → AllBound (f s a).work.groups) {s : State} (h : AllBound s.work.groups) :
    AllBound (l.foldl f s).work.groups := by
  induction l generalizing s with
  | nil => exact h
  | cons a l ih => exact ih (fun s b hb => hf s b (List.mem_cons_of_mem _ hb)) (hf s a List.mem_cons_self h)

theorem execNodeRestore_bounds {s : State} (h : AllBound s.work.groups) (l n : Nat) : OutBound (execNodeRestore l n s) := by
  simp only [execNodeRestore]
  split
  · exact (outBound_next _).mpr h
  next k _ =>
  split
  · exact (outBound_next _).mpr h
  split
  · exact (outBound_next _).mpr h
  next cores _ =>
  have ha : ∀ t r, areasOf s l n 1 (k.teams.map fun t => t.t.no) = (t, r) → AllBound t.work.groups := fun t r e => by
    have := areasOf_groups s l n 1 (k.teams.map fun t => t.t.no)
    rw [e] at this
    rwa [this]
  split
  · next e => exact (outBound_next _).mpr (ha _ _ e)
  · next e => exact (outBound_next _).mpr (saveFault_bounds (ha _ _ e) ..)
  · next t areas e =>
    have hs : AllBound (settleAreas t l areas).work.groups := by rw [settleAreas_groups]; exact ha _ _ e
    split
    · exact (outBound_next _).mpr (saveFault_bounds hs ..)
    · next ts hts =>
      split
      · exact (outBound_next _).mpr hs
      rw [outBound_next, saveEvent_groups]
      have hmem : ∀ t ∈ ts, ∀ e ∈ t.groups, GroupBound e.2 := fun t ht => by
        obtain ⟨e, -, he⟩ := List.mem_map.mp (allSome_mem hts ht)
        exact groupBound_teamBack he
      refine foldl_bounds_mem ts (fun u t ht hu => ?_) (by rwa [modLaunch_groups, clearFaults_groups])
      split
      · exact reviveTeam_bounds hu (hmem t ht) _
      · exact hu

/-! What each instruction and event leaves keeps the bounds. -/
theorem execSadd_bounds {s : State} (h : AllBound s.work.groups) (d : SReg) (a : SReg) (b : SReg) :
    OutBound (execSadd d a b s) := alu2_bounds h ..
theorem execSsub_bounds {s : State} (h : AllBound s.work.groups) (d : SReg) (a : SReg) (b : SReg) :
    OutBound (execSsub d a b s) := alu2_bounds h ..
theorem execSseq_bounds {s : State} (h : AllBound s.work.groups) (d : SReg) (a : SReg) (b : SReg) :
    OutBound (execSseq d a b s) := alu2_bounds h ..
theorem execSsne_bounds {s : State} (h : AllBound s.work.groups) (d : SReg) (a : SReg) (b : SReg) :
    OutBound (execSsne d a b s) := alu2_bounds h ..
theorem execSslt_bounds {s : State} (h : AllBound s.work.groups) (d : SReg) (a : SReg) (b : SReg) :
    OutBound (execSslt d a b s) := alu2_bounds h ..
theorem execSsltu_bounds {s : State} (h : AllBound s.work.groups) (d : SReg) (a : SReg) (b : SReg) :
    OutBound (execSsltu d a b s) := alu2_bounds h ..
theorem execSmin_bounds {s : State} (h : AllBound s.work.groups) (d : SReg) (a : SReg) (b : SReg) :
    OutBound (execSmin d a b s) := alu2_bounds h ..
theorem execSminu_bounds {s : State} (h : AllBound s.work.groups) (d : SReg) (a : SReg) (b : SReg) :
    OutBound (execSminu d a b s) := alu2_bounds h ..
theorem execSmax_bounds {s : State} (h : AllBound s.work.groups) (d : SReg) (a : SReg) (b : SReg) :
    OutBound (execSmax d a b s) := alu2_bounds h ..
theorem execSmaxu_bounds {s : State} (h : AllBound s.work.groups) (d : SReg) (a : SReg) (b : SReg) :
    OutBound (execSmaxu d a b s) := alu2_bounds h ..
theorem execSand_bounds {s : State} (h : AllBound s.work.groups) (d : SReg) (a : SReg) (b : SReg) :
    OutBound (execSand d a b s) := alu2_bounds h ..
theorem execSor_bounds {s : State} (h : AllBound s.work.groups) (d : SReg) (a : SReg) (b : SReg) :
    OutBound (execSor d a b s) := alu2_bounds h ..
theorem execSxor_bounds {s : State} (h : AllBound s.work.groups) (d : SReg) (a : SReg) (b : SReg) :
    OutBound (execSxor d a b s) := alu2_bounds h ..
theorem execSandn_bounds {s : State} (h : AllBound s.work.groups) (d : SReg) (a : SReg) (b : SReg) :
    OutBound (execSandn d a b s) := alu2_bounds h ..
theorem execSshl_bounds {s : State} (h : AllBound s.work.groups) (d : SReg) (a : SReg) (b : SReg) :
    OutBound (execSshl d a b s) := alu2_bounds h ..
theorem execSshr_bounds {s : State} (h : AllBound s.work.groups) (d : SReg) (a : SReg) (b : SReg) :
    OutBound (execSshr d a b s) := alu2_bounds h ..
theorem execSsra_bounds {s : State} (h : AllBound s.work.groups) (d : SReg) (a : SReg) (b : SReg) :
    OutBound (execSsra d a b s) := alu2_bounds h ..
theorem execSrol_bounds {s : State} (h : AllBound s.work.groups) (d : SReg) (a : SReg) (b : SReg) :
    OutBound (execSrol d a b s) := alu2_bounds h ..
theorem execSror_bounds {s : State} (h : AllBound s.work.groups) (d : SReg) (a : SReg) (b : SReg) :
    OutBound (execSror d a b s) := alu2_bounds h ..
theorem execSmul_bounds {s : State} (h : AllBound s.work.groups) (d : SReg) (a : SReg) (b : SReg) :
    OutBound (execSmul d a b s) := alu2_bounds h ..
theorem execSmulh_bounds {s : State} (h : AllBound s.work.groups) (d : SReg) (a : SReg) (b : SReg) :
    OutBound (execSmulh d a b s) := alu2_bounds h ..
theorem execSmulhu_bounds {s : State} (h : AllBound s.work.groups) (d : SReg) (a : SReg) (b : SReg) :
    OutBound (execSmulhu d a b s) := alu2_bounds h ..
theorem execSdiv_bounds {s : State} (h : AllBound s.work.groups) (d : SReg) (a : SReg) (b : SReg) :
    OutBound (execSdiv d a b s) := alu2_bounds h ..
theorem execSdivu_bounds {s : State} (h : AllBound s.work.groups) (d : SReg) (a : SReg) (b : SReg) :
    OutBound (execSdivu d a b s) := alu2_bounds h ..
theorem execSrem_bounds {s : State} (h : AllBound s.work.groups) (d : SReg) (a : SReg) (b : SReg) :
    OutBound (execSrem d a b s) := alu2_bounds h ..
theorem execSremu_bounds {s : State} (h : AllBound s.work.groups) (d : SReg) (a : SReg) (b : SReg) :
    OutBound (execSremu d a b s) := alu2_bounds h ..
theorem execSclz_bounds {s : State} (h : AllBound s.work.groups) (d : SReg) (a : SReg) :
    OutBound (execSclz d a s) := alu1_bounds h ..
theorem execSctz_bounds {s : State} (h : AllBound s.work.groups) (d : SReg) (a : SReg) :
    OutBound (execSctz d a s) := alu1_bounds h ..
theorem execSpopc_bounds {s : State} (h : AllBound s.work.groups) (d : SReg) (a : SReg) :
    OutBound (execSpopc d a s) := alu1_bounds h ..
theorem execSbswap_bounds {s : State} (h : AllBound s.work.groups) (d : SReg) (a : SReg) :
    OutBound (execSbswap d a s) := alu1_bounds h ..
theorem execSsx8_bounds {s : State} (h : AllBound s.work.groups) (d : SReg) (a : SReg) :
    OutBound (execSsx8 d a s) := alu1_bounds h ..
theorem execSsx16_bounds {s : State} (h : AllBound s.work.groups) (d : SReg) (a : SReg) :
    OutBound (execSsx16 d a s) := alu1_bounds h ..
theorem execSsx32_bounds {s : State} (h : AllBound s.work.groups) (d : SReg) (a : SReg) :
    OutBound (execSsx32 d a s) := alu1_bounds h ..
theorem execSzx32_bounds {s : State} (h : AllBound s.work.groups) (d : SReg) (a : SReg) :
    OutBound (execSzx32 d a s) := alu1_bounds h ..
theorem execSaddi_bounds {s : State} (h : AllBound s.work.groups) (d : SReg) (a : SReg) (i : BitVec 14) :
    OutBound (execSaddi d a i s) := alu1_bounds h ..
theorem execSandi_bounds {s : State} (h : AllBound s.work.groups) (d : SReg) (a : SReg) (i : BitVec 14) :
    OutBound (execSandi d a i s) := alu1_bounds h ..
theorem execSori_bounds {s : State} (h : AllBound s.work.groups) (d : SReg) (a : SReg) (i : BitVec 14) :
    OutBound (execSori d a i s) := alu1_bounds h ..
theorem execSxori_bounds {s : State} (h : AllBound s.work.groups) (d : SReg) (a : SReg) (i : BitVec 14) :
    OutBound (execSxori d a i s) := alu1_bounds h ..
theorem execSslti_bounds {s : State} (h : AllBound s.work.groups) (d : SReg) (a : SReg) (i : BitVec 14) :
    OutBound (execSslti d a i s) := alu1_bounds h ..
theorem execSshli_bounds {s : State} (h : AllBound s.work.groups) (d : SReg) (a : SReg) (n : BitVec 6) :
    OutBound (execSshli d a n s) := alu1_bounds h ..
theorem execSshri_bounds {s : State} (h : AllBound s.work.groups) (d : SReg) (a : SReg) (n : BitVec 6) :
    OutBound (execSshri d a n s) := alu1_bounds h ..
theorem execSsrai_bounds {s : State} (h : AllBound s.work.groups) (d : SReg) (a : SReg) (n : BitVec 6) :
    OutBound (execSsrai d a n s) := alu1_bounds h ..
theorem execSrori_bounds {s : State} (h : AllBound s.work.groups) (d : SReg) (a : SReg) (n : BitVec 6) :
    OutBound (execSrori d a n s) := alu1_bounds h ..

theorem execSlui_bounds {s : State} (h : AllBound s.work.groups) (d : SReg) (i : BitVec 20) :
    OutBound (execSlui d i s) := by
  unfold execSlui
  grind [result_bounds, outBound_next]

theorem execSshlo_bounds {s : State} (h : AllBound s.work.groups) (d : SReg) (i : BitVec 20) :
    OutBound (execSshlo d i s) := by
  unfold execSshlo
  grind [result_bounds, outBound_next]

theorem execSld_bounds {s : State} (h : AllBound s.work.groups) (d : SReg) (a : SReg) (k : BitVec 3) (sp : Bool) (o : BitVec 10) :
    OutBound (execSld d a k sp o s) := onGroup_bounds h fun _ => scalarAccess_bounds h ..
theorem execSst_bounds {s : State} (h : AllBound s.work.groups) (d : SReg) (a : SReg) (k : BitVec 2) (sp : Bool) (o : BitVec 10) :
    OutBound (execSst d a k sp o s) := onGroup_bounds h fun _ => scalarAccess_bounds h ..
theorem execSldX_bounds {s : State} (h : AllBound s.work.groups) (d : SReg) (a : SReg) (b : SReg) (k : BitVec 3) (sp : Bool) :
    OutBound (execSldX d a b k sp s) := onGroup_bounds h fun _ => scalarAccess_bounds h ..
theorem execSstX_bounds {s : State} (h : AllBound s.work.groups) (d : SReg) (a : SReg) (b : SReg) (k : BitVec 2) (sp : Bool) :
    OutBound (execSstX d a b k sp s) := onGroup_bounds h fun _ => scalarAccess_bounds h ..

theorem execSldAcq_bounds {s : State} (h : AllBound s.work.groups) (d : SReg) (a : SReg) (k : BitVec 3) (sp : Bool) (c : Scope) :
    OutBound (execSldAcq d a k sp c s) := by
  unfold execSldAcq
  grind [onGroup_bounds, withScope_bounds, scalarAccess_bounds, outBound_next]

theorem execSstRel_bounds {s : State} (h : AllBound s.work.groups) (d : SReg) (a : SReg) (k : BitVec 2) (sp : Bool) (c : Scope) :
    OutBound (execSstRel d a k sp c s) := by
  unfold execSstRel
  grind [onGroup_bounds, withScope_bounds, afterLanes_bounds, scalarAccess_bounds, outBound_next]

theorem execSldRo_bounds {s : State} (h : AllBound s.work.groups) (d : SReg) (a : SReg) (b : SReg) (k : BitVec 3) :
    OutBound (execSldRo d a b k s) := onGroup_bounds h fun _ => scalarAccess_bounds h ..
theorem execSamoSwap_bounds {s : State} (h : AllBound s.work.groups) (x : SAmo) :
    OutBound (execSamoSwap x s) := samo_bounds h ..
theorem execSamoAdd_bounds {s : State} (h : AllBound s.work.groups) (x : SAmo) :
    OutBound (execSamoAdd x s) := samo_bounds h ..
theorem execSamoAnd_bounds {s : State} (h : AllBound s.work.groups) (x : SAmo) :
    OutBound (execSamoAnd x s) := samo_bounds h ..
theorem execSamoOr_bounds {s : State} (h : AllBound s.work.groups) (x : SAmo) :
    OutBound (execSamoOr x s) := samo_bounds h ..
theorem execSamoXor_bounds {s : State} (h : AllBound s.work.groups) (x : SAmo) :
    OutBound (execSamoXor x s) := samo_bounds h ..
theorem execSamoMinI_bounds {s : State} (h : AllBound s.work.groups) (x : SAmo) :
    OutBound (execSamoMinI x s) := samo_bounds h ..
theorem execSamoMaxI_bounds {s : State} (h : AllBound s.work.groups) (x : SAmo) :
    OutBound (execSamoMaxI x s) := samo_bounds h ..
theorem execSamoMinN_bounds {s : State} (h : AllBound s.work.groups) (x : SAmo) :
    OutBound (execSamoMinN x s) := samo_bounds h ..
theorem execSamoMaxN_bounds {s : State} (h : AllBound s.work.groups) (x : SAmo) :
    OutBound (execSamoMaxN x s) := samo_bounds h ..
theorem execSamoCas_bounds {s : State} (h : AllBound s.work.groups) (x : SAmo) :
    OutBound (execSamoCas x s) := samo_bounds h ..
theorem execSfence_bounds {s : State} (h : AllBound s.work.groups) (c : Scope) :
    OutBound (execSfence c s) := fence_bounds h ..
theorem execSfenceAcq_bounds {s : State} (h : AllBound s.work.groups) (c : Scope) :
    OutBound (execSfenceAcq c s) := fence_bounds h ..
theorem execSfenceRel_bounds {s : State} (h : AllBound s.work.groups) (c : Scope) :
    OutBound (execSfenceRel c s) := fence_bounds h ..

theorem execSbr_bounds {s : State} (h : AllBound s.work.groups) (a : SReg) (c : BitVec 4) (o : BitVec 16) :
    OutBound (execSbr a c o s) := by
  unfold execSbr
  grind [retireTo_bounds, tracedTo_bounds, traceBranch_bounds, outBound_next]

theorem execSjmp_bounds {s : State} (h : AllBound s.work.groups) (o : BitVec 26) :
    OutBound (execSjmp o s) := by
  unfold execSjmp
  grind [retireTo_bounds, outBound_next]

theorem execScall_bounds {s : State} (h : AllBound s.work.groups) (o : BitVec 26) :
    OutBound (execScall o s) := by
  unfold execScall
  grind [retireTo_bounds, setS_bounds, outBound_next]

theorem execSjr_bounds {s : State} (h : AllBound s.work.groups) (a : SReg) :
    OutBound (execSjr a s) := by
  unfold execSjr
  grind [indirect_bounds, outBound_next]

theorem execScallr_bounds {s : State} (h : AllBound s.work.groups) (a : SReg) :
    OutBound (execScallr a s) := by
  unfold execScallr
  grind [indirect_bounds, setS_bounds, outBound_next]

theorem execSret_bounds {s : State} (h : AllBound s.work.groups) :
    OutBound (execSret s) := by
  unfold execSret
  grind [indirect_bounds, outBound_next]

theorem execLrun_bounds {s : State} (h : AllBound s.work.groups) (n : BitVec 10) :
    OutBound (execLrun n s) := onGroup_bounds h fun _ => release_bounds h ..
theorem execLjmp_bounds {s : State} (h : AllBound s.work.groups) (o : BitVec 25) :
    OutBound (execLjmp o s) := onGroup_bounds h fun _ => release_bounds h ..

theorem execLrunr_bounds {s : State} (h : AllBound s.work.groups) (a : SReg) :
    OutBound (execLrunr a s) := by
  unfold execLrunr
  grind [onGroup_bounds, retire_bounds, illegal_bounds, release_bounds, outBound_next]

theorem execLjmpr_bounds {s : State} (h : AllBound s.work.groups) (a : SReg) :
    OutBound (execLjmpr a s) := onGroup_bounds h fun _ => release_bounds h ..

theorem execLsync_bounds {s : State} (h : AllBound s.work.groups) :
    OutBound (execLsync s) := by
  unfold execLsync
  grind [onGroup_bounds, afterLanes_bounds, retire_bounds, outBound_next]

theorem execLmask_bounds {s : State} (h : AllBound s.work.groups) (d : SReg) (w : BitVec 2) :
    OutBound (execLmask d w s) := by
  unfold execLmask
  grind [onGroup_bounds, afterLanes_bounds, result_bounds, outBound_next]

theorem execLsumm_bounds {s : State} (h : AllBound s.work.groups) (d : SReg) :
    OutBound (execLsumm d s) := by
  unfold execLsumm
  grind [onGroup_bounds, afterLanes_bounds, result_bounds, outBound_next]

theorem execSget_bounds {s : State} (h : AllBound s.work.groups) (d : SReg) (n : BitVec 12) :
    OutBound (execSget d n s) := by
  unfold execSget
  grind [onGroup_bounds, result_bounds, illegal_bounds, whenIssued_bounds, outBound_next]

theorem execKwait_bounds {s : State} (h : AllBound s.work.groups) (d : SReg) (a : SReg) (k : KReg) :
    OutBound (execKwait d a k s) := waitCounter_bounds h ..
theorem execWaitLd_bounds {s : State} (h : AllBound s.work.groups) (d : SReg) (a : SReg) :
    OutBound (execWaitLd d a s) := waitCounter_bounds h ..
theorem execWaitSt_bounds {s : State} (h : AllBound s.work.groups) (d : SReg) (a : SReg) :
    OutBound (execWaitSt d a s) := waitCounter_bounds h ..
theorem execWaitCp_bounds {s : State} (h : AllBound s.work.groups) (d : SReg) (a : SReg) :
    OutBound (execWaitCp d a s) := waitCounter_bounds h ..
theorem execWaitTl_bounds {s : State} (h : AllBound s.work.groups) (d : SReg) (a : SReg) :
    OutBound (execWaitTl d a s) := waitCounter_bounds h ..

theorem execBarInit_bounds {s : State} (h : AllBound s.work.groups) (a : SReg) (b : SReg) :
    OutBound (execBarInit a b s) := by
  unfold execBarInit
  grind [onGroup_bounds, notParked_bounds, illegal_bounds, clobber_bounds, tellLate_bounds, retire_bounds, modTeam_groups, raiseScalar_bounds, outBound_next]

theorem execBarFree_bounds {s : State} (h : AllBound s.work.groups) (a : SReg) :
    OutBound (execBarFree a s) := by
  unfold execBarFree
  grind [onGroup_bounds, notParked_bounds, withBar_bounds, retire_bounds, removeBooth_bounds, clobber_bounds, tellLate_bounds, setTeam_work_groups, outBound_next]

theorem execBarArrive_bounds {s : State} (h : AllBound s.work.groups) (d : SReg) (a : SReg) (b : SReg) :
    OutBound (execBarArrive d a b s) := by
  unfold execBarArrive
  grind [onGroup_bounds, withBar_bounds, afterLanes_bounds, clobber_bounds, tellLate_bounds, result_bounds, modTeam_groups, outBound_next]

theorem execBarWait_bounds {s : State} (h : AllBound s.work.groups) (a : SReg) :
    OutBound (execBarWait a s) := by
  unfold execBarWait
  grind [onGroup_bounds, notParked_bounds, withBar_bounds, clobber_bounds, wait_bounds, retire_bounds, outBound_next]

theorem execSbarArrive_bounds {s : State} (h : AllBound s.work.groups) (d : SReg) (c : Scope) :
    OutBound (execSbarArrive d c s) := by
  unfold execSbarArrive
  grind [onGroup_bounds, withNodeScope_bounds, afterLanes_bounds, wait_bounds, modLaunch_groups, result_bounds, settleBar_groups, outBound_next]

theorem execSbarWait_bounds {s : State} (h : AllBound s.work.groups) (a : SReg) (c : Scope) :
    OutBound (execSbarWait a c s) := by
  unfold execSbarWait
  grind [onGroup_bounds, withNodeScope_bounds, notParked_bounds, wait_bounds, retire_bounds, outBound_next]

theorem execBdecl_bounds {s : State} (h : AllBound s.work.groups) (a : SReg) (b : SReg) :
    OutBound (execBdecl a b s) := by
  unfold execBdecl
  grind [onGroup_bounds, declareBooth_bounds, illegal_bounds, raiseScalar_bounds, modGroup_bounds, wait_bounds, outBound_next, GroupBound, AllBound.group, foldl_bounds]

theorem execBput_bounds {s : State} (h : AllBound s.work.groups) (d : SReg) (a : SReg) (b : SReg) :
    OutBound (execBput d a b s) := boothRequest_bounds h ..
theorem execBputw_bounds {s : State} (h : AllBound s.work.groups) (d : SReg) (a : SReg) (b : SReg) :
    OutBound (execBputw d a b s) := boothRequest_bounds h ..

theorem execBtake_bounds {s : State} (h : AllBound s.work.groups) (d : SReg) (a : SReg) :
    OutBound (execBtake d a s) := by
  unfold execBtake
  grind [onGroup_bounds, illegal_bounds, raiseScalar_bounds, result_bounds, setTeam_work_groups, outBound_next]

theorem execBdrop_bounds {s : State} (h : AllBound s.work.groups) (a : SReg) :
    OutBound (execBdrop a s) := by
  unfold execBdrop
  grind [onGroup_bounds, illegal_bounds, raiseScalar_bounds, afterLanes_bounds, retire_bounds, setTeam_work_groups, outBound_next]

theorem execTset_bounds {s : State} (h : AllBound s.work.groups) (t : TReg) (a : SReg) (b : SReg) :
    OutBound (execTset t a b s) := onGroup_bounds h fun _ => writeTile_bounds h ..

theorem execTsetb_bounds {s : State} (h : AllBound s.work.groups) (t : TReg) (a : SReg) :
    OutBound (execTsetb t a s) := by
  unfold execTsetb
  grind [onGroup_bounds, illegal_bounds, writeTile_bounds, outBound_next]

theorem execTsets_bounds {s : State} (h : AllBound s.work.groups) (t : TReg) (a : SReg) :
    OutBound (execTsets t a s) := by
  unfold execTsets
  grind [onGroup_bounds, illegal_bounds, writeTile_bounds, outBound_next]

theorem execTgetl_bounds {s : State} (h : AllBound s.work.groups) (d : SReg) (t : TReg) :
    OutBound (execTgetl d t s) := onGroup_bounds h fun _ => result_bounds h ..
theorem execTgeth_bounds {s : State} (h : AllBound s.work.groups) (d : SReg) (t : TReg) :
    OutBound (execTgeth d t s) := onGroup_bounds h fun _ => result_bounds h ..

theorem execShalloc_bounds {s : State} (h : AllBound s.work.groups) (d : SReg) (a : SReg) :
    OutBound (execShalloc d a s) := by
  unfold execShalloc
  grind [onGroup_bounds, illegal_bounds, raiseScalar_bounds, result_bounds, setShape_work, outBound_next]

theorem execShfree_bounds {s : State} (h : AllBound s.work.groups) (a : SReg) :
    OutBound (execShfree a s) := by
  unfold execShfree
  grind [onGroup_bounds, retire_bounds, setShape_work, raiseScalar_bounds, outBound_next]

theorem execShtest_bounds {s : State} (h : AllBound s.work.groups) (d : SReg) (a : SReg) :
    OutBound (execShtest d a s) := onGroup_bounds h fun _ => result_bounds h ..

theorem execCobjFree_bounds {s : State} (h : AllBound s.work.groups) (a : SReg) :
    OutBound (execCobjFree a s) := by
  unfold execCobjFree
  grind [onGroup_bounds, withObject_bounds, wait_bounds, mergeObject_groups, retire_bounds, putObj_groups, outBound_next]

theorem execCobjQuery_bounds {s : State} (h : AllBound s.work.groups) (d : SReg) (a : SReg) :
    OutBound (execCobjQuery d a s) := by
  unfold execCobjQuery
  grind [onGroup_bounds, withObject_bounds, result_bounds, outBound_next]

theorem execCreduce_bounds {s : State} (h : AllBound s.work.groups) (d : SReg) (a : SReg) (b : SReg) :
    OutBound (execCreduce d a b s) := collective_bounds h ..
theorem execCallred_bounds {s : State} (h : AllBound s.work.groups) (d : SReg) (a : SReg) (b : SReg) :
    OutBound (execCallred d a b s) := collective_bounds h ..
theorem execCredscat_bounds {s : State} (h : AllBound s.work.groups) (d : SReg) (a : SReg) (b : SReg) :
    OutBound (execCredscat d a b s) := collective_bounds h ..
theorem execCallgath_bounds {s : State} (h : AllBound s.work.groups) (d : SReg) (a : SReg) (b : SReg) :
    OutBound (execCallgath d a b s) := collective_bounds h ..
theorem execCalltoall_bounds {s : State} (h : AllBound s.work.groups) (d : SReg) (a : SReg) (b : SReg) :
    OutBound (execCalltoall d a b s) := collective_bounds h ..
theorem execCbcast_bounds {s : State} (h : AllBound s.work.groups) (d : SReg) (a : SReg) (b : SReg) :
    OutBound (execCbcast d a b s) := collective_bounds h ..

theorem execCabort_bounds {s : State} (h : AllBound s.work.groups) (d : SReg) (a : SReg) :
    OutBound (execCabort d a s) := by
  unfold execCabort
  grind [onGroup_bounds, notParked_bounds, illegal_bounds, raiseScalar_bounds, afterLanes_bounds, result_bounds, putColl_groups, dropSusp_bounds, outBound_next]

theorem execTmark_bounds {s : State} (h : AllBound s.work.groups) (a : SReg) (b : SReg) :
    OutBound (execTmark a b s) := by
  unfold execTmark
  grind [onGroup_bounds, retireTraced_bounds, aheadNow_bounds, emitGroup_bounds, outBound_next]

theorem execTsync_bounds {s : State} (h : AllBound s.work.groups) :
    OutBound (execTsync s) := by
  unfold execTsync
  grind [onGroup_bounds, retireTraced_bounds, emitSync_bounds, outBound_next]

theorem execTsamp_bounds {s : State} (h : AllBound s.work.groups) (a : SReg) :
    OutBound (execTsamp a s) := by
  unfold execTsamp
  grind [onGroup_bounds, retire_bounds, modGroup_bounds, outBound_next, GroupBound, AllBound.group, foldl_bounds]

theorem execSpget_bounds {s : State} (h : AllBound s.work.groups) (d : SReg) (a : SReg) :
    OutBound (execSpget d a s) := by
  unfold execSpget
  grind [privileged_bounds, illegal_bounds, result_bounds, outBound_next]

theorem execSpset_bounds {s : State} (h : AllBound s.work.groups) (a : SReg) (b : SReg) :
    OutBound (execSpset a b s) := by
  unfold execSpset
  grind [privileged_bounds, illegal_bounds, retire_bounds, regPut_bounds, outBound_next]

theorem execSslotw_bounds {s : State} (h : AllBound s.work.groups) (a : SReg) (b : SReg) :
    OutBound (execSslotw a b s) := by
  unfold execSslotw
  grind [privileged_bounds, illegal_bounds, retire_bounds, modCore_groups, outBound_next, GroupBound, AllBound.group, foldl_bounds]

theorem execSslotr_bounds {s : State} (h : AllBound s.work.groups) (d : SReg) (a : SReg) :
    OutBound (execSslotr d a s) := by
  unfold execSslotr
  grind [privileged_bounds, result_bounds, illegal_bounds, outBound_next]

theorem execSslotx_bounds {s : State} (h : AllBound s.work.groups) (a : SReg) :
    OutBound (execSslotx a s) := by
  unfold execSslotx
  grind [privileged_bounds, illegal_bounds, wait_bounds, retire_bounds, modCore_groups, modGroup_bounds, outBound_next, GroupBound, AllBound.group, foldl_bounds]

theorem execSpreq_bounds {s : State} (h : AllBound s.work.groups) (d : SReg) (a : SReg) (b : SReg) :
    OutBound (execSpreq d a b s) := by
  unfold execSpreq
  grind [privileged_bounds, illegal_bounds, result_bounds, askYield_groups, tellChips_groups, outBound_next]

theorem execSgpl_bounds {s : State} (h : AllBound s.work.groups) (d : SReg) :
    OutBound (execSgpl d s) := privileged_bounds h _ fun _ => result_bounds h ..

theorem execTlbroot_bounds {s : State} (h : AllBound s.work.groups) (a : SReg) (b : SReg) :
    OutBound (execTlbroot a b s) := by
  unfold execTlbroot
  grind [privileged_bounds, illegal_bounds, retire_bounds, invalidate_bounds, modDie_groups, wait_bounds, outBound_next, GroupBound, AllBound.group, foldl_bounds]

theorem execTlbinv_bounds {s : State} (h : AllBound s.work.groups) (a : SReg) (b : SReg) :
    OutBound (execTlbinv a b s) := by
  unfold execTlbinv
  grind [privileged_bounds, retire_bounds, afterLanes_bounds, invalidate_bounds, askAnswer_bounds, dropTlb_groups, illegal_bounds, raiseScalar_bounds, outBound_next, GroupBound, AllBound.group, foldl_bounds]

theorem execPmap_bounds {s : State} (h : AllBound s.work.groups) (d : SReg) (a : SReg) (b : SReg) :
    OutBound (execPmap d a b s) := by
  unfold execPmap
  grind [privileged_bounds, raiseScalar_bounds, illegal_bounds, pmapAt_bounds, result_bounds, askAnswer_bounds, outBound_next]

theorem execPgive_bounds {s : State} (h : AllBound s.work.groups) (d : SReg) (a : SReg) (b : SReg) :
    OutBound (execPgive d a b s) := by
  unfold execPgive
  grind [privileged_bounds, illegal_bounds, result_bounds, modDie_groups, outBound_next]

theorem execWldp_bounds {s : State} (h : AllBound s.work.groups) (d : SReg) (a : SReg) :
    OutBound (execWldp d a s) := by
  unfold execWldp
  grind [inWalk_bounds, result_bounds, walkError_groups, outBound_next]

theorem execWcasp_bounds {s : State} (h : AllBound s.work.groups) (d : SReg) (a : SReg) (b : SReg) :
    OutBound (execWcasp d a b s) := by
  unfold execWcasp
  grind [inWalk_bounds, result_bounds, walkError_groups, outBound_next]

theorem execTlbfill_bounds {s : State} (h : AllBound s.work.groups) (a : SReg) (b : SReg) :
    OutBound (execTlbfill a b s) := by
  unfold execTlbfill
  grind [inWalk_bounds, walkError_groups, finishWalk_groups, installLeaf_groups, outBound_next]

theorem execWentry_bounds {s : State} (h : AllBound s.work.groups) (a : SReg) (b : SReg) :
    OutBound (execWentry a b s) := by
  unfold execWentry
  grind [privileged_bounds, illegal_bounds, retire_bounds, modDie_groups, outBound_next, GroupBound, AllBound.group, foldl_bounds]

theorem execEkill_bounds {s : State} (h : AllBound s.work.groups) (a : SReg) :
    OutBound (execEkill a s) := by
  unfold execEkill
  grind [privileged_bounds, illegal_bounds, unhandled_bounds, outBound_next]

theorem execEfget_bounds {s : State} (h : AllBound s.work.groups) (d : SReg) (a : SReg) :
    OutBound (execEfget d a s) := by
  unfold execEfget
  grind [inHandlerOnly_bounds, result_bounds, illegal_bounds, outBound_next]

theorem execVadd_bounds {s : State} (h : AllBound s.work.groups) (x : IntBin) :
    OutBound (execVadd x s) := intBin_bounds h ..
theorem execVsub_bounds {s : State} (h : AllBound s.work.groups) (x : IntBin) :
    OutBound (execVsub x s) := intBin_bounds h ..
theorem execVmul_bounds {s : State} (h : AllBound s.work.groups) (x : IntBin) :
    OutBound (execVmul x s) := intBin_bounds h ..
theorem execVmulh_bounds {s : State} (h : AllBound s.work.groups) (x : IntBin) :
    OutBound (execVmulh x s) := intBin_bounds h ..

theorem execVmad_bounds {s : State} (h : AllBound s.work.groups) (x : IntTern) :
    OutBound (execVmad x s) := by
  simp only [execVmad]
  exact laneOp_bounds h _ _ fun _ _ => sameBounds_putWide ..

theorem execVmin_bounds {s : State} (h : AllBound s.work.groups) (x : IntBin) :
    OutBound (execVmin x s) := intBin_bounds h ..
theorem execVmax_bounds {s : State} (h : AllBound s.work.groups) (x : IntBin) :
    OutBound (execVmax x s) := intBin_bounds h ..
theorem execVdiv_bounds {s : State} (h : AllBound s.work.groups) (x : IntBin) :
    OutBound (execVdiv x s) := intBin_bounds h ..
theorem execVrem_bounds {s : State} (h : AllBound s.work.groups) (x : IntBin) :
    OutBound (execVrem x s) := intBin_bounds h ..
theorem execVand_bounds {s : State} (h : AllBound s.work.groups) (x : IntBin) :
    OutBound (execVand x s) := intBin_bounds h ..
theorem execVor_bounds {s : State} (h : AllBound s.work.groups) (x : IntBin) :
    OutBound (execVor x s) := intBin_bounds h ..
theorem execVxor_bounds {s : State} (h : AllBound s.work.groups) (x : IntBin) :
    OutBound (execVxor x s) := intBin_bounds h ..
theorem execVandn_bounds {s : State} (h : AllBound s.work.groups) (x : IntBin) :
    OutBound (execVandn x s) := intBin_bounds h ..
theorem execVshl_bounds {s : State} (h : AllBound s.work.groups) (x : IntBin) :
    OutBound (execVshl x s) := intBin_bounds h ..
theorem execVshr_bounds {s : State} (h : AllBound s.work.groups) (x : IntBin) :
    OutBound (execVshr x s) := intBin_bounds h ..
theorem execVclz_bounds {s : State} (h : AllBound s.work.groups) (x : IntUn) :
    OutBound (execVclz x s) := intUn_bounds h ..
theorem execVpopc_bounds {s : State} (h : AllBound s.work.groups) (x : IntUn) :
    OutBound (execVpopc x s) := intUn_bounds h ..

theorem execVcmp_bounds {s : State} (h : AllBound s.work.groups) (x : IntCmp) :
    OutBound (execVcmp x s) := by
  simp only [execVcmp]
  exact laneOp_bounds h _ _ fun _ _ => sameBounds_putPred ..

theorem execVaddPacked_bounds {s : State} (h : AllBound s.work.groups) (x : PackBin) :
    OutBound (execVaddPacked x s) := packBin_bounds h ..
theorem execVsubPacked_bounds {s : State} (h : AllBound s.work.groups) (x : PackBin) :
    OutBound (execVsubPacked x s) := packBin_bounds h ..
theorem execVminPacked_bounds {s : State} (h : AllBound s.work.groups) (x : PackBin) :
    OutBound (execVminPacked x s) := packBin_bounds h ..
theorem execVmaxPacked_bounds {s : State} (h : AllBound s.work.groups) (x : PackBin) :
    OutBound (execVmaxPacked x s) := packBin_bounds h ..
theorem execVmulPacked_bounds {s : State} (h : AllBound s.work.groups) (x : PackBin) :
    OutBound (execVmulPacked x s) := packBin_bounds h ..
theorem execVcmpEqPacked_bounds {s : State} (h : AllBound s.work.groups) (x : PackCmp) :
    OutBound (execVcmpEqPacked x s) := packCmp_bounds h ..
theorem execVcmpLtPacked_bounds {s : State} (h : AllBound s.work.groups) (x : PackCmp) :
    OutBound (execVcmpLtPacked x s) := packCmp_bounds h ..
theorem execVcmpLePacked_bounds {s : State} (h : AllBound s.work.groups) (x : PackCmp) :
    OutBound (execVcmpLePacked x s) := packCmp_bounds h ..

theorem execVdot_bounds {s : State} (h : AllBound s.work.groups) (x : DotArgs) :
    OutBound (execVdot x s) := by
  simp only [execVdot]
  exact laneOp_bounds h _ _ fun _ _ => sameBounds_putLanes ..

theorem execVmovN32_bounds {s : State} (h : AllBound s.work.groups) (x : MovArgs) :
    OutBound (execVmovN32 x s) := move_bounds h ..

theorem execVselN32_bounds {s : State} (h : AllBound s.work.groups) (x : SelArgs) :
    OutBound (execVselN32 x s) := by
  simp only [execVselN32]
  exact laneOp_bounds h _ _ fun _ _ => sameBounds_putLanes ..

theorem execVselN64_bounds {s : State} (h : AllBound s.work.groups) (x : SelArgs) :
    OutBound (execVselN64 x s) := by
  simp only [execVselN64]
  exact laneOp_bounds h _ _ fun _ _ => sameBounds_putWide ..

theorem execVcoord_bounds {s : State} (h : AllBound s.work.groups) (x : CoordArgs) :
    OutBound (execVcoord x s) := by
  simp only [execVcoord]
  exact laneOp_bounds h _ _ fun _ _ => sameBounds_putLanes ..

theorem execVmovN64_bounds {s : State} (h : AllBound s.work.groups) (x : MovArgs) :
    OutBound (execVmovN64 x s) := move_bounds h ..
theorem execVaddFp_bounds {s : State} (h : AllBound s.work.groups) (x : FpBin) :
    OutBound (execVaddFp x s) := fpBin_bounds h ..
theorem execVsubFp_bounds {s : State} (h : AllBound s.work.groups) (x : FpBin) :
    OutBound (execVsubFp x s) := fpBin_bounds h ..
theorem execVmulFp_bounds {s : State} (h : AllBound s.work.groups) (x : FpBin) :
    OutBound (execVmulFp x s) := fpBin_bounds h ..
theorem execVfma_bounds {s : State} (h : AllBound s.work.groups) (x : FpTern) :
    OutBound (execVfma x s) := fpTern_bounds h ..
theorem execVfms_bounds {s : State} (h : AllBound s.work.groups) (x : FpTern) :
    OutBound (execVfms x s) := fpTern_bounds h ..
theorem execVfnma_bounds {s : State} (h : AllBound s.work.groups) (x : FpTern) :
    OutBound (execVfnma x s) := fpTern_bounds h ..
theorem execVdivFp_bounds {s : State} (h : AllBound s.work.groups) (x : FpBin) :
    OutBound (execVdivFp x s) := fpBin_bounds h ..

theorem execVsqrt_bounds {s : State} (h : AllBound s.work.groups) (x : FpUn) :
    OutBound (execVsqrt x s) := by
  simp only [execVsqrt]
  exact laneOp_bounds h _ _ fun _ _ => sameBounds_putWide ..

theorem execVcmpFp_bounds {s : State} (h : AllBound s.work.groups) (x : FpCmp) :
    OutBound (execVcmpFp x s) := by
  simp only [execVcmpFp]
  exact laneOp_bounds h _ _ fun _ _ => sameBounds_putPred ..

theorem execVminFp_bounds {s : State} (h : AllBound s.work.groups) (x : FpSel) :
    OutBound (execVminFp x s) := fpSel_bounds h ..
theorem execVmaxFp_bounds {s : State} (h : AllBound s.work.groups) (x : FpSel) :
    OutBound (execVmaxFp x s) := fpSel_bounds h ..
theorem execVneg_bounds {s : State} (h : AllBound s.work.groups) (x : FpBits) :
    OutBound (execVneg x s) := fpBits_bounds h ..
theorem execVabs_bounds {s : State} (h : AllBound s.work.groups) (x : FpBits) :
    OutBound (execVabs x s) := fpBits_bounds h ..
theorem execVcsgn_bounds {s : State} (h : AllBound s.work.groups) (x : FpSel) :
    OutBound (execVcsgn x s) := fpSel_bounds h ..

theorem execVclass_bounds {s : State} (h : AllBound s.work.groups) (x : FpBits) :
    OutBound (execVclass x s) := by
  simp only [execVclass]
  exact laneOp_bounds h _ _ fun _ _ => sameBounds_putLanes ..

theorem execVaddF16_bounds {s : State} (h : AllBound s.work.groups) (x : HBin) :
    OutBound (execVaddF16 x s) := halfBin_bounds h ..
theorem execVsubF16_bounds {s : State} (h : AllBound s.work.groups) (x : HBin) :
    OutBound (execVsubF16 x s) := halfBin_bounds h ..
theorem execVmulF16_bounds {s : State} (h : AllBound s.work.groups) (x : HBin) :
    OutBound (execVmulF16 x s) := halfBin_bounds h ..

theorem execVfmaF16_bounds {s : State} (h : AllBound s.work.groups) (x : HTern) :
    OutBound (execVfmaF16 x s) := by
  simp only [execVfmaF16]
  exact packedOp_bounds h _ _ _ fun _ _ => sameBounds_putPacked ..

theorem execVminF16_bounds {s : State} (h : AllBound s.work.groups) (x : HSel) :
    OutBound (execVminF16 x s) := halfSel_bounds h ..
theorem execVmaxF16_bounds {s : State} (h : AllBound s.work.groups) (x : HSel) :
    OutBound (execVmaxF16 x s) := halfSel_bounds h ..
theorem execVcmpEqF16_bounds {s : State} (h : AllBound s.work.groups) (x : HCmp) :
    OutBound (execVcmpEqF16 x s) := halfCmp_bounds h ..
theorem execVcmpLtF16_bounds {s : State} (h : AllBound s.work.groups) (x : HCmp) :
    OutBound (execVcmpLtF16 x s) := halfCmp_bounds h ..

theorem execVdot2_bounds {s : State} (h : AllBound s.work.groups) (x : HTern) :
    OutBound (execVdot2 x s) := by
  simp only [execVdot2]
  exact laneOp_bounds h _ _ fun _ _ => sameBounds_putLanes ..

theorem execVcvtp_bounds {s : State} (h : AllBound s.work.groups) (x : CvtpArgs) :
    OutBound (execVcvtp x s) := by
  simp only [execVcvtp]
  exact packedOp_bounds h _ _ _ fun _ _ => sameBounds_putPacked ..

theorem execVfrsqe_bounds {s : State} (h : AllBound s.work.groups) (x : SfArgs) :
    OutBound (execVfrsqe x s) := special_bounds h ..
theorem execVfrcpe_bounds {s : State} (h : AllBound s.work.groups) (x : SfArgs) :
    OutBound (execVfrcpe x s) := special_bounds h ..
theorem execVfexp2_bounds {s : State} (h : AllBound s.work.groups) (x : SfArgs) :
    OutBound (execVfexp2 x s) := special_bounds h ..
theorem execVflog2_bounds {s : State} (h : AllBound s.work.groups) (x : SfArgs) :
    OutBound (execVflog2 x s) := special_bounds h ..
theorem execVfsinpi_bounds {s : State} (h : AllBound s.work.groups) (x : SfArgs) :
    OutBound (execVfsinpi x s) := special_bounds h ..
theorem execVfcospi_bounds {s : State} (h : AllBound s.work.groups) (x : SfArgs) :
    OutBound (execVfcospi x s) := special_bounds h ..
theorem execVpand_bounds {s : State} (h : AllBound s.work.groups) (x : PredBin) :
    OutBound (execVpand x s) := predBin_bounds h ..
theorem execVpor_bounds {s : State} (h : AllBound s.work.groups) (x : PredBin) :
    OutBound (execVpor x s) := predBin_bounds h ..
theorem execVpxor_bounds {s : State} (h : AllBound s.work.groups) (x : PredBin) :
    OutBound (execVpxor x s) := predBin_bounds h ..
theorem execVpandn_bounds {s : State} (h : AllBound s.work.groups) (x : PredBin) :
    OutBound (execVpandn x s) := predBin_bounds h ..

theorem execVpnot_bounds {s : State} (h : AllBound s.work.groups) (x : PredUn) :
    OutBound (execVpnot x s) := by
  simp only [execVpnot]
  exact laneOp_bounds h _ _ fun _ _ => sameBounds_putNibbles ..

theorem execVpset_bounds {s : State} (h : AllBound s.work.groups) (x : PredSet) :
    OutBound (execVpset x s) := by
  simp only [execVpset]
  exact laneOp_bounds h _ _ fun _ _ => sameBounds_putNibbles ..

theorem execVpget_bounds {s : State} (h : AllBound s.work.groups) (x : PredGet) :
    OutBound (execVpget x s) := by
  simp only [execVpget]
  exact laneOp_bounds h _ _ fun _ _ => sameBounds_putLanes ..

theorem execVpmov_bounds {s : State} (h : AllBound s.work.groups) (x : PredMov) :
    OutBound (execVpmov x s) := predMov_bounds h ..
theorem execVpnz_bounds {s : State} (h : AllBound s.work.groups) (x : PredMov) :
    OutBound (execVpnz x s) := predMov_bounds h ..
theorem execVshflIdx_bounds {s : State} (h : AllBound s.work.groups) (x : ShflArgs) :
    OutBound (execVshflIdx x s) := shuffle_bounds h ..
theorem execVshflUp_bounds {s : State} (h : AllBound s.work.groups) (x : ShflArgs) :
    OutBound (execVshflUp x s) := shuffle_bounds h ..
theorem execVshflDown_bounds {s : State} (h : AllBound s.work.groups) (x : ShflArgs) :
    OutBound (execVshflDown x s) := shuffle_bounds h ..
theorem execVshflXor_bounds {s : State} (h : AllBound s.work.groups) (x : ShflArgs) :
    OutBound (execVshflXor x s) := shuffle_bounds h ..

theorem execVscan_bounds {s : State} (h : AllBound s.work.groups) (x : ScanArgs) :
    OutBound (execVscan x s) := by
  simp only [execVscan]
  exact laneOp_bounds h _ _ fun _ _ => sameBounds_putLanes ..

theorem execVbcast_bounds {s : State} (h : AllBound s.work.groups) (x : BcastArgs) :
    OutBound (execVbcast x s) := by
  simp only [execVbcast]
  exact laneOp_bounds h _ _ fun _ _ => sameBounds_putWide ..

theorem execVmatch_bounds {s : State} (h : AllBound s.work.groups) (x : MatchArgs) :
    OutBound (execVmatch x s) := by
  simp only [execVmatch]
  exact laneOp_bounds h _ _ fun _ _ => sameBounds_putLanes ..

theorem execVld_bounds {s : State} (h : AllBound s.work.groups) (x : ContArgs) :
    OutBound (execVld x s) := by
  unfold execVld
  grind [memIssue_bounds, outBound_next]

theorem execVldq_bounds {s : State} (h : AllBound s.work.groups) (x : ContArgs) :
    OutBound (execVldq x s) := by
  unfold execVldq
  grind [memIssue_bounds, outBound_next]

theorem execVldx_bounds {s : State} (h : AllBound s.work.groups) (x : IdxArgs) :
    OutBound (execVldx x s) := by
  unfold execVldx
  grind [memIssue_bounds, outBound_next]

theorem execVst_bounds {s : State} (h : AllBound s.work.groups) (x : ContArgs) :
    OutBound (execVst x s) := by
  unfold execVst
  grind [memIssue_bounds, outBound_next]

theorem execVstq_bounds {s : State} (h : AllBound s.work.groups) (x : ContArgs) :
    OutBound (execVstq x s) := by
  unfold execVstq
  grind [memIssue_bounds, outBound_next]

theorem execVstx_bounds {s : State} (h : AllBound s.work.groups) (x : IdxArgs) :
    OutBound (execVstx x s) := by
  unfold execVstx
  grind [memIssue_bounds, outBound_next]

theorem execVamo_bounds {s : State} (h : AllBound s.work.groups) (x : VAmoArgs) :
    OutBound (execVamo x s) := by
  unfold execVamo
  grind [memIssue_bounds, outBound_next]

theorem execVqatomAdd_bounds {s : State} (h : AllBound s.work.groups) (x : QatomArgs) :
    OutBound (execVqatomAdd x s) := by
  unfold execVqatomAdd
  grind [memIssue_bounds, outBound_next]

theorem execVqatomMerge_bounds {s : State} (h : AllBound s.work.groups) (x : QatomArgs) :
    OutBound (execVqatomMerge x s) := by
  unfold execVqatomMerge
  grind [memIssue_bounds, outBound_next]

theorem execVpref_bounds {s : State} (h : AllBound s.work.groups) (x : PrefArgs) :
    OutBound (execVpref x s) := prefetch_bounds h ..

theorem execVprefx_bounds {s : State} (h : AllBound s.work.groups) (x : PrefxArgs) :
    OutBound (execVprefx x s) := by
  unfold execVprefx
  grind [prefetch_bounds, outBound_next]

theorem execVbput_bounds {s : State} (h : AllBound s.work.groups) (x : VBoothArgs) :
    OutBound (execVbput x s) := by
  unfold execVbput
  grind [onGroup_bounds, boothIssue_bounds, raiseLane_bounds, modGroup_bounds, noteSample_bounds, outBound_next, GroupBound, AllBound.group, foldl_bounds]

theorem execQzero_bounds {s : State} (h : AllBound s.work.groups) (x : QOne) :
    OutBound (execQzero x s) := by
  simp only [execQzero]
  exact laneOp_bounds h _ _ fun _ _ => sameBounds_putSlots ..

theorem execQmov_bounds {s : State} (h : AllBound s.work.groups) (x : QTwo) :
    OutBound (execQmov x s) := slotOp_bounds h ..
theorem execQadd_bounds {s : State} (h : AllBound s.work.groups) (x : QAddArgs) :
    OutBound (execQadd x s) := accumulate_bounds h ..
theorem execQmac_bounds {s : State} (h : AllBound s.work.groups) (x : QMacArgs) :
    OutBound (execQmac x s) := accumulate_bounds h ..
theorem execQmerge_bounds {s : State} (h : AllBound s.work.groups) (x : QTwo) :
    OutBound (execQmerge x s) := slotOp_bounds h ..

theorem execQnorm_bounds {s : State} (h : AllBound s.work.groups) (x : QOne) :
    OutBound (execQnorm x s) := by
  simp only [execQnorm]
  exact laneOp_bounds h _ _ fun _ _ => sameBounds_putSlots ..

theorem execQred_bounds {s : State} (h : AllBound s.work.groups) (x : QRedArgs) :
    OutBound (execQred x s) := by
  simp only [execQred]
  exact laneOp_bounds h _ _ fun _ _ => sameBounds_putSlots ..

theorem execQstat_bounds {s : State} (h : AllBound s.work.groups) (x : QTwo) :
    OutBound (execQstat x s) := by
  simp only [execQstat]
  exact laneOp_bounds h _ _ fun _ _ => sameBounds_putWide ..

theorem execQseg_bounds {s : State} (h : AllBound s.work.groups) (x : QSegArgs) :
    OutBound (execQseg x s) := by
  simp only [execQseg]
  exact laneOp_bounds h _ _ fun _ _ => sameBounds_putWide ..

theorem execQspill_bounds {s : State} (h : AllBound s.work.groups) (x : QMemArgs) :
    OutBound (execQspill x s) := by
  unfold execQspill
  grind [memIssue_bounds, outBound_next]

theorem execQfill_bounds {s : State} (h : AllBound s.work.groups) (x : QMemArgs) :
    OutBound (execQfill x s) := by
  unfold execQfill
  grind [memIssue_bounds, outBound_next]

theorem execTmma_bounds {s : State} (h : AllBound s.work.groups) (x : MulArgs) :
    OutBound (execTmma x s) := tileIssue_bounds h ..
theorem execTcsum_bounds {s : State} (h : AllBound s.work.groups) (x : MulArgs) :
    OutBound (execTcsum x s) := tileIssue_bounds h ..
theorem execTconv_bounds {s : State} (h : AllBound s.work.groups) (x : MulArgs) :
    OutBound (execTconv x s) := tileIssue_bounds h ..
theorem execTasum_bounds {s : State} (h : AllBound s.work.groups) (x : MoveArgs) :
    OutBound (execTasum x s) := tileIssue_bounds h ..
theorem execTzero_bounds {s : State} (h : AllBound s.work.groups) (x : MoveArgs) :
    OutBound (execTzero x s) := tileIssue_bounds h ..
theorem execTload_bounds {s : State} (h : AllBound s.work.groups) (x : MoveArgs) :
    OutBound (execTload x s) := tileIssue_bounds h ..
theorem execTstore_bounds {s : State} (h : AllBound s.work.groups) (x : MoveArgs) :
    OutBound (execTstore x s) := tileIssue_bounds h ..
theorem execTepi_bounds {s : State} (h : AllBound s.work.groups) (x : EpiArgs) :
    OutBound (execTepi x s) := tileIssue_bounds h ..
theorem execTstage_bounds {s : State} (h : AllBound s.work.groups) (x : MoveArgs) :
    OutBound (execTstage x s) := tileIssue_bounds h ..
theorem execTres_bounds {s : State} (h : AllBound s.work.groups) (x : ResArgs) :
    OutBound (execTres x s) := tileIssue_bounds h ..
theorem execTrel_bounds {s : State} (h : AllBound s.work.groups) (n : BitVec 4) :
    OutBound (execTrel n s) := tileIssue_bounds h ..

theorem execTileQueueEntry_bounds {s : State} (h : AllBound s.work.groups) (g : ℕ) :
    OutBound (execTileQueueEntry g s) := by
  unfold execTileQueueEntry
  grind [tileEnter_bounds, outBound_next]

theorem execTileTurn_bounds {s : State} (h : AllBound s.work.groups) (g : ℕ) :
    OutBound (execTileTurn g s) := by
  unfold execTileTurn
  grind [tileTurn_bounds, outBound_next]

theorem execTileCommit_bounds {s : State} (h : AllBound s.work.groups) (g : ℕ) :
    OutBound (execTileCommit g s) := by
  unfold execTileCommit
  grind [tileCommit_bounds, outBound_next]

theorem execScalarReply_bounds {s : State} (h : AllBound s.work.groups) (g : ℕ) :
    OutBound (execScalarReply g s) := by
  unfold execScalarReply
  grind [asGroup_bounds, finishScalar_bounds, outBound_next]

theorem execSemaphoreSatisfied_bounds {s : State} (h : AllBound s.work.groups) (q : ℕ) :
    OutBound (execSemaphoreSatisfied q s) := by
  unfold execSemaphoreSatisfied
  grind [queueRead_groups, streamError_groups, pollSemaphore_groups, outBound_next]

theorem execPacketLaunch_bounds {s : State} (h : AllBound s.work.groups) (q : ℕ) :
    OutBound (execPacketLaunch q s) := by
  unfold execPacketLaunch
  grind [onPacket_bounds, queueRead_groups, unreadable_groups, addLaunch_groups, proceed_groups, queueLaunch_groups, submit_groups, outBound_next]

theorem execPacketWait_bounds {s : State} (h : AllBound s.work.groups) (q : ℕ) :
    OutBound (execPacketWait q s) := by
  unfold execPacketWait
  grind [onPacket_bounds, pollSemaphore_groups, outBound_next]

theorem execPacketSignal_bounds {s : State} (h : AllBound s.work.groups) (q : ℕ) :
    OutBound (execPacketSignal q s) := by
  unfold execPacketSignal
  grind [onPacket_bounds, queueWrite_groups, streamError_groups, proceed_groups, raiseVector_groups, outBound_next]

theorem execPacketCopy_bounds {s : State} (h : AllBound s.work.groups) (q : ℕ) :
    OutBound (execPacketCopy q s) := by
  unfold execPacketCopy
  grind [onPacket_bounds, proceed_groups, setQueue_work, outBound_next]

theorem execPacketFence_bounds {s : State} (h : AllBound s.work.groups) (q : ℕ) :
    OutBound (execPacketFence q s) := by
  unfold execPacketFence
  grind [onPacket_bounds, proceed_groups, raiseVector_groups, outBound_next]

theorem execPacketMark_bounds {s : State} (h : AllBound s.work.groups) (q : ℕ) :
    OutBound (execPacketMark q s) := by
  unfold execPacketMark
  grind [onPacket_bounds, proceed_groups, putRecord_groups, outBound_next]

theorem execPacketJump_bounds {s : State} (h : AllBound s.work.groups) (q : ℕ) :
    OutBound (execPacketJump q s) := by
  unfold execPacketJump
  grind [onPacket_bounds, streamError_groups, modQueue_groups, outBound_next]

theorem execPacketNop_bounds {s : State} (h : AllBound s.work.groups) (q : ℕ) :
    OutBound (execPacketNop q s) := by
  unfold execPacketNop
  grind [onPacket_bounds, proceed_groups, outBound_next]

theorem execPacketCopyDone_bounds {s : State} (h : AllBound s.work.groups) (q : ℕ) :
    OutBound (execPacketCopyDone q s) := by
  unfold execPacketCopyDone
  grind [copyChunk_groups, modQueue_groups, streamError_groups, outBound_next]

theorem execHeldRecordEmit_bounds {s : State} (h : AllBound s.work.groups) (p : ℕ) (d : ℕ) :
    OutBound (execHeldRecordEmit p d s) := by
  unfold execHeldRecordEmit
  grind [powered_bounds, drainAll_groups, outBound_next]

theorem execWalkStart_bounds {s : State} (h : AllBound s.work.groups) (w : ℕ) :
    OutBound (execWalkStart w s) := by
  unfold execWalkStart
  grind [engineEvent_groups, setWalk_work_groups, walkError_groups, outBound_next]

theorem execWalkLimitExpiry_bounds {s : State} (h : AllBound s.work.groups) (w : ℕ) :
    OutBound (execWalkLimitExpiry w s) := by
  unfold execWalkLimitExpiry
  grind [walkError_groups, outBound_next]

theorem execCopyWrite_bounds {s : State} (h : AllBound s.work.groups) (t : ℕ) (c : ℕ) :
    OutBound (execCopyWrite t c s) := by
  unfold execCopyWrite
  grind [copyStep_bounds, outBound_next]

theorem execCopyComplete_bounds {s : State} (h : AllBound s.work.groups) (t : ℕ) (c : ℕ) :
    OutBound (execCopyComplete t c s) := by
  unfold execCopyComplete
  grind [copyEnd_bounds, outBound_next]

theorem execBputwReserve_bounds {s : State} (h : AllBound s.work.groups) (g : ℕ) :
    OutBound (execBputwReserve g s) := by
  unfold execBputwReserve
  grind [boothWake_bounds, outBound_next]

theorem execCollectiveHandover_bounds {s : State} (h : AllBound s.work.groups) (t : ℕ) :
    OutBound (execCollectiveHandover t s) := by
  unfold execCollectiveHandover
  grind [collHandover_bounds, outBound_next]

theorem execCollectiveStep_bounds {s : State} (h : AllBound s.work.groups) (c : ℕ) :
    OutBound (execCollectiveStep c s) := by
  unfold execCollectiveStep
  grind [collStep_bounds, outBound_next]

theorem execCollectiveEnd_bounds {s : State} (h : AllBound s.work.groups) (c : ℕ) :
    OutBound (execCollectiveEnd c s) := by
  unfold execCollectiveEnd
  grind [collEnd_bounds, outBound_next]

theorem execCobjModeDone_bounds {s : State} (h : AllBound s.work.groups) (die : ℕ) (entry : ℕ) :
    OutBound (execCobjModeDone die entry s) := by
  unfold execCobjModeDone
  grind [cobjModeEnd_bounds, outBound_next]

theorem execCarveDone_bounds {s : State} (h : AllBound s.work.groups) (die : ℕ) :
    OutBound (execCarveDone die s) := by
  unfold execCarveDone
  grind [carveEnd_bounds, outBound_next]

theorem execVector_bounds {s : State} (h : AllBound s.work.groups) (g : ℕ) :
    OutBound (execVector g s) := by
  unfold execVector
  grind [vectorGroup_bounds, outBound_next]

theorem execPdeadExpiry_bounds {s : State} (h : AllBound s.work.groups) (t : ℕ) :
    OutBound (execPdeadExpiry t s) := by
  unfold execPdeadExpiry
  grind [saveStep_bounds, outBound_next]

theorem execCooperativeSave_bounds {s : State} (h : AllBound s.work.groups) (l : ℕ) (n : ℕ) :
    OutBound (execCooperativeSave l n s) := by
  unfold execCooperativeSave
  grind [saveStep_bounds, tellNode_groups, modLaunch_groups, outBound_next]

theorem execTeamPlacement_bounds {s : State} (h : AllBound s.work.groups) (l : ℕ) :
    OutBound (execTeamPlacement l s) := by
  unfold execTeamPlacement
  grind [startTeam_bounds, outBound_next, GroupBound, AllBound.group, foldl_bounds]

theorem execSlotTableWrap_bounds {s : State} (h : AllBound s.work.groups) (core : ℕ) :
    OutBound (execSlotTableWrap core s) := by
  unfold execSlotTableWrap
  grind [slotWrap_groups, outBound_next]

theorem execFrontEndBind_bounds {s : State} (h : AllBound s.work.groups) (q : ℕ) :
    OutBound (execFrontEndBind q s) := by
  unfold execFrontEndBind
  grind [modQueue_groups, outBound_next]

theorem execFrontEndRelease_bounds {s : State} (h : AllBound s.work.groups) (q : ℕ) :
    OutBound (execFrontEndRelease q s) := by
  unfold execFrontEndRelease
  grind [setQueue_work, outBound_next]

theorem execLaunchJoinRequest_bounds {s : State} (h : AllBound s.work.groups) (chip : ℕ) (gen : ℕ) (part : ℕ) (priv : ℕ) (desc : List Byte) :
    OutBound (execLaunchJoinRequest chip gen part priv desc s) := by
  unfold execLaunchJoinRequest
  grind [sendAll_groups, addLaunch_groups, outBound_next]

theorem execJoinReply_bounds {s : State} (h : AllBound s.work.groups) (chip : ℕ) (gen : ℕ) (ok : Bool) (status : Byte) (cause : Byte) :
    OutBound (execJoinReply chip gen ok status cause s) := by
  unfold execJoinReply
  grind [decideJoins_groups, setLaunch_work_groups, sendAll_groups, outBound_next]

theorem execDownbeat_bounds {s : State} (h : AllBound s.work.groups) (chip : ℕ) (gen : ℕ) :
    OutBound (execDownbeat chip gen s) := by
  unfold execDownbeat
  grind [sendAll_groups, modLaunch_groups, outBound_next]

theorem execAbort_bounds {s : State} (h : AllBound s.work.groups) (chip : ℕ) (gen : ℕ) (status : ℕ) (cause : ℕ × ℕ) :
    OutBound (execAbort chip gen status cause s) := by
  unfold execAbort
  grind [launchRecord_groups, forgetLaunch_groups, outBound_next]

theorem execStartedReply_bounds {s : State} (h : AllBound s.work.groups) (chip : ℕ) (gen : ℕ) :
    OutBound (execStartedReply chip gen s) := by
  unfold execStartedReply
  grind [modLaunch_groups, outBound_next]

theorem execDownbeatTimeout_bounds {s : State} (h : AllBound s.work.groups) (l : ℕ) :
    OutBound (execDownbeatTimeout l s) := by
  unfold execDownbeatTimeout
  grind [refuseAll_groups, outBound_next]

theorem execJoinResendTimeout_bounds {s : State} (h : AllBound s.work.groups) (chip : ℕ) (gen : ℕ) :
    OutBound (execJoinResendTimeout chip gen s) := by
  unfold execJoinResendTimeout
  grind [sendAll_groups, setLaunch_work_groups, outBound_next]

theorem execJoinDropTimeout_bounds {s : State} (h : AllBound s.work.groups) (chip : ℕ) (gen : ℕ) :
    OutBound (execJoinDropTimeout chip gen s) := by
  unfold execJoinDropTimeout
  grind [launchRecord_groups, forgetLaunch_groups, outBound_next]

theorem execStartedTimeout_bounds {s : State} (h : AllBound s.work.groups) (l : ℕ) :
    OutBound (execStartedTimeout l s) := by
  unfold execStartedTimeout
  grind [killEverywhere_bounds, outBound_next]

theorem execDoorbell_bounds {s : State} (h : AllBound s.work.groups) (fn : ℕ) (q : ℕ) (v : Word) :
    OutBound (execDoorbell fn q v s) := by
  unfold execDoorbell
  grind [hostWrite_bounds, outBound_next]

theorem execHaltClear_bounds {s : State} (h : AllBound s.work.groups) (fn : ℕ) (q : ℕ) (v : Word) :
    OutBound (execHaltClear fn q v s) := by
  unfold execHaltClear
  grind [hostWrite_bounds, outBound_next]

theorem execPctlWrite_bounds {s : State} (h : AllBound s.work.groups) (p : ℕ) (v : Word) :
    OutBound (execPctlWrite p v s) := by
  unfold execPctlWrite
  grind [hostPreg_bounds, outBound_next]

theorem execPtraceWrite_bounds {s : State} (h : AllBound s.work.groups) (p : ℕ) (v : Word) :
    OutBound (execPtraceWrite p v s) := by
  unfold execPtraceWrite
  grind [hostPreg_bounds, outBound_next]

theorem execCsctlWrite_bounds {s : State} (h : AllBound s.work.groups) (p : ℕ) (d : ℕ) (v : Word) :
    OutBound (execCsctlWrite p d v s) := by
  unfold execCsctlWrite
  grind [hostPreg_bounds, outBound_next]

theorem execCsrdWrite_bounds {s : State} (h : AllBound s.work.groups) (p : ℕ) (d : ℕ) (v : Word) :
    OutBound (execCsrdWrite p d v s) := by
  unfold execCsrdWrite
  grind [hostPreg_bounds, outBound_next]

theorem execPodcfgWrite_bounds {s : State} (h : AllBound s.work.groups) (v : Word) :
    OutBound (execPodcfgWrite v s) := by
  unfold execPodcfgWrite
  grind [hostWrite_bounds, outBound_next]

theorem execFwlenWrite_bounds {s : State} (h : AllBound s.work.groups) (v : Word) :
    OutBound (execFwlenWrite v s) := by
  unfold execFwlenWrite
  grind [submitImage_groups, outBound_next]

theorem execRegisterWindowWrite_bounds {s : State} (h : AllBound s.work.groups) (fn : ℕ) (off : ℕ) (v : Word) :
    OutBound (execRegisterWindowWrite fn off v s) := by
  unfold execRegisterWindowWrite
  grind [submitImage_groups, hostWrite_bounds, outBound_next]

theorem execTdispStop_bounds {s : State} (h : AllBound s.work.groups) (p : ℕ) :
    OutBound (execTdispStop p s) := by
  unfold execTdispStop
  grind [whenReady_bounds, beginReset_bounds, outBound_next]

theorem execFunctionLevelReset_bounds {s : State} (h : AllBound s.work.groups) (p : ℕ) :
    OutBound (execFunctionLevelReset p s) := by
  unfold execFunctionLevelReset
  grind [whenReady_bounds, beginReset_bounds, outBound_next]

theorem execSpdmRequest_bounds {s : State} (h : AllBound s.work.groups) (index : ℕ) :
    OutBound (execSpdmRequest index s) := by
  unfold execSpdmRequest
  grind [powered_bounds, outBound_next]

theorem execPodAnnouncement_bounds {s : State} (h : AllBound s.work.groups) (chip : ℕ) (dup : Bool) :
    OutBound (execPodAnnouncement chip dup s) := by
  unfold execPodAnnouncement
  grind [powered_bounds, setPod_groups, outBound_next]

theorem execUalinkLaneFailure_bounds {s : State} (h : AllBound s.work.groups) (port : ℕ) :
    OutBound (execUalinkLaneFailure port s) := by
  unfold execUalinkLaneFailure
  grind [powered_bounds, engineEvent_groups, journalFailure_groups, outBound_next]

theorem execRemoteRequestTimeout_bounds {s : State} (h : AllBound s.work.groups) (a : Agent) :
    OutBound (execRemoteRequestTimeout a s) := by
  unfold execRemoteRequestTimeout
  grind [powered_bounds, setWalk_work_groups, outBound_next]

theorem execPtpInputLoss_bounds {s : State} (h : AllBound s.work.groups) :
    OutBound (execPtpInputLoss s) := by
  unfold execPtpInputLoss
  grind [powered_bounds, outBound_next]

theorem execPtpInputRestore_bounds {s : State} (h : AllBound s.work.groups) (offset : Option ℤ) :
    OutBound (execPtpInputRestore offset s) := by
  unfold execPtpInputRestore
  grind [powered_bounds, outBound_next]

theorem execHoldoverExpiry_bounds {s : State} (h : AllBound s.work.groups) :
    OutBound (execHoldoverExpiry s) := by
  unfold execHoldoverExpiry
  grind [powered_bounds, outBound_next]

theorem execTimeBaseTimer_bounds {s : State} (h : AllBound s.work.groups) (p : ℕ) (d : ℕ) :
    OutBound (execTimeBaseTimer p d s) := by
  unfold execTimeBaseTimer
  grind [powered_bounds, putRecord_groups, outBound_next]

theorem execClockLimit_bounds {s : State} (h : AllBound s.work.groups) (d : ℕ) (mhz : ℕ) :
    OutBound (execClockLimit d mhz s) := by
  unfold execClockLimit
  grind [powered_bounds, setClock_groups, outBound_next]

theorem execClockRestart_bounds {s : State} (h : AllBound s.work.groups) (d : ℕ) :
    OutBound (execClockRestart d s) := by
  unfold execClockRestart
  grind [powered_bounds, resumeSink_groups, modDie_groups, outBound_next, GroupBound, AllBound.group, foldl_bounds]

theorem execSoftError_bounds {s : State} (h : AllBound s.work.groups) (u : SoftUnit) (repeated : Bool) :
    OutBound (execSoftError u repeated s) := by
  unfold execSoftError
  grind [whenReady_bounds, poisonUnit_bounds, softPlace_groups, journalFailure_groups, outBound_next]

theorem execColdStart_bounds {s : State} (h : AllBound s.work.groups) (result : ℕ) (unit : ℕ) (detail : ℕ) :
    OutBound (execColdStart result unit detail s) := by
  unfold execColdStart
  grind [bootStep_groups, outBound_next]

theorem execTdispLockInterface_bounds {s : State} (h : AllBound s.work.groups) (p : ℕ) :
    OutBound (execTdispLockInterface p s) := by
  unfold execTdispLockInterface
  grind [whenReady_bounds, outBound_next]

theorem execTdispStartInterface_bounds {s : State} (h : AllBound s.work.groups) (p : ℕ) :
    OutBound (execTdispStartInterface p s) := by
  unfold execTdispStartInterface
  grind [whenReady_bounds, outBound_next]

theorem execClockStop_bounds {s : State} (h : AllBound s.work.groups) (d : ℕ) :
    OutBound (execClockStop d s) := by
  unfold execClockStop
  grind [powered_bounds, modDie_groups, outBound_next]

theorem execClockRaise_bounds {s : State} (h : AllBound s.work.groups) (d : ℕ) (mhz : ℕ) :
    OutBound (execClockRaise d mhz s) := by
  unfold execClockRaise
  grind [powered_bounds, setClock_groups, outBound_next]

theorem execPowerLoss_bounds {s : State} (h : AllBound s.work.groups) (torn : Bool) :
    OutBound (execPowerLoss torn s) := by
  unfold execPowerLoss
  grind [loseDevice_bounds, outBound_next]

theorem execChipUnreachable_bounds {s : State} (h : AllBound s.work.groups) (chip : ℕ) :
    OutBound (execChipUnreachable chip s) := by
  unfold execChipUnreachable
  grind [powered_bounds, setPod_groups, outBound_next]

theorem execLaunchKillArrival_bounds {s : State} (h : AllBound s.work.groups) (part : ℕ) (id : ℕ) (status : ℕ) (code : ℕ) (chip : ℕ) (team : ℕ) (group : ℕ) :
    OutBound (execLaunchKillArrival part id status code chip team group s) := by
  unfold execLaunchKillArrival
  grind [killLaunch_bounds, outBound_next]

end Sys2Proof.Machine
end

section
/-! PROOFS. The work tree (family 02): the turns and the step keep the bounds. -/

namespace Sys2Proof.Machine
open Sys2Proof

/-! The packets of a queue, the agents at their homes, and a wait that goes on. -/

theorem packetTurn_bounds {s : State} (h : AllBound s.work.groups) (q : Nat) : OutBound (packetTurn s q) := by
  unfold packetTurn
  grind [execSemaphoreSatisfied_bounds, execPacketLaunch_bounds, execPacketWait_bounds, execPacketSignal_bounds, execPacketCopy_bounds,
    execPacketFence_bounds, execPacketMark_bounds, execPacketJump_bounds, execPacketNop_bounds]

theorem execHomeRequest_bounds {s : State} (h : AllBound s.work.groups) (a : Agent) : OutBound (execHomeRequest a s) := by
  have kept : ∀ {t : State}, t.work.groups = s.work.groups → OutBound (.next t) := fun e => (outBound_next _).mpr (by rwa [e])
  cases a with
  | scalar g => exact (outBound_next _).mpr (serveScalar_bounds h g)
  | lane g => exact (outBound_next _).mpr (serveLanes_bounds h g)
  | fetchS g => exact kept (fetchRequest_groups ..)
  | fetchL g => exact kept (fetchRequest_groups ..)
  | vec g => exact (outBound_next _).mpr (vectorGroup_bounds h g)
  | tile g => exact (outBound_next _).mpr (tileTurn_bounds h g)
  | copy t c => exact (outBound_next _).mpr (copyStep_bounds h t c)
  | coll c =>
    simp only [execHomeRequest]
    grind [outBound_next, collEnd_bounds, collStep_bounds]
  | queue q => exact packetTurn_bounds h q
  | qcopy q => exact execPacketCopyDone_bounds h q
  | save l n =>
    simp only [execHomeRequest]
    grind [outBound_next, execNodeRestore_bounds, saveStep_bounds]
  | sink p d => exact execHeldRecordEmit_bounds h p d
  | complete l => exact execLaunchEnd_bounds h l
  | pref c l va => exact kept (servePrefetch_groups ..)
  | remote n => exact (outBound_next _).mpr (serveRemote_bounds h n)
  | arrival r => exact kept (acceptRemote_groups ..)
  | answer w r => exact kept (farAnswer_groups ..)
  | far flat bs => exact kept (farWrite_groups ..)
  | preempt part id m => exact (outBound_next _).mpr (preemptArrival_bounds h part id m)
  | forget gd => exact kept (by split <;> simp)

theorem scalarHeld_bounds {s t : State} (h : AllBound s.work.groups) {g : Nat} {i : Instr} (e : scalarHeld s g i = some t) :
    AllBound t.work.groups := by
  simp only [scalarHeld] at e
  split at e
  · cases e
    exact wait_bounds h i
  · obtain ⟨k, -, rfl⟩ := Option.map_eq_some_iff.mp e
    exact raiseScalar_bounds h _

/-- Every instruction and event but the wait that goes on, which runs another instruction's meaning. -/
theorem exec_bounds_of_ne {s : State} (h : AllBound s.work.groups) {i : Instr} (hw : ∀ g, i ≠ .waitRetire g) : OutBound (exec i s) := by
  cases i with
  | sadd => exact execSadd_bounds h ..
  | ssub => exact execSsub_bounds h ..
  | sseq => exact execSseq_bounds h ..
  | ssne => exact execSsne_bounds h ..
  | sslt => exact execSslt_bounds h ..
  | ssltu => exact execSsltu_bounds h ..
  | smin => exact execSmin_bounds h ..
  | sminu => exact execSminu_bounds h ..
  | smax => exact execSmax_bounds h ..
  | smaxu => exact execSmaxu_bounds h ..
  | sand => exact execSand_bounds h ..
  | sor => exact execSor_bounds h ..
  | sxor => exact execSxor_bounds h ..
  | sandn => exact execSandn_bounds h ..
  | sshl => exact execSshl_bounds h ..
  | sshr => exact execSshr_bounds h ..
  | ssra => exact execSsra_bounds h ..
  | srol => exact execSrol_bounds h ..
  | sror => exact execSror_bounds h ..
  | smul => exact execSmul_bounds h ..
  | smulh => exact execSmulh_bounds h ..
  | smulhu => exact execSmulhu_bounds h ..
  | sdiv => exact execSdiv_bounds h ..
  | sdivu => exact execSdivu_bounds h ..
  | srem => exact execSrem_bounds h ..
  | sremu => exact execSremu_bounds h ..
  | sclz => exact execSclz_bounds h ..
  | sctz => exact execSctz_bounds h ..
  | spopc => exact execSpopc_bounds h ..
  | sbswap => exact execSbswap_bounds h ..
  | ssx8 => exact execSsx8_bounds h ..
  | ssx16 => exact execSsx16_bounds h ..
  | ssx32 => exact execSsx32_bounds h ..
  | szx32 => exact execSzx32_bounds h ..
  | saddi => exact execSaddi_bounds h ..
  | sandi => exact execSandi_bounds h ..
  | sori => exact execSori_bounds h ..
  | sxori => exact execSxori_bounds h ..
  | sslti => exact execSslti_bounds h ..
  | sshli => exact execSshli_bounds h ..
  | sshri => exact execSshri_bounds h ..
  | ssrai => exact execSsrai_bounds h ..
  | srori => exact execSrori_bounds h ..
  | slui => exact execSlui_bounds h ..
  | sshlo => exact execSshlo_bounds h ..
  | sld => exact execSld_bounds h ..
  | sst => exact execSst_bounds h ..
  | sldX => exact execSldX_bounds h ..
  | sstX => exact execSstX_bounds h ..
  | sldAcq => exact execSldAcq_bounds h ..
  | sstRel => exact execSstRel_bounds h ..
  | sldRo => exact execSldRo_bounds h ..
  | samoSwap => exact execSamoSwap_bounds h ..
  | samoAdd => exact execSamoAdd_bounds h ..
  | samoAnd => exact execSamoAnd_bounds h ..
  | samoOr => exact execSamoOr_bounds h ..
  | samoXor => exact execSamoXor_bounds h ..
  | samoMinI => exact execSamoMinI_bounds h ..
  | samoMaxI => exact execSamoMaxI_bounds h ..
  | samoMinN => exact execSamoMinN_bounds h ..
  | samoMaxN => exact execSamoMaxN_bounds h ..
  | samoCas => exact execSamoCas_bounds h ..
  | sfence => exact execSfence_bounds h ..
  | sfenceAcq => exact execSfenceAcq_bounds h ..
  | sfenceRel => exact execSfenceRel_bounds h ..
  | sbr => exact execSbr_bounds h ..
  | sjmp => exact execSjmp_bounds h ..
  | scall => exact execScall_bounds h ..
  | sjr => exact execSjr_bounds h ..
  | scallr => exact execScallr_bounds h ..
  | sret => exact execSret_bounds h ..
  | sexit => exact execSexit_bounds h ..
  | lrun => exact execLrun_bounds h ..
  | ljmp => exact execLjmp_bounds h ..
  | lrunr => exact execLrunr_bounds h ..
  | ljmpr => exact execLjmpr_bounds h ..
  | lsync => exact execLsync_bounds h ..
  | lmask => exact execLmask_bounds h ..
  | lsumm => exact execLsumm_bounds h ..
  | sget => exact execSget_bounds h ..
  | kwait => exact execKwait_bounds h ..
  | waitLd => exact execWaitLd_bounds h ..
  | waitSt => exact execWaitSt_bounds h ..
  | waitCp => exact execWaitCp_bounds h ..
  | waitTl => exact execWaitTl_bounds h ..
  | barInit => exact execBarInit_bounds h ..
  | barFree => exact execBarFree_bounds h ..
  | barArrive => exact execBarArrive_bounds h ..
  | barWait => exact execBarWait_bounds h ..
  | sbarArrive => exact execSbarArrive_bounds h ..
  | sbarWait => exact execSbarWait_bounds h ..
  | yieldc => exact execYieldc_bounds h ..
  | bdecl => exact execBdecl_bounds h ..
  | bput => exact execBput_bounds h ..
  | bputw => exact execBputw_bounds h ..
  | btake => exact execBtake_bounds h ..
  | bdrop => exact execBdrop_bounds h ..
  | xcopy => exact execXcopy_bounds h ..
  | tset => exact execTset_bounds h ..
  | tsetb => exact execTsetb_bounds h ..
  | tsets => exact execTsets_bounds h ..
  | tgetl => exact execTgetl_bounds h ..
  | tgeth => exact execTgeth_bounds h ..
  | shalloc => exact execShalloc_bounds h ..
  | shfree => exact execShfree_bounds h ..
  | shtest => exact execShtest_bounds h ..
  | cobjDecl => exact execCobjDecl_bounds h ..
  | cobjMode => exact execCobjMode_bounds h ..
  | cobjFree => exact execCobjFree_bounds h ..
  | cobjQuery => exact execCobjQuery_bounds h ..
  | creduce => exact execCreduce_bounds h ..
  | callred => exact execCallred_bounds h ..
  | credscat => exact execCredscat_bounds h ..
  | callgath => exact execCallgath_bounds h ..
  | calltoall => exact execCalltoall_bounds h ..
  | cbcast => exact execCbcast_bounds h ..
  | cabort => exact execCabort_bounds h ..
  | tmark => exact execTmark_bounds h ..
  | tsync => exact execTsync_bounds h ..
  | tsamp => exact execTsamp_bounds h ..
  | spget => exact execSpget_bounds h ..
  | spset => exact execSpset_bounds h ..
  | sslotw => exact execSslotw_bounds h ..
  | sslotr => exact execSslotr_bounds h ..
  | sslotx => exact execSslotx_bounds h ..
  | spreq => exact execSpreq_bounds h ..
  | sgpl => exact execSgpl_bounds h ..
  | tlbroot => exact execTlbroot_bounds h ..
  | tlbinv => exact execTlbinv_bounds h ..
  | carve => exact execCarve_bounds h ..
  | pmap => exact execPmap_bounds h ..
  | pgive => exact execPgive_bounds h ..
  | wldp => exact execWldp_bounds h ..
  | wcasp => exact execWcasp_bounds h ..
  | tlbfill => exact execTlbfill_bounds h ..
  | wentry => exact execWentry_bounds h ..
  | eret => exact execEret_bounds h ..
  | ekill => exact execEkill_bounds h ..
  | efget => exact execEfget_bounds h ..
  | efset => exact execEfset_bounds h ..
  | vadd => exact execVadd_bounds h ..
  | vsub => exact execVsub_bounds h ..
  | vmul => exact execVmul_bounds h ..
  | vmulh => exact execVmulh_bounds h ..
  | vmad => exact execVmad_bounds h ..
  | vmin => exact execVmin_bounds h ..
  | vmax => exact execVmax_bounds h ..
  | vdiv => exact execVdiv_bounds h ..
  | vrem => exact execVrem_bounds h ..
  | vand => exact execVand_bounds h ..
  | vor => exact execVor_bounds h ..
  | vxor => exact execVxor_bounds h ..
  | vandn => exact execVandn_bounds h ..
  | vshl => exact execVshl_bounds h ..
  | vshr => exact execVshr_bounds h ..
  | vclz => exact execVclz_bounds h ..
  | vpopc => exact execVpopc_bounds h ..
  | vcmp => exact execVcmp_bounds h ..
  | vaddPacked => exact execVaddPacked_bounds h ..
  | vsubPacked => exact execVsubPacked_bounds h ..
  | vminPacked => exact execVminPacked_bounds h ..
  | vmaxPacked => exact execVmaxPacked_bounds h ..
  | vmulPacked => exact execVmulPacked_bounds h ..
  | vcmpEqPacked => exact execVcmpEqPacked_bounds h ..
  | vcmpLtPacked => exact execVcmpLtPacked_bounds h ..
  | vcmpLePacked => exact execVcmpLePacked_bounds h ..
  | vdot => exact execVdot_bounds h ..
  | vmovN32 => exact execVmovN32_bounds h ..
  | vselN32 => exact execVselN32_bounds h ..
  | vselN64 => exact execVselN64_bounds h ..
  | vcoord => exact execVcoord_bounds h ..
  | vmovN64 => exact execVmovN64_bounds h ..
  | vaddFp => exact execVaddFp_bounds h ..
  | vsubFp => exact execVsubFp_bounds h ..
  | vmulFp => exact execVmulFp_bounds h ..
  | vfma => exact execVfma_bounds h ..
  | vfms => exact execVfms_bounds h ..
  | vfnma => exact execVfnma_bounds h ..
  | vdivFp => exact execVdivFp_bounds h ..
  | vsqrt => exact execVsqrt_bounds h ..
  | vcmpFp => exact execVcmpFp_bounds h ..
  | vminFp => exact execVminFp_bounds h ..
  | vmaxFp => exact execVmaxFp_bounds h ..
  | vneg => exact execVneg_bounds h ..
  | vabs => exact execVabs_bounds h ..
  | vcsgn => exact execVcsgn_bounds h ..
  | vclass => exact execVclass_bounds h ..
  | vaddF16 => exact execVaddF16_bounds h ..
  | vsubF16 => exact execVsubF16_bounds h ..
  | vmulF16 => exact execVmulF16_bounds h ..
  | vfmaF16 => exact execVfmaF16_bounds h ..
  | vminF16 => exact execVminF16_bounds h ..
  | vmaxF16 => exact execVmaxF16_bounds h ..
  | vcmpEqF16 => exact execVcmpEqF16_bounds h ..
  | vcmpLtF16 => exact execVcmpLtF16_bounds h ..
  | vdot2 => exact execVdot2_bounds h ..
  | vcvt => exact execVcvt_bounds h ..
  | vcvtp => exact execVcvtp_bounds h ..
  | vfrsqe => exact execVfrsqe_bounds h ..
  | vfrcpe => exact execVfrcpe_bounds h ..
  | vfexp2 => exact execVfexp2_bounds h ..
  | vflog2 => exact execVflog2_bounds h ..
  | vfsinpi => exact execVfsinpi_bounds h ..
  | vfcospi => exact execVfcospi_bounds h ..
  | vpand => exact execVpand_bounds h ..
  | vpor => exact execVpor_bounds h ..
  | vpxor => exact execVpxor_bounds h ..
  | vpandn => exact execVpandn_bounds h ..
  | vpnot => exact execVpnot_bounds h ..
  | vpset => exact execVpset_bounds h ..
  | vpget => exact execVpget_bounds h ..
  | vpmov => exact execVpmov_bounds h ..
  | vpnz => exact execVpnz_bounds h ..
  | mpush => exact execMpush_bounds h ..
  | melse => exact execMelse_bounds h ..
  | mpop => exact execMpop_bounds h ..
  | vtest => exact execVtest_bounds h ..
  | vmaskm => exact execVmaskm_bounds h ..
  | vshflIdx => exact execVshflIdx_bounds h ..
  | vshflUp => exact execVshflUp_bounds h ..
  | vshflDown => exact execVshflDown_bounds h ..
  | vshflXor => exact execVshflXor_bounds h ..
  | vlred => exact execVlred_bounds h ..
  | vscan => exact execVscan_bounds h ..
  | vbcast => exact execVbcast_bounds h ..
  | vballot => exact execVballot_bounds h ..
  | vmatch => exact execVmatch_bounds h ..
  | vld => exact execVld_bounds h ..
  | vldq => exact execVldq_bounds h ..
  | vldx => exact execVldx_bounds h ..
  | vst => exact execVst_bounds h ..
  | vstq => exact execVstq_bounds h ..
  | vstx => exact execVstx_bounds h ..
  | vamo => exact execVamo_bounds h ..
  | vqatomAdd => exact execVqatomAdd_bounds h ..
  | vqatomMerge => exact execVqatomMerge_bounds h ..
  | vpref => exact execVpref_bounds h ..
  | vprefx => exact execVprefx_bounds h ..
  | vbput => exact execVbput_bounds h ..
  | vbtake => exact execVbtake_bounds h ..
  | qzero => exact execQzero_bounds h ..
  | qmov => exact execQmov_bounds h ..
  | qadd => exact execQadd_bounds h ..
  | qmac => exact execQmac_bounds h ..
  | qmerge => exact execQmerge_bounds h ..
  | qnorm => exact execQnorm_bounds h ..
  | qred => exact execQred_bounds h ..
  | qrnd => exact execQrnd_bounds h ..
  | qstat => exact execQstat_bounds h ..
  | qseg => exact execQseg_bounds h ..
  | qspill => exact execQspill_bounds h ..
  | qfill => exact execQfill_bounds h ..
  | tmma => exact execTmma_bounds h ..
  | tcsum => exact execTcsum_bounds h ..
  | tconv => exact execTconv_bounds h ..
  | tasum => exact execTasum_bounds h ..
  | tzero => exact execTzero_bounds h ..
  | tload => exact execTload_bounds h ..
  | tstore => exact execTstore_bounds h ..
  | tepi => exact execTepi_bounds h ..
  | tstage => exact execTstage_bounds h ..
  | tres => exact execTres_bounds h ..
  | trel => exact execTrel_bounds h ..
  | tileQueueEntry => exact execTileQueueEntry_bounds h ..
  | tileTurn => exact execTileTurn_bounds h ..
  | tileCommit => exact execTileCommit_bounds h ..
  | laneJumpRecord => exact execLaneJumpRecord_bounds h ..
  | waitRetire g => exact absurd rfl (hw g)
  | scalarReply => exact execScalarReply_bounds h ..
  | laneLoadReturn => exact execLaneLoadReturn_bounds h ..
  | storePerformed => exact execStorePerformed_bounds h ..
  | homeRequest => exact execHomeRequest_bounds h ..
  | walkStart => exact execWalkStart_bounds h ..
  | walkLimitExpiry => exact execWalkLimitExpiry_bounds h ..
  | copyWrite => exact execCopyWrite_bounds h ..
  | copyComplete => exact execCopyComplete_bounds h ..
  | boothReservation => exact execBoothReservation_bounds h ..
  | boothFillComplete => exact execBoothFillComplete_bounds h ..
  | bputwReserve => exact execBputwReserve_bounds h ..
  | collectiveHandover => exact execCollectiveHandover_bounds h ..
  | collectiveStep => exact execCollectiveStep_bounds h ..
  | collectiveEnd => exact execCollectiveEnd_bounds h ..
  | cobjModeDone => exact execCobjModeDone_bounds h ..
  | carveDone => exact execCarveDone_bounds h ..
  | vector => exact execVector_bounds h ..
  | pdeadExpiry => exact execPdeadExpiry_bounds h ..
  | cooperativeSave => exact execCooperativeSave_bounds h ..
  | nodeRestore => exact execNodeRestore_bounds h ..
  | teamPlacement => exact execTeamPlacement_bounds h ..
  | launchEnd => exact execLaunchEnd_bounds h ..
  | slotTableWrap => exact execSlotTableWrap_bounds h ..
  | packetNop => exact execPacketNop_bounds h ..
  | packetLaunch => exact execPacketLaunch_bounds h ..
  | packetWait => exact execPacketWait_bounds h ..
  | semaphoreSatisfied => exact execSemaphoreSatisfied_bounds h ..
  | packetSignal => exact execPacketSignal_bounds h ..
  | packetCopy => exact execPacketCopy_bounds h ..
  | packetCopyDone => exact execPacketCopyDone_bounds h ..
  | packetFence => exact execPacketFence_bounds h ..
  | packetMark => exact execPacketMark_bounds h ..
  | packetJump => exact execPacketJump_bounds h ..
  | frontEndBind => exact execFrontEndBind_bounds h ..
  | frontEndRelease => exact execFrontEndRelease_bounds h ..
  | launchJoinRequest => exact execLaunchJoinRequest_bounds h ..
  | joinReply => exact execJoinReply_bounds h ..
  | downbeat => exact execDownbeat_bounds h ..
  | abort => exact execAbort_bounds h ..
  | startedReply => exact execStartedReply_bounds h ..
  | downbeatTimeout => exact execDownbeatTimeout_bounds h ..
  | joinResendTimeout => exact execJoinResendTimeout_bounds h ..
  | joinDropTimeout => exact execJoinDropTimeout_bounds h ..
  | startedTimeout => exact execStartedTimeout_bounds h ..
  | doorbell => exact execDoorbell_bounds h ..
  | haltClear => exact execHaltClear_bounds h ..
  | pctlWrite => exact execPctlWrite_bounds h ..
  | ptraceWrite => exact execPtraceWrite_bounds h ..
  | csctlWrite => exact execCsctlWrite_bounds h ..
  | csrdWrite => exact execCsrdWrite_bounds h ..
  | podcfgWrite => exact execPodcfgWrite_bounds h ..
  | fwlenWrite => exact execFwlenWrite_bounds h ..
  | registerWindowWrite => exact execRegisterWindowWrite_bounds h ..
  | tdispStop => exact execTdispStop_bounds h ..
  | functionLevelReset => exact execFunctionLevelReset_bounds h ..
  | spdmRequest => exact execSpdmRequest_bounds h ..
  | hostMemAccess => exact execHostMemAccess_bounds h ..
  | podAnnouncement => exact execPodAnnouncement_bounds h ..
  | ualinkLaneFailure => exact execUalinkLaneFailure_bounds h ..
  | remoteRequestTimeout => exact execRemoteRequestTimeout_bounds h ..
  | ptpInputLoss => exact execPtpInputLoss_bounds h ..
  | ptpInputRestore => exact execPtpInputRestore_bounds h ..
  | holdoverExpiry => exact execHoldoverExpiry_bounds h ..
  | timeBaseTimer => exact execTimeBaseTimer_bounds h ..
  | heldRecordEmit => exact execHeldRecordEmit_bounds h ..
  | clockLimit => exact execClockLimit_bounds h ..
  | clockRestart => exact execClockRestart_bounds h ..
  | softError => exact execSoftError_bounds h ..
  | coldStart => exact execColdStart_bounds h ..
  | tdispLockInterface => exact execTdispLockInterface_bounds h ..
  | tdispStartInterface => exact execTdispStartInterface_bounds h ..
  | clockStop => exact execClockStop_bounds h ..
  | clockRaise => exact execClockRaise_bounds h ..
  | powerLoss => exact execPowerLoss_bounds h ..
  | chipUnreachable => exact execChipUnreachable_bounds h ..
  | launchKillArrival => exact execLaunchKillArrival_bounds h ..

/-- The meaning of a scalar instruction that goes on is its arm of `exec`; what is no scalar instruction does nothing. -/
theorem scalarMeaning_eq (i : Instr) (s : State) : scalarMeaning i s = exec i s ∨ scalarMeaning i s = .next s := by
  cases i <;> first | exact .inl rfl | exact .inr rfl

theorem scalarMeaning_bounds {s : State} (h : AllBound s.work.groups) (i : Instr) : OutBound (scalarMeaning i s) := by
  by_cases hw : ∃ g, i = .waitRetire g
  · obtain ⟨g, rfl⟩ := hw
    exact (outBound_next _).mpr h
  · rcases scalarMeaning_eq i s with e | e <;> rw [e]
    · exact exec_bounds_of_ne h fun g e => hw ⟨g, e⟩
    · exact (outBound_next _).mpr h

theorem execWaitRetire_bounds {s : State} (h : AllBound s.work.groups) (g : Nat) : OutBound (execWaitRetire g s) := by
  have hc : AllBound ({ s with cur := .group g } : State).work.groups := h
  simp only [execWaitRetire]
  split
  · exact (outBound_next _).mpr hc
  · split
    · exact scalarMeaning_bounds hc _
    · split
      · exact (outBound_next _).mpr hc
      · split
        · next e => exact (outBound_next _).mpr (scalarHeld_bounds hc e)
        · exact scalarMeaning_bounds hc _

theorem exec_bounds {s : State} (h : AllBound s.work.groups) (i : Instr) : OutBound (exec i s) := by
  by_cases hw : ∃ g, i = .waitRetire g
  · obtain ⟨g, rfl⟩ := hw
    exact execWaitRetire_bounds h g
  · exact exec_bounds_of_ne h fun g e => hw ⟨g, e⟩

/-! The turns of the streams and of the walks. -/
theorem runScalar_bounds {s : State} (h : AllBound s.work.groups) (g w : Nat) : OutBound (runScalar s g w) := by
  unfold runScalar
  grind [outBound_next, illegal_bounds, scalarHeld_bounds, exec_bounds]

theorem scalarIssue_bounds {s : State} (h : AllBound s.work.groups) (g : Nat) : OutBound (scalarIssue s g) := by
  have hf := fetch_groups { s with cur := .group g } g (.fetchS g) (group s g).spc 4
  unfold scalarIssue
  split
  · next e => exact (outBound_next _).mpr (by rw [e] at hf; rwa [hf])
  · next e => exact (outBound_next _).mpr (raiseScalar_bounds (by rw [e] at hf; rwa [hf]) _)
  · next e => exact runScalar_bounds (stampScalar_bounds (by rw [e] at hf; rwa [hf]) g) g _

theorem runTogether_bounds {s : State} (h : AllBound s.work.groups) (is : List Instr) : OutBound (runTogether is s) := by
  induction is generalizing s with
  | nil => exact (outBound_next _).mpr h
  | cons i is ih =>
    have hi := exec_bounds h i
    unfold runTogether
    split
    · next t e => exact ih (hi.next t e)
    · exact hi

theorem fuseFetch_groups {s t : State} {g : Nat} (e : fuseFetch s g = some t) : t.work.groups = s.work.groups := by
  have hf := fun pc => fetch_groups s g (.fetchL g) pc 12
  unfold fuseFetch at e
  grind

theorem runLane_bounds {s : State} (h : AllBound s.work.groups) (g w : Nat) : OutBound (runLane s g w) := by
  unfold runLane
  split
  · exact (outBound_next _).mpr (laneTrap_bounds h ..)
  · exact runTogether_bounds h _

theorem laneIssueNext_bounds {s : State} (h : AllBound s.work.groups) (g : Nat) : OutBound (laneIssueNext s g) := by
  have hf := fetch_groups { s with cur := .group g } g (.fetchL g) (group { s with cur := .group g } g).lane.lpc 12
  simp only [laneIssueNext]
  split
  · next e => exact (outBound_next _).mpr (by rwa [fuseFetch_groups e])
  · split
    · next e => exact (outBound_next _).mpr (by rw [e] at hf; rwa [hf])
    · next e => exact (outBound_next _).mpr (raiseLane_bounds (by rw [e] at hf; rwa [hf]) ..)
    · next e => exact runLane_bounds (stampLane_bounds (by rw [e] at hf; rwa [hf]) g) g _

theorem walkTurn_bounds {s : State} (h : AllBound s.work.groups) (w : Nat) : OutBound (walkTurn s w) := by
  have hw : AllBound ({ s with cur := .walk w } : State).work.groups := h
  unfold walkTurn
  grind [outBound_next, walkError_groups, exec_bounds]

theorem runTurn_bounds {s : State} (h : AllBound s.work.groups) (t : Turn) : OutBound (runTurn t s) := by
  unfold runTurn
  split
  · exact (outBound_next _).mpr h
  · cases t with
    | scalar g =>
      dsimp only [scalarTurn]
      split
      · exact scalarIssue_bounds h g
      · exact (outBound_next _).mpr h
    | lane g =>
      dsimp only [laneTurn]
      split
      · exact laneIssueNext_bounds h g
      · exact (outBound_next _).mpr h
    | walk w => exact walkTurn_bounds h w
    | event i => exact exec_bounds h i
    | idle => exact (outBound_next _).mpr h

theorem settleTurn_bounds {s : State} (h : AllBound s.work.groups) {o : Out} (ho : OutBound o) : OutBound (settleTurn s o) := by
  cases o with
  | next t => exact (outBound_next _).mpr (ite_bounds h (ho.next t rfl))
  | fault r => exact outBound_fault r
  | refused r => exact outBound_refused r

theorem step_bounds {s : State} (h : AllBound s.work.groups) : OutBound (step s) := by
  have hb : AllBound (beforeTurn s).work.groups := by rwa [beforeTurn_groups]
  simp only [step]
  split
  · exact settleTurn_bounds hb (runTurn_bounds hb _)
  · next turn rest _ =>
    exact settleTurn_bounds (s := { beforeTurn s with agenda := rest }) hb (runTurn_bounds (s := { beforeTurn s with agenda := rest }) hb _)

/-- Settles O53: the bounds of every group (`AllBound`) go through each helper that touches a group, each instruction and event,
each turn, and the settling of the turn (R36, R44, R62, R63). -/
theorem stepKeepsBounds : Obligations.StepKeepsBounds := by
  intro s t h e
  exact (bounded_iff t).mpr ((step_bounds ((bounded_iff s).mp h)).next t e)

end Sys2Proof.Machine
end

section
/-! PROOFS. The work tree (family 02): releasing and synchronising the lane stream, and the end of a group. -/

namespace Sys2Proof.Machine
open Sys2Proof

/-! A release (R36, R189). -/

theorem traced_of_bit {x : Group} (h : x.trace.bit = false) (time : Nat) : traced x time = false := by simp [traced, h]
theorem emitGroup_of_bit {s : State} {g : Nat} (h : (group s g).trace.bit = false) (typ sub : Nat) (body : List Byte) :
    emitGroup s g typ sub body = s := by simp [emitGroup, emitGroupAt, traced_of_bit h]
theorem aheadNow_quiet {s : State} {g : Nat} (h : Quiet s g) : aheadNow s = s := by
  simp [aheadNow, h.1.1, traceAhead, traced_of_bit h.2]

/-- The group of a quiet state, its trace setting kept, still runs quietly. -/
theorem Quiet.setGroup {s : State} {g : Nat} (h : Quiet s g) {x : Group} (hx : x.trace = (group s g).trace) : Quiet (setGroup s g x) g :=
  ⟨h.1.setGroup x (by rw [hx]; exact h.1.2), by rw [group_setGroup_same, hx]; exact h.2⟩
/-- A traced retirement of a quiet group writes no record of its own. -/
theorem retireTraced_quiet {s : State} {g : Nat} (h : Quiet s g) {f : State → Nat → State}
    (hf : ∀ t, Quiet t g → f t g = t) : retireTraced s f = plainDone s g := by
  have hset : setSpc s (curSpc s + 4) = setGroup s g { group s g with spc := (group s g).spc + 4 } := by
    simp only [setSpc, h.1.1, h.1.spc, modGroup]
  have hq : Quiet (setGroup s g { group s g with spc := (group s g).spc + 4 }) g := h.setGroup rfl
  have ht : tracedTo s (curSpc s + 4) f = setGroup s g { group s g with spc := (group s g).spc + 4 } := by
    rw [tracedTo, h.1.1]
    exact (congrArg (f · g) hset).trans (hf _ hq)
  rw [retireTraced, ht, retireTo_runs hq.1, h.1.spc, retired, group_setGroup_same, setGroup_setGroup, plainDone, retired]

/-- A release with room for its record, of a group that is not traced and has no parked lane. -/
theorem release_quiet {s : State} {g : Nat} (h : Quiet s g) (room : (group s g).lane.rq.length < Config.queueDepth)
    (hp : (group s g).lane.park.fmask = 0) (i : Instr) (r : RqRec) :
    release s g i r = retired s g { group s g with lane := { (group s g).lane with rq := (group s g).lane.rq ++ [r] } } ((group s g).spc + 4) := by
  have hq : Quiet (setGroup s g (appendRecord (group s g) r)) g := h.setGroup rfl
  have hroom : ¬ Config.queueDepth ≤ rqLength (group s g) := by simpa [rqLength, hp] using room
  simp only [release, if_neg hroom, aheadNow_quiet h, modGroup]
  rw [retireTraced_quiet hq fun t ht => by cases r <;> exact emitGroup_of_bit ht.2 ..]
  simp [plainDone, retired, appendRecord, hp]

/-! What waits for the lane stream (R187, R190). -/

theorem afterLanes_issued {s : State} {g : Nat} (h : laneIssued (group s g) = true) (i : Instr) (k : State → State) :
    afterLanes s g i k = k s := if_pos h
theorem fence_issued {s : State} {g : Nat} (hr : Runs s g) (h : laneIssued (group s g) = true) {c : Scope} (hc : scopeBad s g c = false)
    (i : Instr) : fence i c s = .next (plainDone s g) := by
  simp [fence, hr.onGroup, withScope, hc, afterLanes_issued h, retire_runs hr]
theorem bits4_number : ∀ a b c d : Bool,
    (BitVec.ofBool d ++ BitVec.ofBool c ++ BitVec.ofBool b ++ BitVec.ofBool a).zeroExtend 64 =
      BitVec.ofNat 64 [if a then 2 ^ 0 else 0, if b then 2 ^ 1 else 0, if c then 2 ^ 2 else 0, if d then 2 ^ 3 else 0].sum := by decide
/-- The summary of a mask has bit k where word k has a lane. -/
theorem maskSummary_eq (m : Mask) : (maskSummary m).zeroExtend 64 =
    (BitVec.ofNat 64 (((List.range 4).map fun k => if m.extractLsb' (32 * k) 32 = 0 then 0 else 2 ^ k).sum) : Word) := by
  have hk : ∀ k, (if m.extractLsb' (32 * k) 32 = 0 then 0 else 2 ^ k) = if (maskWord m k != 0) = true then 2 ^ k else 0 := fun k => by
    simp only [bne_iff_ne, ne_eq, maskWord, ite_not]
  simp only [hk]
  exact bits4_number ..

/-! The end of a group (R40). -/

theorem OnlyTrace.team {s t : State} (h : OnlyTrace s t) (g : Nat) : (group t g).team = (group s g).team := by
  obtain ⟨c, hc⟩ := h.at_ g
  rw [hc]
/-- A group that is freed leaves its place blank. -/
theorem group_freeGroup_same (s : State) (g : Nat) (hold : Bool) : group (freeGroup s g hold) g = Group.blank := group_setGroup_same ..
/-- A group that is freed is on no list of its team. -/
theorem not_mem_team_freeGroup (s : State) (g : Nat) (hold : Bool) : g ∉ (team (freeGroup s g hold) (group s g).team).groups := by
  have hx : (group (leaveBooth (dropAgents (traceStop s g hold) g) g) g).team = (group s g).team := by
    rw [group_of_groups ((leaveBooth_groups ..).trans (dropAgents_groups ..))]
    exact (onlyTrace_traceStop s g hold).team g
  simp [freeGroup, hx, modTeam]
theorem foldl_keeps {α β : Type} {P : State → β} {f : State → α → State} (hf : ∀ s a, P (f s a) = P s) (l : List α) (s : State) :
    P (l.foldl f s) = P s := by
  induction l generalizing s with
  | nil => rfl
  | cons a l ih => rw [List.foldl_cons, ih, hf]
theorem mergeSlot_teams (s : State) (slot : Nat) (norm : Bool) : (mergeSlot s slot norm).work.teams = s.work.teams := by
  unfold mergeSlot
  extract_lets ps a
  split <;> rfl
theorem dropLines_teams (s : State) (c part : Nat) : (dropLines s c part).work.teams = s.work.teams := by
  unfold dropLines
  split
  · rfl
  · exact foldl_keeps (P := fun s => s.work.teams) (fun _ _ => mergeSlot_teams ..) _ _
theorem settleBar_teams (s : State) (l level node : Nat) : (settleBar s l level node).work.teams = s.work.teams := by
  unfold settleBar
  extract_lets b
  repeat' split
  all_goals rfl
theorem settleBars_teams (s : State) (l : Nat) : (settleBars s l).work.teams = s.work.teams :=
  foldl_keeps (P := fun s => s.work.teams) (fun _ _ => settleBar_teams ..) _ _
theorem team_of_teams {s t : State} (e : t.work.teams = s.work.teams) (n : Nat) : team t n = team s n := by
  simp only [team, e]
/-- A team without groups is freed: no group is touched, and its place lists none. -/
theorem freeTeam_empty {s : State} {t : Nat} (h : (team s t).groups = []) :
    (freeTeam s t).work.groups = s.work.groups ∧ (team (freeTeam s t) t).groups = [] := by
  simp only [freeTeam, h, List.foldl_nil]
  refine ⟨by simp, ?_⟩
  rw [team, dropLines_teams, modCore, setCore_work]
  exact congrArg Team.groups (team_setTeam_same ..)
/-- Freeing the group's place, and its team's where it was the last, leaves a state that the barriers' end touches no further. -/
theorem endGroup_ends (s : State) (g : Nat) :
    group (endGroup s g) g = Group.blank ∧ g ∉ (team (endGroup s g) (group s g).team).groups := by
  have hb := group_freeGroup_same s g true
  have hm := not_mem_team_freeGroup s g true
  unfold endGroup
  extract_lets t l s1 no s2
  rw [group_of_groups (settleBars_groups s2 l), team_of_teams (settleBars_teams s2 l)]
  by_cases he : (team s1 t).groups.isEmpty = true
  · obtain ⟨hg, ht⟩ := freeTeam_empty (s := modLaunch s1 l fun x => { x with ended := x.ended ++ [(team s1 t).no] }) (List.isEmpty_iff.mp he)
    simp only [s2, if_pos he]
    exact ⟨(group_of_groups hg g).trans hb, by rw [ht]; exact List.not_mem_nil⟩
  · simp only [s2, if_neg he]
    exact ⟨hb, hm⟩

/-- Settles O7: a release of a quiet group appends its record and retires; what waits for the lane stream retires once that has issued;
`sexit` frees its group, or waits. -/
theorem streamControl : Obligations.StreamControl := by
  unfold Obligations.StreamControl
  refine ⟨fun s g n o a h room hp => ?_, fun s g d w c h hi hc => ?_, fun s g hcur hh => ⟨fun hl hz => ?_, fun hw => ?_⟩⟩
  · have hrel := release_quiet h room hp
    refine ⟨?_, ?_, ?_, fun hz => ?_, fun hpos hle => ?_⟩
    · exact (h.1.onGroup _).trans (congrArg Host.Outcome.next (hrel ..))
    · exact (h.1.onGroup _).trans (congrArg Host.Outcome.next (hrel ..))
    · exact (h.1.onGroup _).trans (congrArg Host.Outcome.next ((hrel ..).trans (by rw [h.1.getS])))
    · refine (h.1.onGroup _).trans (congrArg Host.Outcome.next ?_)
      simp only [h.1.getS, hz, if_true, retire_runs h.1]
    · refine (h.1.onGroup _).trans (congrArg Host.Outcome.next ?_)
      simp only [h.1.getS, if_neg hpos.ne', if_neg hle.not_gt, hrel]
      rfl
  · refine ⟨?_, ?_, ?_⟩
    · simp only [List.forall_mem_cons, List.not_mem_nil, false_imp_iff, implies_true, and_true]
      exact ⟨fence_issued h hi hc _, fence_issued h hi hc _, fence_issued h hi hc _,
        (h.onGroup _).trans (congrArg Host.Outcome.next ((afterLanes_issued hi ..).trans (retire_runs h)))⟩
    · exact (h.onGroup _).trans (congrArg Host.Outcome.next ((afterLanes_issued hi ..).trans (result_runs h ..)))
    · refine (h.onGroup _).trans (congrArg Host.Outcome.next ((afterLanes_issued hi ..).trans ?_))
      rw [result_runs h, maskSummary_eq]
  · have hd : discardFrame s g = s := by simp [discardFrame, hh]
    refine ⟨endGroup s g, ?_, endGroup_ends s g⟩
    show execSexit s = _
    simp [execSexit, hcur, hd, hl, hz]
  · have hd : discardFrame s g = s := by simp [discardFrame, hh]
    show execSexit s = _
    simp only [execSexit, hcur, hd, hw, Bool.false_eq_true, if_false]
    simp [wait, hcur, modGroup, waitsAgain]

end Sys2Proof.Machine
end

section
/-! PROOFS. The work tree (family 02): predicates, the mask stack and its summaries. -/

namespace Sys2Proof.Machine
open Sys2Proof

/-! Masks by their lanes (R41, R54). -/

@[simp] theorem getLsbD_maskOf (f : Nat → Bool) (i : Nat) : (maskOf f).getLsbD i = (decide (i < 128) && f i) := by
  simp only [maskOf, BitVec.getLsbD_setWidth, BitVec.getLsbD_ofBoolListLE]
  by_cases hi : i < 128 <;> simp [hi]
theorem getLsbD_condMask {x : Group} {p : PReg} (hl : (mreg x p.toNat).length = 128) (neg : Bool) {i : Nat} (hi : i < 128) :
    (condMask x p neg).getLsbD i = (((mreg x p.toNat).getD i 0).getLsbD 0 != neg) := by
  have hm : i < (mreg x p.toNat).length := hl ▸ hi
  simp only [condMask, bitsMask, predNibbles, getLsbD_maskOf, hi, decide_true, Bool.true_and, List.getD_eq_getElem?_getD, List.getElem?_map,
    List.getElem?_eq_getElem hm, Option.map_some, Option.getD_some]
  cases neg <;> simp
theorem LaneRuns.activeMask {s : State} {g : Nat} (h : LaneRuns s g) : activeMask (group s g) = (group s g).lane.mask := by
  have h1 : (group s g).lane.mask &&& ~~~(0 : Mask) = (group s g).lane.mask := by
    rw [show (0 : Mask) = 0#128 from rfl, BitVec.not_zero, BitVec.and_allOnes]
  simpa only [Machine.activeMask, h.2.2.1, h.2.2.2, Bool.false_eq_true, if_false] using h1

/-! The predicate instructions (R219, R220). -/

theorem putMreg_lane (x : Group) (k : PReg) (whole : Bool) (v : PredVec) : (putMreg x k whole v).lane = x.lane := by
  unfold putMreg setMreg
  split <;> split <;> rfl
theorem putNibbles_lane (x : Group) (k : PReg) (ex : List Bool) (v : List (BitVec 4)) : (putNibbles x k ex v).lane = x.lane := putMreg_lane ..
theorem putNibbles_zero (x : Group) (ex : List Bool) (v : List (BitVec 4)) : (putNibbles x 0 ex v).r = x.r := by
  have h0 : ∀ v, setMreg x (BitVec.toNat (0 : PReg)) v = x := fun _ => if_pos rfl
  simp only [putNibbles, putMreg, h0]
  split <;> rfl
/-- A lane operation that writes a predicate. -/
theorem predOp_runs {s : State} {g : Nat} (h : LaneRuns s g) (c : LaneCtl) (v rv rm : List Nat) (hb : Below s g (v ++ rv) []) (k : PReg)
    (f : Group → List (BitVec 4)) :
    laneOp s c (predUse v rv rm c.pred) (fun y ex => putNibbles y k ex (f y)) =
      .next (laneNext s g (putNibbles (group s g) k (execLanes (group s g) c.pred c.neg) (f (group s g))) c.rep.toNat) :=
  laneIssue_runs h _ _ _ _ hb rfl (by rw [putNibbles_lane])
theorem below_nil (s : State) (g : Nat) : Below s g [] [] := by simp [Below]
theorem LaneRuns.repNow {s : State} {g : Nat} (h : LaneRuns s g) : repNow s = (group s g).lane.rep := by
  simp [Machine.repNow, curGroup, h.1]
/-- A byte's nonzero bits, as `vpnz` writes them. -/
theorem packedBits_nonzero (v : LWord) : packedBits 8 (fun i => subEl 8 v i != 0) =
    BitVec.ofNat 4 (((List.range 4).map fun j => if v.extractLsb' (8 * j) 8 = 0 then 0 else 2 ^ j).sum) := by
  have bits4 : ∀ a b c d : Bool, BitVec.ofBool d ++ BitVec.ofBool c ++ BitVec.ofBool b ++ BitVec.ofBool a =
      BitVec.ofNat 4 [if a then 2 ^ 0 else 0, if b then 2 ^ 1 else 0, if c then 2 ^ 2 else 0, if d then 2 ^ 3 else 0].sum := by decide
  have hj : ∀ j, (if v.extractLsb' (8 * j) 8 = 0 then 0 else 2 ^ j) = if (subEl 8 v j != 0) = true then 2 ^ j else 0 := fun j => by
    have : v.extractLsb' (8 * j) 8 = 0 ↔ subEl 8 v j = 0 := by
      rw [← BitVec.toNat_inj, BitVec.extractLsb'_toNat, Nat.shiftRight_eq_div_pow]; rfl
    simp only [this, bne_iff_ne, ne_eq, ite_not]
  simp only [hj]
  exact bits4 ..

/-! The mask stack (R44, R221). -/

theorem laneAdvance_unparked {s : State} {g : Nat} (hf : (group s g).lane.park.fmask = 0) (hr : (group s g).lane.park.replaying = false)
    (n time : Nat) : laneAdvance s g n time = laneNext s g (group s g) n := by
  have hpark : (advanceLane (group s g).lane n).park = (group s g).lane.park := by unfold advanceLane; split <;> rfl
  simp only [laneAdvance, countIssue, hpark, hf, if_true, replayDone, hr, Bool.false_and, Bool.false_eq_true, if_false, modGroup, laneNext]
/-- A mask operation whose checks pass, of a group that is not traced. -/
theorem maskOp_runs {s : State} {g : Nat} (h : LaneRuns s g) (hb : (group s g).trace.bit = false) {cond : Option PReg}
    {trap : LaneCtx → Option Nat} (ht : trap (group s g).lane = none) {eff : Group → LaneCtx} (hp : (eff (group s g)).park = (group s g).lane.park)
    {emit : State → Nat → State} (he : ∀ t, (group t g).trace.bit = false → emit t g = t) :
    maskOp s cond trap eff emit = .next (laneNext s g { group s g with lane := eff (group s g) } 0) := by
  obtain ⟨hc, hpo, hf, hr⟩ := h
  have hbad : ∀ k, poisoned (group s g) 2 k 0 = false := fun k => by simp [poisoned, hpo]
  have ha : traceAhead s g (now s) = s := by simp [traceAhead, traced_of_bit hb]
  have hm : maskDone s g eff = laneNext s g { group s g with lane := eff (group s g) } 0 := by
    rw [maskDone, modGroup, laneAdvance_unparked (by rw [group_setGroup_same]; exact hp ▸ hf) (by rw [group_setGroup_same]; exact hp ▸ hr),
      laneNext, group_setGroup_same, setGroup_setGroup, laneNext]
  have hstop : stopsRunOn (group s g) { Use.lanes [] [] 0 with cross := true } = false := by simp [stopsRunOn, hf]
  simp only [maskOp, onGroup, hc, hstop, ht, ha, hm, Bool.false_eq_true, if_false]
  congr 1
  cases cond with
  | none => exact he _ (by simpa [laneNext] using hb)
  | some k => rw [if_neg (by simp [hbad])]; exact he _ (by simpa [laneNext] using hb)
/-- A mask operation that its stack does not allow, of a group that can take the fault. -/
theorem maskOp_traps {s : State} {g : Nat} (h : LaneRuns s g) (hf : Faultable s g) {cond : Option PReg} {trap : LaneCtx → Option Nat} {c : Nat}
    (ht : trap (group s g).lane = some c) (eff : Group → LaneCtx) (emit : State → Nat → State) :
    maskOp s cond trap eff emit = .next (pendingDone s g (mkRec 1 c (accessByte false false false 1) (group s g).lane.lpc)) := by
  obtain ⟨hc, -, hp, hr⟩ := h
  have hstop : stopsRunOn (group s g) { Use.lanes [] [] 0 with cross := true } = false := by simp [stopsRunOn, hp]
  have hs : Faultable (setGroup s g (group s g)) g := by simpa [Faultable] using hf
  simp only [maskOp, onGroup, hc, hstop, ht, Bool.false_eq_true, if_false, raiseLane, hr, raiseStream_faultable hs]
  simp [pendingDone, mkRec]

/-- What `vtest` writes: how many active lanes meet the condition, whether all do, and whether any does. -/
theorem vtest_value (m : Mask) (hold : Nat → Bool) (hit : Mask) (hh : ∀ i < 128, hit.getLsbD i = (m.getLsbD i && hold i)) :
    let active := (List.range 128).filter fun i => m.getLsbD i
    let n := (active.filter hold).length
    (BitVec.ofNat 64 (maskCount hit * 2 ^ 32) + anyAll ((lanesOf m).map fun i => hit.getLsbD i) : Word) =
      BitVec.ofNat 64 (n * 2 ^ 32 + (if n = active.length then 2 else 0) + if n = 0 then 0 else 1) := by
  intro active n
  have hn : maskCount hit = n := by
    simp only [maskCount, lanesOf, n, active, List.filter_filter]
    exact congrArg List.length (List.filter_congr fun i hi => by rw [hh i (List.mem_range.mp hi), Bool.and_comm])
  have hmap : (lanesOf m).map (fun i => hit.getLsbD i) = active.map hold := List.map_congr_left fun i hi => by
    obtain ⟨hr, hm⟩ := List.mem_filter.mp hi
    rw [hh i (List.mem_range.mp hr), hm, Bool.true_and]
  have hall : (active.map hold).all id = decide (n = active.length) := by
    rw [Bool.eq_iff_iff]
    simp [n, List.length_filter_eq_length_iff]
  have hany : (active.map hold).any id = !decide (n = 0) := by
    rw [Bool.eq_iff_iff]
    simp [n, List.filter_eq_nil_iff]
  have sum : ∀ p q : Bool, boolWord (!p) + 2 * boolWord q = BitVec.ofNat 64 ((if q then 2 else 0) + if p then 0 else 1) := by decide
  rw [hn, hmap, anyAll, hall, hany, sum, Nat.add_assoc, BitVec.ofNat_add (n * 2 ^ 32)]
  simp only [decide_eq_true_eq]

section
variable {s : State} {g : Nat} (h : LaneRuns s g) (hb : (group s g).trace.bit = false)
include h hb

theorem execMpush_runs {x : PushArgs} (hd : (group s g).lane.stack.length < Config.maskDepth) :
    execMpush x s = .next (laneNext s g { group s g with lane := { (group s g).lane with
      mask := (group s g).lane.mask &&& condMask (group s g) x.pred x.neg, stack := (group s g).lane.mask :: (group s g).lane.stack } } 0) := by
  rw [execMpush, maskOp_runs h hb]
  · exact if_neg hd.not_ge
  · rfl
  · exact fun t ht => emitGroup_of_bit ht ..
theorem execMelse_runs {m : Mask} {st : List Mask} (he : (group s g).lane.stack = m :: st) :
    execMelse s = .next (laneNext s g { group s g with lane := { (group s g).lane with
      mask := m &&& ~~~(group s g).lane.mask } } 0) := by
  rw [execMelse, maskOp_runs h hb]
  · simp only [he, List.headD_cons]
  · simp [he]
  · rfl
  · exact fun t ht => emitGroup_of_bit ht ..
theorem execMpop_runs {m : Mask} {st : List Mask} (he : (group s g).lane.stack = m :: st) :
    execMpop s = .next (laneNext s g { group s g with lane := { (group s g).lane with mask := m, stack := st } } 0) := by
  rw [execMpop, maskOp_runs h hb]
  · simp only [he, List.headD_cons, List.tail_cons]
  · simp [he]
  · rfl
  · exact fun t ht => emitGroup_of_bit ht ..
end

/-- Settles O27: the predicate instructions are lane operations that write a predicate; the mask stack's operations pass their check or
trap; the summaries read the active mask. -/
theorem maskAndPredicates : Obligations.MaskAndPredicates := by
  unfold Obligations.MaskAndPredicates
  refine ⟨⟨fun s g x h => ?_, fun s g x h => ?_, fun s g x h => ?_, fun s g x h => ?_, fun s g x h => ?_, putNibbles_zero⟩, fun s g h hb => ?_⟩
  · simp only [List.forall_mem_cons, List.not_mem_nil, false_imp_iff, implies_true, and_true]
    refine ⟨?_, ?_, ?_, ?_⟩ <;> exact predOp_runs h _ _ _ _ (below_nil s g) _ _
  · exact predOp_runs h _ _ _ _ (below_nil s g) _ _
  · exact predOp_runs h _ _ _ _ (below_nil s g) _ _
  · intro y hbelow
    show execVpget x s = _
    simp only [execVpget, h.repNow]
    exact laneIssue_runs h _ _ _ _ (by simpa [predUse, Use.lanes, regs] using hbelow) rfl rfl
  · intro y hbelow nonzero
    have hmov : ∀ f, predMov f x s = .next (laneNext s g (putNibbles y x.d (execLanes y x.c.pred x.c.neg)
        ((vreg y (regNo x.a x.c.stepA 1 y.lane.rep)).map f)) x.c.rep.toNat) := fun f => by
      simp only [predMov, h.repNow]
      exact predOp_runs h _ _ _ _ (by simpa [Below, regs] using hbelow) _ _
    simp only [List.forall_mem_cons, List.not_mem_nil, false_imp_iff, implies_true, and_true]
    exact ⟨hmov _, (congrArg (predMov · x s) (funext packedBits_nonzero)).trans (hmov nonzero)⟩
  · intro y hold after trap
    refine ⟨fun x hd hl => ?_, fun x hd hf => ?_, fun m st he => ⟨?_, ?_⟩, fun he hf => ⟨?_, ?_⟩, fun x hl => ?_, fun x => ?_⟩
    · refine ⟨y.lane.mask &&& condMask y x.pred x.neg, execMpush_runs h hb hd, fun i hi => ?_⟩
      rw [BitVec.getLsbD_and, getLsbD_condMask hl x.neg hi]
    · show execMpush x s = _
      exact maskOp_traps h hf (trap := fun l => if Config.maskDepth ≤ l.stack.length then some 0 else none) (if_pos hd) _ _
    · exact (execMelse_runs h hb he).trans (by simp only [after, ← he, y])
    · exact execMpop_runs h hb he
    · show execMelse s = _
      exact maskOp_traps h hf (trap := fun l => if l.stack.isEmpty then some 1 else none) (if_pos (List.isEmpty_iff.mpr he)) _ _
    · show execMpop s = _
      exact maskOp_traps h hf (trap := fun l => if l.stack.isEmpty then some 1 else none) (if_pos (List.isEmpty_iff.mpr he)) _ _
    · intro active n
      refine (laneIssue_runs h _ _ _ _ (below_nil s g) rfl (by simp [setLaneScalar])).trans ?_
      have hv := vtest_value y.lane.mask (hold x.pred x.neg) (y.lane.mask &&& condMask y x.pred x.neg) fun i hi => by
        rw [BitVec.getLsbD_and, getLsbD_condMask hl x.neg hi]
      simp only [h.activeMask]
      exact congrArg (fun v => Host.Outcome.next (laneNext s g (setLaneScalar y x.d v) 0)) hv
    · refine (laneIssue_runs h _ _ _ _ (below_nil s g) rfl (by rw [putMreg_lane])).trans ?_
      rw [maskBits, List.map_map]
      rfl

end Sys2Proof.Machine
end

section
/-! PROOFS. The work tree (family 02): how the teams of a launch start. -/

namespace Sys2Proof.Machine
open Sys2Proof

/-! A trace record with no sink enabled changes trace settings and nothing else (R391, R396). -/

/-- Only the table of groups differs. -/
def OnlyGroups (s t : State) : Prop := ∃ gs, t = { s with work := { s.work with groups := gs } }

theorem OnlyGroups.refl (s : State) : OnlyGroups s s := ⟨s.work.groups, rfl⟩
theorem OnlyGroups.trans {s t u : State} (h : OnlyGroups s t) (k : OnlyGroups t u) : OnlyGroups s u := by
  obtain ⟨gs, rfl⟩ := h
  obtain ⟨hs, rfl⟩ := k
  exact ⟨hs, rfl⟩
theorem OnlyGroups.setGroup (s : State) (g : Nat) (x : Group) : OnlyGroups s (setGroup s g x) := ⟨_, rfl⟩
theorem OnlyGroups.noSinks {s t : State} (h : OnlyGroups s t) (hn : NoSinks s) : NoSinks t := by
  obtain ⟨gs, rfl⟩ := h
  exact hn.of_regs rfl
theorem onlyGroups_groupPut {s : State} (h : NoSinks s) (g time typ sub : Nat) (body : List Byte) (hold : Bool) :
    OnlyGroups s (groupPut s g time typ sub body hold) := by
  have hm : OnlyGroups s (modGroup s g fun x => { x with trace := { x.trace with stamp := max time (group s g).trace.stamp } }) := .setGroup ..
  simp only [groupPut, putRecord_noSinks (hm.noSinks h)]
  exact hm
theorem onlyGroups_flushMap {s : State} (h : NoSinks s) (g : Nat) (hold : Bool) : OnlyGroups s (flushMap s g hold) := by
  unfold flushMap
  dsimp only
  split
  · exact .refl s
  · have hm : OnlyGroups s (Machine.setGroup s g { group s g with trace := { (group s g).trace with map := [], branches := (group s g).trace.branches + 1 } }) :=
      .setGroup ..
    exact hm.trans (onlyGroups_groupPut (hm.noSinks h) ..)
theorem onlyGroups_emitSync {s : State} (h : NoSinks s) (g reason : Nat) : OnlyGroups s (emitSync s g reason) := by
  unfold emitSync
  split
  · have hf := onlyGroups_flushMap h g (reason != 3)
    have hp := onlyGroups_groupPut (hf.noSinks h) g (now (flushMap s g (reason != 3))) 1 reason (syncBody (flushMap s g (reason != 3)) g) (reason != 3)
    exact (hf.trans hp).trans (.setGroup ..)
  · exact .refl s

/-! Groups and teams that are in place (R42, R49, R50, R68, R69). -/

/-- A group as a launch starts it: group i of team n, at the entry, its arguments and the end of its stack in its registers, nothing else set. -/
def GroupStarted (x : Launch) (n i : Nat) (y : Group) : Prop :=
  y.live = true ∧ y.team = n ∧ y.no = i ∧ y.spc = x.d.spc ∧ y.lane.lpc = x.d.lpc ∧ y.lane.rep = 0 ∧ y.lane.rq = [] ∧ y.lane.stack = [] ∧
  y.level = x.priv ∧ y.r.v = [] ∧ y.r.m = [] ∧ y.r.q = [] ∧ y.r.t = [] ∧ y.handler = none ∧ y.cnt.loads = 0 ∧ y.cnt.stores = 0 ∧
  (∀ j < 128, y.lane.mask.getLsbD j = decide (j < laneCount x.d)) ∧
  ∀ r, sregOf y r = if 1 ≤ r ∧ r ≤ 8 then x.d.args.getD (r - 1) 0
    else if r = 62 then x.d.stackBase + BitVec.ofNat 64 ((i + 1) * x.d.stackSize) else 0
/-- A team of a launch that stands on its core with its first k groups, all named below the next free name. -/
structure TeamPlaced (t : State) (x : Launch) (l n : Nat) (e : Nat × Nat) (k : Nat) : Prop where
  live : (team t n).live = true
  launch : (team t n).launch = l
  no : (team t n).no = e.1
  core : (team t n).core = e.2
  scratch : (team t n).scratch = []
  acc : (team t n).acc = []
  recs : (team t n).recs = []
  count : (team t n).groups.length = k
  started : ∀ i < k, GroupStarted x n i (group t ((team t n).groups.getD i 0))
  named : n < t.work.next
  names : ∀ g ∈ (team t n).groups, g < t.work.next

/-- A later state keeps what is named already: its teams but team n, and its groups but for their trace settings. -/
structure KeepsNamed (n : Nat) (s t : State) : Prop where
  next : s.work.next ≤ t.work.next
  teams : ∀ m < s.work.next, m ≠ n → team t m = team s m
  groups : ∀ g < s.work.next, ∃ c, group t g = { group s g with trace := c }

theorem KeepsNamed.refl (n : Nat) (s : State) : KeepsNamed n s s := ⟨le_rfl, fun _ _ _ => rfl, fun _ _ => ⟨_, rfl⟩⟩
theorem KeepsNamed.trans {n : Nat} {s t u : State} (h : KeepsNamed n s t) (k : KeepsNamed n t u) : KeepsNamed n s u where
  next := h.next.trans k.next
  teams m hm hn := (k.teams m (hm.trans_le h.next) hn).trans (h.teams m hm hn)
  groups g hg := by
    obtain ⟨c, hc⟩ := h.groups g hg
    obtain ⟨c', hc'⟩ := k.groups g (hg.trans_le h.next)
    exact ⟨c', by rw [hc', hc]⟩
/-- A started group stays one under a change of its trace setting. -/
theorem KeepsNamed.groupStarted {n : Nat} {s t : State} (hk : KeepsNamed n s t) {x : Launch} {m i g : Nat} (hg : g < s.work.next)
    (h : GroupStarted x m i (group s g)) : GroupStarted x m i (group t g) := by
  obtain ⟨c, hc⟩ := hk.groups g hg
  rw [hc]
  exact h
theorem TeamPlaced.getD_lt {s : State} {x : Launch} {l n : Nat} {e : Nat × Nat} {k : Nat} (h : TeamPlaced s x l n e k) {i : Nat} (hi : i < k) :
    (team s n).groups.getD i 0 < s.work.next := by
  rw [List.getD_eq_getElem _ _ (h.count ▸ hi)]
  exact h.names _ (List.getElem_mem _)
theorem TeamPlaced.later {s t : State} {x : Launch} {l n m : Nat} {e : Nat × Nat} {k : Nat} (h : TeamPlaced s x l n e k)
    (hk : KeepsNamed m s t) (hm : n ≠ m) : TeamPlaced t x l n e k := by
  have ht := hk.teams n h.named hm
  refine ⟨ht ▸ h.live, ht ▸ h.launch, ht ▸ h.no, ht ▸ h.core, ht ▸ h.scratch, ht ▸ h.acc, ht ▸ h.recs, ht ▸ h.count, fun i hi => ?_,
    h.named.trans_le hk.next, ?_⟩
  · rw [ht]
    exact hk.groupStarted (h.getD_lt hi) (h.started i hi)
  · rw [ht]
    exact fun g hg => (h.names g hg).trans_le hk.next

/-! What one more group, and one more team, add. -/

theorem tget_args (l : List Word) (k : Nat) (t : Tab Word) (r : Nat) :
    tget 0 ((l.zipIdx k).foldl (fun t e => tput 0 t (e.2 + 1) e.1) t) r =
      if k + 1 ≤ r ∧ r ≤ k + l.length then l.getD (r - k - 1) 0 else tget 0 t r := by
  induction l generalizing k t with
  | nil =>
    rw [if_neg (by simp)]
    rfl
  | cons a l ih =>
    rw [List.zipIdx_cons, List.foldl_cons, ih, tget_tput, List.length_cons]
    by_cases h : r = k + 1
    · subst h
      simp
    · by_cases h2 : k + 1 + 1 ≤ r ∧ r ≤ k + 1 + l.length
      · obtain ⟨m, rfl⟩ : ∃ m, r = k + 1 + 1 + m := ⟨r - (k + 1 + 1), by omega⟩
        rw [if_pos h2, if_pos (by omega)]
        simp [show k + 1 + 1 + m - (k + 1) - 1 = m by omega, show k + 1 + 1 + m - k - 1 = m + 1 by omega]
      · rw [if_neg h2, if_neg h, if_neg (by omega)]
theorem groupStarted_startGroup {s : State} {x : Launch} {n : Nat} (hd : (launch s (team s n).launch).d = x.d)
    (hp : (launch s (team s n).launch).priv = x.priv) (ha : x.d.args.length = 8) (i : Nat) : GroupStarted x n i (startGroup s n i) := by
  refine ⟨rfl, rfl, rfl, congrArg Desc.spc hd, congrArg Desc.lpc hd, rfl, rfl, rfl, hp, rfl, rfl, rfl, rfl, rfl, rfl, rfl, fun j hj => ?_, fun r => ?_⟩
  · show (startMask (launch s (team s n).launch).d).getLsbD j = _
    rw [hd, startMask, getLsbD_maskOf, decide_eq_true hj, Bool.true_and]
  · simp only [startGroup, startRegs, sregOf, hd, tget_tput, tget_args, ha]
    grind [tget]

/-- One more group of a team that is being placed. -/
theorem addGroup_places {s : State} {x : Launch} {l n k : Nat} {e : Nat × Nat} (hn : NoSinks s) (h : TeamPlaced s x l n e k)
    (hd : (launch s l).d = x.d) (hp : (launch s l).priv = x.priv) (ha : x.d.args.length = 8) :
    let t := emitSync (addGroup (newName s).2 n (newName s).1 (startGroup (newName s).2 n k)) (newName s).1 6
    TeamPlaced t x l n e (k + 1) ∧ KeepsNamed n s t ∧ t.mem = s.mem ∧ t.work.launches = s.work.launches ∧ NoSinks t := by
  intro t
  set g := s.work.next with hg
  set a := addGroup (newName s).2 n g (startGroup (newName s).2 n k) with ha'
  have hna : NoSinks a := hn.of_regs rfl
  obtain ⟨gs, ht⟩ : OnlyGroups a t := onlyGroups_emitSync hna g 6
  have htr : ∀ i, ∃ c, group t i = { group a i with trace := c } := (onlyTrace_emitSync a g 6).at_
  have hgs : group a g = startGroup (newName s).2 n k := by simp [ha', addGroup, modTeam]
  have hgo : ∀ i, i ≠ g → group a i = group s i := fun i hi => by
    rw [ha', addGroup, modTeam, group_setTeam, group_setGroup, if_neg hi]
    rfl
  have hta : ∀ m, team t m = team a m := fun m => by rw [ht]; rfl
  have htn : team a n = { team s n with groups := (team s n).groups ++ [g] } := team_setTeam_same ..
  have hto : ∀ m, m ≠ n → team a m = team s m := fun m hm => by
    rw [ha', addGroup, modTeam, team_setTeam, if_neg hm]
    rfl
  have hnext : t.work.next = s.work.next + 1 := by rw [ht]; rfl
  have hkeep : KeepsNamed n s t := ⟨by omega, fun m _ hm => (hta m).trans (hto m hm), fun i hi => hgo i hi.ne ▸ htr i⟩
  have htt : team t n = { team s n with groups := (team s n).groups ++ [g] } := (hta n).trans htn
  refine ⟨⟨htt ▸ h.live, htt ▸ h.launch, htt ▸ h.no, htt ▸ h.core, htt ▸ h.scratch, htt ▸ h.acc, htt ▸ h.recs, ?_, fun i hi => ?_, ?_, ?_⟩,
    hkeep, by rw [ht]; rfl, by rw [ht]; rfl, by rw [ht]; exact hna.of_regs rfl⟩
  · rw [htt, List.length_append, h.count]
    rfl
  · rw [htt]
    dsimp only
    obtain hlt | rfl := Nat.lt_succ_iff_lt_or_eq.mp hi
    · rw [List.getD_append _ _ _ _ (h.count ▸ hlt)]
      exact hkeep.groupStarted (h.getD_lt hlt) (h.started i hlt)
    · rw [List.getD_append_right _ _ _ _ h.count.le, h.count, Nat.sub_self, List.getD_cons_zero]
      obtain ⟨c, hc⟩ := htr g
      have hl : launch (newName s).2 (team (newName s).2 n).launch = launch s l := congrArg (launch s) h.launch
      have hst : GroupStarted x n i (startGroup (newName s).2 n i) :=
        groupStarted_startGroup ((congrArg Launch.d hl).trans hd) ((congrArg Launch.priv hl).trans hp) ha i
      rw [hc, hgs]
      exact hst
  · rw [hnext]
    exact h.named.trans (Nat.lt_succ_self _)
  · rw [htt, hnext]
    intro i hi
    obtain hi | hi := List.mem_append.mp hi
    · exact (h.names i hi).trans (Nat.lt_succ_self _)
    · rw [List.mem_singleton.mp hi]
      exact Nat.lt_succ_self _

/-- The first k groups of team n, one after the other. -/
def startGroups (s : State) (n k : Nat) : State :=
  (List.range k).foldl (fun s k => emitSync (addGroup (newName s).2 n (newName s).1 (startGroup (newName s).2 n k)) (newName s).1 6) s
theorem startTeam_eq (s : State) (l no c : Nat) :
    let a := setTeam (newName s).2 s.work.next (freshTeam (newName s).2 l no c)
    startTeam s l no c = modLaunch (startGroups a s.work.next (groupsPerTeam (launch a l).d)) l
      fun y => { y with started := y.started ++ [no] } := rfl
theorem addGroups_place {s : State} {x : Launch} {l n : Nat} {e : Nat × Nat} (hn : NoSinks s) (h : TeamPlaced s x l n e 0)
    (hd : (launch s l).d = x.d) (hp : (launch s l).priv = x.priv) (ha : x.d.args.length = 8) (k : Nat) :
    let t := startGroups s n k
    TeamPlaced t x l n e k ∧ KeepsNamed n s t ∧ t.mem = s.mem ∧ t.work.launches = s.work.launches ∧ NoSinks t := by
  induction k with
  | zero => exact ⟨h, .refl n s, rfl, rfl, hn⟩
  | succ k ih =>
    obtain ⟨h1, hk1, hm1, hl1, hn1⟩ := ih
    simp only [startGroups, List.range_succ, List.foldl_append, List.foldl_cons, List.foldl_nil]
    obtain ⟨h2, hk2, hm2, hl2, hn2⟩ := addGroup_places hn1 h1 (by rw [launch, hl1]; exact hd) (by rw [launch, hl1]; exact hp) ha
    exact ⟨h2, hk1.trans hk2, hm2.trans hm1, hl2.trans hl1, hn2⟩

/-- One team started on a core of its own name: every group in place, and noted by its launch. -/
theorem startTeam_places {s : State} {x : Launch} {l : Nat} (e : Nat × Nat) (hn : NoSinks s)
    (hd : (launch s l).d = x.d) (hp : (launch s l).priv = x.priv) (ha : x.d.args.length = 8) :
    let t := startTeam s l e.1 e.2
    TeamPlaced t x l s.work.next e (groupsPerTeam x.d) ∧ KeepsNamed s.work.next s t ∧ t.mem = s.mem ∧ NoSinks t ∧
      launch t l = { launch s l with started := (launch s l).started ++ [e.1] } := by
  set a := setTeam (newName s).2 s.work.next (freshTeam (newName s).2 l e.1 e.2) with ha'
  have htn : team a s.work.next = freshTeam (newName s).2 l e.1 e.2 := team_setTeam_same ..
  have h0 : TeamPlaced a x l s.work.next e 0 := by
    refine ⟨?_, ?_, ?_, ?_, ?_, ?_, ?_, ?_, fun i hi => absurd hi (Nat.not_lt_zero i), Nat.lt_succ_self _, ?_⟩
    all_goals rw [htn]
    any_goals rfl
    exact fun g hg => nomatch hg
  have hk0 : KeepsNamed s.work.next s a := ⟨Nat.le_succ _, fun m _ hm => (team_setTeam ..).trans (if_neg hm), fun _ _ => ⟨_, rfl⟩⟩
  have hna : NoSinks a := hn.of_regs rfl
  obtain ⟨h1, hk1, hm1, hl1, hn1⟩ := addGroups_place hna h0 hd hp ha (groupsPerTeam x.d)
  set b := startGroups a s.work.next (groupsPerTeam x.d)
  have hst : startTeam s l e.1 e.2 = modLaunch b l fun y => { y with started := y.started ++ [e.1] } := by
    have hg : groupsPerTeam (launch a l).d = groupsPerTeam x.d := congrArg groupsPerTeam hd
    rw [startTeam_eq, hg]
  have hkl : ∀ m, KeepsNamed m b (modLaunch b l fun y => { y with started := y.started ++ [e.1] }) :=
    fun m => ⟨le_rfl, fun _ _ _ => rfl, fun _ _ => ⟨_, rfl⟩⟩
  have hbl : launch b l = launch s l := by rw [launch, hl1]; rfl
  rw [hst]
  refine ⟨h1.later (hkl (s.work.next + 1)) (Nat.lt_succ_self _).ne, (hk0.trans hk1).trans (hkl _), hm1, hn1.of_regs rfl, ?_⟩
  rw [modLaunch, launch_setLaunch_same, hbl]

/-- The teams of a list of places, one after the other. -/
theorem startTeams_place {s : State} {x : Launch} {l : Nat} (hn : NoSinks s) (ha : x.d.args.length = 8) (cs : List (Nat × Nat))
    (hd : (launch s l).d = x.d) (hp : (launch s l).priv = x.priv) :
    let t := cs.foldl (fun s e => startTeam s l e.1 e.2) s
    t.mem = s.mem ∧ (launch t l).started = (launch s l).started ++ cs.map (·.1) ∧
      (∀ e ∈ cs, ∃ n, TeamPlaced t x l n e (groupsPerTeam x.d)) ∧
      ∀ n e, TeamPlaced s x l n e (groupsPerTeam x.d) → TeamPlaced t x l n e (groupsPerTeam x.d) := by
  induction cs generalizing s with
  | nil => exact ⟨rfl, (List.append_nil _).symm, fun _ h => absurd h List.not_mem_nil, fun _ _ h => h⟩
  | cons e cs ih =>
    obtain ⟨h1, hk1, hm1, hn1, hl1⟩ := startTeam_places e hn hd hp ha
    obtain ⟨hm2, hs2, ht2, hk2⟩ := ih hn1 (by rw [hl1]; exact hd) (by rw [hl1]; exact hp)
    refine ⟨hm2.trans hm1, ?_, fun e' he' => ?_, fun n e' h => hk2 n e' (h.later hk1 h.named.ne)⟩
    · rw [List.foldl_cons, hs2, hl1]
      simp
    · obtain rfl | he' := List.mem_cons.mp he'
      · exact ⟨_, hk2 _ _ h1⟩
      · exact ht2 e' he'

/-- Settles O40: the teams that can be placed start one after the other, and each stays in place while the later ones start. -/
theorem teamsStart : Obligations.TeamsStart := by
  intro s l cs hn x d hlive hphase hfin hsaved hreset hcs ha
  refine ⟨cs.foldl (fun s e => startTeam s l e.1 e.2) s, ?_, ?_⟩
  · show execTeamPlacement l s = _
    have hcond : (x.live && x.phase == .running && x.fin.isNone && !hasSaved s x.part && !partResetting s x.part) = true := by
      simp [hlive, hphase, hfin, hsaved, hreset]
    simp only [execTeamPlacement]
    rw [if_pos hcond, hcs]
  · obtain ⟨hm, hs, ht, -⟩ := startTeams_place (x := x) hn ha cs rfl rfl
    refine ⟨hm, hs, fun e he => ?_⟩
    obtain ⟨n, h⟩ := ht e he
    exact ⟨n, h.live, h.launch, h.no, h.core, h.scratch, h.acc, h.recs, h.count, fun i hi => h.started i hi⟩

end Sys2Proof.Machine
end

section
/-! PROOFS. The work tree (family 02): events of the streams, and requests at their homes. -/

namespace Sys2Proof.Machine
open Sys2Proof

/-! Runs of memory where no coherence object lies, for any agent (R139, R140). -/

section
variable {s : State} {va : Word} {f n : Nat} {p : Bool}

theorem settle_unmet {part : Nat} (ho : objsMet s part va n = []) : settle s part va [⟨f, n, p⟩] = s := by
  simp [settle, settleWith, settleRunWith, ho]
theorem readSegs_one (s : State) : readSegs s [⟨f, n, p⟩] = mread s.mem f n := by simp [readSegs]
theorem homeRead_unmet {who : Who} (ho : objsMet s who.part va n = []) : homeRead s who va [⟨f, n, p⟩] = (s, mread s.mem f n) := by
  have hn : objsMet s who.part va (segsLen [⟨f, n, p⟩]) = [] := by simpa [segsLen] using ho
  simp only [homeRead, settle_unmet ho, noteSharer, hn, List.foldl_nil, readSegs_one]
theorem homeWrite_unmet {who : Who} {bs : List Byte} (hl : bs.length = n) (ho : objsMet s who.part va n = []) :
    homeWrite s who va [⟨f, n, p⟩] bs = { s with mem := mwrite s.mem f bs } := by
  have h' : objsMet { s with mem := mwrite s.mem f bs } who.part va n = [] := ho
  have hs : segsLen [⟨f, n, p⟩] = n := by simp [segsLen]
  have ht : bs.take n = bs := by rw [← hl, List.take_length]
  simp only [homeWrite, storeWith, settleWith, settleRunWith, ho, List.foldl_nil, writeSegs, ht, updateWith, hs, h']
end

/-! The reply of a group's scalar access (R175, R182). -/

theorem loadValue_eq_loaded {k : BitVec 3} {raw : Word} (hr : raw.toNat < 256 ^ 2 ^ (k.toNat % 4)) :
    loadValue k raw = loaded k (leBytes (2 ^ (k.toNat % 4)) raw.toNat) := by
  have hk : kindBytes k = 2 ^ (k.toNat % 4) := by simp [kindBytes, bits]
  have hof : ofLe (leBytes (2 ^ (k.toNat % 4)) raw.toNat) = raw.toNat := (ofLe_leBytes ..).trans (Nat.mod_eq_of_lt hr)
  simp only [loadValue, loadValue.sextWord', loaded, leBytes_length, hof, hk, BitVec.ofNat_toNat, BitVec.setWidth_eq]
/-- What a load's reply leaves of its group, but for the register: the access is over and no longer counted. -/
def loadOver (x : Group) : Group :=
  { x with cnt := { x.cnt with loads := x.cnt.loads - 1 }, fly := { x.fly with scalar := none } }
/-- A load's reply reaches its register, and the instruction retires. -/
theorem scalarReply_load {s : State} {g : Nat} {d : SReg} {k : BitVec 3} {a raw : Word} {n : Nat} {sn : Option (List Host.Cell)}
    (hf : (group s g).fly.scalar = some ⟨.load d k, a, n, some (.value raw), sn⟩) (ht : (group s g).trace.next = none) :
    exec (.scalarReply g) s =
      .next (retired s g (setSregOf (loadOver (group s g)) d.toNat (loadValue k raw)) ((group s g).spc + 4)) := by
  have hr : Runs { s with cur := .group g } g := ⟨rfl, ht⟩
  have hg : group { s with cur := .group g } g = group s g := rfl
  show execScalarReply g s = _
  simp only [execScalarReply, asGroup, finishScalar, hg, hf, modGroup, countAccess, AccKind.rw, if_true, Bool.false_eq_true, if_false]
  exact congrArg (fun t : State => Host.Outcome.next { t with cur := s.cur }) (result_setGroup hr (loadOver (group s g)) ht d (loadValue k raw))

/-! Waiting counter waits (R193). -/

/-- A counter wait whose counter is at or below its threshold retires. -/
theorem waitCounter_retires {s : State} {g : Nat} (h : Runs s g) (hi : laneIssued (group s g) = true) (d a : SReg) (i : Instr)
    (v : Group → Nat) (hv : v (group s g) ≤ (sreg s g a).toNat) :
    waitCounter d a i v s = .next (scalarDone s g d (BitVec.ofNat 64 (v (group s g)))) := by
  simp only [waitCounter, h.onGroup, whenIssued, hi, if_true, h.getS, hv, result_runs h]
/-- A waiting instruction that nothing holds runs again. -/
theorem waitRetire_runs {s : State} {g : Nat} {i : Instr} (hw : (group s g).fly.waiting = some i) (hsent : sentWait (group s g) = false)
    (hl : (group s g).live = true) (hsv : saving s (group s g).team = false) (hst : (group s g).lane.stopped = false)
    (hrp : (group s g).lane.park.replaying = false) (hpo : (group s g).pend.order = []) (hsc : (group s g).fly.scalar = none)
    (hbo : (group s g).fly.booth = none) (hp : (group s g).poison = []) (hid : laneIdle (group s g) = true) :
    exec (.waitRetire g) s = scalarMeaning i { s with cur := .group g } := by
  have hheld : scalarHeld { s with cur := .group g } g i = none := by
    have hg : group { s with cur := .group g } g = group s g := rfl
    simp [scalarHeld, hg, hid, scalarPoison, hp]
  show execWaitRetire g s = _
  simp only [execWaitRetire]
  have hg : group { s with cur := .group g } g = group s g := rfl
  have hsv' : saving { s with cur := .group g } (group s g).team = false := hsv
  simp only [hg, hw, hsent, hl, hsv', hst, hrp, hpo, hsc, hbo, hheld, Bool.not_true, Bool.or_false, Bool.false_eq_true, if_false,
    List.isEmpty_nil, Bool.false_and, Option.isSome_none, Option.any_none]

/-! A request at its home (R134, R175, R182, R184). -/

/-- The state in which a group's access has a reply. -/
def withReply (s : State) (g : Nat) (a : ScalarAcc) (r : Reply) : State :=
  setGroup s g { group s g with fly := { (group s g).fly with scalar := some { a with reply := some r } } }
theorem reply_unfaulted {s : State} {g : Nat} (hf : ∀ f ∈ s.work.faults, f.1 ≠ .scalar g) (a : ScalarAcc) (r : Reply) :
    serveScalar.reply s g a r = withReply s g a r := by
  rw [serveScalar.reply, clearFaults_none hf, modGroup, withReply]

theorem rights_load (d : SReg) (k : BitVec 3) : (AccKind.load d k).rights = 1 := by simp [AccKind.rights, AccKind.rw]
theorem rights_loadRo (d : SReg) (k : BitVec 3) : (AccKind.loadRo d k).rights = 1 := by simp [AccKind.rights, AccKind.rw]
theorem rights_store (v : Word) : (AccKind.store v).rights = 2 := by simp [AccKind.rights, AccKind.rw]

/-- The lines of a `.ro` load are noted by its core, the first one among them. -/
theorem noteRo_notes (s : State) (g : Nat) {a : Word} (n : Nat) (hw : hostWindow a = false) :
    ∃ ro, noteRo s g a n = setCore s (coreOf s g) { core s (coreOf s g) with ro := ro } ∧ (launchOf s g, a.toNat / 128) ∈ ro := by
  simp only [noteRo, noteLines, hw, Bool.false_eq_true, if_false, modCore]
  refine ⟨_, rfl, ?_⟩
  by_cases h : (launchOf s g, a.toNat / 128) ∈ (core s (coreOf s g)).ro
  · exact List.mem_append_left _ h
  · refine List.mem_append_right _ (List.mem_filter.mpr ⟨List.mem_map.mpr ⟨0, List.mem_range.mpr (Nat.succ_pos _), rfl⟩, ?_⟩)
    simpa using h

section
variable {s : State} {g f n : Nat} {a : Word} {acc : BitVec 3} {sn : Option (List Host.Cell)} (hf : ∀ f ∈ s.work.faults, f.1 ≠ .scalar g)
  (hb : s.bad = []) (ho : objsMet s (partOf s g) a n = [])
include hf hb ho

theorem serveScalar_load {d : SReg} {k : BitVec 3} (hs : (group s g).fly.scalar = some ⟨.load d k, a, n, none, sn⟩)
    (hx : xlate s (whoOf s g (.scalar g)) 1 a n = (s, .ok [⟨f, n, false⟩])) :
    serveScalar s g = withReply s g ⟨.load d k, a, n, none, sn⟩ (.value (BitVec.ofNat 64 (ofLe (mread s.mem f n)))) := by
  simp only [serveScalar, hs, Option.isSome_none, Bool.false_eq_true, if_false, rights_load, hx, poisonIn_none hb,
    homeRead_unmet (who := whoOf s g (.scalar g)) ho, reply_unfaulted hf]
omit hb in
theorem serveScalar_store {v : Word} (hs : (group s g).fly.scalar = some ⟨.store v, a, n, none, sn⟩)
    (hx : xlate s (whoOf s g (.scalar g)) 2 a n = (s, .ok [⟨f, n, false⟩])) :
    serveScalar s g = withReply { s with mem := mwrite s.mem f (leBytes n v.toNat) } g ⟨.store v, a, n, none, sn⟩ (.value 0) := by
  have hf' : ∀ e ∈ ({ s with mem := mwrite s.mem f (leBytes n v.toNat) } : State).work.faults, e.1 ≠ .scalar g := hf
  simp only [serveScalar, hs, Option.isSome_none, Bool.false_eq_true, if_false, rights_store, hx,
    homeWrite_unmet (who := whoOf s g (.scalar g)) (leBytes_length _ _) ho]
  exact reply_unfaulted hf' _ _
omit ho in
theorem serveScalar_loadRo {d : SReg} {k : BitVec 3} {m : List Host.Cell} (hw : hostWindow a = false)
    (hs : (group s g).fly.scalar = some ⟨.loadRo d k, a, n, none, some m⟩)
    (hx : xlate s (whoOf s g (.scalar g)) 1 a n = (s, .ok [⟨f, n, false⟩])) :
    serveScalar s g = withReply (noteRo s g a n) g ⟨.loadRo d k, a, n, none, some m⟩ (.value (BitVec.ofNat 64 (ofLe (mread m f n)))) := by
  have hf' : ∀ e ∈ (noteRo s g a n).work.faults, e.1 ≠ .scalar g := by
    simp only [noteRo, noteLines, hw, Bool.false_eq_true, if_false]
    exact hf
  simp only [serveScalar, hs, Option.isSome_none, Bool.false_eq_true, if_false, rights_loadRo, hx, poisonIn_none hb, readRo, hw, readSegs_one,
    reply_unfaulted hf']
end

/-- An access whose page no entry serves asks for a walk of it, or joins one, and waits (R322, R329). -/
theorem xlate_walks {s : State} {who : Who} {acc : BitVec 3} {a : Word} {n : Nat} (hf : ∀ f ∈ s.work.faults, f.1 ≠ who.agent)
    (hh : Reached s who a n) (hn : 0 < n) (hp : bits a 15 0 + n ≤ 0x10000)
    (ht : tlbFind (die s (ownerOf a)) who.part who.asn (pageOf a) = none) : xlate s who acc a n = (joinWalk s who a 0 acc, .wait) := by
  have hfind : s.work.faults.find? (fun e => e.1 == who.agent && e.2.1 == ownerOf a && e.2.2.1 == pageOf a) = none := by
    rw [List.find?_eq_none]
    intro f hm
    simp [hf f hm]
  have hm : min n (0x10000 - bits a 15 0) = n := by omega
  simp only [xlate, xlateFrom, hm, if_neg hn.ne', xlatePage, walkFault, hfind, Option.map_none, hh.1, ht, Bool.false_eq_true, if_false]
theorem serveScalar_walks {s : State} {g : Nat} {a : ScalarAcc} (hs : (group s g).fly.scalar = some a) (hr : a.reply = none)
    (hx : ∀ acc, xlate s (whoOf s g (.scalar g)) acc a.addr a.size = (joinWalk s (whoOf s g (.scalar g)) a.addr 0 acc, .wait)) :
    serveScalar s g = joinWalk s (whoOf s g (.scalar g)) a.addr 0 a.kind.rights := by
  simp only [serveScalar, hs, hr, Option.isSome_none, Bool.false_eq_true, if_false, hx]
theorem joinWalk_new {s : State} {who : Who} {a : Word} {acc : BitVec 3} (hw : waiting s who.agent = false)
    (h : walkFor s (ownerOf a) a who.part who.asn 0 = none) :
    let t := joinWalk s who a 0 acc
    walk t s.work.next = some ⟨ownerOf a, a, who.part, who.asn, 0, acc, false, [], 0, 0, 0, 0, 0⟩ ∧
      t.work.waits = s.work.waits ++ [⟨s.work.next, who.agent, acc, now s⟩] ∧ t.work.groups = s.work.groups ∧ t.mem = s.mem := by
  simp only [joinWalk, hw, Bool.false_eq_true, if_false, h]
  exact ⟨walk_setWalk_same (newName s).2 s.work.next (some _), rfl, rfl, rfl⟩
theorem joinWalk_joins {s : State} {who : Who} {a : Word} {acc : BitVec 3} (hw : waiting s who.agent = false) {w : Nat} {y : Walk}
    (h : walkFor s (ownerOf a) a who.part who.asn 0 = some (w, y)) :
    let t := joinWalk s who a 0 acc
    t.work.waits = s.work.waits ++ [⟨w, who.agent, acc, now s⟩] ∧ (y.running = false → walk t w = some { y with acc := y.acc ||| acc }) ∧
      t.work.groups = s.work.groups ∧ t.mem = s.mem := by
  simp only [joinWalk, hw, Bool.false_eq_true, if_false, h]
  cases hy : y.running with
  | true => exact ⟨rfl, fun h => absurd h (by decide), rfl, rfl⟩
  | false => exact ⟨rfl, fun _ => walk_setWalk_same s w (some _), rfl, rfl⟩
theorem not_waiting {s : State} {who : Who} {a : Word} {n : Nat} (h : Reached s who a n) : waiting s who.agent = false := by
  rw [waiting, List.any_eq_false]
  intro e he
  simpa using h.2.2 e he

/-! Requests of other chips (R335, R382). -/

/-- An answer is sent, and its request is done. -/
theorem answerRemote_sent {s : State} (hl : linked s = true) (n : Nat) (r : RemoteReq) (bs : List Byte) (fault : Option (Nat × Nat)) :
    let t := answerRemote s n r bs fault
    t.mem = s.mem ∧ t.work.groups = s.work.groups ∧ tget none t.work.remote n = none ∧
      t.out.messages = s.out.messages ++ [.answer r.chip r.va bs fault] := by
  have hl' : linked { clearFaults s (.remote n) with work := { (clearFaults s (.remote n)).work with
    remote := tput none (clearFaults s (.remote n)).work.remote n none } } = true := hl
  simp only [answerRemote, sendAll, hl', if_true]
  exact ⟨rfl, rfl, tget_tput_same .., rfl⟩

section
variable {s : State} {n : Nat} {r : RemoteReq} (hq : tget none s.work.remote n = some r)
include hq

theorem serveRemote_rootless (ho : match r.op with | .map _ => False | .inv _ => False | _ => True)
    (hr : (tget 0 (die s (ownerOf r.va)).roots (rootKey r.part r.asn.toNat)).getLsbD 0 = false) :
    serveRemote s n = answerRemote s n r [] (some (4, 0)) := by
  cases hop : r.op <;> simp_all [serveRemote]
theorem serveRemote_load {f k : Nat} (ho : r.op = .load k)
    (hr : (tget 0 (die s (ownerOf r.va)).roots (rootKey r.part r.asn.toNat)).getLsbD 0 = true)
    (hx : xlate s (remoteWho n r) 1 r.va k = (s, .ok [⟨f, k, false⟩])) (hb : s.bad = []) (hm : objsMet s r.part r.va k = []) :
    serveRemote s n = answerRemote s n r (mread s.mem f k) none := by
  simp only [serveRemote, hq, ho, hr, Bool.true_eq_false, if_false, remoteRights, remoteSize, hx, remoteAct, poisonIn_none hb,
    Option.isSome_none, Bool.false_eq_true, settle_unmet hm, readSegs_one]
theorem serveRemote_store {f : Nat} {bs : List Byte} (ho : r.op = .store bs)
    (hr : (tget 0 (die s (ownerOf r.va)).roots (rootKey r.part r.asn.toNat)).getLsbD 0 = true)
    (hb : s.bad = []) (hx : xlate s (remoteWho n r) 2 r.va bs.length = (s, .ok [⟨f, bs.length, false⟩]))
    (hm : objsMet s r.part r.va bs.length = []) :
    serveRemote s n = answerRemote { s with mem := mwrite s.mem f bs } n r [] none := by
  have hclean : cleanBad { s with mem := mwrite s.mem f bs } [(f, bs.length)] = { s with mem := mwrite s.mem f bs } := by
    simp [cleanBad, hb]
  simp only [serveRemote, hq, ho, hr, Bool.true_eq_false, if_false, remoteRights, remoteSize, hx, remoteAct,
    homeWrite_unmet (who := remoteWho n r) rfl hm, List.map_cons, List.map_nil, hclean]
end

/-- Settles O39: each event of a stream is its one change of its group; a request that one page's entry serves is answered at once, one
that none serves waits for a walk; another chip's request is kept under a new name, served, and done with its answer. -/
theorem streamEvents : Obligations.StreamEvents := by
  unfold Obligations.StreamEvents
  refine ⟨fun s g => ⟨?_, ?_, ?_, ?_, ?_⟩, fun s g ⟨kind, addr, n, rep, sn⟩ hs hr hf hreach => ?_, fun s => ⟨fun r hr => ?_, fun n r hq hl => ?_⟩⟩
  · intro t rest hq hfree hm
    show execLaneJumpRecord g s = _
    simp only [execLaneJumpRecord, hq, hfree, if_true, hm, bne_self_eq_false, Bool.false_and]
  · intro d k a raw n sn hfl _ ht hraw
    refine ⟨_, scalarReply_load hfl ht, rfl, rfl, ?_⟩
    simp only [retired, group_setGroup_same, setSregOf_fly, setSregOf_cnt, setSregOf_lane]
    refine ⟨trivial, rfl, trivial, rfl, rfl, rfl, fun r => ?_⟩
    rw [← loadValue_eq_loaded hraw]
    have hd : d.toNat ≠ 0 ↔ d ≠ 0 := by rw [ne_eq, ne_eq, ← BitVec.toNat_inj]; rfl
    have hreg : sregOf (setSregOf (loadOver (group s g)) d.toNat (loadValue k raw)) r =
        if r = d.toNat ∧ d ≠ 0 then loadValue k raw else sregOf (group s g) r := by
      simp only [sregOf_setSregOf, hd]
      rfl
    exact hreg
  · intro h
    show execLaneLoadReturn g s = _
    simp only [execLaneLoadReturn, if_neg h.ne']
  · intro h
    show execStorePerformed g s = _
    simp only [execStorePerformed, if_neg h.ne']
  · intro d a hl hsv hst hrp hpo hsc hbo hp hid ht
    have hrun : Runs { s with cur := .group g } g := ⟨rfl, ht⟩
    have hiss : laneIssued (group s g) = true := hid
    simp only [List.forall_mem_cons, List.not_mem_nil, false_imp_iff, implies_true, and_true]
    refine ⟨?_, ?_, ?_, ?_⟩ <;> intro hw hle <;>
      refine (waitRetire_runs hw (by simp [sentWait, hw]) hl hsv hst hrp hpo hsc hbo hp hid).trans ?_
    · exact waitCounter_retires hrun hiss _ _ _ (fun x => x.cnt.loads) hle
    · exact waitCounter_retires hrun hiss _ _ _ (fun x => x.cnt.stores) hle
    · exact waitCounter_retires hrun hiss _ _ _ (fun x => x.cnt.copies) hle
    · exact waitCounter_retires hrun hiss _ _ _ (fun x => x.cnt.tiles) hle
  · dsimp only at hr hreach
    subst hr
    have hpage : ∀ {acc : BitVec 3} {e : TlbEntry}, 0 < n → LaneMemReady s g acc addr n e →
        xlate s (whoOf s g (.scalar g)) acc addr n = (s, .ok [⟨leafFlat e.leaf e.level addr, n, false⟩]) := by
      rintro acc e hn ⟨hp, -, ht, hrt, hw, hc, h57, -, -⟩
      exact h57 ▸ xlate_page (who := whoOf s g (.scalar g)) hn hp hf ht hrt hw hc hreach
    refine ⟨?_, ?_, ?_, ?_⟩
    · rintro d k e rfl hn hb h
      exact congrArg Host.Outcome.next (serveScalar_load hf hb h.2.2.2.2.2.2.2.1 hs (hpage hn h))
    · rintro v e rfl hn hb h
      exact congrArg Host.Outcome.next (serveScalar_store hf h.2.2.2.2.2.2.2.1 hs (hpage hn h))
    · rintro d k e m rfl rfl hwin hn hb h
      refine ⟨_, congrArg Host.Outcome.next (serveScalar_loadRo hf hb hwin hs (hpage hn h)), ?_⟩
      obtain ⟨ro, hro, hmem⟩ := noteRo_notes s g n hwin
      rw [hro]
      refine ⟨rfl, rfl, congrArg (fun x : Group => x.fly.scalar) (group_setGroup_same ..), ?_⟩
      have hc : (core (setCore s (coreOf s g) { core s (coreOf s g) with ro := ro }) (coreOf s g)).ro = ro :=
        congrArg Core.ro (core_setCore_same ..)
      exact hc.symm ▸ hmem
    · intro hn hp ht acc
      have hx := fun acc => xlate_walks (acc := acc) (who := whoOf s g (.scalar g)) hf hreach hn hp ht
      have hacc : kind.rights = acc := by
        cases kind <;> simp [acc, AccKind.rights, AccKind.rw]
      have hserve : exec (.homeRequest (.scalar g)) s = .next (joinWalk s (whoOf s g (.scalar g)) addr 0 acc) :=
        congrArg Host.Outcome.next (hacc ▸ serveScalar_walks hs rfl hx)
      exact ⟨fun h => ⟨_, hserve, joinWalk_new (not_waiting hreach) h⟩, fun w y h => ⟨_, hserve, joinWalk_joins (not_waiting hreach) h⟩⟩
  · exact ⟨_, congrArg Host.Outcome.next (if_pos hr), tget_tput_same none s.work.remote s.work.next (some r), rfl, rfl⟩
  · intro y answered served
    have hpage : ∀ {acc : BitVec 3} {size : Nat} {e : TlbEntry}, served acc size e →
        xlate s (remoteWho n r) acc r.va size = (s, .ok [⟨leafFlat e.leaf e.level r.va, size, false⟩]) := by
      rintro acc size e ⟨hn, hp, -, hf, -, ht, hrt, hw, hc, h57, -, hreach⟩
      exact h57 ▸ xlate_page (who := remoteWho n r) hn hp hf ht hrt hw hc hreach
    have done : ∀ {m : List Host.Cell} {s' : State} (bs : List Byte) (fault : Option (Nat × Nat)), s'.mem = m → s'.work = s.work → s'.pod = s.pod →
        s'.out = s.out → serveRemote s n = answerRemote s' n r bs fault → answered m bs fault := by
      rintro m s' bs fault hm hw hpod ho he
      obtain ⟨h1, h2, h3, h4⟩ := answerRemote_sent (s := s') (by rw [linked, hpod]; exact hl) n r bs fault
      exact ⟨_, congrArg Host.Outcome.next he, h1.trans hm, h2.trans (by rw [hw]), h3, h4.trans (by rw [ho])⟩
    refine ⟨fun k e ho h => ?_, fun bs e ho h => ?_, fun ho hr => ?_⟩
    · have hx := hpage h
      obtain ⟨-, -, hb, -, hroot, -, -, -, -, -, hm, -⟩ := h
      exact done _ _ rfl rfl rfl rfl (serveRemote_load hq ho hroot hx hb hm)
    · have hx := hpage h
      obtain ⟨-, -, hb, -, hroot, -, -, -, -, -, hm, -⟩ := h
      exact done (s' := { s with mem := mwrite s.mem (leafFlat e.leaf e.level r.va) bs }) _ _ rfl rfl rfl rfl
        (serveRemote_store hq ho hroot hb hx hm)
    · exact done _ _ rfl rfl rfl rfl (serveRemote_rootless hq ho hr)

end Sys2Proof.Machine
end

section
/-! PROOFS. The work tree (family 02): a served lane and the bytes that a parked lane above it also covers. -/

namespace Sys2Proof.Machine
open Sys2Proof

/-! The counterexample: lane 0 stores four bytes at the end of the last page below 2^54, and is served; lane 1, which executes too, is to store
four bytes from the third of these on, across 2^54, and is parked with an address fault. The two bytes that both cover are lane 1's (R235), so
lane 0 leaves them alone. -/

/-- The entry of the last page below 2^54: read, write, written. -/
def edgeLeaf : TlbEntry := ⟨0, 0, 0x3FFFFFFFFF, 0x010000000001001F, 0⟩
/-- An entry that maps to another page. -/
def otherLeaf : TlbEntry := { edgeLeaf with leaf := 0x010000000002001F }
/-- The two lanes' data in v1, their addresses in v4 and v5. -/
def edgeGroup : Group :=
  let word := fun (f : Nat → Nat) => (List.range 128).map fun i => (BitVec.ofNat 32 (f i) : LWord)
  let x := placedGroup 1 0 false
  let x := setVreg (setVreg (setVreg x 1 (word fun _ => 0xAAAAAAAA)) 4 (word fun i => 0xFFFFFFFC + 2 * (i % 2))) 5 (word fun _ => 0x3FFFFF)
  { x with lane := { x.lane with mask := 3, rq := [.run 9 (List.replicate 15 0)] } }
/-- A package with that group alone, and memory all zero. -/
def edgeState : State :=
  { State.reset with
    cur := .group 1, boot := { Boot.cold with phase := 2 }, dies := [(0, { Die.blank with tlb := [edgeLeaf] })]
    work := ⟨[(1, edgeGroup)], [(1, { Team.blank with live := true, launch := 1, groups := [1] })],
      [(1, { Launch.blank with live := true, d := placedDesc 0, priv := 2, phase := .running, started := [0] })], [], [], [], [], [], 2⟩ }
/-- Its store: `vstx.32` of v1 at the addresses of v4 and v5. -/
def edgeStore : IdxArgs := ⟨⟨false, 0, 0, false, false, false, false⟩, 3, ⟨false, false, false, false, 0⟩, true, 0, 1, 4, 2⟩
/-- The entries that the two lanes are taken to have: lane 0 its own, the parked lane another. -/
def edgeEntry (k : Nat) : TlbEntry := if k = 0 then edgeLeaf else otherLeaf
/-- The memory that an outcome leaves. -/
def memLeft (o : Out) : List Host.Cell := match o with
  | .next t => t.mem
  | _ => []
/-- The address of a lane. -/
def edgeAddr (k : Nat) : Word := (vreg edgeGroup 5).getD k 0 ++ (vreg edgeGroup 4).getD k 0

theorem edge_runs : LaneMemRuns edgeState 1 edgeStore.m 0 := by
  delta LaneMemRuns LaneRuns Unsampled
  decide +kernel
theorem edge_below : Below edgeState 1 [1, 4, 5] [] := by
  delta Below
  decide +kernel
theorem edge_full : ∀ r ∈ [1, 4, 5], (vreg edgeGroup r).length = 128 := by decide +kernel
/-- The record that a lane takes at once. -/
def edgeBad (k : Nat) : Option (Nat × Nat × Word) :=
  if executes edgeGroup edgeStore.c k then (laneRefused edgeState 1 false false 4 (edgeAddr k)).map fun e => (e.1, 0, e.2) else none
theorem edge_parks : (edgeBad 1).isSome = true := by decide +kernel
theorem edge_serves : (executes edgeGroup edgeStore.c 0 && (edgeBad 0).isNone) = true := by decide +kernel
theorem edge_served : ∀ k < 128, (executes edgeGroup edgeStore.c k && (edgeBad k).isNone) = true → k = 0 := by decide +kernel
theorem edge_executes : ∀ k < 128, executes edgeGroup edgeStore.c k = true → k < 2 := by decide +kernel
theorem edge_ready : LaneMemReady edgeState 1 2 (edgeAddr 0) 4 edgeLeaf := by
  delta LaneMemReady Reached
  decide +kernel
/-- As the parked lane's entry has it, the two lanes' places lie apart. -/
theorem edge_apart : leafFlat edgeLeaf.leaf edgeLeaf.level (edgeAddr 0) + 4 ≤ leafFlat otherLeaf.leaf otherLeaf.level (edgeAddr 1) := by decide +kernel
/-- Lane 0 does not write its third byte. -/
theorem edge_third : mbyte (memLeft (exec (.vstx edgeStore) edgeState)) (leafFlat edgeLeaf.leaf edgeLeaf.level (edgeAddr 0) + 2) = 0 := by
  decide +kernel

/-- Refutes O32: the entry of a parked lane is free in the statement, so that it cannot tell which bytes of a served lane the parked lane
above it covers; the store leaves those bytes to the parked lane. -/
theorem not_lanesPark : ¬ Obligations.LanesPark := by
  intro h
  obtain ⟨-, -, -, -, -, hvstx, -⟩ := h.1 edgeState 1
  obtain ⟨t, ht, -, -, hst⟩ := hvstx edgeStore (by decide) (fun _ => by decide) edgeEntry edge_runs edge_below edge_full rfl rfl
    ⟨1, by decide, edge_parks⟩ fun k hk hs => by
      obtain rfl := edge_served k hk hs
      exact edge_ready
  obtain ⟨-, -, hstored⟩ := hst
  have third := edge_third
  rw [ht] at third
  obtain ⟨-, -, written⟩ := hstored
  have byte : mbyte t.mem (leafFlat edgeLeaf.leaf edgeLeaf.level (edgeAddr 0) + 2) = 0xAA :=
    (written 0 (by decide) edge_serves fun k hk hpos hex => by
      obtain rfl : k = 1 := by have := edge_executes k hk hex; omega
      exact Or.inr edge_apart) 2 (by decide)
  exact absurd (byte.symm.trans third) (by decide)

end Sys2Proof.Machine
end

section
/-! PROOFS. The work tree (family 02): a save area read as one run of bytes and as the bytes of that run. -/

namespace Sys2Proof.Machine
open Sys2Proof

/-! The counterexample: a team with 64 bytes of scratchpad, the first of them 1, and nothing else; and an area that holds each of its chunks,
but answers with zeros when the whole scratchpad is read at once. -/

/-- The descriptor of a launch whose teams have 64 bytes of scratchpad. -/
def smallDesc : Desc := { Desc.blank with s := 64 }
/-- A state whose team 1 has a scratchpad of 64 bytes, the first of them 1. -/
def smallState : State :=
  { State.reset with
    work := ⟨[], [(1, { Team.blank with live := true, launch := 1, scratch := [(0, 1)] })], [(1, { Launch.blank with live := true, d := smallDesc })],
      [], [], [], [], [], 2⟩ }
/-- The bytes of its save area. -/
def smallByte (k : Nat) : Byte := if k = 0 then 64 else if k = 4 ∨ k = 0x8000 then 1 else 0
/-- An area of these bytes, but for a read of the whole scratchpad. -/
def smallArea : Area := fun off n => if off = 0x8000 ∧ n = 64 then List.replicate 64 0 else (List.range n).map fun i => smallByte (off + i)

theorem small_chunks : teamChunks smallState 1 = [(0, [64, 0, 0, 0, 1, 0, 0, 0, 0, 0, 0, 0]), (0x2000, [0]), (0x8000, [1])] := by decide +kernel
theorem smallByte_off {k : Nat} (h1 : 12 ≤ k) (h2 : k ≠ 0x8000) : smallByte k = 0 := by
  rw [smallByte, if_neg (by omega), if_neg (by omega)]
/-- The area holds the team's chunks: none of them is as long as the scratchpad. -/
theorem smallArea_holds (n : Nat) (left : List Nat) : AreaHolds smallArea n left (teamChunks smallState 1) := by
  rw [small_chunks]
  refine ⟨?_, fun off m _ hc _ => ?_⟩
  · simp only [List.forall_mem_cons, List.not_mem_nil, false_imp_iff, implies_true, and_true]
    refine ⟨fun i m h => ?_, fun i m h => ?_, fun i m h => ?_⟩
    all_goals simp only [List.length_cons, List.length_nil] at h
    · have hall : ∀ i ≤ 12, ∀ m ≤ 12 - i, smallArea (0 + i) m = (([64, 0, 0, 0, 1, 0, 0, 0, 0, 0, 0, 0] : List Byte).drop i).take m := by decide +kernel
      exact hall i (by omega) m (by omega)
    · have hall : ∀ i ≤ 1, ∀ m ≤ 1 - i, smallArea (0x2000 + i) m = (([0] : List Byte).drop i).take m := by decide +kernel
      exact hall i (by omega) m (by omega)
    · have hall : ∀ i ≤ 1, ∀ m ≤ 1 - i, smallArea (0x8000 + i) m = (([1] : List Byte).drop i).take m := by decide +kernel
      exact hall i (by omega) m (by omega)
  · simp only [List.forall_mem_cons, List.length_cons, List.length_nil] at hc
    obtain ⟨h0, -, h2, -⟩ := hc
    unfold smallArea
    split
    · next h => rw [h.2]
    · refine List.ext_getElem (by simp) fun i hi _ => ?_
      simp only [List.length_map, List.length_range] at hi
      rw [List.getElem_map, List.getElem_range, List.getElem_replicate, smallByte_off (by omega) (by omega)]
/-- The team that comes back from it has a scratchpad of zeros. -/
theorem small_back : (teamFrom smallDesc smallArea [] [] Team.blank).map (fun y => mbyte y.scratch 0) = some 0 := by decide +kernel

theorem small_copies : ∀ m < Config.copyLimit, (copyFrom smallArea [] m (tget none Team.blank.copies m)).isSome = true := by decide +kernel

/-- Refutes O43: that an area holds the chunks of a team says nothing of a read that covers several of them, and the scratchpad is read back
as one run. -/
theorem not_savesAndRestores : ¬ Obligations.SavesAndRestores := by
  intro h
  obtain ⟨-, -, -, back⟩ := h
  obtain ⟨y, hy, -, -, -, hs, -⟩ := back smallState 1 smallArea [] Team.blank (by decide) (by decide) (by decide) (fun _ => (by decide : 0 < 4)) (by decide)
    (by decide) (by decide) (by decide) (by decide) (by decide) (smallArea_holds _ _) (fun m hm he => by have := small_copies m hm; rw [he] at this; cases this) (by rw [small_chunks]; decide)
  have hz := small_back
  have hy' : teamFrom smallDesc smallArea [] [] Team.blank = some y := hy
  rw [hy'] at hz
  have h0 : mbyte y.scratch 0 = 1 := hs 0 (by decide)
  exact absurd (h0.symm.trans (Option.some.inj hz)) (by decide)

end Sys2Proof.Machine
end

section
/-! PROOFS. The program state (family 03): status registers, counter waits, tile registers. -/

namespace Sys2Proof.Machine
open Sys2Proof

theorem whenIssued_issued {s : State} {g : Nat} (h : laneIssued (group s g) = true) (i : Instr) (k : State → State) :
    whenIssued s g i k = k s := if_pos h
/-- A status register is read once the lane instructions released before have issued (R64, R191). -/
theorem execSget_runs {s : State} {g : Nat} (hr : Runs s g) (hi : laneIssued (group s g) = true) {n : BitVec 12} {v : Nat}
    (hv : statusReg s g n.toNat = some v) (d : SReg) : execSget d n s = .next (scalarDone s g d (BitVec.ofNat 64 v)) := by
  rw [execSget, hr.onGroup]
  simp only [whenIssued_issued hi, hv, ite_self, result_runs hr]
/-- A counter wait writes the count at or below its threshold, and waits above it (R192). -/
theorem waitCounter_runs {s : State} {g : Nat} (hr : Runs s g) (hi : laneIssued (group s g) = true) (d a : SReg) (i : Instr)
    (v : Group → Nat) : (v (group s g) ≤ (sreg s g a).toNat → waitCounter d a i v s = .next (scalarDone s g d (BitVec.ofNat 64 (v (group s g))))) ∧
      ((sreg s g a).toNat < v (group s g) → waitCounter d a i v s = .next (waitsAgain s g i)) := by
  rw [waitCounter, hr.onGroup]
  simp only [whenIssued_issued hi, hr.getS, result_runs hr, wait_runs hr]
  exact ⟨fun h => by rw [if_pos h], fun h => by rw [if_neg h.not_ge]⟩

/-- A tile-register write of a group whose lane stream is idle, outside a handler (R61, R199). -/
theorem writeTile_runs {s : State} {g : Nat} (hr : Runs s g) (hi : laneIdle (group s g) = true) (hh : (group s g).handler = none)
    (i : Instr) (t : TReg) (whole : Bool) (f : TileDesc → TileDesc) :
    let y := setTreg (group s g) t.toNat (f (treg (group s g) t.toNat))
    writeTile s g i t whole f = retired s g (if whole then y else { y with poison := (group s g).poison }) ((group s g).spc + 4) := by
  have hf : tileFree s g t.toNat = true := by simp [tileFree, hi, hh]
  simp only [writeTile, hf, if_true, modGroup]
  cases whole <;> exact retire_setGroup hr _ hr.2
/-- A write of a field of a tile register changes that register alone. -/
theorem writeTile_field {s : State} {g : Nat} (hr : Runs s g) (hi : laneIdle (group s g) = true) (hh : (group s g).handler = none)
    (i : Instr) (t : TReg) {f : TileDesc → TileDesc} {v : TileDesc} (hv : f (treg (group s g) t.toNat) = v) :
    ∃ y, (Host.Outcome.next (writeTile s g i t false f) : Out) = .next (retired s g y ((group s g).spc + 4)) ∧ treg y t.toNat = v ∧
      ∀ r, r ≠ t.toNat → treg y r = treg (group s g) r := by
  refine ⟨_, congrArg Host.Outcome.next (writeTile_runs hr hi hh i t false f), ?_, fun r hne => ?_⟩
  · exact (treg_setTreg ..).trans ((if_pos rfl).trans hv)
  · exact (treg_setTreg ..).trans (if_neg hne)

/-- The bits that a base or a shape handle must leave 0 (R199). -/
theorem low_bits_zero {v : Word} (h : v.toNat % 16 = 0) : bits v 3 0 = 0 := by simp only [bits]; omega
theorem high_bits_zero {v : Word} {n : Nat} (h : v.toNat < 2 ^ n) : bits v 63 n = 0 := by
  rw [bits, Nat.div_eq_of_lt h, Nat.zero_mod]

section
variable {s : State} {g : Nat} (hr : Runs s g) (hi : laneIdle (group s g) = true) (hh : (group s g).handler = none)
include hr hi hh

theorem execTset_runs (t : TReg) (a b : SReg) :
    execTset t a b s = .next (retired s g (setTreg (group s g) t.toNat (sreg s g b ++ sreg s g a)) ((group s g).spc + 4)) := by
  rw [execTset, hr.onGroup]
  simp only [hr.getS]
  exact congrArg Host.Outcome.next (writeTile_runs hr hi hh ..)
theorem execTsetb_runs {t : TReg} {a : SReg} (h0 : (sreg s g a).toNat % 16 = 0) (h1 : (sreg s g a).toNat < 2 ^ 62) :
    ∃ y, execTsetb t a s = .next (retired s g y ((group s g).spc + 4)) ∧
      treg y t.toNat = ((treg (group s g) t.toNat).extractLsb' 58 70 ++ BitVec.ofNat 58 ((sreg s g a).toNat / 16) : BitVec 128) ∧
      ∀ r, r ≠ t.toNat → treg y r = treg (group s g) r := by
  have hb : (sreg s g a).extractLsb' 4 58 = BitVec.ofNat 58 ((sreg s g a).toNat / 16) :=
    BitVec.eq_of_toNat_eq (by simp [BitVec.extractLsb'_toNat, Nat.shiftRight_eq_div_pow])
  rw [execTsetb, hr.onGroup]
  simp only [hr.getS, low_bits_zero h0, high_bits_zero h1, ne_eq, not_true_eq_false, or_self, if_false]
  exact writeTile_field hr hi hh _ _ (congrArg (_ ++ ·) hb)
theorem execTsets_runs {t : TReg} {a : SReg} (h : (sreg s g a).toNat < 2 ^ 32) :
    ∃ y, execTsets t a s = .next (retired s g y ((group s g).spc + 4)) ∧
      treg y t.toNat = ((sreg s g a).setWidth 32 ++ (treg (group s g) t.toNat).setWidth 96 : BitVec 128) ∧
      ∀ r, r ≠ t.toNat → treg y r = treg (group s g) r := by
  rw [execTsets, hr.onGroup]
  simp only [hr.getS, high_bits_zero h, ne_eq, not_true_eq_false, if_false]
  exact writeTile_field hr hi hh _ _ (by rw [BitVec.setWidth_eq_extractLsb' (by decide), BitVec.setWidth_eq_extractLsb' (by decide)])
end

/-- Settles O8: what reads a counter or writes a tile register finds the lane stream issued, or idle, and so retires or waits at once. -/
theorem statusCountersTiles : Obligations.StatusCountersTiles := by
  unfold Obligations.StatusCountersTiles
  refine ⟨fun s g d hr hi => ⟨?_, fun n v hv => execSget_runs hr hi hv d⟩, fun s g d a k hr hi => ?_, fun s g t d a b hr hi hh => ?_⟩
  · simp only [List.forall_mem_cons, List.not_mem_nil, false_imp_iff, implies_true, and_true]
    refine ⟨?_, ?_, ?_, ?_, ?_, ?_, ?_, ?_, ?_, ?_, ?_, ?_⟩ <;> exact execSget_runs hr hi rfl d
  · simp only [List.forall_mem_cons, List.not_mem_nil, false_imp_iff, implies_true, and_true]
    exact ⟨waitCounter_runs hr hi d a _ (kcount · k.toNat), waitCounter_runs hr hi d a _ (·.cnt.loads), waitCounter_runs hr hi d a _ (·.cnt.stores),
      waitCounter_runs hr hi d a _ (·.cnt.copies), waitCounter_runs hr hi d a _ (·.cnt.tiles)⟩
  · refine ⟨execTset_runs hr hi hh t a b, execTsetb_runs hr hi hh, execTsets_runs hr hi hh, ?_, ?_⟩
    · exact (hr.onGroup _).trans (congrArg Host.Outcome.next ((result_runs hr ..).trans (by rw [BitVec.setWidth_eq_extractLsb' (by decide)])))
    · exact (hr.onGroup _).trans (congrArg Host.Outcome.next ((result_runs hr ..).trans (by rw [BitVec.setWidth_ushiftRight_eq_extractLsb])))

end Sys2Proof.Machine
end

section
/-! PROOFS. The program state (family 03): how a tile instruction is issued. -/

namespace Sys2Proof.Machine
open Sys2Proof

/-- The tile register that a tile instruction captures as its operand k (R261, R263); 0 where it has none. -/
def tileOperand (x : Group) (i : TileIns) (k : Nat) : TileDesc :=
  match (tileRegs i)[k]? with
  | some n => treg x n
  | none => 0
/-- The tile instruction that an issue leaves waiting for entry, with what it has captured (R261). -/
def issuedTile (s : State) (g : Nat) (i : TileIns) : TileOp :=
  let x := group s g
  ⟨i, tileOperand x i 0, tileOperand x i 1, tileOperand x i 2, (tileScalars x i).1, (tileScalars x i).2, .waiting, false, 0,
    cycleOf s (coreOf s g), [], none, issuedShape s g i⟩

/-- The scope of a tile instruction passes where its ordering names a level of the tree (R25, R263). -/
theorem tileScope_eq_false {s : State} {g : Nat} {i : TileIns}
    (h : ∀ c, tileCtl i = some c → (c.acq || c.rel) = true → scopeBad s g c.scope = false) : tileScope s g i = false := by
  unfold tileScope
  split
  · next c hc =>
    rw [Bool.and_eq_false_imp]
    exact h c hc
  · rfl
theorem tileScope_eq_true {s : State} {g : Nat} {i : TileIns} {c : TileCtl} (hc : tileCtl i = some c) (ho : (c.acq || c.rel) = true)
    (hb : scopeBad s g c.scope = true) : tileScope s g i = true := by
  simp [tileScope, hc, ho, hb]

/-- A group that would take a fault takes that of its lane stream (R46, R345). -/
theorem raiseLane_faultable {s : State} {g : Nat} (h : Faultable s g) (hr : (group s g).lane.park.replaying = false) (r : FaultRec) :
    raiseLane s g r = pendingDone s g r := by
  have hs : Faultable (setGroup s g (group s g)) g := by simpa [Faultable] using h
  simp only [raiseLane, hr, Bool.false_eq_true, if_false, raiseStream_faultable hs]
  simp [pendingDone]

/-- The last step of the checks of `tconv`, whose scalar has 32 bits, and of `tres`, whose pair passes (R268, R273). -/
theorem tileTrap_tconv {s : State} {g : Nat} {x : MulArgs} (h : (captured (group s g) x.x).toNat < 2 ^ 32) :
    tileTrap s g (.tconv x) = if rolesOk (descOf s g) (treg (group s g)) (.tconv x) then none else some 5 := by
  simp [tileTrap, tileScalars, high_bits_zero h]
theorem tileTrap_tres {s : State} {g : Nat} {x : ResArgs} (h : resTrap (captured (group s g) x.a) (captured (group s g) x.b) = none) :
    tileTrap s g (.tres x) = none := by simp [tileTrap, tileScalars, h, rolesOk]
/-- `tepi` names its third tile register only where it scales (R277). -/
theorem tileOperand_tepi (y : Group) (x : EpiArgs) : tileOperand y (.tepi x) 0 = treg y x.d.toNat ∧ tileOperand y (.tepi x) 1 = treg y x.a.toNat ∧
    tileOperand y (.tepi x) 2 = if x.scale = 0 then 0 else treg y x.ts.toNat := by
  by_cases hs : x.scale = 0
  · simp only [tileOperand, tileRegs, if_pos hs]
    exact ⟨rfl, rfl, rfl⟩
  · simp only [tileOperand, tileRegs, if_neg hs]
    exact ⟨rfl, rfl, rfl⟩

section
variable {s : State} {g : Nat} (h : LaneRuns s g) (ht : (group s g).fly.tile = none) (hf : frameTile (group s g) = none)
include h ht hf

/-- A tile instruction whose checks pass waits for entry (R261). -/
theorem tileIssue_enters {i : TileIns} (hm : (group s g).lane.mask = (group s g).lane.start) (hs : tileScope s g i = false)
    (hn : tileTrap s g i = none) :
    tileIssue i s = .next (setGroup s g { group s g with fly := { (group s g).fly with tile := some (issuedTile s g i) } }) := by
  obtain ⟨hc, hpo, hp, hr⟩ := h
  have hbad : ∀ n, poisoned (group s g) 4 n 0 = false := fun n => by simp [poisoned, hpo]
  have hfind : (tileRegs i).find? (fun n => poisoned (group s g) 4 n 0) = none := List.find?_eq_none.mpr fun n _ => by simp [hbad]
  have hst : ¬ (group s g).lane.mask ≠ (group s g).lane.start := not_not.mpr hm
  simp only [tileIssue, onGroup, hc, ht, hf, stopsRunOn, hp, hs, if_neg hst, hn, hfind, modGroup, bne_self_eq_false, Option.isSome_none,
    Bool.and_false, Bool.false_and, Bool.or_self, Bool.false_eq_true, if_false]
  rfl
/-- A tile instruction whose descriptors and scalars pass the last step of its checks, within the tree (R261, R263). -/
theorem tileIssue_legal {i : TileIns} (hm : (group s g).lane.mask = (group s g).lane.start)
    (hok : rolesOk (descOf s g) (treg (group s g)) i = true)
    (hin : ∀ c, tileCtl i = some c → (c.acq || c.rel) = true → scopeBad s g c.scope = false)
    (hown : tileTrap s g i = if rolesOk (descOf s g) (treg (group s g)) i then none else some 5) :
    tileIssue i s = .next (setGroup s g { group s g with fly := { (group s g).fly with tile := some (issuedTile s g i) } }) :=
  tileIssue_enters h ht hf hm (tileScope_eq_false hin) (by rw [hown, if_pos hok])
/-- A scope that is no level of the tree is the first check to fail (R25, R261). -/
theorem tileIssue_scope {i : TileIns} (hfa : Faultable s g) (hs : tileScope s g i = true) :
    tileIssue i s = .next (pendingDone s g (illegalLaneRec s g 4 2)) := by
  obtain ⟨hc, -, hp, hr⟩ := h
  simp [tileIssue, onGroup, hc, ht, hf, stopsRunOn, hp, hs, tileIllegal, raiseLane_faultable hfa hr]
/-- A mask other than the start mask is the second (R261). -/
theorem tileIssue_mask {i : TileIns} (hfa : Faultable s g) (hs : tileScope s g i = false) (hm : (group s g).lane.mask ≠ (group s g).lane.start) :
    tileIssue i s = .next (pendingDone s g ⟨3, 0, BitVec.ofNat 8 (accessByte false false false 2), 0xFF, 0, (group s g).lane.lpc⟩) := by
  obtain ⟨hc, -, hp, hr⟩ := h
  simp [tileIssue, onGroup, hc, ht, hf, stopsRunOn, hp, hs, hm, raiseLane_faultable hfa hr]
end

/-- Settles O37: each check in its turn passes or traps; an issue that passes them all captures its operands and waits for entry. -/
theorem tileIssues : Obligations.TileIssues := by
  unfold Obligations.TileIssues
  intro s g h ht hf y r shaped entry inTree legal
  refine ⟨fun hm => ?_, fun m v e q n hfa => ?_⟩
  · have hlegal : ∀ {i : TileIns} {c : TileCtl}, legal i c → tileCtl i = some c →
        (tileTrap s g i = if rolesOk (descOf s g) (treg (group s g)) i then none else some 5) →
        tileIssue i s = .next (setGroup s g { group s g with fly := { (group s g).fly with tile := some (issuedTile s g i) } }) := by
      intro i c hl hc
      exact tileIssue_legal h ht hf hm hl.1 fun c' hc' => Option.some.inj (hc'.symm.trans hc) ▸ hl.2
    refine ⟨fun x => ⟨fun hl => hlegal hl rfl rfl, fun hl => hlegal hl rfl rfl, fun hl hx => hlegal hl rfl ?_⟩, fun x => ?_, fun x hl => hlegal hl rfl rfl,
      fun x hl => ?_, fun x hx => ?_, fun n => tileIssue_enters h ht hf hm rfl rfl⟩
    · exact tileTrap_tconv hx
    · simp only [List.forall_mem_cons, List.not_mem_nil, false_imp_iff, implies_true, and_true]
      exact ⟨fun hl => hlegal hl rfl rfl, fun hl => hlegal hl rfl rfl, fun hl => hlegal hl rfl rfl, fun hl => hlegal hl rfl rfl⟩
    · refine (hlegal hl rfl rfl).trans ?_
      show Host.Outcome.next (shaped (.tepi x) (tileOperand y (.tepi x) 0) (tileOperand y (.tepi x) 1) (tileOperand y (.tepi x) 2) 0 0 none) = _
      simp only [entry, tileOperand_tepi]
      rfl
    · exact tileIssue_enters h ht hf hm rfl (tileTrap_tres hx)
  · have hpair : ∀ {i : TileIns} {o : Option TileCtl}, tileCtl i = o →
        (∀ c, o = some c → (c.acq || c.rel) = true → scopeBad s g c.scope = true →
          tileIssue i s = .next (pendingDone s g (illegalLaneRec s g 4 2))) ∧
        ((∀ c, o = some c → inTree c) → y.lane.mask ≠ y.lane.start →
          tileIssue i s = .next (pendingDone s g ⟨3, 0, BitVec.ofNat 8 (accessByte false false false 2), 0xFF, 0, y.lane.lpc⟩)) :=
      fun hc => ⟨fun c ho ha hb => tileIssue_scope h ht hf hfa (tileScope_eq_true (hc.trans ho) ha hb),
        fun hin hm => tileIssue_mask h ht hf hfa (tileScope_eq_false fun c hc' => hin c (hc.symm.trans hc')) hm⟩
    simp only [List.forall_mem_cons, List.not_mem_nil, false_imp_iff, implies_true, and_true]
    exact ⟨hpair rfl, hpair rfl, hpair rfl, hpair rfl, hpair rfl, hpair rfl, hpair rfl, hpair rfl, hpair rfl, hpair rfl, hpair rfl⟩

end Sys2Proof.Machine
end

section
/-! PROOFS. The program state (family 03): the integer lane instructions. -/

namespace Sys2Proof.Machine
open Sys2Proof

/-! Integers of a width (R70, R206). -/

theorem wrapInt_eq (w : Nat) (z : Int) : wrapInt w z = (z % 2 ^ w).toNat := by simp [wrapInt]
theorem cutInt_eq (w : Nat) (z : Int) : cutInt w z = BitVec.ofNat 64 (z % 2 ^ w).toNat := by rw [cutInt, wrapInt_eq]
theorem cut_eq (w n : Nat) : cut w n = BitVec.ofNat 64 ((n : Int) % 2 ^ w).toNat := by
  rw [cut, ← wrapInt_eq, wrapInt, ← Int.natCast_mod, Int.toNat_natCast]
theorem intMin_eq (w : Nat) (sg : Bool) : intMin w sg = if sg then -2 ^ (w - 1) else 0 := by simp [intMin]
theorem intMax_eq (w : Nat) (sg : Bool) : intMax w sg = if sg then 2 ^ (w - 1) - 1 else 2 ^ w - 1 := by simp [intMax]
theorem intMin_le_zero (w : Nat) (sg : Bool) : intMin w sg ≤ 0 := by
  rw [intMin_eq]
  split
  · exact neg_nonpos.mpr (by positivity)
  · exact le_rfl
theorem zero_le_intMax (w : Nat) (sg : Bool) : 0 ≤ intMax w sg := by
  have h : ∀ n : Nat, (0 : Int) ≤ 2 ^ n - 1 := fun n => sub_nonneg.mpr (one_le_pow₀ (by decide))
  rw [intMax_eq]
  split <;> exact h _
/-- Clamping at the upper end first is the same (R206 .sat). -/
theorem clampInt_eq (w : Nat) (sg : Bool) (z : Int) :
    clampInt w sg z = max (if sg then -2 ^ (w - 1) else 0) (min (if sg then 2 ^ (w - 1) - 1 else 2 ^ w - 1) z) := by
  have := (intMin_le_zero w sg).trans (zero_le_intMax w sg)
  rw [← intMin_eq, ← intMax_eq, clampInt]
  omega

/-! One issue of an integer instruction (R38, R155, R206). -/

@[simp] theorem putLanes_lane (x : Group) (n : Nat) (ex : List Bool) (v : List LWord) : (putLanes x n ex v).lane = x.lane := rfl
@[simp] theorem putWide_lane (x : Group) (wide : Bool) (n : Nat) (ex : List Bool) (v : List Word) : (putWide x wide n ex v).lane = x.lane := by
  cases wide <;> rfl
@[simp] theorem putPred_lane (x : Group) (k : PReg) (ex v : List Bool) : (putPred x k ex v).lane = x.lane := putMreg_lane ..
/-- The first register that an operand names (R155). -/
theorem regs_headD (wide : Bool) (f : VReg) (step : Bool) (j : Nat) :
    (regs wide f step j).headD 0 = regNo f step (if wide then 2 else 1) j := by cases wide <;> rfl
/-- One issue of an instruction of 32- or 64-bit elements that names registers below V and Q. -/
theorem laneOp_runs {s : State} {g : Nat} (h : LaneRuns s g) (c : LaneCtl) {u : Use} (hb : Below s g u.v u.q) (ht : u.trap = none)
    {eff : Group → List Bool → Group} (hp : ∀ x ex, (eff x ex).lane = x.lane) :
    laneOp s c u eff = .next (laneNext s g (eff (group s g) (execLanes (group s g) c.pred c.neg)) c.rep.toNat) :=
  laneIssue_runs h _ _ _ _ hb ht (congrArg LaneCtx.park (hp ..))

/-- One issue of an integer instruction of two sources, and of one of one source. -/
theorem intBin_runs {s : State} {g : Nat} (h : LaneRuns s g) (x : IntBin) (f : Nat → Word → Word → Word) :
    let y := group s g
    let j := y.lane.rep
    let n := if x.wide then 2 else 1
    Below s g (regs x.wide x.d x.c.stepD j ++ (regs x.wide x.a x.c.stepA j ++ srcRegs x.wide x.b x.c.stepB j)) [] →
    intBin f x s = .next (laneNext s g (putWide y x.wide (regNo x.d x.c.stepD n j) (execLanes y x.c.pred x.c.neg)
      (List.zipWith (f (elemWidth x.wide)) (vsrc y x.wide (regNo x.a x.c.stepA n j)) (srcInt y x.wide x.sg x.b x.c.stepB j))) x.c.rep.toNat) := by
  intro y j n hb
  simp only [intBin, h.repNow, regs_headD]
  exact laneOp_runs h x.c hb rfl fun _ _ => putWide_lane ..
theorem intUn_runs {s : State} {g : Nat} (h : LaneRuns s g) (x : IntUn) (f : Nat → Word → Word) :
    let y := group s g
    let j := y.lane.rep
    let n := if x.wide then 2 else 1
    Below s g (regs x.wide x.d x.c.stepD j ++ regs x.wide x.a x.c.stepA j) [] →
    intUn f x s = .next (laneNext s g (putWide y x.wide (regNo x.d x.c.stepD n j) (execLanes y x.c.pred x.c.neg)
      ((vsrc y x.wide (regNo x.a x.c.stepA n j)).map (f (elemWidth x.wide)))) x.c.rep.toNat) := by
  intro y j n hb
  simp only [intUn, h.repNow, regs_headD]
  exact laneOp_runs h x.c hb rfl fun _ _ => putWide_lane ..

/-! What each operation computes. -/

/-- An exact sum or difference, wrapped or clamped (R206). -/
theorem addSat_eq (sg sat : Bool) (op : Int → Int → Int) (w : Nat) (a b : Word) : addSat sg sat op w a b =
    let z := op (readInt w sg a.toNat) (readInt w sg b.toNat)
    BitVec.ofNat 64 ((if sat then max (if sg then -2 ^ (w - 1) else 0) (min (if sg then 2 ^ (w - 1) - 1 else 2 ^ w - 1) z) else z) % 2 ^ w).toNat := by
  simp only [addSat, cutInt_eq, clampInt_eq]
theorem pickInt_min (sg : Bool) (w : Nat) (a b : Word) :
    pickInt sg false w a b = if readInt w sg b.toNat < readInt w sg a.toNat then b else a := by simp [pickInt]
theorem pickInt_max (sg : Bool) (w : Nat) (a b : Word) :
    pickInt sg true w a b = if readInt w sg b.toNat < readInt w sg a.toNat then a else b := by
  simp only [pickInt]
  split <;> split <;> simp_all
theorem divInt_eq (sg : Bool) (w : Nat) (a b : Word) : divInt sg w a b = if b = 0 then BitVec.ofNat 64 ((-1 : Int) % 2 ^ w).toNat
    else BitVec.ofNat 64 ((readInt w sg a.toNat).tdiv (readInt w sg b.toNat) % 2 ^ w).toNat := by
  have h1 : cut w (2 ^ w - 1) = BitVec.ofNat 64 ((-1 : Int) % 2 ^ w).toNat := by
    rw [cut_eq, Nat.cast_sub Nat.one_le_two_pow, Nat.cast_pow, Nat.cast_ofNat, Nat.cast_one, sub_eq_add_neg, Int.add_emod_left]
  rw [divInt, cutInt_eq, h1]

theorem remInt_eq (sg : Bool) (w : Nat) (a b : Word) : remInt sg w a b = if b = 0 then a
    else BitVec.ofNat 64 ((readInt w sg a.toNat).tmod (readInt w sg b.toNat) % 2 ^ w).toNat := by rw [remInt, cutInt_eq]

/-- Settles O23: each instruction is one issue at the width of its elements, and its function of the operands is the exact result, cut
to that width. -/
theorem laneIntegerResults : Obligations.LaneIntegerResults := by
  unfold Obligations.LaneIntegerResults
  refine ⟨fun s g x h => ?_, fun s g x h => ?_, fun s g x h => ?_, fun s g x h => ?_⟩
  · intro y j n w hb lo hi val low fit
    have hbin : ∀ (f : Nat → Word → Word → Word) {p : Word → Word → Word}, (∀ a b, f w a b = p a b) →
        intBin f x s = .next (laneNext s g (putWide y x.wide (regNo x.d x.c.stepD n j) (execLanes y x.c.pred x.c.neg)
          (List.zipWith p (vsrc y x.wide (regNo x.a x.c.stepA n j)) (srcInt y x.wide x.sg x.b x.c.stepB j))) x.c.rep.toNat) := by
      intro f p hf
      rw [← funext₂ hf]
      exact intBin_runs h x f hb
    have hcut : ∀ (z : Int) (k : Nat), cutInt w (z / (2 ^ k : Nat)) = low (z / 2 ^ k) := fun z k => by
      rw [cutInt_eq, Nat.cast_pow]
      rfl
    simp only [List.forall_mem_cons, List.not_mem_nil, false_imp_iff, implies_true, and_true]
    exact ⟨hbin (addSat x.sg x.sat (· + ·)) fun _ _ => addSat_eq .., hbin (addSat x.sg x.sat (· - ·)) fun _ _ => addSat_eq ..,
      hbin (fun w a b => cut w (a.toNat * b.toNat)) fun _ _ => cut_eq ..,
      hbin (fun w a b => cutInt w (readInt w x.sg a.toNat * readInt w x.sg b.toNat / (2 ^ w : Nat))) fun _ _ => hcut ..,
      hbin (pickInt x.sg false) (pickInt_min _ _), hbin (pickInt x.sg true) (pickInt_max _ _), hbin (divInt x.sg) (divInt_eq _ _),
      hbin (remInt x.sg) (remInt_eq _ _), hbin (fun _ a b => a &&& b) fun _ _ => rfl, hbin (fun _ a b => a ||| b) fun _ _ => rfl,
      hbin (fun _ a b => a ^^^ b) fun _ _ => rfl, hbin (fun _ a b => a &&& ~~~b) fun _ _ => rfl,
      hbin (fun w a b => cut w (a.toNat * 2 ^ (b.toNat % w))) fun _ _ => cut_eq ..,
      hbin (fun w a b => cutInt w (readInt w x.sg a.toNat / (2 ^ (b.toNat % w) : Nat))) fun _ _ => hcut ..⟩
  · intro y j n w hb
    simp only [List.forall_mem_cons, List.not_mem_nil, false_imp_iff, implies_true, and_true]
    exact ⟨intUn_runs h x (fun w a => BitVec.ofNat 64 (leadingZeros (a.setWidth w))) hb,
      intUn_runs h x (fun w a => BitVec.ofNat 64 (bitCount (a.setWidth w))) hb⟩
  · intro y j n w hb
    show execVmad x s = _
    simp only [execVmad, h.repNow, regs_headD]
    exact laneOp_runs h x.c hb rfl fun _ _ => putWide_lane ..
  · intro y j n w hb val holds
    show execVcmp x s = _
    simp only [execVcmp, h.repNow, regs_headD]
    exact (laneOp_runs h x.c hb rfl fun _ _ => putPred_lane ..).trans rfl

end Sys2Proof.Machine
end

section
/-! PROOFS. The program state (family 03): the packed integer lane instructions. -/

namespace Sys2Proof.Machine
open Sys2Proof

/-! Sub-elements (R55, R56, R207). -/

theorem packWidth_le (x : PWidth) : packWidth x ≤ 16 := by cases x <;> decide
theorem subEl_lt (w : Nat) (v : LWord) (i : Nat) : subEl w v i < 2 ^ w := Nat.mod_lt _ (by positivity)
/-- A number of at most 16 bits fits a word. -/
theorem toNat_ofNat_of_width {w n : Nat} (hw : w ≤ 16) (hn : n < 2 ^ w) : (BitVec.ofNat 64 n).toNat = n := by
  rw [BitVec.toNat_ofNat, Nat.mod_eq_of_lt]
  exact hn.trans_le (Nat.pow_le_pow_right (by decide) (by omega))
theorem wrapInt_lt (w : Nat) (z : Int) : wrapInt w z < 2 ^ w := by
  have h : (0 : Int) < (2 ^ w : Nat) := by positivity
  rw [wrapInt, Int.toNat_lt (Int.emod_nonneg _ h.ne')]
  exact Int.emod_lt_of_pos _ h
@[simp] theorem putPacked_lane (x : Group) (w n : Nat) (nib : List (BitVec 4)) (v : List LWord) : (putPacked x w n nib v).lane = x.lane := rfl
@[simp] theorem putPredBytes_lane (x : Group) (k : PReg) (nib v : List (BitVec 4)) : (putPredBytes x k nib v).lane = x.lane := putMreg_lane ..
/-- One issue of a packed instruction that names registers below V and Q. -/
theorem packedOp_runs {s : State} {g : Nat} (h : LaneRuns s g) (w : Nat) (c : LaneCtl) {u : Use} (hb : Below s g u.v u.q) (ht : u.trap = none)
    {eff : Group → List (BitVec 4) → Group} (hp : ∀ x nib, (eff x nib).lane = x.lane) :
    packedOp s w c u eff = .next (laneNext s g (eff (group s g) (execNibbles (group s g) c.pred c.neg)) c.rep.toNat) :=
  laneIssue_runs h _ _ _ _ hb ht (congrArg LaneCtx.park (hp ..))

/-- One issue of a packed instruction of two sources whose operation, on sub-elements of at most 16 bits, is the given one. -/
theorem packBin_runs {s : State} {g : Nat} (h : LaneRuns s g) (x : PackBin) (f : Nat → Word → Word → Word) {p : Nat → Nat → Nat}
    (hf : ∀ a b, a < 2 ^ packWidth x.w → b < 2 ^ packWidth x.w → (f (packWidth x.w) (BitVec.ofNat 64 a) (BitVec.ofNat 64 b)).toNat = p a b) :
    let y := group s g
    let j := y.lane.rep
    let w := packWidth x.w
    Below s g (regs false x.d x.c.stepD j ++ (regs false x.a x.c.stepA j ++ srcRegs false x.b x.c.stepB j)) [] →
    packBin f x s = .next (laneNext s g (putPacked y w (regNo x.d x.c.stepD 1 j) (execNibbles y x.c.pred x.c.neg)
      (List.zipWith (fun a b => joinEl w fun i => p (subEl w a i) (subEl w b i)) (vreg y (regNo x.a x.c.stepA 1 j))
        (srcPacked y w x.b x.c.stepB j))) x.c.rep.toNat) := by
  intro y j w hb
  simp only [packBin, h.repNow, regs_headD, hf _ _ (subEl_lt ..) (subEl_lt ..)]
  exact packedOp_runs h _ x.c hb rfl fun _ _ => putPacked_lane ..
theorem packCmp_runs {s : State} {g : Nat} (h : LaneRuns s g) (x : PackCmp) (cc : Nat) :
    let y := group s g
    let j := y.lane.rep
    let w := packWidth x.w
    Below s g (regs false x.a x.c.stepA j ++ srcRegs false x.b x.c.stepB j) [] →
    packCmp cc x s = .next (laneNext s g (putPredBytes y x.d ((execNibbles y x.c.pred x.c.neg).map (packedGate w))
      (List.zipWith (fun a b => packedBits w fun i => cmpInt cc (readInt w x.sg (subEl w a i)) (readInt w x.sg (subEl w b i)))
        (vreg y (regNo x.a x.c.stepA 1 j)) (srcPacked y w x.b x.c.stepB j))) x.c.rep.toNat) := by
  intro y j w hb
  simp only [packCmp, h.repNow, regs_headD]
  exact packedOp_runs h _ x.c hb rfl fun _ _ => putPredBytes_lane ..

/-! What each operation computes on sub-elements. -/

section
variable {w a b : Nat} (hw : w ≤ 16) (ha : a < 2 ^ w) (hb : b < 2 ^ w)
include hw ha hb

theorem addSat_packed (sg sat : Bool) (op : Int → Int → Int) : (addSat sg sat op w (BitVec.ofNat 64 a) (BitVec.ofNat 64 b)).toNat =
    let z := op (readInt w sg a) (readInt w sg b)
    ((if sat then max (if sg then -2 ^ (w - 1) else 0) (min (if sg then 2 ^ (w - 1) - 1 else 2 ^ w - 1) z) else z) % 2 ^ w).toNat := by
  rw [addSat_eq, toNat_ofNat_of_width hw ha, toNat_ofNat_of_width hw hb]
  exact toNat_ofNat_of_width hw (wrapInt_eq .. ▸ wrapInt_lt ..)
theorem pickInt_packed_min (sg : Bool) : (pickInt sg false w (BitVec.ofNat 64 a) (BitVec.ofNat 64 b)).toNat =
    if readInt w sg b < readInt w sg a then b else a := by
  rw [pickInt_min, apply_ite BitVec.toNat, toNat_ofNat_of_width hw ha, toNat_ofNat_of_width hw hb]
theorem pickInt_packed_max (sg : Bool) : (pickInt sg true w (BitVec.ofNat 64 a) (BitVec.ofNat 64 b)).toNat =
    if readInt w sg b < readInt w sg a then a else b := by
  rw [pickInt_max, apply_ite BitVec.toNat, toNat_ofNat_of_width hw ha, toNat_ofNat_of_width hw hb]
theorem cut_mul_packed : (cut w ((BitVec.ofNat 64 a).toNat * (BitVec.ofNat 64 b).toNat)).toNat = (((a * b : Nat) : Int) % 2 ^ w).toNat := by
  have hlt : a * b % 2 ^ w < 2 ^ w := Nat.mod_lt _ (by positivity)
  rw [cut, toNat_ofNat_of_width hw ha, toNat_ofNat_of_width hw hb, toNat_ofNat_of_width hw hlt, ← wrapInt_eq, wrapInt, ← Int.natCast_mod, Int.toNat_natCast]
end

/-! Dot products (R208). -/

theorem sext_32 (c : LWord) : sext 32 c.toNat = c.toInt := by
  have := c.isLt
  rw [sext, BitVec.toInt_eq_toNat_cond, Nat.mod_eq_of_lt this]
  simp only [Nat.reducePow, Nat.reduceSub]
  split <;> split <;> omega
theorem dotSum_eq (w : Nat) (sa sb : Bool) (a b c : LWord) :
    dotSum w sa sb a b c = c.toInt + ((List.range (32 / w)).map fun i => readInt w sa (subEl w a i) * readInt w sb (subEl w b i)).sum := by
  have hfold : ∀ (f : Nat → Int) (l : List Nat) (z : Int), l.foldl (fun z i => z + f i) z = z + (l.map f).sum := fun f l => by
    induction l with
    | nil => simp
    | cons i l ih => intro z; rw [List.foldl_cons, ih, List.map_cons, List.sum_cons, add_assoc]
  rw [dotSum, hfold, sext_32]

/-- Settles O24: each instruction is one issue, whose operation on the sub-elements is exact, cut to their width. -/
theorem lanePackedResults : Obligations.LanePackedResults := by
  unfold Obligations.LanePackedResults
  refine ⟨fun s g x h => ?_, fun s g x h => ?_, fun s g x h => ?_⟩
  · intro y j w hb lo hi val low fit
    have hw : w ≤ 16 := packWidth_le x.w
    have hbin : ∀ (f : Nat → Word → Word → Word) (p : Nat → Nat → Nat),
        (∀ a b, a < 2 ^ w → b < 2 ^ w → (f w (BitVec.ofNat 64 a) (BitVec.ofNat 64 b)).toNat = p a b) →
        packBin f x s = .next (laneNext s g (putPacked y w (regNo x.d x.c.stepD 1 j) (execNibbles y x.c.pred x.c.neg)
          (List.zipWith (fun a b => joinEl w fun i => p (subEl w a i) (subEl w b i)) (vreg y (regNo x.a x.c.stepA 1 j))
            (srcPacked y w x.b x.c.stepB j))) x.c.rep.toNat) := fun f p hf => packBin_runs h x f hf hb
    simp only [List.forall_mem_cons, List.not_mem_nil, false_imp_iff, implies_true, and_true]
    exact ⟨hbin (addSat x.sg x.sat (· + ·)) (fun a b => fit (val a + val b)) fun _ _ ha hb => addSat_packed hw ha hb ..,
      hbin (addSat x.sg x.sat (· - ·)) (fun a b => fit (val a - val b)) fun _ _ ha hb => addSat_packed hw ha hb ..,
      hbin (pickInt x.sg false) (fun a b => if val b < val a then b else a) fun _ _ ha hb => pickInt_packed_min hw ha hb _,
      hbin (pickInt x.sg true) (fun a b => if val b < val a then a else b) fun _ _ ha hb => pickInt_packed_max hw ha hb _,
      hbin (fun w a b => cut w (a.toNat * b.toNat)) (fun a b => low (a * b : Nat)) fun _ _ ha hb => cut_mul_packed hw ha hb⟩
  · intro y j w hb val
    simp only [List.forall_mem_cons, List.not_mem_nil, false_imp_iff, implies_true, and_true]
    exact ⟨packCmp_runs h x 0 hb, packCmp_runs h x 2 hb, packCmp_runs h x 3 hb⟩
  · intro y j w hb val sum
    show execVdot x s = _
    simp only [execVdot, h.repNow, regs_headD, dotSum_eq, clampInt_eq]
    exact laneOp_runs h x.c hb rfl fun _ _ => putLanes_lane ..

end Sys2Proof.Machine
end

section
/-! PROOFS. The program state (family 03): what the lane register instructions leave alone. -/

namespace Sys2Proof.Machine
open Sys2Proof

/-! What a write of lane registers, predicates or long accumulators leaves of its group (R53, R155). -/

/-- A group that differs from another in the named lane registers, predicates and long accumulators, and in its poison, only. -/
structure KeepsBut (v m q : List Nat) (x y : Group) : Prop where
  s : y.r.s = x.r.s
  t : y.r.t = x.r.t
  v : ∀ r, r ∉ v → vreg y r = vreg x r
  m : ∀ r, r ∉ m → mreg y r = mreg x r
  q : ∀ r, r ∉ q → qreg y r = qreg x r
  spc : y.spc = x.spc
  lane : y.lane = x.lane
  cnt : y.cnt = x.cnt
  level : y.level = x.level
  handler : y.handler = x.handler
  pend : y.pend = x.pend
  trace : y.trace = x.trace

theorem KeepsBut.trans {v v' m m' q q' : List Nat} {x y z : Group} (h : KeepsBut v m q x y) (k : KeepsBut v' m' q' y z) :
    KeepsBut (v ++ v') (m ++ m') (q ++ q') x z where
  s := k.s.trans h.s
  t := k.t.trans h.t
  v r hr := (k.v r fun hm => hr (List.mem_append_right _ hm)).trans (h.v r fun hm => hr (List.mem_append_left _ hm))
  m r hr := (k.m r fun hm => hr (List.mem_append_right _ hm)).trans (h.m r fun hm => hr (List.mem_append_left _ hm))
  q r hr := (k.q r fun hm => hr (List.mem_append_right _ hm)).trans (h.q r fun hm => hr (List.mem_append_left _ hm))
  spc := k.spc.trans h.spc
  lane := k.lane.trans h.lane
  cnt := k.cnt.trans h.cnt
  level := k.level.trans h.level
  handler := k.handler.trans h.handler
  pend := k.pend.trans h.pend
  trace := k.trace.trans h.trace

/-- A lane register written, with any change of poison. -/
theorem keepsBut_setVreg (x : Group) (n : Nat) (v : LaneVec) (p : List PoisonUnit) : KeepsBut [n] [] [] x { setVreg x n v with poison := p } :=
  ⟨rfl, rfl, fun _ hr => (vreg_setVreg ..).trans (if_neg (List.mem_singleton.not.mp hr)), fun _ _ => rfl, fun _ _ => rfl, rfl, rfl, rfl, rfl, rfl, rfl, rfl⟩
/-- A long accumulator written, with any change of poison. -/
theorem keepsBut_setQreg (x : Group) (n : Nat) (v : List LA) (p : List PoisonUnit) : KeepsBut [] [] [n] x { setQreg x n v with poison := p } :=
  ⟨rfl, rfl, fun _ _ => rfl, fun _ _ => rfl, fun _ hr => (qreg_setQreg ..).trans (if_neg (List.mem_singleton.not.mp hr)), rfl, rfl, rfl, rfl, rfl, rfl, rfl⟩
/-- A predicate written, with any change of poison. -/
theorem keepsBut_setMreg (x : Group) (n : Nat) (v : PredVec) (p : List PoisonUnit) : KeepsBut [] [n] [] x { setMreg x n v with poison := p } := by
  have hm : ∀ r, r ∉ [n] → mreg { setMreg x n v with poison := p } r = mreg x r := fun r hr =>
    (mreg_setMreg ..).trans (if_neg fun h => hr (List.mem_singleton.mpr h.1))
  by_cases h0 : n = 0
  · simp only [setMreg, if_pos h0] at hm ⊢
    exact ⟨rfl, rfl, fun _ _ => rfl, hm, fun _ _ => rfl, rfl, rfl, rfl, rfl, rfl, rfl, rfl⟩
  · simp only [setMreg, if_neg h0] at hm ⊢
    exact ⟨rfl, rfl, fun _ _ => rfl, hm, fun _ _ => rfl, rfl, rfl, rfl, rfl, rfl, rfl, rfl⟩

theorem keepsBut_putLanes (x : Group) (n : Nat) (ex : List Bool) (v : List LWord) : KeepsBut [n] [] [] x (putLanes x n ex v) := keepsBut_setVreg ..
theorem keepsBut_putPacked (x : Group) (w n : Nat) (nib : List (BitVec 4)) (v : List LWord) : KeepsBut [n] [] [] x (putPacked x w n nib v) :=
  keepsBut_setVreg ..
theorem keepsBut_putSlots (x : Group) (n : Nat) (ex : List Bool) (v : List LA) : KeepsBut [] [] [n] x (putSlots x n ex v) := keepsBut_setQreg ..
theorem keepsBut_putMreg (x : Group) (k : PReg) (whole : Bool) (v : PredVec) : KeepsBut [] [k.toNat] [] x (putMreg x k whole v) := by
  cases whole <;> exact keepsBut_setMreg x k.toNat v _
/-- A result of 32 or 64 bits, written to the registers of its operand (R52). -/
theorem keepsBut_putWide (x : Group) (wide : Bool) (f : VReg) (step : Bool) (j : Nat) (ex : List Bool) (v : List Word) :
    KeepsBut (regs wide f step j) [] [] x (putWide x wide ((regs wide f step j).headD 0) ex v) := by
  cases wide
  · exact keepsBut_putLanes ..
  · exact (keepsBut_putLanes ..).trans (keepsBut_putLanes ..)
/-- An element of a conversion, written to the registers of its operand (R71, R215). -/
theorem keepsBut_putEl (x : Group) (t : CType) (f : VReg) (step : Bool) (j pos : Nat) (ex : List Bool) (v : List Nat) :
    KeepsBut (regs (ctypeWide t) f step j) [] [] x (putEl x t ((regs (ctypeWide t) f step j).headD 0) pos ex v) := by
  simp only [putEl]
  split
  · next hw =>
    have hf : ctypeWide t = false := beq_false_of_ne (by omega)
    rw [hf]
    exact keepsBut_setVreg ..
  · exact keepsBut_putWide ..

/-! What one issue leaves alone (R38, R155). -/

theorem advanceLane_keeps (l : LaneCtx) (n : Nat) :
    (advanceLane l n).mask = l.mask ∧ (advanceLane l n).stack = l.stack ∧ (advanceLane l n).park = l.park := by
  unfold advanceLane
  split <;> exact ⟨rfl, rfl, rfl⟩
theorem onlyGroup_setGroup (s : State) (g : Nat) (x : Group) : OnlyGroup s (setGroup s g x) g :=
  ⟨rfl, fun _ hne => (group_setGroup ..).trans (if_neg hne)⟩
theorem Below.mono {s : State} {g : Nat} {v q v' q' : List Nat} (h : Below s g v q) (hv : ∀ r ∈ v', r ∈ v) (hq : ∀ r ∈ q', r ∈ q) : Below s g v' q' :=
  ⟨fun r hr => h.1 r (hv r hr), fun r hr => h.2 r (hq r hr)⟩

section
variable {s t : State} {g : Nat} (h : LaneRuns s g)
include h

/-- An issue whose effect keeps all but the named registers. -/
theorem laneIssue_frame {v m q : List Nat} {n : Nat} {u : Use} {ex : Group → List Bool} {eff : Group → Group} (he : laneIssue s n u ex eff = .next t)
    (hb : Below s g u.v u.q) (ht : u.trap = none) (hk : KeepsBut v m q (group s g) (eff (group s g))) : LaneFrame s t g v m q := by
  rw [laneIssue_runs h n u ex eff hb ht (congrArg LaneCtx.park hk.lane)] at he
  obtain rfl := Host.Outcome.next.inj he
  obtain ⟨hmask, hstack, hpark⟩ := advanceLane_keeps (eff (group s g)).lane n
  rw [LaneFrame, laneNext, group_setGroup_same]
  exact ⟨onlyGroup_setGroup .., fun _ => rfl, hk.s, hk.t, hk.v, hk.m, hk.q, hk.spc, hmask.trans (congrArg _ hk.lane), hstack.trans (congrArg _ hk.lane),
    hpark.trans (congrArg _ hk.lane), hk.cnt, hk.level, hk.handler, hk.pend, hk.trace⟩
/-- An issue that writes a lane-written scalar (R39). -/
theorem laneIssue_scalarFrame {d : LDst} {n : Nat} {u : Use} {ex : Group → List Bool} {val : Group → Word}
    (he : laneIssue s n u ex (fun x => setLaneScalar x d (val x)) = .next t) (hb : Below s g u.v u.q) (ht : u.trap = none) : LaneScalarFrame s t g d := by
  rw [laneIssue_runs h n u ex _ hb ht (by simp [setLaneScalar])] at he
  obtain rfl := Host.Outcome.next.inj he
  obtain ⟨hmask, hstack, hpark⟩ := advanceLane_keeps (setLaneScalar (group s g) d (val (group s g))).lane n
  have hl : (setLaneScalar (group s g) d (val (group s g))).lane = (group s g).lane := setSregOf_lane ..
  rw [LaneScalarFrame, laneNext, group_setGroup_same]
  exact ⟨onlyGroup_setGroup .., fun _ => rfl, fun _ hr => (sregOf_setSregOf ..).trans (if_neg fun h => hr h.1), setSregOf_r_v .., setSregOf_r_m ..,
    setSregOf_r_q .., setSregOf_r_t .., setSregOf_spc .., hmask.trans (congrArg _ hl), hstack.trans (congrArg _ hl), hpark.trans (congrArg _ hl),
    setSregOf_cnt .., setSregOf_level .., setSregOf_handler .., setSregOf_pend .., setSregOf_trace ..⟩
end

/-- What a cross-lane instruction names (R223), in the order of its operands. -/
theorem below_cross {s : State} {g : Nat} {dst rv xv : List Nat} (h : Below s g (dst ++ (xv ++ rv)) []) : Below s g (dst ++ xv ++ rv) [] := by
  rwa [List.append_assoc]
/-- A shuffle's result, and the predicate of its out-of-range lanes (R224). -/
theorem keepsBut_shuffle (x : Group) (pair : Bool) (f : VReg) (step : Bool) (j : Nat) (k : Option PReg) (ex : List Bool) (v : List Word)
    (n : List (BitVec 4)) : KeepsBut (regs pair f step j) (k.toList.map (·.toNat)) [] x
      (match k with
      | some k => putNibbles (putWide x pair ((regs pair f step j).headD 0) ex v) k ex n
      | none => putWide x pair ((regs pair f step j).headD 0) ex v) := by
  cases k with
  | none => exact keepsBut_putWide ..
  | some k =>
    have hn : ∀ y, KeepsBut [] [k.toNat] [] y (putNibbles y k ex n) := fun y => keepsBut_putMreg ..
    have hk := (keepsBut_putWide x pair f step j ex v).trans (hn _)
    rwa [List.append_nil] at hk
/-- A contribution to a long accumulator (R257). -/
theorem accumulate_frame {s t : State} {g : Nat} (h : LaneRuns s g) {c : LaneCtl} {u : Use} {ty : CType} {d : Nat} {vals : Group → List (List FVal)}
    (he : accumulate s c u ty d vals = .next t) (hb : Below s g u.v u.q) (ht : u.trap = none) : LaneFrame s t g [] [] [d] := by
  simp only [accumulate] at he
  split at he
  · exact laneIssue_frame h he hb ht (keepsBut_setQreg ..)
  · exact laneIssue_frame h he hb ht (keepsBut_setQreg ..)

/-- Settles O60: each instruction is one issue, whose effect writes its destination and nothing else of its group. -/
theorem laneRegisterFrames : Obligations.LaneRegisterFrames := by
  unfold Obligations.LaneRegisterFrames
  intro s t g h j d a b e wide keeps summary
  obtain rfl : curGroup s = g := by simp [curGroup, h.1]
  simp only [keeps, summary, List.forall_mem_cons, List.not_mem_nil, false_imp_iff, implies_true, and_true]
  and_intros
  · intro x hb
    and_intros <;> exact fun he => laneIssue_frame h he hb rfl (keepsBut_putWide ..)
  · exact fun x hb he => laneIssue_frame h he hb rfl (keepsBut_putWide ..)
  · intro x hb
    and_intros <;> exact fun he => laneIssue_frame h he hb rfl (keepsBut_putWide ..)
  · exact fun x hb he => laneIssue_frame h he hb rfl (keepsBut_putMreg ..)
  · intro x hb
    and_intros <;> exact fun he => laneIssue_frame h he hb rfl (keepsBut_putPacked ..)
  · intro x hb
    and_intros <;> exact fun he => laneIssue_frame h he hb rfl (keepsBut_putMreg ..)
  · exact fun x hb he => laneIssue_frame h he hb rfl (keepsBut_putLanes ..)
  · exact fun x => ⟨fun hb he => laneIssue_frame h he hb rfl (keepsBut_putWide ..),
      fun hb he => laneIssue_frame h he hb rfl (keepsBut_putWide ..)⟩
  · exact fun x => ⟨fun hb he => laneIssue_frame h he hb rfl (keepsBut_putLanes ..),
      fun hb he => laneIssue_frame h he hb rfl (keepsBut_putWide (wide := true) ..)⟩
  · intro x hc hb
    have htrap : (if (laneCoordinate s (curGroup s) x.n.toNat 0).isNone then some 5 else none) = (none : Option Nat) := by
      rw [if_neg (by simpa using Option.isSome_iff_ne_none.mp hc)]
    exact fun he => laneIssue_frame h he hb htrap (keepsBut_putLanes ..)
  · intro x hb
    and_intros <;> exact fun he => laneIssue_frame h he hb rfl (keepsBut_putWide ..)
  · intro x hb
    and_intros <;> exact fun he => laneIssue_frame h he hb rfl (keepsBut_putWide ..)
  · exact fun x hb he => laneIssue_frame h he hb rfl (keepsBut_putWide ..)
  · exact fun x hb he => laneIssue_frame h he hb rfl (keepsBut_putMreg ..)
  · intro x hb
    and_intros <;> exact fun he => laneIssue_frame h he hb rfl (keepsBut_putWide ..)
  · refine fun x => ⟨fun hb => ?_, fun hb => ?_⟩
    · and_intros <;> exact fun he => laneIssue_frame h he hb rfl (keepsBut_putWide ..)
    · exact fun he => laneIssue_frame h he hb rfl (keepsBut_putLanes ..)
  · intro x hb
    and_intros <;> exact fun he => laneIssue_frame h he hb rfl (keepsBut_putPacked ..)
  · exact fun x hb => ⟨fun he => laneIssue_frame h he hb rfl (keepsBut_putPacked ..),
      fun he => laneIssue_frame h he hb rfl (keepsBut_putLanes ..)⟩
  · intro x hb
    and_intros <;> exact fun he => laneIssue_frame h he hb rfl (keepsBut_putPacked ..)
  · intro x hb
    and_intros <;> exact fun he => laneIssue_frame h he hb rfl (keepsBut_putMreg ..)
  · exact fun x hb he => laneIssue_frame h he hb rfl (keepsBut_putEl ..)
  · exact fun x hb he => laneIssue_frame h he hb rfl (keepsBut_putPacked ..)
  · intro x hb
    and_intros <;> exact fun he => laneIssue_frame h he hb rfl (keepsBut_putLanes ..)
  · intro x hb
    and_intros <;> exact fun he => laneIssue_frame h he hb rfl (keepsBut_putMreg ..)
  · exact fun x hb he => laneIssue_frame h he hb rfl (keepsBut_putMreg ..)
  · exact fun x hb he => laneIssue_frame h he hb rfl (keepsBut_putMreg ..)
  · exact fun x hb he => laneIssue_frame h he hb rfl (keepsBut_putLanes ..)
  · intro x hb
    have hb' : Below s (curGroup s) (a false x.a x.c ++ a false x.a x.c) [] := hb.mono (by simp) (by simp)
    and_intros <;> exact fun he => laneIssue_frame h he hb' rfl (keepsBut_putMreg ..)
  · exact fun x hb he => laneIssue_scalarFrame h he hb rfl
  · exact fun x hb he => laneIssue_frame h he hb rfl (keepsBut_putMreg ..)
  · intro x hb
    and_intros <;> exact fun he => laneIssue_frame h he (below_cross hb) rfl (keepsBut_shuffle ..)
  · rintro ⟨_, _, _, _, (r | r), _⟩
    · exact fun hb he => laneIssue_frame h he hb rfl (keepsBut_putLanes ..)
    · exact fun hb he => laneIssue_scalarFrame h he hb rfl
  · exact fun x hb he => laneIssue_frame h he hb rfl (keepsBut_putLanes ..)
  · exact fun x hk hb he => laneIssue_frame h he (below_cross (by rwa [List.append_nil])) (if_neg hk.not_ge) (keepsBut_putWide ..)
  · rintro ⟨_, _, _, _, (r | r), _⟩
    · exact fun hb he => laneIssue_frame h he hb rfl (keepsBut_putLanes ..)
    · exact fun hb he => laneIssue_scalarFrame h he hb rfl
  · exact fun x hb he => laneIssue_frame h he (below_cross (by rwa [List.append_nil])) rfl (keepsBut_putLanes ..)
  · intro x hb
    and_intros <;> exact fun he => laneIssue_frame h he hb rfl (keepsBut_putSlots ..)
  · refine fun x => ⟨fun hb => ?_, fun hb => ?_⟩
    · and_intros <;> exact fun he => laneIssue_frame h he hb rfl (keepsBut_putSlots ..)
    · exact fun he => laneIssue_frame h he hb rfl (keepsBut_putWide ..)
  · exact fun x hb he => accumulate_frame h he hb rfl
  · exact fun x hb he => accumulate_frame h he hb rfl
  · exact fun x hb he => laneIssue_frame h he hb rfl (keepsBut_putSlots ..)
  · exact fun x hb he => laneIssue_frame h he hb rfl (keepsBut_putEl ..)
  · exact fun x hb he => laneIssue_frame h he hb rfl (keepsBut_putWide ..)

end Sys2Proof.Machine
end

section
/-! PROOFS. The program state (family 03): the integer square root, truncation, and the exact values of FP32 encodings. -/

namespace Sys2Proof.Machine
open Sys2Proof

/-! The integer square root. -/

/-- Newton's step from any place does not fall below the root. -/
theorem sqrt_le_newton {n x : Nat} (hx : 0 < x) : Nat.sqrt n ≤ (x + n / x) / 2 := by
  rw [← Nat.lt_succ_iff, Nat.sqrt_lt']
  have hn : n < x * (n / x + 1) := Nat.lt_mul_div_succ n hx
  have hsum : x + n / x + 1 ≤ 2 * ((x + n / x) / 2).succ := by omega
  have hmean : 4 * x * (n / x + 1) ≤ (2 * ((x + n / x) / 2).succ) ^ 2 := (four_mul_le_sq_add x (n / x + 1)).trans (Nat.pow_le_pow_left hsum 2)
  rw [mul_pow] at hmean
  linarith
/-- From above the root it at most halves the distance. -/
theorem newton_halves {n x : Nat} (h : Nat.sqrt n < x) : (x + n / x) / 2 - Nat.sqrt n ≤ (x - Nat.sqrt n) / 2 := by
  have hle : n / x ≤ Nat.sqrt n := by
    rw [← Nat.lt_succ_iff, Nat.div_lt_iff_lt_mul (by omega)]
    exact (Nat.lt_succ_sqrt n).trans_le (Nat.mul_le_mul_left _ h)
  omega
/-- The iteration reaches the root from above it when it has a step for each halving of the distance. -/
theorem isqrtLoop_eq (f : Nat) {n x : Nat} (hx : Nat.sqrt n ≤ x) (hf : x - Nat.sqrt n < 2 ^ f) (hn : 0 < Nat.sqrt n) :
    isqrtLoop (f + 1) n x = Nat.sqrt n := by
  induction f generalizing x with
  | zero =>
    obtain rfl : Nat.sqrt n = x := by omega
    simp only [isqrtLoop, if_neg (sqrt_le_newton hn).not_gt]
  | succ f ih =>
    rw [isqrtLoop]
    have hge := sqrt_le_newton (n := n) (hn.trans_le hx)
    rcases hx.eq_or_lt with heq | hlt
    · simp only [← heq, if_neg (sqrt_le_newton hn).not_gt]
    · have hh := newton_halves hlt
      rw [if_pos (by omega)]
      exact ih hge (by omega)
theorem isqrt_eq_sqrt (n : Nat) : isqrt n = Nat.sqrt n := by
  rcases Nat.eq_zero_or_pos n with rfl | hn
  · rfl
  · have hlt : Nat.sqrt n < 2 ^ (Nat.log2 n / 2 + 1) := by
      rw [Nat.sqrt_lt', ← pow_mul]
      exact ((Nat.log2_lt hn.ne').mp (Nat.lt_succ_self _)).trans_le (Nat.pow_le_pow_right (by decide) (by omega))
    have hpow : 2 ^ (Nat.log2 n / 2 + 1) ≤ 2 ^ (Nat.log2 n + 7) := Nat.pow_le_pow_right (by decide) (by omega)
    rw [isqrt, if_neg hn.ne']
    exact isqrtLoop_eq (Nat.log2 n + 7) hlt.le ((Nat.sub_lt_of_pos_le (Nat.sqrt_pos.mpr hn) hlt.le).trans_le hpow) (Nat.sqrt_pos.mpr hn)

/-! Truncation to a number of fraction bits (R217). -/

theorem truncSig_of_le {f num : Nat} (h : num < 2 ^ (f + 1)) (neg : Bool) (e : Int) : truncSig f neg num e = .fin neg num e := by
  by_cases h0 : num = 0
  · simp [truncSig, h0]
  · have hl : Nat.log2 num ≤ f := Nat.lt_succ_iff.mp ((Nat.log2_lt h0).mpr h)
    simp only [truncSig, if_pos hl]
/-- A number between k and k + 1 units of 2^d, k with f fraction bits, is cut to k units. -/
theorem truncSig_eq {f num k d : Nat} (hk : 2 ^ f ≤ k) (hk' : k < 2 ^ (f + 1)) (h1 : k * 2 ^ d ≤ num) (h2 : num < (k + 1) * 2 ^ d) (neg : Bool) (e : Int) :
    truncSig f neg num e = .fin neg k (e + d) := by
  have h0 : num ≠ 0 := by
    have hk0 : 0 < k := (Nat.two_pow_pos f).trans_le hk
    exact ((Nat.mul_pos hk0 (Nat.two_pow_pos d)).trans_le h1).ne'
  have hl : Nat.log2 num = f + d := by
    rw [Nat.log2_eq_iff h0]
    refine ⟨?_, h2.trans_le ?_⟩
    · rw [pow_add]; exact (Nat.mul_le_mul_right _ hk).trans h1
    · rw [Nat.add_right_comm, pow_add]; exact Nat.mul_le_mul_right _ hk'
  have hq : num / 2 ^ d = k := Nat.div_eq_of_lt_le h1 h2
  simp only [truncSig, hl]
  split
  · next h => obtain rfl : d = 0 := by omega
              simp at hq ⊢; exact hq
  · rw [Nat.add_sub_cancel_left, hq]

/-! The exact value of an FP32 encoding (R72, R73). -/

/-- A finite FP32 encoding has a numerator of 24 bits and an exponent from -149 to 104. -/
theorem decodeF_f32 {b n : Nat} {s : Bool} {e : Int} (h : decodeF f32 b = .fin s n e) : n < 2 ^ 24 ∧ -149 ≤ e ∧ e ≤ 104 := by
  simp only [decodeF] at h
  split at h
  · cases h
  split at h
  · cases h
  next hm =>
  have hm' : magOf f32 b ≤ 0x7F7FFFFF := Nat.le_of_not_lt hm
  have hexp : magOf f32 b / 2 ^ (f32.p - 1) ≤ 254 := (Nat.div_le_div_right hm').trans (by decide)
  have hfrac : magOf f32 b % 2 ^ (f32.p - 1) < 2 ^ 23 := Nat.mod_lt _ (by decide)
  have hp : f32.p = 24 := rfl
  have hmin : f32.emin = -126 := rfl
  rw [hp] at hexp hfrac h
  split at h
  all_goals
    obtain ⟨-, hn, he⟩ := FVal.fin.inj h
    omega
theorem pow2_cast {e : Int} (h : 0 ≤ e) : ((pow2 e : Nat) : ℚ) = 2 ^ e := by
  rw [pow2, Nat.cast_pow, ← zpow_natCast, Int.toNat_of_nonneg h, Nat.cast_ofNat]
/-- A finite value counted in units of 2^q. -/
theorem unitsF_eq {q e : Int} (h : q ≤ e) (s : Bool) (n : Nat) : (unitsF q s n e : ℚ) = ratOf s n e * 2 ^ (-q) := by
  have hp : ((pow2 (e - q) : Nat) : ℚ) = 2 ^ e * 2 ^ (-q) := by
    rw [pow2_cast (by omega), sub_eq_add_neg, zpow_add₀ two_ne_zero]
  cases s <;> simp [unitsF, ratOf, hp] <;> ring
theorem natAbs_unitsF (q : Int) (s : Bool) (n : Nat) (e : Int) : (unitsF q s n e).natAbs = n * pow2 (e - q) := by
  cases s
  · exact Int.natAbs_natCast _
  · exact (Int.natAbs_neg _).trans (Int.natAbs_natCast _)

end Sys2Proof.Machine
end

section
/-! PROOFS. The program state (family 03): the exact results behind the special functions. -/

namespace Sys2Proof.Machine
open Sys2Proof

/-! Comparisons of a number of units with 1, in integers. -/

theorem abs_ratOf (s : Bool) (n : Nat) (e : Int) : |ratOf s n e| = n * 2 ^ e := by
  cases s <;> simp [ratOf, abs_mul, abs_of_pos (zpow_pos (two_pos : (0 : ℚ) < 2) e)]
theorem units_le_one {N m d : Nat} {i : Int} (h : i + m = d) : (N : ℚ) * 2 ^ i ≤ 1 ↔ N * 2 ^ d ≤ 2 ^ m := by
  have hd : (2 : ℚ) ^ i * 2 ^ m = 2 ^ d := by rw [← zpow_natCast, ← zpow_natCast, ← zpow_add₀ two_ne_zero, h]
  have hm : (0 : ℚ) < 2 ^ m := by positivity
  rw [← mul_le_mul_iff_left₀ hm, mul_assoc, hd, one_mul]
  norm_cast
/-- Fewer than 2^m units that exceed 1 are not units of less than 2^-m. -/
theorem neg_le_of_one_lt {N m : Nat} {i : Int} (hN : N ≤ 2 ^ m) (h : 1 < (N : ℚ) * 2 ^ i) : -(m : Int) ≤ i := by
  by_contra hi
  refine h.not_ge ?_
  calc (N : ℚ) * 2 ^ i ≤ 2 ^ m * 2 ^ (-(m : Int)) :=
        mul_le_mul (by exact_mod_cast hN) (zpow_le_zpow_right₀ one_le_two (by omega)) (by positivity) (by positivity)
    _ = 1 := by rw [zpow_neg, zpow_natCast]; exact mul_inv_cancel₀ (by positivity)

/-! The two seeds (R217). -/

theorem recipF_eq {s : Bool} {n k : Nat} {e c : Int} (h0 : n ≠ 0) (hn : n < 2 ^ 24) (hk : 2 ^ 12 ≤ k) (hk' : k < 2 ^ 13)
    (h1 : ratOf false k c ≤ |1 / ratOf s n e|) (h2 : |1 / ratOf s n e| < ratOf false (k + 1) c) :
    recipF s n e = roundTo f32 1 false (.fin s k c) := by
  have hx : (0 : ℚ) < n * 2 ^ e := by positivity
  have hmul : ∀ k : Nat, ratOf false k c * (n * 2 ^ e) = (k * n : Nat) * 2 ^ (c + e) := fun k => by
    simp only [ratOf, zpow_add₀ (two_ne_zero : (2 : ℚ) ≠ 0)]
    push_cast
    ring
  rw [abs_div, abs_one, abs_ratOf, le_div_iff₀ hx, hmul] at h1
  rw [abs_div, abs_one, abs_ratOf, div_lt_iff₀ hx] at h2
  have h2' : (1 : ℚ) < ((k + 1) * n : Nat) * 2 ^ (c + e) := by rw [← hmul]; exact_mod_cast h2
  have hge : -((37 : Nat) : Int) ≤ c + e := neg_le_of_one_lt (by nlinarith) h2'
  obtain ⟨d, hd⟩ := Int.eq_ofNat_of_zero_le (show 0 ≤ c + e + (200 : Nat) by omega)
  rw [units_le_one hd] at h1
  rw [← not_le, units_le_one hd, not_le] at h2'
  have hcut : truncSig 12 s (2 ^ 200 / n) (-200 - e) = .fin s k c := by
    rw [truncSig_eq hk hk' (d := d)]
    · congr 1; omega
    · rw [Nat.le_div_iff_mul_le (Nat.pos_of_ne_zero h0)]; linarith
    · rw [Nat.div_lt_iff_lt_mul (Nat.pos_of_ne_zero h0)]; linarith
  rw [recipF, sfResult, hcut]

/-- The value is put in units of an even power of 2 (R217). -/
theorem even_units (n : Nat) (e : Int) (h : n < 2 ^ 24) : ∃ (m : Nat) (u : Int), (n : ℚ) * 2 ^ e = m * 2 ^ (2 * u) ∧ m < 2 ^ 25 ∧
    (if e % 2 = 0 then n else 2 * n) = m ∧ (if e % 2 = 0 then e else e - 1) / 2 = u := by
  split
  · exact ⟨n, e / 2, by rw [show 2 * (e / 2) = e by omega], by omega, rfl, rfl⟩
  · refine ⟨2 * n, (e - 1) / 2, ?_, by omega, rfl, rfl⟩
    have he : e = 1 + 2 * ((e - 1) / 2) := by omega
    calc (n : ℚ) * 2 ^ e = n * 2 ^ (1 + 2 * ((e - 1) / 2)) := by rw [← he]
      _ = (2 * n : Nat) * 2 ^ (2 * ((e - 1) / 2)) := by rw [zpow_add₀ two_ne_zero, zpow_one]; push_cast; ring
theorem rsqrtF_eq {n k : Nat} {e c : Int} (h0 : n ≠ 0) (hn : n < 2 ^ 24) (hk : 2 ^ 12 ≤ k) (hk' : k < 2 ^ 13)
    (h1 : ratOf false k c ^ 2 ≤ 1 / ratOf false n e) (h2 : 1 / ratOf false n e < ratOf false (k + 1) c ^ 2) :
    rsqrtF n e = roundTo f32 1 false (.fin false k c) := by
  obtain ⟨m, u, hm, hlt, hn', he'⟩ := even_units n e hn
  have hrat : ratOf false n e = m * 2 ^ (2 * u) := by rw [← hm]; simp [ratOf]
  have hx : (0 : ℚ) < m * 2 ^ (2 * u) := by rw [← hm]; positivity
  have hm0 : 0 < m := Nat.pos_of_ne_zero fun hz => by simp [hz] at hx
  have hmul : ∀ k : Nat, ratOf false k c ^ 2 * (m * 2 ^ (2 * u)) = (k ^ 2 * m : Nat) * 2 ^ (2 * (c + u)) := fun k => by
    have hsq : ((2 : ℚ) ^ c) ^ 2 = 2 ^ (2 * c) := by rw [← zpow_natCast, ← zpow_mul, mul_comm]; rfl
    simp only [ratOf, mul_add, zpow_add₀ (two_ne_zero : (2 : ℚ) ≠ 0), ← hsq]
    push_cast
    ring
  rw [hrat, le_div_iff₀ hx, hmul] at h1
  rw [hrat, div_lt_iff₀ hx] at h2
  have h2' : (1 : ℚ) < ((k + 1) ^ 2 * m : Nat) * 2 ^ (2 * (c + u)) := by rw [← hmul]; exact_mod_cast h2
  have hge : -((51 : Nat) : Int) ≤ 2 * (c + u) := neg_le_of_one_lt (by nlinarith) h2'
  obtain ⟨d, hd⟩ := Int.eq_ofNat_of_zero_le (show 0 ≤ c + u + 200 by omega)
  have hd2 : 2 * (c + u) + (400 : Nat) = (d * 2 : Nat) := by push_cast; omega
  rw [units_le_one hd2, pow_mul] at h1
  rw [← not_le, units_le_one hd2, not_le, pow_mul] at h2'
  have hcut : truncSig 12 false (Nat.sqrt (2 ^ 400 / m)) (-200 - u) = .fin false k c := by
    rw [truncSig_eq hk hk' (d := d)]
    · congr 1; omega
    · rwa [Nat.le_sqrt', Nat.le_div_iff_mul_le hm0, mul_pow, mul_right_comm]
    · rwa [Nat.sqrt_lt', Nat.div_lt_iff_lt_mul hm0, mul_pow, mul_right_comm]
  simp only [rsqrtF, sfResult, hn', he', isqrt_eq_sqrt, hcut]

/-! Powers of 2 and integers among the values (R217, R218). -/

/-- A value that is a power of 2 has a power of 2 as its numerator. -/
theorem eq_two_pow_of_ratOf {n : Nat} {s : Bool} {e z : Int} (h : ratOf s n e = 2 ^ z) : s = false ∧ ∃ l : Nat, n = 2 ^ l ∧ z = l + e := by
  have hpos : (0 : ℚ) < ratOf s n e := by rw [h]; positivity
  have hs : s = false := by
    cases s with
    | false => rfl
    | true =>
      have : (0 : ℚ) ≤ n * 2 ^ e := by positivity
      simp only [ratOf, if_true] at hpos
      linarith
  subst hs
  have hn : (n : ℚ) = 2 ^ (z - e) := by
    rw [zpow_sub₀ two_ne_zero, eq_div_iff (by positivity), ← h]
    simp [ratOf]
  have hge : 0 ≤ z - e := by
    by_contra hlt
    have h1 : (n : ℚ) < 1 := by rw [hn]; exact zpow_lt_one_of_neg₀ one_lt_two (by omega)
    have h0 : (0 : ℚ) < n := by rw [hn]; positivity
    norm_cast at h0 h1
    omega
  obtain ⟨l, hl⟩ := Int.eq_ofNat_of_zero_le hge
  refine ⟨rfl, l, ?_, by omega⟩
  rw [hl, zpow_natCast] at hn
  exact_mod_cast hn
theorem log2F_eq {n : Nat} {s : Bool} {e z : Int} (h : ratOf s n e = 2 ^ z) (hn : n < 2 ^ 24) (he : -149 ≤ e ∧ e ≤ 104) :
    log2F n e = roundTo f32 1 false (.fin (decide (z < 0)) z.natAbs 0) := by
  obtain ⟨-, l, rfl, rfl⟩ := eq_two_pow_of_ratOf h
  have hl : l < 24 := (Nat.pow_lt_pow_iff_right (by decide)).mp hn
  have hcut : truncSig 20 (decide ((l : Int) + e < 0)) ((l : Int) + e).natAbs 0 = .fin (decide ((l : Int) + e < 0)) ((l : Int) + e).natAbs 0 :=
    truncSig_of_le (by omega) _ _
  simp only [log2F, Nat.log2_two_pow, if_true, sfResult, hcut]
  split
  · next hz => rw [hz]; rfl
  · rfl

/-- A value of 128 or more is one whose leading bit stands at 7 or above. -/
theorem le_log2_of_ratOf {n : Nat} {e : Int} (h0 : n ≠ 0) : (128 : ℚ) ≤ ratOf false n e ↔ 7 ≤ (Nat.log2 n : Int) + e := by
  have h7 : (128 : ℚ) = 2 ^ (7 : Int) := by norm_num
  have hle : (2 : ℚ) ^ (Nat.log2 n : Int) ≤ n := by rw [zpow_natCast]; exact_mod_cast Nat.log2_self_le h0
  have hlt : (n : ℚ) < 2 ^ ((Nat.log2 n : Int) + 1) := by
    have := (Nat.log2_lt h0).mp (Nat.lt_succ_self _)
    exact_mod_cast this
  have hr : ratOf false n e = n * 2 ^ e := by simp [ratOf]
  have hpos : (0 : ℚ) < 2 ^ e := by positivity
  rw [h7, hr]
  constructor
  · intro h
    have : (2 : ℚ) ^ (7 : Int) < 2 ^ ((Nat.log2 n : Int) + 1 + e) := by
      rw [zpow_add₀ two_ne_zero _ e]
      exact h.trans_lt (mul_lt_mul_of_pos_right hlt hpos)
    have := (zpow_lt_zpow_iff_right₀ one_lt_two).mp this
    omega
  · intro h
    calc (2 : ℚ) ^ (7 : Int) ≤ 2 ^ ((Nat.log2 n : Int) + e) := zpow_le_zpow_right₀ one_le_two h
      _ = 2 ^ (Nat.log2 n : Int) * 2 ^ e := zpow_add₀ two_ne_zero ..
      _ ≤ n * 2 ^ e := mul_le_mul_of_nonneg_right hle hpos.le
theorem exp2F_eq {n : Nat} {s : Bool} {e z : Int} (h : ratOf s n e = z) (he : -149 ≤ e) : exp2F s n e = roundTo f32 1 false (.fin false 1 z) := by
  have hmin : min e (-150) = -150 := by omega
  have hz : unitsF (-150) s n e = z * (pow2 (-(-150)) : Nat) := by
    have := unitsF_eq (show -150 ≤ e by omega) s n
    rw [h, ← pow2_cast (by decide)] at this
    exact_mod_cast this
  have hdiv : z * (pow2 (-(-150)) : Nat) / (pow2 (-(-150)) : Nat) = z := Int.mul_ediv_cancel _ (by decide)
  have hmod : z * (pow2 (-(-150)) : Nat) % (pow2 (-(-150)) : Nat) = 0 := Int.mul_emod_left ..
  simp only [exp2F, hmin, hz, hdiv, hmod, Int.toNat_zero, if_true, sfResult]
  rw [truncSig_of_le (by decide)]

/-! Whole and half turns (R217, R218). -/

/-- A multiple of 1/2 in units of half a turn's fraction. -/
theorem natAbs_halves {n m : Nat} {s : Bool} {e w : Int} (h : ratOf s n e = w / 2) (he : -(m + 1 : Nat) ≤ e) :
    n * pow2 (e - -(m + 1 : Nat)) = w.natAbs * 2 ^ m := by
  have hu := unitsF_eq he s n
  have h2 : (w : ℚ) / 2 * 2 ^ (-(-(m + 1 : Nat)) : Int) = w * (2 ^ m : Nat) := by
    rw [neg_neg, zpow_natCast, pow_succ', Nat.cast_pow, Nat.cast_ofNat]
    ring
  rw [h, h2] at hu
  have hw : unitsF (-(m + 1 : Nat)) s n e = w * (2 ^ m : Nat) := by exact_mod_cast hu
  rw [← natAbs_unitsF _ s, hw, Int.natAbs_mul, Int.natAbs_natCast]
/-- A multiple of 1/2, modulo 2 and in fixed point: u stands for 1/2. -/
theorem modTwo_halves {n : Nat} {s : Bool} {e w : Int} (h : ratOf s n e = w / 2) (he : -149 ≤ e) :
    ∃ u, 0 < u ∧ sfOne = 2 * u ∧ modTwo n e = w.natAbs % 4 * u := by
  have hbits : sfBits = 339 + 1 := rfl
  have hone : sfOne = 2 * 2 ^ 339 := by rw [sfOne, hbits, pow_succ']
  have hexp : (sfBits : Int) + e = e - -(339 + 1 : Nat) := by rw [hbits]; omega
  refine ⟨2 ^ 339, by positivity, hone, ?_⟩
  rw [modTwo, if_pos (by rw [hbits]; omega), hexp, natAbs_halves h (by omega), hone, show ∀ u, 2 * (2 * u) = 4 * u by omega, Nat.mul_mod_mul_right]
/-- A value that is no multiple of 1 has a negative exponent. -/
theorem exp_neg_of_odd {n : Nat} {s : Bool} {e w : Int} (h : ratOf s n e = w / 2) (hw : w % 2 ≠ 0) : ¬ 0 ≤ e := fun h0 => by
  have hu := unitsF_eq h0 s n
  rw [h, neg_zero, zpow_zero, mul_one, eq_div_iff two_ne_zero] at hu
  have : unitsF 0 s n e * 2 = w := by exact_mod_cast hu
  omega
/-- The sine of a multiple of a half turn is a zero, that of an odd multiple of a quarter 1 or -1. -/
theorem sinPiF_halves {n : Nat} {s : Bool} {e w : Int} (h : ratOf s n e = w / 2) (he : -149 ≤ e) :
    sinPiF s n e = if w % 2 = 0 then withSign f32 s 0 else sfResult 20 (s != decide (w.natAbs % 4 = 3)) 1 0 := by
  obtain ⟨u, hu, hone, hr⟩ := modTwo_halves h he
  have hmod : modTwo n e % sfOne = w.natAbs % 4 % 2 * u := by rw [hr, hone, Nat.mul_mod_mul_right]
  by_cases hw : w % 2 = 0
  · rw [show w.natAbs % 4 % 2 = 0 by omega, Nat.zero_mul] at hmod
    simp only [sinPiF, hmod, hw, or_true, if_true]
  · rw [show w.natAbs % 4 % 2 = 1 by omega, Nat.one_mul] at hmod
    have hturn : (sfOne ≤ modTwo n e) ↔ w.natAbs % 4 = 3 := by
      rw [hone, hr, Nat.mul_le_mul_right_iff hu]
      omega
    simp only [sinPiF, sinPiTurn, hmod, hw, exp_neg_of_odd h hw, hu.ne', hturn, hone.symm, or_self, if_true, if_false]
theorem cosPiF_halves {n : Nat} {s : Bool} {e w : Int} (h : ratOf s n e = w / 2) (he : -149 ≤ e) :
    cosPiF n e = if w % 2 = 0 then sfResult 20 (decide (w.natAbs % 4 = 2)) 1 0 else 0 := by
  obtain ⟨u, hu, hone, hr⟩ := modTwo_halves h he
  have hr' : (modTwo n e + sfOne / 2) % (2 * sfOne) = (w.natAbs % 4 + 1) % 4 * u := by
    rw [hr, hone, Nat.mul_div_cancel_left _ two_pos, ← Nat.succ_mul, show 2 * (2 * u) = 4 * u by omega, Nat.mul_mod_mul_right]
  have hmod : (w.natAbs % 4 + 1) % 4 * u % sfOne = (w.natAbs % 4 + 1) % 4 % 2 * u := by rw [hone, Nat.mul_mod_mul_right]
  by_cases hw : w % 2 = 0
  · rw [show (w.natAbs % 4 + 1) % 4 % 2 = 1 by omega, Nat.one_mul] at hmod
    have hturn : (sfOne ≤ (w.natAbs % 4 + 1) % 4 * u) ↔ w.natAbs % 4 = 2 := by
      rw [hone, Nat.mul_le_mul_right_iff hu]
      omega
    simp only [cosPiF, sinPiTurn, hr', hmod, hw, hu.ne', hturn, hone.symm, if_true, if_false]
  · rw [show (w.natAbs % 4 + 1) % 4 % 2 = 0 by omega, Nat.zero_mul] at hmod
    simp only [cosPiF, hr', hmod, hw, if_true, if_false]

end Sys2Proof.Machine
end

section
/-! PROOFS. The program state (family 03): values of integer types, and the special functions of an FP32 encoding. -/

namespace Sys2Proof.Machine
open Sys2Proof

/-! Values of integer types (R70, R80). -/

theorem ratOf_ofIntF (z : Int) : ratOf (decide (z < 0)) z.natAbs 0 = z := by
  have hz : ((z.natAbs : Nat) : ℚ) = ((z.natAbs : Int) : ℚ) := (Int.cast_natCast _).symm
  rcases lt_or_ge z 0 with h | h
  · rw [Int.ofNat_natAbs_of_nonpos h.le, Int.cast_neg] at hz
    simp [ratOf, h, hz]
  · rw [Int.natAbs_of_nonneg h] at hz
    simp [ratOf, h.not_gt, hz]
theorem readInt_cast (w : Nat) (sg : Bool) (b : Nat) : (readInt w sg b : ℚ) =
    if sg ∧ 2 ^ (w - 1) ≤ b % 2 ^ w then ((b % 2 ^ w : Nat) : ℚ) - 2 ^ w else ((b % 2 ^ w : Nat) : ℚ) := by
  cases sg
  · exact Int.cast_natCast _
  · by_cases h : b % 2 ^ w < 2 ^ (w - 1)
    · simp only [readInt, sext, if_true, if_pos h, true_and, if_neg h.not_ge]
      exact Int.cast_natCast _
    · simp only [readInt, sext, if_true, if_neg h, true_and, if_pos (Nat.le_of_not_lt h)]
      push_cast
      rfl
/-- An integer in a type's range is what the type's bits of it are read as. -/
theorem readInt_wrapInt {w : Nat} {sg : Bool} {z : Int} (hw : 0 < w) (hlo : intMin w sg ≤ z) (hhi : z ≤ intMax w sg) :
    readInt w sg (wrapInt w z) = z := by
  obtain ⟨k, rfl⟩ : ∃ k, w = k + 1 := ⟨w - 1, by omega⟩
  have hmod : wrapInt (k + 1) z % 2 ^ (k + 1) = wrapInt (k + 1) z := Nat.mod_eq_of_lt (wrapInt_lt ..)
  have hpos : 0 < 2 ^ k := Nat.two_pow_pos k
  have hval : (wrapInt (k + 1) z : Int) = if z < 0 then z + (2 * 2 ^ k : Nat) else z := by
    rw [wrapInt, pow_succ', Int.toNat_of_nonneg (Int.emod_nonneg _ (by omega))]
    simp only [intMin, intMax, Nat.add_sub_cancel, pow_succ'] at hlo hhi
    generalize 2 ^ k = p at *
    split
    · rw [← Int.add_emod_right]
      exact Int.emod_eq_of_lt (by grind) (by omega)
    · exact Int.emod_eq_of_lt (by omega) (by grind)
  simp only [intMin, intMax, Nat.add_sub_cancel, pow_succ'] at hlo hhi
  simp only [readInt, sext, hmod, Nat.add_sub_cancel]
  simp only [pow_succ']
  generalize 2 ^ k = p at *
  cases sg <;> grind

theorem toInt_mem {lo hi : Int} (hlo : lo ≤ 0) (hhi : 0 ≤ hi) (m : Nat) (v : FVal) : lo ≤ toInt lo hi m v ∧ toInt lo hi m v ≤ hi := by
  cases v with
  | nan => exact ⟨hlo, hhi⟩
  | inf s => cases s <;> simp [toInt] <;> omega
  | fin s n e => simp only [toInt]; omega

/-! The special functions of an FP32 encoding (R217, R218). -/

theorem sfResult_one (b : Bool) : sfResult 20 b 1 0 = if b then 0xBF800000 else 0x3F800000 := by cases b <;> decide

/-- The sign of a value that is half a unit beyond z. -/
theorem sign_of_half {s : Bool} {n : Nat} {e z : Int} (h : ratOf s n e = z + 1 / 2) : s = true ↔ z < 0 := by
  have hpos : (0 : ℚ) ≤ n * 2 ^ e := by positivity
  cases s with
  | true =>
    refine ⟨fun _ => ?_, fun _ => rfl⟩
    simp only [ratOf, if_true] at h
    have : (z : ℚ) < 0 := by linarith
    exact_mod_cast this
  | false =>
    refine ⟨nofun, fun hz => absurd hz ?_⟩
    simp only [ratOf, Bool.false_eq_true, if_false, one_mul] at h
    have : (-1 : ℚ) < z := by linarith
    have : -1 < z := by exact_mod_cast this
    omega

section
variable {b n : Nat} {s : Bool} {e : Int} (h : decodeF f32 b = .fin s n e) (h0 : n ≠ 0)
include h h0

theorem sfRsqrt_neg (hs : s = true) : sfRsqrt b = 0x7FC00000 := by simp only [sfRsqrt, h, if_neg h0, hs, if_true, nan32]
theorem sfLog2_neg (hs : s = true) : sfLog2 b = 0x7FC00000 := by simp only [sfLog2, h, if_neg h0, hs, if_true, nan32]
theorem sfExp2_large (hx : 128 ≤ ratOf s n e) : sfExp2 b = 0x7F800000 := by
  cases s with
  | true =>
    have : (0 : ℚ) ≤ n * 2 ^ e := by positivity
    simp only [ratOf, if_true] at hx
    linarith
  | false =>
    have hl := (le_log2_of_ratOf h0).mp hx
    simp only [sfExp2, h, if_neg h0, true_and, if_pos hl]
    rfl
theorem sfRecip_seed {k : Nat} {c : Int} (hk : 2 ^ 12 ≤ k) (hk' : k < 2 ^ 13) (h1 : ratOf false k c ≤ |1 / ratOf s n e|)
    (h2 : |1 / ratOf s n e| < ratOf false (k + 1) c) : sfRecip b = roundTo f32 1 false (.fin s k c) := by
  simp only [sfRecip, h, if_neg h0, recipF_eq h0 (decodeF_f32 h).1 hk hk' h1 h2]
theorem sfRsqrt_seed {k : Nat} {c : Int} (hk : 2 ^ 12 ≤ k) (hk' : k < 2 ^ 13) (hs : s = false) (h1 : ratOf false k c ^ 2 ≤ 1 / ratOf s n e)
    (h2 : 1 / ratOf s n e < ratOf false (k + 1) c ^ 2) : sfRsqrt b = roundTo f32 1 false (.fin false k c) := by
  subst hs
  simp only [sfRsqrt, h, if_neg h0, Bool.false_eq_true, if_false, rsqrtF_eq h0 (decodeF_f32 h).1 hk hk' h1 h2]
theorem sfLog2_pow {z : Int} (hx : ratOf s n e = 2 ^ z) : sfLog2 b = roundTo f32 1 false (.fin (decide (z < 0)) z.natAbs 0) := by
  obtain ⟨rfl, -⟩ := eq_two_pow_of_ratOf hx
  obtain ⟨hn, he⟩ := decodeF_f32 h
  simp only [sfLog2, h, if_neg h0, Bool.false_eq_true, if_false, log2F_eq hx hn he]
theorem sfExp2_int {z : Int} (hx : ratOf s n e = z) (hz : z < 128) : sfExp2 b = roundTo f32 1 false (.fin false 1 z) := by
  have hsmall : ¬ (s = false ∧ 7 ≤ (Nat.log2 n : Int) + e) := by
    rintro ⟨rfl, hl⟩
    rw [← le_log2_of_ratOf h0, hx] at hl
    exact absurd hz (by exact_mod_cast hl.not_gt)
  simp only [sfExp2, h, if_neg h0, if_neg hsmall, exp2F_eq hx (decodeF_f32 h).2.1]
theorem sfSinPi_int {z : Int} (hx : ratOf s n e = z) : sfSinPi b = if s then 0x80000000 else 0 := by
  have hw : ratOf s n e = ((2 * z : Int) : ℚ) / 2 := by rw [hx]; push_cast; ring
  simp only [sfSinPi, h, if_neg h0, sinPiF_halves hw (decodeF_f32 h).2.1, Int.mul_emod_right, if_true]
  cases s <;> rfl
theorem sfCosPi_int {z : Int} (hx : ratOf s n e = z) : sfCosPi b = if z % 2 = 0 then 0x3F800000 else 0xBF800000 := by
  have hw : ratOf s n e = ((2 * z : Int) : ℚ) / 2 := by rw [hx]; push_cast; ring
  have hodd : (2 * z).natAbs % 4 = 2 ↔ ¬ z % 2 = 0 := by omega
  simp only [sfCosPi, h, if_neg h0, cosPiF_halves hw (decodeF_f32 h).2.1, Int.mul_emod_right, if_true, sfResult_one, hodd, decide_eq_true_eq, ite_not]
/-- A half turn beyond z whole ones, seen from zero, has the sign of its sine by the parity of z. -/
theorem sfSinPi_half {z : Int} (hx : ratOf s n e = z + 1 / 2) : sfSinPi b = if z % 2 = 0 then 0x3F800000 else 0xBF800000 := by
  have hw : ratOf s n e = ((2 * z + 1 : Int) : ℚ) / 2 := by rw [hx]; push_cast; ring
  have hsign : (s != decide ((2 * z + 1).natAbs % 4 = 3)) = decide (z % 2 ≠ 0) := by
    have hs := sign_of_half hx
    rw [Bool.eq_iff_iff, bne_iff_ne, ne_eq, Bool.eq_iff_iff, hs, decide_eq_true_eq, decide_eq_true_eq]
    omega
  simp only [sfSinPi, h, if_neg h0, sinPiF_halves hw (decodeF_f32 h).2.1, if_neg (show ¬ (2 * z + 1) % 2 = 0 by omega), hsign, sfResult_one,
    decide_eq_true_eq, ne_eq, ite_not]
theorem sfCosPi_half {z : Int} (hx : ratOf s n e = z + 1 / 2) : sfCosPi b = 0 := by
  have hw : ratOf s n e = ((2 * z + 1 : Int) : ℚ) / 2 := by rw [hx]; push_cast; ring
  simp only [sfCosPi, h, if_neg h0, cosPiF_halves hw (decodeF_f32 h).2.1, if_neg (show ¬ (2 * z + 1) % 2 = 0 by omega)]

end

end Sys2Proof.Machine
end

section
/-! PROOFS. The program state (family 03): moves, selections, coordinates, conversions and special functions. -/

namespace Sys2Proof.Machine
open Sys2Proof

/-! Moves, selections, coordinates and conversions (R209, R214 to R216). -/

/-- A coordinate of every lane (R209): of the lane itself, of the group's node, or of the lane's node. -/
theorem laneCoordinate_eq {s : State} {g n : Nat} {f : Nat → Nat} :
    let d := descOf s g
    let no := (ownTeam s g).no
    let m := (group s g).no
    let k := n % 16
    (f = (fun i => i) ∧ n = 0 ∨
      k < d.levels.length ∧ n / 16 = 1 ∧ (levelAt d k).bind ≠ 0 ∧ f = (fun _ => nodeOf d k no m % (levelAt d k).fan) ∨
      k < d.levels.length ∧ n / 16 = 3 ∧ (levelAt d k).bind ≠ 0 ∧ f = (fun _ => nodeOf d k no m) ∨
      k < d.levels.length ∧ n / 16 = 1 ∧ (levelAt d k).bind = 0 ∧
        f = (fun i => if laneCount d ≤ i then 0xFFFFFFFF else i / lanesBelow d k % (levelAt d k).fan) ∨
      k < d.levels.length ∧ n / 16 = 3 ∧ (levelAt d k).bind = 0 ∧
        f = (fun i => if laneCount d ≤ i then 0xFFFFFFFF else laneNode d k no m i)) →
    ∀ i, laneCoordinate s g n i = some (f i) := by
  intro d no m k hf i
  have hnode : ∀ q, n / 16 = q → q = 1 ∨ q = 3 → k < d.levels.length → n ≠ 0 ∧ ¬ (d.levels.length ≤ k ∨ n / 16 ≠ 1 ∧ n / 16 ≠ 3) := by
    omega
  rcases hf with ⟨rfl, rfl⟩ | ⟨hk, hq, hb, rfl⟩ | ⟨hk, hq, hb, rfl⟩ | ⟨hk, hq, hb, rfl⟩ | ⟨hk, hq, hb, rfl⟩
  · rfl
  · obtain ⟨h0, hin⟩ := hnode 1 hq (.inl rfl) hk
    simp only [laneCoordinate, if_neg h0]
    rw [if_neg hin, if_pos hb, if_pos hq]
    rfl
  · obtain ⟨h0, hin⟩ := hnode 3 hq (.inr rfl) hk
    simp only [laneCoordinate, if_neg h0]
    rw [if_neg hin, if_pos hb, if_neg (by omega)]
    rfl
  · obtain ⟨h0, hin⟩ := hnode 1 hq (.inl rfl) hk
    simp only [laneCoordinate, if_neg h0]
    rw [if_neg hin, if_neg (not_not.mpr hb), if_pos hq]
    split <;> rfl
  · obtain ⟨h0, hin⟩ := hnode 3 hq (.inr rfl) hk
    simp only [laneCoordinate, if_neg h0]
    rw [if_neg hin, if_neg (not_not.mpr hb), if_neg (show ¬ n / 16 = 1 by omega)]
    split <;> rfl
theorem execVcoord_runs {s : State} {g : Nat} (h : LaneRuns s g) (x : CoordArgs) {f : Nat → Nat} (hf : ∀ i, laneCoordinate s g x.n.toNat i = some (f i)) :
    let y := group s g
    Below s g (regs false x.d x.c.stepD y.lane.rep) [] →
    execVcoord x s = .next (laneNext s g (putLanes y (regNo x.d x.c.stepD 1 y.lane.rep) (execLanes y x.c.pred x.c.neg)
      ((List.range 128).map fun i => BitVec.ofNat 32 (f i))) x.c.rep.toNat) := by
  intro y hb
  have hc : curGroup s = g := by simp [curGroup, h.1]
  simp only [execVcoord, h.repNow, hc, hf, Option.getD_some]
  exact laneOp_runs h x.c (u := { Use.lanes _ [] x.c.pred with trap := none }) (by rwa [Use.lanes, List.append_nil]) rfl fun _ _ => putLanes_lane ..
@[simp] theorem putEl_lane (x : Group) (t : CType) (n pos : Nat) (ex : List Bool) (v : List Nat) : (putEl x t n pos ex v).lane = x.lane := by
  simp only [putEl]
  split
  · rfl
  · exact putWide_lane ..

theorem move_runs {s : State} {g : Nat} (h : LaneRuns s g) (wide : Bool) (x : MovArgs) :
    let y := group s g
    let j := y.lane.rep
    Below s g (regs wide x.d x.c.stepD j ++ srcRegs wide x.b x.c.stepB j) [] →
    move wide x s = .next (laneNext s g (putWide y wide (regNo x.d x.c.stepD (if wide then 2 else 1) j) (execLanes y x.c.pred x.c.neg)
      (srcInt y wide x.sg x.b x.c.stepB j)) x.c.rep.toNat) := by
  intro y j hb
  simp only [move, h.repNow, regs_headD]
  exact laneOp_runs h x.c hb rfl fun _ _ => putWide_lane ..
theorem special_runs {s : State} {g : Nat} (h : LaneRuns s g) (f : Nat → Nat) (x : SfArgs) :
    let y := group s g
    let j := y.lane.rep
    Below s g (regs false x.d x.c.stepD j ++ regs false x.a x.c.stepA j) [] →
    special f x s = .next (laneNext s g (putLanes y (regNo x.d x.c.stepD 1 j) (execLanes y x.c.pred x.c.neg)
      ((vreg y (regNo x.a x.c.stepA 1 j)).map fun v => BitVec.ofNat 32 (f v.toNat))) x.c.rep.toNat) := by
  intro y j hb
  simp only [special, h.repNow, regs_headD]
  exact laneOp_runs h x.c hb rfl fun _ _ => putLanes_lane ..
/-- A slice's bytes chosen by a predicate's bits (R209). -/
theorem selBytes_eq (n : BitVec 4) (a b : LWord) : selBytes n a b = joinEl 8 fun i => if n.getLsbD i then subEl 8 a i else subEl 8 b i := by
  have hg : ∀ i, governing 8 i = i := fun i => Nat.mul_div_cancel_left i (by decide)
  simp only [selBytes, mergeEl, hg]

/-- Settles O25: moves, selections and conversions are one issue each; an integer type's values lie in its range; the exact results of the
special functions are those of their value in integers. -/
theorem laneMovesAndConversions : Obligations.LaneMovesAndConversions := by
  unfold Obligations.LaneMovesAndConversions
  refine ⟨⟨fun s g x h => ?_, fun s g x h => ?_, fun s g x f h => ?_⟩,
    ⟨fun s g x h => ?_, fun s g x h => ?_, fun s g x h => ?_⟩, fun w hw sg sat m b v => ?_, ?_, fun b n s e h h0 => ?_⟩
  · simp only [List.forall_mem_cons, List.not_mem_nil, false_imp_iff, implies_true, and_true]
    exact ⟨move_runs h false x, move_runs h true x⟩
  · intro y j ex names bytes
    refine ⟨fun hb => ?_, fun hb => ?_⟩
    · show execVselN32 x s = _
      simp only [execVselN32, h.repNow, selBytes_eq]
      exact laneOp_runs h x.c hb rfl fun _ _ => putLanes_lane ..
    · show execVselN64 x s = _
      simp only [execVselN64, h.repNow]
      exact laneOp_runs h x.c hb rfl fun _ _ => putWide_lane ..
  · intro y d k no hb hf
    exact execVcoord_runs h x (laneCoordinate_eq (hf.imp_left (And.imp_right fun h0 => by rw [h0]; rfl))) hb
  · intro y j dt st wd ws hb
    show execVcvt x s = _
    simp only [execVcvt, h.repNow, regs_headD]
    rw [laneIssue_runs h _ _ _ _ hb rfl (by rw [putEl_lane])]
    refine congrArg (fun v => Host.Outcome.next (laneNext s g (putEl y dt _ _ _ (List.map v _)) _)) (funext fun e => ?_)
    show convert dt st _ _ e = _
    clear_value dt st
    cases dt <;> cases st <;> rfl
  · intro y j half hb
    show execVcvtp x s = _
    simp only [execVcvtp, h.repNow, regs_headD, apply_ite (fun v : LWord => roundTo (halfFmt x.bf) x.mode.toNat x.sat (decodeF f32 v.toNat))]
    exact packedOp_runs h _ x.c hb rfl fun _ _ => putPacked_lane ..
  · intro y j hb
    simp only [List.forall_mem_cons, List.not_mem_nil, false_imp_iff, implies_true, and_true]
    exact ⟨special_runs h _ x hb, special_runs h _ x hb, special_runs h _ x hb, special_runs h _ x hb, special_runs h _ x hb, special_runs h _ x hb⟩
  · intro lo hi
    have hpos : 0 < w := by
      simp only [List.mem_cons, List.not_mem_nil, or_false] at hw
      omega
    obtain ⟨hle, hge⟩ := toInt_mem (intMin_le_zero w sg) (zero_le_intMax w sg) m v
    refine ⟨⟨_, _, rfl, (ratOf_ofIntF _).trans (readInt_cast ..)⟩, wrapInt_lt .., (readInt_wrapInt hpos hle hge).trans ?_⟩
    rw [intMin_eq, intMax_eq]
    cases v <;> rfl
  · simp only [List.forall_mem_cons, List.not_mem_nil, false_imp_iff, implies_true, and_true]
    refine ⟨⟨rfl, rfl, rfl, rfl, fun b hb => ?_⟩, ⟨rfl, rfl, rfl, rfl, fun b hb => ?_⟩, ⟨rfl, rfl, rfl, rfl, fun b hb => ?_⟩,
      ⟨rfl, rfl, rfl, rfl, fun b hb => ?_⟩, ⟨rfl, rfl, rfl, rfl, fun b hb => ?_⟩, ⟨rfl, rfl, rfl, rfl, fun b hb => ?_⟩⟩
    · simp only [sfRsqrt, hb, nan32]
    · simp only [sfRecip, hb, nan32]
    · simp only [sfExp2, hb, nan32]
    · simp only [sfLog2, hb, nan32]
    · simp only [sfSinPi, hb, nan32]
    · simp only [sfCosPi, hb, nan32]
  · intro x
    exact ⟨fun hs => ⟨sfRsqrt_neg h h0 hs, sfLog2_neg h h0 hs⟩, sfExp2_large h h0,
      fun k c hk hk' => ⟨sfRecip_seed h h0 hk hk', sfRsqrt_seed h h0 hk hk'⟩, fun z => sfLog2_pow h h0,
      fun z hz => ⟨sfExp2_int h h0 hz, sfSinPi_int h h0 hz, sfCosPi_int h h0 hz⟩, fun z hz => ⟨sfSinPi_half h h0 hz, sfCosPi_half h h0 hz⟩⟩

end Sys2Proof.Machine
end

section
/-! PROOFS. Number formats (family 04): the value of a long accumulator under carries, additions and merges. -/

namespace Sys2Proof.Machine
open Sys2Proof

/-! The value of segments and pending carries (R86). -/

/-- The weight of a segment in the one below it, 2^64. -/
@[irreducible] def segBase : Int := (2 ^ 64 : Nat)
theorem segBase_eq : segBase = (2 ^ 64 : Nat) := by rw [segBase]
theorem segBase_pos : 0 < segBase := by rw [segBase_eq]; positivity
/-- Ten segments hold the integers modulo 2^640 (R84). -/
theorem segBase_pow_ten : segBase ^ 10 = (2 ^ 640 : Nat) := by rw [segBase_eq, ← Nat.cast_pow, ← pow_mul]
theorem segBase_pow_ten_pos : 0 < segBase ^ 10 := pow_pos segBase_pos _

theorem laSum_cons (x : BitVec 64) (r : List (BitVec 64)) (c : List Int) :
    laSum (x :: r) c = x.toNat + c.headD 0 * segBase + segBase * laSum r c.tail := by rw [laSum, segBase_eq]
/-- A segment that is replaced changes the sum by its difference, at its weight. -/
theorem laSum_set_segment (d : List (BitVec 64)) (c : List Int) {i : Nat} (hi : i < d.length) (v : BitVec 64) :
    laSum (d.set i v) c = laSum d c + ((v.toNat : Int) - (d.getD i 0).toNat) * segBase ^ i := by
  induction d generalizing c i with
  | nil => cases hi
  | cons x r ih =>
    cases i with
    | zero => simp only [List.set_cons_zero, List.getD_cons_zero, laSum_cons, pow_zero]; ring
    | succ i =>
      simp only [List.set_cons_succ, List.getD_cons_succ, laSum_cons, ih c.tail (Nat.lt_of_succ_lt_succ hi), pow_succ]
      ring
/-- A pending carry that is replaced changes it at the weight of the next segment. -/
theorem laSum_set_carry (d : List (BitVec 64)) (c : List Int) {i : Nat} (hd : i < d.length) (hc : i < c.length) (e : Int) :
    laSum d (c.set i e) = laSum d c + (e - c.getD i 0) * segBase ^ (i + 1) := by
  induction d generalizing c i with
  | nil => cases hd
  | cons x r ih =>
    cases c with
    | nil => cases hc
    | cons y c =>
      cases i with
      | zero => simp only [List.set_cons_zero, List.getD_cons_zero, laSum_cons, List.headD_cons, List.tail_cons]; ring
      | succ i =>
        simp only [List.set_cons_succ, List.getD_cons_succ, laSum_cons, List.headD_cons, List.tail_cons,
          ih c (Nat.lt_of_succ_lt_succ hd) (Nat.lt_of_succ_lt_succ hc), pow_succ]
        ring
/-- The sum written out: each segment and each pending carry at its weight. -/
theorem laSum_eq_sum (d : List (BitVec 64)) (c : List Int) : laSum d c =
    ∑ i ∈ Finset.range d.length, (((d.getD i 0).toNat : Int) * segBase ^ i + c.getD i 0 * segBase ^ (i + 1)) := by
  induction d generalizing c with
  | nil => rfl
  | cons x r ih =>
    have hc : ∀ i, c.getD (i + 1) 0 = c.tail.getD i 0 := fun i => by cases c <;> rfl
    have h0 : c.getD 0 0 = c.headD 0 := by cases c <;> rfl
    rw [laSum_cons, ih, List.length_cons, Finset.sum_range_succ', Finset.mul_sum, add_comm]
    simp only [List.getD_cons_succ, List.getD_cons_zero, hc, h0]
    congr 1
    · exact Finset.sum_congr rfl fun i _ => by ring
    · ring

/-! What an operation adds to a long accumulator (R88, R89, R413). -/

/-- A long accumulator of ten segments and ten pending carries (R86). -/
def LA.Ten (a : LA) : Prop := a.d.length = 10 ∧ a.c.length = 10
/-- From a to b the sum has grown by k modulo 2^640; status and low are as they were. -/
structure LA.Grows (k : Int) (a b : LA) : Prop where
  ten : b.Ten
  rest : b = { a with d := b.d, c := b.c }
  sum : laSum b.d b.c ≡ laSum a.d a.c + k [ZMOD segBase ^ 10]

theorem LA.Grows.refl {a : LA} (h : a.Ten) : LA.Grows 0 a a := ⟨h, rfl, by rw [add_zero]⟩
theorem LA.Grows.trans {a b c : LA} {k l : Int} (h : LA.Grows k a b) (h' : LA.Grows l b c) : LA.Grows (k + l) a c where
  ten := h'.ten
  rest := by rw [h'.rest, h.rest]
  sum := by rw [← add_assoc]; exact h'.sum.trans (h.sum.add_right l)
theorem LA.Grows.of_eq {a b : LA} {k l : Int} (h : LA.Grows k a b) (hk : k = l) : LA.Grows l a b := hk ▸ h
/-- Segments and carries whose sum has grown by k. -/
theorem LA.grows_of_sum {a : LA} {d : List (BitVec 64)} {c : List Int} {k : Int} (hd : d.length = 10) (hc : c.length = 10)
    (h : laSum d c = laSum a.d a.c + k) : LA.Grows k a { a with d := d, c := c } := ⟨⟨hd, hc⟩, rfl, by rw [h]⟩

/-- A carry out of the last segment is a multiple of 2^640. -/
theorem carry_out_grows {a : LA} (h : a.Ten) (e : Int) : LA.Grows (e * segBase ^ (9 + 1)) a a :=
  ⟨h, rfl, by simp [Int.modEq_iff_dvd]⟩

/-- carry_in adds its carry at the weight of the next segment, whether the carry stays pending or is resolved (R413). -/
theorem carryIn_grows (f : Nat) {a : LA} (h : a.Ten) {i : Nat} (hi : i ≤ 9) (hf : 10 ≤ i + f) (e : Int) :
    LA.Grows (e * segBase ^ (i + 1)) a (carryIn f a i e) := by
  induction f generalizing a i e with
  | zero => omega
  | succ f ih =>
    obtain ⟨hd, hc⟩ := h
    rw [carryIn]
    split
    · next h9 => exact h9 ▸ carry_out_grows ⟨hd, hc⟩ e
    · next h9 =>
      have hi9 : i < 9 := lt_of_le_of_ne hi h9
      generalize hs : a.c.getD i 0 + e = c
      dsimp only
      split
      · refine LA.grows_of_sum hd (by rw [List.length_set, hc]) ?_
        rw [laSum_set_carry _ _ (by omega) (by omega), ← hs, add_sub_cancel_left]
      · generalize ht : ((a.d.getD (i + 1) 0).toNat : Int) + c = t
        have hmod : ((BitVec.ofInt 64 t).toNat : Int) = t - t / (2 ^ 64 : Nat) * segBase := by
          rw [BitVec.toNat_ofInt, Int.toNat_of_nonneg (Int.emod_nonneg _ (by decide)), Int.emod_def, mul_comm, segBase_eq]
        have hstep : LA.Grows ((e * segBase ^ (i + 1)) - t / (2 ^ 64 : Nat) * segBase ^ (i + 1 + 1)) a
            { a with c := a.c.set i 0, d := a.d.set (i + 1) (BitVec.ofInt 64 t) } := by
          refine LA.grows_of_sum (by rw [List.length_set, hd]) (by rw [List.length_set, hc]) ?_
          rw [laSum_set_segment _ _ (by omega), laSum_set_carry _ _ (by omega) (by omega), hmod, ← ht, ← hs]
          ring
        exact (hstep.trans (ih hstep.ten (by omega) (by omega) _)).of_eq (by ring)

/-- Steps that each add their part add the sum of the parts. -/
theorem LA.Grows.foldl {f : LA → Nat → LA} {k : Nat → Int} (hf : ∀ a i, a.Ten → i < 10 → LA.Grows (k i) a (f a i)) {a : LA} (h : a.Ten) {n : Nat}
    (hn : n ≤ 10) : LA.Grows (∑ i ∈ Finset.range n, k i) a ((List.range n).foldl f a) := by
  induction n with
  | zero => exact .refl h
  | succ n ih =>
    have hprev := ih (by omega)
    rw [List.range_succ, List.foldl_append, Finset.sum_range_succ]
    exact hprev.trans (hf _ n hprev.ten (by omega))
/-- One segment of an addition adds its word at the segment's weight (R413). -/
theorem laSegment_grows {a : LA} (h : a.Ten) {i : Nat} (hi : i < 10) (k : BitVec 64) : LA.Grows (k.toNat * segBase ^ i) a (laSegment a i k) := by
  obtain ⟨hd, hc⟩ := h
  generalize ht : (a.d.getD i 0).toNat + k.toNat = t
  have hmod : ((BitVec.ofNat 64 t).toNat : Int) = t - (t / 2 ^ 64 : Nat) * segBase := by
    rw [BitVec.toNat_ofNat, segBase_eq]
    omega
  have hstep : LA.Grows (k.toNat * segBase ^ i - (t / 2 ^ 64 : Nat) * segBase ^ (i + 1)) a { a with d := a.d.set i (BitVec.ofNat 64 t) } := by
    refine LA.grows_of_sum (by rw [List.length_set, hd]) hc ?_
    rw [laSum_set_segment _ _ (by omega), hmod, ← ht]
    push_cast
    ring
  simp only [laSegment, ht]
  exact (hstep.trans (carryIn_grows 10 hstep.ten (by omega) (by omega) _)).of_eq (by ring)
theorem laAddDigits_grows {a : LA} (h : a.Ten) (ks : List (BitVec 64)) :
    LA.Grows (∑ i ∈ Finset.range 10, ((ks.getD i 0).toNat : Int) * segBase ^ i) a (laAddDigits a ks) :=
  .foldl (fun _ _ h hi => laSegment_grows h hi _) h le_rfl

/-! The segments of an integer, and the normal form (R90). -/

theorem sum_digits (b n l : Nat) : ∑ i ∈ Finset.range n, l / b ^ i % b * b ^ i = l % b ^ n := by
  induction n with
  | zero => simp [Nat.mod_one]
  | succ n ih => rw [Finset.sum_range_succ, ih, pow_succ, Nat.mod_mul, mul_comm]
@[simp] theorem laDigits_length (n l : Nat) : (laDigits n l).length = n := by simp [laDigits]
theorem getD_laDigits {n i : Nat} (h : i < n) (l : Nat) : ((laDigits n l).getD i 0).toNat = l / (2 ^ 64) ^ i % 2 ^ 64 := by
  rw [laDigits, List.getD_eq_getElem _ _ (by simpa using h), List.getElem_map, List.getElem_range, BitVec.toNat_ofNat, pow_mul]
/-- The ten segments of an integer below 2^640 add up to it. -/
theorem sum_getD_laDigits {l : Nat} (h : l < 2 ^ 640) : ∑ i ∈ Finset.range 10, (((laDigits 10 l).getD i 0).toNat : Int) * segBase ^ i = l := by
  calc ∑ i ∈ Finset.range 10, (((laDigits 10 l).getD i 0).toNat : Int) * segBase ^ i
      = ((∑ i ∈ Finset.range 10, l / (2 ^ 64) ^ i % 2 ^ 64 * (2 ^ 64) ^ i : Nat) : Int) := by
        rw [Nat.cast_sum]
        refine Finset.sum_congr rfl fun i hi => ?_
        rw [getD_laDigits (Finset.mem_range.mp hi), segBase_eq, Nat.cast_mul, Nat.cast_pow (2 ^ 64)]
    _ = l := by rw [sum_digits, ← pow_mul, Nat.mod_eq_of_lt h]
theorem laSum_laDigits {l : Nat} (h : l < 2 ^ 640) : laSum (laDigits 10 l) (List.replicate 10 0) = l := by
  rw [laSum_eq_sum, laDigits_length, ← sum_getD_laDigits h]
  refine Finset.sum_congr rfl fun i hi => ?_
  rw [List.getD_replicate _ (Finset.mem_range.mp hi), zero_mul, add_zero]

theorem emod_nonneg_640 (z : Int) : 0 ≤ z % (2 ^ 640 : Nat) := Int.emod_nonneg _ (by positivity)
theorem toNat_emod_640_lt (z : Int) : (z % (2 ^ 640 : Nat)).toNat < 2 ^ 640 :=
  (Int.toNat_lt (emod_nonneg_640 z)).mpr (Int.emod_lt_of_pos _ (by positivity))
theorem laValue_cast (a : LA) : (laValue a : Int) = laSum a.d a.c % (2 ^ 640 : Nat) := Int.toNat_of_nonneg (emod_nonneg_640 _)
theorem laValue_lt (a : LA) : laValue a < 2 ^ 640 := toNat_emod_640_lt _
theorem laNorm_ten (a : LA) : (laNorm a).Ten := ⟨laDigits_length .., List.length_replicate⟩
/-- The normal form has the value of its accumulator (R90). -/
theorem laValue_laNorm (a : LA) : laValue (laNorm a) = laValue a := by
  have h := laValue_cast (laNorm a)
  rw [laNorm, laSum_laDigits (laValue_lt a), ← Int.natCast_mod, Nat.mod_eq_of_lt (laValue_lt a)] at h
  exact Int.ofNat.inj h

/-- What has grown by k has the value grown by k, modulo 2^640. -/
theorem LA.Grows.value {a b : LA} {k : Int} (h : LA.Grows k a b) : (laValue b : Int) = (laValue a + k) % (2 ^ 640 : Nat) := by
  rw [laValue_cast, laValue_cast, Int.emod_add_emod, ← segBase_pow_ten]
  exact h.sum
/-- A contribution's integer, of either sign, is added by the segments of its residue (R88, R413). -/
theorem laAddDigits_grows_int {a : LA} (h : a.Ten) (z : Int) : LA.Grows z a (laAddDigits a (laDigits 10 (z % (2 ^ 640 : Nat)).toNat)) := by
  have hg := laAddDigits_grows h (laDigits 10 (z % (2 ^ 640 : Nat)).toNat)
  rw [sum_getD_laDigits (toNat_emod_640_lt z), Int.toNat_of_nonneg (emod_nonneg_640 z), ← segBase_pow_ten] at hg
  rw [← segBase_pow_ten]
  exact ⟨hg.ten, hg.rest, hg.sum.trans ((Int.mod_modEq _ _).add_left _)⟩

/-- The status and low of a merge (R89). -/
def mergeStatus (a b : LA) : LA :=
  { a with n := a.n || b.n, p := a.p || b.p, m := a.m || b.m, x := a.x || b.x, low := BitVec.ofNat 32 (min a.low.toNat b.low.toNat) }
/-- A merge's two passes, over segments and over carries, add the sum of the other accumulator (R89, R413). -/
theorem laMerge_grows {a b : LA} (ha : a.Ten) (hb : b.Ten) : LA.Grows (laSum b.d b.c) (mergeStatus a b) (laMerge a b) := by
  have hd := laAddDigits_grows (show (mergeStatus a b).Ten from ha) b.d
  have hc := LA.Grows.foldl (k := fun i => b.c.getD i 0 * segBase ^ (i + 1))
    (fun a i (h : a.Ten) hi => carryIn_grows 10 h (Nat.le_of_lt_succ hi) (by omega) (b.c.getD i 0)) hd.ten le_rfl
  exact (hd.trans hc).of_eq (by rw [laSum_eq_sum, hb.1, Finset.sum_add_distrib])

/-! What a long accumulator shows of its contributions (R87, R90): all but the carry state. -/

/-- The value, the status bits and low of a long accumulator, or of what is put into one. -/
structure LASeen where
  value : Nat
  n : Bool
  p : Bool
  m : Bool
  x : Bool
  low : Nat
/-- Two of them together: the sum modulo 2^640, the bits of either, the smaller low. -/
def LASeen.join (a b : LASeen) : LASeen :=
  ⟨(a.value + b.value) % 2 ^ 640, a.n || b.n, a.p || b.p, a.m || b.m, a.x || b.x, min a.low b.low⟩
/-- What a long accumulator shows. -/
def laSeen (a : LA) : LASeen := ⟨laValue a, a.n, a.p, a.m, a.x, a.low.toNat⟩
/-- A finite integer put in; an inexact one leaves its mark (R88). -/
def seenInt (z : Int) (exact : Bool) : LASeen := ⟨(z % (2 ^ 640 : Nat)).toNat, false, false, false, !exact, 2 ^ 32⟩
/-- A non-finite value put in by a rank (R88). -/
def seenNote (n p m : Bool) (rank : Nat) : LASeen := ⟨0, n, p, m, false, rank⟩
/-- What a contribution puts in (R88). -/
def seenOf (v : FVal) (rank : Nat) : LASeen :=
  match v with
  | .nan => seenNote true false false rank
  | .inf s => seenNote false (!s) s rank
  | .fin s num exp =>
    if num = 0 then seenInt 0 true
    else if 319 ≤ (Nat.log2 num : Int) + exp then seenNote false (!s) s rank
    else
      let k := roundUnit s 0 num exp laUnit
      seenInt (if s then -(k : Int) else k) (decide (laUnit ≤ exp) || num % pow2 (laUnit - exp) == 0)

theorem LASeen.join_comm (a b : LASeen) : a.join b = b.join a := by
  simp only [join, Nat.add_comm, Bool.or_comm, Nat.min_comm]
theorem LASeen.join_assoc (a b c : LASeen) : (a.join b).join c = a.join (b.join c) := by
  simp only [join, Nat.mod_add_mod, Nat.add_mod_mod, Nat.add_assoc, Bool.or_assoc, Nat.min_assoc]

theorem laStatus_inj {a b : LA} : laStatus a = laStatus b ↔ a.n = b.n ∧ a.p = b.p ∧ a.m = b.m ∧ a.x = b.x := by
  simp only [laStatus]
  generalize a.n = n, a.p = p, a.m = m, a.x = x, b.n = n', b.p = p', b.m = m', b.x = x'
  revert n p m x n' p' m' x'
  decide
/-- Two accumulators show the same just when value, status byte and low agree. -/
theorem laSeen_inj {a b : LA} : laSeen a = laSeen b ↔ laValue a = laValue b ∧ laStatus a = laStatus b ∧ a.low = b.low := by
  simp only [laSeen, LASeen.mk.injEq, laStatus_inj, BitVec.toNat_inj, and_assoc]

/-- What has grown by k shows k put in. -/
theorem LA.Grows.seen {a b : LA} {k : Int} (h : LA.Grows k a b) : laSeen b = (laSeen a).join (seenInt k true) := by
  have hv : laValue b = (laValue a + (k % (2 ^ 640 : Nat)).toNat) % 2 ^ 640 := by
    rw [← Nat.cast_inj (R := Int), h.value, Int.natCast_mod, Nat.cast_add, Int.toNat_of_nonneg (emod_nonneg_640 k), Int.add_emod_emod]
  have hlow : min a.low.toNat (2 ^ 32) = a.low.toNat := min_eq_left a.low.isLt.le
  rw [laSeen, hv, h.rest]
  simp only [laSeen, seenInt, LASeen.join, Bool.not_true, Bool.or_false, hlow]
theorem toNat_min_low (a : LA) (r : Nat) : (BitVec.ofNat 32 (min a.low.toNat r)).toNat = min a.low.toNat r :=
  by
  rw [BitVec.toNat_ofNat, Nat.mod_eq_of_lt ((min_le_left ..).trans_lt a.low.isLt)]
/-- A non-finite contribution sets its bit and lowers low to its rank (R88). -/
theorem laSeen_laNote (a : LA) (n p m : Bool) (rank : Nat) :
    laSeen (laNote { a with n := a.n || n, p := a.p || p, m := a.m || m } rank) = (laSeen a).join (seenNote n p m rank) := by
  have hv : (laValue a + 0) % 2 ^ 640 = laValue a := Nat.mod_eq_of_lt (laValue_lt a)
  simp only [laSeen, LASeen.join, seenNote, hv, laNote, toNat_min_low, Bool.or_false]
  rfl
theorem laNote_inf (a : LA) (s : Bool) (rank : Nat) : laNote (if s then { a with m := true } else { a with p := true }) rank =
    laNote { a with n := a.n || false, p := a.p || !s, m := a.m || s } rank := by cases s <;> simp
/-- An inexact contribution leaves its mark beside what it puts in (R88). -/
theorem laSeen_inexact {a b : LA} {z : Int} (h : laSeen b = (laSeen a).join (seenInt z true)) :
    laSeen { b with x := true } = (laSeen a).join (seenInt z false) := by
  calc laSeen { b with x := true } = { laSeen b with x := true } := rfl
    _ = (laSeen a).join (seenInt z false) := by rw [h]; simp only [LASeen.join, seenInt, Bool.not_false, Bool.or_true]
/-- A contribution puts in what its value and rank say, whatever the carry state (R88, R90). -/
theorem laSeen_laAdd {a : LA} (h : a.Ten) (v : FVal) (rank : Nat) : laSeen (laAdd a v rank) = (laSeen a).join (seenOf v rank) := by
  cases v with
  | nan =>
    have := laSeen_laNote a true false false rank
    rwa [Bool.or_true, Bool.or_false, Bool.or_false] at this
  | inf s => rw [laAdd, laNote_inf, laSeen_laNote, seenOf]
  | fin s num exp =>
    rw [laAdd, seenOf]
    split
    · exact (LA.Grows.refl h).seen
    split
    · rw [laNote_inf, laSeen_laNote]
    · dsimp only
      generalize (if s then -(roundUnit s 0 num exp laUnit : Int) else roundUnit s 0 num exp laUnit) = z
      have hg := (laAddDigits_grows_int h z).seen
      generalize laAddDigits a _ = b at hg ⊢
      cases decide (laUnit ≤ exp) || num % pow2 (laUnit - exp) == 0
      · exact laSeen_inexact hg
      · exact hg
theorem laSeen_laMerge {a b : LA} (ha : a.Ten) (hb : b.Ten) : laSeen (laMerge a b) = (laSeen a).join (laSeen b) := by
  have hle : min (min a.low.toNat b.low.toNat) (2 ^ 32) = min a.low.toNat b.low.toNat := min_eq_left ((min_le_left ..).trans a.low.isLt.le)
  rw [(laMerge_grows ha hb).seen]
  simp only [laSeen, mergeStatus, seenInt, LASeen.join, toNat_min_low, Bool.not_true, Bool.or_false, hle]
  rfl

/-! The segments and carries stay ten. -/

theorem laAdd_ten {a : LA} (h : a.Ten) (v : FVal) (rank : Nat) : (laAdd a v rank).Ten := by
  cases v with
  | nan => exact h
  | inf s => cases s <;> exact h
  | fin s num exp =>
    rw [laAdd]
    split
    · exact h
    split
    · cases s <;> exact h
    · have hx : ∀ b : LA, b.Ten → LA.Ten { b with x := true } := fun _ hb => hb
      dsimp only
      split
      · exact (laAddDigits_grows_int h _).ten
      · exact hx _ (laAddDigits_grows_int h _).ten
theorem laMerge_ten {a b : LA} (ha : a.Ten) (hb : b.Ten) : (laMerge a b).Ten := (laMerge_grows ha hb).ten

end Sys2Proof.Machine
end

section
/-! PROOFS. Number formats (family 04): contributions, merges and their order, and the record of a long accumulator. -/

namespace Sys2Proof.Machine
open Sys2Proof

/-! Many contributions (R90). -/

/-- A list of contributions, put in one after the other. -/
def laFold (a : LA) (l : List (FVal × Nat)) : LA := l.foldl (fun x e => laAdd x e.1 e.2) a
/-- What a list of contributions puts into what is there. -/
def LASeen.joinAll (t : LASeen) (l : List (FVal × Nat)) : LASeen := (l.map fun e => seenOf e.1 e.2).foldl join t

theorem laFold_ten {a : LA} (h : a.Ten) (l : List (FVal × Nat)) : (laFold a l).Ten := by
  induction l generalizing a with
  | nil => exact h
  | cons e l ih => exact ih (laAdd_ten h ..)
theorem laSeen_laFold {a : LA} (h : a.Ten) (l : List (FVal × Nat)) : laSeen (laFold a l) = (laSeen a).joinAll l := by
  induction l generalizing a with
  | nil => rfl
  | cons e l ih =>
    refine (ih (laAdd_ten h ..)).trans ?_
    rw [laSeen_laAdd h]
    rfl
theorem LASeen.joinAll_perm {l k : List (FVal × Nat)} (h : l.Perm k) (t : LASeen) : t.joinAll l = t.joinAll k :=
  (h.map _).foldl_eq' (fun a _ b _ t => by rw [join_assoc, join_assoc, join_comm a b]) t
theorem LASeen.joinAll_append (t : LASeen) (l k : List (FVal × Nat)) : t.joinAll (l ++ k) = (t.joinAll l).joinAll k := by
  simp only [joinAll, List.map_append, List.foldl_append]
/-- What is there already may be put in first or last. -/
theorem LASeen.join_joinAll (a t : LASeen) (l : List (FVal × Nat)) : a.join (t.joinAll l) = (a.join t).joinAll l := by
  simp only [joinAll]
  induction l.map fun e => seenOf e.1 e.2 generalizing t with
  | nil => rfl
  | cons e l ih => rw [List.foldl_cons, ih, ← join_assoc, List.foldl_cons]
theorem laZero_ten : LA.zero.Ten := ⟨rfl, rfl⟩
theorem laValue_zero : laValue LA.zero = 0 := by
  have h : laSum LA.zero.d LA.zero.c = 0 := rfl
  rw [laValue, h, Int.zero_emod, Int.toNat_zero]
/-- An empty accumulator puts nothing in. -/
theorem join_laSeen_zero (a : LA) : (laSeen a).join (laSeen LA.zero) = laSeen a := by
  have hv : (laValue a + laValue LA.zero) % 2 ^ 640 = laValue a := by rw [laValue_zero, Nat.add_zero, Nat.mod_eq_of_lt (laValue_lt a)]
  have hlow : min a.low.toNat LA.zero.low.toNat = a.low.toNat := min_eq_left (Nat.le_of_lt_succ a.low.isLt)
  simp only [laSeen, LASeen.join, hv, hlow]
  simp only [LA.zero, Bool.or_false]
theorem laSeen_laNorm (a : LA) : laSeen (laNorm a) = laSeen a := by
  rw [laSeen, laValue_laNorm]
  rfl
theorem laNorm_eq_of_value {a b : LA} (h : laValue a = laValue b) : (laNorm a).d = (laNorm b).d ∧ (laNorm a).c = (laNorm b).c := by
  simp only [laNorm, h, and_self]

/-- Settles O35: a merge shows what its two accumulators show together. -/
theorem longAccumulatorMerge : Obligations.LongAccumulatorMerge := by
  intro a b had hac hbd hbc
  exact LASeen.mk.inj (laSeen_laMerge ⟨had, hac⟩ ⟨hbd, hbc⟩)

/-- Settles O36: what accumulators show is joined by an operation that is associative and commutative, whatever their carry states. -/
theorem longAccumulatorOrder : Obligations.LongAccumulatorOrder := by
  intro a b vs ws had hac hbd hbc same fold
  have ha : a.Ten := ⟨had, hac⟩
  have hb : b.Ten := ⟨hbd, hbc⟩
  have merged : ∀ {c d : LA}, c.Ten → d.Ten →
      laSeen (laMerge (laFold c vs) (laFold d ws)) = ((laSeen c).join (laSeen d)).joinAll (vs ++ ws) := fun {c d} hc hd => by
    rw [laSeen_laMerge (laFold_ten hc _) (laFold_ten hd _), laSeen_laFold hc, laSeen_laFold hd, LASeen.join_joinAll, LASeen.join_comm _ (laSeen d),
      LASeen.join_joinAll, LASeen.join_comm, LASeen.joinAll_append]
  refine ⟨fun hp => laSeen_inj.mp ?_, laSeen_inj.mp ?_, laSeen_inj.mp ?_, laSeen_inj.mp ?_, laSeen_inj.mp (laSeen_laNorm a), laNorm_eq_of_value⟩
  · exact (laSeen_laFold ha vs).trans ((LASeen.joinAll_perm hp _).trans (laSeen_laFold ha ws).symm)
  · refine (merged ha hb).trans ?_
    rw [← laSeen_laMerge ha hb]
    exact (laSeen_laFold (laMerge_ten ha hb) _).symm
  · refine (merged ha laZero_ten).trans ?_
    rw [join_laSeen_zero]
    exact (laSeen_laFold ha _).symm
  · rw [laSeen_laMerge ha hb, laSeen_laMerge hb ha, LASeen.join_comm]

/-! The value of a contribution on the grid (R85, R88). -/

/-- A finite contribution on the grid and in range adds its integer. -/
theorem laAdd_grows {a : LA} (h : a.Ten) (neg : Bool) {num : Nat} (rank : Nat) {exp : Int} (h0 : num ≠ 0) (hlo : -320 ≤ exp)
    (hhi : (Nat.log2 num : Int) + exp < 319) :
    let k : Int := num * 2 ^ (exp + 320).toNat
    LA.Grows (if neg then -k else k) a (laAdd a (.fin neg num exp) rank) := by
  intro k
  have hk : (roundUnit neg 0 num exp laUnit : Int) = k := by
    rw [roundUnit, laUnit, if_pos hlo, pow2, sub_neg_eq_add, Nat.cast_mul, Nat.cast_pow]
    rfl
  have hexact : (decide (laUnit ≤ exp) || num % pow2 (laUnit - exp) == 0) = true := by simp [laUnit, hlo]
  have hadd : laAdd a (.fin neg num exp) rank = laAddDigits a (laDigits 10 ((if neg then -k else k) % (2 ^ 640 : Nat)).toNat) := by
    rw [laAdd, if_neg h0, if_neg (not_le.mpr hhi), ← hk]
    exact if_pos hexact
  rw [hadd]
  exact laAddDigits_grows_int h _

/-! The record (R91, R92). -/

theorem fieldAt_append_left {l r : List Byte} {off n : Nat} (h : off + n ≤ l.length) : fieldAt (l ++ r) off n = fieldAt l off n := by
  rw [fieldAt, fieldAt, List.drop_append_of_le_length (by omega), List.take_append_of_le_length (by rw [List.length_drop]; omega)]
theorem fieldAt_append_right (l r : List Byte) (off n : Nat) : fieldAt (l ++ r) (l.length + off) n = fieldAt r off n := by
  rw [fieldAt, fieldAt, List.drop_length_add_append]
theorem fieldAt_leBytes (n v : Nat) : fieldAt (leBytes n v) 0 n = v % 256 ^ n := by
  rw [fieldAt, List.drop_zero, List.take_of_length_le (leBytes_length n v).le, ofLe_leBytes]
/-- The bytes of the segments, one after the other. -/
def segmentBytes (d : List (BitVec 64)) : List Byte := d.flatMap fun d => leBytes 8 d.toNat
theorem segmentBytes_length (d : List (BitVec 64)) : (segmentBytes d).length = 8 * d.length := by
  simp [segmentBytes, List.length_flatMap, mul_comm]
theorem fieldAt_segmentBytes {d : List (BitVec 64)} {i : Nat} (h : i < d.length) : fieldAt (segmentBytes d) (8 * i) 8 = d[i].toNat := by
  induction d generalizing i with
  | nil => cases h
  | cons x r ih =>
    rw [segmentBytes, List.flatMap_cons]
    cases i with
    | zero =>
      rw [fieldAt_append_left (by simp), mul_zero, fieldAt_leBytes]
      exact Nat.mod_eq_of_lt x.isLt
    | succ i =>
      rw [show 8 * (i + 1) = (leBytes 8 x.toNat).length + 8 * i by rw [leBytes_length]; omega, fieldAt_append_right]
      exact ih (Nat.lt_of_succ_lt_succ h)

/-- The record behind its segments and carries: status, low and zeros. -/
def recordTail (a : LA) : List Byte := laStatus a :: (List.replicate 5 0 ++ leBytes 4 a.low.toNat ++ List.replicate 28 0)
theorem laBytes_eq (a : LA) : laBytes a = segmentBytes a.d ++ (a.c.map (BitVec.ofInt 8) ++ recordTail a) := by
  simp [laBytes, segmentBytes, recordTail]
theorem fieldAt_recordTail (a : LA) : fieldAt (recordTail a) 6 4 = a.low.toNat := by
  have h : recordTail a = (laStatus a :: List.replicate 5 0) ++ (leBytes 4 a.low.toNat ++ List.replicate 28 0) := by simp [recordTail]
  rw [h, show 6 = (laStatus a :: List.replicate 5 (0 : Byte)).length + 0 from rfl, fieldAt_append_right, fieldAt_append_left (by simp), fieldAt_leBytes]
  exact Nat.mod_eq_of_lt a.low.isLt
theorem toInt_ofInt_carry {e : Int} (h : -128 ≤ e ∧ e ≤ 127) : (BitVec.ofInt 8 e).toInt = e := by
  rw [BitVec.toInt_ofInt]
  exact Int.bmod_eq_of_le (by omega) (by omega)
theorem laStatus_bits (a : LA) : (laStatus a).getLsbD 0 = a.n ∧ (laStatus a).getLsbD 1 = a.p ∧ (laStatus a).getLsbD 2 = a.m ∧ (laStatus a).getLsbD 3 = a.x := by
  simp only [laStatus]
  generalize a.n = n, a.p = p, a.m = m, a.x = x
  revert n p m x
  decide

section
variable {a : LA} (h : a.Ten)
include h

theorem laBytes_length : (laBytes a).length = 128 := by
  obtain ⟨hd, hc⟩ := h
  rw [laBytes_eq, List.length_append, List.length_append, segmentBytes_length, List.length_map, hd, hc]
  rfl
theorem fieldAt_laBytes_segment {i : Nat} (hi : i < 10) : fieldAt (laBytes a) (8 * i) 8 = (a.d[i]'(h.1.symm ▸ hi)).toNat := by
  rw [laBytes_eq, fieldAt_append_left (by rw [segmentBytes_length, h.1]; omega)]
  exact fieldAt_segmentBytes _
/-- Past the segments. -/
theorem getD_laBytes (i : Nat) : (laBytes a).getD (80 + i) 0 = (a.c.map (BitVec.ofInt 8) ++ recordTail a).getD i 0 := by
  have hl : (segmentBytes a.d).length = 80 := by rw [segmentBytes_length, h.1]
  rw [laBytes_eq, List.getD_append_right _ _ _ _ (by omega), hl, Nat.add_sub_cancel_left]
theorem getD_laBytes_carry {i : Nat} (hi : i < 10) : (laBytes a).getD (80 + i) 0 = BitVec.ofInt 8 (a.c[i]'(h.2.symm ▸ hi)) := by
  have hl : i < (a.c.map (BitVec.ofInt 8)).length := by rw [List.length_map, h.2]; exact hi
  rw [getD_laBytes h, List.getD_append _ _ _ _ hl, List.getD_eq_getElem _ _ hl, List.getElem_map]
theorem getD_laBytes_status : (laBytes a).getD 90 0 = laStatus a := by
  have hl : (a.c.map (BitVec.ofInt 8)).length = 10 := by rw [List.length_map, h.2]
  rw [show 90 = 80 + 10 from rfl, getD_laBytes h, List.getD_append_right _ _ _ _ hl.le, hl]
  rfl
theorem fieldAt_laBytes_low : fieldAt (laBytes a) 96 4 = a.low.toNat := by
  have hl : (segmentBytes a.d ++ a.c.map (BitVec.ofInt 8)).length = 90 := by
    rw [List.length_append, segmentBytes_length, List.length_map, h.1, h.2]
  rw [laBytes_eq, ← List.append_assoc, show 96 = 90 + 6 from rfl, ← hl, fieldAt_append_right, fieldAt_recordTail]
/-- A record gives its accumulator back (R92). -/
theorem laOfBytes_laBytes (hc : ∀ e ∈ a.c, -128 ≤ e ∧ e ≤ 127) : laOfBytes (laBytes a) = a := by
  have hd : (List.range 10).map (fun i => BitVec.ofNat 64 (fieldAt (laBytes a) (8 * i) 8)) = a.d := by
    refine List.ext_getElem (by simp [h.1]) fun i hi _ => ?_
    rw [List.getElem_map, List.getElem_range, fieldAt_laBytes_segment h (by simpa using hi), BitVec.ofNat_toNat, BitVec.setWidth_eq]
  have hcs : (List.range 10).map (fun i => ((laBytes a).getD (80 + i) 0).toInt) = a.c := by
    refine List.ext_getElem (by simp [h.2]) fun i hi _ => ?_
    rw [List.getElem_map, List.getElem_range, getD_laBytes_carry h (by simpa using hi), toInt_ofInt_carry (hc _ (List.getElem_mem _))]
  obtain ⟨hn, hp, hm, hx⟩ := laStatus_bits a
  simp only [laOfBytes, hd, hcs, getD_laBytes_status h, hn, hp, hm, hx, fieldAt_laBytes_low h, BitVec.ofNat_toNat, BitVec.setWidth_eq]
end

/-- Settles O34: a contribution on the grid is added by its segments, and each field of a record is read back from its bytes. -/
theorem longAccumulatorValues : Obligations.LongAccumulatorValues := by
  intro a had hac
  have h : a.Ten := ⟨had, hac⟩
  refine ⟨fun neg num rank exp h0 hlo hhi => ?_, laOfBytes_laBytes h⟩
  intro r k
  have hg : LA.Grows (if neg then -k else k) a r := laAdd_grows h neg rank h0 hlo hhi
  refine ⟨hg.value, ?_⟩
  rw [hg.rest]
  exact ⟨rfl, rfl, rfl, rfl, rfl⟩

end Sys2Proof.Machine
end

section
/-! PROOFS. Number formats (family 04): one issue of a floating-point lane instruction. -/

namespace Sys2Proof.Machine
open Sys2Proof

/-! One issue at 32 or 64 bits (R210 to R212). -/

section
variable {s : State} {g : Nat} (h : LaneRuns s g)
include h

theorem fpBin_runs (x : FpBin) (f : Nat → FVal → FVal → FVal) :
    let y := group s g
    let j := y.lane.rep
    let n := if x.dbl then 2 else 1
    let v := fpVal x.dbl x.ftz
    Below s g (regs x.dbl x.d x.c.stepD j ++ (regs x.dbl x.a x.c.stepA j ++ srcRegs x.dbl x.b x.c.stepB j)) [] →
    fpBin f x s = .next (laneNext s g (putWide y x.dbl (regNo x.d x.c.stepD n j) (execLanes y x.c.pred x.c.neg)
      (List.zipWith (fun a b => fpRound x.dbl x.mode x.sat x.ftz (f x.mode.toNat (v a) (v b))) (vsrc y x.dbl (regNo x.a x.c.stepA n j))
        (srcFloat y x.dbl x.b x.c.stepB j))) x.c.rep.toNat) := by
  intro y j n v hb
  simp only [fpBin, h.repNow, regs_headD]
  exact laneOp_runs h x.c hb rfl fun _ _ => putWide_lane ..
theorem fpTern_runs (x : FpTern) (f : Nat → FVal → FVal → FVal → FVal) :
    let y := group s g
    let j := y.lane.rep
    let n := if x.dbl then 2 else 1
    let v := fpVal x.dbl x.ftz
    Below s g (regs x.dbl x.d x.c.stepD j ++ (regs x.dbl x.a x.c.stepA j ++ srcRegs x.dbl x.b x.c.stepB j ++ regs x.dbl x.e x.c.stepC j)) [] →
    fpTern f x s = .next (laneNext s g (putWide y x.dbl (regNo x.d x.c.stepD n j) (execLanes y x.c.pred x.c.neg)
      (List.zipWith (fun (q : Word × Word) c => fpRound x.dbl x.mode x.sat x.ftz (f x.mode.toNat (v q.1) (v q.2) (v c)))
        (List.zip (vsrc y x.dbl (regNo x.a x.c.stepA n j)) (srcFloat y x.dbl x.b x.c.stepB j)) (vsrc y x.dbl (regNo x.e x.c.stepC n j)))) x.c.rep.toNat) := by
  intro y j n v hb
  simp only [fpTern, h.repNow, regs_headD]
  exact laneOp_runs h x.c hb rfl fun _ _ => putWide_lane ..
theorem fpSel_runs (x : FpSel) (f : Fmt → Nat → Nat → Nat) :
    let y := group s g
    let j := y.lane.rep
    let n := if x.dbl then 2 else 1
    Below s g (regs x.dbl x.d x.c.stepD j ++ (regs x.dbl x.a x.c.stepA j ++ srcRegs x.dbl x.b x.c.stepB j)) [] →
    fpSel f x s = .next (laneNext s g (putWide y x.dbl (regNo x.d x.c.stepD n j) (execLanes y x.c.pred x.c.neg)
      (List.zipWith (fun (a b : Word) => BitVec.ofNat 64 (f (fpFmt x.dbl) a.toNat b.toNat)) (vsrc y x.dbl (regNo x.a x.c.stepA n j))
        (srcFloat y x.dbl x.b x.c.stepB j))) x.c.rep.toNat) := by
  intro y j n hb
  simp only [fpSel, h.repNow, regs_headD]
  exact laneOp_runs h x.c hb rfl fun _ _ => putWide_lane ..
theorem fpBits_runs (x : FpBits) (f : Fmt → Nat → Nat) :
    let y := group s g
    let j := y.lane.rep
    let n := if x.dbl then 2 else 1
    Below s g (regs x.dbl x.d x.c.stepD j ++ regs x.dbl x.a x.c.stepA j) [] →
    fpBits f x s = .next (laneNext s g (putWide y x.dbl (regNo x.d x.c.stepD n j) (execLanes y x.c.pred x.c.neg)
      ((vsrc y x.dbl (regNo x.a x.c.stepA n j)).map fun (a : Word) => BitVec.ofNat 64 (f (fpFmt x.dbl) a.toNat))) x.c.rep.toNat) := by
  intro y j n hb
  simp only [fpBits, h.repNow, regs_headD]
  exact laneOp_runs h x.c hb rfl fun _ _ => putWide_lane ..

/-! One issue on packed FP16 or BF16 elements (R213). -/

theorem halfBin_runs (x : HBin) (f : Nat → FVal → FVal → FVal) :
    let y := group s g
    let j := y.lane.rep
    let k := halfFmt x.bf
    let m := x.mode.toNat
    Below s g (regs false x.d x.c.stepD j ++ (regs false x.a x.c.stepA j ++ srcRegs false x.b x.c.stepB j)) [] →
    halfBin f x s = .next (laneNext s g (putPacked y 16 (regNo x.d x.c.stepD 1 j) (execNibbles y x.c.pred x.c.neg)
      (List.zipWith (fun a b => joinEl 16 fun i => roundTo k m x.sat (f m (decodeF k (subEl 16 a i)) (decodeF k (subEl 16 b i))))
        (vreg y (regNo x.a x.c.stepA 1 j)) (srcPacked y 16 x.b x.c.stepB j))) x.c.rep.toNat) := by
  intro y j k m hb
  simp only [halfBin, h.repNow, regs_headD]
  exact packedOp_runs h _ x.c hb rfl fun _ _ => putPacked_lane ..
theorem halfSel_runs (x : HSel) (f : Fmt → Nat → Nat → Nat) :
    let y := group s g
    let j := y.lane.rep
    Below s g (regs false x.d x.c.stepD j ++ (regs false x.a x.c.stepA j ++ srcRegs false x.b x.c.stepB j)) [] →
    halfSel f x s = .next (laneNext s g (putPacked y 16 (regNo x.d x.c.stepD 1 j) (execNibbles y x.c.pred x.c.neg)
      (List.zipWith (fun a b => joinEl 16 fun i => f (halfFmt x.bf) (subEl 16 a i) (subEl 16 b i)) (vreg y (regNo x.a x.c.stepA 1 j))
        (srcPacked y 16 x.b x.c.stepB j))) x.c.rep.toNat) := by
  intro y j hb
  simp only [halfSel, h.repNow, regs_headD]
  exact packedOp_runs h _ x.c hb rfl fun _ _ => putPacked_lane ..
theorem halfCmp_runs (x : HCmp) (cc : Nat) :
    let y := group s g
    let j := y.lane.rep
    let k := halfFmt x.bf
    Below s g (regs false x.a x.c.stepA j ++ srcRegs false x.b x.c.stepB j) [] →
    halfCmp cc x s = .next (laneNext s g (putPredBytes y x.d ((execNibbles y x.c.pred x.c.neg).map (packedGate 16))
      (List.zipWith (fun a b => packedBits 16 fun i => cmpF cc (decodeF k (subEl 16 a i)) (decodeF k (subEl 16 b i)))
        (vreg y (regNo x.a x.c.stepA 1 j)) (srcPacked y 16 x.b x.c.stepB j))) x.c.rep.toNat) := by
  intro y j k hb
  simp only [halfCmp, h.repNow, regs_headD]
  exact packedOp_runs h _ x.c hb rfl fun _ _ => putPredBytes_lane ..
theorem halfTern_runs (x : HTern) :
    let y := group s g
    let j := y.lane.rep
    let k := halfFmt x.bf
    let m := x.mode.toNat
    let el := fun (v : LWord) i => decodeF k (subEl 16 v i)
    let ab := List.zip (vreg y (regNo x.a x.c.stepA 1 j)) (srcPacked y 16 x.b x.c.stepB j)
    let c := vreg y (regNo x.e x.c.stepC 1 j)
    Below s g (regs false x.d x.c.stepD j ++ (regs false x.a x.c.stepA j ++ srcRegs false x.b x.c.stepB j ++ regs false x.e x.c.stepC j)) [] →
    execVfmaF16 x s = .next (laneNext s g (putPacked y 16 (regNo x.d x.c.stepD 1 j) (execNibbles y x.c.pred x.c.neg)
      (List.zipWith (fun (p : LWord × LWord) c => joinEl 16 fun i => roundTo k m x.sat (addF m (mulF (el p.1 i) (el p.2 i)) (el c i))) ab c)) x.c.rep.toNat) ∧
    execVdot2 x s = .next (laneNext s g (putLanes y (regNo x.d x.c.stepD 1 j) (execLanes y x.c.pred x.c.neg)
      (List.zipWith (fun (p : LWord × LWord) (c : LWord) => BitVec.ofNat 32 (roundTo f32 m x.sat
        (add3F m (decodeF f32 c.toNat) (mulF (el p.1 0) (el p.2 0)) (mulF (el p.1 1) (el p.2 1))))) ab c)) x.c.rep.toNat) := by
  intro y j k m el ab c hb
  simp only [execVfmaF16, execVdot2, h.repNow, regs_headD]
  exact ⟨packedOp_runs h _ x.c hb rfl fun _ _ => putPacked_lane .., laneOp_runs h x.c hb rfl fun _ _ => putLanes_lane ..⟩
end

end Sys2Proof.Machine
end

section
/-! PROOFS. Number formats (family 04): rounding to an integer. -/

namespace Sys2Proof.Machine
open Sys2Proof

/-! Rounding a magnitude, from its integer part and the fraction beyond it (R74, R75). -/

/-- The integer that a magnitude of integer part q and fraction t rounds to, for a value of the given sign. -/
def roundParts (neg : Bool) (mode q : Nat) (t : ℚ) : Nat :=
  match mode with
  | 0 => if 1 / 2 < t ∨ (t = 1 / 2 ∧ q % 2 = 1) then q + 1 else q
  | 1 => q
  | 2 => if t ≠ 0 ∧ neg = false then q + 1 else q
  | _ => if t ≠ 0 ∧ neg = true then q + 1 else q

theorem roundParts_zero (neg : Bool) (mode q : Nat) : roundParts neg mode q 0 = q := by
  unfold roundParts
  split <;> simp
theorem roundParts_mem (neg : Bool) (mode q : Nat) (t : ℚ) : roundParts neg mode q t = q ∨ roundParts neg mode q t = q + 1 := by
  unfold roundParts
  split
  · exact (ite_eq_or_eq ..).symm
  · exact .inl rfl
  · exact (ite_eq_or_eq ..).symm
  · exact (ite_eq_or_eq ..).symm
/-- A number's low s bits are the fraction of its 2^s-th part. -/
theorem roundShift_eq (neg : Bool) (mode num s : Nat) :
    roundShift neg mode num s = roundParts neg mode (num / 2 ^ s) ((num % 2 ^ s : Nat) / 2 ^ s) := by
  have hp : (0 : ℚ) < 2 ^ s := by positivity
  have hlt : (1 : ℚ) / 2 < (num % 2 ^ s : Nat) / 2 ^ s ↔ 2 ^ s < 2 * (num % 2 ^ s) := by
    rw [div_lt_div_iff₀ two_pos hp, one_mul, mul_comm]
    exact_mod_cast Iff.rfl
  have heq : ((num % 2 ^ s : Nat) : ℚ) / 2 ^ s = 1 / 2 ↔ 2 ^ s = 2 * (num % 2 ^ s) := by
    rw [div_eq_div_iff hp.ne' two_ne_zero, one_mul, mul_comm, eq_comm]
    exact_mod_cast Iff.rfl
  have h0 : ((num % 2 ^ s : Nat) : ℚ) / 2 ^ s ≠ 0 ↔ num % 2 ^ s ≠ 0 := by
    rw [ne_eq, div_eq_zero_iff, or_iff_left hp.ne', Nat.cast_eq_zero]
  simp only [roundShift, roundParts, hlt, heq, h0] <;> rfl
/-- A magnitude in units of 2^q, split into its integer part and the fraction beyond it, and rounded by them. -/
theorem roundUnit_parts (n : Nat) (e q : Int) :
    ∃ (k : Nat) (t : ℚ), (n : ℚ) * 2 ^ (e - q) = k + t ∧ 0 ≤ t ∧ t < 1 ∧ ∀ neg mode, roundUnit neg mode n e q = roundParts neg mode k t := by
  by_cases h : q ≤ e
  · refine ⟨n * pow2 (e - q), 0, ?_, le_rfl, one_pos, fun neg mode => ?_⟩
    · rw [Nat.cast_mul, pow2_cast (by omega), add_zero]
    · rw [roundUnit, if_pos h, roundParts_zero]
  · obtain ⟨s, hs⟩ : ∃ s : Nat, q - e = s := ⟨_, (Int.toNat_of_nonneg (by omega)).symm⟩
    have hp : (0 : ℚ) < 2 ^ s := by positivity
    refine ⟨n / 2 ^ s, (n % 2 ^ s : Nat) / 2 ^ s, ?_, by positivity, ?_, fun neg mode => ?_⟩
    · have hn : (n : ℚ) = 2 ^ s * (n / 2 ^ s : Nat) + (n % 2 ^ s : Nat) := by exact_mod_cast (Nat.div_add_mod n (2 ^ s)).symm
      rw [show e - q = -(s : Int) by omega, zpow_neg, zpow_natCast, ← div_eq_mul_inv, div_eq_iff hp.ne', add_mul, div_mul_cancel₀ _ hp.ne', hn]
      ring
    · rw [div_lt_one hp]
      exact_mod_cast Nat.mod_lt n (by positivity)
    · rw [roundUnit, if_neg h, hs, Int.toNat_natCast, roundShift_eq]

/-- Away from zero: up for a positive value, down for a negative one. -/
theorem roundParts_away {neg : Bool} {mode : Nat} (h : mode = 2 ∧ neg = false ∨ mode = 3 ∧ neg = true) (k : Nat) {t : ℚ} (h0 : 0 ≤ t) (h1 : t < 1) :
    k + t ≤ roundParts neg mode k t ∧ (roundParts neg mode k t : ℚ) < k + t + 1 := by
  have hr : roundParts neg mode k t = if t ≠ 0 then k + 1 else k := by
    obtain ⟨rfl, rfl⟩ | ⟨rfl, rfl⟩ := h <;> simp [roundParts]
  rw [hr]
  split
  · next ht =>
    have hpos : 0 < t := lt_of_le_of_ne h0 ht.symm
    rw [Nat.cast_succ]
    constructor <;> linarith
  · next ht =>
    rw [not_not.mp ht]
    constructor <;> linarith
/-- Towards zero: down for a positive value, up for a negative one. -/
theorem roundParts_toZero {neg : Bool} {mode : Nat} (h : mode = 1 ∨ mode = 2 ∧ neg = true ∨ mode = 3 ∧ neg = false) (k : Nat) (t : ℚ) :
    roundParts neg mode k t = k := by
  obtain rfl | ⟨rfl, rfl⟩ | ⟨rfl, rfl⟩ := h <;> simp [roundParts]
/-- To the nearest, and to the even one of two. -/
theorem roundParts_nearest (neg : Bool) (k : Nat) {t : ℚ} (h0 : 0 ≤ t) (h1 : t < 1) :
    |(k : ℚ) + t - roundParts neg 0 k t| ≤ 1 / 2 ∧ (|(k : ℚ) + t - roundParts neg 0 k t| = 1 / 2 → roundParts neg 0 k t % 2 = 0) := by
  simp only [roundParts]
  split
  · next h =>
    have hd : |(k : ℚ) + t - (k + 1 : Nat)| = 1 - t := by rw [Nat.cast_succ, abs_of_nonpos (by linarith)]; ring
    have hle : 1 / 2 ≤ t := h.elim le_of_lt fun h => h.1.ge
    rw [hd]
    refine ⟨by linarith, fun ht => ?_⟩
    have hodd := (h.resolve_left (by linarith)).2
    omega
  · next h =>
    rw [add_sub_cancel_left, abs_of_nonneg h0]
    refine ⟨not_lt.mp fun hlt => h (.inl hlt), fun ht => ?_⟩
    have heven : ¬ k % 2 = 1 := fun ho => h (.inr ⟨ht, ho⟩)
    omega

/-! The four modes (R74). -/

/-- A value and the integers that it rounds to, by the integer part and the fraction of its magnitude. -/
theorem roundInt_parts (s : Bool) (n : Nat) (e : Int) : ∃ (k : Nat) (t : ℚ), 0 ≤ t ∧ t < 1 ∧
    ratOf s n e = (if s then -(k + t) else k + t) ∧ ∀ mode, roundInt mode s n e = if s then -(roundParts s mode k t : Int) else roundParts s mode k t := by
  obtain ⟨k, t, hk, h0, h1, hr⟩ := roundUnit_parts n e 0
  rw [sub_zero] at hk
  refine ⟨k, t, h0, h1, ?_, fun mode => by rw [roundInt, hr]⟩
  rw [ratOf, mul_assoc, hk]
  cases s <;> simp
theorem roundInt_nearest (s : Bool) (n : Nat) (e : Int) :
    |ratOf s n e - roundInt 0 s n e| ≤ 1 / 2 ∧ (|ratOf s n e - roundInt 0 s n e| = 1 / 2 → roundInt 0 s n e % 2 = 0) := by
  obtain ⟨k, t, h0, h1, hx, hr⟩ := roundInt_parts s n e
  obtain ⟨hle, heven⟩ := roundParts_nearest s k h0 h1
  have habs : |ratOf s n e - roundInt 0 s n e| = |(k : ℚ) + t - roundParts s 0 k t| := by
    rw [hx, hr]
    cases s with
    | false => simp
    | true => simp only [if_true]; push_cast; rw [← abs_neg]; ring_nf
  rw [habs]
  refine ⟨hle, fun h => ?_⟩
  have := heven h
  rw [hr]
  split <;> omega
theorem roundInt_toZero (s : Bool) (n : Nat) (e : Int) :
    |(roundInt 1 s n e : ℚ)| ≤ |ratOf s n e| ∧ |ratOf s n e| < |(roundInt 1 s n e : ℚ)| + 1 ∧ 0 ≤ ratOf s n e * roundInt 1 s n e := by
  obtain ⟨k, t, h0, h1, hx, hr⟩ := roundInt_parts s n e
  have hk : (0 : ℚ) ≤ k := Nat.cast_nonneg k
  have hkt : (0 : ℚ) ≤ k + t := add_nonneg hk h0
  have hprod := mul_nonneg hkt hk
  rw [hx, hr, roundParts_toZero (.inl rfl)]
  cases s with
  | false =>
    simp only [Bool.false_eq_true, if_false, Int.cast_natCast, abs_of_nonneg hk, abs_of_nonneg hkt]
    exact ⟨by linarith, by linarith, hprod⟩
  | true =>
    simp only [if_true, Int.cast_neg, Int.cast_natCast, abs_neg, abs_of_nonneg hk, abs_of_nonneg hkt, neg_mul_neg]
    exact ⟨by linarith, by linarith, hprod⟩
theorem roundInt_up (s : Bool) (n : Nat) (e : Int) : ratOf s n e ≤ roundInt 2 s n e ∧ (roundInt 2 s n e : ℚ) < ratOf s n e + 1 := by
  obtain ⟨k, t, h0, h1, hx, hr⟩ := roundInt_parts s n e
  rw [hx, hr]
  cases s with
  | false => exact roundParts_away (.inl ⟨rfl, rfl⟩) k h0 h1
  | true =>
    simp only [if_true, roundParts_toZero (.inr (.inl ⟨rfl, rfl⟩)), Int.cast_neg, Int.cast_natCast]
    constructor <;> linarith
theorem roundInt_down (s : Bool) (n : Nat) (e : Int) : (roundInt 3 s n e : ℚ) ≤ ratOf s n e ∧ ratOf s n e < roundInt 3 s n e + 1 := by
  obtain ⟨k, t, h0, h1, hx, hr⟩ := roundInt_parts s n e
  rw [hx, hr]
  cases s with
  | false =>
    simp only [Bool.false_eq_true, if_false, roundParts_toZero (.inr (.inr ⟨rfl, rfl⟩)), Int.cast_natCast]
    constructor <;> linarith
  | true =>
    obtain ⟨hle, hlt⟩ := roundParts_away (neg := true) (.inr ⟨rfl, rfl⟩) k h0 h1
    simp only [if_true, Int.cast_neg, Int.cast_natCast]
    constructor <;> linarith

end Sys2Proof.Machine
end

section
/-! PROOFS. Number formats (family 04): encodings and what they denote. -/

namespace Sys2Proof.Machine
open Sys2Proof

/-! The value of a magnitude encoding (R73). -/

/-- The significand that a magnitude encoding denotes, in units of its exponent. -/
def sigOf (f : Fmt) (m : Nat) : Nat := if m / 2 ^ (f.p - 1) = 0 then m % 2 ^ (f.p - 1) else 2 ^ (f.p - 1) + m % 2 ^ (f.p - 1)
/-- The exponent of its last place. -/
def expOf (f : Fmt) (m : Nat) : Int := if m / 2 ^ (f.p - 1) = 0 then f.emin - f.p + 1 else f.emin - f.p + (m / 2 ^ (f.p - 1) : Nat)
/-- The value that a magnitude encoding denotes, as if every exponent were a normal one. -/
def magValue (f : Fmt) (m : Nat) : ℚ := sigOf f m * 2 ^ expOf f m

theorem decodeF_eq (f : Fmt) (b : Nat) : decodeF f b =
    if some (magOf f b) = f.inf then .inf (signOf f b) else if f.maxFin < magOf f b then .nan
    else .fin (signOf f b) (sigOf f (magOf f b)) (expOf f (magOf f b)) := by
  simp only [decodeF, sigOf, expOf]
  split
  · rfl
  split
  · rfl
  split <;> rfl

theorem magValue_subnormal {f : Fmt} {m : Nat} (h : m < 2 ^ (f.p - 1)) : magValue f m = m * 2 ^ (f.emin - f.p + 1) := by
  simp only [magValue, sigOf, expOf, Nat.div_eq_of_lt h, Nat.mod_eq_of_lt h, if_true]
theorem magValue_normal {f : Fmt} (k : Nat) {i : Nat} (h : i < 2 ^ (f.p - 1)) :
    magValue f ((k + 1) * 2 ^ (f.p - 1) + i) = (2 ^ (f.p - 1) + i : Nat) * 2 ^ (f.emin - f.p + 1 + k) := by
  have hdiv : ((k + 1) * 2 ^ (f.p - 1) + i) / 2 ^ (f.p - 1) = k + 1 := by
    rw [mul_comm, Nat.mul_add_div (Nat.two_pow_pos _), Nat.div_eq_of_lt h, add_zero]
  have hmod : ((k + 1) * 2 ^ (f.p - 1) + i) % 2 ^ (f.p - 1) = i := by rw [Nat.mul_add_mod_self_right, Nat.mod_eq_of_lt h]
  simp only [magValue, sigOf, expOf, hdiv, hmod, if_neg (Nat.succ_ne_zero k)]
  rw [show f.emin - f.p + (k + 1 : Nat) = f.emin - f.p + 1 + k by omega]
/-- The encoding of m units k binades above the subnormals denotes m units there; a full binade is the start of the next one. -/
theorem magValue_binade {f : Fmt} (hp : 1 ≤ f.p) {k m : Nat} (hm : m ≤ 2 ^ f.p) (hk : k ≠ 0 → 2 ^ (f.p - 1) ≤ m) :
    magValue f (k * 2 ^ (f.p - 1) + m) = m * 2 ^ (f.emin - f.p + 1 + k) := by
  rw [show f.p = f.p - 1 + 1 by omega, pow_succ'] at hm
  rcases Nat.lt_or_ge m (2 ^ (f.p - 1)) with hlt | hge
  · obtain rfl : k = 0 := by_contra fun hne => absurd (hk hne) hlt.not_ge
    rw [zero_mul, zero_add, magValue_subnormal hlt, Nat.cast_zero, add_zero]
  obtain ⟨i, rfl⟩ := Nat.exists_eq_add_of_le hge
  rcases Nat.lt_or_ge i (2 ^ (f.p - 1)) with hlt | hge'
  · rw [← add_assoc, ← Nat.succ_mul, magValue_normal k hlt]
  · obtain rfl : i = 2 ^ (f.p - 1) := by omega
    rw [show k * 2 ^ (f.p - 1) + (2 ^ (f.p - 1) + 2 ^ (f.p - 1)) = (k + 1 + 1) * 2 ^ (f.p - 1) + 0 by ring, magValue_normal (k + 1) (Nat.two_pow_pos _),
      Nat.cast_succ, ← add_assoc, zpow_add_one₀ two_ne_zero]
    push_cast
    ring
/-- A larger encoding denotes a larger magnitude. -/
theorem magValue_strictMono {f : Fmt} (hp : 1 ≤ f.p) : StrictMono (magValue f) := by
  refine strictMono_nat_of_lt_succ fun b => ?_
  obtain ⟨k, m, hm, hk, rfl⟩ : ∃ k m, m + 1 ≤ 2 ^ f.p ∧ (k ≠ 0 → 2 ^ (f.p - 1) ≤ m) ∧ b = k * 2 ^ (f.p - 1) + m := by
    have hpow : 2 ^ f.p = 2 ^ (f.p - 1) + 2 ^ (f.p - 1) := by rw [← two_mul, ← pow_succ', Nat.sub_add_cancel hp]
    have hlt : b % 2 ^ (f.p - 1) < 2 ^ (f.p - 1) := Nat.mod_lt _ (Nat.two_pow_pos _)
    have hb := Nat.div_add_mod' b (2 ^ (f.p - 1))
    cases hd : b / 2 ^ (f.p - 1) with
    | zero => exact ⟨0, b, by rw [hd] at hb; omega, fun h => absurd rfl h, by omega⟩
    | succ k =>
      rw [hd, Nat.succ_mul] at hb
      exact ⟨k, 2 ^ (f.p - 1) + b % 2 ^ (f.p - 1), by omega, fun _ => Nat.le_add_right .., by omega⟩
  rw [add_assoc, magValue_binade hp (by omega) hk, magValue_binade hp hm fun h => (hk h).trans (Nat.le_succ m)]
  gcongr
  exact Nat.lt_succ_self m

/-! The formats (R72). -/

/-- What the six formats have in common: room for the sign, and infinity, where there is one, above the largest finite value. -/
structure Fmt.Sound (f : Fmt) : Prop where
  p : 1 ≤ f.p
  inf : f.inf = if f = e4m3 then none else some (f.maxFin + 1)
  fits : f.maxFin + 1 < 2 ^ (f.width - 1)
  width : 1 ≤ f.width
theorem Fmt.sound_of_mem {f : Fmt} (h : f ∈ [f64, f32, f16, bf16, e4m3, e5m2]) : f.Sound := by
  simp only [List.mem_cons, List.not_mem_nil, or_false] at h
  obtain rfl | rfl | rfl | rfl | rfl | rfl := h <;> exact ⟨by decide, by decide, by decide, by decide⟩

theorem signOf_withSign {f : Fmt} (s : Bool) {b : Nat} (h : b < 2 ^ (f.width - 1)) : signOf f (withSign f s b) = s := by
  cases s with
  | false => simp [signOf, withSign, Nat.div_eq_of_lt h]
  | true => simp [signOf, withSign, Nat.add_div_left _ (Nat.two_pow_pos (f.width - 1)), Nat.div_eq_of_lt h]
theorem magOf_withSign {f : Fmt} (s : Bool) {b : Nat} (h : b < 2 ^ (f.width - 1)) : magOf f (withSign f s b) = b := by
  cases s <;> simp [magOf, withSign, Nat.mod_eq_of_lt h]

section
variable {f : Fmt} (hf : f.Sound)
include hf

theorem withSign_lt (s : Bool) {b : Nat} (h : b < 2 ^ (f.width - 1)) : withSign f s b < 2 ^ f.width := by
  have hw : 2 ^ f.width = 2 ^ (f.width - 1) + 2 ^ (f.width - 1) := by rw [← two_mul, ← pow_succ', Nat.sub_add_cancel hf.width]
  rw [withSign]
  split <;> omega
/-- An encoding up to the largest finite one denotes its magnitude under its sign. -/
theorem decodeF_withSign (s : Bool) {b : Nat} (h : b ≤ f.maxFin) : decodeF f (withSign f s b) = .fin s (sigOf f b) (expOf f b) := by
  have hlt : b < 2 ^ (f.width - 1) := by have := hf.fits; omega
  have hinf : some b ≠ f.inf := by
    rw [hf.inf]
    split
    · exact Option.some_ne_none b
    · simp only [ne_eq, Option.some.injEq]; omega
  rw [decodeF_eq, signOf_withSign s hlt, magOf_withSign s hlt, if_neg hinf, if_neg h.not_gt]
theorem decodeF_maxFin : decodeF f f.maxFin = .fin false (sigOf f f.maxFin) (expOf f f.maxFin) := decodeF_withSign hf false le_rfl
theorem roundTo_inf (m : Nat) (sat s : Bool) :
    roundTo f m sat (.inf s) = withSign f s (if sat ∨ f = e4m3 then f.maxFin else f.maxFin + 1) := by
  rw [roundTo, hf.inf]
  by_cases h4 : f = e4m3
  · simp [h4]
  · simp [h4]
/-- The table of overflows (R75, R79). -/
theorem overflowF_eq {m : Nat} (hm : m < 4) (sat s : Bool) : overflowF f s m sat =
    withSign f s (if sat ∨ f = e4m3 ∨ m = 1 ∨ (m = 2 ∧ s = true) ∨ (m = 3 ∧ s = false) then f.maxFin else f.maxFin + 1) := by
  simp only [overflowF, hf.inf]
  by_cases h4 : f = e4m3
  · simp [h4]
  · interval_cases m <;> cases s <;> cases sat <;> simp [h4]
end

end Sys2Proof.Machine
end

section
/-! PROOFS. Number formats (family 04): rounding into a format, and the fields of an encoding. -/

namespace Sys2Proof.Machine
open Sys2Proof

/-! The unit of the last place (R75). -/

theorem two_zpow_log2_le {n : Nat} (h : n ≠ 0) (e : Int) : (2 : ℚ) ^ ((Nat.log2 n : Int) + e) ≤ n * 2 ^ e := by
  have hn : (2 : ℚ) ^ (Nat.log2 n : Int) ≤ n := by rw [zpow_natCast]; exact_mod_cast Nat.log2_self_le h
  rw [zpow_add₀ two_ne_zero]
  gcongr
theorem lt_two_zpow_log2 (n : Nat) (e : Int) : (n : ℚ) * 2 ^ e < 2 ^ ((Nat.log2 n : Int) + e + 1) := by
  have hn : (n : ℚ) < 2 ^ ((Nat.log2 n : Int) + 1) := by exact_mod_cast Nat.lt_log2_self
  rw [add_right_comm, zpow_add₀ two_ne_zero _ e]
  gcongr
/-- A magnitude below an integer does not round beyond it, one not below it not under it. -/
theorem roundUnit_le {n B : Nat} {e q : Int} (h : (n : ℚ) * 2 ^ (e - q) < B) (neg : Bool) (mode : Nat) : roundUnit neg mode n e q ≤ B := by
  obtain ⟨k, t, hk, h0, h1, hr⟩ := roundUnit_parts n e q
  have hlt : k < B := by
    have : (k : ℚ) < B := by linarith
    exact_mod_cast this
  have := roundParts_mem neg mode k t
  rw [hr]
  omega
theorem le_roundUnit {n B : Nat} {e q : Int} (h : (B : ℚ) ≤ n * 2 ^ (e - q)) (neg : Bool) (mode : Nat) : B ≤ roundUnit neg mode n e q := by
  obtain ⟨k, t, hk, h0, h1, hr⟩ := roundUnit_parts n e q
  have hlt : B < k + 1 := by
    have : (B : ℚ) < k + 1 := by linarith
    exact_mod_cast this
  have := roundParts_mem neg mode k t
  rw [hr]
  omega

/-- One unit in the last place of a format at a value n × 2^e, as a power of 2 (R75). -/
def lastPlace (f : Fmt) (n : Nat) (e : Int) : Int := max ((Nat.log2 n : Int) + e) f.emin - f.p + 1
/-- The magnitude encoding that a value rounds to, if exponents had no bound (R75). -/
def roundedMag (f : Fmt) (mode : Nat) (s : Bool) (n : Nat) (e : Int) : Nat :=
  (lastPlace f n e - (f.emin - f.p + 1)).toNat * 2 ^ (f.p - 1) + roundUnit s mode n e (lastPlace f n e)

theorem roundTo_fin (f : Fmt) (mode : Nat) (sat s : Bool) {n : Nat} (h : n ≠ 0) (e : Int) : roundTo f mode sat (.fin s n e) =
    if f.maxFin < roundedMag f mode s n e then overflowF f s mode sat else withSign f s (roundedMag f mode s n e) := by
  rw [roundTo, if_neg h]
  rfl
/-- It denotes the rounded integer, in units of the last place. -/
theorem magValue_roundedMag {f : Fmt} (hp : 1 ≤ f.p) (mode : Nat) (s : Bool) {n : Nat} (h : n ≠ 0) (e : Int) :
    magValue f (roundedMag f mode s n e) = roundUnit s mode n e (lastPlace f n e) * 2 ^ lastPlace f n e := by
  have hq : f.emin - f.p + 1 ≤ lastPlace f n e := by unfold lastPlace; omega
  have hlo := two_zpow_log2_le h (e - lastPlace f n e)
  have hhi := lt_two_zpow_log2 n (e - lastPlace f n e)
  have hle : roundUnit s mode n e (lastPlace f n e) ≤ 2 ^ f.p := by
    refine roundUnit_le (hhi.trans_le ?_) s mode
    rw [Nat.cast_pow, Nat.cast_ofNat, ← zpow_natCast]
    exact zpow_le_zpow_right₀ one_le_two (by unfold lastPlace; omega)
  have hge : (lastPlace f n e - (f.emin - f.p + 1)).toNat ≠ 0 → 2 ^ (f.p - 1) ≤ roundUnit s mode n e (lastPlace f n e) := fun hne => by
    refine le_roundUnit (le_trans ?_ hlo) s mode
    rw [Nat.cast_pow, Nat.cast_ofNat, ← zpow_natCast]
    exact zpow_le_zpow_right₀ one_le_two (by unfold lastPlace at hne ⊢; omega)
  rw [roundedMag, magValue_binade hp hle hge, Int.toNat_of_nonneg (by omega), add_sub_cancel]
theorem ratOf_abs (s : Bool) (n : Nat) (e : Int) : ratOf s n e = (if s then -1 else 1) * ratOf false n e := by
  cases s <;> simp [ratOf]
theorem natAbs_roundInt (mode : Nat) (s : Bool) (n : Nat) (e q : Int) : (roundInt mode s n (e - q)).natAbs = roundUnit s mode n e q := by
  have hr : roundUnit s mode n (e - q) 0 = roundUnit s mode n e q := by
    simp only [roundUnit, sub_nonneg, sub_zero, zero_sub, neg_sub]
  rw [roundInt, hr]
  cases s
  · exact Int.natAbs_natCast _
  · exact (Int.natAbs_neg _).trans (Int.natAbs_natCast _)

section
variable {f : Fmt} (hf : f.Sound) {m : Nat} (sat s : Bool) {n : Nat} (h0 : n ≠ 0) (e : Int)
include hf h0

/-- Up to the largest finite value the result denotes the rounded value (R75). -/
theorem roundTo_inRange (h : (roundUnit s m n e (lastPlace f n e) : ℚ) * 2 ^ lastPlace f n e ≤ magValue f f.maxFin) :
    roundTo f m sat (.fin s n e) < 2 ^ f.width ∧ ∃ a d, decodeF f (roundTo f m sat (.fin s n e)) = .fin s a d ∧
      ratOf s a d = ratOf s (roundUnit s m n e (lastPlace f n e)) (lastPlace f n e) := by
  have hv := magValue_roundedMag hf.p m s h0 e
  rw [← hv] at h
  have hle := (magValue_strictMono hf.p).le_iff_le.mp h
  have hfits := hf.fits
  rw [roundTo_fin f m sat s h0, if_neg hle.not_gt]
  refine ⟨withSign_lt hf s (by omega), _, _, decodeF_withSign hf s hle, ?_⟩
  rw [ratOf_abs, ratOf_abs s (roundUnit ..)]
  congr 1
  simpa [ratOf, magValue] using hv
/-- Beyond it the result is that of the table (R75). -/
theorem roundTo_overflow (hm : m < 4) (h : magValue f f.maxFin < (roundUnit s m n e (lastPlace f n e) : ℚ) * 2 ^ lastPlace f n e) :
    roundTo f m sat (.fin s n e) =
      withSign f s (if sat ∨ f = e4m3 ∨ m = 1 ∨ (m = 2 ∧ s = true) ∨ (m = 3 ∧ s = false) then f.maxFin else f.maxFin + 1) := by
  rw [← magValue_roundedMag hf.p m s h0] at h
  rw [roundTo_fin f m sat s h0, if_pos ((magValue_strictMono hf.p).lt_iff_lt.mp h), overflowF_eq hf hm]
end

/-! The fields of an encoding (R72, R73). -/

section
variable {x fr b : Nat} (hb : b < 2 ^ (1 + x + fr))
include hb

theorem signOf_fields {f : Fmt} (hw : f.width = 1 + x + fr) : signOf f b = decide (2 ^ (x + fr) ≤ b) := by
  have hlt : b / 2 ^ (x + fr) < 2 := by
    rw [Nat.div_lt_iff_lt_mul (Nat.two_pow_pos _), ← pow_succ', show x + fr + 1 = 1 + x + fr by omega]
    exact hb
  have hpos : 1 ≤ b / 2 ^ (x + fr) ↔ 2 ^ (x + fr) ≤ b := by rw [Nat.le_div_iff_mul_le (Nat.two_pow_pos _), one_mul]
  rw [signOf, hw, show 1 + x + fr - 1 = x + fr by omega, Bool.eq_iff_iff, beq_iff_eq, decide_eq_true_eq, ← hpos, Nat.mod_eq_of_lt hlt]
  generalize b / 2 ^ (x + fr) = c at hlt ⊢
  omega
omit hb in
theorem magOf_fields {f : Fmt} (hw : f.width = 1 + x + fr) (b : Nat) :
    magOf f b / 2 ^ fr = b / 2 ^ fr % 2 ^ x ∧ magOf f b % 2 ^ fr = b % 2 ^ fr := by
  rw [magOf, hw, show 1 + x + fr - 1 = fr + x by omega, pow_add]
  exact ⟨Nat.mod_mul_right_div_self .., Nat.mod_mul_right_mod ..⟩
/-- The fields of an encoding in a format with infinities. -/
theorem decodeF_fields {f : Fmt} {bias : Nat} (hw : f.width = 1 + x + fr) (hp : f.p = fr + 1) (hmin : f.emin = 1 - (bias : Int))
    (hmax : f.maxFin + 1 = (2 ^ x - 1) * 2 ^ fr) (hinf : f.inf = some (f.maxFin + 1)) :
    let ex := b / 2 ^ fr % 2 ^ x
    let frac := b % 2 ^ fr
    let s := decide (2 ^ (x + fr) ≤ b)
    decodeF f b = if ex = 2 ^ x - 1 then (if frac = 0 then .inf s else .nan)
      else if ex = 0 then .fin s frac (1 - (bias : Int) - (fr : Int)) else .fin s (2 ^ fr + frac) ((ex : Int) - (bias : Int) - (fr : Int)) := by
  intro ex frac s
  obtain ⟨hex, hfrac⟩ : magOf f b / 2 ^ fr = ex ∧ magOf f b % 2 ^ fr = frac := magOf_fields hw b
  have hlt : ex < 2 ^ x := Nat.mod_lt _ (Nat.two_pow_pos _)
  have hm := Nat.div_add_mod' (magOf f b) (2 ^ fr)
  have hge : f.maxFin < magOf f b ↔ ex = 2 ^ x - 1 := by
    rw [← Nat.succ_le_iff, Nat.succ_eq_add_one, hmax, ← Nat.le_div_iff_mul_le (Nat.two_pow_pos _), hex]
    omega
  have heq : some (magOf f b) = f.inf ↔ ex = 2 ^ x - 1 ∧ frac = 0 := by
    rw [hinf, Option.some.injEq, hmax]
    refine ⟨fun h => ⟨?_, ?_⟩, fun ⟨he, hf⟩ => ?_⟩
    · rw [← hex, h, Nat.mul_div_cancel _ (Nat.two_pow_pos _)]
    · rw [← hfrac, h, Nat.mul_mod_left]
    · rw [← hm, hex, hfrac, he, hf, add_zero]
  have hsub : f.emin - f.p + 1 = 1 - (bias : Int) - fr := by rw [hmin, hp]; push_cast; ring
  have hnorm : f.emin - f.p + (ex : Int) = ex - (bias : Int) - fr := by rw [hmin, hp]; push_cast; ring
  rw [decodeF_eq, signOf_fields hb hw]
  simp only [heq, hge, sigOf, expOf, hp, Nat.add_sub_cancel, hex, hfrac]
  rw [hp] at hsub hnorm
  by_cases htop : ex = 2 ^ x - 1
  · by_cases h0 : frac = 0
    · rw [if_pos ⟨htop, h0⟩, if_pos htop, if_pos h0]
    · rw [if_neg fun h => h0 h.2, if_pos htop, if_pos htop, if_neg h0]
  · rw [if_neg fun h => htop h.1, if_neg htop, if_neg htop]
    by_cases h0 : ex = 0
    · rw [if_pos h0, if_pos h0, if_pos h0, hsub]
    · rw [if_neg h0, if_neg h0, if_neg h0, hnorm]
end

end Sys2Proof.Machine
end

section
/-! PROOFS. Number formats (family 04): the exact values of the arithmetic. -/

namespace Sys2Proof.Machine
open Sys2Proof

/-! Products, sums and negation (R205, R210). -/

/-- An integer in units of 2^e, as a value. -/
theorem ratOf_units (z e : Int) : ratOf (decide (z < 0)) z.natAbs e = z * 2 ^ e := by
  have h0 := ratOf_ofIntF z
  simp only [ratOf, zpow_zero, mul_one] at h0
  rw [ratOf, h0]
theorem ratOf_mul (s t : Bool) (n k : Nat) (e d : Int) : ratOf (s != t) (n * k) (e + d) = ratOf s n e * ratOf t k d := by
  rw [ratOf, ratOf, ratOf, zpow_add₀ two_ne_zero, Nat.cast_mul]
  cases s <;> cases t <;> simp <;> ring
theorem ratOf_neg (s : Bool) (n : Nat) (e : Int) : ratOf (!s) n e = -ratOf s n e := by cases s <;> simp [ratOf]
/-- The sum of two values in units that divide both. -/
theorem unitsF_add {q e d : Int} (he : q ≤ e) (hd : q ≤ d) (s t : Bool) (n k : Nat) :
    ((unitsF q s n e + unitsF q t k d : Int) : ℚ) * 2 ^ q = ratOf s n e + ratOf t k d := by
  rw [Int.cast_add, unitsF_eq he, unitsF_eq hd, ← add_mul, mul_assoc, ← zpow_add₀ two_ne_zero, neg_add_cancel, zpow_zero, mul_one]
theorem addF_fin (m : Nat) (s t : Bool) (n k : Nat) (e d : Int) :
    ∃ u c g, addF m (.fin s n e) (.fin t k d) = .fin u c g ∧ ratOf u c g = ratOf s n e + ratOf t k d ∧
      (c = 0 → u = if n = 0 ∧ k = 0 ∧ s = t then s else m == 3) := by
  have hsum := unitsF_add (min_le_left e d) (min_le_right e d) s t n k
  simp only [addF]
  generalize unitsF (min e d) s n e + unitsF (min e d) t k d = z at hsum ⊢
  split
  · next hz =>
    rw [hz, Int.cast_zero, zero_mul] at hsum
    exact ⟨_, _, _, rfl, by rw [← hsum]; simp [ratOf], fun _ => rfl⟩
  · next hz => exact ⟨_, _, _, rfl, (ratOf_units ..).trans hsum, fun hc => absurd (Int.natAbs_eq_zero.mp hc) hz⟩

/-! Quotients (R210). -/

/-- A whole number of parts and a sticky bit: the half-units lie within one of the exact quotient. -/
theorem sticky_quotient {a k : Nat} (hk : k ≠ 0) :
    let c := 2 * (a / k) + if a % k = 0 then 0 else 1
    (c % 2 = 0 → (c : ℚ) = 2 * (a / k)) ∧ (c % 2 = 1 → |2 * ((a : ℚ) / k) - c| < 1) := by
  intro c
  have hk' : (0 : ℚ) < k := by exact_mod_cast Nat.pos_of_ne_zero hk
  have ha : (a : ℚ) = k * (a / k : Nat) + (a % k : Nat) := by exact_mod_cast (Nat.div_add_mod a k).symm
  have hq : (a : ℚ) / k = (a / k : Nat) + (a % k : Nat) / k := by
    conv_lhs => rw [ha, add_div, mul_div_cancel_left₀ _ hk'.ne']
  by_cases h0 : a % k = 0
  · have hc : c = 2 * (a / k) := by simp only [c, if_pos h0, add_zero]
    refine ⟨fun _ => ?_, fun h => by omega⟩
    rw [hc, hq, h0]
    push_cast
    ring
  · have hc : c = 2 * (a / k) + 1 := by simp only [c, if_neg h0]
    refine ⟨fun h => by omega, fun _ => ?_⟩
    have hlt : ((a % k : Nat) : ℚ) / k < 1 := by
      rw [div_lt_one hk']
      exact_mod_cast Nat.mod_lt a (Nat.pos_of_ne_zero hk)
    have hpos : (0 : ℚ) < (a % k : Nat) / k := div_pos (by exact_mod_cast Nat.pos_of_ne_zero h0) hk'
    rw [hc, hq, abs_lt]
    push_cast
    constructor <;> linarith
/-- Enough bits are kept of it. -/
theorem quotient_bits {n k : Nat} (hn : n ≠ 0) (hk : k ≠ 0) : 2 ^ 79 ≤ n * 2 ^ (quotBits + Nat.log2 k) / k := by
  rw [Nat.le_div_iff_mul_le (Nat.pos_of_ne_zero hk)]
  have hlt : k < 2 ^ (Nat.log2 k + 1) := Nat.lt_log2_self
  calc 2 ^ 79 * k ≤ 2 ^ 79 * 2 ^ (Nat.log2 k + 1) := Nat.mul_le_mul_left _ hlt.le
    _ = 1 * 2 ^ (quotBits + Nat.log2 k) := by rw [one_mul, ← pow_add, quotBits]; congr 1; omega
    _ ≤ n * 2 ^ (quotBits + Nat.log2 k) := Nat.mul_le_mul_right _ (Nat.pos_of_ne_zero hn)
/-- A quotient in units a half of those in which its whole part is counted. -/
theorem ratOf_div (s t : Bool) (n k : Nat) (e d : Int) (sh : Nat) : ratOf s n e / ratOf t k d =
    (if s != t then -1 else 1) * (2 * ((n * 2 ^ sh : Nat) / k)) * 2 ^ (e - d - sh - 1) := by
  have hpow : (2 : ℚ) ^ (e - d - sh - 1) = 2 ^ e / 2 ^ d / 2 ^ sh / 2 := by
    rw [zpow_sub_one₀ two_ne_zero, zpow_sub₀ two_ne_zero, zpow_sub₀ two_ne_zero, zpow_natCast, div_eq_mul_inv _ (2 : ℚ)]
  have hsh : (2 : ℚ) ^ sh ≠ 0 := by positivity
  rw [hpow, ratOf, ratOf]
  push_cast
  cases s <;> cases t <;> simp <;> field_simp
theorem divF_fin (s t : Bool) {n k : Nat} (hk : k ≠ 0) (hn : n ≠ 0) (e d : Int) :
    ∃ c g, divF (.fin s n e) (.fin t k d) = .fin (s != t) c g ∧ 2 ^ 80 ≤ c ∧ (c % 2 = 0 → ratOf (s != t) c g = ratOf s n e / ratOf t k d) ∧
      (c % 2 = 1 → |ratOf s n e / ratOf t k d - ratOf (s != t) c g| < 2 ^ g) := by
  have hbits := quotient_bits hn hk
  simp only [divF, if_neg hk]
  generalize quotBits + Nat.log2 k = sh at hbits ⊢
  obtain ⟨heven, hodd⟩ := sticky_quotient (a := n * 2 ^ sh) hk
  generalize hc : 2 * (n * 2 ^ sh / k) + (if n * 2 ^ sh % k = 0 then 0 else 1) = c at heven hodd ⊢
  refine ⟨c, e - d - sh - 1, rfl, by omega, fun h => ?_, fun h => ?_⟩
  · rw [ratOf_div s t n k e d sh, ratOf, heven h]
  · have hsign : |(if s != t then -1 else 1 : ℚ)| = 1 := by split <;> simp
    have hpos : (0 : ℚ) < 2 ^ (e - d - sh - 1) := by positivity
    rw [ratOf_div s t n k e d sh, ratOf, ← sub_mul, ← mul_sub, abs_mul, abs_mul, hsign, one_mul, abs_of_pos hpos]
    exact mul_lt_of_lt_one_left hpos (hodd h)

/-! Roots (R210). -/

theorem ratOf_false (n : Nat) (e : Int) : ratOf false n e = n * 2 ^ e := by simp [ratOf]
/-- A square in units of 2^g. -/
theorem ratOf_sq (c : Nat) (g : Int) : ratOf false c g ^ 2 = (c ^ 2 : Nat) * 2 ^ (2 * g) := by
  rw [mul_comm 2 g, zpow_mul, zpow_ofNat, ratOf_false, mul_pow, Nat.cast_pow]
/-- Twice the integer root and a sticky bit, beside four times the number. -/
theorem sticky_root (m : Nat) :
    let c := 2 * Nat.sqrt m + if Nat.sqrt m * Nat.sqrt m = m then 0 else 1
    (c % 2 = 0 → c ^ 2 = 4 * m) ∧ (c % 2 = 1 → (c - 1) ^ 2 < 4 * m ∧ 4 * m < (c + 1) ^ 2) := by
  intro c
  have hle := Nat.sqrt_le m
  have hlt := Nat.lt_succ_sqrt m
  by_cases h : Nat.sqrt m * Nat.sqrt m = m
  · have hc : c = 2 * Nat.sqrt m := by simp only [c, if_pos h, add_zero]
    exact ⟨fun _ => by rw [hc]; linarith, fun _ => by omega⟩
  · have hc : c = 2 * Nat.sqrt m + 1 := by simp only [c, if_neg h]
    have hlt' : Nat.sqrt m * Nat.sqrt m < m := lt_of_le_of_ne hle h
    refine ⟨fun _ => by omega, fun _ => ?_⟩
    rw [hc, Nat.add_sub_cancel]
    constructor <;> nlinarith
theorem sqrtF_fin {n : Nat} (hn : n ≠ 0) (e : Int) :
    ∃ c g, sqrtF (.fin false n e) = .fin false c g ∧ 2 ^ 80 ≤ c ∧ (c % 2 = 0 → ratOf false c g ^ 2 = ratOf false n e) ∧
      (c % 2 = 1 → ratOf false (c - 1) g ^ 2 < ratOf false n e ∧ ratOf false n e < ratOf false (c + 1) g ^ 2) := by
  simp only [sqrtF, if_neg hn, Bool.false_eq_true, if_false, isqrt_eq_sqrt]
  generalize hk : 2 * quotBits + (e % 2).toNat = k
  have hk2 : 2 * ((e - k) / 2 - 1) + 2 + k = e := by rw [quotBits] at hk; omega
  generalize (e - k) / 2 - 1 = g at hk2 ⊢
  have hval : ratOf false n e = (4 * (n * 2 ^ k) : Nat) * 2 ^ (2 * g) := by
    rw [← hk2, ratOf_false, zpow_add₀ two_ne_zero, zpow_add₀ two_ne_zero, zpow_natCast]
    push_cast
    ring
  have hbits : 2 ^ 80 ≤ Nat.sqrt (n * 2 ^ k) := by
    rw [Nat.le_sqrt', ← pow_mul]
    exact (Nat.pow_le_pow_right two_pos (by rw [quotBits] at hk; omega)).trans (Nat.le_mul_of_pos_left _ (Nat.pos_of_ne_zero hn))
  obtain ⟨heven, hodd⟩ := sticky_root (n * 2 ^ k)
  generalize n * 2 ^ k = m at *
  generalize hc : 2 * Nat.sqrt m + (if Nat.sqrt m * Nat.sqrt m = m then 0 else 1) = c at heven hodd ⊢
  have hpos : (0 : ℚ) < 2 ^ (2 * g) := by positivity
  refine ⟨c, g, rfl, by omega, fun h => ?_, fun h => ?_⟩
  · rw [ratOf_sq, hval, heven h]
  · obtain ⟨hlo, hhi⟩ := hodd h
    rw [ratOf_sq, ratOf_sq, hval]
    exact ⟨mul_lt_mul_of_pos_right (Nat.cast_lt.mpr hlo) hpos, mul_lt_mul_of_pos_right (Nat.cast_lt.mpr hhi) hpos⟩

end Sys2Proof.Machine
end

section
/-! PROOFS. Number formats (family 04): the floating-point lane instructions, their formats, rounding and arithmetic. -/

namespace Sys2Proof.Machine
open Sys2Proof

/-! Encodings (R72, R73, R76). -/

theorem decodeF_ieee {f : Fmt} {x fr bias b : Nat} (hb : b < 2 ^ (1 + x + fr)) (hw : f.width = 1 + x + fr) (hp : f.p = fr + 1)
    (hmin : f.emin = 1 - (bias : Int)) (hmax : f.maxFin + 1 = (2 ^ x - 1) * 2 ^ fr) (hinf : f.inf = some (f.maxFin + 1)) (hne : f ≠ e4m3) :
    let ex := b / 2 ^ fr % 2 ^ x
    let frac := b % 2 ^ fr
    let s := decide (2 ^ (x + fr) ≤ b)
    decodeF f b = if ex = 2 ^ x - 1 ∧ (f ≠ e4m3 ∨ frac = 2 ^ fr - 1) then (if frac = 0 then .inf s else .nan)
      else if ex = 0 then .fin s frac (1 - (bias : Int) - (fr : Int)) else .fin s (2 ^ fr + frac) ((ex : Int) - (bias : Int) - (fr : Int)) := by
  intro ex frac s
  rw [decodeF_fields hb hw hp hmin hmax hinf]
  simp only [hne, ne_eq, not_false_eq_true, true_or, and_true]
  rfl
/-- E4M3 has no infinity, and one magnitude that is no number (R73). -/
theorem decodeF_e4m3 {b : Nat} (hb : b < 2 ^ (1 + 4 + 3)) :
    let ex : Nat := b / 2 ^ 3 % 2 ^ 4
    let frac := b % 2 ^ 3
    let s := decide (2 ^ (4 + 3) ≤ b)
    decodeF e4m3 b = if ex = 2 ^ 4 - 1 ∧ (e4m3 ≠ e4m3 ∨ frac = 2 ^ 3 - 1) then (if frac = 0 then .inf s else .nan)
      else if ex = 0 then .fin s frac (1 - ((7 : Nat) : Int) - ((3 : Nat) : Int))
      else .fin s (2 ^ 3 + frac) ((ex : Int) - ((7 : Nat) : Int) - ((3 : Nat) : Int)) := by
  intro ex frac s
  obtain ⟨hex, hfrac⟩ : magOf e4m3 b / 2 ^ 3 = ex ∧ magOf e4m3 b % 2 ^ 3 = frac := magOf_fields rfl b
  have hlt : ex < 2 ^ 4 := Nat.mod_lt _ (Nat.two_pow_pos _)
  have hnan : e4m3.maxFin < magOf e4m3 b ↔ ex = 2 ^ 4 - 1 ∧ (e4m3 ≠ e4m3 ∨ frac = 2 ^ 3 - 1) := by
    have : e4m3.maxFin = 0x7E := rfl
    simp only [ne_eq, not_true_eq_false, false_or]
    omega
  have hp : e4m3.p = 3 + 1 := rfl
  rw [decodeF_eq, signOf_fields hb rfl, if_neg (show ¬ some (magOf e4m3 b) = e4m3.inf from Option.some_ne_none _)]
  by_cases htop : ex = 2 ^ 4 - 1 ∧ (e4m3 ≠ e4m3 ∨ frac = 2 ^ 3 - 1)
  · have h0 : frac ≠ 0 := by simp at htop; omega
    rw [if_pos (hnan.mpr htop), if_pos htop, if_neg h0]
  · rw [if_neg (mt hnan.mp htop), if_neg htop]
    simp only [sigOf, expOf, hp, Nat.add_sub_cancel, hex, hfrac]
    have hmin : e4m3.emin = -6 := rfl
    by_cases h0 : ex = 0
    · rw [if_pos h0, if_pos h0, if_pos h0, hmin]
      rfl
    · rw [if_neg h0, if_neg h0, if_neg h0, hmin]
      congr 1
      omega
/-- What `.ftz` makes of an FP32 encoding (R76). -/
theorem flushIn_true {b : Nat} (hb : b < 2 ^ 32) : flushIn true b = if b / 2 ^ 23 % 2 ^ 8 = 0 then b / 2 ^ 31 * 2 ^ 31 else b := by
  have hm : magOf f32 b / 2 ^ 23 = b / 2 ^ 23 % 2 ^ 8 := (magOf_fields rfl b).1
  have hsub : magOf f32 b < 2 ^ 23 ↔ b / 2 ^ 23 % 2 ^ 8 = 0 := by rw [← hm, Nat.div_eq_zero_iff_lt (by positivity)]
  have hs : withSign f32 (signOf f32 b) 0 = b / 2 ^ 31 * 2 ^ 31 := by
    have hlt : b / 2 ^ 31 < 2 := by omega
    have hw : f32.width - 1 = 31 := rfl
    rw [withSign, signOf, hw]
    generalize b / 2 ^ 31 = k at hlt ⊢
    interval_cases k <;> rfl
  rw [flushIn, hs, Bool.true_and]
  simp only [hsub, decide_eq_true_eq]

/-- Settles O26: each instruction is one issue; an encoding is read by its fields; rounding goes by the integer part and the fraction of a magnitude
in units of the last place, and the encodings of a format are in the order of what they denote. -/
theorem laneFloatResults : Obligations.LaneFloatResults := by
  unfold Obligations.LaneFloatResults
  refine ⟨⟨fun s g x h => ?_, fun s g x h => ?_, fun s g x h => ?_, fun s g x h => ?_, fun s g x h => ?_, fun s g x h => ?_, fun s g x h => ?_,
    fun s g x h => ?_, fun s g x h => ?_, fun s g x h => ?_⟩, ⟨?_, ?_, ?_⟩, ⟨?_, ?_⟩, ⟨?_, ?_, rfl, rfl, rfl, rfl, ?_⟩⟩
  · intro y j n v m hb
    simp only [List.forall_mem_cons, List.not_mem_nil, false_imp_iff, implies_true, and_true]
    exact ⟨fpBin_runs h x _ hb, fpBin_runs h x (fun m a b => addF m a (negF b)) hb, fpBin_runs h x (fun _ => mulF) hb, fpBin_runs h x (fun _ => divF) hb⟩
  · intro y j n v m hb
    simp only [List.forall_mem_cons, List.not_mem_nil, false_imp_iff, implies_true, and_true]
    exact ⟨fpTern_runs h x (fun m a b c => addF m (mulF a b) c) hb, fpTern_runs h x (fun m a b c => addF m (mulF a b) (negF c)) hb,
      fpTern_runs h x (fun m a b c => addF m c (negF (mulF a b))) hb⟩
  · intro y j n hb
    show execVsqrt x s = _
    simp only [execVsqrt, h.repNow, regs_headD]
    exact laneOp_runs h x.c hb rfl fun _ _ => putWide_lane ..
  · intro y j n hb
    show execVcmpFp x s = _
    simp only [execVcmpFp, h.repNow, regs_headD]
    exact laneOp_runs h x.c hb rfl fun _ _ => putPred_lane ..
  · intro y j n f hb
    simp only [List.forall_mem_cons, List.not_mem_nil, false_imp_iff, implies_true, and_true]
    exact ⟨fpSel_runs h x minF hb, fpSel_runs h x maxF hb, fpSel_runs h x (fun f a b => withSign f (signOf f b) (magOf f a)) hb⟩
  · intro y j n f src ex
    simp only [List.forall_mem_cons, List.not_mem_nil, false_imp_iff, implies_true, and_true]
    refine ⟨fun hb => ⟨fpBits_runs h x (fun f a => withSign f (!signOf f a) (magOf f a)) hb, fpBits_runs h x magOf hb⟩, fun hb => ?_⟩
    show execVclass x s = _
    simp only [execVclass, h.repNow, regs_headD]
    exact laneOp_runs h x.c hb rfl fun _ _ => putLanes_lane ..
  · intro y j k m hb
    simp only [List.forall_mem_cons, List.not_mem_nil, false_imp_iff, implies_true, and_true]
    exact ⟨halfBin_runs h x _ hb, halfBin_runs h x (fun m a b => addF m a (negF b)) hb, halfBin_runs h x (fun _ => mulF) hb⟩
  · exact halfTern_runs h x
  · intro y j k hb
    simp only [List.forall_mem_cons, List.not_mem_nil, false_imp_iff, implies_true, and_true]
    exact ⟨halfSel_runs h x minF hb, halfSel_runs h x maxF hb⟩
  · intro y j k hb
    simp only [List.forall_mem_cons, List.not_mem_nil, false_imp_iff, implies_true, and_true]
    exact ⟨halfCmp_runs h x 0 hb, halfCmp_runs h x 2 hb⟩
  · simp only [List.forall_mem_cons, List.not_mem_nil, false_imp_iff, implies_true, and_true]
    exact ⟨fun b hb => decodeF_ieee hb rfl rfl rfl rfl rfl (by decide), fun b hb => decodeF_ieee hb rfl rfl rfl rfl rfl (by decide),
      fun b hb => decodeF_ieee hb rfl rfl rfl rfl rfl (by decide), fun b hb => decodeF_ieee hb rfl rfl rfl rfl rfl (by decide),
      fun b hb => decodeF_e4m3 hb, fun b hb => decodeF_ieee hb rfl rfl rfl rfl rfl (by decide)⟩
  · intro b hb
    simp only [List.forall_mem_cons, List.not_mem_nil, false_imp_iff, implies_true, and_true]
    exact ⟨rfl, rfl, flushIn_true hb, flushIn_true hb⟩
  · exact fun _ _ _ _ => rfl
  · exact fun s n e => ⟨(roundInt_nearest s n e).1, (roundInt_nearest s n e).2, (roundInt_toZero s n e).1, (roundInt_toZero s n e).2.1,
      (roundInt_toZero s n e).2.2, (roundInt_up s n e).1, (roundInt_up s n e).2, roundInt_down s n e⟩
  · intro f hmem m sat s e hm
    have hf := Fmt.sound_of_mem hmem
    refine ⟨rfl, rfl, roundTo_inf hf m sat s, fun n h0 => ?_⟩
    intro q y top r
    have hy : y = roundUnit s m n e (lastPlace f n e) := natAbs_roundInt ..
    have htop : top = magValue f f.maxFin := by
      simp only [top, decodeF_maxFin hf]
      exact ratOf_false ..
    rw [htop, hy, ratOf_false]
    exact ⟨roundTo_inRange hf sat s h0 e, roundTo_overflow hf sat s h0 e hm⟩
  · intro s t n k e d m a b x y
    refine ⟨⟨_, _, _, rfl, ratOf_mul .., rfl⟩, addF_fin .., ⟨_, _, _, rfl, ratOf_neg .., rfl⟩, fun hk hn => divF_fin s t hk hn e d, fun hk hn => ?_,
      fun hk => ?_, fun hn => sqrtF_fin hn e, fun hn => ?_, ⟨0, rfl⟩, rfl, rfl, rfl, rfl, rfl, ⟨0, rfl⟩⟩
    · subst hn
      simp [a, b, divF, hk]
    · simp only [a, b, divF, if_pos hk]
    · simp only [sqrtF, if_neg hn, if_true]
  · exact fun s t m => ⟨rfl, rfl, rfl, rfl⟩
  · intro a m
    cases a <;> exact ⟨rfl, rfl, rfl, rfl, rfl, rfl⟩

end Sys2Proof.Machine
end

section
/-! PROOFS. Number formats (family 04): the long-accumulator instructions on registers. -/

namespace Sys2Proof.Machine
open Sys2Proof

/-! One issue of class 110 (R255 to R259). -/

@[simp] theorem putSlots_lane (x : Group) (n : Nat) (ex : List Bool) (v : List LA) : (putSlots x n ex v).lane = x.lane := rfl
theorem LaneRuns.curGroup {s : State} {g : Nat} (h : LaneRuns s g) : curGroup s = g := by simp [Machine.curGroup, h.1]
/-- A lane's contributions, folded in the order of its elements, are those of its executing elements. -/
theorem addElems_eq (rank : Nat) (t : CType) (n : BitVec 4) (a : LA) (vs : List FVal) :
    addElems rank t n a vs = ((vs.zipIdx.filter fun e => elemOn t n e.2).map (·.1)).foldl (fun a v => laAdd a v rank) a := by
  rw [addElems, List.foldl_map, List.foldl_filter]
theorem elemOn_eq (t : CType) (n : BitVec 4) (e : Nat) :
    elemOn t n e = if ctypeBits t < 32 then n.getLsbD (ctypeBits t * e / 8) else n.getLsbD 0 := by
  rw [elemOn, apply_ite n.getLsbD, governing]

section
variable {s : State} {g : Nat} (h : LaneRuns s g)
include h

theorem accumulate_runs (c : LaneCtl) {u : Use} (hb : Below s g u.v u.q) (ht : u.trap = none) (t : CType) (d : Nat) (vals : Group → List (List FVal)) :
    let y := group s g
    accumulate s c u t d vals = .next (laneNext s g (setQreg y d (List.zipWith (fun (n : BitVec 4) (p : LA × List FVal) =>
      addElems (contributor s g) t n p.1 p.2) (execNibbles y c.pred c.neg) (List.zip (qreg y d) (vals y)))) c.rep.toNat) := by
  intro y
  simp only [accumulate, h.curGroup]
  split
  · exact packedOp_runs h _ c hb ht fun _ _ => rfl
  · next hw =>
    have hbit : ∀ (n : BitVec 4) (p : LA × List FVal), addElems (contributor s g) t (if n.getLsbD 0 then 15 else 0) p.1 p.2 =
        addElems (contributor s g) t n p.1 p.2 := fun n p => by
      simp only [addElems, elemOn, if_neg hw]
      cases n.getLsbD 0 <;> rfl
    have hlanes : ∀ l, List.zipWith (fun (n : BitVec 4) (p : LA × List FVal) => addElems (contributor s g) t n p.1 p.2)
        ((execLanes y c.pred c.neg).map fun e => if e then 15 else 0) l =
        List.zipWith (fun n p => addElems (contributor s g) t n p.1 p.2) (execNibbles y c.pred c.neg) l := fun l => by
      rw [execLanes, List.map_map, List.zipWith_map_left]
      exact congrArg (List.zipWith · _ _) (funext fun n => funext fun p => hbit n p)
    rw [← hlanes]
    exact laneOp_runs h c hb ht fun _ _ => rfl
theorem slotOp_runs (f : LA → LA → LA) (reads : Bool) (x : QTwo) :
    let y := group s g
    let d := regNo x.d x.c.stepD 1 y.lane.rep
    let a := regNo x.a x.c.stepA 1 y.lane.rep
    Below s g [] [d, a] →
    slotOp f reads x s = .next (laneNext s g (putSlots y d (execLanes y x.c.pred x.c.neg) (List.zipWith f (qreg y d) (qreg y a))) x.c.rep.toNat) := by
  intro y d a hb
  simp only [slotOp, h.repNow]
  exact laneOp_runs h x.c hb rfl fun _ _ => putSlots_lane ..
end

/-- The second word of `qstat`: the status in its low byte, low in its high half. -/
theorem statusWord_eq (st : Byte) (low : BitVec 32) : BitVec.ofNat 64 (st.toNat + 2 ^ 32 * low.toNat) = low ++ (0 : BitVec 24) ++ st := by
  apply BitVec.eq_of_toNat_eq
  have := st.isLt
  have := low.isLt
  rw [BitVec.toNat_ofNat, BitVec.toNat_append, BitVec.toNat_append, ← Nat.shiftLeft_add_eq_or_of_lt st.isLt,
    ← Nat.shiftLeft_add_eq_or_of_lt (0 : BitVec 24).isLt, Nat.shiftLeft_eq, Nat.shiftLeft_eq]
  have h0 : (0 : BitVec 24).toNat = 0 := rfl
  omega

/-! Sub-groups of lanes (R258). -/

section
variable {α : Type}

theorem getD_blend {ex : List Bool} {new old : List α} (hnew : new.length = 128) (hold : old.length = 128) (hex : ex.length = 128) {i : Nat}
    (hi : i < 128) (a : α) : (blend ex new old).getD i a = if ex.getD i false then new.getD i a else old.getD i a := by
  simp only [blend, List.getD_eq_getElem?_getD, List.getElem?_zipWith, List.zip, List.getElem?_eq_getElem, hnew, hold, hex, hi, Option.getD_some]

/-- Element i of a list of runs of w equal values. -/
theorem getD_flatMap_replicate {β : Type} (f : β → α) {w : Nat} (a : α) (b : β) :
    ∀ (l : List β) {i : Nat}, i < w * l.length → (l.flatMap fun p => List.replicate w (f p)).getD i a = f (l.getD (i / w) b)
  | [], i, hi => absurd hi (by simp)
  | p :: l, i, hi => by
    rw [List.length_cons, Nat.mul_succ] at hi
    have hw : 0 < w := Nat.pos_of_ne_zero fun h => by simp [h] at hi
    by_cases hiw : i < w
    · simp [List.getD_eq_getElem?_getD, List.getElem?_append_left, hiw, Nat.div_eq_of_lt hiw]
    · have ih := getD_flatMap_replicate f a b (w := w) l (i := i - w) (by omega)
      have hdiv : i / w = (i - w) / w + 1 := Nat.div_eq_sub_div hw (Nat.le_of_not_lt hiw)
      rw [List.flatMap_cons, List.getD_append_right _ _ _ _ (by simpa using Nat.le_of_not_lt hiw), List.length_replicate, ih, hdiv, List.getD_cons_succ]

theorem length_pieces (w : Nat) (l : List α) : (pieces w l).length = l.length / w := by simp [pieces]
theorem getD_pieces {w k : Nat} {l : List α} (hk : k < l.length / w) : (pieces w l).getD k [] = (l.drop (k * w)).take w := by
  simp [pieces, List.getD_eq_getElem?_getD, hk]
/-- A run of a list, by its positions. -/
theorem take_drop_eq_map_range {l : List α} (o w : Nat) (h : o + w ≤ l.length) (a : α) :
    (l.drop o).take w = ((List.range w).map (o + ·)).map fun k => l.getD k a := by
  refine List.ext_getElem (by simp; omega) fun i h1 _ => ?_
  have hi : o + i < l.length := by simp at h1; omega
  simp [List.getD_eq_getElem?_getD, List.getElem?_eq_getElem hi]
end

/-- The merge of the executing slots of a run of lanes, ascending, taken along the pairs of lane and slot. -/
theorem foldl_mergePairs (ex : List Bool) (q : List LA) (ks : List Nat) (hex : ∀ k ∈ ks, k < ex.length ∧ k < q.length) (t : LA) :
    (ks.map fun k => (List.zip ex q).getD k (false, LA.zero)).foldl (fun t e => if e.1 then laMerge t e.2 else t) t =
      (ks.filter fun k => ex.getD k false).foldl (fun t k => laMerge t (q.getD k LA.zero)) t := by
  rw [List.foldl_map, List.foldl_filter]
  induction ks generalizing t with
  | nil => rfl
  | cons k ks ih =>
    obtain ⟨he, hq⟩ := hex k List.mem_cons_self
    have hz : (List.zip ex q).getD k (false, LA.zero) = (ex.getD k false, q.getD k LA.zero) := by
      simp [List.getD_eq_getElem?_getD, List.zip, List.getElem?_zipWith, List.getElem?_eq_getElem he, List.getElem?_eq_getElem hq]
    simp only [List.foldl_cons, hz]
    exact ih (fun k hk => hex k (List.mem_cons_of_mem _ hk)) _

theorem subWidth_dvd (w : Option (BitVec 3)) : ∃ k, 0 < subWidth w ∧ 128 = subWidth w * k := by
  cases w with
  | none => exact ⟨1, by decide, rfl⟩
  | some k =>
    refine ⟨2 ^ (7 - k.toNat), Nat.two_pow_pos _, ?_⟩
    have := k.isLt
    rw [subWidth, ← Nat.pow_add, show k.toNat + (7 - k.toNat) = 7 by omega]

/-- What `qred` leaves for lane i: the merge of the executing lanes of its sub-group, ascending. -/
theorem getD_groupMerges {ex : List Bool} {q : List LA} (hex : ex.length = 128) (hq : q.length = 128) (x : Option (BitVec 3)) {i : Nat} (hi : i < 128) :
    ((pieces (subWidth x) (List.zip ex q)).flatMap fun (p : List (Bool × LA)) =>
      List.replicate (subWidth x) (p.foldl (fun t e => if e.1 then laMerge t e.2 else t) LA.zero)).getD i LA.zero =
    (((List.range (subWidth x)).map (i - i % subWidth x + ·)).filter fun k => ex.getD k false).foldl
      (fun t k => laMerge t (q.getD k LA.zero)) LA.zero := by
  obtain ⟨k, hw, hk⟩ := subWidth_dvd x
  generalize subWidth x = w at hw hk ⊢
  have hlen : (List.zip ex q).length = 128 := by simp [hex, hq]
  have h128 : 128 / w = k := by rw [hk, Nat.mul_div_cancel_left k hw]
  have hpiece : i / w < k := Nat.div_lt_of_lt_mul (hk ▸ hi)
  have hend : i / w * w + w ≤ 128 := by
    have := Nat.mul_le_mul_left w (Nat.succ_le_of_lt hpiece)
    rw [← hk, Nat.mul_succ, Nat.mul_comm] at this
    exact this
  have hstart : i / w * w = i - i % w := by have := Nat.div_add_mod' i w; omega
  rw [getD_flatMap_replicate _ LA.zero [] _ (by rwa [length_pieces, hlen, h128, ← hk]), getD_pieces (by rwa [hlen, h128]),
    take_drop_eq_map_range _ _ (by rwa [hlen]) (false, LA.zero), ← hstart]
  refine foldl_mergePairs ex q _ (fun k hk => ?_) _
  obtain ⟨j, hj, rfl⟩ := List.mem_map.mp hk
  have := List.mem_range.mp hj
  omega
theorem length_groupMerges {β : Type} {l : List β} (hl : l.length = 128) (f : List β → LA) (x : Option (BitVec 3)) :
    ((pieces (subWidth x) l).flatMap fun p => List.replicate (subWidth x) (f p)).length = 128 := by
  obtain ⟨k, hw, hk⟩ := subWidth_dvd x
  simp only [List.length_flatMap, List.length_replicate, List.map_const', List.sum_replicate, length_pieces, hl, smul_eq_mul]
  exact Nat.div_mul_cancel ⟨k, hk⟩

section
variable {s : State} {g : Nat} (h : LaneRuns s g)
include h

theorem execQred_runs (x : QRedArgs) :
    let y := group s g
    let d := regNo x.d x.c.stepD 1 y.lane.rep
    let a := regNo x.a x.c.stepA 1 y.lane.rep
    let ex := execLanes y x.c.pred x.c.neg
    Below s g [] [d, a] →
    execQred x s = .next (laneNext s g (putSlots y d ex ((pieces (subWidth x.w) (List.zip ex (qreg y a))).flatMap fun (p : List (Bool × LA)) =>
      List.replicate (subWidth x.w) (p.foldl (fun t e => if e.1 then laMerge t e.2 else t) LA.zero))) x.c.rep.toNat) := by
  intro y d a ex hb
  simp only [execQred, h.repNow]
  exact laneOp_runs h x.c hb rfl fun _ _ => putSlots_lane ..

theorem execQred_merges (x : QRedArgs) :
    let y := group s g
    let d := regNo x.d x.c.stepD 1 y.lane.rep
    let a := regNo x.a x.c.stepA 1 y.lane.rep
    let w := match x.w with | some k => 2 ^ k.toNat | none => 128
    let ex := execLanes y x.c.pred x.c.neg
    Below s g [] [d, a] → (qreg y a).length = 128 → (qreg y d).length = 128 → ex.length = 128 →
    ∃ z, execQred x s = .next (laneNext s g z x.c.rep.toNat) ∧ z.lane = y.lane ∧ z.r.v = y.r.v ∧ z.r.m = y.r.m ∧ z.r.s = y.r.s ∧
      (∀ r, r ≠ d → qreg z r = qreg y r) ∧
      ∀ i < 128, (qreg z d).getD i LA.zero = if ex.getD i false then
          (((List.range w).map (i - i % w + ·)).filter fun k => ex.getD k false).foldl (fun t k => laMerge t ((qreg y a).getD k LA.zero)) LA.zero
        else (qreg y d).getD i LA.zero := by
  intro y d a w ex hb ha hd hex
  have hlen : (List.zip ex (qreg y a)).length = 128 := by simp [hex, ha]
  refine ⟨_, execQred_runs h x hb, rfl, rfl, rfl, rfl, fun r hr => (qreg_setQreg ..).trans (if_neg hr), fun i hi => ?_⟩
  have hw : w = subWidth x.w := rfl
  rw [hw, ← getD_groupMerges hex ha x.w hi, ← getD_blend (length_groupMerges hlen _ x.w) hd hex hi]
  exact congrArg (·.getD i LA.zero) (qreg_setQreg_same ..)
theorem execQrnd_runs (x : QRndArgs) :
    let y := group s g
    let j := y.lane.rep
    let t := ctypeOf x.t
    let a := regNo x.a x.c.stepA 1 j
    Below s g (regs (ctypeWide t) x.d x.c.stepD j) [a] →
    execQrnd x s = .next (laneNext s g (putEl y t (regNo x.d x.c.stepD (if ctypeWide t then 2 else 1) j) x.dpos.toNat (execEl y x.c t x.dpos.toNat)
      ((qreg y a).map fun q => laRound q t x.mode.toNat x.sat)) x.c.rep.toNat) := by
  intro y j t a hb
  simp only [execQrnd, h.repNow, regs_headD]
  exact laneIssue_runs h _ _ _ _ (by simpa only [laUse, Use.lanes, List.append_nil] using hb) rfl (by rw [putEl_lane])
theorem execQstat_runs (x : QTwo) :
    let y := group s g
    let a := regNo x.a x.c.stepA 1 y.lane.rep
    Below s g (regs true x.d x.c.stepD y.lane.rep) [a] →
    execQstat x s = .next (laneNext s g (putWide y true (regNo x.d x.c.stepD 2 y.lane.rep) (execLanes y x.c.pred x.c.neg)
      ((qreg y a).map fun q => q.low ++ (0 : BitVec 24) ++ laStatus q)) x.c.rep.toNat) := by
  intro y a hb
  simp only [execQstat, h.repNow, regs_headD, statusWord_eq]
  exact laneOp_runs h x.c (by simpa only [laUse, Use.lanes, List.append_nil] using hb) rfl fun _ _ => putWide_lane ..
theorem execQseg_runs (x : QSegArgs) :
    let y := group s g
    let a := regNo x.a x.c.stepA 1 y.lane.rep
    Below s g (regs true x.d x.c.stepD y.lane.rep) [a] →
    execQseg x s = .next (laneNext s g (putWide y true (regNo x.d x.c.stepD 2 y.lane.rep) (execLanes y x.c.pred x.c.neg)
      ((qreg y a).map fun q => BitVec.ofNat 64 (laValue q / 2 ^ (64 * x.n.toNat)))) x.c.rep.toNat) := by
  intro y a hb
  simp only [execQseg, h.repNow, regs_headD]
  exact laneOp_runs h x.c (by simpa only [laUse, Use.lanes, List.append_nil] using hb) rfl fun _ _ => putWide_lane ..
end

end Sys2Proof.Machine
end

section
/-! PROOFS. Number formats (family 04): one issue of a lane memory instruction whose lanes are served at once. -/

namespace Sys2Proof.Machine
open Sys2Proof

/-! The lanes of an issue (R41, R55). -/

theorem maskOf_false : maskOf (fun _ => false) = 0 := by
  ext i hi
  simp [← BitVec.getLsbD_eq_getElem]
theorem lanesOf_bitsMask (bs : List Bool) : lanesOf (bitsMask bs) = (List.range 128).filter fun i => bs.getD i false :=
  List.filter_congr fun i hi => by rw [bitsMask, getLsbD_maskOf, decide_eq_true (List.mem_range.mp hi), Bool.true_and]
theorem mem_lanesOf {m : Mask} {i : Nat} : i ∈ lanesOf m ↔ i < 128 ∧ m.getLsbD i = true := by simp [lanesOf]

/-- What an access under way has become, lanes in a list being served: the lanes are left out, and nothing of it but the runs written and the
last lane has changed. -/
structure Served (a b : LaneAcc) (l : List Nat) : Prop where
  op : b.op = a.op
  faults : b.faults = a.faults
  clobbers : b.clobbers = a.clobbers
  left : ∀ i, b.left.getLsbD i = (a.left.getLsbD i && !l.contains i)

theorem Served.nil (a : LaneAcc) : Served a a [] := ⟨rfl, rfl, rfl, fun i => by simp⟩
theorem Served.cons {s : State} {a b : LaneAcc} {i : Nat} {l : List Nat} {w : List (Nat × Nat)} (h : Served (laneServed s a i w none).2 b l) : Served a b (i :: l) where
  op := h.op
  faults := h.faults
  clobbers := h.clobbers
  left k := by
    rw [h.left, laneServed, BitVec.getLsbD_and, BitVec.getLsbD_not, getLsbD_maskOf, List.contains_cons]
    by_cases hk : k < 128
    · simp [hk, Bool.and_assoc]
    · simp [BitVec.getLsbD_of_ge _ _ (Nat.le_of_not_lt hk)]
/-- Lanes that are each served, one after the other. -/
theorem foldl_serveLane {P : State → Prop} {f : State → Nat → State} {g : Nat} {op : LaneMem} : ∀ (l : List Nat),
    (∀ i ∈ l, ∀ t, P t → P (f t i) ∧ ∀ a : LaneAcc, a.op = op → ∃ w, serveLane t g a i = laneServed (f t i) a i w none) →
    ∀ (t : State) (a : LaneAcc), P t → a.op = op →
      P (l.foldl f t) ∧ ∃ b, l.foldl (fun (p : State × LaneAcc) i => serveLane p.1 g p.2 i) (t, a) = (l.foldl f t, b) ∧ Served a b l
  | [], _, t, a, ht, _ => ⟨ht, a, rfl, Served.nil a⟩
  | i :: l, h, t, a, ht, ha => by
    obtain ⟨hf, hserve⟩ := h i List.mem_cons_self t ht
    obtain ⟨w, hw⟩ := hserve a ha
    obtain ⟨hp, b, hb, hs⟩ := foldl_serveLane l (fun k hk => h k (List.mem_cons_of_mem _ hk)) (f t i) (laneServed (f t i) a i w none).2 hf ha
    exact ⟨hp, b, by rw [List.foldl_cons, hw]; exact hb, hs.cons⟩

/-! The end of an issue that met no fault (R234, R235). -/

/-- The group whose access is over: the lane position advanced, the counters' fall due. -/
def endedLane (x : Group) (op : LaneMem) : Group :=
  { x with
    lane := advanceLane x.lane op.n
    fly := { x.fly with lane := none }
    cnt := { x.cnt with loadsDue := x.cnt.loadsDue + if op.counted then 1 else 0, storesDue := x.cnt.storesDue + if op.writes then 1 else 0 } }

theorem cleanBad_clean {t : State} (hb : t.bad = []) (runs : List (Nat × Nat)) : cleanBad t runs = t := if_pos (by rw [hb]; rfl)
theorem cleanRuns_clean {t : State} {g : Nat} (hb : t.bad = []) (hp : (ownTeam t g).poison = []) (sp : Bool) (runs : List (Nat × Nat)) :
    ∃ ts, cleanRuns t g sp runs = { t with work := { t.work with teams := ts } } ∧ ∀ k, tget Team.blank ts k = team t k := by
  cases sp with
  | false => exact ⟨t.work.teams, (cleanBad_clean hb runs :), fun _ => rfl⟩
  | true =>
    refine ⟨tput Team.blank t.work.teams (group t g).team (team t (group t g).team), ?_, fun k => ?_⟩
    · have hp' : (team t (group t g).team).poison = [] := hp
      simp only [cleanRuns, modTeam, hp', List.isEmpty_nil, if_true]
      rfl
    · rw [tget_tput]
      split
      · next h => rw [h]
      · rfl
theorem advanceLane_clob (l : LaneCtx) (n : Nat) : (advanceLane l n).clob = l.clob := by unfold advanceLane; split <;> rfl

theorem endLaneMem_quiet {t : State} {g : Nat} {a : LaneAcc} (hb : t.bad = []) (hp : (ownTeam t g).poison = [])
    (hf : ∀ f ∈ t.work.faults, f.1 ≠ .lane g) (hsamp : (group t g).trace.samples = []) (hclob : (group t g).lane.clob = [])
    (hm : (group t g).lane.park.fmask = 0) (hr : (group t g).lane.park.replaying = false) (hfa : a.faults = []) (hcl : a.clobbers = []) :
    ∃ ts, endLaneMem t g a = setGroup { t with work := { t.work with teams := ts } } g (endedLane (group t g) a.op) ∧
      ∀ k, tget Team.blank ts k = team t k := by
  obtain ⟨ts, hts, hteam⟩ := cleanRuns_clean hb hp a.op.sp (if a.op.bits = 4 then wholeBytes a.wrote else a.wrote)
  refine ⟨ts, ?_, hteam⟩
  obtain ⟨-, -, hpark⟩ := advanceLane_keeps (group t g).lane a.op.n
  have hissue : countIssue (advanceLane (group t g).lane a.op.n) = advanceLane (group t g).lane a.op.n := by
    rw [countIssue, hpark, if_pos hm]
  have hdone : replayDone (advanceLane (group t g).lane a.op.n) = false := by rw [replayDone, hpark, hr, Bool.false_and]
  have hsample : ∀ ex done last f, stepSample { t with work := { t.work with teams := ts } } g ex done last f =
      { t with work := { t.work with teams := ts } } := fun ex done last f => by
    have : (group { t with work := { t.work with teams := ts } } g).trace.samples = [] := hsamp
    simp only [stepSample, this, List.find?_nil]
  have hnote : noteClobbers (group t g).lane [] = (group t g).lane := rfl
  have hgroup : group { t with work := { t.work with teams := ts } } g = group t g := rfl
  simp only [endLaneMem, hfa, hcl, List.any_nil, maskOf_false, bne_self_eq_false, Bool.false_or, hissue, hdone, Bool.false_eq_true, if_false,
    clearFaults_none hf, hts, hsample, modGroup, hgroup, hnote, stopAfter, Bool.and_false, Bool.false_and, laneDone, if_true, laneAdvance,
    group_setGroup_same, setGroup_setGroup, raiseClobbers, advanceLane_clob, hclob, List.isEmpty_nil, Bool.true_or]
  rfl

/-! One issue (R202, R230 to R236). -/

theorem LaneMemRuns.lane {s : State} {g : Nat} {mc : MemCtl} {base : Word} (h : LaneMemRuns s g mc base) : LaneRuns s g := h.1
theorem LaneMemRuns.clean {s : State} {g : Nat} {mc : MemCtl} {base : Word} (h : LaneMemRuns s g mc base) :
    (ownTeam s g).poison = [] ∧ s.bad = [] ∧ ∀ f ∈ s.work.faults, f.1 ≠ .lane g := by
  obtain ⟨-, -, -, -, hpo, hbad, hf, -⟩ := h
  exact ⟨hpo, hbad, hf⟩
/-- The access that an issue with no poisoned lane sends. -/
def laneAccess (s : State) (o : LaneMem) (ex : Mask) : LaneAcc := ⟨o, ex, ex, [], [], [], now s, 0xFF, none⟩
/-- A group with an access under way, its counters raised. -/
def sentLane (x : Group) (a : LaneAcc) : Group :=
  { x with
    fly := { x.fly with lane := some a }
    cnt := { x.cnt with loads := x.cnt.loads + if a.op.counted then 1 else 0, stores := x.cnt.stores + if a.op.writes then 1 else 0 } }

/-- The group of a state once it has sent an access that serves the given lanes. -/
def sentFrom (s : State) (g : Nat) (c : LaneCtl) (op : LaneMem) : Group :=
  sentLane (group s g) (laneAccess s op (bitsMask (execLanes (group s g) c.pred c.neg)))

theorem memIssue_sends {s : State} {g : Nat} {mc : MemCtl} {base : Word} (h : LaneMemRuns s g mc base) {u : Use} (ht : issueTrap (descOf s g) u = none)
    (c : LaneCtl) {m : Group → LaneMem} {op : LaneMem} (hm : m (group s g) = op) (hro : op.ro = false) (hs : op.sampled = false) :
    memIssue s c u m = .next (serveLanes (setGroup s g (sentFrom s g c op)) g) := by
  obtain ⟨⟨hcur, hpo, hf, hr⟩, -, -, -, -, -, -, -, hl, hst⟩ := h
  have hfull : (op.counted && decide (0xFFFF ≤ (group s g).cnt.loads) || op.writes && decide (0xFFFF ≤ (group s g).cnt.stores)) = false := by
    rw [decide_eq_false (by omega), decide_eq_false (by omega), Bool.and_false, Bool.and_false, Bool.or_false]
  have hleft : ∀ ex : Mask, ex &&& ~~~(0 : Mask) = ex := fun ex => by
    rw [show (0 : Mask) = 0#128 from rfl, BitVec.not_zero, BitVec.and_allOnes]
  have hpo' : (group s g).poison.isEmpty = true := by rw [hpo]; rfl
  obtain ⟨kind, n, sp, ro, acq, bits, dst, src, addrs, drop⟩ := op
  obtain rfl : ro = false := hro
  simp only [memIssue, onGroup, hcur, stopsRunOn, hf, bne_self_eq_false, Bool.and_false, Bool.false_and, Bool.false_eq_true, if_false, ht, hm, hfull,
    hpo', if_true, dropsNow, hr, List.any_nil, maskOf_false, hleft, hs]
  rfl

end Sys2Proof.Machine
end

section
/-! PROOFS. Number formats (family 04): the lanes of `qspill` and `qfill`, each served at once (R232, R260). -/

namespace Sys2Proof.Machine
open Sys2Proof

/-! What the lanes served so far leave as it was. -/

/-- A state between the lanes of an issue: beside memory, the bytes of the group's scratchpad and its long accumulators it is the one in which the
access was sent, its group being x. -/
structure Steady (s : State) (g : Nat) (x : Group) (t : State) : Prop where
  state : t = { s with mem := t.mem, work := { s.work with groups := t.work.groups, teams := t.work.teams } }
  team : team t (group s g).team = { team s (group s g).team with scratch := (team t (group s g).team).scratch }
  own : group t g = { x with r := { x.r with q := (group t g).r.q } }
  others : ∀ h, h ≠ g → group t h = group s h

section
variable {s t : State} {g : Nat} {x : Group}

theorem Steady.sent (s : State) (g : Nat) (x : Group) : Steady s g x (setGroup s g x) where
  state := rfl
  team := rfl
  own := by rw [group_setGroup_same]
  others h hne := (group_setGroup ..).trans (if_neg hne)
theorem Steady.mem (h : Steady s g x t) (m : List Host.Cell) : Steady s g x { t with mem := m } where
  state := congrArg (fun t : State => { t with mem := m }) h.state
  team := h.team
  own := h.own
  others := h.others
theorem Steady.scratch (h : Steady s g x t) (off : Nat) (bs : List Byte) :
    Steady s g x (setTeam t (group s g).team (scratchPut (Machine.team t (group s g).team) off bs)) where
  state := congrArg (fun y : State => setTeam y (group s g).team (scratchPut (Machine.team t (group s g).team) off bs)) h.state
  team := by
    rw [team_setTeam_same, scratchPut]
    exact congrArg (fun y : Team => { y with scratch := mwrite (Machine.team t (group s g).team).scratch off bs }) h.team
  own := h.own
  others := h.others
theorem putSlot_clean {y : Group} (hp : y.poison = []) (q i : Nat) (a : LA) : putSlot y q i a = setQreg y q (setAt (qreg y q) i a) := by
  have h : ∀ f : PoisonUnit → Bool, y.poison.filter f = y.poison := fun f => by rw [hp]; rfl
  rw [putSlot, h]
  rfl
theorem Steady.slot (h : Steady s g x t) (hp : x.poison = []) (q i : Nat) (a : LA) : Steady s g x (modGroup t g fun y => putSlot y q i a) where
  state := congrArg (fun y : State => setGroup y g (putSlot (group t g) q i a)) h.state
  team := h.team
  own := by
    have hp' : (group t g).poison = [] := (congrArg Group.poison h.own).trans hp
    rw [modGroup, group_setGroup_same, putSlot_clean hp']
    exact congrArg (fun y : Group => setQreg y q (setAt (qreg (group t g) q) i a)) h.own
  others k hne := ((group_setGroup ..).trans (if_neg hne)).trans (h.others k hne)

/-! What decides how a lane's access is served, as it was (R97, R322). -/

theorem Steady.untagged (h : Steady s g x t) {off n : Nat} (hu : Untagged (ownTeam s g) off n) : Untagged (Machine.team t (group s g).team) off n := by
  intro i hi
  rw [h.team]
  exact hu i hi
theorem Steady.bad (h : Steady s g x t) : t.bad = s.bad := (congrArg State.bad h.state).trans rfl
theorem Steady.launch (h : Steady s g x t) (l : Nat) : launch t l = launch s l :=
  (congrArg (fun y : State => Machine.launch y l) h.state).trans rfl

section
variable (h : Steady s g x t) (hx : x.team = (group s g).team)
include h hx

theorem Steady.teamNo : (group t g).team = (group s g).team := (congrArg Group.team h.own).trans hx
theorem Steady.ownTeam : ownTeam t g = Machine.team t (group s g).team := by rw [Machine.ownTeam, h.teamNo hx]
theorem Steady.poison : (Machine.ownTeam t g).poison = (Machine.ownTeam s g).poison := by
  rw [h.ownTeam hx, h.team]
  rfl
theorem Steady.launchOf : launchOf t g = launchOf s g := by
  rw [Machine.launchOf, h.teamNo hx, h.team]
  rfl
theorem Steady.descOf : descOf t g = descOf s g := by rw [Machine.descOf, h.launchOf hx, h.launch, Machine.descOf]
theorem Steady.whoOf (a : Agent) : whoOf t g a = whoOf s g a := by
  have hc : coreOf t g = coreOf s g := by
    rw [coreOf, h.teamNo hx, h.team]
    rfl
  simp only [Machine.whoOf, h.launchOf hx, h.launch, hc]
/-- A lane's access within one page whose entry serves it is translated as in the state in which it was sent. -/
theorem Steady.xlate {acc : BitVec 3} {va : Word} {n : Nat} {e : TlbEntry} (hn : 0 < n) (hf : ∀ f ∈ s.work.faults, f.1 ≠ .lane g)
    (hm : LaneMemReady s g acc va n e) :
    xlate t (Machine.whoOf t g (.lane g)) acc va n = (t, .ok [⟨leafFlat e.leaf e.level va, n, false⟩]) := by
  obtain ⟨hp, -, ht, hr, hw, hc, h57, -, hreach⟩ := hm
  have hdie : ∀ k, die t k = die s k := fun k => (congrArg (fun y : State => die y k) h.state).trans rfl
  have hfaults : t.work.faults = s.work.faults := (congrArg (fun y : State => y.work.faults) h.state).trans rfl
  rw [h.whoOf hx, ← h57]
  refine xlate_page hn hp (hfaults ▸ hf) ?_ hr hw ?_ ((congrArg (fun y : State => Reached y (Machine.whoOf s g (.lane g)) va n) h.state).mpr hreach)
  · rw [hdie]
    exact ht
  · rw [hdie]
    exact hc
theorem Steady.unmet {acc : BitVec 3} {va : Word} {n : Nat} {e : TlbEntry} (hm : LaneMemReady s g acc va n e) :
    objsMet t (Machine.whoOf t g (.lane g)).part va n = [] := by
  obtain ⟨-, -, -, -, -, -, -, ho, -⟩ := hm
  rw [h.whoOf hx]
  exact (congrArg (fun y : State => objsMet y (partOf s g) va n) h.state).trans ho
end
end

/-! One lane's service (R232, R260). -/

/-- The access of `qspill` on a slot of the register q. -/
def spillOp (y : Group) (x : QMemArgs) (q : Nat) : LaneMem := ⟨.spill x.norm, x.c.rep.toNat, x.sp, false, false, 1024, [], [q], spillAddrs y x, []⟩
/-- And that of `qfill`. -/
def fillOp (y : Group) (x : QMemArgs) (q : Nat) : LaneMem := ⟨.fill, x.c.rep.toNat, x.sp, false, false, 1024, [q], [], spillAddrs y x, []⟩
/-- The address of lane k. -/
def spillAddr (y : Group) (x : QMemArgs) (k : Nat) : Word := captured y x.base + (x.off.signExtend 64 : Word) + BitVec.ofNat 64 (128 * k)

theorem getD_spillAddrs (y : Group) (x : QMemArgs) {i : Nat} (hi : i < 128) : (spillAddrs y x).getD i (0, false) = (spillAddr y x i, false) := by
  simp [spillAddrs, contAddrs, spillAddr, List.getD_eq_getElem?_getD, hi, Nat.mul_comm]

theorem spillOp_rights (y : Group) (x : QMemArgs) (q : Nat) : (spillOp y x q).rights = 2 :=
  show BitVec.ofBool false ++ BitVec.ofBool true ++ BitVec.ofBool false = (2 : BitVec 3) from by decide
theorem fillOp_rights (y : Group) (x : QMemArgs) (q : Nat) : (fillOp y x q).rights = 1 :=
  show BitVec.ofBool false ++ BitVec.ofBool false ++ BitVec.ofBool true = (1 : BitVec 3) from by decide
theorem LaneMem.size_record {m : LaneMem} (h : m.bits = 1024) : m.size = 128 := by rw [LaneMem.size, h]; rfl

section
variable {t : State} {g i : Nat} {a : LaneAcc} {va : Word} (hv : a.op.addrs.getD i (0, false) = (va, false)) (hs : a.op.bits = 1024)
include hv hs

/-- A lane's access at the scratchpad whose checks pass. -/
theorem serveLane_scratch (hsp : a.op.sp = true) (hr : LaneScratchReady t g va 128) (hp : (ownTeam t g).poison = []) {r : State}
    (hl : ∃ w, scratchLane t g a.op i va.toNat false = (r, w, none)) : ∃ w, serveLane t g a i = laneServed r a i w none := by
  obtain ⟨w, hl⟩ := hl
  obtain ⟨hal, hend⟩ := hr
  have hpo : scratchPoison (team t (group t g).team) va.toNat a.op.size = none := scratchPoison_none hp ..
  have hsize := LaneMem.size_record hs
  rw [hsize] at hpo
  simp only [serveLane, hv, hsp, hsize, hal, ne_eq, not_true_eq_false, decide_false, Bool.false_eq_true, if_true, if_false,
    Nat.not_lt.mpr hend, hpo, ite_self, hl]
  exact ⟨w, rfl⟩
/-- A lane's access in virtual memory whose checks pass and whose page is translated. -/
theorem serveLane_home {acc : BitVec 3} {flat : Nat} (hacc : a.op.rights = acc) (hsp : a.op.sp = false) (hro : a.op.ro = false) (hal : va.toNat % 128 = 0)
    (hm : addressFault (descOf t g).mask va 128 = none) (hb : t.bad = [])
    (hx : xlate t (whoOf t g (.lane g)) acc va 128 = (t, .ok [⟨flat, 128, false⟩])) {r : State}
    (hl : ∃ w, homeLane t g a.op a.snap i va false [⟨flat, 128, false⟩] = (r, w)) : ∃ w, serveLane t g a i = laneServed r a i w none := by
  obtain ⟨w, hl⟩ := hl
  have hmask : addressFault (whoOf t g (.lane g)).mask va 128 = none := hm
  have hsize := LaneMem.size_record hs
  simp only [serveLane, hv, hsp, hro, hsize, hal, hacc, ne_eq, not_true_eq_false, decide_false, Bool.and_false, Bool.false_eq_true, if_false,
    hmask, hx, poisonIn_none hb, ite_self, hl]
  exact ⟨w, rfl⟩
end

section
variable {s t : State} {g i : Nat} {x : Group} (h : Steady s g x t) (hx : x.team = (group s g).team) {y : Group} {z : QMemArgs} {q : Nat} {a : LaneAcc}
  (hi : i < 128)
include h hx hi

section
variable (ha : a.op = spillOp y z q) {bs : List Byte} (hb : spillBytes (group t g) z.norm q i = bs) (hl : bs.length = 128)
include ha hb hl

theorem serveLane_spill_scratch (hsp : z.sp = true) (hr : LaneScratchReady s g (spillAddr y z i) 128)
    (hp : (ownTeam s g).poison = []) (hu : Untagged (ownTeam s g) (spillAddr y z i).toNat 128) :
    ∃ w, serveLane t g a i = laneServed (setTeam t (group s g).team (scratchPut (team t (group s g).team) (spillAddr y z i).toNat bs)) a i w none := by
  have hpt : (team t (group s g).team).poison = [] := by rw [h.team]; exact hp
  refine serveLane_scratch (by rw [ha]; exact getD_spillAddrs y z hi) (by rw [ha]; rfl) (by rw [ha]; exact hsp)
    (by rwa [LaneScratchReady, h.descOf hx]) ((h.poison hx).trans hp) ?_
  simp only [ha, scratchLane, spillOp, List.headD_cons, hb, h.teamNo hx, scratchWrite_untagged hl (h.untagged hu) hpt]
  exact ⟨_, rfl⟩
theorem serveLane_spill_home {e : TlbEntry} (hsp : z.sp = false) (hf : ∀ f ∈ s.work.faults, f.1 ≠ .lane g) (hbad : s.bad = [])
    (hr : LaneMemReady s g 2 (spillAddr y z i) 128 e) (hal : (spillAddr y z i).toNat % 128 = 0) :
    ∃ w, serveLane t g a i = laneServed { t with mem := mwrite t.mem (leafFlat e.leaf e.level (spillAddr y z i)) bs } a i w none := by
  have hu := h.unmet hx hr
  refine serveLane_home (by rw [ha]; exact getD_spillAddrs y z hi) (by rw [ha]; rfl) (by rw [ha, spillOp_rights]) (by rw [ha]; exact hsp) (by rw [ha]; rfl) hal
    (by rw [h.descOf hx]; exact hr.2.1) (h.bad.trans hbad) (h.xlate hx (by decide) hf hr) ?_
  simp only [ha, homeLane, spillOp, List.headD_cons, hb, homeWrite_unmet hl hu]
  exact ⟨_, rfl⟩
end

section
variable (ha : a.op = fillOp y z q)
include ha

theorem serveLane_fill_scratch (hsp : z.sp = true) (hr : LaneScratchReady s g (spillAddr y z i) 128)
    (hp : (ownTeam s g).poison = []) (ht : team t (group s g).team = ownTeam s g) :
    ∃ w, serveLane t g a i = laneServed (modGroup t g fun y' => putSlot y' q i (laOfBytes (scratchRead (ownTeam s g) (spillAddr y z i).toNat 128)))
      a i w none := by
  refine serveLane_scratch (by rw [ha]; exact getD_spillAddrs y z hi) (by rw [ha]; rfl) (by rw [ha]; exact hsp)
    (by rwa [LaneScratchReady, h.descOf hx]) ((h.poison hx).trans hp) ?_
  have hs : (fillOp y z q).size = 128 := LaneMem.size_record rfl
  simp only [ha, scratchLane, h.teamNo hx, ht, hs]
  exact ⟨_, rfl⟩
theorem serveLane_fill_home {e : TlbEntry} (hsp : z.sp = false) (hf : ∀ f ∈ s.work.faults, f.1 ≠ .lane g) (hbad : s.bad = [])
    (hr : LaneMemReady s g 1 (spillAddr y z i) 128 e) (hal : (spillAddr y z i).toNat % 128 = 0) (ht : t.mem = s.mem) :
    ∃ w, serveLane t g a i = laneServed
      (modGroup t g fun y' => putSlot y' q i (laOfBytes (mread s.mem (leafFlat e.leaf e.level (spillAddr y z i)) 128))) a i w none := by
  have hu := h.unmet hx hr
  refine serveLane_home (by rw [ha]; exact getD_spillAddrs y z hi) (by rw [ha]; rfl) (by rw [ha, fillOp_rights]) (by rw [ha]; exact hsp) (by rw [ha]; rfl) hal
    (by rw [h.descOf hx]; exact hr.2.1) (h.bad.trans hbad) (h.xlate hx (by decide) hf hr) ?_
  simp only [ha, homeLane, fillOp, List.headD_cons, homeRead_unmet hu, ht]
  exact ⟨_, rfl⟩
end
end

end Sys2Proof.Machine
end

section
/-! PROOFS. Number formats (family 04): `qspill` and `qfill`, all lanes together (R234, R260). -/

namespace Sys2Proof.Machine
open Sys2Proof

/-! One issue whose lanes are all served at once. -/

/-- The lanes that execute an instruction of 32- or 64-bit elements, ascending. -/
def servedLanes (x : Group) (c : LaneCtl) : List Nat := (List.range 128).filter (executes x c)
theorem mem_servedLanes {x : Group} {c : LaneCtl} {i : Nat} : i ∈ servedLanes x c ↔ i < 128 ∧ executes x c i = true := by simp [servedLanes]
theorem servedLanes_sorted (x : Group) (c : LaneCtl) : (servedLanes x c).Pairwise (· < ·) := List.pairwise_lt_range.filter _

theorem laneMemDone_ended {s r : State} {g : Nat} {c : LaneCtl} {op : LaneMem} {q : Tab (List LA)}
    (hg : group r g = endedLane { sentFrom s g c op with r := { (group s g).r with q := q } } op) (ho : ∀ h, h ≠ g → group r h = group s h) :
    LaneMemDone s r g op.n (if op.counted then 1 else 0) (if op.writes then 1 else 0) := by
  refine ⟨⟨ho, ?_, ?_, ?_, ?_, ?_, ?_, ?_, ?_⟩, ?_, ?_⟩ <;> rw [hg] <;> rfl

/-- An issue each of whose executing lanes is served: f serves one lane, and P holds between them. -/
theorem memIssue_serves {s : State} {g : Nat} {mc : MemCtl} {base : Word} (h : LaneMemRuns s g mc base) {u : Use} (ht : issueTrap (descOf s g) u = none)
    (c : LaneCtl) {m : Group → LaneMem} {op : LaneMem} (hm : m (group s g) = op) (hro : op.ro = false) (hs : op.sampled = false) {P : State → Prop}
    {f : State → Nat → State} (hP : ∀ t, P t → Steady s g (sentFrom s g c op) t) (start : P (setGroup s g (sentFrom s g c op)))
    (step : ∀ i < 128, executes (group s g) c i = true → ∀ t, P t → P (f t i) ∧
      ∀ a : LaneAcc, a.op = op → ∃ w, serveLane t g a i = laneServed (f t i) a i w none) :
    ∃ r, memIssue s c u m = .next r ∧ LaneMemDone s r g op.n (if op.counted then 1 else 0) (if op.writes then 1 else 0) ∧
      let t := (servedLanes (group s g) c).foldl f (setGroup s g (sentFrom s g c op))
      r.mem = t.mem ∧ ownTeam r g = ownTeam t g ∧ (group r g).r = (group t g).r := by
  have hissue := memIssue_sends h ht c hm hro hs
  obtain ⟨⟨-, -, hfm, hrp⟩, ⟨-, hsamp⟩, -, -, hpo, hbad, hfaults, hclob, -, -⟩ := h
  have hlanes : lanesOf (bitsMask (execLanes (group s g) c.pred c.neg)) = servedLanes (group s g) c := lanesOf_bitsMask _
  generalize hacc : laneAccess s op (bitsMask (execLanes (group s g) c.pred c.neg)) = acc
  have hop : acc.op = op := by rw [← hacc]; rfl
  have hal : lanesOf acc.left = servedLanes (group s g) c := by rw [← hacc]; exact hlanes
  obtain ⟨hpt, b, hfold, hserved⟩ := foldl_serveLane (servedLanes (group s g) c) (fun i hi => step i (mem_servedLanes.mp hi).1 (mem_servedLanes.mp hi).2)
    _ acc start hop
  generalize htd : (servedLanes (group s g) c).foldl f (setGroup s g (sentFrom s g c op)) = t at hpt hfold
  have hst := hP t hpt
  have hleft : b.left = 0 := by
    refine BitVec.eq_of_getLsbD_eq fun i hi => ?_
    rw [hserved.left, ← hal]
    cases hb : acc.left.getLsbD i with
    | false => simp
    | true =>
      rw [List.contains_iff_mem.mpr (mem_lanesOf.mpr ⟨hi, hb⟩)]
      simp
  have hown : ∀ {α : Type} (p : Group → α), p (group t g) = p { sentFrom s g c op with r := { (group s g).r with q := (group t g).r.q } } :=
    fun p => congrArg p hst.own
  have hwf : t.work.faults = s.work.faults := (congrArg (fun y : State => y.work.faults) hst.state).trans rfl
  have hfa : b.faults = [] := hserved.faults.trans (by rw [← hacc]; rfl)
  have hcl : b.clobbers = [] := hserved.clobbers.trans (by rw [← hacc]; rfl)
  obtain ⟨ts, hend, hteam⟩ := endLaneMem_quiet (t := t) (g := g) (a := b) (hst.bad.trans hbad) ((hst.poison rfl).trans hpo) (hwf ▸ hfaults)
    ((hown (fun y => y.trace.samples)).trans hsamp) ((hown (fun y => y.lane.clob)).trans hclob) ((hown (fun y => y.lane.park.fmask)).trans hfm)
    ((hown (fun y => y.lane.park.replaying)).trans hrp) hfa hcl
  have hserve : serveLanes (setGroup s g (sentFrom s g c op)) g = endLaneMem t g b := by
    have hfly : (group (setGroup s g (sentFrom s g c op)) g).fly.lane = some acc := by rw [group_setGroup_same, ← hacc]; rfl
    simp only [serveLanes, hfly, hal, hfold, hleft, if_true]
  refine ⟨_, hissue.trans (congrArg Host.Outcome.next (hserve.trans hend)), ?_, rfl, ?_, ?_⟩
  · refine laneMemDone_ended (c := c) (q := (group t g).r.q) ?_ fun k hk => ?_
    · rw [group_setGroup_same, hserved.op, hop]
      exact congrArg (endedLane · op) hst.own
    · exact ((group_setGroup ..).trans (if_neg hk)).trans (hst.others k hk)
  · rw [ownTeam, group_setGroup_same]
    exact hteam _
  · rw [group_setGroup_same]
    rfl

end Sys2Proof.Machine
end

section
/-! PROOFS. Number formats (family 04): what the lanes of `qspill` and `qfill` leave together (R234, R260). -/

namespace Sys2Proof.Machine
open Sys2Proof

/-! Runs of bytes written one after the other (R235). -/

/-- Byte b of the number that bytes hold. -/
theorem ofNat_ofLe_div (bs : List Byte) (b : Nat) : BitVec.ofNat 8 (ofLe bs / 256 ^ b) = bs.getD b 0 := by
  induction bs generalizing b with
  | nil => simp [ofLe]
  | cons x bs ih =>
    cases b with
    | zero =>
      apply BitVec.eq_of_toNat_eq
      have := x.isLt
      simp only [ofLe, Nat.pow_zero, Nat.div_one, BitVec.toNat_ofNat, List.getD_cons_zero]
      omega
    | succ b =>
      have hdiv : ofLe (x :: bs) / 256 ^ (b + 1) = ofLe bs / 256 ^ b := by
        rw [Nat.pow_succ', ← Nat.div_div_eq_div_mul, ofLe, Nat.add_mul_div_left _ _ (by decide), Nat.div_eq_of_lt x.isLt, Nat.zero_add]
      rw [hdiv, ih, List.getD_cons_succ]

section
variable {n : Nat} {place : Nat → Nat} {bs : Nat → List Byte}

/-- A byte that no run covers is as it was. -/
theorem mbyte_foldl_outside {a : Nat} : ∀ (l : List Nat) (m : List Host.Cell), (∀ i ∈ l, (bs i).length = n) →
    (∀ i ∈ l, a < place i ∨ place i + n ≤ a) → mbyte (l.foldl (fun m i => mwrite m (place i) (bs i)) m) a = mbyte m a
  | [], _, _, _ => rfl
  | i :: l, m, hl, ha => by
    have hlen := hl i List.mem_cons_self
    have hout := ha i List.mem_cons_self
    rw [List.foldl_cons, mbyte_foldl_outside l _ (fun k hk => hl k (List.mem_cons_of_mem _ hk)) (fun k hk => ha k (List.mem_cons_of_mem _ hk)),
      mbyte_mwrite, if_neg (by omega)]
/-- A run that no later one meets holds its bytes. -/
theorem mbyte_foldl_at {i b : Nat} (hb : b < n) : ∀ (l : List Nat) (m : List Host.Cell), l.Pairwise (· < ·) → (∀ i ∈ l, (bs i).length = n) → i ∈ l →
    (∀ k ∈ l, i < k → place k + n ≤ place i ∨ place i + n ≤ place k) →
    mbyte (l.foldl (fun m i => mwrite m (place i) (bs i)) m) (place i + b) = (bs i).getD b 0
  | [], _, _, _, hi, _ => absurd hi List.not_mem_nil
  | k :: l, m, hs, hl, hi, hd => by
    obtain ⟨hk, hs⟩ := List.pairwise_cons.mp hs
    have hl' : ∀ j ∈ l, (bs j).length = n := fun j hj => hl j (List.mem_cons_of_mem _ hj)
    have hd' : ∀ j ∈ l, i < j → place j + n ≤ place i ∨ place i + n ≤ place j := fun j hj => hd j (List.mem_cons_of_mem _ hj)
    rw [List.foldl_cons]
    obtain rfl | hi := List.mem_cons.mp hi
    · have hlen := hl i List.mem_cons_self
      rw [mbyte_foldl_outside l _ hl' fun j hj => by have := hd' j hj (hk j hj); omega, mbyte_mwrite, if_pos (by omega), Nat.add_sub_cancel_left]
    · exact mbyte_foldl_at hb l _ hs hl' hi hd'
/-- Runs written by the executing lanes in ascending order. -/
theorem lanesStored_foldl (x : Group) (c : LaneCtl) (hl : ∀ i < 128, executes x c i = true → (bs i).length = n) (m : List Host.Cell) :
    LanesStored x c (executes x c) n false (fun _ => 0) place (fun i => ofLe (bs i)) (mbyte m)
      (mbyte ((servedLanes x c).foldl (fun m i => mwrite m (place i) (bs i)) m)) := by
  have hl' : ∀ i ∈ servedLanes x c, (bs i).length = n := fun i hi => hl i (mem_servedLanes.mp hi).1 (mem_servedLanes.mp hi).2
  refine ⟨fun a ha => mbyte_foldl_outside _ _ hl' fun i hi => ha i (mem_servedLanes.mp hi).1 (mem_servedLanes.mp hi).2,
    fun h => absurd h (by decide), fun i hi hex hd b hb => ?_⟩
  rw [ofNat_ofLe_div]
  exact mbyte_foldl_at hb _ _ (servedLanes_sorted x c) hl' (mem_servedLanes.mpr ⟨hi, hex⟩) fun k hk hik =>
    hd k (mem_servedLanes.mp hk).1 hik (mem_servedLanes.mp hk).2
end

/-! Slots filled one after the other. -/

section
variable {α : Type}

theorem length_foldl_set (v : Nat → α) (l : List Nat) (xs : List α) : (l.foldl (fun xs i => setAt xs i (v i)) xs).length = xs.length := by
  induction l generalizing xs with
  | nil => rfl
  | cons i l ih => rw [List.foldl_cons, ih, setAt, List.length_set]
/-- Elements set one after the other, each to a value of its own. -/
theorem getD_foldl_set (v : Nat → α) (d : α) {k : Nat} (l : List Nat) (xs : List α) (hk : k < xs.length) :
    (l.foldl (fun xs i => setAt xs i (v i)) xs).getD k d = if k ∈ l then v k else xs.getD k d := by
  induction l generalizing xs with
  | nil => simp
  | cons i l ih =>
    rw [List.foldl_cons, ih _ (by rwa [setAt, List.length_set])]
    by_cases hkl : k ∈ l
    · simp [hkl]
    · by_cases hki : k = i
      · subst hki
        simp [hkl, setAt, List.getD_eq_getElem?_getD, hk]
      · simp [hkl, hki, setAt, List.getD_eq_getElem?_getD, List.getElem?_set_ne (Ne.symm hki)]
end

/-- Slots of a long accumulator filled one after the other: nothing but that register has changed. -/
theorem foldl_putSlot (q : Nat) (v : Nat → LA) (l : List Nat) (x : Group) :
    let z := l.foldl (fun y i => putSlot y q i (v i)) x
    z.r.v = x.r.v ∧ (∀ r, r ≠ q → qreg z r = qreg x r) ∧ qreg z q = l.foldl (fun xs i => setAt xs i (v i)) (qreg x q) := by
  induction l generalizing x with
  | nil => exact ⟨rfl, fun _ _ => rfl, rfl⟩
  | cons i l ih =>
    obtain ⟨hv, hne, heq⟩ := ih (putSlot x q i (v i))
    refine ⟨hv, fun r hr => (hne r hr).trans ((qreg_setQreg ..).trans (if_neg hr)), heq.trans ?_⟩
    exact congrArg (l.foldl (fun xs i => setAt xs i (v i))) (qreg_setQreg_same ..)

/-! The state after all lanes. -/

theorem foldl_mem (p : Nat → Nat) (bs : Nat → List Byte) (l : List Nat) (t : State) :
    l.foldl (fun t i => { t with mem := mwrite t.mem (p i) (bs i) }) t = { t with mem := l.foldl (fun m i => mwrite m (p i) (bs i)) t.mem } := by
  induction l generalizing t with
  | nil => rfl
  | cons i l ih => exact ih _
theorem foldl_scratchPut (k : Nat) (p : Nat → Nat) (bs : Nat → List Byte) (l : List Nat) (t : State) :
    let z := l.foldl (fun t i => setTeam t k (scratchPut (team t k) (p i) (bs i))) t
    z.mem = t.mem ∧ z.work.groups = t.work.groups ∧ (team z k).scratch = l.foldl (fun m i => mwrite m (p i) (bs i)) (team t k).scratch := by
  induction l generalizing t with
  | nil => exact ⟨rfl, rfl, rfl⟩
  | cons i l ih =>
    obtain ⟨hm, hg, hs⟩ := ih (setTeam t k (scratchPut (team t k) (p i) (bs i)))
    exact ⟨hm, hg, hs.trans (congrArg (fun y : Team => l.foldl (fun m i => mwrite m (p i) (bs i)) y.scratch) (team_setTeam_same ..))⟩
theorem foldl_modGroup (g : Nat) (f : Nat → Group → Group) (l : List Nat) (s : State) (x : Group) :
    l.foldl (fun t i => modGroup t g (f i)) (setGroup s g x) = setGroup s g (l.foldl (fun y i => f i y) x) := by
  induction l generalizing x with
  | nil => rfl
  | cons i l ih => rw [List.foldl_cons, modGroup, group_setGroup_same, setGroup_setGroup, ih, List.foldl_cons]

end Sys2Proof.Machine
end

section
/-! PROOFS. Number formats (family 04): `qspill`, `qfill` and the claim on the long-accumulator instructions (R255 to R260). -/

namespace Sys2Proof.Machine
open Sys2Proof

theorem spillBytes_length {y : Group} {q i : Nat} (h : ((qreg y q).getD i LA.zero).Ten) (norm : Bool) : (spillBytes y norm q i).length = 128 := by
  rw [spillBytes]
  refine laBytes_length ?_
  split
  · exact laNorm_ten _
  · exact h

section
variable {s : State} {g : Nat} {x : QMemArgs}
  (h : LaneMemRuns s g ⟨x.sp, false, false, false, 0⟩ (captured (group s g) x.base + (x.off.signExtend 64 : Word)))
include h

theorem spillTrap_none : spillTrap s x = none := by
  have hcur := h.lane.curGroup
  obtain ⟨-, -, -, hbase, -⟩ := h
  have hb : (x.sp && bits (captured (group s g) x.base + (x.off.signExtend 64 : Word)) 63 21 != 0) = false := by
    cases hsp : x.sp with
    | false => rfl
    | true =>
      rw [bits, Nat.div_eq_of_lt (hbase hsp)]
      rfl
  simp only [spillTrap, memTrap, contBase, hcur, hb, Bool.or_self, Bool.false_and, Bool.false_eq_true, if_false]
theorem spill_issues {q : Nat} (hb : Below s g [] [q]) (rq : List Nat) :
    issueTrap (descOf s g) (memUse [] [] [q] rq x.c.pred false (spillTrap s x)) = none := issueTrap_below _ hb (spillTrap_none h)

theorem execQspill_eq :
    let q := regNo x.q x.c.stepA 1 (group s g).lane.rep
    execQspill x s = memIssue s x.c (memUse [] [] [q] [q] x.c.pred false (spillTrap s x)) fun z => spillOp z x q := by
  simp only [execQspill, h.lane.repNow]
  rfl
theorem execQfill_eq :
    let q := regNo x.q x.c.stepD 1 (group s g).lane.rep
    execQfill x s = memIssue s x.c (memUse [] [] [q] [] x.c.pred false (spillTrap s x)) fun z => fillOp z x q := by
  simp only [execQfill, h.lane.repNow]
  rfl

section
variable (hb : Below s g [] [regNo x.q x.c.stepA 1 (group s g).lane.rep])
  (hten : ∀ k < 128, executes (group s g) x.c k = true → ((qreg (group s g) (regNo x.q x.c.stepA 1 (group s g).lane.rep)).getD k LA.zero).Ten)
include hb hten

theorem execQspill_scratch (hsp : x.sp = true)
    (hr : ∀ k < 128, executes (group s g) x.c k = true →
      LaneScratchReady s g (spillAddr (group s g) x k) 128 ∧ Untagged (ownTeam s g) (spillAddr (group s g) x k).toNat 128) :
    let y := group s g
    ∃ t, execQspill x s = .next t ∧ LaneMemDone s t g x.c.rep.toNat 0 1 ∧ t.mem = s.mem ∧ (group t g).r = y.r ∧
      LanesStored y x.c (executes y x.c) 128 false (fun _ => 0) (fun k => (spillAddr y x k).toNat)
        (fun k => ofLe (spillBytes y x.norm (regNo x.q x.c.stepA 1 y.lane.rep) k)) (tget 0 (ownTeam s g).scratch) (tget 0 (ownTeam t g).scratch) := by
  intro y
  have hexec := execQspill_eq h
  generalize regNo x.q x.c.stepA 1 y.lane.rep = q at hb hten hexec ⊢
  obtain ⟨hpo, -, -⟩ := h.clean
  have hlen : ∀ i < 128, executes y x.c i = true → (spillBytes y x.norm q i).length = 128 := fun i hi hex => spillBytes_length (hten i hi hex) _
  obtain ⟨r, hrun, hdone, hmem, hteam, hreg⟩ := memIssue_serves h (spill_issues h hb [q]) x.c (m := fun y => spillOp y x q) rfl rfl rfl
    (P := fun t => Steady s g (sentFrom s g x.c (spillOp y x q)) t ∧ (group t g).r = y.r)
    (f := fun t i => setTeam t y.team (scratchPut (team t y.team) (spillAddr y x i).toNat (spillBytes y x.norm q i)))
    (fun _ hP => hP.1) ⟨Steady.sent .., (congrArg Group.r (group_setGroup_same ..)).trans rfl⟩ fun i hi hex t ⟨hst, hr'⟩ => by
      obtain ⟨hready, hun⟩ := hr i hi hex
      exact ⟨⟨hst.scratch .., hr'⟩, fun a ha => serveLane_spill_scratch hst rfl hi ha (by rw [spillBytes, qreg, hr']; rfl) (hlen i hi hex) hsp hready hpo hun⟩
  obtain ⟨fmem, fgroups, fscratch⟩ := foldl_scratchPut y.team (fun i => (spillAddr y x i).toNat) (spillBytes y x.norm q) (servedLanes y x.c)
    (setGroup s g (sentFrom s g x.c (spillOp y x q)))
  have hgroup := (congrArg (fun t => tget Group.blank t g) fgroups).trans (group_setGroup_same s g (sentFrom s g x.c (spillOp y x q)))
  refine ⟨r, hexec.trans hrun, hdone, hmem.trans fmem, hreg.trans ((congrArg Group.r hgroup).trans rfl), ?_⟩
  have hno : ownTeam r g = team _ y.team := hteam.trans (congrArg (team _) ((congrArg Group.team hgroup).trans rfl))
  rw [hno, fscratch]
  exact lanesStored_foldl y x.c hlen _

theorem execQspill_memory (hsp : x.sp = false) (e : Nat → TlbEntry)
    (hr : ∀ k < 128, executes (group s g) x.c k = true →
      LaneMemReady s g 2 (spillAddr (group s g) x k) 128 (e k) ∧ (spillAddr (group s g) x k).toNat % 128 = 0) :
    let y := group s g
    ∃ t, execQspill x s = .next t ∧ LaneMemDone s t g x.c.rep.toNat 0 1 ∧ (group t g).r = y.r ∧
      LanesStored y x.c (executes y x.c) 128 false (fun _ => 0) (fun k => leafFlat (e k).leaf (e k).level (spillAddr y x k))
        (fun k => ofLe (spillBytes y x.norm (regNo x.q x.c.stepA 1 y.lane.rep) k)) (mbyte s.mem) (mbyte t.mem) := by
  intro y
  have hexec := execQspill_eq h
  generalize regNo x.q x.c.stepA 1 y.lane.rep = q at hb hten hexec ⊢
  obtain ⟨-, hbad, hf⟩ := h.clean
  have hlen : ∀ i < 128, executes y x.c i = true → (spillBytes y x.norm q i).length = 128 := fun i hi hex => spillBytes_length (hten i hi hex) _
  obtain ⟨r, hrun, hdone, hmem, -, hreg⟩ := memIssue_serves h (spill_issues h hb [q]) x.c (m := fun y => spillOp y x q) rfl rfl rfl
    (P := fun t => Steady s g (sentFrom s g x.c (spillOp y x q)) t ∧ (group t g).r = y.r)
    (f := fun t i => { t with mem := mwrite t.mem (leafFlat (e i).leaf (e i).level (spillAddr y x i)) (spillBytes y x.norm q i) })
    (fun _ hP => hP.1) ⟨Steady.sent .., (congrArg Group.r (group_setGroup_same ..)).trans rfl⟩ fun i hi hex t ⟨hst, hr'⟩ => by
      obtain ⟨hready, hal⟩ := hr i hi hex
      exact ⟨⟨hst.mem _, hr'⟩, fun a ha =>
        serveLane_spill_home hst rfl hi ha (by rw [spillBytes, qreg, hr']; rfl) (hlen i hi hex) hsp hf hbad hready hal⟩
  have hfold := foldl_mem (fun i => leafFlat (e i).leaf (e i).level (spillAddr y x i)) (spillBytes y x.norm q) (servedLanes y x.c)
    (setGroup s g (sentFrom s g x.c (spillOp y x q)))
  refine ⟨r, hexec.trans hrun, hdone, hreg.trans ?_, ?_⟩
  · rw [hfold]
    exact (congrArg Group.r (group_setGroup_same ..)).trans rfl
  · rw [hmem, hfold]
    exact lanesStored_foldl y x.c hlen _
end

section
variable (hb : Below s g [] [regNo x.q x.c.stepD 1 (group s g).lane.rep])
include hb

/-- A fill whose lanes each read the given bytes. -/
theorem execQfill_fills {bytes : Nat → List Byte} (hlen : (qreg (group s g) (regNo x.q x.c.stepD 1 (group s g).lane.rep)).length = 128)
    (hserve : ∀ i < 128, executes (group s g) x.c i = true → ∀ t q,
      Steady s g (sentFrom s g x.c (fillOp (group s g) x q)) t → t.mem = s.mem → team t (group s g).team = ownTeam s g →
      ∀ a : LaneAcc, a.op = fillOp (group s g) x q → ∃ w, serveLane t g a i = laneServed (modGroup t g fun z => putSlot z q i (laOfBytes (bytes i))) a i w none) :
    let y := group s g
    let q := regNo x.q x.c.stepD 1 y.lane.rep
    ∃ t, execQfill x s = .next t ∧ LaneMemDone s t g x.c.rep.toNat 1 0 ∧ t.mem = s.mem ∧ (group t g).r.v = y.r.v ∧
      (∀ r, r ≠ q → qreg (group t g) r = qreg y r) ∧
      ∀ k < 128, (qreg (group t g) q).getD k LA.zero = if executes y x.c k then laOfBytes (bytes k) else (qreg y q).getD k LA.zero := by
  intro y q
  have hclean : (sentFrom s g x.c (fillOp y x q)).poison = [] := h.lane.2.1
  obtain ⟨r, hrun, hdone, hmem, -, hreg⟩ := memIssue_serves h (spill_issues h hb []) x.c (m := fun y => fillOp y x q) rfl rfl rfl
    (P := fun t => Steady s g (sentFrom s g x.c (fillOp y x q)) t ∧ t.mem = s.mem ∧ team t y.team = ownTeam s g)
    (f := fun t i => modGroup t g fun z => putSlot z q i (laOfBytes (bytes i)))
    (fun _ hP => hP.1) ⟨Steady.sent .., rfl, rfl⟩ fun i hi hex t ⟨hst, hm, ht⟩ =>
      ⟨⟨hst.slot hclean .., hm, ht⟩, hserve i hi hex t q hst hm ht⟩
  have hfold := foldl_modGroup g (fun i z => putSlot z q i (laOfBytes (bytes i))) (servedLanes y x.c) s (sentFrom s g x.c (fillOp y x q))
  rw [hfold] at hmem hreg
  rw [group_setGroup_same] at hreg
  obtain ⟨hv, hne, heq⟩ := foldl_putSlot q (fun i => laOfBytes (bytes i)) (servedLanes y x.c) (sentFrom s g x.c (fillOp y x q))
  refine ⟨r, (execQfill_eq h).trans hrun, hdone, hmem, (congrArg Regs.v hreg).trans hv, fun k hk => ?_, fun k hk => ?_⟩
  · exact (congrArg (fun z : Regs => tget zeroQ z.q k) hreg).trans (hne k hk)
  · have hslot : qreg (group r g) q = _ := (congrArg (fun z : Regs => tget zeroQ z.q q) hreg).trans heq
    have hin : k ∈ servedLanes y x.c ↔ executes y x.c k = true := mem_servedLanes.trans (and_iff_right hk)
    have hk' : k < (qreg (sentFrom s g x.c (fillOp y x q)) q).length := hk.trans_eq (Eq.symm hlen)
    rw [hslot, getD_foldl_set _ _ _ _ hk']
    simp only [hin]
    rfl
end
end

/-- Settles O33: a long-accumulator instruction on registers is one issue that writes the slots, or the words, that its definition gives; the
lanes of `qspill` and `qfill` are served in ascending order, each writing or reading its own 128 bytes, and the issue then ends. -/
theorem longAccumulatorResults : Obligations.LongAccumulatorResults := by
  unfold Obligations.LongAccumulatorResults
  refine ⟨fun s g h => ?_, fun s g x => ?_⟩
  · intro y j rank
    refine ⟨?_, ?_, ?_, execQred_merges h, execQrnd_runs h, execQstat_runs h, execQseg_runs h⟩
    · intro x d hb
      simp only [List.forall_mem_cons, List.not_mem_nil, false_imp_iff, implies_true, and_true]
      constructor
      · show execQzero x s = _
        simp only [execQzero, h.repNow]
        exact laneOp_runs h x.c hb rfl fun _ _ => putSlots_lane ..
      · show execQnorm x s = _
        simp only [execQnorm, h.repNow]
        exact laneOp_runs h x.c hb rfl fun _ _ => putSlots_lane ..
    · intro x d a hb
      simp only [List.forall_mem_cons, List.not_mem_nil, false_imp_iff, implies_true, and_true]
      exact ⟨slotOp_runs h _ _ x hb, slotOp_runs h _ _ x hb⟩
    · rintro i c t names d vals hi hb on
      simp only [on, ← elemOn_eq, ← addElems_eq]
      obtain ⟨x, rfl, rfl, rfl, rfl, rfl, rfl⟩ | ⟨x, rfl, rfl, rfl, rfl, rfl, rfl⟩ := hi
      · show execQadd x s = _
        simp only [execQadd, h.repNow]
        exact accumulate_runs h x.c (by simpa only [laUse, Use.lanes, List.nil_append] using hb) rfl _ _ _
      · show execQmac x s = _
        simp only [execQmac, h.repNow]
        rw [accumulate_runs h x.c (by simpa only [laUse, Use.lanes, List.nil_append] using hb) rfl]
        cases ctypeWide (ctypeOf x.t) <;> rfl
  · intro y base at_ h
    refine ⟨fun hb => ⟨fun hsp hr => ?_, fun hsp e hr => ?_⟩, fun hb hlen => ⟨fun hsp hr => ?_, fun hsp e hr => ?_⟩⟩
    · exact execQspill_scratch h hb (fun k hk hex => (hr k hk hex).2.2) hsp fun k hk hex => ⟨(hr k hk hex).1, (hr k hk hex).2.1⟩
    · exact execQspill_memory h hb (fun k hk hex => (hr k hk hex).2.2) hsp e fun k hk hex => ⟨(hr k hk hex).1, (hr k hk hex).2.1⟩
    · obtain ⟨hpo, -, -⟩ := h.clean
      exact execQfill_fills h hb hlen fun i hi hex t q hst _ ht a ha => serveLane_fill_scratch hst rfl hi ha hsp (hr i hi hex) hpo ht
    · obtain ⟨-, hbad, hf⟩ := h.clean
      exact execQfill_fills h hb hlen fun i hi hex t q hst hm _ a ha =>
        serveLane_fill_home hst rfl hi ha hsp hf hbad (hr i hi hex).1 (hr i hi hex).2 hm

end Sys2Proof.Machine
end

section
/-! PROOFS. Memory spaces (family 05): operations that leave memory as it is. -/

namespace Sys2Proof.Machine
open Sys2Proof
set_option Elab.async false

/-- A fold of operations that each leave memory as it is leaves it so. -/
theorem foldl_memory {α : Type} {f : State → α → State} (hf : ∀ s a, (f s a).mem = s.mem) (l : List α) (s : State) :
    (l.foldl f s).mem = s.mem := by
  induction l generalizing s with
  | nil => rfl
  | cons a l ih => rw [List.foldl_cons, ih, hf]

section
variable (s : State)

/-! Named reads and writes of the state. -/

@[simp] theorem modGroup_mem (g : Nat) (f : Group → Group) : (modGroup s g f).mem = s.mem := rfl

@[simp] theorem modTeam_mem (t : Nat) (f : Team → Team) : (modTeam s t f).mem = s.mem := rfl

@[simp] theorem modLaunch_mem (l : Nat) (f : Launch → Launch) : (modLaunch s l f).mem = s.mem := rfl

@[simp] theorem modDie_mem (d : Nat) (f : Die → Die) : (modDie s d f).mem = s.mem := rfl

@[simp] theorem modCore_mem (c : Nat) (f : Core → Core) : (modCore s c f).mem = s.mem := rfl

@[simp] theorem modQueue_mem (q : Nat) (f : Queue → Queue) : (modQueue s q f).mem = s.mem := rfl

@[simp] theorem newName_mem : (newName s).2.mem = s.mem := rfl

@[simp] theorem setS_mem (r : SReg) (v : Word) : (setS s r v).mem = s.mem := by
  unfold setS
  grind [modGroup_mem, setWalk_mem]

@[simp] theorem setSpc_mem (v : Word) : (setSpc s v).mem = s.mem := by
  unfold setSpc
  grind [modGroup_mem, setWalk_mem]

/-! Translation at the owning die (R96 to R98, R322 to R327). -/

@[simp] theorem joinWalk_mem (who : Who) (va : Word) (reason : Nat) (acc : BitVec 3) : (joinWalk s who va reason acc).mem = s.mem := by
  unfold joinWalk
  grind [setWalk_mem, newName_mem]

@[simp] theorem clearFaults_mem (a : Agent) : (clearFaults s a).mem = s.mem := rfl

@[simp] theorem delivered_mem (who : Who) (va : Word) : (delivered s who va).mem = s.mem := by
  unfold delivered
  grind [setWalk_mem]

@[simp] theorem xlatePage_mem (who : Who) (acc : BitVec 3) (va : Word) (n : Nat) : (xlatePage s who acc va n).1.mem = s.mem := by
  unfold xlatePage
  grind [joinWalk_mem, delivered_mem]

@[simp] theorem xlateFrom_mem (f : Nat) (who : Who) (acc : BitVec 3) (va : Word) (n : Nat) : (xlateFrom f s who acc va n).1.mem = s.mem := by
  induction f generalizing s va n with
  | zero => rfl
  | succ f ih => rw [xlateFrom]; grind [xlatePage_mem]

@[simp] theorem xlate_mem (who : Who) (acc : BitVec 3) (va : Word) (n : Nat) : (xlate s who acc va n).1.mem = s.mem := by
  simp [xlate]

@[simp] theorem cleanBad_mem (runs : List (Nat × Nat)) : (cleanBad s runs).mem = s.mem := by
  unfold cleanBad
  split <;> simp

/-! Carillon's records and sinks (R391 to R403). -/

@[simp] theorem sinkFault_mem (p d : Nat) : (sinkFault s p d).mem = s.mem := rfl

@[simp] theorem ringXlate_mem (p d : Nat) (va : Word) (n : Nat) : (ringXlate s p d va n).1.mem = s.mem := by
  unfold ringXlate
  split <;> simp

@[simp] theorem queueRecord_mem (p d : Nat) (r : TraceRec) : (queueRecord s p d r).mem = s.mem := by
  unfold queueRecord
  split <;> simp

@[simp] theorem countLost_mem (p d : Nat) : (countLost s p d).mem = s.mem := rfl

@[simp] theorem keepRecord_mem (p d : Nat) (r : TraceRec) : (keepRecord s p d r).mem = s.mem := by
  unfold keepRecord
  grind [setSink_mem, countLost_mem]

/-! What a home does (R134 to R141, R180 to R184, R240). -/

@[simp] theorem noteSharer_mem (who : Who) (va : Word) (n : Nat) : (noteSharer s who va n).mem = s.mem := by
  unfold noteSharer
  grind [foldl_memory, modDie_mem]

/-! Shared operations of a group. -/

@[simp] theorem dropAgents_mem (g : Nat) : (dropAgents s g).mem = s.mem := rfl

@[simp] theorem leaveBooth_mem (g : Nat) : (leaveBooth s g).mem = s.mem := by
  unfold leaveBooth
  split <;> simp

@[simp] theorem settleBar_mem (l level node : Nat) : (settleBar s l level node).mem = s.mem := by
  unfold settleBar
  grind [modLaunch_mem]

@[simp] theorem settleBars_mem (l : Nat) : (settleBars s l).mem = s.mem := by
  unfold settleBars
  grind [foldl_memory, settleBar_mem]

@[simp] theorem haltGroup_mem (g : Nat) : (haltGroup s g).mem = s.mem := by
  simp [haltGroup]

@[simp] theorem sendAll_mem (ms : List Msg) : (sendAll s ms).mem = s.mem := by
  unfold sendAll
  split <;> simp

@[simp] theorem killMessages_mem (l : Nat) (e : EndInfo) : (killMessages s l e).mem = s.mem := by
  simp [killMessages]

@[simp] theorem tellChips_mem (l : Nat) (m : FarPreempt) : (tellChips s l m).mem = s.mem := by
  simp [tellChips]

@[simp] theorem wait_mem (i : Instr) : (wait s i).mem = s.mem := by
  unfold wait
  split <;> simp

@[simp] theorem tellRank_mem (t c no : Nat) : (tellRank s t c no).mem = s.mem := rfl

@[simp] theorem resumeEngines_mem (g : Nat) : (resumeEngines s g).mem = s.mem := rfl

@[simp] theorem dropRecord_mem (g code : Nat) : (dropRecord s g code).mem = s.mem := by
  unfold dropRecord
  grind [modGroup_mem, modTeam_mem, tellRank_mem]

@[simp] theorem handlerEntry_mem (g k : Nat) : (handlerEntry s g k).1.mem = s.mem := by
  unfold handlerEntry
  grind [xlate_mem]

/-! Scalar loads, stores, atomics and fences (R180 to R185). -/

@[simp] theorem noteLines_mem (c l : Nat) (va : Word) (n : Nat) : (noteLines s c l va n).mem = s.mem := by
  unfold noteLines
  split <;> simp

@[simp] theorem noteRo_mem (g : Nat) (va : Word) (n : Nat) : (noteRo s g va n).mem = s.mem := by
  simp [noteRo]

@[simp] theorem serveScalar.reply_mem (g : Nat) (a : ScalarAcc) (r : Reply) : (serveScalar.reply s g a r).mem = s.mem := rfl

@[simp] theorem writeReply_mem (k : AccKind) (raw : Word) : (writeReply s k raw).mem = s.mem := by
  unfold writeReply
  split <;> simp

@[simp] theorem scratchAccess_mem (g : Nat) (k : AccKind) (off n : Nat) : (scratchAccess s g k off n).1.mem = s.mem := by
  unfold scratchAccess
  grind [setTeam_mem]

/-! Booths (R109 to R113, R245 to R250). -/

@[simp] theorem reserveRow_mem (g : Nat) (o : BoothOp) (b : Booth) : (reserveRow s g o b).mem = s.mem := rfl

@[simp] theorem removeBooth_mem (t off : Nat) : (removeBooth s t off).mem = s.mem := by
  unfold removeBooth
  grind [foldl_memory, modTeam_mem, modGroup_mem]

/-! Bulk copies (R117, R118, R242 to R244). -/

@[simp] theorem setCopy_mem (t c : Nat) (k : Option Copy) : (setCopy s t c k).mem = s.mem := rfl

@[simp] theorem engineScratchPut_mem (t addr : Nat) (bs : List (Option Byte)) : (engineScratchPut s t addr bs).1.mem = s.mem := by
  unfold engineScratchPut
  grind [foldl_memory, modTeam_mem]

@[simp] theorem engineBuffer_mem (t addr : Nat) (bs : List (Option Byte)) : (engineBuffer s t addr bs).1.mem = s.mem := by
  unfold engineBuffer
  grind [foldl_memory, modTeam_mem]

@[simp] theorem copyClean_mem (t : Nat) (r : List Byte) : (copyClean s t r).mem = s.mem := by
  unfold copyClean
  grind [cleanBad_mem, modTeam_mem]

@[simp] theorem lowerCopy_mem (k : Copy) : (lowerCopy s k).mem = s.mem := rfl

/-! Shape records and handles (R119 to R121, R200), coherence objects (R251 to R254, R338, R341), trace markers and sampling (R201). -/

@[simp] theorem checkPages_mem (f : Nat) (who : Who) (va : Word) (n mode : Nat) : (checkPages f s who va n mode).1.mem = s.mem := by
  induction f generalizing s va n with
  | zero => rfl
  | succ f ih => rw [checkPages]; grind [xlatePage_mem]

@[simp] theorem putObj_mem (gd e : Nat) (o : CObj) : (putObj s gd e o).mem = s.mem := rfl

/-! Whole descriptors read and written by engines (R118, R266, R281). -/

@[simp] theorem freeValue_mem : (freeValue s).2.mem = s.mem := rfl

@[simp] theorem probeRun_mem (who : Who) (tm : Nat) (t : TileDesc) (r : Nat × Nat) : (probeRun s who tm t r).1.mem = s.mem := by
  unfold probeRun
  grind [xlate_mem]

@[simp] theorem probeRuns_mem  (who : Who) (tm : Nat) (t : TileDesc) (rs : List (Nat × Nat)) :
    (probeRuns s who tm t rs).1.mem = s.mem := by
  induction rs generalizing s with
  | nil => rfl
  | cons r rest ih => rw [probeRuns]; grind [probeRun_mem]

/-! Collectives (R278 to R293). -/

@[simp] theorem matchColl_mem (l level node seq size : Nat) : (matchColl s l level node seq size).2.2.mem = s.mem := by
  unfold matchColl
  split <;> simp

@[simp] theorem rankClean_mem (who : Who) (t : Nat) (dst : TileDesc) (k n : Nat) : (rankClean s who t dst k n).mem = s.mem := by
  unfold rankClean
  grind [modTeam_mem]

@[simp] theorem probeRanks_mem (c : Nat) (rs : List (Nat × CollRank)) : (probeRanks s c rs).1.mem = s.mem := by
  induction rs generalizing s with
  | nil => rfl
  | cons r rest ih => rw [probeRanks]; grind [probeRuns_mem]

@[simp] theorem dropColl_mem (c : Nat) : (dropColl s c).mem = s.mem := by
  unfold dropColl
  grind [setColl_mem]

@[simp] theorem dropSusp_mem (c : Nat) (k : Coll) : (dropSusp s c k).mem = s.mem := by
  unfold dropSusp
  grind [foldl_memory, modGroup_mem]

/-! The end of a group (R40, R187) and a partition reset (R387, R388). -/

@[simp] theorem dropJoining_mem (l : Nat) : (dropJoining s l).mem = s.mem := by
  simp [dropJoining]

@[simp] theorem releaseQueues_mem (p : Nat) : (releaseQueues s p).mem = s.mem := rfl

/-! The partition registers (R311 to R313, R324, R368, R391, R399). -/

@[simp] theorem setTrace_mem (l : Nat) (on : Bool) : (setTrace s l on).mem = s.mem := rfl

@[simp] theorem startSink_mem (p d : Nat) : (startSink s p d).mem = s.mem := rfl

/-! The privileged instructions of major 0x3C (R308 to R320). -/

@[simp] theorem slotWrap_mem (c : Nat) : (slotWrap s c).mem = s.mem := by
  unfold slotWrap
  split <;> simp

@[simp] theorem setDeadline_mem (l n : Nat) (fresh : Bool) : (setDeadline s l n fresh).mem = s.mem := rfl

@[simp] theorem askYield_mem (l dl : Nat) : (askYield s l dl).1.mem = s.mem := by
  unfold askYield
  grind [setDeadline_mem, modLaunch_mem]

/-! The instructions of major 0x3D (R325 to R337, R342). -/

@[simp] theorem askHome_mem (who : Who) (va : Word) (reason : Nat) : (askHome s who va reason).mem = s.mem := by
  unfold askHome
  split <;> simp

@[simp] theorem clearSnaps_mem (flat n : Nat) : (clearSnaps s flat n).mem = s.mem := rfl

/-! Lane memory instructions (R230 to R241). -/

@[simp] theorem scratchLane_mem (g : Nat) (m : LaneMem) (i off : Nat) (hi : Bool) : (scratchLane s g m i off hi).1.mem = s.mem := by
  unfold scratchLane
  grind [foldl_memory, setGroup_mem, setTeam_mem]

@[simp] theorem laneFault_mem (a : LaneAcc) (i cls cause : Nat) (addr : Word) : (laneFault s a i cls cause addr).1.mem = s.mem := rfl

@[simp] theorem laneServed_mem (a : LaneAcc) (i : Nat) (wrote : List (Nat × Nat)) (c : Option Nat) : (laneServed s a i wrote c).1.mem = s.mem := rfl

@[simp] theorem noteSample_mem (g : Nat) (ex : Mask) (sectors : List Nat) (flags : Nat) : (noteSample s g ex sectors flags).mem = s.mem := by
  unfold noteSample
  grind [setGroup_mem]

@[simp] theorem cleanRuns_mem (g : Nat) (sp : Bool) (runs : List (Nat × Nat)) : (cleanRuns s g sp runs).mem = s.mem := by
  unfold cleanRuns
  split <;> simp

@[simp] theorem prefetchLine_mem (c l : Nat) (va : Word) (ro : Bool) : (prefetchLine s c l va ro).mem = s.mem := by
  unfold prefetchLine
  grind [modCore_mem, clearFaults_mem, xlate_mem, noteLines_mem]

/-! Tile instructions, class 111 (R261 to R277). -/

@[simp] theorem multiply_mem (g : Nat) (t : TileOp) (x : MulArgs) (sums : Bool) (a : List Nat) : (multiply s g t x sums a).1.mem = s.mem := by
  unfold multiply
  grind []

@[simp] theorem convTurn_mem (g : Nat) (t : TileOp) (x : MulArgs) : (convTurn s g t x).1.mem = s.mem := by
  unfold convTurn
  grind [foldl_memory, multiply_mem]

@[simp] theorem resEffect_mem (g : Nat) (t : TileOp) (x : ResArgs) : (resEffect s g t x).mem = s.mem := by
  unfold resEffect
  grind [foldl_memory, wf_mclear, modTeam_mem, modGroup_mem]

@[simp] theorem relEffect_mem (g n : Nat) : (relEffect s g n).mem = s.mem := rfl

@[simp] theorem commitEffect_mem (g : Nat) (t : TileOp) : (commitEffect s g t).mem = s.mem := by
  unfold commitEffect
  split <;> simp

/-! Placement (R22, R23, R29 to R32, R69, R317). -/

@[simp] theorem addGroup_mem (t g : Nat) (x : Group) : (addGroup s t g x).mem = s.mem := rfl

/-! Forced and cooperative saves of a node and its restore (R29, R320, R352 to R356, R360). -/

@[simp] theorem areasOf_mem (l n : Nat) (acc : BitVec 3) (ns : List Nat) : (areasOf s l n acc ns).1.mem = s.mem := by
  induction ns generalizing s with
  | nil => rfl
  | cons no rest ih => rw [areasOf]; grind [xlate_mem]

@[simp] theorem tellNode_mem (l n : Nat) (m : FarPreempt) : (tellNode s l n m).mem = s.mem := by
  simp [tellNode]

/-! Command streams (R368 to R373). -/

@[simp] theorem proceed_mem (q n : Nat) : (proceed s q n).mem = s.mem := rfl

@[simp] theorem raiseVector_mem (q : Nat) : (raiseVector s q).mem = s.mem := by
  unfold raiseVector
  grind []

@[simp] theorem streamError_mem (q code : Nat) : (streamError s q code).mem = s.mem := by
  simp [streamError]

/-! The life of a launch (R375 to R379). -/

@[simp] theorem addLaunch_mem (x : Launch) : (addLaunch s x).2.mem = s.mem := rfl

@[simp] theorem queueLaunch_mem (q l : Nat) : (queueLaunch s q l).mem = s.mem := rfl

@[simp] theorem submit_mem (q n : Nat) (bs : List Byte) (irq : Bool) : (submit s q n bs irq).mem = s.mem := by
  unfold submit
  grind [addLaunch_mem, proceed_mem, queueLaunch_mem, sendAll_mem]

@[simp] theorem refuseAll_mem (l : Nat) (e : EndInfo) : (refuseAll s l e).mem = s.mem := by
  unfold refuseAll
  grind [setLaunch_mem, sendAll_mem, proceed_mem]

@[simp] theorem decideJoins_mem (l : Nat) : (decideJoins s l).mem = s.mem := by
  unfold decideJoins
  grind [refuseAll_mem, setLaunch_mem, sendAll_mem, proceed_mem]

@[simp] theorem forgetLaunch_mem (l : Nat) : (forgetLaunch s l).mem = s.mem := rfl

@[simp] theorem endInfo_mem (l : Nat) : (endInfo s l).2.mem = s.mem := by
  unfold endInfo
  split <;> simp

@[simp] theorem noteEnd_mem (l : Nat) : (noteEnd s l).mem = s.mem := by
  unfold noteEnd
  split <;> simp

/-! The host's writes through the register windows (R6, R367 to R369, R383, R399). -/

@[simp] theorem ringDoorbell_mem (q tail : Nat) : (ringDoorbell s q tail).mem = s.mem := by
  unfold ringDoorbell
  grind [setQueue_mem]

@[simp] theorem writeRing_mem (q : Nat) (v : Word) : (writeRing s q v).mem = s.mem := by
  unfold writeRing
  grind [setQueue_mem]

@[simp] theorem clearHalt_mem (q : Nat) (v : Word) : (clearHalt s q v).mem = s.mem := by
  unfold clearHalt
  split <;> simp

@[simp] theorem unsupported_mem : (unsupported s).mem = s.mem := rfl

@[simp] theorem writeSlot_mem (place : Nat × Option Nat) (v : Word) : (writeSlot s place v).mem = s.mem := rfl

/-! What happens around the dies. -/

@[simp] theorem poisonGroup_mem (g : Nat) (u : PoisonUnit) : (poisonGroup s g u).mem = s.mem := rfl

@[simp] theorem poisonTeam_mem (t k : Nat) : (poisonTeam s t k).mem = s.mem := rfl

@[simp] theorem poisonUnit_mem (u : SoftUnit) : (poisonUnit s u).mem = s.mem := by
  unfold poisonUnit
  grind [poisonGroup_mem, poisonTeam_mem, modTeam_mem]

@[simp] theorem softPlace_mem (u : SoftUnit) : (softPlace s u).2.mem = s.mem := by
  unfold softPlace
  split <;> simp

/-! Bring-up (R406 to R411). -/

@[simp] theorem writeField_mem (f : Config.FieldSection) : (writeField s f).mem = s.mem := rfl

@[simp] theorem unserviceable_mem : (unserviceable s).mem = s.mem := rfl

@[simp] theorem restart_mem : (restart s).mem = s.mem := by
  unfold restart
  split <;> simp

@[simp] theorem applyField_mem : (applyField s).mem = s.mem := by
  unfold applyField
  grind [foldl_memory, modCore_mem]

/-! What happens before an instruction's meaning. -/

@[simp] theorem stampScalar_mem (g : Nat) : (stampScalar s g).mem = s.mem := rfl

@[simp] theorem stampLane_mem (g : Nat) : (stampLane s g).mem = s.mem := rfl

/-! A request at its home (R322). -/

@[simp] theorem fetchRequest_mem (g : Nat) (a : Agent) (pc : Word) (n : Nat) : (fetchRequest s g a pc n).mem = s.mem := by
  unfold fetchRequest
  grind [xlate_mem]

@[simp] theorem servePrefetch_mem (c l : Nat) (va : Word) : (servePrefetch s c l va).mem = s.mem := by
  unfold servePrefetch
  split <;> simp

@[simp] theorem acceptRemote_mem (r : RemoteReq) : (acceptRemote s r).mem = s.mem := by
  unfold acceptRemote
  split <;> simp

@[simp] theorem answerRemote_mem (n : Nat) (r : RemoteReq) (bs : List Byte) (fault : Option (Nat × Nat)) : (answerRemote s n r bs fault).mem = s.mem := by
  simp [answerRemote]

end

end Sys2Proof.Machine
end

section
/-! PROOFS. Memory spaces (family 05): the shared operations keep the canonical form of memory. -/

namespace Sys2Proof.Machine
open Sys2Proof
set_option Elab.async false

/-! Folds, choices and outcomes. -/

/-- A fold of operations that each keep the canonical form keeps it. -/
theorem wf_foldl {α : Type} {f : State → α → State} (hf : ∀ s a, Memory.wf s.mem = true → Memory.wf (f s a).mem = true) (l : List α)
    {s : State} (h : Memory.wf s.mem = true) : Memory.wf (l.foldl f s).mem = true := wf_fold State.mem f hf l s h
/-- The same for a fold that carries a second value. -/
theorem wf_foldPair {α β : Type} {f : State × β → α → State × β} (hf : ∀ p a, Memory.wf p.1.mem = true → Memory.wf (f p a).1.mem = true)
    (l : List α) {p : State × β} (h : Memory.wf p.1.mem = true) : Memory.wf (l.foldl f p).1.mem = true :=
  wf_fold (fun p : State × β => p.1.mem) f hf l p h
theorem wf_ite {p : Prop} [Decidable p] {s t : State} (hs : Memory.wf s.mem = true) (ht : Memory.wf t.mem = true) :
    Memory.wf (if p then s else t).mem = true := by
  split <;> assumption

/-- What an outcome leaves has the canonical form. -/
structure OutWf (o : Out) : Prop where
  next : ∀ t, o = .next t → Memory.wf t.mem = true

theorem outWf_next (t : State) : OutWf (.next t) ↔ Memory.wf t.mem = true :=
  ⟨fun h => h.next t rfl, fun h => ⟨by rintro u ⟨⟩; exact h⟩⟩
theorem outWf_fault (r : Fault) : OutWf (.fault r) := ⟨fun _ h => nomatch h⟩
theorem outWf_refused (r : Refusal) : OutWf (.refused r) := ⟨fun _ h => nomatch h⟩

section
variable {s : State} (h : Memory.wf s.mem = true)
include h

/-! Coherence objects on the way to memory (R138 to R141, R338). -/

theorem wf_mergeSlot (slot : Nat) (norm : Bool) : Memory.wf (mergeSlot s slot norm).mem = true := by
  unfold mergeSlot
  grind [wf_mwrite]

theorem wf_gatherWith (send : Send) (gd entry : Nat) (o : CObj) (norm : Bool) (slot : Nat)
    (hsend : ∀ t a b c d, Memory.wf t.mem = true → Memory.wf (send t a b c d).mem = true) :
    Memory.wf (gatherWith send s gd entry o norm slot).mem = true := by
  unfold gatherWith
  grind [wf_mergeSlot]

theorem wf_settleRunWith (send : Send) (part : Nat) (va : Word) (g : Seg)
    (hsend : ∀ t a b c d, Memory.wf t.mem = true → Memory.wf (send t a b c d).mem = true) : Memory.wf (settleRunWith send s part va g).mem = true := by
  unfold settleRunWith
  grind [wf_foldl, wf_gatherWith]

theorem wf_settleWith (send : Send) (part : Nat) (va : Word) (gs : List Seg)
    (hsend : ∀ t a b c d, Memory.wf t.mem = true → Memory.wf (send t a b c d).mem = true) : Memory.wf (settleWith send s part va gs).mem = true := by
  induction gs generalizing s va with
  | nil => exact h
  | cons g r ih => rw [settleWith]; exact ih (wf_settleRunWith h send part va g hsend) _

theorem wf_updateWith (send : Send) (part : Nat) (va : Word) (n : Nat)
    (hsend : ∀ t a b c d, Memory.wf t.mem = true → Memory.wf (send t a b c d).mem = true) : Memory.wf (updateWith send s part va n).mem = true := by
  unfold updateWith
  grind [wf_foldl]

theorem wf_storeWith (send : Send) (part : Nat) (va : Word) (gs : List Seg) (bs : List Byte)
    (hsend : ∀ t a b c d, Memory.wf t.mem = true → Memory.wf (send t a b c d).mem = true) : Memory.wf (storeWith send s part va gs bs).mem = true := by
  unfold storeWith
  grind [wf_updateWith, wf_writeSegs, wf_settleWith]

/-! Carillon's records and sinks (R391 to R403). -/

theorem wf_droppedCopies (put : State → Nat → Nat → TraceRec → State) (gd entry : Nat) (o : CObj) (targets : List Nat)
    (hput : ∀ t a b c, Memory.wf t.mem = true → Memory.wf (put t a b c).mem = true) : Memory.wf (droppedCopies put s gd entry o targets).mem = true := by
  unfold droppedCopies
  grind [wf_foldl, setPreg_mem]

theorem wf_ringWrite (p : Nat) (d : Nat) (bs : List Byte) : Memory.wf (ringWrite s p d bs).1.mem = true := by
  have hs : ∀ {t : State}, Memory.wf t.mem = true → ∀ va gs bs, Memory.wf (storeWith sinkCopies t p va gs bs).mem = true := fun h va gs bs =>
    wf_storeWith h sinkCopies p va gs bs fun t a b c d h => wf_droppedCopies h _ _ _ _ _ fun t b c d => by simp
  unfold ringWrite
  grind [ringXlate_mem, sinkFault_mem, cleanBad_mem, setPreg_mem, clearFaults_mem]

theorem wf_putLoss (p d : Nat) (r : TraceRec) : Memory.wf (putLoss s p d r).1.mem = true := by
  unfold putLoss
  have := wf_ringWrite h p d (lossBytes s p d)
  split <;> [skip; exact h]
  split
  · next e => simpa [e] using this
  · exact this

theorem wf_putOne (p d : Nat) (r : TraceRec) : Memory.wf (putOne s p d r).1.mem = true := by
  unfold putOne
  grind [countLost_mem, wf_putLoss, wf_ringWrite, setSink_mem]

theorem wf_putTimeBase (p d : Nat) : Memory.wf (putTimeBase s p d).1.mem = true := by
  unfold putTimeBase
  grind [wf_putOne]

theorem wf_putNext (p d : Nat) (r : TraceRec) : Memory.wf (putNext s p d r).1.mem = true := by
  unfold putNext
  grind [wf_putOne, wf_putTimeBase]

theorem wf_drain (f : Nat) (p d : Nat) : Memory.wf (drain f s p d).mem = true := by
  induction f generalizing s with
  | zero => exact h
  | succ f ih => rw [drain]; grind [wf_putNext, setSink_mem]

theorem wf_drainAll (p d : Nat) : Memory.wf (drainAll s p d).mem = true := wf_drain h ..

theorem wf_putRecord (p d : Nat) (r : TraceRec) : Memory.wf (putRecord s p d r).mem = true := by
  unfold putRecord
  grind [setSink_mem, wf_drainAll, wf_putNext, keepRecord_mem]

theorem wf_eventRecord (p d kind index code : Nat) (ops : List Byte) (hold : Bool) : Memory.wf (eventRecord s p d kind index code ops hold).mem = true :=
  wf_putRecord h ..

theorem wf_engineEvent (p d kind index code : Nat) (ops : List Byte) : Memory.wf (engineEvent s p d kind index code ops).mem = true :=
  wf_eventRecord h ..

theorem wf_groupPut (g time typ sub : Nat) (body : List Byte) (hold : Bool) : Memory.wf (groupPut s g time typ sub body hold).mem = true := by
  unfold groupPut
  grind [modGroup_mem, wf_putRecord]

theorem wf_flushMap (g : Nat) (hold : Bool) : Memory.wf (flushMap s g hold).mem = true := by
  unfold flushMap
  grind [setGroup_mem, wf_groupPut]

theorem wf_emitSync (g reason : Nat) : Memory.wf (emitSync s g reason).mem = true := by
  unfold emitSync
  grind [wf_flushMap, wf_groupPut, modGroup_mem]

theorem wf_syncIfDue (g : Nat) : Memory.wf (syncIfDue s g).mem = true := by
  unfold syncIfDue
  grind [wf_emitSync]

theorem wf_traceAhead (g time : Nat) : Memory.wf (traceAhead s g time).mem = true := by
  unfold traceAhead
  grind [wf_syncIfDue, wf_flushMap]

theorem wf_emitGroupAt (g time typ sub : Nat) (body : List Byte) : Memory.wf (emitGroupAt s g time typ sub body).mem = true := by
  unfold emitGroupAt
  grind [wf_groupPut, wf_traceAhead]

theorem wf_emitGroup (g typ sub : Nat) (body : List Byte) : Memory.wf (emitGroup s g typ sub body).mem = true := wf_emitGroupAt h ..

theorem wf_traceBranch (g : Nat) (taken : Bool) : Memory.wf (traceBranch s g taken).mem = true := by
  unfold traceBranch
  grind [modGroup_mem, wf_syncIfDue, wf_flushMap]

theorem wf_traceIndirect (g : Nat) (from_ target : Word) : Memory.wf (traceIndirect s g from_ target).mem = true := by
  unfold traceIndirect
  grind [wf_emitGroup, wf_syncIfDue, modGroup_mem]

theorem wf_traceStop (g : Nat) (hold : Bool) : Memory.wf (traceStop s g hold).mem = true := by
  unfold traceStop
  grind [wf_flushMap]

theorem wf_applyTrace (g : Nat) : Memory.wf (applyTrace s g).mem = true := by
  unfold applyTrace
  grind [wf_flushMap, modGroup_mem, wf_emitSync]

/-! What a home does (R134 to R141, R180 to R184, R240). -/

theorem wf_sendCopies (gd entry : Nat) (o : CObj) (targets : List Nat) : Memory.wf (sendCopies s gd entry o targets).mem = true := by
  unfold sendCopies
  grind [wf_droppedCopies, wf_putRecord]

theorem wf_gatherSlot (gd entry : Nat) (o : CObj) (norm : Bool) (slot : Nat) : Memory.wf (gatherSlot s gd entry o norm slot).mem = true := by
  unfold gatherSlot
  grind [wf_gatherWith, wf_sendCopies]

theorem wf_settle (part : Nat) (va : Word) (gs : List Seg) : Memory.wf (settle s part va gs).mem = true := by
  unfold settle
  grind [wf_settleWith, wf_sendCopies]

theorem wf_noteUpdate (who : Who) (va : Word) (n : Nat) : Memory.wf (noteUpdate s who va n).mem = true := by
  unfold noteUpdate
  grind [wf_updateWith, wf_sendCopies]

theorem wf_homeRead (who : Who) (va : Word) (gs : List Seg) : Memory.wf (homeRead s who va gs).1.mem = true := by
  unfold homeRead
  grind [noteSharer_mem, wf_settle]

theorem wf_homeWrite (who : Who) (va : Word) (gs : List Seg) (bs : List Byte) : Memory.wf (homeWrite s who va gs bs).mem = true := by
  unfold homeWrite
  grind [wf_storeWith, wf_sendCopies]

theorem wf_homeAtomic (who : Who) (va : Word) (gs : List Seg) (op n x y : Nat) : Memory.wf (homeAtomic s who va gs op n x y).1.mem = true := by
  unfold homeAtomic
  grind [wf_settle, wf_noteUpdate, wf_writeSegs]

theorem wf_homeAcc (who : Who) (va : Word) (flat : Nat) (f : LA → LA) : Memory.wf (homeAcc s who va flat f).mem = true := by
  unfold homeAcc
  split
  · exact h
  · exact wf_noteUpdate (wf_mwrite _ _ _ h) ..

/-! Shared operations of a group. -/

theorem wf_dropLines (c part : Nat) : Memory.wf (dropLines s c part).mem = true := by
  unfold dropLines
  grind [wf_foldl, wf_mergeSlot]

theorem wf_freeGroup (g : Nat) (hold : Bool) : Memory.wf (freeGroup s g hold).mem = true := by
  unfold freeGroup
  grind [leaveBooth_mem, dropAgents_mem, wf_traceStop, modCore_mem, modTeam_mem, setGroup_mem]

theorem wf_freeTeam (t : Nat) : Memory.wf (freeTeam s t).mem = true := by
  unfold freeTeam
  grind [wf_foldl, wf_freeGroup, setTeam_mem, modCore_mem, wf_dropLines]

theorem wf_endGroup (g : Nat) : Memory.wf (endGroup s g).mem = true := by
  unfold endGroup
  grind [wf_freeGroup, wf_freeTeam, modLaunch_mem, settleBars_mem]

theorem wf_reapTeam (t : Nat) : Memory.wf (reapTeam s t).mem = true := by
  unfold reapTeam
  grind [wf_foldl, modTeam_mem, haltGroup_mem, wf_freeGroup, wf_freeTeam]

theorem wf_killLaunch (l : Nat) (e : EndInfo) : Memory.wf (killLaunch s l e).mem = true := by
  unfold killLaunch
  grind [wf_foldl, wf_reapTeam, modLaunch_mem]

theorem wf_killEverywhere (l : Nat) (e : EndInfo) : Memory.wf (killEverywhere s l e).mem = true := by
  unfold killEverywhere
  grind [killMessages_mem, wf_killLaunch]

theorem wf_unhandled (g code : Nat) : Memory.wf (unhandled s g code).mem = true := wf_killEverywhere h ..

theorem wf_raiseStream (g : Nat) (r : FaultRec) : Memory.wf (raiseStream s g r).mem = true := by
  unfold raiseStream
  grind [wf_unhandled, modGroup_mem]

theorem wf_raiseClobbers (g : Nat) : Memory.wf (raiseClobbers s g).mem = true := by
  unfold raiseClobbers
  grind [wf_raiseStream, modGroup_mem]

theorem wf_finishWalk (w : Nat) (cause : Option Nat) : Memory.wf (finishWalk s w cause).mem = true := by
  unfold finishWalk
  grind [setWalk_mem, wf_eventRecord]

theorem wf_walkError (w : Nat) : Memory.wf (walkError s w).mem = true := by
  unfold walkError
  grind [wf_engineEvent, wf_finishWalk]

theorem wf_raiseScalar (r : FaultRec) : Memory.wf (raiseScalar s r).mem = true := by
  unfold raiseScalar
  grind [wf_raiseStream, wf_walkError]

theorem wf_illegal (cause : Nat) : Memory.wf (illegal s cause).mem = true := wf_raiseScalar h ..

theorem wf_retireTo (target : Word) : Memory.wf (retireTo s target).mem = true := by
  unfold retireTo
  grind [modGroup_mem, wf_applyTrace, setSpc_mem]

theorem wf_retire : Memory.wf (retire s).mem = true := wf_retireTo h ..

theorem wf_result (d : SReg) (v : Word) : Memory.wf (result s d v).mem = true := by
  unfold result
  grind [wf_retire, setS_mem]

theorem wf_takeException (g k : Nat) (hspc hlpc : Word) : Memory.wf (takeException s g k hspc hlpc).mem = true := by
  unfold takeException
  grind [leaveBooth_mem, dropAgents_mem, wf_traceStop, dropRecord_mem, setGroup_mem, wf_emitSync]

theorem wf_returnException (g : Nat) : Memory.wf (returnException s g).mem = true := by
  unfold returnException
  grind [wf_foldl, setGroup_mem, wf_raiseClobbers, wf_emitSync, resumeEngines_mem]

/-! Operand forms. -/

theorem wf_onGroup (k : Nat → State) (hk : ∀ a, Memory.wf (k a).mem = true) : OutWf (onGroup s k) := by
  unfold onGroup
  grind [outWf_next, wf_walkError]

theorem wf_asGroup (g : Nat) (f : State → State) (hf : ∀ t, Memory.wf t.mem = true → Memory.wf (f t).mem = true) :
    Memory.wf (asGroup s g f).mem = true := by
  unfold asGroup
  grind []

theorem wf_privileged (min : BitVec 2) (k : Nat → State) (hk : ∀ a, Memory.wf (k a).mem = true) : OutWf (privileged s min k) := by
  unfold privileged
  grind [outWf_next, wf_onGroup, wf_illegal]

theorem wf_afterLanes (g : Nat) (i : Instr) (k : State → State) (hk : ∀ t, Memory.wf t.mem = true → Memory.wf (k t).mem = true) :
    Memory.wf (afterLanes s g i k).mem = true := by
  unfold afterLanes
  grind [wait_mem, modGroup_mem]

theorem wf_withScope (g : Nat) (used : Bool) (c : Scope) (k : State → State) (hk : ∀ t, Memory.wf t.mem = true → Memory.wf (k t).mem = true) :
    Memory.wf (withScope s g used c k).mem = true := by
  unfold withScope
  grind [wf_illegal]

/-! Scalar loads, stores, atomics and fences (R180 to R185). -/

theorem wf_readRo (who : Who) (snap : Option (List Host.Cell)) (va : Word) (gs : List Seg) : Memory.wf (readRo s who snap va gs).1.mem = true := by
  unfold readRo
  grind [wf_homeRead]

theorem wf_serveScalar (g : Nat) : Memory.wf (serveScalar s g).mem = true := by
  unfold serveScalar
  grind [xlate_mem, serveScalar.reply_mem, wf_homeWrite, wf_homeRead, wf_readRo, noteRo_mem, wf_homeAtomic]

theorem wf_finishScalar (g : Nat) : Memory.wf (finishScalar s g).mem = true := by
  unfold finishScalar
  grind [modGroup_mem, wf_retire, writeReply_mem, wf_raiseStream, wf_raiseScalar]

theorem wf_scalarAccess (g : Nat) (i : Instr) (sp : Bool) (k : AccKind) (addr : Word) (n : Nat) :
    Memory.wf (scalarAccess s g i sp k addr n).mem = true := by
  unfold scalarAccess
  grind [wait_mem, wf_illegal, wf_raiseScalar, scratchAccess_mem, wf_finishScalar, modGroup_mem, wf_serveScalar]

theorem wf_samo (op : Nat) (i : Instr) (x : SAmo) : OutWf (samo op i x s) := by
  unfold samo
  grind [outWf_next, wf_onGroup, wf_withScope, wf_scalarAccess, wf_afterLanes]

theorem wf_fence (i : Instr) (c : Scope) : OutWf (fence i c s) := by
  unfold fence
  grind [outWf_next, wf_onGroup, wf_withScope, wf_afterLanes, wf_retire]

/-! Branches, calls (R186 to R188), the release of lane work (R189, R190), status registers (R65, R66, R191) and counter waits (R192). -/

theorem wf_tracedTo (target : Word) (f : State → Nat → State) (hf : ∀ t a, Memory.wf t.mem = true → Memory.wf (f t a).mem = true) :
    Memory.wf (tracedTo s target f).mem = true := by
  unfold tracedTo
  grind [setSpc_mem]

theorem wf_aheadNow : Memory.wf (aheadNow s).mem = true := by
  unfold aheadNow
  grind [wf_traceAhead]

theorem wf_retireTraced (f : State → Nat → State) (hf : ∀ t a, Memory.wf t.mem = true → Memory.wf (f t a).mem = true) :
    Memory.wf (retireTraced s f).mem = true := by
  unfold retireTraced
  grind [wf_retireTo, wf_tracedTo]

theorem wf_indirect (from_ target : Word) : Memory.wf (indirect s from_ target).mem = true := by
  unfold indirect
  grind [wf_retireTo, wf_tracedTo, wf_aheadNow, wf_traceIndirect]

theorem wf_release (g : Nat) (i : Instr) (r : RqRec) : Memory.wf (release s g i r).mem = true := by
  unfold release
  grind [wait_mem, modGroup_mem, wf_aheadNow, wf_retireTraced, wf_emitGroup]

theorem wf_whenIssued (g : Nat) (i : Instr) (k : State → State) (hk : ∀ t, Memory.wf t.mem = true → Memory.wf (k t).mem = true) :
    Memory.wf (whenIssued s g i k).mem = true := by
  unfold whenIssued
  grind [wait_mem]

theorem wf_waitCounter (d a : SReg) (i : Instr) (v : Group → Nat) : OutWf (waitCounter d a i v s) := by
  unfold waitCounter
  grind [outWf_next, wf_onGroup, wf_whenIssued, wf_result, wait_mem]

/-! Barrier objects (R114 to R116, R194 to R196), node barriers (R197), yields with continuation (R198). -/

theorem wf_tellGroups (c : Nat) (r : CollRank) (cls : Nat) : Memory.wf (tellGroups s c r cls).mem = true := by
  unfold tellGroups
  grind [wf_foldl, wf_unhandled, modGroup_mem]

theorem wf_tellFault (c rank : Nat) : Memory.wf (tellFault s c rank).mem = true := by
  unfold tellFault
  grind [setColl_mem, wf_tellGroups]

theorem wf_tellLate (t : Nat) : Memory.wf (tellLate s t).mem = true := by
  unfold tellLate
  grind [wf_foldl, wf_tellFault]

theorem wf_countDown (t off n : Nat) : Memory.wf (countDown s t off n).mem = true := by
  unfold countDown
  grind [wf_tellLate, modTeam_mem]

theorem wf_withBar (g : Nat) (a : Word) (own useSc w : Bool) (k : State → Nat → Nat → State)
    (hk : ∀ t a b, Memory.wf t.mem = true → Memory.wf (k t a b).mem = true) : Memory.wf (withBar s g a own useSc w k).mem = true := by
  unfold withBar
  grind [wf_illegal, wf_raiseScalar]

theorem wf_clobber (cause : Nat) (a : Word) : Memory.wf (clobber s cause a).mem = true := wf_raiseScalar h ..

theorem wf_notParked (g : Nat) (i : Instr) (k : State → State) (hk : ∀ t, Memory.wf t.mem = true → Memory.wf (k t).mem = true) :
    Memory.wf (notParked s g i k).mem = true := by
  unfold notParked
  grind [wait_mem, modGroup_mem]

theorem wf_withNodeScope (g : Nat) (c : Scope) (k : State → State) (hk : ∀ t, Memory.wf t.mem = true → Memory.wf (k t).mem = true) :
    Memory.wf (withNodeScope s g c k).mem = true := by
  unfold withNodeScope
  grind [wf_illegal]

/-! Booths (R109 to R113, R245 to R250). -/

theorem wf_declareBooth (g off cap rowsz : Nat) : Memory.wf (declareBooth s g off cap rowsz).mem = true := by
  unfold declareBooth
  grind [modGroup_mem, wf_raiseScalar, wf_retire, setTeam_mem]

theorem wf_boothRequest (d a b : SReg) (w : Bool) (i : Instr) : OutWf (boothRequest d a b w i s) := by
  unfold boothRequest
  grind [outWf_next, wf_onGroup, wf_illegal, wf_raiseScalar, wf_afterLanes, modGroup_mem]

theorem wf_boothDone (g : Nat) (o : BoothOp) (v : Word) (sectors : List Nat) (laneEnd : LaneEnd)
    (he : ∀ s g d v l, Memory.wf s.mem = true → Memory.wf (laneEnd s g d v l).mem = true) :
    Memory.wf (boothDone s g o v sectors laneEnd).mem = true := by
  simp only [boothDone]
  split
  · exact he _ _ _ _ _ h
  · exact wf_result (s := { (modGroup s g _) with cur := .group g }) h ..

theorem wf_boothFault (g : Nat) (o : BoothOp) (r : FaultRec) : Memory.wf (boothFault s g o r).mem = true := by
  unfold boothFault
  grind [modGroup_mem, leaveBooth_mem, wf_raiseStream, wf_asGroup, wf_raiseScalar]

theorem wf_boothReserve (g : Nat) (laneEnd : LaneEnd)
    (he : ∀ s g d v l, Memory.wf s.mem = true → Memory.wf (laneEnd s g d v l).mem = true) :
    Memory.wf (boothReserve s g laneEnd).mem = true := by
  unfold boothReserve
  dsimp only
  split
  · exact h
  refine wf_ite h ?_
  split
  · exact wf_ite h (wf_boothFault h ..)
  refine wf_ite (wf_ite ?_ (wf_boothDone ?_ _ _ _ _ _ he)) (wf_ite h ?_) <;> simpa using h

theorem wf_boothWake (g : Nat) : Memory.wf (boothWake s g).mem = true := by
  unfold boothWake
  dsimp only
  split
  · exact h
  refine wf_ite h ?_
  split
  · exact wf_ite h (wf_boothFault h ..)
  · exact wf_ite h (by simpa using h)

theorem wf_boothFill (g : Nat) (laneEnd : LaneEnd) (hlaneEnd : ∀ t a b c d, Memory.wf t.mem = true → Memory.wf (laneEnd t a b c d).mem = true) :
    Memory.wf (boothFill s g laneEnd).mem = true := by
  unfold boothFill
  grind [modTeam_mem, wf_boothDone]

/-! Tile descriptors. -/

theorem wf_writeTile (g : Nat) (i : Instr) (t : TReg) (whole : Bool) (f : TileDesc → TileDesc) : Memory.wf (writeTile s g i t whole f).mem = true := by
  unfold writeTile
  grind [wf_retire, modGroup_mem, wait_mem]

/-! Bulk copies (R117, R118, R242 to R244). -/

theorem wf_copyEvent (t g code : Nat) (ops : List Byte) : Memory.wf (copyEvent s t g code ops).mem = true := wf_engineEvent h ..

theorem wf_handOver (g : Nat) (a : SReg) (off : Nat) (r : List Byte) : Memory.wf (handOver s g a off r).mem = true := by
  unfold handOver
  grind [wait_mem, newName_mem, setGroup_mem, setCopy_mem, wf_retire, wf_copyEvent]

theorem wf_engineLoad (who : Who) (va : Word) (n : Nat) : Memory.wf (engineLoad s who va n).1.mem = true := by
  unfold engineLoad
  grind [xlate_mem, wf_homeRead]

theorem wf_engineStore (who : Who) (va : Word) (bs : List (Option Byte)) : Memory.wf (engineStore s who va bs).1.mem = true := by
  unfold engineStore
  grind [wf_foldl, xlate_mem, cleanBad_mem, wf_homeWrite]

theorem wf_reportCopy (c : Nat) (k : Copy) (cls : Nat) : Memory.wf (reportCopy s c k cls).mem = true := by
  unfold reportCopy
  grind [wf_unhandled, modGroup_mem]

theorem wf_suspendCopy (t c : Nat) (k : Copy) (w : Bool) (a : Word) : Memory.wf (suspendCopy s t c k w a).mem = true := by
  unfold suspendCopy
  grind [wf_reportCopy, setCopy_mem, clearFaults_mem]

theorem wf_copyCountDown (t : Nat) (r : List Byte) (n : Nat) : Memory.wf (copyCountDown s t r n).mem = true := by
  unfold copyCountDown
  grind [wf_countDown]

theorem wf_copyStep (t c : Nat) : Memory.wf (copyStep s t c).mem = true := by
  unfold copyStep
  grind [wf_engineLoad, wf_suspendCopy, wf_engineStore, engineScratchPut_mem, engineBuffer_mem, setCopy_mem, clearFaults_mem, wf_copyCountDown]

theorem wf_copyEnd (t c : Nat) : Memory.wf (copyEnd s t c).mem = true := by
  unfold copyEnd
  grind [lowerCopy_mem, wf_copyEvent, setCopy_mem, copyClean_mem, wf_reportCopy]

theorem wf_dropSuspended (t c : Nat) (k : Copy) : Memory.wf (dropSuspended s t c k).mem = true := by
  unfold dropSuspended
  grind [setCopy_mem, lowerCopy_mem, wf_copyCountDown]

/-! Shape records and handles (R119 to R121, R200), coherence objects (R251 to R254, R338, R341), trace markers and sampling (R201). -/

theorem wf_withPages (g : Nat) (i : Instr) (va : Word) (n mode : Nat) (k : State → State)
    (hk : ∀ t, Memory.wf t.mem = true → Memory.wf (k t).mem = true) : Memory.wf (withPages s g i va n mode k).mem = true := by
  unfold withPages
  grind [checkPages_mem, wait_mem, wf_raiseScalar, clearFaults_mem]

theorem wf_withObject (g hd : Nat) (k : Nat → Nat → CObj → State) (hk : ∀ a b c, Memory.wf (k a b c).mem = true) :
    Memory.wf (withObject s g hd k).mem = true := by
  unfold withObject
  grind [wf_raiseScalar]

theorem wf_mergeObject (gd e : Nat) (o : CObj) : Memory.wf (mergeObject s gd e o).mem = true := by
  unfold mergeObject
  grind [wf_foldl, wf_gatherSlot, wf_sendCopies]

theorem wf_cobjModeEnd (gd e : Nat) : Memory.wf (cobjModeEnd s gd e).mem = true := by
  unfold cobjModeEnd
  grind [wf_mergeObject, putObj_mem, modGroup_mem]

/-! Whole descriptors read and written by engines (R118, R266, R281). -/

theorem wf_readRun (who : Who) (tm : Nat) (t : TileDesc) (r : Nat × Nat) : Memory.wf (readRun s who tm t r).1.mem = true := by
  unfold readRun
  grind [wf_engineLoad]

theorem wf_readRuns (who : Who) (tm : Nat) (t : TileDesc) (rs : List (Nat × Nat)) :
    Memory.wf (readRuns s who tm t rs).1.mem = true := by
  induction rs generalizing s with
  | nil => exact h
  | cons r rest ih => rw [readRuns]; grind [wf_readRun]

theorem wf_readDesc (who : Who) (tm : Nat) (t : TileDesc) (k n : Nat) : Memory.wf (readDesc s who tm t k n).1.mem = true := wf_readRuns h ..

theorem wf_writeRun (who : Who) (tm : Nat) (t : TileDesc) (off : Nat) (bs : List Byte) : Memory.wf (writeRun s who tm t off bs).1.mem = true := by
  unfold writeRun
  grind [wf_engineStore, engineBuffer_mem, engineScratchPut_mem]

theorem wf_writeRuns (who : Who) (tm : Nat) (t : TileDesc) (rs : List (Nat × Nat)) (bs : List Byte) :
    Memory.wf (writeRuns s who tm t rs bs).1.mem = true := by
  induction rs generalizing s bs with
  | nil => exact h
  | cons r rest ih => rw [writeRuns]; grind [wf_writeRun]

theorem wf_writeDesc (who : Who) (tm : Nat) (t : TileDesc) (k : Nat) (bs : List Byte) : Memory.wf (writeDesc s who tm t k bs).1.mem = true :=
  wf_writeRuns h ..

/-! Collectives (R278 to R293). -/

theorem wf_collective (fn : Nat) (a b : SReg) (i : Instr) : OutWf (collective fn a b i s) := by
  unfold collective
  grind [outWf_next, wf_onGroup, wf_notParked, wf_illegal, wf_raiseScalar, wait_mem]

theorem wf_stepRecord (c : Coll) (step outcome : Nat) : Memory.wf (stepRecord s c step outcome).mem = true := by
  unfold stepRecord
  grind [freeValue_mem, wf_engineEvent]

theorem wf_putColl (c : Nat) (before after : Coll) : Memory.wf (putColl s c before after).mem = true := by
  unfold putColl
  grind [setColl_mem, wf_stepRecord]

theorem wf_collHandover (t : Nat) : Memory.wf (collHandover s t).mem = true := by
  unfold collHandover
  dsimp only
  split
  · exact h
  split
  · exact h
  refine wf_tellLate (wf_foldl (fun s g hs => ?_) _ ?_) t
  · split
    · exact wf_result (s := { (modGroup s g _) with cur := .group g }) hs ..
    · exact hs
  · refine wf_putColl (s := modTeam _ _ _) ?_ ..
    simpa using h

theorem wf_suspendRank (c : Nat) (k : Coll) (rank : Nat) (r : CollRank) (w : Bool) (a : Word) : Memory.wf (suspendRank s c k rank r w a).mem = true := by
  unfold suspendRank
  grind [wf_tellGroups, setColl_mem, clearFaults_mem]

theorem wf_faultRank (c : Nat) (k : Coll) (rank : Nat) (r : CollRank) (rec_ : FaultRec) : Memory.wf (faultRank s c k rank r rec_).mem = true := by
  unfold faultRank
  grind [wf_putColl, clearFaults_mem]

theorem wf_readRanks (c : Nat) (rs : List (Nat × CollRank × Nat × Nat)) : Memory.wf (readRanks s c rs).1.mem = true := by
  induction rs generalizing s with
  | nil => exact h
  | cons r rest ih => rw [readRanks]; grind [wf_readDesc]

theorem wf_moveRanks (c st : Nat) (rs : List (Nat × CollRank)) : Memory.wf (moveRanks s c st rs).1.mem = true := by
  induction rs generalizing s with
  | nil => exact h
  | cons r rest ih => rw [moveRanks]; grind [wf_readRanks, probeRuns_mem]

theorem wf_writeRank (c rank k : Nat) (bs : List Byte) : Memory.wf (writeRank s c rank k bs).mem = true := by
  unfold writeRank
  grind [wf_writeDesc, rankClean_mem, wf_countDown, setColl_mem]

theorem wf_rankStop (c : Nat) (k : Coll) (res : RanksRes) : Memory.wf (rankStop s c k res).mem = true := by
  unfold rankStop
  grind [wf_suspendRank, wf_faultRank]

theorem wf_deliverRow (c : Nat) (k : Coll) (row : RecvRow) : Memory.wf (deliverRow s c k row).mem = true := by
  unfold deliverRow
  grind [probeRuns_mem, wf_suspendRank, wf_faultRank, setColl_mem, clearFaults_mem, wf_writeRank, wf_stepRecord]

theorem wf_collStep (c : Nat) : Memory.wf (collStep s c).mem = true := by
  unfold collStep
  split
  · exact h
  next k _ =>
  refine wf_ite h (wf_ite (wf_putColl h ..) ?_)
  split
  · exact h
  next r0 _ =>
  have hr := wf_readRanks h c ((rankList k).map fun e => (e.1, e.2, 1024 * k.step * fmtBits (tdFmt r0.src) / 8,
      min 1024 (collLength r0 - 1024 * k.step) * fmtBits (tdFmt r0.src) / 8))
  have hm := wf_moveRanks h c k.step (rankList k)
  refine wf_ite h (wf_ite ?_ ?_)
  · dsimp only
    split
    · next e => rw [e] at hr; exact wf_stepRecord (by simpa using hr) ..
    · next e => rw [e] at hr; exact wf_rankStop hr ..
  split
  · exact wf_deliverRow h ..
  split
  · next e => rw [e] at hm; exact wf_ite (by simpa using hm) (wf_stepRecord (wf_foldl (fun s e h => wf_writeRank h ..) _ (by simpa using hm)) ..)
  · next e => rw [e] at hm; exact wf_rankStop hm ..

theorem wf_finishRank (c : Nat) (k : Coll) (o rank : Nat) : Memory.wf (finishRank s c k o rank).mem = true := by
  unfold finishRank
  grind [wf_foldl, setTeam_mem, wf_countDown, setColl_mem, modGroup_mem, wf_tellFault]

theorem wf_finishRanks (c o : Nat) : Memory.wf (finishRanks s c o).mem = true := by
  unfold finishRanks
  grind [wf_foldl, wf_tellFault, wf_finishRank]

theorem wf_collEnd (c : Nat) : Memory.wf (collEnd s c).mem = true := by
  unfold collEnd
  split
  · exact h
  next k _ =>
  refine wf_ite h ?_
  split
  · exact (dropColl_mem ..).symm ▸ wf_finishRanks h ..
  split
  · exact h
  refine wf_ite h (wf_ite ?_ ?_)
  · have hp := probeRanks_mem s c ((rankList k).filter fun e => usesDst e.2.fn e.1 e.2.b)
    dsimp only
    split
    · next e =>
      rw [e] at hp
      rw [dropColl_mem]
      exact wf_finishRanks (s := setColl _ _ _) (wf_foldl (fun s e h => wf_writeRank h ..) _ (by simpa using hp ▸ h)) ..
    · next e =>
      rw [e] at hp
      exact wf_rankStop (by rwa [hp]) ..
  · rw [dropColl_mem]
    exact wf_finishRanks (s := setColl _ _ _) h ..

/-! The end of a group (R40, R187) and a partition reset (R387, R388). -/

theorem wf_discardFrame (g : Nat) : Memory.wf (discardFrame s g).mem = true := by
  unfold discardFrame
  grind [wf_foldl, dropRecord_mem, setGroup_mem, wf_dropSuspended]

theorem wf_resetObjects (p : Nat) : Memory.wf (resetObjects s p).mem = true := by
  unfold resetObjects
  grind [wf_foldl, wf_mergeObject, putObj_mem]

theorem wf_beginReset (p : Nat) : Memory.wf (beginReset s p).mem = true := by
  unfold beginReset
  grind [wf_foldl, releaseQueues_mem, setPreg_mem, wf_killEverywhere, dropJoining_mem]

theorem wf_endReset (p : Nat) : Memory.wf (endReset s p).mem = true := by
  unfold endReset
  grind [wf_resetObjects, setPreg_mem]

/-! The partition registers (R311 to R313, R324, R368, R391, R399). -/

theorem wf_regPut (p r : Nat) (v : Word) : Memory.wf (regPut s p r v).mem = true := by
  unfold regPut
  grind [setPreg_mem, wf_beginReset, startSink_mem, setSink_mem, setTrace_mem]

theorem wf_hostReg (p r : Nat) (v : Word) : Memory.wf (hostReg s p r v).mem = true := by
  unfold hostReg
  grind [wf_beginReset, wf_regPut]

/-! The instructions of major 0x3D (R325 to R337, R342). -/

theorem wf_mergeFrame (gd : Nat) (e : TlbEntry) : Memory.wf (mergeFrame s gd e).mem = true := by
  unfold mergeFrame
  grind [wf_foldl, wf_gatherSlot]

theorem wf_dropTlb (gd : Nat) (f : TlbEntry → Bool) : Memory.wf (dropTlb s gd f).mem = true := by
  unfold dropTlb
  grind [wf_foldl, wf_mergeFrame, modDie_mem]

theorem wf_invalidate (i : Instr) (ds : List Nat) (cov : Nat → BitVec 8 → Nat → Nat → Bool) (k : State → State)
    (hk : ∀ t, Memory.wf t.mem = true → Memory.wf (k t).mem = true) : Memory.wf (invalidate s i ds cov k).mem = true := by
  unfold invalidate
  grind [wf_foldl, wait_mem, wf_dropTlb]

theorem wf_askAnswer (g : Nat) (i : Instr) (va : Word) (reason : Nat) (k : State → Nat → State)
    (hk : ∀ t a, Memory.wf t.mem = true → Memory.wf (k t a).mem = true) : Memory.wf (askAnswer s g i va reason k).mem = true := by
  unfold askAnswer
  grind [modGroup_mem, wait_mem, askHome_mem, clearFaults_mem, wf_raiseScalar]

theorem wf_zeroPhys (flat n : Nat) : Memory.wf (zeroPhys s flat n).mem = true := by
  rw [zeroPhys, cleanBad_mem, clearSnaps_mem]
  exact wf_mclear _ _ _ h

theorem wf_scrubWay (gd w : Nat) : Memory.wf (scrubWay s gd w).mem = true := wf_zeroPhys h ..

theorem wf_carveEnd (gd : Nat) : Memory.wf (carveEnd s gd).mem = true := by
  unfold carveEnd
  grind [wf_foldl, wf_scrubWay, modDie_mem, modGroup_mem]

theorem wf_pmapAt (gd p : Nat) (asn : BitVec 8) (va w : Word) : Memory.wf (pmapAt s gd p asn va w).1.mem = true := by
  unfold pmapAt
  grind [wf_mwrite, wf_zeroPhys, modDie_mem]

theorem wf_inWalk (k : Nat → Walk → State) (hk : ∀ a b, Memory.wf (k a b).mem = true) : OutWf (inWalk s k) := by
  unfold inWalk
  grind [outWf_next, wf_illegal]

theorem wf_installLeaf (x : Walk) (leaf : Word) (level : Nat) : Memory.wf (installLeaf s x leaf level).mem = true := by
  unfold installLeaf
  grind [modDie_mem, wf_dropTlb]

/-! The instructions of major 0x3E (R348 to R351). -/

theorem wf_inHandlerOnly (k : Nat → Frame → State) (hk : ∀ a b, Memory.wf (k a b).mem = true) : OutWf (inHandlerOnly s k) := by
  unfold inHandlerOnly
  grind [outWf_next, wf_privileged, wf_illegal]

/-! One issue of a lane instruction (R34, R38, R155). -/

theorem wf_raiseLane (g : Nat) (r : FaultRec) : Memory.wf (raiseLane s g r).mem = true := by
  unfold raiseLane
  grind [wf_raiseStream, setGroup_mem]

theorem wf_laneTrap (g cause : Nat) : Memory.wf (laneTrap s g cause).mem = true := wf_raiseLane h ..

theorem wf_laneAdvance (g n time : Nat) : Memory.wf (laneAdvance s g n time).mem = true := by
  unfold laneAdvance
  grind [modGroup_mem, wf_traceAhead, wf_raiseClobbers, wf_emitGroupAt]

theorem wf_laneDone (g n time : Nat) (f : Mask) (recs : Tab FaultRec) (drop : Tab (List Nat)) : Memory.wf (laneDone s g n time f recs drop).mem = true := by
  unfold laneDone
  grind [wf_foldl, wf_laneAdvance, wf_unhandled, wf_traceAhead, setGroup_mem, wf_emitGroupAt]

theorem wf_laneIssueAt (g n : Nat) (u : Use) (ex : Group → List Bool) (eff : Group → Group) : Memory.wf (laneIssueAt s g n u ex eff).mem = true := by
  unfold laneIssueAt
  grind [modGroup_mem, wf_laneTrap, wf_laneAdvance, setGroup_mem, wf_raiseLane, wf_laneDone]

theorem wf_laneIssue (n : Nat) (u : Use) (ex : Group → List Bool) (eff : Group → Group) : OutWf (laneIssue s n u ex eff) := by
  unfold laneIssue
  grind [outWf_next, wf_onGroup, wf_laneIssueAt]

theorem wf_laneOp (c : LaneCtl) (u : Use) (eff : Group → List Bool → Group) : OutWf (laneOp s c u eff) := wf_laneIssue h ..

theorem wf_packedOp (w : Nat) (c : LaneCtl) (u : Use) (eff : Group → List (BitVec 4) → Group) : OutWf (packedOp s w c u eff) := wf_laneIssue h ..

/-! Scalar arithmetic, logic and immediates (R176 to R179). -/

/-! Integer lane instructions (R206, R209). -/

theorem wf_intBin (f : Nat → Word → Word → Word) (x : IntBin) : OutWf (intBin f x s) := by
  unfold intBin
  grind [outWf_next, wf_laneOp]

theorem wf_intUn (f : Nat → Word → Word) (x : IntUn) : OutWf (intUn f x s) := by
  unfold intUn
  grind [outWf_next, wf_laneOp]

theorem wf_move (wide : Bool) (x : MovArgs) : OutWf (move wide x s) := by
  unfold move
  grind [outWf_next, wf_laneOp]

/-! Packed integer lane instructions and integer dot products (R207, R208). -/

theorem wf_packBin (f : Nat → Word → Word → Word) (x : PackBin) : OutWf (packBin f x s) := by
  unfold packBin
  grind [outWf_next, wf_packedOp]

theorem wf_packCmp (cc : Nat) (x : PackCmp) : OutWf (packCmp cc x s) := by
  unfold packCmp
  grind [outWf_next, wf_packedOp]

/-! Floating-point lane instructions (R205, R210 to R213, R217, R218). -/

theorem wf_fpBin (f : Nat → FVal → FVal → FVal) (x : FpBin) : OutWf (fpBin f x s) := by
  unfold fpBin
  grind [outWf_next, wf_laneOp]

theorem wf_fpTern (f : Nat → FVal → FVal → FVal → FVal) (x : FpTern) : OutWf (fpTern f x s) := by
  unfold fpTern
  grind [outWf_next, wf_laneOp]

theorem wf_fpSel (f : Fmt → Nat → Nat → Nat) (x : FpSel) : OutWf (fpSel f x s) := by
  unfold fpSel
  grind [outWf_next, wf_laneOp]

theorem wf_fpBits (f : Fmt → Nat → Nat) (x : FpBits) : OutWf (fpBits f x s) := by
  unfold fpBits
  grind [outWf_next, wf_laneOp]

theorem wf_halfBin (f : Nat → FVal → FVal → FVal) (x : HBin) : OutWf (halfBin f x s) := by
  unfold halfBin
  grind [outWf_next, wf_packedOp]

theorem wf_halfSel (f : Fmt → Nat → Nat → Nat) (x : HSel) : OutWf (halfSel f x s) := by
  unfold halfSel
  grind [outWf_next, wf_packedOp]

theorem wf_halfCmp (cc : Nat) (x : HCmp) : OutWf (halfCmp cc x s) := by
  unfold halfCmp
  grind [outWf_next, wf_packedOp]

/-! Conversions (R214 to R216) and the special-function instructions (R217, R218). -/

theorem wf_special (f : Nat → Nat) (x : SfArgs) : OutWf (special f x s) := by
  unfold special
  grind [outWf_next, wf_laneOp]

/-! Predicate instructions (R219), the mask stack (R44, R220), lane summaries (R221) and the mask as a predicate (R222). -/

theorem wf_predBin (f : BitVec 4 → BitVec 4 → BitVec 4) (x : PredBin) : OutWf (predBin f x s) := wf_laneOp h ..

theorem wf_predMov (f : LWord → BitVec 4) (x : PredMov) : OutWf (predMov f x s) := by
  unfold predMov
  grind [outWf_next, wf_laneOp]

theorem wf_maskDone (g : Nat) (eff : Group → LaneCtx) : Memory.wf (maskDone s g eff).mem = true := by
  unfold maskDone
  grind [wf_laneAdvance, modGroup_mem]

theorem wf_maskOp (cond : Option PReg) (trap : LaneCtx → Option Nat) (eff : Group → LaneCtx) (emit : State → Nat → State)
    (hemit : ∀ t a, Memory.wf t.mem = true → Memory.wf (emit t a).mem = true) : OutWf (maskOp s cond trap eff emit) := by
  unfold maskOp
  grind [outWf_next, wf_onGroup, modGroup_mem, wf_raiseLane, wf_maskDone, wf_traceAhead]

theorem wf_emitMask (sub g : Nat) : Memory.wf (emitMask sub s g).mem = true := wf_emitGroup h ..

/-! Cross-lane instructions (R223 to R229). -/

theorem wf_shuffle (op : Nat) (x : ShflArgs) : OutWf (shuffle op x s) := by
  unfold shuffle
  grind [outWf_next, wf_laneOp]

/-! Lane memory instructions (R230 to R241). -/

theorem wf_homeLane (g : Nat) (m : LaneMem) (snap : Option (List Host.Cell)) (i : Nat) (va : Word) (hi : Bool) (gs : List Seg) :
    Memory.wf (homeLane s g m snap i va hi gs).1.mem = true := by
  unfold homeLane
  grind [wf_readRo, modGroup_mem, wf_homeRead, wf_settle, wf_noteUpdate, wf_writeSegs, wf_homeAtomic, wf_homeWrite, wf_homeAcc]

theorem wf_serveLane (g : Nat) (a : LaneAcc) (i : Nat) : Memory.wf (serveLane s g a i).1.mem = true := by
  unfold serveLane
  grind [laneFault_mem, scratchLane_mem, laneServed_mem, xlate_mem, wf_homeLane, noteRo_mem]

theorem wf_emitSample (g : Nat) (p : Sample) : Memory.wf (emitSample s g p).mem = true := by
  unfold emitSample
  grind [wf_emitGroup]

theorem wf_stepSample (g : Nat) (ex done : Mask) (last : Nat) (faulted : Bool) : Memory.wf (stepSample s g ex done last faulted).mem = true := by
  unfold stepSample
  grind [wf_emitSample, setGroup_mem]

theorem wf_endLaneMem (g : Nat) (a : LaneAcc) : Memory.wf (endLaneMem s g a).mem = true := by
  unfold endLaneMem
  grind [wf_traceAhead, cleanRuns_mem, clearFaults_mem, wf_stepSample, modGroup_mem, wf_raiseClobbers, wf_laneDone]

theorem wf_serveLanes (g : Nat) : Memory.wf (serveLanes s g).mem = true := by
  unfold serveLanes
  grind [wf_foldPair, wf_serveLane, wf_endLaneMem, modGroup_mem]

theorem wf_memIssue (c : LaneCtl) (u : Use) (m : Group → LaneMem) : OutWf (memIssue s c u m) := by
  unfold memIssue
  grind [outWf_next, wf_onGroup, modGroup_mem, wf_laneTrap, setGroup_mem, wf_serveLanes, noteSample_mem]

theorem wf_prefetch (c : LaneCtl) (ro : Bool) (src : List Nat) (addrs : Group → List (Word × Bool)) : OutWf (prefetch s c ro src addrs) := by
  unfold prefetch
  grind [outWf_next, wf_foldl, wf_onGroup, wf_laneTrap, wf_stepSample, noteSample_mem, wf_laneAdvance, prefetchLine_mem]

/-! The booth instructions of the lane stream (R249). -/

theorem wf_boothIssue (g : Nat) (x : VBoothArgs) (u : Use) (k : Group → Mask → State) (hk : ∀ a b, Memory.wf (k a b).mem = true) :
    Memory.wf (boothIssue s g x u k).mem = true := by
  unfold boothIssue
  grind [modGroup_mem, wf_laneTrap, wf_raiseLane]

theorem wf_vboothDone (g d : Nat) (v : Word) (sectors : List Nat) (last : Nat) : Memory.wf (vboothDone s g d v sectors last).mem = true := by
  unfold vboothDone
  grind [modGroup_mem, wf_stepSample, wf_laneAdvance]

/-! Long-accumulator instructions, class 110 (R255 to R260). -/

theorem wf_slotOp (f : LA → LA → LA) (reads : Bool) (x : QTwo) : OutWf (slotOp f reads x s) := by
  unfold slotOp
  grind [outWf_next, wf_laneOp]

theorem wf_accumulate (c : LaneCtl) (u : Use) (t : CType) (d : Nat) (vals : Group → List (List FVal)) : OutWf (accumulate s c u t d vals) := by
  unfold accumulate
  grind [outWf_next, wf_packedOp, wf_laneOp]

/-! Tile instructions, class 111 (R261 to R277). -/

theorem wf_tileIllegal (g cause : Nat) : Memory.wf (tileIllegal s g cause).mem = true := wf_raiseLane h ..

theorem wf_tileIssue (i : TileIns) : OutWf (tileIssue i s) := by
  unfold tileIssue
  grind [outWf_next, wf_onGroup, modGroup_mem, wf_tileIllegal, wf_raiseLane]

theorem wf_tileEventHold (g code : Nat) (hold : Bool) : Memory.wf (tileEventHold s g code hold).mem = true := wf_eventRecord h ..

theorem wf_tileEvent (g code : Nat) : Memory.wf (tileEvent s g code).mem = true := wf_tileEventHold h ..

theorem wf_tileEnter (g : Nat) : Memory.wf (tileEnter s g).mem = true := by
  unfold tileEnter
  grind [newName_mem, setGroup_mem, wf_tileEvent, modCore_mem]

theorem wf_abandonTile (g : Nat) (hold : Bool) : Memory.wf (abandonTile s g hold).mem = true := by
  unfold abandonTile
  grind [wf_tileEventHold, modCore_mem, clearFaults_mem, modGroup_mem]

theorem wf_tilePend (g : Nat) (own : Bool) (r : FaultRec) : Memory.wf (tilePend s g own r).mem = true := by
  unfold tilePend
  grind [wf_unhandled, modGroup_mem]

theorem wf_tileFault (g : Nat) (r : FaultRec) : Memory.wf (tileFault s g r).mem = true := by
  unfold tileFault
  grind [wf_tilePend, wf_abandonTile]

theorem wf_tileRead (g : Nat) (t : TileDesc) : Memory.wf (tileRead s g t).1.mem = true := by
  unfold tileRead
  grind [wf_readDesc]

theorem wf_withElems (g : Nat) (t : TileDesc) {k : State → List Nat → State × TurnRes}
    (hk : ∀ t a, Memory.wf t.mem = true → Memory.wf (k t a).1.mem = true) : Memory.wf (withElems s g t k).1.mem = true := by
  unfold withElems
  grind [wf_tileRead]

theorem wf_loadTurn (g : Nat) (t : TileOp) (x : MoveArgs) : Memory.wf (loadTurn s g t x).1.mem = true := by
  unfold loadTurn
  grind [wf_tileRead, wf_withElems]

theorem wf_epiTurn (g : Nat) (t : TileOp) (x : EpiArgs) : Memory.wf (epiTurn s g t x).1.mem = true := by
  unfold epiTurn
  grind [wf_withElems]

theorem wf_turnResult (g : Nat) (t : TileOp) : Memory.wf (turnResult s g t).1.mem = true := by
  unfold turnResult
  grind [wf_foldl, wf_withElems, multiply_mem, convTurn_mem, wf_loadTurn, wf_epiTurn, wf_tileRead]

theorem wf_tileWrite (g : Nat) (t : TileDesc) (bs : List Byte) : Memory.wf (tileWrite s g t bs).1.mem = true := by
  unfold tileWrite
  grind [probeRuns_mem, wf_writeDesc, cleanBad_mem]

theorem wf_tileTurn (g : Nat) : Memory.wf (tileTurn s g).mem = true := by
  unfold tileTurn
  grind [wf_foldl, modTeam_mem, clearFaults_mem, modGroup_mem, wf_turnResult, wf_tileFault, wf_tileWrite]

theorem wf_tileDone (g : Nat) : Memory.wf (tileDone s g).mem = true := by
  unfold tileDone
  grind [setGroup_mem, wf_laneAdvance]

theorem wf_tileCommit (g : Nat) : Memory.wf (tileCommit s g).mem = true := by
  unfold tileCommit
  grind [wf_tileEvent, commitEffect_mem, modCore_mem, wf_tileDone, setGroup_mem, wf_tilePend]

/-! What happens before a scalar instruction acts. -/

theorem wf_scalarHeld {t : State} {g : Nat} {i : Instr} (e : scalarHeld s g i = some t) : Memory.wf t.mem = true := by
  simp only [scalarHeld] at e
  split at e
  · cases e; simpa using h
  · obtain ⟨k, -, rfl⟩ := Option.map_eq_some_iff.mp e
    exact wf_raiseScalar h _

/-! Whether a group's streams are ready (R36, R38, R46 to R48, R175, R345). -/

theorem wf_vectorGroup (g : Nat) : Memory.wf (vectorGroup s g).mem = true := by
  unfold vectorGroup
  grind [handlerEntry_mem, wf_unhandled, wf_takeException, clearFaults_mem]

/-! Placement (R22, R23, R29 to R32, R69, R317). -/

theorem wf_startTeam (l no c : Nat) : Memory.wf (startTeam s l no c).mem = true := by
  unfold startTeam
  grind [wf_foldl, newName_mem, setTeam_mem, wf_emitSync, addGroup_mem, modLaunch_mem]

/-! Forced and cooperative saves of a node and its restore (R29, R320, R352 to R356, R360). -/

theorem wf_stopGroup (g : Nat) : Memory.wf (stopGroup s g).mem = true := by
  unfold stopGroup
  grind [leaveBooth_mem, wf_traceStop, wf_abandonTile, modGroup_mem]

theorem wf_saveFault (l n no : Nat) : Memory.wf (saveFault s l n no).mem = true := by
  unfold saveFault
  grind [wf_killEverywhere, clearFaults_mem]

theorem wf_saveEvent (l n code : Nat) : Memory.wf (saveEvent s l n code).mem = true := wf_putRecord h ..

theorem wf_storeArea (l t : Nat) (segs : List Seg) : Memory.wf (storeArea s l t segs).mem = true := by
  unfold storeArea
  grind [wf_updateWith, wf_sendCopies, wf_writeArea, wf_settle]

theorem wf_settleAreas (l : Nat) (areas : List (Nat × List Seg)) : Memory.wf (settleAreas s l areas).mem = true := by
  unfold settleAreas
  grind [wf_foldl, wf_settle]

theorem wf_releaseTeam (l n t : Nat) : Memory.wf (releaseTeam s l n t).mem = true := by
  unfold releaseTeam
  grind [wf_freeTeam, modLaunch_mem]

theorem wf_finishSave (l n : Nat) : Memory.wf (finishSave s l n).mem = true := by
  unfold finishSave
  grind [wf_foldl, areasOf_mem, wf_saveFault, wf_stopGroup, clearFaults_mem, wf_storeArea, wf_releaseTeam, modLaunch_mem, wf_saveEvent]

theorem wf_saveStep (l n : Nat) : Memory.wf (saveStep s l n).mem = true := by
  unfold saveStep
  grind [wf_finishSave, wf_saveEvent, tellNode_mem, modLaunch_mem]

theorem wf_preemptArrival (part id : Nat) (m : FarPreempt) : Memory.wf (preemptArrival s part id m).mem = true := by
  unfold preemptArrival
  grind [askYield_mem, modLaunch_mem, wf_saveStep]

theorem wf_reviveTeam (k : SavedTeam) (c : Nat) : Memory.wf (reviveTeam s k c).mem = true := by
  unfold reviveTeam
  grind [wf_foldl, setTeam_mem, wf_emitSync, addGroup_mem]

/-! Command streams (R368 to R373). -/

theorem wf_queueRead (who : Who) (va : Word) (n : Nat) : Memory.wf (queueRead s who va n).1.mem = true := by
  unfold queueRead
  grind [xlate_mem, wf_settle]

theorem wf_queueWrite (who : Who) (va : Word) (bs : List Byte) : Memory.wf (queueWrite s who va bs).1.mem = true := by
  unfold queueWrite
  grind [xlate_mem, wf_homeWrite]

/-! The life of a launch (R375 to R379). -/

theorem wf_launchRecord (part : Nat) (id : BitVec 32) (e : EndInfo) : Memory.wf (launchRecord s part id e).mem = true := wf_putRecord h ..

theorem wf_writeCompletion (l q : Nat) (e : EndInfo) :
    Memory.wf (writeCompletion s l q e).2.mem = true ∧ ∀ t, (writeCompletion s l q e).1 = some t → Memory.wf t.mem = true := by
  unfold writeCompletion
  grind [wf_queueWrite, clearFaults_mem]

/-! The packets of a command stream (R370 to R374). -/

theorem wf_readBody (who : Who) (ty : Nat) (a : Word) (f i : Nat) (bs : List Byte) (e : Option Nat) :
    Memory.wf (readBody who ty a f i s bs e).1.mem = true := by
  induction f generalizing s i bs e with
  | zero => exact h
  | succ f ih => rw [readBody]; grind [wf_queueRead]

theorem wf_onPacket (q ty : Nat) (k : State → List Byte → Bool → Nat → State)
    (hk : ∀ t a b c, Memory.wf t.mem = true → Memory.wf (k t a b c).mem = true) : Memory.wf (onPacket s q ty k).mem = true := by
  unfold onPacket
  grind [wf_queueRead, streamError_mem, wf_readBody]

theorem wf_unreadable (q n : Nat) (addr : Word) (irq : Bool) : Memory.wf (unreadable s q n addr irq).mem = true := by
  unfold unreadable
  grind [addLaunch_mem, proceed_mem, queueLaunch_mem, wf_queueRead]

theorem wf_pollSemaphore (q : Nat) (addr value : Word) : Memory.wf (pollSemaphore s q addr value).mem = true := by
  unfold pollSemaphore
  grind [wf_queueRead, streamError_mem, proceed_mem, modQueue_mem]

theorem wf_copyChunk (q : Nat) (k : QCopy) : Memory.wf (copyChunk s q k).mem = true := by
  unfold copyChunk
  grind [modQueue_mem, clearFaults_mem, wf_engineLoad, wf_engineStore]

/-! The host's writes through the register windows (R6, R367 to R369, R383, R399). -/

theorem wf_writeControl (fn q : Nat) (v : Word) : Memory.wf (writeControl s fn q v).mem = true := by
  unfold writeControl
  grind [wf_beginReset, setQueue_mem]

theorem wf_writeQueue (fn q off : Nat) (v : Word) : Memory.wf (writeQueue s fn q off v).mem = true := by
  unfold writeQueue
  grind [writeRing_mem, wf_writeControl, ringDoorbell_mem, clearHalt_mem]

theorem wf_renumber (old new : Nat) : Memory.wf (renumber s old new).mem = true := by
  unfold renumber
  split
  · exact h
  · exact wf_moveRange 0 _ _ _ _ (wf_moveRange 0 _ _ _ _ h)

theorem wf_writePodcfg (v : Word) : Memory.wf (writePodcfg s v).mem = true := by
  unfold writePodcfg
  grind [wf_renumber, setPod_mem, sendAll_mem]

theorem wf_hostWrite (fn off : Nat) (v : Word) : Memory.wf (hostWrite s fn off v).mem = true := by
  unfold hostWrite
  grind [unsupported_mem, wf_writePodcfg, wf_writeQueue, wf_hostReg, writeSlot_mem]

theorem wf_hostPreg (p r : Nat) (v : Word) : Memory.wf (hostPreg s p r v).mem = true := by
  unfold hostPreg
  grind [wf_hostWrite]

/-! What happens around the dies. -/

theorem wf_powered (f : State → State) (hf : ∀ t, Memory.wf t.mem = true → Memory.wf (f t).mem = true) : OutWf (powered s f) := by
  unfold powered
  grind [outWf_next]

theorem wf_whenReady (f : State → State) (hf : ∀ t, Memory.wf t.mem = true → Memory.wf (f t).mem = true) : OutWf (whenReady s f) := by
  unfold whenReady
  grind [outWf_next]

theorem wf_writeJournal (step outcome unit detail : Nat) : Memory.wf (writeJournal s step outcome unit detail).mem = true := by
  unfold writeJournal
  grind [wf_foldl, wf_engineEvent]

theorem wf_journalFailure (step unit : Nat) : Memory.wf (journalFailure s step unit).mem = true := by
  unfold journalFailure
  grind [freeValue_mem, wf_writeJournal]

theorem wf_toAllSinks (d typ : Nat) (body : List Byte) : Memory.wf (toAllSinks s d typ body).mem = true := by
  unfold toAllSinks
  grind [wf_foldl, wf_putRecord]

theorem wf_setClock (d mhz : Nat) : Memory.wf (setClock s d mhz).mem = true := by
  unfold setClock
  grind [wf_toAllSinks, modDie_mem]

theorem wf_resumeSink (d p : Nat) : Memory.wf (resumeSink s d p).mem = true := by
  unfold resumeSink
  grind [wf_drainAll, setSink_mem]

theorem wf_updateHost (gd flat : Nat) : Memory.wf (updateHost s gd flat).mem = true := by
  unfold updateHost
  grind [wf_sendCopies]

theorem wf_settleHost (gd flat n : Nat) : Memory.wf (settleHost s gd flat n).mem = true := by
  unfold settleHost
  grind [wf_foldl, wf_gatherSlot, wf_mergeSlot]

/-! Bring-up (R406 to R411). -/

theorem wf_tookStep (step outcome unit detail next : Nat) : Memory.wf (tookStep s step outcome unit detail next).mem = true := by
  unfold tookStep
  grind [wf_writeJournal]

theorem wf_trainStep (step result unit detail : Nat) : Memory.wf (trainStep s step result unit detail).mem = true := by
  unfold trainStep
  grind [wf_tookStep, restart_mem, unserviceable_mem, writeField_mem]

theorem wf_readyStep : Memory.wf (readyStep s).mem = true := by
  unfold readyStep
  grind [applyField_mem, wf_tookStep, writeField_mem]

theorem wf_keyStep (result unit detail : Nat) : Memory.wf (keyStep s result unit detail).mem = true := by
  unfold keyStep
  grind [unserviceable_mem, wf_tookStep]

theorem wf_recordStep (result unit detail : Nat) : Memory.wf (recordStep s result unit detail).mem = true := by
  unfold recordStep
  grind [unserviceable_mem, wf_tookStep, writeField_mem]

theorem wf_bootStep (result unit detail : Nat) : Memory.wf (bootStep s result unit detail).mem = true := by
  unfold bootStep
  grind [wf_keyStep, wf_recordStep, wf_readyStep, wf_trainStep]

theorem wf_submitImage (v : Word) : Memory.wf (submitImage s v).mem = true := by
  unfold submitImage
  grind [wf_tookStep]

theorem wf_loseDevice (torn : Bool) : Memory.wf (loseDevice s torn).mem = true := by
  unfold loseDevice
  exact wf_moveRange 0 _ _ _ _ (tableWf_filter 0 _ _ h)

/-! What happens before an instruction's meaning. -/

theorem wf_fetch (g : Nat) (a : Agent) (pc : Word) (n : Nat) : Memory.wf (fetch s g a pc n).1.mem = true := by
  unfold fetch
  grind [xlate_mem, clearFaults_mem, wf_settle]

/-! A request at its home (R322). -/

theorem wf_remoteAct (n : Nat) (r : RemoteReq) (segs : List Seg) : Memory.wf (remoteAct s n r segs).mem = true := by
  unfold remoteAct
  grind [answerRemote_mem, cleanBad_mem, wf_homeWrite, wf_settle, wf_homeAtomic, wf_noteUpdate, wf_writeSegs]

theorem wf_serveRemote (n : Nat) : Memory.wf (serveRemote s n).mem = true := by
  unfold serveRemote
  grind [wf_foldl, wf_pmapAt, answerRemote_mem, wf_dropTlb, xlate_mem, wf_remoteAct]

theorem wf_farAnswer (w : Nat) (r : FarReply) : Memory.wf (farAnswer s w r).mem = true := by
  unfold farAnswer
  grind [wf_finishWalk, wf_installLeaf]

theorem wf_farWrite (flat : Nat) (bs : List Byte) : Memory.wf (farWrite s flat bs).mem = true := by
  unfold farWrite
  grind [wf_mwrite]

/-! The passage of one step (logs 2 and 10). -/

theorem wf_tick : Memory.wf (tick s).mem = true := by
  unfold tick
  grind [wf_foldl, modDie_mem, slotWrap_mem, wf_endReset]

/-! The issue of one instruction of a stream or a walk. -/

theorem wf_fuseFetch (g : Nat) : ∀ t, fuseFetch s g = some t → Memory.wf t.mem = true := by
  unfold fuseFetch
  grind [wf_fetch]

/-! One step of the package. -/

theorem wf_beforeTurn : Memory.wf (beforeTurn s).mem = true := by
  unfold beforeTurn
  grind [wf_tick]

end

end Sys2Proof.Machine
end

section
/-! PROOFS. Memory spaces (family 05): the instructions and events keep the canonical form of memory. -/

namespace Sys2Proof.Machine
open Sys2Proof
set_option Elab.async false

section
variable {s : State} (h : Memory.wf s.mem = true)
include h

/-! Scalar loads, stores, atomics and fences (R180 to R185). -/

theorem wf_execSld (d a : SReg) (k : BitVec 3) (sp : Bool) (o : BitVec 10) : OutWf (execSld d a k sp o s) := by
  unfold execSld
  grind [outWf_next, wf_onGroup, wf_scalarAccess]

theorem wf_execSst (d a : SReg) (k : BitVec 2) (sp : Bool) (o : BitVec 10) : OutWf (execSst d a k sp o s) := by
  unfold execSst
  grind [outWf_next, wf_onGroup, wf_scalarAccess]

theorem wf_execSldX (d a b : SReg) (k : BitVec 3) (sp : Bool) : OutWf (execSldX d a b k sp s) := by
  unfold execSldX
  grind [outWf_next, wf_onGroup, wf_scalarAccess]

theorem wf_execSstX (d a b : SReg) (k : BitVec 2) (sp : Bool) : OutWf (execSstX d a b k sp s) := by
  unfold execSstX
  grind [outWf_next, wf_onGroup, wf_scalarAccess]

theorem wf_execSldAcq (d a : SReg) (k : BitVec 3) (sp : Bool) (c : Scope) : OutWf (execSldAcq d a k sp c s) := by
  unfold execSldAcq
  grind [outWf_next, wf_onGroup, wf_withScope, wf_scalarAccess]

theorem wf_execSstRel (d a : SReg) (k : BitVec 2) (sp : Bool) (c : Scope) : OutWf (execSstRel d a k sp c s) := by
  unfold execSstRel
  grind [outWf_next, wf_onGroup, wf_withScope, wf_afterLanes, wf_scalarAccess]

theorem wf_execSldRo (d a b : SReg) (k : BitVec 3) : OutWf (execSldRo d a b k s) := by
  unfold execSldRo
  grind [outWf_next, wf_onGroup, wf_scalarAccess]

/-! Branches, calls (R186 to R188), the release of lane work (R189, R190), status registers (R65, R66, R191) and counter waits (R192). -/

theorem wf_execSbr (a : SReg) (c : BitVec 4) (o : BitVec 16) : OutWf (execSbr a c o s) := by
  unfold execSbr
  grind [outWf_next, wf_retireTo, wf_tracedTo, wf_traceBranch]

theorem wf_execScall (o : BitVec 26) : OutWf (execScall o s) := by
  unfold execScall
  grind [outWf_next, wf_retireTo, setS_mem]

theorem wf_execScallr (a : SReg) : OutWf (execScallr a s) := by
  unfold execScallr
  grind [outWf_next, wf_indirect, setS_mem]

theorem wf_execLrun (n : BitVec 10) : OutWf (execLrun n s) := by
  unfold execLrun
  grind [outWf_next, wf_onGroup, wf_release]

theorem wf_execLjmp (o : BitVec 25) : OutWf (execLjmp o s) := by
  unfold execLjmp
  grind [outWf_next, wf_onGroup, wf_release]

theorem wf_execLrunr (a : SReg) : OutWf (execLrunr a s) := by
  unfold execLrunr
  grind [outWf_next, wf_onGroup, wf_retire, wf_illegal, wf_release]

theorem wf_execLjmpr (a : SReg) : OutWf (execLjmpr a s) := by
  unfold execLjmpr
  grind [outWf_next, wf_onGroup, wf_release]

theorem wf_execLsync : OutWf (execLsync s) := by
  unfold execLsync
  grind [outWf_next, wf_onGroup, wf_afterLanes, wf_retire]

theorem wf_execLmask (d : SReg) (w : BitVec 2) : OutWf (execLmask d w s) := by
  unfold execLmask
  grind [outWf_next, wf_onGroup, wf_afterLanes, wf_result]

theorem wf_execLsumm (d : SReg) : OutWf (execLsumm d s) := by
  unfold execLsumm
  grind [outWf_next, wf_onGroup, wf_afterLanes, wf_result]

theorem wf_execSget (d : SReg) (n : BitVec 12) : OutWf (execSget d n s) := by
  unfold execSget
  grind [outWf_next, wf_onGroup, wf_result, wf_illegal, wf_whenIssued]

/-! Barrier objects (R114 to R116, R194 to R196), node barriers (R197), yields with continuation (R198). -/

theorem wf_execBarInit (a b : SReg) : OutWf (execBarInit a b s) := by
  unfold execBarInit
  grind [outWf_next, wf_onGroup, wf_notParked, wf_illegal, wf_clobber, wf_tellLate, wf_retire, modTeam_mem, wf_raiseScalar]

theorem wf_execBarArrive (d a b : SReg) : OutWf (execBarArrive d a b s) := by
  unfold execBarArrive
  grind [outWf_next, wf_onGroup, wf_withBar, wf_afterLanes, wf_clobber, wf_tellLate, wf_result, modTeam_mem]

theorem wf_execBarWait (a : SReg) : OutWf (execBarWait a s) := by
  unfold execBarWait
  grind [outWf_next, wf_onGroup, wf_notParked, wf_withBar, wf_clobber, wait_mem, wf_retire]

theorem wf_execSbarArrive (d : SReg) (c : Scope) : OutWf (execSbarArrive d c s) := by
  unfold execSbarArrive
  grind [outWf_next, wf_onGroup, wf_withNodeScope, wf_afterLanes, wait_mem, modLaunch_mem, wf_result, settleBar_mem]

theorem wf_execSbarWait (a : SReg) (c : Scope) : OutWf (execSbarWait a c s) := by
  unfold execSbarWait
  grind [outWf_next, wf_onGroup, wf_withNodeScope, wf_notParked, wait_mem, wf_retire]

theorem wf_execYieldc (a b : SReg) (o : BitVec 14) : OutWf (execYieldc a b o s) := by
  unfold execYieldc
  grind [outWf_next, wf_onGroup, wf_withBar, wf_afterLanes, wf_clobber, modGroup_mem, wait_mem, wf_retireTo]

/-! Booths (R109 to R113, R245 to R250). -/

theorem wf_execBdecl (a b : SReg) : OutWf (execBdecl a b s) := by
  unfold execBdecl
  grind [outWf_next, wf_onGroup, wf_declareBooth, wf_illegal, wf_raiseScalar, modGroup_mem, wait_mem]

theorem wf_execBtake (d a : SReg) : OutWf (execBtake d a s) := by
  unfold execBtake
  grind [outWf_next, wf_onGroup, wf_illegal, wf_raiseScalar, wf_result, setTeam_mem]

theorem wf_execBdrop (a : SReg) : OutWf (execBdrop a s) := by
  unfold execBdrop
  grind [outWf_next, wf_onGroup, wf_illegal, wf_raiseScalar, wf_afterLanes, wf_retire, setTeam_mem]

theorem wf_execBarFree (a : SReg) : OutWf (execBarFree a s) := by
  unfold execBarFree
  grind [outWf_next, wf_onGroup, wf_notParked, wf_withBar, wf_retire, removeBooth_mem, wf_clobber, wf_tellLate, setTeam_mem]

/-! Tile descriptors. -/

theorem wf_execTset (t : TReg) (a b : SReg) : OutWf (execTset t a b s) := by
  unfold execTset
  grind [outWf_next, wf_onGroup, wf_writeTile]

theorem wf_execTsetb (t : TReg) (a : SReg) : OutWf (execTsetb t a s) := by
  unfold execTsetb
  grind [outWf_next, wf_onGroup, wf_illegal, wf_writeTile]

theorem wf_execTsets (t : TReg) (a : SReg) : OutWf (execTsets t a s) := by
  unfold execTsets
  grind [outWf_next, wf_onGroup, wf_illegal, wf_writeTile]

theorem wf_execTgetl (d : SReg) (t : TReg) : OutWf (execTgetl d t s) := by
  unfold execTgetl
  grind [outWf_next, wf_onGroup, wf_result]

theorem wf_execTgeth (d : SReg) (t : TReg) : OutWf (execTgeth d t s) := by
  unfold execTgeth
  grind [outWf_next, wf_onGroup, wf_result]

/-! Bulk copies (R117, R118, R242 to R244). -/

theorem wf_xcopyGo (g t : Nat) (a : SReg) (off : Nat) (r : List Byte) : Memory.wf
      (if copyBar r = 0xFFFFFFFF then handOver s g a off r
        else match clusterAddr s t (copyBar r) with
          | .at u o => if isBarrier (team s u) o then handOver s g a off r else clobber s 3 (BitVec.ofNat 64 (copyBar r))
          | _ => raiseScalar s (scalarRec 7 0 true false (BitVec.ofNat 64 (copyBar r)))).mem = true := by
    grind [wf_handOver, wf_clobber, wf_raiseScalar]

theorem wf_execXcopy (a : SReg) : OutWf (execXcopy a s) := by
  refine wf_onGroup h _ fun g => wf_ite (wf_illegal h 1) (wf_ite (wf_raiseScalar h _) (wf_ite (wf_raiseScalar h _) ?_))
  split
  · exact wf_raiseScalar h _
  dsimp only
  split
  · exact wf_illegal h _
  · exact wf_ite (wf_raiseScalar h _) (wf_ite (wf_raiseScalar h _)
      (wf_ite (wf_afterLanes h _ _ _ fun s h => wf_xcopyGo h ..) (wf_xcopyGo h ..)))

/-! Shape records and handles (R119 to R121, R200), coherence objects (R251 to R254, R338, R341), trace markers and sampling (R201). -/

theorem wf_execShalloc (d a : SReg) : OutWf (execShalloc d a s) := by
  unfold execShalloc
  grind [outWf_next, wf_onGroup, wf_illegal, wf_raiseScalar, wf_result, setShape_mem]

theorem wf_execShfree (a : SReg) : OutWf (execShfree a s) := by
  unfold execShfree
  grind [outWf_next, wf_onGroup, wf_retire, setShape_mem, wf_raiseScalar]

theorem wf_execShtest (d a : SReg) : OutWf (execShtest d a s) := by
  unfold execShtest
  grind [outWf_next, wf_onGroup, wf_result]

theorem wf_execCobjDecl (d a b : SReg) : OutWf (execCobjDecl d a b s) := by
  refine wf_onGroup h _ fun g => wf_ite (wf_illegal h 1) (wf_ite (wf_illegal h 5) (wf_ite (wf_raiseScalar h _) ?_))
  split
  · exact wf_raiseScalar h _
  refine wf_ite (wf_illegal h 5) ?_
  split
  · exact wf_raiseScalar h _
  · exact wf_ite (wf_raiseScalar h _) (wf_withPages h _ _ _ _ _ _ fun s h => wf_ite (wf_result h ..) (wf_ite (wf_result h ..)
      (wf_result (s := putObj _ _ _ _) h ..)))

theorem wf_execCobjMode (k : KReg) (a b : SReg) : OutWf (execCobjMode k a b s) := by
  unfold execCobjMode
  grind [outWf_next, wf_onGroup, wf_illegal, wf_withObject, wait_mem, wf_withPages, newName_mem, modGroup_mem, wf_retire, putObj_mem]

theorem wf_execCobjFree (a : SReg) : OutWf (execCobjFree a s) := by
  unfold execCobjFree
  grind [outWf_next, wf_onGroup, wf_withObject, wait_mem, wf_mergeObject, wf_retire, putObj_mem]

theorem wf_execCobjQuery (d a : SReg) : OutWf (execCobjQuery d a s) := by
  unfold execCobjQuery
  grind [outWf_next, wf_onGroup, wf_withObject, wf_result]

theorem wf_execTmark (a b : SReg) : OutWf (execTmark a b s) := by
  unfold execTmark
  grind [outWf_next, wf_onGroup, wf_retireTraced, wf_aheadNow, wf_emitGroup]

theorem wf_execTsync : OutWf (execTsync s) := by
  unfold execTsync
  grind [outWf_next, wf_onGroup, wf_retireTraced, wf_emitSync]

theorem wf_execTsamp (a : SReg) : OutWf (execTsamp a s) := by
  unfold execTsamp
  grind [outWf_next, wf_onGroup, wf_retire, modGroup_mem]

/-! Collectives (R278 to R293). -/

theorem wf_execCabort (d a : SReg) : OutWf (execCabort d a s) := by
  unfold execCabort
  grind [outWf_next, wf_onGroup, wf_notParked, wf_illegal, wf_raiseScalar, wf_afterLanes, wf_result, wf_putColl, dropSusp_mem]

/-! The end of a group (R40, R187) and a partition reset (R387, R388). -/

theorem wf_execSexit : OutWf (execSexit s) := by
  unfold execSexit
  grind [outWf_next, wf_discardFrame, wf_endGroup, wait_mem, modGroup_mem]

/-! The privileged instructions of major 0x3C (R308 to R320). -/

theorem wf_execSpget (d a : SReg) : OutWf (execSpget d a s) := by
  unfold execSpget
  grind [outWf_next, wf_privileged, wf_illegal, wf_result]

theorem wf_execSpset (a b : SReg) : OutWf (execSpset a b s) := by
  unfold execSpset
  grind [outWf_next, wf_privileged, wf_illegal, wf_retire, wf_regPut]

theorem wf_execSslotw (a b : SReg) : OutWf (execSslotw a b s) := by
  unfold execSslotw
  grind [outWf_next, wf_foldl, wf_privileged, wf_illegal, wf_retire, modCore_mem]

theorem wf_execSslotr (d a : SReg) : OutWf (execSslotr d a s) := by
  unfold execSslotr
  grind [outWf_next, wf_privileged, wf_result, wf_illegal]

theorem wf_execSslotx (a : SReg) : OutWf (execSslotx a s) := by
  unfold execSslotx
  grind [outWf_next, wf_foldl, wf_privileged, wf_illegal, wait_mem, wf_retire, modCore_mem, modGroup_mem]

theorem wf_execSpreq (d a b : SReg) : OutWf (execSpreq d a b s) := by
  unfold execSpreq
  grind [outWf_next, wf_privileged, wf_illegal, wf_result, askYield_mem, tellChips_mem]

theorem wf_execSgpl (d : SReg) : OutWf (execSgpl d s) := by
  unfold execSgpl
  grind [outWf_next, wf_privileged, wf_result]

/-! The instructions of major 0x3D (R325 to R337, R342). -/

theorem wf_execTlbroot (a b : SReg) : OutWf (execTlbroot a b s) := by
  unfold execTlbroot
  grind [outWf_next, wf_foldl, wf_privileged, wf_illegal, wf_retire, wf_invalidate, modDie_mem, wait_mem]

theorem wf_execTlbinv (a b : SReg) : OutWf (execTlbinv a b s) := by
  unfold execTlbinv
  grind [outWf_next, wf_foldl, wf_privileged, wf_retire, wf_afterLanes, wf_invalidate, wf_askAnswer, wf_dropTlb, wf_illegal, wf_raiseScalar]

theorem wf_execCarve (d a : SReg) (k : KReg) : OutWf (execCarve d a k s) := by
  unfold execCarve
  grind [outWf_next, wf_foldl, wf_privileged, wf_illegal, wait_mem, wf_result, newName_mem, modGroup_mem, modDie_mem, wf_scrubWay, wf_dropTlb]

theorem wf_execPmap (d a b : SReg) : OutWf (execPmap d a b s) := by
  unfold execPmap
  grind [outWf_next, wf_privileged, wf_raiseScalar, wf_illegal, wf_pmapAt, wf_result, wf_askAnswer]

theorem wf_execPgive (d a b : SReg) : OutWf (execPgive d a b s) := by
  unfold execPgive
  grind [outWf_next, wf_privileged, wf_illegal, wf_result, modDie_mem]

theorem wf_execWldp (d a : SReg) : OutWf (execWldp d a s) := by
  unfold execWldp
  grind [outWf_next, wf_inWalk, wf_result, wf_walkError]

theorem wf_execWcasp (d a b : SReg) : OutWf (execWcasp d a b s) := by
  unfold execWcasp
  grind [wf_inWalk, wf_mwrite, wf_result, wf_walkError]

theorem wf_execTlbfill (a b : SReg) : OutWf (execTlbfill a b s) := by
  unfold execTlbfill
  grind [outWf_next, wf_inWalk, wf_walkError, wf_finishWalk, wf_installLeaf]

theorem wf_execWentry (a b : SReg) : OutWf (execWentry a b s) := by
  unfold execWentry
  grind [outWf_next, wf_foldl, wf_privileged, wf_illegal, wf_retire, modDie_mem]

/-! The instructions of major 0x3E (R348 to R351). -/

theorem wf_execEret : OutWf (execEret s) := by
  unfold execEret
  grind [outWf_next, wf_inHandlerOnly, wf_applyTrace, wf_returnException, wait_mem, modGroup_mem]

theorem wf_execEkill (a : SReg) : OutWf (execEkill a s) := by
  unfold execEkill
  grind [outWf_next, wf_privileged, wf_illegal, wf_unhandled]

theorem wf_execEfget (d a : SReg) : OutWf (execEfget d a s) := by
  unfold execEfget
  grind [outWf_next, wf_inHandlerOnly, wf_result, wf_illegal]

theorem wf_execEfset (a b : SReg) : OutWf (execEfset a b s) := by
  unfold execEfset
  grind [outWf_next, wf_inHandlerOnly, wf_illegal, wf_retire, modGroup_mem]

/-! Integer lane instructions (R206, R209). -/

theorem wf_execVmad (x : IntTern) : OutWf (execVmad x s) := by
  unfold execVmad
  grind [outWf_next, wf_laneOp]

theorem wf_execVcmp (x : IntCmp) : OutWf (execVcmp x s) := by
  unfold execVcmp
  grind [outWf_next, wf_laneOp]

theorem wf_execVselN32 (x : SelArgs) : OutWf (execVselN32 x s) := by
  unfold execVselN32
  grind [outWf_next, wf_laneOp]

theorem wf_execVselN64 (x : SelArgs) : OutWf (execVselN64 x s) := by
  unfold execVselN64
  grind [outWf_next, wf_laneOp]

theorem wf_execVcoord (x : CoordArgs) : OutWf (execVcoord x s) := by
  unfold execVcoord
  grind [outWf_next, wf_laneOp]

/-! Packed integer lane instructions and integer dot products (R207, R208). -/

theorem wf_execVdot (x : DotArgs) : OutWf (execVdot x s) := by
  unfold execVdot
  grind [outWf_next, wf_laneOp]

/-! Floating-point lane instructions (R205, R210 to R213, R217, R218). -/

theorem wf_execVsqrt (x : FpUn) : OutWf (execVsqrt x s) := by
  unfold execVsqrt
  grind [outWf_next, wf_laneOp]

theorem wf_execVcmpFp (x : FpCmp) : OutWf (execVcmpFp x s) := by
  unfold execVcmpFp
  grind [outWf_next, wf_laneOp]

theorem wf_execVclass (x : FpBits) : OutWf (execVclass x s) := by
  unfold execVclass
  grind [outWf_next, wf_laneOp]

theorem wf_execVfmaF16 (x : HTern) : OutWf (execVfmaF16 x s) := by
  unfold execVfmaF16
  grind [outWf_next, wf_packedOp]

theorem wf_execVdot2 (x : HTern) : OutWf (execVdot2 x s) := by
  unfold execVdot2
  grind [outWf_next, wf_laneOp]

/-! Conversions (R214 to R216) and the special-function instructions (R217, R218). -/

theorem wf_execVcvtp (x : CvtpArgs) : OutWf (execVcvtp x s) := by
  unfold execVcvtp
  grind [outWf_next, wf_packedOp]

/-! Predicate instructions (R219), the mask stack (R44, R220), lane summaries (R221) and the mask as a predicate (R222). -/

theorem wf_execVpget (x : PredGet) : OutWf (execVpget x s) := by
  unfold execVpget
  grind [outWf_next, wf_laneOp]

theorem wf_execMpush (x : PushArgs) : OutWf (execMpush x s) := by
  unfold execMpush
  grind [outWf_next, wf_maskOp, wf_emitMask]

theorem wf_execMelse : OutWf (execMelse s) := by
  unfold execMelse
  grind [outWf_next, wf_maskOp, wf_emitMask]

theorem wf_execMpop : OutWf (execMpop s) := by
  unfold execMpop
  grind [outWf_next, wf_maskOp, wf_emitGroup]

/-! Cross-lane instructions (R223 to R229). -/

theorem wf_execVlred (x : LredArgs) : OutWf (execVlred x s) := by
  unfold execVlred
  grind [outWf_next, wf_laneOp]

theorem wf_execVscan (x : ScanArgs) : OutWf (execVscan x s) := by
  unfold execVscan
  grind [outWf_next, wf_laneOp]

theorem wf_execVbcast (x : BcastArgs) : OutWf (execVbcast x s) := by
  unfold execVbcast
  grind [outWf_next, wf_laneOp]

theorem wf_execVballot (x : BallotArgs) : OutWf (execVballot x s) := by
  unfold execVballot
  grind [outWf_next, wf_laneOp]

theorem wf_execVmatch (x : MatchArgs) : OutWf (execVmatch x s) := by
  unfold execVmatch
  grind [outWf_next, wf_laneOp]

/-! Lane memory instructions (R230 to R241). -/

theorem wf_execVld (x : ContArgs) : OutWf (execVld x s) := by
  unfold execVld
  grind [outWf_next, wf_memIssue]

theorem wf_execVldq (x : ContArgs) : OutWf (execVldq x s) := by
  unfold execVldq
  grind [outWf_next, wf_memIssue]

theorem wf_execVldx (x : IdxArgs) : OutWf (execVldx x s) := by
  unfold execVldx
  grind [outWf_next, wf_memIssue]

theorem wf_execVst (x : ContArgs) : OutWf (execVst x s) := by
  unfold execVst
  grind [outWf_next, wf_memIssue]

theorem wf_execVstq (x : ContArgs) : OutWf (execVstq x s) := by
  unfold execVstq
  grind [outWf_next, wf_memIssue]

theorem wf_execVstx (x : IdxArgs) : OutWf (execVstx x s) := by
  unfold execVstx
  grind [outWf_next, wf_memIssue]

theorem wf_execVamo (x : VAmoArgs) : OutWf (execVamo x s) := by
  unfold execVamo
  grind [outWf_next, wf_memIssue]

theorem wf_execVqatomAdd (x : QatomArgs) : OutWf (execVqatomAdd x s) := by
  unfold execVqatomAdd
  grind [outWf_next, wf_memIssue]

theorem wf_execVqatomMerge (x : QatomArgs) : OutWf (execVqatomMerge x s) := by
  unfold execVqatomMerge
  grind [outWf_next, wf_memIssue]

theorem wf_execVprefx (x : PrefxArgs) : OutWf (execVprefx x s) := by
  unfold execVprefx
  grind [outWf_next, wf_prefetch]

/-! The booth instructions of the lane stream (R249). -/

theorem wf_execVbput (x : VBoothArgs) : OutWf (execVbput x s) := by
  unfold execVbput
  grind [outWf_next, wf_onGroup, wf_boothIssue, wf_raiseLane, modGroup_mem, noteSample_mem]

theorem wf_execVbtake (x : VBoothArgs) : OutWf (execVbtake x s) := by
  unfold execVbtake
  grind [outWf_next, wf_onGroup, wf_boothIssue, noteSample_mem, wf_raiseLane, wf_vboothDone, modTeam_mem, modGroup_mem]

/-! Long-accumulator instructions, class 110 (R255 to R260). -/

theorem wf_execQzero (x : QOne) : OutWf (execQzero x s) := by
  unfold execQzero
  grind [outWf_next, wf_laneOp]

theorem wf_execQnorm (x : QOne) : OutWf (execQnorm x s) := by
  unfold execQnorm
  grind [outWf_next, wf_laneOp]

theorem wf_execQred (x : QRedArgs) : OutWf (execQred x s) := by
  unfold execQred
  grind [outWf_next, wf_foldl, wf_laneOp]

theorem wf_execQstat (x : QTwo) : OutWf (execQstat x s) := by
  unfold execQstat
  grind [outWf_next, wf_laneOp]

theorem wf_execQseg (x : QSegArgs) : OutWf (execQseg x s) := by
  unfold execQseg
  grind [outWf_next, wf_laneOp]

theorem wf_execQspill (x : QMemArgs) : OutWf (execQspill x s) := by
  unfold execQspill
  grind [outWf_next, wf_memIssue]

theorem wf_execQfill (x : QMemArgs) : OutWf (execQfill x s) := by
  unfold execQfill
  grind [outWf_next, wf_memIssue]

/-! Whether a group's streams are ready (R36, R38, R46 to R48, R175, R345). -/

theorem wf_execLaneJumpRecord (g : Nat) : OutWf (execLaneJumpRecord g s) := by
  unfold execLaneJumpRecord
  grind [outWf_next, setGroup_mem]

theorem wf_execScalarReply (g : Nat) : OutWf (execScalarReply g s) := by
  unfold execScalarReply
  grind [outWf_next, wf_asGroup, wf_finishScalar]

theorem wf_execLaneLoadReturn (g : Nat) : OutWf (execLaneLoadReturn g s) := by
  unfold execLaneLoadReturn
  grind [outWf_next, setGroup_mem]

theorem wf_execStorePerformed (g : Nat) : OutWf (execStorePerformed g s) := by
  unfold execStorePerformed
  grind [outWf_next, setGroup_mem]

theorem wf_execWalkStart (w : Nat) : OutWf (execWalkStart w s) := by
  unfold execWalkStart
  grind [outWf_next, wf_engineEvent, setWalk_mem, wf_walkError]

theorem wf_execWalkLimitExpiry (w : Nat) : OutWf (execWalkLimitExpiry w s) := by
  unfold execWalkLimitExpiry
  grind [outWf_next, wf_walkError]

theorem wf_execBoothReservation (g : Nat) : OutWf (execBoothReservation g s) := by
  unfold execBoothReservation
  exact (outWf_next _).mpr (wf_boothReserve h g _ fun _ _ _ _ _ ht => wf_vboothDone ht ..)

theorem wf_execBoothFillComplete (g : Nat) : OutWf (execBoothFillComplete g s) := by
  unfold execBoothFillComplete
  exact (outWf_next _).mpr (wf_boothFill h g _ fun _ _ _ _ _ ht => wf_vboothDone ht ..)

theorem wf_execCollectiveHandover (t : Nat) : OutWf (execCollectiveHandover t s) := by
  unfold execCollectiveHandover
  grind [outWf_next, wf_collHandover]

theorem wf_execSlotTableWrap (core : Nat) : OutWf (execSlotTableWrap core s) := by
  unfold execSlotTableWrap
  grind [outWf_next, slotWrap_mem]

/-! Placement (R22, R23, R29 to R32, R69, R317). -/

theorem wf_execTeamPlacement (l : Nat) : OutWf (execTeamPlacement l s) := by
  unfold execTeamPlacement
  grind [outWf_next, wf_foldl, wf_startTeam]

/-! Forced and cooperative saves of a node and its restore (R29, R320, R352 to R356, R360). -/

theorem wf_execPdeadExpiry (t : Nat) : OutWf (execPdeadExpiry t s) := by
  unfold execPdeadExpiry
  grind [outWf_next, wf_saveStep]

theorem wf_execCooperativeSave (l n : Nat) : OutWf (execCooperativeSave l n s) := by
  unfold execCooperativeSave
  grind [outWf_next, wf_saveStep, tellNode_mem, modLaunch_mem]

theorem wf_execNodeRestore (l n : Nat) : OutWf (execNodeRestore l n s) := by
  simp only [execNodeRestore]
  split
  · exact (outWf_next _).mpr h
  next k _ =>
  split
  · exact (outWf_next _).mpr h
  split
  · exact (outWf_next _).mpr h
  have ha : ∀ {t r}, areasOf s l n 1 (k.teams.map fun t => t.t.no) = (t, r) → Memory.wf t.mem = true := fun e => by
    have := areasOf_mem s l n 1 (k.teams.map fun t => t.t.no)
    rw [e] at this
    rwa [this]
  split
  · next e => exact (outWf_next _).mpr (ha e)
  · next e => exact (outWf_next _).mpr (wf_saveFault (ha e) ..)
  · next t areas e =>
    have hs := wf_settleAreas (ha e) l areas
    split
    · exact (outWf_next _).mpr (wf_saveFault hs ..)
    split
    · exact (outWf_next _).mpr hs
    · refine (outWf_next _).mpr (wf_saveEvent (wf_foldl (fun s t h => ?_) _ (by simpa using hs)) ..)
      split
      · exact wf_reviveTeam h ..
      · exact h

/-! The life of a launch (R375 to R379). -/

theorem wf_execLaunchJoinRequest (chip gen part priv : Nat) (desc : List Byte) : OutWf (execLaunchJoinRequest chip gen part priv desc s) := by
  unfold execLaunchJoinRequest
  grind [outWf_next, sendAll_mem, addLaunch_mem]

theorem wf_execJoinReply (chip gen : Nat) (ok : Bool) (status cause : Byte) : OutWf (execJoinReply chip gen ok status cause s) := by
  unfold execJoinReply
  grind [outWf_next, decideJoins_mem, setLaunch_mem, sendAll_mem]

theorem wf_execDownbeat (chip gen : Nat) : OutWf (execDownbeat chip gen s) := by
  unfold execDownbeat
  grind [outWf_next, sendAll_mem, modLaunch_mem]

theorem wf_execAbort (chip gen status : Nat) (cause : Nat × Nat) : OutWf (execAbort chip gen status cause s) := by
  unfold execAbort
  grind [outWf_next, wf_launchRecord, forgetLaunch_mem]

theorem wf_execStartedReply (chip gen : Nat) : OutWf (execStartedReply chip gen s) := by
  unfold execStartedReply
  grind [outWf_next, modLaunch_mem]

theorem wf_execDownbeatTimeout (l : Nat) : OutWf (execDownbeatTimeout l s) := by
  unfold execDownbeatTimeout
  grind [outWf_next, refuseAll_mem]

theorem wf_execJoinResendTimeout (chip gen : Nat) : OutWf (execJoinResendTimeout chip gen s) := by
  unfold execJoinResendTimeout
  grind [outWf_next, sendAll_mem, setLaunch_mem]

theorem wf_execJoinDropTimeout (chip gen : Nat) : OutWf (execJoinDropTimeout chip gen s) := by
  unfold execJoinDropTimeout
  grind [outWf_next, wf_launchRecord, forgetLaunch_mem]

theorem wf_execStartedTimeout (l : Nat) : OutWf (execStartedTimeout l s) := by
  unfold execStartedTimeout
  grind [outWf_next, wf_killEverywhere]

theorem wf_execLaunchKillArrival (part id status code chip team group : Nat) : OutWf (execLaunchKillArrival part id status code chip team group s) := by
  unfold execLaunchKillArrival
  grind [outWf_next, wf_killLaunch]

theorem wf_execLaunchEnd (l : Nat) : OutWf (execLaunchEnd l s) := by
  have ht : Memory.wf ((teamsOf s l).foldl reapTeam s).mem = true := wf_foldl (fun s t h => wf_reapTeam h t) _ h
  simp only [execLaunchEnd]
  grind [outWf_next, wf_writeCompletion, forgetLaunch_mem, noteEnd_mem, raiseVector_mem, modQueue_mem, wf_launchRecord]

/-! The packets of a command stream (R370 to R374). -/

theorem wf_execPacketNop (q : Nat) : OutWf (execPacketNop q s) := by
  unfold execPacketNop
  grind [outWf_next, wf_onPacket, proceed_mem]

theorem wf_execPacketLaunch (q : Nat) : OutWf (execPacketLaunch q s) := by
  unfold execPacketLaunch
  grind [outWf_next, wf_onPacket, wf_queueRead, wf_unreadable, addLaunch_mem, proceed_mem, queueLaunch_mem, submit_mem]

theorem wf_execPacketWait (q : Nat) : OutWf (execPacketWait q s) := by
  unfold execPacketWait
  grind [outWf_next, wf_onPacket, wf_pollSemaphore]

theorem wf_execSemaphoreSatisfied (q : Nat) : OutWf (execSemaphoreSatisfied q s) := by
  unfold execSemaphoreSatisfied
  grind [outWf_next, wf_queueRead, streamError_mem, wf_pollSemaphore]

theorem wf_execPacketSignal (q : Nat) : OutWf (execPacketSignal q s) := by
  unfold execPacketSignal
  grind [outWf_next, wf_onPacket, wf_queueWrite, streamError_mem, proceed_mem, raiseVector_mem]

theorem wf_execPacketCopy (q : Nat) : OutWf (execPacketCopy q s) := by
  unfold execPacketCopy
  grind [outWf_next, wf_onPacket, proceed_mem, setQueue_mem]

theorem wf_execPacketCopyDone (q : Nat) : OutWf (execPacketCopyDone q s) := by
  unfold execPacketCopyDone
  grind [outWf_next, wf_copyChunk, modQueue_mem, streamError_mem]

theorem wf_execPacketFence (q : Nat) : OutWf (execPacketFence q s) := by
  unfold execPacketFence
  grind [outWf_next, wf_onPacket, proceed_mem, raiseVector_mem]

theorem wf_execPacketMark (q : Nat) : OutWf (execPacketMark q s) := by
  unfold execPacketMark
  grind [outWf_next, wf_onPacket, proceed_mem, wf_putRecord]

theorem wf_execPacketJump (q : Nat) : OutWf (execPacketJump q s) := by
  unfold execPacketJump
  grind [outWf_next, wf_onPacket, streamError_mem, modQueue_mem]

theorem wf_execFrontEndBind (q : Nat) : OutWf (execFrontEndBind q s) := by
  unfold execFrontEndBind
  grind [outWf_next, modQueue_mem]

theorem wf_execFrontEndRelease (q : Nat) : OutWf (execFrontEndRelease q s) := by
  unfold execFrontEndRelease
  grind [outWf_next, setQueue_mem]

/-! The host's writes through the register windows (R6, R367 to R369, R383, R399). -/

theorem wf_execCsctlWrite (p d : Nat) (v : Word) : OutWf (execCsctlWrite p d v s) := by
  unfold execCsctlWrite
  grind [outWf_next, wf_hostPreg]

theorem wf_execCsrdWrite (p d : Nat) (v : Word) : OutWf (execCsrdWrite p d v s) := by
  unfold execCsrdWrite
  grind [outWf_next, wf_hostPreg]

/-! What happens around the dies. -/

theorem wf_execPodAnnouncement (chip : Nat) (dup : Bool) : OutWf (execPodAnnouncement chip dup s) := by
  unfold execPodAnnouncement
  grind [outWf_next, wf_powered, setPod_mem]

theorem wf_execChipUnreachable (chip : Nat) : OutWf (execChipUnreachable chip s) := by
  unfold execChipUnreachable
  grind [outWf_next, wf_powered, setPod_mem]

theorem wf_execUalinkLaneFailure (port : Nat) : OutWf (execUalinkLaneFailure port s) := by
  unfold execUalinkLaneFailure
  grind [outWf_next, wf_powered, wf_engineEvent, wf_journalFailure]

theorem wf_execRemoteRequestTimeout (a : Agent) : OutWf (execRemoteRequestTimeout a s) := by
  unfold execRemoteRequestTimeout
  grind [outWf_next, wf_powered, setWalk_mem]

theorem wf_execPtpInputLoss : OutWf (execPtpInputLoss s) := by
  unfold execPtpInputLoss
  grind [outWf_next, wf_powered]

theorem wf_execHoldoverExpiry : OutWf (execHoldoverExpiry s) := by
  unfold execHoldoverExpiry
  grind [outWf_next, wf_powered]

theorem wf_execPtpInputRestore (offset : Option ℤ) : OutWf (execPtpInputRestore offset s) := by
  unfold execPtpInputRestore
  grind [outWf_next, wf_powered]

theorem wf_execTimeBaseTimer (p d : Nat) : OutWf (execTimeBaseTimer p d s) := by
  unfold execTimeBaseTimer
  grind [outWf_next, wf_powered, wf_putRecord]

theorem wf_execHeldRecordEmit (p d : Nat) : OutWf (execHeldRecordEmit p d s) := by
  unfold execHeldRecordEmit
  grind [outWf_next, wf_powered, wf_drainAll]

theorem wf_execClockLimit (d mhz : Nat) : OutWf (execClockLimit d mhz s) := by
  unfold execClockLimit
  grind [outWf_next, wf_powered, wf_setClock]

theorem wf_execClockRaise (d mhz : Nat) : OutWf (execClockRaise d mhz s) := by
  unfold execClockRaise
  grind [outWf_next, wf_powered, wf_setClock]

theorem wf_execClockStop (d : Nat) : OutWf (execClockStop d s) := by
  unfold execClockStop
  grind [outWf_next, wf_powered, modDie_mem]

theorem wf_execClockRestart (d : Nat) : OutWf (execClockRestart d s) := by
  unfold execClockRestart
  grind [outWf_next, wf_foldl, wf_powered, wf_resumeSink, modDie_mem]

theorem wf_execSoftError (u : SoftUnit) (repeated : Bool) : OutWf (execSoftError u repeated s) := by
  unfold execSoftError
  grind [outWf_next, wf_whenReady, poisonUnit_mem, softPlace_mem, wf_journalFailure]

theorem wf_execTdispLockInterface (p : Nat) : OutWf (execTdispLockInterface p s) := by
  unfold execTdispLockInterface
  grind [outWf_next, wf_whenReady]

theorem wf_execTdispStartInterface (p : Nat) : OutWf (execTdispStartInterface p s) := by
  unfold execTdispStartInterface
  grind [outWf_next, wf_whenReady]

theorem wf_execTdispStop (p : Nat) : OutWf (execTdispStop p s) := by
  unfold execTdispStop
  grind [outWf_next, wf_whenReady, wf_beginReset]

theorem wf_execFunctionLevelReset (p : Nat) : OutWf (execFunctionLevelReset p s) := by
  unfold execFunctionLevelReset
  grind [outWf_next, wf_whenReady, wf_beginReset]

theorem wf_execSpdmRequest (index : Nat) : OutWf (execSpdmRequest index s) := by
  unfold execSpdmRequest
  grind [outWf_next, wf_powered]

theorem wf_execHostMemAccess (fn addr : Nat) (write : Bool) (data : List Byte) :
    OutWf (execHostMemAccess fn addr write data s) := by
  simp only [execHostMemAccess]
  grind [outWf_next, outWf_fault, wf_engineEvent, wf_updateHost, cleanBad_mem, wf_settleHost, wf_mwrite, unsupported_mem]

/-! Bring-up (R406 to R411). -/

theorem wf_execColdStart (result unit detail : Nat) : OutWf (execColdStart result unit detail s) := by
  unfold execColdStart
  grind [outWf_next, wf_bootStep]

theorem wf_execRegisterWindowWrite (fn off : Nat) (v : Word) : OutWf (execRegisterWindowWrite fn off v s) := by
  unfold execRegisterWindowWrite
  grind [outWf_next, wf_submitImage, wf_hostWrite]

theorem wf_execPowerLoss (torn : Bool) : OutWf (execPowerLoss torn s) := by
  unfold execPowerLoss
  grind [outWf_next, wf_loseDevice]

/-! A request at its home (R322). -/

theorem wf_packetTurn (q : Nat) : OutWf (packetTurn s q) := by
  unfold packetTurn
  grind [outWf_next, wf_execSemaphoreSatisfied, wf_queueRead, wf_execPacketLaunch, wf_execPacketWait, wf_execPacketSignal, wf_execPacketCopy,
    wf_execPacketFence, wf_execPacketMark, wf_execPacketJump, wf_execPacketNop]

theorem wf_execHomeRequest (a : Agent) : OutWf (execHomeRequest a s) := by
  unfold execHomeRequest
  grind [outWf_next, wf_serveScalar, wf_serveLanes, fetchRequest_mem, wf_vectorGroup, wf_tileTurn, wf_copyStep, wf_collEnd, wf_collStep,
    wf_packetTurn, wf_execPacketCopyDone, wf_execNodeRestore, wf_saveStep, wf_execHeldRecordEmit, wf_execLaunchEnd, servePrefetch_mem,
    wf_serveRemote, acceptRemote_mem, wf_farAnswer, wf_farWrite, wf_preemptArrival, wf_dropTlb]

end

end Sys2Proof.Machine
end

section
/-! PROOFS. Memory spaces (family 05): the turns and the step keep the canonical form of memory. -/

namespace Sys2Proof.Machine
open Sys2Proof
set_option Elab.async false

/-- Every instruction and event but a wait that goes on. -/
theorem wf_exec_of_ne {s : State} (h : Memory.wf s.mem = true) {i : Instr} (hw : ∀ g, i ≠ .waitRetire g) : OutWf (exec i s) := by
  cases i with
  | sadd | ssub | sseq | ssne | sslt | ssltu | smin | sminu | smax | smaxu | sand | sor | sxor | sandn | sshl | sshr | ssra | srol
  | sror | smul | smulh | smulhu | sdiv | sdivu | srem | sremu | sclz | sctz | spopc | sbswap | ssx8 | ssx16 | ssx32 | szx32
  | saddi | sandi | sori | sxori | sslti | sshli | sshri | ssrai | srori | slui | sshlo =>
    exact (outWf_next _).mpr (wf_result h ..)
  | sld => exact wf_execSld h ..
  | sst => exact wf_execSst h ..
  | sldX => exact wf_execSldX h ..
  | sstX => exact wf_execSstX h ..
  | sldAcq => exact wf_execSldAcq h ..
  | sstRel => exact wf_execSstRel h ..
  | sldRo => exact wf_execSldRo h ..
  | samoSwap => show OutWf (execSamoSwap ..); exact wf_samo h ..
  | samoAdd => show OutWf (execSamoAdd ..); exact wf_samo h ..
  | samoAnd => show OutWf (execSamoAnd ..); exact wf_samo h ..
  | samoOr => show OutWf (execSamoOr ..); exact wf_samo h ..
  | samoXor => show OutWf (execSamoXor ..); exact wf_samo h ..
  | samoMinI => show OutWf (execSamoMinI ..); exact wf_samo h ..
  | samoMaxI => show OutWf (execSamoMaxI ..); exact wf_samo h ..
  | samoMinN => show OutWf (execSamoMinN ..); exact wf_samo h ..
  | samoMaxN => show OutWf (execSamoMaxN ..); exact wf_samo h ..
  | samoCas => show OutWf (execSamoCas ..); exact wf_samo h ..
  | sfence => show OutWf (execSfence ..); exact wf_fence h ..
  | sfenceAcq => show OutWf (execSfenceAcq ..); exact wf_fence h ..
  | sfenceRel => show OutWf (execSfenceRel ..); exact wf_fence h ..
  | sbr => exact wf_execSbr h ..
  | sjmp => show OutWf (execSjmp ..); exact (outWf_next _).mpr (wf_retireTo h ..)
  | scall => exact wf_execScall h ..
  | sjr => show OutWf (execSjr ..); exact (outWf_next _).mpr (wf_indirect h ..)
  | scallr => exact wf_execScallr h ..
  | sret => show OutWf (execSret ..); exact (outWf_next _).mpr (wf_indirect h ..)
  | sexit => exact wf_execSexit h ..
  | lrun => exact wf_execLrun h ..
  | ljmp => exact wf_execLjmp h ..
  | lrunr => exact wf_execLrunr h ..
  | ljmpr => exact wf_execLjmpr h ..
  | lsync => exact wf_execLsync h ..
  | lmask => exact wf_execLmask h ..
  | lsumm => exact wf_execLsumm h ..
  | sget => exact wf_execSget h ..
  | kwait => show OutWf (execKwait ..); exact wf_waitCounter h ..
  | waitLd => show OutWf (execWaitLd ..); exact wf_waitCounter h ..
  | waitSt => show OutWf (execWaitSt ..); exact wf_waitCounter h ..
  | waitCp => show OutWf (execWaitCp ..); exact wf_waitCounter h ..
  | waitTl => show OutWf (execWaitTl ..); exact wf_waitCounter h ..
  | barInit => exact wf_execBarInit h ..
  | barFree => exact wf_execBarFree h ..
  | barArrive => exact wf_execBarArrive h ..
  | barWait => exact wf_execBarWait h ..
  | sbarArrive => exact wf_execSbarArrive h ..
  | sbarWait => exact wf_execSbarWait h ..
  | yieldc => exact wf_execYieldc h ..
  | bdecl => exact wf_execBdecl h ..
  | bput => show OutWf (execBput ..); exact wf_boothRequest h ..
  | bputw => show OutWf (execBputw ..); exact wf_boothRequest h ..
  | btake => exact wf_execBtake h ..
  | bdrop => exact wf_execBdrop h ..
  | xcopy => exact wf_execXcopy h ..
  | tset => exact wf_execTset h ..
  | tsetb => exact wf_execTsetb h ..
  | tsets => exact wf_execTsets h ..
  | tgetl => exact wf_execTgetl h ..
  | tgeth => exact wf_execTgeth h ..
  | shalloc => exact wf_execShalloc h ..
  | shfree => exact wf_execShfree h ..
  | shtest => exact wf_execShtest h ..
  | cobjDecl => exact wf_execCobjDecl h ..
  | cobjMode => exact wf_execCobjMode h ..
  | cobjFree => exact wf_execCobjFree h ..
  | cobjQuery => exact wf_execCobjQuery h ..
  | creduce => show OutWf (execCreduce ..); exact wf_collective h ..
  | callred => show OutWf (execCallred ..); exact wf_collective h ..
  | credscat => show OutWf (execCredscat ..); exact wf_collective h ..
  | callgath => show OutWf (execCallgath ..); exact wf_collective h ..
  | calltoall => show OutWf (execCalltoall ..); exact wf_collective h ..
  | cbcast => show OutWf (execCbcast ..); exact wf_collective h ..
  | cabort => exact wf_execCabort h ..
  | tmark => exact wf_execTmark h ..
  | tsync => exact wf_execTsync h ..
  | tsamp => exact wf_execTsamp h ..
  | spget => exact wf_execSpget h ..
  | spset => exact wf_execSpset h ..
  | sslotw => exact wf_execSslotw h ..
  | sslotr => exact wf_execSslotr h ..
  | sslotx => exact wf_execSslotx h ..
  | spreq => exact wf_execSpreq h ..
  | sgpl => exact wf_execSgpl h ..
  | tlbroot => exact wf_execTlbroot h ..
  | tlbinv => exact wf_execTlbinv h ..
  | carve => exact wf_execCarve h ..
  | pmap => exact wf_execPmap h ..
  | pgive => exact wf_execPgive h ..
  | wldp => exact wf_execWldp h ..
  | wcasp => exact wf_execWcasp h ..
  | tlbfill => exact wf_execTlbfill h ..
  | wentry => exact wf_execWentry h ..
  | eret => exact wf_execEret h ..
  | ekill => exact wf_execEkill h ..
  | efget => exact wf_execEfget h ..
  | efset => exact wf_execEfset h ..
  | vadd => show OutWf (execVadd ..); exact wf_intBin h ..
  | vsub => show OutWf (execVsub ..); exact wf_intBin h ..
  | vmul => show OutWf (execVmul ..); exact wf_intBin h ..
  | vmulh => show OutWf (execVmulh ..); exact wf_intBin h ..
  | vmad => exact wf_execVmad h ..
  | vmin => show OutWf (execVmin ..); exact wf_intBin h ..
  | vmax => show OutWf (execVmax ..); exact wf_intBin h ..
  | vdiv => show OutWf (execVdiv ..); exact wf_intBin h ..
  | vrem => show OutWf (execVrem ..); exact wf_intBin h ..
  | vand => show OutWf (execVand ..); exact wf_intBin h ..
  | vor => show OutWf (execVor ..); exact wf_intBin h ..
  | vxor => show OutWf (execVxor ..); exact wf_intBin h ..
  | vandn => show OutWf (execVandn ..); exact wf_intBin h ..
  | vshl => show OutWf (execVshl ..); exact wf_intBin h ..
  | vshr => show OutWf (execVshr ..); exact wf_intBin h ..
  | vclz => show OutWf (execVclz ..); exact wf_intUn h ..
  | vpopc => show OutWf (execVpopc ..); exact wf_intUn h ..
  | vcmp => exact wf_execVcmp h ..
  | vaddPacked => show OutWf (execVaddPacked ..); exact wf_packBin h ..
  | vsubPacked => show OutWf (execVsubPacked ..); exact wf_packBin h ..
  | vminPacked => show OutWf (execVminPacked ..); exact wf_packBin h ..
  | vmaxPacked => show OutWf (execVmaxPacked ..); exact wf_packBin h ..
  | vmulPacked => show OutWf (execVmulPacked ..); exact wf_packBin h ..
  | vcmpEqPacked => show OutWf (execVcmpEqPacked ..); exact wf_packCmp h ..
  | vcmpLtPacked => show OutWf (execVcmpLtPacked ..); exact wf_packCmp h ..
  | vcmpLePacked => show OutWf (execVcmpLePacked ..); exact wf_packCmp h ..
  | vdot => exact wf_execVdot h ..
  | vmovN32 => show OutWf (execVmovN32 ..); exact wf_move h ..
  | vselN32 => exact wf_execVselN32 h ..
  | vselN64 => exact wf_execVselN64 h ..
  | vcoord => exact wf_execVcoord h ..
  | vmovN64 => show OutWf (execVmovN64 ..); exact wf_move h ..
  | vaddFp => show OutWf (execVaddFp ..); exact wf_fpBin h ..
  | vsubFp => show OutWf (execVsubFp ..); exact wf_fpBin h ..
  | vmulFp => show OutWf (execVmulFp ..); exact wf_fpBin h ..
  | vfma => show OutWf (execVfma ..); exact wf_fpTern h ..
  | vfms => show OutWf (execVfms ..); exact wf_fpTern h ..
  | vfnma => show OutWf (execVfnma ..); exact wf_fpTern h ..
  | vdivFp => show OutWf (execVdivFp ..); exact wf_fpBin h ..
  | vsqrt => exact wf_execVsqrt h ..
  | vcmpFp => exact wf_execVcmpFp h ..
  | vminFp => show OutWf (execVminFp ..); exact wf_fpSel h ..
  | vmaxFp => show OutWf (execVmaxFp ..); exact wf_fpSel h ..
  | vneg => show OutWf (execVneg ..); exact wf_fpBits h ..
  | vabs => show OutWf (execVabs ..); exact wf_fpBits h ..
  | vcsgn => show OutWf (execVcsgn ..); exact wf_fpSel h ..
  | vclass => exact wf_execVclass h ..
  | vaddF16 => show OutWf (execVaddF16 ..); exact wf_halfBin h ..
  | vsubF16 => show OutWf (execVsubF16 ..); exact wf_halfBin h ..
  | vmulF16 => show OutWf (execVmulF16 ..); exact wf_halfBin h ..
  | vfmaF16 => exact wf_execVfmaF16 h ..
  | vminF16 => show OutWf (execVminF16 ..); exact wf_halfSel h ..
  | vmaxF16 => show OutWf (execVmaxF16 ..); exact wf_halfSel h ..
  | vcmpEqF16 => show OutWf (execVcmpEqF16 ..); exact wf_halfCmp h ..
  | vcmpLtF16 => show OutWf (execVcmpLtF16 ..); exact wf_halfCmp h ..
  | vdot2 => exact wf_execVdot2 h ..
  | vcvt => show OutWf (execVcvt ..); exact wf_laneIssue h ..
  | vcvtp => exact wf_execVcvtp h ..
  | vfrsqe => show OutWf (execVfrsqe ..); exact wf_special h ..
  | vfrcpe => show OutWf (execVfrcpe ..); exact wf_special h ..
  | vfexp2 => show OutWf (execVfexp2 ..); exact wf_special h ..
  | vflog2 => show OutWf (execVflog2 ..); exact wf_special h ..
  | vfsinpi => show OutWf (execVfsinpi ..); exact wf_special h ..
  | vfcospi => show OutWf (execVfcospi ..); exact wf_special h ..
  | vpand => show OutWf (execVpand ..); exact wf_predBin h ..
  | vpor => show OutWf (execVpor ..); exact wf_predBin h ..
  | vpxor => show OutWf (execVpxor ..); exact wf_predBin h ..
  | vpandn => show OutWf (execVpandn ..); exact wf_predBin h ..
  | vpnot => show OutWf (execVpnot ..); exact wf_laneOp h ..
  | vpset => show OutWf (execVpset ..); exact wf_laneOp h ..
  | vpget => exact wf_execVpget h ..
  | vpmov => show OutWf (execVpmov ..); exact wf_predMov h ..
  | vpnz => show OutWf (execVpnz ..); exact wf_predMov h ..
  | mpush => exact wf_execMpush h ..
  | melse => exact wf_execMelse h ..
  | mpop => exact wf_execMpop h ..
  | vtest => show OutWf (execVtest ..); exact wf_laneIssue h ..
  | vmaskm => show OutWf (execVmaskm ..); exact wf_laneIssue h ..
  | vshflIdx => show OutWf (execVshflIdx ..); exact wf_shuffle h ..
  | vshflUp => show OutWf (execVshflUp ..); exact wf_shuffle h ..
  | vshflDown => show OutWf (execVshflDown ..); exact wf_shuffle h ..
  | vshflXor => show OutWf (execVshflXor ..); exact wf_shuffle h ..
  | vlred => exact wf_execVlred h ..
  | vscan => exact wf_execVscan h ..
  | vbcast => exact wf_execVbcast h ..
  | vballot => exact wf_execVballot h ..
  | vmatch => exact wf_execVmatch h ..
  | vld => exact wf_execVld h ..
  | vldq => exact wf_execVldq h ..
  | vldx => exact wf_execVldx h ..
  | vst => exact wf_execVst h ..
  | vstq => exact wf_execVstq h ..
  | vstx => exact wf_execVstx h ..
  | vamo => exact wf_execVamo h ..
  | vqatomAdd => exact wf_execVqatomAdd h ..
  | vqatomMerge => exact wf_execVqatomMerge h ..
  | vpref => show OutWf (execVpref ..); exact wf_prefetch h ..
  | vprefx => exact wf_execVprefx h ..
  | vbput => exact wf_execVbput h ..
  | vbtake => exact wf_execVbtake h ..
  | qzero => exact wf_execQzero h ..
  | qmov => show OutWf (execQmov ..); exact wf_slotOp h ..
  | qadd => show OutWf (execQadd ..); exact wf_accumulate h ..
  | qmac => show OutWf (execQmac ..); exact wf_accumulate h ..
  | qmerge => show OutWf (execQmerge ..); exact wf_slotOp h ..
  | qnorm => exact wf_execQnorm h ..
  | qred => exact wf_execQred h ..
  | qrnd => show OutWf (execQrnd ..); exact wf_laneIssue h ..
  | qstat => exact wf_execQstat h ..
  | qseg => exact wf_execQseg h ..
  | qspill => exact wf_execQspill h ..
  | qfill => exact wf_execQfill h ..
  | tmma => show OutWf (execTmma ..); exact wf_tileIssue h ..
  | tcsum => show OutWf (execTcsum ..); exact wf_tileIssue h ..
  | tconv => show OutWf (execTconv ..); exact wf_tileIssue h ..
  | tasum => show OutWf (execTasum ..); exact wf_tileIssue h ..
  | tzero => show OutWf (execTzero ..); exact wf_tileIssue h ..
  | tload => show OutWf (execTload ..); exact wf_tileIssue h ..
  | tstore => show OutWf (execTstore ..); exact wf_tileIssue h ..
  | tepi => show OutWf (execTepi ..); exact wf_tileIssue h ..
  | tstage => show OutWf (execTstage ..); exact wf_tileIssue h ..
  | tres => show OutWf (execTres ..); exact wf_tileIssue h ..
  | trel => show OutWf (execTrel ..); exact wf_tileIssue h ..
  | tileQueueEntry => show OutWf (execTileQueueEntry ..); exact (outWf_next _).mpr (wf_tileEnter h ..)
  | tileTurn => show OutWf (execTileTurn ..); exact (outWf_next _).mpr (wf_tileTurn h ..)
  | tileCommit => show OutWf (execTileCommit ..); exact (outWf_next _).mpr (wf_tileCommit h ..)
  | laneJumpRecord => exact wf_execLaneJumpRecord h ..
  | waitRetire g => exact absurd rfl (hw g)
  | scalarReply => exact wf_execScalarReply h ..
  | laneLoadReturn => exact wf_execLaneLoadReturn h ..
  | storePerformed => exact wf_execStorePerformed h ..
  | homeRequest => exact wf_execHomeRequest h ..
  | walkStart => exact wf_execWalkStart h ..
  | walkLimitExpiry => exact wf_execWalkLimitExpiry h ..
  | copyWrite => show OutWf (execCopyWrite ..); exact (outWf_next _).mpr (wf_copyStep h ..)
  | copyComplete => show OutWf (execCopyComplete ..); exact (outWf_next _).mpr (wf_copyEnd h ..)
  | boothReservation => exact wf_execBoothReservation h ..
  | boothFillComplete => exact wf_execBoothFillComplete h ..
  | bputwReserve => show OutWf (execBputwReserve ..); exact (outWf_next _).mpr (wf_boothWake h ..)
  | collectiveHandover => exact wf_execCollectiveHandover h ..
  | collectiveStep => show OutWf (execCollectiveStep ..); exact (outWf_next _).mpr (wf_collStep h ..)
  | collectiveEnd => show OutWf (execCollectiveEnd ..); exact (outWf_next _).mpr (wf_collEnd h ..)
  | cobjModeDone => show OutWf (execCobjModeDone ..); exact (outWf_next _).mpr (wf_cobjModeEnd h ..)
  | carveDone => show OutWf (execCarveDone ..); exact (outWf_next _).mpr (wf_carveEnd h ..)
  | vector => show OutWf (execVector ..); exact (outWf_next _).mpr (wf_vectorGroup h ..)
  | pdeadExpiry => exact wf_execPdeadExpiry h ..
  | cooperativeSave => exact wf_execCooperativeSave h ..
  | nodeRestore => exact wf_execNodeRestore h ..
  | teamPlacement => exact wf_execTeamPlacement h ..
  | launchEnd => exact wf_execLaunchEnd h ..
  | slotTableWrap => exact wf_execSlotTableWrap h ..
  | packetNop => exact wf_execPacketNop h ..
  | packetLaunch => exact wf_execPacketLaunch h ..
  | packetWait => exact wf_execPacketWait h ..
  | semaphoreSatisfied => exact wf_execSemaphoreSatisfied h ..
  | packetSignal => exact wf_execPacketSignal h ..
  | packetCopy => exact wf_execPacketCopy h ..
  | packetCopyDone => exact wf_execPacketCopyDone h ..
  | packetFence => exact wf_execPacketFence h ..
  | packetMark => exact wf_execPacketMark h ..
  | packetJump => exact wf_execPacketJump h ..
  | frontEndBind => exact wf_execFrontEndBind h ..
  | frontEndRelease => exact wf_execFrontEndRelease h ..
  | launchJoinRequest => exact wf_execLaunchJoinRequest h ..
  | joinReply => exact wf_execJoinReply h ..
  | downbeat => exact wf_execDownbeat h ..
  | abort => exact wf_execAbort h ..
  | startedReply => exact wf_execStartedReply h ..
  | downbeatTimeout => exact wf_execDownbeatTimeout h ..
  | joinResendTimeout => exact wf_execJoinResendTimeout h ..
  | joinDropTimeout => exact wf_execJoinDropTimeout h ..
  | startedTimeout => exact wf_execStartedTimeout h ..
  | doorbell => show OutWf (execDoorbell ..); exact (outWf_next _).mpr (wf_hostWrite h ..)
  | haltClear => show OutWf (execHaltClear ..); exact (outWf_next _).mpr (wf_hostWrite h ..)
  | pctlWrite => show OutWf (execPctlWrite ..); exact (outWf_next _).mpr (wf_hostPreg h ..)
  | ptraceWrite => show OutWf (execPtraceWrite ..); exact (outWf_next _).mpr (wf_hostPreg h ..)
  | csctlWrite => exact wf_execCsctlWrite h ..
  | csrdWrite => exact wf_execCsrdWrite h ..
  | podcfgWrite => show OutWf (execPodcfgWrite ..); exact (outWf_next _).mpr (wf_hostWrite h ..)
  | fwlenWrite => show OutWf (execFwlenWrite ..); exact (outWf_next _).mpr (wf_submitImage h ..)
  | registerWindowWrite => exact wf_execRegisterWindowWrite h ..
  | tdispStop => exact wf_execTdispStop h ..
  | functionLevelReset => exact wf_execFunctionLevelReset h ..
  | spdmRequest => exact wf_execSpdmRequest h ..
  | hostMemAccess => exact wf_execHostMemAccess h ..
  | podAnnouncement => exact wf_execPodAnnouncement h ..
  | ualinkLaneFailure => exact wf_execUalinkLaneFailure h ..
  | remoteRequestTimeout => exact wf_execRemoteRequestTimeout h ..
  | ptpInputLoss => exact wf_execPtpInputLoss h ..
  | ptpInputRestore => exact wf_execPtpInputRestore h ..
  | holdoverExpiry => exact wf_execHoldoverExpiry h ..
  | timeBaseTimer => exact wf_execTimeBaseTimer h ..
  | heldRecordEmit => exact wf_execHeldRecordEmit h ..
  | clockLimit => exact wf_execClockLimit h ..
  | clockRestart => exact wf_execClockRestart h ..
  | softError => exact wf_execSoftError h ..
  | coldStart => exact wf_execColdStart h ..
  | tdispLockInterface => exact wf_execTdispLockInterface h ..
  | tdispStartInterface => exact wf_execTdispStartInterface h ..
  | clockStop => exact wf_execClockStop h ..
  | clockRaise => exact wf_execClockRaise h ..
  | powerLoss => exact wf_execPowerLoss h ..
  | chipUnreachable => exact wf_execChipUnreachable h ..
  | launchKillArrival => exact wf_execLaunchKillArrival h ..

theorem wf_scalarMeaning {s : State} (h : Memory.wf s.mem = true) (i : Instr) : OutWf (scalarMeaning i s) := by
  by_cases hw : ∃ g, i = .waitRetire g
  · obtain ⟨g, rfl⟩ := hw
    exact (outWf_next _).mpr h
  · rcases scalarMeaning_eq i s with e | e <;> rw [e]
    · exact wf_exec_of_ne h fun g e => hw ⟨g, e⟩
    · exact (outWf_next _).mpr h

theorem wf_execWaitRetire {s : State} (h : Memory.wf s.mem = true) (g : Nat) : OutWf (execWaitRetire g s) := by
  have hc : Memory.wf ({ s with cur := .group g } : State).mem = true := h
  simp only [execWaitRetire]
  split
  · exact (outWf_next _).mpr hc
  split
  · exact wf_scalarMeaning hc _
  split
  · exact (outWf_next _).mpr hc
  split
  · next e => exact (outWf_next _).mpr (wf_scalarHeld hc e)
  · exact wf_scalarMeaning hc _

theorem wf_exec {s : State} (h : Memory.wf s.mem = true) (i : Instr) : OutWf (exec i s) := by
  by_cases hw : ∃ g, i = .waitRetire g
  · obtain ⟨g, rfl⟩ := hw
    exact wf_execWaitRetire h g
  · exact wf_exec_of_ne h fun g e => hw ⟨g, e⟩

/-! The turns of the streams and of the walks. -/

theorem wf_runScalar {s : State} (h : Memory.wf s.mem = true) (g w : Nat) : OutWf (runScalar s g w) := by
  unfold runScalar
  grind [outWf_next, wf_illegal, wf_scalarHeld, wf_exec]

theorem wf_scalarIssue {s : State} (h : Memory.wf s.mem = true) (g : Nat) : OutWf (scalarIssue s g) := by
  have hf := wf_fetch (s := { s with cur := .group g }) h g (.fetchS g) (group s g).spc 4
  unfold scalarIssue
  split
  · next e => exact (outWf_next _).mpr (by rwa [e] at hf)
  · next e => exact (outWf_next _).mpr (wf_raiseScalar (by rwa [e] at hf) _)
  · next e => exact wf_runScalar (by rw [e] at hf; simpa using hf) g _

theorem wf_runTogether {s : State} (h : Memory.wf s.mem = true) (is : List Instr) : OutWf (runTogether is s) := by
  induction is generalizing s with
  | nil => exact (outWf_next _).mpr h
  | cons i is ih =>
    have hi := wf_exec h i
    unfold runTogether
    split
    · next t e => exact ih (hi.next t e)
    · exact hi

theorem wf_runLane {s : State} (h : Memory.wf s.mem = true) (g w : Nat) : OutWf (runLane s g w) := by
  unfold runLane
  split
  · exact (outWf_next _).mpr (wf_laneTrap h ..)
  · exact wf_runTogether h _

theorem wf_laneIssueNext {s : State} (h : Memory.wf s.mem = true) (g : Nat) : OutWf (laneIssueNext s g) := by
  have hf := wf_fetch (s := { s with cur := .group g }) h g (.fetchL g) (group { s with cur := .group g } g).lane.lpc 12
  simp only [laneIssueNext]
  split
  · next e => exact (outWf_next _).mpr (wf_fuseFetch (s := { s with cur := .group g }) h _ _ e)
  split
  · next e => exact (outWf_next _).mpr (by rwa [e] at hf)
  · next e => exact (outWf_next _).mpr (wf_raiseLane (by rwa [e] at hf) ..)
  · next e => exact wf_runLane (by rw [e] at hf; simpa using hf) g _

theorem wf_walkTurn {s : State} (h : Memory.wf s.mem = true) (w : Nat) : OutWf (walkTurn s w) := by
  have hw : Memory.wf ({ s with cur := .walk w } : State).mem = true := h
  unfold walkTurn
  grind [outWf_next, wf_walkError, wf_exec]

theorem wf_runTurn {s : State} (h : Memory.wf s.mem = true) (t : Turn) : OutWf (runTurn t s) := by
  unfold runTurn
  split
  · exact (outWf_next _).mpr h
  · cases t with
    | scalar g =>
      dsimp only [scalarTurn]
      split
      · exact wf_scalarIssue h g
      · exact (outWf_next _).mpr h
    | lane g =>
      dsimp only [laneTurn]
      split
      · exact wf_laneIssueNext h g
      · exact (outWf_next _).mpr h
    | walk w => exact wf_walkTurn h w
    | event i => exact wf_exec h i
    | idle => exact (outWf_next _).mpr h

theorem wf_settleTurn {s : State} (h : Memory.wf s.mem = true) {o : Out} (ho : OutWf o) : OutWf (settleTurn s o) := by
  cases o with
  | next t => exact (outWf_next _).mpr (wf_ite h (ho.next t rfl))
  | fault r => exact outWf_fault r
  | refused r => exact outWf_refused r

theorem wf_step {s : State} (h : Memory.wf s.mem = true) : OutWf (step s) := by
  have hb : Memory.wf (beforeTurn s).mem = true := wf_beforeTurn h
  simp only [step]
  split
  · exact wf_settleTurn hb (wf_runTurn hb _)
  · next turn rest _ =>
    exact wf_settleTurn (s := { beforeTurn s with agenda := rest }) hb (wf_runTurn (s := { beforeTurn s with agenda := rest }) hb _)

/-- Settles O47: the canonical form of memory (R95) goes through the few operations that write memory, each shared operation built on them,
each instruction and event, each turn, and the settling of the turn. -/
theorem stepKeepsMemory : Obligations.StepKeepsMemory := fun _ t h e => (wf_step h).next t e

/-- Settles O55: writes of runs, clearings, translated segments, a ring's records and a renumbering keep the canonical form, and so does
every instruction, the scalar stores and atomics among them. -/
theorem memoryStaysCanonical : Obligations.MemoryStaysCanonical :=
  ⟨wf_mwrite, wf_mclear, wf_writeSegs, fun _ p d r h => wf_putRecord h p d r, fun _ old new h => wf_renumber h old new,
    fun _ t _ _ _ _ _ _ _ _ h i _ e => (wf_exec h i).next t e⟩

end Sys2Proof.Machine
end

section
/-! PROOFS. Memory spaces (family 05): a read-only load in the host window. -/

namespace Sys2Proof.Machine
open Sys2Proof

/-! The counterexample: a page of the host window is mapped to a host frame for which the package holds an unmerged partial sum. `sld.ro`
reads the host window at the home, from memory as it stands (R106), while the statement has it read the bytes with every partial sum
merged. Coherence objects have their slots in die memory, so that only the statement's missing condition that the address lies outside the host
window is at fault, not the load. -/

/-- The first address of the host window of chip 0. -/
def hostVa : Word := 0x30000000000000
/-- The entry of its page: readable, no object. -/
def hostLeaf : TlbEntry := ⟨0, 0, 0x3000000000, 0x010000000001001F, 0⟩
/-- Where the entry puts the address. -/
def hostFlat : Nat := leafFlat hostLeaf.leaf hostLeaf.level hostVa
/-- A package whose memory is all zero, with the sum 1 (in units of the accumulator) unmerged there; s1 holds the address. -/
def hostState : State :=
  { State.reset with
    cur := .group 1, boot := { Boot.cold with phase := 2 }, dies := [(0, { Die.blank with tlb := [hostLeaf] })]
    parts := [⟨0, 0, hostFlat, 0, { LA.zero with d := 1 :: List.replicate 9 0 }⟩]
    work := ⟨[(1, setSregOf (placedGroup 1 0 false) 1 hostVa)], [(1, { Team.blank with live := true, launch := 1, groups := [1] })],
      [(1, { Launch.blank with live := true, d := placedDesc 0, priv := 2, phase := .running, started := [0] })], [], [], [], [], [], 2⟩ }
/-- Register s2 of the group after an outcome. -/
def loadLeft (o : Out) : Word := match o with
  | .next t => sreg t 1 2
  | _ => 0

theorem hostState_runs : Runs hostState 1 := by
  delta Runs
  decide +kernel
theorem hostState_ready : MemReady hostState 1 1 hostVa 1 hostLeaf := by
  delta MemReady Reached
  decide +kernel
theorem hostState_merged : mread (mergedMem hostState) hostFlat 1 = [1] := by decide +kernel
/-- `sld.ro` of the byte leaves what memory holds. -/
theorem hostState_load : loadLeft (exec (.sldRo 2 1 0 0) hostState) = 0 := by decide +kernel
/-- The merged byte is left in s2 where the statement says so. -/
theorem sreg_scalarDone_noteRo : sreg (scalarDone (noteRo hostState 1 hostVa 1) 1 2 (loaded 0 [1])) 1 2 = 1 := by decide +kernel

/-- Refutes O5: in the host window `sld.ro` reads memory without the partial sums that the statement merges. -/
theorem not_scalarLoads : ¬ Obligations.ScalarLoads := by
  intro h
  obtain ⟨t, ht, hdone, -⟩ := h.2 hostState 1 2 1 0 0 hostLeaf hostState_runs (by decide) hostState_ready
  have load := hostState_load
  rw [ht, hdone] at load
  have merged := sreg_scalarDone_noteRo
  rw [← hostState_merged] at merged
  exact absurd (merged.symm.trans load) (by decide)

end Sys2Proof.Machine
end

section
/-! PROOFS. Memory spaces (family 05): the end of a collective in a table that lists it twice. -/

namespace Sys2Proof.Machine
open Sys2Proof

/-! The counterexample: the clause on the end of a collective of one rank does not ask that the table of collectives lists a name once. Here
name 1 is listed twice, first for launch 1 and, behind it, for launch 9. As the end counts the barrier object down, the phase passes for which a
fault of collective 2 waited (R288); the group that is to get it is in its handler, so the launch ends (R347) and takes its collectives with it.
Of name 1 the second entry is left, which the end does not drop: its ranks have no outcome. The statement has name 1 dropped. -/

/-- The group: in its handler. -/
def heldGroup : Group := { placedGroup 1 0 false with handler := some ⟨0, LaneCtx.blank, 2, 0, [], [], none, []⟩ }
/-- The one rank of collective 1: it counts the object at 0 and writes its status word at 16. -/
def soloRank : CollRank := ⟨1, 3, 0, 0x8000, 0, 0, true, 0, 0, 0, none, none, [], [], false, false⟩
/-- The collective, decided with outcome 0. -/
def soloColl : Coll := ⟨1, 0, 0, 0, [(0, some soloRank)], 1, 0, [], [], false, false, some 0, 0, [], []⟩
/-- The entry behind it. -/
def shadowColl : Coll := { soloColl with launch := 9, ranks := [], outcome := none }
/-- The collective whose fault waits for the phase. -/
def lateColl : Coll :=
  { soloColl with ranks := [(0, some { soloRank with record := some ⟨5, 0, 0, 0, 0, 0⟩, hand := [0], late := true, done := true })] }
/-- The one team, with a barrier object at 0. -/
def countedTeam : Team := { Team.blank with live := true, launch := 1, groups := [1], tags := [(0, 1)] }
def twiceState : State :=
  { State.reset with
    work := ⟨[(1, heldGroup)], [(1, countedTeam)],
      [(1, { Launch.blank with live := true, d := placedDesc 0, priv := 2, phase := .running, started := [0] })],
      [(1, some soloColl), (1, some shadowColl), (2, some lateColl)], [], [], [], [], 2⟩ }
/-- Whether an outcome leaves a collective of name 1. -/
def collLeft (o : Out) : Bool := match o with
  | .next t => (coll t 1).isSome
  | _ => false

theorem collLeft_twiceState : collLeft (exec (.collectiveEnd 1) twiceState) = true := by decide +kernel
theorem collLeft_setColl (s : State) : collLeft (.next (setColl s 1 none)) = false :=
  congrArg Option.isSome (tget_tput_same none s.work.colls 1 none)

/-- Refutes O14: where the table lists a name twice, the entry behind the first outlives the collective's end. -/
theorem not_collectives : ¬ Obligations.Collectives := by
  intro h
  obtain ⟨-, -, -, hend, -⟩ := h
  have done := hend twiceState 1 0 soloColl soloRank (by decide +kernel) rfl rfl rfl rfl (by decide +kernel) rfl rfl rfl rfl (by decide +kernel)
    (by decide +kernel) (by delta Untagged; decide +kernel)
  exact absurd ((congrArg collLeft done).symm.trans collLeft_twiceState) (by rw [collLeft_setColl]; decide)

end Sys2Proof.Machine
end

section
/-! PROOFS. Memory spaces (family 05): shape records and coherence objects. -/

namespace Sys2Proof.Machine
open Sys2Proof

/-! Records, copies and merges leave the running agent as it is. -/

@[simp] theorem foldl_cur {α : Type} {f : State → α → State} (hf : ∀ s a, (f s a).cur = s.cur) (l : List α) (s : State) :
    (l.foldl f s).cur = s.cur := by
  induction l generalizing s with
  | nil => rfl
  | cons a l ih => rw [List.foldl_cons, ih, hf]

/-- What one home sends to the cores leaves the running agent as it is. -/
def KeepsCur (send : Send) : Prop := ∀ s a b c d, (send s a b c d).cur = s.cur

@[simp] theorem writeSegs_cur (s : State) (gs : List Seg) (bs : List Byte) : (writeSegs s gs bs).cur = s.cur := by
  induction gs generalizing s bs with
  | nil => rfl
  | cons g r ih => rw [writeSegs, ih]

theorem droppedCopies_cur {put : State → Nat → Nat → TraceRec → State} (h : ∀ s p d r, (put s p d r).cur = s.cur) :
    KeepsCur (droppedCopies put) := by
  intro s gd entry o targets
  simp only [droppedCopies]
  split <;> split <;> first | rfl | exact foldl_cur (fun s a => h ..) _ _

@[simp] theorem mergeSlot_cur (s : State) (slot : Nat) (norm : Bool) : (mergeSlot s slot norm).cur = s.cur := by
  unfold mergeSlot
  grind
theorem gatherWith_cur {send : Send} (h : KeepsCur send) (s : State) (gd entry : Nat) (o : CObj) (norm : Bool) (slot : Nat) :
    (gatherWith send s gd entry o norm slot).cur = s.cur := by
  rw [gatherWith, mergeSlot_cur, h]

theorem settleRunWith_cur {send : Send} (h : KeepsCur send) (s : State) (part : Nat) (va : Word) (g : Seg) :
    (settleRunWith send s part va g).cur = s.cur := by
  refine foldl_cur (fun s e => ?_) _ s
  split
  · exact foldl_cur (fun s k => gatherWith_cur h ..) _ s
  · rfl

theorem settleWith_cur {send : Send} (h : KeepsCur send) (part : Nat) (va : Word) (gs : List Seg) (s : State) :
    (settleWith send s part va gs).cur = s.cur := by
  induction gs generalizing s va with
  | nil => rfl
  | cons g r ih => rw [settleWith, ih, settleRunWith_cur h]

theorem updateWith_cur {send : Send} (h : KeepsCur send) (s : State) (part : Nat) (va : Word) (n : Nat) :
    (updateWith send s part va n).cur = s.cur := by
  refine foldl_cur (fun s e => ?_) _ s
  split
  · exact h ..
  · rfl

theorem storeWith_cur {send : Send} (h : KeepsCur send) (s : State) (part : Nat) (va : Word) (gs : List Seg) (bs : List Byte) :
    (storeWith send s part va gs bs).cur = s.cur := by
  rw [storeWith, updateWith_cur h, writeSegs_cur, settleWith_cur h]

@[simp] theorem countLost_cur (s : State) (p : Nat) (d : Nat) :
    (countLost s p d).cur = s.cur := rfl
@[simp] theorem newName_cur (s : State) :
    (newName s).2.cur = s.cur := rfl

@[simp] theorem joinWalk_cur (s : State) (who : Who) (va : Word) (reason : Nat) (acc : BitVec 3) :
    (joinWalk s who va reason acc).cur = s.cur := by
  unfold joinWalk
  grind [foldl_cur, setWalk_cur, newName_cur]

@[simp] theorem delivered_cur (s : State) (who : Who) (va : Word) :
    (delivered s who va).cur = s.cur := by
  unfold delivered
  grind [foldl_cur, setWalk_cur]

@[simp] theorem xlatePage_cur (s : State) (who : Who) (acc : BitVec 3) (va : Word) (n : Nat) :
    (xlatePage s who acc va n).1.cur = s.cur := by
  unfold xlatePage
  grind [foldl_cur, joinWalk_cur, delivered_cur]

@[simp] theorem xlateFrom_cur (f : Nat) (s : State) (who : Who) (acc : BitVec 3) (va : Word) (n : Nat) :
    (xlateFrom f s who acc va n).1.cur = s.cur := by
  induction f generalizing s va n with
  | zero => rfl
  | succ f ih =>
    rw [xlateFrom]
    grind [xlatePage_cur]

@[simp] theorem xlate_cur (s : State) (who : Who) (acc : BitVec 3) (va : Word) (n : Nat) :
    (xlate s who acc va n).1.cur = s.cur := by simp [xlate]

@[simp] theorem ringXlate_cur (s : State) (p : Nat) (d : Nat) (va : Word) (n : Nat) :
    (ringXlate s p d va n).1.cur = s.cur := by
  unfold ringXlate
  split <;> simp

@[simp] theorem clearFaults_cur (s : State) (a : Agent) :
    (clearFaults s a).cur = s.cur := rfl
@[simp] theorem sinkFault_cur (s : State) (p : Nat) (d : Nat) :
    (sinkFault s p d).cur = s.cur := rfl

@[simp] theorem queueRecord_cur (s : State) (p : Nat) (d : Nat) (r : TraceRec) :
    (queueRecord s p d r).cur = s.cur := by
  unfold queueRecord
  split <;> simp

@[simp] theorem cleanBad_cur (s : State) (runs : List (Nat × Nat)) :
    (cleanBad s runs).cur = s.cur := by
  unfold cleanBad
  split <;> simp

@[simp] theorem ringWrite_cur (s : State) (p d : Nat) (bs : List Byte) :
    (ringWrite s p d bs).1.cur = s.cur := by
  have hs := storeWith_cur (send := sinkCopies) (droppedCopies_cur queueRecord_cur)
  unfold ringWrite
  grind [ringXlate_cur, sinkFault_cur, cleanBad_cur, setPreg_cur, clearFaults_cur]

@[simp] theorem putLoss_cur (s : State) (p : Nat) (d : Nat) (r : TraceRec) :
    (putLoss s p d r).1.cur = s.cur := by
  simp only [putLoss]
  repeat' split
  all_goals grind [foldl_cur, ringWrite_cur, setSink_cur]

@[simp] theorem putOne_cur (s : State) (p : Nat) (d : Nat) (r : TraceRec) :
    (putOne s p d r).1.cur = s.cur := by
  unfold putOne
  grind [foldl_cur, countLost_cur, putLoss_cur, ringWrite_cur, setSink_cur]

@[simp] theorem putTimeBase_cur (s : State) (p : Nat) (d : Nat) :
    (putTimeBase s p d).1.cur = s.cur := by
  unfold putTimeBase
  split <;> simp

@[simp] theorem putNext_cur (s : State) (p : Nat) (d : Nat) (r : TraceRec) :
    (putNext s p d r).1.cur = s.cur := by
  unfold putNext
  grind [foldl_cur, putOne_cur, putTimeBase_cur]

@[simp] theorem drain_cur (f : Nat) (s : State) (p d : Nat) :
    (drain f s p d).cur = s.cur := by
  induction f generalizing s with
  | zero => rfl
  | succ f ih =>
    rw [drain]
    grind [putNext_cur, setSink_cur]

@[simp] theorem drainAll_cur (s : State) (p : Nat) (d : Nat) :
    (drainAll s p d).cur = s.cur := by simp [drainAll]

@[simp] theorem keepRecord_cur (s : State) (p : Nat) (d : Nat) (r : TraceRec) :
    (keepRecord s p d r).cur = s.cur := by
  unfold keepRecord
  grind [foldl_cur, setSink_cur, countLost_cur]

@[simp] theorem putRecord_cur (s : State) (p : Nat) (d : Nat) (r : TraceRec) :
    (putRecord s p d r).cur = s.cur := by
  unfold putRecord
  grind [foldl_cur, setSink_cur, drainAll_cur, putNext_cur, keepRecord_cur]

@[simp] theorem sendCopies_cur (s : State) (gd : Nat) (entry : Nat) (o : CObj) (targets : List Nat) :
    (sendCopies s gd entry o targets).cur = s.cur := droppedCopies_cur putRecord_cur s gd entry o targets
@[simp] theorem gatherSlot_cur (s : State) (gd : Nat) (entry : Nat) (o : CObj) (norm : Bool) (slot : Nat) :
    (gatherSlot s gd entry o norm slot).cur = s.cur := gatherWith_cur sendCopies_cur ..
@[simp] theorem mergeObject_cur (s : State) (gd : Nat) (e : Nat) (o : CObj) :
    (mergeObject s gd e o).cur = s.cur := by simp [mergeObject]

/-! The lowest free number of a list, and the slots that the shape table has in use. -/

theorem le_lowestFree (f : Nat) (used : List Nat) (n : Nat) : n ≤ lowestFree f used n := by
  induction f generalizing n with
  | zero => exact le_rfl
  | succ f ih =>
    rw [lowestFree]
    split
    · exact (Nat.le_succ n).trans (ih _)
    · exact le_rfl
/-- Every number below the lowest free one is in use. -/
theorem mem_of_lt_lowestFree (f : Nat) (used : List Nat) (n : Nat) {k : Nat} (hk : n ≤ k) (h : k < lowestFree f used n) : k ∈ used := by
  induction f generalizing n with
  | zero => exact absurd h hk.not_gt
  | succ f ih =>
    rw [lowestFree] at h
    split at h
    · next hn =>
      obtain rfl | hlt := hk.eq_or_lt
      · exact List.contains_iff_mem.mp hn
      · exact ih _ hlt h
    · exact absurd h hk.not_gt
theorem lowestFree_stops (f : Nat) (used : List Nat) (n : Nat) : lowestFree f used n ∉ used ∨ lowestFree f used n = n + f := by
  induction f generalizing n with
  | zero => exact .inr rfl
  | succ f ih =>
    rw [lowestFree]
    split
    · exact (ih (n + 1)).imp_right fun e => e.trans (by omega)
    · next hn => exact .inl fun hm => hn (List.contains_iff_mem.mpr hm)
/-- With one more try than there are numbers in use, the search ends at a free one. -/
theorem lowestFree_free (used : List Nat) (n : Nat) : lowestFree (used.length + 1) used n ∉ used := by
  refine (lowestFree_stops ..).resolve_right fun he => ?_
  have hsub : List.range' n (used.length + 1) ⊆ used := fun k hk => by
    obtain ⟨hn, hlt⟩ := List.mem_range'_1.mp hk
    exact mem_of_lt_lowestFree _ _ _ hn (he ▸ hlt)
  have := (List.subperm_of_subset List.nodup_range' hsub).length_le
  rw [List.length_range'] at this
  omega

theorem tget_of_mem {α : Type} (d : α) {b : Nat} {t : Tab α} (h : risesFrom b t = true) {e : Nat × α} (he : e ∈ t) : tget d t e.1 = e.2 := by
  induction t generalizing b with
  | nil => cases he
  | cons x r ih =>
    simp only [risesFrom, Bool.and_eq_true, decide_eq_true_eq] at h
    obtain rfl | hr := List.mem_cons.mp he
    · simp [tget]
    · have hne : e.1 ≠ x.1 := (Nat.lt_of_succ_le (risesFrom_ge _ _ h.2 e hr)).ne'
      rw [tget, if_neg hne, ih h.2 hr]
theorem mem_of_tget_ne {α : Type} {d : α} {t : Tab α} {k : Nat} (h : tget d t k ≠ d) : (k, tget d t k) ∈ t := by
  induction t with
  | nil => exact absurd rfl h
  | cons x r ih =>
    rw [tget] at h ⊢
    split
    · next hk => rw [hk]; exact List.mem_cons_self ..
    · next hk => rw [if_neg hk] at h; exact List.mem_cons_of_mem _ (ih h)

/-- The slot numbers in use in a partition's shape table. -/
def usedShapes (s : State) (p : Nat) : List Nat :=
  (s.shapes.filter fun e => e.1 / Config.shapeSlots == p && e.2.alloc).map fun e => e.1 % Config.shapeSlots

theorem mem_usedShapes {s : State} (h : tableWf ShapeSlot.blank s.shapes = true) {p n : Nat} (hn : n < Config.shapeSlots) :
    n ∈ usedShapes s p ↔ (shapeSlot s p n).alloc = true := by
  have hrises : risesFrom 0 s.shapes = true := (Bool.and_eq_true_iff.mp h).1
  simp only [usedShapes, List.mem_map, List.mem_filter, Bool.and_eq_true, beq_iff_eq]
  constructor
  · rintro ⟨e, ⟨he, hp, ha⟩, hm⟩
    have hkey : p * Config.shapeSlots + n = e.1 := by rw [← hp, ← hm, Nat.div_add_mod']
    rwa [shapeSlot, hkey, tget_of_mem _ hrises he]
  · intro ha
    have hne : shapeSlot s p n ≠ ShapeSlot.blank := fun e => by simp [e, ShapeSlot.blank] at ha
    have hpos : 0 < Config.shapeSlots := Nat.zero_lt_of_lt hn
    exact ⟨_, ⟨mem_of_tget_ne hne, by simp [Nat.mul_comm p, Nat.mul_add_div hpos, Nat.div_eq_of_lt hn], ha⟩,
      by simp [Nat.mul_comm p, Nat.mod_eq_of_lt hn]⟩

/-! The instructions on shape records (R119 to R121, R200). -/

section
variable {s : State} {g : Nat} (h : Runs s g)
include h

theorem execShalloc_runs {d a : SReg} (hv : (sreg s g a).toNat < 2 ^ 21) (hal : (sreg s g a).toNat % 64 = 0)
    (hs : (sreg s g a).toNat + 64 ≤ (descOf s g).s) (hp : (ownTeam s g).poison = [])
    (hok : shapeOk (scratchRead (ownTeam s g) (sreg s g a).toNat 64) = true) :
    let p := partOf s g
    let n := lowestFree ((usedShapes s p).length + 1) (usedShapes s p) 1
    execShalloc d a s = .next (if Config.shapeSlots ≤ n then scalarDone s g d 0
      else scalarDone (setShape s p n ⟨true, (shapeSlot s p n).gen, scratchRead (ownTeam s g) (sreg s g a).toNat 64⟩) g d
        (BitVec.ofNat 64 (n * 4096 + (shapeSlot s p n).gen.toNat))) := by
  intro p n
  have hset : ∀ q k x, Runs (setShape s q k x) g := fun _ _ _ => h
  rw [ownTeam] at hp hok
  simp only [execShalloc, h.onGroup, h.getS, high_bits_zero hv, ne_eq, not_true_eq_false, if_false, hal, if_neg hs.not_gt,
    scratchPoison_none hp, hok, Bool.not_true, Bool.false_eq_true, result_runs h, result_runs (hset _ _ _)]
  rfl

theorem execShfree_runs (a : SReg) : ∀ v, (sreg s g a).toNat = v →
    (v = 0 → execShfree a s = .next (plainDone s g)) ∧
    (∀ k, v ≠ 0 → shapeOf s (partOf s g) v = some k →
      execShfree a s = .next (plainDone (setShape s (partOf s g) (v / 4096) ⟨false, k.gen + 1, []⟩) g)) ∧
    (v ≠ 0 → shapeOf s (partOf s g) v = none → Faultable s g →
      execShfree a s = .next (pendingDone s g ⟨11, 0, 0, 0xFF, BitVec.ofNat 32 v, 0⟩)) := by
  rintro v rfl
  have hset : ∀ k x, Runs (setShape s (partOf s g) k x) g := fun _ _ => h
  refine ⟨fun h0 => ?_, fun k h0 hk => ?_, fun h0 hk hf => ?_⟩
  · simp only [execShfree, h.onGroup, h.getS, h0, if_true, retire_runs h]
  · simp only [execShfree, h.onGroup, h.getS, h0, if_false, hk, retire_runs (hset _ _)]
  · simp only [execShfree, h.onGroup, h.getS, h0, if_false, hk, raiseScalar_faultable h.1 hf]
    rfl

theorem execShtest_runs (d a : SReg) : execShtest d a s = .next (scalarDone s g d
    (if (sreg s g a).toNat ≠ 0 ∧ (shapeOf s (partOf s g) (sreg s g a).toNat).isSome then 1 else 0)) := by
  simp only [execShtest, h.onGroup, h.getS, result_runs h, boolWord, Bool.and_eq_true, bne_iff_ne]

end

/-! The instructions on coherence objects (R251 to R254). -/

section
variable {s : State} {g : Nat} (h : Runs s g)
include h

/-- The merging of an object's copies leaves the instruction running. -/
theorem Runs.mergeObject (gd e : Nat) (o : CObj) : Runs (mergeObject s gd e o) g :=
  ⟨(mergeObject_cur ..).trans h.1, by rw [group_of_groups (mergeObject_groups s gd e o) g]; exact h.2⟩
theorem Runs.putObj (gd e : Nat) (o : CObj) : Runs (putObj s gd e o) g := h

omit h in
/-- Pages that allow a mode, seen by a group with no fault recorded. -/
theorem withPages_ok (hf : ∀ f ∈ s.work.faults, f.1 ≠ .scalar g) {i : Instr} {va : Word} {n mode : Nat} {k : State → State}
    (hc : checkPages (n / 0x10000 + 2) s (whoOf s g (.scalar g)) va n mode = (s, .ok)) : withPages s g i va n mode k = k s := by
  simp only [withPages, hc, clearFaults_none hf]

theorem execCobjQuery_runs {gd e : Nat} {o : CObj} {d a : SReg} (ho : objOf s g (sreg s g a).toNat = some (gd, e, o)) :
    execCobjQuery d a s = .next (scalarDone s g d (BitVec.ofNat 64 (o.mode.toNat + if o.changes = [] then 0 else 4))) := by
  simp only [execCobjQuery, h.onGroup, h.getS, withObject, ho, result_runs h, List.isEmpty_iff, BitVec.ofNat_add, BitVec.ofNat_toNat]
  split <;> rfl

theorem execCobjFree_runs {gd e : Nat} {o : CObj} {a : SReg} (ho : objOf s g (sreg s g a).toNat = some (gd, e, o)) :
    (o.changes = [] → execCobjFree a s = .next (plainDone (putObj (mergeObject s gd e o) gd e { CObj.blank with gen := o.gen + 1 }) g)) ∧
    (o.changes ≠ [] → execCobjFree a s = .next (waitsAgain s g (.cobjFree a))) := by
  have hm := (h.mergeObject gd e o).putObj gd e { CObj.blank with gen := o.gen + 1 }
  refine ⟨fun hc => ?_, fun hc => ?_⟩
  · simp only [execCobjFree, h.onGroup, h.getS, withObject, ho, hc, List.isEmpty_nil, Bool.not_true, Bool.false_eq_true, if_false,
      retire_runs hm]
  · simp only [execCobjFree, h.onGroup, h.getS, withObject, ho, List.isEmpty_eq_false_iff.mpr hc, Bool.not_false, if_true, wait_runs h]

end

section
variable {s : State} {g : Nat} (h : Runs s g)
include h

omit h in
/-- A change of the group and of an object, then retirement. -/
theorem retire_putObj_modGroup {t : State} (h : Runs t g) (f : Group → Group) (hx : (f (group t g)).trace.next = none) {gd e : Nat} {c : CObj} :
    retire (putObj (modGroup t g f) gd e c) = retired (putObj t gd e c) g (f (group t g)) ((f (group t g)).spc + 4) :=
  retire_setGroup (h.putObj gd e c) _ hx

theorem execCobjMode_runs {k : KReg} {a b : SReg} {gd e : Nat} {o : CObj} (hf : ∀ f ∈ s.work.faults, f.1 ≠ .scalar g)
    (ho : objOf s g (sreg s g a).toNat = some (gd, e, o)) (h3 : bits (sreg s g b) 1 0 ≠ 3) (h2 : bits (sreg s g b) 1 0 = 2 → o.fmt = 0xD)
    (hk : kcount (group s g) k.toNat < 0xFFFF)
    (hc : checkPages (o.bytes / 0x10000 + 2) s (whoOf s g (.scalar g)) o.base o.bytes (bits (sreg s g b) 1 0) = (s, .ok)) :
    execCobjMode k a b s = .next (retired (putObj { s with work := { s.work with next := s.work.next + 1 } } gd e
      { o with changes := o.changes ++ [(BitVec.ofNat 2 (bits (sreg s g b) 1 0), g, k.toNat, s.work.next)] }) g
        (raiseK (group s g) k.toNat s.work.next) ((group s g).spc + 4)) := by
  have hobj : tget CObj.blank (die s gd).objs e = o := by
    simp only [objOf, Option.ite_none_right_eq_some, Option.some.injEq, Prod.mk.injEq] at ho
    obtain ⟨-, rfl, rfl, rfl⟩ := ho
    rfl
  have hfmt : ¬(bits (sreg s g b) 1 0 = 2 ∧ o.fmt ≠ 0xD) := fun ⟨h, hne⟩ => hne (h2 h)
  refine (h.onGroup _).trans (congrArg Host.Outcome.next ?_)
  simp only [h.getS, if_neg h3, withObject, ho, if_neg hfmt, if_neg hk.not_ge, withPages_ok hf hc]
  exact (retire_putObj_modGroup (t := (newName s).2) h _ h.2).trans (by rw [← hobj]; rfl)

end

section
variable {s : State} {g : Nat} (h : Runs s g)
include h

/-- A declaration that passes its checks: the table is full, or the extent meets an object, or the lowest free entry is taken (R251). -/
theorem execCobjDecl_runs {d a b : SReg} {y : ShapeSlot} (hf : ∀ f ∈ s.work.faults, f.1 ≠ .scalar g) (h41 : bits (sreg s g b) 63 41 = 0)
    (h34 : bits (sreg s g b) 35 34 = 0) (hd : (sreg s g b).getLsbD 40 = true ∨ bits (sreg s g b) 39 36 = 0) (h3 : bits (sreg s g b) 33 32 ≠ 3)
    (h0 : bits (sreg s g b) 31 0 ≠ 0) (hal : (sreg s g a).toNat % 128 = 0) (hy : shapeOf s (partOf s g) (bits (sreg s g b) 31 0) = some y)
    (hok : shapeOk y.bytes = true) (h2 : bits (sreg s g b) 33 32 = 2 → shFmt y.bytes = 0xD)
    (ha : addressFault (descOf s g).mask (sreg s g a) (objBytes y.bytes) = none) (hn : bits (sreg s g a) 53 0 + objBytes y.bytes ≤ 2 ^ 54)
    (hc : checkPages (objBytes y.bytes / 0x10000 + 2) s (whoOf s g (.scalar g)) (sreg s g a) (objBytes y.bytes) (bits (sreg s g b) 33 32) = (s, .ok)) :
    let va := sreg s g a
    let w := sreg s g b
    let home := ownerOf va
    let objs := (die s home).objs
    let slot := lowestFree ((objs.filter (·.2.alloc)).length + 1) ((objs.filter (·.2.alloc)).map (·.1)) 1
    let gen := (tget CObj.blank objs slot).gen
    let n := objBytes y.bytes
    execCobjDecl d a b s = .next (
      if 0x1000 ≤ slot then scalarDone s g d (2 ^ 63)
      else if objs.any fun q => q.2.alloc && decide (q.2.base.toNat < va.toNat + n ∧ va.toNat < q.2.base.toNat + q.2.bytes) then
        scalarDone s g d (2 ^ 63 + 1)
      else scalarDone (putObj s home slot ⟨true, gen, va, n, shFmt y.bytes, BitVec.ofNat 2 (bits w 33 32), [], partOf s g,
        if w.getLsbD 40 then some (bits w 39 36) else none, []⟩) g d (BitVec.ofNat 64 (home * 2 ^ 24 + gen.toNat * 2 ^ 12 + slot))) := by
  intro va w home objs slot gen n
  have hfields : ¬(bits (sreg s g b) 63 41 ≠ 0 ∨ bits (sreg s g b) 35 34 ≠ 0 ∨
      (!(sreg s g b).getLsbD 40 && bits (sreg s g b) 39 36 != 0) = true) := by
    rcases hd with hd | hd <;> simp [h41, h34, hd]
  have hmode : ¬(bits (sreg s g b) 33 32 = 3 ∨ bits (sreg s g b) 31 0 = 0) := by simp [h3, h0]
  have hlow : bits (sreg s g a) 6 0 = 0 := by simp only [bits]; omega
  have hfmt : (!shapeOk y.bytes || (bits (sreg s g b) 33 32 == 2 && shFmt y.bytes != 0xD)) = false := by
    by_cases hm : bits (sreg s g b) 33 32 = 2
    · simp [hok, h2 hm]
    · simp [hok, hm]
  rw [descOf] at ha
  have hput : ∀ gd e o, Runs (putObj s gd e o) g := fun _ _ _ => h.putObj ..
  simp only [execCobjDecl, h.onGroup, h.getS, if_neg hfields, if_neg hmode, hlow, ne_eq, not_true_eq_false, if_false, hy, hfmt,
    Bool.false_eq_true, ha, if_neg hn.not_gt, withPages_ok hf hc, List.length_map, result_runs h, result_runs (hput _ _ _)]
  rfl

end

/-- The home merges an object's copies and makes the oldest change asked for (R254). -/
theorem cobjModeEnd_eq {s : State} {gd e : Nat} {o : CObj} {m : BitVec 2} {g c op : Nat} {rest : List (BitVec 2 × Nat × Nat × Nat)}
    (ho : tget CObj.blank (die s gd).objs e = { o with changes := (m, g, c, op) :: rest }) :
    cobjModeEnd s gd e =
      let merged := putObj (mergeObject s gd e { o with changes := (m, g, c, op) :: rest }) gd e { o with mode := m, changes := rest, sharers := [] }
      setGroup merged g (if (group s g).live then lowerK (group s g) c op else group s g) := by
  have hg : ∀ x, group (putObj (mergeObject s gd e x) gd e { o with mode := m, changes := rest, sharers := [] }) g = group s g := fun x =>
    group_of_groups (by rw [putObj_groups, mergeObject_groups]) g
  simp only [cobjModeEnd, ho, modGroup, hg]

/-- Settles O13: the shape instructions go through the table of used slots, the object instructions through their checks, each by its rule
above. -/
theorem objectsAndShapes : Obligations.ObjectsAndShapes := by
  refine ⟨fun s g d a h => ⟨fun hv hal hs hp hok hwf => ?_, ?_⟩, fun s g d a b k gd e o h hf => ⟨fun y => ?_, fun ho => ?_, fun m q c op rest ho => ?_⟩⟩
  · refine ⟨lowestFree ((usedShapes s (partOf s g)).length + 1) (usedShapes s (partOf s g)) 1, le_lowestFree .., fun m h1 hlt hm => ?_,
      fun hn => ?_, execShalloc_runs h hv hal hs hp hok⟩
    · exact (mem_usedShapes hwf hm).mp (mem_of_lt_lowestFree _ _ _ h1 hlt)
    · exact Bool.eq_false_iff.mpr fun ha => lowestFree_free _ 1 ((mem_usedShapes hwf hn).mpr ha)
  · obtain ⟨hzero, hgood, hstale⟩ := execShfree_runs h a _ rfl
    exact ⟨hzero, hgood, hstale, execShtest_runs h d a⟩
  · intro h41 h34 hd h3 h0 hal hy hok h2 n overlap ha hn hc
    have hrun := execCobjDecl_runs h hf (d := d) h41 h34 hd h3 h0 hal hy hok h2 ha hn hc
    exact ⟨fun hfull => hrun.trans (congrArg Host.Outcome.next (if_pos hfull)),
      fun hle hover => hrun.trans (congrArg Host.Outcome.next ((if_neg hle.not_gt).trans (if_pos hover))),
      fun hle hfree => hrun.trans (congrArg Host.Outcome.next ((if_neg hle.not_gt).trans (if_neg (Bool.eq_false_iff.mp hfree))))⟩
  · obtain ⟨hfree, hwait⟩ := execCobjFree_runs h ho
    exact ⟨execCobjQuery_runs h ho, hfree, hwait, fun h3 h2 hk hc => execCobjMode_runs h hf ho h3 h2 hk hc⟩
  · exact congrArg Host.Outcome.next (cobjModeEnd_eq ho)

end Sys2Proof.Machine
end

section
/-! PROOFS. Memory spaces (family 05): bulk copies. -/

namespace Sys2Proof.Machine
open Sys2Proof

/-! The hand-over of a copy (R117, R242). -/

/-- A group once a copy of its is handed over: its counters raised. -/
def copyRaised (x : Group) (r : List Byte) (op : Nat) : Group :=
  let up := { x with cnt := { x.cnt with copies := x.cnt.copies + 1 } }
  if copyFlag r 2 then raiseK up (fieldAt r 42 1 % 16) op else up
theorem copyRaised_spc (x : Group) (r : List Byte) (op : Nat) : (copyRaised x r op).spc = x.spc := by unfold copyRaised; dsimp only; split <;> rfl
theorem copyRaised_trace (x : Group) (r : List Byte) (op : Nat) : (copyRaised x r op).trace = x.trace := by
  unfold copyRaised; dsimp only; split <;> rfl
/-- The request that the engine holds of it. -/
def copyEntry (x : Group) (g off : Nat) (r : List Byte) (op : Nat) : Copy :=
  ⟨g, off, r, if copyFlag r 2 then [(fieldAt r 42 1 % 16, op)] else [], 0, false, none, none, false, inHandler x⟩

theorem copyEvent_noSinks {s : State} (h : NoSinks s) (t g code : Nat) (ops : List Byte) : copyEvent s t g code ops = s := engineEvent_noSinks h ..

section
variable {s : State} {g : Nat} (h : Runs s g) (hn : NoSinks s)
include h hn

theorem handOver_runs {a : SReg} {off m : Nat} {r : List Byte} (hm : copySlot (ownTeam s g) = some m) (hf : copiesInFlight s (coreOf s g) < 32)
    (hc : (group s g).cnt.copies < 0xFFFF) (hk : copyFlag r 2 = true → kcount (group s g) (fieldAt r 42 1 % 16) < 0xFFFF) :
    handOver s g a off r = retired (setTeam { s with work := { s.work with next := s.work.next + 1 } } (group s g).team
      { ownTeam s g with copies := tput none (ownTeam s g).copies m (some (copyEntry (group s g) g off r s.work.next)) }) g
      (copyRaised (group s g) r s.work.next) ((group s g).spc + 4) := by
  have hroom : ¬(Config.copyLimit ≤ copiesInFlight s (coreOf s g) ∨ 0xFFFF ≤ (group s g).cnt.copies ∨
      (copyFlag r 2 ∧ 0xFFFF ≤ kcount (group s g) (fieldAt r 42 1 % 16))) := by
    rintro (h | h | ⟨hr, h⟩)
    · exact hf.not_ge h
    · exact hc.not_ge h
    · exact (hk hr).not_ge h
  let s1 := { s with work := { s.work with next := s.work.next + 1 } }
  let y := { ownTeam s g with copies := tput none (ownTeam s g).copies m (some (copyEntry (group s g) g off r s.work.next)) }
  have hr : Runs (setTeam s1 (group s g).team y) g := h
  have hev : NoSinks (setGroup (setTeam s1 (group s g).team y) g (copyRaised (group s g) r s.work.next)) := hn.of_regs rfl
  rw [ownTeam] at hm
  calc handOver s g a off r
      = retire (copyEvent (setGroup (setTeam s1 (group s g).team y) g (copyRaised (group s g) r s.work.next)) (group s g).team g 1 (varint off)) := by
        simp only [handOver, hm, if_neg hroom]
        rfl
    _ = _ := by
        rw [copyEvent_noSinks hev, retire_setGroup hr _ ((congrArg TraceCtx.next (copyRaised_trace ..)).trans h.2), copyRaised_spc]

omit h hn in
/-- What an acquire puts off until the lane stream has issued goes on at once when that has issued. -/
theorem afterLanes_if {p : Bool} (hi : p = true → laneIssued (group s g) = true) {i : Instr} (k : State → State) {t : State} (ht : k s = t) :
    (if p then afterLanes s g i k else k s) = t := by
  cases p with
  | false => exact ht
  | true => exact (afterLanes_issued (hi rfl) i k).trans ht

omit hn in
theorem execXcopy_runs {a : SReg} (hv : (sreg s g a).toNat < 2 ^ 21) (hal : (sreg s g a).toNat % 64 = 0)
    (hs : (sreg s g a).toNat + 64 ≤ (descOf s g).s) (hp : (ownTeam s g).poison = []) :
    let r := scratchRead (ownTeam s g) (sreg s g a).toNat 64
    copyTrap s g r = none → noSuchTeam s (group s g).team (copySrc r) = false → noSuchTeam s (group s g).team (copyDst r) = false →
    (copyBar r = 0xFFFFFFFF ∨ ∃ u o, clusterAddr s (group s g).team (copyBar r) = .at u o ∧ isBarrier (team s u) o = true) →
    (copyFlag r 0 = true → laneIssued (group s g) = true) →
    execXcopy a s = .next (handOver s g a (sreg s g a).toNat r) := by
  intro r ht hsrc hdst hbar hacq
  have hr : scratchRead (team s (group s g).team) (sreg s g a).toNat 64 = r := rfl
  have hlow : ¬ (descOf s g).s < (sreg s g a).toNat + 64 := hs.not_gt
  rw [ownTeam] at hp
  refine (h.onGroup _).trans (congrArg Host.Outcome.next ?_)
  simp only [h.getS, high_bits_zero hv, ne_eq, not_true_eq_false, if_false, hal, hlow, scratchPoison_none hp, hr, ht, hsrc, hdst,
    Bool.false_eq_true]
  refine afterLanes_if hacq _ ?_
  rcases hbar with hb | ⟨u, o, hb, ho⟩
  · rw [if_pos hb]
  · simp only [hb, ho, if_true, ite_self]

end

/-! One step of a copy (R118, R243). -/

theorem runsOf_some (bs : List Byte) (i : Nat) : runsOf i (bs.map some) = if bs = [] then [] else [(i, bs)] := by
  induction bs generalizing i with
  | nil => rfl
  | cons b r ih =>
    rw [List.map_cons, runsOf, ih]
    by_cases hr : r = [] <;> simp [hr]
theorem zipIdx_map_keep {f : Option Byte × Nat → Option Byte} {bs : List Byte} (hf : ∀ b, ∀ i < bs.length, f (b, i) = b) :
    (bs.map some).zipIdx.map f = bs.map some := by
  conv_rhs => rw [← List.zipIdx_map_fst 0 (bs.map some)]
  refine List.map_congr_left fun e he => hf e.1 e.2 ?_
  have := List.snd_lt_of_mem_zipIdx he
  simpa using this

section
variable {s : State} {t u addr off : Nat} {bs : List Byte} (hb : bs ≠ [])
include hb

theorem engineScratchPut_clean (ha : clusterAddr s t addr = .at u off) (hu : Untagged (team s u) off bs.length) (hp : (team s u).poison = [])
    (hs : off + bs.length ≤ (launch s (team s u).launch).d.s) :
    engineScratchPut s t addr (bs.map some) = (setTeam s u (scratchPut (team s u) off bs), .done none) := by
  have hin : ∀ i < bs.length, ¬(launch s (team s u).launch).d.s ≤ off + i := fun i hi => by omega
  have hkeep : ((bs.map some).zipIdx.map fun e =>
      if (launch s (team s u).launch).d.s ≤ off + e.2 ∨ tagAt (team s u) (off + e.2) ≠ 0 then none else e.1) = bs.map some :=
    zipIdx_map_keep fun b i hi => by simp [hin i hi, hu i hi]
  have hbad : (List.range (bs.map some).length).find? (fun i => decide ((launch s (team s u).launch).d.s ≤ off + i) ||
      (((bs.map some).getD i none).isSome && tagAt (team s u) (off + i) != 0)) = none := by
    refine List.find?_eq_none.mpr fun i hi => ?_
    have hi' : i < bs.length := by simpa using hi
    simp [hin i hi', hu i hi']
  simp only [engineScratchPut, ha, hkeep, hbad, runsOf_some, if_neg hb, List.foldl_cons, List.foldl_nil, modTeam, Nat.add_zero, Option.map_none]
  rw [scratchClean, if_pos (by simp [scratchPut, hp])]

theorem engineBuffer_reserved (hr : ∀ i < bs.length, reserved (team s t) (addr + i) = true) :
    engineBuffer s t addr (bs.map some) = (setTeam s t { team s t with obuf := mwrite (team s t).obuf addr bs }, .done none) := by
  have hkeep : ((bs.map some).zipIdx.map fun e => if reserved (team s t) (addr + e.2) then e.1 else none) = bs.map some :=
    zipIdx_map_keep fun b i hi => by simp [hr i hi]
  have hbad : (List.range (bs.map some).length).find? (fun i => !reserved (team s t) (addr + i)) = none := by
    refine List.find?_eq_none.mpr fun i hi => ?_
    have hi' : i < bs.length := by simpa using hi
    simp [hr i hi']
  simp only [engineBuffer, hkeep, hbad, runsOf_some, if_neg hb, List.foldl_cons, List.foldl_nil, modTeam, Nat.add_zero, Option.map_none]

end

theorem noteCopyFault_none (k : Copy) (w : Bool) : noteCopyFault k w none = k := by unfold noteCopyFault; cases k.record <;> rfl

/-- The bytes that a step of a copy moves: up to the end of a run and of a page at both ends (R118). -/
def copyLen (k : Copy) : Nat :=
  min (min (copyCount k.req - k.done) (min (runLeft (copySrc k.req) k.done) (runLeft (copyDst k.req) k.done)))
    (min (pageLeft (copySrc k.req) k.done) (pageLeft (copyDst k.req) k.done))
/-- A step whose bytes were written: they count, and the named barrier object counts down. -/
def copyStepped (s : State) (t c : Nat) (k : Copy) (n : Nat) : State :=
  copyCountDown (setCopy s t c (some { k with done := k.done + n })) t k.req n
/-- What the write of a step does at its destination (R243). -/
def copyPut (s : State) (t c : Nat) (k : Copy) (bs : List (Option Byte)) : State × EngWrite :=
  match tdSpace (copyDst k.req) with
  | 3 => engineStore s (teamWho s t (.copy t c)) (BitVec.ofNat 64 (tdAddr (copyDst k.req) + tdOffset (copyDst k.req) k.done)) bs
  | 0 => engineScratchPut s t (copyScratch (copyDst k.req) + tdOffset (copyDst k.req) k.done) bs
  | _ => engineBuffer s t (tdAddr (copyDst k.req) + tdOffset (copyDst k.req) k.done) bs
/-- What becomes of a step whose bytes were read without a fault, once the write has answered. -/
def copyAnswered (t c : Nat) (k : Copy) (n : Nat) (p : State × EngWrite) : State :=
  match p.2 with
  | .wait => p.1
  | .suspend a => suspendCopy p.1 t c k true a
  | .done bad => copyStepped (clearFaults p.1 (.copy t c)) t c (noteCopyFault (noteCopyFault k false none) true bad) n

theorem foldl_lowerK_handler (l : List (Nat × Nat)) (x : Group) : (l.foldl (fun x e => lowerK x e.1 e.2) x).handler = x.handler := by
  induction l generalizing x with
  | nil => rfl
  | cons e l ih => rw [List.foldl_cons, ih]; rfl

section
variable {s : State} {t c : Nat} {k : Copy} (hk : copyOf s t c = some k) (hsu : k.suspended = false) (hre : k.reported = false)
include hk hsu hre

theorem copyStep_moves {bs : List Byte} {s' : State} (hf : ∀ f ∈ s'.work.faults, f.1 ≠ .copy t c) (hn : 0 < copyLen k)
    (hw : waiting s (.copy t c) = false)
    (hr : (tdSpace (copySrc k.req) ≠ 3 ∧
          engineScratch s t (copyScratch (copySrc k.req) + tdOffset (copySrc k.req) k.done) (copyLen k) = .bytes (bs.map some) none) ∨
        (tdSpace (copySrc k.req) = 3 ∧ engineLoad s (teamWho s t (.copy t c))
          (BitVec.ofNat 64 (tdAddr (copySrc k.req) + tdOffset (copySrc k.req) k.done)) (copyLen k) = (s, .bytes (bs.map some) none)))
    (hp : copyPut s t c k (bs.map some) = (s', .done none)) : copyStep s t c = copyStepped s' t c k (copyLen k) := by
  have hread : (if tdSpace (copySrc k.req) = 3 then engineLoad s (teamWho s t (.copy t c))
        (BitVec.ofNat 64 (tdAddr (copySrc k.req) + tdOffset (copySrc k.req) k.done)) (copyLen k)
      else (s, engineScratch s t (copyScratch (copySrc k.req) + tdOffset (copySrc k.req) k.done) (copyLen k))) = (s, .bytes (bs.map some) none) := by
    rcases hr with ⟨h3, hr⟩ | ⟨h3, hr⟩
    · rw [if_neg h3, hr]
    · rw [if_pos h3, hr]
  have hgo : (k.suspended || k.reported || decide (copyLen k = 0) || waiting s (.copy t c)) = false := by simp [hsu, hre, hw, hn.ne']
  rw [copyLen] at hread hgo
  have hstep : copyStep s t c = copyAnswered t c k (copyLen k) (copyPut s t c k (bs.map some)) := by
    rw [copyStep, hk]
    dsimp only
    rw [if_neg (by rw [hgo]; exact Bool.false_ne_true), hread]
    rfl
  rw [hstep, hp]
  simp only [copyAnswered, noteCopyFault_none, clearFaults_none hf]

theorem copyEnd_completes (hd : copyCount k.req ≤ k.done) (hn : NoSinks s) :
    let x := group s k.group
    let low := k.ops.foldl (fun x e => lowerK x e.1 e.2) x
    let low := { low with cnt := { low.cnt with copies := low.cnt.copies - 1 } }
    let told := setCopy (setGroup s k.group low) t c (some { k with ops := [], reported := true })
    (k.record = none → copyEnd s t c = setCopy (copyClean (setGroup s k.group low) t k.req) t c none) ∧
    (k.record ≠ none → (k.hand && inHandler x) = false → copyEnd s t c = setGroup told k.group
      { low with pend := { low.pend with order := low.pend.order ++ [2 + c] } }) ∧
    ∀ r, k.record = some r → (k.hand && inHandler x) = true → copyEnd s t c = unhandled told k.group (0x8000 + r.cls) := by
  intro x low low' told
  have hgo : (k.suspended || k.reported || decide (k.done < copyCount k.req)) = false := by simp [hsu, hre, hd]
  have hev : NoSinks (setGroup s k.group low') := hn.of_regs rfl
  have hl : lowerCopy s k = setGroup s k.group low' := rfl
  have hhand : inHandler low' = inHandler x := congrArg Option.isSome (foldl_lowerK_handler k.ops x)
  have htold : group told k.group = low' := group_setGroup_same ..
  have hgo' : ¬(k.suspended || k.reported || decide (k.done < copyCount k.req)) = true := by rw [hgo]; exact Bool.false_ne_true
  have hreport : ∀ r, k.record = some r → copyEnd s t c = reportCopy told c k r.cls := fun r h => by
    simp only [copyEnd, hk, if_neg hgo', hl, copyEvent_noSinks hev, h, told]
  refine ⟨fun h => ?_, fun h hno => ?_, fun r h hyes => ?_⟩
  · simp only [copyEnd, hk, if_neg hgo', hl, copyEvent_noSinks hev, h]
  · obtain ⟨r, h⟩ := Option.ne_none_iff_exists'.mp h
    simp only [hreport r h, reportCopy, htold, hhand, hno, Bool.false_eq_true, if_false, modGroup]
  · simp only [hreport r h, reportCopy, htold, hhand, hyes, if_true]

end

/-- Settles O11: the hand-over of a copy whose record passes its checks, the writes of a step at each kind of destination, and its end. -/
theorem copies : Obligations.Copies := by
  refine ⟨fun s g a m h hn => ?_, fun s t c k bs hk hsu hre hf => ⟨fun hpos hlen hw hread => ⟨fun u off hd ha hu hp hs => ?_,
    fun hd hr => ?_, fun s' hd hst hwork => ?_⟩, fun hd hn => ?_⟩⟩
  · intro x y off r kc hv hal hs hp ht hsrc hdst hbar hacq hm hfl hc hkc op up entry
    exact (execXcopy_runs h hv hal hs hp ht hsrc hdst hbar hacq).trans (congrArg Host.Outcome.next (handOver_runs h hn hm hfl hc hkc))
  · have hb : bs ≠ [] := List.ne_nil_of_length_pos (hlen ▸ hpos)
    rw [← hlen] at hu hs
    refine congrArg Host.Outcome.next (copyStep_moves hk hsu hre (by exact hf) hpos hw hread ?_)
    simp only [copyPut, hd, engineScratchPut_clean hb ha hu hp hs]
  · have hb : bs ≠ [] := List.ne_nil_of_length_pos (hlen ▸ hpos)
    rw [← hlen] at hr
    refine congrArg Host.Outcome.next (copyStep_moves hk hsu hre (by exact hf) hpos hw hread ?_)
    simp only [copyPut, hd, engineBuffer_reserved hb hr]
  · refine congrArg Host.Outcome.next (copyStep_moves hk hsu hre (by rw [hwork]; exact hf) hpos hw hread ?_)
    simp only [copyPut, hd, hst]
  · obtain ⟨hnone, hsome, hhand⟩ := copyEnd_completes hk hsu hre hd hn
    exact ⟨fun h => congrArg Host.Outcome.next (hnone h), fun h hno => congrArg Host.Outcome.next (hsome h hno),
      fun r h hyes => congrArg Host.Outcome.next (hhand r h hyes)⟩

end Sys2Proof.Machine
end

section
/-! PROOFS. Memory spaces (family 05): barrier objects and node barriers. -/

namespace Sys2Proof.Machine
open Sys2Proof

/-! Operands of barrier instructions (R194, R195) and what holds them up. -/

section
variable {s : State} {g : Nat}

theorem barOperand_object {h : Word} {t off : Nat} {own useSc : Bool} (ha : clusterAddr s (group s g).team (bits h 31 0) = .at t off)
    (h36 : bits h 47 36 = 0) (h0 : bits h 3 0 = 0) (ho : own = true → h.getLsbD 31 = false)
    (hsc : useSc = true → scopeBad s g (BitVec.ofNat 4 (bits h 35 32)) = false) : barOperand s g h own useSc = .object t off := by
  have hown : ¬(bits h 47 36 ≠ 0 ∨ (own ∧ h.getLsbD 31 = true)) := by
    rintro (h1 | ⟨h1, h2⟩)
    · exact h1 h36
    · exact Bool.false_ne_true ((ho h1).symm.trans h2)
  have hscope : (useSc && scopeBad s g (BitVec.ofNat 4 (bits h 35 32))) = false := by
    cases useSc with
    | false => rfl
    | true => exact hsc rfl
  simp only [barOperand, ha, if_neg hown, hscope, Bool.false_eq_true, if_false, h0, ne_eq, not_true_eq_false]

theorem withBar_object {h : Word} {t off : Nat} {own useSc w : Bool} (hb : barOperand s g h own useSc = .object t off)
    (k : State → Nat → Nat → State) : withBar s g h own useSc w k = k s t off := by
  rw [withBar, hb]

theorem notParked_none (hp : (group s g).lane.park.fmask = 0) (i : Instr) (k : State → State) : notParked s g i k = k s := if_pos hp

theorem clobber_faultable (hr : Runs s g) (hf : Faultable s g) (c : Nat) (a : Word) :
    clobber s c a = pendingDone s g (scalarRec 9 c true false (a &&& 0xFFFFFFFF)) := raiseScalar_faultable hr.1 hf _

/-- Where no rank of the team waits with a fault for the end of a phase, there is nothing to tell (R288). -/
theorem tellLate_none {t : Nat}
    (h : ∀ e ∈ s.work.colls, ∀ c, e.2 = some c → ∀ r ∈ c.ranks, ∀ q, r.2 = some q → q.team = t → q.late = false) : tellLate s t = s := by
  have hrank : ∀ e ∈ s.work.colls, ∀ c, e.2 = some c → ∀ r ∈ c.ranks, (r.2.any fun x => x.team == t && x.late) = false := by
    intro e he c hc r hr
    cases hq : r.2 with
    | none => rfl
    | some q =>
      by_cases ht : q.team = t
      · simp [h e he c hc r hr q hq ht]
      · simp [ht]
  refine List.foldlRecOn (motive := (· = s)) _ _ rfl fun u hu e he => ?_
  subst hu
  cases hc : e.2 with
  | none => rfl
  | some c =>
    refine List.foldlRecOn (motive := (· = u)) _ _ rfl fun v hv r hr => ?_
    subst hv
    simp only [hrank e he c hc r hr, Bool.false_eq_true, if_false]

end

/-! The instructions on barrier objects (R194, R196, R198). -/

section
variable {s : State} {g : Nat} (hr : Runs s g)
include hr

theorem execBarInit_runs {a b : SReg} {t off : Nat} (hp : (group s g).lane.park.fmask = 0)
    (hb : barOperand s g (sreg s g a) true false = .object t off) (hw : bits (sreg s g b) 63 32 = 0) (h0 : sreg s g b ≠ 0) :
    (tagAt (team s t) off = 0 → execBarInit a b s = .next (tellLate (plainDone (setTeam s t
      { writeBar (team s t) off ⟨(sreg s g b).toNat, (sreg s g b).toNat, 0, 0⟩ with tags := tput 0 (team s t).tags (off / 16) 1 }) g) t)) ∧
    (tagAt (team s t) off ≠ 0 → execBarInit a b s = .next (clobber s 1 (sreg s g a))) := by
  have hset : ∀ x, Runs (setTeam s t x) g := fun _ => hr
  refine ⟨fun ht => ?_, fun ht => ?_⟩
  · simp only [execBarInit, hr.onGroup, notParked_none hp, hr.getS, hb, hw, ne_eq, not_true_eq_false, if_false, h0, ht, modTeam,
      retire_runs (hset _)]
  · simp only [execBarInit, hr.onGroup, notParked_none hp, hr.getS, hb, hw, ne_eq, not_true_eq_false, if_false, h0, ht, not_false_eq_true,
      if_true]

theorem execBarFree_barrier {a : SReg} {t off : Nat} (hp : (group s g).lane.park.fmask = 0)
    (hb : barOperand s g (sreg s g a) true false = .object t off) (hbo : isBooth (team s t) off = false) :
    let used := !isBarrier (team s t) off || parkedOn s t off || (readBar (team s t) off).bytes != 0 || engineNames s t off
    (used = false → execBarFree a s =
      .next (tellLate (plainDone (setTeam s t { team s t with tags := tput 0 (team s t).tags (off / 16) 0 }) g) t)) ∧
    (used = true → execBarFree a s = .next (clobber s 2 (sreg s g a))) := by
  have hset : ∀ x, Runs (setTeam s t x) g := fun _ => hr
  refine ⟨fun hu => ?_, fun hu => ?_⟩ <;>
  simp only [execBarFree, hr.onGroup, notParked_none hp, hr.getS, withBar_object hb, hbo, hu, Bool.false_eq_true, if_false, if_true,
    retire_runs (hset _)]

theorem execBarArrive_runs {d a b : SReg} {t off : Nat} (hi : laneIssued (group s g) = true)
    (hb : barOperand s g (sreg s g a) false true = .object t off) :
    let o := readBar (team s t) off
    let w := sreg s g b
    let n := if bits w 63 48 = 0 then 1 else bits w 63 48
    (isBarrier (team s t) off = true → n ≤ o.arrive → execBarArrive d a b s = .next (tellLate (scalarDone (setTeam s t
      (writeBar (team s t) off (testBar { o with arrive := o.arrive - n, bytes := (o.bytes + bits w 47 0) % 2 ^ 48 })))
        g d (withPhase (sreg s g a) o.phase)) t)) ∧
    ((isBarrier (team s t) off = false ∨ o.arrive < n) → execBarArrive d a b s = .next (clobber s 3 (sreg s g a))) := by
  intro o w n
  have hset : ∀ x, Runs (setTeam s t x) g := fun _ => hr
  have hn : (if bits (sreg s g b) 63 48 = 0 then 1 else bits (sreg s g b) 63 48) = n := rfl
  refine ⟨fun hbar hle => ?_, fun hbad => ?_⟩
  · have hgo : (!isBarrier (team s t) off || decide ((readBar (team s t) off).arrive < n)) = false := by simpa [hbar] using hle
    simp only [execBarArrive, hr.onGroup, hr.getS, withBar_object hb, afterLanes_issued hi, hn, hgo, Bool.false_eq_true, if_false, modTeam,
      result_runs (hset _)]
    rfl
  · have hgo : (!isBarrier (team s t) off || decide ((readBar (team s t) off).arrive < n)) = true := by
      simpa using hbad
    simp only [execBarArrive, hr.onGroup, hr.getS, withBar_object hb, afterLanes_issued hi, hn, hgo, if_true]

theorem execBarWait_runs {a : SReg} {t off : Nat} (hp : (group s g).lane.park.fmask = 0)
    (hb : barOperand s g (sreg s g a) false true = .object t off) :
    (isBarrier (team s t) off = true → execBarWait a s = .next (
      if (readBar (team s t) off).phase = bits (sreg s g a) 63 48 then waitsAgain s g (.barWait a) else plainDone s g)) ∧
    (isBarrier (team s t) off = false → execBarWait a s = .next (clobber s 3 (sreg s g a))) := by
  refine ⟨fun hbar => ?_, fun hbar => ?_⟩ <;>
  simp only [execBarWait, hr.onGroup, notParked_none hp, hr.getS, withBar_object hb, hbar, Bool.not_true, Bool.not_false, Bool.false_eq_true,
    if_false, if_true, wait_runs hr, retire_runs hr]

theorem execYieldc_runs {a b : SReg} {k : BitVec 14} {t off : Nat} (hi : laneIssued (group s g) = true)
    (hb : barOperand s g (sreg s g a) false true = .object t off) (hbar : isBarrier (team s t) off = true) :
    ((readBar (team s t) off).phase ≠ bits (sreg s g a) 63 48 → execYieldc a b k s = .next (retired s g
      (if b = 0 then group s g else { group s g with lane := { (group s g).lane with lpc := sreg s g b, rep := 0 } })
      ((group s g).spc + k.signExtend 64 * 4))) ∧
    ((readBar (team s t) off).phase = bits (sreg s g a) 63 48 → execYieldc a b k s = .next (setGroup s g
      { group s g with fly := { (group s g).fly with waiting := some (.yieldc a b k), yielded := true } })) := by
  have hlane : ∀ l, Runs (setGroup s g { group s g with lane := l }) g := fun l => hr.setGroup _ hr.2
  refine ⟨fun hne => ?_, fun he => ?_⟩
  · refine (hr.onGroup _).trans (congrArg Host.Outcome.next ?_)
    simp only [hr.getS, withBar_object hb, afterLanes_issued hi, hbar, Bool.not_true, Bool.false_eq_true, if_false, hne, modGroup]
    by_cases hb0 : b = 0
    · simp only [if_pos hb0, retireTo_runs hr, relative, hr.spc]
    · simp only [if_neg hb0, retireTo_runs (hlane _), relative, (hlane _).spc, group_setGroup_same, retired, setGroup_setGroup]
  · refine (hr.onGroup _).trans (congrArg Host.Outcome.next ?_)
    simp only [hr.getS, withBar_object hb, afterLanes_issued hi, hbar, Bool.not_true, Bool.false_eq_true, if_false, he, if_true,
      wait_runs hr, waitsAgain, modGroup, group_setGroup_same, setGroup_setGroup]

end

/-! The removal of a booth: those parked at it find it gone (R249). -/

/-- A parked request whose booth is gone. -/
def boothGone (x : Group) : Group := { x with fly := { x.fly with booth := x.fly.booth.map fun o => { o with gone := true } } }
theorem boothGone_boothGone (x : Group) : boothGone (boothGone x) = boothGone x := by simp [boothGone, Function.comp_def]
theorem foldl_boothGone (l : List Nat) (s : State) :
    OnlyGroups s (l.foldl (fun s g => modGroup s g boothGone) s) ∧
    ∀ k, group (l.foldl (fun s g => modGroup s g boothGone) s) k = if k ∈ l then boothGone (group s k) else group s k := by
  induction l generalizing s with
  | nil => exact ⟨.refl s, fun k => rfl⟩
  | cons g l ih =>
    obtain ⟨honly, hgroup⟩ := ih (modGroup s g boothGone)
    refine ⟨(OnlyGroups.setGroup s g _).trans honly, fun k => ?_⟩
    rw [List.foldl_cons, hgroup k]
    by_cases hk : k = g
    · subst hk
      simp [modGroup, boothGone_boothGone]
    · simp [hk, modGroup, group_setGroup]

/-- The team of a booth once it is removed. -/
def boothFreed (y : Team) (off : Nat) : Team :=
  { y with tags := tput 0 (tput 0 y.tags (off / 16) 0) (off / 16 + 1) 0, parked := y.parked.filter fun e => e.1 != off }
theorem removeBooth_eq (s : State) (t off : Nat) : removeBooth s t off =
    (((team s t).parked.filter fun e => e.1 == off).map (·.2)).foldl (fun s g => modGroup s g boothGone) (setTeam s t (boothFreed (team s t) off)) :=
  rfl

section
variable {s : State} {g : Nat} (hr : Runs s g)
include hr

theorem execBarFree_booth {a : SReg} {t off : Nat} (hp : (group s g).lane.park.fmask = 0)
    (hb : barOperand s g (sreg s g a) true false = .object t off) (hbo : isBooth (team s t) off = true) :
    execBarFree a s = .next (plainDone (removeBooth s t off) g) ∧ team (removeBooth s t off) t = boothFreed (team s t) off ∧
    ∀ k, group (removeBooth s t off) k =
      if (team s t).parked.any fun e => e == (off, k) then boothGone (group s k) else group s k := by
  obtain ⟨⟨gs, honly⟩, hgroup⟩ := foldl_boothGone (((team s t).parked.filter fun e => e.1 == off).map (·.2)) (setTeam s t (boothFreed (team s t) off))
  have hgroup' : ∀ k, group (removeBooth s t off) k =
      if (team s t).parked.any fun e => e == (off, k) then boothGone (group s k) else group s k := fun k => by
    rw [removeBooth_eq, hgroup k]
    refine if_congr ?_ rfl rfl
    simp [List.mem_map, List.any_eq_true, Prod.ext_iff]
  have htrace : ∀ x : Group, (boothGone x).trace = x.trace := fun _ => rfl
  have hrun : Runs (removeBooth s t off) g := by
    refine ⟨by rw [removeBooth_eq, honly]; exact hr.1, ?_⟩
    rw [hgroup' g]
    split
    · exact hr.2
    · exact hr.2
  refine ⟨?_, ?_, hgroup'⟩
  · simp only [execBarFree, hr.onGroup, notParked_none hp, hr.getS, withBar_object hb, hbo, if_true, retire_runs hrun]
  · rw [removeBooth_eq, honly]
    exact team_setTeam_same ..

/-! Node barriers (R197). -/

theorem execSbarWait_runs {a : SReg} {c : Scope} (hc : c ≠ 15) (hs : scopeBad s g c = false) (hh : scopeAboveH s g c = false)
    (hp : (group s g).lane.park.fmask = 0) :
    execSbarWait a c s = .next (
      if (tget barBlank (launch s (launchOf s g)).bars (barKey c.toNat (nodeAt s g c).1)).phase = (sreg s g a).setWidth 16
      then waitsAgain s g (.sbarWait a c) else plainDone s g) := by
  have hphase : ∀ p : BitVec 16, p.toNat = bits (sreg s g a) 15 0 ↔ p = (sreg s g a).setWidth 16 := fun p => by
    rw [← BitVec.toNat_inj, BitVec.toNat_setWidth]
    simp [bits]
  simp only [execSbarWait, hr.onGroup, withNodeScope, hc, hs, hh, Bool.false_eq_true, or_self, if_false, notParked_none hp, hr.getS, hphase,
    wait_runs hr, retire_runs hr]

omit hr in
theorem groupEnded_setLaunch (l : Nat) (bars : Tab NodeBar) (tn gn : Nat) :
    groupEnded (setLaunch s l { launch s l with bars := bars }) l tn gn = groupEnded s l tn gn := by
  rw [groupEnded, launch_setLaunch_same]
  rfl

theorem execSbarArrive_runs {d : SReg} {c : Scope} (hc : c ≠ 15) (hs : scopeBad s g c = false) (hh : scopeAboveH s g c = false)
    (hi : laneIssued (group s g) = true) :
    let l := launchOf s g
    let node := (nodeAt s g c).1
    let me := (nodeAt s g c).2
    let b := tget barBlank (launch s l).bars (barKey c.toNat node)
    let full := (parties (descOf s g) c.toNat node).all fun p => (b.arrived ++ [me]).contains p || groupEnded s l p.1 p.2
    execSbarArrive d c s = .next (if b.arrived.contains me then waitsAgain s g (.sbarArrive d c) else scalarDone (setLaunch s l
      { launch s l with
        bars := tput barBlank (launch s l).bars (barKey c.toNat node) (if full then ⟨b.phase + 1, []⟩ else ⟨b.phase, b.arrived ++ [me]⟩) })
          g d (b.phase.zeroExtend 64)) := by
  intro l node me b full
  have hset : ∀ x, Runs (setLaunch s l x) g := fun _ => hr
  have hsettle : settleBar (setLaunch s l { launch s l with bars := tput barBlank (launch s l).bars (barKey c.toNat node) ⟨b.phase, b.arrived ++ [me]⟩ })
      l c.toNat node = setLaunch s l { launch s l with
        bars := tput barBlank (launch s l).bars (barKey c.toNat node) (if full then ⟨b.phase + 1, []⟩ else ⟨b.phase, b.arrived ++ [me]⟩) } := by
    have hne : (b.arrived ++ [me]).isEmpty = false := by simp
    simp only [settleBar, launch_setLaunch_same, tget_tput_same, hne, Bool.false_eq_true, if_false, groupEnded_setLaunch, modLaunch]
    cases hf : full with
    | true => exact (if_pos hf).trans (by simp)
    | false => exact (if_neg (ne_true_of_eq_false hf)).trans rfl
  refine (hr.onGroup _).trans (congrArg Host.Outcome.next ?_)
  simp only [withNodeScope, hc, hs, hh, Bool.false_eq_true, or_self, if_false, afterLanes_issued hi]
  by_cases hm : b.arrived.contains me = true
  · rw [if_pos hm, if_pos hm, wait_runs hr]
  · rw [if_neg hm, if_neg hm, ← result_runs (hset _), ← hsettle]
    rfl

end

/-- An arrival's phase, completed where no arrival and no byte is left. -/
theorem testBar_arrive {o : BarObj} {n bytes : Nat} (h : n ≤ o.arrive) : testBar { o with arrive := o.arrive - n, bytes := bytes } =
    if o.arrive = n ∧ bytes = 0 then ⟨o.reset, o.reset, 0, (o.phase + 1) % 2 ^ 16⟩ else ⟨o.arrive - n, o.reset, bytes, o.phase⟩ := by
  have hz : o.arrive - n = 0 ↔ o.arrive = n := by omega
  simp only [testBar, hz]
  split
  · next h0 => rw [h0.2]
  · rfl
theorem max_one_eq (n : Nat) : max 1 n = if n = 0 then 1 else n := by split <;> omega

/-- Settles O9: each barrier instruction by its rule above, its operand read once. -/
theorem barriers : Obligations.Barriers := by
  refine ⟨fun s g d a b k t off hr => ?_, fun s g d a b t off hr hf => ?_, fun s g d a c hr hc hs hh => ?_⟩
  · intro x h w y o phase ha h36 h0
    have hown := fun hown : h.getLsbD 31 = false => barOperand_object ha h36 h0 (own := true) (useSc := false) (fun _ => hown) nofun
    have hsc := fun hsc => barOperand_object ha h36 h0 (own := false) (useSc := true) nofun fun _ => hsc
    refine ⟨fun h31 hp => ⟨fun hw hne ht => (execBarInit_runs hr hp (hown h31) hw hne).1 ht, fun hbo => ?_, fun hbo hbar hpark hbytes heng => ?_⟩,
      fun hs hbar => ⟨fun hi => ?_, fun hp hne => ?_, fun hp he => ?_, (execYieldc_runs hr · (hsc hs) hbar |>.1),
        (execYieldc_runs hr · (hsc hs) hbar |>.2)⟩, fun hlate z hz => tellLate_none (by rw [hz]; exact hlate)⟩
    · obtain ⟨hrun, hteam, hgroup⟩ := execBarFree_booth hr hp (hown h31) hbo
      refine ⟨fun hnone => hrun.trans ?_, _, hrun, hteam, ?_, fun k hk => ?_⟩
      · have hgone : (team s t).parked.filter (fun e => e.1 == off) = [] := List.filter_eq_nil_iff.mpr fun e he => by simpa using hnone e he
        rw [removeBooth_eq, hgone]
        rfl
      · rw [plainDone, retired, group_setGroup_same, hgroup g]
        split <;> rfl
      · rw [plainDone, retired, group_setGroup, if_neg hk]
        exact hgroup k
    · exact (execBarFree_barrier hr hp (hown h31) hbo).1 (by simpa [hpark, heng] using And.intro hbar hbytes)
    · intro n bytes hle
      refine ((execBarArrive_runs hr hi (hsc hs)).1 hbar hle).trans ?_
      rw [testBar_arrive hle]
      rfl
    · exact ((execBarWait_runs hr hp (hsc hs)).1 hbar).trans (congrArg Host.Outcome.next (if_neg hne))
    · exact ((execBarWait_runs hr hp (hsc hs)).1 hbar).trans (congrArg Host.Outcome.next (if_pos he))
  · intro h w y fault ha h36 h0 hp
    have hown := fun hown : h.getLsbD 31 = false => barOperand_object ha h36 h0 (own := true) (useSc := false) (fun _ => hown) nofun
    have hsc := fun hsc => barOperand_object ha h36 h0 (own := false) (useSc := true) nofun fun _ => hsc
    have hclob : ∀ c, (.next (clobber s c h) : Out) = .next (fault c) := fun c => congrArg Host.Outcome.next (clobber_faultable hr hf c h)
    refine ⟨fun h31 hw hne ht => ((execBarInit_runs hr hp (hown h31) hw hne).2 ht).trans (hclob 1), fun h31 hbo hbad => ?_,
      fun hs => ⟨fun hbar => ((execBarWait_runs hr hp (hsc hs)).2 hbar).trans (hclob 3), fun hi hbad => ?_⟩⟩
    · refine ((execBarFree_barrier hr hp (hown h31) hbo).2 ?_).trans (hclob 2)
      simpa [or_assoc] using hbad
    · refine ((execBarArrive_runs hr hi (hsc hs)).2 (hbad.imp_right fun hlt => ?_)).trans (hclob 3)
      rwa [max_one_eq] at hlt
  · intro x l node me b full
    exact ⟨fun hi hm => (execSbarArrive_runs hr hc hs hh hi).trans (congrArg Host.Outcome.next (if_neg (ne_true_of_eq_false hm))),
      fun hi hm => (execSbarArrive_runs hr hc hs hh hi).trans (congrArg Host.Outcome.next (if_pos hm)),
      fun hp hne => (execSbarWait_runs hr hc hs hh hp).trans (congrArg Host.Outcome.next (if_neg hne)),
      fun hp he => (execSbarWait_runs hr hc hs hh hp).trans (congrArg Host.Outcome.next (if_pos he))⟩

end Sys2Proof.Machine
end

section
/-! PROOFS. Memory spaces (family 05): booths. -/

namespace Sys2Proof.Machine
open Sys2Proof

/-! Header addresses and the reading of a booth in the own scratchpad (R109, R245). -/

theorem bits_of_lt {v : Word} {n : Nat} (h : v.toNat < 2 ^ (n + 1)) : bits v n 0 = v.toNat := by
  rw [bits, Nat.pow_zero, Nat.div_one, Nat.sub_zero, Nat.mod_eq_of_lt h]
theorem bits_eq_zero {v : Word} {hi lo : Nat} (h : v.toNat < 2 ^ lo) : bits v hi lo = 0 := by rw [bits, Nat.div_eq_of_lt h, Nat.zero_mod]
theorem bits_multiple {v : Word} {n : Nat} (h : v.toNat % 2 ^ (n + 1) = 0) : bits v n 0 = 0 := by
  rw [bits, Nat.pow_zero, Nat.div_one, Nat.sub_zero, h]

section
variable {s : State} {g : Nat}

/-- An own-scratchpad offset is never an illegal cluster address. -/
theorem clusterAddr_ne_bad (s : State) (t : Nat) {a : Nat} (h : a < 2 ^ 21) : clusterAddr s t a ≠ .bad := by
  have h31 : ¬a / 2 ^ 31 % 2 = 1 := by omega
  have hfields : ¬(a / 2 ^ 28 % 8 ≠ 0 ∨ a / 2 ^ 21 % 8 ≠ 0 ∨ (¬a / 2 ^ 31 % 2 = 1 ∧ a / 2 ^ 24 % 16 ≠ 0)) := by omega
  simp only [clusterAddr, if_neg hfields, if_neg h31]
  split <;> simp

theorem addr_mod_21 {v : Word} (h : v.toNat < 2 ^ 21) : bits v 20 0 = v.toNat ∧ bits v 31 0 = v.toNat ∧ bits v 31 31 = 0 ∧ bits v 63 31 = 0 ∧
    bits v 63 32 = 0 ∧ v.getLsbD 31 = false := by
  have h31 : v.toNat < 2 ^ 31 := h.trans (by decide)
  refine ⟨bits_of_lt h, bits_of_lt (h.trans (by decide)), bits_eq_zero h31, bits_eq_zero h31, bits_eq_zero (h31.trans (by decide)), ?_⟩
  rw [BitVec.getLsbD, Nat.testBit_lt_two_pow h31]

end

/-! The booth instructions of the scalar stream (R245 to R248). -/

section
variable {s : State} {g : Nat} (hr : Runs s g)
include hr

section
variable {a b : SReg} (h21 : (sreg s g a).toNat < 2 ^ 21) (h32 : (sreg s g a).toNat % 32 = 0)
include h21 h32

theorem execBdecl_asks (hy : (group s g).fly.yielded = false) (hw : bits (sreg s g b) 63 32 = 0) (hw' : bits (sreg s g b) 15 13 = 0)
    (hc : 0 < bits (sreg s g b) 12 0) (hc' : bits (sreg s g b) 12 0 ≤ 4096) (hz : 16 ≤ bits (sreg s g b) 31 16)
    (hz' : bits (sreg s g b) 31 16 ≤ 512) (hz16 : bits (sreg s g b) 31 16 % 16 = 0)
    (hs : (sreg s g a).toNat + 32 + bits (sreg s g b) 12 0 * bits (sreg s g b) 31 16 ≤ (descOf s g).s) :
    execBdecl a b s = .next (setGroup s g { group s g with fly := { (group s g).fly with waiting := some (.bdecl a b), yielded := true } }) := by
  obtain ⟨h20, h31, h3131, -, h63, -⟩ := addr_mod_21 h21
  have hsent : sentWait (group s g) = false := by simp [sentWait, hy]
  have hshape : ¬(bits (sreg s g b) 12 0 = 0 ∨ 4096 < bits (sreg s g b) 12 0 ∨ bits (sreg s g b) 31 16 < 16 ∨ 512 < bits (sreg s g b) 31 16 ∨
      bits (sreg s g b) 31 16 % 16 ≠ 0) := by omega
  have hroom : ¬(descOf s g).s < (sreg s g a).toNat + (32 + bits (sreg s g b) 12 0 * bits (sreg s g b) 31 16) := by omega
  refine (hr.onGroup _).trans (congrArg Host.Outcome.next ?_)
  simp only [hr.getS, hsent, h20, h31, h3131, h63, clusterAddr_ne_bad _ _ h21, hw, hw', Bool.false_eq_true, ne_eq, not_true_eq_false, or_self,
    if_false, if_neg hshape, h32, if_neg hroom, wait_runs hr, waitsAgain, modGroup, group_setGroup_same, setGroup_setGroup]

/-- The group once its declaration is answered: nothing waits. -/
def declaredGroup (x : Group) : Group := { x with fly := { x.fly with waiting := none, yielded := false } }

omit h32 in
theorem execBdecl_answers (hwait : (group s g).fly.waiting = some (.bdecl a b)) (hy : (group s g).fly.yielded = true) :
    execBdecl a b s = .next (declareBooth s g (sreg s g a).toNat (bits (sreg s g b) 12 0) (bits (sreg s g b) 31 16)) := by
  have hsent : sentWait (group s g) = true := by simp [sentWait, hy, hwait]
  refine (hr.onGroup _).trans (congrArg Host.Outcome.next ?_)
  simp only [hr.getS, hsent, if_true, (addr_mod_21 h21).1]

omit h21 h32 in
theorem declareBooth_untagged {off cap rowsz : Nat} (ht : ∀ i < 32 + cap * rowsz, tagAt (ownTeam s g) (off + i) = 0) :
    declareBooth s g off cap rowsz = plainDone (setTeam s (group s g).team { writeBooth (ownTeam s g) off ⟨0, 0, 0, cap, rowsz, 0⟩ with
      tags := tput 0 (tput 0 (ownTeam s g).tags (off / 16) 2) (off / 16 + 1) 3,
      filling := (ownTeam s g).filling.filter fun e => e.1 != off }) g := by
  have hfind : (List.range ((32 + cap * rowsz) / 16)).find? (fun i => tagAt (team s (group s g).team) (off + 16 * i) != 0) = none :=
    List.find?_eq_none.mpr fun i hi => by
      have hlt := List.mem_range.mp hi
      have := ht (16 * i) (by omega)
      rw [ownTeam] at this
      simp [this]
  have hset : ∀ y, Runs (setGroup (setTeam s (group s g).team y) g (declaredGroup (group s g))) g := fun y =>
    Runs.setGroup (s := setTeam s (group s g).team y) hr _ hr.2
  have hrun : ∀ y, retire (setGroup (setTeam s (group s g).team y) g (declaredGroup (group s g))) = plainDone (setTeam s (group s g).team y) g :=
    fun y => by
      rw [retire_runs (hset y), plainDone, retired, group_setGroup_same, setGroup_setGroup]
      rfl
  simp only [declareBooth, modGroup, group_setGroup_same, team_setGroup, hfind]
  exact hrun _

omit h21 h32 in
theorem declareBooth_tagged {off cap rowsz k : Nat} (hz : rowsz % 16 = 0) (hk : 16 * k < 32 + cap * rowsz)
    (ht : tagAt (ownTeam s g) (off + 16 * k) ≠ 0) (hfirst : ∀ j < k, tagAt (ownTeam s g) (off + 16 * j) = 0) (hf : Faultable s g) :
    declareBooth s g off cap rowsz = pendingDone (setGroup s g (declaredGroup (group s g))) g
      (boothRec 9 0 true false (BitVec.ofNat 64 (off + 16 * k))) := by
  have hdvd : (32 + cap * rowsz) % 16 = 0 := by rw [Nat.add_mod, Nat.mul_mod, hz]; simp
  have hfind : (List.range ((32 + cap * rowsz) / 16)).find? (fun i => tagAt (team s (group s g).team) (off + 16 * i) != 0) = some k := by
    refine List.find?_range_eq_some.mpr ⟨by simpa [ownTeam] using ht, List.mem_range.mpr (by omega), fun j hj => ?_⟩
    have := hfirst j hj
    rw [ownTeam] at this
    simp [this]
  have hf' : Faultable (setGroup s g (declaredGroup (group s g))) g := by
    rw [Faultable, group_setGroup_same]
    exact hf
  simp only [declareBooth, modGroup, group_setGroup_same, team_setGroup, hfind]
  exact raiseScalar_faultable (s := setGroup s g (declaredGroup (group s g))) hr.1 hf' _

variable (hs : (sreg s g a).toNat + 32 ≤ (descOf s g).s) (hbo : isBooth (ownTeam s g) (sreg s g a).toNat = true)
include hs hbo

theorem execBtake_runs (d : SReg) :
    let y := ownTeam s g
    let off := (sreg s g a).toNat
    let o := readBooth y off
    execBtake d a s = .next (
      if o.take = o.tail ∨ y.filling.contains (off, o.take) = true then scalarDone s g d (2 ^ 63)
      else scalarDone (setTeam s (group s g).team (writeBooth y off { o with take := (o.take + 1) % 2 ^ 32 })) g d
        (BitVec.ofNat 64 (o.take * 2 ^ 21 + (off + 32 + o.take % o.cap * o.rowsz)))) := by
  intro y off o
  obtain ⟨h20, h31, -, h6331, -, -⟩ := addr_mod_21 h21
  have hset : ∀ x, Runs (setTeam s (group s g).team x) g := fun _ => hr
  rw [ownTeam] at hbo
  refine (hr.onGroup _).trans (congrArg Host.Outcome.next ?_)
  simp only [hr.getS, h20, h31, h6331, clusterAddr_ne_bad _ _ h21, ne_eq, not_true_eq_false, or_self, if_false, h32, if_neg hs.not_gt, hbo,
    Bool.not_true, Bool.false_eq_true, result_runs hr, result_runs (hset _)]
  rfl

theorem execBdrop_runs (hi : laneIssued (group s g) = true)
    (hne : (readBooth (ownTeam s g) (sreg s g a).toNat).head ≠ (readBooth (ownTeam s g) (sreg s g a).toNat).take) :
    let y := ownTeam s g
    let off := (sreg s g a).toNat
    let o := readBooth y off
    execBdrop a s = .next (plainDone (setTeam s (group s g).team (writeBooth y off { o with head := (o.head + 1) % 2 ^ 32 })) g) := by
  obtain ⟨h20, h31, -, h6331, -, -⟩ := addr_mod_21 h21
  have hset : ∀ x, Runs (setTeam s (group s g).team x) g := fun _ => hr
  rw [ownTeam] at hbo hne
  refine (hr.onGroup _).trans (congrArg Host.Outcome.next ?_)
  simp only [hr.getS, h20, h31, h6331, clusterAddr_ne_bad _ _ h21, ne_eq, not_true_eq_false, or_self, if_false, h32, if_neg hs.not_gt,
    afterLanes_issued hi, hbo, Bool.not_true, Bool.false_eq_true, if_neg hne, retire_runs (hset _)]
  rfl

end

theorem boothRequest_runs {d a b : SReg} {u off : Nat} (hlt : (sreg s g a).toNat < 2 ^ 32)
    (ha : clusterAddr s (group s g).team (sreg s g a).toNat = .at u off) (h32 : (sreg s g a).toNat % 32 = 0)
    (hb : (sreg s g b).toNat < 2 ^ 21) (hb16 : (sreg s g b).toNat % 16 = 0) (hi : laneIssued (group s g) = true) (w : Bool) (i : Instr) :
    boothRequest d a b w i s = .next (setGroup s g { group s g with fly := { (group s g).fly with
      booth := some ⟨u, off, leBytes 8 (sreg s g b).toNat, d.toNat, w, false, none, false⟩ } }) := by
  refine (hr.onGroup _).trans (congrArg Host.Outcome.next ?_)
  simp only [hr.getS, bits_of_lt (n := 31) hlt, ha, bits_eq_zero (lo := 32) hlt, bits_eq_zero (lo := 21) hb, bits_multiple (n := 4) h32,
    bits_multiple (n := 3) hb16, ne_eq, not_true_eq_false, reduceCtorEq, or_self, if_false, afterLanes_issued hi, modGroup]

end

/-- A record of the scalar stream whose address lies within 32 bits. -/
theorem boothRec_scalar {cls cause a : Nat} (h : a < 2 ^ 32) :
    boothRec cls cause true false (BitVec.ofNat 64 a) = scalarRec cls cause true false (BitVec.ofNat 64 a) := by
  have haddr : scratchWord (BitVec.ofNat 64 a) = BitVec.ofNat 64 a := by
    apply BitVec.eq_of_toNat_eq
    have hmask : (0xFFFFFFFF : Word).toNat = 2 ^ 32 - 1 := rfl
    rw [scratchWord, BitVec.toNat_and, hmask, Nat.and_two_pow_sub_one_eq_mod, BitVec.toNat_ofNat]
    omega
  rw [boothRec, haddr]
  rfl

/-! A request at the controller of the booth's owner (R247, R249). -/

section
variable {s : State} {g : Nat} {o : BoothOp}

/-- A group whose booth request is over. -/
def boothOver (x : Group) : Group := { x with fly := { x.fly with booth := none } }
/-- What a group gets for a request that is over: a register of the stream that asked, and the stream goes on. -/
def boothAnswer (s : State) (g : Nat) (o : BoothOp) (x : Group) (v : Word) : State :=
  if o.lane then laneNext s g (setSregOf (boothOver x) (40 + o.dst) v) 0
  else retired s g (setSregOf (boothOver x) (o.dst % 64) v) (x.spc + 4)
/-- The owner of a booth that a group's request has left. -/
def boothLeft (t : Team) (g : Nat) : Team := { t with parked := t.parked.filter fun e => e.2 != g }

/-- The end of a booth's lane instruction of a group that samples nothing. -/
theorem vboothDone_unsampled (hu : Unsampled s g) (hf : (group s g).lane.park.fmask = 0) (hrep : (group s g).lane.park.replaying = false)
    (d : Nat) (v : Word) (sectors : List Nat) (last : Nat) :
    vboothDone s g d v sectors last = laneNext s g (setSregOf (group s g) (40 + d) v) 0 := by
  obtain ⟨-, hs⟩ := hu
  have hnoted : ∀ f : Sample → Sample,
      { group s g with trace := { (group s g).trace with samples := (group s g).trace.samples.map f } } = group s g := fun f => by
    rw [hs, List.map_nil, ← hs]
  have hstep : stepSample (setGroup s g (group s g)) g (group s g).lane.start (group s g).lane.start last false = setGroup s g (group s g) := by
    simp only [stepSample, group_setGroup_same, hs, List.find?_nil]
  simp only [vboothDone, modGroup, hnoted, group_setGroup_same, hstep, setGroup_setGroup]
  rw [laneAdvance_unparked (by simpa using hf) (by simpa using hrep), group_setGroup_same, laneNext, laneNext, setGroup_setGroup]

/-- The same after a change of the group. -/
theorem vboothDone_modGroup {f : Group → Group} (hu : (f (group s g)).trace.every = 0 ∧ (f (group s g)).trace.samples = [])
    (hf : (f (group s g)).lane.park.fmask = 0) (hrep : (f (group s g)).lane.park.replaying = false) (d : Nat) (v : Word) (sectors : List Nat)
    (last : Nat) : vboothDone (modGroup s g f) g d v sectors last = laneNext s g (setSregOf (f (group s g)) (40 + d) v) 0 := by
  have hgroup : group (modGroup s g f) g = f (group s g) := group_setGroup_same ..
  rw [vboothDone_unsampled (by rw [Unsampled, hgroup]; exact hu) (by rw [hgroup]; exact hf) (by rw [hgroup]; exact hrep), hgroup, laneNext,
    laneNext, modGroup, setGroup_setGroup]

theorem boothDone_answers (ht : (group s g).trace.next = none)
    (hcalm : o.lane = true → Unsampled s g ∧ (group s g).lane.park.fmask = 0 ∧ (group s g).lane.park.replaying = false) (v : Word)
    (sectors : List Nat) : boothDone s g o v sectors endVbooth = boothAnswer s g o (group s g) v := by
  have hset : modGroup s g (fun x => { x with fly := { x.fly with booth := none } }) = setGroup s g (boothOver (group s g)) := rfl
  cases hl : o.lane with
  | true =>
    obtain ⟨hu, hf, hrep⟩ := hcalm hl
    simp only [boothDone, hl, if_true, endVbooth, boothAnswer]
    exact vboothDone_modGroup (by exact hu) (by exact hf) (by exact hrep) ..
  | false =>
    have hrun : Runs (setGroup { s with cur := .group g } g (boothOver (group s g))) g := ⟨rfl, by rw [group_setGroup_same]; exact ht⟩
    have hdone := result_runs hrun (BitVec.ofNat 6 o.dst) v
    simp only [boothDone, hset, hl, Bool.false_eq_true, if_false, boothAnswer, asGroup]
    calc _ = { scalarDone (setGroup { s with cur := .group g } g (boothOver (group s g))) g (BitVec.ofNat 6 o.dst) v with cur := s.cur } :=
          congrArg (fun t : State => { t with cur := s.cur }) hdone
      _ = _ := by
        simp only [scalarDone, retired, group_setGroup_same, setGroup_setGroup, BitVec.toNat_ofNat]
        rfl

theorem boothFault_faulted (ho : (group s g).fly.booth = some o) (hf : Faultable s g) (r : FaultRec) :
    boothFault s g o r = pendingDone (setGroup (setTeam s o.owner (boothLeft (team s o.owner) g)) g (boothOver (group s g))) g r := by
  have hleave : modGroup (leaveBooth s g) g (fun x => { x with fly := { x.fly with booth := none } }) =
      setGroup (setTeam s o.owner (boothLeft (team s o.owner) g)) g (boothOver (group s g)) := by
    rw [leaveBooth, ho]
    rfl
  have hf' : ∀ u : State, Faultable (setGroup u g (boothOver (group s g))) g := fun u => by
    rw [Faultable, group_setGroup_same]
    exact hf
  rw [boothFault, hleave]
  cases o.lane with
  | true => exact raiseStream_faultable (hf' _) r
  | false =>
    exact congrArg (fun t : State => { t with cur := s.cur }) (raiseScalar_faultable (g := g)
      (s := setGroup { setTeam s o.owner (boothLeft (team s o.owner) g) with cur := .group g } g (boothOver (group s g))) rfl (hf' _) r)

section
variable (ho : (group s g).fly.booth = some o) (hrow : o.row = none)
include ho hrow

theorem boothReserve_unrefused (hp : ((team s o.owner).parked.any fun e => e.2 == g) = false) (href : boothRefusal s g o = none) :
    let t := team s o.owner
    let b := readBooth t o.header
    boothReserve s g endVbooth =
      if b.free = 0 then
        if o.wait then setTeam s o.owner { t with parked := t.parked ++ [(o.header, g)] }
        else boothDone (setTeam s o.owner (writeBooth t o.header { b with refusals := min (b.refusals + 1) 0xFFFFFFFF })) g o (2 ^ 63) [] endVbooth
      else if t.parked.any fun e => e.1 == o.header then s
      else reserveRow s g o b := by
  simp only [boothReserve, ho, hrow, Option.isSome_none, hp, Bool.or_self, Bool.false_eq_true, if_false, href, modTeam]

theorem boothReserve_refused (hp : ((team s o.owner).parked.any fun e => e.2 == g) = false) (hf : Faultable s g) {r : FaultRec}
    (href : boothRefusal s g o = some r) : boothReserve s g endVbooth =
      pendingDone (setGroup (setTeam s o.owner (boothLeft (team s o.owner) g)) g (boothOver (group s g))) g r := by
  rw [← boothFault_faulted ho hf]
  simp only [boothReserve, ho, hrow, Option.isSome_none, hp, Bool.or_self, Bool.false_eq_true, if_false, href, hf.2.2, Bool.and_false]

theorem boothWake_reserves (hw : o.wait = true) (hl : o.lane = false)
    (hfirst : (team s o.owner).parked.find? (fun e => e.1 == o.header) = some (o.header, g)) (href : boothRefusal s g o = none)
    (hb : (readBooth (team s o.owner) o.header).free ≠ 0) : boothWake s g = reserveRow s g o (readBooth (team s o.owner) o.header) := by
  have hp : ((team s o.owner).parked.any fun e => e.2 == g) = true := List.any_eq_true.mpr ⟨_, List.mem_of_find?_eq_some hfirst, by simp⟩
  have hmine : ¬((readBooth (team s o.owner) o.header).free = 0 ∨
      (((team s o.owner).parked.find? fun e => e.1 == o.header).any fun e => e.2 != g) = true) := by
    rw [hfirst]
    simp [hb]
  simp only [boothWake, ho, hrow, Option.isSome_none, hw, hl, hp, Bool.not_true, Bool.and_false, Bool.or_self, Bool.false_eq_true, if_false,
    href, if_neg hmine]

theorem boothWake_gone (hf : Faultable s g) (hlive : (team s o.owner).live = true) (hgone : o.gone = true) (hw : o.wait = true)
    (hl : o.lane = false) : boothWake s g =
      pendingDone (setGroup (setTeam s o.owner (boothLeft (team s o.owner) g)) g (boothOver (group s g))) g
        (boothRec 10 1 true o.lane (BitVec.ofNat 64 o.header)) := by
  have href : boothRefusal s g o = some (boothRec 10 1 true o.lane (BitVec.ofNat 64 o.header)) := by
    simp only [boothRefusal, hlive, Bool.not_true, Bool.false_eq_true, if_false, hgone, if_true]
  rw [← boothFault_faulted ho hf]
  simp only [boothWake, ho, hrow, Option.isSome_none, hw, hl, hlive, hgone, Bool.not_true, Bool.and_false, Bool.false_and, Bool.or_self,
    Bool.false_eq_true, if_false, href, hf.2.2]

omit hrow in
theorem boothFill_answers {n free : Nat} (hrow : o.row = some (n, free)) (ht : (group s g).trace.next = none)
    (hcalm : o.lane = true → Unsampled s g ∧ (group s g).lane.park.fmask = 0 ∧ (group s g).lane.park.replaying = false) :
    let t := team s o.owner
    let b := readBooth t o.header
    let row := if o.lane then o.source.take b.rowsz else scratchRead (ownTeam s g) (ofLe o.source) b.rowsz
    boothFill s g endVbooth = boothAnswer (setTeam s o.owner
      { (scratchWrite t (o.header + 32 + n % b.cap * b.rowsz) row).1 with filling := t.filling.filter (· != (o.header, n)) }) g o (group s g)
      (BitVec.ofNat 64 (free * 2 ^ 32 + n)) := by
  intro t b row
  simp only [boothFill, ho, hrow]
  exact boothDone_answers (s := setTeam s o.owner _) ht hcalm _ _

end

/-- What refuses a request at a live booth, and what does not (R247, R249). -/
theorem boothRefusal_dead (h : (team s o.owner).live = false) :
    boothRefusal s g o = some (boothRec 7 0 true o.lane (BitVec.ofNat 64 o.header)) := by
  simp only [boothRefusal, h, Bool.not_false, if_true]
theorem boothRefusal_noBooth (h : (team s o.owner).live = true) (hg : o.gone = false) (hb : isBooth (team s o.owner) o.header = false) :
    boothRefusal s g o = some (boothRec 10 (if declaring s o.owner o.header then 2 else 0) true o.lane (BitVec.ofNat 64 o.header)) := by
  simp only [boothRefusal, h, hg, hb, Bool.not_true, Bool.not_false, Bool.false_eq_true, if_false, if_true, noBooth]
theorem boothRefusal_long (h : (team s o.owner).live = true) (hg : o.gone = false) (hb : isBooth (team s o.owner) o.header = true)
    (hl : o.lane = true) (hz : 4 * Config.gwidth < (readBooth (team s o.owner) o.header).rowsz) :
    boothRefusal s g o = some (boothRec 10 3 true o.lane (BitVec.ofNat 64 o.header)) := by
  simp only [boothRefusal, h, hg, hb, hl, Bool.not_true, Bool.false_eq_true, if_false, if_true, hz]
theorem boothRefusal_source (h : (team s o.owner).live = true) (hg : o.gone = false) (hb : isBooth (team s o.owner) o.header = true)
    (hl : o.lane = false) (hz : (descOf s g).s < ofLe o.source + (readBooth (team s o.owner) o.header).rowsz) :
    boothRefusal s g o = some (boothRec 7 0 false o.lane (BitVec.ofNat 64 (max (ofLe o.source) (descOf s g).s))) := by
  simp only [boothRefusal, h, hg, hb, hl, Bool.not_true, Bool.false_eq_true, if_false, if_true, hz]

end

/-! The booth instructions of the lane stream (R249). -/

section
variable {s : State} {g : Nat} (hr : LaneRuns s g)
include hr

theorem boothIssue_runs {x : VBoothArgs} {u : Use} (ht : issueTrap (descOf s g) u = none) (k : Group → Mask → State) :
    boothIssue s g x u k = k (group s g) (bitsMask (execLanes (group s g) x.pred x.neg)) := by
  obtain ⟨-, hp, hf, -⟩ := hr
  have hstop : stopsRunOn (group s g) u = false := by simp [stopsRunOn, hf]
  simp only [boothIssue, hstop, Bool.false_eq_true, if_false, ht, wholePoison, hp, List.isEmpty_nil, if_true]

omit hr in
theorem noteSample_unsampled (hu : Unsampled s g) (ex : Mask) (sectors : List Nat) (flags : Nat) : noteSample s g ex sectors flags = s :=
  if_pos (.inl hu.1)

theorem execVbput_runs {x : VBoothArgs} {u off : Nat} (hs : Unsampled s g) (hb : Below s g [x.r.toNat] [])
    (hlt : (captured (group s g) x.base).toNat < 2 ^ 32) (ha : clusterAddr s (group s g).team (captured (group s g) x.base).toNat = .at u off)
    (h32 : (captured (group s g) x.base).toNat % 32 = 0) (hfly : (group s g).fly.booth = none) :
    execVbput x s = .next (setGroup s g { group s g with fly := { (group s g).fly with booth := some ⟨u, off,
      ((vreg (group s g) x.r.toNat).zipIdx.flatMap fun e =>
        leBytes 4 (if (bitsMask (execLanes (group s g) x.pred x.neg)).getLsbD e.2 then e.1.toNat else 0)),
      x.d.toNat, false, true, none, false⟩ } }) := by
  have hon : ∀ k, onGroup s k = .next (k g) := fun k => by simp [onGroup, hr.1]
  have htrap : issueTrap (descOf s g) (boothUse [] [x.r.toNat] x.pred none) = none := issueTrap_below _ (by simpa [boothUse, Use.lanes] using hb) rfl
  simp only [execVbput, hon, bits_of_lt (n := 31) hlt, bits_eq_zero (lo := 32) hlt, bits_multiple (n := 4) h32, ha, ne_eq, not_true_eq_false,
    reduceCtorEq, or_self, if_false, boothIssue_runs hr htrap, hfly, Option.isSome_none, Bool.false_eq_true, noteSample_unsampled hs, modGroup]

section
variable {x : VBoothArgs} (hs : Unsampled s g) (hb : Below s g [x.r.toNat] []) (h21 : (captured (group s g) x.base).toNat < 2 ^ 21)
  (h32 : (captured (group s g) x.base).toNat % 32 = 0) (hroom : (captured (group s g) x.base).toNat + 32 ≤ (descOf s g).s)
  (hbo : isBooth (ownTeam s g) (captured (group s g) x.base).toNat = true)
  (hz : (readBooth (ownTeam s g) (captured (group s g) x.base).toNat).rowsz ≤ 4 * Config.gwidth) (hp : (ownTeam s g).poison = [])
include hs hb h21 h32 hroom hbo hz hp

theorem execVbtake_runs :
    let y := group s g
    let h := captured y x.base
    let ex := bitsMask (execLanes y x.pred x.neg)
    let t := ownTeam s g
    let b := readBooth t h.toNat
    let first := h.toNat + 32 + b.take % b.cap * b.rowsz
    let row := scratchRead t first b.rowsz
    execVbtake x s = .next (
      if b.take = b.tail ∨ t.filling.contains (h.toNat, b.take) = true then laneNext s g (setSregOf y (40 + x.d.toNat) (2 ^ 63)) 0
      else laneNext (setTeam s y.team (writeBooth t h.toNat { b with take := (b.take + 1) % 2 ^ 32 })) g
        (setSregOf (putLanes y x.r.toNat (maskBits (maskOf fun i => ex.getLsbD i && decide (i < b.rowsz / 4)))
          ((List.range 128).map fun i => BitVec.ofNat 32 (fieldAt row (4 * i) 4))) (40 + x.d.toNat)
          (BitVec.ofNat 64 (b.take * 2 ^ 21 + first))) 0) := by
  dsimp only
  obtain ⟨h20, h31, -, -, h63, hbit⟩ := addr_mod_21 h21
  have hon : ∀ k, onGroup s k = .next (k g) := fun k => by simp [onGroup, hr.1]
  have htrap : issueTrap (descOf s g) (boothUse [x.r.toNat] [] x.pred none) = none := issueTrap_below _ (by simpa [boothUse, Use.lanes] using hb) rfl
  simp only [ownTeam] at hbo hz hp ⊢
  simp only [execVbtake, hon, h31, h63, clusterAddr_ne_bad _ _ h21, ne_eq, not_true_eq_false, or_self, if_false, boothIssue_runs hr htrap,
    noteSample_unsampled hs, hbit, Bool.false_eq_true, h20, h32, if_neg hroom.not_gt, hbo, Bool.not_true, if_neg hz.not_gt,
    scratchPoison_none hp]
  refine congrArg Host.Outcome.next ?_
  obtain ⟨-, -, hf, hrep⟩ := hr
  split
  · next hempty => exact (vboothDone_unsampled hs hf hrep ..).trans (if_pos hempty).symm
  · next hne => exact (vboothDone_modGroup (by exact hs) (by exact hf) (by exact hrep) ..).trans (if_neg hne).symm

end

end

/-- Settles O10: the booth instructions of both streams, and each request at its booth's controller, by the rules above. -/
theorem booths : Obligations.Booths := by
  refine ⟨fun s g d a b u off hr => ?_, fun s g o ho ht => ?_, fun s g x u off hr hs hb => ?_⟩
  · intro x h w y o
    refine ⟨fun h21 h32 => ⟨?_, fun hroom hbo => ⟨fun hempty => ?_, fun hne hfull => ?_, fun hi hne => execBdrop_runs hr h21 h32 hroom hbo hi hne⟩⟩,
      fun hlt ha h32 hw hw16 hi => ?_⟩
    · intro hw hw' hc hc' hz hz' hz16 hroom
      refine ⟨fun hy => execBdecl_asks hr h21 h32 hy hw hw' hc hc' hz hz' hz16 hroom, fun hwait hy => ⟨fun htag => ?_, fun k hk htag hfirst hf => ?_⟩⟩
      · exact (execBdecl_answers hr h21 hwait hy).trans (congrArg Host.Outcome.next (declareBooth_untagged hr htag))
      · refine (execBdecl_answers hr h21 hwait hy).trans (congrArg Host.Outcome.next ((declareBooth_tagged hr hz16 hk htag hfirst hf).trans ?_))
        have : bits w 12 0 * bits w 31 16 ≤ 4096 * 512 := Nat.mul_le_mul hc' hz'
        rw [boothRec_scalar (by omega)]
        rfl
    · exact (execBtake_runs hr h21 h32 hroom hbo d).trans (congrArg Host.Outcome.next (if_pos hempty))
    · exact (execBtake_runs hr h21 h32 hroom hbo d).trans (congrArg Host.Outcome.next (if_neg (not_or.mpr ⟨hne, Bool.eq_false_iff.mp hfull⟩)))
    · simp only [List.forall_mem_cons, List.not_mem_nil, false_imp_iff, implies_true, and_true]
      exact ⟨boothRequest_runs hr hlt ha h32 hw hw16 hi .., boothRequest_runs hr hlt ha h32 hw hw16 hi ..⟩
  · intro x t b clear reserved answer faulted calm
    refine ⟨fun hrow hp href => ?_, fun hrow hw hl hfirst href hb => ?_, fun hf hrow => ⟨fun hp hg => ⟨?_, ?_, ?_, ?_⟩, fun hlive hg hw hl => ?_⟩, ?_⟩
    · have hrun := boothReserve_unrefused ho hrow hp href
      refine ⟨fun hb hq => congrArg Host.Outcome.next (hrun.trans ((if_neg hb).trans (if_neg (Bool.eq_false_iff.mp hq)))),
        fun hb hq => congrArg Host.Outcome.next (hrun.trans ((if_neg hb).trans (if_pos hq))),
        fun hb hw => congrArg Host.Outcome.next (hrun.trans ((if_pos hb).trans (if_pos hw))),
        fun hb hw hcalm => congrArg Host.Outcome.next (hrun.trans ((if_pos hb).trans ((if_neg (Bool.eq_false_iff.mp hw)).trans ?_)))⟩
      exact boothDone_answers (s := setTeam s o.owner _) ht hcalm _ _
    · exact congrArg Host.Outcome.next (boothWake_reserves ho hrow hw hl hfirst href hb)
    · exact fun hd => congrArg Host.Outcome.next (boothReserve_refused ho hrow hp hf (boothRefusal_dead hd))
    · exact fun hlive hbo => congrArg Host.Outcome.next (boothReserve_refused ho hrow hp hf (boothRefusal_noBooth hlive hg hbo))
    · exact fun hlive hbo hl hz => congrArg Host.Outcome.next (boothReserve_refused ho hrow hp hf (boothRefusal_long hlive hg hbo hl hz))
    · exact fun hlive hbo hl hz => congrArg Host.Outcome.next (boothReserve_refused ho hrow hp hf (boothRefusal_source hlive hg hbo hl hz))
    · exact congrArg Host.Outcome.next (boothWake_gone ho hrow hf hlive hg hw hl)
    · exact fun n free hrow hcalm => congrArg Host.Outcome.next (boothFill_answers ho hrow ht hcalm)
  · intro y h ex t b
    refine ⟨fun hlt ha h32 hfly => execVbput_runs hr hs hb hlt ha h32 hfly, fun h21 h32 hroom hbo hz hp => ?_⟩
    have hrun := execVbtake_runs hr hs hb h21 h32 hroom hbo hz hp
    refine ⟨fun hempty => hrun.trans (congrArg Host.Outcome.next (if_pos hempty)), fun hne hfull => ?_⟩
    exact hrun.trans (congrArg Host.Outcome.next (if_neg (not_or.mpr ⟨hne, Bool.eq_false_iff.mp hfull⟩)))

end Sys2Proof.Machine
end

section
/-! PROOFS. Memory spaces (family 05): one issue of a lane load whose lanes are served at once (R232, R233). -/

namespace Sys2Proof.Machine
open Sys2Proof

/-! The words that a load puts into its registers (R52, R233). -/

section
variable {x : Group} {i : Nat}

theorem putLane_clean (hp : x.poison = []) (i : Nat) (rs : List Nat) (v : Nat) :
    putLane x i rs v = { x with r := { x.r with v := (putLane x i rs v).r.v } } := by
  induction rs generalizing x v with
  | nil => rfl
  | cons r rs ih =>
    have hx : ({ setVreg x r (setAt (vreg x r) i (BitVec.ofNat 32 v)) with
        poison := x.poison.filter fun p => !(p.kind == 1 && p.reg == r && p.lane == i) } : Group) =
        setVreg x r (setAt (vreg x r) i (BitVec.ofNat 32 v)) := by rw [hp]; exact congrArg (fun p => { setVreg x r _ with poison := p }) hp.symm
    rw [putLane, hx]
    exact ih (x := setVreg x r (setAt (vreg x r) i (BitVec.ofNat 32 v))) hp _
theorem vreg_putLane_other {k : Nat} (rs : List Nat) (v : Nat) (h : k ∉ rs) : vreg (putLane x i rs v) k = vreg x k := by
  induction rs generalizing x v with
  | nil => rfl
  | cons r rs ih =>
    obtain ⟨hne, hrs⟩ := not_or.mp (List.mem_cons.not.mp h)
    exact (ih _ hrs).trans ((vreg_setVreg x r k _).trans (if_neg hne))
theorem vreg_putLane (rs : List Nat) (v : Nat) (hd : rs.Nodup) {j : Nat} (hj : j < rs.length) :
    vreg (putLane x i rs v) (rs.getD j 0) = setAt (vreg x (rs.getD j 0)) i (BitVec.ofNat 32 (v / 2 ^ (32 * j))) := by
  induction rs generalizing x v j with
  | nil => exact absurd hj (Nat.not_lt_zero _)
  | cons r rs ih =>
    obtain ⟨hr, hd⟩ := List.nodup_cons.mp hd
    cases j with
    | zero =>
      rw [List.getD_cons_zero, Nat.mul_zero, Nat.pow_zero, Nat.div_one]
      exact (vreg_putLane_other rs _ hr).trans (vreg_setVreg_same ..)
    | succ j =>
      have hj := Nat.lt_of_succ_lt_succ hj
      have hne : rs.getD j 0 ≠ r := by
        rw [List.getD_eq_getElem _ _ hj]
        exact fun h => hr (h ▸ List.getElem_mem hj)
      rw [List.getD_cons_succ, Nat.mul_succ, Nat.add_comm, Nat.pow_add, ← Nat.div_div_eq_div_mul]
      refine (ih _ hd hj).trans (congrArg (setAt · i _) ?_)
      exact (vreg_setVreg x r _ _).trans (if_neg hne)
end

/-- Lanes loaded one after the other leave each executing lane its own value and every other lane as it was. -/
theorem lanesLoaded_foldl {x y : Group} (c : LaneCtl) {dst : List Nat} (hd : dst.Nodup) (hl : ∀ r ∈ dst, (vreg x r).length = 128) (value : Nat → Nat)
    (hy : y.r.v = x.r.v) :
    LanesLoaded x ((servedLanes x c).foldl (fun z i => putLane z i dst (value i)) y) (executes x c) dst value := by
  have hother : ∀ (l : List Nat) (z : Group) (r : Nat), r ∉ dst → vreg (l.foldl (fun z i => putLane z i dst (value i)) z) r = vreg z r := by
    intro l z r hr
    induction l generalizing z with
    | nil => rfl
    | cons i l ih => exact (ih _).trans (vreg_putLane_other dst _ hr)
  have hword : ∀ j < dst.length, ∀ (l : List Nat) (z : Group), vreg (l.foldl (fun z i => putLane z i dst (value i)) z) (dst.getD j 0) =
      l.foldl (fun xs i => setAt xs i (BitVec.ofNat 32 (value i / 2 ^ (32 * j)))) (vreg z (dst.getD j 0)) := by
    intro j hj l z
    induction l generalizing z with
    | nil => rfl
    | cons i l ih => exact (ih _).trans (congrArg (l.foldl _) (vreg_putLane dst _ hd hj))
  have hv : ∀ r, vreg y r = vreg x r := fun r => congrArg (tget zeroLanes · r) hy
  refine ⟨fun r hr => (hother _ y r hr).trans (hv r), fun j hj i hi => ?_⟩
  have hin : i ∈ servedLanes x c ↔ executes x c i = true := mem_servedLanes.trans (and_iff_right hi)
  have hlen : (vreg x (dst.getD j 0)).length = 128 := hl _ (by rw [List.getD_eq_getElem _ _ hj]; exact List.getElem_mem hj)
  rw [hword j hj, hv, getD_foldl_set _ _ _ _ (hi.trans_eq hlen.symm)]
  simp only [hin]

/-! What the lanes served so far leave as it was. -/

/-- A state between the lanes of a load: beside the vector registers of the group and the lines that cores hold it is the one in which the access
was sent, its group being x. -/
structure LoadSteady (s : State) (g : Nat) (x : Group) (t : State) : Prop where
  state : t = { s with cores := t.cores, work := { s.work with groups := t.work.groups } }
  own : group t g = { x with r := { x.r with v := (group t g).r.v } }
  others : ∀ h, h ≠ g → group t h = group s h

/-- The access of a lane load. -/
def loadOp (sg : Bool) (c : LaneCtl) (m : MemCtl) (bits : Nat) (dst : List Nat) (addrs : List (Word × Bool)) : LaneMem :=
  ⟨.load sg, c.rep.toNat, m.sp, m.ro, m.acq, bits, dst, [], addrs, []⟩
/-- The value that a load leaves in lane i, from the bytes that it reads there. -/
def loadedValue (sg : Bool) (op : LaneMem) (i : Nat) (bs : List Byte) : Nat := laneLoad op.bits sg (op.addrs.getD i (0, false)).2 (ofLe bs)
/-- A lane has its bytes: they stand in its registers, and the core notes the lines of a `.ro` load (R106). -/
def loadLane (g : Nat) (sg : Bool) (op : LaneMem) (bytes : Nat → List Byte) (t : State) (i : Nat) : State :=
  let r := modGroup t g fun y => putLane y i op.dst (loadedValue sg op i (bytes i))
  if !op.sp && op.ro then noteRo r g (op.addrs.getD i (0, false)).1 op.size else r

theorem noteLines_cores (s : State) (c l : Nat) (va : Word) (n : Nat) : ∃ cs, noteLines s c l va n = { s with cores := cs } := by
  unfold noteLines
  dsimp only
  split
  · exact ⟨s.cores, rfl⟩
  · exact ⟨_, rfl⟩
theorem loadLane_cores (g : Nat) (sg : Bool) (op : LaneMem) (bytes : Nat → List Byte) (t : State) (i : Nat) :
    ∃ cs, loadLane g sg op bytes t i = { setGroup t g (putLane (group t g) i op.dst (loadedValue sg op i (bytes i))) with cores := cs } := by
  unfold loadLane
  dsimp only
  split
  · exact noteLines_cores ..
  · exact ⟨t.cores, rfl⟩
theorem group_loadLane (g : Nat) (sg : Bool) (op : LaneMem) (bytes : Nat → List Byte) (t : State) (i h : Nat) :
    group (loadLane g sg op bytes t i) h = if h = g then putLane (group t g) i op.dst (loadedValue sg op i (bytes i)) else group t h := by
  obtain ⟨cs, hcs⟩ := loadLane_cores g sg op bytes t i
  rw [hcs]
  exact group_setGroup ..
theorem group_foldl_loadLane (g : Nat) (sg : Bool) (op : LaneMem) (bytes : Nat → List Byte) (l : List Nat) (t : State) :
    group (l.foldl (loadLane g sg op bytes) t) g = l.foldl (fun z i => putLane z i op.dst (loadedValue sg op i (bytes i))) (group t g) := by
  induction l generalizing t with
  | nil => rfl
  | cons i l ih => rw [List.foldl_cons, ih, group_loadLane, if_pos rfl, List.foldl_cons]

section
variable {s t : State} {g : Nat} {x : Group}

theorem LoadSteady.sent (s : State) (g : Nat) (x : Group) : LoadSteady s g x (setGroup s g x) where
  state := rfl
  own := by rw [group_setGroup_same]
  others h hne := (group_setGroup ..).trans (if_neg hne)
theorem LoadSteady.load (h : LoadSteady s g x t) (hp : x.poison = []) (sg : Bool) (op : LaneMem) (bytes : Nat → List Byte) (i : Nat) :
    LoadSteady s g x (loadLane g sg op bytes t i) where
  state := by
    obtain ⟨cs, hcs⟩ := loadLane_cores g sg op bytes t i
    rw [hcs]
    exact congrArg (fun y : State => { setGroup y g (putLane (group t g) i op.dst (loadedValue sg op i (bytes i))) with cores := cs }) h.state
  own := by
    have hp' : (group t g).poison = [] := (congrArg Group.poison h.own).trans hp
    rw [group_loadLane, if_pos rfl, putLane_clean hp']
    exact congrArg (fun y : Group => { y with r := { y.r with v := (putLane (group t g) i op.dst (loadedValue sg op i (bytes i))).r.v } }) h.own
  others k hne := (group_loadLane ..).trans ((if_neg hne).trans (h.others k hne))

theorem LoadSteady.team (h : LoadSteady s g x t) (k : Nat) : team t k = team s k := (congrArg (fun y : State => Machine.team y k) h.state).trans rfl
theorem LoadSteady.mem (h : LoadSteady s g x t) : t.mem = s.mem := (congrArg State.mem h.state).trans rfl
theorem LoadSteady.bad (h : LoadSteady s g x t) : t.bad = s.bad := (congrArg State.bad h.state).trans rfl

section
variable (h : LoadSteady s g x t) (hx : x.team = (group s g).team)
include h hx

theorem LoadSteady.teamNo : (group t g).team = (group s g).team := (congrArg Group.team h.own).trans hx
theorem LoadSteady.ownTeam : ownTeam t g = ownTeam s g := by rw [Machine.ownTeam, h.teamNo hx, h.team, Machine.ownTeam]
theorem LoadSteady.launchOf : launchOf t g = launchOf s g := by rw [Machine.launchOf, h.teamNo hx, h.team, Machine.launchOf]
theorem LoadSteady.descOf : descOf t g = descOf s g := by
  rw [Machine.descOf, h.launchOf hx, h.state]
  rfl
theorem LoadSteady.whoOf (a : Agent) : whoOf t g a = whoOf s g a := by
  have hc : coreOf t g = coreOf s g := by rw [coreOf, h.teamNo hx, h.team, coreOf]
  have hl : launch t (Machine.launchOf s g) = launch s (Machine.launchOf s g) := (congrArg (fun y : State => launch y _) h.state).trans rfl
  simp only [Machine.whoOf, h.launchOf hx, hl, hc]
/-- A lane's access within one page whose entry serves it is translated as in the state in which it was sent. -/
theorem LoadSteady.xlate {acc : BitVec 3} {va : Word} {n : Nat} {e : TlbEntry} (hn : 0 < n) (hf : ∀ f ∈ s.work.faults, f.1 ≠ .lane g)
    (hm : LaneMemReady s g acc va n e) :
    xlate t (Machine.whoOf t g (.lane g)) acc va n = (t, .ok [⟨leafFlat e.leaf e.level va, n, false⟩]) := by
  obtain ⟨hp, -, ht, hr, hw, hc, h57, -, hreach⟩ := hm
  have hdie : ∀ k, die t k = die s k := fun k => (congrArg (fun y : State => die y k) h.state).trans rfl
  have hfaults : t.work.faults = s.work.faults := (congrArg (fun y : State => y.work.faults) h.state).trans rfl
  rw [h.whoOf hx, ← h57]
  refine xlate_page hn hp (hfaults ▸ hf) ?_ hr hw ?_ ((congrArg (fun y : State => Reached y (Machine.whoOf s g (.lane g)) va n) h.state).mpr hreach)
  · rw [hdie]
    exact ht
  · rw [hdie]
    exact hc
theorem LoadSteady.unmet {acc : BitVec 3} {va : Word} {n : Nat} {e : TlbEntry} (hm : LaneMemReady s g acc va n e) :
    objsMet t (Machine.whoOf t g (.lane g)).part va n = [] := by
  obtain ⟨-, -, -, -, -, -, -, ho, -⟩ := hm
  rw [h.whoOf hx]
  exact (congrArg (fun y : State => objsMet y (partOf s g) va n) h.state).trans ho
end
end

/-! One lane's service (R232, R233). -/

section
variable {s t : State} {g i : Nat} {x : Group} (h : LoadSteady s g x t) (hx : x.team = (group s g).team) {a : LaneAcc} {sg : Bool} {c : LaneCtl}
  {mc : MemCtl} {w : Nat} {dst : List Nat} {addrs : List (Word × Bool)} {bytes : Nat → List Byte}
include h hx

theorem serveLane_load_scratch (ha : a.op = loadOp sg c mc w dst addrs) (hsp : mc.sp = true) (hp : (ownTeam s g).poison = [])
    (hr : LaneScratchReady s g (addrs.getD i (0, false)).1 (max 1 (w / 8)))
    (hb : bytes i = scratchRead (ownTeam s g) (addrs.getD i (0, false)).1.toNat (max 1 (w / 8))) :
    serveLane t g a i = laneServed (loadLane g sg (loadOp sg c mc w dst addrs) bytes t i) a i [] none := by
  obtain ⟨hal, hend⟩ := hr
  have hteam : team t (group t g).team = ownTeam s g := h.ownTeam hx
  have hsize : (loadOp sg c mc w dst addrs).size = max 1 (w / 8) := rfl
  have hsp' : (loadOp sg c mc w dst addrs).sp = true := hsp
  have haddr : (loadOp sg c mc w dst addrs).addrs = addrs := rfl
  simp only [serveLane, ha, hsp', haddr, hsize, hal, ne_eq, not_true_eq_false, decide_false, Bool.false_eq_true, if_true, if_false, h.descOf hx,
    Nat.not_lt.mpr hend, hteam, scratchPoison_none hp, ite_self, loadLane, Bool.not_true, Bool.false_and, loadedValue, hb]
  simp only [scratchLane, hteam, loadOp]
  rfl
theorem serveLane_load_home (ha : a.op = loadOp sg c mc w dst addrs) (hsn : a.snap = if mc.ro then some (mergedMem s) else none) (hsp : mc.sp = false)
    (hf : ∀ f ∈ s.work.faults, f.1 ≠ .lane g) (hbad : s.bad = []) {e : TlbEntry}
    (hr : LaneMemReady s g 1 (addrs.getD i (0, false)).1 (max 1 (w / 8)) e)
    (hb : bytes i = mread (if mc.ro && !hostWindow (addrs.getD i (0, false)).1 then mergedMem s else s.mem)
      (leafFlat e.leaf e.level (addrs.getD i (0, false)).1) (max 1 (w / 8))) :
    serveLane t g a i = laneServed (loadLane g sg (loadOp sg c mc w dst addrs) bytes t i) a i [] none := by
  have haddr : (loadOp sg c mc w dst addrs).addrs = addrs := rfl
  have hsize : (loadOp sg c mc w dst addrs).size = max 1 (w / 8) := rfl
  have hn : 0 < max 1 (w / 8) := Nat.lt_of_lt_of_le Nat.zero_lt_one (Nat.le_max_left ..)
  generalize hv : addrs.getD i (0, false) = p at hr hb
  obtain ⟨va, hi⟩ := p
  generalize max 1 (w / 8) = n at hr hb hsize hn
  have hmask : addressFault (whoOf t g (.lane g)).mask va n = none := by
    rw [h.whoOf hx]
    exact hr.2.1
  have hsp' : (loadOp sg c mc w dst addrs).sp = false := hsp
  have hal : (loadOp sg c mc w dst addrs).aligned = false := rfl
  have hrights : (loadOp sg c mc w dst addrs).rights = 1 :=
    show BitVec.ofBool false ++ BitVec.ofBool false ++ BitVec.ofBool true = (1 : BitVec 3) from by decide
  have hread : readRo t (whoOf t g (.lane g)) a.snap va [⟨leafFlat e.leaf e.level va, n, false⟩] = (t, bytes i) := by
    rw [hsn, hb]
    cases mc.ro <;> cases hw : hostWindow va <;>
      simp [readRo, hw, homeRead_unmet (who := whoOf t g (.lane g)) (h.unmet hx hr), h.mem, readSegs_one]
  have hhome : homeLane t g (loadOp sg c mc w dst addrs) a.snap i va hi [⟨leafFlat e.leaf e.level va, n, false⟩] =
      (modGroup t g fun y => putLane y i dst (laneLoad w sg hi (ofLe (bytes i))), []) := by
    simp only [homeLane, loadOp, hread]
  simp only [serveLane, ha, hsp', haddr, hsize, hv, hal, Bool.false_and, Bool.false_eq_true, if_false, hmask, hrights, h.xlate hx hn hf hr,
    poisonIn_none (h.bad.trans hbad), ite_self, hhome, loadLane, Bool.not_false, Bool.true_and, loadedValue]
  rfl
end

/-! One issue of a load whose lanes are all served at once. -/

/-- The access that an issue with no poisoned lane sends, with what memory held where it is a `.ro` load. -/
def issueAccess (s : State) (o : LaneMem) (ex : Mask) : LaneAcc := ⟨o, ex, ex, [], [], [], now s, 0xFF, if o.ro then some (mergedMem s) else none⟩
/-- The group of a state once it has sent that access. -/
def issuedFrom (s : State) (g : Nat) (c : LaneCtl) (op : LaneMem) : Group :=
  sentLane (group s g) (issueAccess s op (bitsMask (execLanes (group s g) c.pred c.neg)))

theorem memIssue_issues {s : State} {g : Nat} {mc : MemCtl} {base : Word} (h : LaneMemRuns s g mc base) {u : Use} (ht : issueTrap (descOf s g) u = none)
    (c : LaneCtl) {m : Group → LaneMem} {op : LaneMem} (hm : m (group s g) = op) :
    memIssue s c u m = .next (serveLanes (setGroup s g (issuedFrom s g c op)) g) := by
  obtain ⟨⟨hcur, hpo, hf, hr⟩, ⟨hevery, -⟩, -, -, -, -, -, -, hl, hst⟩ := h
  have hfull : (op.counted && decide (0xFFFF ≤ (group s g).cnt.loads) || op.writes && decide (0xFFFF ≤ (group s g).cnt.stores)) = false := by
    rw [decide_eq_false (by omega), decide_eq_false (by omega), Bool.and_false, Bool.and_false, Bool.or_false]
  have hleft : ∀ ex : Mask, ex &&& ~~~(0 : Mask) = ex := fun ex => by
    rw [show (0 : Mask) = 0#128 from rfl, BitVec.not_zero, BitVec.and_allOnes]
  have hpo' : (group s g).poison.isEmpty = true := by rw [hpo]; rfl
  have hsample : ∀ ex sectors flags, (if op.sampled then noteSample (setGroup s g (issuedFrom s g c op)) g ex sectors flags
      else setGroup s g (issuedFrom s g c op)) = setGroup s g (issuedFrom s g c op) := fun ex sectors flags => by
    have hnone : noteSample (setGroup s g (issuedFrom s g c op)) g ex sectors flags = setGroup s g (issuedFrom s g c op) :=
      if_pos (Or.inl (by rw [group_setGroup_same]; exact hevery))
    rw [hnone, ite_self]
  simp only [memIssue, onGroup, hcur, stopsRunOn, hf, bne_self_eq_false, Bool.and_false, Bool.false_and, Bool.false_eq_true, if_false, ht, hm, hfull,
    hpo', if_true, dropsNow, hr, List.any_nil, maskOf_false, hleft]
  exact congrArg (fun t => Host.Outcome.next (serveLanes t g)) (hsample ..)

/-- Lanes of a load that are each served, one after the other. -/
theorem foldl_serveLoad {P : State → Prop} {f : State → Nat → State} {g : Nat} {op : LaneMem} {sn : Option (List Host.Cell)} : ∀ (l : List Nat),
    (∀ i ∈ l, ∀ t, P t → P (f t i) ∧ ∀ a : LaneAcc, a.op = op → a.snap = sn → serveLane t g a i = laneServed (f t i) a i [] none) →
    ∀ (t : State) (a : LaneAcc), P t → a.op = op → a.snap = sn →
      P (l.foldl f t) ∧ ∃ b, l.foldl (fun (p : State × LaneAcc) i => serveLane p.1 g p.2 i) (t, a) = (l.foldl f t, b) ∧ Served a b l
  | [], _, t, a, ht, _, _ => ⟨ht, a, rfl, Served.nil a⟩
  | i :: l, h, t, a, ht, ha, hs => by
    obtain ⟨hf, hserve⟩ := h i List.mem_cons_self t ht
    obtain ⟨hp, b, hb, hserved⟩ := foldl_serveLoad l (fun k hk => h k (List.mem_cons_of_mem _ hk)) (f t i) (laneServed (f t i) a i [] none).2 hf ha hs
    exact ⟨hp, b, by rw [List.foldl_cons, hserve a ha hs]; exact hb, hserved.cons⟩

theorem laneMemDone_loaded {s r : State} {g : Nat} {c : LaneCtl} {op : LaneMem} {v : Tab LaneVec}
    (hg : group r g = endedLane { issuedFrom s g c op with r := { (group s g).r with v := v } } op) (ho : ∀ h, h ≠ g → group r h = group s h) :
    LaneMemDone s r g op.n (if op.counted then 1 else 0) (if op.writes then 1 else 0) := by
  refine ⟨⟨ho, ?_, ?_, ?_, ?_, ?_, ?_, ?_, ?_⟩, ?_, ?_⟩ <;> rw [hg] <;> rfl

/-- An issue of a load each of whose executing lanes reads the given bytes. -/
theorem memIssue_loads {s : State} {g : Nat} {mc : MemCtl} {base : Word} (h : LaneMemRuns s g mc base) {u : Use} (ht : issueTrap (descOf s g) u = none)
    {c : LaneCtl} {sg : Bool} {w : Nat} {dst : List Nat} {addrs : List (Word × Bool)} {m : Group → LaneMem}
    (hm : m (group s g) = loadOp sg c mc w dst addrs) (hd : dst.Nodup) (hl : ∀ r ∈ dst, (vreg (group s g) r).length = 128) (bytes : Nat → List Byte)
    (hserve : ∀ i < 128, executes (group s g) c i = true → ∀ t, LoadSteady s g (issuedFrom s g c (loadOp sg c mc w dst addrs)) t →
      ∀ a : LaneAcc, a.op = loadOp sg c mc w dst addrs → a.snap = (if mc.ro then some (mergedMem s) else none) →
        serveLane t g a i = laneServed (loadLane g sg (loadOp sg c mc w dst addrs) bytes t i) a i [] none) :
    ∃ r, memIssue s c u m = .next r ∧ LaneMemDone s r g c.rep.toNat 1 0 ∧ r.mem = s.mem ∧ (group r g).r.q = (group s g).r.q ∧
      LanesLoaded (group s g) (group r g) (executes (group s g) c) dst fun i => loadedValue sg (loadOp sg c mc w dst addrs) i (bytes i) := by
  have hissue := memIssue_issues h ht c hm
  generalize hop : loadOp sg c mc w dst addrs = op at *
  obtain ⟨⟨-, hpo, hfm, hrp⟩, ⟨-, hsamp⟩, -, -, hpt, hbad, hfaults, hclob, -, -⟩ := h
  have hlanes : lanesOf (bitsMask (execLanes (group s g) c.pred c.neg)) = servedLanes (group s g) c := lanesOf_bitsMask _
  have hro : op.ro = mc.ro := by rw [← hop]; rfl
  generalize hacc : issueAccess s op (bitsMask (execLanes (group s g) c.pred c.neg)) = acc
  have haop : acc.op = op := by rw [← hacc]; rfl
  have hsnap : acc.snap = if mc.ro then some (mergedMem s) else none := by rw [← hacc, ← hro]; rfl
  have hal : lanesOf acc.left = servedLanes (group s g) c := by rw [← hacc]; exact hlanes
  obtain ⟨hst, b, hfold, hserved⟩ := foldl_serveLoad (P := LoadSteady s g (issuedFrom s g c op)) (servedLanes (group s g) c)
    (fun i hi t hst => ⟨hst.load hpo sg op bytes i, hserve i (mem_servedLanes.mp hi).1 (mem_servedLanes.mp hi).2 t hst⟩) _ acc (LoadSteady.sent ..) haop hsnap
  have hregs := group_foldl_loadLane g sg op bytes (servedLanes (group s g) c) (setGroup s g (issuedFrom s g c op))
  generalize htd : (servedLanes (group s g) c).foldl (loadLane g sg op bytes) (setGroup s g (issuedFrom s g c op)) = t at hst hfold hregs
  have hleft : b.left = 0 := by
    refine BitVec.eq_of_getLsbD_eq fun i hi => ?_
    rw [hserved.left, ← hal]
    cases hb : acc.left.getLsbD i with
    | false => simp
    | true =>
      rw [List.contains_iff_mem.mpr (mem_lanesOf.mpr ⟨hi, hb⟩)]
      simp
  have hown : ∀ {α : Type} (p : Group → α), p (group t g) = p { issuedFrom s g c op with r := { (group s g).r with v := (group t g).r.v } } :=
    fun p => congrArg p hst.own
  have hwf : t.work.faults = s.work.faults := (congrArg (fun y : State => y.work.faults) hst.state).trans rfl
  have hfa : b.faults = [] := hserved.faults.trans (by rw [← hacc]; rfl)
  have hcl : b.clobbers = [] := hserved.clobbers.trans (by rw [← hacc]; rfl)
  obtain ⟨ts, hend, -⟩ := endLaneMem_quiet (t := t) (g := g) (a := b) (hst.bad.trans hbad) ((congrArg Team.poison (hst.ownTeam rfl)).trans hpt)
    (hwf ▸ hfaults) ((hown (fun y => y.trace.samples)).trans hsamp) ((hown (fun y => y.lane.clob)).trans hclob)
    ((hown (fun y => y.lane.park.fmask)).trans hfm) ((hown (fun y => y.lane.park.replaying)).trans hrp) hfa hcl
  have hserve : serveLanes (setGroup s g (issuedFrom s g c op)) g = endLaneMem t g b := by
    have hfly : (group (setGroup s g (issuedFrom s g c op)) g).fly.lane = some acc := by rw [group_setGroup_same, ← hacc]; rfl
    simp only [serveLanes, hfly, hal, hfold, hleft, if_true]
  have hdone : LaneMemDone s (setGroup { t with work := { t.work with teams := ts } } g (endedLane (group t g) b.op)) g op.n
      (if op.counted then 1 else 0) (if op.writes then 1 else 0) := by
    refine laneMemDone_loaded (c := c) (v := (group t g).r.v) ?_ fun k hk => ?_
    · rw [group_setGroup_same, hserved.op, haop]
      exact congrArg (endedLane · op) hst.own
    · exact ((group_setGroup ..).trans (if_neg hk)).trans (hst.others k hk)
  refine ⟨_, hissue.trans (congrArg Host.Outcome.next (hserve.trans hend)), ?_, hst.mem, ?_, ?_⟩
  · rw [← hop] at hdone
    exact hdone
  · rw [group_setGroup_same]
    exact (hown (fun y => y.r.q)).trans rfl
  · have hloaded := lanesLoaded_foldl (x := group s g) (y := issuedFrom s g c op) c hd hl (fun i => loadedValue sg op i (bytes i)) rfl
    have hdst : op.dst = dst := by rw [← hop]; rfl
    rw [group_setGroup_same] at hregs ⊢
    rw [hdst] at hregs
    rw [← hregs] at hloaded
    exact hloaded

end Sys2Proof.Machine
end

section
/-! PROOFS. Memory spaces (family 05): the forms of the lane loads (R231, R234). -/

namespace Sys2Proof.Machine
open Sys2Proof

/-! The value of a load's bytes (R234). -/

theorem sext_mod (n v : Nat) : sext n (v % 2 ^ n) = sext n v := by rw [sext, Nat.mod_mod, sext]
theorem loadKind_cases (k : BitVec 3) : k = 0 ∨ k = 1 ∨ k = 2 ∨ k = 3 ∨ k = 4 ∨ k = 5 ∨ k = 6 ∨ k = 7 := by decide +revert
/-- The bits of an element of a load kind. -/
def loadBits (k : BitVec 3) : Nat := [4, 4, 8, 8, 16, 16, 32, 64].getD k.toNat 0
theorem loadKind_eq (k : BitVec 3) : loadKind k = (loadBits k, k.getLsbD 0 && decide (k.toNat < 6)) := by decide +revert
theorem laneLoad_unsigned {w raw : Nat} (hi : Bool) (h : w = 4 ∨ raw < 2 ^ w) :
    laneLoad w false hi raw = if w = 4 then raw / (if hi then 16 else 1) % 16 else raw := by
  by_cases h4 : w = 4
  · subst h4
    cases hi <;> simp [laneLoad]
  · have hraw := h.resolve_left h4
    simp [laneLoad, h4, Nat.mod_eq_of_lt hraw]
theorem laneLoad_signed {w raw : Nat} (hi : Bool) (h : w < 32) :
    laneLoad w true hi raw = (sext w (if w = 4 then raw / (if hi then 16 else 1) % 16 else raw) % 2 ^ 32).toNat := by
  have h4 : ∀ v, sext 4 (v % 16) = sext 4 v := sext_mod 4
  simp only [laneLoad, if_pos h, if_true, BitVec.toNat_ofInt]
  by_cases hw : w = 4
  · subst hw
    cases hi <;> simp [h4]
  · simp [hw]
/-- The value of an element of a load kind, extended to its register. -/
def extendedLoad (k : BitVec 3) (v : Nat) : Nat := if k = 1 ∨ k = 3 ∨ k = 5 then (sext (loadBits k) v % 2 ^ 32).toNat else v
/-- What a load of a kind leaves of the bytes that it reads. -/
theorem laneLoad_extended (k : BitVec 3) (hi : Bool) {raw : Nat} (h : raw < 256 ^ max 1 (loadBits k / 8)) :
    laneLoad (loadBits k) (k.getLsbD 0 && decide (k.toNat < 6)) hi raw =
      extendedLoad k (if loadBits k = 4 then raw / (if hi then 16 else 1) % 16 else raw) := by
  obtain rfl | rfl | rfl | rfl | rfl | rfl | rfl | rfl := loadKind_cases k
  case inl => exact laneLoad_unsigned hi (.inl rfl)
  case inr.inr.inl | inr.inr.inr.inr.inl | inr.inr.inr.inr.inr.inr.inl | inr.inr.inr.inr.inr.inr.inr =>
    exact laneLoad_unsigned hi (.inr h)
  all_goals exact laneLoad_signed hi (by decide)

/-! The lanes' addresses (R231). -/

theorem getD_contAddrs (y : Group) (b : CReg) (off : BitVec 32) (e : Nat) {i : Nat} (hi : i < 128) :
    (contAddrs y b off e).getD i (0, false) = (captured y b + (off.signExtend 64 : Word) + BitVec.ofNat 64 (if e = 0 then i / 2 else i * e),
      decide (e = 0) && i % 2 == 1) := by
  rw [List.getD_eq_getElem?_getD, contAddrs, List.getElem?_map, List.getElem?_range hi]
  by_cases he : e = 0 <;> simp [he]
theorem getD_idxAddrs_pair {y : Group} {a : Nat} (hl : (vreg y a).length = 128) (hh : (vreg y (a + 1)).length = 128) (nib : Bool) (scale : BitVec 2)
    (b : CReg) {i : Nat} (hi : i < 128) : (idxAddrs y true nib scale b a).getD i (0, false) =
      (((vreg y (a + 1)).getD i 0 ++ (vreg y a).getD i 0 : Word), false) := by
  have h1 : i < (vreg y a).length := hi.trans_eq hl.symm
  have h2 : i < (vreg y (a + 1)).length := hi.trans_eq hh.symm
  simp [idxAddrs, vpair, List.getD_eq_getElem?_getD, h1, h2]
theorem shiftLeft_eq_mul (v : Word) (k : Nat) : v <<< k = v * BitVec.ofNat 64 (2 ^ k) := by
  apply BitVec.eq_of_toNat_eq
  simp [BitVec.toNat_shiftLeft, Nat.shiftLeft_eq, BitVec.toNat_mul]
theorem sshiftRight_signExtend (v : LWord) : (v.signExtend 64 : Word).sshiftRight 1 = (v.sshiftRight 1).signExtend 64 := by
  apply BitVec.eq_of_toInt_eq
  rw [BitVec.toInt_sshiftRight, BitVec.toInt_signExtend_of_le (by decide), BitVec.toInt_signExtend_of_le (by decide), BitVec.toInt_sshiftRight]
theorem getD_idxAddrs {y : Group} {a : Nat} (hl : (vreg y a).length = 128) (nib : Bool) (scale : BitVec 2) (b : CReg) {i : Nat} (hi : i < 128) :
    let v := (vreg y a).getD i 0
    (idxAddrs y false nib scale b a).getD i (0, false) =
      (captured y b + (if nib then (v.sshiftRight 1).signExtend 64 else (v.signExtend 64 : Word) * BitVec.ofNat 64 (2 ^ scale.toNat)), nib && v.getLsbD 0) := by
  intro v
  have h1 : i < (vreg y a).length := hi.trans_eq hl.symm
  have hv : (vreg y a)[i] = v := by simp [v, List.getD_eq_getElem?_getD, h1]
  rw [List.getD_eq_getElem?_getD, idxAddrs, if_neg Bool.false_ne_true, List.getElem?_map, List.getElem?_eq_getElem h1, hv]
  cases nib
  · simp [shiftLeft_eq_mul]
  · simp [sshiftRight_signExtend, BitVec.getElem_signExtend]

/-! The three forms of a load (R232, R233). -/

theorem memTrap_none {s : State} {g : Nat} {mc : MemCtl} {base : Word} (h : LaneMemRuns s g mc base) : memTrap s mc base = none := by
  have hcur := h.lane.curGroup
  obtain ⟨-, -, hscope, hbase, -⟩ := h
  have hb : (mc.sp && bits base 63 21 != 0) = false := by
    cases hsp : mc.sp with
    | false => rfl
    | true => rw [bits_eq_zero (hbase hsp)]; rfl
  have hs : ((mc.acq || mc.rel) && scopeBad s g mc.scope) = false := by
    cases hm : mc.acq || mc.rel with
    | false => rfl
    | true => rw [hscope hm]; rfl
  simp only [memTrap, hcur, hb, hs, Bool.false_eq_true, if_false]
theorem scratchRead_length (t : Team) (off n : Nat) : (scratchRead t off n).length = n := by simp [scratchRead]

/-- A run in which each executing lane reads the bytes at its own address, in the scratchpad or in virtual memory, where all can be read at once. -/
def LoadsLanes (s : State) (g : Nat) (run : Out) (c : LaneCtl) (m : MemCtl) (dst : List Nat) (n : Nat) (addr : Nat → Word)
    (value : Nat → List Byte → Nat) : Prop :=
  (m.sp = true → (∀ k < 128, executes (group s g) c k = true → LaneScratchReady s g (addr k) n) →
    ∃ t, run = .next t ∧ LaneMemDone s t g c.rep.toNat 1 0 ∧ t.mem = s.mem ∧ (group t g).r.q = (group s g).r.q ∧
      LanesLoaded (group s g) (group t g) (executes (group s g) c) dst fun k => value k (scratchRead (ownTeam s g) (addr k).toNat n)) ∧
  (m.sp = false → ∀ e : Nat → TlbEntry, (∀ k < 128, executes (group s g) c k = true → LaneMemReady s g 1 (addr k) n (e k)) →
    ∃ t, run = .next t ∧ LaneMemDone s t g c.rep.toNat 1 0 ∧ t.mem = s.mem ∧ (group t g).r.q = (group s g).r.q ∧
      LanesLoaded (group s g) (group t g) (executes (group s g) c) dst fun k =>
        value k (mread (if m.ro && !hostWindow (addr k) then mergedMem s else s.mem) (leafFlat (e k).leaf (e k).level (addr k)) n))

theorem LanesLoaded.congr {x y : Group} {served : Nat → Bool} {dst : List Nat} {v w : Nat → Nat} (h : LanesLoaded x y served dst v)
    (hvw : ∀ i < 128, v i = w i) : LanesLoaded x y served dst w := by
  obtain ⟨hother, hword⟩ := h
  exact ⟨hother, fun j hj i hi => by rw [hword j hj i hi, hvw i hi]⟩

/-- An issue of a load whose lanes' addresses, and the values that their bytes give, are the given ones. -/
theorem memIssue_loadsLanes {s : State} {g : Nat} {mc : MemCtl} {base : Word} (h : LaneMemRuns s g mc base) {c : LaneCtl} {u : Use}
    (hu : Below s g u.v u.q) (hut : u.trap = memTrap s mc base) {sg : Bool} {w n : Nat} {dst : List Nat} {addrs : Group → List (Word × Bool)}
    (hd : dst.Nodup) (hl : ∀ r ∈ dst, (vreg (group s g) r).length = 128) (hn : max 1 (w / 8) = n) {addr : Nat → Word} {odd : Nat → Bool}
    (ha : ∀ i < 128, (addrs (group s g)).getD i (0, false) = (addr i, odd i)) {value : Nat → List Byte → Nat}
    (hv : ∀ i < 128, ∀ bs : List Byte, bs.length = n → laneLoad w sg (odd i) (ofLe bs) = value i bs) :
    LoadsLanes s g (memIssue s c u fun z => loadOp sg c mc w dst (addrs z)) c mc dst n addr value := by
  subst hn
  have ht : issueTrap (descOf s g) u = none := issueTrap_below u hu (hut.trans (memTrap_none h))
  obtain ⟨hpo, hbad, hf⟩ := h.clean
  have hvalues : ∀ i < 128, ∀ bs : List Byte, bs.length = max 1 (w / 8) →
      loadedValue sg (loadOp sg c mc w dst (addrs (group s g))) i bs = value i bs := fun i hi bs hbs => by
    rw [← hv i hi bs hbs, loadedValue, loadOp, ha i hi]
  refine ⟨fun hsp hr => ?_, fun hsp e hr => ?_⟩
  · obtain ⟨t, hrun, hdone, hmem, hq, hload⟩ := memIssue_loads h ht (c := c) (m := fun z => loadOp sg c mc w dst (addrs z)) rfl hd hl
      (fun i => scratchRead (ownTeam s g) (addr i).toNat (max 1 (w / 8))) fun i hi hex t hst a hop _ =>
        serveLane_load_scratch hst rfl hop hsp hpo (by rw [ha i hi]; exact hr i hi hex) (by rw [ha i hi])
    exact ⟨t, hrun, hdone, hmem, hq, hload.congr fun i hi => hvalues i hi _ (scratchRead_length ..)⟩
  · obtain ⟨t, hrun, hdone, hmem, hq, hload⟩ := memIssue_loads h ht (c := c) (m := fun z => loadOp sg c mc w dst (addrs z)) rfl hd hl
      (fun i => mread (if mc.ro && !hostWindow (addr i) then mergedMem s else s.mem) (leafFlat (e i).leaf (e i).level (addr i)) (max 1 (w / 8)))
      fun i hi hex t hst a hop hsn =>
        serveLane_load_home hst rfl hop hsn hsp hf hbad (e := e i) (by rw [ha i hi]; exact hr i hi hex) (by rw [ha i hi])
    exact ⟨t, hrun, hdone, hmem, hq, hload.congr fun i hi => hvalues i hi _ (mread_length ..)⟩

theorem regs_nodup (wide : Bool) (f : VReg) (step : Bool) (j : Nat) : (regs wide f step j).Nodup := by cases wide <;> simp [regs]
/-- A 4-bit load reads the nibble that lane and offset select; a wider one has none to select. -/
theorem laneLoad_nibble (k : BitVec 3) (odd : Bool) {bs : List Byte} (h : bs.length = max 1 (loadBits k / 8)) :
    laneLoad (loadBits k) (k.getLsbD 0 && decide (k.toNat < 6)) (decide (loadBits k = 4) && odd) (ofLe bs) =
      extendedLoad k (if loadBits k = 4 then ofLe bs / (if odd then 16 else 1) % 16 else ofLe bs) := by
  rw [laneLoad_extended k _ (h ▸ ofLe_lt bs)]
  by_cases h4 : loadBits k = 4
  · simp only [h4, decide_true, Bool.true_and]
  · simp only [if_neg h4]

theorem loadBits_nibble (k : BitVec 3) : loadBits k / 8 = 0 ↔ loadBits k = 4 := by decide +revert
theorem execVld_eq {s : State} {g : Nat} (h : LaneRuns s g) (x : ContArgs) :
    let dst := regs (loadBits x.kind == 64) x.r x.c.stepD (group s g).lane.rep
    execVld x s = memIssue s x.c
      (memUse dst [] [] [] x.c.pred (x.m.acq || x.m.rel) (memTrap s x.m (captured (group s g) x.base + (x.off.signExtend 64 : Word)))) fun z =>
        loadOp (x.kind.getLsbD 0 && decide (x.kind.toNat < 6)) x.c x.m (loadBits x.kind) dst (contAddrs z x.base x.off (loadBits x.kind / 8)) := by
  simp only [execVld, h.repNow, contBase, h.curGroup, loadKind_eq]
  rfl
theorem execVldq_eq {s : State} {g : Nat} (h : LaneRuns s g) (x : ContArgs) :
    let r := regNo x.r x.c.stepD 1 (group s g).lane.rep
    execVldq x s = memIssue s x.c (memUse [r, r + 1, r + 2, r + 3] [] [] [] x.c.pred (x.m.acq || x.m.rel)
      (memTrap s x.m (captured (group s g) x.base + (x.off.signExtend 64 : Word)))) fun z =>
        loadOp false x.c x.m 128 [r, r + 1, r + 2, r + 3] (contAddrs z x.base x.off 16) := by
  simp only [execVldq, h.repNow, contBase, h.curGroup]
  rfl
theorem execVldx_eq {s : State} {g : Nat} (h : LaneRuns s g) (x : IdxArgs) :
    let dst := regs (loadBits x.kind == 64) x.r x.c.stepD (group s g).lane.rep
    let idx := regs x.a64 x.a x.c.stepA (group s g).lane.rep
    execVldx x s = memIssue s x.c
      (memUse dst idx [] [] x.c.pred (x.m.acq || x.m.rel) (memTrap s x.m (if x.a64 then 0 else captured (group s g) x.base))) fun z =>
        loadOp (x.kind.getLsbD 0 && decide (x.kind.toNat < 6)) x.c x.m (loadBits x.kind) dst
          (idxAddrs z x.a64 (loadBits x.kind == 4) x.scale x.base (idx.headD 0)) := by
  simp only [execVldx, h.repNow, idxBase, h.curGroup, loadKind_eq]
  rfl

/-- The address and the nibble of lane i in an indexed form are those of R231. -/
theorem getD_idxAddrs_form {y : Group} {a64 : Bool} {w a : Nat} (hl : (vreg y a).length = 128)
    (hw : a64 = true → w ≠ 4 ∧ (vreg y (a + 1)).length = 128) (scale : BitVec 2) (b : CReg) {i : Nat} (hi : i < 128) :
    let v := (vreg y a).getD i 0
    (idxAddrs y a64 (w == 4) scale b a).getD i (0, false) =
      (if a64 then (vreg y (a + 1)).getD i 0 ++ v
        else if w = 4 then captured y b + (v.sshiftRight 1).signExtend 64 else captured y b + (v.signExtend 64 : Word) * BitVec.ofNat 64 (2 ^ scale.toNat),
       decide (w = 4) && v.getLsbD 0) := by
  intro v
  cases a64 with
  | true =>
    obtain ⟨h4, hh⟩ := hw rfl
    rw [getD_idxAddrs_pair hl hh _ _ _ hi, if_pos rfl, decide_eq_false h4, Bool.false_and]
  | false =>
    rw [getD_idxAddrs hl _ _ _ hi, if_neg Bool.false_ne_true]
    by_cases h4 : w = 4 <;> simp [h4, v]

section
variable {s : State} {g : Nat}

theorem execVld_loads {x : ContArgs} :
    let y := group s g
    let w := loadBits x.kind
    let base := captured y x.base + (x.off.signExtend 64 : Word)
    let dst := regs (w == 64) x.r x.c.stepD y.lane.rep
    LaneMemRuns s g x.m base → Below s g dst [] → (∀ r ∈ dst, (vreg y r).length = 128) →
    LoadsLanes s g (execVld x s) x.c x.m dst (max 1 (w / 8)) (fun k => base + BitVec.ofNat 64 (if w = 4 then k / 2 else k * (w / 8))) fun k bs =>
      extendedLoad x.kind (if w = 4 then ofLe bs / (if k % 2 == 1 then 16 else 1) % 16 else ofLe bs) := by
  intro y w base dst h hb hl
  rw [execVld_eq h.lane]
  refine memIssue_loadsLanes h (by simpa [memUse] using hb) rfl (regs_nodup ..) hl rfl (odd := fun i => decide (w = 4) && i % 2 == 1)
    (fun i hi => ?_) fun i hi bs hbs => ?_
  · simp only [getD_contAddrs _ _ _ _ hi, loadBits_nibble]
    rfl
  · exact laneLoad_nibble x.kind _ hbs
theorem execVldq_loads {x : ContArgs} :
    let y := group s g
    let base := captured y x.base + (x.off.signExtend 64 : Word)
    let r := regNo x.r x.c.stepD 1 y.lane.rep
    LaneMemRuns s g x.m base → Below s g [r, r + 1, r + 2, r + 3] [] → (∀ q ∈ [r, r + 1, r + 2, r + 3], (vreg y q).length = 128) →
    LoadsLanes s g (execVldq x s) x.c x.m [r, r + 1, r + 2, r + 3] 16 (fun k => base + BitVec.ofNat 64 (16 * k)) fun _ bs => ofLe bs := by
  intro y base r h hb hl
  rw [execVldq_eq h.lane]
  refine memIssue_loadsLanes h (by simpa [memUse] using hb) rfl (by simp) hl rfl (odd := fun i => false) (fun i hi => ?_) fun i hi bs hbs => rfl
  rw [getD_contAddrs _ _ _ _ hi, if_neg (by decide), Nat.mul_comm]
  rfl
theorem execVldx_loads {x : IdxArgs} :
    let y := group s g
    let w := loadBits x.kind
    let dst := regs (w == 64) x.r x.c.stepD y.lane.rep
    let idx := regs x.a64 x.a x.c.stepA y.lane.rep
    let v := fun k => (vreg y (idx.headD 0)).getD k 0
    (vreg y (idx.headD 0)).length = 128 → (x.a64 = true → w ≠ 4 ∧ (vreg y (idx.headD 0 + 1)).length = 128) →
    LaneMemRuns s g x.m (if x.a64 then 0 else captured y x.base) → Below s g (dst ++ idx) [] → (∀ r ∈ dst, (vreg y r).length = 128) →
    LoadsLanes s g (execVldx x s) x.c x.m dst (max 1 (w / 8))
      (fun k => if x.a64 then (vreg y (idx.headD 0 + 1)).getD k 0 ++ v k
        else if w = 4 then captured y x.base + ((v k).sshiftRight 1).signExtend 64
        else captured y x.base + ((v k).signExtend 64 : Word) * BitVec.ofNat 64 (2 ^ x.scale.toNat))
      fun k bs => extendedLoad x.kind (if w = 4 then ofLe bs / (if (v k).getLsbD 0 then 16 else 1) % 16 else ofLe bs) := by
  intro y w dst idx v hlen hpair h hb hl
  rw [execVldx_eq h.lane]
  refine memIssue_loadsLanes h hb rfl (regs_nodup ..) hl rfl (fun i hi => getD_idxAddrs_form hlen hpair _ _ hi) fun i hi bs hbs => ?_
  exact laneLoad_nibble x.kind _ hbs
end

end Sys2Proof.Machine
end

section
/-! PROOFS. Memory spaces (family 05): lane prefetches (R241), and the claim on lane loads. -/

namespace Sys2Proof.Machine
open Sys2Proof

/-! What the prefetch of one line leaves of another (R241). -/

/-- Between the lines of a prefetch: beside walks, those who wait for them, their faults and the cores a state is the one that issued it; an agent
waits as before, of its line the core asks as before and holds what it held. -/
structure OtherLine (a : Agent) (c : Nat) (e : Nat × Word × Bool) (s t : State) : Prop where
  state : t = { s with cores := t.cores, work := { s.work with
    walks := t.work.walks, waits := t.work.waits, next := t.work.next, faults := t.work.faults } }
  faults : ∀ f ∈ t.work.faults, f ∈ s.work.faults
  waits : waiting t a = waiting s a
  want : e ∈ (core t c).want ↔ e ∈ (core s c).want
  ro : ∀ k ∈ (core s c).ro, k ∈ (core t c).ro

section
variable {a : Agent} {c : Nat} {e : Nat × Word × Bool} {s t u : State}

theorem OtherLine.refl : OtherLine a c e s s := ⟨rfl, fun _ h => h, rfl, Iff.rfl, fun _ h => h⟩
theorem OtherLine.trans (h : OtherLine a c e s t) (k : OtherLine a c e t u) : OtherLine a c e s u where
  state := by
    rw [k.state, h.state]
  faults f hf := h.faults f (k.faults f hf)
  waits := k.waits.trans h.waits
  want := k.want.trans h.want
  ro i hi := k.ro i (h.ro i hi)

theorem setWalk_otherLine (s : State) (w : Nat) (x : Option Walk) : OtherLine a c e s (setWalk s w x) := ⟨rfl, fun _ h => h, rfl, Iff.rfl, fun _ h => h⟩
theorem newName_otherLine (s : State) : OtherLine a c e s (newName s).2 := ⟨rfl, fun _ h => h, rfl, Iff.rfl, fun _ h => h⟩
theorem waits_otherLine (s : State) (l : List Waiter) (h : (l.any fun x => x.agent == a) = waiting s a) :
    OtherLine a c e s { s with work := { s.work with waits := l } } := ⟨rfl, fun _ h => h, h, Iff.rfl, fun _ h => h⟩
theorem clearFaults_otherLine (s : State) (b : Agent) : OtherLine a c e s (clearFaults s b) :=
  ⟨rfl, fun _ h => (List.mem_filter.mp h).1, rfl, Iff.rfl, fun _ h => h⟩
theorem modCore_otherLine (s : State) {f : Core → Core} (hw : e ∈ (f (core s c)).want ↔ e ∈ (core s c).want)
    (hr : ∀ k ∈ (core s c).ro, k ∈ (f (core s c)).ro) : OtherLine a c e s (modCore s c f) := by
  have hc : core (modCore s c f) c = f (core s c) := tget_tput_same ..
  exact ⟨rfl, fun _ h => h, rfl, by rw [hc]; exact hw, by rw [hc]; exact hr⟩
theorem noteLines_otherLine (s : State) (l : Nat) (va : Word) (n : Nat) : OtherLine a c e s (noteLines s c l va n) := by
  unfold noteLines
  dsimp only
  split
  · exact .refl
  · exact modCore_otherLine s Iff.rfl fun k hk => List.mem_append_left _ hk

variable {who : Who} (hne : who.agent ≠ a)
include hne

theorem joinWalk_otherLine (s : State) (va : Word) (reason : Nat) (acc : BitVec 3) : OtherLine a c e s (joinWalk s who va reason acc) := by
  have hjoin : ∀ (t : State) (w : Nat), OtherLine a c e t { t with work := { t.work with waits := t.work.waits ++ [⟨w, who.agent, acc, now t⟩] } } :=
    fun t w => waits_otherLine t _ (by simp [waiting, hne])
  unfold joinWalk
  split
  · exact .refl
  · split
    · dsimp only
      split
      · exact hjoin ..
      · exact (setWalk_otherLine ..).trans (hjoin ..)
    · exact ((newName_otherLine s).trans (setWalk_otherLine ..)).trans (hjoin ..)
theorem delivered_otherLine (s : State) (va : Word) : OtherLine a c e s (delivered s who va) := by
  unfold delivered
  split
  · exact .refl
  · next r hr =>
    have hagent : r.agent = who.agent := by
      have := List.find?_some hr
      simp only [Bool.and_eq_true, beq_iff_eq] at this
      exact this.1
    have hrest : OtherLine a c e s { s with work := { s.work with waits := s.work.waits.filter fun e => e != r } } := by
      refine waits_otherLine s _ ?_
      rw [waiting, List.any_filter]
      refine congrArg (s.work.waits.any ·) (funext fun x => ?_)
      by_cases hx : x = r
      · simp [hx, hagent, hne]
      · simp [hx]
    dsimp only
    split
    · exact hrest
    · exact hrest.trans (setWalk_otherLine ..)
theorem xlatePage_otherLine (s : State) (acc : BitVec 3) (va : Word) (n : Nat) : OtherLine a c e s (xlatePage s who acc va n).1 := by
  unfold xlatePage
  dsimp only
  split
  · exact .refl
  · split
    · exact .refl
    · split
      · exact joinWalk_otherLine hne ..
      · split
        · exact joinWalk_otherLine hne ..
        · split
          · exact joinWalk_otherLine hne ..
          · split
            · exact .refl
            · exact delivered_otherLine hne ..
theorem xlateFrom_otherLine (f : Nat) (s : State) (acc : BitVec 3) (va : Word) (n : Nat) : OtherLine a c e s (xlateFrom f s who acc va n).1 := by
  induction f generalizing s va n with
  | zero => exact .refl
  | succ f ih =>
    have hpage := xlatePage_otherLine (c := c) (e := e) hne s acc va (min n (0x10000 - bits va 15 0))
    unfold xlateFrom
    dsimp only
    split
    · exact .refl
    · split
      · next t gs heq =>
        rw [heq] at hpage
        have hrest := hpage.trans (ih t (va + BitVec.ofNat 64 (min n (0x10000 - bits va 15 0))) (n - min n (0x10000 - bits va 15 0)))
        split
        · next heq' => rw [heq'] at hrest; exact hrest
        · exact hrest
      · exact hpage
end

theorem prefetchLine_otherLine (s : State) {a : Agent} {e : Nat × Word × Bool} {c l : Nat} {va : Word} {ro : Bool} (hagent : .pref c l va ≠ a)
    (he : (l, va, ro) ≠ e) : OtherLine a c e s (prefetchLine s c l va ro) := by
  have hdrop : ∀ t : State, OtherLine a c e t
      (modCore (clearFaults t (.pref c l va)) c fun k => { k with want := k.want.filter (· != (l, va, ro)) }) := fun t =>
    (clearFaults_otherLine ..).trans (modCore_otherLine _ (by simp [List.mem_filter, he.symm]) fun _ h => h)
  have hx := xlateFrom_otherLine (c := c) (e := e) (who := ⟨.pref c l va, (launch s l).part, (launch s l).d.asn, (launch s l).d.mask, c⟩)
    hagent (1 / 0x10000 + 2) s 1 va 1
  unfold prefetchLine
  dsimp only
  split
  · exact hdrop s
  · rw [xlate]
    split
    · next heq =>
      rw [heq] at hx
      refine hx.trans (modCore_otherLine _ ?_ ?_)
      · split
        · exact Iff.rfl
        · simp [he.symm]
      · split <;> exact fun _ h => h
    · next heq =>
      rw [heq] at hx
      exact hx.trans (hdrop _)
    · next heq =>
      rw [heq] at hx
      split
      · exact (hx.trans (hdrop _)).trans (noteLines_otherLine ..)
      · exact hx.trans (hdrop _)
theorem prefetchLines_otherLine {a : Agent} {e : Nat × Word × Bool} {c l : Nat} {ro : Bool} (lines : List Word) (s : State)
    (h : ∀ v ∈ lines, .pref c l v ≠ a ∧ (l, v, ro) ≠ e) : OtherLine a c e s (lines.foldl (fun t v => prefetchLine t c l v ro) s) := by
  induction lines generalizing s with
  | nil => exact .refl
  | cons v lines ih =>
    obtain ⟨hagent, he⟩ := h v List.mem_cons_self
    exact (prefetchLine_otherLine s hagent he).trans (ih _ fun w hw => h w (List.mem_cons_of_mem _ hw))

/-! The prefetch of a line itself (R241, R322). -/

section
variable {s : State} {c l : Nat} {va : Word} {ro : Bool}

/-- Who asks for a line on behalf of a launch. -/
def prefWho (s : State) (c l : Nat) (va : Word) : Who := ⟨.pref c l va, (launch s l).part, (launch s l).d.asn, (launch s l).d.mask, c⟩

theorem bits16_lt (va : Word) : bits va 15 0 + 1 ≤ 0x10000 := Nat.mod_lt _ (by decide)
theorem not_dropped (hm : addressFault (launch s l).d.mask va 1 = none) (hw : ro = true → hostWindow va = false) :
    ((addressFault (launch s l).d.mask va 1).isSome || (ro && hostWindow va)) = false := by
  rw [hm]
  cases ro with
  | false => rfl
  | true => rw [hw rfl]; rfl

theorem joinWalk_waits (s : State) (who : Who) (va : Word) (reason : Nat) (acc : BitVec 3) : waiting (joinWalk s who va reason acc) who.agent = true := by
  have hjoin : ∀ (t : State) (w : Nat),
      waiting { t with work := { t.work with waits := t.work.waits ++ [⟨w, who.agent, acc, now t⟩] } } who.agent = true := by simp [waiting]
  unfold joinWalk
  split
  · assumption
  · split
    · dsimp only
      split <;> exact hjoin ..
    · exact hjoin ..
/-- A line whose page has no translation is asked for through a walk. -/
theorem prefetchLine_walks (hm : addressFault (launch s l).d.mask va 1 = none) (hw : ro = true → hostWindow va = false)
    (hf : ∀ f ∈ s.work.faults, f.1 ≠ .pref c l va) (hr : Reached s (prefWho s c l va) va 1)
    (ht : tlbFind (die s (ownerOf va)) (launch s l).part (launch s l).d.asn (pageOf va) = none) :
    (l, va, ro) ∈ (core (prefetchLine s c l va ro) c).want ∧ waiting (prefetchLine s c l va ro) (.pref c l va) = true := by
  have hx : xlate s ⟨.pref c l va, (launch s l).part, (launch s l).d.asn, (launch s l).d.mask, c⟩ 1 va 1 =
      (joinWalk s (prefWho s c l va) va 0 1, .wait) := xlate_walks (who := prefWho s c l va) hf hr (by decide) (bits16_lt va) ht
  simp only [prefetchLine, not_dropped hm hw, Bool.false_eq_true, if_false, hx]
  refine ⟨?_, joinWalk_waits ..⟩
  rw [modCore, core_setCore_same]
  split
  · next h => exact List.contains_iff_mem.mp h
  · exact List.mem_append_right _ (List.mem_singleton.mpr rfl)
theorem noteLines_notes (s : State) (c l : Nat) {va : Word} (hw : hostWindow va = false) :
    (core (noteLines s c l va 1) c).want = (core s c).want ∧ (l, va.toNat / 128) ∈ (core (noteLines s c l va 1) c).ro := by
  simp only [noteLines, hw, Bool.false_eq_true, if_false, modCore, core_setCore_same, true_and]
  by_cases h : (l, va.toNat / 128) ∈ (core s c).ro
  · exact List.mem_append_left _ h
  · refine List.mem_append_right _ (List.mem_filter.mpr ⟨List.mem_map.mpr ⟨0, List.mem_range.mpr (Nat.succ_pos _), rfl⟩, ?_⟩)
    simpa using h
/-- A line whose page the TLB translates comes, and a `.ro` form leaves it in the core's read-only L1. -/
theorem prefetchLine_comes (hm : addressFault (launch s l).d.mask va 1 = none) (hw : ro = true → hostWindow va = false)
    (hf : ∀ f ∈ s.work.faults, f.1 ≠ .pref c l va) (hr : Reached s (prefWho s c l va) va 1) {e : TlbEntry}
    (ht : tlbFind (die s (ownerOf va)) (launch s l).part (launch s l).d.asn (pageOf va) = some e) (hp : leafPermits e.leaf 1 = true)
    (hc : hostWindow va = true ∨ (die s (ownerOf va)).carve = none) :
    (l, va, ro) ∉ (core (prefetchLine s c l va ro) c).want ∧ (ro = true → (l, va.toNat / 128) ∈ (core (prefetchLine s c l va ro) c).ro) := by
  have hx : xlate s ⟨.pref c l va, (launch s l).part, (launch s l).d.asn, (launch s l).d.mask, c⟩ 1 va 1 =
      (s, .ok [⟨leafFlat e.leaf e.level va, 1, e.leaf.getLsbD 57⟩]) :=
    xlate_page (who := prefWho s c l va) (by decide) (bits16_lt va) hf ht hp (fun h => absurd h (by decide)) hc hr
  simp only [prefetchLine, not_dropped hm hw, Bool.false_eq_true, if_false, hx, clearFaults_none hf]
  have hwant : ∀ f : Core, (l, va, ro) ∉ f.want.filter (· != (l, va, ro)) := fun f => by simp
  cases hro : ro with
  | false =>
    rw [hro] at hwant
    simp only [Bool.false_eq_true, if_false, modCore, core_setCore_same, false_imp_iff, and_true]
    exact hwant _
  | true =>
    rw [hro] at hwant
    obtain ⟨hkeep, hnote⟩ := noteLines_notes (modCore s c fun k => { k with want := k.want.filter (· != (l, va, true)) }) c l (hw hro)
    rw [if_pos rfl]
    refine ⟨?_, fun _ => hnote⟩
    rw [hkeep, modCore, core_setCore_same]
    exact hwant _
end

/-! One prefetch instruction (R241). -/

theorem eraseDups_nodup {α : Type} [BEq α] [LawfulBEq α] (l : List α) : l.eraseDups.Nodup := by
  induction h : l.length using Nat.strong_induction_on generalizing l with
  | _ n ih =>
    cases l with
    | nil => simp
    | cons a l =>
      have hlt : (l.filter fun b => !b == a).length < n := by
        rw [← h, List.length_cons, Nat.lt_succ_iff]
        exact List.length_filter_le ..
      rw [List.eraseDups_cons, List.nodup_cons]
      exact ⟨by simp, ih _ hlt _ rfl⟩
theorem lanesOf_and_all {m : Mask} {p : Nat → Bool} (hp : ∀ i, p i = true) : lanesOf (m &&& maskOf p) = lanesOf m :=
  List.filter_congr fun i hi => by
    rw [BitVec.getLsbD_and, getLsbD_maskOf, decide_eq_true (List.mem_range.mp hi), hp, Bool.and_self, Bool.and_true]

/-- What a line's prefetch is to leave: it is asked for where its page has no translation, and has come where it has one (R241). -/
def LineFetched (s t : State) (g : Nat) (ro : Bool) (va : Word) : Prop :=
  let c := coreOf s g
  let l := launchOf s g
  let found := tlbFind (die s (ownerOf va)) (partOf s g) (descOf s g).asn (pageOf va)
  addressFault (descOf s g).mask va 1 = none → (ro = true → hostWindow va = false) → (∀ f ∈ s.work.faults, f.1 ≠ .pref c l va) →
  Reached s (whoOf s g (.pref c l va)) va 1 →
  (found = none → (l, va, ro) ∈ (core t c).want ∧ waiting t (.pref c l va) = true) ∧
  (∀ e, found = some e → leafPermits e.leaf 1 = true → (hostWindow va = true ∨ (die s (ownerOf va)).carve = none) →
    (l, va, ro) ∉ (core t c).want ∧ (ro = true → (l, va.toNat / 128) ∈ (core t c).ro))

section
variable {s : State} {g : Nat} {ro : Bool}

theorem OtherLine.reached {a : Agent} {c : Nat} {e : Nat × Word × Bool} {s t : State} (h : OtherLine a c e s t) {w : Who} (ha : w.agent = a) {va : Word}
    {n : Nat} (hr : Reached s w va n) : Reached t w va n := by
  obtain ⟨hs, hc, hw⟩ := hr
  have hwait : waiting t a = false := h.waits.trans (by rw [← ha]; exact not_waiting ⟨hs, hc, hw⟩)
  refine ⟨?_, ?_, fun x hx hxa => ?_⟩
  · exact ((congrArg (fun y : State => slicesHold y w va n) h.state).trans rfl).trans hs
  · exact ((congrArg (fun y : State => cutOff y (ownerOf va)) h.state).trans rfl).trans hc
  · have := List.any_eq_false.mp hwait x hx
    simp [hxa, ha] at this

theorem OtherLine.coreOf {a : Agent} {c : Nat} {e : Nat × Word × Bool} {s t : State} (h : OtherLine a c e s t) : coreOf t g = coreOf s g :=
  (congrArg (fun y : State => Machine.coreOf y g) h.state).trans rfl
theorem OtherLine.launchOf {a : Agent} {c : Nat} {e : Nat × Word × Bool} {s t : State} (h : OtherLine a c e s t) : launchOf t g = launchOf s g :=
  (congrArg (fun y : State => Machine.launchOf y g) h.state).trans rfl

/-- Of the lines of an instruction each is fetched, whatever the others are. -/
theorem prefetchLines_fetched {lines : List Word} (hd : lines.Nodup) {va : Word} (hva : va ∈ lines) :
    LineFetched s (lines.foldl (fun t v => prefetchLine t (coreOf s g) (launchOf s g) v ro) s) g ro va := by
  intro hm hw hf hr
  set c := coreOf s g
  set l := launchOf s g
  obtain ⟨before, after, rfl⟩ := List.append_of_mem hva
  obtain ⟨-, hd, hne⟩ := List.nodup_append.mp hd
  have hothers : ∀ v, v ≠ va → .pref c l v ≠ Agent.pref c l va ∧ (l, v, ro) ≠ (l, va, ro) := fun v hv =>
    ⟨fun h => hv (by injection h), fun h => hv (congrArg (fun p : Nat × Word × Bool => p.2.1) h)⟩
  rw [List.foldl_append, List.foldl_cons]
  have hfirst := prefetchLines_otherLine (a := .pref c l va) (e := (l, va, ro)) (c := c) (l := l) (ro := ro) before s fun v hv =>
    hothers v (hne v hv va List.mem_cons_self)
  generalize before.foldl (fun t v => prefetchLine t c l v ro) s = t at hfirst ⊢
  have hlast := prefetchLines_otherLine (a := .pref c l va) (e := (l, va, ro)) (c := c) (l := l) (ro := ro) after (prefetchLine t c l va ro) fun v hv =>
    hothers v fun h => (List.nodup_cons.mp hd).1 (h ▸ hv)
  generalize after.foldl (fun t v => prefetchLine t c l v ro) (prefetchLine t c l va ro) = u at hlast ⊢
  have hlaunch : launch t l = launch s l := (congrArg (fun y : State => launch y l) hfirst.state).trans rfl
  have hdie : die t (ownerOf va) = die s (ownerOf va) := (congrArg (fun y : State => die y (ownerOf va)) hfirst.state).trans rfl
  have hm' : addressFault (launch t l).d.mask va 1 = none := by rw [hlaunch]; exact hm
  have hf' : ∀ f ∈ t.work.faults, f.1 ≠ .pref c l va := fun f h => hf f (hfirst.faults f h)
  have hr' : Reached t (prefWho t c l va) va 1 := by
    rw [prefWho, hlaunch]
    exact hfirst.reached rfl hr
  refine ⟨fun hnone => ?_, fun e hsome hp hc => ?_⟩
  · obtain ⟨hwant, hwait⟩ := prefetchLine_walks hm' hw hf' hr' (by rw [hdie, hlaunch]; exact hnone)
    exact ⟨hlast.want.mpr hwant, hlast.waits.trans hwait⟩
  · obtain ⟨hwant, hnote⟩ := prefetchLine_comes hm' hw hf' hr' (by rw [hdie, hlaunch]; exact hsome) hp (by rw [hdie]; exact hc)
    exact ⟨fun h => hwant (hlast.want.mp h), fun h => hlast.ro _ (hnote h)⟩

/-- The core and the launch that ask are the group's own, whatever lines have been asked for. -/
theorem foldl_prefetchLine_own {c l : Nat} (lines : List Word) (t : State) (hc : coreOf t g = c) (hl : launchOf t g = l) :
    lines.foldl (fun t v => prefetchLine t (coreOf t g) (launchOf t g) v ro) t = lines.foldl (fun t v => prefetchLine t c l v ro) t := by
  induction lines generalizing t with
  | nil => rw [List.foldl_nil, List.foldl_nil]
  | cons v lines ih =>
    have hframe : OtherLine (.scalar 0) c (l + 1, v, ro) t (prefetchLine t c l v ro) := prefetchLine_otherLine t (by simp) (by simp)
    rw [List.foldl_cons, List.foldl_cons, hc, hl]
    exact ih _ (hframe.coreOf.trans hc) (hframe.launchOf.trans hl)

/-- A prefetch whose lanes' addresses are the given ones: no register and no byte of memory changes, and each executing lane's line is fetched. -/
theorem prefetch_fetches (h : LaneRuns s g) (hu : Unsampled s g) {c : LaneCtl} {src : List Nat} (hb : Below s g src [])
    {addrs : Group → List (Word × Bool)} {addr : Nat → Word} (ha : ∀ i < 128, ((addrs (group s g)).getD i (0, false)).1 = addr i) :
    ∃ t, prefetch s c ro src addrs = .next t ∧ t.mem = s.mem ∧
      (∀ k, group t k = if k = g then { group s g with lane := advanceLane (group s g).lane c.rep.toNat } else group s k) ∧
      ∀ k < 128, executes (group s g) c k = true → LineFetched s t g ro (addr k &&& ~~~127) := by
  obtain ⟨hcur, hpo, hf, hr⟩ := h
  have htrap : issueTrap (descOf s g) (memUse [] src [] [] c.pred false none) = none := issueTrap_below _ hb rfl
  have hlanes : lanesOf (bitsMask (execLanes (group s g) c.pred c.neg)) = servedLanes (group s g) c := lanesOf_bitsMask _
  have hstep : ∀ ex done last f, stepSample s g ex done last f = s := fun ex done last f => by simp only [stepSample, hu.2, List.find?_nil]
  generalize hlines : (servedLanes (group s g) c).map (fun i => ((addrs (group s g)).getD i (0, false)).1 &&& ~~~127) = lines
  obtain ⟨t, ht⟩ : ∃ t, lines.eraseDups.foldl (fun t v => prefetchLine t (coreOf s g) (launchOf s g) v ro) s = t := ⟨_, rfl⟩
  have hrun : prefetch s c ro src addrs = .next (laneAdvance t g c.rep.toNat (now s)) := by
    simp only [prefetch, onGroup, hcur, htrap, Option.isSome_none, Bool.false_eq_true, if_false, hpo, List.isEmpty_nil, Bool.true_or,
      noteSample_unsampled hu, hstep, lanesOf_and_all (p := fun _ => true) fun _ => rfl, hlanes, hlines, foldl_prefetchLine_own _ s rfl rfl, ht]
  have hframe := (prefetchLines_otherLine (a := .scalar 0) (e := (launchOf s g + 1, 0, ro)) (c := coreOf s g) (l := launchOf s g) (ro := ro) lines.eraseDups s
    fun v _ => ⟨by simp, by simp⟩).state
  rw [ht] at hframe
  have hgroup : ∀ k, group t k = group s k := fun k => (congrArg (fun y : State => group y k) hframe).trans rfl
  rw [laneAdvance_unparked (by rw [hgroup]; exact hf) (by rw [hgroup]; exact hr)] at hrun
  refine ⟨_, hrun, (congrArg State.mem hframe).trans rfl, fun k => ?_, fun k hk hex => ?_⟩
  · rw [laneNext, group_setGroup, hgroup, hgroup]
  · have hmem : addr k &&& ~~~127 ∈ lines.eraseDups := by
      rw [List.mem_eraseDups, ← hlines]
      exact List.mem_map.mpr ⟨k, mem_servedLanes.mpr ⟨hk, hex⟩, by rw [ha k hk]⟩
    have := prefetchLines_fetched (s := s) (g := g) (ro := ro) (eraseDups_nodup lines) hmem
    rw [ht] at this
    exact this
theorem execVpref_fetches (h : LaneRuns s g) (hu : Unsampled s g) {x : PrefArgs} (hb : Below s g [] []) :
    let y := group s g
    ∃ t, execVpref x s = .next t ∧ t.mem = s.mem ∧
      (∀ k, group t k = if k = g then { y with lane := advanceLane y.lane x.c.rep.toNat } else group s k) ∧
      ∀ k < 128, executes y x.c k = true →
        LineFetched s t g x.ro ((captured y x.base + (x.off.signExtend 64 : Word) + BitVec.ofNat 64 k) &&& ~~~127) :=
  prefetch_fetches h hu hb fun i hi => by rw [getD_contAddrs _ _ _ _ hi, if_neg (by decide), Nat.mul_one]
theorem execVprefx_fetches (h : LaneRuns s g) (hu : Unsampled s g) {x : PrefxArgs} :
    let y := group s g
    let idx := regs x.a64 x.a x.c.stepA y.lane.rep
    let v := fun k => (vreg y (idx.headD 0)).getD k 0
    (∀ r ∈ idx, (vreg y r).length = 128) → Below s g idx [] →
    ∃ t, execVprefx x s = .next t ∧ t.mem = s.mem ∧
      (∀ k, group t k = if k = g then { y with lane := advanceLane y.lane x.c.rep.toNat } else group s k) ∧
      ∀ k < 128, executes y x.c k = true →
        LineFetched s t g x.ro ((if x.a64 then (vreg y (idx.headD 0 + 1)).getD k 0 ++ v k
          else captured y x.base + ((v k).signExtend 64 : Word) * BitVec.ofNat 64 (2 ^ x.scale.toNat)) &&& ~~~127) := by
  intro y idx v hlen hb
  have hexec : execVprefx x s = prefetch s x.c x.ro idx fun z => idxAddrs z x.a64 false x.scale x.base (idx.headD 0) := by
    simp only [execVprefx, h.repNow, idxRegs]
    rfl
  have hlow : (vreg y (idx.headD 0)).length = 128 := hlen _ (by simp only [idx, regs]; cases x.a64 <;> simp)
  have hpair : x.a64 = true → 8 ≠ 4 ∧ (vreg y (idx.headD 0 + 1)).length = 128 := fun h64 =>
    ⟨by decide, hlen _ (by simp only [idx, regs, h64]; simp)⟩
  rw [hexec]
  refine prefetch_fetches h hu hb fun i hi => ?_
  exact congrArg Prod.fst (getD_idxAddrs_form (w := 8) hlow hpair _ _ hi)
end

/-- Settles O30: a load is one issue whose lanes are served in ascending order, each reading its own bytes; of a prefetch's lines each is fetched,
whatever the others are, since one line's prefetch leaves another's as it was. -/
theorem laneLoads : Obligations.LaneLoads := by
  unfold Obligations.LaneLoads
  refine ⟨fun s g => ?_, fun s g h hu => ?_⟩
  · intro y j loads width extended nib off
    refine ⟨?_, ?_, ?_⟩
    · intro x w base dst h hb hl
      exact execVld_loads (x := x) h hb hl
    · intro x base r h hb hl
      exact execVldq_loads (x := x) h hb hl
    · intro x _ w dst idx v hlen h hb hl
      obtain ⟨hlow, hpair⟩ := hlen
      exact execVldx_loads (x := x) hlow hpair h hb hl
  · intro y c l fetches
    refine ⟨?_, ?_⟩
    · intro x hb
      exact execVpref_fetches h hu hb
    · intro x idx v hlen hb
      exact execVprefx_fetches h hu hlen hb

end Sys2Proof.Machine
end
